-- ==== Sys2Proof/Word.lean ====
section
/-!
DEFINITION. The word types of the model: bytes, 32-bit register words, host numbers and sticky or counter registers.
-/
namespace Sys2Proof

/-- One byte. -/
abbrev Byte := BitVec 8

/-- A BAR0 register or a payload word (R37: BAR0 registers are 32 bits wide). -/
abbrev Word := BitVec 32

/-- A host ID: 1 for P0, 2 for P1, 3 for the I3C service host, 0 for the device itself or for "unowned". -/
abbrev HostId := BitVec 2

end Sys2Proof
end

