-- ==== Sys2Proof/Syntax.lean ====
section
/-!
DEFINITION. The commands of the LH8300: one constructor of Instr per row of spec/opcode_table.json.
Rows 0 to 96 are the host commands (their operand is the command entry of R438); the other rows are host accesses
and the events of the device's clocks, pins, links, sensors and engines.
-/
namespace Sys2Proof

/-- A command entry of R438 with the fields of its 32-byte header, the inline payload area, and the bytes that a
pointer payload (R439) refers to in host memory. The opcode is the row's, or the one a raw entry names. -/
structure Cmd where
  /-- Sending host, 1 to 3. -/
  host : HostId := 1
  /-- Command ring, 0 to 3; 0 for host 3. -/
  ring : BitVec 2 := 0
  /-- FLAGS: bit 0 PTR, 1 APPLY_AT, 2 FENCE, 3 QUIET. -/
  flags : BitVec 8 := 0
  version : BitVec 8 := 1
  seq : BitVec 32 := 0
  tclass : BitVec 16 := 0
  tindex : BitVec 16 := 0
  epoch : BitVec 16 := 0
  /-- PLEN: inline payload bytes. -/
  plen : BitVec 16 := 0
  corr : BitVec 64 := 0
  applyAt : BitVec 32 := 0
  crc : BitVec 32 := 0
  /-- The inline payload area (224 bytes, or its first bytes). -/
  inl : List Byte := []
  /-- The host-memory bytes at ADDR, of length LEN, when PTR is set. -/
  ptr : List Byte := []
  deriving DecidableEq, Repr, Inhabited

/-- A raw command entry: the 256 bytes of R438 and the host-memory bytes its descriptor refers to. -/
structure RawEntry where
  bytes : List Byte := []
  ptr : List Byte := []
  deriving DecidableEq, Repr, Inhabited

/-- A BAR2 access (R427). -/
inductive Bar2Access where
  | read (len : Nat)
  | write (data : List Byte)
  deriving DecidableEq, Repr, Inhabited

/-- What a failing walk step finds (R170). -/
inductive WalkFail where
  /-- A chain pin of chain c. -/
  | chainPin (c : Fin 4)
  /-- ISLOT or ISTB. -/
  | slotBus
  /-- A sense ball: the sense channels on it. -/
  | senseBall (chans : List (Fin 24))
  deriving DecidableEq, Repr, Inhabited

/-- What the sense die delivers to a loop input for one step: conversions, oldest first, each with its sampling instant in ns
(R182; of an NTC channel the thermistor's resistance in ohms, R561), the STALE flag and the sensor-fault flag (R183). -/
structure SenseIn where
  convs : List (Nat × Int) := []
  stale : Bool := false
  fault : Bool := false
  deriving DecidableEq, Repr, Inhabited

/-- How the ECC of R409 and R410 finds a read word; an access that reaches the wrong word is uncorrectable, as the check symbols cover
the address. -/
inductive EccOutcome where
  | clean | corrected | uncorrectable | wrongWord
  deriving DecidableEq, Repr, Inhabited

/-- The address spaces of R396 that a request may name. -/
inductive MemSpace where
  /-- A plane-region address (R397). -/
  | plane
  /-- A general-region address (R398). -/
  | general
  /-- An address in the device reserve (R396). -/
  | reserve
  deriving DecidableEq, Repr, Inhabited

/-- One 32-byte request of a memory port (R393, R400). -/
structure MemReq where
  port : Fin 11 := 0
  space : MemSpace := .general
  addr : Nat := 0
  /-- none reads the burst; some data writes its 32 bytes. -/
  data : Option (List Byte) := none
  /-- The request carries the enclave engine's tag (R406). -/
  enclave : Bool := false
  /-- It carries a close hint: on ports 1 and 2 with the last of the consecutive columns of a row, on port 3 as the engine sets it. -/
  closes : Bool := false
  /-- Nanoseconds for which bank timing holds it back (R403). -/
  waitNs : Nat := 0
  ecc : EccOutcome := .clean
  deriving DecidableEq, Repr, Inhabited

/-- The outcome of a transfer from host memory (R405, R483). -/
inductive IngestResult where
  /-- The bytes read from HOST_ADDR. -/
  | data (bytes : List Byte)
  /-- The transfer from host memory failed. -/
  | hostError
  /-- An uncorrectable device-memory error met the transfer (R410). -/
  | dataError
  deriving DecidableEq, Repr, Inhabited

/-- The outcome of an enclave service (R486). -/
inductive ServiceResult where
  | ok
  /-- The write of the result to host memory failed. -/
  | hostError
  /-- A self-test failed (R487). -/
  | testFail
  deriving DecidableEq, Repr, Inhabited

/-- The commands of the block: the rows of spec/opcode_table.json, in the table's order. -/
inductive Instr where
  /-- SESSION_OPEN (R432): Opens a session for the sending host, ending any open one, and returns its session number. -/
  | sessionOpen (cmd : Cmd)
  /-- SESSION_CLOSE (R433): Ends the sender's session, which makes the host absent. -/
  | sessionClose (cmd : Cmd)
  /-- HEARTBEAT (R433): Renews the sender's lease. -/
  | heartbeat (cmd : Cmd)
  /-- CLAIM (R435): Makes the sender the owner of a claimable resource, or refuses with NOT_OWNER. -/
  | claim (cmd : Cmd)
  /-- RELEASE (R436): Makes a resource unowned, or hands it to a named host with an open session. -/
  | release (cmd : Cmd)
  /-- EVENT_MASK_SET (R451): Sets which block vectors signal the sender. -/
  | eventMaskSet (cmd : Cmd)
  /-- CP_RESET (R452): Re-initialises one command-processor core and passes its rings to the other cores. -/
  | cpReset (cmd : Cmd)
  /-- TIMING_SET (R43): Writes the timing shadow: rate, source list, loop and REF_IN settings. -/
  | timingSet (cmd : Cmd)
  /-- CAMERA_SET (R67): Writes the shadow settings of one camera. -/
  | cameraSet (cmd : Cmd)
  /-- VIEW_BIND (R77): Binds a view to a camera, to the audience or to nothing from the next boundary. -/
  | viewBind (cmd : Cmd)
  /-- TIMING_COMMIT (R81): Validates the timing shadows and schedules the new mode for the next period boundary. -/
  | timingCommit (cmd : Cmd)
  /-- PHASE_STEER (R62): Delivers one host-steering phase sample while source code 2 is active. -/
  | phaseSteer (cmd : Cmd)
  /-- PHASE_MARK_SET (R91): Sets the mode and timing of a PHASE_MARK output or of REF_OUT from the next boundary. -/
  | phaseMarkSet (cmd : Cmd)
  /-- SEQ_PORT_SET (R107): Sets the port enable, the link set and the settle and lead overrides of a port. -/
  | seqPortSet (cmd : Cmd)
  /-- SEQ_LOAD (R95): Loads or removes a shadow sequence of one kind for a port. -/
  | seqLoad (cmd : Cmd)
  /-- SEQ_COMMIT (R115): Validates the shadow sequences of the masked ports and schedules them for the next boundary. -/
  | seqCommit (cmd : Cmd)
  /-- SEQ_DRIVE_SET (R110): Writes the drive table of a port. -/
  | seqDriveSet (cmd : Cmd)
  /-- HOLD_SET (R124): Requests hold mode on a held plane, or changes level, entries or plane during hold. -/
  | holdSet (cmd : Cmd)
  /-- HOLD_EXIT (R132): Restarts the compositor and fabric and requests the port's exit from hold. -/
  | holdExit (cmd : Cmd)
  /-- PLANE_STORE_SET (R247): Allocates or frees the plane store of a view. -/
  | planeStoreSet (cmd : Cmd)
  /-- ILL_CHAIN_SET (R152): Enables, re-initialises or disables an illumination chain. -/
  | illChainSet (cmd : Cmd)
  /-- ILL_DEVICE_SET (R160): Sets a driver device's port, group and nominal bases from the next boundary. -/
  | illDeviceSet (cmd : Cmd)
  /-- ILL_WEIGHT_SET (R150): Sets the weight list of a primary group from the next boundary. -/
  | illWeightSet (cmd : Cmd)
  /-- ILL_FADE (R161): Starts a fade of a group's factor toward a target. -/
  | illFade (cmd : Cmd)
  /-- ILL_TC_SET (R162): Sets the temperature points of a primary. -/
  | illTcSet (cmd : Cmd)
  /-- ILL_STRING_SET (R166): Configures a string sense channel, clears its state and arms it. -/
  | illStringSet (cmd : Cmd)
  /-- ILL_DIAG_SET (R170): Sets the sense settle time and the walk interval. -/
  | illDiagSet (cmd : Cmd)
  /-- LOOP_SET (R173): Allocates, configures, starts or frees a loop slot. -/
  | loopSet (cmd : Cmd)
  /-- LOOP_COEF_SET (R194): Loads one region's coefficient set of a loop. -/
  | loopCoefSet (cmd : Cmd)
  /-- LOOP_REF_SET (R195): Sets new reference targets of a loop. -/
  | loopRefSet (cmd : Cmd)
  /-- LOOP_GROUP_SET (R192): Sets the destination and default of a lowest-wins group. -/
  | loopGroupSet (cmd : Cmd)
  /-- LOOP_ARM (R198): Takes a loop out of FAULT into RAMP. -/
  | loopArm (cmd : Cmd)
  /-- LOOP_PWM_SET (R200): Sets a PWM output's carrier, failsafe duty, enable and polarity. -/
  | loopPwmSet (cmd : Cmd)
  /-- XCL_REGION_SET (R202): Replaces named regions of an exclusion set and creates a new version. -/
  | xclRegionSet (cmd : Cmd)
  /-- XCL_MASK_LOAD (R207): Converts a mask plane from a buffer into runs and creates a new version. -/
  | xclMaskLoad (cmd : Cmd)
  /-- XCL_HOST_BLANK (R225): Raises blank source 11 and enters the safe state. -/
  | xclHostBlank (cmd : Cmd)
  /-- XCL_SAFE_RELEASE (R231): Clears the safe-state latch when every latched source is inactive. -/
  | xclSafeRelease (cmd : Cmd)
  /-- SYM_LIST_SET (R235): Sets the symbol list of a view. -/
  | symListSet (cmd : Cmd)
  /-- SYM_GLYPH_LOAD (R236): Copies glyphs from a buffer into the glyph store. -/
  | symGlyphLoad (cmd : Cmd)
  /-- LINK_ALLOT (R24): Validates an octet allotment and schedules it for the next boundary. -/
  | linkAllot (cmd : Cmd)
  /-- LINK_LANE_SET (R562): Sets swing, equalisation and back-channel boost of an octet's lanes. -/
  | linkLaneSet (cmd : Cmd)
  /-- LINK_OCTET_RESET (R295): Cycles an octet's domain and retrains its port's octets. -/
  | linkOctetReset (cmd : Cmd)
  /-- LINK_DIAG (R26): Runs TRAIN frames or PRBS31 on a spare octet, or turns it off. -/
  | linkDiag (cmd : Cmd)
  /-- AHM_POLICY_SET (R308): Sets AUTO_RESTORE and REFUSE_LIMIT of a port. -/
  | ahmPolicySet (cmd : Cmd)
  /-- AHM_SCAN_START (R318): Requests a defect scan of a PRESENT array from the next boundary. -/
  | ahmScanStart (cmd : Cmd)
  /-- AHM_SCAN_ABORT (R320): Aborts a running defect scan and keeps the previous map. -/
  | ahmScanAbort (cmd : Cmd)
  /-- AHM_DEFECT_READ (R314): Copies a port's defect map into a buffer. -/
  | ahmDefectRead (cmd : Cmd)
  /-- AHM_PARK (R326): Sends PARK with ARG 1 to an array at the next boundary. -/
  | ahmPark (cmd : Cmd)
  /-- AHM_PARK_RELEASE (R326): Sends PARK with ARG 0 to an array at the next boundary. -/
  | ahmParkRelease (cmd : Cmd)
  /-- CMP_VIEW_SET (R328): Writes a view's canvas, lead, background and post-LUT shadow. -/
  | cmpViewSet (cmd : Cmd)
  /-- CMP_PIPE_BIND (R329): Binds a layer pipe to a view or unbinds it. -/
  | cmpPipeBind (cmd : Cmd)
  /-- CMP_LAYER_SET (R336): Writes a layer pipe's shadow configuration. -/
  | cmpLayerSet (cmd : Cmd)
  /-- CMP_LUT_SET (R343): Writes the shadow input LUT of a pipe or post-blend LUT of a view. -/
  | cmpLutSet (cmd : Cmd)
  /-- CMP_WRITEBACK_SET (R348): Writes a view's shadow writeback setting. -/
  | cmpWritebackSet (cmd : Cmd)
  /-- CMP_COMMIT (R350): Checks and schedules the composition shadows of the masked views. -/
  | cmpCommit (cmd : Cmd)
  /-- FAB_IMAGE_LOAD (R366): Loads a program image into an image slot. -/
  | fabImageLoad (cmd : Cmd)
  /-- FAB_CHAIN_SET (R368): Checks a view's role chain, loads its new clusters and schedules the switch. -/
  | fabChainSet (cmd : Cmd)
  /-- FAB_CHAIN_GO (R372): Releases a chain switch that waits for it. -/
  | fabChainGo (cmd : Cmd)
  /-- FAB_PARAM_SET (R388): Sets the parameters of a stage from the next boundary. -/
  | fabParamSet (cmd : Cmd)
  /-- FAB_CLUSTER_RESET (R376): Cycles a cluster's domain and reloads it. -/
  | fabClusterReset (cmd : Cmd)
  /-- BUF_ALLOC (R354): Allocates a buffer in the general region and returns its handle. -/
  | bufAlloc (cmd : Cmd)
  /-- BUF_FREE (R357): Frees a buffer, or makes it free-pending while referenced. -/
  | bufFree (cmd : Cmd)
  /-- BUF_SIGNAL (R355): Increments or sets a buffer's fence counter after a memory fence. -/
  | bufSignal (cmd : Cmd)
  /-- BUF_INGEST (R405): Starts a transfer from host memory into a buffer, optionally through the inline decryption engine. -/
  | bufIngest (cmd : Cmd)
  /-- MEM_LAYOUT_SET (R399): Changes plane rows, order, grain or sparing while memory is unused. -/
  | memLayoutSet (cmd : Cmd)
  /-- MEM_RESERVE_SET (R402): Sets the pool reservations from the next boundary. -/
  | memReserveSet (cmd : Cmd)
  /-- MEM_POLICY_SET (R403): Sets age limits, idle times, neighbour refresh, scrub, migration rate and port classes. -/
  | memPolicySet (cmd : Cmd)
  /-- MEM_FENCE (R405): Completes once every earlier write of the sender is accepted. -/
  | memFence (cmd : Cmd)
  /-- MEM_RANK_RETIRE (R413): Starts a migration of a logical rank into the spare. -/
  | memRankRetire (cmd : Cmd)
  /-- MEM_RETRAIN (R421): Starts run-time retraining of named pseudo-channels. -/
  | memRetrain (cmd : Cmd)
  /-- UPDATE_BEGIN (R469): Starts an update: marks the other slot INCOMPLETE and erases it. -/
  | updateBegin (cmd : Cmd)
  /-- UPDATE_DATA (R469): Writes image bytes in order into the slot being updated, with read-back. -/
  | updateData (cmd : Cmd)
  /-- UPDATE_COMMIT (R469): Verifies the updated slot and marks it VALID or INVALID. -/
  | updateCommit (cmd : Cmd)
  /-- MGT_FUSE_ADVANCE (R471): Starts burning anti-rollback fuses up to the running image's SVN. -/
  | mgtFuseAdvance (cmd : Cmd)
  /-- MGT_FUSE_REVOKE (R471): Revokes one image-signing key index. -/
  | mgtFuseRevoke (cmd : Cmd)
  /-- MGT_BOOTCFG_SET (R468): Writes the boot configuration record for the next cold reset. -/
  | mgtBootcfgSet (cmd : Cmd)
  /-- MGT_READ (R475): Copies event-log records, the fault record or the certificate chain to host memory. -/
  | mgtRead (cmd : Cmd)
  /-- MGT_FAULT_CLEAR (R474): Clears named fields of the fault record. -/
  | mgtFaultClear (cmd : Cmd)
  /-- MGT_REINIT (R458): Re-initialises the management subsystem. -/
  | mgtReinit (cmd : Cmd)
  /-- SEC_CHALLENGE (R479): Generates a login nonce for the sending host. -/
  | secChallenge (cmd : Cmd)
  /-- SEC_LOGIN (R479): Authenticates the sender into a role, or logs it out. -/
  | secLogin (cmd : Cmd)
  /-- SEC_USER_SET (R478): Enrols or disables a user identity digest. -/
  | secUserSet (cmd : Cmd)
  /-- SEC_POLICY_SET (R480): Sets MARK_REQUIRED and the tamper loop mask. -/
  | secPolicySet (cmd : Cmd)
  /-- SEC_KEM_GEN (R482): Generates an ML-KEM key pair in a context and writes ek with a quote. -/
  | secKemGen (cmd : Cmd)
  /-- SEC_KEY_LOAD (R482): Decapsulates and unwraps a content key into a key slot. -/
  | secKeyLoad (cmd : Cmd)
  /-- SEC_KEY_ZERO (R482): Zeroises a content-key slot. -/
  | secKeyZero (cmd : Cmd)
  /-- SEC_QUOTE (R486): Writes a signed attestation quote to host memory. -/
  | secQuote (cmd : Cmd)
  /-- SEC_MARK_SET (R485): Sets the forensic-mark payload and strength. -/
  | secMarkSet (cmd : Cmd)
  /-- SEC_SELFTEST (R487): Runs the enclave known-answer tests on demand. -/
  | secSelftest (cmd : Cmd)
  /-- SEC_ZEROISE (R489): Zeroises the enclave, optionally resuming with a new BBRAM secret. -/
  | secZeroise (cmd : Cmd)
  /-- SEC_PROVISION (R477): Writes the crypto-officer digests and generates the BBRAM secret. -/
  | secProvision (cmd : Cmd)
  /-- PWR_ITEM_SET (R511): Defines or deletes a PMBus telemetry item. -/
  | pwrItemSet (cmd : Cmd)
  /-- THM_SET (R520): Sets the light limit slope and VCORE margin. -/
  | thmSet (cmd : Cmd)
  /-- PWR_STANDBY_ENTER (R526): Puts the device into standby. -/
  | pwrStandbyEnter (cmd : Cmd)
  /-- PWR_STANDBY_EXIT (R527): Brings the device out of standby. -/
  | pwrStandbyExit (cmd : Cmd)
  /-- JOURNAL_READ (R453): Copies journal entries to host memory. -/
  | journalRead (cmd : Cmd)
  /-- JOURNAL_MARK (R453): Writes a MARK entry with a host tag into the journal. -/
  | journalMark (cmd : Cmd)
  /-- CRING_DOORBELL (R438): Host advances a command ring's tail, making entries available for acceptance. -/
  | cringDoorbell (h : Fin 2) (ring : Fin 4) (tail : BitVec 32) (entries : List RawEntry)
  /-- RRING_DOORBELL (R456): Host reports consumed reply entries, freeing room and resuming a stalled command ring. -/
  | rringDoorbell (h : Fin 2) (ring : Fin 4) (head : BitVec 32)
  /-- RING_CFG_WRITE (R456): Host writes a ring's base or configuration, enabling or disabling it. -/
  | ringCfgWrite (h : Fin 2) (off : BitVec 17) (val : BitVec 32)
  /-- I3C_COMMAND_WRITE (R430): Service host writes one command entry over I3C. -/
  | i3cCommandWrite (entry : RawEntry)
  /-- I3C_BAR0_READ_SETUP (R430): Service host sets up a BAR0 read. -/
  | i3cBar0ReadSetup (off : BitVec 24) (count : BitVec 8)
  /-- I3C_BAR0_WRITE (R430): Service host writes a BAR0 doorbell, W1C or W1S field. -/
  | i3cBar0Write (off : BitVec 24) (val : BitVec 32)
  /-- I3C_PRIVATE_READ (R431): Service host reads pending BAR0 words or the oldest reply entry. -/
  | i3cPrivateRead
  /-- REGISTER_WRITE (R9): Host write to a register field without a row of its own, such as a W1C sticky clear. -/
  | registerWrite (h : Fin 2) (off : BitVec 24) (val : BitVec 32)
  /-- UNMAPPED (R37): BAR0 access at an unmapped offset or with a bad size, which completes without error and is counted. -/
  | unmapped (h : Fin 2) (off : BitVec 24) (size : Nat) (write : Bool)
  /-- BAR2_ACCESS (R427): Host read or write through BAR2 to a mapped buffer, dropped when unmapped or scan-locked. -/
  | bar2Access (h : Fin 2) (off : Nat) (acc : Bar2Access)
  /-- FREEZE_WRITE (R501): Host writes CAL_Rr_CTRL.FREEZE; unfreezing a written MEM region starts a retrain. -/
  | freezeWrite (r : Fin 92) (val : BitVec 32)
  /-- CAL_SET_WRITE (R501): Host writes a calibration set word, ignored unless the region is frozen. -/
  | calSetWrite (r : Fin 92) (set : Fin 4) (word : Fin 28) (val : BitVec 32)
  /-- CAL_CLASS_CTRL_WRITE (R503): Host writes a class's step interval, deadband, dark interval or enable, clamped to range. -/
  | calClassCtrlWrite (k : Fin 5) (val : BitVec 32)
  /-- FLR (R429): Function Level Reset disables the function's rings and ends its host's session. -/
  | flr (h : Fin 2)
  /-- PERST_N (R429): Assertion of a PCIe port's PERST_N ends its host's session and disables its rings. -/
  | perstN (h : Fin 2)
  /-- DL_DOWN (R429): Loss of a PCIe link ends its host's session and disables its rings. -/
  | dlDown (h : Fin 2)
  /-- HIF_READY (R428): The port starts answering configuration requests after reset. -/
  | hifReady
  /-- JOURNAL_ENTRY_PERSISTED (R453): A journal entry reaches MRAM, or the MRAM write fails and the journal turns volatile. -/
  | journalEntryPersisted (ok : Bool)
  /-- MSIX_COALESCE_EXPIRE (R451): The 10 µs coalescing interval of a vector ends and a held message is sent. -/
  | msixCoalesceExpire (h : Fin 2) (vec : Fin 64)
  /-- LEASE_EXPIRE (R433): A session lease runs out and the host becomes absent. -/
  | leaseExpire (h : Fin 3)
  /-- CP_WATCHDOG (R452): A core that spends more than 1 ms on one command is reset; the operand is the core and, where it still has one, that
  command with its opcode. -/
  | cpWatchdog (c : Fin 4 × Option (BitVec 16 × Cmd))
  /-- CP_CORE_POWER_ON (R452): A further core powers on when more than 8 commands await acceptance. -/
  | cpCorePowerOn (c : Fin 4)
  /-- CP_CORE_IDLE_OFF (R452): A core powers off after 10 ms without a command. -/
  | cpCoreIdleOff (c : Fin 4)
  /-- PORST_N_ASSERT (R528): Cold reset entry: blank source 11 raised and outputs to reset state. -/
  | porstNAssert
  /-- PORST_N_RELEASE (R569): Cold reset release: straps sampled, ROM boot and the reset mode at a first boundary. -/
  | porstNRelease (straps : BitVec 4)
  /-- WRST_N_ASSERT (R528): Warm reset entry: blank source 11 raised, state saved, sessions ended. -/
  | wrstNAssert
  /-- WRST_N_RELEASE (R529): Warm reset release with the kept state and incremented role epochs. -/
  | wrstNRelease
  /-- UVLO_RISING (R504): VIN passes 8.6 V and the always-on domains start. -/
  | uvloRising (mv : BitVec 16)
  /-- UVLO_FALLING (R504): VIN falls below 8.2 V and the device becomes unpowered. -/
  | uvloFalling (mv : BitVec 16)
  /-- VIN_HIGH (R504): VIN crosses the high threshold and is reported. -/
  | vinHigh (mv : BitVec 16)
  /-- VIN_LOW (R504): VIN falls through 8.8 V; reported and the event log flushed. -/
  | vinLow (mv : BitVec 16)
  /-- VBAT_LOW (R506): VBAT falls below 2.3 V with VIN present and is reported. -/
  | vbatLow
  /-- RAIL_SEQ_STEP (R508): One main-rail sequencing step is confirmed good. -/
  | railSeqStep
  /-- RAIL_SEQ_TIMEOUT (R508): A rail step fails to confirm within 4 ms; rails go off and a retry is scheduled. -/
  | railSeqTimeout
  /-- RAIL_SEQ_RETRY (R508): The 1 s wait after a sequencing failure ends and sequencing restarts. -/
  | railSeqRetry
  /-- PGOOD_FALL (R510): A PGOOD input low for 2 µs after sequencing is a rail fault with an internal warm reset. -/
  | pgoodFall (i : Fin 4)
  /-- AVS_UPDATE (R509): Every 10 ms stage-1 sets the VCORE set point over AVSBus. -/
  | avsUpdate (readback : Nat)
  /-- PMBUS_ITEM_POLL (R511): A telemetry item is polled and converted, entering fault after three failed polls. -/
  | pmbusItemPoll (i : Fin 32) (raw : Option (BitVec 16)) (voutMode : BitVec 8)
  /-- PMBUS_ALERT (R511): The PMBus ALERT line asserts and STATUS_WORD is read from every rail. -/
  | pmbusAlert (words : List (BitVec 16))
  /-- DOMAIN_SWITCH_ON (R513): A queued power domain finishes switching on in its reset state. -/
  | domainSwitchOn
  /-- THERMAL_SAMPLE (R516): All die sensors are sampled and the thermal state, throttle and light limit updated. -/
  | thermalSample (readings : List (Option Int))
  /-- SHUTDOWN_RESTART (R524): After 10 s below the restart level the picture path restarts. -/
  | shutdownRestart
  /-- SAFE_BLANK_N_FALL (R225): SAFE_BLANK_N low for 40 ns raises source 0 and enters the safe state. -/
  | safeBlankNFall
  /-- SAFE_BLANK_N_RISE (R225): SAFE_BLANK_N returns high and level source 0 becomes inactive. -/
  | safeBlankNRise
  /-- ILOCK_OPEN (R225): An interlock input opens for 40 ns, raising its latched source. -/
  | ilockOpen (b : Fin 2)
  /-- ILOCK_CLOSE (R230): An interlock input closes, starting its 10 ms closed count. -/
  | ilockClose (b : Fin 2)
  /-- ILOCK_CLOSED_10MS (R230): Both interlock inputs have stayed closed for 10 ms and the sources become inactive. -/
  | ilockClosed10ms
  /-- ILOCK_DISC (R230): The two interlock inputs differ for more than 100 ms. -/
  | ilockDisc
  /-- CLOCK_MONITOR_FAULT (R32): A clock monitor reports its clock missing or out of band and the hardware response is made. -/
  | clockMonitorFault (m : Fin 16)
  /-- CLOCK_MONITOR_GOOD (R32): A clock monitor reports its clock good again. -/
  | clockMonitorGood (m : Fin 16)
  /-- PERIOD_BOUNDARY (R41): The tick count wraps to 0: frame number increments and boundary applies run in the order of R117. -/
  | periodBoundary
  /-- WINDOW_FREEZE (R69): At tick 16,711,680 the next-period windows are frozen and the window check runs. -/
  | windowFreeze
  /-- SELECTION_POINT (R256): Completeness is tested and frames selected for the coming period. -/
  | selectionPoint
  /-- REF_LOSS (R56): Ref-loss-limit periods pass without a valid sample and the phase keeper enters HOLDOVER. -/
  | refLoss
  /-- HOLDOVER_EXPIRE (R60): The holdover limit expires and the phase keeper enters UNLOCKED. -/
  | holdoverExpire
  /-- STEER_TIMEOUT (R63): No PHASE_STEER arrives within the steering timeout and the source is lost. -/
  | steerTimeout
  /-- LOCK_TIMEOUT (R87): The settle limit expires before lock; ports stay dark and the commit completes LOCK_TIMEOUT. -/
  | lockTimeout
  /-- REF_IN_EDGE (R48): An edge on REF_IN is timestamped and used as a phase sample or step. -/
  | refInEdge (rising : Bool)
  /-- CAM_SHUT_EDGE (R65): A camera shutter edge is timestamped and updates the window predictions and camera state. -/
  | camShutEdge (c : Fin 4) (level : Bool)
  /-- CAM_OPEN_EDGE_MISSING (R71): No open edge by predicted start plus the outlier limit; the camera coasts or becomes LOST. -/
  | camOpenEdgeMissing (c : Fin 4)
  /-- PHASE_MARK_EDGE (R91): A PHASE_MARK output starts or ends its pulse at its scheduled tick. -/
  | phaseMarkEdge (i : Fin 5) (active : Bool)
  /-- SLOT_START (R102): A slot starts: entries are set, the slot-bus code strobed, and loop SLOT triggers fire at slot ends. -/
  | slotStart (p : Fin 4)
  /-- SLOT_SETTLE_END (R102): SETTLE_TK after a global slot's start, its entries are set. -/
  | slotSettleEnd (p : Fin 4)
  /-- BAND_RESET_QUEUE (R279): At u_b(k) minus LEAD_TK the band reset with its witness and delay is queued. -/
  | bandResetQueue (p : Fin 4) (b : Fin 16)
  /-- BAND_CHANGEOVER (R214): At u_b(k) band b takes the newest ready exclusion version. -/
  | bandChangeover (p : Fin 4) (b : Fin 16)
  /-- PLANE_ROW_FETCH (R255): A plane reader fetches a slot's rows once buffer space allows. -/
  | planeRowFetch (p : Fin 4)
  /-- LINK_FRAME_INTERVAL (R270): A port sends one frame interval of stream units on all its lanes. -/
  | linkFrameInterval (p : Fin 4)
  /-- HOLD_TIMEOUT (R125): No HOLD_BREAK slot ends within two periods and HOLD_SET completes TIMEOUT. -/
  | holdTimeout (p : Fin 4)
  /-- HOLD_SUBSLOT (R126): A hold sub-slot boundary sets lit or dark and may start or end a reload. -/
  | holdSubslot (p : Fin 4)
  /-- KEEPALIVE_BURST (R297): In hold a keep-alive burst is sent every KA_US. -/
  | keepaliveBurst (p : Fin 4)
  /-- CHAIN_FRAME (R154): A chain frame shifts words to every driver and ends with a LOAD. -/
  | chainFrame (c : Fin 4) (responses : List (BitVec 40))
  /-- STARTUP_WALK_DONE (R170): The start-up pin walk of a chain ends, to DISCOVER or FAULT. -/
  | startupWalkDone (c : Fin 4) (fail : Option WalkFail)
  /-- DISCOVER_DONE (R153): Discovery finds N, writes every driver and enters RUN, or fails. -/
  | discoverDone (c : Fin 4) (delay : Nat) (ids : List (BitVec 16))
  /-- DISCOVER_TIMEOUT (R152): DISCOVER lasts 10 ms and the chain enters FAULT. -/
  | discoverTimeout (c : Fin 4)
  /-- WALK_STEP (R170): Every WALK_S a walk step of one pin group runs in a DIAG_OK slot. -/
  | walkStep (fail : Option WalkFail)
  /-- DIAG_PULSE (R167): A diagnostic pulse drives a LOWDUTY string in a DIAG_OK slot and measures it. -/
  | diagPulse
  /-- STRING_MEASUREMENT (R166): A string's voltage is averaged in an eligible interval and classed open, short or good. -/
  | stringMeasurement (s : Fin 24) (mv : BitVec 16) (stale : Bool)
  /-- DIAG_STARVED (R168): One second passes with no DIAG_OK slot while a chain runs. -/
  | diagStarved
  /-- LOOP_TRIGGER (R176): A loop's TIME, TICK or SLOT trigger fires, or is dropped as an overrun. -/
  | loopTrigger (n : Fin 64)
  /-- LOOP_STEP (R184): One execution of a loop's control law, entering its outputs into groups. -/
  | loopStep (n : Fin 64) (sense : List SenseIn)
  /-- PWM_PERIOD_START (R200): A PWM carrier period starts and takes its duty. -/
  | pwmPeriodStart (n : Fin 8)
  /-- XCL_VERSION_READY (R213): A new exclusion version becomes ready after its copies are compared. -/
  | xclVersionReady (p : Fin 4) (agree : Bool)
  /-- SLICER_BAND_OFFER (R244): The fabric offers a band to the lowest IDLE slicer, which starts filling. -/
  | slicerBandOffer (v : Fin 5)
  /-- SLICER_FILL_DONE (R243): A slicer has received its band and starts draining. -/
  | slicerFillDone (s : Fin 8)
  /-- SLICER_DRAIN_DONE (R244): A slicer's last burst is written and it returns to IDLE. -/
  | slicerDrainDone (s : Fin 8)
  /-- CMP_FRAME_START (R331): A view-frame's composition starts at its start instant, or is skipped. -/
  | cmpFrameStart (v : Fin 5) (fofs : BitVec 2)
  /-- CMP_FRAME_DONE (R348): A view-frame's composition ends, with any writeback completed. -/
  | cmpFrameDone (v : Fin 5)
  /-- FAB_BAND_START (R377): An output band enters stage 0 once the canvas holds its rows. -/
  | fabBandStart (v : Fin 5)
  /-- FAB_BAND_DONE (R377): A band leaves the last stage toward a slicer. -/
  | fabBandDone (v : Fin 5)
  /-- SYMB_RENDER_START (R386): Symbol rendering of a view-frame starts one frame interval before composition. -/
  | symbRenderStart (v : Fin 5) (fofs : BitVec 2)
  /-- SYMB_RENDER_DONE (R386): Symbol rendering of a view-frame completes. -/
  | symbRenderDone (v : Fin 5)
  /-- CLUSTER_LOAD_DONE (R370): A cluster finishes loading its image and enters STANDBY or ACTIVE. -/
  | clusterLoadDone (n : Fin 64)
  /-- CLUSTER_DRAIN_DONE (R372): A draining cluster finishes its frames and switches off. -/
  | clusterDrainDone (n : Fin 64)
  /-- FAB_SRAM_UE (R391): An uncorrectable SRAM error drops the frame and reloads the cluster. -/
  | fabSramUe (n : Fin 64)
  /-- MEM_REQUEST (R403): A request from a port is scheduled and served by a pseudo-channel. -/
  | memRequest (q : MemReq)
  /-- REQUEST_PROMOTE (R403): A request exceeds its class's age limit and is promoted. -/
  | requestPromote (n : Fin 11)
  /-- PAGE_IDLE_CLOSE (R401): An open row is closed after PAGE_IDLE_NS. -/
  | pageIdleClose (pc : Fin 32) (rank : Fin 4) (bank : Fin 16)
  /-- REFRESH (R407): A bank is refreshed at its interval. -/
  | refresh (pc : Fin 32) (rank : Fin 4) (bank : Fin 16)
  /-- RANK_POWER_DOWN (R416): A rank idle for IDLE_NS enters power-down. -/
  | rankPowerDown (r : Fin 4)
  /-- SELF_REFRESH_ENTRY (R417): In hold or standby every in-service rank enters self-refresh, dropping unneeded segments. -/
  | selfRefreshEntry
  /-- SELF_REFRESH_EXIT (R418): A request or reload starts a rank's exit from self-refresh. -/
  | selfRefreshExit (r : Fin 4)
  /-- SCRUB_PASS (R411): A scrub pass over every in-service word completes. -/
  | scrubPass
  /-- MIGRATION_START (R413): A migration of a rank into the spare starts after an uncorrectable error. -/
  | migrationStart (lr : Fin 4)
  /-- MIGRATION_ROW_COPIED (R412): One row index is copied and the checkpoint advances; the last completes the migration. -/
  | migrationRowCopied
  /-- RETRAIN_TEMP_TRIGGER (R421): The stack temperature leaves a PC's stored range by 10 °C and a retrain starts; the operand
  is the PC and the temperature in units of 0.01 °C. -/
  | retrainTempTrigger (pc : Fin 32 × Int)
  /-- RETRAIN_GAP (R421): One retraining setting is tested in a request gap. -/
  | retrainGap (pc : Fin 32)
  /-- RETRAIN_DONE (R421): A PC's retrain ends with a stored set, or the PC is fenced. -/
  | retrainDone (pc : Fin 32) (found : Option (List Int))
  /-- BOOT_TRAINING_DONE (R421): Boot training of every PC completes and memory becomes READY. -/
  | bootTrainingDone (working : BitVec 32)
  /-- INGEST_TRANSFER_DONE (R355): An ingest transfer completes, optionally signalling the fence, or fails. -/
  | ingestTransferDone (host : Fin 3) (res : IngestResult)
  /-- BC_FRAME_RECEIVED (R285): A back-channel frame is received, checked and its messages extracted. -/
  | bcFrameReceived (o : Fin 16) (bits : List Bool)
  /-- BC_LOCK_LOST (R287): The back-channel receiver loses lock after four frame positions without SYNC. -/
  | bcLockLost (o : Fin 16)
  /-- BC_SILENCE (R289): No back-channel frame passes its CRC for 20 µs and the back channel is lost. -/
  | bcSilence (o : Fin 16)
  /-- ACK (R304): An ACK message is classified against its band reset. -/
  | ack (p : Fin 4) (w1 w2 : BitVec 32)
  /-- ACK_MISSING (R304): No ACK arrives 10 µs after a scheduled changeover. -/
  | ackMissing (p : Fin 4)
  /-- STATUS (R288): A STATUS message updates lane lock and CRC state and may find a lane down. -/
  | status (p : Fin 4) (ws : List (BitVec 32))
  /-- LANEMAP (R292): A LANEMAP answer sets the swizzle or confirms the second training pass. -/
  | lanemap (p : Fin 4) (ws : List (BitVec 32))
  /-- CAPS (R302): A capability record is checked and accepted or refused. -/
  | caps (p : Fin 4) (ws : List (BitVec 32))
  /-- ERRCNT (R283): An ERRCNT answer delivers per-lane CRC failure counts. -/
  | errcnt (p : Fin 4) (ws : List (BitVec 32))
  /-- TEMP (R322): A TEMP message updates the array temperature. -/
  | temp (p : Fin 4) (w : BitVec 32)
  /-- TEMP_STALE (R322): No TEMP message arrives for 10 ms while the array is PRESENT. -/
  | tempStale (p : Fin 4)
  /-- DEFECT (R315): A DEFECT message adds runtime entries to the defect map. -/
  | defect (p : Fin 4) (ws : List (BitVec 32))
  /-- SCAN_DATA (R319): A SCAN_DATA message delivers scan entries. -/
  | scanData (p : Fin 4) (ws : List (BitVec 32))
  /-- SCAN_DONE (R319): SCAN_DONE ends a scan, replacing the map when count and CRC agree. -/
  | scanDone (p : Fin 4) (w1 w2 w3 : BitVec 32)
  /-- SCAN_STATE (R317): SCAN_STATE answers SCAN_START. -/
  | scanState (p : Fin 4) (w : BitVec 32)
  /-- SCAN_TIMEOUT (R319): No SCAN_DONE within 2 × SCAN_MS + 1 s; SCAN_ABORT sent and the command times out. -/
  | scanTimeout (p : Fin 4)
  /-- PARK_STATE (R325): A PARK_STATE message puts the array into or out of PARKED. -/
  | parkState (p : Fin 4) (w : BitVec 32)
  /-- CTRL_TIMEOUT (R283): A control request is unanswered after 1 ms. -/
  | ctrlTimeout (p : Fin 4) (op : BitVec 8)
  /-- TRAIN_PASS1_END (R292): After 1 ms of first-pass training the device asks for LANEMAP. -/
  | trainPass1End (p : Fin 4)
  /-- TRAIN_FAIL (R293): Training fails or the second pass is not confirmed within 10 ms; the octet returns to idle. -/
  | trainFail (p : Fin 4)
  /-- TRAIN_RESTART (R293): 10 ms after a failure the octet starts again at BC_LOCK. -/
  | trainRestart (p : Fin 4)
  /-- BC_ABSENT (R293): A back channel stays in BC_LOCK for more than 100 ms. -/
  | bcAbsent (o : Fin 16)
  /-- ELECTRICAL_IDLE_END (R295): An octet that left its port or rate ends its 1 ms idle and enters BC_LOCK. -/
  | electricalIdleEnd (o : Fin 16)
  /-- DEFECT_MAP_SAVE (R316): A changed defect map is saved to MRAM with its serial and mark. -/
  | defectMapSave (p : Fin 4)
  /-- MGT_LOCKSTEP_ERROR (R458): A lockstep mismatch or SRAM error raises source 10 and re-initialises the management subsystem. -/
  | mgtLockstepError (sram : Bool)
  /-- MGT_WATCHDOG (R458): The 1 s management watchdog expires and the subsystem re-initialises. -/
  | mgtWatchdog
  /-- MGT_RUN (R458): Stage-1 restarts and reports RUN; source 10 becomes inactive. -/
  | mgtRun
  /-- BOOT_IMAGE_VERIFY (R464): The ROM reads and verifies an image slot, falling back or entering RECOVERY. -/
  | bootImageVerify
  /-- BOOT_ALLOTMENT (R468): The boot configuration's allotment is applied once memory is READY. -/
  | bootAllotment
  /-- EVENT_LOG_FLUSH (R475): The event log is written to the flash ring at 512 records or every 10 s. -/
  | eventLogFlush
  /-- FLASH_ERASE_DONE (R469): Erasure of the update slot completes and UPDATE_BEGIN completes. -/
  | flashEraseDone
  /-- FUSE_BURN_DONE (R471): One fuse finishes burning and the next starts or the command completes. -/
  | fuseBurnDone
  /-- ENCLAVE_SELFTEST_DONE (R477): Enclave pre-operational tests end and the enclave leaves SELFTEST. -/
  | enclaveSelftestDone (pass : Bool)
  /-- PERIODIC_SELFTEST (R487): Every 24 h the enclave's known-answer tests run. -/
  | periodicSelftest (pass : Bool)
  /-- DRBG_RESEED (R481): The DRBG reseeds after 2^20 requests or 24 h. -/
  | drbgReseed
  /-- ENTROPY_FAILURE (R481): An entropy health test fails and the enclave enters ERROR. -/
  | entropyFailure
  /-- NONCE_EXPIRE (R479): A login nonce expires after 10 s. -/
  | nonceExpire (h : Fin 3)
  /-- LOGIN_LOCKOUT_END (R479): A host's 60 s login lockout ends. -/
  | loginLockoutEnd (h : Fin 3)
  /-- KEM_CONTEXT_EXPIRE (R480): A KEM decapsulation key unused for 60 s is zeroised. -/
  | kemContextExpire (ctx : Fin 4)
  /-- TAMPER_SAMPLE (R488): A tamper loop is sampled; two consecutive mismatches are a tamper. -/
  | tamperSample (loop : Fin 4) (sense : Bool) (temp : Int)
  /-- JTAG_INSTRUCTION (R565): A TAP instruction update takes effect, zeroising the enclave for test instructions. -/
  | jtagInstruction (ir : BitVec 8)
  /-- CAL_STEP (R495): Every STEP_US each quantity moves one tap toward its target. -/
  | calStep (k : Fin 5)
  /-- OFFSET_WINDOW (R496): An offset sampler window of 65,536 bits ends and the threshold moves. -/
  | offsetWindow (r : Fin 92) (dq : Fin 32) (ones : Nat)
  /-- EDGE_SWEEP_DONE (R497): An edge sweep completes and gives a phase result. -/
  | edgeSweepDone (r : Fin 92) (dq : Fin 32) (counts : List Nat)
  /-- DARK_WINDOW (R498): A dark window in a DIAG_OK slot measures every sense offset. -/
  | darkWindow (means : List Int)
  /-- LINK_READY_TIMEOUT (R291): One second after an allotment boundary, or after a LINK_OCTET_RESET, an octet of the port is still not READY and the command completes with TIMEOUT while bring-up goes on. -/
  | linkReadyTimeout (o : Option (Fin 16))
  /-- STANDBY_EXIT_TIMEOUT (R527): One second after PWR_STANDBY with ENTER clear, memory is not READY or the enclave has not left SELFTEST, and the command completes with TIMEOUT. -/
  | standbyExitTimeout
  /-- ENCLAVE_SERVICE_DONE (R486): An accepted enclave service (SEC_KEM_GEN, SEC_QUOTE, SEC_SELFTEST or SEC_PROVISION) finishes its work up to 100 ms after acceptance, writes any result to host memory, and completes with DONE, HOST_ERROR or SECURITY_DENIED. -/
  | enclaveServiceDone (res : ServiceResult)
  /-- FLASH_WRITE_DONE (R469): The flash write and read-back of an UPDATE_DATA end, and the command completes with DONE or with DATA_ERROR, which ends the update. -/
  | flashWriteDone (ok : Bool)
  /-- UPDATE_VERIFY_DONE (R469): Stage-1's verification of the updated slot by R464 ends, the slot is marked VALID and, if asked, preferred, or else INVALID, and UPDATE_COMMIT completes. -/
  | updateVerifyDone
  /-- SUPPLY_GLITCH (R488): The enclave supply departs by more than 15 % for 20 ns while VIN is present, which is a tamper that zeroises the enclave. -/
  | supplyGlitch
  deriving DecidableEq, Repr

end Sys2Proof
end

