-- ==== Sys2Proof/Decode.lean ====
section
/-!
DEFINITION. The words of the table: spec/opcode_table.json gives no row any bits, so no word spells a command.
-/
namespace Sys2Proof

/-- The command that a word of the table's bits spells. The table gives bits to no row (each row is a command entry,
a host access or an event of the device), so there is none. -/
def decodeTableWord (_nbits _w : Nat) : Option Instr := none

end Sys2Proof
end

