-- ==== Sys2Proof/Config.lean ====
section
/-!
DEFINITION. The free values: constants without a body for what the spec leaves open. Nothing can be proved of them, so a
claim about the model holds whatever they are. Each is listed in notes/assumptions/3.md.
-/
namespace Sys2Proof

/-! ## Hosts, commands and management -/

/-- Which of the powered cores serves a ring: the choice among them for host, ring and number of cores (R452). -/
opaque Config.coreChoice : Nat → Nat → Nat → Nat

/-- The mandatory byte of the in-band interrupt for a reply entry of host 3, for which R451 gives no ring vector. -/
opaque Config.i3cReplyVector : Nat

/-- The severity of an event-log record by its code, offset and bits (R475 gives none per event). -/
opaque Config.severity : Nat → Nat → Nat → BitVec 3

/-- The DATA of an event-log record whose code is not STICKY, by code and LSEQ (R475 gives DATA for STICKY only). -/
opaque Config.logData : Nat → Nat → BitVec 96

/-- The device identity certificate chain of the MRAM (R473). -/
opaque Config.certChain : List Byte

/-- The fetch of a stage that holds an undefined byte (a buffer that is LOST, R424, or whose authentication failed). -/
opaque Config.undefinedByte : Nat → Nat → Byte

/-- What a failed transfer leaves in its destination, by use and offset (R483; the spec does not say for other failures). -/
opaque Config.ingestByte : Nat → Nat → Byte

/-! ## Cryptographic algorithms named by R5 and defined by the FIPS publications -/

/-- SHAKE256, 256 bits of output. -/
opaque Config.shake256 : List Byte → Vector Byte 32

/-- The OTP hash of an image-signing key, by key index (R464). -/
opaque Config.otpKeyHash : Nat → List Byte

/-- SLH-DSA-SHAKE-256s verification: public key, message, signature. -/
opaque Config.slhVerify : List Byte → List Byte → List Byte → Bool

/-- SLH-DSA-SHAKE-256f signature, 49,856 bytes (R486): private key, message and the DRBG's output. -/
opaque Config.slhSign : List Byte → List Byte → List Byte → Vector Byte 49856

/-- The public key of an SLH-DSA private key. -/
opaque Config.slhPublic : List Byte → List Byte

/-- The PUF response and the OTP seed of the device (R480). -/
opaque Config.puf : List Byte
opaque Config.otpSeed : List Byte

/-- ML-KEM-1024 key generation from a DRBG output: decapsulation key, and the encapsulation key of 1,568 bytes (R482). -/
opaque Config.kemGen : List Byte → List Byte × Vector Byte 1568

/-- ML-KEM-1024 decapsulation: decapsulation key and ciphertext to the shared secret. -/
opaque Config.kemDecaps : List Byte → List Byte → List Byte

/-- AES-256-GCM decryption: key, IV, AAD, ciphertext and tag; none when the tag does not verify. -/
opaque Config.gcmOpen : List Byte → List Byte → List Byte → List Byte → List Byte → Option (List Byte)

/-- CTR_DRBG with AES-256 (R481): the 32 bytes that a state gives at a request, and the state after it. -/
opaque Config.drbg : List Byte → Vector Byte 32
opaque Config.drbgStep : List Byte → List Byte

/-- The state that CTR_DRBG takes from a state and a seed of 384 bits; the n-th seed that the entropy source gives. -/
opaque Config.drbgSeed : List Byte → Vector Byte 48 → List Byte
opaque Config.entropy : Nat → Vector Byte 48

/-! ## Roundings and values the spec does not state -/

/-- The sensor that a calibration region follows (R491: the device fixes it), by region. -/
opaque Config.regionSensor : Nat → Nat

/-- What boot training finds for a quantity of a pseudo-channel, by training, pseudo-channel and quantity: a measurement that
no command of the table carries. -/
opaque Config.trainedTap : Nat → Nat → Nat → Int

/-- The centroid bin of an edge sweep whose counts lie evenly round the unit interval and so have no centroid (R497). -/
opaque Config.centroidChoice : List Nat → Nat

/-- Whether the n-th open rounding goes up. -/
opaque Config.roundUp : Nat → Bool

/-- The gain on a phase error of the type-2 loop of R55, twice its natural frequency, in 10^-6 / s, by BW_CHZ: the manual does not
say at which measure of the loop its bandwidth is taken. -/
opaque Config.loopGain : Nat → Nat

/-- The resistance of the thermistor of an NTC channel in ohms at a use of it: an input of the environment that no command of the
table carries. -/
opaque Config.ntcOhms : Nat → Nat → Nat

/-- The β equation: the temperature in 0.01 °C of a thermistor of a resistance in ohms, by its resistance and temperature (0.01 °C)
at the reference point and β in kelvin. The manual names no rounding. -/
opaque Config.betaEquation (r0 : Nat) (t0 : Int) (beta ohms : Nat) : Int

/-- The conversion of the NTC channels: 10 kΩ at 25 °C with β 3,435 K (R561). -/
def Config.ntcTemp (ohms : Nat) : Int := Config.betaEquation 10000 2500 3435 ohms

/-- The source value of a loop input whose sensor reports a fault (R183 gives none), by use and input. -/
opaque Config.faultedInput : Nat → Nat → Int

/-- The 64-bit serial number of the device. -/
opaque Config.deviceSerial : BitVec 64

/-- The part's fused AVS curve: µV at a die temperature in 0.01 °C (R509). -/
opaque Config.avsCurve : Int → Nat

/-- The value of a telemetry item whose converted reading does not fit its 32-bit register (R511), by reading. -/
opaque Config.itemOverflow : Int → BitVec 32

/-- Which of several sensor pairs over 30 °C apart at one sample is recorded (R517), by sample. -/
opaque Config.pairChoice : Nat → Nat

/-- Which of the domains waiting for their turn is switched on next (R513), by use. -/
opaque Config.domainChoice : Nat → Nat

/-! ## Picture arithmetic that the manual names without stating it -/

/-- A component of fewer than 16 bits as a component v of 16 bits (R343), by its width and code. -/
opaque Config.widen : Nat → Nat → Nat

/-- Whether a position or an interpolated value that lies between two steps of 1/65,536 goes up, by numerator and
denominator. -/
opaque Config.stepUp : Int → Nat → Bool

/-- One axis of the scaler of R341: taps, phase (of 64) and the samples under the taps. -/
opaque Config.scaleFilter : Nat → Nat → List Int → Int

/-- The Q3.16 value of a half-float NaN, by its code. -/
opaque Config.halfNan : Nat → Nat

/-- Entry i of a LUT that is enabled and has never been loaded. -/
opaque Config.unsetLut : Nat → Nat

/-- The component that a CUSTOM stage gives at a pixel: by view, stage, frame and component, and by x and y (R387). -/
opaque Config.customPixel : Nat → Nat → Nat → Nat → Nat → Nat → Nat

/-- A component of a symbol's pixel, as a half-float code, under an entry whose palette colour is not finite: by list, x, y and
component. -/
opaque Config.symbolSpecial : List Byte → Nat → Nat → Nat → Nat

/-- The coverage that the SYMB role computes for a LINE or ARC entry at a pixel on its edge, in 65,536ths. -/
opaque Config.strokeCoverage : List Byte → Nat → Nat → Nat

/-- The coverage that the SYMB role computes for a scaled GLYPH entry at a pixel of its box, from the entry and the glyph's bytes. -/
opaque Config.glyphCoverage : List Byte → List Byte → Nat → Nat → Nat

/-- Whether a view-frame is complete for R118 and R124 once the colours referenced of it are, as R118 says, or only with every colour
of the view, as R246 says: spec/90_conflicts.md does not rule. -/
opaque Config.partFrames : Bool

/-- Which of a stage's clusters takes a band, by view, stage and band (R367). -/
opaque Config.clusterChoice : Nat → Nat → Nat → Nat

/-- TOOLKIT_REV and size of the built-in images, by slot. -/
opaque Config.builtInRev : Nat → Nat
opaque Config.builtInSize : Nat → Nat

/-- A channel's 32-bit LFSR of R408, whose polynomial the manual does not give: its next state; and whether a state draws a refresh
of the neighbour rows at probability 2^-p. -/
opaque Config.nrrNext : BitVec 32 → BitVec 32
opaque Config.nrrDraw : Nat → BitVec 32 → Bool

/-- For how many ns, beyond the 2 µs that R421 allows at most, a gap would hold requests: taken modulo 2,001; by use. -/
opaque Config.gapLength : Nat → Nat

/-- What the compare counter of a DQ has counted when a gap's test ends, by use and DQ of the channel: a measurement that no command of
the table carries. -/
opaque Config.dqErrors : Nat → Nat → Nat

/-- PHASE of the entries that host 3 reads, which lie in no ring (R431, R448). -/
opaque Config.i3cPhase : Bool

/-! ## Registers -/

/-- Whether a value that a register shows in coarser units is rounded up, by numerator and denominator (CLE_LOAD, the root mean
square of TIM_CAMc_JITTER, the lockout seconds of SEC_Hh_ROLE). -/
opaque Config.shownUp : Nat → Nat → Bool

/-- TIM_CAMc_JITTER when the root mean square does not fit 16 bits, by sum of squares and count. -/
opaque Config.jitterOverflow : Nat → Nat → BitVec 16

/-- Code, per-engine data and shared content of a built-in image, which the stage-1 firmware holds (R364), by slot. -/
opaque Config.builtInCode : Nat → List (BitVec 8)
opaque Config.builtInData : Nat → List (BitVec 8)
opaque Config.builtInShared : Nat → List (BitVec 8)

/-- SRAM errors that a cluster has corrected while it processed a band (R391), by free counter and cluster. -/
opaque Config.sramCorrected : Nat → Nat → Nat

/-- FAB_IMGi_STATUS.COST of a built-in image whose cost depends on the view (R381 to R385), by slot. -/
opaque Config.builtInCost : Nat → BitVec 16

/-- HIF_CPc_STATUS: the host of the rings served, for a core that serves rings of both functions, by core. -/
opaque Config.coreHostShown : Nat → Bool

/-- The transfer to host memory of the command with a JSEQ fails: the host's side decides (R447). -/
opaque Config.hostWriteFails : Nat → Bool

/-- What an uncorrectable error leaves of the SRAM copy of stage-1 (R458). -/
opaque Config.sramLeft : Nat → List (BitVec 8) → List (BitVec 8)

end Sys2Proof
end

