-- ==== Sys2Proof/Machine/State.lean ====
section
/-!
DEFINITION. The state of the LH8300 as plain data, and its reset value. Every field's default is its value right after a
cold reset (State.reset): the value the spec gives, or the one notes/assumptions/1.md names.
Fields the spec gives the machine are named after its registers where it has one; fields marked MODEL are the model's own.
-/
namespace Sys2Proof.Machine

/-! ## Commands, replies and the journal (spec/13) -/

/-- The status codes of R447. -/
inductive Status where
  | done | accepted | badOpcode | badLength | badField | badCrc | badVersion | badTarget | notOwner | staleRole | busy
  | noSession | linebufShort | budgetExceeded | seqInvalid | lockTimeout | securityDenied | degraded | timeout
  | resetAborted | tooLate | hostError | dataError | internalError
  deriving DecidableEq, Repr, Inhabited

/-- The journal entry kinds of R453. -/
inductive JKind where
  | accept | complete | apply | session | reset | mark | core
  deriving DecidableEq, Repr, Inhabited

/-- A journal entry (R453); its JSEQ, CRC and slot follow from the fields. -/
structure JEntry where
  jseq : BitVec 64 := 0
  frame : BitVec 64 := 0
  corr : BitVec 64 := 0
  ref : BitVec 64 := 0
  seq : BitVec 32 := 0
  tick : BitVec 24 := 0
  kind : JKind := .accept
  opcode : BitVec 16 := 0
  status : Status := .done
  tclass : BitVec 16 := 0
  tindex : BitVec 16 := 0
  epoch : BitVec 16 := 0
  epochNow : BitVec 16 := 0
  host : HostId := 0
  ring : BitVec 2 := 0
  flags : BitVec 8 := 0
  detail : BitVec 32 := 0
  deriving DecidableEq, Repr, Inhabited

/-- A reply entry of R448 before its PHASE bit is set. `kind` is CTRL.KIND: 0 first reply, 1 completion, 2 event. -/
structure Reply where
  host : HostId := 0
  rring : BitVec 2 := 0
  corr : BitVec 64 := 0
  jseq : BitVec 64 := 0
  result : BitVec 32 := 0
  opcode : BitVec 16 := 0
  /-- The status code of R447, or the event code of R450. -/
  code : BitVec 16 := 0
  detail : BitVec 32 := 0
  epoch : BitVec 16 := 0
  kind : BitVec 2 := 0
  cring : BitVec 2 := 0
  deriving DecidableEq, Repr, Inhabited

/-- A record of the event log (R475): its sequence number, frame and tick, source vector less 8, code, and for a STICKY
record the register's offset and the bits that went from 0 to 1. -/
structure LogRec where
  lseq : BitVec 32 := 0
  frame : BitVec 32 := 0
  tick : BitVec 24 := 0
  vec : BitVec 4 := 0
  code : BitVec 16 := 0
  off : BitVec 32 := 0
  bits : BitVec 32 := 0
  deriving DecidableEq, Repr, Inhabited

/-- What the device writes towards a host: a reply entry with its PHASE bit (into ring memory, or queued for I3C),
an MSI-X message, or bytes at a host address. -/
inductive HostOut where
  | reply (r : Reply) (phase : Bool)
  | msix (h : Fin 2) (vec : Nat)
  | bytes (host : HostId) (addr : Nat) (data : List Byte)
  /-- An in-band interrupt to host 3 with its mandatory byte (R431). -/
  | ibi (vec : Nat)
  /-- The data that a read returns: of BAR2, of an unmapped BAR0 offset, or over I3C. -/
  | readBack (host : HostId) (data : List Byte)
  /-- A BAR2 read that completes poisoned (R427). -/
  | poisoned (host : HostId)
  /-- A record of boot progress, or of severity WARN or higher, printed on the UART console (R475). -/
  | console (r : LogRec)
  deriving DecidableEq, Repr, Inhabited

/-- A command entry together with its opcode, as the command processors hold it after acceptance. -/
structure Held where
  opcode : BitVec 16 := 0
  cmd : Cmd := {}
  /-- JSEQ of its ACCEPT entry. -/
  jseq : BitVec 64 := 0
  /-- The frame number named by APPLY_AT (R443), or none for the next boundary. -/
  due : Option (BitVec 32) := none
  /-- Its only reply comes at its completion (R448). -/
  sole : Bool := false
  deriving DecidableEq, Repr, Inhabited

/-- A host session (R432, R433). -/
structure Session where
  isOpen : Bool := false
  /-- HIF_Hh_SESSION. -/
  number : BitVec 32 := 0
  lease : Bool := false
  leaseMs : BitVec 16 := 0
  /-- Timebase count of the last renewal (R433). -/
  leaseStart : Nat := 0
  evRing : BitVec 2 := 0
  noEvRing : Bool := false
  /-- EVENT_MASK [15:0]: vectors 8 to 23. -/
  mask : BitVec 16 := 0
  cmdCnt : BitVec 32 := 0
  refuseCnt : BitVec 32 := 0
  badCrcCnt : BitVec 32 := 0
  /-- Replies to the host's commands up to this JSEQ are no longer delivered (R429). -/
  muted : BitVec 64 := 0
  lapseCnt : BitVec 32 := 0
  deriving DecidableEq, Repr, Inhabited

/-- A command ring (R438, R441, R456). -/
structure CRing where
  baseLo : BitVec 32 := 0
  baseHi : BitVec 32 := 0
  /-- CFG: [3:0] s, [4] enable, [6:5] reply ring. -/
  cfg : BitVec 32 := 0
  head : BitVec 12 := 0
  tail : BitVec 12 := 0
  waitFence : Bool := false
  waitReply : Bool := false
  /-- SEQ of the previous entry; none before the first entry after an enable. -/
  lastSeq : Option (BitVec 32) := none
  deriving DecidableEq, Repr, Inhabited

/-- A reply ring (R448, R456). -/
structure RRing where
  baseLo : BitVec 32 := 0
  baseHi : BitVec 32 := 0
  /-- CFG: [3:0] s, [4] enable, [10:5] MSI-X vector. -/
  cfg : BitVec 32 := 0
  tail : BitVec 12 := 0
  phase : Bool := true
  /-- The host's consumed head, from RRING_r_DOORBELL. -/
  hostHead : BitVec 12 := 0
  deriving DecidableEq, Repr, Inhabited

/-- One PCIe function (R426, R451, R456). -/
structure PcieFn where
  crings : Vector CRing 4 := Vector.replicate 4 {}
  /-- RRING_r_CFG resets to vector r (R456). -/
  rrings : Vector RRing 4 := Vector.ofFn fun i => { cfg := BitVec.ofNat 32 (i.val * 32) }
  /-- The MSI-X table: 64 entries of 4 words. -/
  msixTable : Vector (BitVec 32) 256 := Vector.replicate 256 0
  /-- Vectors whose 10 µs coalescing interval runs (R451). -/
  coalescing : BitVec 64 := 0
  /-- Vectors with a message held by coalescing; the pending-bit array. -/
  pendingBits : BitVec 64 := 0
  /-- Timebase count of each vector's last message (R451). -/
  sentNs : Vector Nat 64 := Vector.replicate 64 0
  /-- Base addresses of BAR0, BAR2 and BAR4, as the host has written them (R426). -/
  bars : Vector (BitVec 64) 3 := Vector.replicate 3 0
  deriving DecidableEq, Repr, Inhabited

/-- Command-processor core states (HIF_CPc_STATUS). -/
inductive CoreSt where
  | off | idle | busy | reset
  deriving DecidableEq, Repr, Inhabited

/-- One command-processor core (R452). -/
structure CpCore where
  st : CoreSt := .off
  cmdCnt : BitVec 32 := 0
  resetCnt : BitVec 32 := 0
  /-- Timebase count of its last command, or of its power-on (R452). -/
  lastNs : Nat := 0
  /-- It has been reset, and its rings have passed to the other cores (R452). -/
  passed : Bool := false
  deriving DecidableEq, Repr, Inhabited

/-- The host interface (R426 to R456). -/
structure Hif where
  ready : Bool := false
  isVolatile : Bool := false
  sticky : BitVec 11 := 0
  unmappedCnt : BitVec 32 := 0
  bar2DropCnt : BitVec 32 := 0
  evtDropCnt : BitVec 32 := 0
  /-- Sessions of hosts 1 to 3; entry 0 is the device's and never open. -/
  sess : Vector Session 4 := Vector.replicate 4 {}
  /-- Owners (R434); CONFIG takes the boot configuration's host, 1 when P0 is enabled and the record's CRC fails (R468). -/
  cfgOwner : HostId := 1
  viewOwner : Vector HostId 5 := Vector.replicate 5 0
  portOwner : Vector HostId 4 := Vector.replicate 4 0
  chainOwner : Vector HostId 4 := Vector.replicate 4 0
  xsetOwner : Vector HostId 4 := Vector.replicate 4 0
  layerOwner : Vector HostId 24 := Vector.replicate 24 0
  loopOwner : Vector HostId 64 := Vector.replicate 64 0
  /-- Core 0 is on whenever VCORE is present (R452). -/
  cores : Vector CpCore 4 := Vector.ofFn fun i => if i.val = 0 then { st := .idle } else {}
  /-- JSEQ of the newest entry written; the first is the RESET entry of the cold reset's release (R453). -/
  jseq : BitVec 64 := 1
  /-- HIF_JOURNAL_HEAD: JSEQ of the newest entry in MRAM. -/
  jhead : BitVec 64 := 0
  /-- The newest entries, newest first, at most 8,192 (R453). -/
  journal : List JEntry := [{ jseq := 1, kind := .reset }]
  /-- Replies waiting for their journal entry to reach MRAM, oldest first (R448). -/
  replyQ : List Reply := []
  /-- Replies and events of host 3 not yet read (R431), oldest first. -/
  i3cQ : List Reply := []
  /-- BAR0 words of a read set up over I3C, not yet read (R430, R431). -/
  i3cRead : List (BitVec 32) := []
  /-- Address the I3C target answers to: the static one, or a dynamic one assigned since (R430). -/
  i3cAddr : BitVec 7 := 0x2A
  pcie : Vector PcieFn 2 := Vector.replicate 2 {}
  /-- Accepted commands that await their boundary, in JSEQ order (R443, R444). -/
  deferred : List Held := []
  /-- Commands answered ACCEPTED whose completion is outstanding, in JSEQ order (R448). -/
  awaiting : List Held := []
  /-- Commands that a reset ended and that get their COMPLETE entry with RESET_ABORTED at its exit (R320, R470, R541). -/
  resetEnds : List Held := []
  /-- Commands that wait for their ring to go on (R439 FENCE, R445 full reply ring), oldest first. -/
  waiting : List Held := []
  /-- Ingest transfers in progress, in acceptance order (BUF_INGEST). -/
  ingests : List Held := []
  /-- What the device has written towards the hosts, newest first (MODEL: an outbox). -/
  outbox : List HostOut := []
  /-- Sticky bits that the device has set in the present nanosecond, by BAR0 offset (MODEL, for R11). -/
  hwSet : List (Nat × BitVec 32) := []
  deriving DecidableEq, Repr, Inhabited

/-! ## Phase keeper (spec/02) -/

/-- Camera settings (CAMERA_SET, R67 to R75); defaults are the reset mode of R569. -/
structure CamCfg where
  enable : Bool := false
  openHigh : Bool := true
  /-- m, 1 to 8. -/
  m : Nat := 1
  filterK : Nat := 3
  missLimit : Nat := 8
  reacq : Nat := 4
  nomOfs : BitVec 24 := 0
  nomLen : BitVec 24 := 1
  guard : BitVec 20 := 0
  outlierNs : Nat := 20000
  deriving DecidableEq, Repr, Inhabited

/-- A timing mode (TIMING_SET and the cameras); defaults are the reset mode of R569. -/
structure TimMode where
  rateN : Nat := 60
  rateD : Nat := 1
  /-- Source codes in priority order (R47). -/
  srcList : List (BitVec 8) := [3]
  bwCHz : Nat := 100
  lockCount : Nat := 3
  unlockCount : Nat := 4
  lockThrNs : Nat := 1000
  unlockThrNs : Nat := 20000
  refLossLimit : Nat := 3
  refM : Nat := 1
  refFalling : Bool := false
  holdoverS : Nat := 60
  refOfs : BitVec 24 := 0
  settleMs : Nat := 200
  steerMs : Nat := 1000
  cams : Vector CamCfg 4 := Vector.replicate 4 {}
  deriving DecidableEq, Repr, Inhabited

/-- Phase-keeper states (R50). -/
inductive PhaseSt where
  | unlocked | acquiring | locked | holdover
  deriving DecidableEq, Repr, Inhabited

/-- Camera states (R71). -/
inductive CamMode where
  | off | acquiring | tracking | coasting | lost
  deriving DecidableEq, Repr, Inhabited

/-- A camera edge that may still turn out to be part of a glitch (R66). -/
structure CamEdge where
  ns : Nat := 0
  /-- The 24.40 phase at the edge (R65). -/
  phase : BitVec 64 := 0
  frame : BitVec 64 := 0
  isOpen : Bool := false
  deriving DecidableEq, Repr, Inhabited

/-- What the phase keeper knows of one camera (R65 to R75). -/
structure CamState where
  mode : CamMode := .off
  /-- Consecutive missing open edges. -/
  miss : Nat := 0
  /-- Predicted start of window 0 and length, in 2^-40 tk (R67). -/
  predStart : Int := 0
  predLen : Int := 0
  /-- A prediction has been set since the camera was enabled (R75). -/
  predValid : Bool := false
  /-- Frozen predictions (R69): TIM_CAMc_START and TIM_CAMc_LEN. -/
  frozenStart : BitVec 24 := 0
  frozenLen : BitVec 24 := 0
  /-- The guarded windows in force in the running period and, once frozen, in the next one. -/
  winNow : List (Nat × Nat) := []
  winNext : List (Nat × Nat) := []
  /-- The camera was TRACKING or COASTING at the freeze of the running period's windows, and of the next one's (R79). -/
  seenNow : Bool := false
  seenNext : Bool := false
  /-- Consecutive good periods (R75) and what the running period has shown. -/
  goodPeriods : Nat := 0
  openSeen : Nat := 0
  badSeen : Bool := false
  /-- The newest edge while it is younger than 1 µs (R66). -/
  cand : Option CamEdge := none
  /-- The last accepted open edge. -/
  lastOpen : Option CamEdge := none
  /-- Open-edge deviations in ns, newest first, at most 64 (TIM_CAMc_JITTER). -/
  devs : List Int := []
  /-- The camera's view has fallen back (R74), decided at boundaries. -/
  fellBack : Bool := false
  missCnt : BitVec 32 := 0
  rejectCnt : BitVec 32 := 0
  lostCnt : BitVec 32 := 0
  conflictCnt : BitVec 32 := 0
  deriving DecidableEq, Repr, Inhabited

/-- Validity of a reference source (R49). -/
structure SrcState where
  valid : Bool := false
  goodPeriods : Nat := 0
  badPeriods : Nat := 0
  edges : Nat := 0
  lastNs : Option Nat := none
  deriving DecidableEq, Repr, Inhabited

/-- A PHASE_MARK output or REF_OUT (R91, R93). -/
structure Mark where
  mode : BitVec 2 := 0
  activeHigh : Bool := true
  cam : BitVec 2 := 0
  divider : Nat := 1
  divPhase : Nat := 0
  start : BitVec 24 := 0
  width : BitVec 24 := 0
  /-- Ticks of the running period into which a pulse of the period before continues (R91). -/
  carry : Nat := 0
  /-- The output is active now. -/
  active : Bool := false
  deriving DecidableEq, Repr, Inhabited

/-- The phase keeper (R41 to R94). -/
structure Tim where
  shadow : TimMode := {}
  mode : TimMode := {}
  st : PhaseSt := .locked
  /-- Active source code (R46); 3 in the reset mode's free run. -/
  src : BitVec 3 := 3
  /-- Current rate minus nominal in ppb, within ±1,000,000 (R44). -/
  rateOfs : Int := 0
  /-- Mean rates of the last 16 periods, newest first (R57), and as they were when the active source's first sample went missing. -/
  rateHist : List Int := []
  missHist : List Int := []
  /-- The offset summed over the nanoseconds of the running period up to rateFrom, and when that period began. -/
  rateSum : Int := 0
  rateFrom : Nat := 0
  boundNs : Nat := 0
  /-- The loop's integrator, in 1/loopUnit ppb, and the time of its last sample (R55). -/
  loopInt : Int := 0
  loopNs : Option Nat := none
  /-- Last phase sample, ns. -/
  phaseErr : BitVec 32 := 0
  /-- Consecutive samples within the lock threshold, and beyond the unlock threshold. -/
  lockRun : Nat := 0
  unlockRun : Nat := 0
  /-- Consecutive periods without a sample of the active source (R56), and whether this period has one. -/
  lossPeriods : Nat := 0
  sampleSeen : Bool := false
  /-- The next edge of the active source steps the tick count; the source counts as valid until it is next lost (R84). -/
  stepNext : Bool := false
  graced : Bool := false
  srcs : Vector SrcState 8 := Vector.replicate 8 {}
  cams : Vector CamState 4 := Vector.replicate 4 {}
  /-- VIEW_BIND: 0 to 3 camera, 4 audience, 5 unbound. -/
  bind : Vector (BitVec 3) 5 := Vector.replicate 5 5
  /-- PHASE_MARK 0 to 3 and REF_OUT (index 4, mode 1, 1,000 ns wide by R93). -/
  marks : Vector Mark 5 := Vector.ofFn fun i => if i.val = 4 then { mode := 1, width := 1000 } else {}
  /-- SETTLE by R83, and the settle limit has expired (R87). -/
  settle : Bool := false
  settleExpired : Bool := false
  /-- ns from which the settle limit (R87), the holdover limit (R60) and the steering timeout (R63) run. -/
  settleFrom : Nat := 0
  holdFrom : Nat := 0
  steerFrom : Nat := 0
  /-- The TIMING_COMMIT that awaits its completion reply (R81). -/
  commit : Option Held := none
  /-- The shadow set that commit schedules, until its boundary. -/
  commitMode : Option TimMode := none
  /-- The picture path has stopped for a timebase fault until the next commit (R61). -/
  timebaseFault : Bool := false
  /-- The windows of the next period are frozen (R69). -/
  frozen : Bool := false
  sticky : BitVec 20 := 0
  unlockCnt : BitVec 32 := 0
  holdoverCnt : BitVec 32 := 0
  refSwitchCnt : BitVec 32 := 0
  settleCnt : BitVec 32 := 0
  lockTimeoutCnt : BitVec 32 := 0
  deriving DecidableEq, Repr, Inhabited

/-! ## Sequencer (spec/03) -/

/-- One slot of a sequence (R95). -/
structure Slot where
  dur : BitVec 24 := 0
  dump : Bool := false
  black : Bool := false
  diagOk : Bool := false
  holdBreak : Bool := false
  glob : Bool := false
  view : BitVec 3 := 0
  colour : BitVec 3 := 0
  bit : BitVec 4 := 0
  split : BitVec 4 := 0
  fofs : BitVec 2 := 0
  entry : Vector (BitVec 6) 4 := Vector.replicate 4 0
  drive : BitVec 6 := 0
  deriving DecidableEq, Repr, Inhabited

/-- A region descriptor (R204). -/
structure Region where
  shape : BitVec 8 := 0
  kind : BitVec 8 := 0
  cap : BitVec 16 := 0
  x0 : BitVec 16 := 0
  y0 : BitVec 16 := 0
  x1 : BitVec 16 := 0
  y1 : BitVec 16 := 0
  nv : BitVec 8 := 0
  geom : List Byte := []
  deriving DecidableEq, Repr, Inhabited

/-- A version of a port's exclusion set (R202): its regions, and the mask plane's runs as (row, first, length). -/
structure XVersion where
  number : BitVec 32 := 0
  regions : Vector Region 64 := Vector.replicate 64 {}
  runs : List (Nat × Nat × Nat) := []
  deriving DecidableEq, Repr, Inhabited

/-- A frame buffer of a plane store (R247 to R250). -/
structure FrameBuf where
  /-- Frame held: period × 4 + frame offset, none when empty. -/
  frame : Option Nat := none
  complete : Bool := false
  slicing : Bool := false
  /-- The buffer has been HELD in this period and stays so up to the next boundary (R250). -/
  keep : Bool := false
  /-- (colour slot, band) pairs still to be written before the frame is complete (R246). -/
  left : List (Nat × Nat) := []
  /-- Order in which frames were started (R249 oldest). -/
  age : Nat := 0
  /-- The exclusion versions in force when slicing of the frame started, of the enabled ports (R212). -/
  caps : List XVersion := []
  deriving DecidableEq, Repr, Inhabited

/-- Sequencer port states (SEQ_Pp_STATUS.STATE). -/
inductive PortSt where
  | off | settle | run | hold | dark
  deriving DecidableEq, Repr, Inhabited

/-- The plane a slot names, as loaded or shown (R96, R253). -/
structure PlaneId where
  view : BitVec 3 := 0
  colour : BitVec 3 := 0
  bit : BitVec 4 := 0
  split : BitVec 4 := 0
  fofs : BitVec 2 := 0
  slotIdx : Nat := 0
  /-- A zero plane: DUMP, BLACK, or no frame (R97, R253). -/
  zero : Bool := true
  /-- Byte address of the plane in the plane region, when not zero. -/
  base : Nat := 0
  deriving DecidableEq, Repr, Inhabited

/-- The parameters of a HOLD_SET. -/
structure HoldReq where
  view : BitVec 3 := 0
  colour : BitVec 3 := 0
  bit : BitVec 4 := 0
  fofs : BitVec 2 := 0
  level : Nat := 0
  entry : Vector (BitVec 6) 4 := Vector.replicate 4 0
  drive : BitVec 6 := 0
  deriving DecidableEq, Repr, Inhabited

/-- Hold mode of a port (R123 to R132). -/
structure HoldState where
  on : Bool := false
  view : BitVec 3 := 0
  colour : BitVec 3 := 0
  bit : BitVec 4 := 0
  fofs : BitVec 2 := 0
  level : Nat := 0
  entry : Vector (BitVec 6) 4 := Vector.replicate 4 0
  drive : BitVec 6 := 0
  /-- The held plane: its buffer in the view's store, and its address. -/
  buf : Nat := 0
  base : Nat := 0
  /-- The parameters of the last accepted HOLD_SET, until they take effect (R124, R129, R130). -/
  req : Option HoldReq := none
  /-- The HOLD_SET or HOLD_EXIT that awaits its completion. -/
  cmd : Option Held := none
  /-- The tick, counted over the frames, at which the pending HOLD_SET was accepted (R125). -/
  reqTk : Nat := 0
  /-- A HOLD_BREAK slot that started after acceptance is running (R124). -/
  breakSeen : Bool := false
  /-- A HOLD_EXIT waits for complete frames (R132). -/
  exiting : Bool := false
  /-- A reload is running (R129), and it loads the plane that the pending HOLD_SET names. -/
  reloading : Bool := false
  reloadFor : Bool := false
  /-- The plane of the reload underran: entry 0 until a reload completes (R260). -/
  reloadDark : Bool := false
  /-- The running reload has an underrun. -/
  reloadBad : Bool := false
  /-- ns of the events that ask for a reload which has not started (R129). -/
  reloadAts : List Nat := []
  /-- The running reload's last row left at this tick, counted over the frames. -/
  sentTk : Nat := 0
  subslot : Nat := 0
  deriving DecidableEq, Repr, Inhabited

/-- A view-frame chosen for a period (R118). -/
structure Selection where
  view : BitVec 3 := 0
  fofs : BitVec 2 := 0
  /-- Buffer of the view's store, or none when no frame is complete (R253). -/
  buf : Option Nat := none
  /-- Served by an earlier frame (R119). -/
  repeated : Bool := false
  deriving DecidableEq, Repr, Inhabited

/-- A sequencer port (R95 to R133) with its plane reader (R255 to R260). -/
structure Port where
  enable : Bool := false
  linkSet : BitVec 4 := 0
  settleNs : Nat := 0
  leadNs : Nat := 0
  /-- Sequences by kind: 0 active, 1 LANE7, 2 THROTTLE, 3 CAMLOST. -/
  seqs : Vector (Option (List Slot)) 4 := Vector.replicate 4 none
  shadow : Vector (Option (List Slot)) 4 := Vector.replicate 4 none
  /-- The sequences a SEQ_COMMIT has scheduled, until the port takes them, and that commit, until its completion reply. -/
  commitSeqs : Option (Vector (Option (List Slot)) 4) := none
  commit : Option Held := none
  /-- The commit's boundary has come; the port takes it once it is out of SETTLE, hold and shutdown (R115, R132, R523). -/
  commitDue : Bool := false
  driveTab : Vector (BitVec 16) 64 := Vector.replicate 64 0
  bandStep : BitVec 24 := 0
  settleTk : BitVec 24 := 0
  leadTk : BitVec 24 := 0
  dMin : BitVec 24 := 0
  st : PortSt := .off
  /-- SETTLE by R24 (link), beside SETTLE by R83 in Tim.settle. -/
  linkSettle : Bool := false
  /-- The active sequence failed re-validation: all-BLACK at entry 0 (R114). -/
  allBlack : Bool := false
  /-- The link set is dark for want of a LANE7 fallback (R120). -/
  noFallback : Bool := false
  /-- Kind running, 0 to 3. -/
  kind : BitVec 2 := 0
  slot : BitVec 12 := 0
  slotStart : Nat := 0
  /-- The instant at which the running slot started. -/
  slotNs : Nat := 0
  /-- Slots of this period that fail the window check of R79, and the camera concerned. -/
  conflicts : List (Nat × Nat) := []
  /-- Entries in force on the port's groups (R102), before link-set darkening. -/
  entries : Vector (BitVec 6) 4 := Vector.replicate 4 0
  /-- The slot is shown at entry 0 by a rule of R109 (conflict, no frame, substitution). -/
  slotDark : Bool := true
  /-- Every slot of the period is at entry 0 by R157. -/
  periodDark : Bool := false
  /-- The groups are at entry 0 for SETTLE_TK after a global changeover (R102, R127). -/
  settling : Bool := false
  /-- Slots and bands that have underrun and whose interval of R259 has not ended; a slot of the period before is negative. -/
  under : List (Int × Nat) := []
  sel : List Selection := []
  /-- Selection made at the selection point, in force from the next boundary (R256). -/
  selNext : Option (List Selection) := none
  /-- Plane shown by each band, and the plane last sent for it. -/
  shown : Vector PlaneId 16 := Vector.replicate 16 {}
  loaded : Vector PlaneId 16 := Vector.replicate 16 {}
  /-- Slot of each band's next changeover; the slot count stands for slot 0 of the next period. -/
  bandNext : Vector Nat 16 := Vector.replicate 16 0
  /-- The instant, in ns, since which each band may take the rows of that slot (R273). -/
  bandNs : Vector Nat 16 := Vector.replicate 16 0
  /-- Slot and row that the reader fetches next, and the rows it holds, oldest first, as (slot, row, data). -/
  fetchSlot : Nat := 0
  fetchRow : Nat := 0
  rows : List (Nat × Nat × BitVec 8192) := []
  /-- A row of which only the first 64-bit words have arrived, as slot, row and words (R258, R276). -/
  cut : Option (Nat × Nat × Nat) := none
  /-- The planes that the reader or the link has started on, by slot (R257). -/
  started : List (Nat × PlaneId) := []
  /-- Slot and row that leave for the link next. -/
  sendSlot : Nat := 0
  sendRow : Nat := 0
  /-- Bands whose loaded plane's reset is withheld (R221, R258, R260). -/
  withheld : BitVec 16 := 0
  /-- The band in hand is padded after an underrun (R276), and the last payload word delivered. -/
  padding : Bool := false
  lastWord : BitVec 64 := 0
  /-- Expected witness and row count of each band's loaded plane (R277). -/
  witness : Vector (BitVec 32) 16 := Vector.replicate 16 0
  rowCnt : Vector Nat 16 := Vector.replicate 16 0
  hold : HoldState := {}
  sticky : BitVec 10 := 0
  repeatCnt : BitVec 32 := 0
  underrunCnt : BitVec 32 := 0
  fallbackCnt : BitVec 32 := 0
  nofbCnt : BitVec 32 := 0
  substCnt : BitVec 32 := 0
  darkCnt : BitVec 32 := 0
  reloadCnt : BitVec 32 := 0
  deriving DecidableEq, Repr, Inhabited

/-- The sequencer (R95 to R133). -/
structure Seq where
  ports : Vector Port 4 := Vector.replicate 4 {}
  /-- SEQ_CODES. -/
  codes : BitVec 6 := 0
  /-- The die throttle as the last selection point found it (R521), until the boundary. -/
  throttleSel : Option Bool := none
  /-- A re-validation by R114 is due at the next boundary. -/
  reval : Bool := false
  /-- The views' frame buffers as the last selection point found them, until the boundary (R256). -/
  bufsAt : Option (List (List FrameBuf)) := none
  deriving DecidableEq, Repr, Inhabited

/-! ## Illumination (spec/04) -/

/-- Chain states (R152). -/
inductive ChainSt where
  | off | walk | discover | run | fault
  deriving DecidableEq, Repr, Inhabited

/-- A driver device: its settings, and its registers (R146) as the confirmed words leave them. -/
structure Driver where
  /-- PORT of ILL_DEVICE_SET; none for 0xFF. -/
  port : Option (BitVec 2) := none
  group : BitVec 2 := 0
  baseNom : Vector (BitVec 16) 8 := Vector.replicate 8 0
  epoch : BitVec 16 := 0
  /-- Weight tables A and B, entries by code. -/
  tabA : Vector (BitVec 16) 64 := Vector.replicate 64 0
  tabB : Vector (BitVec 16) 64 := Vector.replicate 64 0
  /-- Target table of R150. -/
  target : Vector (BitVec 16) 64 := Vector.replicate 64 0
  basePend : Vector (BitVec 16) 8 := Vector.replicate 8 0
  baseAct : Vector (BitVec 16) 8 := Vector.replicate 8 0
  /-- BASE_PEND values computed for the coming period (R160). -/
  baseWant : Vector (BitVec 16) 8 := Vector.replicate 8 0
  /-- TRIM of the eight channels. -/
  trim : Vector (BitVec 16) 8 := Vector.replicate 8 0
  /-- Diagnostic current and mask. -/
  diagCur : BitVec 16 := 0
  diagMask : BitVec 8 := 0
  /-- STATUS as the last response leaves it, and ID as discovery read it (R146, R153). -/
  status : BitVec 16 := 0
  id : BitVec 16 := 0
  /-- Active table: false A, true B; until the first SWAP after a discovery it is what the responses give. -/
  tab : Bool := false
  tabKnown : Bool := false
  /-- The word sent in the last frame, and the active table at its LOAD. -/
  sent : BitVec 40 := 0
  sentTab : Bool := false
  /-- The words that have failed the check and are to be sent again, each with its consecutive failures (R156). -/
  retry : List (BitVec 40 × Nat) := []
  /-- Words of the running stage of the write-out, or of the reserved frames, already sent (R153, R155). -/
  next : Nat := 0
  /-- Channels of confirmed reserved-frame BASE_PEND writes. -/
  baseOk : BitVec 8 := 0
  deriving DecidableEq, Repr, Inhabited

/-- An illumination chain (R152 to R159). -/
structure Chain where
  st : ChainSt := .off
  n : Nat := 0
  nExpect : Nat := 0
  /-- ICH_EN level. -/
  en : Bool := false
  /-- The stage of R153's write-out in DISCOVER, 1 to 4; 0 before discovery is done and after the write-out. -/
  stage : Nat := 0
  /-- Steps of the start-up walk made in DIAG_OK slots (R170). -/
  walkSteps : Nat := 0
  /-- Frame count (its low two bits are the TAG). -/
  frames : Nat := 0
  enBad : Nat := 0
  /-- The next responses are not checked (R170), and the next frame is sent as NOPs (after a walk step). -/
  noCheck : Bool := true
  nopNext : Bool := false
  /-- ICH_EN at the last LOAD. -/
  sentEn : Bool := false
  /-- The period whose bases have been computed (R160). -/
  baseFor : BitVec 64 := 0
  /-- They are those of the write-out, before the period's first reserved frame (R153). -/
  baseEarly : Bool := false
  /-- The ILL_CHAIN_SET that awaits its reply. -/
  cmd : Option Held := none
  sticky : BitVec 9 := 0
  respCrcCnt : BitVec 32 := 0
  rejCnt : BitVec 32 := 0
  retryCnt : BitVec 32 := 0
  applySkipCnt : BitVec 32 := 0
  fltCnt : BitVec 32 := 0
  deriving DecidableEq, Repr, Inhabited

/-- A primary group of a port (R150, R161): index p × 4 + g. -/
structure LGroup where
  primary : BitVec 3 := 0
  /-- Entry weights; entry 0 is 0. -/
  weight : Vector (BitVec 16) 64 := Vector.replicate 64 0
  /-- Fade factor in force (R161), 65,535 after PORST_N. -/
  fade : BitVec 16 := 65535
  fadeFrom : BitVec 16 := 65535
  fadeTo : BitVec 16 := 65535
  fadeMs : Nat := 0
  fadeJ : Nat := 0
  fading : Bool := false
  deriving DecidableEq, Repr, Inhabited

/-- A temperature point of a primary (R162). -/
structure TcPoint where
  temp : Int := 0
  gain : BitVec 16 := 16384
  x : Int := 0
  y : Int := 0
  z : Int := 0
  deriving DecidableEq, Repr, Inhabited

/-- Temperature compensation of a primary (R162, R163). -/
structure Tc where
  ntc : BitVec 3 := 0
  points : List TcPoint := []
  /-- ILL_TC_p: gain in force (Q2.14) and temperature used. -/
  gain : BitVec 16 := 16384
  temp : BitVec 16 := 0
  /-- The column of coefficients pushed to the gamut role. -/
  col : Option (Int × Int × Int) := none
  /-- Gain, temperature and column computed for the coming boundary. -/
  next : Option (BitVec 16 × BitVec 16 × Option (Int × Int × Int)) := none
  /-- They come from a chain's write-out, before the period's first reserved frame (R153, R162). -/
  early : Bool := false
  deriving DecidableEq, Repr, Inhabited

/-- States of a string sense channel (ILL_Ss_STATUS). -/
inductive StrSt where
  | unused | ok | opened | shorted | senseFault
  deriving DecidableEq, Repr, Inhabited

/-- A string (R165 to R167). -/
structure Str where
  enable : Bool := false
  action : BitVec 2 := 0
  confirm : Nat := 3
  chain : BitVec 2 := 0
  channel : BitVec 3 := 0
  device : BitVec 5 := 0
  vOpen : BitVec 16 := 0
  vShort : BitVec 16 := 0
  iMin : BitVec 16 := 0
  diagCur : BitVec 16 := 0
  st : StrSt := .unused
  lowduty : Bool := false
  isStale : Bool := false
  /-- The action is in force (R166). -/
  acting : Bool := false
  /-- Consecutive open and short samples. -/
  openRun : Nat := 0
  shortRun : Nat := 0
  /-- Lit periods without an eligible interval (R167), and what this period has shown. -/
  dutyRun : Nat := 0
  measured : Bool := false
  litSeen : Bool := false
  eligSeen : Bool := false
  /-- The commanded current of R147 in 1/65,535^3 of full scale, none with ICH_EN low, the instant since which it has been that, and
  whether it is diagnostic drive. -/
  cur : Option Nat := none
  since : Nat := 0
  diag : Bool := false
  /-- An eligible interval has been that is still to be measured (R165), and whether it was a diagnostic pulse. -/
  ready : Option Bool := none
  /-- The last diagnostic pulse since the string became LOWDUTY. -/
  pulseAt : Option Nat := none
  volt : BitVec 16 := 0
  faultCnt : BitVec 32 := 0
  pulseCnt : BitVec 32 := 0
  deriving DecidableEq, Repr, Inhabited

/-- The illumination controller (R134 to R172). -/
structure Ill where
  /-- ISLOT code latched by the last ISTB. -/
  code : BitVec 6 := 0
  /-- ISTB strobes made (MODEL: counts the rises of the pin). -/
  strobes : Nat := 0
  /-- The code map in force: combination of 16 entries by code 1, 2, … (R149). -/
  map : List (List (BitVec 6)) := []
  /-- The map that the target tables are built for: that of the coming boundary (R149, R150). -/
  mapNext : List (List (BitVec 6)) := []
  /-- A commit, a weight change, a group change or a port setting has taken effect since the map in force was built (R149). -/
  rebuild : Bool := false
  /-- The SWAP of the waiting map was withheld: entry 0 (R157). -/
  swapOwed : Bool := false
  chains : Vector Chain 4 := Vector.replicate 4 {}
  /-- Driver d of chain c at c × 32 + d. -/
  drivers : Vector Driver 128 := Vector.replicate 128 {}
  groups : Vector LGroup 16 := Vector.replicate 16 {}
  tcs : Vector Tc 6 := Vector.replicate 6 {}
  strs : Vector Str 24 := Vector.replicate 24 {}
  senseSettleNs : Nat := 1000
  walkS : Nat := 10
  /-- The next walk group, 0 to 2, in rotation (R170). -/
  walkGroup : Nat := 0
  /-- The running slot has carried a diagnostic pulse, and a walk step (R170). -/
  pulseUsed : Bool := false
  walkUsed : Bool := false
  /-- DIAG_OFF of the last diagnostic pulse falls at this instant (R167), and the last periodic walk step was made at this one. -/
  diagUntil : Nat := 0
  walkAt : Nat := 0
  /-- The last reading of each NTC channel in 0.01 °C, which a STALE reading holds (R162). -/
  ntc : Vector Int 8 := Vector.replicate 8 0
  sticky : BitVec 4 := 0
  starvedCnt : BitVec 32 := 0
  walkCnt : BitVec 32 := 0
  walkFailCnt : BitVec 32 := 0
  tableLateCnt : BitVec 32 := 0
  strOpen : BitVec 24 := 0
  strShort : BitVec 24 := 0
  deriving DecidableEq, Repr, Inhabited

/-! ## Closed-loop engine (spec/05) -/

/-- Loop slot states (R174). -/
inductive LoopSt where
  | free | stop | ramp | run | fault
  deriving DecidableEq, Repr, Inhabited

/-- A loop input (R180, R181), or the schedule variable (R193). -/
structure LoopIn where
  cls : BitVec 8 := 0
  index : BitVec 8 := 0
  shift : Nat := 0
  latest : Bool := false
  ofs : Int := 0
  deriving DecidableEq, Repr, Inhabited

/-- A loop output (R184, R187). -/
structure LoopOut where
  /-- Group 0 to 15, or none (0xFF). -/
  group : Option (BitVec 4) := none
  lo : Nat := 0
  hi : Nat := 0
  safe : Nat := 0
  deriving DecidableEq, Repr, Inhabited

/-- A coefficient set (R188): 168 values and shifts. -/
structure CoefSet where
  value : List Int := []
  shift : List Nat := []
  deriving DecidableEq, Repr, Inhabited

/-- A loop slot's descriptor (LOOP_SET). -/
structure LoopCfg where
  x32 : Bool := false
  nObs : Nat := 0
  nInt : Nat := 0
  p : Nat := 1
  m : Nat := 1
  kind : BitVec 2 := 0
  port : BitVec 2 := 0
  fGroup : BitVec 2 := 0
  fEnable : Bool := false
  trigA : BitVec 32 := 0
  trigB : BitVec 32 := 0
  count : Nat := 0
  q0 : BitVec 2 := 0
  q1 : BitVec 2 := 0
  rampOnChange : Bool := false
  rs : Nat := 0
  action : BitVec 2 := 0
  supCnt : Nat := 1
  ins : Vector LoopIn 4 := Vector.replicate 4 {}
  outs : Vector LoopOut 2 := Vector.replicate 2 {}
  target : Vector Int 2 := Vector.replicate 2 0
  rampStep : Vector Nat 2 := Vector.replicate 2 0
  sched : LoopIn := {}
  regions : Nat := 1
  hyst : Nat := 0
  bounds : Vector Int 7 := Vector.replicate 7 0
  thr : Vector Nat 4 := Vector.replicate 4 0
  x0 : Vector Int 8 := Vector.replicate 8 0
  z0 : Vector Int 2 := Vector.replicate 2 0
  deriving DecidableEq, Repr, Inhabited

/-- A loop slot (R173 to R199). -/
structure Loop where
  st : LoopSt := .free
  cfg : LoopCfg := {}
  /-- Coefficient set by region; none when not loaded. -/
  coefs : Vector (Option CoefSet) 8 := Vector.replicate 8 none
  region : Nat := 0
  epoch : BitVec 16 := 0
  x : Vector Int 8 := Vector.replicate 8 0
  z : Vector Int 2 := Vector.replicate 2 0
  r : Vector Int 2 := Vector.replicate 2 0
  /-- References that take their input's value at the next step not skipped (R195). -/
  rPending : BitVec 2 := 0
  /-- References still ramping, and those whose new target takes effect at the next step (R195). -/
  ramping : BitVec 2 := 0
  rJump : BitVec 2 := 0
  f : Vector Int 4 := Vector.replicate 4 0
  fCount : Vector Nat 4 := Vector.replicate 4 0
  /-- Steps left for which the filters stay unchanged (R196). -/
  quiet : Nat := 0
  /-- Held source values X of the inputs, and of the schedule variable (R182, R183). -/
  held : Vector Int 4 := Vector.replicate 4 0
  schedHeld : Int := 0
  d : Vector Nat 2 := Vector.replicate 2 0
  /-- Outputs that have produced a D since the last entry into RAMP (R197 HOLD), and the last of them. -/
  produced : BitVec 2 := 0
  lastGood : Vector Nat 2 := Vector.replicate 2 0
  /-- Outputs whose D is entered in their group (R189). -/
  entered : BitVec 2 := 0
  saturated : BitVec 2 := 0
  skipped : Bool := false
  staleStep : Bool := false
  /-- The SLOT trigger's count of qualifying slots, the TICK triggers of this period that are past, and the instant of the next TIME
  trigger in 1/4 ns; none before the first (R176). -/
  decCnt : Nat := 0
  tickCnt : Nat := 0
  timeNext : Option Nat := none
  /-- The window of the last SLOT trigger, and the instant of the last executed step or of the entry into RAMP after it (R182). -/
  win : Nat × Nat := (0, 0)
  stepNs : Nat := 0
  resid : BitVec 32 := 0
  sticky : BitVec 3 := 0
  sampleCnt : BitVec 32 := 0
  skipCnt : BitVec 32 := 0
  overrunCnt : BitVec 32 := 0
  faultCnt : BitVec 32 := 0
  swapCnt : BitVec 32 := 0
  deriving DecidableEq, Repr, Inhabited

/-- A lowest-wins group (R189 to R192). -/
structure LwGroup where
  /-- DEST: 0 none, 1 illumination group, 2 PWM. -/
  dest : BitVec 2 := 0
  index : BitVec 4 := 0
  dflt : BitVec 16 := 65535
  value : BitVec 16 := 65535
  dieWin : Bool := false
  dieCnt : BitVec 32 := 0
  deriving DecidableEq, Repr, Inhabited

/-- A PWM output (R200). -/
structure Pwm where
  carrier : Nat := 1000
  failsafe : BitVec 16 := 65535
  enable : Bool := true
  activeHigh : Bool := true
  /-- Settings that apply at the end of the period in progress. -/
  next : Option (Nat × BitVec 16 × Bool × Bool) := none
  duty : BitVec 16 := 65535
  failsafeOn : Bool := true
  deriving DecidableEq, Repr, Inhabited

/-- The closed-loop engine (R173 to R201). -/
structure Cle where
  loops : Vector Loop 64 := Vector.replicate 64 {}
  groups : Vector LwGroup 16 := Vector.replicate 16 {}
  pwms : Vector Pwm 8 := Vector.replicate 8 {}
  /-- The triggers whose step has not started, as instant and loop, in the order of their steps (R178). -/
  queue : List (Nat × Nat) := []
  sticky : BitVec 4 := 0
  /-- The engine clock monitor reports a fault (R200). -/
  clockLost : Bool := false
  deriving DecidableEq, Repr, Inhabited

/-! ## Exclusion, safety blank and symbols (spec/06) -/

/-- The exclusion set of one port (R202 to R224). -/
structure XSet where
  /-- The masking stage's copies of the ready versions still in use, newest first. -/
  maskCopies : List XVersion := [{}]
  /-- The audit's own copies (R219). -/
  auditCopies : List XVersion := [{}]
  /-- Versions created and not yet ready, oldest first, with the command that waits on each (R213). -/
  queue : List (XVersion × Option Held) := []
  /-- The last version created, ready or not, as the host gave it (R202). -/
  last : XVersion := {}
  /-- Version each band has taken (R214). -/
  band : Vector (BitVec 32) 16 := Vector.replicate 16 0
  /-- The newest ready version has been taken by some band (R215). -/
  taken : Bool := true
  /-- The last version passed R222. -/
  lastOk : Bool := true
  epoch : BitVec 16 := 0
  sticky : BitVec 4 := 0
  /-- XCL_Pp_VERSION. -/
  newest : BitVec 32 := 0
  auditPix : BitVec 32 := 0
  auditRow : BitVec 32 := 0
  cap0 : BitVec 32 := 0
  cap1 : BitVec 32 := 0
  updateCnt : BitVec 32 := 0
  skipCnt : BitVec 32 := 0
  /-- A stuck-on pixel of the array is hard (R224). -/
  stuck : Bool := false
  deriving DecidableEq, Repr, Inhabited

/-- The exclusion engine, the safety blank and the symbols (R202 to R238). -/
structure Xcl where
  sets : Vector XSet 4 := Vector.replicate 4 {}
  /-- XCL_STATUS.ACTIVE, reset 0x800. -/
  active : BitVec 12 := 0x800
  latch : BitVec 12 := 0x800
  /-- XCL_STICKY: every raised source sets its bit (R226), so source 11's is set after a reset. -/
  sticky : BitVec 13 := 0x800
  safe : Bool := true
  safeCnt : BitVec 32 := 0
  safeTick : BitVec 24 := 0
  safeCode : BitVec 4 := 0
  safeFrame : BitVec 32 := 0
  discCnt : BitVec 32 := 0
  /-- Levels of the safety inputs: SAFE_BLANK_N, and ILOCK_A and ILOCK_B closed. -/
  blankIn : Bool := false
  ilockA : Bool := false
  ilockB : Bool := false
  /-- A TAP instruction holds the safety outputs low (R565). -/
  tapHold : Bool := false
  /-- Symbol list of each view, as loaded (R235), none when unset. -/
  symList : Vector (Option (List Byte)) 5 := Vector.replicate 5 none
  /-- Glyphs loaded, and glyphs LOST (R236, R424). -/
  glyphLoaded : BitVec 256 := 0
  glyphLost : BitVec 256 := 0
  deriving DecidableEq, Repr, Inhabited

/-! ## Slicer and plane store (spec/07) -/

/-- Slicer states (R243). -/
inductive SlicerSt where
  | off | idle | fill | drain
  deriving DecidableEq, Repr, Inhabited

/-- One slicer (R242 to R245). -/
structure Slicer where
  st : SlicerSt := .off
  view : BitVec 3 := 0
  primary : BitVec 3 := 0
  band : BitVec 7 := 0
  /-- Frame buffer that the band belongs to. -/
  buf : Nat := 0
  /-- The frame was dropped while the slicer held its band. -/
  dropped : Bool := false
  /-- It switches off after its band (R245). -/
  offAfter : Bool := false
  /-- Rows of 16-bit pixels in the pixel area. -/
  pixels : List (List (BitVec 16)) := []
  bandCnt : BitVec 32 := 0
  burstCnt : BitVec 32 := 0
  deriving DecidableEq, Repr, Inhabited

/-- The plane store of a view (R247 to R254). -/
structure PlaneStore where
  colours : BitVec 6 := 0
  f : Nat := 1
  width : Nat := 0
  height : Nat := 0
  isProtected : Bool := false
  /-- Byte address of buffer 0 in the plane region. -/
  base : Nat := 0
  bufs : List FrameBuf := []
  /-- SLC_Vv_NEWEST: buffer and frame number at which it completed. -/
  newest : Option (Nat × BitVec 28) := none
  ageNext : Nat := 0
  frameCnt : BitVec 32 := 0
  stallCnt : BitVec 32 := 0
  dropCnt : BitVec 32 := 0
  noframeCnt : BitVec 32 := 0
  deriving DecidableEq, Repr, Inhabited

/-- The slicer block (R239 to R261). -/
structure Slc where
  slicers : Vector Slicer 8 := Vector.replicate 8 {}
  stores : Vector PlaneStore 5 := Vector.replicate 5 {}
  sticky : BitVec 15 := 0
  rate : BitVec 20 := 0
  deriving DecidableEq, Repr, Inhabited


/-! ## Array link (spec/08) -/

/-- Octet states (R291). -/
inductive OctSt where
  | electricalIdle | bcLock | bcAlign | fwdTrain | capsWait | ready
  deriving DecidableEq, Repr, Inhabited

/-- A device lane of an octet (GLK_Ok_Li_STATUS and following, R299). -/
structure Lane where
  locked : Bool := false
  inverted : Bool := false
  down : Bool := false
  excluded : Bool := false
  /-- GLK_Ok_TXMAP's inverse: the logical position this device lane sends. -/
  pos : BitVec 3 := 0
  txInv : Bool := false
  crcCnt : BitVec 32 := 0
  swing : BitVec 5 := 0
  pre : BitVec 5 := 0
  post : BitVec 5 := 0
  /-- Consecutive STATUS messages reporting the lane not locked, and reporting CRC failures (R288). -/
  notLockedRun : Nat := 0
  crcRun : Nat := 0
  deriving DecidableEq, Repr, Inhabited

/-- An octet (R262 to R299). -/
structure Octet where
  st : OctSt := .electricalIdle
  port : BitVec 2 := 0
  allotted : Bool := false
  rate : BitVec 2 := 0
  dead : BitVec 3 := 0
  stripe7 : Bool := false
  bcInv : Bool := false
  aoct : BitVec 3 := 0
  epoch : BitVec 16 := 0
  sticky : BitVec 9 := 0
  lanes : Vector Lane 8 := Vector.ofFn fun i => { pos := BitVec.ofNat 3 i.val }
  bcCtle : BitVec 5 := 0
  trainCnt : BitVec 32 := 0
  laneDownCnt : BitVec 32 := 0
  restripeCnt : BitVec 32 := 0
  bcCrcCnt : BitVec 32 := 0
  bcStuffCnt : BitVec 32 := 0
  bcLossCnt : BitVec 32 := 0
  kaCnt : BitVec 32 := 0
  ctrlToCnt : BitVec 32 := 0
  frameCnt : BitVec 64 := 0
  /-- The swizzle of the previous training on each port, to find a change (R294). -/
  prevMap : Vector (Option (BitVec 3 × List (BitVec 3 × Bool))) 4 := Vector.replicate 4 none
  /-- Back-channel frame lock (R287), and the frame positions of the lock search. -/
  bcLocked : Bool := false
  bcGood : Nat := 0
  bcBad : Nat := 0
  /-- The back channel is lost (R289) until the octet leaves READY at the next boundary. -/
  bcLost : Bool := false
  /-- The last 64 messages received, newest first, to find copies and duplicates (R285). -/
  bcLastMsgs : List (List (BitVec 32)) := []
  /-- Words of a message still being assembled; after a lost frame, words are passed over up to the next idle word. -/
  bcPartial : List (BitVec 32) := []
  bcSkip : Bool := false
  /-- Training phase: second pass begun; the 10 ms of R293 and the 1 ms of R295 run. -/
  pass2 : Bool := false
  failed : Bool := false
  idleWait : Bool := false
  /-- A restripe to 7 lanes (with its dead position), or back to 8, is due at the next boundary (R311, R312). -/
  restripe : Option (BitVec 3) := none
  restoreDue : Bool := false
  /-- Consecutive clean STATUS messages (R312). -/
  cleanRun : Nat := 0
  /-- LINK_DIAG mode of a spare octet (R26). -/
  diag : BitVec 2 := 0
  /-- LINK_OCTET_RESETs that await their reply, oldest first. -/
  cmds : List Held := []
  deriving DecidableEq, Repr, Inhabited

/-- A quad's transmit PLL (R290). -/
structure Quad where
  /-- Its clock monitor reports a fault. -/
  bad : Bool := false
  sticky : BitVec 1 := 0
  unlockCnt : BitVec 32 := 0
  deriving DecidableEq, Repr, Inhabited

/-- A port's part of an allotment (R21 to R25, LINK_ALLOT). -/
structure Allot where
  first : BitVec 4 := 0
  count : BitVec 4 := 0
  rate : BitVec 2 := 0
  kaBurst : Bool := false
  kaUs : BitVec 8 := 0
  flightPs : BitVec 16 := 0
  deriving DecidableEq, Repr, Inhabited

/-- A band reset sent and not yet acknowledged (R278 to R286). -/
structure SentReset where
  rseq : BitVec 8 := 0
  band : BitVec 4 := 0
  witness : BitVec 32 := 0
  /-- ns at which its changeover is scheduled. -/
  due : Nat := 0
  deriving DecidableEq, Repr, Inhabited

/-- A band reset queued for the link (R279). -/
structure QReset where
  band : BitVec 4 := 0
  tag : BitVec 16 := 0
  view : BitVec 3 := 0
  glob : Bool := false
  drive : Option (BitVec 16) := none
  witness : BitVec 32 := 0
  rows : Nat := 0
  /-- ps at which its changeover is scheduled. -/
  duePs : Nat := 0
  /-- ns at which it was queued. -/
  atNs : Nat := 0
  deriving DecidableEq, Repr, Inhabited

/-- A lane frame as sent (R265): the line carries LaneFrame.line. -/
structure LaneFrame where
  lane : BitVec 7 := 0
  fcnt : BitVec 24 := 0
  type : BitVec 4 := 0
  stripe7 : Bool := false
  dead : BitVec 3 := 0
  units : List (BitVec 32) := []
  /-- 4,096 UI of alternating bits precede it (R297). -/
  preamble : Bool := false
  /-- Fill bits that follow it, until the last lane of the port ends its frame (R270). -/
  fill : Nat := 0
  deriving DecidableEq, Repr, Inhabited

/-- The link of one port (R262 to R298). -/
structure LinkPort where
  allot : Allot := {}
  fcnt : BitVec 24 := 0
  /-- Band resets and control packets that wait for the link, oldest first. -/
  resets : List QReset := []
  /-- Each with the instant, in ns, at which it was queued (R273). -/
  ctrl : List (Nat × List (BitVec 64)) := []
  /-- Units of a packet of which a part has been sent. -/
  cur : List (BitVec 32) := []
  rseq : BitVec 8 := 0
  sent : List SentReset := []
  /-- Control requests awaiting an answer, by OP (R283). -/
  asked : List (BitVec 8) := []
  /-- The last frame sent on each logical lane (MODEL: what the lanes carry). -/
  lastFrames : List LaneFrame := []
  /-- ns at which the last frame interval ended. -/
  frameNs : Nat := 0
  /-- A preamble precedes the next frame (R297), and the instant, in ns, at which back-to-back framing last stopped. -/
  resume : Bool := false
  stopNs : Nat := 0
  /-- The running allotment changed the port and it has not come READY since. -/
  changed : Bool := false
  /-- Every back channel of the port has been lost: the port retrains at the next boundary (R289). -/
  bcDue : Bool := false
  deriving DecidableEq, Repr, Inhabited

/-- The array link (R262 to R299). -/
structure Glk where
  octets : Vector Octet 16 := Vector.replicate 16 {}
  quads : Vector Quad 4 := Vector.replicate 4 {}
  ports : Vector LinkPort 4 := Vector.replicate 4 {}
  /-- An accepted allotment awaiting its boundary (R571), and the one whose bring-up runs. -/
  pending : Option Held := none
  running : Option Held := none
  deriving DecidableEq, Repr, Inhabited

/-! ## Array health (spec/09) -/

/-- Array states (R300). -/
inductive ArrSt where
  | absent | linking | present | parked | scanning
  deriving DecidableEq, Repr, Inhabited

/-- A defect entry (R313, R314). -/
structure DefEntry where
  row : BitVec 13 := 0
  col : BitVec 13 := 0
  kind : BitVec 2 := 0
  deriving DecidableEq, Repr, Inhabited

/-- A map saved in MRAM (R316). -/
structure SavedMap where
  serial : BitVec 64 := 0
  entries : List DefEntry := []
  lost : Bool := false
  deriving DecidableEq, Repr, Inhabited

/-- The health of one array (R300 to R327). -/
structure Arr where
  st : ArrSt := .absent
  hold : Bool := false
  latched : Bool := false
  scanPending : Option Held := none
  scanRun : Option Held := none
  /-- No rows are sent from a scan's start to the boundary after its end (R318, R321). -/
  scanQuiet : Bool := false
  scanData : List (BitVec 32) := []
  run : BitVec 8 := 0
  /-- A retrain of the port by R308 or R310 is due at the next boundary. -/
  retrainDue : Bool := false
  autoRestore : Bool := false
  refuseLimit : BitVec 8 := 64
  capsCause : BitVec 8 := 0
  /-- The capability record last accepted, and that it is new and awaits its boundary (R303). -/
  caps : Vector (BitVec 32) 16 := Vector.replicate 16 0
  capsValid : Bool := false
  newRec : Bool := false
  temp : BitVec 16 := 0
  tempStale : Bool := false
  map : List DefEntry := []
  mapLost : Bool := false
  mapDirty : Bool := false
  /-- Bands that still owe a confirmed changeover after the instant (ns) of a cause (R306). -/
  bandCause : BitVec 16 := 0
  causeAt : Vector Nat 16 := Vector.replicate 16 0
  /-- Causes of the whole port: 0 park, 1 a lane down before its boundary, 2 a scan. -/
  portCause : BitVec 3 := 0
  /-- The port is at entry 0 by a health hold, and the ns at which its last cause ended (R306). -/
  dark : Bool := false
  holdEnd : Nat := 0
  /-- The octets have been retrained since the latched hold began (R307). -/
  retrained : Bool := false
  /-- The last PARK_STATE reported park. -/
  parkHeard : Bool := false
  /-- AHM_PARKs whose request has been sent, oldest first. -/
  parkWait : List Held := []
  /-- PARK ARG 1 was sent by R522. -/
  parkShutdown : Bool := false
  sticky : BitVec 15 := 0
  ackCnt : BitVec 32 := 0
  mismatchCnt : BitVec 32 := 0
  disagreeCnt : BitVec 32 := 0
  ackMissCnt : BitVec 32 := 0
  lateCnt : BitVec 32 := 0
  strayCnt : BitVec 32 := 0
  holdCnt : BitVec 32 := 0
  parkCnt : BitVec 32 := 0
  defectNewCnt : BitVec 32 := 0
  defectLostCnt : BitVec 32 := 0
  scanCnt : BitVec 32 := 0
  capsRefuseCnt : BitVec 32 := 0
  retrainCnt : BitVec 32 := 0
  deriving DecidableEq, Repr, Inhabited

/-- The array health manager (R300 to R327). -/
structure Ahm where
  arrays : Vector Arr 4 := Vector.replicate 4 {}
  /-- Maps in MRAM, most recently saved first, at most 8 (R316). -/
  saved : List SavedMap := []
  deriving DecidableEq, Repr, Inhabited

/-! ## Composition (spec/10) -/

/-- A layer's configuration (CMP_LAYER_SET, R336). -/
structure Layer where
  enable : Bool := false
  source : BitVec 2 := 0
  blend : BitVec 2 := 0
  nearest : Bool := false
  lutOn : Bool := false
  z : Nat := 0
  format : BitVec 8 := 0
  alphaSrc : BitVec 2 := 0
  matrix : BitVec 2 := 0
  buffer : BitVec 32 := 0
  fence : BitVec 32 := 0
  alphaBuf : BitVec 32 := 0
  plane1 : Nat := 0
  plane2 : Nat := 0
  stride0 : Nat := 0
  stride1 : Nat := 0
  strideA : Nat := 0
  srcW : Nat := 0
  srcH : Nat := 0
  cropX : Nat := 0
  cropY : Nat := 0
  cropW : Nat := 0
  cropH : Nat := 0
  dstX : Int := 0
  dstY : Int := 0
  dstW : Nat := 0
  dstH : Nat := 0
  alpha : Nat := 0
  deriving DecidableEq, Repr, Inhabited

/-- A layer pipe (R329, R330). -/
structure Pipe where
  view : Option (BitVec 3) := none
  /-- An unbinding or rebinding that waits by R330. -/
  bindWait : Option Held := none
  epoch : BitVec 16 := 0
  shadow : Layer := {}
  layer : Layer := {}
  shadowLut : Option (List (BitVec 19)) := none
  lut : Option (List (BitVec 19)) := none
  tileCnt : BitVec 32 := 0
  deriving DecidableEq, Repr, Inhabited

/-- A view's settings (CMP_VIEW_SET, CMP_LUT_SET, CMP_WRITEBACK_SET; R328, R343, R348). -/
structure ViewCfg where
  width : Nat := 0
  height : Nat := 0
  leadTk : Nat := 8388608
  bg : Vector (BitVec 16) 3 := Vector.replicate 3 0
  lutOn : Bool := false
  range : BitVec 2 := 0
  lut : Option (List (BitVec 19)) := none
  wbMode : BitVec 2 := 0
  wbBuffer : BitVec 32 := 0
  wbStride : Nat := 0
  deriving DecidableEq, Repr, Inhabited

/-- A commit that waits for its boundary (R350 to R352), holding the shadows it schedules. -/
structure CmpCommit where
  held : Held := {}
  /-- Its boundary has come (R351). -/
  due : Bool := false
  mask : BitVec 5 := 0
  maxDefer : Nat := 0
  waited : Nat := 0
  views : Vector ViewCfg 5 := Vector.replicate 5 {}
  /-- The pipes bound to the masked views at acceptance, with the layers and LUTs of their shadows. -/
  pipes : List Nat := []
  layers : Vector Layer 24 := Vector.replicate 24 {}
  luts : Vector (Option (List (BitVec 19))) 24 := Vector.replicate 24 none
  deriving DecidableEq, Repr, Inhabited

/-- A view-frame in composition (R331 to R334). -/
structure Composing where
  period : BitVec 64 := 0
  fofs : BitVec 2 := 0
  /-- Surface of the pair it is written into. -/
  surface : Nat := 0
  /-- The fabric has lost its clock, or the frame was dropped; and that drop has been counted (R378). -/
  dropped : Bool := false
  counted : Bool := false
  /-- Rows that the canvas surface holds, and whether the fabric has started processing the frame (R377). -/
  rows : Nat := 0
  taken : Bool := false
  /-- Buffers it reads or writes (R356). -/
  uses : List (BitVec 32) := []
  /-- The state in force when it started. -/
  cfg : ViewCfg := {}
  layers : List (Nat × Layer) := []
  luts : List (Nat × Option (List (BitVec 19))) := []
  /-- General-region words that a read of it found uncorrectable (R410), as address / 32. -/
  bad : List Nat := []
  /-- General-region address of its symbol surface (R386); none composes a transparent one. -/
  symb : Option Nat := none
  isProtected : Bool := false
  /-- Its protected layers contribute (R485), and the mark in force when it started: payload and strength. -/
  markOk : Bool := true
  mark : Option (BitVec 32 × BitVec 16) := none
  deriving DecidableEq, Repr, Inhabited

/-- A view of the compositor. -/
structure CmpView where
  shadow : ViewCfg := {}
  cfg : ViewCfg := {}
  /-- A state has been committed for the view. -/
  committed : Bool := false
  composing : Option Composing := none
  isProtected : Bool := false
  sticky : BitVec 2 := 0
  frameCnt : BitVec 32 := 0
  skipCnt : BitVec 32 := 0
  deferCnt : BitVec 32 := 0
  lateCnt : BitVec 32 := 0
  cullCnt : BitVec 32 := 0
  wbCnt : BitVec 32 := 0
  wbFrame : BitVec 32 := 0
  deriving DecidableEq, Repr, Inhabited

/-- A buffer (R354 to R358, R424). -/
structure Buffer where
  handle : BitVec 32 := 0
  owner : HostId := 0
  size : Nat := 0
  map : Bool := false
  isProtected : Bool := false
  shared : Bool := false
  /-- BAR2 offset when mapped. -/
  bar2 : Option Nat := none
  fence : BitVec 32 := 0
  /-- General-region address, none when unplaced (R423). -/
  place : Option Nat := none
  /-- The BUF_FREE that awaits the last reference. -/
  freePending : Option Held := none
  lost : Bool := false
  deriving DecidableEq, Repr, Inhabited

/-- The compositor and the buffers (R328 to R360). -/
structure Cmp where
  views : Vector CmpView 5 := Vector.replicate 5 {}
  pipes : Vector Pipe 24 := Vector.replicate 24 {}
  commits : List CmpCommit := []
  bufs : List Buffer := []
  /-- Generation that the next use of each freed index takes; an index not listed starts at 1, so that no handle is 0. -/
  gens : List (Nat × Nat) := []
  /-- Commands that name a buffer and have not completed (R356). -/
  named : List (BitVec 32) := []
  sticky : BitVec 2 := 0
  lockDropCnt : BitVec 32 := 0
  deriving DecidableEq, Repr, Inhabited

/-! ## Pixel fabric (spec/11) -/

/-- Cluster states (R362). -/
inductive ClSt where
  | off | load | standby | active | drain | faulted
  deriving DecidableEq, Repr, Inhabited

/-- An image slot (R363 to R366). -/
structure Image where
  valid : Bool := false
  builtIn : Bool := false
  role : BitVec 3 := 0
  cost : BitVec 16 := 0
  paramSize : Nat := 0
  io : BitVec 8 := 0
  rev : BitVec 32 := 0
  size : BitVec 32 := 0
  /-- Its code, its per-engine data and the initial content of the shared SRAM (R365); of a built-in image they come from the
  firmware and are no state. -/
  code : List Byte := []
  data : List Byte := []
  shared : List Byte := []
  deriving DecidableEq, Repr, Inhabited

/-- What the local SRAM of a Whisk engine was loaded with: at most 16 KiB of code, and data (R361). -/
structure Engine where
  code : List Byte := []
  data : List Byte := []
  deriving DecidableEq, Repr, Inhabited

/-- A cluster (R361, R362, R370 to R376, R391). -/
structure Cluster where
  st : ClSt := .off
  role : BitVec 3 := 0
  view : BitVec 3 := 0
  stage : BitVec 3 := 0
  slot : BitVec 4 := 0
  epoch : BitVec 16 := 0
  /-- It belongs to a chain in force or pending. -/
  assigned : Bool := false
  /-- Its SRAM holds its image: from the end of a load to the next one (R370, R376). -/
  loaded : Bool := false
  symb : Bool := false
  /-- FAB_CLUSTER_RESETs that its reload completes (R376), in order. -/
  cmds : List Held := []
  engines : Vector Engine 8 := Vector.replicate 8 {}
  /-- What its shared SRAM was loaded with. -/
  shared : List Byte := []
  bandCnt : BitVec 32 := 0
  ceCnt : BitVec 32 := 0
  ueCnt : BitVec 32 := 0
  deriving DecidableEq, Repr, Inhabited

/-- A role chain (FAB_CHAIN_SET, R367, R368): image slot and cluster mask of each stage, and the SYMB clusters. -/
structure RoleChain where
  stages : List (BitVec 8 × BitVec 64) := []
  symbImage : Option (BitVec 8) := none
  symbClusters : BitVec 64 := 0
  deriving DecidableEq, Repr, Inhabited

/-- The parameters of a stage (FAB_PARAM_SET, R381 to R388): PARAM bytes and buffer; none for the role's defaults. -/
structure Params where
  bytes : List Byte := []
  buffer : BitVec 32 := 0
  deriving DecidableEq, Repr, Inhabited

/-- A view-frame of the fabric (R377, R378). -/
structure FabFrame where
  period : BitVec 64 := 0
  fofs : BitVec 2 := 0
  surface : Nat := 0
  composed : Bool := false
  /-- Output bands that have entered stage 0; slicer bands that have left the last stage; and those that a slicer has
  taken. Slicer bands count band by band, and within a band by colour slot. -/
  started : Nat := 0
  done : Nat := 0
  offered : Nat := 0
  startNs : Nat := 0
  isProtected : Bool := false
  /-- The chain, its parameters and the pushed gamut columns by primary, in force when its first band entered stage 0. -/
  chain : RoleChain := {}
  params : List (Option Params) := []
  cols : List (Option (Int × Int × Int)) := []
  deriving DecidableEq, Repr, Inhabited

/-- A view of the fabric. -/
structure FabView where
  chain : RoleChain := {}
  next : Option RoleChain := none
  nextStart : Bool := false
  nextGo : Bool := false
  nextCmd : Option Held := none
  goCmd : Option Held := none
  invalid : Bool := false
  /-- The checks of R368 and R369 are repeated at the next boundary (R373). -/
  recheck : Bool := false
  /-- Parameters of each stage in force, and those that a chain awaiting its switch has taken. -/
  params : Vector (Option Params) 8 := Vector.replicate 8 none
  nextParams : Vector (Option Params) 8 := Vector.replicate 8 none
  frame : Option FabFrame := none
  waiting : Option FabFrame := none
  /-- General-region addresses of the canvas surfaces and the symbol surfaces. -/
  canvas : List Nat := []
  symbSurf : List Nat := []
  /-- Bytes of each surface. -/
  surfSize : Nat := 0
  symbRun : Option (BitVec 64 × BitVec 2) := none
  symbDone : Option (BitVec 64 × BitVec 2) := none
  symbIdx : Nat := 0
  /-- The symbol surface that the running rendering draws into. -/
  symbTo : Nat := 0
  /-- Canvas surfaces that hold what protected layers composed, until they are written with zeros (R484). -/
  secret : List Nat := []
  sticky : BitVec 3 := 0
  frameCnt : BitVec 32 := 0
  dropCnt : BitVec 32 := 0
  unrefCnt : BitVec 32 := 0
  symbLateCnt : BitVec 32 := 0
  waitCnt : BitVec 32 := 0
  lastUs : BitVec 32 := 0
  deriving DecidableEq, Repr, Inhabited

/-- The built-in images of slots 0 to 5 (R364); their COST depends on the view (R381 to R386). -/
def builtInImage (i : Nat) : Image :=
  if i < 6 then { valid := true, builtIn := true, role := BitVec.ofNat 3 (i + 1), paramSize := [4, 4, 40, 4, 4, 0].getD i 0
                  io := [0, 3, 2, 0, 3, 0].getD i 0 }
  else {}

/-- The pixel fabric (R361 to R392). -/
structure Fab where
  images : Vector Image 16 := Vector.ofFn fun i => builtInImage i.val
  clusters : Vector Cluster 64 := Vector.replicate 64 {}
  views : Vector FabView 5 := Vector.replicate 5 {}
  clockLost : Bool := false
  stopped : Bool := false
  sticky : BitVec 3 := 0
  clockLostCnt : BitVec 32 := 0
  deriving DecidableEq, Repr, Inhabited

/-! ## Memory (spec/12) -/

/-- MEM_STATUS.STATE. -/
inductive MemSt where
  | training | ready | restart | failed
  deriving DecidableEq, Repr, Inhabited

/-- A memory port (R400 to R403). -/
structure MemPort where
  cls : BitVec 2 := 0
  bytes : BitVec 64 := 0
  /-- Tokens of the bucket of R402, in 1/1,000 byte, and the ns at which they were counted. -/
  bucket : Nat := 0
  bucketNs : Nat := 0
  excessCnt : BitVec 32 := 0
  promoteCnt : BitVec 32 := 0
  ueCnt : BitVec 32 := 0
  /-- The burst that the port's last read returned (R404). -/
  data : List Byte := []
  /-- That read ended in an uncorrectable error: on port 9 a bus error to the core concerned (R410). -/
  busErr : Bool := false
  deriving DecidableEq, Repr, Inhabited

/-- A pseudo-channel. -/
structure MemPc where
  retrain : Bool := false
  /-- Settings that the running retrain has tested (R421). -/
  gaps : Nat := 0
  /-- ns of its last gap, and of the end of the requests' wait in it. -/
  gapNs : Nat := 0
  gapUntil : Nat := 0
  ceCnt : BitVec 32 := 0
  ueCnt : BitVec 32 := 0
  deriving DecidableEq, Repr, Inhabited

/-- A physical rank. -/
structure MemRank where
  /-- 0 active, 1 power-down, 2 self-refresh. -/
  power : BitVec 2 := 0
  segs : BitVec 8 := 0xFF
  /-- ns of its last request (R416). -/
  lastNs : Nat := 0
  ceCnt : BitVec 32 := 0
  ueCnt : BitVec 32 := 0
  deriving DecidableEq, Repr, Inhabited

/-- An open row of a bank (R401). -/
structure OpenRow where
  pc : Nat := 0
  rank : Nat := 0
  bank : Nat := 0
  row : Nat := 0
  /-- ns of its last access. -/
  atNs : Nat := 0
  deriving DecidableEq, Repr, Inhabited

/-- A request that waits at its pseudo-channel (R403): since when, from when on bank timing allows it, whether its bucket held the
tokens, and whether it has been promoted. -/
structure MemWait where
  req : MemReq := {}
  atNs : Nat := 0
  readyNs : Nat := 0
  reserved : Bool := false
  promoted : Bool := false
  /-- The data of a read that has been served, while an earlier read of its port waits (R404). -/
  got : Option (List Byte) := none
  deriving DecidableEq, Repr, Inhabited

/-- The patterns of a channel's generator (R419). -/
inductive MemPattern where
  | prbs7 | prbs15 | prbs31 | walkingOne | walkingZero | lfsr
  deriving DecidableEq, Repr, Inhabited

/-- A channel's pattern generator with the seed of its LFSR, and its per-DQ compare counters: 64 data bits (R393, R419). -/
structure MemGen where
  pattern : MemPattern := .prbs7
  seed : BitVec 32 := 0
  errors : Vector Nat 64 := Vector.replicate 64 0
  deriving DecidableEq, Repr, Inhabited

/-- The memory controller (R393 to R425) and the memory's contents. -/
structure Mem where
  st : MemSt := .training
  planeRows : Nat := 2048
  order : BitVec 2 := 1
  grain : Nat := 12
  spare : Bool := true
  sticky : BitVec 10 := 0
  /-- Physical rank of each logical rank, and the spare. -/
  rankMap : Vector (BitVec 2) 4 := Vector.ofFn fun i => BitVec.ofNat 2 i.val
  spareRank : BitVec 2 := 3
  spareValid : Bool := true
  failed : BitVec 4 := 0
  fenced : BitVec 32 := 0
  /-- The fences that the layout in force accounts for (R423). -/
  laid : BitVec 32 := 0
  /-- MEM_MIG_CKPT: next row index, source, target, running. -/
  migRow : Nat := 0
  migSrc : BitVec 2 := 0
  migDst : BitVec 2 := 0
  migRun : Bool := false
  migCmd : Option Held := none
  retrainCmd : Option Held := none
  retrainFenced : Bool := false
  /-- Classes after reset by R400. -/
  ports : Vector MemPort 11 := Vector.ofFn fun i => { cls := [2, 1, 2, 1, 1, 0, 0, 0, 0, 2, 3].getD i.val 0 }
  pcs : Vector MemPc 32 := Vector.replicate 32 {}
  /-- A spare rank is in self-refresh with every segment dropped (R394). -/
  ranks : Vector MemRank 4 := Vector.ofFn fun i => if i.val = 3 then { power := 2, segs := 0 } else {}
  ageUs : Vector Nat 3 := Vector.ofFn fun i => if i.val = 0 then 4 else if i.val = 1 then 20 else 200
  pageIdleNs : Nat := 100
  idleNs : Nat := 2000
  nrrP : Nat := 10
  /-- The 32-bit LFSR of each channel that draws the refreshes of neighbour rows (R408). -/
  nrrLfsr : Vector (BitVec 32) 16 := Vector.replicate 16 1
  /-- The training hardware of each channel (R419). -/
  gens : Vector MemGen 16 := Vector.replicate 16 {}
  scrubH : Nat := 24
  migRate : Nat := 430
  /-- Reservations in MB/s: PLANE_RD, PLANE_WR, INGEST, LAYER_RD, FABRIC, OTHER. -/
  res : Vector Nat 6 := #v[450000, 96000, 48000, 48000, 120000, 20000]
  openRows : List OpenRow := []
  /-- Requests that wait, oldest first. -/
  waiting : List MemWait := []
  /-- ns of the last scrub pass, and of the last row index copied or the migration's start (R411, R412). -/
  scrubNs : Nat := 0
  migNs : Nat := 0
  /-- Words that a migration wrote so that they read as uncorrectable (R410), as MEM_UE_ADDR_LO gives a place. -/
  poison : List (BitVec 32) := []
  selfRefresh : Bool := false
  ueAddrLo : BitVec 32 := 0
  ueAddrHi : BitVec 32 := 0
  ueCnt : BitVec 32 := 0
  ceCnt : BitVec 32 := 0
  nrrCnt : BitVec 32 := 0
  scrubPassCnt : BitVec 32 := 0
  retrainCnt : BitVec 32 := 0
  fenceEvtCnt : BitVec 32 := 0
  protViolCnt : BitVec 32 := 0
  migCnt : BitVec 32 := 0
  lostCnt : BitVec 32 := 0
  /-- The bytes of the plane region, of the general region and of the device reserve, whose first
  bytes are the glyph store, in canonical form (Memory.wf). -/
  plane : List Host.Cell := []
  general : List Host.Cell := []
  reserve : List Host.Cell := []
  deriving DecidableEq, Repr, Inhabited

/-! ## Management and the enclave (spec/14) -/

/-- Management states (MGT_STATUS). -/
inductive MgtSt where
  | rom | recovery | run | reinit | halt
  deriving DecidableEq, Repr, Inhabited

/-- Image-slot states of R463. -/
inductive SlotSt where
  | empty | incomplete | valid | invalid
  deriving DecidableEq, Repr, Inhabited

/-- A flash image slot and its entry of the slot table (R462 to R464). -/
structure FlashSlot where
  st : SlotSt := .empty
  bytes : List Byte := []
  svn : Nat := 0
  deriving DecidableEq, Repr, Inhabited

/-- One copy of the slot table in flash (R462): its sequence number, the slots' states, the preferred-slot bit, and whether its CRC-32C
holds, which it does in every copy that the device has written. -/
structure SlotTable where
  seq : BitVec 32 := 0
  states : Vector SlotSt 2 := Vector.replicate 2 .empty
  preferB : Bool := false
  /-- Its CRC-32C is good. -/
  crcGood : Bool := true
  deriving DecidableEq, Repr, Inhabited

/-- The fault record of R474. -/
structure FaultRec where
  /-- RANK_STATE by physical rank: 0 good, 1 failing, 2 failed. -/
  rank : Vector (BitVec 2) 4 := Vector.replicate 4 0
  thermalFrame : BitVec 64 := 0
  thermalSensor : BitVec 8 := 0
  thermalPeak : BitVec 24 := 0
  lockstep : BitVec 32 := 0
  lockstepFrame : BitVec 64 := 0
  tamper : BitVec 32 := 0
  bootSlot : BitVec 1 := 0
  fallbacks : BitVec 8 := 0
  deriving DecidableEq, Repr, Inhabited

/-- The management subsystem (R457 to R475). -/
structure Mgt where
  st : MgtSt := .rom
  /-- The ROM runs after a warm reset and checks the SRAM copy of the running slot (R467). -/
  warm : Bool := false
  /-- Running slot: false A, true B. -/
  runSlot : Bool := false
  slots : Vector FlashSlot 2 := Vector.replicate 2 {}
  preferB : Bool := false
  /-- The two copies of the slot table, of which the one with the higher sequence number is in force and agrees with slots and
  preferB (R462). -/
  tables : Vector SlotTable 2 := Vector.replicate 2 {}
  /-- The image that the SRAM copy of stage-1 holds (R457, R458). -/
  sram : List Byte := []
  sticky : BitVec 7 := 0
  lockstepCnt : BitVec 32 := 0
  wdogCnt : BitVec 32 := 0
  fallbackCnt : BitVec 32 := 0
  /-- Event log; its first record is that of the reset (R475). -/
  logSeq : BitVec 32 := 1
  logLostCnt : BitVec 32 := 0
  log : List LogRec := [{ lseq := 1, vec := 12, code := 3 }]
  logUnflushed : Nat := 1
  flashLog : List LogRec := []
  /-- Records written to the flash ring since it was empty (R475). -/
  flashCnt : Nat := 0
  clkStatus : BitVec 16 := 0
  clkSticky : BitVec 16 := 0
  clkFaultCnt : BitVec 32 := 0
  /-- Clocks that have gone bad while a reset is held; their response comes at its exit (MODEL). -/
  clkLate : BitVec 16 := 0
  fault : FaultRec := {}
  fuses : Nat := 0
  revoked : BitVec 8 := 0
  fuseGoal : Option (Nat × Held) := none
  update : Option (Nat × Nat × List Byte) := none
  updateCmd : Option Held := none
  reinitCmd : Option Held := none
  mismatches : List Nat := []
  /-- The boot configuration record's CFG_OWNER; none when the record's CRC fails (R468). -/
  bootOwner : Option HostId := none
  bootAllot : Option (List Byte) := none
  /-- The allotment of this cold boot, as the record stood at its PORST_N (R468). -/
  allotNow : Option (List Byte) := none
  /-- The boot allotment of this cold boot has been made, or it has none (R468). -/
  allotMade : Bool := true
  deriving DecidableEq, Repr, Inhabited

/-- Enclave states (R477). -/
inductive SecSt where
  | selftest | provision | operational | error | zeroised
  deriving DecidableEq, Repr, Inhabited

/-- A content-key slot (R482). -/
structure KeySlot where
  loaded : Bool := false
  key : List Byte := []
  owner : HostId := 0
  ivPrefix : List Byte := []
  counter : Nat := 0
  epoch : BitVec 16 := 0
  deriving DecidableEq, Repr, Inhabited

/-- The security enclave (R476 to R490). -/
structure Sec where
  st : SecSt := .selftest
  errorCause : BitVec 2 := 0
  role : Vector (BitVec 2) 4 := Vector.replicate 4 0
  index : Vector (BitVec 4) 4 := Vector.replicate 4 0
  nonce : Vector (Option (List Byte)) 4 := Vector.replicate 4 none
  /-- Timebase counts at which each host's nonce was made, and at which each KEM context was. -/
  nonceNs : Vector Nat 4 := Vector.replicate 4 0
  kemNs : Vector Nat 4 := Vector.replicate 4 0
  /-- ns at which the host's lockout ends; 0 when it has none (R479). -/
  lockout : Vector Nat 4 := Vector.replicate 4 0
  failRun : Vector Nat 4 := Vector.replicate 4 0
  /-- Decapsulation and encapsulation keys of each context. -/
  kem : Vector (Option (List Byte × List Byte)) 4 := Vector.replicate 4 none
  keys : Vector KeySlot 64 := Vector.replicate 64 {}
  users : Vector (Option (List Byte)) 16 := Vector.replicate 16 none
  officers : List (List Byte) := []
  markRequired : Bool := false
  loopMask : BitVec 4 := 0xF
  mark : Option (BitVec 32 × BitVec 16) := none
  markNext : Option (BitVec 32 × BitVec 16) := none
  tamperCause : BitVec 8 := 0
  bbramValid : Bool := false
  /-- The BBRAM secret; the device identity key and the storage key, derived at power-up; and the DRBG's state (R480). Empty while there
  is none. -/
  bbram : List Byte := []
  identity : List Byte := []
  storageKey : List Byte := []
  drbgState : List Byte := []
  /-- A zeroisation is pending until SEC_ZEROISE with RESUME (R477), and the fuse of a tamper on VBAT is still to burn (R489). -/
  zeroPending : Bool := false
  fusePend : Bool := false
  tamperFuse : Bool := false
  /-- Consecutive mismatches of each tamper loop. -/
  loopBad : Vector Nat 4 := Vector.replicate 4 0
  lfsr : Vector (BitVec 16) 4 := Vector.replicate 4 1
  services : List Held := []
  /-- Requests to the DRBG since its last reseed, and seeds drawn from the entropy source so far (MODEL: the index of the next). -/
  drbgReq : Nat := 0
  drbgIdx : Nat := 0
  /-- Timebase count of the DRBG's last reseed (R481). -/
  drbgNs : Nat := 0
  sticky : BitVec 9 := 0
  authFailCnt : BitVec 32 := 0
  tagFailCnt : BitVec 32 := 0
  ivReplayCnt : BitVec 32 := 0
  zeroCnt : BitVec 32 := 0
  deriving DecidableEq, Repr, Inhabited

/-! ## Calibration (spec/15) -/

/-- A calibration set: its header and words 1 to 27 of its layout, as bytes 0x04 to 0x6F (R492, R503). -/
structure CalSet where
  temp : BitVec 16 := 0
  valid : Bool := false
  bytes : Vector Byte 108 := Vector.replicate 108 0
  deriving DecidableEq, Repr, Inhabited

/-- A calibration region (R491 to R503). -/
structure CalRegion where
  sets : Vector CalSet 4 := Vector.replicate 4 {}
  /-- The sets as they stood before the set words written since the last step, which the targets follow until the next (R501). -/
  old : Option (Vector CalSet 4) := none
  cur : Vector Byte 108 := Vector.replicate 108 0
  freeze : Bool := false
  written : Bool := false
  limit : Bool := false
  /-- θ in use, signed 0.01 °C (R493, R494). -/
  theta : Int := 2500
  /-- Offset sampler thresholds and runs of unmoved windows, per DQ (0 for a GLK region). -/
  thr : Vector Int 32 := Vector.replicate 32 0
  quiet : Vector Nat 32 := Vector.replicate 32 0
  deriving DecidableEq, Repr, Inhabited

/-- CAL_CLASSc_CTRL. -/
structure CalClass where
  stepUs : Nat := 100
  deadband : Nat := 16
  darkS : Nat := 1
  bgEn : Bool := true
  deriving DecidableEq, Repr, Inhabited

/-- Calibration (R491 to R503). -/
structure Cal where
  regions : Vector CalRegion 92 := Vector.replicate 92 {}
  classes : Vector CalClass 5 := Vector.replicate 5 {}
  /-- ns at which the last dark window ended (R498). -/
  lastDark : Option Nat := none
  /-- ns of each class's last step (R495). -/
  stepNs : Vector Nat 5 := Vector.replicate 5 0
  sticky : BitVec 3 := 0
  updateCnt : BitVec 32 := 0
  limitCnt : BitVec 32 := 0
  darkCnt : BitVec 32 := 0
  deriving DecidableEq, Repr, Inhabited

/-! ## Power and thermal (spec/16) -/

/-- A telemetry item (R511, PWR_ITEM_SET). -/
structure PwrItem where
  defined : Bool := false
  addr : BitVec 7 := 0
  page : BitVec 8 := 0
  code : BitVec 8 := 0
  format : BitVec 2 := 0
  unit : BitVec 2 := 0
  pollUs : Nat := 100
  value : BitVec 32 := 0
  fault : Bool := false
  stale : Bool := false
  failRun : Nat := 0
  deriving DecidableEq, Repr, Inhabited

/-- Power supplies and domains (R504 to R515, R526, R527). -/
structure Pwr where
  pgood : BitVec 4 := 0
  /-- Main-rail step reached: the rails of the steps below it are on (R507). -/
  step : Nat := 0
  /-- ns from which the first step may be taken, after rails that were found on have been turned off (R508). -/
  railsNs : Nat := 0
  seqDone : Bool := false
  retryWait : Bool := false
  /-- ns of the step that last failed (R508). -/
  failNs : Nat := 0
  seqFails : Nat := 0
  standby : Bool := false
  standbyCmd : Option Held := none
  /-- ns at which the exit from standby began (R527). -/
  exitNs : Nat := 0
  railReset : Bool := false
  vbatGood : Bool := true
  vin : BitVec 16 := 0
  vcoreSet : BitVec 10 := 750
  /-- The set point that the exit from standby restores (R527). -/
  vcoreSaved : BitVec 10 := 750
  /-- Consecutive AVSBus read-backs more than 25 mV off the set point (R509). -/
  avsRun : Nat := 0
  margin : Nat := 10
  sticky : BitVec 8 := 0
  railFaultCnt : BitVec 32 := 0
  seqFailCnt : BitVec 32 := 0
  vinLowCnt : BitVec 32 := 0
  vinHighCnt : BitVec 32 := 0
  items : Vector PwrItem 32 := Vector.replicate 32 {}
  /-- STATUS_WORD of each rail, as read after the last ALERT (R511). -/
  statusWords : List (BitVec 16) := []
  /-- PWR_DOMk: bit per domain. -/
  doms : BitVec 144 := 0
  deriving DecidableEq, Repr, Inhabited

/-- Thermal management (R516 to R525). -/
structure Thm where
  /-- 52 sensors: reading in 0.01 °C, and fault. -/
  temp : Vector Int 52 := Vector.replicate 52 2500
  sensFault : Vector Bool 52 := Vector.replicate 52 false
  warn : Bool := false
  throttle : Bool := false
  shutdown : Bool := false
  fast : Bool := false
  noRestart : Bool := false
  /-- ns since which every sample of a shutdown has lain below its threshold less 15 °C (R524). -/
  coolFrom : Option Nat := none
  phi : Nat := 256
  limit : Nat := 65535
  lightPct : Nat := 10
  hotTemp : Int := 0
  hotSensor : Nat := 0
  gradA : BitVec 6 := 0
  gradB : BitVec 6 := 0
  /-- A shutdown was in force when a warm reset came (R525). -/
  again : Bool := false
  /-- The restart of R524 awaits its boundary. -/
  restartDue : Bool := false
  sticky : BitVec 6 := 0
  warnCnt : BitVec 32 := 0
  throttleCnt : BitVec 32 := 0
  shutdownCnt : BitVec 32 := 0
  gradientCnt : BitVec 32 := 0
  sensorFaultCnt : BitVec 32 := 0
  deriving DecidableEq, Repr, Inhabited

/-! ## The machine -/

/-- The state of the block. -/
structure State where
  /-- The commands that wait, first in, first out. -/
  pending : List Instr := []
  /-- Nanoseconds counted since State.reset (MODEL). -/
  ns : Nat := 0
  /-- The NCO phase in 24.40 format; its top 24 bits are TIM_TICK (R41, R44). -/
  phase : BitVec 64 := 0
  /-- TIM_FRAME (R42). -/
  frame : BitVec 64 := 0
  /-- VIN is present; PORST_N and WRST_N are low. -/
  powered : Bool := true
  /-- Value of ns at the last release of a reset (MODEL). -/
  relNs : Nat := 0
  porst : Bool := false
  wrst : Bool := false
  /-- The reset that is held is a cold one (R528). -/
  coldReset : Bool := false
  /-- Boot straps sampled at the release of PORST_N (R457), and the TAP instruction (R565), IDCODE after the TAP's reset. -/
  straps : BitVec 4 := 3
  tapIr : BitVec 8 := 1
  /-- Temperature grade X (R2); C otherwise. -/
  gradeX : Bool := false
  /-- Free values used so far (MODEL): the index of the next one. -/
  free : Nat := 0
  /-- The tick count has wrapped and its PERIOD_BOUNDARY is still to be stepped (MODEL). -/
  wrapped : Bool := false
  /-- Events that the device has produced itself and that step takes when no command waits (MODEL). -/
  raised : List Instr := []
  hif : Hif := {}
  tim : Tim := {}
  seq : Seq := {}
  ill : Ill := {}
  cle : Cle := {}
  xcl : Xcl := {}
  slc : Slc := {}
  glk : Glk := {}
  ahm : Ahm := {}
  cmp : Cmp := {}
  fab : Fab := {}
  mem : Mem := {}
  mgt : Mgt := {}
  sec : Sec := {}
  cal : Cal := {}
  pwr : Pwr := {}
  thm : Thm := {}
  deriving DecidableEq, Repr, Inhabited

/-- Faults. -/
inductive Fault where
  /-- Raised by no meaning: every command of the table completes (R37 and R442 give even a bad access or a refused
  command an effect). It stands so that the type has a member; safe. -/
  | none
  deriving DecidableEq, Repr

/-- Refusals. -/
inductive Refusal where
  /-- Raised only by an arm of exec whose command has no meaning yet; safe. -/
  | notModelled (mnemonic : String)
  deriving DecidableEq, Repr

/-- The machine right after a cold reset: the instant at which PORST_N is released (R569). -/
def State.reset : State := {}

end Sys2Proof.Machine
end

