-- ==== Sys2Proof/Machine/Ops.lean ====
section
/-!
DEFINITION. The named operations over the state: vectors, bytes, CRC-32C, byte memories in canonical form, counters, the
tick count, one update function per block, and the roundings of R568.
-/
namespace Sys2Proof.Machine

/-! ## Vectors -/

/-- Entry i of a vector; the default value when i lies beyond it. -/
def nth {α : Type} [Inhabited α] {n : Nat} (v : Vector α n) (i : Nat) : α :=
  if h : i < n then v[i] else default

/-- The vector with entry i changed by f; unchanged when i lies beyond it. -/
def upd {α : Type} {n : Nat} (v : Vector α n) (i : Nat) (f : α → α) : Vector α n :=
  if h : i < n then v.set i (f v[i]) h else v

/-- Apply f to the state for each index below n, in ascending order. -/
def forN {σ : Type} : Nat → (Nat → σ → σ) → σ → σ
  | 0, _, s => s
  | n + 1, f, s => f n (forN n f s)

/-! ## Numbers and bits -/

/-- Division rounded to nearest, an exact half away from zero (R568). -/
def roundDiv (a : Int) (b : Nat) : Int :=
  if a < 0 then -(((-a).toNat * 2 + b) / (2 * b) : Nat) else ((a.toNat * 2 + b) / (2 * b) : Nat)

/-- Division by a rule that names no rounding: exact when it can be, otherwise to one of the two neighbours, the n-th open
choice among them. -/
def openDiv (n : Nat) (a : Int) (b : Nat) : Int :=
  if a % (b : Int) = 0 then a / (b : Int) else a / (b : Int) + (if Config.roundUp n then 1 else 0)

/-- Division rounded up. -/
def ceilDiv (a b : Nat) : Nat := (a + b - 1) / b

/-- The value of x held within lo and hi. -/
def clampI (lo hi x : Int) : Int := if x < lo then lo else if hi < x then hi else x

/-- Bit i of a number. -/
def bitOf (x i : Nat) : Bool := x / 2 ^ i % 2 == 1

/-- The field of width w at bit lo. -/
def field (x lo w : Nat) : Nat := x / 2 ^ lo % 2 ^ w

/-- One as a bit mask of width w at bit i. -/
def bit1 (w i : Nat) : BitVec w := BitVec.ofNat w (2 ^ i)

/-- A number read as a signed field of width w. -/
def signed (w x : Nat) : Int := (BitVec.ofNat w x).toInt

/-- Truth as a number. -/
def b2n (b : Bool) : Nat := if b then 1 else 0

/-- A 32-bit counter that saturates at 0xFFFF_FFFF. -/
def sat (c : BitVec 32) : BitVec 32 := if c = 0xFFFFFFFF then c else c + 1

/-- A saturating counter advanced by n. -/
def satN (c : BitVec 32) (n : Nat) : BitVec 32 :=
  if c.toNat + n ≥ 0xFFFFFFFF then 0xFFFFFFFF else BitVec.ofNat 32 (c.toNat + n)

/-- The indices below n whose bit is set in x, in ascending order. -/
def bitsOf (n x : Nat) : List Nat := (List.range n).filter (bitOf x)

/-! ## Bytes, little-endian by R6 -/

/-- Byte at offset o; 0 beyond the end. -/
def u8 (b : List Byte) (o : Nat) : Nat := (b.getD o 0).toNat

def u16 (b : List Byte) (o : Nat) : Nat := u8 b o + 256 * u8 b (o + 1)

def u32 (b : List Byte) (o : Nat) : Nat := u16 b o + 65536 * u16 b (o + 2)

def u64 (b : List Byte) (o : Nat) : Nat := u32 b o + 4294967296 * u32 b (o + 4)

def i16 (b : List Byte) (o : Nat) : Int := signed 16 (u16 b o)

def i32 (b : List Byte) (o : Nat) : Int := signed 32 (u32 b o)

/-- The bytes from o on, n of them, zeros beyond the end. -/
def slice (b : List Byte) (o n : Nat) : List Byte :=
  let t := (b.drop o).take n
  t ++ List.replicate (n - t.length) 0

/-- The n low bytes of x, lowest first. -/
def leBytes : Nat → Nat → List Byte
  | 0, _ => []
  | n + 1, x => BitVec.ofNat 8 x :: leBytes n (x / 256)

/-- Every byte of b from o on, n of them, is 0. -/
def zeros (b : List Byte) (o n : Nat) : Bool := ((b.drop o).take n).all (· == 0)

/-! ## CRC-32C (R5): polynomial 0x1EDC_6F41, reflected, initial value and final XOR 0xFFFF_FFFF -/

/-- One bit of the reflected CRC register. -/
def crcBit (c : BitVec 32) : BitVec 32 :=
  if c.getLsbD 0 then (c >>> 1) ^^^ 0x82F63B78 else c >>> 1

/-- One byte of the reflected CRC register. -/
def crcByte (c : BitVec 32) (b : Byte) : BitVec 32 :=
  let c := c ^^^ b.zeroExtend 32
  crcBit (crcBit (crcBit (crcBit (crcBit (crcBit (crcBit (crcBit c)))))))

/-- CRC-32C of a byte string. -/
def crc32c (bs : List Byte) : BitVec 32 := bs.foldl crcByte 0xFFFFFFFF ^^^ 0xFFFFFFFF

/-! ## Byte memories

A memory is a list of cells with strictly rising addresses, none holding 0; an address not listed reads 0
(notes/assumptions/2.md). -/

/-- The byte at address a. -/
def memGet : List Host.Cell → Nat → Byte
  | [], _ => 0
  | (x, b) :: m, a => if x = a then b else if a < x then 0 else memGet m a

/-- The memory with byte b at address a. -/
def memPut : List Host.Cell → Nat → Byte → List Host.Cell
  | [], a, b => if b = 0 then [] else [(a, b)]
  | (x, c) :: m, a, b =>
    if a < x then (if b = 0 then (x, c) :: m else (a, b) :: (x, c) :: m)
    else if x = a then (if b = 0 then m else (a, b) :: m)
    else (x, c) :: memPut m a b

/-- Every address of m lies above lo, the addresses rise strictly, and no cell holds 0. -/
def memAbove : Nat → List Host.Cell → Bool
  | _, [] => true
  | lo, (x, b) :: m => decide (lo < x) && !(b == 0) && memAbove x m

/-- The canonical form. -/
def memWf : List Host.Cell → Bool
  | [] => true
  | (x, b) :: m => !(b == 0) && memAbove x m

/-- The n bytes from address a. -/
def memRead (m : List Host.Cell) (a : Nat) : Nat → List Byte
  | 0 => []
  | n + 1 => memGet m a :: memRead m (a + 1) n

/-- The memory with the bytes written from address a on. -/
def memWrite : List Host.Cell → Nat → List Byte → List Host.Cell
  | m, _, [] => m
  | m, a, b :: bs => memWrite (memPut m a b) (a + 1) bs

/-- The memory with every byte from lo up to, not including, hi reading 0. -/
def memClear (m : List Host.Cell) (lo hi : Nat) : List Host.Cell :=
  m.filter fun c => c.1 < lo || hi ≤ c.1

/-! ## Time -/

/-- TIM_TICK: the integer part of the 24.40 phase (R41). -/
def State.tick (s : State) : Nat := (s.phase >>> 40).toNat

/-- The light outputs are held at their safe levels: by the safe state (R227), or by a TAP instruction (R565). -/
def State.blanked (s : State) : Bool := s.xcl.safe || s.xcl.tapHold

/-- The picture path's domains are off: hardware shutdown up to the boundary of its restart (R522, R524), or standby (R526). -/
def State.pictureOff (s : State) : Bool := s.thm.shutdown || s.thm.restartDue || s.pwr.standby

/-- The picture path stands still: its domains are off, the memory clock is bad (R32), or the memory is out of service (R422). -/
def State.pictureStops (s : State) : Bool := s.pictureOff || s.mgt.clkStatus.getLsbD 9 || s.mem.st == .failed

/-- One period in ticks. -/
def periodTk : Nat := 16777216

/-- The tick count over the frames. -/
def absTick (s : State) : Nat := s.frame.toNat * periodTk + s.tick

/-- The sense die's clock is bad, and its readings are STALE (R32). -/
def State.senseBad (s : State) : Bool := s.mgt.clkStatus.getLsbD 2

/-- A dark window has ended less than 1 µs ago (R498). -/
def darkStale (s : State) : Bool :=
  match s.cal.lastDark with | none => false | some e => decide (s.ns < e + 1000)

/-- The device can act: it is powered and no reset pin or rail fault holds it. -/
def State.live (s : State) : Bool := s.powered && !s.porst && !s.wrst && !s.pwr.railReset

/-- n ticks in nanoseconds at a rate of rn / rd Hz, rounded down. -/
def tkToNs (rn rd n : Nat) : Nat := n * rd * 1000000000 / (rn * 16777216)

/-- n nanoseconds in ticks at a rate of rn / rd Hz, rounded up. -/
def nsToTkUp (rn rd n : Nat) : Nat := ceilDiv (n * rn * 16777216) (rd * 1000000000)

/-- n nanoseconds in ticks at a rate of rn / rd Hz, rounded down. -/
def nsToTk (rn rd n : Nat) : Nat := n * rn * 16777216 / (rd * 1000000000)

/-- The next free value's index is used up. -/
def State.useFree (s : State) : State := { s with free := s.free + 1 }

/-- The device itself produces an event, which step takes when no command waits. -/
def State.raise (s : State) (i : Instr) : State := if s.raised.contains i then s else { s with raised := s.raised ++ [i] }

/-! ## One update per block -/

def State.onHif (s : State) (f : Hif → Hif) : State := { s with hif := f s.hif }
def State.onTim (s : State) (f : Tim → Tim) : State := { s with tim := f s.tim }
def State.onSeq (s : State) (f : Seq → Seq) : State := { s with seq := f s.seq }
def State.onIll (s : State) (f : Ill → Ill) : State := { s with ill := f s.ill }
def State.onCle (s : State) (f : Cle → Cle) : State := { s with cle := f s.cle }
def State.onXcl (s : State) (f : Xcl → Xcl) : State := { s with xcl := f s.xcl }
def State.onSlc (s : State) (f : Slc → Slc) : State := { s with slc := f s.slc }
def State.onGlk (s : State) (f : Glk → Glk) : State := { s with glk := f s.glk }
def State.onAhm (s : State) (f : Ahm → Ahm) : State := { s with ahm := f s.ahm }
def State.onCmp (s : State) (f : Cmp → Cmp) : State := { s with cmp := f s.cmp }
def State.onFab (s : State) (f : Fab → Fab) : State := { s with fab := f s.fab }
def State.onMem (s : State) (f : Mem → Mem) : State := { s with mem := f s.mem }
def State.onMgt (s : State) (f : Mgt → Mgt) : State := { s with mgt := f s.mgt }
def State.onSec (s : State) (f : Sec → Sec) : State := { s with sec := f s.sec }
def State.onCal (s : State) (f : Cal → Cal) : State := { s with cal := f s.cal }
def State.onPwr (s : State) (f : Pwr → Pwr) : State := { s with pwr := f s.pwr }
def State.onThm (s : State) (f : Thm → Thm) : State := { s with thm := f s.thm }

def State.port (s : State) (p : Nat) : Port := nth s.seq.ports p
def State.onPort (s : State) (p : Nat) (f : Port → Port) : State :=
  s.onSeq fun q => { q with ports := upd q.ports p f }
def State.arr (s : State) (p : Nat) : Arr := nth s.ahm.arrays p
def State.onArr (s : State) (p : Nat) (f : Arr → Arr) : State :=
  s.onAhm fun a => { a with arrays := upd a.arrays p f }
def State.link (s : State) (p : Nat) : LinkPort := nth s.glk.ports p
def State.onLink (s : State) (p : Nat) (f : LinkPort → LinkPort) : State :=
  s.onGlk fun g => { g with ports := upd g.ports p f }
def State.octet (s : State) (k : Nat) : Octet := nth s.glk.octets k
def State.onOctet (s : State) (k : Nat) (f : Octet → Octet) : State :=
  s.onGlk fun g => { g with octets := upd g.octets k f }
def State.xset (s : State) (p : Nat) : XSet := nth s.xcl.sets p
def State.onXset (s : State) (p : Nat) (f : XSet → XSet) : State :=
  s.onXcl fun x => { x with sets := upd x.sets p f }
def State.store (s : State) (v : Nat) : PlaneStore := nth s.slc.stores v
def State.onStore (s : State) (v : Nat) (f : PlaneStore → PlaneStore) : State :=
  s.onSlc fun x => { x with stores := upd x.stores v f }
def State.slicer (s : State) (i : Nat) : Slicer := nth s.slc.slicers i
def State.onSlicer (s : State) (i : Nat) (f : Slicer → Slicer) : State :=
  s.onSlc fun x => { x with slicers := upd x.slicers i f }
def State.loop (s : State) (n : Nat) : Loop := nth s.cle.loops n
def State.onLoop (s : State) (n : Nat) (f : Loop → Loop) : State :=
  s.onCle fun c => { c with loops := upd c.loops n f }
def State.chain (s : State) (c : Nat) : Chain := nth s.ill.chains c
def State.onChain (s : State) (c : Nat) (f : Chain → Chain) : State :=
  s.onIll fun i => { i with chains := upd i.chains c f }
def State.cview (s : State) (v : Nat) : CmpView := nth s.cmp.views v
def State.onCview (s : State) (v : Nat) (f : CmpView → CmpView) : State :=
  s.onCmp fun c => { c with views := upd c.views v f }
def State.pipe (s : State) (i : Nat) : Pipe := nth s.cmp.pipes i
def State.onPipe (s : State) (i : Nat) (f : Pipe → Pipe) : State :=
  s.onCmp fun c => { c with pipes := upd c.pipes i f }
def State.fview (s : State) (v : Nat) : FabView := nth s.fab.views v
def State.onFview (s : State) (v : Nat) (f : FabView → FabView) : State :=
  s.onFab fun c => { c with views := upd c.views v f }
def State.cluster (s : State) (n : Nat) : Cluster := nth s.fab.clusters n
def State.onCluster (s : State) (n : Nat) (f : Cluster → Cluster) : State :=
  s.onFab fun c => { c with clusters := upd c.clusters n f }
def State.cam (s : State) (c : Nat) : CamState := nth s.tim.cams c
def State.onCam (s : State) (c : Nat) (f : CamState → CamState) : State :=
  s.onTim fun t => { t with cams := upd t.cams c f }

/-! ## Power domains (R29, R507, R512) -/

/-- The main rail of step k has been confirmed good and has not been turned off since (R507). -/
def railOn (k : Nat) (s : State) : Bool := s.powered && (decide (k < s.pwr.step) || s.pwr.seqDone)

/-- The rail that supplies domain d (R512): VSOC for the octets, the memory PHYs and PCIe, VCORE for the other switchable ones. -/
def domainRail (d : Nat) : Nat := if (64 ≤ d ∧ d < 80) ∨ (116 ≤ d ∧ d < 134) then 2 else 3

/-- The sequencer port's domain is called for: the port is enabled, outside standby and shutdown. -/
def wantsPort (p : Nat) (s : State) : Bool := !s.pwr.standby && !s.thm.shutdown && (s.port p).enable

/-- The engine's domain is called for: a loop slot is in use. -/
def engineOn (s : State) : Bool := s.cle.loops.toList.any fun l => l.st != .free

/-- The domain is called for (R29) and its supply is present. A PCIe domain that standby has left on stays on (R526). -/
def wantsDomain (d : Nat) (s : State) : Bool :=
  let stby := s.pwr.standby
  railOn (domainRail d) s &&
  (if d < 64 then !stby && !s.thm.shutdown && (s.cluster d).st != .off
  else if d < 80 then !stby && ((s.octet (d - 64)).allotted || (s.octet (d - 64)).diag != 0)
  else if d < 84 then wantsPort (d - 80) s
  else if d < 92 then !stby && !s.thm.shutdown && (s.slicer (d - 84)).st != .off
  else if d < 116 then !stby && !s.thm.shutdown && (s.pipe (d - 92)).view.isSome
  else if d < 132 then !stby && !(s.mem.fenced.getLsbD (2 * (d - 116)) && s.mem.fenced.getLsbD (2 * (d - 116) + 1))
  else if d < 134 then s.straps.getLsbD (d - 132) && (!stby || s.pwr.doms.getLsbD d)
  else if d = 134 then !stby
  else if d < 139 then d == 135 || (!stby && (nth s.hif.cores (d - 135)).st != .off)
  else if d = 139 then !stby && engineOn s
  else if d = 140 then (List.range 4).any fun p => (s.port p).enable
  else d < 144)

/-- The domains that are on: those that have been switched on and are still called for, and the always-on ones. -/
def domainOn (d : Nat) (s : State) : Bool :=
  if d = 141 ∨ d = 142 then s.powered
  else if d = 143 then railOn 3 s
  else s.pwr.doms.getLsbD d && wantsDomain d s

/-- Domains that are no longer called for switch off, and wait for their turn when they are called for again (R513). -/
def pruneDoms (s : State) : State :=
  s.onPwr fun p => { p with
    doms := (List.range 144).foldl (fun b d => if wantsDomain d s then b else b &&& ~~~(bit1 144 d)) p.doms }

end Sys2Proof.Machine
end

