-- ==== Sys2Proof/Machine/Operands.lean ====
section
/-!
DEFINITION. The operand forms of the host commands: the 256-byte entry of R438 and its payload, the target classes of R434
with their owners and role epochs, and the shared checks of payload fields (R442 step 10, R449).
-/
namespace Sys2Proof.Machine

/-! ## The command entry (R438, R439) -/

/-- Header flags: PTR, APPLY_AT, FENCE, QUIET. -/
def Cmd.isPtr (c : Cmd) : Bool := c.flags.getLsbD 0
def Cmd.isApplyAt (c : Cmd) : Bool := c.flags.getLsbD 1
def Cmd.isFence (c : Cmd) : Bool := c.flags.getLsbD 2
def Cmd.isQuiet (c : Cmd) : Bool := c.flags.getLsbD 3

/-- Header bytes 0 to 27 for an opcode. -/
def Cmd.header (op : BitVec 16) (c : Cmd) : List Byte :=
  leBytes 2 op.toNat ++ [c.flags, c.version] ++ leBytes 4 c.seq.toNat ++ leBytes 2 c.tclass.toNat ++
  leBytes 2 c.tindex.toNat ++ leBytes 2 c.epoch.toNat ++ leBytes 2 c.plen.toNat ++ leBytes 8 c.corr.toNat ++
  leBytes 4 c.applyAt.toNat

/-- The CRC an entry must carry: over bytes 0 to 27 and the PLEN inline payload bytes (R438). -/
def Cmd.goodCrc (op : BitVec 16) (c : Cmd) : BitVec 32 :=
  crc32c (Cmd.header op c ++ slice c.inl 0 (min c.plen.toNat 224))

/-- LEN and PCRC of a pointer payload's descriptor (R439). -/
def Cmd.ptrLen (c : Cmd) : Nat := u32 c.inl 8
def Cmd.ptrCrc (c : Cmd) : Nat := u32 c.inl 12

/-- The payload: inline, or the referenced bytes. -/
def Cmd.payload (c : Cmd) : List Byte := if Cmd.isPtr c then c.ptr else slice c.inl 0 c.plen.toNat

/-- The payload's length. -/
def Cmd.len (c : Cmd) : Nat := if Cmd.isPtr c then Cmd.ptrLen c else c.plen.toNat

/-- Step 1 of R442: the entry's CRC, and PCRC with PTR. -/
def Cmd.crcOk (op : BitVec 16) (c : Cmd) : Bool :=
  c.crc == Cmd.goodCrc op c && (!Cmd.isPtr c || (crc32c c.ptr).toNat == Cmd.ptrCrc c)

/-- The command of a raw 256-byte entry, with its opcode. -/
def RawEntry.parse (h : HostId) (r : BitVec 2) (e : RawEntry) : BitVec 16 × Cmd :=
  let b := e.bytes
  (BitVec.ofNat 16 (u16 b 0),
   { host := h, ring := r, flags := BitVec.ofNat 8 (u8 b 2), version := BitVec.ofNat 8 (u8 b 3)
     seq := BitVec.ofNat 32 (u32 b 4), tclass := BitVec.ofNat 16 (u16 b 8), tindex := BitVec.ofNat 16 (u16 b 10)
     epoch := BitVec.ofNat 16 (u16 b 12), plen := BitVec.ofNat 16 (u16 b 14), corr := BitVec.ofNat 64 (u64 b 16)
     applyAt := BitVec.ofNat 32 (u32 b 24), crc := BitVec.ofNat 32 (u32 b 28), inl := slice b 32 224, ptr := e.ptr })

/-- The 256 bytes of a command's entry (R438). -/
def Cmd.bytes (op : BitVec 16) (c : Cmd) : List Byte := Cmd.header op c ++ leBytes 4 c.crc.toNat ++ slice c.inl 0 224

/-! ## Refusals of a command -/

/-- A refusal: status and DETAIL (R447, R449). -/
structure Refuse where
  status : Status
  detail : Word := 0
  deriving DecidableEq, Repr, Inhabited

/-- The effect of an accepted command: the state after it, its first status, DETAIL and RESULT. A command with
`sole` gets its only reply at its completion. -/
structure Done where
  st : State
  status : Status := .done
  detail : Word := 0
  result : Word := 0
  sole : Bool := false

/-- A refusal when the condition is bad. -/
def chk (bad : Bool) (r : Refuse) : Option Refuse := if bad then some r else none

/-- The first refusal of a list. -/
def firstOf : List (Option Refuse) → Option Refuse
  | [] => none
  | some r :: _ => some r
  | none :: t => firstOf t

/-- The refusals of a list that are BAD_FIELD. -/
def badFields (l : List (Option Refuse)) : List Refuse := l.filterMap fun x => x.bind fun r => if r.status = .badField then some r else none

/-- A command's own checks: the first that fails refuses and, when it is a field's, DETAIL names the first of all the bad fields
(R449). -/
def checks (l : List (Option Refuse)) : Option Refuse :=
  match firstOf l with
  | some r =>
    if r.status = .badField then some { r with detail := ((badFields l).map (·.detail.toNat)).foldl (fun m d => if d < m.toNat then BitVec.ofNat 32 d else m) r.detail }
    else some r
  | none => none

/-- DETAIL of BAD_FIELD for the payload field at offset o (R449). A field is a row of the payload's table, or an element of a row
that the table indexes (notes/assumptions/127.md). -/
def Cmd.fieldAt (c : Cmd) (o : Nat) : Word :=
  BitVec.ofNat 32 (if Cmd.isPtr c then 0x80000000 + o else 32 + o)

/-- BAD_FIELD for the payload field at offset o when bad. -/
def badAt (c : Cmd) (o : Nat) (bad : Bool) : Option Refuse := chk bad ⟨.badField, Cmd.fieldAt c o⟩

/-- BAD_FIELD that names no single field. -/
def badAny (bad : Bool) : Option Refuse := chk bad ⟨.badField, 0xFFFFFFFF⟩

/-- BUSY when bad. -/
def busyIf (bad : Bool) : Option Refuse := chk bad ⟨.busy, 0⟩

/-- A reserved field of n bytes at offset o must be 0 (R10). -/
def rsv (c : Cmd) (o n : Nat) : Option Refuse := badAt c o (!zeros (Cmd.payload c) o n)

/-- The bits of mask in the byte at offset o are reserved (R10). -/
def rsvBits (c : Cmd) (o mask : Nat) : Option Refuse := badAt c o (u8 (Cmd.payload c) o &&& mask != 0)

/-! ## Target classes (R434 and the later chapters) -/

def clsDevice : BitVec 16 := 0
def clsConfig : BitVec 16 := 1
def clsTiming : BitVec 16 := 2
def clsCamera : BitVec 16 := 3
def clsMark : BitVec 16 := 4
def clsView : BitVec 16 := 5
def clsViewset : BitVec 16 := 6
def clsLayer : BitVec 16 := 7
def clsPort : BitVec 16 := 8
def clsPortset : BitVec 16 := 9
def clsChain : BitVec 16 := 0xA
def clsChandev : BitVec 16 := 0xB
def clsGroup : BitVec 16 := 0xC
def clsPrimary : BitVec 16 := 0xD
def clsString : BitVec 16 := 0xE
def clsIllum : BitVec 16 := 0xF
def clsLoop : BitVec 16 := 0x10
def clsLgroup : BitVec 16 := 0x11
def clsPwm : BitVec 16 := 0x12
def clsXset : BitVec 16 := 0x13
def clsLink : BitVec 16 := 0x14
def clsOctet : BitVec 16 := 0x15
def clsArray : BitVec 16 := 0x16
def clsImage : BitVec 16 := 0x17
def clsCluster : BitVec 16 := 0x18
def clsBuffer : BitVec 16 := 0x19
def clsMemory : BitVec 16 := 0x1A
def clsMgt : BitVec 16 := 0x20
def clsEnclave : BitVec 16 := 0x21
def clsKeyslot : BitVec 16 := 0x22
def clsPwr : BitVec 16 := 0x23

/-- How many indices a class has; 0 for a code that names no class. -/
def clsSize (k : BitVec 16) : Nat :=
  match k.toNat with
  | 0 => 1 | 1 => 1 | 2 => 1 | 3 => 4 | 4 => 5 | 5 => 5 | 6 => 1 | 7 => 24 | 8 => 4 | 9 => 1 | 0xA => 4 | 0xB => 128
  | 0xC => 16 | 0xD => 6 | 0xE => 24 | 0xF => 1 | 0x10 => 64 | 0x11 => 16 | 0x12 => 8 | 0x13 => 4 | 0x14 => 1
  | 0x15 => 16 | 0x16 => 4 | 0x17 => 16 | 0x18 => 64 | 0x19 => 1 | 0x1A => 1 | 0x20 => 1 | 0x21 => 1 | 0x22 => 64
  | 0x23 => 1 | _ => 0

/-- The classes that CLAIM takes (R434). -/
def claimable : List (BitVec 16) := [clsConfig, clsView, clsLayer, clsPort, clsChain, clsLoop, clsXset]

/-- The owner of a resource of a claimable class; 0 for unowned. -/
def ownerOf (k : BitVec 16) (i : Nat) (h : Hif) : HostId :=
  if k = clsConfig then h.cfgOwner
  else if k = clsView then nth h.viewOwner i
  else if k = clsLayer then nth h.layerOwner i
  else if k = clsPort then nth h.portOwner i
  else if k = clsChain then nth h.chainOwner i
  else if k = clsLoop then nth h.loopOwner i
  else if k = clsXset then nth h.xsetOwner i
  else 0

/-- The interface with the owner of a resource of a claimable class set. -/
def setOwner (k : BitVec 16) (i : Nat) (o : HostId) (h : Hif) : Hif :=
  if k = clsConfig then { h with cfgOwner := o }
  else if k = clsView then { h with viewOwner := upd h.viewOwner i fun _ => o }
  else if k = clsLayer then { h with layerOwner := upd h.layerOwner i fun _ => o }
  else if k = clsPort then { h with portOwner := upd h.portOwner i fun _ => o }
  else if k = clsChain then { h with chainOwner := upd h.chainOwner i fun _ => o }
  else if k = clsLoop then { h with loopOwner := upd h.loopOwner i fun _ => o }
  else if k = clsXset then { h with xsetOwner := upd h.xsetOwner i fun _ => o }
  else h

/-- The owner of an octet: its port's owner, or the configuration owner for a spare octet (R434). -/
def octetOwner (k : Nat) (s : State) : HostId :=
  let o := s.octet k
  if o.allotted then nth s.hif.portOwner o.port.toNat else s.hif.cfgOwner

/-- The owner of a cluster: the owner of the view whose chain holds it, otherwise the configuration owner (R434). -/
def clusterOwner (n : Nat) (s : State) : HostId :=
  let c := s.cluster n
  if c.assigned then nth s.hif.viewOwner c.view.toNat else s.hif.cfgOwner

/-- The role epoch of a target, for a class that carries one (R434, R440, R570). -/
def epochOf (k : BitVec 16) (i : Nat) (s : State) : Option (BitVec 16) :=
  if k = clsLayer then some (s.pipe i).epoch
  else if k = clsChandev then some (nth s.ill.drivers i).epoch
  else if k = clsLoop then some (s.loop i).epoch
  else if k = clsXset then some (s.xset i).epoch
  else if k = clsOctet then some (s.octet i).epoch
  else if k = clsCluster then some (s.cluster i).epoch
  else if k = clsKeyslot then some (nth s.sec.keys i).epoch
  else none

/-! ## Buffers named by a command (R354) -/

/-- The live buffer of a handle. -/
def findBuf (h : BitVec 32) (s : State) : Option Buffer := s.cmp.bufs.find? fun b => b.handle == h

/-- A buffer that a new command may name: live and not free-pending (R357). -/
def nameBuf (h : BitVec 32) (s : State) : Option Buffer :=
  s.cmp.bufs.find? fun b => b.handle == h && b.freePending.isNone

/-- The checks of a buffer that a payload field at offset o names: a live handle (BAD_FIELD), not free-pending
(BUSY), and placed (BUDGET_EXCEEDED by R423). -/
def bufChecks (c : Cmd) (o : Nat) (s : State) : Option Refuse :=
  match findBuf (BitVec.ofNat 32 (u32 (Cmd.payload c) o)) s with
  | none => some ⟨.badField, Cmd.fieldAt c o⟩
  | some b => firstOf [busyIf b.freePending.isSome, chk b.place.isNone ⟨.budgetExceeded, 0⟩]

/-- Size of a live buffer; 0 when none. -/
def bufSize (h : BitVec 32) (s : State) : Nat := match findBuf h s with | some b => b.size | none => 0

/-- The state with the live buffer of handle h changed. -/
def State.onBuf (s : State) (h : BitVec 32) (f : Buffer → Buffer) : State :=
  s.onCmp fun c => { c with bufs := c.bufs.map fun b => if b.handle == h then f b else b }

/-- n bytes from offset o of a buffer: its memory contents, or undefined bytes while it is LOST (R424). -/
def bufBytes (b : Buffer) (o n : Nat) (s : State) : List Byte :=
  match b.place with
  | none => (List.range n).map fun i => Config.undefinedByte b.handle.toNat (o + i)
  | some a =>
    if b.lost then (List.range n).map fun i => Config.undefinedByte b.handle.toNat (o + i)
    else memRead s.mem.general (a + o) n

end Sys2Proof.Machine
end

