-- ==== Sys2Proof/Machine/Flags.lean ====
section
/-!
DEFINITION. The shared flag machinery: event vectors and MSI-X messages (R451), the event log (R475), the sticky registers of
every block (R534), the blank sources and the safe state (R225 to R227), and reply delivery (R448).
-/
namespace Sys2Proof.Machine

/-! ## Interrupt messages (R451) -/

/-- An MSI-X message of vector v to function h: sent when the vector is neither masked in its table entry nor inside its
10 µs interval, otherwise held in the pending-bit array. -/
def msix (h : Nat) (v : Nat) (s : State) : State :=
  let f := nth s.hif.pcie h
  if f.coalescing.getLsbD v || (nth f.msixTable (4 * v + 3)).getLsbD 0 then
    s.onHif fun x => { x with pcie := upd x.pcie h fun f => { f with pendingBits := f.pendingBits ||| bit1 64 v } }
  else
    s.onHif fun x => { x with
      pcie := upd x.pcie h fun f => { f with coalescing := f.coalescing ||| bit1 64 v, sentNs := upd f.sentNs v fun _ => s.ns }
      outbox := .msix (Fin.ofNat 2 h) v :: x.outbox }

/-- The host's session is open and enables vector v, 8 to 23. -/
def wantsVec (h v : Nat) (s : State) : Bool :=
  (nth s.hif.sess h).isOpen && (nth s.hif.sess h).mask.getLsbD (v - 8)

/-- A block vector is signalled to every host that wants it: the functions by MSI-X, host 3 in band (R431). -/
def signal (v : Nat) (s : State) : State :=
  let s := if wantsVec 1 v s then msix 0 v s else s
  let s := if wantsVec 2 v s then msix 1 v s else s
  if wantsVec 3 v s then s.onHif fun x => { x with outbox := .ibi v :: x.outbox } else s

/-! ## Event log (R475) -/

/-- Records the log holds in AON-V. -/
def logSize : Nat := 2048

/-- The UART console prints boot progress, which the BOOT records (0x0004) tell, and every record of severity WARN (1) or higher
(R475). -/
def printRec (r : LogRec) (s : State) : State :=
  s.onHif fun x => { x with
    outbox := if r.code ≠ 4 ∧ Config.severity r.code.toNat r.off.toNat r.bits.toNat = 0 then x.outbox else .console r :: x.outbox }

/-- Records that one 64 KiB sector of the flash ring holds. -/
def sectorRecords : Nat := 2048

/-- Records that the ring's 128 sectors hold after n have been written: a sector is erased, the oldest first, when its turn to be
written comes again (R475). -/
def ringHolds (n : Nat) : Nat :=
  if n ≤ 128 * sectorRecords then n else 127 * sectorRecords + ((n - 1) % sectorRecords + 1)

/-- The event log reaches the flash ring (R475). -/
def flushLog (s : State) : State :=
  s.onMgt fun m => { m with
    flashLog := (m.log.take m.logUnflushed ++ m.flashLog).take (ringHolds (m.flashCnt + m.logUnflushed))
    flashCnt := m.flashCnt + m.logUnflushed, logUnflushed := 0 }

/-- Stage-1, while it runs (R460), flushes the log whenever 512 records are unflushed. -/
def flushFull (s : State) : State := if s.mgt.st == .run && decide (512 ≤ s.mgt.logUnflushed) then flushLog s else s

/-- A record is added to the event log; one that finds 2,048 unflushed records is dropped and counted, and sets
MGT_STICKY.LOG_LOST, whose own record is dropped and counted with it. -/
def logRec (vec code : Nat) (off bits : BitVec 32) (s : State) : State :=
  if s.mgt.logUnflushed < logSize then
    let r : LogRec := { lseq := s.mgt.logSeq + 1, frame := s.frame.truncate 32, tick := BitVec.ofNat 24 s.tick
                        vec := BitVec.ofNat 4 (vec - 8), code := BitVec.ofNat 16 code, off := off, bits := bits }
    flushFull (printRec r (s.onMgt fun m => { m with
      logSeq := m.logSeq + 1, log := (r :: m.log).take logSize, logUnflushed := m.logUnflushed + 1 }))
  else
    let s := s.onHif fun x => { x with hwSet := (0x10004, 0x40) :: x.hwSet }
    if s.mgt.sticky.getLsbD 6 then s.onMgt fun m => { m with logLostCnt := sat m.logLostCnt }
    else signal 20 (s.onMgt fun m => { m with logLostCnt := satN m.logLostCnt 2, sticky := m.sticky ||| 0x40 })

/-- The bits of `b` that are not yet set in `old`, as a register word. -/
def newBits {w : Nat} (old b : BitVec w) : BitVec 32 := (b &&& ~~~old).setWidth 32

/-- The device has set the bits b of the sticky register at BAR0 offset off, which held `old`: noted for R11, and those that went
from 0 to 1 are logged and signalled on the block's vector. -/
def stickyUp {w : Nat} (vec off : Nat) (old b : BitVec w) (s : State) : State :=
  let s := s.onHif fun x => { x with hwSet := (off, b.setWidth 32) :: x.hwSet }
  if newBits old b = 0 then s else signal vec (logRec vec 1 (BitVec.ofNat 32 off) (newBits old b) s)

/-! ## Sticky registers: each function sets the bits b of one register (R534) -/

def hifRaise (b : BitVec 11) (s : State) : State :=
  stickyUp 19 0x4 s.hif.sticky b (s.onHif fun x => { x with sticky := x.sticky ||| b })
def mgtRaise (b : BitVec 7) (s : State) : State :=
  stickyUp 20 0x10004 s.mgt.sticky b (s.onMgt fun x => { x with sticky := x.sticky ||| b })
def clkRaise (b : BitVec 16) (s : State) : State :=
  stickyUp 20 0x10024 s.mgt.clkSticky b (s.onMgt fun x => { x with clkSticky := x.clkSticky ||| b })
def timRaise (b : BitVec 20) (s : State) : State :=
  stickyUp 8 0x20004 s.tim.sticky b (s.onTim fun x => { x with sticky := x.sticky ||| b })
def seqRaise (p : Nat) (b : BitVec 10) (s : State) : State :=
  stickyUp 9 (0x30104 + p * 0x100) (s.port p).sticky b (s.onPort p fun x => { x with sticky := x.sticky ||| b })
def illRaise (b : BitVec 4) (s : State) : State :=
  stickyUp 10 0x40004 s.ill.sticky b (s.onIll fun x => { x with sticky := x.sticky ||| b })
def chainRaise (c : Nat) (b : BitVec 9) (s : State) : State :=
  stickyUp 10 (0x40104 + c * 0x40) (s.chain c).sticky b (s.onChain c fun x => { x with sticky := x.sticky ||| b })
def strOpenRaise (b : BitVec 24) (s : State) : State :=
  stickyUp 10 0x40020 s.ill.strOpen b (s.onIll fun x => { x with strOpen := x.strOpen ||| b })
def strShortRaise (b : BitVec 24) (s : State) : State :=
  stickyUp 10 0x40024 s.ill.strShort b (s.onIll fun x => { x with strShort := x.strShort ||| b })
def cleRaise (b : BitVec 4) (s : State) : State :=
  stickyUp 11 0x50004 s.cle.sticky b (s.onCle fun x => { x with sticky := x.sticky ||| b })
def loopRaise (n : Nat) (b : BitVec 3) (s : State) : State :=
  stickyUp 11 (0x50104 + n * 0x40) (s.loop n).sticky b (s.onLoop n fun x => { x with sticky := x.sticky ||| b })
def xclRaise (b : BitVec 13) (s : State) : State :=
  stickyUp 12 0x60004 s.xcl.sticky b (s.onXcl fun x => { x with sticky := x.sticky ||| b })
def xsetRaise (p : Nat) (b : BitVec 4) (s : State) : State :=
  stickyUp 12 (0x60104 + p * 0x40) (s.xset p).sticky b (s.onXset p fun x => { x with sticky := x.sticky ||| b })
def slcRaise (b : BitVec 15) (s : State) : State :=
  stickyUp 13 0x70004 s.slc.sticky b (s.onSlc fun x => { x with sticky := x.sticky ||| b })
def octRaise (k : Nat) (b : BitVec 9) (s : State) : State :=
  stickyUp 14 (0x80004 + k * 0x1000) (s.octet k).sticky b (s.onOctet k fun x => { x with sticky := x.sticky ||| b })
def quadRaise (q : Nat) (s : State) : State :=
  stickyUp 14 (0x80804 + q * 0x4000) (nth s.glk.quads q).sticky (1 : BitVec 1)
    (s.onGlk fun g => { g with quads := upd g.quads q fun x => { x with sticky := 1 } })
def ahmRaise (p : Nat) (b : BitVec 15) (s : State) : State :=
  stickyUp 15 (0x90104 + p * 0x100) (s.arr p).sticky b (s.onArr p fun x => { x with sticky := x.sticky ||| b })
def cmpRaise (b : BitVec 2) (s : State) : State :=
  stickyUp 16 0xA0004 s.cmp.sticky b (s.onCmp fun x => { x with sticky := x.sticky ||| b })
def cviewRaise (v : Nat) (b : BitVec 2) (s : State) : State :=
  stickyUp 16 (0xA0104 + v * 0x40) (s.cview v).sticky b (s.onCview v fun x => { x with sticky := x.sticky ||| b })
def fabRaise (b : BitVec 3) (s : State) : State :=
  stickyUp 17 0xB0004 s.fab.sticky b (s.onFab fun x => { x with sticky := x.sticky ||| b })
def fviewRaise (v : Nat) (b : BitVec 3) (s : State) : State :=
  stickyUp 17 (0xB0104 + v * 0x40) (s.fview v).sticky b (s.onFview v fun x => { x with sticky := x.sticky ||| b })
def memRaise (b : BitVec 10) (s : State) : State :=
  stickyUp 18 0xC0004 s.mem.sticky b (s.onMem fun x => { x with sticky := x.sticky ||| b })
def secRaise (b : BitVec 9) (s : State) : State :=
  stickyUp 21 0xF0004 s.sec.sticky b (s.onSec fun x => { x with sticky := x.sticky ||| b })
def pwrRaise (b : BitVec 8) (s : State) : State :=
  stickyUp 22 0xD0004 s.pwr.sticky b (s.onPwr fun x => { x with sticky := x.sticky ||| b })
def thmRaise (b : BitVec 6) (s : State) : State :=
  stickyUp 22 0xD1004 s.thm.sticky b (s.onThm fun x => { x with sticky := x.sticky ||| b })
def calRaise (b : BitVec 3) (s : State) : State :=
  stickyUp 23 0xE0004 s.cal.sticky b (s.onCal fun x => { x with sticky := x.sticky ||| b })

/-! ## The safe state (R225 to R233) -/

/-- Level sources: EXT (0) and THERMAL (7). -/
def isLevel (code : Nat) : Bool := code == 0 || code == 7

/-- Sources that are inactive at once (R225): AUDIT (3) and HOST (11). -/
def isImpulse (code : Nat) : Bool := code == 3 || code == 11

/-- The safe state by R226: a latched source, or a raised level source. -/
def safeNow (x : Xcl) : Bool := x.latch != 0 || x.active.getLsbD 0 || x.active.getLsbD 7

/-- ISLOT 0 latched by one ISTB strobe, which a TAP instruction that holds ISTB low keeps back (R565). -/
def strobe0 (s : State) : State :=
  s.onIll fun i => { i with code := 0, strobes := if s.xcl.tapHold then i.strobes else i.strobes + 1 }

/-- Entry into the safe state (R227): counted and recorded with the source code; every ICH_EN low, ISLOT 0 latched by one
ISTB strobe, and a SAFE record logged. -/
def enterSafe (code : Nat) (s : State) : State :=
  let s := s.onXcl fun x => { x with
    safe := true, safeCnt := sat x.safeCnt, safeTick := BitVec.ofNat 24 s.tick
    safeCode := BitVec.ofNat 4 code, safeFrame := s.frame.truncate 32 }
  logRec 12 2 0 0 ((strobe0 s).onIll fun i => { i with chains := i.chains.map fun c => { c with en := false } })

/-- A blank source is raised (R225, R226): its ACTIVE bit, its sticky bit and, unless it is a level source, its latch
bit; entry when the safe state was not in force. When several sources are raised together the lowest code is recorded. -/
def raiseSource (code : Nat) (s : State) : State :=
  let was := s.xcl.safe
  let s := s.onXcl fun x => { x with
    active := x.active ||| bit1 12 code
    latch := if isLevel code then x.latch else x.latch ||| bit1 12 code }
  let s := xclRaise (bit1 13 code) s
  if was then
    if s.xcl.safeCnt != 0 && s.xcl.safeTick.toNat == s.tick && s.xcl.safeFrame == s.frame.truncate 32
        && code < s.xcl.safeCode.toNat then
      s.onXcl fun x => { x with safeCode := BitVec.ofNat 4 code }
    else s
  else enterSafe code s

/-- A blank source becomes inactive; a raised level source alone may then end the safe state (R231). -/
def dropSource (code : Nat) (s : State) : State :=
  s.onXcl fun x =>
    let x := { x with active := x.active &&& ~~~(bit1 12 code) }
    { x with safe := safeNow x }

/-- A source follows a condition: raised when the condition begins, inactive when it ends. -/
def followSource (code : Nat) (on : Bool) (s : State) : State :=
  if on then (if s.xcl.active.getLsbD code then s else raiseSource code s) else dropSource code s

/-- SAFE_OK (R233): the safe state is not in force and the last version of every port passed R222; the audit is armed
on every enabled port by R223. A TAP instruction holds it low (R565). -/
def safeOk (s : State) : Bool := !s.blanked && s.xcl.sets.toList.all (·.lastOk)

/-! ## Reply delivery (R448, R450) -/

/-- Ring size 2^s of a CFG word. -/
def ringSize (cfg : BitVec 32) : Nat := 2 ^ (cfg.toNat % 16)

/-- The enable bit of a CFG word. -/
def ringOn (cfg : BitVec 32) : Bool := cfg.getLsbD 4

/-- A reply ring is full when its tail is one entry behind the head last written to its doorbell (R456). -/
def rringFull (r : RRing) : Bool := (r.tail.toNat + 1) % ringSize r.cfg == r.hostHead.toNat % ringSize r.cfg

/-- The reply ring a command's replies go to (R456). -/
def replyRingOf (host : HostId) (cring : BitVec 2) (s : State) : BitVec 2 :=
  if host = 1 ∨ host = 2 then
    BitVec.ofNat 2 (field (nth (nth s.hif.pcie (host.toNat - 1)).crings cring.toNat).cfg.toNat 5 2)
  else 0

/-- A reply or event entry is written and signalled: into reply ring `rring` of the host's function with the ring's PHASE,
or into the queue that host 3 reads. A disabled ring takes nothing (R429). -/
def writeReply (r : Reply) (s : State) : State :=
  if r.host = 3 then
    s.onHif fun x => { x with i3cQ := x.i3cQ ++ [r], outbox := .ibi Config.i3cReplyVector :: x.outbox }
  else if r.host = 0 then s
  else
    let h := r.host.toNat - 1
    let ring := nth (nth s.hif.pcie h).rrings r.rring.toNat
    if ringOn ring.cfg then
      let t := (ring.tail.toNat + 1) % ringSize ring.cfg
      let s := s.onHif fun x => { x with
        pcie := upd x.pcie h fun f => { f with
          rrings := upd f.rrings r.rring.toNat fun q => { q with
            tail := BitVec.ofNat 12 t, phase := if t = 0 then !q.phase else q.phase } }
        outbox := .reply r ring.phase :: x.outbox }
      msix h (field ring.cfg.toNat 5 6) s
    else s

/-- A reply can be written now: its journal entry is in MRAM, or the journal is volatile (R448, R454), and its ring has
room. -/
def replyReady (r : Reply) (s : State) : Bool :=
  (s.hif.isVolatile || s.mgt.st == .recovery || r.jseq.toNat ≤ s.hif.jhead.toNat) &&
  (r.host == 3 || r.host == 0 ||
    let ring := nth (nth s.hif.pcie (r.host.toNat - 1)).rrings r.rring.toNat
    !(ringOn ring.cfg) || !(rringFull ring))

/-- Write every reply of the list that is ready, oldest first, and keep the others. -/
def writeReplies : List Reply → State → State
  | [], s => s
  | r :: rs, s =>
    if replyReady r s then writeReplies rs (writeReply r s)
    else
      let s := writeReplies rs s
      s.onHif fun x => { x with replyQ := r :: x.replyQ }

/-- Write the waiting replies that are ready. -/
def flushReplies (s : State) : State :=
  writeReplies s.hif.replyQ (s.onHif fun x => { x with replyQ := [] })

/-- A reply is queued and, when it is ready, written. -/
def queueReply (r : Reply) (s : State) : State :=
  flushReplies (s.onHif fun x => { x with replyQ := x.replyQ ++ [r] })

/-- An event of R450 for a host: written to its event ring, or dropped and counted when the ring is full or absent. -/
def sendEvent (host : HostId) (code : BitVec 16) (detail : BitVec 32) (vec : Nat) (s : State) : State :=
  let ss := nth s.hif.sess host.toNat
  let r : Reply := { host := host, rring := ss.evRing, code := code, detail := detail, kind := 2 }
  let ring := nth (nth s.hif.pcie (host.toNat - 1)).rrings ss.evRing.toNat
  let ok := ss.isOpen && (host == 3 || (host != 0 && !ss.noEvRing && ringOn ring.cfg && !(rringFull ring)))
  let s := if ok then writeReply r s
    else hifRaise 0x10 (s.onHif fun x => { x with evtDropCnt := sat x.evtDropCnt })
  signal vec s

/-! ## Journal (R453, R454) and completions (R448) -/

/-- Entries the journal holds. -/
def journalSize : Nat := 8192

/-- A new journal entry: the next JSEQ, TIM_FRAME and the tick. In RECOVERY the ROM keeps no journal (R465). -/
def journalAdd (e : JEntry) (s : State) : State :=
  if s.mgt.st = .recovery then s else s.onHif fun x =>
    let j := x.jseq + 1
    { x with jseq := j
             journal := ({ e with jseq := j, frame := s.frame, tick := BitVec.ofNat 24 s.tick } :: x.journal).take journalSize }

/-- The target's epoch as replies and entries carry it; 0 for a class without one. -/
def epochNow (k : BitVec 16) (i : Nat) (s : State) : BitVec 16 := (epochOf k i s).getD 0

/-- The journal entry of a held command. -/
def heldEntry (h : Held) (kind : JKind) (st : Status) (detail : Word) (s : State) : JEntry :=
  { kind := kind, corr := h.cmd.corr, ref := if kind = .accept then 0 else h.jseq, seq := h.cmd.seq, opcode := h.opcode
    status := st, tclass := h.cmd.tclass, tindex := h.cmd.tindex, epoch := h.cmd.epoch
    epochNow := epochNow h.cmd.tclass h.cmd.tindex.toNat s, host := h.cmd.host, ring := h.cmd.ring
    flags := h.cmd.flags, detail := detail }

/-- The status codes of R447. -/
def Status.code : Status → BitVec 16
  | .done => 0x0000 | .accepted => 0x0001 | .badOpcode => 0x0101 | .badLength => 0x0102 | .badField => 0x0103
  | .badCrc => 0x0104 | .badVersion => 0x0105 | .badTarget => 0x0106 | .notOwner => 0x0201 | .staleRole => 0x0202
  | .busy => 0x0203 | .noSession => 0x0204 | .linebufShort => 0x0301 | .budgetExceeded => 0x0302 | .seqInvalid => 0x0303
  | .lockTimeout => 0x0304 | .securityDenied => 0x0401 | .degraded => 0x0501 | .timeout => 0x0601 | .resetAborted => 0x0602
  | .tooLate => 0x0603 | .hostError => 0x0604 | .dataError => 0x0605 | .internalError => 0x0701

/-- The reply entry of a held command (R448). -/
def heldReply (h : Held) (kind : BitVec 2) (st : Status) (jseq : BitVec 64) (detail result : Word) (s : State) : Reply :=
  { host := h.cmd.host, rring := replyRingOf h.cmd.host h.cmd.ring s, corr := h.cmd.corr, jseq := jseq, result := result
    opcode := h.opcode, code := Status.code st, detail := detail
    epoch := epochNow h.cmd.tclass h.cmd.tindex.toNat s, kind := kind, cring := h.cmd.ring }

/-- Queue a reply, unless QUIET suppresses a DONE (R439) or the host's function has gone down since acceptance (R429). -/
def replyUnlessQuiet (h : Held) (st : Status) (r : Reply) (s : State) : State :=
  if (h.cmd.flags.getLsbD 3 && st == .done) || h.jseq.toNat ≤ (nth s.hif.sess h.cmd.host.toNat).muted.toNat then s
  else queueReply r s

/-- A command that was answered ACCEPTED completes: a COMPLETE entry, and its completion reply (R448, R453). -/
def complete (h : Held) (st : Status) (detail : Word) (s : State) : State :=
  let s := s.onHif fun x => { x with awaiting := x.awaiting.filter fun y => y.jseq != h.jseq }
  let s := journalAdd (heldEntry h .complete st detail s) s
  replyUnlessQuiet h st (heldReply h (if h.sole then 0 else 1) st s.hif.jseq detail 0 s) s

/-- Complete the command when there is one. -/
def completeOpt (h : Option Held) (st : Status) (detail : Word) (s : State) : State :=
  match h with | some h => complete h st detail s | none => s

/-- An APPLY entry for a command that takes effect at a period boundary (R453). -/
def journalApply (h : Held) (s : State) : State := journalAdd (heldEntry h .apply .done 0 s) s

/-- A SESSION entry (R453). -/
def journalSession (host : HostId) (detail : Word) (s : State) : State :=
  journalAdd { kind := .session, host := host, detail := detail } s

end Sys2Proof.Machine
end

