-- ==== Sys2Proof/Machine/Accept.lean ====
section
/-!
DEFINITION. Acceptance of a command entry: the checks of R442 in their order, the journal entry, the counters and the reply.
Each command of the table supplies an OpSpec; accept runs it.
-/
namespace Sys2Proof.Machine

/-- What a command's header lines and chapter give: opcode, target classes, payload length, required owners, apply point,
the command's own checks (R442 step 10), its effect at acceptance, and its effect at the period boundary. -/
structure OpSpec where
  op : BitVec 16
  cls : List (BitVec 16)
  /-- The payload length is right for the command. -/
  len : Nat → Bool
  /-- The payload's own counts agree with its length. -/
  shape : Cmd → Bool := fun _ => true
  /-- Hosts that must be the sender: each named owner, in order (R442 step 7). -/
  owners : Cmd → State → List HostId := fun _ _ => []
  /-- A check of the ownership step that names something else than the owner in DETAIL (R350). -/
  owned : Cmd → State → Option Refuse := fun _ _ => none
  /-- Accepted from an absent host (R432). -/
  absentOk : Bool := false
  /-- Its apply point is the next period boundary. -/
  boundary : Bool := false
  check : Cmd → State → Option Refuse
  effect : Held → State → Done := fun _ s => { st := s }
  apply : Held → State → State := fun _ s => s
  /-- The step-10 checks repeated at the boundary of an APPLY_AT command (R443), where they differ from `check` because the
  pending command is itself part of the state. -/
  recheck : Option (Held → State → Option Refuse) := none
  /-- The command may take effect at a later boundary than the one it names, and its APPLY entry is made then. -/
  late : Bool := false

/-- The owner required is the configuration owner. -/
def ownConfig (_ : Cmd) (s : State) : List HostId := [s.hif.cfgOwner]

/-- The owner required is the target's, for a claimable class. -/
def ownTarget (c : Cmd) (s : State) : List HostId := [ownerOf c.tclass c.tindex.toNat s.hif]

/-- The owner required is the owner of port p. -/
def ownPort (p : Nat) (s : State) : HostId := nth s.hif.portOwner p

/-- The owner required is the target port's (classes PORT and ARRAY). -/
def ownPortIdx (c : Cmd) (s : State) : List HostId := [ownPort c.tindex.toNat s]

/-- The owners of the ports whose bits are set in payload byte 0 (class PORTSET). -/
def ownPortMask (c : Cmd) (s : State) : List HostId :=
  (bitsOf 4 (u8 (Cmd.payload c) 0)).map fun p => ownPort p s

/-- Step 6 of R442: payload length, then the header flags. -/
def shapeRefusal (sp : OpSpec) (c : Cmd) : Option Refuse := firstOf [
  chk (224 < c.plen.toNat) ⟨.badLength, 0⟩,
  chk (Cmd.isPtr c && c.host == 3) ⟨.badField, 2⟩,
  chk (Cmd.isPtr c && (c.plen != 16 || Cmd.ptrLen c == 0 || 1048576 < Cmd.ptrLen c)) ⟨.badLength, 0⟩,
  chk (!(sp.len (Cmd.len c) && sp.shape c)) ⟨.badLength, 0⟩,
  chk (c.flags.toNat / 16 != 0 || (Cmd.isApplyAt c && !sp.boundary)) ⟨.badField, 2⟩,
  chk (!Cmd.isApplyAt c && c.applyAt != 0) ⟨.badField, 24⟩,
  chk (Cmd.isPtr c && u8 c.inl 0 % 64 != 0) ⟨.badField, 32⟩]

/-- Step 7: the first required owner that is not the sender refuses, and DETAIL carries it. -/
def ownerRefusal (c : Cmd) : List HostId → Option Refuse
  | [] => none
  | o :: os => if o = c.host then ownerRefusal c os else some ⟨.notOwner, o.setWidth 32⟩

/-- Step 8: EPOCH by R440. -/
def epochRefusal (c : Cmd) (s : State) : Option Refuse :=
  match epochOf c.tclass c.tindex.toNat s with
  | some e => chk (c.epoch != e) ⟨.staleRole, 0⟩
  | none => chk (c.epoch != 0) ⟨.badField, 12⟩

/-- Commands that await a boundary by APPLY_AT. -/
def applyPending (s : State) : Nat := (s.hif.deferred.filter fun h => h.due.isSome).length

/-- Step 9: APPLY_AT by R443. -/
def applyAtRefusal (c : Cmd) (s : State) : Option Refuse :=
  if Cmd.isApplyAt c then
    let d := (c.applyAt - s.frame.truncate 32).toNat
    firstOf [chk (d == 0 || 2147483648 ≤ d) ⟨.tooLate, 0⟩, chk (65537 ≤ d) ⟨.badField, 24⟩,
      busyIf (64 ≤ applyPending s)]
  else none

/-- The device states in which whole command groups are refused with BUSY: standby (R526), and the management subsystem in
REINIT or HALT for group 0x0A (R460). -/
def groupBusy (op : BitVec 16) (s : State) : Bool :=
  let g := op.toNat / 256
  (s.pwr.standby && !([0x00, 0x0A, 0x0C, 0x0D].contains g)) ||
  (g == 0x0A && (s.mgt.st == .reinit || s.mgt.st == .halt))

/-- In RECOVERY the ROM takes four commands, and every other one fails with BUSY whatever else it holds (R465). -/
def recoveryBusy (op : BitVec 16) (s : State) : Bool :=
  s.mgt.st == .recovery && !([0x0000, 0x0A01, 0x0A02, 0x0A03].contains op.toNat)

/-- Steps 2 to 9 of R442, after the CRC: the first failure. -/
def headerRefusal (sp : OpSpec) (c : Cmd) (s : State) : Option Refuse := firstOf [
  chk (c.version != 1) ⟨.badVersion, 0⟩,
  busyIf (recoveryBusy sp.op s),
  chk (!sp.absentOk && !(nth s.hif.sess c.host.toNat).isOpen) ⟨.noSession, 0⟩,
  chk (!(sp.cls.contains c.tclass) || clsSize c.tclass ≤ c.tindex.toNat) ⟨.badTarget, 0⟩,
  shapeRefusal sp c,
  firstOf [ownerRefusal c (sp.owners c s), sp.owned c s],
  epochRefusal c s,
  applyAtRefusal c s]

/-- Steps 2 to 10 of R442. -/
def refusal (sp : OpSpec) (c : Cmd) (s : State) : Option Refuse :=
  firstOf [headerRefusal sp c s, busyIf (groupBusy sp.op s), sp.check c s]

/-- R441: the entry's SEQ is held against the ring's previous one. -/
def checkSeq (c : Cmd) (s : State) : State :=
  if c.host = 3 then s
  else
    let h := c.host.toNat - 1
    let r := nth (nth s.hif.pcie h).crings c.ring.toNat
    let s := match r.lastSeq with
      | some q => if c.seq = q + 1 then s else hifRaise 0x8 s
      | none => s
    s.onHif fun x => { x with
      pcie := upd x.pcie h fun f => { f with crings := upd f.crings c.ring.toNat fun r => { r with lastSeq := some c.seq } } }

/-- R433: any command of the host renews its lease. -/
def renewLease (host : HostId) (s : State) : State :=
  s.onHif fun x => { x with sess := upd x.sess host.toNat fun q => { q with leaseStart := s.ns } }

/-- The cores that may serve rings (R452): those that are powered and not in reset, without the ones whose rings have passed on, unless
no other is left. -/
def openCores (s : State) : List Nat :=
  let on := (List.range 4).filter fun i => match (nth s.hif.cores i).st with | .idle | .busy => true | _ => false
  match on.filter fun i => !(nth s.hif.cores i).passed with
  | [] => on
  | is => is

/-- The core that serves a ring (R452). -/
def servingCore (c : Cmd) (s : State) : Option Nat :=
  match openCores s with
  | [] => none
  | [i] => some i
  | is => some (is.getD (Config.coreChoice c.host.toNat c.ring.toNat is.length % is.length) 0)

/-- HIF_CPc_CMD_CNT: the serving core has processed a command. -/
def countCore (c : Cmd) (s : State) : State :=
  match servingCore c s with
  | some i => s.onHif fun x => { x with cores := upd x.cores i fun k => { k with cmdCnt := sat k.cmdCnt, lastNs := s.ns } }
  | none => s

/-- The reply of a BAD_CRC refusal, which no journal entry backs. -/
def refuseCrc (op : BitVec 16) (c : Cmd) (s : State) : State :=
  let s := s.onHif fun x => { x with sess := upd x.sess c.host.toNat fun q => { q with badCrcCnt := sat q.badCrcCnt } }
  queueReply (heldReply { opcode := op, cmd := c } 0 .badCrc 0 0 0 s) s

/-- A refused command: its ACCEPT entry, HIF_Hh_REFUSE_CNT and its reply, and nothing else (R442). -/
def refuse (op : BitVec 16) (c : Cmd) (r : Refuse) (s : State) : State :=
  let h : Held := { opcode := op, cmd := c }
  let s := journalAdd (heldEntry h .accept r.status r.detail s) s
  let s := s.onHif fun x => { x with sess := upd x.sess c.host.toNat fun q => { q with refuseCnt := sat q.refuseCnt } }
  queueReply (heldReply h 0 r.status s.hif.jseq r.detail 0 s) s

/-- The command as it is held from acceptance on. -/
def heldOf (sp : OpSpec) (c : Cmd) (s : State) : Held :=
  { opcode := sp.op, cmd := c, jseq := s.hif.jseq + 1, due := if Cmd.isApplyAt c then some c.applyAt else none }

/-- The accepted command's ACCEPT entry takes its outcome. -/
def journalFix (h : Held) (st : Status) (detail : Word) (s : State) : State :=
  s.onHif fun x => { x with journal := x.journal.map fun e =>
    if e.jseq = h.jseq ∧ e.kind = .accept then
      { e with status := st, detail := detail, epochNow := epochNow h.cmd.tclass h.cmd.tindex.toNat s } else e }

/-- A command with a deferred effect joins the commands that await their boundary; one answered ACCEPTED joins those
whose completion is outstanding. -/
def holdCmd (sp : OpSpec) (h : Held) (d : Done) : State :=
  d.st.onHif fun x => { x with
    deferred := if sp.boundary then x.deferred ++ [h] else x.deferred
    awaiting := if d.status = .accepted then x.awaiting ++ [{ h with sole := d.sole }] else x.awaiting }

/-- A command that passes its checks: its ACCEPT entry, its effect, HIF_Hh_CMD_CNT and its first reply. An enclave service
may still be refused by its effect (R479), which counts as a refusal. -/
def acceptOk (sp : OpSpec) (c : Cmd) (s : State) : State :=
  let h := heldOf sp c s
  let d := sp.effect h (journalAdd (heldEntry h .accept .accepted 0 s) s)
  let s := journalFix h d.status d.detail (holdCmd sp h d)
  let good := d.status == .done || d.status == .accepted
  let s := s.onHif fun x => { x with sess := upd x.sess c.host.toNat fun q =>
    if good then { q with cmdCnt := sat q.cmdCnt } else { q with refuseCnt := sat q.refuseCnt } }
  if d.sole then s
  else replyUnlessQuiet h d.status (heldReply h 0 d.status h.jseq d.detail d.result s) s

/-- Acceptance of an entry: its SEQ is compared and the lease renewed whatever its CRC (R433, R441), then R442: CRC, steps 2 to 10, the
effect. -/
def acceptNow (sp : OpSpec) (c : Cmd) (s : State) : State :=
  let s := renewLease c.host (checkSeq c (countCore c s))
  if Cmd.crcOk sp.op c then
    match refusal sp c s with
    | some r => refuse sp.op c r s
    | none => acceptOk sp c s
  else refuseCrc sp.op c s

/-- Every earlier command of the sender's ring has sent its last reply (R439). -/
def ringQuiet (c : Cmd) (s : State) : Bool :=
  !(s.hif.awaiting.any fun h => h.cmd.host == c.host && h.cmd.ring == c.ring) &&
  !(s.hif.replyQ.any fun r => r.host == c.host && r.cring == c.ring)

/-- The sender's ring stops: the command clock is lost (R32), an earlier command of the ring waits, a FENCE waits
(R439), or the reply ring is full (R445). -/
def ringStops (c : Cmd) (s : State) : Bool :=
  s.mgt.clkStatus.getLsbD 6 ||
  (Cmd.isFence c && !(ringQuiet c s)) ||
  ((c.host == 1 || c.host == 2) &&
    let ring := nth (nth s.hif.pcie (c.host.toNat - 1)).rrings (replyRingOf c.host c.ring s).toNat
    ringOn ring.cfg && rringFull ring)

/-- An earlier command of the ring waits. -/
def ringWaits (c : Cmd) (s : State) : Bool :=
  s.hif.waiting.any fun h => h.cmd.host == c.host && h.cmd.ring == c.ring

/-- A command that waits for its ring to go on. -/
def waitCmd (op : BitVec 16) (c : Cmd) (s : State) : State :=
  let s := s.onHif fun x => { x with waiting := x.waiting ++ [{ opcode := op, cmd := c }] }
  if c.host = 3 then s
  else s.onHif fun x => { x with
    pcie := upd x.pcie (c.host.toNat - 1) fun f => { f with crings := upd f.crings c.ring.toNat fun r => { r with
      waitFence := Cmd.isFence c && !(ringQuiet c s), waitReply := !(Cmd.isFence c && !(ringQuiet c s)) } } }

/-- No command reaches the command processors while the device is held in reset or unpowered, from a PCIe port whose clock is bad
(R32) or, in RECOVERY, from either PCIe port (R465). -/
def deaf (c : Cmd) (s : State) : Bool :=
  !s.live || c.host == 0 || (c.host != 3 && s.mgt.clkStatus.getLsbD (9 + c.host.toNat)) || (s.mgt.st == .recovery && c.host != 3)

/-- A command from a host reaches the command processors, and waits while its ring stops. -/
def accept (sp : OpSpec) (c : Cmd) (s : State) : State :=
  if deaf c s then s
  else if ringStops c s || ringWaits c s then waitCmd sp.op c s
  else acceptNow sp c s

/-- The payload length is exactly n. -/
def lenIs (n : Nat) (l : Nat) : Bool := l == n

end Sys2Proof.Machine
end

