-- ==== Sys2Proof/Machine/Picture.lean ====
section
/-!
DEFINITION. What the picture path shares: capability records and port geometry, the derived quantities of R99, camera
windows (R48, R70), sequence validation (R111), substitution (R121), frame selection (R118), held buffers (R249), the slot
bus (R106, R148, R149) and the planes that slots name (R96).
-/
namespace Sys2Proof.Machine

/-! ## Rates -/

/-- Nominal rate N / D of the mode in force. -/
def State.rn (s : State) : Nat := s.tim.mode.rateN
def State.rd (s : State) : Nat := s.tim.mode.rateD

/-- n ns in ticks of the nominal period shortened by 1,000 ppm, rounded up (R45, R99). -/
def nsTkMin (rn rd n : Nat) : Nat := ceilDiv (n * rn * 16777216 * 1000) (1000000000 * rd * 999)

/-- ceil(15.625 µs / τ), the 64 kHz term of R99. -/
def rateTk (rn rd : Nat) : Nat := ceilDiv (15625 * rn * 16777216) (1000000000 * rd)

/-! ## Capability records (R301) -/

def capsWord (a : Arr) (i : Nat) : Nat := (nth a.caps i).toNat
def Arr.kind (a : Arr) : Nat := field (capsWord a 0) 24 4
def Arr.width (a : Arr) : Nat := field (capsWord a 1) 0 16
def Arr.height (a : Arr) : Nat := field (capsWord a 1) 16 16
def Arr.settleNs (a : Arr) : Nat := field (capsWord a 2) 0 16
def Arr.serial (a : Arr) : Nat := capsWord a 6 + 4294967296 * capsWord a 7

/-- The array is an emitter array. -/
def Arr.emitter (a : Arr) : Bool := a.kind == 1

/-- The reset latency for a lane-rate code (1: 7.5, 2: 15, 3: 30 Gbit/s). -/
def Arr.latNs (a : Arr) (rate : Nat) : Nat :=
  if rate = 3 then field (capsWord a 3) 0 16 else if rate = 2 then field (capsWord a 3) 16 16
  else field (capsWord a 4) 0 16

/-! ## Ports -/

/-- The octets allotted to a port, ascending. -/
def octetsOf (p : Nat) (s : State) : List Nat :=
  (List.range 16).filter fun k => (s.octet k).allotted && (s.octet k).port.toNat == p

/-- The ports of a port's link set; its own is always one. -/
def setOf (p : Nat) (s : State) : List Nat :=
  (List.range 4).filter fun q => q == p || bitOf (s.port p).linkSet.toNat q

/-- Group g of port p has members. -/
def hasMember (p g : Nat) (s : State) : Bool :=
  s.ill.drivers.toList.any fun d => d.port == some (BitVec.ofNat 2 p) && d.group.toNat == g

/-- The port has a group with members. -/
def hasMembers (p : Nat) (s : State) : Bool := (List.range 4).any fun g => hasMember p g s

/-- Payload rate of n lanes at a lane-rate code, in bit/s (R26). -/
def laneRate (code n : Nat) : Nat := n * 7031250000 * 2 ^ (code - 1)

/-- Lanes that an octet stripes over. -/
def lanesOf (o : Octet) : Nat := if o.stripe7 then 7 else 8

/-- Lanes of the port, as its octets run. -/
def portLanes (p : Nat) (s : State) : Nat := ((octetsOf p s).map fun k => lanesOf (s.octet k)).sum

/-- An octet of the port runs 7 lanes. -/
def anySeven (p : Nat) (s : State) : Bool := (octetsOf p s).any fun k => (s.octet k).stripe7

/-- Lane-rate code of the port. -/
def portRate (p : Nat) (s : State) : Nat := (s.link p).allot.rate.toNat

/-- BAND_STEP over n lanes (R99). -/
def bandStepOf (p n : Nat) (s : State) : Nat :=
  let a := s.arr p
  let bits := (a.width + 64) * a.height + 2048
  ceilDiv (bits * s.rn * 16777216 * 1000) (laneRate (portRate p s) n * 16 * s.rd * 999)

/-- SETTLE_TK and LEAD_TK (R99). -/
def settleTkOf (p : Nat) (s : State) : Nat :=
  nsTkMin s.rn s.rd (if (s.port p).settleNs = 0 then (s.arr p).settleNs else (s.port p).settleNs)
def leadTkOf (p : Nat) (s : State) : Nat :=
  nsTkMin s.rn s.rd (if (s.port p).leadNs = 0 then (s.arr p).latNs (portRate p s) else (s.port p).leadNs)

/-- The port's derived quantities are computed (R99). -/
def derive (p : Nat) (s : State) : State :=
  let bs := bandStepOf p (portLanes p s) s
  let st := settleTkOf p s
  let ld := leadTkOf p s
  s.onPort p fun q => { q with
    bandStep := BitVec.ofNat 24 bs, settleTk := BitVec.ofNat 24 st, leadTk := BitVec.ofNat 24 ld
    dMin := BitVec.ofNat 24 (max (16 * bs) (rateTk s.rn s.rd)) }

/-! ## Camera windows (R48, R67, R70) -/

/-- Start ticks of a camera's windows from that of window 0. -/
def windowStarts (m start : Nat) : List Nat :=
  (List.range m).map fun k => (start + k * 16777216 / m) % 16777216

/-- A slot from tick a for d ticks lies wholly inside the window of length len from start. -/
def slotInside (a d start len : Nat) : Bool := (a + 16777216 - start % 16777216) % 16777216 + d ≤ len

/-- A slot from tick a for d ticks overlaps the window of length len from start, guarded on both sides. -/
def slotOverlaps (a d start len guard : Nat) : Bool :=
  let o := (a + 2 * 16777216 - start % 16777216 + guard) % 16777216
  o < min (len + 2 * guard) 16777216 || 16777216 < o + d

/-- The window check of R79 for one slot against one camera; `bound` when the slot shows the camera's own view. -/
def windowFail (bound : Bool) (a d : Nat) (starts : List Nat) (len guard : Nat) : Bool :=
  if bound then !(starts.any fun w => slotInside a d w len)
  else starts.any fun w => slotOverlaps a d w len guard

/-- Slots with their index and start tick. -/
def timed (i a : Nat) : List Slot → List (Nat × Nat × Slot)
  | [] => []
  | x :: xs => (i, a, x) :: timed (i + 1) (a + x.dur.toNat) xs

/-- A slot that reads a plane. -/
def Slot.reads (x : Slot) : Bool := !x.dump && !x.black

/-- The view bound to camera c, if any. -/
def viewOfCam (c : Nat) (s : State) : Option Nat := (List.range 5).find? fun v => (nth s.tim.bind v).toNat == c

/-- The audience view, if any (R77). -/
def audience (s : State) : Option Nat := viewOfCam 4 s

/-- The camera that a view is bound to, if any. -/
def camOfView (v : Nat) (s : State) : Option Nat :=
  if (nth s.tim.bind v).toNat < 4 then some (nth s.tim.bind v).toNat else none

/-- Frames per period of a view (R247). -/
def framesOf (v : Nat) (s : State) : Nat := (s.store v).f

/-- The view produces colour c. -/
def produces (v c : Nat) (s : State) : Bool := (s.store v).colours.getLsbD c

/-! ## Slots in a command payload (R95) -/

/-- The slot of 16 payload bytes. -/
def parseSlot (b : List Byte) : Slot :=
  let t := u32 b 0
  let p := u32 b 4
  let e := u32 b 8
  { dur := BitVec.ofNat 24 t, dump := bitOf t 24, black := bitOf t 25, diagOk := bitOf t 26, holdBreak := bitOf t 27
    glob := bitOf t 28, view := BitVec.ofNat 3 p, colour := BitVec.ofNat 3 (field p 3 3), bit := BitVec.ofNat 4 (field p 6 4)
    split := BitVec.ofNat 4 (field p 10 4), fofs := BitVec.ofNat 2 (field p 14 2)
    entry := Vector.ofFn fun g => BitVec.ofNat 6 (field e (6 * g.val) 6), drive := BitVec.ofNat 6 (u32 b 12) }

/-- The slots of a payload, n of them, from offset o on. -/
def parseSlots (b : List Byte) : Nat → Nat → List Slot
  | _, 0 => []
  | o, n + 1 => parseSlot (slice b o 16) :: parseSlots b (o + 16) n

/-- The reserved bits of slot bytes 0 to 15. -/
def slotReserved : List Nat := [0, 0, 0, 0xE0, 0, 0, 0xFF, 0xFF, 0, 0, 0, 0xFF, 0xC0, 0xFF, 0xFF, 0xFF]

/-- A nonzero reserved bit among n slots from offset o on (R112). DETAIL names the first slot field that holds one, TIME, PLANE,
ENTRY or DRIVE (DEDUCED, notes/assumptions/6.md). -/
def slotBad (c : Cmd) (o n : Nat) : Option Refuse :=
  match (List.range (16 * n)).find? fun i => (Cmd.payload c).getD (o + i) 0 &&& BitVec.ofNat 8 (slotReserved.getD (i % 16) 0) != 0 with
  | some i => some ⟨.badField, Cmd.fieldAt c (o + i / 4 * 4)⟩
  | none => none

/-! ## Validation (R98, R107, R108, R111) -/

/-- The sequence of a kind that a port holds. -/
def Port.seq (q : Port) (k : Nat) : Option (List Slot) := nth q.seqs k

/-- Every port of the set holds the kind. -/
def setHolds (p k : Nat) (s : State) : Bool := (setOf p s).all fun q => ((s.port q).seq k).isSome

/-- Peak plane-read rate of a slot that is followed by a slot reading a plane, in MB/s rounded up (cause MEMORY). -/
def slotPeak (h : Nat) (s : State) (x next : Slot) : Nat :=
  if next.reads then ceilDiv (h * 1024 * s.rn * 16777216 * 1000) (x.dur.toNat * s.rd * 999 * 1000000) else 0

/-- Peak rates of a sequence by slot; the last slot is followed by slot 0. -/
def seqPeaks (h : Nat) (s : State) (xs : List Slot) : List Nat :=
  List.zipWith (slotPeak h s) xs (xs.drop 1 ++ xs.take 1)

/-- The largest peak of a sequence. -/
def seqPeak (p : Nat) (s : State) (xs : List Slot) : Nat := (seqPeaks (s.arr p).height s xs).foldl max 0

/-- n of R395 as the layout in force counts it. -/
def workingPcs (m : Mem) : Nat := 32 - (bitsOf 32 m.laid.toNat).length

/-- The plane-read reservation in force, MB/s (R402). -/
def planeReadRes (s : State) : Nat := nth s.mem.res 0 * workingPcs s.mem / 32

/-- Peak of the other enabled ports for the sequence of kind k on port p (cause MEMORY). -/
def otherPeaks (p k : Nat) (s : State) : Nat :=
  ((List.range 4).map fun q =>
    let r := s.port q
    if q = p || !r.enable then 0
    else if (setOf p s).contains q then
      match r.seq k with
      | some xs => seqPeak q s xs
      | none => match r.seq 0 with | some xs => seqPeak q s xs | none => 0
    else ((List.range 4).map fun j => match r.seq j with | some xs => seqPeak q s xs | none => 0).foldl max 0).sum

/-- The cameras that a window check against the nominal windows leaves out for kind CAMLOST: those bound to a view that the
set's active sequences show. -/
def lostCams (p : Nat) (s : State) : List Nat :=
  (List.range 4).filter fun c => match viewOfCam c s with
    | some v => (setOf p s).any fun q => match (s.port q).seq 0 with
      | some xs => xs.any fun x => x.reads && x.view.toNat == v
      | none => false
    | none => false

/-- R79 for a slot against the nominal windows. -/
def nominalFail (p k : Nat) (s : State) (a : Nat) (x : Slot) : Bool :=
  x.reads && (List.range 4).any fun c =>
    let cfg := nth s.tim.mode.cams c
    cfg.enable && !(k == 3 && (lostCams p s).contains c) &&
      windowFail (camOfView x.view.toNat s == some c) a x.dur.toNat
        (windowStarts cfg.m cfg.nomOfs.toNat) cfg.nomLen.toNat cfg.guard.toNat

/-- A combination of the entries of all ports' groups (R106), port by port. -/
abbrev Combo := List (BitVec 6)

def zeroCombo : Combo := List.replicate 16 0

/-- The combination of slot i of kind k over the ports of a set. -/
def slotCombo (ports : List Nat) (k i : Nat) (s : State) : Combo :=
  ((List.range 4).map fun q =>
    if ports.contains q then match (s.port q).seq k with
      | some xs => match xs[i]? with | some x => if x.dump then List.replicate 4 0 else x.entry.toList | none => List.replicate 4 0
      | none => List.replicate 4 0
    else List.replicate 4 0).flatten

/-- The combination that hold mode shows on port p. -/
def heldCombo (p : Nat) (e : Vector (BitVec 6) 4) : Combo :=
  ((List.range 4).map fun q => if q = p then e.toList else List.replicate 4 0).flatten

/-- Add a nonzero combination that is not there yet. -/
def addCombo (m : List Combo) (c : Combo) : List Combo := if c == zeroCombo || m.contains c then m else m ++ [c]

/-- The code map of the link set of port p (R149): kinds in order, then the held combinations given. -/
def codeMap (p : Nat) (held : List Combo) (s : State) : List Combo :=
  let ports := setOf p s
  let ks := (List.range 4).filter fun k => k == 0 || setHolds p k s
  let m := ks.foldl (fun m k =>
    let n := (ports.map fun q => match (s.port q).seq k with | some xs => xs.length | none => 0).foldl max 0
    (List.range n).foldl (fun m i => addCombo m (slotCombo ports k i s)) m) []
  held.foldl addCombo m

/-- The held combinations in force. -/
def heldCombos (s : State) : List Combo :=
  (List.range 4).filterMap fun p => if (s.port p).hold.on then some (heldCombo p (s.port p).hold.entry) else none

/-- The first slot of a timed sequence that fails a condition. -/
def firstBad (f : Nat → Nat → Slot → Bool) (xs : List Slot) : Option Nat :=
  ((timed 0 0 xs).find? fun t => f t.1 t.2.1 t.2.2).map (·.1)

/-- Flag restrictions of R98 that are cause FLAGS. -/
def flagsBad (x : Slot) : Bool :=
  (x.dump && (!x.glob || x.black || x.entry.toList.any (· != 0) || x.drive != 0)) || (x.diagOk && !x.dump)

/-- Cause PLANE, with R248. -/
def planeBad (p : Nat) (s : State) (x : Slot) : Bool :=
  let v := x.view.toNat
  x.reads && (4 < v || (nth s.tim.bind v).toNat == 5 || !(produces v x.colour.toNat s) || framesOf v s ≤ x.fofs.toNat ||
    (s.store v).width != (s.arr p).width || (s.store v).height != (s.arr p).height)

/-- Cause ENTRY (R105, R110). -/
def entryBad (p : Nat) (s : State) (x : Slot) : Bool :=
  ((List.range 4).any fun g => nth x.entry g != 0 && !(hasMember p g s)) || (x.drive != 0 && !(s.arr p).emitter)

/-- Cause LINKSET for a sequence (R107): none, or the failing slot, or 0xFFFF. -/
def linksetBad (p k : Nat) (s : State) (xs : List Slot) : Option Nat :=
  let ports := setOf p s
  if ports.any (fun q => setOf q s != ports) then some 0xFFFF
  else if hasMembers p s && (List.range 4).any (fun q => hasMembers q s && !(ports.contains q)) then some 0xFFFF
  else
    let others := ports.filterMap fun q => if q = p then none else (s.port q).seq k
    if others.any (fun ys => ys.length != xs.length) then some 0xFFFF
    else firstBad (fun i _ x => others.any fun ys => match ys[i]? with
      | some y => y.dur != x.dur || y.glob != x.glob
      | none => true) xs

/-- The lanes that LINK is checked for: all eight of every octet, or one octet at 7 for kind LANE7. -/
def checkLanes (p k : Nat) (s : State) : Nat := 8 * (octetsOf p s).length - (if k = 1 then 1 else 0)

/-- The first failing condition of R111 for a sequence, in ascending cause, with its slot. Cause MEMORY counts the port checked
even while it is not enabled, beside the enabled ports (DESIGN CHOICE, notes/assumptions/115.md). -/
def seqFail (p k : Nat) (s : State) (xs : List Slot) : Option (Nat × Nat) :=
  let at' (c : Nat) (i : Option Nat) : Option (Nat × Nat) := i.map fun n => (c, n)
  let bs := bandStepOf p (checkLanes p k s) s
  let st := settleTkOf p s
  let tests : List (Option (Nat × Nat)) := [
    at' 1 (if xs.length = 0 || 4096 < xs.length then some 0xFFFF else none),
    at' 2 (if (xs.map fun x => x.dur.toNat).sum ≠ 16777216 then some 0xFFFF else none),
    at' 3 (firstBad (fun _ _ x => flagsBad x) xs),
    at' 4 (firstBad (fun _ _ x => planeBad p s x) xs),
    at' 5 (firstBad (fun _ _ x => entryBad p s x) xs),
    at' 6 (firstBad (fun _ _ x => x.dur.toNat < rateTk s.rn s.rd) xs),
    at' 7 (firstBad (fun _ _ x => x.dur.toNat < 16 * bs) xs),
    at' 8 (if planeReadRes s < seqPeak p s xs + otherPeaks p k s then some 0xFFFF else none),
    at' 9 (firstBad (fun _ _ x => (x.glob && x.dur.toNat ≤ st) || (x.diagOk && x.dur.toNat < st + nsTkMin s.rn s.rd 12000)) xs),
    at' 10 (firstBad (fun _ a x => nominalFail p k s a x) xs),
    at' 11 (linksetBad p k s xs),
    at' 12 (if 63 < (codeMap p (heldCombos s) s).length then some 0xFFFF else none)]
  tests.findSome? id

/-- DETAIL of a failed validation (R449). -/
def seqDetail (p k cause slot : Nat) : Word := BitVec.ofNat 32 (cause + 256 * k + 1024 * p + 65536 * slot)

/-- The status of a cause (R111). -/
def causeStatus (c : Nat) : Status := if c = 7 || c = 8 || c = 12 then .budgetExceeded else .seqInvalid

/-- Cause ARRAY: no capability record, or no octets. -/
def arrayBad (p : Nat) (s : State) : Bool := !(s.arr p).capsValid || (octetsOf p s).isEmpty

/-- Validation of the sequences that a port holds: the first failure as kind, cause and slot. An enabled port without an
active sequence fails with cause COUNT. -/
def portFail (p : Nat) (s : State) : Option (Nat × Nat × Nat) :=
  if arrayBad p s then some (0, 13, 0xFFFF)
  else (List.range 4).findSome? fun k =>
    match (s.port p).seq k with
    | some xs => (seqFail p k s xs).map fun f => (k, f.1, f.2)
    | none => if k = 0 && !(s.port p).allBlack then some (0, 1, 0xFFFF) else none

/-- Validation of a commit over the ports given, ascending (R113). -/
def commitFail (ports : List Nat) (s : State) : Option Refuse :=
  ports.findSome? fun p => (portFail p s).map fun f => ⟨causeStatus f.2.1, seqDetail p f.1 f.2.1 f.2.2⟩

/-! ## What a port shows -/

/-- The all-BLACK sequence of R114 at the port's D_MIN pace, its last slot filling the period. -/
def blackSeq (d : Nat) : List Slot :=
  if d = 0 then [{ black := true, dur := 0xFFFFFF }] else
  let n := 16777216 / d
  (List.range n).map fun i =>
    { black := true, dur := BitVec.ofNat 24 (if i + 1 = n then 16777216 - d * (n - 1) else d) }

/-- With kind k the port runs the all-BLACK sequence in place of its active one (R114). -/
def Port.blackKind (q : Port) (k : Nat) : Bool := q.allBlack && k == 0

/-- The slots that the port would step through with kind k. -/
def Port.slotsOf (q : Port) (k : Nat) : List Slot :=
  if q.blackKind k || q.noFallback then blackSeq q.dMin.toNat else (q.seq k).getD []

/-- The slots that the port steps through; in SETTLE the array loads black planes (R83). -/
def Port.slots (q : Port) : List Slot :=
  if q.st == .settle then blackSeq q.dMin.toNat else q.slotsOf q.kind.toNat

/-- The port runs its slots: in RUN, in SETTLE with its link READY, or in DARK on the all-BLACK sequence or for want of a
fallback. -/
def Port.stepping (q : Port) : Bool :=
  q.st == .run || (q.st == .settle && !q.linkSettle) || (q.st == .dark && (q.allBlack || q.noFallback))

/-- The port shows its held plane in place of a sequence; in SETTLE it loads black planes all the same (R83). -/
def Port.held (q : Port) : Bool := q.hold.on && q.st != .settle

/-- The port runs a sequence of its own (R118). -/
def Port.running (q : Port) : Bool := q.enable && q.stepping && q.st != .settle && !q.hold.on

/-- A camera is LOST or ACQUIRING. -/
def CamState.away (c : CamState) : Bool := c.mode == .lost || c.mode == .acquiring

/-- A slot after R121: the slot shown, whether it is substituted, and whether it is dark. `back` says which cameras have fallen
back. A CAMLOST sequence that R120 has selected is not substituted. A slot of a view that is bound to nothing shows nothing (R77): a
zero plane at entry 0, as without a frame (DESIGN CHOICE, notes/assumptions/115.md). -/
def substSlot (back : Nat → Bool) (k : Nat) (s : State) (x : Slot) : Slot × Bool × Bool :=
  if x.reads && (nth s.tim.bind x.view.toNat).toNat == 5 then (x, false, true)
  else if !x.reads || k = 3 then (x, false, false)
  else match camOfView x.view.toNat s with
    | none => (x, false, false)
    | some c =>
      if !(back c) then (x, false, false)
      else match audience s with
        | some a =>
          if produces a x.colour.toNat s then
            ({ x with view := BitVec.ofNat 3 a, fofs := BitVec.ofNat 2 (min x.fofs.toNat (framesOf a s - 1)) }, true, false)
          else (x, true, true)
        | none => (x, true, true)

/-- The cameras that have fallen back, as decided at the last boundary (R74). -/
def backNow (s : State) (c : Nat) : Bool := (s.cam c).fellBack

/-- The cameras that would fall back at a boundary now. -/
def backThen (s : State) (c : Nat) : Bool := (s.cam c).away

/-! ## Frame selection (R118) -/

/-- Position of colour c among the colours of a view. -/
def colourSlot (colours : BitVec 6) (c : Nat) : Nat := ((List.range c).filter fun i => colours.getLsbD i).length

/-- The buffer holds a complete view-frame: every plane of every colour of the view (R246), or it may be only of the colours
referenced, whose slots are given (R118): the two rules differ, and which of them holds is a free value. -/
def FrameBuf.has (need : List Nat) (b : FrameBuf) : Bool :=
  b.frame.isSome && (b.complete || (Config.partFrames && !need.isEmpty && !(b.left.any fun x => need.contains x.1)))

/-- The (view, fofs) pairs and colours that a slot list shows. -/
def showsOf (back : Nat → Bool) (k : Nat) (s : State) (xs : List Slot) : List (Nat × Nat × Nat) :=
  xs.filterMap fun x =>
    let y := substSlot back k s x
    if x.reads && !y.2.2 then some (y.1.view.toNat, y.1.fofs.toNat, y.1.colour.toNat) else none

/-- What every port that runs a sequence shows with the kinds given. -/
def allShows (back : Nat → Bool) (kinds : Nat → Nat) (s : State) : List (Nat × Nat × Nat) :=
  ((List.range 4).map fun p => if (s.port p).running then
    showsOf back (kinds p) s ((s.port p).slotsOf (kinds p)) else []).flatten

/-- The colour slots of view v's pair (v, fofs) that a list of shown colours references. -/
def needSlots (v fofs : Nat) (sh : List (Nat × Nat × Nat)) (s : State) : List Nat :=
  (sh.filter fun x => x.1 == v && x.2.1 == fofs).map fun x => colourSlot (s.store v).colours x.2.2

/-- Buffer i of view v holds the same complete frame now and at the selection point, where there has been one (R256). -/
def hadFrame (v i : Nat) (need : List Nat) (s : State) : Bool :=
  let b := (s.store v).bufs.getD i {}
  b.has need && match s.seq.bufsAt with
    | none => true
    | some l => let a := (l.getD v []).getD i {}; a.frame == b.frame && a.has need

/-- The buffer that R118 selects for a view and frame offset of a period, among the frames complete at the selection point. -/
def selectBuf (v fofs period : Nat) (need : List Nat) (s : State) : Option Nat × Bool :=
  let bufs := (s.store v).bufs
  let want := period * 4 + fofs
  let ok := (List.range bufs.length).filter fun i => hadFrame v i need s
  let fr (i : Nat) : Nat := ((bufs.getD i {}).frame).getD 0
  match ok.find? fun i => fr i == want with
  | some i => (some i, false)
  | none =>
    match ok.filter fun i => fr i < want with
    | [] => (none, true)
    | i :: is => (some (is.foldl (fun a b => if fr a < fr b then b else a) i), true)

/-- The choice of R118 for a period: one entry for each pair of view and frame offset shown. -/
def selectAll (back : Nat → Bool) (kinds : Nat → Nat) (period : Nat) (s : State) : List Selection :=
  let sh := allShows back kinds s
  (((List.range 5).map fun v => (List.range 4).map fun f => (v, f)).flatten).filterMap fun vf =>
    if !(sh.any fun x => x.1 == vf.1 && x.2.1 == vf.2) then none
    else
      let r := selectBuf vf.1 vf.2 period (needSlots vf.1 vf.2 sh s) s
      some { view := BitVec.ofNat 3 vf.1, fofs := BitVec.ofNat 2 vf.2, buf := r.1, repeated := r.2 }

/-- The selection that serves a slot. -/
def selFor (sel : List Selection) (x : Slot) : Option Nat :=
  match sel.find? fun e => e.view == x.view && e.fofs == x.fofs with
  | some e => e.buf
  | none => none

/-! ## Plane store addresses (R247) -/

/-- Planes of a view-frame. -/
def colourCount (colours : BitVec 6) : Nat := ((List.range 6).filter fun i => colours.getLsbD i).length

/-- Byte address of a plane: 16 planes a colour, 1,024 bytes a row (R96, R397). -/
def planeBase (st : PlaneStore) (buf colour bit : Nat) : Nat :=
  st.base + ((buf * colourCount st.colours + colourSlot st.colours colour) * 16 + bit) * (st.height * 1024)

/-- The plane that slot i of a list shows under a selection (R97, R253). -/
def planeOf (back : Nat → Bool) (k : Nat) (sel : List Selection) (s : State) (i : Nat) (x : Slot) : PlaneId :=
  let y := (substSlot back k s x).1
  let d := (substSlot back k s x).2.2
  let z : PlaneId := { view := y.view, colour := y.colour, bit := y.bit, split := y.split, fofs := y.fofs, slotIdx := i }
  if !x.reads || d then z
  else match selFor sel y with
    | some b => { z with zero := false, base := planeBase (s.store y.view.toNat) b y.colour.toNat y.bit.toNat }
    | none => z

/-- The kind, selection and fallen-back cameras of the coming period as they stand. -/
def nextSel (p : Nat) (s : State) : List Selection := ((s.port p).selNext).getD (s.port p).sel

/-- Bytes of one frame buffer (R241). -/
def bufSizeOf (st : PlaneStore) : Nat := colourCount st.colours * 16 * st.height * 1024

/-- A plane reader (ports 5 to 8) holds an outstanding read of buffer i of view v (R250). -/
def readPending (v i : Nat) (s : State) : Bool :=
  let st := s.store v
  let lo := st.base + i * bufSizeOf st
  s.mem.waiting.any fun w => decide (5 ≤ w.req.port.val ∧ w.req.port.val ≤ 8) && w.req.space == .plane && w.req.data.isNone &&
    decide (lo ≤ w.req.addr ∧ w.req.addr < lo + bufSizeOf st)

/-- A buffer of a view is HELD (R249, R250); a frame chosen at the selection point counts from there on (R256). -/
def bufHeld (v i : Nat) (s : State) : Bool :=
  let b := (s.store v).bufs.getD i {}
  let used (sel : List Selection) := sel.any fun e => e.view.toNat == v && e.buf == some i
  b.slicing || b.keep || readPending v i s || (match (s.store v).newest with | some n => n.1 == i && b.frame.isSome | none => false) ||
  (List.range 4).any fun p =>
    let q := s.port p
    (q.enable && (used q.sel || used (nextSel p s))) || ((q.hold.on || q.hold.breakSeen) && q.hold.view.toNat == v && q.hold.buf == i)

/-! ## Light (R102, R105, R106, R109) -/

/-- The port's groups are at entry 0 by a rule of its own: not running, settling after a changeover, a slot or period shown
dark, an underrun interval (R259), a health hold (R305), or a reload that underran (R260). -/
def portDark (p : Nat) (s : State) : Bool :=
  let q := s.port p
  !(q.st == .run || q.st == .hold) || q.settling || q.slotDark || q.periodDark || q.hold.reloadDark ||
  (q.under.any fun u => u.1 ≤ q.slot.toNat) || (s.arr p).dark || s.tim.settle || q.linkSettle

/-- An enabled port of the link set is dark, and so the whole set is (R109). -/
def setDark (p : Nat) (s : State) : Bool := (setOf p s).any fun q => (s.port q).enable && portDark q s

/-- The combination in force. -/
def comboNow (s : State) : Combo :=
  ((List.range 4).map fun p =>
    if !(s.port p).enable || setDark p s then List.replicate 4 0 else (s.port p).entries.toList).flatten

/-- The code of a combination; 0 for all dark and for a combination that the map in force lacks. -/
def codeOf (m : List Combo) (c : Combo) : BitVec 6 :=
  match m.findIdx? fun x => x == c with
  | some i => BitVec.ofNat 6 (i + 1)
  | none => 0

/-- The slot-bus code that the state calls for; 0 in the safe state (R227) and under a TAP instruction (R565). -/
def codeNow (s : State) : BitVec 6 := if s.blanked then 0 else codeOf s.ill.map (comboNow s)

/-- ISLOT takes the code that the state calls for, and ISTB is strobed when it changes (R106, R148). -/
def strobe (s : State) : State :=
  let c := codeNow s
  if c = s.ill.code then s else s.onIll fun i => { i with code := c, strobes := i.strobes + 1 }

/-- The enabled ports of the set are at the same point, so that one strobe serves the set (R109). -/
def setAligned (p : Nat) (s : State) : Bool :=
  (setOf p s).all fun q => !(s.port q).enable || !(s.port q).stepping ||
    ((s.port q).slot == (s.port p).slot && (s.port q).settling == (s.port p).settling)

/-- Strobe once every port of the set has made the same move. -/
def strobeSet (p : Nat) (s : State) : State := if setAligned p s then strobe s else s

end Sys2Proof.Machine
end

