-- ==== Sys2Proof/Machine/Access.lean ====
section
/-!
DEFINITION. Access to the memory (spec/12): the regions and the address maps, the meters, rows, protection and error correction that
every burst meets, and the runs of bursts in which the units of the device read and write.
-/
namespace Sys2Proof.Machine

/-! ## Regions (R394 to R396) -/

/-- Ranks in service. -/
def ranksIn (m : Mem) : Nat := min (if m.spare then 3 else 4) (4 - (bitsOf 4 m.failed.toNat).length)

/-- The row unit U in bytes. -/
def rowUnit (m : Mem) : Nat := ranksIn m * workingPcs m * 16384

/-- Sizes of the plane region and of the general region. -/
def planeSize (m : Mem) : Nat := m.planeRows * rowUnit m
def generalSize (m : Mem) : Nat := (16128 - m.planeRows) * rowUnit m

/-- A command that needs device memory before it is READY fails with BUSY (R428). -/
def memBusy (s : State) : Option Refuse := busyIf (s.mem.st != .ready)

/-- Bytes of a store (R241). -/
def storeSize (st : PlaneStore) : Nat := st.bufs.length * bufSizeOf st

/-- In-service physical ranks by logical rank after a layout (R394), and the spare. -/
def goodRanks (m : Mem) : List Nat := (List.range 4).filter fun r => !(m.failed.getLsbD r)

/-- A spare rank rests in self-refresh with every segment dropped; one that stops being spare leaves it (R394). -/
def restSpare (m : Mem) : Mem :=
  { m with ranks := Vector.ofFn fun r =>
      let x := m.ranks[r]
      if m.spareValid && r.val = m.spareRank.toNat && !(m.migRun && m.migDst == m.spareRank) then { x with power := 2, segs := 0 }
      else if x.segs = 0 then { x with power := 0, segs := 0xFF }
      else x }

/-! ## Addresses (R397, R398) -/

/-- The pseudo-channels P[0] … P[n − 1] of the layout in force (R395). -/
def laidPcs (m : Mem) : List Nat := (List.range 32).filter fun i => !(m.laid.getLsbD i)

/-- A place in the stack: pseudo-channel, logical rank, bank and row. -/
structure MemPlace where
  pc : Nat := 0
  lr : Nat := 0
  bank : Nat := 0
  row : Nat := 0
  column : Nat := 0
  deriving DecidableEq, Repr, Inhabited

/-- R397. -/
def planePlace (a : Nat) (m : Mem) : MemPlace :=
  let k := ranksIn m
  let b := a / 1024
  let i := b / workingPcs m
  let row := i / (16 * k)
  let gb : Nat × Nat × Nat := match m.order.toNat with
    | 0 => (i / 4 % 4, i % 4, i / 16 % k)
    | 1 => (i % 4, i / 4 % 4, i / 16 % k)
    | 2 => (i / k % 4, i / (4 * k) % 4, i % k)
    | _ => ((i % 4) ^^^ (row % 4), (i / 4 % 4) ^^^ (row / 4 % 4), i / 16 % k)
  { pc := (laidPcs m).getD (b % workingPcs m) 0, lr := gb.2.2, bank := 4 * gb.1 + gb.2.1, row := row, column := a / 32 % 32 }

/-- R398. -/
def generalPlace (a : Nat) (m : Mem) : MemPlace :=
  let k := ranksIn m
  let g := 2 ^ m.grain
  let c := a / g
  let w := c / workingPcs m * g + a % g
  let b := w / 1024
  { pc := (laidPcs m).getD (c % workingPcs m) 0, lr := b / 16 % k, bank := 4 * (b % 4) + b / 4 % 4
    row := m.planeRows + b / (16 * k), column := w / 32 % 32 }

/-- A reserve address as a place of rows 16,128 to 16,383; the manual gives no address map there (notes/assumptions/120.md). -/
def reservePlace (a : Nat) (m : Mem) : MemPlace :=
  let n := workingPcs m
  let k := ranksIn m
  let b := a / 1024
  { pc := (laidPcs m).getD (b / 16 % n) 0, lr := b / (16 * n) % k, bank := b % 16, row := 16128 + b / (16 * n * k), column := a / 32 % 32 }

/-- The place of an address of a region. -/
def placeAt (space : MemSpace) (a : Nat) (m : Mem) : MemPlace :=
  match space with | .plane => planePlace a m | .general => generalPlace a m | .reserve => reservePlace a m

def MemReq.place (q : MemReq) (m : Mem) : MemPlace := placeAt q.space q.addr m

/-- The bytes of a region. -/
def Mem.cells (m : Mem) : MemSpace → List Host.Cell
  | .plane => m.plane
  | .general => m.general
  | .reserve => m.reserve

/-- Bytes are stored in a region from an address on. -/
def storeAt (space : MemSpace) (a : Nat) (d : List Byte) (m : Mem) : Mem :=
  match space with
  | .plane => { m with plane := memWrite m.plane a d }
  | .general => { m with general := memWrite m.general a d }
  | .reserve => { m with reserve := memWrite m.reserve a d }

/-- n bytes of a region become 0. -/
def clearAt (space : MemSpace) (a n : Nat) (m : Mem) : Mem :=
  match space with
  | .plane => { m with plane := memClear m.plane a (a + n) }
  | .general => { m with general := memClear m.general a (a + n) }
  | .reserve => { m with reserve := memClear m.reserve a (a + n) }

/-- The physical rank that a read of a place goes to: below the checkpoint of a migration, its target (R412). -/
def readRank (p : MemPlace) (m : Mem) : Nat :=
  let r := (nth m.rankMap p.lr).toNat
  if m.migRun && r = m.migSrc.toNat && p.row < m.migRow then m.migDst.toNat else r

/-- The physical ranks that a write of a place goes to: at or above the checkpoint of a migration, its source and its target (R412). -/
def writeRanks (p : MemPlace) (m : Mem) : List Nat :=
  let r := readRank p m
  if m.migRun && r = m.migSrc.toNat then [r, m.migDst.toNat] else [r]

/-! ## Meters (R400 to R403) -/

/-- A pool's reservation in force, in MB/s (R402). -/
def reservation (i : Nat) (s : State) : Nat := nth s.mem.res i * workingPcs s.mem / 32

/-- The pool of a port. -/
def poolOf (n : Nat) : Nat := [2, 3, 4, 4, 1, 0, 0, 0, 0, 5, 5].getD n 5

/-- The port whose entry holds the bucket that a port shares. -/
def bucketOf (n : Nat) : Nat := if n = 3 then 2 else if n = 10 then 9 else n

/-- The bucket's rate in MB/s: a plane reader's peak, or the pool's rate. -/
def bucketRate (n : Nat) (s : State) : Nat :=
  if 5 ≤ n && n ≤ 8 then
    let p := n - 5
    ((List.range 4).map fun k => match (s.port p).seq k with | some xs => seqPeak p s xs | none => 0).foldl max 0
  else reservation (poolOf n) s

/-- The tokens of a bucket now. -/
def bucketNow (n : Nat) (s : State) : Nat :=
  let b := nth s.mem.ports (bucketOf n)
  min (bucketRate n s * 10000) (b.bucket + bucketRate n s * (s.ns - b.bucketNs))

/-- The bucket of port n holds the tokens of a request of 32 bytes, which is then reserved (R402). -/
def hasTokens (n : Nat) (s : State) : Bool := decide (32000 ≤ bucketNow n s)

/-- A request of 32 bytes of port n is metered. -/
def meter (n : Nat) (s : State) : State :=
  let t := bucketNow n s
  let ok := hasTokens n s
  let s := s.onMem fun m => { m with ports := upd m.ports (bucketOf n) fun p =>
    { p with bucket := if ok then t - 32000 else t, bucketNs := s.ns } }
  s.onMem fun m => { m with ports := upd m.ports n fun p => { p with
    bytes := p.bytes + 32, busErr := false, excessCnt := if ok then p.excessCnt else sat p.excessCnt } }

/-! ## Rows (R401, R408, R416, R418) -/

/-- A request to a column closes its row with the access (R400): always on ports 0, 9 and 10, on column 31 on ports 4 to 8, on the
last column of its run on ports 1 and 2, and as the engine asks on port 3. -/
def MemReq.closesRow (q : MemReq) (col : Nat) : Bool :=
  let n := q.port.val
  if n = 0 ∨ n = 9 ∨ n = 10 then true
  else if n = 3 then q.closes
  else if n = 1 ∨ n = 2 then q.closes || col == 31
  else col == 31

/-- The channel's LFSR moves on; its draw at the probability in force counts a refresh of the neighbour rows (R408). -/
def drawNeighbour (pc : Nat) (m : Mem) : Mem :=
  let x := Config.nrrNext (nth m.nrrLfsr (pc / 2))
  { m with nrrLfsr := upd m.nrrLfsr (pc / 2) fun _ => x, nrrCnt := if Config.nrrDraw m.nrrP x then sat m.nrrCnt else m.nrrCnt }

/-- A row is opened when it is not open, with its draw of R408. -/
def activate (closes : Bool) (p : MemPlace) (rank : Nat) (s : State) : State :=
  let here (o : OpenRow) : Bool := o.pc == p.pc && o.rank == rank && o.bank == p.bank
  let hit := s.mem.openRows.any fun o => here o && o.row == p.row
  let s := if hit then s else s.onMem (drawNeighbour p.pc)
  s.onMem fun m =>
    let rest := m.openRows.filter fun o => !(here o)
    { m with openRows := if closes then rest else { pc := p.pc, rank := rank, bank := p.bank, row := p.row, atNs := s.ns } :: rest }


/-- Every enabled port is in hold (R128). A port whose HOLD_EXIT still waits for a complete frame counts: it is in hold until it
leaves it (DEDUCED, notes/assumptions/116.md). -/
def allHold (s : State) : Bool :=
  ((List.range 4).any fun p => (s.port p).enable) && (List.range 4).all fun p => !(s.port p).enable || (s.port p).st == .hold

/-- Self-refresh by R417 or R522 is called for. -/
def wantsSelfRefresh (s : State) : Bool := allHold s || s.pwr.standby || s.thm.shutdown

/-- A rank is woken by a request (R416, R418); once self-refresh is not called for, none of its segments is masked any more. -/
def wakeRank (r : Nat) (s : State) : State :=
  let out := !(wantsSelfRefresh s)
  s.onMem fun m => { m with ranks := upd m.ranks r fun x => { x with power := 0, lastNs := s.ns, segs := if out then 0xFF else x.segs } }

/-! ## Protection (R406) -/

/-- The extent (start, length) holds the address. -/
def inExtent (a : Nat) (e : Nat × Nat) : Bool := e.1 ≤ a && a < e.1 + e.2

/-- A canvas surface of view v holds what protected layers composed (R484). -/
def canvasSecret (v i : Nat) (s : State) : Bool := (s.cview v).isProtected || (s.fview v).secret.contains i

/-- The address lies in a canvas surface of a protected view. -/
def inProtCanvas (a : Nat) (s : State) : Bool :=
  (List.range 5).any fun v => (s.fview v).canvas.zipIdx.any fun c => canvasSecret v c.2 s && inExtent a (c.1, (s.fview v).surfSize)

/-- The address of a region lies in protected memory. -/
def isProtectedAt (space : MemSpace) (a : Nat) (s : State) : Bool :=
  match space with
  | .plane => (List.range 5).any fun v => (s.store v).isProtected && inExtent a ((s.store v).base, storeSize (s.store v))
  | .general => inProtCanvas a s || s.cmp.bufs.any fun b => b.isProtected && match b.place with
    | some x => inExtent a (x, b.size)
    | none => false
  | .reserve => false

/-- A request to protected memory is refused. -/
def protRefused (q : MemReq) (s : State) : Bool :=
  isProtectedAt q.space q.addr s && !(
    let n := q.port.val
    n == 10 ||
    (match q.data with
      | some _ => (n == 0 && q.enclave) || n == 4 || (n == 3 && q.space == .general && inProtCanvas q.addr s)
      | none => n == 1 || n == 3 || (5 ≤ n && n ≤ 8) || (n == 9 && q.enclave)))

/-! ## Errors (R409, R410, R413, R415) -/

/-- A corrected read, with the rewrite of its word through port 10 (R409). -/
def correctedRead (rank pc : Nat) (s : State) : State :=
  memRaise 0x1 ((meter 10 s).onMem fun m => { m with
    ceCnt := sat m.ceCnt
    ranks := upd m.ranks rank fun r => { r with ceCnt := sat r.ceCnt }
    pcs := upd m.pcs pc fun x => { x with ceCnt := sat x.ceCnt } })

/-- A migration of the logical rank starts (R412, R413). -/
def startMigration (lr : Nat) (cmd : Option Held) (s : State) : State :=
  let src := nth s.mem.rankMap lr
  let s := s.onMgt fun g => { g with fault := { g.fault with rank := upd g.fault.rank src.toNat fun _ => 1 } }
  memRaise 0x8 (s.onMem fun m => restSpare { m with migRun := true, migRow := 0, migNs := s.ns, migSrc := src, migDst := m.spareRank, migCmd := cmd })

/-- The migration has ended: the self-refresh that waited for it may be entered (R415). -/
def migrationOver (s : State) : State := if wantsSelfRefresh s then s.raise .selfRefreshEntry else s

/-- The migration is aborted by an error on its target (R415). -/
def abortMigration (s : State) : State :=
  let cmd := s.mem.migCmd
  let d := s.mem.migDst.toNat
  let s := s.onMgt fun g => { g with fault := { g.fault with rank := upd g.fault.rank d fun _ => 2 } }
  let s := s.onMem fun m => { m with migRun := false, migCmd := none, spareValid := false, failed := m.failed ||| bit1 4 d }
  completeOpt cmd .degraded 0 (migrationOver (memRaise 0x20 s))

/-- The rank-sparing reaction to an uncorrectable read of a physical rank. -/
def spareReaction (lr rank : Nat) (s : State) : State :=
  if s.mem.migRun && rank = s.mem.migDst.toNat then abortMigration s
  else if s.mem.migRun || !s.mem.spareValid then memRaise 0x40 s
  else s.raise (.migrationStart (Fin.ofNat 4 lr))

/-- MEM_UE_ADDR of a place. -/
def ueWord (p : MemPlace) (rank : Nat) : BitVec 32 :=
  BitVec.ofNat 32 (p.column + p.row * 2 ^ 5 + p.bank * 2 ^ 19 + p.pc * 2 ^ 23 + rank * 2 ^ 28)

/-- An uncorrectable read of port n: counted, captured, copied as such by a migration, and with its effect on rank sparing (R410,
R413, R415); what it does to the requester is the requester's. -/
def countUe (n : Nat) (p : MemPlace) (rank : Nat) (s : State) : State :=
  let first := !(s.mem.sticky.getLsbD 1)
  let s := s.onMem fun m => { m with
    ueCnt := sat m.ueCnt
    ueAddrLo := if first then ueWord p rank else m.ueAddrLo
    ueAddrHi := if first then BitVec.ofNat 32 n else m.ueAddrHi
    ranks := upd m.ranks rank fun r => { r with ueCnt := sat r.ueCnt }
    pcs := upd m.pcs p.pc fun x => { x with ueCnt := sat x.ueCnt }
    ports := upd m.ports n fun x => { x with ueCnt := sat x.ueCnt, busErr := true } }
  let s := memRaise 0x2 s
  let s := if n = 10 && s.mem.migRun && rank = s.mem.migSrc.toNat then
    s.onMem fun m => { m with poison := ueWord p m.migDst.toNat :: m.poison } else s
  spareReaction p.lr rank s

/-- A place that a migration wrote so that it reads as uncorrectable. -/
def poisoned (p : MemPlace) (rank : Nat) (s : State) : Bool := s.mem.poison.contains (ueWord p rank)

/-- The word at an address of a region reads as uncorrectable: its pseudo-channel is fenced, or a migration left it so (R410, R422). -/
def badWord (space : MemSpace) (a : Nat) (s : State) : Bool :=
  let p := placeAt space a s.mem
  s.mem.fenced.getLsbD p.pc || poisoned p (readRank p s.mem) s

/-- A word written whole is good again on every rank that takes the write (R412); a part of a word leaves it as it was. -/
def cleanWord (p : MemPlace) (d : List Byte) (m : Mem) : Mem :=
  if d.length < 32 then m
  else { m with poison := m.poison.filter fun w => !((writeRanks p m).any fun r => w == ueWord p r) }

/-! ## Bursts (R403 to R406) -/

/-- A burst is served: whether it ended in an uncorrectable read. A write stores its data from the request's address on. -/
def serveBurst (q : MemReq) (s : State) : State × Bool :=
  let p := MemReq.place q s.mem
  let rank := readRank p s.mem
  let s := activate (MemReq.closesRow q p.column) p rank (wakeRank rank s)
  if protRefused q s then
    (memRaise 0x80 (s.onMem fun m => { m with protViolCnt := sat m.protViolCnt }), false)
  else match q.data with
    | some d => (if s.mem.fenced.getLsbD p.pc then s else s.onMem fun m => cleanWord p d (storeAt q.space q.addr d m), false)
    | none =>
      if badWord q.space q.addr s || q.ecc == .uncorrectable || q.ecc == .wrongWord then (countUe q.port.val p rank s, true)
      else if q.ecc == .corrected then (correctedRead rank p.pc s, false)
      else (s, false)

/-- The n bytes of a burst that a read returns: zeros where protection refuses it (R406); undefined where it is uncorrectable. -/
def burstBytes (q : MemReq) (n : Nat) (bad : Bool) (s : State) : List Byte :=
  if protRefused q s then List.replicate n 0
  else if bad then (List.range n).map (Config.undefinedByte s.free)
  else memRead (s.mem.cells q.space) q.addr n

/-- What a run of reads gives: its bytes, the addresses of its uncorrectable words, and the state after it. -/
structure Fetched where
  bytes : List Byte := []
  bad : List Nat := []
  st : State

/-- The parts (start, length) of a run of n bytes from a on, one for each 32-byte word. -/
def burstsOf (a n : Nat) : List (Nat × Nat) :=
  (List.range (if n = 0 then 0 else (a + n - 1) / 32 + 1 - a / 32)).map fun i =>
    let lo := max a ((a / 32 + i) * 32)
    (lo, min (a + n) ((a / 32 + i + 1) * 32) - lo)

/-- A unit of the device reads a run of n bytes by bursts of its port, one after the other; the last burst closes a row that the run
has left open where the port's hint says so. -/
def portRead (q : MemReq) (n : Nat) (s : State) : Fetched :=
  (burstsOf q.addr n).foldl (fun g w =>
    let r : MemReq := { q with addr := w.1, closes := w.1 + w.2 == q.addr + n }
    let t := serveBurst r (meter q.port.val g.st)
    { bytes := g.bytes ++ burstBytes r w.2 t.2 t.1, bad := if t.2 then g.bad ++ [w.1 / 32 * 32] else g.bad, st := t.1 })
    { st := s }

/-- A unit of the device writes a run of bytes by bursts of its port. -/
def portWrite (q : MemReq) (d : List Byte) (s : State) : State :=
  (burstsOf q.addr d.length).foldl (fun s w =>
    (serveBurst { q with addr := w.1, data := some (slice d (w.1 - q.addr) w.2), closes := w.1 + w.2 == q.addr + d.length }
      (meter q.port.val s)).1) s

/-- Port 10 writes zeros over n bytes of a region (R484). -/
def wipe (space : MemSpace) (a n : Nat) (s : State) : State :=
  s.onMem fun m => { clearAt space a n m with
    poison := m.poison.filter fun w => !((burstsOf a n).any fun x =>
      let p := placeAt space x.1 m
      (writeRanks p m).any fun r => w == ueWord p r)
    ports := upd m.ports 10 fun p => { p with bytes := p.bytes + BitVec.ofNat 64 (((a + n + 31) / 32 - a / 32) * 32) } }

/-- n bytes of the general region as the compositor's pixels see them: those of an uncorrectable word read as 0 (R410). -/
def seenBytes (a n : Nat) (s : State) : List Byte :=
  (burstsOf a n).flatMap fun w => if badWord .general w.1 s then List.replicate w.2 0 else memRead s.mem.general w.1 w.2

/-- A read of n bytes of a buffer from offset o on; the contents of a LOST or unplaced buffer are undefined (R424). -/
def bufFetch (q : MemReq) (b : Buffer) (o n : Nat) (s : State) : Fetched :=
  match (if b.lost then none else b.place) with
  | none => { bytes := bufBytes b o n s, st := s }
  | some a => portRead { q with addr := a + o } n s

/-- A write into a buffer from offset o on. -/
def bufStore (q : MemReq) (b : Buffer) (o : Nat) (d : List Byte) (s : State) : State :=
  match b.place with
  | none => s
  | some a => portWrite { q with addr := a + o } d s

end Sys2Proof.Machine
end

