-- ==== Sys2Proof/Machine/Timing.lean ====
section
/-!
DEFINITION. The phase keeper (spec/02): its commands but PHASE_STEER, its timers, source validity and selection, the camera
predictions and states, and the window freeze. Edges, which may step the tick count, are in Phase.lean.
-/
namespace Sys2Proof.Machine

/-! ## Commands -/

/-- The shadow mode of a TIMING_SET payload; its cameras stay. -/
def parseTiming (b : List Byte) (m : TimMode) : TimMode :=
  { m with
    rateN := u32 b 0, rateD := u32 b 4
    srcList := ((List.range 4).map fun i => BitVec.ofNat 8 (u8 b (8 + i))).takeWhile (· != 0)
    bwCHz := u16 b 12, lockCount := u8 b 14, unlockCount := u8 b 15, lockThrNs := u32 b 16, unlockThrNs := u32 b 20
    refLossLimit := u8 b 24, refM := u8 b 25 % 16 + 1, refFalling := bitOf (u8 b 25) 4, holdoverS := u16 b 26
    refOfs := BitVec.ofNat 24 (u32 b 28), settleMs := u16 b 32, steerMs := u16 b 34 }

/-- The value lies outside lo to hi. -/
def outside (lo hi x : Nat) : Bool := x < lo || hi < x

def specTimingSet : OpSpec where
  op := 0x0100
  cls := [clsTiming]
  len := lenIs 36
  owners := ownConfig
  check c _ :=
    let b := Cmd.payload c
    checks [badAt c 8 ((parseTiming b {}).srcList.any fun x => 7 < x.toNat),
      badAt c 12 (outside 10 1000 (u16 b 12)), badAt c 14 (outside 2 64 (u8 b 14)), badAt c 15 (outside 1 64 (u8 b 15)),
      badAt c 16 (outside 10 100000 (u32 b 16)), badAt c 20 (u32 b 20 ≤ u32 b 16 || 1000000 < u32 b 20),
      badAt c 24 (u8 b 24 == 0), badAt c 25 (7 < u8 b 25 % 16 || 32 ≤ u8 b 25), badAt c 26 (3600 < u16 b 26),
      badAt c 28 (u8 b 31 != 0), badAt c 32 (outside 10 2000 (u16 b 32)), badAt c 34 (outside 10 10000 (u16 b 34))]
  effect h s := { st := s.onTim fun t => { t with shadow := parseTiming (Cmd.payload h.cmd) t.shadow } }

/-- The camera settings of a CAMERA_SET payload. -/
def parseCamera (b : List Byte) : CamCfg :=
  { enable := bitOf (u8 b 0) 0, openHigh := bitOf (u8 b 0) 1, m := field (u8 b 0) 2 4 + 1, filterK := u8 b 1
    missLimit := u8 b 2, reacq := u8 b 3, nomOfs := BitVec.ofNat 24 (u32 b 4), nomLen := BitVec.ofNat 24 (u32 b 8)
    guard := BitVec.ofNat 20 (u32 b 12), outlierNs := u32 b 16 }

def specCameraSet : OpSpec where
  op := 0x0101
  cls := [clsCamera]
  len := lenIs 20
  owners := ownConfig
  check c _ :=
    let b := Cmd.payload c
    let m := field (u8 b 0) 2 4 + 1
    checks [badAt c 0 (8 < m || 64 ≤ u8 b 0), badAt c 1 (7 < u8 b 1), badAt c 2 (u8 b 2 == 0),
      badAt c 3 (outside 1 16 (u8 b 3)), badAt c 4 (u8 b 7 != 0),
      badAt c 8 (u8 b 11 != 0 || outside 1 (16777216 / m) (u32 b 8)), badAt c 12 (1048576 ≤ u32 b 12), badAt c 16 (outside 1000 1000000 (u32 b 16))]
  effect h s := { st := s.onTim fun t => { t with
    shadow := { t.shadow with cams := upd t.shadow.cams h.cmd.tindex.toNat fun _ => parseCamera (Cmd.payload h.cmd) } } }

/-- The camera or the audience of a VIEW_BIND is bound to another view. -/
def bindTaken (bind : Vector (BitVec 3) 5) (v b : Nat) : Bool :=
  b < 5 && (List.range 5).any fun u => u != v && (nth bind u).toNat == b

/-- How many boundaries from now a command applies: the next one, or the one that APPLY_AT names (R443). -/
def boundaryIn (applyAt : Option (BitVec 32)) (s : State) : Nat :=
  match applyAt with | none => 1 | some f => (f - s.frame.truncate 32).toNat

/-- A pending VIEW_BIND takes its place among others by its boundary, and after those of the same one. -/
def insertBind (s : State) (h : Held) : List Held → List Held
  | [] => [h]
  | x :: xs => if boundaryIn h.due s < boundaryIn x.due s then h :: x :: xs else x :: insertBind s h xs

/-- The bindings that a VIEW_BIND meets at its boundary: those in force, and what the pending VIEW_BINDs that apply no later make of
them. One held by APPLY_AT that its own checks will refuse changes nothing (R443). -/
def bindAhead (c : Cmd) (s : State) : Vector (BitVec 3) 5 :=
  let n := boundaryIn (if Cmd.isApplyAt c then some c.applyAt else none) s
  let hs := s.hif.deferred.filter fun h => h.opcode == 0x0102 && decide (boundaryIn h.due s ≤ n)
  (hs.foldl (fun l h => insertBind s h l) []).foldl (fun b h =>
    let v := h.cmd.tindex.toNat
    let x := u8 (Cmd.payload h.cmd) 0
    if h.due.isSome && bindTaken b v x then b else upd b v fun _ => BitVec.ofNat 3 x) s.tim.bind

def specViewBind : OpSpec where
  op := 0x0102
  cls := [clsView]
  len := lenIs 4
  owners := ownTarget
  boundary := true
  check c s :=
    let b := u8 (Cmd.payload c) 0
    checks [badAt c 0 (5 < b || bindTaken (bindAhead c s) c.tindex.toNat b), rsv c 1 3]
  recheck := some fun h s => badAt h.cmd 0 (bindTaken s.tim.bind h.cmd.tindex.toNat (u8 (Cmd.payload h.cmd) 0))
  apply h s := s.onTim fun t => { t with
    bind := upd t.bind h.cmd.tindex.toNat fun _ => BitVec.ofNat 3 (u8 (Cmd.payload h.cmd) 0) }

/-- Reference edges per period of a source that measures edges (1 or 4 to 7). -/
def srcM (code : Nat) (m : TimMode) : Nat := if code = 1 then m.refM else (nth m.cams (code - 4)).m

/-- Offset of a source's first edge (R46, R48). -/
def srcOfs (code : Nat) (m : TimMode) : Nat :=
  if code = 1 then m.refOfs.toNat else (nth m.cams (code - 4)).nomOfs.toNat

/-- The source measures edges. -/
def isEdgeSrc (code : Nat) : Bool := code == 1 || (4 ≤ code && code ≤ 7)

/-- A mode breaks R43, R47 or R55. -/
def modeBad (m : TimMode) : Bool :=
  let l := m.srcList.map (·.toNat)
  m.rateD == 0 || m.rateN * 1001 < 24000 * m.rateD || 480 * m.rateD < m.rateN ||
  !(l.Nodup) || (l.contains 3 && l.length != 1) ||
  (l.any fun c => 4 ≤ c && !(nth m.cams (c - 4)).enable) ||
  (l.any fun c => isEdgeSrc c && 100 * srcM c m * m.rateN < m.bwCHz * 8 * m.rateD)

def specTimingCommit : OpSpec where
  op := 0x0103
  cls := [clsTiming]
  len := lenIs 0
  owners := ownConfig
  boundary := true
  check _ s := checks [busyIf s.tim.commit.isSome, badAny (modeBad s.tim.shadow)]
  recheck := some fun _ s => badAny (modeBad ((s.tim.commitMode).getD s.tim.shadow))
  effect h s := { st := s.onTim fun t => { t with commit := some h, commitMode := some t.shadow }, status := .accepted }

def execTimingSet (cmd : Cmd) (s : State) : Host.Outcome State Fault Refusal := .next (accept specTimingSet cmd s)
def execCameraSet (cmd : Cmd) (s : State) : Host.Outcome State Fault Refusal := .next (accept specCameraSet cmd s)
def execViewBind (cmd : Cmd) (s : State) : Host.Outcome State Fault Refusal := .next (accept specViewBind cmd s)
def execTimingCommit (cmd : Cmd) (s : State) : Host.Outcome State Fault Refusal := .next (accept specTimingCommit cmd s)

/-- The mark of a PHASE_MARK_SET payload. What the old setting's pulse would have left to the new period is cut
(DESIGN CHOICE, notes/assumptions/114.md). -/
def parseMark (b : List Byte) : Mark :=
  { mode := BitVec.ofNat 2 (u8 b 0), activeHigh := bitOf (u8 b 1) 0, cam := BitVec.ofNat 2 (field (u8 b 1) 1 2)
    divider := u8 b 2 + 1, divPhase := u8 b 3, start := BitVec.ofNat 24 (u32 b 4), width := BitVec.ofNat 24 (u32 b 8) }

def specPhaseMarkSet : OpSpec where
  op := 0x0105
  cls := [clsMark]
  len := lenIs 12
  owners := ownConfig
  boundary := true
  check c _ :=
    let b := Cmd.payload c
    let w := u32 b 8 % 16777216
    let ref := c.tindex.toNat == 4
    checks [badAt c 0 (2 < u8 b 0 || (ref && u8 b 0 != 1)), rsvBits c 1 0xF8, badAt c 3 (u8 b 2 < u8 b 3), badAt c 4 (u8 b 7 != 0),
      badAt c 8 (u8 b 11 != 0 || (if ref then outside 100 100000 w else u8 b 0 == 1 && w == 0))]
  apply h s := s.onTim fun t => { t with marks := upd t.marks h.cmd.tindex.toNat fun _ => parseMark (Cmd.payload h.cmd) }

def execPhaseMarkSet (cmd : Cmd) (s : State) : Host.Outcome State Fault Refusal := .next (accept specPhaseMarkSet cmd s)

/-! ## PHASE_MARK and REF_OUT (R91 to R93) -/

/-- The camera is TRACKING or COASTING. -/
def CamState.seen (c : CamState) : Bool := c.mode == .tracking || c.mode == .coasting

/-- A guarded window of the running period covers a tick. -/
def inWindow (c : CamState) (tick : Nat) : Bool :=
  c.winNow.any fun w => (tick + 16777216 - w.1) % 16777216 < w.2

/-- REF_OUT may rise: not in SETTLE, and not UNLOCKED after a timebase fault (R93). -/
def refOutOk (s : State) : Bool := !s.tim.settle && !(s.tim.timebaseFault && s.tim.st == .unlocked)

/-- The running period is one of mark m's (mode 1). -/
def Mark.mine (m : Mark) (frame : BitVec 64) : Bool := frame.toNat % m.divider == m.divPhase

/-- Output i is active at this instant by its schedule: REF_OUT for its width from the boundary; a pulse from its start tick, and
what the period before left of one; a guarded window of a camera in TRACKING or COASTING. -/
def markWant (i : Nat) (s : State) : Bool :=
  let m := nth s.tim.marks i
  if i = 4 then refOutOk s && decide (s.ns < s.tim.boundNs + m.width.toNat)
  else if m.mode = 1 then
    decide (s.tick < m.carry) ||
      (m.mine s.frame && decide (m.start.toNat ≤ s.tick ∧ s.tick < m.start.toNat + m.width.toNat))
  else m.mode == 2 && (s.cam m.cam.toNat).seen && inWindow (s.cam m.cam.toNat) s.tick

/-- The outputs follow the tick count (R92). A tick count that has returned to 0 waits for its boundary. -/
def followMarks (s : State) : State :=
  if s.wrapped then s
  else forN 5 (fun i s => s.onTim fun t => { t with marks := upd t.marks i fun m => { m with active := markWant i s } }) s

/-- What each mark's pulse of the period that ends leaves to the next (R91). -/
def carryMarks (s : State) : State :=
  s.onTim fun t => { t with marks := t.marks.map fun m =>
    { m with carry := if m.mode = 1 && m.mine s.frame then m.start.toNat + m.width.toNat - 16777216 else 0 } }

/-- PHASE_MARK_EDGE: output i starts or ends its pulse, where its schedule has it do so. -/
def execPhaseMarkEdge (i : Fin 5) (active : Bool) (s : State) : Host.Outcome State Fault Refusal :=
  .next (if s.live && active == markWant i.val s then
    s.onTim fun t => { t with marks := upd t.marks i.val fun m => { m with active := active } } else s)

/-! ## The rate (R44, R57) -/

/-- The pull range in ppb (R44). -/
def pullPpb : Int := 1000000

/-- One ppb in the units of the loop's integrator. -/
def loopUnit : Nat := 4000000000000000000000

/-- The offset in force is summed up to now. -/
def bankRate (now : Nat) (t : Tim) : Tim :=
  { t with rateSum := t.rateSum + t.rateOfs * (now - t.rateFrom : Nat), rateFrom := now }

/-- The rate becomes r, within the pull range. -/
def setRate (r : Int) (s : State) : State :=
  s.onTim fun t => { bankRate s.ns t with rateOfs := clampI (-pullPpb) pullPpb r }

/-- Mean offset of the period that ends now, over its time. -/
def meanRate (now : Nat) (t : Tim) : Int :=
  if now ≤ t.boundNs then t.rateOfs else clampI (-pullPpb) pullPpb (roundDiv (bankRate now t).rateSum (now - t.boundNs))

/-! ## Phase-keeper state changes -/

/-- The phase keeper enters a state on a source; the counts of R52 and R53 start again. -/
def goPhase (st : PhaseSt) (src : Nat) (s : State) : State :=
  s.onTim fun t => { t with st := st, src := BitVec.ofNat 3 src, lockRun := 0, unlockRun := 0 }

/-- The phase keeper turns to a source: its loop starts from the rate in force, and the running period counts as one with a sample
when the source has delivered an edge in it (R49, R56). `graced`: the source's first edge steps the tick count, and it counts as valid
until it is next lost (R84). -/
def enterSource (c : Nat) (graced : Bool) (s : State) : State :=
  goPhase .acquiring c (s.onTim fun t => { t with
    lossPeriods := 0, sampleSeen := decide (0 < (nth t.srcs c).edges), stepNext := graced, graced := graced, steerFrom := s.ns
    loopInt := t.rateOfs * loopUnit, loopNs := none })

/-- The highest-priority listed source that is valid. -/
def pickSource (s : State) : Option Nat :=
  (s.tim.mode.srcList.map (·.toNat)).find? fun c => (nth s.tim.srcs c).valid

/-- R50, R58: from HOLDOVER or UNLOCKED the phase keeper takes a valid listed source. -/
def selectSource (s : State) : State :=
  if s.tim.st = .holdover ∨ s.tim.st = .unlocked then
    match pickSource s with
    | none => s
    | some c =>
      let was := s.tim.st
      let s := enterSource c false s
      if was = .holdover then timRaise 0x10 (s.onTim fun t => { t with refSwitchCnt := sat t.refSwitchCnt }) else s
  else s

/-- Mean rate of the last 16 periods before the first missing sample (R57), rounded. With fewer than 16 recorded it is the mean
of those there are, and the rate in force with none; a steering source, which misses no sample by R62, has its last 16 periods
counted back from its timeout (DESIGN CHOICE, notes/assumptions/114.md). -/
def heldRate (t : Tim) : Int :=
  let h := if t.lossPeriods = 0 then t.rateHist else t.missHist
  if h.isEmpty then t.rateOfs else roundDiv h.sum h.length

/-- The active source is lost: HOLDOVER at the held rate (R56, R57), and a valid listed source is then selected (R58). -/
def loseSource (s : State) : State :=
  let code := s.tim.src.toNat
  let s := (setRate (heldRate s.tim) s).onTim fun t => { t with
    holdoverCnt := sat t.holdoverCnt, lossPeriods := 0, stepNext := false, graced := false, holdFrom := s.ns
    srcs := upd t.srcs code fun x => { x with valid := false, goodPeriods := 0, badPeriods := 0 } }
  selectSource (timRaise 0x2 (goPhase .holdover 0 s))

/-- The active source of ACQUIRING or LOCKED. -/
def sourceActive (s : State) : Bool := s.tim.st == .acquiring || s.tim.st == .locked

/-- REF_LOSS: ref-loss-limit periods have passed without a valid sample of the active edge source. -/
def execRefLoss (s : State) : Host.Outcome State Fault Refusal :=
  .next (if s.live && sourceActive s && isEdgeSrc s.tim.src.toNat && s.tim.mode.refLossLimit ≤ s.tim.lossPeriods
    then loseSource s else s)

/-- The holdover limit, unless it is 0 for none, has expired (R60). -/
def holdoverOver (s : State) : Bool :=
  s.tim.mode.holdoverS != 0 && decide (s.tim.holdFrom + s.tim.mode.holdoverS * 1000000000 ≤ s.ns)

/-- HOLDOVER_EXPIRE: the holdover limit expires (R60). -/
def execHoldoverExpire (s : State) : Host.Outcome State Fault Refusal :=
  .next (if s.live && s.tim.st == .holdover && holdoverOver s then timRaise 0x4 (goPhase .unlocked 0 s) else s)

/-- The steering timeout has passed since the last PHASE_STEER, or since the source was selected (R63). -/
def steerOver (s : State) : Bool := decide (s.tim.steerFrom + s.tim.mode.steerMs * 1000000 ≤ s.ns)

/-- STEER_TIMEOUT: no PHASE_STEER within the steering timeout; the steering source is lost (R63). -/
def execSteerTimeout (s : State) : Host.Outcome State Fault Refusal :=
  .next (if s.live && sourceActive s && s.tim.src == 2 && steerOver s then timRaise 0x20 (loseSource s) else s)

/-- The commit that has applied and whose completion reply SETTLE owes; none while it still awaits its boundary. -/
def Tim.applied (t : Tim) : Option Held := if t.commitMode.isSome then none else t.commit

/-- The applied commit is answered; one that awaits its boundary stays. -/
def Tim.answered (t : Tim) : Tim := { t with commit := if t.commitMode.isSome then t.commit else none }

/-- SETTLE has lasted its limit without lock (R87). A phase keeper that is LOCKED and awaits the boundary that ends SETTLE by R86 has
met the limit (DEDUCED, notes/assumptions/114.md). -/
def settleOver (s : State) : Bool :=
  s.tim.settle && !s.tim.settleExpired && s.tim.st != .locked && decide (s.tim.settleFrom + s.tim.mode.settleMs * 1000000 ≤ s.ns)

/-- LOCK_TIMEOUT: the settle limit expires before lock; the ports stay dark until a further commit (R87). -/
def execLockTimeout (s : State) : Host.Outcome State Fault Refusal :=
  .next (if s.live && settleOver s then
    let h := s.tim.applied
    let s := s.onTim fun t => { Tim.answered t with settleExpired := true, lockTimeoutCnt := sat t.lockTimeoutCnt }
    completeOpt h .lockTimeout 0 (timRaise 0x8 s)
  else s)

/-- R61: the timebase or the crystal clock monitor reports a fault. The source is lost to the phase keeper, and the picture
path stops until a further commit. -/
def timebaseFault (s : State) : State :=
  followMarks (timRaise 0x40 (goPhase .unlocked 0 (s.onTim fun t => { t with
    timebaseFault := true, stepNext := false, graced := false })))

/-! ## Source validity (R49) -/

/-- An edge of a source is spaced from the one before by the expected interval within the pull range plus the lock
threshold. -/
def wellSpaced (code : Nat) (s : State) (ns : Nat) : Bool :=
  match (nth s.tim.srcs code).lastNs with
  | none => false
  | some t =>
    let m := srcM code s.tim.mode
    let d := ((ns - t) * s.rn * m : Nat)
    let e := s.rd * 1000000000
    (if d < e then e - d else d - e) * 1000 ≤ e + s.tim.mode.lockThrNs * s.rn * m * 1000

/-- An edge of a source is counted, and the source is valid when it has delivered all its m edges, so spaced, in each of 3
consecutive periods. -/
def noteEdge (code ns : Nat) (ok : Bool) (s : State) : State :=
  s.onTim fun t => { t with srcs := upd t.srcs code fun x =>
    let n := if ok then x.edges + 1 else x.edges
    { x with lastNs := some ns, edges := n, valid := x.valid || (ok && n == srcM code t.mode && 2 ≤ x.goodPeriods) } }

/-- At a boundary each source's period is judged; a source that R84 counts as valid stays so. -/
def endSrcPeriod (m : TimMode) (graced : Bool) (code : Nat) (x : SrcState) : SrcState :=
  if isEdgeSrc code then
    let good := if srcM code m ≤ x.edges then x.goodPeriods + 1 else 0
    let bad := if x.edges = 0 then x.badPeriods + 1 else 0
    { x with goodPeriods := good, badPeriods := bad, edges := 0, valid := x.valid && (graced || bad < m.refLossLimit) }
  else x

/-- The phase keeper's part of a period's end: loss counts (R56), the rate history (R57), source validity (R49). The first missing
sample of R57 is taken to lie in the first period with no sample at all, where a source with m > 1 may have missed one in a period
that had others (DESIGN CHOICE, notes/assumptions/114.md). -/
def endPhasePeriod (s : State) : State :=
  let t := s.tim
  let track := sourceActive s && isEdgeSrc t.src.toNat
  let loss := if track then (if t.sampleSeen then 0 else t.lossPeriods + 1) else 0
  let s := s.onTim fun t => { t with
    lossPeriods := loss, sampleSeen := false
    missHist := if loss = 1 then t.rateHist else t.missHist
    rateHist := (meanRate s.ns t :: t.rateHist).take 16, rateSum := 0, rateFrom := s.ns, boundNs := s.ns
    srcs := Vector.ofFn fun i => endSrcPeriod t.mode (t.graced && t.src.toNat == i.val) i.val t.srcs[i] }
  if track && t.mode.refLossLimit ≤ loss then s.raise .refLoss else s

/-! ## Cameras (R65 to R76) -/

/-- Signed distance, in 2^-40 tk, from the expected phase e to the phase ph, the shorter way round. -/
def phaseDist (ph : BitVec 64) (e : Nat) : Int := (ph - BitVec.ofNat 64 (e * 1099511627776)).toInt

/-- The expected tick nearest to a phase, and the distance from it. -/
def nearest (ph : BitVec 64) : List Nat → Nat × Int
  | [] => (0, phaseDist ph 0)
  | [e] => (e, phaseDist ph e)
  | e :: es =>
    let r := nearest ph es
    if (phaseDist ph e).natAbs ≤ r.2.natAbs then (e, phaseDist ph e) else r

/-- A distance in 2^-40 tk exceeds a limit in ns. -/
def beyondNs (s : State) (d : Int) (ns : Nat) : Bool :=
  ns * s.rn * 18446744073709551616 < d.natAbs * s.rd * 1000000000

/-- A distance in 2^-40 tk as ns, rounded (R568). -/
def distNs (s : State) (d : Int) : Int := roundDiv (d * (s.rd * 1000000000 : Nat)) (s.rn * 18446744073709551616)

/-- One period in 2^-40 tk. -/
def periodQ : Nat := 18446744073709551616

/-- The tick of a position in 2^-40 tk, rounded, modulo the period. -/
def qToTick (x : Int) : Nat := ((roundDiv x 1099511627776) % 16777216).toNat

/-- A camera enters LOST (R73). -/
def loseCam (c : Nat) (s : State) : State :=
  timRaise (bit1 20 (8 + c)) (s.onCam c fun x => { x with mode := .lost, predValid := false, lostCnt := sat x.lostCnt, goodPeriods := 0 })

/-- CAM_OPEN_EDGE_MISSING: no open edge of camera c by the predicted start plus the outlier limit (R71 to R73). In every state but
OFF it is counted, and at the miss limit the camera enters LOST. -/
def execCamOpenEdgeMissing (c : Fin 4) (s : State) : Host.Outcome State Fault Refusal :=
  .next (if !s.live || (s.cam c.val).mode == .off then s
    else
      let s := s.onCam c.val fun x => { x with
        miss := x.miss + 1, missCnt := sat x.missCnt, badSeen := true, mode := if x.seen then .coasting else x.mode }
      if (s.cam c.val).mode != .lost && decide ((nth s.tim.mode.cams c.val).missLimit ≤ (s.cam c.val).miss) then loseCam c.val s
      else s)

/-- A rejected edge (R68). -/
def rejectEdge (c : Nat) (s : State) : State :=
  timRaise (bit1 20 (16 + c)) (s.onCam c fun x => { x with rejectCnt := sat x.rejectCnt })

/-- The window-0 start that an open edge sets directly: its nearest nominal window taken back to window 0 (R75). -/
def firstPred (cfg : CamCfg) (ph : BitVec 64) : Int :=
  let e := (nearest ph (windowStarts cfg.m cfg.nomOfs.toNat)).1
  ((ph.toNat : Int) - (((e + 16777216 - cfg.nomOfs.toNat) % 16777216) * 1099511627776 : Nat)) % (periodQ : Int)

/-- An open edge of camera c (R67, R68, R72, R75): the state, and whether the edge is good. The predicted length starts from NOM_LEN
at the first open edge, before any close edge has been measured, and TIM_CAMc_JITTER counts the edges that are judged against a
prediction and accepted, not those of ACQUIRING or LOST (both DESIGN CHOICE, notes/assumptions/114.md). -/
def camOpen (c : Nat) (e : CamEdge) (s : State) : State × Bool :=
  let x := s.cam c
  let cfg := nth s.tim.mode.cams c
  let set (s : State) := s.onCam c fun x => { x with lastOpen := some e }
  if !x.predValid then
    (set (s.onCam c fun x => { x with
      predStart := firstPred cfg e.phase, predLen := (cfg.nomLen.toNat : Int) * 1099511627776, predValid := true
      openSeen := x.openSeen + 1, miss := 0 }), true)
  else
    let d := (nearest e.phase (windowStarts cfg.m (qToTick x.predStart))).2
    if !x.away && beyondNs s d cfg.outlierNs then (set (rejectEdge c s), false)
    else
      (set (s.onCam c fun x => { x with
        predStart := (x.predStart + roundDiv d (2 ^ cfg.filterK)) % (periodQ : Int), openSeen := x.openSeen + 1
        devs := if x.away then x.devs else (distNs s d :: x.devs).take 64
        miss := 0
        mode := if x.mode = .coasting then .tracking else x.mode }), true)

/-- Absolute time of an edge in 2^-40 tk. -/
def CamEdge.abs (e : CamEdge) : Int := e.frame.toInt * periodQ + (e.phase.toNat : Int)

/-- The edge in the ticks of a count that has stepped by d, in 2^-40 tk. -/
def CamEdge.shift (d : Int) (e : CamEdge) : CamEdge :=
  { e with frame := BitVec.ofInt 64 ((CamEdge.abs e + d) / (periodQ : Int))
           phase := BitVec.ofInt 64 ((CamEdge.abs e + d) % (periodQ : Int)) }

/-- A close edge of camera c (R67, R68). -/
def camClose (c : Nat) (e : CamEdge) (s : State) : State :=
  let x := s.cam c
  let cfg := nth s.tim.mode.cams c
  match x.lastOpen with
  | none => s
  | some o =>
    if !x.predValid then s
    else
      let d := CamEdge.abs e - CamEdge.abs o - x.predLen
      if !x.away && beyondNs s d cfg.outlierNs then rejectEdge c s
      else s.onCam c fun x => { x with predLen := x.predLen + roundDiv d (2 ^ cfg.filterK) }

/-- The guarded windows of a camera from its prediction (R67, R70). -/
def guardedWindows (cfg : CamCfg) (x : CamState) : List (Nat × Nat) :=
  (windowStarts cfg.m (qToTick x.predStart)).map fun w =>
    ((w + 16777216 - cfg.guard.toNat) % 16777216,
     min ((roundDiv x.predLen 1099511627776).toNat + 2 * cfg.guard.toNat) 16777216)

/-- The prediction of camera c is frozen for the next period (R69), and with it whether the camera takes part in the check of R79. -/
def freezeCam (c : Nat) (s : State) : State :=
  let cfg := nth s.tim.mode.cams c
  s.onCam c fun x =>
    if x.predValid then { x with
      frozenStart := BitVec.ofNat 24 (qToTick x.predStart), frozenLen := BitVec.ofNat 24 (roundDiv x.predLen 1099511627776).toNat
      winNext := guardedWindows cfg x, seenNext := x.seen }
    else { x with winNext := [], seenNext := false }

/-! ## Window check (R79) -/

/-- The slots of a list that fail R79 against the windows frozen for the period that begins, with the camera concerned, under
the camera settings of the freeze. A camera that was not TRACKING or COASTING at the freeze takes no part. -/
def conflictsOf (m : TimMode) (xs : List Slot) (s : State) : List (Nat × Nat) :=
  (timed 0 0 xs).flatMap fun t =>
    let x := t.2.2
    if !x.reads then []
    else ((List.range 4).filter fun c =>
      let cam := s.cam c
      let cfg := nth m.cams c
      cam.seenNow && windowFail (camOfView x.view.toNat s == some c) t.2.1 x.dur.toNat
        (windowStarts cfg.m cam.frozenStart.toNat) cam.frozenLen.toNat cfg.guard.toNat).map fun c => (t.1, c)

/-- WINDOW_FREEZE: the predictions are frozen once a period. The slots that the coming period turns out to run are checked
against the frozen windows (conflictsOf, at the boundary that starts them). -/
def execWindowFreeze (s : State) : Host.Outcome State Fault Refusal :=
  .next (if s.live && !s.tim.frozen then forN 4 freezeCam (s.onTim fun t => { t with frozen := true }) else s)

/-- The cameras' part of a period's end: acquisition (R75), fallback (R74), and the frozen windows come into force. A LOST camera whose
edges return reads LOST, not ACQUIRING, until it enters TRACKING; R71's table leaves this open (DESIGN CHOICE,
notes/assumptions/114.md). -/
def endCamPeriod (s : State) : State :=
  forN 4 (fun c s =>
    let cfg := nth s.tim.mode.cams c
    s.onCam c fun x =>
      let good := if x.away then (if cfg.m ≤ x.openSeen && !x.badSeen then x.goodPeriods + 1 else 0) else 0
      let back := x.away && cfg.reacq ≤ good
      let mode := if back then .tracking else x.mode
      { x with mode := mode, goodPeriods := if back then 0 else good, miss := if back then 0 else x.miss
               openSeen := 0, badSeen := false, winNow := x.winNext, winNext := [], seenNow := x.seenNext, seenNext := false
               fellBack := mode == .lost || mode == .acquiring }) s

end Sys2Proof.Machine
end

