-- ==== Sys2Proof/Machine/Light.lean ====
section
/-!
DEFINITION. What the sequencer and the illumination controller share: the settings that await the next boundary, the target
tables of R150, the time a table change needs (R158), and the choice among active sequence and fallbacks (R120).
-/
namespace Sys2Proof.Machine

/-! ## Settings that await a boundary -/

/-- SEQ_PORT_SET's effect on its port. -/
def putPortSet (h : Held) (s : State) : State :=
  let b := Cmd.payload h.cmd
  (s.onPort h.cmd.tindex.toNat fun q => { q with
    enable := bitOf (u8 b 0) 0, linkSet := BitVec.ofNat 4 (u8 b 1), settleNs := u16 b 2, leadNs := u16 b 4 }).onIll fun i => { i with
      rebuild := true }

/-- ILL_DEVICE_SET's effect on its driver; a change of PORT or GROUP increments the role epoch. -/
def putDeviceSet (h : Held) (s : State) : State :=
  let b := Cmd.payload h.cmd
  let port : Option (BitVec 2) := if u8 b 0 = 0xFF then none else some (BitVec.ofNat 2 (u8 b 0))
  let group := BitVec.ofNat 2 (u8 b 1)
  s.onIll fun i => { i with rebuild := true, drivers := upd i.drivers h.cmd.tindex.toNat fun d => { d with
    epoch := if d.port == port && d.group == group then d.epoch else d.epoch + 1
    port := port, group := group, baseNom := Vector.ofFn fun k => BitVec.ofNat 16 (u16 b (4 + 2 * k.val)) } }

/-- ILL_WEIGHT_SET's effect on its group; entry 0 stays 0. -/
def putWeightSet (h : Held) (s : State) : State :=
  let b := Cmd.payload h.cmd
  s.onIll fun i => { i with rebuild := true, groups := upd i.groups h.cmd.tindex.toNat fun g => { g with
    primary := BitVec.ofNat 3 (u8 b 0)
    weight := Vector.ofFn fun k => if k.val = 0 then 0 else BitVec.ofNat 16 (u16 b (2 * k.val)) } }

/-- The boundary that a held command awaits is the one at which TIM_FRAME becomes f. -/
def dueAt (f : BitVec 64) (h : Held) : Bool := match h.due with | none => true | some d => d == f.truncate 32

/-- The pending settings that bear on combinations, weights and sequences have applied. -/
def putPending (h : Held) (s : State) : State :=
  if h.opcode = 0x0200 then putPortSet h s
  else if h.opcode = 0x0301 then putDeviceSet h s
  else if h.opcode = 0x0302 then putWeightSet h s
  else s

/-- The port has taken the commit that awaits its boundary. -/
def takeCommit (q : Port) : Port :=
  match q.commitSeqs with
  | some x => { q with seqs := x, allBlack := false }
  | none => q

/-- The state as the boundary at which TIM_FRAME becomes f will find its sequences and light settings, by the commands
accepted so far. -/
def aheadOf (f : BitVec 64) (s : State) : State :=
  let s := (s.hif.deferred.filter (dueAt f)).foldl (fun s h => putPending h s) s
  let takes (q : Port) : Bool := q.commitSeqs.isSome && match q.commit with | some h => dueAt f h || q.commitDue | none => false
  let s := s.onIll fun i => { i with rebuild := i.rebuild || s.seq.ports.toList.any takes }
  forN 4 (fun p s => s.onPort p fun q => if takes q then takeCommit q else q) s

/-- The state as the next boundary will find it. -/
def ahead (s : State) : State := aheadOf (s.frame + 1) s

/-- The SEQ_PORT_SETs that await any boundary have applied (R111: they count for validation). -/
def withPortSets (s : State) : State :=
  s.hif.deferred.foldl (fun s h => if h.opcode = 0x0200 then putPortSet h s else s) s

/-! ## Code map and target tables (R149, R150) -/

/-- The port that stands for the link set whose ports have members, if any. -/
def litPort (s : State) : Option Nat := (List.range 4).find? fun p => (s.port p).enable && hasMembers p s

/-- Held combinations in force or asked for. -/
def wantedHeld (s : State) : List Combo :=
  heldCombos s ++ (List.range 4).filterMap fun p => ((s.port p).hold.req).map fun r => heldCombo p r.entry

/-- The code map of the sequences and settings in force, with the held combinations given. -/
def mapWith (held : List Combo) (s : State) : List Combo := match litPort s with | some p => codeMap p held s | none => []

/-- A held combination has no code in the map in force. -/
def heldMissing (s : State) : Bool := (wantedHeld s).any fun x => addCombo s.ill.map x != s.ill.map

/-- The code map that the target tables are built for. It is rebuilt whenever a commit, a weight change or a group change has taken
effect (R149), and, by the model's choice (notes/assumptions/115.md), after a SEQ_PORT_SET and for a held combination that the map in
force lacks. -/
def mapOf (s : State) : List Combo := if s.ill.rebuild || heldMissing s then mapWith (wantedHeld s) s else s.ill.map

/-- SEQ_CODES: the nonzero combinations in force; a held one counts from the instant its hold mode is in force (R108). -/
def countCodes (s : State) : State :=
  s.onSeq fun q => { q with codes := BitVec.ofNat 6 (mapWith (heldCombos s) s).length }

/-- The target table of driver i under a code map. -/
def targetOf (m : List Combo) (i : Nat) (s : State) : Vector (BitVec 16) 64 :=
  let d := nth s.ill.drivers i
  match d.port with
  | none => Vector.replicate 64 0
  | some p =>
    let g := 4 * p.toNat + d.group.toNat
    let w := (nth s.ill.groups g).weight
    Vector.ofFn fun c => if c.val = 0 then 0 else
      match m[c.val - 1]? with
      | some x => nth w (x.getD g 0).toNat
      | none => 0

/-- The target tables are built for the coming boundary. -/
def retarget (s : State) : State :=
  let a := ahead s
  let m := mapOf a
  s.onIll fun i => { i with mapNext := m, drivers := Vector.ofFn fun k => { i.drivers[k] with target := targetOf m k.val a } }

/-- The same with a command just accepted among those that await their boundary. -/
def retargetWith (h : Held) (s : State) : State :=
  (retarget (s.onHif fun x => { x with deferred := x.deferred ++ [h] })).onHif fun x => { x with deferred := s.hif.deferred }

/-- The drivers found on a chain. -/
def chainDrivers (c : Nat) (s : State) : List Nat := (List.range (s.chain c).n).map fun d => c * 32 + d

/-- The chain sends frames. -/
def chainRuns (c : Nat) (s : State) : Bool := (s.chain c).st == .run

/-- The active and the inactive table of a driver. -/
def activeTab (d : Driver) : Vector (BitVec 16) 64 := if d.tab then d.tabB else d.tabA
def inactiveTab (d : Driver) : Vector (BitVec 16) 64 := if d.tab then d.tabA else d.tabB

/-- Count of entries in which two tables differ. -/
def tabDiff (a b : Vector (BitVec 16) 64) : Nat := ((List.range 64).filter fun i => nth a i != nth b i).length

/-- One frame of a chain of n devices, ns (R143). -/
def frameNs (n : Nat) : Nat := (40 * n + 3) * 20

/-- An enabled chain: ILL_CHAIN_SET re-enables one in FAULT (R152). -/
def chainEnabled (c : Nat) (s : State) : Bool := !((s.chain c).st == .off || (s.chain c).st == .fault)

/-- The time of R158 for a change to the tables of a state: n + 10 frames of the slowest enabled chain. -/
def tableNs (target : Nat → Vector (BitVec 16) 64) (s : State) : Nat :=
  ((List.range 4).map fun c =>
    if chainEnabled c s then
      let n := ((chainDrivers c s).map fun k => tabDiff (target k) (inactiveTab (nth s.ill.drivers k))).foldl max 0
      (n + 10) * frameNs (s.chain c).n
    else 0).foldl max 0

/-- The time that a distance in 2^-40 tk takes at the rate in force, ns, rounded down. -/
def qToNs (q : Int) (s : State) : Int :=
  q * (s.rd * 1000000000000000000 : Nat) / ((s.rn * periodQ : Nat) * (1000000000 + s.tim.rateOfs))

/-- Time from now to the boundary at which TIM_FRAME becomes f, ns, rounded down. -/
def nsToFrame (f : BitVec 64) (s : State) : Nat := (qToNs ((f - s.frame).toNat * periodQ - s.phase.toNat) s).toNat

/-- The boundary that a command accepted now awaits. -/
def boundaryOf (c : Cmd) (s : State) : BitVec 64 :=
  if Cmd.isApplyAt c then s.frame + ((c.applyAt - s.frame.truncate 32).setWidth 64) else s.frame + 1

/-- BUSY by R158: the command, in the candidate state, would change the target tables, and less time than that needs
remains before its boundary. -/
def tableBusy (c : Cmd) (cand s : State) : Option Refuse :=
  let f := boundaryOf c s
  let a := aheadOf f cand
  let m := mapOf a
  let b := aheadOf f s
  let m0 := mapOf b
  let changed := (List.range 128).any fun k => targetOf m k a != targetOf m0 k b
  busyIf (changed && nsToFrame f s < tableNs (fun k => targetOf m k a) s)

/-! ## The choice of R120 -/

/-- The THROTTLE trigger: the die throttle as the selection point found it (R521). -/
def throttleTrig (s : State) : Bool := (s.seq.throttleSel).getD s.thm.throttle

/-- The camera-bound views that the active sequences of a link set show. -/
def camViews (p : Nat) (s : State) : List Nat :=
  (List.range 5).filter fun v => (camOfView v s).isSome &&
    (setOf p s).any fun q => match (s.port q).seq 0 with
      | some xs => xs.any fun x => x.reads && x.view.toNat == v
      | none => false

/-- The CAMLOST trigger, by the cameras that have fallen back. -/
def camLostTrig (back : Nat → Bool) (p : Nat) (s : State) : Bool :=
  let vs := camViews p s
  !vs.isEmpty && vs.all fun v => match camOfView v s with | some c => back c | none => false

/-- The LANE7 trigger: an octet of a port of the set runs 7 lanes, or restripes to 7 at this boundary. -/
def lane7Trig (p : Nat) (s : State) : Bool := (setOf p s).any fun q => anySeven q s

/-- The kind that a port runs by R120; none when the set is dark for want of a LANE7 fallback. -/
def pickKind (back : Nat → Bool) (p : Nat) (s : State) : Option Nat :=
  if lane7Trig p s then (if setHolds p 1 s then some 1 else none)
  else if throttleTrig s && setHolds p 2 s then some 2
  else if camLostTrig back p s && setHolds p 3 s then some 3
  else some 0

end Sys2Proof.Machine
end

