-- ==== Sys2Proof/Machine/Sequencer.lean ====
section
/-!
DEFINITION. The sequencer (spec/03): its commands, the selection point, re-validation (R114), the planes of the running and
the coming period, and the commits and kinds that a boundary applies.
-/
namespace Sys2Proof.Machine

/-! ## Commands -/


def specSeqPortSet : OpSpec where
  op := 0x0200
  cls := [clsPort]
  len := lenIs 8
  owners := ownTarget
  boundary := true
  check c _ :=
    let b := Cmd.payload c
    checks [rsvBits c 0 0xFE, badAt c 1 (16 ≤ u8 b 1 || !(bitOf (u8 b 1) c.tindex.toNat)), badAt c 2 (20000 < u16 b 2),
      badAt c 4 (10000 < u16 b 4), rsv c 6 2]
  effect h s := { st := retargetWith h s }
  apply h s := putPortSet h s

/-- BUSY while the domain of the port that a command configures is not called for (R30). A domain that waits for its turn only
delays the command (R513), and comes up in the reset state that the port is in. -/
def portOff (c : Cmd) (s : State) : Option Refuse := busyIf (!(wantsPort c.tindex.toNat s))

def specSeqLoad : OpSpec where
  op := 0x0201
  cls := [clsPort]
  len l := 8 ≤ l
  shape c := Cmd.len c == 8 + 16 * u16 (Cmd.payload c) 2
  owners := ownTarget
  check c s :=
    let b := Cmd.payload c
    checks [portOff c s, badAt c 0 (3 < u8 b 0), rsv c 1 1, badAt c 2 (4096 < u16 b 2 || (u16 b 2 == 0 && u8 b 0 == 0)),
      rsv c 4 4, slotBad c 8 (u16 b 2)]
  effect h s :=
    let b := Cmd.payload h.cmd
    let xs := if u16 b 2 = 0 then none else some (parseSlots b 8 (u16 b 2))
    { st := s.onPort h.cmd.tindex.toNat fun q => { q with shadow := upd q.shadow (u8 b 0) fun _ => xs } }

/-- The ports of a SEQ_COMMIT's mask. -/
def commitMask (c : Cmd) : List Nat := bitsOf 4 (u8 (Cmd.payload c) 0)

/-- The state with the sequences of a commit in place of those in force. -/
def withSeqs (ports : List Nat) (f : Port → Vector (Option (List Slot)) 4) (s : State) : State :=
  ports.foldl (fun s p => s.onPort p fun q => { q with seqs := f q, allBlack := false }) s

/-- The ports that a commit validates, ascending: its own, and those of their link sets that hold sequences (R113). -/
def commitPorts (ports : List Nat) (s : State) : List Nat :=
  (List.range 4).filter fun q => ports.contains q ||
    ((s.port q).seqs.toList.any (·.isSome) && ports.any fun p => (setOf p s).contains q)

def specSeqCommit : OpSpec where
  op := 0x0202
  cls := [clsPortset]
  len := lenIs 4
  owners := ownPortMask
  boundary := true
  check c s :=
    let ports := commitMask c
    let cand := withSeqs ports (·.shadow) (withPortSets s)
    let staged := ports.foldl (fun s p => s.onPort p fun q => { q with commitSeqs := some q.shadow, commit := some { cmd := c, due := if Cmd.isApplyAt c then some c.applyAt else none } }) s
    checks [rsvBits c 0 0xF0, rsv c 1 3, busyIf (ports.any fun p => (s.port p).commitSeqs.isSome),
      commitFail (commitPorts ports cand) cand, tableBusy c staged s]
  late := true
  recheck := some fun h s =>
    let ports := commitMask h.cmd
    let cand := withSeqs ports (fun q => q.commitSeqs.getD q.seqs) (withPortSets s)
    commitFail (commitPorts ports cand) cand
  effect h s :=
    let s := (commitMask h.cmd).foldl (fun s p => s.onPort p fun q => { q with commitSeqs := some q.shadow, commit := some h, commitDue := false }) s
    { st := retarget s, status := .accepted }
  apply h s := (commitMask h.cmd).foldl (fun s p => s.onPort p fun q => { q with commitDue := true }) s

def specSeqDriveSet : OpSpec where
  op := 0x0203
  cls := [clsPort]
  len := lenIs 128
  owners := ownTarget
  boundary := true
  check c s := checks [portOff c s, badAt c 0 (u16 (Cmd.payload c) 0 != 0)]
  apply h s := s.onPort h.cmd.tindex.toNat fun q => { q with
    driveTab := Vector.ofFn fun i => BitVec.ofNat 16 (u16 (Cmd.payload h.cmd) (2 * i.val)) }

/-- The request of a HOLD_SET payload; SPLIT is ignored. -/
def parseHold (b : List Byte) : HoldReq :=
  let p := u16 b 0
  let e := u32 b 4
  { view := BitVec.ofNat 3 p, colour := BitVec.ofNat 3 (field p 3 3), bit := BitVec.ofNat 4 (field p 6 4)
    fofs := BitVec.ofNat 2 (field p 14 2), level := u16 b 2
    entry := Vector.ofFn fun g => BitVec.ofNat 6 (field e (6 * g.val) 6), drive := BitVec.ofNat 6 (u8 b 8) }

/-- The ranks in self-refresh start their exit (R418). -/
def wakeMemory (s : State) : State :=
  forN 4 (fun r s => if (nth s.mem.ranks r).power == 2 then s.raise (.selfRefreshExit (Fin.ofNat 4 r)) else s) s

/-- Back-to-back framing resumes with a preamble, unless it runs already or stopped at this instant (R297). -/
def resumeLink (p : Nat) (s : State) : State :=
  let h := (s.port p).hold
  if h.reloading || !h.reloadAts.isEmpty then s else s.onLink p fun l => { l with
    resume := l.resume || (l.allot.kaBurst && decide (l.stopNs < s.ns)) }

/-- In hold, an event of R129 or a health hold (R309) asks for a reload: the memory starts to wake and the link resumes framing. -/
def askReload (p : Nat) (s : State) : State :=
  wakeMemory ((resumeLink p s).onPort p fun q => { q with hold := { q.hold with reloadAts := q.hold.reloadAts ++ [s.ns] } })

/-- The plane named by a hold request could be named by no slot: view, binding, colour or frame offset. -/
def holdPlaneBad (r : HoldReq) (s : State) : Bool :=
  let v := r.view.toNat
  4 < v || (nth s.tim.bind v).toNat == 5 || !(produces v r.colour.toNat s) || framesOf v s ≤ r.fofs.toNat

def specHoldSet : OpSpec where
  op := 0x0204
  cls := [clsPort]
  len := lenIs 12
  owners := ownTarget
  check c s :=
    let b := Cmd.payload c
    let p := c.tindex.toNat
    let q := s.port p
    let r := parseHold b
    checks [badAt c 2 (1024 < u16 b 2), badAt c 4 (u8 b 7 != 0), rsvBits c 8 0xC0, rsv c 9 3,
      busyIf (s.thm.shutdown || q.hold.cmd.isSome),
      badAny (setOf p s != [p] || !(hasMembers p s)),
      badAt c 0 ((camOfView r.view.toNat s).isSome || holdPlaneBad r s),
      badAny (!(q.slots.any (·.holdBreak))),
      badAt c 4 (63 < (codeMap p [heldCombo p r.entry] s).length),
      badAt c 0 (q.hold.on && (r.view != q.hold.view || r.fofs != q.hold.fofs))]
  effect h s :=
    let p := h.cmd.tindex.toNat
    let r := parseHold (Cmd.payload h.cmd)
    let q := (s.port p).hold
    let s := s.onPort p fun q => { q with hold := { q.hold with req := some r, cmd := some h, reqTk := absTick s, breakSeen := false } }
    let s := if q.on && (r.colour != q.colour || r.bit != q.bit) then askReload p s else s
    { st := retarget s, status := .accepted }

def specHoldExit : OpSpec where
  op := 0x0205
  cls := [clsPort]
  len := lenIs 0
  owners := ownTarget
  check c s := busyIf (!(s.port c.tindex.toNat).hold.on || (s.port c.tindex.toNat).hold.cmd.isSome)
  effect h s :=
    { st := (s.onPort h.cmd.tindex.toNat fun q => { q with hold := { q.hold with exiting := true, cmd := some h } }).onFab
        fun f => { f with stopped := false }
      status := .accepted }

def execSeqPortSet (cmd : Cmd) (s : State) : Host.Outcome State Fault Refusal := .next (accept specSeqPortSet cmd s)
def execSeqLoad (cmd : Cmd) (s : State) : Host.Outcome State Fault Refusal := .next (accept specSeqLoad cmd s)
def execSeqCommit (cmd : Cmd) (s : State) : Host.Outcome State Fault Refusal := .next (accept specSeqCommit cmd s)
def execSeqDriveSet (cmd : Cmd) (s : State) : Host.Outcome State Fault Refusal := .next (accept specSeqDriveSet cmd s)
def execHoldSet (cmd : Cmd) (s : State) : Host.Outcome State Fault Refusal := .next (accept specHoldSet cmd s)
def execHoldExit (cmd : Cmd) (s : State) : Host.Outcome State Fault Refusal := .next (accept specHoldExit cmd s)

/-- Slot k is to load another plane: what has been fetched for it is discarded, and it leaves anew from its first row. -/
def loadAnew (k : Nat) (q : Port) : Port :=
  { q with
    rows := q.rows.filter fun x => x.1 < k, started := q.started.filter fun x => x.1 < k
    fetchSlot := min q.fetchSlot k, fetchRow := if k ≤ q.fetchSlot then 0 else q.fetchRow
    sendRow := if q.sendSlot = k then 0 else q.sendRow }

/-- HOLD_TIMEOUT: no HOLD_BREAK slot has ended within two periods of acceptance (R125). -/
def execHoldTimeout (p : Fin 4) (s : State) : Host.Outcome State Fault Refusal :=
  .next (let q := s.port p.val
    if q.hold.req.isSome && !q.hold.on && decide (q.hold.reqTk + 2 * periodTk ≤ absTick s) then
      let h := q.hold.cmd
      let s := s.onPort p.val fun q =>
        let q := if q.hold.breakSeen then loadAnew (q.slot.toNat + 1) q else q
        { q with hold := { q.hold with req := none, cmd := none, breakSeen := false } }
      retarget (completeOpt h .timeout 0 (seqRaise p.val 0x200 s))
    else s)

/-! ## The coming period -/

/-- The kind that a port runs in a state, for the cameras that have fallen back; the kind in force when the set is dark. -/
def kindIn (back : Nat → Bool) (s : State) (p : Nat) : Nat := (pickKind back p s).getD (s.port p).kind.toNat

/-- A port as it leaves hold, with the commit that awaits that (R132). -/
def exitPort (p : Nat) (s : State) : State :=
  s.onPort p fun q =>
    let q := if q.commitDue then takeCommit q else q
    { q with hold := {} }

/-- What the sequence shows with which the port leaves hold. -/
def exitShows (p : Nat) (s : State) : List (Nat × Nat × Nat) :=
  let c := exitPort p s
  let k := kindIn (backNow c) c p
  showsOf (backNow c) k c ((c.port p).slotsOf k)

/-- SELECTION_POINT: completeness is tested and frames are selected for the coming period, once, for all ports, from the
commands accepted and the trigger states at this instant (R118, R256, R257). -/
def selectNext (s : State) : State :=
  let s := s.onSeq fun q => { q with throttleSel := some s.thm.throttle }
  let s := s.onSeq fun q => { q with bufsAt := some (s.slc.stores.toList.map (·.bufs)) }
  let a := ahead s
  let sel := selectAll (backThen a) (kindIn (backThen a) a) (s.frame.toNat + 1) a
  forN 4 (fun p s => s.onPort p fun q => if q.enable && !q.hold.on then { q with selNext := some sel } else q) s

/-- The selection for the coming period has been made. -/
def selMade (s : State) : Bool := (List.range 4).any fun p => (s.port p).selNext.isSome

def execSelectionPoint (s : State) : Host.Outcome State Fault Refusal :=
  .next (if s.live && !s.thm.shutdown && !(selMade s) then selectNext s else s)

/-- The slots of a port in the coming period, and their kind, as things stand. -/
def nextSlots (p : Nat) (s : State) : List Slot × Nat :=
  let a := ahead s
  let k := kindIn (backThen a) a p
  ((a.port p).slotsOf k, k)

/-- Slot k of a port; an index from the slot count on belongs to the next period. -/
def slotAt (p k : Nat) (s : State) : Option Slot :=
  let xs := (s.port p).slots
  if k < xs.length then xs[k]? else (nextSlots p s).1[k - xs.length]?

/-- The plane of slot k of a port. -/
def planeAt (p k : Nat) (s : State) : PlaneId :=
  let q := s.port p
  let n := q.slots.length
  if k < n then
    match q.slots[k]? with
    | some x => planeOf (backNow s) q.kind.toNat q.sel s k x
    | none => {}
  else
    let ns := nextSlots p s
    match ns.1[k - n]? with
    | some x => planeOf (backThen s) ns.2 (nextSel p s) (ahead s) (k - n) x
    | none => {}

/-- Pairs of a selection served by an earlier frame count once on each port that shows them (R119). -/
def countRepeats (s : State) : State :=
  forN 4 (fun p s =>
    let q := s.port p
    if q.enable && q.st == .run then
      let sh := showsOf (backNow s) q.kind.toNat s q.slots
      let n := (q.sel.filter fun e => e.repeated && e.buf.isSome &&
        sh.any fun x => x.1 == e.view.toNat && x.2.1 == e.fofs.toNat).length
      if n = 0 then s else seqRaise p 0x1 (s.onPort p fun q => { q with repeatCnt := satN q.repeatCnt n })
    else s) s

/-! ## Re-validation (R114) -/

/-- A sequence of a port in force fails validation. -/
def seqFails (p k : Nat) (s : State) : Bool :=
  match (s.port p).seq k with
  | some xs => arrayBad p s || (seqFail p k s xs).isSome
  | none => false

/-- Every sequence in force is validated again against the state s; a failing active sequence is replaced by the all-BLACK
sequence, and a failing fallback is removed. -/
def revalidate (s0 : State) : State :=
  let s := forN 4 (fun p s => if arrayBad p s0 || (s.port p).seqs.toList.all (·.isNone) then s else derive p s) s0
  forN 4 (fun p t =>
    let bad := (List.range 4).filter fun k => seqFails p k s
    if bad.isEmpty then t
    else seqRaise p 0x40 (t.onPort p fun q => { q with
      allBlack := q.allBlack || bad.contains 0
      seqs := Vector.ofFn fun k => if bad.contains k.val then none else q.seqs[k] })) s

/-! ## Commits at a boundary (R115) -/

/-- The port can take a due commit: it is out of SETTLE, and not in hold or shutdown. -/
def canTake (p : Nat) (s : State) : Bool :=
  let q := s.port p
  q.commitDue && q.commitSeqs.isSome && !s.tim.settle && !q.linkSettle && !q.hold.on && !s.thm.shutdown

/-- Each port takes its due commit; the commits that every port of their masks has now taken are returned. The derived quantities
of R99 show in the registers from the boundary that takes the commit, not from its validation at acceptance (DESIGN CHOICE,
notes/assumptions/115.md). -/
def takeCommits (s : State) : State × List Held :=
  let ports := (List.range 4).filter fun p => canTake p s
  let hs := (ports.filterMap fun p => (s.port p).commit).eraseDups
  let s := s.onIll fun i => { i with rebuild := i.rebuild || !ports.isEmpty }
  let s := ports.foldl (fun s p => derive p (s.onPort p fun q => { takeCommit q with commitSeqs := none, commitDue := false })) s
  (s, hs.filter fun h => !((List.range 4).any fun p => (s.port p).commit == some h && (s.port p).commitSeqs.isSome))

/-- A commit awaits nothing more (SEQ_Pp_STATUS.COMMIT_PENDING). -/
def dropPending (h : Held) (s : State) : State :=
  forN 4 (fun p s => s.onPort p fun q => if q.commit == some h then { q with commit := none } else q) s

/-- The completion of a SEQ_COMMIT: DONE when every port of its mask runs its active sequence, otherwise DEGRADED. -/
def finishCommit (h : Held) (s : State) : State :=
  let ok := (commitMask h.cmd).all fun p => let q := s.port p; !q.allBlack && !q.noFallback && q.kind == 0
  complete h (if ok then .done else .degraded) 0 (dropPending h s)

/-- R120 for one port: the kind chosen, the sticky bits and counters of R122, and the dark periods. -/
def choosePort (p : Nat) (s : State) : State :=
  let q := s.port p
  if !q.enable || ((q.seq 0).isNone && !q.allBlack) || q.hold.on || q.st == .settle then s
  else match pickKind (backNow s) p s with
    | none =>
      seqRaise p 0x20 (s.onPort p fun q => { q with noFallback := true, nofbCnt := sat q.nofbCnt })
    | some k =>
      let enter := k != 0 && (q.kind.toNat != k || q.noFallback)
      let s := s.onPort p fun q => { q with noFallback := false, kind := BitVec.ofNat 2 k }
      if enter then seqRaise p (bit1 10 (k + 1)) (s.onPort p fun q => { q with fallbackCnt := sat q.fallbackCnt }) else s

end Sys2Proof.Machine
end

