-- ==== Sys2Proof/Machine/Illumination.lean ====
section
/-!
DEFINITION. The illumination controller (spec/04): its commands, chain frames and their responses, discovery, the boundary
pulses, base currents, fades and temperature compensation, string sensing, diagnostic pulses and walks.
-/
namespace Sys2Proof.Machine

/-! ## Chain words (R137 to R140) -/

/-- One bit of CRC-8, polynomial 0x07. -/
def crc8Bit (c : BitVec 8) : BitVec 8 := if c.getLsbD 7 then (c <<< 1) ^^^ 0x07 else c <<< 1

/-- One byte of CRC-8. -/
def crc8Byte (c b : BitVec 8) : BitVec 8 :=
  crc8Bit (crc8Bit (crc8Bit (crc8Bit (crc8Bit (crc8Bit (crc8Bit (crc8Bit (c ^^^ b))))))))

/-- The CRC of a chain word: over bits [39:8], most significant first, initial value 0xFF (R138). -/
def wordCrc (w : BitVec 40) : BitVec 8 :=
  [3, 2, 1, 0].foldl (fun c i => crc8Byte c ((w >>> (8 + 8 * i)).truncate 8)) 0xFF

/-- A request word (R137): OP 0 NOP, 1 WRITE, 2 READ. -/
def chainWord (op tag addr data : Nat) : BitVec 40 :=
  let w := BitVec.ofNat 40 (op * 2 ^ 38 + tag % 4 * 2 ^ 32 + addr * 2 ^ 24 + data * 2 ^ 8)
  w ||| (wordCrc w).setWidth 40

/-- Fields of a word. -/
def wOp (w : BitVec 40) : Nat := field w.toNat 38 2
def wTag (w : BitVec 40) : Nat := field w.toNat 32 2
def wAddr (w : BitVec 40) : Nat := field w.toNat 24 8
def wData (w : BitVec 40) : Nat := field w.toNat 8 16
def wRej (w : BitVec 40) : Bool := w.getLsbD 37
def wFlt (w : BitVec 40) : Bool := w.getLsbD 36
def wTab (w : BitVec 40) : Bool := w.getLsbD 35
def wEn (w : BitVec 40) : Bool := w.getLsbD 34

/-- The CRC of a word is right. -/
def wCrcOk (w : BitVec 40) : Bool := wordCrc w == w.truncate 8

/-- A response fails the check of R156 against the word sent. -/
def respBad (sent resp : BitVec 40) : Bool :=
  !(wCrcOk resp) || wRej resp || wOp resp != wOp sent || wTag resp != wTag sent || wAddr resp != wAddr sent ||
  (wOp sent == 1 && wData resp != wData sent)

/-! ## Chain states (R152) -/

/-- The chain's ILL_CHAIN_SET gets its reply. -/
def chainReply (c : Nat) (st : Status) (s : State) : State :=
  let h := (s.chain c).cmd
  completeOpt h st 0 (s.onChain c fun x => { x with cmd := none })

/-- The chain enters FAULT: ICH_EN low, no frames; an ILL_CHAIN_SET that waits for it completes with TIMEOUT. -/
def chainFault (c : Nat) (b : BitVec 9) (s : State) : State :=
  chainReply c .timeout (chainRaise c (b ||| 1) (s.onChain c fun x => { x with st := .fault, en := false }))

/-- A word without its TAG and CRC. -/
def wordBody (w : BitVec 40) : Nat × Nat × Nat := (wOp w, wAddr w, wData w)

/-- A driver's registers as a WRITE of v to address a leaves them (R146); WEIGHT goes to the inactive table. -/
def writeReg (a : Nat) (v : BitVec 16) (d : Driver) : Driver :=
  if a = 0 then d
  else if a < 64 then
    if d.sentTab then { d with tabA := upd d.tabA a fun _ => v } else { d with tabB := upd d.tabB a fun _ => v }
  else if a < 72 then
    { d with basePend := upd d.basePend (a - 64) fun _ => v, baseOk := d.baseOk ||| bit1 8 (a - 64) }
  else if a < 0x50 then d
  else if a < 0x58 then { d with trim := upd d.trim (a - 0x50) fun _ => v }
  else if a = 0x58 then { d with trim := Vector.replicate 8 v }
  else if a = 0x60 then { d with diagCur := v }
  else if a = 0x61 then { d with diagMask := v.truncate 8 }
  else d

/-- A driver's registers as a response that passes the check leaves them known: a NOP's carries STATUS, of which it clears LAT_ERR
and CRC_ERR in reporting them, a WRITE's the value that the register now holds, and a READ's of ID the identity (R139, R146). -/
def confirmWord (resp : BitVec 40) (d : Driver) : Driver :=
  let v := BitVec.ofNat 16 (wData resp)
  let d := { d with retry := d.retry.filter fun x => wordBody x.1 != wordBody d.sent }
  match wOp resp with
  | 0 => { d with status := v &&& ~~~0xC }
  | 1 => writeReg (wAddr resp) v d
  | 2 => if wAddr resp = 0xFE then { d with id := v } else d
  | _ => d

/-- The word in hand has failed the check once more, and is to be sent again. -/
def failWord (d : Driver) : Driver :=
  match d.retry.find? fun x => wordBody x.1 == wordBody d.sent with
  | some y => { d with retry := (d.sent, y.2 + 1) :: d.retry.filter fun x => wordBody x.1 != wordBody d.sent }
  | none => { d with retry := d.retry ++ [(d.sent, 1)] }

def State.onDriver (s : State) (k : Nat) (f : Driver → Driver) : State :=
  s.onIll fun i => { i with drivers := upd i.drivers k f }

/-- The check of one response of chain c from device d (R156). -/
def checkResponse (c d : Nat) (resp : BitVec 40) (s : State) : State :=
  let k := c * 32 + d
  let x := nth s.ill.drivers k
  let sent := x.sent
  let s := if wCrcOk resp then s else chainRaise c 0x4 (s.onChain c fun x => { x with respCrcCnt := sat x.respCrcCnt })
  let s := if wCrcOk resp && wRej resp then chainRaise c 0x8 (s.onChain c fun x => { x with rejCnt := sat x.rejCnt }) else s
  let s := if wCrcOk resp && wOp resp == 0 && wOp sent == 0 && bitOf (wData resp) 2 then chainRaise c 0x100 s else s
  if respBad sent resp then (s.onChain c fun x => { x with retryCnt := sat x.retryCnt }).onDriver k failWord
  else s.onDriver k fun d => confirmWord resp (if d.tabKnown then d else { d with tab := wTab resp, sentTab := wTab resp })

/-- The trim of group g of port p: the applied value of the lowest-wins group bound to it, 65,535 when none is (R164). -/
def trimOf (g : Nat) (s : State) : BitVec 16 :=
  match s.cle.groups.toList.find? fun x => x.dest == 1 && x.index.toNat == g with
  | some x => x.value
  | none => 65535

/-! ## Base currents, fades and temperature (R160 to R163) -/

/-- Fade factor F_j of R161. -/
def fadeAt (rn rd : Nat) (g : LGroup) (j : Nat) : BitVec 16 :=
  if g.fadeMs = 0 ∨ g.fadeMs * rn ≤ j * rd * 1000 then g.fadeTo
  else
    let num := (g.fadeFrom.toNat : Int) * (g.fadeMs * rn : Nat) +
      ((g.fadeTo.toNat : Int) - g.fadeFrom.toNat) * (j * rd * 1000 : Nat)
    BitVec.ofNat 16 (roundDiv num (g.fadeMs * rn)).toNat

/-- An ILL_FADE begins from the factor in force. -/
def startFade (h : Held) (rn rd : Nat) (g : LGroup) : LGroup :=
  let b := Cmd.payload h.cmd
  let g := { g with fadeFrom := g.fade, fadeTo := BitVec.ofNat 16 (u16 b 0), fadeMs := u16 b 2, fadeJ := 0, fading := true }
  { g with fade := fadeAt rn rd g 0 }

/-- A group's fade advances by one period. -/
def stepFade (rn rd : Nat) (g : LGroup) : LGroup :=
  if g.fading then
    let f := fadeAt rn rd g (g.fadeJ + 1)
    { g with fade := f, fadeJ := g.fadeJ + 1, fading := f != g.fadeTo }
  else g

/-- The ILL_FADEs of group g among those that are due. -/
def fadesOf (g : Nat) (due : List Held) : List Held := due.filter fun h => h.opcode == 0x0303 && h.cmd.tindex.toNat == g

/-- The fade factor of group g for the coming period: one step on, or the first of an ILL_FADE that is due, which starts from the
factor of the period that ends (DEDUCED, notes/assumptions/117.md). -/
def fadeNext (g : Nat) (s : State) : BitVec 16 :=
  let x := nth s.ill.groups g
  match fadesOf g (s.hif.deferred.filter (dueAt (s.frame + 1))) with
  | [] => (stepFade s.rn s.rd x).fade
  | hs => (hs.foldl (fun x h => startFade h s.rn s.rd x) x).fade

/-- Linear interpolation between two points; the manual names no rounding, so an inexact value takes open choice n. -/
def interp (n : Nat) (t t0 t1 a b : Int) : Int := openDiv n (a * (t1 - t) + b * (t - t0)) (t1 - t0).toNat

/-- Gain and column at a temperature, clamped to the end points (R162). -/
def tcAt (n : Nat) (t : Int) : List TcPoint → Int × Int × Int × Int
  | [] => (16384, 0, 0, 0)
  | [p] => (p.gain.toNat, p.x, p.y, p.z)
  | p :: q :: ps =>
    if t ≤ p.temp then (p.gain.toNat, p.x, p.y, p.z)
    else if t < q.temp then
      (interp n t p.temp q.temp p.gain.toNat q.gain.toNat, interp (n + 1) t p.temp q.temp p.x q.x,
       interp (n + 2) t p.temp q.temp p.y q.y, interp (n + 3) t p.temp q.temp p.z q.z)
    else tcAt n t (q :: ps)

/-- A running port's slot is a DIAG_OK slot. -/
def diagPort (p : Nat) (s : State) : Bool :=
  let q := s.port p
  q.enable && q.st == .run && (match q.slots[q.slot.toNat]? with | some x => x.diagOk | none => false)

def diagSlot (s : State) : Bool := (List.range 4).any fun p => diagPort p s

/-- t_k + SETTLE_TK of the DIAG_OK slot that runs, of the lowest-numbered port with one (R167, R170, R498). -/
def diagMark (s : State) : Option Nat :=
  ((List.range 4).find? fun p => diagPort p s).map fun p => (s.port p).slotNs + tkToNs s.rn s.rd (s.port p).settleTk.toNat

/-- The running DIAG_OK slot has lasted n ns beyond t_k + SETTLE_TK. -/
def markPast (n : Nat) (s : State) : Bool := match diagMark s with | some m => decide (m + n ≤ s.ns) | none => false

/-- A table change is pending: some running chain's tables differ from the target tables. The levelling of the inactive table after
a SWAP counts as well, which the manual does not define (DESIGN CHOICE, notes/assumptions/126.md). -/
def tableChange (s : State) : Bool :=
  (List.range 4).any fun c => chainRuns c s && (chainDrivers c s).any fun k =>
    let d := nth s.ill.drivers k
    activeTab d != d.target || inactiveTab d != d.target

/-- A periodic walk step is due at an instant (R170). -/
def walkDue (at' : Nat) (s : State) : Bool := decide (s.ill.walkAt + s.ill.walkS * 1000000000 ≤ at')

/-- A chain in WALK takes the steps of its start-up walk in DIAG_OK slots, since another one is in RUN (R170). -/
def slotWalk (c : Nat) (s : State) : Bool :=
  (s.chain c).st == .walk && (List.range 4).any fun d => d != c && chainRuns d s

/-- The steps that start-up walks have still to make in DIAG_OK slots. -/
def walkSteps (s : State) : Nat :=
  (((List.range 4).filter fun c => slotWalk c s).map fun c => 3 - (s.chain c).walkSteps).sum

/-- A class whose DARK_S has passed, at an instant, since the last dark window (R498). -/
def darkDue (at' : Nat) (s : State) : Bool :=
  match s.cal.lastDark with
  | none => true
  | some e => [2, 3, 4].any fun k => decide (e + (nth s.cal.classes k).darkS * 1000000000 ≤ at')

/-- The slot whose t_k + SETTLE_TK is m carries a pulse or a walk step, or will: the step begins at 7 µs (R170). -/
def slotTaken (m : Nat) (s : State) : Bool :=
  s.ill.pulseUsed || s.ill.walkUsed || walkSteps s != 0 || (walkDue (m + 7000) s && !(tableChange s))

/-- A slot that holds a dark window has lasted n ns beyond t_k + SETTLE_TK: a DIAG_OK slot that carries no pulse and no walk step, when
a window is due at its start, 2 µs beyond (R498). -/
def darkPast (n : Nat) (s : State) : Bool :=
  match diagMark s with
  | some m => decide (m + n ≤ s.ns) && darkDue (m + 2000) s && !(slotTaken m s)
  | none => false

/-- A dark window has begun and less than n ns have passed beyond t_k + SETTLE_TK. -/
def darkUntil (n : Nat) (s : State) : Bool := darkPast 2000 s && !(markPast n s)

/-- Readings of PD, NTC and SS channels carry STALE: the sense die's clock is bad, or a dark window runs, from t_k + SETTLE_TK + 2 µs
to + 10 µs, or ended less than 1 µs ago (R32, R498). -/
def senseStale (s : State) : Bool := s.senseBad || darkUntil 11000 s || darkStale s

/-- A temperature that an NTC channel can report; one above 150 °C or below -50 °C is a sensor fault (R561). -/
def ntcGood (t : Int) : Bool := decide (-5000 ≤ t) && decide (t ≤ 15000)

/-- A reading of NTC channel n: none for a sensor fault; one flagged STALE is the value held. -/
def ntcRead (n : Nat) (s : State) : Option Int :=
  if senseStale s then some (nth s.ill.ntc n)
  else
    let t := Config.ntcTemp (Config.ntcOhms s.free n)
    if ntcGood t then some t else none

/-- Gain and column of primary i are computed from its NTC channel for the coming boundary, once at the start of the first reserved
frame (`early` false) and, before it, once for a write-out; a sensor fault keeps those of the period before and sets TC_HOLD. A
primary without points has gain 1.0. -/
def computeTc (early : Bool) (i : Nat) (s : State) : State :=
  let x := nth s.ill.tcs i
  if x.points.isEmpty || (x.next.isSome && (early || !x.early)) then s
  else
    match ntcRead x.ntc.toNat s with
    | none => illRaise 0x4 (s.useFree.onIll fun l => { l with tcs := upd l.tcs i fun y => { y with
        next := some (y.gain, y.temp, y.col), early := early } })
    | some t =>
      let r := tcAt (s.free + 1) t x.points
      let s := s.onIll fun l => { l with
        ntc := upd l.ntc x.ntc.toNat fun _ => t
        tcs := upd l.tcs i fun y => { y with
          next := some (BitVec.ofInt 16 r.1, BitVec.ofInt 16 t, some r.2), early := early } }
      { s with free := s.free + 5 }

/-- The temperature gain of a primary for the coming period. -/
def gainNext (i : Nat) (s : State) : Nat :=
  let x := nth s.ill.tcs i
  match x.next with | some r => r.1.toNat | none => x.gain.toNat

/-- A string action that sets BASE_PEND of channel ch of driver k to 0 (R166). -/
def stringOff (k ch : Nat) (d : Driver) (s : State) : Bool :=
  s.ill.strs.toList.any fun x => x.acting &&
    ((x.action == 1 && x.chain.toNat * 32 + x.device.toNat == k && x.channel.toNat == ch) ||
     (x.action == 2 && d.port.isSome &&
       let e := nth s.ill.drivers (x.chain.toNat * 32 + x.device.toNat)
       e.port == d.port && e.group == d.group))

/-- BASE_PEND of channel ch of driver k for the coming period (R160). -/
def baseOf (k ch : Nat) (a s : State) : BitVec 16 :=
  let d := nth a.ill.drivers k
  match d.port with
  | none => 0
  | some p =>
    if stringOff k ch d s then 0
    else
      let g := 4 * p.toNat + d.group.toNat
      let v := (nth d.baseNom ch).toNat * (fadeNext g s).toNat * gainNext (nth a.ill.groups g).primary.toNat s
      BitVec.ofNat 16 (min 65535 (roundDiv v (65535 * 16384)).toNat)

/-- BASE_COMPUTE: at the first reserved frame of a chain, and at its write-out (`early`), its drivers' bases are computed for the
coming period. They take the place of earlier ones that are still to be sent again. -/
def computeBases (early : Bool) (c : Nat) (s : State) : State :=
  let s := forN 6 (computeTc early) s
  let a := ahead s
  let s := (chainDrivers c s).foldl (fun t k =>
    t.onDriver k fun d => { d with
      baseWant := Vector.ofFn fun ch => baseOf k ch.val a s, baseOk := 0, next := 0
      retry := d.retry.filter fun x => !(64 ≤ wAddr x.1 && wAddr x.1 < 72) }) s
  s.onChain c fun x => { x with baseFor := s.frame + 1, baseEarly := early }

/-! ## Light of a driver's channel (R147) -/

/-- The current of channel ch of a driver by its table, in 1/65,535^3 of full scale. -/
def tableCurrent (d : Driver) (ch : Nat) (code : BitVec 6) : Nat :=
  if code = 0 then 0 else (nth d.baseAct ch).toNat * (nth d.trim ch).toNat * (nth (activeTab d) code.toNat).toNat

/-- Diagnostic drive is on a channel of a driver. -/
def diagDriven (d : Driver) (ch : Nat) (s : State) : Bool := decide (s.ns < s.ill.diagUntil) && d.diagMask.getLsbD ch

/-- STATUS of driver k as it stands: over-temperature and supply low as last reported, the active table, the level of ICH_EN and
diagnostic drive as they are now (R146). -/
def driverStatus (k : Nat) (s : State) : BitVec 16 :=
  let d := nth s.ill.drivers k
  (d.status &&& 0xF) ||| (if d.tab then 0x10 else 0) ||| (if (s.chain (k / 32)).en then 0x20 else 0) |||
    (if (List.range 8).any fun ch => diagDriven d ch s then 0x40 else 0)

/-- The commanded current of a string's channel: ICH_EN takes precedence over diagnostic drive, and that over the table. -/
def strCurrent (x : Str) (s : State) : Nat :=
  let d := nth s.ill.drivers (x.chain.toNat * 32 + x.device.toNat)
  if !(s.chain x.chain.toNat).en then 0
  else if diagDriven d x.channel.toNat s then d.diagCur.toNat * 65535 ^ 2
  else tableCurrent d x.channel.toNat s.ill.code

/-- The sense channel's settling time and averaging time, ns (R165). -/
def senseNs (s : State) : Nat := 300 + s.ill.senseSettleNs + 2000

/-- The noted current has been constant and at or above I_MIN, with ICH_EN high, for long enough by now (R165). -/
def steady (x : Str) (s : State) : Bool :=
  match x.cur with
  | some c => decide (x.iMin.toNat * 65535 ^ 2 ≤ c) && decide (x.since + senseNs s ≤ s.ns)
  | none => false

/-- A string can be measured: it is in an eligible interval, or one has been since its last measurement. -/
def eligible (x : Str) (s : State) : Bool := x.ready.isSome || ((s.chain x.chain.toNat).en && steady x s)

/-- The string is under diagnostic drive. -/
def inPulse (x : Str) (s : State) : Bool :=
  diagDriven (nth s.ill.drivers (x.chain.toNat * 32 + x.device.toNat)) x.channel.toNat s

/-- The interval that a string's measurement falls into is that of a diagnostic pulse. -/
def ofPulse (x : Str) : Bool := x.ready.getD x.diag

/-- A string's current is noted for R165 and R167: the interval up to now is closed if eligible, a new one begins with another
current, and a diagnostic pulse makes a period neither lit nor eligible. -/
def noteStr (s : State) (x : Str) : Str :=
  if !x.enable then x
  else
    let c := if (s.chain x.chain.toNat).en then some (strCurrent x s) else none
    let p := inPulse x s
    let ok := steady x s
    let x := { x with
      ready := if ok && !x.measured && x.ready.isNone then some x.diag else x.ready, eligSeen := x.eligSeen || (ok && !x.diag) }
    let x := if x.cur == c && x.diag == p then x else { x with cur := c, since := s.ns, diag := p }
    { x with litSeen := x.litSeen || (c.getD 0 != 0 && !p) }

/-- The strings' currents are noted. -/
def noteLit (s : State) : State := s.onIll fun i => { i with strs := i.strs.map (noteStr s) }

/-! ## Frames (R143, R154 to R156) -/

/-- The LOWDUTY strings whose diagnostic pulse is due: in the first DIAG_OK slot, and then once per second (R167). -/
def pulsesDue (s : State) : List Nat :=
  (List.range 24).filter fun i =>
    let x := nth s.ill.strs i
    x.enable && x.lowduty && chainRuns x.chain.toNat s &&
      match x.pulseAt with | none => true | some t => decide (t + 1000000000 ≤ s.ns)

/-- Those of the due strings that fire together: one DIAG_CUR per device, that of its string of the lowest index. -/
def firing (due : List Nat) (s : State) : List Nat :=
  due.filter fun i =>
    let x := nth s.ill.strs i
    match due.find? fun j => let y := nth s.ill.strs j; y.chain == x.chain && y.device == x.device with
    | some j => (nth s.ill.strs j).diagCur == x.diagCur
    | none => true

/-- The DIAG_OK slots that the period still has, of the lowest-numbered running port with one: the start of each as a tick, and
whether it is the running slot. -/
def diagSlots (s : State) : List (Nat × Bool) :=
  ((List.range 4).findSome? fun p =>
    let q := s.port p
    if !(q.enable && q.st == .run) then none
    else
      let starts := (q.slots.drop q.slot.toNat).foldl (fun r x => (r.1 + x.dur.toNat, r.2 ++ [(r.1, x.diagOk)])) (q.slotStart, [])
      match ((starts.2.zipIdx).filter fun x => x.1.2).map fun x => (x.1.1, x.2 == 0) with
      | [] => none
      | xs => some xs).getD []

/-- SETTLE_TK of the lowest-numbered running port with a DIAG_OK slot. -/
def diagSettle (s : State) : Nat :=
  ((List.range 4).findSome? fun p =>
    let q := s.port p
    if q.enable && q.st == .run && (q.slots.drop q.slot.toNat).any (·.diagOk) then some q.settleTk.toNat else none).getD 0

/-- The intervals of the coming slots, in ns from now, over which frames are suspended: 0.5 µs before each DIAG_ON that is due until
0.1 µs after its DIAG_OFF, and each walk (R159). -/
def suspended (tk : Nat) (slots : List (Nat × Bool)) (due : List Nat) (start : Nat) (walk : Bool) (s : State) : List (Int × Int) :=
  match slots with
  | [] => []
  | (t, now) :: rest =>
    let at' : Int := qToNs (((t + tk : Nat) : Int) * 1099511627776 - s.phase.toNat) s
    let fire := if now && s.ill.pulseUsed then [] else firing due s
    let free := !(now && s.ill.walkUsed)
    let first := start != 0 && free && fire.isEmpty && !(now && s.ill.pulseUsed)
    let next := start == 0 && free && walk && walkDue ((s.ns : Int) + at' + 7000).toNat s
    (if fire.isEmpty then [] else [(at' + 500, at' + 6100)]) ++ (if first || next then [(at' + 7000, at' + 11000)] else []) ++
      suspended tk rest (due.filter fun i => !(fire.contains i)) (if first then start - 1 else start) (walk && !next) s

/-- A diagnostic pulse suspends the frames until 0.1 µs after its DIAG_OFF (R159). -/
def pulseHolds (s : State) : Bool := s.ill.diagUntil != 0 && decide (s.ns < s.ill.diagUntil + 100)

/-- The intervals over which frames are suspended from now to the boundary. -/
def suspensions (s : State) : List (Int × Int) :=
  (if pulseHolds s then [(0, ((s.ill.diagUntil + 100 - s.ns : Nat) : Int))] else []) ++
  suspended (diagSettle s) (diagSlots s) (if s.blanked || tableChange s then [] else pulsesDue s) (walkSteps s) (!(tableChange s)) s

/-- Frames are suspended now: within one of the intervals of R159, or while a start-up walk runs its steps back to back. -/
def suspendedNow (s : State) : Bool :=
  (suspensions s).any (fun x => decide (x.1 ≤ 0) && decide (0 < x.2)) ||
    (List.range 4).any fun c => (s.chain c).st == .walk && !(slotWalk c s)

/-- Frames sent back to back from time t on, in ns, round the suspensions, that end by time T. -/
def framesBy (load gap T : Int) (susp : List (Int × Int)) : Nat → Int → Nat
  | 0, _ => 0
  | n + 1, t =>
    let t := susp.foldl (fun t x => if x.1 < t + load && t < x.2 then x.2 else t) t
    if t + load ≤ T then framesBy load gap T susp n (t + load + gap) + 1 else 0

/-- The number of the reserved frame that starts now on a chain, 1 to 9; 0 when it is not among the last nine that end before the
boundary (R155, R159). -/
def reservedNo (c : Nat) (s : State) : Nat :=
  let n := (s.chain c).n
  let m := framesBy ((40 * n + 1) * 20 : Nat) 40 (nsToFrame (s.frame + 1) s) (suspensions s) 10 0
  if m = 0 || 9 < m then 0 else 10 - m

/-- The next entry in which the inactive table differs from the target table, but for one whose word is under way. -/
def nextWeight (d : Driver) : Option Nat :=
  (List.range 64).find? fun i => i != 0 && nth (inactiveTab d) i != nth d.target i && wordBody d.sent != (1, i, (nth d.target i).toNat)

/-- The trim that driver d is to have (R164). -/
def wantTrim (d : Driver) (s : State) : Option (BitVec 16) := d.port.map fun p => trimOf (4 * p.toNat + d.group.toNat) s

/-- The next word of a stage of the write-out, as address and data (R153); a driver of no group gets full trim. -/
def stageWord (stage : Nat) (d : Driver) (s : State) : Option (Nat × BitVec 16) :=
  if stage = 1 || stage = 2 then (if d.next < 63 then some (d.next + 1, nth d.target (d.next + 1)) else none)
  else if stage = 3 then (if d.next < 8 then some (0x40 + d.next, nth d.baseWant d.next) else none)
  else if d.next = 0 then some (0x58, (wantTrim d s).getD 65535) else none

/-- The next word of reserved frame r: BASE_PEND in frames 1 to 8 (R155). -/
def baseWord (r : Nat) (d : Driver) : Option (Nat × BitVec 16) :=
  if r ≤ 8 && d.next < 8 then some (0x40 + d.next, nth d.baseWant d.next) else none

/-- The next word of another frame: the trim when it has changed, else a weight (R154). -/
def runWord (d : Driver) (s : State) : Option (Nat × BitVec 16) :=
  match (wantTrim d s).filter fun t => d.trim.toList.any (· != t) && wordBody d.sent != (1, 0x58, t.toNat) with
  | some t => some (0x58, t)
  | none => (nextWeight d).map fun e => (e, nth d.target e)

/-- A failed word of a driver that is to be sent again and is not under way (R156). -/
def againWord (d : Driver) : Option (BitVec 40) := (d.retry.find? fun x => wordBody x.1 != wordBody d.sent).map (·.1)

/-- The word that a driver has next by the stage of the write-out or the list of R154. -/
def listWord (c r k : Nat) (s : State) : Option (Nat × BitVec 16) :=
  let d := nth s.ill.drivers k
  if (s.chain c).st == .discover then stageWord (s.chain c).stage d s else if r ≠ 0 then baseWord r d else runWord d s

/-- The word that a device receives in this frame: one that failed is sent again first. -/
def frameWord (c r k : Nat) (s : State) : BitVec 40 :=
  let x := s.chain c
  if x.nopNext then chainWord 0 x.frames 0 0
  else match againWord (nth s.ill.drivers k) with
    | some w => chainWord (wOp w) x.frames (wAddr w) (wData w)
    | none => match listWord c r k s with
      | some y => chainWord 1 x.frames y.1 y.2.toNat
      | none => chainWord 0 x.frames 0 0

/-- A frame of chain c sends its words, chosen on the state that `s` gives before the responses of the last frame. -/
def sendWords (c r : Nat) (s t : State) : State :=
  let t := (chainDrivers c s).foldl (fun t k => t.onDriver k fun d => { d with
    sent := frameWord c r k s, sentTab := d.tab
    next := if !(s.chain c).nopNext && (againWord (nth s.ill.drivers k)).isNone && (listWord c r k s).isSome then d.next + 1
      else d.next }) t
  t.onChain c fun x => { x with frames := x.frames + 1, sentEn := x.en, noCheck := x.nopNext, nopNext := false }

/-- The responses of the last frame are checked, and what puts the chain into FAULT by R156. Responses come device N - 1
first; a missing one reads as zeros. -/
def takeResponses (c : Nat) (rs : List (BitVec 40)) (s : State) : State :=
  let n := (s.chain c).n
  let resp (d : Nat) : BitVec 40 := rs.getD (n - 1 - d) 0
  let good := (List.range n).filter fun d => wCrcOk (resp d)
  let x := s.chain c
  let enBad := good.any fun d => wEn (resp d) != x.sentEn
  let tabBad := good.any fun d => let y := nth s.ill.drivers (c * 32 + d); y.tabKnown && wTab (resp d) != y.sentTab
  let s := (List.range n).foldl (fun s d => checkResponse c d (resp d) s) s
  let s := if good.any (fun d => wFlt (resp d)) then
    chainRaise c 0x80 (s.onChain c fun x => { x with fltCnt := sat x.fltCnt }) else s
  let s := s.onChain c fun x => { x with enBad := if enBad then x.enBad + 1 else 0 }
  let b := if x.st == .discover then 0x2 else 0
  if 2 ≤ (s.chain c).enBad then chainFault c (0x20 ||| b) s
  else if tabBad then chainFault c (0x40 ||| b) s
  else if (List.range n).any fun d => (nth s.ill.drivers (c * 32 + d)).retry.any fun y => 4 ≤ y.2 then chainFault c b s
  else s

/-- APPLY on a chain, with the exchange of tables for a SWAP (R141). -/
def pulse (swap : Bool) (c : Nat) (s : State) : State :=
  (chainDrivers c s).foldl (fun s k => s.onDriver k fun d => { d with
    baseAct := d.basePend, tab := d.tab != swap, tabKnown := d.tabKnown || swap }) s

/-- The next stage of the write-out begins, with its first word. -/
def startStage (c n : Nat) (s : State) : State :=
  (chainDrivers c s).foldl (fun s k => s.onDriver k fun d => { d with next := 0 }) (s.onChain c fun x => { x with stage := n })

/-- A stage of the write-out ends, every word of it confirmed: a SWAP after the first, the bases for the coming period computed after
the second, an APPLY after the third; after the fourth the chain enters RUN, and ICH_EN rises at once outside the safe state
(R153, R169). -/
def endStage (c : Nat) (s : State) : State :=
  match (s.chain c).stage with
  | 1 => startStage c 2 (pulse true c s)
  | 2 => startStage c 3 (computeBases true c s)
  | 3 => startStage c 4 (pulse false c s)
  | _ =>
    let s := (chainDrivers c s).foldl (fun s k => s.onDriver k fun d => { d with next := 8 }) s
    chainReply c .done (s.onChain c fun x => { x with st := .run, stage := 0, en := !s.blanked })

/-- The chain sends frames: in RUN and during the write-out, outside the intervals of a diagnostic pulse or a walk (R153, R154,
R159). -/
def framing (c : Nat) (s : State) : Bool :=
  s.live && !(suspendedNow s) &&
    ((s.chain c).st == .run || ((s.chain c).st == .discover && (s.chain c).stage != 0))

/-- CHAIN_FRAME: while the frame shifts, the responses to the frame before it return and are checked; every device gets its
word, and the LOAD ends the frame. Once a frame of NOPs has brought the last confirmation, a stage of the write-out ends. -/
def execChainFrame (c : Fin 4) (responses : List (BitVec 40)) (s : State) : Host.Outcome State Fault Refusal :=
  .next (if !(framing c.val s) then s
    else
      let st := (s.chain c.val).st
      let r := if st == .run then reservedNo c.val s else 0
      let s := if r = 1 || (r ≠ 0 && ((s.chain c.val).baseFor != s.frame + 1 || (s.chain c.val).baseEarly)) then computeBases false c.val s else s
      let nops := (chainDrivers c.val s).all fun k => wOp (frameWord c.val r k s) == 0
      let t := if (s.chain c.val).noCheck then s else takeResponses c.val responses s
      if (t.chain c.val).st != st then t
      else
        let t := sendWords c.val r s t
        if st == .discover && nops && (chainDrivers c.val t).all fun k => (nth t.ill.drivers k).retry.isEmpty then endStage c.val t
        else t)

/-! ## Commands -/

def specIllChainSet : OpSpec where
  op := 0x0300
  cls := [clsChain]
  len := lenIs 4
  owners := ownTarget
  check c _ := checks [rsvBits c 0 0xFE, badAt c 1 (32 < u8 (Cmd.payload c) 1), rsv c 2 2]
  effect h s :=
    let b := Cmd.payload h.cmd
    let c := h.cmd.tindex.toNat
    let s := chainReply c .resetAborted s
    if bitOf (u8 b 0) 0 then
      { st := s.onChain c fun x => { x with
          st := .walk, n := 0, nExpect := u8 b 1, en := false, frames := 0, enBad := 0, noCheck := true
          nopNext := false, stage := 0, walkSteps := 0, cmd := some h }
        status := .accepted, sole := true }
    else { st := s.onChain c fun x => { x with st := .off, n := 0, nExpect := u8 b 1, en := false } }

def specIllDeviceSet : OpSpec where
  op := 0x0301
  cls := [clsChandev]
  len := lenIs 20
  owners c s := [nth s.hif.chainOwner (c.tindex.toNat / 32)]
  boundary := true
  check c s :=
    let b := Cmd.payload c
    let h : Held := { opcode := 0x0301, cmd := c, due := if Cmd.isApplyAt c then some c.applyAt else none }
    checks [badAt c 0 (3 < u8 b 0 && u8 b 0 != 0xFF), badAt c 1 (3 < u8 b 1), rsv c 2 2,
      tableBusy c (s.onHif fun x => { x with deferred := x.deferred ++ [h] }) s]
  recheck := some fun _ _ => none
  effect h s := { st := retargetWith h s }
  apply h s := putDeviceSet h s

def specIllWeightSet : OpSpec where
  op := 0x0302
  cls := [clsGroup]
  len := lenIs 128
  owners c s := [ownPort (c.tindex.toNat / 4) s]
  boundary := true
  check c s :=
    let h : Held := { opcode := 0x0302, cmd := c, due := if Cmd.isApplyAt c then some c.applyAt else none }
    checks [badAt c 0 (5 < u8 (Cmd.payload c) 0), rsv c 1 1,
      tableBusy c (s.onHif fun x => { x with deferred := x.deferred ++ [h] }) s]
  recheck := some fun _ _ => none
  effect h s := { st := retargetWith h s }
  apply h s := putWeightSet h s

def specIllFade : OpSpec where
  op := 0x0303
  cls := [clsGroup]
  len := lenIs 4
  owners c s := [ownPort (c.tindex.toNat / 4) s]
  boundary := true
  check c _ := badAt c 2 (60000 < u16 (Cmd.payload c) 2)
  apply h s := s.onIll fun i => { i with groups := upd i.groups h.cmd.tindex.toNat (startFade h s.rn s.rd) }

/-- The points of an ILL_TC_SET payload. -/
def parseTc (b : List Byte) (n : Nat) : List TcPoint :=
  (List.range n).map fun i =>
    let o := 4 + 10 * i
    { temp := i16 b o, gain := BitVec.ofNat 16 (u16 b (o + 2)), x := i16 b (o + 4), y := i16 b (o + 6), z := i16 b (o + 8) }

/-- The temperatures ascend strictly. -/
def ascending : List TcPoint → Bool
  | p :: q :: ps => p.temp < q.temp && ascending (q :: ps)
  | _ => true

def specIllTcSet : OpSpec where
  op := 0x0304
  cls := [clsPrimary]
  len l := 4 ≤ l
  shape c := Cmd.len c == 4 + 10 * u8 (Cmd.payload c) 1
  owners := ownConfig
  boundary := true
  check c _ :=
    let b := Cmd.payload c
    checks [badAt c 0 (7 < u8 b 0), badAt c 1 (outside 1 8 (u8 b 1)), rsv c 2 2, badAny (!(ascending (parseTc b (u8 b 1))))]
  apply h s :=
    let b := Cmd.payload h.cmd
    s.onIll fun i => { i with tcs := upd i.tcs h.cmd.tindex.toNat fun x => { x with
      ntc := BitVec.ofNat 3 (u8 b 0), points := parseTc b (u8 b 1) } }

def specIllStringSet : OpSpec where
  op := 0x0305
  cls := [clsString]
  len := lenIs 12
  owners c s := [nth s.hif.chainOwner (field (u8 (Cmd.payload c) 1) 0 2)]
  boundary := true
  check c _ :=
    let b := Cmd.payload c
    checks [badAt c 0 (128 ≤ u8 b 0 || field (u8 b 0) 3 4 == 0), rsvBits c 1 0xE0, badAt c 2 (31 < u8 b 2), rsv c 3 1,
      badAt c 6 (u16 b 4 ≤ u16 b 6)]
  apply h s :=
    let b := Cmd.payload h.cmd
    let s := s.onIll fun i => { i with strs := upd i.strs h.cmd.tindex.toNat fun x => { x with
      enable := bitOf (u8 b 0) 0, action := BitVec.ofNat 2 (field (u8 b 0) 1 2), confirm := field (u8 b 0) 3 4
      chain := BitVec.ofNat 2 (u8 b 1), channel := BitVec.ofNat 3 (field (u8 b 1) 2 3), device := BitVec.ofNat 5 (u8 b 2)
      vOpen := BitVec.ofNat 16 (u16 b 4), vShort := BitVec.ofNat 16 (u16 b 6), iMin := BitVec.ofNat 16 (u16 b 8)
      diagCur := BitVec.ofNat 16 (u16 b 10), st := if bitOf (u8 b 0) 0 then .ok else .unused
      lowduty := false, isStale := false, acting := false, openRun := 0, shortRun := 0, dutyRun := 0, measured := false
      litSeen := false, eligSeen := false, cur := none, diag := false, ready := none, pulseAt := none } }
    if s.ill.strs.toList.any (fun x => x.acting && x.action == 3) then s else dropSource 5 s

def specIllDiagSet : OpSpec where
  op := 0x0306
  cls := [clsIllum]
  len := lenIs 4
  owners := ownConfig
  boundary := true
  check c _ := checks [badAt c 0 (2700 < u16 (Cmd.payload c) 0), badAt c 2 (outside 1 60 (u8 (Cmd.payload c) 2)), rsv c 3 1]
  apply h s := s.onIll fun i => { i with
    senseSettleNs := u16 (Cmd.payload h.cmd) 0, walkS := u8 (Cmd.payload h.cmd) 2 }

def execIllChainSet (cmd : Cmd) (s : State) : Host.Outcome State Fault Refusal := .next (accept specIllChainSet cmd s)
def execIllDeviceSet (cmd : Cmd) (s : State) : Host.Outcome State Fault Refusal := .next (accept specIllDeviceSet cmd s)
def execIllWeightSet (cmd : Cmd) (s : State) : Host.Outcome State Fault Refusal := .next (accept specIllWeightSet cmd s)
def execIllFade (cmd : Cmd) (s : State) : Host.Outcome State Fault Refusal := .next (accept specIllFade cmd s)
def execIllTcSet (cmd : Cmd) (s : State) : Host.Outcome State Fault Refusal := .next (accept specIllTcSet cmd s)
def execIllStringSet (cmd : Cmd) (s : State) : Host.Outcome State Fault Refusal := .next (accept specIllStringSet cmd s)
def execIllDiagSet (cmd : Cmd) (s : State) : Host.Outcome State Fault Refusal := .next (accept specIllDiagSet cmd s)

/-! ## Walk and discovery (R152, R153, R170) -/

/-- A walk step is made in the slot: a DIAG_OK slot from t_k + SETTLE_TK + 7 µs to + 11 µs, past its DIAG_OFF, that has had no other
walk step (R170). -/
def walkSlot (s : State) : Bool :=
  s.live && markPast 7000 s && !(markPast 11001 s) && !s.ill.walkUsed && decide (s.ill.diagUntil ≤ s.ns)

/-- Strings on failing sense balls enter SENSE_FAULT. -/
def senseFault (cs : List (Fin 24)) (s : State) : State :=
  cs.foldl (fun s c => s.onIll fun i => { i with strs := upd i.strs c.val fun x =>
    if x.enable then { x with st := .senseFault } else x }) s

/-- A chain that a walk finds failing enters FAULT. One that is OFF stays OFF, which ILL_CHAIN_SET alone leaves by R152, where R170
says every chain (DESIGN CHOICE, notes/assumptions/126.md). -/
def walkFault (c : Nat) (s : State) : State := if (s.chain c).st == .off then s else chainFault c 0 s

/-- What a walk step finds (R170). -/
def walkFound (fail : Option WalkFail) (s : State) : State :=
  match fail with
  | none => s
  | some f =>
    let s := illRaise 0x2 (s.onIll fun i => { i with walkFailCnt := sat i.walkFailCnt })
    match f with
    | .chainPin c => walkFault c s
    | .slotBus => forN 4 walkFault s
    | .senseBall cs => senseFault cs s

/-- A walk step in a DIAG_OK slot: every ICH_EN is low during the step, and the frame that follows is sent as NOPs. -/
def slotStep (s : State) : State :=
  s.onIll fun i => { i with
    walkCnt := sat i.walkCnt, walkUsed := true
    chains := i.chains.map fun x => if x.st = .run then { x with nopNext := true } else x }

/-- A start-up walk that fails puts its chain into FAULT, whatever it found (R152). -/
def walkEnds (c : Nat) (fail : Option WalkFail) (s : State) : State :=
  let s := walkFound fail s
  if fail.isSome && (s.chain c).st == .walk then chainFault c 0 s else s

/-- STARTUP_WALK_DONE: the start-up walk of a chain in WALK ends. While another chain is in RUN the third step is made in a DIAG_OK
slot without a pulse; otherwise the three steps run back to back. -/
def execStartupWalkDone (c : Fin 4) (fail : Option WalkFail) (s : State) : Host.Outcome State Fault Refusal :=
  .next (if !s.live || (s.chain c.val).st != .walk ||
      (slotWalk c.val s && !(walkSlot s && !s.ill.pulseUsed && (s.chain c.val).walkSteps == 2)) then s
    else
      let s := if slotWalk c.val s then slotStep s
        else s.onIll fun i => { i with walkCnt := satN i.walkCnt (3 - (s.chain c.val).walkSteps) }
      if fail.isNone then s.onChain c.val fun x => { x with st := .discover } else walkEnds c.val fail s)

/-- The chain whose start-up walk makes its next step, before the last, in a DIAG_OK slot: of several the lowest-numbered, where the
manual names no order (DESIGN CHOICE, notes/assumptions/126.md). -/
def startupStep (s : State) : Option Nat := (List.range 4).find? fun c => slotWalk c s && decide ((s.chain c).walkSteps < 2)

/-- WALK_STEP: a step of a start-up walk that waits for a DIAG_OK slot without a pulse; otherwise, when WALK_S has passed and no
table change is pending, the step of the next pin group in rotation (R159, R170). -/
def execWalkStep (fail : Option WalkFail) (s : State) : Host.Outcome State Fault Refusal :=
  .next (if !(walkSlot s) then s
    else match startupStep s with
      | some c =>
        if s.ill.pulseUsed then s
        else walkEnds c fail ((slotStep s).onChain c fun x => { x with walkSteps := x.walkSteps + 1 })
      | none =>
        if tableChange s || !(walkDue ((diagMark s).getD 0 + 7000) s) then s
        else walkFound fail ((slotStep s).onIll fun i => { i with walkGroup := (i.walkGroup + 1) % 3, walkAt := s.ns }))

/-- An ID of protocol version 1 with 8 channels (R146). -/
def idOk (id : BitVec 16) : Bool := field id.toNat 12 4 == 1 && field id.toNat 8 4 == 7

/-- The write-out of R153 begins: the drivers found have unknown registers. -/
def startWriteOut (c : Nat) (ids : List (BitVec 16)) (s : State) : State :=
  let s := (chainDrivers c (retarget s)).foldl (fun t k => t.onDriver k fun d => { d with
    id := ids.getD (k - c * 32) 0, tabKnown := false, retry := [], sent := 0 }) (retarget s)
  startStage c 1 (s.onChain c fun x => { x with noCheck := true })

/-- DISCOVER_DONE: discovery has found the marker's delay and the IDs. It fails by R153, or the write-out begins. -/
def execDiscoverDone (c : Fin 4) (delay : Nat) (ids : List (BitVec 16)) (s : State) : Host.Outcome State Fault Refusal :=
  .next (if !s.live || (s.chain c.val).st != .discover || (s.chain c.val).stage != 0 then s
    else
      let n := delay / 40
      let x := s.chain c.val
      if delay % 40 != 0 || n == 0 || 32 < n || (x.nExpect != 0 && n != x.nExpect) || ids.length != n || !(ids.all idOk) then
        chainFault c.val 0x2 s
      else startWriteOut c.val ids (s.onChain c.val fun x => { x with n := n }))

/-- DISCOVER_TIMEOUT: DISCOVER has lasted 10 ms. -/
def execDiscoverTimeout (c : Fin 4) (s : State) : Host.Outcome State Fault Refusal :=
  .next (if s.live && (s.chain c.val).st == .discover then chainFault c.val 0x2 s else s)

/-! ## Strings (R165 to R168) -/

def State.onStr (s : State) (i : Nat) (f : Str → Str) : State := s.onIll fun x => { x with strs := upd x.strs i f }

/-- The action of a string whose open or short is confirmed (R166). -/
def takeAction (i : Nat) (s : State) : State :=
  let x := nth s.ill.strs i
  let s := s.onStr i fun x => { x with acting := true }
  if x.action = 3 then followSource 5 true s else s

/-- STRING_MEASUREMENT: the average of a string's voltage in the first eligible interval of a period, or in a diagnostic pulse, is
classed. A STALE reading is not used, and a good one within a pulse leaves LOWDUTY. Open and short samples make two runs, each of
which ends the other: R166 speaks of one count (DESIGN CHOICE, notes/assumptions/126.md). -/
def execStringMeasurement (i : Fin 24) (mv : BitVec 16) (stale : Bool) (s : State) : Host.Outcome State Fault Refusal :=
  .next (let x := nth s.ill.strs i.val
    if !s.live || !x.enable || x.measured || !(eligible x s) then s
    else if stale || senseStale s then s.onStr i.val fun x => { x with isStale := true, measured := true, ready := none }
    else
      let s := s.onStr i.val fun x => { x with volt := mv, isStale := false, measured := true, ready := none }
      if x.vOpen ≤ mv then
        let s := s.onStr i.val fun x => { x with openRun := x.openRun + 1, shortRun := 0, faultCnt := sat x.faultCnt }
        if x.openRun + 1 = x.confirm then
          takeAction i.val (strOpenRaise (bit1 24 i.val) (s.onStr i.val fun x => { x with st := .opened })) else s
      else if mv < x.vShort then
        let s := s.onStr i.val fun x => { x with shortRun := x.shortRun + 1, openRun := 0, faultCnt := sat x.faultCnt }
        if x.shortRun + 1 = x.confirm then
          takeAction i.val (strShortRaise (bit1 24 i.val) (s.onStr i.val fun x => { x with st := .shorted })) else s
      else if ofPulse x then s.onStr i.val fun x => { x with openRun := 0, shortRun := 0 }
      else s.onStr i.val fun x => { x with openRun := 0, shortRun := 0, lowduty := false, dutyRun := 0 })

/-- The channels of driver k that a pulse on the strings of `fire` drives. -/
def pulseMask (k : Nat) (fire : List Nat) (s : State) : BitVec 8 :=
  fire.foldl (fun m i => let x := nth s.ill.strs i
    if x.chain.toNat * 32 + x.device.toNat = k then m ||| bit1 8 x.channel.toNat else m) 0

/-- DIAG_ON falls on the strings that fire. R154's list has no word for DIAG_CUR and DIAG_MASK: the drivers hold theirs from here on
(DESIGN CHOICE, notes/assumptions/117.md). -/
def firePulse (fire : List Nat) (s : State) : State :=
  let on := s.onIll fun y => { y with
    pulseUsed := true, diagUntil := s.ns + 5000
    drivers := Vector.ofFn fun k => { y.drivers[k] with diagMask := pulseMask k.val fire s } }
  let on := noteLit (fire.foldl (fun s i =>
    let x := nth s.ill.strs i
    s.onDriver (x.chain.toNat * 32 + x.device.toNat) fun d => { d with diagCur := x.diagCur }) on)
  fire.foldl (fun s i => s.onStr i fun x => { x with
    pulseCnt := sat x.pulseCnt, pulseAt := some s.ns, measured := false, ready := none }) on

/-- DIAG_PULSE: DIAG_ON, in the microsecond from t_k + SETTLE_TK + 1 µs on (R167), and 5 µs later DIAG_OFF on the strings that are
due, once in a DIAG_OK slot, outside the safe state and while no table change is pending. The voltage reaches the string by STRING_MEASUREMENT. -/
def execDiagPulse (s : State) : Host.Outcome State Fault Refusal :=
  let fire := firing (pulsesDue s) s
  .next (if !s.live || !(markPast 1000 s) || markPast 2000 s || s.ill.pulseUsed || s.ill.walkUsed || s.blanked || tableChange s || fire.isEmpty then s
    else firePulse fire s)

/-- DIAG_STARVED: 1 s has passed with no DIAG_OK slot while a chain is in RUN (R168). -/
def execDiagStarved (s : State) : Host.Outcome State Fault Refusal :=
  .next (if s.live && (List.range 4).any (fun c => chainRuns c s) then
    illRaise 0x1 (s.onIll fun i => { i with starvedCnt := sat i.starvedCnt }) else s)

/-- At a boundary each string's period is judged: 256 consecutive lit periods without an eligible interval make it LOWDUTY. -/
def endStrPeriod (x : Str) : Str :=
  let n := if x.enable && x.litSeen && !x.eligSeen then x.dutyRun + 1 else 0
  { x with
    dutyRun := n, lowduty := x.lowduty || n == 256, pulseAt := if x.lowduty then x.pulseAt else none
    litSeen := false, eligSeen := false, measured := false, ready := none }

/-! ## The boundary's part (R155, R157, R161, R163, R169) -/

/-- The chain has a BASE_PEND write for this period that is not confirmed. -/
def baseLate (c : Nat) (s : State) : Bool :=
  chainRuns c s && (s.chain c).baseFor == s.frame && (chainDrivers c s).any fun k => (nth s.ill.drivers k).baseOk != 0xFF

/-- The chain has members in the lit link set. -/
def inSet (ports : List Nat) (c : Nat) (s : State) : Bool :=
  (chainDrivers c s).any fun k => match (nth s.ill.drivers k).port with | some p => ports.contains p.toNat | none => false

/-- A withheld APPLY. -/
def skipApply (c : Nat) (s : State) : State :=
  chainRaise c 0x10 (s.onChain c fun x => { x with applySkipCnt := sat x.applySkipCnt })

/-- The pulses of a boundary: SWAP when the tables must change and every chain of the link set is ready, otherwise APPLY; a
chain with an unconfirmed base sends none (R155, R157). The code map comes into force with its SWAP (R149). A held combination
that the map in force lacks, for which R149 names no rebuild, gets its code with the next boundary's map, and its lit sub-slots have
code 0 until then (DESIGN CHOICE, notes/assumptions/115.md); one that ends leaves the map as it is. -/
def boundaryPulses (s : State) : State :=
  let m := mapOf s
  let ports := match litPort s with | some p => setOf p s | none => []
  let s := s.onIll fun i => { i with
    mapNext := m, drivers := Vector.ofFn fun k => { i.drivers[k] with target := targetOf m k.val s } }
  let run := (List.range 4).filter fun c => chainRuns c s
  let differs (f : Driver → Vector (BitVec 16) 64) (c : Nat) : Bool :=
    (chainDrivers c s).any fun k => let d := nth s.ill.drivers k; f d != d.target
  let swap := run.any (differs activeTab)
  let late := swap && run.any fun c => inSet ports c s && (differs inactiveTab c || baseLate c s)
  let s' := run.foldl (fun t c => if baseLate c s then skipApply c t else pulse (swap && !late) c t) s
  let s' := forN 4 (fun p t => t.onPort p fun q => { q with periodDark := late && ports.contains p }) s'
  if late then illRaise 0x8 (s'.onIll fun i => { i with swapOwed := true, tableLateCnt := sat i.tableLateCnt })
  else countCodes (s'.onIll fun i => { i with map := m, rebuild := false, swapOwed := false })

/-- Fades, temperature gains and strings at a boundary; a group whose ILL_FADE is due goes on from the factor it has (R161). -/
def endLightPeriod (due : List Held) (s : State) : State :=
  s.onIll fun i => { i with
    groups := Vector.ofFn fun g => if (fadesOf g.val due).isEmpty then stepFade s.rn s.rd i.groups[g] else i.groups[g]
    tcs := i.tcs.map fun x => match x.next with
      | some r => { x with gain := r.1, temp := r.2.1, col := r.2.2, next := none, early := false }
      | none => x
    strs := i.strs.map endStrPeriod }

/-- ICH_EN of the chains in RUN rises at a boundary outside the safe state (R169). -/
def raiseEnables (s : State) : State :=
  if s.blanked then s
  else s.onIll fun i => { i with chains := i.chains.map fun x => if x.st = .run then { x with en := true } else x }

end Sys2Proof.Machine
end

