-- ==== Sys2Proof/Machine/Loops.lean ====
section
/-!
DEFINITION. The closed-loop engine (spec/05): its commands, triggers, the control law of a step in exact integer arithmetic,
lowest-wins groups, supervision and fault actions, and the PWM outputs.
-/
namespace Sys2Proof.Machine

/-! ## Slots, members and groups (R174, R189 to R192) -/

/-- The loop receives triggers and makes steps: RAMP, RUN or FAULT. -/
def Loop.running (l : Loop) : Bool := l.st == .ramp || l.st == .run || l.st == .fault

/-- The group of output j. -/
def Loop.groupOf (l : Loop) (j : Nat) : Option Nat :=
  if j < l.cfg.m then (nth l.cfg.outs j).group.map (·.toNat) else none

/-- The members of group g, as loop and output. -/
def membersOf (g : Nat) (s : State) : List (Nat × Nat) :=
  (List.range 64).flatMap fun n =>
    let l := s.loop n
    if l.running then ((List.range 2).filter fun j => l.groupOf j == some g).map fun j => (n, j) else []

/-- The outputs assigned to group g, of loops other than n (R189). -/
def assignedOf (g n : Nat) (s : State) : Nat :=
  ((List.range 64).map fun m =>
    let l := s.loop m
    if m = n || l.st == .free then 0 else ((List.range 2).filter fun j => l.groupOf j == some g).length).sum

/-- The values entered in group g. -/
def enteredOf (g : Nat) (s : State) : List Nat :=
  ((membersOf g s).filter fun x => (s.loop x.1).entered.getLsbD x.2).map fun x => nth (s.loop x.1).d x.2

/-- Output j of loop n is selected: its entered D equals the applied value of its group (R190). -/
def isSelected (n j : Nat) (s : State) : Bool :=
  let l := s.loop n
  match l.groupOf j with
  | some g => l.running && l.entered.getLsbD j && nth l.d j == (nth s.cle.groups g).value.toNat
  | none => false

/-- The lowest-numbered selected loop of group g, or 0x7F. -/
def lowestSelected (g : Nat) (s : State) : Nat :=
  match (membersOf g s).find? fun x => isSelected x.1 x.2 s with | some x => x.1 | none => 127

/-- The applied value of group g is recomputed (R189): the least of the entered values and, for an illumination group, of the
die-thermal limit; DEFAULT without an operand. -/
def recompute (g : Nat) (s : State) : State :=
  let x := nth s.cle.groups g
  let ds := enteredOf g s
  let light := x.dest == 1
  let v := match ds ++ (if light then [s.thm.limit] else []) with
    | [] => x.dflt.toNat
    | d :: ds => ds.foldl min d
  let win := light && !ds.isEmpty && ds.all fun d => s.thm.limit < d
  s.onCle fun c => { c with groups := upd c.groups g fun x => { x with
    value := BitVec.ofNat 16 v, dieWin := win, dieCnt := if win && !x.dieWin then sat x.dieCnt else x.dieCnt } }

/-- Every group is recomputed. -/
def recomputeAll (s : State) : State := forN 16 recompute s

/-- Blank source 4 follows the loops in FAULT with ACTION BLANK (R197, R225). -/
def followLoops (s : State) : State :=
  followSource 4 (s.cle.loops.toList.any fun l => l.st == .fault && l.cfg.action == 2) s

/-! ## PWM outputs (R200) -/

/-- The PWM outputs run at FAILSAFE for want of the engine. -/
def pwmFailsafe (s : State) : Bool := s.cle.clockLost || !(engineOn s)

/-- The output takes its duty: FAILSAFE without the engine or without a group, 0 when held low, otherwise the applied value
of its group. -/
def pwmTake (n : Nat) (s : State) : State :=
  let lost := pwmFailsafe s
  let g := s.cle.groups.toList.find? fun x => x.dest == 2 && x.index.toNat == n
  s.onCle fun c => { c with pwms := upd c.pwms n fun w =>
    if lost then { w with duty := w.failsafe, failsafeOn := true }
    else if !w.enable then { w with duty := 0, failsafeOn := false }
    else match g with
      | some x => { w with duty := x.value, failsafeOn := false }
      | none => { w with duty := w.failsafe, failsafeOn := true } }

/-- Every output runs at FAILSAFE from now on, and CLE_STICKY.PWM_FAILSAFE is set. -/
def pwmLose (s : State) : State := cleRaise 0x8 (forN 8 pwmTake s)

/-- The settings that await the end of an output's carrier period. -/
def pwmApply (n : Nat) (s : State) : State :=
  s.onCle fun c => { c with pwms := upd c.pwms n fun w => match w.next with
    | some (f, fs, en, hi) => { w with carrier := f, failsafe := fs, enable := en, activeHigh := hi, next := none }
    | none => w }

/-- PWM_PERIOD_START: a carrier period ends and the next one takes its settings and its duty. -/
def execPwmPeriodStart (n : Fin 8) (s : State) : Host.Outcome State Fault Refusal :=
  .next (if s.live then pwmTake n.val (pwmApply n.val s) else s)

/-- The engine clock's monitor reports a fault, or the clock good again (R32, R200). -/
def engineClock (ok : Bool) (s : State) : State :=
  let s := s.onCle fun c => { c with clockLost := !ok }
  if ok then s else pwmLose s

/-- The engine domain switches off (R174, R201): what lies in CORE keeps its value. -/
def engineOff (s : State) : State :=
  pruneDoms (pwmLose (followLoops (s.onCle fun c => { c with
    loops := c.loops.map fun l => { epoch := l.epoch }, groups := Vector.replicate 16 {}, queue := [] })))

/-! ## Rows of products (R185, R186) -/

/-- sat16 and its 32-bit form. -/
def satF (x32 : Bool) (v : Int) : Int :=
  if x32 then clampI (-2147483648) 2147483647 v else clampI (-32768) 32767 v

/-- v shifted right by n, arithmetically, with the rounding term of one half. -/
def shiftRound (v : Int) (n : Nat) : Int := if n = 0 then v else (v + (2 ^ (n - 1) : Nat)) / (2 ^ n : Nat)

/-- Coefficient i of a set, and entry i of its shift table. -/
def CoefSet.at (c : CoefSet) (i : Nat) : Int := c.value.getD i 0
def CoefSet.sh (c : CoefSet) (i : Nat) : Nat := c.shift.getD i 0

/-- The sum of a row before saturation: terms are (coefficient index, negated, operand), and `row` is the row's entry of the
shift table in F16 mode. -/
def rowSum (x32 : Bool) (c : CoefSet) (row : Nat) (ts : List (Nat × Bool × Int)) : Int :=
  let k (t : Nat × Bool × Int) : Int := if t.2.1 then -(c.at t.1) else c.at t.1
  if x32 then (ts.map fun t => shiftRound (k t * t.2.2) (c.sh t.1)).sum
  else shiftRound ((ts.map fun t => k t * t.2.2).sum) (15 - c.sh row)

/-- A row's result. -/
def rowOf (x32 : Bool) (c : CoefSet) (row : Nat) (ts : List (Nat × Bool × Int)) : Int :=
  satF x32 (rowSum x32 c row ts)

/-- The terms of row i of a matrix whose elements start at index `base` with `width` to a row, over operands vs. -/
def terms (base width i : Nat) (neg : Bool) (vs : List Int) : List (Nat × Bool × Int) :=
  (List.range vs.length).map fun j => (base + i * width + j, neg, vs.getD j 0)

/-! ## Inputs (R180 to R183) -/

/-- A source's value: X, STALE, and sensor fault. -/
structure Reading where
  x : Int := 0
  stale : Bool := false
  fault : Bool := false
  deriving DecidableEq, Repr, Inhabited

/-- The newest of a list of conversions; the held value of an empty one. -/
def lastOr (held : Int) (xs : List (Nat × Int)) : Int := match xs.getLast? with | some x => x.2 | none => held

/-- The window of a step that starts now, from its first instant to before its last (R182): the slot of a SLOT trigger from GUARD_NS on,
else the time since the loop's previous executed step or its entry into RAMP. -/
def stepWindow (l : Loop) (s : State) : Nat × Nat := if l.cfg.kind = 2 then l.win else (l.stepNs, s.ns)

/-- The conversions that enter a step: the last 2,000 of the window, or with LATEST the newest there is. -/
def windowed (latest : Bool) (w : Nat × Nat) (xs : List (Nat × Int)) : List Int :=
  if latest then (xs.drop (xs.length - 1)).map (·.2)
  else
    let ys := xs.filter fun x => decide (w.1 ≤ x.1) && decide (x.1 < w.2)
    (ys.drop (ys.length - 2000)).map (·.2)

/-- The photodiode's reading: the mean of the conversions that enter the step, less the channel's offset. The offset is subtracted
before the mean is rounded, an order that R182 leaves open (DESIGN CHOICE, notes/assumptions/126.md). -/
def photodiode (l : LoopIn) (held : Int) (w : Nat × Nat) (si : SenseIn) (s : State) : Reading :=
  let ofs := signed 16 (u16 ((nth s.cal.regions (48 + l.index.toNat)).cur.toList) 0)
  let used := windowed l.latest w si.convs
  if si.fault || (!used.isEmpty && used.all (· == 65535)) then { fault := true }
  else if si.stale || senseStale s || used.isEmpty then { x := held, stale := true }
  else { x := roundDiv ((used.map fun v => v - ofs).sum) used.length }

/-- The hottest die reading of the sensors not in fault, if any. -/
def hottest (s : State) : Option Int :=
  (((List.range 48).filter fun i => !(nth s.thm.sensFault i)).map fun i => nth s.thm.temp i).max?

/-- What an input's source delivers to a step. -/
def readSource (l : LoopIn) (held : Int) (w : Nat × Nat) (si : SenseIn) (s : State) : Reading :=
  let i := l.index.toNat
  match l.cls.toNat with
  | 1 => photodiode l held w si s
  | 2 =>
    let v := match si.convs.getLast? with | some x => Config.ntcTemp x.2.toNat | none => held
    let stale := si.stale || senseStale s
    if si.fault || !(ntcGood v) then { fault := true } else { x := if stale then held else v, stale := stale }
  | 3 =>
    let q := nth s.ill.strs i
    let stale := q.isStale || senseStale s
    if q.st == .senseFault then { fault := true } else { x := if stale then held else q.volt.toNat, stale := stale }
  | 4 =>
    let q := nth s.pwr.items i
    if q.fault then { fault := true } else { x := if q.stale then held else q.value.toInt, stale := q.stale }
  | 5 =>
    if i < 48 then (if nth s.thm.sensFault i then { fault := true } else { x := nth s.thm.temp i })
    else match hottest s with | some t => { x := t } | none => { fault := true }
  | 6 =>
    let stale := si.stale || s.senseBad
    if si.fault then { fault := true } else { x := if stale then held else lastOr held si.convs, stale := stale }
  | 7 => { x := (nth s.cle.groups i).value.toNat }
  | _ => {}

/-- The operand of a source value (R181). -/
def operandOf (x32 : Bool) (l : LoopIn) (x : Int) : Int := satF x32 (shiftRound (x - l.ofs) l.shift)

/-! ## Gain scheduling (R193) -/

/-- Boundary b_i: none stands for minus infinity at i = 0, and for plus infinity at i = R. -/
def boundAt (l : LoopCfg) (i : Nat) : Option Int :=
  if i = 0 || l.regions ≤ i then none else some (nth l.bounds (i - 1))

/-- b_i + H ≤ v. -/
def reachedUp (l : LoopCfg) (i : Nat) (v : Int) : Bool :=
  match boundAt l i with | some b => decide (b + l.hyst ≤ v) | none => i == 0

/-- v < b_i − H. -/
def reachedDown (l : LoopCfg) (i : Nat) (v : Int) : Bool :=
  match boundAt l i with | some b => decide (v < b - l.hyst) | none => i != 0

/-- The region of a step from the current region c. -/
def nextRegion (l : LoopCfg) (c : Nat) (v : Int) : Nat :=
  if reachedUp l (c + 1) v then ((List.range l.regions).filter fun i => reachedUp l i v).getLast?.getD c
  else if reachedDown l c v then ((List.range l.regions).find? fun i => reachedDown l (i + 1) v).getD c
  else c

/-! ## References (R195) -/

/-- A step's reference j: a pending one takes its input's value; a changed one jumps to its target or starts to ramp; a
ramping one moves toward its target. In FAULT none ramps. -/
def stepRef (y : List Int) (j : Nat) (l : Loop) : Loop :=
  let tgt := nth l.cfg.target j
  let st := nth l.cfg.rampStep j
  let mask := bit1 2 j
  let q := if j = 0 then l.cfg.q0 else l.cfg.q1
  let l :=
    if l.rJump.getLsbD j then
      if l.cfg.rampOnChange && st != 0 then
        { l with rJump := l.rJump &&& ~~~mask, ramping := l.ramping ||| mask, st := if l.st = .run then .ramp else l.st }
      else { l with
        rJump := l.rJump &&& ~~~mask, ramping := l.ramping &&& ~~~mask, rPending := l.rPending &&& ~~~mask
        r := upd l.r j fun _ => tgt }
    else l
  if l.st = .fault then l
  else
    let l :=
      if l.rPending.getLsbD j then
        { l with rPending := l.rPending &&& ~~~mask, r := upd l.r j fun _ => y.getD q.toNat 0 }
      else if l.ramping.getLsbD j then
        { l with r := upd l.r j fun r => if st = 0 then tgt else r + clampI (-(st : Int)) st (tgt - r) }
      else l
    if nth l.r j = tgt then { l with ramping := l.ramping &&& ~~~mask } else l

/-- Both references step, and the loop enters RUN when none is still on its way. -/
def stepRefs (y : List Int) (l : Loop) : Loop :=
  let l := stepRef y 1 (stepRef y 0 l)
  if l.st = .ramp && l.ramping == 0 && l.rPending == 0 then { l with st := .run } else l

/-! ## Supervision (R196, R197) -/

/-- The residual filters and counts of a step, and whether a count reaches SUP_CNT. -/
def supervise (rho : List Int) (stale : List Bool) (l : Loop) : Loop × Bool :=
  if l.quiet ≠ 0 then ({ l with quiet := l.quiet - 1 }, false)
  else (List.range l.cfg.p).foldl (fun x i =>
    let l := x.1
    if stale.getD i false then x
    else
      let f := nth l.f i + ((rho.getD i 0).natAbs - nth l.f i) / (2 ^ l.cfg.rs : Nat)
      let thr := nth l.cfg.thr i
      let n := if thr ≠ 0 ∧ (thr : Int) < f then nth l.fCount i + 1 else 0
      ({ l with f := upd l.f i fun _ => f, fCount := upd l.fCount i fun _ => n },
        x.2 || (thr != 0 && decide (l.cfg.supCnt ≤ n)))) (l, false)

/-- Entry into FAULT with a cause's sticky bit. -/
def enterFault (n : Nat) (cause : BitVec 3) (s : State) : State :=
  let blank := (s.loop n).cfg.action == 2
  cleRaise (if blank then 0x3 else 0x1) (loopRaise n cause (s.onLoop n fun l => { l with
    st := .fault, faultCnt := sat l.faultCnt }))

/-! ## One step (R184) -/

/-- The coefficient set of the loop's region. -/
def Loop.coef (l : Loop) : CoefSet := ((nth l.coefs l.region)).getD {}

/-- The state vector s: x̂ then z. -/
def Loop.stateVec (l : Loop) : List Int := l.x.toList.take l.cfg.nObs ++ l.z.toList.take l.cfg.nInt

/-- Output j before the clamp (R187). -/
def dRaw (l : Loop) (j : Nat) : Int :=
  let u := rowOf l.cfg.x32 l.coef (10 + j) (terms 144 8 j true l.stateVec ++ terms 160 2 j false l.r.toList)
  if l.cfg.x32 then u else roundDiv (u * 65535) 32767

/-- The value that an output enters: clamped, or that of its fault action (R197). -/
def dOut (l : Loop) (j : Nat) : Nat :=
  let o := nth l.cfg.outs j
  if l.st = .fault then
    if l.cfg.action = 0 && l.produced.getLsbD j then nth l.lastGood j else o.safe
  else (clampI o.lo o.hi (dRaw l j)).toNat

/-- The applied value of output j in the loop's units (R187). -/
def appliedOf (n j : Nat) (s : State) : Int :=
  let l := s.loop n
  let v : Nat := match l.groupOf j with | some g => (nth s.cle.groups g).value.toNat | none => (nth l.d j : Nat)
  if l.cfg.x32 then (v : Int) else roundDiv ((v : Int) * 32767) 65535

/-- Output j enters its D. -/
def enterOut (n j : Nat) (s : State) : State :=
  let l := s.loop n
  let o := nth l.cfg.outs j
  let raw := dRaw l j
  let d := dOut l j
  let out := raw < o.lo || (o.hi : Int) < raw
  let s := s.onLoop n fun l => { l with
    d := upd l.d j fun _ => d, entered := l.entered ||| bit1 2 j
    saturated := if out then l.saturated ||| bit1 2 j else l.saturated &&& ~~~(bit1 2 j)
    produced := if l.st = .fault then l.produced else l.produced ||| bit1 2 j
    lastGood := if l.st = .fault then l.lastGood else upd l.lastGood j fun _ => d }
  match l.groupOf j with | some g => recompute g s | none => s

/-- Integral state j is updated in this step (R190). -/
def integrates (n j : Nat) (s : State) : Bool :=
  let l := s.loop n
  !(l.saturated.getLsbD j) && l.st != .fault && ((l.groupOf j).isNone || isSelected n j s)

/-- A step enters its outputs in order, and each output's applied value comes back as it enters. -/
def enterOuts (n : Nat) : Nat → State → State × List Int
  | 0, s => (s, [])
  | j + 1, s =>
    let x := enterOuts n j s
    let s := enterOut n j x.1
    (s, x.2 ++ [appliedOf n j s])

/-- The destination of some output is inactive (R191). -/
def destInactive (n : Nat) (s : State) : Bool :=
  let l := s.loop n
  (List.range 2).any fun j => match l.groupOf j with
    | none => false
    | some g =>
      let x := nth s.cle.groups g
      let port := x.index.toNat / 4
      let ps := (s.port port).st
      x.dest == 1 && (ps == .off || ps == .settle || ps == .dark ||
        (List.range 128).any fun k =>
          let d := nth s.ill.drivers k
          d.port == some (BitVec.ofNat 2 port) && d.group.toNat == x.index.toNat % 4 && !(s.chain (k / 32)).en)

/-- The readings of the inputs of a step; input p of the list is the schedule variable. A faulted source's value is open. -/
def readings (l : Loop) (sense : List SenseIn) (s : State) : List Reading :=
  (List.range (l.cfg.p + 1)).map fun i =>
    let src := if i = l.cfg.p then l.cfg.sched else nth l.cfg.ins i
    let held := if i = l.cfg.p then l.schedHeld else nth l.held i
    let r := readSource src held (stepWindow l s) (sense.getD i {}) s
    if r.fault then { r with x := Config.faultedInput s.free i } else r

/-- The new observer and integral states. -/
def nextStates (l : Loop) (y rho a : List Int) (upd? : Nat → Bool) : Vector Int 8 × Vector Int 2 :=
  let c := l.coef
  let xs := l.x.toList.take l.cfg.nObs
  (Vector.ofFn fun i => if i.val < l.cfg.nObs then
      rowOf l.cfg.x32 c i.val (terms 0 8 i.val false xs ++ terms 64 2 i.val false a ++ terms 80 4 i.val false rho)
    else l.x[i],
   Vector.ofFn fun j => if j.val < l.cfg.nInt && upd? j.val then
      let q := if j.val = 0 then l.cfg.q0 else l.cfg.q1
      let e := nth l.r j.val - y.getD q.toNat 0
      satF l.cfg.x32 (l.z[j] + rowSum l.cfg.x32 c (8 + j.val) [(164 + j.val, false, e)])
    else l.z[j])

/-- The step of loop n on the sense die's deliveries, when its destinations are active. -/
def runStep (n : Nat) (sense : List SenseIn) (s : State) : State :=
  let l := s.loop n
  let rs := readings l sense s
  let ins := rs.take l.cfg.p
  let anyFault := rs.any (·.fault) && (l.cfg.regions != 1 || ins.any (·.fault))
  let sched := (rs.getLast?.getD {})
  let s := if rs.any (·.fault) then s.useFree else s
  let region := nextRegion l.cfg l.region (operandOf l.cfg.x32 l.cfg.sched sched.x)
  let y := (List.range l.cfg.p).map fun i => operandOf l.cfg.x32 (nth l.cfg.ins i) (ins.getD i {}).x
  let s := s.onLoop n fun l => { l with
    region := region, swapCnt := if region = l.region then l.swapCnt else sat l.swapCnt
    held := Vector.ofFn fun i => if i.val < l.cfg.p && !(ins.getD i.val {}).fault then (ins.getD i.val {}).x else l.held[i]
    schedHeld := if sched.fault then l.schedHeld else sched.x
    skipped := false, staleStep := ins.any (·.stale), stepNs := s.ns }
  let s := if anyFault && l.st != .fault then enterFault n 0x2 s else s
  let s := s.onLoop n (stepRefs y)
  let l := s.loop n
  let xs := l.x.toList.take l.cfg.nObs
  let rho := (List.range l.cfg.p).map fun i => y.getD i 0 - rowOf l.cfg.x32 l.coef (12 + i) (terms 112 8 i false xs)
  let sup := supervise rho (ins.map (·.stale)) l
  let s := s.onLoop n fun _ => sup.1
  let s := if sup.2 && l.st != .fault then enterFault n 0x1 s else s
  let x := enterOuts n l.cfg.m s
  let s := x.1.onLoop n fun l =>
    let v := nextStates l y rho x.2 fun j => integrates n j x.1
    { l with
      x := v.1, z := v.2, sampleCnt := sat l.sampleCnt
      resid := BitVec.ofNat 32 (min 4294967295 (((l.f.toList.take l.cfg.p).foldl max 0).toNat)) }
  followLoops s

/-- A trigger of loop n has not started its step. -/
def trigPending (n : Nat) (s : State) : Bool := s.cle.queue.any fun x => x.2 == n

/-- The step of loop n is the next one: triggers are taken in their order, and those of one instant by ascending loop number (R178). -/
def stepNext (n : Nat) (s : State) : Bool := s.cle.queue.head?.map (·.2) == some n

/-- A loop's trigger is taken out of the queue. -/
def dropTrigger (n : Nat) (s : State) : State := s.onCle fun c => { c with queue := c.queue.filter fun x => x.2 != n }

/-- LOOP_STEP: the step of the oldest trigger is executed, or skipped while a destination is inactive (R191). -/
def execLoopStep (n : Fin 64) (sense : List SenseIn) (s : State) : Host.Outcome State Fault Refusal :=
  .next (if !s.live || s.cle.clockLost || !(stepNext n.val s) then s
    else
      let s := dropTrigger n.val s
      if !(s.loop n.val).running then s
      else if destInactive n.val s then s.onLoop n.val fun l => { l with skipped := true, skipCnt := sat l.skipCnt }
      else runStep n.val sense s)

/-! ## Triggers (R176, R178, R179) -/

/-- A trigger enters the queue: after the earlier ones and those of the same instant with a lower loop number. -/
def enqueue (x : Nat × Nat) : List (Nat × Nat) → List (Nat × Nat)
  | [] => [x]
  | y :: ys => if x.1 < y.1 || (x.1 == y.1 && x.2 < y.2) then x :: y :: ys else y :: enqueue x ys

/-- A trigger of loop n: its step is queued, or the trigger is dropped while the step of an earlier one has not started. -/
def fireTrigger (n : Nat) (s : State) : State :=
  if s.cle.clockLost || !(s.loop n).running then s
  else if trigPending n s then
    cleRaise 0x4 (loopRaise n 0x4 (s.onLoop n fun l => { l with overrunCnt := sat l.overrunCnt }))
  else s.onCle fun c => { c with queue := enqueue (s.ns, n) c.queue }

/-- The TICK triggers of a period that lie at or before tick t. -/
def ticksPast (l : LoopCfg) (t : Nat) : Nat :=
  if t < l.trigA.toNat then 0
  else if l.trigB = 0 then l.count
  else min l.count ((t - l.trigA.toNat) / l.trigB.toNat + 1)

/-- INTERVAL in 1/4 ns, rounded to the engine's cycle of 1.25 ns. -/
def intervalQ (l : LoopCfg) : Nat := 5 * (roundDiv (4 * l.trigA.toNat) 5).toNat

/-- A TIME or TICK trigger of loop n is due: the first one at any time, each later one an INTERVAL on; the ticks of TRIG_A and TRIG_B. A
SLOT trigger fires with the end of its slot. -/
def trigDue (l : Loop) (s : State) : Bool :=
  match l.cfg.kind.toNat with
  | 0 => match l.timeNext with | some t => decide (t ≤ 4 * s.ns) | none => true
  | 1 => decide (l.tickCnt < ticksPast l.cfg s.tick)
  | _ => false

/-- The trigger that is due has fired. -/
def trigMade (s : State) (l : Loop) : Loop :=
  match l.cfg.kind.toNat with
  | 0 => { l with timeNext := some (l.timeNext.getD (4 * s.ns) + intervalQ l.cfg) }
  | 1 => { l with tickCnt := l.tickCnt + 1 }
  | _ => l

/-- LOOP_TRIGGER: the TIME or TICK trigger of loop n that is due fires. -/
def execLoopTrigger (n : Fin 64) (s : State) : Host.Outcome State Fault Refusal :=
  .next (let l := s.loop n.val
    if !s.live || !l.running || !(trigDue l s) then s else fireTrigger n.val (s.onLoop n.val (trigMade s)))

/-- A loop's triggers are counted anew from here: those of the period that are past do not fire. -/
def armTriggers (s : State) (l : Loop) : Loop := { l with decCnt := 0, tickCnt := ticksPast l.cfg s.tick, timeNext := none }

/-- A period ends: its TICK triggers come again. -/
def endLoopPeriod (s : State) : State :=
  s.onCle fun c => { c with loops := c.loops.map fun l => { l with tickCnt := 0 } }

/-- A slot of port p with the given entries ends: SLOT triggers, in ascending loop number. -/
def slotTriggers (p : Nat) (entry : Vector (BitVec 6) 4) (s : State) : State :=
  forN 64 (fun n s =>
    let l := s.loop n
    let a := l.cfg.trigA.toNat
    if !l.running || l.cfg.kind != 2 || l.cfg.port.toNat != p ||
        (l.cfg.fEnable && (nth entry l.cfg.fGroup.toNat).toNat != field a 0 6) then s
    else if field a 8 8 ≤ l.decCnt then
      fireTrigger n (s.onLoop n fun l => { l with
        decCnt := 0, win := if trigPending n s then l.win else ((s.port p).slotNs + field a 16 16, s.ns) })
    else s.onLoop n fun l => { l with decCnt := l.decCnt + 1 }) s

/-! ## LOOP_SET -/

/-- The greatest index of an input class (R180). -/
def maxIndex (cls : Nat) : Nat :=
  match cls with | 1 => 11 | 2 => 7 | 3 => 23 | 4 => 31 | 5 => 48 | 6 => 3 | 7 => 15 | _ => 255

/-- The descriptor of a LOOP_SET payload. -/
def parseLoop (b : List Byte) : LoopCfg :=
  let x32 := bitOf (u8 b 0) 2
  let num (o : Nat) : Int := if x32 then i32 b o else i16 b o
  { x32 := x32
    nObs := field (u8 b 1) 0 4, nInt := field (u8 b 1) 4 2, p := field (u8 b 2) 0 3, m := field (u8 b 2) 3 2
    kind := BitVec.ofNat 2 (u8 b 3), port := BitVec.ofNat 2 (field (u8 b 3) 2 2)
    fGroup := BitVec.ofNat 2 (field (u8 b 3) 4 2), fEnable := bitOf (u8 b 3) 6
    trigA := BitVec.ofNat 32 (u32 b 4), trigB := BitVec.ofNat 32 (u32 b 8), count := u16 b 176
    q0 := BitVec.ofNat 2 (u8 b 12), q1 := BitVec.ofNat 2 (field (u8 b 12) 2 2), rampOnChange := bitOf (u8 b 12) 4
    rs := field (u8 b 13) 0 4, action := BitVec.ofNat 2 (field (u8 b 13) 4 2), supCnt := u8 b 14
    ins := Vector.ofFn fun i =>
      let o := 16 + 8 * i.val
      { cls := BitVec.ofNat 8 (u8 b o), index := BitVec.ofNat 8 (u8 b (o + 1)), shift := u8 b (o + 2)
        latest := bitOf (u8 b (o + 3)) 0, ofs := i32 b (o + 4) }
    outs := Vector.ofFn fun j =>
      let o := 48 + 8 * j.val
      { group := if u8 b o = 0xFF then none else some (BitVec.ofNat 4 (u8 b o))
        lo := u16 b (o + 2), hi := u16 b (o + 4), safe := u16 b (o + 6) }
    target := Vector.ofFn fun j => i32 b (64 + 8 * j.val)
    rampStep := Vector.ofFn fun j => u32 b (68 + 8 * j.val)
    sched := { cls := BitVec.ofNat 8 (u8 b 80), index := BitVec.ofNat 8 (u8 b 81), shift := u8 b 82, ofs := i32 b 84 }
    regions := u8 b 83, hyst := u32 b 88
    bounds := Vector.ofFn fun i => i32 b (92 + 4 * i.val)
    thr := Vector.ofFn fun i => u32 b (120 + 4 * i.val)
    x0 := Vector.ofFn fun i => num (136 + 4 * i.val)
    z0 := Vector.ofFn fun i => num (168 + 4 * i.val) }

/-- The reserved fields of a LOOP_SET payload. -/
def loopReserved (c : Cmd) : Option Refuse := checks [
  rsvBits c 0 0xF8, rsvBits c 1 0xC0, rsvBits c 2 0xE0, rsvBits c 3 0x80, rsvBits c 12 0xE0, rsvBits c 13 0xC0, rsv c 15 1,
  badAt c 4 (field (u8 (Cmd.payload c) 3) 0 2 == 2 && field (u32 (Cmd.payload c) 4) 6 2 != 0),
  badAt c 8 (field (u8 (Cmd.payload c) 3) 0 2 == 1 && u8 (Cmd.payload c) 11 != 0),
  checks ((List.range 4).map fun i => badAt c (16 + 8 * i) (u8 (Cmd.payload c) (19 + 8 * i) &&& 0xFE != 0)),
  checks ((List.range 2).map fun j => badAt c (48 + 8 * j) (u8 (Cmd.payload c) (49 + 8 * j) != 0)), rsv c 178 2]

/-- A reference target lies outside the loop's number format. -/
def outsideFormat (x32 : Bool) (v : Int) : Bool := !x32 && (v < -32768 || 32767 < v)

/-- The limits of R173, R176, R180, R181 and R193. -/
def loopLimits (c : Cmd) : Option Refuse :=
  let b := Cmd.payload c
  let l := parseLoop b
  let a := u32 b 4
  let inputBad (o : Nat) : Option Refuse := badAt c o (7 < u8 b o || maxIndex (u8 b o) < u8 b (o + 1) || 15 < u8 b (o + 2))
  let bd (i : Nat) : Int := nth l.bounds (i - 1)
  checks [
    badAt c 1 (8 < l.nObs || 2 < l.nInt || 8 < l.nObs + l.nInt || l.m < l.nInt),
    badAt c 2 (outside 1 4 l.p || outside 1 2 l.m),
    badAt c 3 (l.kind == 3),
    badAt c 4 (match l.kind.toNat with
      | 0 => outside 1000 1000000 a
      | 1 => decide (16777216 ≤ a)
      | _ => false),
    badAt c 8 (l.kind != 1 && u32 b 8 != 0),
    badAt c 176 (if l.kind = 1 then outside 1 2081 l.count else l.count != 0),
    badAny (l.kind == 1 && decide (16777216 ≤ a + (l.count - 1) * u32 b 8)),
    badAt c 13 (l.action == 3), badAt c 14 (l.supCnt == 0),
    checks ((List.range l.p).map fun i => inputBad (16 + 8 * i)),
    checks ((List.range l.m).map fun j => badAt c (48 + 8 * j) (15 < u8 b (48 + 8 * j) && u8 b (48 + 8 * j) != 0xFF)),
    checks ((List.range 2).map fun j => badAt c (64 + 8 * j) (outsideFormat l.x32 (nth l.target j))),
    inputBad 80, badAt c 80 (outside 1 8 l.regions),
    badAt c 80 ((List.range 7).any fun i => decide (l.regions ≤ i + 1) && bd (i + 1) != 0),
    badAt c 80 ((List.range 6).any fun i =>
      decide (i + 2 < l.regions) && decide (bd (i + 2) - bd (i + 1) ≤ 2 * (l.hyst : Int)))]

/-- A charged rate (R176) as a fraction. -/
def chargeOf (l : LoopCfg) : Nat × Nat :=
  match l.kind.toNat with
  | 0 => (1000000000, l.trigA.toNat)
  | 1 => (l.count * 48048, 100)
  | _ => (64064, field l.trigA.toNat 8 8 + 1)

/-- The sum of the charged rates of the running loops other than n, as a fraction. -/
def loadOf (n : Nat) (s : State) : Nat × Nat :=
  (List.range 64).foldl (fun x m =>
    let l := s.loop m
    if m ≠ n && l.running then
      let y := chargeOf l.cfg
      (x.1 * y.2 + y.1 * x.2, x.2 * y.2)
    else x) (0, 1)

/-- LOOP_SET would exceed the step budget (R177). -/
def overBudget (n : Nat) (l : LoopCfg) (s : State) : Bool :=
  let x := loadOf n s
  let y := chargeOf l
  32000000 * (x.2 * y.2) < x.1 * y.2 + y.1 * x.2

/-- Some output j of the descriptor would be the ninth of its group. -/
def groupFull (n j : Nat) (l : LoopCfg) (s : State) : Bool :=
  match ({ cfg := l } : Loop).groupOf j with
  | none => false
  | some g => 8 < assignedOf g n s + ((List.range (j + 1)).filter fun i => ({ cfg := l } : Loop).groupOf i == some g).length

/-- Entry to RAMP from STOP or FAULT (R182, R195, R196). -/
def rampEntry (s : State) (l : Loop) : Loop :=
  let steps := (bit1 2 0 &&& (if nth l.cfg.rampStep 0 = 0 then 0 else 3)) ||| (bit1 2 1 &&& (if nth l.cfg.rampStep 1 = 0 then 0 else 3))
  { l with
    st := .ramp, x := l.cfg.x0, z := l.cfg.z0, rPending := steps, ramping := steps, rJump := 0
    r := Vector.ofFn fun j => if nth l.cfg.rampStep j.val = 0 then l.cfg.target[j] else l.r[j]
    f := Vector.replicate 4 0, fCount := Vector.replicate 4 0, quiet := l.cfg.nObs + 1, produced := 0, stepNs := s.ns }

/-- The loop with a new descriptor. Outputs that change their group have entered nothing there. -/
def setLoop (run : Bool) (d : LoopCfg) (s : State) (l : Loop) : Loop :=
  let new : Loop := { l with cfg := d }
  let moved (j : Nat) : Bool := l.groupOf j != new.groupOf j
  let epoch := if l.st == .free || l.cfg.kind != d.kind || moved 0 || moved 1 then l.epoch + 1 else l.epoch
  let new := { new with
    epoch := epoch, region := min l.region (d.regions - 1)
    entered := l.entered &&& ~~~((if moved 0 then 1 else 0) ||| (if moved 1 then 2 else 0)) }
  let new := armTriggers s new
  if !run then { new with st := .stop, entered := 0 }
  else if l.st == .ramp || l.st == .run then
    { new with rJump := l.rJump ||| (if nth l.cfg.target 0 = nth d.target 0 then 0 else 1)
                 ||| (if nth l.cfg.target 1 = nth d.target 1 then 0 else 2) }
  else rampEntry s new

/-- A slot returned to FREE keeps its epoch, which increments, and what only PORST_N, a written 1 or the engine domain clears
(R175, R201). -/
def freeLoop (l : Loop) : Loop :=
  { epoch := l.epoch + 1, sticky := l.sticky, sampleCnt := l.sampleCnt, skipCnt := l.skipCnt, overrunCnt := l.overrunCnt
    faultCnt := l.faultCnt, swapCnt := l.swapCnt }

def specLoopSet : OpSpec where
  op := 0x0400
  cls := [clsLoop]
  len := lenIs 180
  owners := ownTarget
  check c s :=
    let b := Cmd.payload c
    let n := c.tindex.toNat
    let l := parseLoop b
    let run := bitOf (u8 b 0) 1
    checks [loopReserved c,
      if bitOf (u8 b 0) 0 then checks [
        loopLimits c,
        checks ((List.range l.m).map fun j => badAt c (48 + 8 * j) (groupFull n j l s)),
        badAt c 0 (run && (List.range l.regions).any fun r => (nth (s.loop n).coefs r).isNone),
        chk (run && overBudget n l s) ⟨.budgetExceeded, 0⟩]
      else badAt c 0 run]
  effect h s :=
    let b := Cmd.payload h.cmd
    let n := h.cmd.tindex.toNat
    if bitOf (u8 b 0) 0 then
      let run := bitOf (u8 b 0) 1
      { st := followLoops (recomputeAll ((if run then s else dropTrigger n s).onLoop n (setLoop run (parseLoop b) s))) }
    else if (s.loop n).st == .free then { st := s }
    else
      let s := (dropTrigger n s).onLoop n freeLoop
      { st := if engineOn s then followLoops (recomputeAll s) else engineOff s }

/-! ## The other commands -/

/-- A coefficient of a LOOP_COEF_SET payload. -/
def parseCoef (x32 : Bool) (b : List Byte) : CoefSet :=
  { value := (List.range 168).map fun i => if x32 then i32 b (8 + 4 * i) else i16 b (8 + 4 * i)
    shift := (List.range 168).map fun i => u8 b (680 + i) }

def specLoopCoefSet : OpSpec where
  op := 0x0401
  cls := [clsLoop]
  len := lenIs 848
  owners := ownTarget
  check c s :=
    let b := Cmd.payload c
    let l := s.loop c.tindex.toNat
    let x32 := l.cfg.x32
    checks [badAt c 0 (7 < u8 b 0), rsv c 1 7, rsv c 672 8, rsv c 846 2,
      busyIf (l.st == .free),
      checks ((List.range 168).map fun i => badAt c (8 + 4 * i) (!x32 && u16 b (10 + 4 * i) != 0)),
      checks ((List.range 168).map fun i => badAt c (680 + i)
        (decide ((if x32 then 31 else if i < 16 then 7 else 0) < u8 b (680 + i))))]
  effect h s :=
    let b := Cmd.payload h.cmd
    { st := s.onLoop h.cmd.tindex.toNat fun l => { l with coefs := upd l.coefs (u8 b 0) fun _ => some (parseCoef l.cfg.x32 b) } }

def specLoopRefSet : OpSpec where
  op := 0x0402
  cls := [clsLoop]
  len := lenIs 12
  owners := ownTarget
  check c s :=
    let b := Cmd.payload c
    let l := s.loop c.tindex.toNat
    checks [rsvBits c 0 0xFC, rsv c 1 3, busyIf (l.st == .free),
      checks ((List.range 2).map fun j =>
        badAt c (4 + 4 * j) (bitOf (u8 b 0) j && outsideFormat l.cfg.x32 (i32 b (4 + 4 * j))))]
  effect h s :=
    let b := Cmd.payload h.cmd
    let m := BitVec.ofNat 2 (u8 b 0)
    { st := s.onLoop h.cmd.tindex.toNat fun l => { l with
        cfg := { l.cfg with target := Vector.ofFn fun j => if m.getLsbD j.val then i32 b (4 + 4 * j.val) else l.cfg.target[j] }
        rJump := if l.running then l.rJump ||| m else l.rJump } }

/-- Some other group has the destination. -/
def destTaken (g : Nat) (dest index : Nat) (s : State) : Bool :=
  dest != 0 && (List.range 16).any fun i => i != g &&
    let x := nth s.cle.groups i
    x.dest.toNat == dest && x.index.toNat == index

def specLoopGroupSet : OpSpec where
  op := 0x0403
  cls := [clsLgroup]
  len := lenIs 4
  owners := ownConfig
  check c s :=
    let b := Cmd.payload c
    let d := u8 b 0
    checks [badAt c 0 (2 < d), badAt c 1 ((d == 1 && 15 < u8 b 1) || (d == 2 && 7 < u8 b 1)),
      busyIf (!(engineOn s)), badAt c 0 (destTaken c.tindex.toNat d (u8 b 1) s)]
  effect h s :=
    let b := Cmd.payload h.cmd
    let g := h.cmd.tindex.toNat
    { st := recompute g (s.onCle fun c => { c with groups := upd c.groups g fun x => { x with
        dest := BitVec.ofNat 2 (u8 b 0), index := BitVec.ofNat 4 (u8 b 1), dflt := BitVec.ofNat 16 (u16 b 2) } }) }

def specLoopArm : OpSpec where
  op := 0x0404
  cls := [clsLoop]
  len := lenIs 0
  owners := ownTarget
  check c s := busyIf ((s.loop c.tindex.toNat).st != .fault)
  effect h s := { st := followLoops (recomputeAll (s.onLoop h.cmd.tindex.toNat (rampEntry s))) }

def specLoopPwmSet : OpSpec where
  op := 0x0405
  cls := [clsPwm]
  len := lenIs 8
  owners := ownConfig
  check c _ := checks [badAt c 0 (outside 1000 100000 (u32 (Cmd.payload c) 0)), rsvBits c 6 0xFC, rsv c 7 1]
  effect h s :=
    let b := Cmd.payload h.cmd
    let n := h.cmd.tindex.toNat
    let held := !(nth s.cle.pwms n).enable
    let s := s.onCle fun c => { c with pwms := upd c.pwms n fun w => { w with
      next := some (u32 b 0, BitVec.ofNat 16 (u16 b 4), bitOf (u8 b 6) 0, bitOf (u8 b 6) 1) } }
    { st := if held then pwmTake n (pwmApply n s) else s }

def execLoopSet (cmd : Cmd) (s : State) : Host.Outcome State Fault Refusal := .next (accept specLoopSet cmd s)
def execLoopCoefSet (cmd : Cmd) (s : State) : Host.Outcome State Fault Refusal := .next (accept specLoopCoefSet cmd s)
def execLoopRefSet (cmd : Cmd) (s : State) : Host.Outcome State Fault Refusal := .next (accept specLoopRefSet cmd s)
def execLoopGroupSet (cmd : Cmd) (s : State) : Host.Outcome State Fault Refusal := .next (accept specLoopGroupSet cmd s)
def execLoopArm (cmd : Cmd) (s : State) : Host.Outcome State Fault Refusal := .next (accept specLoopArm cmd s)
def execLoopPwmSet (cmd : Cmd) (s : State) : Host.Outcome State Fault Refusal := .next (accept specLoopPwmSet cmd s)

end Sys2Proof.Machine
end

