-- ==== Sys2Proof/Machine/Exclusion.lean ====
section
/-!
DEFINITION. The exclusion engine, the safety blank and the symbol lists (spec/06): regions and their tests, versions and their
take-up by bands, masking, the audit, the stuck-on check, the safety inputs, and the symbol commands.
-/
namespace Sys2Proof.Machine

/-! ## Regions (R203 to R210) -/

/-- The descriptor of 80 bytes at offset o (R204). -/
def parseRegion (b : List Byte) (o : Nat) : Region :=
  { shape := BitVec.ofNat 8 (u8 b o), kind := BitVec.ofNat 8 (u8 b (o + 1)), cap := BitVec.ofNat 16 (u16 b (o + 2))
    x0 := BitVec.ofNat 16 (u16 b (o + 4)), y0 := BitVec.ofNat 16 (u16 b (o + 6)), x1 := BitVec.ofNat 16 (u16 b (o + 8))
    y1 := BitVec.ofNat 16 (u16 b (o + 10)), nv := BitVec.ofNat 8 (u8 b (o + 12)), geom := slice b (o + 16) 64 }

/-- The region is hard; its view mask holds view v. -/
def Region.hard (r : Region) : Bool := !r.kind.getLsbD 0
def Region.sees (r : Region) (v : Nat) : Bool := v < 5 && r.kind.getLsbD (v + 1)

/-- The view mask is not empty. -/
def Region.seen (r : Region) : Bool := field r.kind.toNat 1 5 != 0

/-- The ellipse test of R205 at a pixel. -/
def ellipseHas (g : List Byte) (x y : Nat) : Bool :=
  let dx : Int := 16 * x + 8 - i32 g 0
  let dy : Int := 16 * y + 8 - i32 g 4
  decide ((u16 g 8 : Int) * dx * dx + i16 g 12 * dx * dy + (u16 g 10 : Int) * dy * dy ≤ u64 g 16)

/-- Vertex i of a polygon, modulo its count. -/
def vertex (g : List Byte) (n i : Nat) : Int × Int := (i32 g (8 * (i % n)), i32 g (8 * (i % n) + 4))

/-- E_i of R206 at a point. -/
def edgeAt (g : List Byte) (n i : Nat) (px py : Int) : Int :=
  let a := vertex g n i
  let b := vertex g n (i + 1)
  (b.1 - a.1) * (py - a.2) - (b.2 - a.2) * (px - a.1)

/-- The polygon test of R206 at a pixel. -/
def polygonHas (g : List Byte) (n x y : Nat) : Bool :=
  (List.range n).all fun i => decide (0 ≤ edgeAt g n i (16 * x + 8) (16 * y + 8))

/-- The mask plane's runs hold a pixel (R207). -/
def runsHave (runs : List (Nat × Nat × Nat)) (x y : Nat) : Bool :=
  runs.any fun r => r.1 == y && r.2.1 ≤ x && x ≤ r.2.2

/-- A pixel lies in a region: within BOX and past the shape test (R205 to R207). -/
def Region.has (runs : List (Nat × Nat × Nat)) (r : Region) (x y : Nat) : Bool :=
  r.x0.toNat ≤ x && x ≤ r.x1.toNat && r.y0.toNat ≤ y && y ≤ r.y1.toNat &&
  (match r.shape.toNat with
    | 1 => ellipseHas r.geom x y
    | 2 => polygonHas r.geom r.nv.toNat x y
    | 3 => runsHave runs x y
    | _ => false)

/-- A pixel is hard for a view (R208). -/
def hardPixel (ver : XVersion) (v x y : Nat) : Bool :=
  ver.regions.toList.any fun r => r.hard && r.sees v && r.has ver.runs x y

/-- A pixel's soft cap for a view, if any (R208). -/
def softCap (ver : XVersion) (v x y : Nat) : Option Nat :=
  ((ver.regions.toList.filter fun r => r.shape != 0 && !r.hard && r.sees v && r.has ver.runs x y).map
    fun r => r.cap.toNat).min?

/-- The hard pixels of row y for a view as a bit mask, over the columns that any hard region's BOX covers. -/
def hardRow (ver : XVersion) (v y : Nat) : Nat :=
  let rs := ver.regions.toList.filter fun r =>
    r.shape != 0 && r.hard && r.sees v && r.y0.toNat ≤ y && y ≤ r.y1.toNat
  rs.foldl (fun m r =>
    (List.range (r.x1.toNat + 1 - r.x0.toNat)).foldl (fun m i =>
      let x := r.x0.toNat + i
      if r.has ver.runs x y then m ||| 2 ^ x else m) m) 0

/-- The descriptor at payload offset o breaks R204, R205, R206 or R210. -/
def regionBad (c : Cmd) (o : Nat) : Option Refuse :=
  let b := Cmd.payload c
  let r := parseRegion b o
  let n := r.nv.toNat
  let p := u16 r.geom 8
  let q := u16 r.geom 10
  let qc := i16 r.geom 12
  if r.shape = 0 then rsv c (o + 13) 3
  else checks [
    badAt c o (3 < r.shape.toNat), rsvBits c (o + 1) 0xC0, badAt c (o + 2) (r.hard && r.cap != 0),
    badAt c (o + 4) (r.x1 < r.x0 || r.y1 < r.y0 || 8191 < r.x1.toNat || 4351 < r.y1.toNat),
    badAt c (o + 12) (if r.shape = 2 then outside 3 8 n else n != 0),
    rsv c (o + 13) 3,
    match r.shape.toNat with
    | 1 => badAt c (o + 16) (p == 0 || q == 0 || decide (4 * (p : Int) * q ≤ qc * qc) || !zeros (Cmd.payload c) (o + 30) 2 ||
        !zeros (Cmd.payload c) (o + 40) 40)
    | 2 => checks [badAt c (o + 16) (!zeros (Cmd.payload c) (o + 16 + 8 * n) (64 - 8 * n)),
        badAt c (o + 16) ((List.range n).any fun i =>
          ((List.range n).any fun j => decide (edgeAt r.geom n i (vertex r.geom n j).1 (vertex r.geom n j).2 < 0)) ||
          decide (edgeAt r.geom n i (vertex r.geom n (i + 2)).1 (vertex r.geom n (i + 2)).2 = 0))]
    | _ => rsv c (o + 16) 64]

/-! ## Versions (R202, R213 to R218, R222) -/

/-- The exclusion-engine domain is on. -/
def xclOn (s : State) : Bool := (List.range 4).any fun p => (s.port p).enable

/-- A new version of port p's set joins the queue of those not yet ready. -/
def createVersion (p : Nat) (f : XVersion → XVersion) (h : Option Held) (s : State) : State :=
  s.onXset p fun x =>
    let v := { f x.last with number := x.last.number + 1 }
    { x with last := v, queue := x.queue ++ [(v, h)], updateCnt := sat x.updateCnt }

/-- Every region off, as a new version that both copies hold ready (R202). -/
def blankVersion (x : XSet) : XSet :=
  let v : XVersion := { number := x.last.number + 1 }
  { x with
    last := v, maskCopies := [v], auditCopies := [v], queue := [], band := Vector.replicate 16 v.number, taken := true
    lastOk := true, newest := v.number, stuck := false }

/-- The newest ready version, and the one of a given number. -/
def XSet.ready (x : XSet) : XVersion := x.maskCopies.headD {}
def versionOf (n : BitVec 32) (vs : List XVersion) : XVersion := (vs.find? fun v => v.number == n).getD (vs.headD {})

/-- Copies that no band holds any more are dropped. -/
def prune (x : XSet) : XSet :=
  let keep (vs : List XVersion) : List XVersion :=
    match vs with
    | [] => []
    | v :: rest => v :: rest.filter fun w => x.band.toList.contains w.number
  { x with maskCopies := keep x.maskCopies, auditCopies := keep x.auditCopies }

/-- Every band of port p takes the newest ready version (R217). -/
def takeAll (p : Nat) (s : State) : State :=
  s.onXset p fun x =>
    let n := x.ready.number
    prune { x with band := Vector.replicate 16 n, taken := true, newest := n }

/-- Band b of port p takes the newest ready version (R214). -/
def takeVersion (p b : Nat) (s : State) : State :=
  s.onXset p fun x =>
    let n := x.ready.number
    prune { x with band := upd x.band b fun _ => n, taken := true, newest := n }

/-- A port's array has a stuck-on pixel that is hard, or a lost stuck-on entry (R224, R314). -/
def stuckHard (p : Nat) (s : State) : Bool :=
  let a := s.arr p
  let v := (s.xset p).ready
  a.mapLost || a.map.any fun e =>
    (e.kind == 1 || e.kind == 3) && (List.range 5).any fun w => hardPixel v w e.col.toNat e.row.toNat

/-- The stuck-on check of R224 on port p: blank source 8 follows the ports that have such a pixel. -/
def checkStuck (p : Nat) (s : State) : State :=
  let bad := stuckHard p s
  let s := s.onXset p fun x => { x with stuck := bad }
  let s := if bad then xsetRaise p 0x8 s else s
  followSource 8 (s.xcl.sets.toList.any (·.stuck)) s

/-- Blank source 8 follows the ports' stuck-on pixels and marks, without a check that finds them anew (R224, R314). -/
def followStuck (s : State) : State :=
  let s := s.onXcl fun x => { x with sets := Vector.ofFn fun p => { x.sets[p] with stuck := stuckHard p.val s } }
  followSource 8 (s.xcl.sets.toList.any (·.stuck)) s

/-- Blank source 9 ends when the last version of every port has passed R222. -/
def followSets (s : State) : State := if s.xcl.sets.toList.all (·.lastOk) then dropSource 9 s else s

/-- The oldest version that is not ready passes the comparison of R222 and becomes ready, or fails it. -/
def versionReady (p : Fin 4) (agree : Bool) (s : State) : State :=
  (match (s.xset p.val).queue with
    | [] => s
    | (v, h) :: rest =>
      if !s.live then s
      else
        let s := s.onXset p.val fun x => { x with queue := rest, lastOk := agree }
        let s := s.onCmp fun c => { c with named := match h with
          | some h => c.named.erase (BitVec.ofNat 32 (u32 (Cmd.payload h.cmd) 0)) | none => c.named }
        if !agree then
          completeOpt h .internalError 0 (raiseSource 9 (xsetRaise p.val 0x2 s))
        else
          let s := if (s.xset p.val).taken then s
            else xsetRaise p.val 0x4 (s.onXset p.val fun x => { x with skipCnt := sat x.skipCnt })
          let s := s.onXset p.val fun x => prune { x with
            maskCopies := v :: x.maskCopies, auditCopies := v :: x.auditCopies, taken := false }
          let st := (s.port p.val).st
          let s := if st = .run then s else takeAll p.val s
          let s := if st = .hold then askReload p.val s else s
          completeOpt h .done 0 (checkStuck p.val (followSets s)))

/-- The mask load of a version that will never be ready completes. -/
def abortLoad (x : XVersion × Option Held) (s : State) : State :=
  match x.2 with
  | none => s
  | some h => complete h .resetAborted 0 (s.onCmp fun c => { c with
      named := c.named.erase (BitVec.ofNat 32 (u32 (Cmd.payload h.cmd) 0)) })

/-- The domain has switched off with the last enabled port: the regions are lost (R29). -/
def xclDomainOff (s : State) : State :=
  let waits := s.xcl.sets.toList.flatMap (·.queue)
  let s := followStuck (dropSource 9 (s.onXcl fun x => { x with sets := x.sets.map blankVersion }))
  waits.foldl (fun s x => abortLoad x s) s

/-- The role epochs of exclusion sets follow capability records (R218). -/
def newRecordEpoch (p : Nat) (s : State) : State := s.onXset p fun x => { x with epoch := x.epoch + 1 }

/-- u_b(k) of a slot that starts at tick t (R100). -/
def changeTk (bandStep : Nat) (glob : Bool) (t b : Nat) : Nat := if glob then t else t + b * bandStep

/-- LAT_BOUND of port p in ns (R216): 20 µs alone while it runs no sequence, when versions take effect as they become ready
(R217). -/
def latBound (p : Nat) (s : State) : Nat :=
  let q := s.port p
  let xs := q.slots
  let n := xs.length
  let at' (k : Nat) : Slot := xs.getD (k % n) {}
  let span (k b : Nat) : Int :=
    ((changeTk q.bandStep.toNat (at' (k + 2)).glob ((at' k).dur.toNat + (at' (k + 1)).dur.toNat) b : Nat) : Int) -
      (changeTk q.bandStep.toNat (at' k).glob 0 b : Nat)
  let worst := ((List.range n).map fun k => max (span k 0) (span k 15)).foldl max 0
  20000 + if q.st != .run then 0 else ceilDiv (worst.toNat * s.rd * 1001 * 1000000) (s.rn * 16777216)

/-! ## Masking and audit (R211, R219 to R221) -/

/-- A row as it leaves the plane reader for band b of port p: hard pixels are forced to 0 (R211). -/
def maskRow (p b v y : Nat) (row : BitVec 8192) (s : State) : BitVec 8192 :=
  let x := s.xset p
  row &&& ~~~(BitVec.ofNat 8192 (hardRow (versionOf (nth x.band b) x.maskCopies) v y))

/-- The lit hard pixels of an encoded row by the audit's own copy (R219, R220). -/
def auditCount (p b v y : Nat) (row : BitVec 8192) (s : State) : Nat :=
  let x := s.xset p
  (bitsOf 8192 (row.toNat &&& hardRow (versionOf (nth x.band b) x.auditCopies) v y)).length

/-- A row with a nonzero count (R221): the band's reset is withheld, the counts and captures are made, and source 3 rises. -/
def auditHit (p b v y tag n : Nat) (s : State) : State :=
  let first := !(s.xset p).sticky.getLsbD 0
  let s := s.onPort p fun q => { q with withheld := q.withheld ||| bit1 16 b }
  let s := s.onXset p fun x => { x with
    auditPix := satN x.auditPix n, auditRow := sat x.auditRow
    cap0 := if first then BitVec.ofNat 32 (y % 8192 + v % 8 * 8192 + tag % 65536 * 65536) else x.cap0
    cap1 := if first then BitVec.ofNat 32 (b % 16 + min n 65535 * 65536) else x.cap1 }
  raiseSource 3 (xsetRaise p 0x1 s)

/-! ## Commands of the exclusion engine -/

/-- The regions named by a mask, ascending. -/
def namedRegions (m : Nat) : List Nat := bitsOf 64 m

/-- The queue of port p has no room, or the domain is off (R30, R213). -/
def xclBusy (p : Nat) (s : State) : Option Refuse := busyIf (!(xclOn s) || 4 ≤ (s.xset p).queue.length)

def specXclRegionSet : OpSpec where
  op := 0x0500
  cls := [clsXset]
  len l := 16 ≤ l
  shape c := Cmd.len c == 16 + 80 * (namedRegions (u64 (Cmd.payload c) 0)).length
  owners := ownTarget
  check c s :=
    let n := (namedRegions (u64 (Cmd.payload c) 0)).length
    checks [rsv c 8 8, checks ((List.range n).map fun i => regionBad c (16 + 80 * i)), xclBusy c.tindex.toNat s]
  effect h s :=
    let b := Cmd.payload h.cmd
    let is := namedRegions (u64 b 0)
    { st := createVersion h.cmd.tindex.toNat (fun v => { v with
        regions := (List.range is.length).foldl (fun rs i =>
          upd rs (is.getD i 64) fun _ => parseRegion b (16 + 80 * i)) v.regions }) none s }

/-- The runs of set bits of one row of a mask plane, from column x on over n columns, ascending. -/
def rowRuns (y : Nat) (bits : Nat) : Nat → Nat → Option Nat → List (Nat × Nat × Nat)
  | x, 0, some a => [(y, a, x - 1)]
  | _, 0, none => []
  | x, n + 1, open' =>
    match bitOf bits x, open' with
    | true, none => rowRuns y bits (x + 1) n (some x)
    | false, some a => (y, a, x - 1) :: rowRuns y bits (x + 1) n none
    | _, o => rowRuns y bits (x + 1) n o

/-- The pixels of a plane row: pixel x is bit 7 - (x mod 8) of byte x / 8 (R239), and bit x of the number. -/
def rowBits (bs : List Byte) : Nat :=
  bs.foldr (fun b n => (List.range 8).foldl (fun a i => if b.getLsbD (7 - i) then a + 2 ^ i else a) 0 + 256 * n) 0

/-- The bytes of a plane row of n pixels, n a multiple of 8. -/
def rowBytes (bits n : Nat) : List Byte :=
  (List.range (n / 8)).map fun k =>
    BitVec.ofNat 8 ((List.range 8).foldl (fun a i => if bitOf bits (8 * k + i) then a + 2 ^ (7 - i) else a) 0)

/-- The runs of a mask plane of h rows of 1 KiB. -/
def planeRuns (bytes : List Byte) (h : Nat) : List (Nat × Nat × Nat) :=
  (List.range h).flatMap fun y =>
    let bits := rowBits (slice bytes (1024 * y) 1024)
    if bits = 0 then [] else rowRuns y bits 0 8192 none

/-- The buffer that an XCL_MASK_LOAD names. -/
def maskBuf (c : Cmd) (s : State) : Option Buffer := findBuf (BitVec.ofNat 32 (u32 (Cmd.payload c) 0)) s

/-- Runs that one port holds at most. -/
def maxRuns : Nat := 65536

/-- What an XCL_MASK_LOAD reads of its buffer: a mask plane of the array's height. The table of R400 names no port for it; the model takes
port 9, as for every command that works on a buffer (DESIGN CHOICE, notes/assumptions/120.md). -/
def maskRead (c : Cmd) (s : State) : Fetched :=
  match maskBuf c s with
  | some b => bufFetch { port := 9 } b 0 (1024 * (s.arr c.tindex.toNat).height) s
  | none => { st := s }

def specXclMaskLoad : OpSpec where
  op := 0x0501
  cls := [clsXset]
  len := lenIs 8
  owners := ownTarget
  check c s :=
    let rows := (s.arr c.tindex.toNat).height
    checks [rsv c 4 4, bufChecks c 0 s,
      badAt c 0 (match maskBuf c s with | some b => decide (b.size < 1024 * rows) | none => true),
      xclBusy c.tindex.toNat s, memBusy s]
  effect h s :=
    let p := h.cmd.tindex.toNat
    let f := maskRead h.cmd s
    let runs := planeRuns f.bytes (s.arr p).height
    if maxRuns < runs.length then { st := f.st, status := .budgetExceeded }
    else
      let s := f.st.onCmp fun c => { c with named := BitVec.ofNat 32 (u32 (Cmd.payload h.cmd) 0) :: c.named }
      { st := createVersion p (fun v => { v with runs := runs }) (some h) s, status := .accepted }

def specXclHostBlank : OpSpec where
  op := 0x0502
  cls := [clsDevice]
  len := lenIs 0
  absentOk := true
  check _ _ := none
  effect _ s := { st := raiseSource 11 s }

/-- Latched sources that are still active; impulse sources are inactive at once (R225). -/
def blockedRelease (s : State) : BitVec 12 := s.xcl.latch &&& s.xcl.active &&& ~~~0x808

def specXclSafeRelease : OpSpec where
  op := 0x0503
  cls := [clsDevice]
  len := lenIs 0
  owners := ownConfig
  check _ s := chk (blockedRelease s != 0) ⟨.busy, (blockedRelease s).setWidth 32⟩
  effect _ s := { st := s.onXcl fun x => { x with
    latch := 0, active := x.active &&& ~~~0x808, safe := x.active.getLsbD 0 || x.active.getLsbD 7 } }

/-! ## Symbols (R235, R236) -/

/-- The entries of a list before its END, as indices (R235). -/
def entriesOf (b : List Byte) (n : Nat) : List Nat :=
  (List.range n).takeWhile fun i => u8 b (144 + 32 * i) != 0

/-- An entry before END breaks R235. -/
def entryFail (c : Cmd) (i : Nat) (s : State) : Option Refuse :=
  let b := Cmd.payload c
  let o := 144 + 32 * i
  let t := u8 b o
  checks [badAt c o (3 < t),
    badAt c (o + 2) (if t = 3 then outside 0x40 0x1000 (u16 b (o + 2)) else outside 16 1024 (u16 b (o + 2))),
    if t = 3 then badAt c (o + 4) (!(s.xcl.glyphLoaded.getLsbD (u8 b (o + 12)))) else none]

def specSymListSet : OpSpec where
  op := 0x0504
  cls := [clsView]
  len l := 144 ≤ l
  shape c := Cmd.len c == 144 + 32 * u16 (Cmd.payload c) 0
  owners := ownTarget
  check c s :=
    let b := Cmd.payload c
    let n := u16 b 0
    checks [badAt c 0 (outside 1 1024 n), rsv c 2 14,
      checks ((List.range n).map fun i => 
        checks [rsvBits c (145 + 32 * i) 0xF0, rsv c (164 + 32 * i) 12, badAt c (148 + 32 * i) (u8 b (144 + 32 * i) == 3 && !zeros b (157 + 32 * i) 7)]),
      checks ((entriesOf b n).map fun i => entryFail c i s)]
  effect h s := { st := s.onXcl fun x => { x with
    symList := upd x.symList h.cmd.tindex.toNat fun _ => some (Cmd.payload h.cmd) } }

/-- One glyph: 64 × 64 coverage bytes. -/
def glyphSize : Nat := 4096

def specSymGlyphLoad : OpSpec where
  op := 0x0505
  cls := [clsDevice]
  len := lenIs 8
  owners := ownConfig
  check c s :=
    let b := Cmd.payload c
    checks [rsv c 2 2, badAt c 1 (255 < u8 b 0 + u8 b 1), bufChecks c 4 s,
      badAt c 4 (decide (bufSize (BitVec.ofNat 32 (u32 b 4)) s < (u8 b 1 + 1) * glyphSize)), memBusy s]
  effect h s :=
    let b := Cmd.payload h.cmd
    let n := u8 b 1 + 1
    match findBuf (BitVec.ofNat 32 (u32 b 4)) s with
    | none => { st := s }
    | some q =>
      let m := BitVec.ofNat 256 ((2 ^ n - 1) * 2 ^ u8 b 0)
      let f := bufFetch { port := 9 } q 0 (n * glyphSize) s
      let s := portWrite { port := 9, space := .reserve, addr := u8 b 0 * glyphSize } f.bytes f.st
      { st := s.onXcl fun x => { x with glyphLoaded := x.glyphLoaded ||| m, glyphLost := x.glyphLost &&& ~~~m } }

def execXclRegionSet (cmd : Cmd) (s : State) : Host.Outcome State Fault Refusal := .next (accept specXclRegionSet cmd s)
def execXclMaskLoad (cmd : Cmd) (s : State) : Host.Outcome State Fault Refusal := .next (accept specXclMaskLoad cmd s)
def execXclHostBlank (cmd : Cmd) (s : State) : Host.Outcome State Fault Refusal := .next (accept specXclHostBlank cmd s)
def execXclSafeRelease (cmd : Cmd) (s : State) : Host.Outcome State Fault Refusal := .next (accept specXclSafeRelease cmd s)
def execSymListSet (cmd : Cmd) (s : State) : Host.Outcome State Fault Refusal := .next (accept specSymListSet cmd s)
def execSymGlyphLoad (cmd : Cmd) (s : State) : Host.Outcome State Fault Refusal := .next (accept specSymGlyphLoad cmd s)

/-! ## Safety inputs (R225, R230)

While the device is held in reset or unpowered the inputs keep their levels and raise nothing. -/

/-- SAFE_BLANK_N_FALL: the input has been low for 40 ns. -/
def execSafeBlankNFall (s : State) : Host.Outcome State Fault Refusal :=
  .next (let t := s.onXcl fun x => { x with blankIn := false }
    if s.live then followSource 0 true t else t)

/-- SAFE_BLANK_N_RISE: level source 0 becomes inactive. -/
def execSafeBlankNRise (s : State) : Host.Outcome State Fault Refusal :=
  .next (let t := s.onXcl fun x => { x with blankIn := true }
    if s.live then dropSource 0 t else t)

/-- The level of an interlock input. -/
def setIlock (b : Fin 2) (closed : Bool) (s : State) : State :=
  s.onXcl fun x => if b.val = 0 then { x with ilockA := closed } else { x with ilockB := closed }

/-- ILOCK_OPEN: the input has been open for 40 ns. -/
def execIlockOpen (b : Fin 2) (s : State) : Host.Outcome State Fault Refusal :=
  .next (let t := setIlock b false s
    if s.live then raiseSource (1 + b.val) t else t)

/-- ILOCK_CLOSE: the input closes; its source stays raised until ILOCK_CLOSED_10MS. -/
def execIlockClose (b : Fin 2) (s : State) : Host.Outcome State Fault Refusal := .next (setIlock b true s)

/-- ILOCK_CLOSED_10MS: both inputs have been closed together for 10 ms. -/
def execIlockClosed10ms (s : State) : Host.Outcome State Fault Refusal :=
  .next (if s.live && s.xcl.ilockA && s.xcl.ilockB then dropSource 2 (dropSource 1 s) else s)

/-- ILOCK_DISC: the inputs have differed for more than 100 ms. -/
def execIlockDisc (s : State) : Host.Outcome State Fault Refusal :=
  .next (if s.live && s.xcl.ilockA != s.xcl.ilockB then
    xclRaise 0x1000 (s.onXcl fun x => { x with discCnt := sat x.discCnt }) else s)

end Sys2Proof.Machine
end

