-- ==== Sys2Proof/Machine/Slicer.lean ====
section
/-!
DEFINITION. The slicer and the plane store (spec/07): PLANE_STORE_SET, frame buffers, the fill and drain of slicers, and their
power.
-/
namespace Sys2Proof.Machine

/-- The lowest address at which n bytes fit among the extents (start, length) that are in use. -/
def firstFit (n size : Nat) (used : List (Nat × Nat)) : Option Nat :=
  let clash (a : Nat) : Bool := used.any fun u => a < u.1 + u.2 && u.1 < a + n
  ((0 :: used.map fun u => u.1 + u.2).filter fun a => a + n ≤ size && !(clash a)).min?

/-! ## Frame buffers (R247 to R254) -/

/-- The extents of the stores in the plane region, that of view v left out. -/
def storeExtents (v : Nat) (s : State) : List (Nat × Nat) :=
  ((List.range 5).filter fun w => w != v && !(s.store w).bufs.isEmpty).map fun w => ((s.store w).base, storeSize (s.store w))

/-- Slicer bands of one colour (R242). -/
def bandsOf (h : Nat) : Nat := ceilDiv h 64

/-- Rows of slicer band b. -/
def bandRows (h b : Nat) : Nat := min 64 (h - 64 * b)

/-- A frame of view v that is being sliced is given up: it is dropped (R251, R252), or with `count` false abandoned on entry to hold
(R254), which counts no drop. -/
def dropSlicing (count : Bool) (v i : Nat) (s : State) : State :=
  if ((s.store v).bufs.getD i {}).slicing then
    let s := s.onStore v fun st => { st with
      dropCnt := if count then sat st.dropCnt else st.dropCnt
      bufs := st.bufs.zipIdx.map fun x => if x.2 = i then { keep := true, caps := x.1.caps } else x.1 }
    let s := s.onSlc fun x => { x with slicers := x.slicers.map fun q =>
      if q.view.toNat = v && q.buf = i then { q with dropped := true } else q }
    if count then slcRaise (bit1 15 (10 + v)) s else s
  else s

/-- Every frame of view v that is not complete is given up. -/
def dropFrames (count : Bool) (v : Nat) (s : State) : State :=
  (List.range (s.store v).bufs.length).foldl (fun s i => dropSlicing count v i s) s

/-- Every frame buffer of view v is emptied; the held region of a port keeps its bytes but no longer counts as a complete frame
(R251, R254). One that held the newest frame, or one being sliced, stays HELD up to the boundary (R250). -/
def emptyStore (count : Bool) (v : Nat) (s : State) : State :=
  (dropFrames count v s).onStore v fun st => { st with
    bufs := st.bufs.zipIdx.map fun x => { keep := x.1.keep || (match st.newest with | some n => n.1 == x.2 | none => false) }
    newest := none }

/-- The free buffer that holds the oldest frame (R249); an empty one is older than any frame. -/
def freeBuf (v : Nat) (s : State) : Option Nat :=
  let st := s.store v
  let free := (List.range st.bufs.length).filter fun i => !(bufHeld v i s)
  let age (i : Nat) : Nat := match (st.bufs.getD i {}).frame with | none => 0 | some _ => (st.bufs.getD i {}).age + 1
  match free with
  | [] => none
  | i :: is => some (is.foldl (fun a b => if age b < age a then b else a) i)

/-- The buffer in which the frame is being sliced. -/
def slicingBuf (v frame : Nat) (s : State) : Option Nat :=
  (s.store v).bufs.findIdx? fun b => b.slicing && b.frame == some frame

/-- Slicing of a frame starts in buffer i, with the exclusion versions in force (R212, R249). -/
def startSlicing (v i frame : Nat) (s : State) : State :=
  let caps := ((List.range 4).filter fun p => (s.port p).enable).map fun p => (s.xset p).ready
  s.onStore v fun st =>
    let left := (List.range (colourCount st.colours)).flatMap fun c => (List.range (bandsOf st.height)).map fun b => (c, b)
    { st with
      ageNext := st.ageNext + 1
      newest := match st.newest with | some n => if n.1 = i then none else some n | none => none
      bufs := st.bufs.zipIdx.map fun x =>
        if x.2 = i then { frame := some frame, slicing := true, left := left, age := st.ageNext, caps := caps } else x.1 }

/-- The value of a pixel after the soft caps of a frame (R212). -/
def capPixel (caps : List XVersion) (v x y : Nat) (p : BitVec 16) : BitVec 16 :=
  match (caps.filterMap fun ver => softCap ver v x y).min? with
  | some c => if c < p.toNat then BitVec.ofNat 16 c else p
  | none => p

/-- The primary at a colour slot of a view. -/
def primaryAt (colours : BitVec 6) (c : Nat) : Nat := ((List.range 6).filter fun i => colours.getLsbD i).getD c 0

/-- The lowest-numbered IDLE slicer (R244). -/
def idleSlicer (s : State) : Option Nat := (List.range 8).find? fun i => (s.slicer i).st == .idle

/-- Slicer i takes a band: rows of 16-bit pixels of colour slot c, capped as they enter. -/
def fillSlicer (i v c band buf : Nat) (rows : List (List (BitVec 16))) (s : State) : State :=
  let caps := ((s.store v).bufs.getD buf {}).caps
  let capped := rows.zipIdx.map fun r => r.1.zipIdx.map fun p => capPixel caps v p.2 (64 * band + r.2) p.1
  s.onSlicer i fun q => { q with
    st := .fill, view := BitVec.ofNat 3 v, primary := BitVec.ofNat 3 (primaryAt (s.store v).colours c)
    band := BitVec.ofNat 7 band, buf := buf, dropped := false, pixels := capped }

/-- SLICER_FILL_DONE: the slicer has received its band and drains it. -/
def execSlicerFillDone (i : Fin 8) (s : State) : Host.Outcome State Fault Refusal :=
  .next (if s.live && (s.slicer i.val).st == .fill then s.onSlicer i.val fun q => { q with st := .drain } else s)

/-- The rows of bit b of a band, as bytes: W pixels and zeros (R239, R240). -/
def planeRowsOf (pixels : List (List (BitVec 16))) (b : Nat) : List Byte :=
  pixels.flatMap fun r => rowBytes (r.foldr (fun p n => (if p.getLsbD b then 1 else 0) + 2 * n) 0) 8192

/-- The 16 bursts of a band are written by port 4, from bit 15 down to bit 0 (R241, R244, R400). -/
def writeBand (q : Slicer) (s : State) : State :=
  let st := s.store q.view.toNat
  (List.range 16).foldl (fun s k =>
    let b := 15 - k
    portWrite { port := 4, space := .plane, addr := planeBase st q.buf q.primary.toNat b + q.band.toNat * 65536 } (planeRowsOf q.pixels b) s) s

/-- A band of a frame has been written; the frame is complete when none is left (R246). -/
def bandWritten (q : Slicer) (s : State) : State :=
  let v := q.view.toNat
  let st := s.store v
  let c := colourSlot st.colours q.primary.toNat
  let left := ((st.bufs.getD q.buf {}).left).erase (c, q.band.toNat)
  let s := s.onStore v fun st => { st with
    bufs := st.bufs.zipIdx.map fun x => if x.2 = q.buf then { x.1 with left := left } else x.1 }
  if !left.isEmpty then s
  else s.onStore v fun st => { st with
    frameCnt := sat st.frameCnt, newest := some (q.buf, s.frame.truncate 28)
    bufs := st.bufs.zipIdx.map fun x =>
      if x.2 = q.buf then { x.1 with complete := true, slicing := false, keep := false } else { x.1 with keep := false } }

/-- The slicer returns to IDLE, or switches off (R243, R245). -/
def slicerRest (i : Nat) (s : State) : State :=
  s.onSlicer i fun q => if q.offAfter then {} else { q with st := .idle, dropped := false, pixels := [] }

/-- SLICER_DRAIN_DONE: the last burst of the slicer's band is written. A band of a dropped frame sends no burst to memory. -/
def execSlicerDrainDone (i : Fin 8) (s : State) : Host.Outcome State Fault Refusal :=
  .next (let q := s.slicer i.val
    if !s.live || q.st != .drain then s
    else
      let s := s.onSlicer i.val fun q => { q with
        bandCnt := sat q.bandCnt, burstCnt := if q.dropped then q.burstCnt else satN q.burstCnt 16 }
      slicerRest i.val (if q.dropped then s else bandWritten q (writeBand q s)))

/-- The band demand of all stores, in bands per period (R245). -/
def bandDemand (s : State) : Nat :=
  ((List.range 5).map fun v =>
    let st := s.store v
    if st.bufs.isEmpty then 0 else colourCount st.colours * bandsOf st.height * st.f).sum

/-- The slicers are powered for the band demand at a boundary (R245). -/
def powerSlicers (s : State) : State :=
  let d := bandDemand s
  let q := openDiv s.free ((d * s.rn : Nat) : Int) s.rd
  let n := if s.pictureOff then 0 else min 8 (ceilDiv (d * s.rn) (11444 * s.rd) + 1)
  let s := s.useFree
  s.onSlc fun x => { x with
    rate := BitVec.ofInt 20 q
    slicers := Vector.ofFn fun i =>
      let y := x.slicers[i]
      if i.val < n then (if y.st = .off then { st := .idle } else { y with offAfter := false })
      else match y.st with
        | .fill | .drain => { y with offAfter := true }
        | _ => {} }

/-! ## PLANE_STORE_SET -/

/-- A running sequence of a port shows view v, or a port holds a plane of it. -/
def viewShown (v : Nat) (s : State) : Bool :=
  (List.range 4).any fun p =>
    let q := s.port p
    q.enable && ((q.hold.on && q.hold.view.toNat == v) ||
      (q.st != .off && (showsOf (backNow s) q.kind.toNat s q.slots).any fun x => x.1 == v))

/-- The store of a PLANE_STORE_SET payload, before it is placed. -/
def parseStore (b : List Byte) (old : PlaneStore) : PlaneStore :=
  { old with
    colours := BitVec.ofNat 6 (u8 b 0), f := u8 b 1, width := u16 b 4, height := u16 b 6
    bufs := List.replicate (u8 b 2) {}, newest := none, base := 0 }

/-- The store that frees a view's buffers. -/
def noStore (old : PlaneStore) : PlaneStore :=
  { old with colours := 0, f := 1, width := 0, height := 0, bufs := [], newest := none, base := 0 }

def specPlaneStoreSet : OpSpec where
  op := 0x0206
  cls := [clsView]
  len := lenIs 8
  owners := ownTarget
  check c s :=
    let b := Cmd.payload c
    let v := c.tindex.toNat
    let st := parseStore b (s.store v)
    checks [rsvBits c 0 0xC0, rsvBits c 1 0xF8, rsv c 3 1,
      badAt c 0 (st.colours == 0), badAt c 1 (outside 1 4 st.f),
      badAt c 2 (u8 b 2 != 0 && outside (st.f + 2) 8 (u8 b 2)),
      badAt c 4 (outside 1024 8192 st.width || st.width % 64 != 0),
      badAt c 6 (outside 16 4352 st.height || st.height % 16 != 0),
      busyIf (viewShown v s), memBusy s,
      chk (u8 b 2 != 0 && (firstFit (storeSize st) (planeSize s.mem) (storeExtents v s)).isNone) ⟨.budgetExceeded, 0⟩]
  effect h s :=
    let b := Cmd.payload h.cmd
    let v := h.cmd.tindex.toNat
    let s := emptyStore true v s
    let s := s.onFview v fun f => { f with frame := f.frame.filter fun g => g.offered == 0, recheck := true }
    let st := parseStore b (s.store v)
    if u8 b 2 = 0 then { st := s.onStore v noStore }
    else match firstFit (storeSize st) (planeSize s.mem) (storeExtents v s) with
      | some a => { st := s.onStore v fun _ => { st with base := a } }
      | none => { st := s }

def execPlaneStoreSet (cmd : Cmd) (s : State) : Host.Outcome State Fault Refusal := .next (accept specPlaneStoreSet cmd s)

end Sys2Proof.Machine
end

