-- ==== Sys2Proof/Machine/Compose.lean ====
section
/-!
DEFINITION. Views, layers and buffers (spec/10): the composition shadows and commits, buffers and their references, the
composition of view-frames, and the pixel computation of R335 to R348.
-/
namespace Sys2Proof.Machine

/-! ## Buffers (R354 to R358) -/

/-- A layer is enabled and reads a buffer. -/
def Layer.reads (l : Layer) : Bool := l.enable && l.source == 0

/-- A separate alpha plane is used. -/
def Layer.alphaPlane (l : Layer) : Bool := l.alphaSrc == 1 || l.alphaSrc == 2

/-- The buffers that a layer names. -/
def Layer.bufs (l : Layer) : List (BitVec 32) :=
  if l.reads then l.buffer :: (if l.alphaPlane then [l.alphaBuf] else []) else []

/-- The buffer of a view's writeback. -/
def ViewCfg.bufs (v : ViewCfg) : List (BitVec 32) := if v.wbMode = 0 then [] else [v.wbBuffer]

/-- Buffers named by parameter sets in force, loaded for a chain that has not switched in, or waiting (R388). -/
def paramBufs (s : State) : List (BitVec 32) :=
  (s.fab.views.toList.flatMap fun v =>
    (v.params.toList.filterMap fun p => p.map (·.buffer)) ++
    (v.nextParams.toList.filterMap fun p => p.map (·.buffer)) ++
    (match v.frame with | some f => f.params.filterMap fun p => p.map (·.buffer) | none => [])) ++
  ((s.hif.deferred.filter fun h => h.opcode == 0x0803).map fun h => BitVec.ofNat 32 (u32 (Cmd.payload h.cmd) 4))

/-- Buffers named by the composition state in force, and by the frames being composed (R358 scan-locks these). -/
def forceBufs (s : State) : List (BitVec 32) :=
  ((List.range 24).flatMap fun i => if (s.pipe i).view.isSome then (s.pipe i).layer.bufs else []) ++
  (s.cmp.views.toList.flatMap fun v => v.cfg.bufs ++ (match v.composing with | some c => c.uses | none => []))

/-- A commit sets pipe i: the pipe was bound to a masked view at acceptance, and still is bound to one (R350). -/
def CmpCommit.sets (c : CmpCommit) (i : Nat) (s : State) : Bool :=
  c.pipes.contains i && (match (s.pipe i).view with | some v => c.mask.getLsbD v.toNat | none => false)

/-- Buffers named by commits that await their boundary. -/
def commitBufs (s : State) : List (BitVec 32) :=
  s.cmp.commits.flatMap fun c => (c.pipes.flatMap fun i => (nth c.layers i).bufs) ++
    ((List.range 5).flatMap fun v => if c.mask.getLsbD v then (nth c.views v).bufs else [])

/-- A buffer is referenced (R356). -/
def referenced (h : BitVec 32) (s : State) : Bool :=
  (forceBufs s).contains h || (commitBufs s).contains h || (paramBufs s).contains h || s.cmp.named.contains h

/-- A buffer is scan-locked (R358, R388). -/
def scanLocked (h : BitVec 32) (s : State) : Bool :=
  let names (p : Option Params) : Bool := match p with | some p => p.buffer == h | none => false
  (forceBufs s).contains h ||
  (s.fab.views.toList.any fun v => v.params.toList.any names || v.nextParams.toList.any names ||
    (match v.frame with | some f => f.params.any names | none => false))

/-- The index of a freed handle takes its next generation, counted from 1 (R354). -/
def advanceGen (h : BitVec 32) (gens : List (Nat × Nat)) : List (Nat × Nat) :=
  let i := h.toNat % 1048576
  let g := h.toNat / 1048576
  (i, if g = 4095 then 1 else g + 1) :: gens.filter fun x => x.1 != i

/-- A buffer leaves the device; a protected one is overwritten with zeros (R484). -/
def dropBuf (b : Buffer) (s : State) : State :=
  let s := match b.place with
    | some a => if b.isProtected then wipe .general a b.size s else s
    | none => s
  s.onCmp fun c => { c with bufs := c.bufs.filter fun x => x.handle != b.handle, gens := advanceGen b.handle c.gens }

/-- Free-pending buffers whose last reference has ended are freed: RELEASE to their owner, and BUF_FREE completes (R357). -/
def sweepBuffers (s : State) : State :=
  s.cmp.bufs.foldl (fun s b =>
    match b.freePending with
    | none => s
    | some h =>
      if referenced b.handle s then s
      else complete h .done 0 (sendEvent b.owner 0x0001 b.handle 16 (dropBuf b s))) s

/-- A command that named a buffer has completed. -/
def unname (h : BitVec 32) (s : State) : State := sweepBuffers (s.onCmp fun c => { c with named := c.named.erase h })

/-- XCL_VERSION_READY: a version becomes ready or fails its comparison, and the mask load that made it completes. -/
def execXclVersionReady (p : Fin 4) (agree : Bool) (s : State) : Host.Outcome State Fault Refusal :=
  .next (sweepBuffers (versionReady p agree s))

/-- Extents of the general region in use: placed buffers, and canvas and symbol surfaces. -/
def generalExtents (s : State) : List (Nat × Nat) :=
  (s.cmp.bufs.filterMap fun b => b.place.map fun a => (a, b.size)) ++
  ((List.range 5).flatMap fun v =>
    let f := s.fview v
    (f.canvas ++ f.symbSurf).map fun a => (a, f.surfSize))

/-- BAR2 less its last 64 KiB (R426, R449). -/
def bar2Size : Nat := 68719476736 - 65536

/-- The extents of BAR2 in use. -/
def bar2Extents (s : State) : List (Nat × Nat) := s.cmp.bufs.filterMap fun b => b.bar2.map fun a => (a, ceilDiv b.size 65536 * 65536)

/-- The lowest free buffer index. -/
def freeIndex (s : State) : Option Nat :=
  (List.range 65536).find? fun i => !(s.cmp.bufs.any fun b => b.handle.toNat % 1048576 == i)

/-- The generation that index i takes; generations count from 1, so that no handle is 0. -/
def nextGen (i : Nat) (s : State) : Nat := match s.cmp.gens.find? fun g => g.1 == i with | some g => g.2 | none => 1

/-- The buffer of a BUF_ALLOC, when the regions hold it. -/
def allocBuf (c : Cmd) (s : State) : Option Buffer :=
  let b := Cmd.payload c
  let size := u64 b 0
  let map := bitOf (u8 b 8) 0
  let place := firstFit size (generalSize s.mem) (generalExtents s)
  let win := firstFit (ceilDiv size 65536 * 65536) bar2Size (bar2Extents s)
  match freeIndex s, place with
  | some i, some a =>
    if map && win.isNone then none
    else some {
      handle := BitVec.ofNat 32 (nextGen i s * 1048576 + i), owner := c.host, size := size, map := map
      isProtected := bitOf (u8 b 8) 1, shared := bitOf (u8 b 8) 2, bar2 := if map then win else none, place := some a }
  | _, _ => none

def specBufAlloc : OpSpec where
  op := 0x0900
  cls := [clsDevice]
  len := lenIs 16
  check c s :=
    let b := Cmd.payload c
    checks [badAt c 0 (u64 b 0 % 4096 != 0 || outside 4096 4294967296 (u64 b 0)), rsvBits c 8 0xF8,
      badAt c 8 (field (u8 b 8) 0 2 == 3), rsv c 9 7, memBusy s, chk (allocBuf c s).isNone ⟨.budgetExceeded, 0⟩]
  effect h s :=
    match allocBuf h.cmd s with
    | none => { st := s }
    | some b =>
      { st := s.onCmp fun c => { c with bufs := b :: c.bufs }, detail := b.handle
        result := match b.bar2 with | some a => BitVec.ofNat 32 (a / 65536) | none => 0xFFFFFFFF }

/-- The buffer that payload bytes 0 to 3 name. -/
def cmdBuf (c : Cmd) (s : State) : Option Buffer := findBuf (BitVec.ofNat 32 (u32 (Cmd.payload c) 0)) s

/-- The owner required is the buffer's. -/
def ownBuf (c : Cmd) (s : State) : List HostId := match cmdBuf c s with | some b => [b.owner] | none => []

def specBufFree : OpSpec where
  op := 0x0901
  cls := [clsBuffer]
  len := lenIs 8
  owners := ownBuf
  check c s := checks [rsv c 4 4, badAt c 0 (cmdBuf c s).isNone,
    busyIf (match cmdBuf c s with | some b => b.freePending.isSome | none => false)]
  effect h s :=
    match cmdBuf h.cmd s with
    | none => { st := s }
    | some b =>
      if referenced b.handle s then
        { st := s.onBuf b.handle fun b => { b with freePending := some h, bar2 := none }, status := .accepted }
      else { st := dropBuf b s }

/-- A buffer's fence counter changes; the buffer stops being LOST (R355, R424). -/
def signalBuf (h : BitVec 32) (f : BitVec 32 → BitVec 32) (s : State) : State :=
  s.onBuf h fun b => { b with fence := f b.fence, lost := false }

/-- An ingest transfer of the host that was accepted before entry j, into the buffer when one is given, is outstanding. -/
def ingesting (host : HostId) (buf : Option (BitVec 32)) (j : BitVec 64) (s : State) : Bool :=
  s.hif.ingests.any fun h => h.cmd.host == host && h.jseq.toNat < j.toNat &&
    (match buf with | some b => BitVec.ofNat 32 (u32 (Cmd.payload h.cmd) 0) == b | none => true)

/-- The fence change of a BUF_SIGNAL. -/
def applySignal (h : Held) (s : State) : State :=
  let b := Cmd.payload h.cmd
  signalBuf (BitVec.ofNat 32 (u32 b 0)) (fun n => if bitOf (u8 b 4) 0 then BitVec.ofNat 32 (u32 b 8) else n + 1) s

def specBufSignal : OpSpec where
  op := 0x0902
  cls := [clsBuffer]
  len := lenIs 12
  owners c s := match cmdBuf c s with | some b => if b.shared then [] else [b.owner] | none => []
  check c s := checks [rsvBits c 4 0xFE, rsv c 5 3, bufChecks c 0 s]
  effect h s :=
    let b := Cmd.payload h.cmd
    if ingesting h.cmd.host (some (BitVec.ofNat 32 (u32 b 0))) h.jseq s then
      { st := s.onCmp fun c => { c with named := BitVec.ofNat 32 (u32 b 0) :: c.named }, status := .accepted, sole := true }
    else { st := applySignal h s }

def execBufAlloc (cmd : Cmd) (s : State) : Host.Outcome State Fault Refusal := .next (accept specBufAlloc cmd s)
def execBufFree (cmd : Cmd) (s : State) : Host.Outcome State Fault Refusal := .next (accept specBufFree cmd s)
def execBufSignal (cmd : Cmd) (s : State) : Host.Outcome State Fault Refusal := .next (accept specBufSignal cmd s)

/-! ## Shadows (R328 to R343, R348) -/

def specCmpViewSet : OpSpec where
  op := 0x0700
  cls := [clsView]
  len := lenIs 16
  owners := ownTarget
  check c _ :=
    let b := Cmd.payload c
    checks [badAt c 0 (outside 256 8192 (u16 b 0) || u16 b 0 % 16 != 0),
      badAt c 2 (outside 128 4352 (u16 b 2) || u16 b 2 % 2 != 0), badAt c 4 (outside 65536 16777216 (u32 b 4)),
      rsvBits c 14 0xF8, rsv c 15 1]
  effect h s :=
    let b := Cmd.payload h.cmd
    { st := s.onCview h.cmd.tindex.toNat fun v => { v with shadow := { v.shadow with
        width := u16 b 0, height := u16 b 2, leadTk := u32 b 4
        bg := Vector.ofFn fun i => BitVec.ofNat 16 (u16 b (8 + 2 * i.val))
        lutOn := bitOf (u8 b 14) 0, range := BitVec.ofNat 2 (field (u8 b 14) 1 2) } } }

/-- The pipes bound to a view, ascending. -/
def pipesOf (v : Nat) (s : State) : List Nat := (List.range 24).filter fun i => (s.pipe i).view == some (BitVec.ofNat 3 v)

/-- The view that a CMP_PIPE_BIND names; none to unbind. -/
def bindView (c : Cmd) : Option (BitVec 3) :=
  let v := u8 (Cmd.payload c) 0
  if v = 0xFF then none else some (BitVec.ofNat 3 v)

/-- The pipe domains switch off: their counters clear (R360). -/
def pipesOff (s : State) : State := forN 24 (fun i s => s.onPipe i fun p => { p with tileCnt := 0 }) s

/-- A view-frame that reads pipe i is being composed. -/
def pipeRead (i : Nat) (s : State) : Bool :=
  s.cmp.views.toList.any fun v => match v.composing with | some c => c.layers.any fun l => l.1 == i | none => false

/-- The pipe takes a binding; unbound, its domain is off and it keeps its role epoch (R330, R570). -/
def takeBind (i : Nat) (v : Option (BitVec 3)) (s : State) : State :=
  let s := s.onPipe i fun p =>
    if v = p.view then { p with bindWait := none }
    else match v with
      | none => { epoch := p.epoch + 1 }
      | some _ => { p with view := v, epoch := p.epoch + 1, bindWait := none }
  if v.isNone then pruneDoms s else s

/-- The pipe is enabled in the state in force or in a commit that awaits its boundary. -/
def pipeInUse (i : Nat) (s : State) : Bool :=
  (s.pipe i).layer.enable || s.cmp.commits.any fun c => c.sets i s && (nth c.layers i).enable

/-- Bindings that wait for frames to end take effect once no frame reads their pipe, and while no commit has enabled it. -/
def settleBinds (s : State) : State :=
  forN 24 (fun i s => match (s.pipe i).bindWait with
    | none => s
    | some h => if pipeRead i s || pipeInUse i s then s else complete h .done 0 (takeBind i (bindView h.cmd) s)) s

/-- Pipes that view v holds, those whose binding to it waits included (R329). -/
def heldPipes (v : BitVec 3) (s : State) : Nat :=
  ((List.range 24).filter fun i => (s.pipe i).view == some v ||
    (match (s.pipe i).bindWait with | some h => bindView h.cmd == some v | none => false)).length

def specCmpPipeBind : OpSpec where
  op := 0x0701
  cls := [clsLayer]
  len := lenIs 4
  owners c s :=
    (match bindView c with | some v => [nth s.hif.viewOwner v.toNat] | none => []) ++
    (if (s.pipe c.tindex.toNat).view.isSome then [nth s.hif.layerOwner c.tindex.toNat] else [])
  check c s :=
    let i := c.tindex.toNat
    let v := bindView c
    checks [badAt c 0 (4 < u8 (Cmd.payload c) 0 && u8 (Cmd.payload c) 0 != 0xFF), rsv c 1 3,
      badAt c 0 (match v with
        | some v => (s.pipe i).view != some v && decide (8 ≤ heldPipes v s)
        | none => false),
      busyIf ((s.pipe i).bindWait.isSome || ((s.pipe i).view.isSome && (s.pipe i).view != v && pipeInUse i s))]
  effect h s :=
    let i := h.cmd.tindex.toNat
    if pipeRead i s && (s.pipe i).view != bindView h.cmd then
      { st := s.onPipe i fun p => { p with bindWait := some h }, status := .accepted, sole := true }
    else { st := takeBind i (bindView h.cmd) s }

/-- A named buffer that is live has the property. -/
def badBuf (f : Buffer → Bool) (hs : List (BitVec 32)) (s : State) : Bool :=
  hs.any fun h => match findBuf h s with | some b => f b | none => false

/-- The layer of a CMP_LAYER_SET payload. -/
def parseLayer (b : List Byte) : Layer :=
  { enable := bitOf (u8 b 0) 0, source := BitVec.ofNat 2 (field (u8 b 0) 1 2), blend := BitVec.ofNat 2 (field (u8 b 0) 3 2)
    nearest := bitOf (u8 b 0) 5, lutOn := bitOf (u8 b 0) 6, z := u8 b 1, format := BitVec.ofNat 8 (u8 b 2)
    alphaSrc := BitVec.ofNat 2 (u8 b 3), matrix := BitVec.ofNat 2 (field (u8 b 3) 2 2)
    buffer := BitVec.ofNat 32 (u32 b 4), fence := BitVec.ofNat 32 (u32 b 8), alphaBuf := BitVec.ofNat 32 (u32 b 12)
    plane1 := u32 b 16, plane2 := u32 b 20, stride0 := u32 b 24, stride1 := u32 b 28, strideA := u32 b 32
    srcW := u16 b 36, srcH := u16 b 38, cropX := u16 b 40, cropY := u16 b 42, cropW := u16 b 44, cropH := u16 b 46
    dstX := i16 b 48, dstY := i16 b 50, dstW := u16 b 52, dstH := u16 b 54, alpha := u16 b 56 }

def specCmpLayerSet : OpSpec where
  op := 0x0702
  cls := [clsLayer]
  len := lenIs 64
  owners := ownTarget
  check c s :=
    let b := Cmd.payload c
    checks [rsvBits c 0 0x80, badAt c 0 (field (u8 b 0) 1 2 == 3 || field (u8 b 0) 3 2 == 3), badAt c 1 (7 < u8 b 1),
      rsvBits c 3 0xF0, rsv c 58 6, busyIf (s.thm.shutdown || (s.pipe c.tindex.toNat).view.isNone),
      chk (badBuf (·.place.isNone) (parseLayer b).bufs s) ⟨.budgetExceeded, 0⟩]
  effect h s := { st := s.onPipe h.cmd.tindex.toNat fun p => { p with shadow := parseLayer (Cmd.payload h.cmd) } }

/-- Entries per curve of a LUT: 1,024 for a layer, 4,096 for a view. -/
def lutEntries (c : Cmd) : Nat := if c.tclass = clsLayer then 1024 else 4096

/-- Curves in a CMP_LUT_SET payload. -/
def lutCurves (c : Cmd) : Nat := if bitOf (u8 (Cmd.payload c) 0) 0 then 1 else 3

def specCmpLutSet : OpSpec where
  op := 0x0703
  cls := [clsLayer, clsView]
  len l := 8 ≤ l
  shape c := Cmd.len c == 8 + 4 * lutCurves c * lutEntries c
  owners := ownTarget
  check c s :=
    checks [rsvBits c 0 0xFE, rsv c 1 7,
      busyIf (c.tclass == clsLayer && (s.thm.shutdown || (s.pipe c.tindex.toNat).view.isNone)),
      checks ((List.range (lutCurves c * lutEntries c)).map fun i =>
        badAt c (8 + 4 * i) (decide (524288 ≤ u32 (Cmd.payload c) (8 + 4 * i))))]
  effect h s :=
    let n := lutCurves h.cmd * lutEntries h.cmd
    let l := (List.range n).map fun i => BitVec.ofNat 19 (u32 (Cmd.payload h.cmd) (8 + 4 * i))
    if h.cmd.tclass = clsLayer then { st := s.onPipe h.cmd.tindex.toNat fun p => { p with shadowLut := some l } }
    else { st := s.onCview h.cmd.tindex.toNat fun v => { v with shadow := { v.shadow with lut := some l } } }

def specCmpWritebackSet : OpSpec where
  op := 0x0704
  cls := [clsView]
  len := lenIs 12
  owners := ownTarget
  check c s :=
    let b := Cmd.payload c
    checks [badAt c 0 (2 < u8 b 0), rsv c 1 3, badAt c 8 (u32 b 8 % 64 != 0),
      chk (u8 b 0 != 0 && badBuf (·.place.isNone) [BitVec.ofNat 32 (u32 b 4)] s) ⟨.budgetExceeded, 0⟩]
  effect h s :=
    let b := Cmd.payload h.cmd
    { st := s.onCview h.cmd.tindex.toNat fun v => { v with shadow := { v.shadow with
        wbMode := BitVec.ofNat 2 (u8 b 0), wbBuffer := BitVec.ofNat 32 (u32 b 4), wbStride := u32 b 8 } } }

def execCmpViewSet (cmd : Cmd) (s : State) : Host.Outcome State Fault Refusal := .next (accept specCmpViewSet cmd s)
def execCmpPipeBind (cmd : Cmd) (s : State) : Host.Outcome State Fault Refusal := .next (accept specCmpPipeBind cmd s)
def execCmpLayerSet (cmd : Cmd) (s : State) : Host.Outcome State Fault Refusal := .next (accept specCmpLayerSet cmd s)
def execCmpLutSet (cmd : Cmd) (s : State) : Host.Outcome State Fault Refusal := .next (accept specCmpLutSet cmd s)
def execCmpWritebackSet (cmd : Cmd) (s : State) : Host.Outcome State Fault Refusal := .next (accept specCmpWritebackSet cmd s)

/-! ## Formats (R336 to R339) -/

/-- A code of R336. -/
def formatOk (f : Nat) : Bool := (1 ≤ f && f ≤ 6) || (0x10 ≤ f && f ≤ 0x17)

/-- A Y′CbCr format; 4:2:0; three planes. -/
def isYcc (f : Nat) : Bool := 0x10 ≤ f
def is420 (f : Nat) : Bool := isYcc f && bitOf f 1
def isThree (f : Nat) : Bool := isYcc f && bitOf f 2

/-- Bytes per pixel of plane 0. -/
def bytesPer (f : Nat) : Nat := match f with | 1 => 4 | 2 => 6 | 3 => 6 | 4 => 8 | 5 => 8 | 6 => 8 | _ => 2

/-- Row bytes and rows of plane 1 (and 2) for w × h luma samples; 0 rows when there is none. -/
def chromaRow (f w : Nat) : Nat := if isThree f then w / 2 * 2 else w / 2 * 4
def chromaRows (f h : Nat) : Nat := if isYcc f then (if is420 f then h / 2 else h) else 0

/-- A plane of rows lies inside n bytes. -/
def planeFits (ofs stride row rows n : Nat) : Bool := rows == 0 || ofs + stride * (rows - 1) + row ≤ n

/-- A stride is a multiple of 64 and covers a row. -/
def strideBad (stride row : Nat) : Bool := stride % 64 != 0 || stride < row

/-- A buffer layer breaks R336, R338, R339, R340 or R341, for buffers of the sizes given. -/
def layerBad (l : Layer) (size sizeA : Nat) : Bool :=
  let f := l.format.toNat
  let packed := 4 ≤ f && f ≤ 6
  !(formatOk f) || (l.alphaSrc == 3 && !packed) || (l.alphaPlane && packed) ||
  16384 < l.srcW || 16384 < l.srcH || l.cropW == 0 || l.cropH == 0 || l.srcW < l.cropX + l.cropW || l.srcH < l.cropY + l.cropH ||
  (isYcc f && (l.cropX % 2 != 0 || l.cropW % 2 != 0)) || (is420 f && (l.cropY % 2 != 0 || l.cropH % 2 != 0)) ||
  l.stride1 % 64 != 0 || l.strideA % 64 != 0 || strideBad l.stride0 (l.srcW * bytesPer f) || !(planeFits 0 l.stride0 (l.srcW * bytesPer f) l.srcH size) ||
  (isYcc f && (strideBad l.stride1 (chromaRow f l.srcW) ||
    !(planeFits l.plane1 l.stride1 (chromaRow f l.srcW) (chromaRows f l.srcH) size))) ||
  (isThree f && !(planeFits l.plane2 l.stride1 (chromaRow f l.srcW) (chromaRows f l.srcH) size)) ||
  (l.alphaPlane && (strideBad l.strideA (l.srcW * l.alphaSrc.toNat) ||
    !(planeFits 0 l.strideA (l.srcW * l.alphaSrc.toNat) l.srcH sizeA))) ||
  outside 1 16384 l.dstW || outside 1 16384 l.dstH || 4 * l.dstW < l.cropW || 4 * l.dstH < l.cropH

/-- Taps of an axis (R341). -/
def vTaps (l : Layer) : Nat :=
  if l.nearest then 1 else if l.cropH ≤ l.dstH then 4 else if l.cropH ≤ 2 * l.dstH then 6 else 8
def hTaps (l : Layer) : Nat := if l.nearest then 1 else 8

/-- Bytes that a layer's crop reads per frame, every plane included. -/
def cropBytes (l : Layer) : Nat :=
  let f := l.format.toNat
  l.cropW * l.cropH * bytesPer f + (if isThree f then 2 else 1) * chromaRow f l.cropW * chromaRows f l.cropH +
  (if l.alphaPlane then l.cropW * l.cropH * l.alphaSrc.toNat else 0)

/-! ## CMP_COMMIT (R350 to R353) -/

/-- A candidate composition state: view settings and layers by index. -/
structure Cand where
  view : Nat → ViewCfg
  layer : Nat → Layer

/-- The candidate of the shadows of the masked views, over the pending commits and the state in force. -/
def shadowCand (mask : Nat) (s : State) : Cand :=
  let pend (v : Nat) : Option CmpCommit := s.cmp.commits.find? fun c => c.mask.getLsbD v
  { view := fun v => if bitOf mask v then (s.cview v).shadow else match pend v with
      | some c => nth c.views v | none => (s.cview v).cfg
    layer := fun i => match (s.pipe i).view with
      | none => {}
      | some w => if bitOf mask w.toNat then (s.pipe i).shadow else match pend w.toNat with
        | some c => if c.sets i s then nth c.layers i else (s.pipe i).layer
        | none => (s.pipe i).layer }

/-- A refusal that names a pipe or a view. -/
def naming (st : Status) (i : Nat) : Refuse := ⟨st, BitVec.ofNat 32 i⟩

/-- The first index of a list that fails. -/
def firstNamed (st : Status) (is : List Nat) (bad : Nat → Bool) : Option Refuse := (is.find? bad).map (naming st)

/-- Enabled pipes of a view in a candidate. -/
def onPipes (d : Cand) (v : Nat) (s : State) : List Nat := (pipesOf v s).filter fun i => (d.layer i).enable

/-- R345 for pipe i among the enabled pipes of its view. -/
def orderBad (d : Cand) (is : List Nat) (i : Nat) : Bool :=
  let l := d.layer i
  is.any fun j => j != i &&
    let m := d.layer j
    m.z == l.z || (l.source == 1 && m.source == 1) || (l.source == 2 && m.source == 2) ||
    (l.source == 1 && m.source == 0 && m.z > l.z) || (l.source == 2 && m.z > l.z)

/-- The view composes frames: it has a plane store or a writeback. -/
def composes (v : Nat) (c : ViewCfg) (s : State) : Bool := !(s.store v).bufs.isEmpty || c.wbMode != 0

/-- Row 8 of R350. -/
def overBudgetCmp (d : Cand) (s : State) : Bool :=
  let vs := (List.range 5).filter fun v => composes v (d.view v) s
  let pixels := (vs.map fun v => (d.view v).width * (d.view v).height * framesOf v s).sum
  let crop := (vs.map fun v => framesOf v s *
    (((onPipes d v s).filter fun i => (d.layer i).reads).map fun i => cropBytes (d.layer i)).sum).sum
  let wb := (vs.map fun v => if (d.view v).wbMode = 0 then 0 else framesOf v s * (d.view v).width * 6 * (d.view v).height).sum
  16000000000 * s.rd < pixels * s.rn || reservation 3 s * 1000000 * s.rd < crop * s.rn ||
  reservation 4 s * 1000000 * s.rd < wb * s.rn

/-- The writeback of a view breaks R348 or names no live buffer, or a buffer that is also a source. -/
def wbBad (d : Cand) (mask v : Nat) (s : State) : Bool :=
  let c := d.view v
  c.wbMode != 0 && ((findBuf c.wbBuffer s).isNone || c.wbStride < c.width * 6 ||
    bufSize c.wbBuffer s < c.wbStride * c.height ||
    (bitsOf 5 mask).any fun w => (onPipes d w s).any fun i => (d.layer i).bufs.contains c.wbBuffer)

/-- Rows 3 to 8 of R350 for a candidate. -/
def commitRows (host : HostId) (mask : Nat) (d : Cand) (s : State) : Option Refuse :=
  let vs := bitsOf 5 mask
  let is := vs.flatMap fun v => onPipes d v s
  let rd := is.filter fun i => (d.layer i).reads
  let bufRow (st : Status) (f : Buffer → Bool) : Option Refuse := firstOf [
    firstNamed st rd fun i => badBuf f (d.layer i).bufs s,
    firstNamed st vs fun v => badBuf f (d.view v).bufs s]
  let secret (i : Nat) : Bool := (d.layer i).source == 2 || badBuf (·.isProtected) (d.layer i).bufs s
  firstOf [
    firstNamed .badField vs fun v => (d.view v).width == 0,
    firstNamed .badField rd fun i => (d.layer i).bufs.any (fun h => (findBuf h s).isNone) ||
      layerBad (d.layer i) (bufSize (d.layer i).buffer s) (bufSize (d.layer i).alphaBuf s),
    firstOf (vs.map fun v => firstNamed .badField (onPipes d v s) fun i => orderBad d (onPipes d v s) i),
    firstNamed .badField vs fun v => wbBad d mask v s,
    bufRow .notOwner fun b => b.owner != host && !b.shared,
    bufRow .busy fun b => b.freePending.isSome,
    bufRow .budgetExceeded fun b => b.place.isNone,
    firstNamed .linebufShort rd fun i => 49152 < vTaps (d.layer i) * (d.layer i).cropW,
    firstNamed .securityDenied vs fun v => (d.view v).wbMode != 0 &&
      ((onPipes d v s).any secret || badBuf (·.isProtected) (d.view v).bufs s),
    firstNamed .budgetExceeded vs fun _ => overBudgetCmp d s]

/-- The candidate that a waiting commit holds. -/
def heldCand (c : CmpCommit) (s : State) : Cand :=
  let base := shadowCand 0 s
  { view := fun v => if c.mask.getLsbD v then nth c.views v else base.view v
    layer := fun i => if c.sets i s then nth c.layers i else base.layer i }

/-- A commit that a boundary refuses leaves the waiting commits. -/
def dropCommit (h : Held) (s : State) : State :=
  sweepBuffers (s.onCmp fun c => { c with commits := c.commits.filter fun x => x.held.jseq != h.jseq })

def specCmpCommit : OpSpec where
  op := 0x0705
  cls := [clsViewset]
  len := lenIs 4
  boundary := true
  late := true
  owned c s :=
    let vs := bitsOf 5 (u8 (Cmd.payload c) 0)
    firstOf [firstNamed .notOwner vs fun v => nth s.hif.viewOwner v != c.host,
      firstNamed .notOwner (vs.flatMap fun v => pipesOf v s) fun i => nth s.hif.layerOwner i != c.host]
  check c s :=
    let m := u8 (Cmd.payload c) 0
    let vs := bitsOf 5 m
    firstOf [rsvBits c 0 0xE0, rsvBits c 1 0xF0, rsv c 2 2,
      firstNamed .busy vs fun v => s.cmp.commits.any fun x => x.mask.getLsbD v,
      commitRows c.host m (shadowCand m s) s]
  recheck := some fun h s => match s.cmp.commits.find? fun x => x.held.jseq == h.jseq with
    | some x => commitRows h.cmd.host x.mask.toNat (heldCand x s) s
    | none => none
  effect h s :=
    let b := Cmd.payload h.cmd
    { st := s.onCmp fun c => { c with commits := c.commits ++ [{
        held := h, mask := BitVec.ofNat 5 (u8 b 0), maxDefer := u8 b 1
        views := Vector.ofFn fun v => c.views[v].shadow
        pipes := (bitsOf 5 (u8 b 0)).flatMap fun v => pipesOf v s
        layers := Vector.ofFn fun i => c.pipes[i].shadow
        luts := Vector.ofFn fun i => c.pipes[i].shadowLut }] }
      status := .accepted }
  apply h s := s.onCmp fun c => { c with commits := c.commits.map fun x => if x.held.jseq = h.jseq then { x with due := true } else x }

def execCmpCommit (cmd : Cmd) (s : State) : Host.Outcome State Fault Refusal := .next (accept specCmpCommit cmd s)

/-- A fence value is ready in a buffer (R355). -/
def fenceReady (h v : BitVec 32) (s : State) : Bool :=
  match findBuf h s with | some b => (b.fence - v).toNat < 2147483648 | none => true

/-- The pipes of a commit that newly name a buffer whose fence is not ready (R351). -/
def latePipes (c : CmpCommit) (s : State) : List Nat :=
  (List.range 24).filter fun i =>
    let l := nth c.layers i
    let o := (s.pipe i).layer
    c.sets i s && l.reads &&
    l.bufs.any fun h => !(o.reads && o.bufs.contains h && o.fence == l.fence) && !(fenceReady h l.fence s)

/-- A late layer keeps what reads its previous buffer and takes every other field (R352). -/
def lateLayer (o l : Layer) : Layer :=
  if o.reads then { l with
    buffer := o.buffer, fence := o.fence, alphaBuf := o.alphaBuf, format := o.format, alphaSrc := o.alphaSrc
    plane1 := o.plane1, plane2 := o.plane2, stride0 := o.stride0, stride1 := o.stride1, strideA := o.strideA
    cropX := o.cropX, cropY := o.cropY, cropW := o.cropW, cropH := o.cropH }
  else { l with enable := false }

/-- A view's state in force has an enabled layer on a protected buffer (R359). -/
def viewProtected (v : Nat) (s : State) : Bool :=
  (pipesOf v s).any fun i => (s.pipe i).layer.enable && badBuf (·.isProtected) (s.pipe i).layer.bufs s

/-- The plane store of a view follows its protection: a change empties it, and space that stops being protected is
overwritten with zeros (R251, R484). -/
def followProtection (v : Nat) (s : State) : State :=
  let now := viewProtected v s
  let st := s.store v
  if now = st.isProtected then s
  else
    let s := (emptyStore true v s).onStore v fun st => { st with isProtected := now }
    if now then s else wipe .plane st.base (storeSize st) s

/-- A commit applies at this boundary (R351, R352). -/
def applyCommit (c : CmpCommit) (late : List Nat) (s : State) : State :=
  let s := journalApply c.held s
  let s := forN 5 (fun v s =>
    if !c.mask.getLsbD v then s
    else
      let o := (s.cview v).cfg
      let n := nth c.views v
      let s := s.onCview v fun x => { x with cfg := n, committed := true }
      if o.width = n.width && o.height = n.height && o.leadTk = n.leadTk then s
      else s.onFview v fun f => { f with recheck := true }) s
  let s := forN 24 (fun i s => if c.sets i s then s.onPipe i fun p => { p with
      layer := if late.contains i then lateLayer p.layer (nth c.layers i) else nth c.layers i, lut := nth c.luts i } else s) s
  let s := s.onCmp fun x => { x with commits := x.commits.filter fun y => y.held.jseq != c.held.jseq }
  let s := forN 5 (fun v s => if c.mask.getLsbD v then followProtection v s else s) s
  if late.isEmpty then complete c.held .done 0 s
  else
    let s := cmpRaise 0x1 s
    let s := late.foldl (fun s i => match (s.pipe i).view with
      | some v => cviewRaise v.toNat 0x2 (s.onCview v.toNat fun x => { x with lateCnt := sat x.lateCnt })
      | none => s) s
    complete c.held .degraded (BitVec.ofNat 32 ((late.map fun i => 2 ^ i).sum)) s

/-- The due commits at a boundary, in order of acceptance. -/
def runCommits (s : State) : State :=
  settleBinds (sweepBuffers ((s.cmp.commits.filter (·.due)).foldl (fun s c =>
    let late := latePipes c s
    if late.isEmpty || c.maxDefer ≤ c.waited then applyCommit c late s
    else
      let s := s.onCmp fun x => { x with commits := x.commits.map fun y =>
        if y.held.jseq = c.held.jseq then { y with waited := y.waited + 1 } else y }
      forN 5 (fun v s => if c.mask.getLsbD v then s.onCview v fun x => { x with deferCnt := sat x.deferCnt } else s) s) s))

/-! ## Pixels (R335 to R347)

Colours are Q3.16 in three components. A position is in 1/65,536 pixel. -/

/-- A value of three components. -/
abbrev Rgb := Int × Int × Int

def Rgb.map (f : Int → Int) (c : Rgb) : Rgb := (f c.1, f c.2.1, f c.2.2)

/-- Saturation to unsigned Q3.16. -/
def satQ (x : Int) : Int := clampI 0 524287 x

/-- A quotient rounded to nearest, from exact rational arithmetic. -/
def roundRat (q : Rat) : Int := roundDiv q.num q.den

/-- A half float as Q m: clamped to [0, hi / m] and rounded in units of 1 / m. -/
def halfTo (m hi : Nat) (h : Nat) : Int :=
  let e := field h 10 5
  let f := field h 0 10
  let neg := bitOf h 15
  if e = 31 then (if f ≠ 0 then Config.halfNan h else if neg then 0 else hi)
  else
    let v : Rat := if e = 0 then mkRat f (2 ^ 24) else mkRat ((1024 + f) * 2 ^ e) (2 ^ 25)
    if neg then 0 else min (roundRat (v * m)) hi

/-- Entry i of curve k of a LUT of n entries per curve; a LUT of one curve serves all components. -/
def lutAt (l : Option (List (BitVec 19))) (n k i : Nat) : Int :=
  match l with
  | none => Config.unsetLut i
  | some es => ((es.getD (if es.length = n then i else k * n + i) 0).toNat : Int)

/-- A lookup in a curve of n entries: i = floor(num / den), with the next entry weighted by the remainder (R343, R346). -/
def curveAt (entry : Nat → Int) (n num den : Nat) : Int :=
  let i := num / den
  let a := entry i
  if i + 1 < n then a + roundDiv ((entry (i + 1) - a) * (num % den : Nat)) den else a

/-- A LUT lookup for component k. -/
def lutMap (l : Option (List (BitVec 19))) (n k num den : Nat) : Int := curveAt (lutAt l n k) n num den

/-- The input LUT of a pipe on a 16-bit component (R343). -/
def inputLut (on : Bool) (l : Option (List (BitVec 19))) (k v : Nat) : Int :=
  if on then lutMap l 1024 k (v * 1023) 65535 else roundDiv (v * 65536) 65535

/-- What the pixel computation reads: a layer with its buffers, its LUT and the state of the memory. -/
structure Source where
  l : Layer
  buf : Buffer
  abuf : Buffer
  lut : Option (List (BitVec 19))

/-- A little-endian number in a buffer. -/
def numAt (b : Buffer) (o n : Nat) (s : State) : Nat :=
  let bs : List Byte := match b.place with
    | some a => seenBytes (a + o) n s
    | none => bufBytes b o n s
  bs.foldr (fun x a => x.toNat + 256 * a) 0

/-- A component in the top bits of a 16-bit container, as 16 bits. -/
def component (bits code : Nat) : Nat := if bits = 16 then code else Config.widen bits (code / 2 ^ (16 - bits))

/-- Bits of a Y′CbCr format. -/
def yccBits (f : Nat) : Nat := if bitOf f 0 then 12 else 10

/-- A chroma code at chroma position (i, j), held within the crop; which is 0 for Cb and 1 for Cr. -/
def chromaCode (x : Source) (which : Nat) (i j : Int) (s : State) : Int :=
  let l := x.l
  let f := l.format.toNat
  let half (n : Nat) : Nat := if is420 f then n / 2 else n
  let ci := (clampI (l.cropX / 2 : Nat) ((l.cropX + l.cropW) / 2 - 1 : Nat) i).toNat
  let cj := (clampI (half l.cropY : Nat) (half (l.cropY + l.cropH) - 1 : Nat) j).toNat
  let o := if isThree f then (if which = 0 then l.plane1 else l.plane2) + l.stride1 * cj + 2 * ci
    else l.plane1 + l.stride1 * cj + 4 * ci + 2 * which
  (numAt x.buf o 2 s / 2 ^ (16 - yccBits f) : Nat)

/-- The 4-tap weights of R337 in 64ths, by phase in quarters. -/
def chromaTaps (q : Nat) : List Int :=
  match q with | 0 => [0, 64, 0, 0] | 1 => [-3, 54, 16, -3] | 2 => [-4, 36, 36, -4] | _ => [-3, 16, 54, -3]

/-- A filter over the samples at positions p - 1 to p + 2. -/
def tap4 (q : Nat) (p : Int) (f : Int → Int) : Int :=
  ((chromaTaps q).zipIdx.map fun w => w.1 * f (p - 1 + w.2)).sum

/-- Chroma at luma position (i, j), in 4,096ths of a code. -/
def chromaAt (x : Source) (which : Nat) (i j : Nat) (s : State) : Int :=
  let row (r : Int) : Int := tap4 (if i % 2 = 0 then 0 else 2) (i / 2 : Nat) fun c => chromaCode x which c r s
  if is420 x.l.format.toNat then
    (if j % 2 = 0 then tap4 3 ((j / 2 : Nat) - 1 : Int) row else tap4 1 (j / 2 : Nat) row)
  else 64 * row j

/-- The matrix coefficients Kr and Kb of a MATRIX code (BT.709, BT.2020), and full range. -/
def matrixOf (m : Nat) : Rat × Rat × Bool :=
  if m < 2 then (mkRat 2126 10000, mkRat 722 10000, m == 1) else (mkRat 2627 10000, mkRat 593 10000, m == 3)

/-- Y′CbCr codes as 16-bit R′G′B′ components (R337): luma code, chroma in 4,096ths. -/
def yccToRgb (m bits : Nat) (y cb cr : Int) : Nat × Nat × Nat :=
  let k := matrixOf m
  let u : Rat := (2 ^ (bits - 8) : Nat)
  let top : Rat := (2 ^ bits - 1 : Nat)
  let yn : Rat := if k.2.2 then y / top else (y - 16 * u) / (219 * u)
  let cn (c : Int) : Rat := if k.2.2 then (mkRat c 4096 - 128 * u) / top else (mkRat c 4096 - 128 * u) / (224 * u)
  let r := yn + 2 * (1 - k.1) * cn cr
  let b := yn + 2 * (1 - k.2.1) * cn cb
  let g := (yn - k.1 * r - k.2.1 * b) / (1 - k.1 - k.2.1)
  let out (v : Rat) : Nat := (roundRat ((if v < 0 then 0 else if 1 < v then 1 else v) * 65535)).toNat
  (out r, out g, out b)

/-- The colour of a source pixel in Q3.16, after the input LUT. -/
def sourceColour (x : Source) (i j : Nat) (s : State) : Rgb :=
  let l := x.l
  let f := l.format.toNat
  let o := l.stride0 * j + i * bytesPer f
  let lut (k v : Nat) : Int := inputLut l.lutOn x.lut k v
  let w (k : Nat) : Nat := numAt x.buf (o + 2 * k) 2 s
  let c (bits : Nat) : Rgb := (lut 0 (component bits (w 0)), lut 1 (component bits (w 1)), lut 2 (component bits (w 2)))
  match f with
  | 1 =>
    let v := numAt x.buf o 4 s
    let t (k : Nat) : Nat := Config.widen 10 (field v (10 * k) 10)
    (lut 0 (t 0), lut 1 (t 1), lut 2 (t 2))
  | 2 => c 12
  | 3 => c 16
  | 4 => c 16
  | 5 => c 12
  | 6 => (halfTo 65536 524287 (w 0), halfTo 65536 524287 (w 1), halfTo 65536 524287 (w 2))
  | _ =>
    let bits := yccBits f
    let y := numAt x.buf o 2 s / 2 ^ (16 - bits)
    let v := yccToRgb l.matrix.toNat bits (y : Nat) (chromaAt x 0 i j s) (chromaAt x 1 i j s)
    (lut 0 v.1, lut 1 v.2.1, lut 2 v.2.2)

/-- The alpha of a source pixel, 0 to 65,535 (R338). -/
def sourceAlpha (x : Source) (i j : Nat) (s : State) : Int :=
  let l := x.l
  let f := l.format.toNat
  let w := numAt x.buf (l.stride0 * j + i * bytesPer f + 6) 2 s
  match l.alphaSrc.toNat with
  | 1 => (numAt x.abuf (l.strideA * j + i) 1 s * 257 : Nat)
  | 2 => numAt x.abuf (l.strideA * j + 2 * i) 2 s
  | 3 => if f = 4 then w else if f = 5 then (w % 256 * 257 : Nat) else halfTo 65535 65535 w
  | _ => 65535

/-- A value computed to a step of 1: the manual names no rounding, so an inexact one takes an open choice. -/
def stepOf (a : Int) (b : Nat) : Int :=
  if a % (b : Int) = 0 then a / (b : Int) else a / (b : Int) + (if Config.stepUp a b then 1 else 0)

/-- The source position of a destination pixel on one axis, in 1/65,536 pixel (R340). -/
def sourcePos (crop cropN : Nat) (dst : Int) (dstN : Nat) (x : Nat) : Int :=
  stepOf (65536 * (2 * (crop : Int) * dstN + (2 * ((x : Int) - dst) + 1) * cropN - dstN)) (2 * dstN)

/-- One axis of the scaler over samples by index, held within the crop. -/
def scaleAxis (taps : Nat) (nearest : Bool) (lo n : Nat) (pos : Int) (f : Nat → Int) : Int :=
  let at' (i : Int) : Int := f (clampI lo (lo + n - 1 : Nat) i).toNat
  if nearest then at' (roundDiv pos 65536)
  else
    let ph := roundDiv ((pos % 65536) * 64) 65536
    let base := pos / 65536 + (if ph = 64 then 1 else 0)
    Config.scaleFilter taps (ph % 64).toNat ((List.range taps).map fun t => at' (base - (taps / 2 : Nat) + 1 + t))

/-- A component of a layer at a canvas pixel: the vertical taps first, then the horizontal ones (R341). -/
def scaleAt (x : Source) (px py : Nat) (f : Nat → Nat → Int) : Int :=
  let l := x.l
  let sx := sourcePos l.cropX l.cropW l.dstX l.dstW px
  let sy := sourcePos l.cropY l.cropH l.dstY l.dstH py
  satQ (scaleAxis (hTaps l) l.nearest l.cropX l.cropW sx fun i =>
    scaleAxis (vTaps l) l.nearest l.cropY l.cropH sy fun j => f i j)

/-- The canvas pixel lies in the layer's destination rectangle. -/
def Layer.covers (l : Layer) (x y : Nat) : Bool :=
  l.source != 0 || (l.dstX ≤ x && (x : Int) < l.dstX + l.dstW && l.dstY ≤ y && (y : Int) < l.dstY + l.dstH)

/-- One component of R344: the value below, the colour, the per-pixel alpha and the layer. -/
def blendOne (l : Layer) (d c a : Int) : Int :=
  let al := roundDiv (a * l.alpha) 65535
  match l.blend.toNat with
  | 0 => satQ (roundDiv (c * l.alpha + d * (65535 - al)) 65535)
  | 1 => satQ (roundDiv (c * al + d * (65535 - al)) 65535)
  | _ => satQ c

/-- A layer blended over the value below. -/
def blendOver (l : Layer) (d c : Rgb) (a : Int) : Rgb :=
  (blendOne l d.1 c.1 a, blendOne l d.2.1 c.2.1 a, blendOne l d.2.2 c.2.2 a)

/-- A pixel of the symbol surface at an address: format 0x06 (R335). -/
def symbolPixel (base w x y : Nat) (s : State) : Rgb × Int :=
  let h (k : Nat) : Nat := (seenBytes (base + (y * w + x) * 8 + 2 * k) 2 s).foldr (fun b a => b.toNat + 256 * a) 0
  ((halfTo 65536 524287 (h 0), halfTo 65536 524287 (h 1), halfTo 65536 524287 (h 2)), halfTo 65535 65535 (h 3))

/-! ### The forensic mark (R485) -/

/-- sin²(π(u + 0.5) / 64) for u from 0 to 31, in units of 2^-64; u and 63 - u have the same weight. -/
def markSin2 : List Nat := [
  11109955554379889, 99829075332015482, 276412901265023831, 539160834579131649, 885542469043893309, 1312221960167950780,
  1815090151205043505, 2389304146579768456, 3029333951619367285, 3729015729425427580, 4481611161992710566,
  5279872343895080873, 6116111583576868356, 6982275440025068881, 7870022281808758238, 8770802621549771526,
  9675941452159780090, 10576721791900793378, 11464468633684482735, 12330632490132683260, 13166871729814470743,
  13965132911716841050, 14717728344284124036, 15417410122090184331, 16057439927129783160, 16631653922504508111,
  17134522113541600836, 17561201604665658307, 17907583239130419967, 18170331172444527785, 18346914998377536134,
  18435634118155171727]

/-- The weight w of a tile's local pixel, in units of 2^-128. -/
def markWeight (u v : Nat) : Nat := markSin2.getD (min u (63 - u)) 0 * markSin2.getD (min v (63 - v)) 0

/-- The mark message M of a payload, 128 bits. -/
def markMessage (payload : BitVec 32) : BitVec 128 :=
  let m := leBytes 8 Config.deviceSerial.toNat ++ leBytes 4 payload.toNat
  (Config.deviceSerial ++ payload) ++ crc32c m

/-- A mark layer blended over the value below at a canvas pixel. -/
def markOver (l : Layer) (payload : BitVec 32) (strength w h : Nat) (x y : Nat) (d : Rgb) : Rgb :=
  let tw := ceilDiv w 64
  if w < (x / 64 + 1) * 64 || h < (y / 64 + 1) * 64 then d
  else
    let t := y / 64 * tw + x / 64
    let k : Int := strength * markWeight (x % 64) (y % 64)
    let one : Nat := 2 ^ 128
    if (markMessage payload).getLsbD (127 - t % 128) then
      d.map fun v => satQ (roundDiv (k * l.alpha + v * 65535 * one) (65535 * one))
    else
      let al := roundDiv (k * l.alpha) (65536 * one)
      d.map fun v => satQ (roundDiv (v * (65535 - al)) 65535)

/-! ### A canvas pixel -/

/-- The layers of a frame in ascending Z. -/
def byZ (ls : List (Nat × Layer)) : List (Nat × Layer) :=
  (List.range 8).flatMap fun z => ls.filter fun l => l.2.z == z

/-- A buffer layer's contribution at a canvas pixel: nothing while a buffer of it is LOST (R424), or when its protected
buffers must not contribute (R477, R485). -/
def bufferOver (x : Source) (markOk : Bool) (px py : Nat) (d : Rgb) (s : State) : Rgb :=
  if x.buf.lost || x.buf.place.isNone || (x.l.alphaPlane && (x.abuf.lost || x.abuf.place.isNone)) ||
      ((!markOk || s.sec.st != .operational) && (x.buf.isProtected || (x.l.alphaPlane && x.abuf.isProtected))) then d
  else
    let part (k : Rgb → Int) : Int := scaleAt x px py fun i j => k (sourceColour x i j s)
    blendOver x.l d (part (·.1), part (·.2.1), part (·.2.2)) (clampI 0 65535 (scaleAt x px py fun i j => sourceAlpha x i j s))

/-- A layer over the value below at a canvas pixel; a view without SYMB clusters has a transparent symbol surface (R386). -/
def layerOver (c : Composing) (i : Nat) (l : Layer) (px py : Nat) (d : Rgb) (s : State) : Rgb :=
  if !(l.covers px py) then d
  else match l.source.toNat with
    | 0 =>
      let lut := match c.luts.find? fun y => y.1 == i with | some y => y.2 | none => none
      match findBuf l.buffer s with
      | some b => bufferOver ⟨l, b, (findBuf l.alphaBuf s).getD {}, lut⟩ c.markOk px py d s
      | none => d
    | 1 => match c.symb with
      | some a => let y := symbolPixel a c.cfg.width px py s; blendOver l d y.1 y.2
      | none => blendOver l d (0, 0, 0) 0
    | _ => match c.mark with
      | some m => if s.sec.st = .operational then markOver l m.1 m.2.toNat c.cfg.width c.cfg.height px py d else d
      | none => d

/-- The post-blend LUT of a view (R346). -/
def postLut (c : ViewCfg) (k : Nat) (x : Int) : Int :=
  if c.lutOn then
    let top : Nat := 65536 * 2 ^ c.range.toNat
    lutMap c.lut 4096 k ((clampI 0 top x).toNat * 4095) top
  else x

/-- A canvas pixel of a frame (R344 to R346). -/
def composePixel (c : Composing) (px py : Nat) (s : State) : Rgb :=
  let bg (k : Nat) : Int := roundDiv ((nth c.cfg.bg k).toNat * 65536 : Nat) 65535
  let d := (byZ c.layers).foldl (fun d l => layerOver c l.1 l.2 px py d s) (bg 0, bg 1, bg 2)
  (postLut c.cfg 0 d.1, postLut c.cfg 1 d.2.1, postLut c.cfg 2 d.2.2)

/-! ## Occlusion (R347) -/

/-- A layer touches tile (tx, ty); and covers it whole. -/
def Layer.touches (l : Layer) (tx ty w h : Nat) : Bool :=
  l.source != 0 || (l.dstX < (min w (64 * tx + 64) : Nat) && (64 * tx : Int) < l.dstX + l.dstW &&
    l.dstY < (min h (64 * ty + 64) : Nat) && (64 * ty : Int) < l.dstY + l.dstH)

def Layer.opaqueOn (l : Layer) (tx ty w h : Nat) : Bool :=
  l.source == 0 && l.dstX ≤ (64 * tx : Nat) && (min w (64 * tx + 64) : Int) ≤ l.dstX + l.dstW &&
  l.dstY ≤ (64 * ty : Nat) && (min h (64 * ty + 64) : Int) ≤ l.dstY + l.dstH &&
  (l.blend == 2 || (l.alphaSrc == 0 && l.alpha == 65535))

/-- Tiles that a layer touches and fetches, and that it touches and saves. -/
def tileCounts (c : Composing) (l : Layer) : Nat × Nat :=
  let w := c.cfg.width
  let h := c.cfg.height
  let tiles := (List.range (ceilDiv h 64)).flatMap fun ty => (List.range (ceilDiv w 64)).map fun tx => (tx, ty)
  let touched := tiles.filter fun t => l.touches t.1 t.2 w h
  let saved := touched.filter fun t => c.layers.any fun m => m.2.z > l.z && m.2.opaqueOn t.1 t.2 w h
  (touched.length - saved.length, saved.length)

/-! ## Composing view-frames (R331 to R334, R348) -/

/-- The period of the frame whose start instant lies `early` ticks ahead (R331). -/
def startPeriod (v fofs early : Nat) (s : State) : Nat :=
  let f := framesOf v s
  let d := early + (s.cview v).cfg.leadTk + (f - 1 - fofs) * (16777216 / f)
  ((s.frame.toNat * 16777216 + s.tick + d) * 2 + 16777216) / 33554432

/-- A fabric drop (R378). -/
def fabDrop (v : Nat) (s : State) : State :=
  fviewRaise v 0x2 (s.onFview v fun f => { f with dropCnt := sat f.dropCnt })

/-- The waiting frame of a view is dropped as a new composition starts, and the surface that the new frame is written into is
chosen (R378). -/
def takeSurface (v : Nat) (s : State) : State × Nat :=
  let f := s.fview v
  match f.waiting, f.frame with
  | some w, some _ => (fabDrop v (s.onFview v fun f => { f with waiting := none }), w.surface)
  | some w, none => (fabDrop v (s.onFview v fun f => { f with waiting := none }), 1 - w.surface)
  | none, some g => (s, 1 - g.surface)
  | none, none => (s, 0)

/-- The view has an enabled symbol layer in the state in force. -/
def hasSymbols (v : Nat) (s : State) : Bool := (pipesOf v s).any fun i => (s.pipe i).layer.enable && (s.pipe i).layer.source == 1

/-- The frame needs symbols that are not rendered (R386). -/
def symbLate (v p fofs : Nat) (s : State) : Bool :=
  hasSymbols v s && (s.fview v).chain.symbClusters != 0 &&
  (s.fview v).symbDone != some (BitVec.ofNat 64 p, BitVec.ofNat 2 fofs)

/-- The runs (buffer, offset, length) that a buffer layer's crop takes from its planes (R336 to R338). -/
def layerRuns (l : Layer) : List (BitVec 32 × Nat × Nat) :=
  let f := l.format.toNat
  let half (n : Nat) : Nat := if is420 f then n / 2 else n
  let rows (b : BitVec 32) (ofs stride lo n x w : Nat) : List (BitVec 32 × Nat × Nat) :=
    (List.range n).map fun y => (b, ofs + stride * (lo + y) + x, w)
  rows l.buffer 0 l.stride0 l.cropY l.cropH (l.cropX * bytesPer f) (l.cropW * bytesPer f) ++
  (if !(isYcc f) then []
    else if isThree f then
      rows l.buffer l.plane1 l.stride1 (half l.cropY) (half l.cropH) (l.cropX / 2 * 2) (l.cropW / 2 * 2) ++
      rows l.buffer l.plane2 l.stride1 (half l.cropY) (half l.cropH) (l.cropX / 2 * 2) (l.cropW / 2 * 2)
    else rows l.buffer l.plane1 l.stride1 (half l.cropY) (half l.cropH) (l.cropX / 2 * 4) (l.cropW / 2 * 4)) ++
  (if l.alphaPlane then
    let n := if l.alphaSrc = 1 then 1 else 2
    rows l.alphaBuf 0 l.strideA l.cropY l.cropH (l.cropX * n) (l.cropW * n) else [])

/-- A buffer layer contributes to a frame: its buffers are not LOST, and protected ones not withheld (R424, R477, R485). -/
def Layer.fetched (l : Layer) (markOk : Bool) (s : State) : Bool :=
  l.source == 0 && !(badBuf (fun b => b.lost || b.place.isNone || (b.isProtected && (!markOk || s.sec.st != .operational))) l.bufs s)

/-- A view-frame's layer fetch by port 1 (R400): the crop of each buffer layer, and the symbol surface. The model makes it at the start
instant, each crop once (DESIGN CHOICE, notes/assumptions/120.md). -/
def fetchLayers (c : Composing) (s : State) : State :=
  let s := (c.layers.filter fun l => l.2.fetched c.markOk s).foldl (fun s l => (layerRuns l.2).foldl (fun s r =>
    match findBuf r.1 s with
    | some b => (bufFetch { port := 1 } b r.2.1 r.2.2 s).st
    | none => s) s) s
  match c.symb with
  | some a => if c.layers.any fun l => l.2.source == 1 then
      (portRead { port := 1, addr := a } (c.cfg.width * c.cfg.height * 8) s).st else s
  | none => s

/-- The canvas surface that a frame of an unprotected view takes holds zeros when it held what protected layers composed (R484). -/
def cleanSurface (v i : Nat) (s : State) : State :=
  let f := s.fview v
  let kept := if (s.cview v).isProtected then List.range f.canvas.length else f.secret
  let s := if kept.contains i then
    (match f.canvas[i]? with | some a => wipe .general a f.surfSize s | none => s) else s
  s.onFview v fun f => { f with secret := kept.filter (· != i) }

/-- A frame of view v starts to be composed. -/
def startFrame (v p fofs : Nat) (s : State) : State :=
  let ls := ((pipesOf v s).map fun i => (i, (s.pipe i).layer)).filter fun l => l.2.enable
  let prot := viewProtected v s
  let bad := prot && s.sec.markRequired &&
    (!(ls.any fun l => l.2.source == 2) || (s.sec.mark.isNone && s.sec.markNext.isNone))
  let s := if bad then secRaise 0x40 s else s
  let t := takeSurface v s
  let cfg := (s.cview v).cfg
  let c : Composing := {
    period := BitVec.ofNat 64 p, fofs := BitVec.ofNat 2 fofs, surface := t.2, cfg := cfg, layers := ls
    luts := ls.map fun l => (l.1, (s.pipe l.1).lut), uses := ls.flatMap (fun l => l.2.bufs) ++ cfg.bufs
    symb := if (s.fview v).chain.symbClusters = 0 then none else (s.fview v).symbSurf[(s.fview v).symbIdx]?
    isProtected := prot, markOk := !bad, mark := s.sec.mark, dropped := s.fab.clockLost }
  (fetchLayers c (if prot then t.1 else cleanSurface v t.2 t.1)).onCview v fun x => { x with
    isProtected := prot, composing := some c, cfg := if x.cfg.wbMode = 1 then { x.cfg with wbMode := 0 } else x.cfg }

/-- CMP_FRAME_START: the start instant of a view-frame. -/
def execCmpFrameStart (v : Fin 5) (fofs : BitVec 2) (s : State) : Host.Outcome State Fault Refusal :=
  .next (let x := s.cview v.val
    let p := startPeriod v.val fofs.toNat 0 s
    if !s.live || s.fab.stopped || s.pictureStops || !x.committed || !(composes v.val x.cfg s) ||
        framesOf v.val s ≤ fofs.toNat then s
    else if x.composing.isSome then cviewRaise v.val 0x1 (s.onCview v.val fun x => { x with skipCnt := sat x.skipCnt })
    else if symbLate v.val p fofs.toNat s then
      fviewRaise v.val 0x4 (s.onFview v.val fun f => { f with symbLateCnt := sat f.symbLateCnt })
    else startFrame v.val p fofs.toNat s)

/-- The bytes of one canvas pixel in a surface (R377). -/
def canvasBytes (c : Rgb) : List Byte :=
  leBytes 8 (c.1.toNat % 524288 + c.2.1.toNat % 524288 * 2 ^ 21 + c.2.2.toNat % 524288 * 2 ^ 42)

/-- Memory as the frame reads it: the words that a request of port 1 found uncorrectable read as 0 (R410). -/
def seenBy (c : Composing) (s : State) : State :=
  s.onMem fun m => { m with general := c.bad.foldl (fun g w => memClear g (32 * w) (32 * w + 32)) m.general }

/-- The composed rows below n that the canvas surface lacks are stored in it (R377); while its clock is missing the fabric stores
none (R390). -/
def storeRows (v n : Nat) (c : Composing) (s : State) : State :=
  match (if c.dropped || s.fab.clockLost then none else (s.fview v).canvas[c.surface]?) with
  | none => s
  | some a =>
    let bytes := (List.range (n - c.rows)).flatMap fun y => (List.range c.cfg.width).flatMap fun x =>
      canvasBytes (composePixel c x (c.rows + y) (seenBy c s))
    portWrite { port := 3, addr := a + c.rows * c.cfg.width * 8 } bytes s

/-- The writeback of a frame (R348), by port 2. -/
def writeBack (v : Nat) (c : Composing) (s : State) : State :=
  match (if c.cfg.wbMode = 0 then none else findBuf c.cfg.wbBuffer s) with
  | none => s
  | some b =>
    let code (x : Int) : List Byte := leBytes 2 ((roundDiv (min x 65536 * 4095) 65536).toNat * 16)
    let row (y : Nat) : List Byte := (List.range c.cfg.width).flatMap fun x =>
      let p := composePixel c x y (seenBy c s)
      code p.1 ++ code p.2.1 ++ code p.2.2
    let s := (List.range c.cfg.height).foldl (fun t y => bufStore { port := 2 } b (y * c.cfg.wbStride) (row y) t) s
    s.onCview v fun x => { x with
      wbCnt := sat x.wbCnt, wbFrame := BitVec.ofNat 32 (c.fofs.toNat + c.period.toNat % 2 ^ 30 * 4) }

/-- Tile counts of a frame. -/
def countTiles (v : Nat) (c : Composing) (s : State) : State :=
  c.layers.foldl (fun s l =>
    let n := tileCounts c l.2
    (s.onPipe l.1 fun p => { p with tileCnt := satN p.tileCnt n.1 }).onCview v fun x => { x with cullCnt := satN x.cullCnt n.2 }) s

/-- A sequence chosen at the most recent boundary references the view and frame offset on some port (R379); so does the one with which a
port whose HOLD_EXIT waits leaves hold, whose frames R132 asks for. -/
def isReferenced (v fofs : Nat) (s : State) : Bool :=
  (List.range 4).any fun p =>
    let q := s.port p
    q.enable && (if q.hold.on then (if q.hold.exiting then exitShows p s else []) else showsOf (backNow s) q.kind.toNat s q.slots).any
      fun x => x.1 == v && x.2.1 == fofs

/-- The fabric has a chain in force for the view that passes its checks. -/
def chainLive (v : Nat) (s : State) : Bool :=
  !(s.fview v).canvas.isEmpty && !(s.fview v).chain.stages.isEmpty && !(s.fview v).invalid && !(s.store v).bufs.isEmpty

/-- The fabric's frame is the one that is being composed. -/
def FabFrame.isOf (g : FabFrame) (c : Composing) : Bool := g.period == c.period && g.fofs == c.fofs

/-- The frame of view v in processing is the one that is being composed. -/
def inProcessing (v : Nat) (c : Composing) (s : State) : Bool := match (s.fview v).frame with | some g => g.isOf c | none => false

/-- A frame that is not referenced is not processed (R379). -/
def countUnref (v : Nat) (s : State) : State := s.onFview v fun f => { f with unrefCnt := sat f.unrefCnt }

/-- A composed frame goes to the fabric: dropped, already taken for processing, not referenced, or waiting (R377 to R379, R390). A
frame that an outage catches in processing is dropped, and counted, when the clock returns. -/
def toFabric (v : Nat) (c : Composing) (s : State) : State :=
  if (s.fview v).canvas.isEmpty || s.fab.stopped then s
  else if c.dropped then (if c.counted || inProcessing v c s then s else fabDrop v s)
  else if c.taken then s.onFview v fun f => { f with frame := f.frame.map fun g => if g.isOf c then { g with composed := true } else g }
  else if !(chainLive v s) then s
  else if !(isReferenced v c.fofs.toNat s) then countUnref v s
  else s.onFview v fun f => { f with waiting := some {
    period := c.period, fofs := c.fofs, surface := c.surface, composed := true, isProtected := c.isProtected } }

/-- CMP_FRAME_DONE: the composition of a view-frame ends, with its writeback. -/
def execCmpFrameDone (v : Fin 5) (s : State) : Host.Outcome State Fault Refusal :=
  .next (match (s.cview v.val).composing with
    | none => s
    | some c =>
      if !s.live then s
      else
        let s := countTiles v.val c (writeBack v.val c (storeRows v.val c.cfg.height c s))
        let s := s.onCview v.val fun x => { x with composing := none, frameCnt := sat x.frameCnt }
        settleBinds (sweepBuffers (toFabric v.val c s)))

end Sys2Proof.Machine
end

