-- ==== Sys2Proof/Machine/Fabric.lean ====
section
/-!
DEFINITION. The pixel fabric (spec/11): program images, role chains and their switches, parameters, the standard roles'
arithmetic, symbol rendering, and the bands on their way to the slicers.
-/
namespace Sys2Proof.Machine

/-! ## Program images (R364 to R366) -/

/-- A cluster that is not OFF uses the image slot. -/
def slotUsed (i : Nat) (s : State) : Bool := s.fab.clusters.toList.any fun c => c.st != .off && c.slot.toNat == i

/-- Bytes of an image by its header. -/
def imageBytes (b : List Byte) : Nat := 64 + u32 b 12 + u32 b 16 + u32 b 20

/-- The header breaks R365 or R366. -/
def imageBad (b : List Byte) : Bool :=
  let role := u8 b 6
  u32 b 0 != 0x31424657 || u16 b 4 != 1 || outside 1 7 role || u8 b 7 / 4 != 0 || (role == 6 && u8 b 7 != 0) ||
  (if role = 6 then u16 b 8 != 0 else outside 1 640 (u16 b 8)) || 4096 < u16 b 10 || outside 1 16384 (u32 b 12) ||
  32768 < u32 b 16 || 524288 < u32 b 20 || u32 b 28 != 0

/-- The digest of an image: over the whole image, with its own field taken as zeros. -/
def imageDigest (b : List Byte) : List Byte := (Config.shake256 (b.take 32 ++ List.replicate 32 0 ++ b.drop 64)).toList

/-- The image that a buffer holds, as port 9 reads it (notes/assumptions/120.md), and the state after the reads. -/
def bufImage (q : Buffer) (s : State) : Option (List Byte) × State :=
  let h := bufFetch { port := 9 } q 0 64 s
  if q.size < 64 || imageBad h.bytes || q.size < imageBytes h.bytes then (none, h.st)
  else
    let b := bufFetch { port := 9 } q 64 (imageBytes h.bytes - 64) h.st
    let bytes := h.bytes ++ b.bytes
    (if imageDigest bytes = slice bytes 32 32 then some bytes else none, b.st)

/-- The image is read once the command has passed its other checks, so that the accesses count; one that R365 and R366 refuse fails with
BAD_FIELD, as its check does where BUSY would come after it. -/
def specFabImageLoad : OpSpec where
  op := 0x0800
  cls := [clsImage]
  len := lenIs 8
  owners := ownConfig
  check c s :=
    checks [rsv c 4 4, chk (c.tindex.toNat < 6) ⟨.badField, 10⟩, bufChecks c 0 s,
      badAt c 0 (match cmdBuf c s with | some q => slotUsed c.tindex.toNat s && (bufImage q s).1.isNone | none => true),
      busyIf (slotUsed c.tindex.toNat s), memBusy s]
  effect h s :=
    match (cmdBuf h.cmd s).map fun q => bufImage q s with
    | none => { st := s }
    | some (none, t) => { st := t, status := .badField, detail := Cmd.fieldAt h.cmd 0 }
    | some (some b, t) => { st := t.onFab fun f => { f with images := upd f.images h.cmd.tindex.toNat fun _ => {
        valid := true, role := BitVec.ofNat 3 (u8 b 6), io := BitVec.ofNat 8 (u8 b 7), cost := BitVec.ofNat 16 (u16 b 8)
        paramSize := u16 b 10, rev := BitVec.ofNat 32 (u32 b 24), size := BitVec.ofNat 32 b.length
        code := slice b 64 (u32 b 12), data := slice b (64 + u32 b 12) (u32 b 16)
        shared := slice b (64 + u32 b 12 + u32 b 16) (u32 b 20) } } }

/-! ## Role chains (R367 to R376) -/

/-- The chain of a FAB_CHAIN_SET payload. -/
def parseChain (b : List Byte) : RoleChain :=
  { stages := (List.range (u8 b 1)).map fun i => (BitVec.ofNat 8 (u8 b (16 + 16 * i)), BitVec.ofNat 64 (u64 b (24 + 16 * i)))
    symbImage := if u8 b 2 = 0xFF then none else some (BitVec.ofNat 8 (u8 b 2))
    symbClusters := BitVec.ofNat 64 (u64 b 8) }

/-- The image of a stage. -/
def imageOf (i : BitVec 8) (s : State) : Image := nth s.fab.images i.toNat

/-- COST of an image for a view of n colours. -/
def costOf (m : Image) (n : Nat) : Nat :=
  if m.builtIn then [160, 4 * n, 40 + 12 * n, 24, 4 * n, 0].getD (m.role.toNat - 1) 0 else m.cost.toNat

/-- The rules of R368 that do not depend on the view: order, repeats and formats of the stages. -/
def orderRule (ms : List Image) : Bool :=
  let n := ms.length
  let at' (i : Nat) : Image := ms.getD i {}
  let conv := (List.range n).filter fun i => (at' i).io == 2
  (List.range n).all (fun i =>
    let m := at' i
    !(m.role == 1 && i != 0) && !(m.role == 5 && i + 1 != n) && m.role != 6 &&
    (m.role == 7 || (List.range i).all fun j => (at' j).role != m.role)) &&
  conv.length ≤ 1 &&
  (match conv with
    | k :: _ => (List.range n).all fun i => i == k || (at' i).io == (if i < k then 0 else 3)
    | [] => true)

/-- The stages break R368 for view v. -/
def chainBad (v : Nat) (c : RoleChain) (s : State) : Bool :=
  let ms := c.stages.map fun x => imageOf x.1 s
  let st := s.store v
  let cfg := (s.cview v).cfg
  !ms.isEmpty && (!(orderRule ms) || st.bufs.isEmpty || cfg.width == 0 ||
    (!(ms.any fun m => m.io == 2) && colourCount st.colours != 3) ||
    (!(ms.any fun m => m.role == 1) && (cfg.width != st.width || cfg.height != st.height)))

/-- Stage costs exceed the credit of R369. -/
def chainOver (v : Nat) (c : RoleChain) (s : State) : Bool :=
  let st := s.store v
  let win := min (s.cview v).cfg.leadTk (16777216 / st.f)
  c.stages.any fun x =>
    let k := (bitsOf 64 x.2.toNat).length
    9 * k * 160000000000 * win * s.rd * 999 <
      10 * st.width * st.height * costOf (imageOf x.1 s) (colourCount st.colours) * s.rn * 16777216 * 1000

/-- Masks of a chain, the SYMB clusters last. -/
def chainMasks (c : RoleChain) : List (BitVec 64) := c.stages.map (·.2) ++ [c.symbClusters]

/-- A cluster is named by two stages. -/
def masksClash (c : RoleChain) : Bool :=
  (List.range 64).any fun n => 1 < ((chainMasks c).filter fun m => m.getLsbD n).length

/-- Where a chain puts cluster n: stage index and image slot; index 8 is the SYMB rendering. -/
def placeOf (c : RoleChain) (n : Nat) : Option (Nat × BitVec 8) :=
  match c.stages.zipIdx.find? fun x => x.1.2.getLsbD n with
  | some x => some (x.2, x.1.1)
  | none => if c.symbClusters.getLsbD n then c.symbImage.map fun i => (8, i) else none

/-- Bytes of a canvas or symbol surface. -/
def surfaceSize (v : Nat) (s : State) : Nat := (s.cview v).cfg.width * (s.cview v).cfg.height * 8

/-- Place n surfaces of a size, lowest addresses first. -/
def placeSurfaces : Nat → Nat → List (Nat × Nat) → Nat → Option (List Nat)
  | 0, _, _, _ => some []
  | n + 1, size, used, room => match firstFit size room used with
    | none => none
    | some a => (placeSurfaces n size ((a, size) :: used) room).map fun t => a :: t

/-- Chains need canvas surfaces; and symbol surfaces. -/
def needCanvas (cs : List RoleChain) : Bool := cs.any fun c => !c.stages.isEmpty
def needSymb (cs : List RoleChain) : Bool := cs.any fun c => c.symbClusters != 0

/-- The view's surfaces with those that the chains still lack, or none when they do not fit. -/
def takeSurfaces (v : Nat) (cs : List RoleChain) (s : State) : Option (List Nat × List Nat) :=
  let f := s.fview v
  let nc := if !(needCanvas cs) || !f.canvas.isEmpty then 0 else 2
  let ns := if !(needSymb cs) || !f.symbSurf.isEmpty then 0 else 2
  (placeSurfaces (nc + ns) (surfaceSize v s) (generalExtents s) (generalSize s.mem)).map fun l =>
    (if nc = 0 then f.canvas else l.take 2, if ns = 0 then f.symbSurf else l.drop nc)

/-- A stage's image slot is empty or no slot. -/
def slotBadAt (c : Cmd) (o : Nat) (s : State) : Option Refuse :=
  let i := u8 (Cmd.payload c) o
  badAt c o (15 < i || !(nth s.fab.images i).valid)

/-- A cluster at the acceptance of a FAB_CHAIN_SET, by its new and its old place (R370, R374). -/
def nameCluster (v : Nat) (role : BitVec 3) (new old : Option (Nat × BitVec 8)) (c : Cluster) : Cluster :=
  match new, old with
  | none, none => c
  | none, some _ => { c with epoch := c.epoch + 1 }
  | some x, y =>
    if y = some x then c
    else { c with
      st := .load, view := BitVec.ofNat 3 v, stage := BitVec.ofNat 3 x.1, slot := BitVec.ofNat 4 x.2.toNat
      role := role, symb := x.1 == 8, assigned := true, loaded := false, epoch := c.epoch + 1 }

def specFabChainSet : OpSpec where
  op := 0x0801
  cls := [clsView]
  len := lenIs 144
  owners := ownTarget
  check c s :=
    let b := Cmd.payload c
    let v := c.tindex.toNat
    let ch := parseChain b
    checks [rsvBits c 0 0xFE, badAt c 1 (8 < u8 b 1), rsv c 3 5, badAt c 8 (u8 b 2 == 0xFF && u64 b 8 != 0),
      checks ((List.range 8).map fun i => if i < u8 b 1 then badAt c (16 + 16 * i) (!zeros b (17 + 16 * i) 7) else rsv c (16 + 16 * i) 16),
      if u8 b 2 = 0xFF then none else checks [slotBadAt c 2 s, badAt c 2 ((nth s.fab.images (u8 b 2)).role != 6)],
      checks ((List.range (u8 b 1)).map fun i => checks [slotBadAt c (16 + 16 * i) s, badAt c (16 + 16 * i) (u64 b (24 + 16 * i) == 0)]),
      badAny (masksClash ch), badAny (chainBad v ch s),
      busyIf (s.fview v).next.isSome,
      busyIf ((List.range 64).any fun n => match placeOf ch n with
        | none => false
        | some x => (s.cluster n).st != .off && placeOf (s.fview v).chain n != some x),
      memBusy s, chk (chainOver v ch s) ⟨.budgetExceeded, 0⟩, chk (takeSurfaces v [ch] s).isNone ⟨.budgetExceeded, 0⟩]
  effect h s :=
    let b := Cmd.payload h.cmd
    let v := h.cmd.tindex.toNat
    let ch := parseChain b
    let old := (s.fview v).chain
    let size := surfaceSize v s
    let s := match takeSurfaces v [ch] s with
      | some x => s.onFview v fun f => { f with canvas := x.1, symbSurf := x.2, surfSize := size }
      | none => s
    let role (n : Nat) : BitVec 3 := (imageOf ((placeOf ch n).getD (0, 0)).2 s).role
    let s := forN 64 (fun n s => s.onCluster n (nameCluster v (role n) (placeOf ch n) (placeOf old n))) s
    { st := s.onFview v fun f => { f with
        next := some ch, nextStart := bitOf (u8 b 0) 0, nextGo := false, goCmd := none, nextCmd := some h
        nextParams := Vector.replicate 8 none }
      status := .accepted }

def execFabImageLoad (cmd : Cmd) (s : State) : Host.Outcome State Fault Refusal := .next (accept specFabImageLoad cmd s)
def execFabChainSet (cmd : Cmd) (s : State) : Host.Outcome State Fault Refusal := .next (accept specFabChainSet cmd s)

/-- A switch of the view awaits FAB_CHAIN_GO. -/
def awaitsGo (v : Nat) (s : State) : Bool :=
  let f := s.fview v
  f.next.isSome && f.nextStart && !f.nextGo && f.goCmd.isNone

def specFabChainGo : OpSpec where
  op := 0x0802
  cls := [clsView]
  len := lenIs 0
  owners := ownTarget
  boundary := true
  check c s := busyIf (!(awaitsGo c.tindex.toNat s))
  recheck := some fun h s => busyIf (s.fview h.cmd.tindex.toNat).next.isNone
  effect h s := { st := s.onFview h.cmd.tindex.toNat fun f => { f with goCmd := some h } }
  apply h s := s.onFview h.cmd.tindex.toNat fun f => { f with goCmd := none, nextGo := true }

def execFabChainGo (cmd : Cmd) (s : State) : Host.Outcome State Fault Refusal := .next (accept specFabChainGo cmd s)

/-- The cluster belongs to its view's chain in force. -/
def inForce (n : Nat) (s : State) : Bool :=
  let c := s.cluster n
  placeOf (s.fview c.view.toNat).chain n == some (if c.symb then 8 else c.stage.toNat, c.slot.setWidth 8)

/-- Cluster n keeps its place in a chain that awaits its switch and was accepted before the command (R388). -/
def joinsNext (n : Nat) (h : Held) (s : State) : Bool :=
  let c := s.cluster n
  let f := s.fview c.view.toNat
  match f.next, f.nextCmd with
  | some ch, some g => placeOf ch n == some (c.stage.toNat, c.slot.setWidth 8) && decide (g.jseq.toNat < h.jseq.toNat)
  | _, _ => false

/-- Every cluster of the new chain is loaded, or kept. -/
def chainLoaded (v : Nat) (ch : RoleChain) (s : State) : Bool :=
  (List.range 64).all fun n => match placeOf ch n with
    | none => true
    | some x => (s.cluster n).st == .standby || placeOf (s.fview v).chain n == some x

/-- Canvas surfaces that a view gives up are overwritten with zeros where they hold what protected layers composed (R484). -/
def wipeCanvas (v : Nat) (s : State) : State :=
  ((s.fview v).canvas.zipIdx.foldl (fun t c => if canvasSecret v c.2 s then wipe .general c.1 (s.fview v).surfSize t else t) s).onFview v
    fun f => { f with secret := [] }

/-- Zeros over the protected stores and canvas surfaces of every view, and over the buffers that a test picks (R484). -/
def wipePictures (s : State) : State :=
  forN 5 (fun v s => wipeCanvas v (if (s.store v).isProtected then wipe .plane (s.store v).base (storeSize (s.store v)) s else s)) s

def wipeBuffers (f : Buffer → Bool) (s : State) : State :=
  s.cmp.bufs.foldl (fun s b => match f b, b.place with
    | true, some a => wipe .general a b.size s
    | _, _ => s) s

/-- The surfaces of a view without a chain are freed once every cluster that left it is off (R372). -/
def freeSurfaces (v : Nat) (s : State) : State :=
  let f := s.fview v
  if f.next.isSome || (s.fab.clusters.toList.any fun c => !c.assigned && c.st != .off && c.view.toNat == v) then s
  else (if f.chain.stages.isEmpty then wipeCanvas v s else s).onFview v fun f => { f with
    canvas := if f.chain.stages.isEmpty then [] else f.canvas
    symbSurf := if f.chain.symbClusters = 0 then [] else f.symbSurf }

/-- A frame in processing, or a rendering of symbols, uses cluster n. -/
def clusterBusy (n : Nat) (s : State) : Bool :=
  let c := s.cluster n
  let f := s.fview c.view.toNat
  if c.symb then f.symbRun.isSome && (c.st == .active || c.st == .drain)
  else match f.frame with
    | some g => (match placeOf g.chain n with | some p => decide (p.1 < 8) | none => false)
    | none => false

/-- A cluster at a switch, by its new and its old place (R372). -/
def switchCluster (new old : Option (Nat × BitVec 8)) (c : Cluster) : Cluster :=
  match new, old with
  | none, some _ => { c with st := .drain, assigned := false }
  | some x, y => if y = some x then c else { c with st := .active }
  | none, none => c

/-- A chain switches in (R372): the clusters that leave it drain, and FAB_CHAIN_SET completes. The checks are repeated on it at this
boundary, since the canvas may have changed after its acceptance. -/
def switchChain (v : Nat) (ch : RoleChain) (s : State) : State :=
  let old := (s.fview v).chain
  let cmd := (s.fview v).nextCmd
  let s := match cmd with | some h => journalApply h s | none => s
  let s := forN 64 (fun n s => s.onCluster n (switchCluster (placeOf ch n) (placeOf old n))) s
  let s := s.onFview v fun f => { f with
    chain := ch, next := none, nextStart := false, nextGo := false, nextCmd := none, goCmd := none
    invalid := false, recheck := true
    params := Vector.ofFn fun i => match f.nextParams[i] with
      | some p => some p
      | none => if (ch.stages[i.val]?.map (·.1)) = (old.stages[i.val]?.map (·.1)) then f.params[i] else none
    nextParams := Vector.replicate 8 none }
  sweepBuffers (freeSurfaces v (completeOpt cmd .done 0 s))

/-- The chain switches of a boundary (R372). -/
def switchChains (s : State) : State :=
  forN 5 (fun v s => match (s.fview v).next with
    | none => s
    | some ch => if chainLoaded v ch s && (!(s.fview v).nextStart || (s.fview v).nextGo) then switchChain v ch s else s) s

/-- The buffer that a frame of view v is being sliced into is given up without being completed. -/
def abandonSlicing (v frame : Nat) (s : State) : State :=
  match slicingBuf v frame s with
  | none => s
  | some i =>
    let s := s.onStore v fun st => { st with bufs := st.bufs.zipIdx.map fun x => if x.2 = i then { keep := true } else x.1 }
    s.onSlc fun x => { x with slicers := x.slicers.map fun q => if q.view.toNat = v && q.buf = i then { q with dropped := true } else q }

/-- A frame as the plane store numbers it. -/
def FabFrame.id (g : FabFrame) : Nat := g.period.toNat * 4 + g.fofs.toNat

/-- The frame in processing leaves the fabric. -/
def abandonFrame (v : Nat) (s : State) : State :=
  match (s.fview v).frame with
  | none => s
  | some g => sweepBuffers ((abandonSlicing v g.id s).onFview v fun f => { f with frame := none })

/-- The frame being composed is dropped too when it is frame g; its drop has been counted. -/
def dropComposing (v : Nat) (g : FabFrame) (s : State) : State :=
  s.onCview v fun x => { x with composing := x.composing.map fun c => if g.isOf c then { c with dropped := true, counted := true } else c }

/-- The frame in processing on view v is dropped. -/
def dropFrame (v : Nat) (s : State) : State :=
  match (s.fview v).frame with
  | none => s
  | some g => fabDrop v (abandonFrame v (dropComposing v g s))

/-- The frame that waits on view v is dropped. -/
def dropWaiting (v : Nat) (s : State) : State :=
  if (s.fview v).waiting.isSome then fabDrop v (s.onFview v fun f => { f with waiting := none }) else s

/-- The view's chains: the one in force, and the one that awaits its switch. -/
def FabView.chains (f : FabView) : List RoleChain := f.chain :: f.next.toList

/-- A changed canvas takes surfaces of its own size (R370), for the chain in force and for one that awaits its switch: the frames in
the old ones are dropped. -/
def resizeSurfaces (v : Nat) (s : State) : State :=
  let f := s.fview v
  if !(needCanvas f.chains || needSymb f.chains) || f.surfSize = surfaceSize v s then s
  else
    let s := dropWaiting v (dropFrame v s)
    let s := s.onCview v fun x => { x with composing := x.composing.map fun c => { c with dropped := true } }
    let s := (wipeCanvas v s).onFview v fun f => { f with canvas := [], symbSurf := [], symbRun := none, symbDone := none }
    match takeSurfaces v f.chains s with
    | some x => s.onFview v fun g => { g with canvas := x.1, symbSurf := x.2, surfSize := surfaceSize v s }
    | none => s.onFview v fun g => { g with surfSize := 0 }

/-- The checks of R368 and R369 are repeated for every view that asks for it (R373); `all` after a change of master
period. A chain that fails processes no frame, so that its frames are dropped. -/
def recheckChains (all : Bool) (s : State) : State :=
  forN 5 (fun v s =>
    if !(all || (s.fview v).recheck) then s
    else
      let s := resizeSurfaces v (s.onFview v fun f => { f with recheck := false })
      let f := s.fview v
      if f.chain.stages.isEmpty then s
      else if chainBad v f.chain s || chainOver v f.chain s || f.canvas.isEmpty then
        let s := dropWaiting v (dropFrame v s)
        fabRaise 0x4 (fviewRaise v 0x1 (s.onFview v fun f => { f with invalid := true }))
      else s) s

/-! ## Parameters (R381 to R388) -/

/-- Bytes of PARAM for an image. -/
def paramBytes (m : Image) : Nat :=
  match m.role.toNat with | 1 => 4 | 2 => 4 | 3 => 40 | 4 => 4 | 5 => 4 | 6 => 0 | _ => m.paramSize

/-- Bytes that the buffer of a parameter set must hold. -/
def paramNeed (m : Image) (p : List Byte) (st : PlaneStore) : Nat :=
  match m.role.toNat with
  | 1 => u16 p 0 * u16 p 2 * 12
  | 2 => colourCount st.colours * ((st.width / u8 p 0 + 1) * (st.height / u8 p 0 + 1) * 2)
  | 3 => if bitOf (u8 p 0) 0 then 33 * 33 * 33 * 12 else 0
  | 4 => 4096 * 4
  | _ => 0

/-- A PARAM field breaks R381 to R385. -/
def paramFail (c : Cmd) (m : Image) (st : PlaneStore) : Option Refuse :=
  let b := Cmd.payload c
  let buf := u32 b 4 != 0
  match m.role.toNat with
  | 1 => badAt c 8 (buf && (outside 2 257 (u16 b 8) || outside 2 257 (u16 b 10)))
  | 2 => badAt c 8 (!([1, 2, 4, 8].contains (u8 b 8)) || st.width % u8 b 8 != 0 || st.height % u8 b 8 != 0 || !zeros b 9 3)
  | 3 => checks [badAt c 8 (1 < u8 b 8 || !zeros b 9 3), badAt c 4 (bitOf (u8 b 8) 0 && !buf)]
  | 4 => badAt c 8 (1 < u8 b 8 || 3 < u8 b 9 || !zeros b 10 2)
  | 5 => badAt c 8 (outside 8 16 (u8 b 8) || 1 < u8 b 9 || !zeros b 10 2)
  | _ => none

/-- The image of the stage that a cluster serves. -/
def clusterImage (n : Nat) (s : State) : Image := nth s.fab.images (s.cluster n).slot.toNat

/-- The owner of the cluster's view (R434). -/
def ownCluster (c : Cmd) (s : State) : List HostId := [clusterOwner c.tindex.toNat s]

/-- The parameters of a FAB_PARAM_SET. -/
def parseParams (c : Cmd) : Params :=
  let b := Cmd.payload c
  { bytes := slice b 8 (u16 b 0), buffer := BitVec.ofNat 32 (u32 b 4) }

/-- The cluster still plays the part that a command held since its acceptance addressed: its epoch is the command's, or one later
because a chain that releases it has been accepted (R374, R375). -/
def epochStands (n : Nat) (h : Held) (released : Bool) (s : State) : Bool :=
  let e := (s.cluster n).epoch
  e == h.cmd.epoch || (released && e == h.cmd.epoch + 1)

/-- A set accepted for a stage takes effect at its boundary on the chain in force and, when it was accepted after a switch that is
still to come, on that chain (R388); it never reaches another role that its cluster has taken since (R375). -/
def specFabParamSet : OpSpec where
  op := 0x0803
  cls := [clsCluster]
  len l := 8 ≤ l
  shape c := Cmd.len c == 8 + u16 (Cmd.payload c) 0
  owners := ownCluster
  boundary := true
  check c s :=
    let b := Cmd.payload c
    let n := c.tindex.toNat
    let m := clusterImage n s
    let st := s.store (s.cluster n).view.toNat
    checks [rsv c 2 2, busyIf (s.thm.shutdown || (s.cluster n).st == .off),
      badAt c 0 (u16 b 0 != paramBytes m), paramFail c m st,
      if u32 b 4 = 0 then none else checks [bufChecks c 4 s,
        badAt c 4 (decide (bufSize (BitVec.ofNat 32 (u32 b 4)) s < paramNeed m (slice b 8 (u16 b 0)) st))]]
  recheck := some fun h s => busyIf (s.thm.shutdown || (s.cluster h.cmd.tindex.toNat).st == .off)
  apply h s :=
    let n := h.cmd.tindex.toNat
    let c := s.cluster n
    let v := c.view.toNat
    if c.symb || c.st == .off then s
    else
      let p := some (parseParams h.cmd)
      let s := if inForce n s && epochStands n h true s then s.onFview v fun f => { f with params := upd f.params c.stage.toNat fun _ => p } else s
      if joinsNext n h s && epochStands n h false s then
        s.onFview v fun f => { f with nextParams := upd f.nextParams c.stage.toNat fun _ => p } else s

def execFabParamSet (cmd : Cmd) (s : State) : Host.Outcome State Fault Refusal := .next (accept specFabParamSet cmd s)

/-! ## Hold and clock (R380, R390) -/

/-- Entry into hold on every enabled port: the compositor and the fabric stop, and their frames are abandoned (R128, R380). -/
def stopFabric (s : State) : State :=
  let s := forN 5 (fun v s => (abandonFrame v s).onFview v fun f => { f with waiting := none, symbRun := none }) s
  let s := s.onCmp fun c => { c with views := c.views.map fun x => { x with composing := none } }
  settleBinds (sweepBuffers (s.onFab fun f => { f with stopped := true }))

/-- The fabric clock is lost (R390). -/
def fabricClockLost (s : State) : State :=
  if s.fab.clockLost then s
  else
    let s := s.onCmp fun c => { c with views := c.views.map fun x =>
      { x with composing := x.composing.map fun y => { y with dropped := true } } }
    fabRaise 0x2 (s.onFab fun f => { f with clockLost := true, clockLostCnt := sat f.clockLostCnt })

/-- The fabric clock returns (R390). -/
def fabricClockGood (s : State) : State :=
  if s.fab.clockLost then
    (forN 5 (fun v s => dropWaiting v (dropFrame v s)) s).onFab fun f => { f with clockLost := false }
  else s

/-! ## Cluster events (R370 to R376, R391) -/

/-- A cluster goes out of service: the frame that it was processing is dropped, or its symbol rendering aborted, and its domain is
cycled, which clears its SRAM (R376, R391). -/
def cycleCluster (n : Nat) (s : State) : State :=
  let c := s.cluster n
  let v := c.view.toNat
  let s := if !(clusterBusy n s) then s
    else if c.symb then s.onFview v fun f => { f with symbRun := none } else dropFrame v s
  (s.onPwr fun p => { p with doms := p.doms &&& ~~~(bit1 144 n) }).onCluster n fun c => {
    c with engines := Vector.replicate 8 {}, shared := [], loaded := false }

/-- The cluster domains switch off (R522, R526): the SRAM of every cluster that had loaded is lost, and the cluster loads again once
its domain is back. -/
def clustersOff (s : State) : State :=
  forN 64 (fun n s => match (s.cluster n).st with
    | .off => s
    | .drain => cycleCluster n s
    | _ => (cycleCluster n s).onCluster n fun c => { c with st := .load }) s

def specFabClusterReset : OpSpec where
  op := 0x0804
  cls := [clsCluster]
  len := lenIs 0
  owners := ownCluster
  check c s :=
    let st := (s.cluster c.tindex.toNat).st
    busyIf (s.thm.shutdown || st == .off || st == .drain)
  effect h s :=
    let n := h.cmd.tindex.toNat
    { st := (cycleCluster n s).onCluster n fun c => { c with st := .load, cmds := c.cmds ++ [h] }, status := .accepted, sole := true }

def execFabClusterReset (cmd : Cmd) (s : State) : Host.Outcome State Fault Refusal := .next (accept specFabClusterReset cmd s)

/-- A cluster's SRAM after a load of the image in a slot: code and data in each engine, and the shared content (R365, R370). -/
def loadSram (slot : Nat) (m : Image) (c : Cluster) : Cluster :=
  let e : Engine := if m.builtIn then { code := Config.builtInCode slot, data := Config.builtInData slot }
    else { code := m.code, data := m.data }
  { c with engines := Vector.replicate 8 e, shared := if m.builtIn then Config.builtInShared slot else m.shared }

/-- A cluster that loads: after its naming, a reset or an error, also one that was released in the meantime. -/
def Cluster.loading (c : Cluster) : Bool := c.st == .load || c.st == .faulted || (c.st == .drain && !c.loaded)

/-- A cluster in service on its chain's frames (R376): one that is loaded, in the chain in force or draining. -/
def Cluster.serves (c : Cluster) : Bool := (c.st == .active || c.st == .drain) && c.loaded

/-- CLUSTER_LOAD_DONE: the cluster, whose domain is on, has loaded its image and parameters. -/
def execClusterLoadDone (n : Fin 64) (s : State) : Host.Outcome State Fault Refusal :=
  .next (let c := s.cluster n.val
    if !s.live || !c.loading || !(domainOn n.val s) then s
    else
      let st' : ClSt := if !c.assigned then .drain else if inForce n.val s then .active else .standby
      let s' := s.onCluster n.val fun c => { loadSram c.slot.toNat (clusterImage n.val s) c with st := st', loaded := true, cmds := [] }
      c.cmds.foldl (fun t h => complete h .done 0 t) s')

/-- CLUSTER_DRAIN_DONE: the released cluster has finished the frames it started and any reload, and switches off. -/
def execClusterDrainDone (n : Fin 64) (s : State) : Host.Outcome State Fault Refusal :=
  .next (let c := s.cluster n.val
    if !s.live || c.st != .drain || !c.cmds.isEmpty || clusterBusy n.val s then s
    else
      let s := (s.onPwr fun p => { p with doms := p.doms &&& ~~~(bit1 144 n.val) }).onCluster n.val fun c => {
        epoch := c.epoch, bandCnt := c.bandCnt, ceCnt := c.ceCnt, ueCnt := c.ueCnt }
      freeSurfaces c.view.toNat s)

/-- FAB_SRAM_UE: an uncorrectable SRAM error of a powered cluster, which reloads without a command. -/
def execFabSramUe (n : Fin 64) (s : State) : Host.Outcome State Fault Refusal :=
  .next (if !s.live || (s.cluster n.val).st == .off then s
    else fabRaise 0x1 ((cycleCluster n.val s).onCluster n.val fun c => { c with ueCnt := sat c.ueCnt, st := .faulted }))

/-! ## The standard roles (R381 to R385) -/

/-- The value of a rational saturated to Q3.16. -/
def quantQ (q : Rat) : Int := satQ (roundRat q)

/-- A frame in hand: its view, its chain and what the roles read. -/
structure RoleCtx where
  v : Nat
  g : FabFrame
  store : PlaneStore
  cfg : ViewCfg

/-- The canvas component k at a position that may lie outside, where taps read 0. -/
def canvasAt (x : RoleCtx) (k : Nat) (px py : Int) (s : State) : Int :=
  if px < 0 || py < 0 || (x.cfg.width : Int) ≤ px || (x.cfg.height : Int) ≤ py then 0
  else match (s.fview x.v).canvas[x.g.surface]? with
    | none => 0
    | some a => (field (u64 (memRead s.mem.general (a + (py.toNat * x.cfg.width + px.toNat) * 8) 8) 0) (21 * k) 19 : Nat)

/-- The parameters that a stage works with: those of the frame, or none while their buffer is LOST (R424). -/
def stageParams (x : RoleCtx) (i : Nat) (s : State) : Option (Params × Buffer) :=
  match (x.g.params[i]?).join with
  | none => none
  | some p => match findBuf p.buffer s with
    | some b => if b.lost || b.place.isNone then none else some (p, b)
    | none => some (p, {})

/-- The weights of the cubic filter with a = -0.5 at a phase of 64, for the taps at -1, 0, 1 and 2. -/
def cubicWeights (ph : Nat) : List Rat :=
  let t := mkRat ph 64
  let near (d : Rat) : Rat := 3 / 2 * d ^ 3 - 5 / 2 * d ^ 2 + 1
  let far (d : Rat) : Rat := -1 / 2 * d ^ 3 + 5 / 2 * d ^ 2 - 4 * d + 2
  [far (1 + t), near t, near (1 - t), far (2 - t)]

/-- One axis of the cubic filter at a position in 65,536ths. -/
def cubicAxis (pos : Int) (f : Int → Rat) : Rat :=
  let ph := (roundDiv ((pos % 65536) * 64) 65536).toNat
  let base := pos / 65536 + (if ph = 64 then 1 else 0)
  ((cubicWeights (ph % 64)).zipIdx.map fun w => w.1 * f (base - 1 + w.2)).sum

/-- Bilinear interpolation of a grid at (px / dx, py / dy) in grid steps. -/
def bilinear (px dx py dy : Nat) (nx ny : Nat) (f : Nat → Nat → Int) : Rat :=
  let i := min (px / dx) (nx - 2)
  let j := min (py / dy) (ny - 2)
  let tx := mkRat (px - i * dx : Nat) dx
  let ty := mkRat (py - j * dy : Nat) dy
  (1 - ty) * ((1 - tx) * f i j + tx * f (i + 1) j) + ty * ((1 - tx) * f i (j + 1) + tx * f (i + 1) (j + 1))

/-- A rational to 1/65,536, as its numerator: between two steps the choice is open. -/
def toStep (q : Rat) : Int := stepOf q.num q.den

/-- SX, SY (in 65,536ths of a pixel) and BLEND of WARP at an array pixel. -/
def warpAt (x : RoleCtx) (px py : Nat) (s : State) : Int × Int × Rat :=
  let w := x.store.width
  let h := x.store.height
  let plain : Int × Int × Rat :=
    (stepOf (65536 * ((2 * px + 1) * x.cfg.width : Nat)) (2 * w), stepOf (65536 * ((2 * py + 1) * x.cfg.height : Nat)) (2 * h), 65535)
  match stageParams x 0 s with
  | none => plain
  | some (p, b) =>
    if p.buffer = 0 then plain
    else
      let nx := u16 p.bytes 0
      let ny := u16 p.bytes 2
      let node (i j : Nat) : List Byte := bufBytes b ((j * nx + i) * 12) 12 s
      let at' (f : List Byte → Int) : Rat :=
        bilinear (px * (nx - 1)) (w - 1) (py * (ny - 1)) (h - 1) nx ny fun i j => f (node i j)
      (toStep (at' fun n => i32 n 0), toStep (at' fun n => i32 n 4), mkRat (toStep (65536 * at' fun n => (u16 n 8 : Nat))) 65536)

/-- WARP at an array pixel (R381). -/
def warpPixel (x : RoleCtx) (px py : Nat) (s : State) : List Int :=
  let w := warpAt x px py s
  (List.range 3).map fun k =>
    quantQ (cubicAxis (w.1 - 32768) (fun i => cubicAxis (w.2.1 - 32768) fun j => (canvasAt x k i j s : Rat)) * w.2.2 / 65535)

/-- REACH_b: the last canvas row that band b of a chain with WARP needs, and otherwise the last of the band's own rows (R377, R381). -/
def bandReach (x : RoleCtx) (warp : Bool) (b : Nat) (s : State) : Nat :=
  let ys := (List.range (bandRows x.store.height b)).map fun r => 64 * b + r
  let far : Int := if warp then
      (ys.flatMap fun y => (List.range x.store.width).map fun px => ((warpAt x px y s).2.1 - 32768) / 65536 + 2).foldl max 0
    else (64 * b + 63 : Nat)
  (min far (x.cfg.height - 1 : Nat)).toNat

/-- UNIF on component c (R382). -/
def unifOne (x : RoleCtx) (i c px py : Nat) (a : Int) (s : State) : Int :=
  match stageParams x i s with
  | none => a
  | some (p, b) =>
    if p.buffer = 0 then a
    else
      let d := u8 p.bytes 0
      let nx := x.store.width / d + 1
      let ny := x.store.height / d + 1
      let g := bilinear px d py d nx ny fun i j => (u16 (bufBytes b (c * (nx * ny * 2) + (j * nx + i) * 2) 2 s) 0 : Nat)
      quantQ (a * g / 16384)

/-- The 3D LUT of GAMUT: tetrahedral interpolation on a grid of 33 nodes an axis (R383). -/
def lut3d (b : Buffer) (cs : List Int) (s : State) : List Rat :=
  let v := cs.map fun c => (clampI 0 65536 c).toNat
  let idx := v.map fun c => min (c / 2048) 31
  let frac : List Nat := List.zipWith (fun c i => c - i * 2048) v idx
  let axes := (List.range 3).mergeSort fun p q => frac.getD q 0 ≤ frac.getD p 0
  let node (i : List Nat) (k : Nat) : Rat :=
    ((u32 (bufBytes b (((i.getD 2 0 * 33 + i.getD 1 0) * 33 + i.getD 0 0) * 12 + 4 * k) 4 s) 0 % 524288 : Nat) : Rat)
  (List.range 3).map fun k =>
    (axes.foldl (fun (acc : Rat × List Nat) ax =>
      let next := acc.2.set ax (acc.2.getD ax 0 + 1)
      (acc.1 + mkRat (frac.getD ax 0 : Nat) 2048 * (node next k - node acc.2 k), next)) (node idx k, idx)).1

/-- The row of GAMUT for colour slot c: the pushed column of its primary, the inline row, or the default. -/
def gamutRow (x : RoleCtx) (p : Option (Params × Buffer)) (c : Nat) : Int × Int × Int :=
  let pr := primaryAt x.store.colours c
  match (x.g.cols[pr]?).join, p with
  | some col, _ => col
  | none, some (p, _) => (i16 p.bytes (4 + 6 * pr), i16 p.bytes (6 + 6 * pr), i16 p.bytes (8 + 6 * pr))
  | none, none => (if c % 3 = 0 then 8192 else 0, if c % 3 = 1 then 8192 else 0, if c % 3 = 2 then 8192 else 0)

/-- GAMUT on a pixel (R383). -/
def gamutPixel (x : RoleCtx) (i : Nat) (cs : List Int) (s : State) : List Int :=
  let p := stageParams x i s
  let rgb : List Rat := match p with
    | some (q, b) => if bitOf (u8 q.bytes 0) 0 then lut3d b cs s else cs.map fun (c : Int) => (c : Rat)
    | none => cs.map fun (c : Int) => (c : Rat)
  (List.range (colourCount x.store.colours)).map fun c =>
    let r := gamutRow x p c
    quantQ ((r.1 * rgb.getD 0 0 + r.2.1 * rgb.getD 1 0 + r.2.2 * rgb.getD 2 0) / 8192)

/-- TONE on a pixel (R384). -/
def tonePixel (x : RoleCtx) (i : Nat) (cs : List Int) (s : State) : List Int :=
  match stageParams x i s with
  | none => cs
  | some (p, b) =>
    if p.buffer = 0 then cs
    else
      let top : Nat := 65536 * 2 ^ (u8 p.bytes 1 % 4)
      let entry (n : Nat) : Int := (u32 (bufBytes b (4 * n) 4 s) 0 % 524288 : Nat)
      let curve (v : Int) : Int := curveAt entry 4096 ((clampI 0 top v).toNat * 4095) top
      if u8 p.bytes 0 = 0 then cs.map fun c => satQ (curve c)
      else
        let m := cs.foldl max 0
        if m = 0 then cs else cs.map fun c => quantQ (mkRat (c * curve m) m.toNat)

/-- Entry [j][i] of the 2^n × 2^n ordered matrix (R385). -/
def orderedAt : Nat → Nat → Nat → Nat
  | 0, _, _ => 0
  | n + 1, j, i =>
    let k := 2 ^ n
    4 * orderedAt n (j % k) (i % k) + [0, 2, 3, 1].getD (j / k * 2 + i / k) 0

/-- A component without DITH at the end of the chain. -/
def plainOut (a : Int) : Nat := (roundDiv (min a 65536 * 65535) 65536).toNat

/-- DITH on a component at array pixel (px, py) (R385). -/
def dithOne (x : RoleCtx) (i px py : Nat) (a : Int) (s : State) : Nat :=
  let p := stageParams x i s
  let depth := match p with | some (q, _) => u8 q.bytes 0 | none => 16
  let still := match p with | some (q, _) => bitOf (u8 q.bytes 1) 0 | none => false
  let n := if still then 0 else (x.g.period.toNat * x.store.f + x.g.fofs.toNat) % 16
  let sc := 2 ^ (16 - depth)
  let y : Rat := mkRat (min a 65536 * 65535) 65536
  let m : Rat := (orderedAt 4 ((py + 3 * n) % 16) ((px + 5 * n) % 16) : Nat)
  min ((2 ^ depth - 1) * sc) ((y / sc + (m + 1 / 2) / 256).floor.toNat * sc)

/-- Stages from i on at an array pixel, over the components that stage i - 1 gives; a stage with DITH ends the chain. -/
def runStages (x : RoleCtx) (px py : Nat) (s : State) : Nat → List Image → List Int → List Nat
  | _, [], cs => cs.map plainOut
  | i, m :: ms, cs => match m.role.toNat with
    | 1 => runStages x px py s (i + 1) ms (warpPixel x px py s)
    | 2 => runStages x px py s (i + 1) ms (cs.zipIdx.map fun a => unifOne x i a.2 px py a.1 s)
    | 3 => runStages x px py s (i + 1) ms (gamutPixel x i cs s)
    | 4 => runStages x px py s (i + 1) ms (tonePixel x i cs s)
    | 5 => cs.map fun a => dithOne x i px py a s
    | _ =>
      let n := if m.io.getLsbD 1 then colourCount x.store.colours else 3
      runStages x px py s (i + 1) ms ((List.range n).map fun k => satQ (Config.customPixel x.v i x.g.id k px py : Nat))

/-- The 16-bit values of an array pixel, by colour slot. -/
def fabPixel (x : RoleCtx) (px py : Nat) (s : State) : List Nat :=
  runStages x px py s 0 (x.g.chain.stages.map fun st => imageOf st.1 s)
    ((List.range 3).map fun k => canvasAt x k px py s)

/-- The rows of slicer band b of colour slot c. -/
def fabBand (x : RoleCtx) (b c : Nat) (s : State) : List (List (BitVec 16)) :=
  (List.range (bandRows x.store.height b)).map fun r => (List.range x.store.width).map fun px =>
    BitVec.ofNat 16 ((fabPixel x px (64 * b + r) s).getD c 0)

/-! ## Bands (R377, R380, R244, R249) -/

/-- The fabric processes frames. -/
def fabRuns (s : State) : Bool := s.live && !s.fab.clockLost && !s.fab.stopped

/-- Every stage of a chain has a cluster in service (R376). -/
def stagesServed (c : RoleChain) (s : State) : Bool :=
  c.stages.all fun x => (bitsOf 64 x.2.toNat).any fun n => (s.cluster n).serves

/-- The frame that enters the fabric next: the waiting one, or the one being composed. -/
def nextFrame (v : Nat) (s : State) : Option FabFrame :=
  match (s.fview v).waiting with
  | some w => some w
  | none => match (s.cview v).composing with
    | some c => if c.dropped || c.taken then none
        else some { period := c.period, fofs := c.fofs, surface := c.surface, isProtected := c.isProtected }
    | none => none

/-- The roles' context of a frame in processing. -/
def roleCtx (v : Nat) (g : FabFrame) (s : State) : RoleCtx := { v := v, g := g, store := s.store v, cfg := (s.cview v).cfg }

/-- The fabric's reads by port 3 (R400) of canvas rows lo to hi - 1 of a frame; an uncorrectable word drops the frame (R410). The model
reads each row once, as the first band that reaches it enters (DESIGN CHOICE, notes/assumptions/120.md). -/
def readCanvas (v : Nat) (g : FabFrame) (lo hi : Nat) (s : State) : State :=
  match (s.fview v).canvas[g.surface]? with
  | none => s
  | some a =>
    let w := (s.cview v).cfg.width * 8
    let f := portRead { port := 3, addr := a + lo * w } ((hi - lo) * w) s
    if f.bad.isEmpty then f.st else dropFrame v f.st

/-- The same for the parameter buffers of a frame, read as its processing starts. -/
def readParams (v : Nat) (g : FabFrame) (s : State) : State :=
  let ps := g.chain.stages.zipIdx.filterMap fun x => match (g.params[x.2]?).join with
    | some p => (match findBuf p.buffer s with
        | some b => if b.lost || b.place.isNone then none else some (b, paramNeed (imageOf x.1.1 s) p.bytes (s.store v))
        | none => none)
    | none => none
  let r := ps.foldl (fun (t : State × Bool) x =>
    let f := bufFetch { port := 3 } x.1 0 (min x.1.size x.2) t.1
    (f.st, t.2 || !f.bad.isEmpty)) (s, false)
  if r.2 then dropFrame v r.1 else r.1

/-- The next output band of frame g enters stage 0: the canvas then holds every row that it reaches (R377). -/
def enterBand (v : Nat) (g : FabFrame) (s : State) : State :=
  let warp := match g.chain.stages with | st :: _ => (imageOf st.1 s).role == 1 | [] => false
  let n := bandReach (roleCtx v g s) warp g.started s + 1
  let s := match (s.cview v).composing with
    | none => s
    | some c =>
      if g.isOf c && decide (c.rows < n) then
        (storeRows v n c s).onCview v fun x => { x with composing := some { c with rows := n } }
      else s
  let before := if g.started = 0 then 0 else bandReach (roleCtx v g s) warp (g.started - 1) s + 1
  readCanvas v g before n (s.onFview v fun f => { f with frame := some { g with started := g.started + 1 } })

/-- The frame's processing starts, with the chain and parameters in force (R377, R388). -/
def enterFrame (v : Nat) (g : FabFrame) (s : State) : State :=
  let f := s.fview v
  let s := s.onFview v fun f => { f with waiting := none }
  let s := s.onCview v fun x => { x with composing := x.composing.map fun c => if g.isOf c then { c with taken := true } else c }
  let g := { g with
    started := 0, startNs := s.ns, chain := f.chain, params := f.params.toList, cols := s.ill.tcs.toList.map fun t => t.col }
  let s := readParams v g (s.onFview v fun f => { f with frame := some g })
  if (s.fview v).frame.isSome then enterBand v g s else s

/-- FAB_BAND_START: an output band enters stage 0. A waiting frame that is not referenced any more is not processed (R379). -/
def execFabBandStart (v : Fin 5) (s : State) : Host.Outcome State Fault Refusal :=
  .next (if !(fabRuns s) then s
    else match (s.fview v.val).frame with
      | some g => if stagesServed g.chain s && g.started < bandsOf (s.store v.val).height then enterBand v.val g s else s
      | none => match (if chainLive v.val s then nextFrame v.val s else none) with
        | some g =>
          if !(isReferenced v.val g.fofs.toNat s) then
            (if g.composed then countUnref v.val (s.onFview v.val fun f => { f with waiting := none }) else s)
          else if stagesServed (s.fview v.val).chain s then enterFrame v.val g s else s
        | none => s)

/-- A cluster has processed a band, with the SRAM errors that it corrected on the way: the table has no command for one (R391). -/
def Cluster.processed (x : Nat) (c : Cluster) : Cluster := { c with bandCnt := sat c.bandCnt, ceCnt := satN c.ceCnt x }

/-- One cluster of each stage has processed an output band. -/
def countBand (v band : Nat) (c : RoleChain) (s : State) : State :=
  c.stages.zipIdx.foldl (fun s x =>
    let ns := (bitsOf 64 x.1.2.toNat).filter fun n => (s.cluster n).serves
    match ns with
    | [] => s
    | n :: _ =>
      let k := ns.getD (Config.clusterChoice v x.2 band % ns.length) n
      (s.onCluster k (Cluster.processed (Config.sramCorrected s.free k))).useFree) s

/-- The last stage waits with a band: no slicer is IDLE, or its frame finds no free buffer (R244, R249, R380). -/
def countWait (v : Nat) (first : Bool) (s : State) : State :=
  let noBuf := first && (freeBuf v s).isNone
  let s := if (idleSlicer s).isNone || noBuf then s.onFview v fun f => { f with waitCnt := sat f.waitCnt } else s
  if noBuf then slcRaise (bit1 15 v) (s.onStore v fun st => { st with stallCnt := sat st.stallCnt }) else s

/-- FAB_BAND_DONE: one colour of a band leaves the last stage; while an earlier one waits there, the chain waits (R244, R249, R380). -/
def execFabBandDone (v : Fin 5) (s : State) : Host.Outcome State Fault Refusal :=
  .next (match (s.fview v.val).frame with
    | none => s
    | some g =>
      let n := colourCount (s.store v.val).colours
      if !(fabRuns s) || !(stagesServed g.chain s) || g.started * n ≤ g.done || g.offered < g.done then s
      else
        let s := countWait v.val (g.done == 0) s
        let s := if (g.done + 1) % n = 0 then countBand v.val (g.done / n) g.chain s else s
        s.onFview v.val fun f => { f with frame := some { g with done := g.done + 1 } })

/-- The band has been taken; the frame leaves the fabric with its last one, and has then completed (R392). -/
def bandTaken (v : Nat) (g : FabFrame) (s : State) : State :=
  if g.offered + 1 = bandsOf (s.store v).height * colourCount (s.store v).colours then
    sweepBuffers (s.onFview v fun f => { f with
      frame := none, frameCnt := sat f.frameCnt, lastUs := BitVec.ofNat 32 ((s.ns - g.startNs) / 1000) })
  else s.onFview v fun f => { f with frame := some { g with offered := g.offered + 1 } }

/-- The buffer that the next band of a frame goes to: a free one for its first band (R249). -/
def bandBuffer (v : Nat) (g : FabFrame) (s : State) : State × Option Nat :=
  if g.offered = 0 then
    match freeBuf v s with
    | some i => (startSlicing v i g.id s, some i)
    | none => (s, none)
  else (s, slicingBuf v g.id s)

/-- SLICER_BAND_OFFER: the next band that has left the chain goes to the lowest-numbered IDLE slicer. The bands of a frame
whose buffer has been taken from it go nowhere. -/
def execSlicerBandOffer (v : Fin 5) (s : State) : Host.Outcome State Fault Refusal :=
  .next (match (s.fview v.val).frame, idleSlicer s with
    | some g, some i =>
      let n := colourCount (s.store v.val).colours
      if !(fabRuns s) || g.done ≤ g.offered then s
      else
        let x := roleCtx v.val g s
        let t := bandBuffer v.val g s
        match t.2 with
        | some k => bandTaken v.val g
            (fillSlicer i v.val (g.offered % n) (g.offered / n) k (fabBand x (g.offered / n) (g.offered % n) s) t.1)
        | none => if g.offered = 0 then s else bandTaken v.val g s
    | _, _ => s)

/-! ## Symbol rendering (R235 to R237, R386) -/

/-- A half-float code is finite, and the value of one that is. -/
def halfFinite (h : Nat) : Bool := field h 10 5 != 31
def halfVal (h : Nat) : Rat :=
  let e := field h 10 5
  let f := field h 0 10
  let v := if e = 0 then mkRat f (2 ^ 24) else mkRat ((1024 + f) * 2 ^ e : Nat) (2 ^ 25)
  if bitOf h 15 then -v else v

/-- The half-float code of a value: exact when it can be, otherwise to one of its two neighbours. -/
def halfOf (q : Rat) : Nat :=
  let a := if q < 0 then -q else q
  let m := (a * (2 ^ 24 : Nat)).floor.toNat
  let e := Nat.log2 m - 9
  let code := min (if m < 1024 then m else e * 1024 + m / 2 ^ (e - 1) - 1024) 0x7BFF
  (if q < 0 then 0x8000 else 0) +
    if halfVal code = a || code = 0x7BFF then code else code + (if Config.stepUp a.num a.den then 1 else 0)

/-- Where a pixel lies with regard to a drawn shape: outside it, wholly inside, or across its edge. -/
inductive Place where
  | out | inside | edge
  deriving DecidableEq, Repr, Inhabited

/-- Half a pixel's diagonal in 1/32 pixel, rounded up. -/
def pixelReach : Int := 23

/-- The place of a pixel, by its centre (px, py) in 1/32 pixel, in a straight stroke of width w in 1/16 pixel from a to b: across its
edge near an end, where the table gives no cap (R235). -/
def linePlace (a b : Int × Int) (w px py : Int) : Place :=
  let dx := b.1 - a.1
  let dy := b.2 - a.2
  let len2 := dx * dx + dy * dy
  let t := (px - a.1) * dx + (py - a.2) * dy
  let cross := (px - a.1) * dy - (py - a.2) * dx
  let far (c : Int × Int) (r : Int) : Bool := decide (r * r < (px - c.1) * (px - c.1) + (py - c.2) * (py - c.2))
  let reach := w + pixelReach
  let core := w - pixelReach
  let past := 2 * w + pixelReach
  if t ≤ 0 then (if far a past then .out else .edge)
  else if len2 ≤ t then (if far b past then .out else .edge)
  else if decide (reach * reach * len2 < cross * cross) then .out
  else if decide (0 ≤ core ∧ cross * cross ≤ core * core * len2 ∧ pixelReach * pixelReach * len2 ≤ t * t ∧
      pixelReach * pixelReach * len2 ≤ (len2 - t) * (len2 - t)) then .inside
  else .edge

/-- The same for an arc of radius r, in 1/16 pixel, about c: a full turn has no ends; the table does not say where START lies and
which way SWEEP runs, so that a part of a turn is open within its ring. -/
def arcPlace (c : Int × Int) (r w : Int) (full : Bool) (px py : Int) : Place :=
  let d2 := (px - c.1) * (px - c.1) + (py - c.2) * (py - c.2)
  let hi := 2 * r + w
  let lo := 2 * r - w
  if decide ((hi + pixelReach) * (hi + pixelReach) < d2) || decide (0 < lo - pixelReach ∧ d2 < (lo - pixelReach) * (lo - pixelReach)) then .out
  else if full && decide (0 ≤ hi - pixelReach ∧ d2 ≤ (hi - pixelReach) * (hi - pixelReach)) &&
      decide (lo + pixelReach ≤ 0 ∨ (lo + pixelReach) * (lo + pixelReach) ≤ d2) then .inside
  else .edge

/-- The place of a pixel in a LINE or ARC entry. -/
def strokePlace (e : List Byte) (x y : Nat) : Place :=
  let px : Int := 32 * x + 16
  let py : Int := 32 * y + 16
  let at' (o : Nat) : Int × Int := (2 * i32 e o, 2 * i32 e (o + 4))
  if u8 e 0 = 1 then linePlace (at' 4) (at' 12) (u16 e 2) px py
  else arcPlace (at' 4) (u32 e 12) (u16 e 2) (u16 e 18 == 0) px py

/-- Coverage of a glyph entry at a pixel (R236): none outside the scaled box; at SCALE 1 on a whole pixel the stored byte, as a fraction
of 255. -/
def glyphCover (e bytes : List Byte) (x y : Nat) : Nat :=
  let gx := i32 e 4
  let gy := i32 e 8
  let size : Int := 4 * (u16 e 2 : Nat)
  let dx := 16 * (x : Int) - gx
  let dy := 16 * (y : Int) - gy
  if dx + 16 ≤ 0 || dy + 16 ≤ 0 || size ≤ dx || size ≤ dy then 0
  else if u16 e 2 = 256 && dx % 16 = 0 && dy % 16 = 0 then
    (roundDiv (u8 bytes ((dy / 16).toNat * 64 + (dx / 16).toNat) * 65536) 255).toNat
  else Config.glyphCoverage e bytes x y

/-- Coverage of an entry at a pixel, in 65,536ths: 0 outside a stroke and full inside it; the manual does not say how an edge covers a
pixel. A glyph that is LOST draws nothing (R424). -/
def coverage (e : List Byte) (px py : Nat) (s : State) : Nat :=
  min 65536 (if u8 e 0 = 3 then
    (if s.xcl.glyphLost.getLsbD (u8 e 12) then 0 else glyphCover e (memRead s.mem.reserve (u8 e 12 * 4096) 4096) px py)
  else match strokePlace e px py with
    | .out => 0
    | .inside => 65536
    | .edge => Config.strokeCoverage e px py)

/-- The half-float codes of the symbol surface's pixel: the entries of the list, each over the ones before it. The manual gives no
arithmetic for a palette component that is not finite. -/
def symbolAt (l : List Byte) (px py : Nat) (s : State) : List Nat :=
  let es := ((entriesOf l (u16 l 0)).map fun i =>
    let e := slice l (144 + 32 * i) 32
    ((List.range 4).map fun j => u16 l (16 + 8 * (u8 e 1 % 16) + 2 * j), coverage e px py s)).filter fun x => x.2 != 0
  let q := es.foldl (fun acc x =>
    let pal := x.1.map fun h => halfVal h * mkRat x.2 65536
    pal.zipWith (fun c d => c + d * (1 - pal.getD 3 0)) acc) [0, 0, 0, 0]
  (List.range 4).map fun j =>
    if es.any fun x => !(halfFinite (x.1.getD j 0)) || !(halfFinite (x.1.getD 3 0)) then Config.symbolSpecial l px py j % 65536
    else halfOf (q.getD j 0)

/-- The bytes of a symbol surface of a canvas. -/
def symbolBytes (l : Option (List Byte)) (w h : Nat) (s : State) : List Byte :=
  (List.range h).flatMap fun py => (List.range w).flatMap fun px =>
    match l with
    | none => leBytes 8 0
    | some l => (symbolAt l px py s).flatMap fun h => leBytes 2 h

/-- A SYMB cluster of the view is in service. -/
def symbServed (v : Nat) (s : State) : Bool :=
  (bitsOf 64 (s.fview v).chain.symbClusters.toNat).any fun n => (s.cluster n).st == .active && (s.cluster n).loaded

/-- The symbol surface that a new rendering takes: the one that is not shown, or, while a composition still reads that one, the shown
one, whose own frame has not started (R237, R386). -/
def symbTarget (v : Nat) (s : State) : Nat :=
  let f := s.fview v
  let other := 1 - f.symbIdx
  match (s.cview v).composing.bind (·.symb) with
  | some a => if f.symbSurf[other]? = some a then f.symbIdx else other
  | none => other

/-- The glyphs that a list draws are read by port 3 from the reserve; whether one met an uncorrectable word. -/
def readGlyphs (l : Option (List Byte)) (s : State) : State × Bool :=
  let gs := match l with
    | none => []
    | some l => ((entriesOf l (u16 l 0)).filter fun i => u8 l (144 + 32 * i) == 3).map fun i => u8 l (156 + 32 * i)
  gs.foldl (fun t i =>
    let f := portRead { port := 3, space := .reserve, addr := i * glyphSize } glyphSize t.1
    (f.st, t.2 || !f.bad.isEmpty)) (s, false)

/-- SYMB_RENDER_START: one frame interval before the start instant of a view-frame. A symbol surface takes the drawing of the list and
glyphs in force now, by port 3; an uncorrectable word among the glyphs drops the rendering (R410). -/
def execSymbRenderStart (v : Fin 5) (fofs : BitVec 2) (s : State) : Host.Outcome State Fault Refusal :=
  .next (let f := s.fview v.val
    let cfg := (s.cview v.val).cfg
    let p := startPeriod v.val fofs.toNat (16777216 / framesOf v.val s) s
    let i := symbTarget v.val s
    if !(fabRuns s) || !(symbServed v.val s) || f.symbRun.isSome || framesOf v.val s ≤ fofs.toNat then s
    else match f.symbSurf[i]? with
      | none => s
      | some a =>
        let r := readGlyphs (nth s.xcl.symList v.val) s
        if r.2 then r.1
        else
          let b := symbolBytes (nth s.xcl.symList v.val) cfg.width cfg.height s
          (portWrite { port := 3, addr := a } b r.1).onFview v.val fun f =>
            { f with symbRun := some (BitVec.ofNat 64 p, fofs), symbTo := i, symbDone := if i = f.symbIdx then none else f.symbDone })

/-- SYMB_RENDER_DONE: the rendering completes. -/
def execSymbRenderDone (v : Fin 5) (s : State) : Host.Outcome State Fault Refusal :=
  .next (match (s.fview v.val).symbRun with
    | some r => if fabRuns s then s.onFview v.val fun f => { f with symbRun := none, symbDone := some r, symbIdx := f.symbTo } else s
    | none => s)

end Sys2Proof.Machine
end

