-- ==== Sys2Proof/Machine/Memory.lean ====
section
/-!
DEFINITION. In-package memory (spec/12): the ranks, the service of the requests that wait, power saving, rank sparing, fencing with the
restart of R423, training, and the MEM commands.
-/
namespace Sys2Proof.Machine

/-! ## Ranks and requests (R394, R396) -/

/-- The rank map and the spare follow R394. -/
def layRanks (m : Mem) : Mem :=
  let g := goodRanks m
  let k := ranksIn m
  restSpare { m with
    rankMap := Vector.ofFn fun i => BitVec.ofNat 2 (g.getD i.val i.val)
    spareRank := BitVec.ofNat 2 (g.getD k 0), spareValid := m.spare && decide (k < g.length) }

/-- The port reaches the region: the reserve is kept from hosts and BAR2, and holds what the fabric, the management subsystem, the
enclave and the scrub use (R396). -/
def MemReq.reaches (q : MemReq) : Bool := q.space != .reserve || [3, 9, 10].contains q.port.val

/-- The address lies in its region, which the port reaches. -/
def MemReq.inRegion (q : MemReq) (m : Mem) : Bool :=
  q.addr < (match q.space with | .plane => planeSize m | .general => generalSize m | .reserve => 256 * rowUnit m) &&
  decide (0 < workingPcs m) && decide (0 < ranksIn m) && MemReq.reaches q

/-! ## Uncorrectable words (R410) -/

/-- The view-frame or symbol rendering that reads or writes the address is dropped, and a frame in composition notes the
word (R410). -/
def fabricError (a : Nat) (s : State) : State :=
  forN 5 (fun v s =>
    let f := s.fview v
    let s := if f.symbSurf.any (fun c => inExtent a (c, f.surfSize)) then s.onFview v fun f => { f with symbRun := none } else s
    let reads := match f.frame with
      | some g => f.canvas.any (fun c => inExtent a (c, f.surfSize)) || g.params.any fun p => match p with
          | some p => (match findBuf p.buffer s with
              | some b => (match b.place with | some x => inExtent a (x, b.size) | none => false)
              | none => false)
          | none => false
      | none => false
    if reads then dropFrame v s else s) s

/-- The frames in composition that read a buffer at the address note the word. -/
def composeError (a : Nat) (s : State) : State :=
  let at' (h : BitVec 32) : Bool := match findBuf h s with
    | some b => (match b.place with | some x => inExtent a (x, b.size) | none => false)
    | none => false
  s.onCmp fun c => { c with views := c.views.map fun x => { x with
    composing := x.composing.map fun y => if y.uses.any at' then { y with bad := a / 32 :: y.bad } else y } }

/-- What an uncorrectable word does to the frames that its requester works on (R410). -/
def requesterError (q : MemReq) (s : State) : State :=
  if q.space != .general then s
  else if q.port.val = 1 then composeError q.addr s
  else if q.port.val = 3 then fabricError q.addr s
  else s

/-! ## Service of a request (R403 to R406) -/

/-- The memory serves requests: it is trained and its clock is good. -/
def memServes (s : State) : Bool :=
  s.live && (s.mem.st == .ready || s.mem.st == .restart) && !s.mgt.clkStatus.getLsbD 9

/-- A request of one whole burst. -/
def MemReq.whole (q : MemReq) : MemReq := { q with addr := q.addr / 32 * 32, data := q.data.map fun d => slice d 0 32 }

/-- The burst that a read returns. -/
def readBurst (q : MemReq) (bad : Bool) (s : State) : List Byte := burstBytes (MemReq.whole q) 32 bad s

/-- A request is served: whether it ended in an uncorrectable read. -/
def serveRequest (q : MemReq) (s : State) : State × Bool :=
  let r := serveBurst (MemReq.whole q) s
  (if r.2 then requesterError q r.1 else r.1, r.2)

/-! ### The waiting requests (R403, R404) -/

/-- The request is issued: it is metered and waits at its pseudo-channel. -/
def joinWait (q : MemReq) (s : State) : State :=
  (meter q.port.val s).onMem fun m => { m with waiting := m.waiting ++ [
    { req := q, atNs := s.ns, readyNs := s.ns + q.waitNs, reserved := hasTokens q.port.val s }] }

/-- The order of service: reserved requests by class, a promoted one among those of class 0, then excess ones by class. -/
def MemWait.order (w : MemWait) (m : Mem) : Nat :=
  let c := (nth m.ports w.req.port.val).cls.toNat
  if w.promoted then 0 else if w.reserved then c else 4 + c

/-- Request i may be served at pseudo-channel pc: bank timing allows it, no training gap holds the requests (R421), and no older request of its port to its word waits (R404). -/
def mayServe (pc i : Nat) (s : State) : Bool :=
  match s.mem.waiting[i]? with
  | none => false
  | some w => (MemReq.place w.req s.mem).pc == pc && w.readyNs ≤ s.ns && (nth s.mem.pcs pc).gapUntil ≤ s.ns && w.got.isNone &&
      !((s.mem.waiting.take i).any fun o => o.got.isNone && o.req.port == w.req.port && o.req.space == w.req.space && o.req.addr / 32 == w.req.addr / 32)

/-- The request that pseudo-channel pc serves first; the oldest among equals. -/
def firstServed (pc : Nat) (s : State) : Option Nat :=
  let key (i : Nat) : Nat := match s.mem.waiting[i]? with | some w => w.order s.mem | none => 8
  match (List.range s.mem.waiting.length).filter fun i => mayServe pc i s with
  | [] => none
  | i :: is => some (is.foldl (fun a b => if key b < key a then b else a) i)

/-- The reads that have been served hand their data over, each after every earlier read of its port (R404); `held` are the ports of
which an earlier read waits. -/
def handOver : List MemWait → List (Fin 11) → Vector MemPort 11 → List MemWait × Vector MemPort 11
  | [], _, ps => ([], ps)
  | w :: ws, held, ps =>
    match w.got with
    | none =>
      let r := handOver ws (if w.req.data.isNone then w.req.port :: held else held) ps
      (w :: r.1, r.2)
    | some d =>
      if held.contains w.req.port then
        let r := handOver ws held ps
        (w :: r.1, r.2)
      else handOver ws held (upd ps w.req.port.val fun p => { p with data := d })

/-- Request i has been served: a write is gone, and a read has its data. -/
def servedAt (i : Nat) (d : Option (List Byte)) (m : Mem) : Mem :=
  match d with
  | none => { m with waiting := m.waiting.eraseIdx i }
  | some d =>
    let r := handOver (m.waiting.modify i fun w => { w with got := some d }) [] m.ports
    { m with waiting := r.1, ports := r.2 }

/-- A waiting request of port n has waited longer than the age limit of its class, which class 0 has not. -/
def MemWait.overdue (w : MemWait) (n : Nat) (s : State) : Bool :=
  let c := (nth s.mem.ports n).cls.toNat
  w.req.port.val == n && c != 0 && !w.promoted && w.got.isNone && nth s.mem.ageUs (c - 1) * 1000 < s.ns - w.atNs

/-- REQUEST_PROMOTE: the requests of the port that have waited longer than the age limit of their class are promoted. -/
def execRequestPromote (n : Fin 11) (s : State) : Host.Outcome State Fault Refusal :=
  .next (if !(memServes s) then s
    else s.onMem fun m => { m with
      waiting := m.waiting.map fun w => if w.overdue n.val s then { w with promoted := true } else w
      ports := upd m.ports n.val fun p => { p with
        promoteCnt := satN p.promoteCnt (m.waiting.filter fun w => w.overdue n.val s).length } })

/-- The open row of a bank is closed. -/
def closeBank (pc rank bank : Nat) (s : State) : State :=
  s.onMem fun m => { m with openRows := m.openRows.filter fun o => !(o.pc == pc && o.rank == rank && o.bank == bank) }

/-- PAGE_IDLE_CLOSE: an open row has been idle for PAGE_IDLE_NS. -/
def execPageIdleClose (pc : Fin 32) (rank : Fin 4) (bank : Fin 16) (s : State) : Host.Outcome State Fault Refusal :=
  .next (if memServes s && s.mem.openRows.any (fun o =>
      o.pc == pc.val && o.rank == rank.val && o.bank == bank.val && decide (o.atNs + s.mem.pageIdleNs ≤ s.ns)) then
    closeBank pc.val rank.val bank.val s else s)

/-- REFRESH: a bank is refreshed; its open row is closed for it, and its contents stay. -/
def execRefresh (pc : Fin 32) (rank : Fin 4) (bank : Fin 16) (s : State) : Host.Outcome State Fault Refusal :=
  .next (if memServes s && (nth s.mem.ranks rank.val).power != 2 then closeBank pc.val rank.val bank.val s else s)

/-! ## Power saving (R416 to R418) -/

/-- A physical rank is in service. -/
def rankInService (r : Nat) (m : Mem) : Bool := ((List.range (ranksIn m)).map fun i => (nth m.rankMap i).toNat).contains r

/-- The rank has had no request for IDLE_NS. -/
def rankIdle (r : Nat) (s : State) : Bool := decide ((nth s.mem.ranks r).lastNs + s.mem.idleNs ≤ s.ns)

/-- RANK_POWER_DOWN: a rank has been idle for IDLE_NS. -/
def execRankPowerDown (r : Fin 4) (s : State) : Host.Outcome State Fault Refusal :=
  .next (if memServes s && rankInService r.val s.mem && (nth s.mem.ranks r.val).power == 0 && rankIdle r.val s then
    s.onMem fun m => { m with ranks := upd m.ranks r.val fun x => { x with power := 1 } }
  else s)

/-- The rows, as (first, last), that an extent covers, from a first row on. -/
def rowsOf (base u : Nat) (e : Nat × Nat) : Nat × Nat := (base + e.1 / u, base + (e.1 + e.2 - 1) / u)

/-- The held frame buffers as extents of the plane region (R254). -/
def heldExtents (s : State) : List (Nat × Nat) :=
  (List.range 4).filterMap fun p =>
    let q := s.port p
    let st := s.store q.hold.view.toNat
    if q.hold.on then some (st.base + q.hold.buf * bufSizeOf st, bufSizeOf st) else none

/-- The segments that R417 keeps. -/
def keptSegments (s : State) : BitVec 8 :=
  let u := rowUnit s.mem
  let rows := (heldExtents s).map (rowsOf 0 u) ++ ((generalExtents s).filter fun e => e.2 != 0).map (rowsOf s.mem.planeRows u)
  BitVec.ofNat 8 (((List.range 8).map fun g =>
    if g = 7 || rows.any (fun r => r.1 < 2048 * (g + 1) && 2048 * g ≤ r.2) then 2 ^ g else 0).sum)

/-- The contents of dropped segments are lost. -/
def dropSegments (keep : BitVec 8) (m : Mem) : Mem :=
  let u := rowUnit m
  { m with plane := m.plane.filter fun c => keep.getLsbD (c.1 / u / 2048)
           general := m.general.filter fun c => keep.getLsbD ((m.planeRows + c.1 / u) / 2048) }

/-- Every in-service rank enters self-refresh, unless a migration runs (R415); in a shutdown with every segment kept (R522). -/
def enterSelfRefresh (s : State) : State :=
  if memServes s && wantsSelfRefresh s && !s.mem.migRun then
    let keep := if s.thm.shutdown then 0xFF else keptSegments s
    s.onMem fun m =>
      let m := dropSegments keep m
      { m with selfRefresh := true, openRows := []
               ranks := Vector.ofFn fun r => if rankInService r.val m then { m.ranks[r] with power := 2, segs := keep } else m.ranks[r] }
  else s

/-- An in-service rank that a request has woken has been idle for IDLE_NS, and returns to self-refresh (R418). -/
def rankReturns (r : Nat) (s : State) : Bool :=
  s.mem.selfRefresh && wantsSelfRefresh s && !s.mem.migRun && rankInService r s.mem && (nth s.mem.ranks r).power != 2 && rankIdle r s

/-- The ranks that return do so, with the segments that are kept now. -/
def returnRanks (s : State) : State :=
  let keep := if s.thm.shutdown then 0xFF else keptSegments s
  forN 4 (fun r t => if rankReturns r s then t.onMem fun m => { m with
      openRows := m.openRows.filter (·.rank != r), ranks := upd m.ranks r fun x => { x with power := 2, segs := keep } } else t) s

/-- SELF_REFRESH_ENTRY: self-refresh begins (R417), or the ranks woken since return to it, each IDLE_NS after its last request (R418). -/
def execSelfRefreshEntry (s : State) : Host.Outcome State Fault Refusal :=
  .next (if s.mem.selfRefresh then (if memServes s then returnRanks s else s) else enterSelfRefresh s)

/-- SELF_REFRESH_EXIT: a rank leaves self-refresh, also one that a request has woken before; once self-refresh is not called for, it is
over. -/
def execSelfRefreshExit (r : Fin 4) (s : State) : Host.Outcome State Fault Refusal :=
  .next (if memServes s && rankInService r.val s.mem && ((nth s.mem.ranks r.val).power == 2 || s.mem.selfRefresh) then
    let out := !(wantsSelfRefresh s)
    (wakeRank r.val s).onMem fun m => { m with selfRefresh := m.selfRefresh && !out }
  else s)

/-! ## Scrub and rank sparing (R411 to R415) -/

/-- SCRUB_PASS: every in-service word has been read. Scrub pauses during self-refresh. -/
def execScrubPass (s : State) : Host.Outcome State Fault Refusal :=
  .next (if memServes s && !((List.range 4).any fun r => rankInService r s.mem && (nth s.mem.ranks r).power == 2) &&
      decide (s.mem.scrubNs + s.mem.scrubH * 3600000000000 ≤ s.ns) then
    s.onMem fun m => { m with scrubPassCnt := sat m.scrubPassCnt, scrubNs := s.ns } else s)

/-- MIGRATION_START: an uncorrectable error starts a migration of the logical rank; where one runs by now, or no spare is left, none
starts (R413). -/
def execMigrationStart (lr : Fin 4) (s : State) : Host.Outcome State Fault Refusal :=
  .next (if !(memServes s) || ranksIn s.mem ≤ lr.val then s
    else if s.mem.migRun || !s.mem.spareValid then memRaise 0x40 s
    else startMigration lr.val none s)

/-- What copying one row index of every in-service PC and bank takes at MIG_RATE, in ns (R412). -/
def rowCopyNs (m : Mem) : Nat := workingPcs m * 16384 * 1000 / m.migRate

/-- MIGRATION_ROW_COPIED: a row index is copied; with the last one the target takes the source's place. -/
def execMigrationRowCopied (s : State) : Host.Outcome State Fault Refusal :=
  .next (let m := s.mem
    if !(memServes s) || !m.migRun || decide (s.ns < m.migNs + rowCopyNs m) then s
    else if m.migRow + 1 < 16384 then s.onMem fun m => { m with migRow := m.migRow + 1, migNs := s.ns }
    else
      let src := m.migSrc
      let s := s.onMgt fun g => { g with fault := { g.fault with rank := upd g.fault.rank src.toNat fun _ => 2 } }
      let s := s.onMem fun m => { m with
        migRow := 16384, migRun := false, migCmd := none, spareValid := false, failed := m.failed ||| bit1 4 src.toNat
        rankMap := m.rankMap.map (fun r => if r = src then m.migDst else r), migCnt := sat m.migCnt }
      completeOpt m.migCmd .done 0 (migrationOver (memRaise 0x10 s)))

/-! ## Fencing and the restart (R422 to R424) -/

/-- A pseudo-channel is fenced at run time (R422). -/
def fencePc (pc : Nat) (s : State) : State :=
  let s := memRaise 0x4 (s.onMem fun m => { m with fenced := m.fenced ||| bit1 32 pc, fenceEvtCnt := sat m.fenceEvtCnt })
  if 8 < (bitsOf 32 s.mem.fenced.toNat).length then memRaise 0x200 (s.onMem fun m => { m with st := .failed })
  else pruneDoms (s.onMem fun m => { m with st := .restart })

/-- Every frame buffer is emptied, with the frames in slicing dropped and counted (R252), and every frame in composition or in the
fabric is dropped (R423). -/
def dropAllFrames (s : State) : State :=
  forN 5 (fun v s =>
    let s := if (s.cview v).composing.isSome then fabDrop v (s.onCview v fun x => { x with composing := none }) else s
    dropWaiting v (dropFrame v (emptyStore true v s))) s

/-- Plane stores are placed again in ascending view order; one that does not fit is freed. -/
def replaceStores (s : State) : State :=
  (List.range 5).foldl (fun s v =>
    let st := s.store v
    if st.bufs.isEmpty then s
    else
      let used := ((List.range v).filter fun w => !(s.store w).bufs.isEmpty).map fun w => ((s.store w).base, storeSize (s.store w))
      match firstFit (storeSize st) (planeSize s.mem) used with
      | some a => s.onStore v fun st => { st with base := a }
      | none => (s.onStore v noStore).onFview v fun f => { f with recheck := true }) s

/-- The buffers in ascending handle order. -/
def byHandle (bs : List Buffer) : List Buffer := bs.mergeSort fun a b => a.handle.toNat ≤ b.handle.toNat

/-- Buffers placed again in a region of n bytes, with the extents used so far. -/
def placeBufs (n : Nat) : List Buffer → List (Nat × Nat) → List Buffer
  | [], _ => []
  | b :: bs, used => match firstFit b.size n used with
    | some a => { b with place := some a, lost := true } :: placeBufs n bs ((a, b.size) :: used)
    | none => { b with place := none } :: placeBufs n bs used

/-- Buffers, then canvas and symbol surfaces, are placed again; the placed buffers and the glyph store become LOST. -/
def replaceBuffers (s : State) : State :=
  let s := s.onCmp fun c => { c with bufs := placeBufs (generalSize s.mem) (byHandle c.bufs) [] }
  let s := forN 5 (fun v s =>
    let f := s.fview v
    let nc := f.canvas.length
    let ns := f.symbSurf.length
    if nc + ns = 0 then s
    else
      let used := (s.cmp.bufs.filterMap fun b => b.place.map fun a => (a, b.size)) ++ ((List.range v).flatMap fun w =>
        ((s.fview w).canvas ++ (s.fview w).symbSurf).map fun a => (a, (s.fview w).surfSize))
      match placeSurfaces (nc + ns) f.surfSize used (generalSize s.mem) with
      | some l => s.onFview v fun f => { f with canvas := l.take nc, symbSurf := l.drop nc, symbRun := none, symbDone := none }
      | none => s.onFview v fun f => { f with canvas := [], symbSurf := [], symbRun := none, symbDone := none, recheck := true }) s
  let placed := s.cmp.bufs.filter fun b => b.place.isSome
  let s := placed.foldl (fun s b => sendEvent b.owner 0x0002 b.handle 18 (s.onMem fun m => { m with lostCnt := sat m.lostCnt })) s
  let s := s.onXcl fun x => { x with glyphLost := x.glyphLoaded }
  if placed.isEmpty then s else memRaise 0x100 s

/-- The restart of the picture path at the first boundary after a run-time fence (R423). -/
def memRestart (s : State) : State :=
  if s.mem.st != .restart then s
  else
    let s := dropAllFrames s
    let s := s.onMem fun m => { m with laid := m.fenced, st := .ready, openRows := [], waiting := [], plane := [], general := [], reserve := [] }
    let s := replaceBuffers (replaceStores s)
    settleBinds (sweepBuffers (s.onSeq fun q => { q with reval := true }))

/-! ## Training (R420, R421) -/

/-- MEM_RETRAIN completes once none of its pseudo-channels is being retrained. -/
def endRetrain (s : State) : State :=
  match s.mem.retrainCmd with
  | none => s
  | some h =>
    if (bitsOf 32 (u32 (Cmd.payload h.cmd) 0)).any fun i => (nth s.mem.pcs i).retrain then s
    else
      let bad := s.mem.retrainFenced
      complete h (if bad then .degraded else .done) 0 (s.onMem fun m => { m with retrainCmd := none, retrainFenced := false })

/-- A pseudo-channel starts to be retrained. -/
def startRetrain (pc : Nat) (s : State) : State :=
  if s.mem.fenced.getLsbD pc || (nth s.mem.pcs pc).retrain then s
  else s.onMem fun m => { m with pcs := upd m.pcs pc fun x => { x with retrain := true, gaps := 0 } }

/-- A temperature lies more than 10 °C outside the range of the pseudo-channel's stored sets (R421). -/
def beyondSets (pc : Nat) (temp : Int) (s : State) : Bool :=
  let ts := ((nth s.cal.regions pc).sets.toList.filter (·.valid)).map fun c => c.temp.toInt
  !ts.isEmpty && (ts.all (fun t => decide (t + 1000 < temp)) || ts.all fun t => decide (temp < t - 1000))

/-- RETRAIN_TEMP_TRIGGER: the stack temperature `p.2` has left the range of the stored sets of pseudo-channel `p.1` by more
than 10 °C. -/
def execRetrainTempTrigger (p : Fin 32 × Int) (s : State) : Host.Outcome State Fault Refusal :=
  .next (if memServes s && beyondSets p.1.val p.2 s then startRetrain p.1.val s else s)

/-- Two pseudo-channels are in gaps (R421). -/
def gapsFull (s : State) : Bool := decide (2 ≤ (s.mem.pcs.toList.filter fun x => decide (s.ns < x.gapUntil)).length)

/-- The channel's training hardware after the test of a setting: R420 ends with the walking patterns, and the counters hold what the
test found. -/
def testDq (n pc : Nat) (g : MemGen) : MemGen :=
  { g with
    pattern := .walkingZero
    errors := Vector.ofFn fun i => if i.val / 32 = pc % 2 then Config.dqErrors n i.val else g.errors[i] }

/-- RETRAIN_GAP: one of the 33 × 17 settings is tested in a gap, which holds the requests of the pseudo-channel for at most 2 µs; at most
two pseudo-channels are in gaps, and retraining waits while stage-1 stands still (R460). -/
def execRetrainGap (pc : Fin 32) (s : State) : Host.Outcome State Fault Refusal :=
  .next (let x := nth s.mem.pcs pc.val
    if memServes s && x.retrain && decide (x.gaps < 561) && decide (x.gapNs + 100000 ≤ s.ns) && s.mgt.st == .run && !(gapsFull s) then
      (s.onMem fun m => { m with
        pcs := upd m.pcs pc.val fun x => { x with gaps := x.gaps + 1, gapNs := s.ns, gapUntil := s.ns + Config.gapLength s.free % 2001 }
        gens := upd m.gens (pc.val / 2) (testDq s.free pc.val) }).useFree
    else s)

/-- The retraining of a pseudo-channel ends: it is fenced when no setting works. -/
def retrainEnd (pc : Nat) (found : Bool) (s : State) : State :=
  let named := match s.mem.retrainCmd with | some h => bitOf (u32 (Cmd.payload h.cmd) 0) pc | none => false
  let s := s.onMem fun m => { m with
    pcs := upd m.pcs pc (fun x => { x with retrain := false, gaps := 0 }), retrainCnt := sat m.retrainCnt
    retrainFenced := m.retrainFenced || (named && !found) }
  endRetrain (if found then s else fencePc pc s)

/-- Boot training ends with the working pseudo-channels given (R421, R422). One that is fenced stays so until a cold reset (R535). -/
def bootTrained (working : BitVec 32) (s : State) : State :=
  let new := ~~~working &&& ~~~s.mem.fenced
  let bad := s.mem.fenced ||| new
  let s := s.onMem fun m => layRanks { m with
    fenced := bad, laid := bad, fenceEvtCnt := satN m.fenceEvtCnt (bitsOf 32 new.toNat).length
    failed := BitVec.ofNat 4 (((List.range 4).map fun r => if nth s.mgt.fault.rank r = 0 then 0 else 2 ^ r).sum) }
  let s := if new = 0 then s else memRaise 0x4 s
  if 8 < (bitsOf 32 bad.toNat).length then memRaise 0x200 (s.onMem fun m => { m with st := .failed })
  else
    let s := s.onMem fun m => { m with st := .ready }
    if s.mgt.allotNow.isSome then s.raise .bootAllotment else s

/-! ## Commands -/

def specMemLayoutSet : OpSpec where
  op := 0x0903
  cls := [clsMemory]
  len := lenIs 8
  owners := ownConfig
  check c s :=
    let b := Cmd.payload c
    checks [badAt c 0 (16128 < u16 b 0 || u16 b 0 % 256 != 0), rsvBits c 2 0xFC, badAt c 3 (outside 8 14 (u8 b 3)),
      rsvBits c 4 0xFE, rsv c 5 3,
      busyIf (!s.cmp.bufs.isEmpty || s.slc.stores.toList.any (fun st => !st.bufs.isEmpty) || s.mem.migRun)]
  effect h s :=
    let b := Cmd.payload h.cmd
    { st := s.onMem fun m => layRanks { m with
        planeRows := u16 b 0, order := BitVec.ofNat 2 (u8 b 2), grain := u8 b 3, spare := bitOf (u8 b 4) 0 } }

/-- The six reservations of a payload. -/
def parseRes (b : List Byte) : Vector Nat 6 := Vector.ofFn fun i => u32 b (4 * i.val)

def specMemReserveSet : OpSpec where
  op := 0x0904
  cls := [clsMemory]
  len := lenIs 24
  owners := ownConfig
  boundary := true
  check c s :=
    let n := workingPcs s.mem
    badAny (24576 * n < ((parseRes (Cmd.payload c)).toList.map fun r => r * n / 32).sum)
  apply h s :=
    let r := parseRes (Cmd.payload h.cmd)
    let less := decide (nth r 0 < nth s.mem.res 0)
    let s := s.onMem fun m => { m with res := r }
    if less then s.onSeq fun q => { q with reval := true } else s

def specMemPolicySet : OpSpec where
  op := 0x0905
  cls := [clsMemory]
  len := lenIs 24
  owners := ownConfig
  check c _ :=
    let b := Cmd.payload c
    checks [badAt c 0 (outside 1 1000 (u16 b 0)), badAt c 2 (outside 1 1000 (u16 b 2)), badAt c 4 (outside 1 1000 (u16 b 4)),
      badAt c 6 (outside 10 1000 (u16 b 6)), badAt c 8 (outside 100 100000 (u32 b 8)), badAt c 12 (outside 8 16 (u8 b 12)),
      badAt c 13 (outside 1 168 (u8 b 13)), badAt c 14 (outside 100 4000 (u16 b 14)),
      badAt c 16 ((List.range 6).any fun i => u8 b (16 + i) &&& 0xFC != 0), rsv c 22 2]
  effect h s :=
    let b := Cmd.payload h.cmd
    let cls (i : Nat) (p : MemPort) : MemPort := { p with cls := BitVec.ofNat 2 (u8 b (16 + i)) }
    { st := s.onMem fun m => { m with
        ageUs := Vector.ofFn fun i => u16 b (2 * i.val)
        pageIdleNs := u16 b 6, idleNs := u32 b 8, nrrP := u8 b 12, scrubH := u8 b 13, migRate := u16 b 14
        ports := upd (upd (upd (upd (upd (upd m.ports 0 (cls 0)) 1 (cls 1)) 2 (cls 2)) 3 (cls 3)) 4 (cls 4)) 9 (cls 5) } }

def specMemFence : OpSpec where
  op := 0x0906
  cls := [clsMemory]
  len := lenIs 0
  check _ s := memBusy s
  effect h s := if ingesting h.cmd.host none h.jseq s then { st := s, status := .accepted, sole := true } else { st := s }

def specMemRankRetire : OpSpec where
  op := 0x0907
  cls := [clsMemory]
  len := lenIs 4
  owners := ownConfig
  check c s := checks [badAt c 0 (ranksIn s.mem ≤ u8 (Cmd.payload c) 0), rsv c 1 3, memBusy s, busyIf (s.mem.migRun || !s.mem.spareValid)]
  effect h s := { st := startMigration (u8 (Cmd.payload h.cmd) 0) (some h) s, status := .accepted }

/-- Some pseudo-channel is being retrained. -/
def retraining (s : State) : Bool := s.mem.pcs.toList.any (·.retrain)

def specMemRetrain : OpSpec where
  op := 0x0908
  cls := [clsMemory]
  len := lenIs 4
  owners := ownConfig
  check c s := checks [badAt c 0 (BitVec.ofNat 32 (u32 (Cmd.payload c) 0) &&& s.mem.fenced != 0), memBusy s,
    busyIf (retraining s || s.mem.retrainCmd.isSome)]
  effect h s :=
    let is := bitsOf 32 (u32 (Cmd.payload h.cmd) 0)
    if is.isEmpty then { st := s }
    else { st := is.foldl (fun s i => startRetrain i s) (s.onMem fun m => { m with retrainCmd := some h, retrainFenced := false })
           status := .accepted }

def execMemLayoutSet (cmd : Cmd) (s : State) : Host.Outcome State Fault Refusal := .next (accept specMemLayoutSet cmd s)
def execMemReserveSet (cmd : Cmd) (s : State) : Host.Outcome State Fault Refusal := .next (accept specMemReserveSet cmd s)
def execMemPolicySet (cmd : Cmd) (s : State) : Host.Outcome State Fault Refusal := .next (accept specMemPolicySet cmd s)
def execMemFence (cmd : Cmd) (s : State) : Host.Outcome State Fault Refusal := .next (accept specMemFence cmd s)
def execMemRankRetire (cmd : Cmd) (s : State) : Host.Outcome State Fault Refusal := .next (accept specMemRankRetire cmd s)
def execMemRetrain (cmd : Cmd) (s : State) : Host.Outcome State Fault Refusal := .next (accept specMemRetrain cmd s)

end Sys2Proof.Machine
end

