-- ==== Sys2Proof/Machine/Calibration.lean ====
section
/-!
DEFINITION. Calibration (spec/15): the quantities of each region, targets and tap stepping, background measurement, dark
windows, the storing of results in sets, the calibration windows of BAR0, and the ends of memory training (R421).
-/
namespace Sys2Proof.Machine

/-! ## Quantities of a region (R491, R503) -/

/-- A quantity: its byte offset after a set's header, its width, whether it is signed, and whether it wraps (PHASE). -/
structure Qty where
  off : Nat
  bits : Nat
  sgn : Bool := false
  circ : Bool := false

/-- Class of a region: 0 MEM, 1 GLK, 2 PD, 3 NTC, 4 SS. -/
def calClassOf (r : Nat) : Nat := if r < 32 then 0 else if r < 48 then 1 else if r < 60 then 2 else if r < 68 then 3 else 4

/-- The quantities of a region, in set layout order. -/
def calQtys (r : Nat) : List Qty :=
  match calClassOf r with
  | 0 => (List.range 64).map (fun i => { off := i, bits := 7 }) ++
      (List.range 32).map (fun i => { off := 64 + i, bits := 5, sgn := true }) ++
      [{ off := 96, bits := 6 }, { off := 97, bits := 6 }]
  | 1 => [{ off := 0, bits := 6, sgn := true }, { off := 1, bits := 6, circ := true }]
  | _ => [{ off := 0, bits := 16, sgn := true }]

/-- Lowest and highest value of a quantity. -/
def Qty.lo (q : Qty) : Int := if q.sgn then -(2 ^ (q.bits - 1) : Nat) else 0
def Qty.hi (q : Qty) : Int := if q.sgn then (2 ^ (q.bits - 1) : Nat) - 1 else (2 ^ q.bits : Nat) - 1

/-- The value of a quantity in set bytes. -/
def Qty.get (q : Qty) (b : Vector Byte 108) : Int :=
  let raw := (nth b q.off).toNat + (if 8 < q.bits then 256 * (nth b (q.off + 1)).toNat else 0)
  if q.sgn then signed q.bits raw else (raw % 2 ^ q.bits : Nat)

/-- The set bytes with a quantity's value, its reserved bits 0. -/
def Qty.put (q : Qty) (v : Int) (b : Vector Byte 108) : Vector Byte 108 :=
  let raw := (BitVec.ofInt q.bits v).toNat
  let b := upd b q.off fun _ => BitVec.ofNat 8 raw
  if 8 < q.bits then upd b (q.off + 1) fun _ => BitVec.ofNat 8 (raw / 256) else b

/-- The defined bits of the byte at offset o after a set's header. -/
def calByteMask (r o : Nat) : Nat :=
  match calClassOf r with
  | 0 => if o < 64 then 0x7F else if o < 96 then 0x1F else if o < 98 then 0x3F else 0
  | 1 => if o < 2 then 0x3F else 0
  | _ => if o < 2 then 0xFF else 0

def State.region (s : State) (r : Nat) : CalRegion := nth s.cal.regions r
def State.onRegion (s : State) (r : Nat) (f : CalRegion → CalRegion) : State :=
  s.onCal fun c => { c with regions := upd c.regions r f }

/-! ## Targets and stepping (R493 to R495) -/

/-- The sensor a region follows: one of the main die for MEM and GLK, one of the sense die for the others. -/
def calSensor (r : Nat) : Nat :=
  if r < 48 then Config.regionSensor r % 48 else 48 + Config.regionSensor r % 4

/-- θ of a region: its sensor's reading, or the last good one while the sensor is in fault, which sets SENSOR_HOLD. -/
def takeTheta (r : Nat) (s : State) : State :=
  if nth s.thm.sensFault (calSensor r) then calRaise 0x2 s
  else s.onRegion r fun x => { x with theta := nth s.thm.temp (calSensor r) }

/-- A set's temperature in 0.01 °C. -/
def CalSet.at (c : CalSet) : Int := c.temp.toInt

/-- Insert a set into a list of sets in ascending T. -/
def insertSet (c : CalSet) : List CalSet → List CalSet
  | [] => [c]
  | d :: ds => if c.at < d.at then c :: d :: ds else d :: insertSet c ds

/-- The sets that the targets follow: set words that hosts write count from the next step (R501). -/
def CalRegion.inUse (x : CalRegion) : Vector CalSet 4 := x.old.getD x.sets

/-- The valid sets of a region in ascending T (R492). -/
def validSets (x : CalRegion) : List CalSet :=
  (x.inUse.toList.filter (·.valid)).foldl (fun l c => insertSet c l) []

/-- The target of a quantity before it is clamped (R493). -/
def rawTarget (q : Qty) (x : CalRegion) : Int :=
  let sets := validSets x
  match (sets.filter fun c => decide (c.at ≤ x.theta)).getLast?, sets.find? fun c => decide (x.theta < c.at) with
  | none, none => q.get x.cur
  | some a, none => q.get a.bytes
  | none, some b => q.get b.bytes
  | some a, some b =>
    let va := q.get a.bytes
    roundDiv (va * (b.at - a.at) + (q.get b.bytes - va) * (x.theta - a.at)) (b.at - a.at).toNat

/-- The target of a quantity. -/
def calTarget (q : Qty) (x : CalRegion) : Int := clampI q.lo q.hi (rawTarget q x)

/-- The quantities whose target is clamped. -/
def clampedTargets (r : Nat) (x : CalRegion) : Nat :=
  ((calQtys r).filter fun q => rawTarget q x != calTarget q x).length

/-- One tap from v toward the target; PHASE the shorter way round, a tie left open (R495). -/
def tapToward (q : Qty) (up : Bool) (v t : Int) : Int :=
  if v = t then v
  else if q.circ then
    let d := (t - v) % 64
    if d < 32 || (d == 32 && up) then (v + 1) % 64 else (v - 1) % 64
  else if v < t then v + 1 else v - 1

/-- Every quantity of a region moves one tap toward its target. -/
def stepRegion (r : Nat) (up : Bool) (x : CalRegion) : CalRegion :=
  { x with
    cur := (calQtys r).foldl (fun b q => q.put (tapToward q up (q.get x.cur) (calTarget q x)) b) x.cur
    limit := clampedTargets r x != 0 }

/-- CAL_Rr_STATUS.AT_TARGET. -/
def atTarget (r : Nat) (x : CalRegion) : Bool := (calQtys r).all fun q => q.get x.cur == calTarget q x

/-- A region takes its step. -/
def calStepRegion (r : Nat) (s : State) : State :=
  let s := (takeTheta r s).onRegion r fun x => { x with old := none }
  let n := clampedTargets r (s.region r)
  let s := (s.onRegion r (stepRegion r (Config.roundUp s.free))).useFree
  if n = 0 then s else calRaise 0x1 (s.onCal fun c => { c with limitCnt := satN c.limitCnt n })

/-- The regions of a class. -/
def calRegions (k : Nat) : List Nat := (List.range 92).filter fun r => calClassOf r == k

/-- CAL_STEP: STEP_US of the class has passed since its last step. -/
def execCalStep (k : Fin 5) (s : State) : Host.Outcome State Fault Refusal :=
  .next (if s.live && decide (nth s.cal.stepNs k.val + 1000 * (nth s.cal.classes k.val).stepUs ≤ s.ns) then
    (calRegions k.val).foldl (fun s r => calStepRegion r s) (s.onCal fun c => { c with stepNs := upd c.stepNs k.val fun _ => s.ns })
  else s)

/-! ## Results (R499, R500) -/

/-- Distance of a set's temperature from θ. -/
def setDist (x : CalRegion) (i : Nat) : Nat := ((nth x.sets i).at - x.theta).natAbs

/-- The set of a list of indices whose T is nearest θ. -/
def nearestSet (x : CalRegion) : List Nat → Option Nat
  | [] => none
  | i :: is => match nearestSet x is with
    | some j => if setDist x j < setDist x i then some j else some i
    | none => some i

/-- The set that takes a result: a valid one within 2.50 °C, else the lowest not valid, else the nearest. -/
def chooseSet (x : CalRegion) : Nat :=
  let valid := (List.range 4).filter fun i => (nth x.sets i).valid
  match nearestSet x (valid.filter fun i => decide (setDist x i ≤ 250)) with
  | some i => i
  | none => match (List.range 4).find? fun i => !(nth x.sets i).valid with
    | some i => i
    | none => (nearestSet x valid).getD 0

/-- A result, as (quantity index, value), is stored by R499; the quantities it does not cover take their targets. -/
def storeInRegion (r : Nat) (vals : List (Nat × Int)) (x : CalRegion) : CalRegion :=
  let bytes := (calQtys r).foldl (fun b q => q.put (calTarget q x) b) (nth x.sets (chooseSet x)).bytes
  let bytes := vals.foldl (fun b v => match (calQtys r)[v.1]? with
    | some q => q.put (clampI q.lo q.hi v.2) b
    | none => b) bytes
  let put (v : Vector CalSet 4) := upd v (chooseSet x) fun _ => ({ temp := BitVec.ofInt 16 x.theta, valid := true, bytes := bytes } : CalSet)
  { x with sets := put x.sets, old := x.old.map put }

/-- A result of a region is stored, unless the region is frozen (R500). -/
def storeResult (r : Nat) (vals : List (Nat × Int)) (s : State) : State :=
  let s := takeTheta r s
  if (s.region r).freeze then s
  else (s.onRegion r (storeInRegion r vals)).onCal fun c => { c with updateCnt := sat c.updateCnt }

/-- Background measurement runs for a region: its receiver carries traffic, BG_EN is 1 and FREEZE is 0 (R500). -/
def measuring (r : Nat) (s : State) : Bool :=
  s.live && decide (r < 48) && (nth s.cal.classes (calClassOf r)).bgEn && !(s.region r).freeze &&
  (if r < 32 then memServes s && !s.mem.fenced.getLsbD r else (s.octet (r - 32)).bcLocked)

/-- The offset sampler's threshold after a window of `ones` (R496). -/
def moveThr (r db ones : Nat) (v : Int) : Int :=
  let lim : Int := if r < 32 then 16 else 32
  let v' := if 32768 + 16 * db < ones then v + 1 else if ones + 16 * db < 32768 then v - 1 else v
  clampI (-lim) (lim - 1) v'

/-- OFFSET_WINDOW: the threshold moves; after four consecutive windows without a move it is a result, and the count of
windows begins again. -/
def execOffsetWindow (r : Fin 92) (dq : Fin 32) (ones : Nat) (s : State) : Host.Outcome State Fault Refusal :=
  .next (if !(measuring r.val s) then s
    else
      let i := if r.val < 32 then dq.val else 0
      let v := nth (s.region r.val).thr i
      let v' := moveThr r.val (nth s.cal.classes (calClassOf r.val)).deadband ones v
      let n := if v' = v then nth (s.region r.val).quiet i + 1 else 0
      let s := s.onRegion r.val fun x => { x with
        thr := upd x.thr i fun _ => v', quiet := upd x.quiet i fun _ => if n = 4 then 0 else n }
      if n = 4 then storeResult r.val [(if r.val < 32 then 64 + i else 0, v')] s else s)

/-- 2^62 cos(πj/32) to nearest, for j = 0 to 16. -/
def cosTable : List Int :=
  [4611686018427387904, 4589479489746651964, 4523073764714963030, 4413108366765438139, 4260642322793532497,
   4067143964149113252, 3834476785802888710, 3564881499871150442, 3260954456333195553, 2925622638761716784,
   2562115475870945497, 2173933740352748318, 1764815834521887442, 1338701787458110889, 899695310372275547,
   452024275624069880, 0]

/-- The cosine of k sixty-fourths of a turn. -/
def cos64 (k : Nat) : Int :=
  let k := k % 64
  let k := if 32 < k then 64 - k else k
  if k ≤ 16 then cosTable.getD k 0 else -(cosTable.getD (32 - k) 0)

/-- How far the counts lie in the direction of bin e. -/
def towardBin (counts : List Nat) (e : Nat) : Int :=
  ((List.range 64).map fun k => (counts.getD k 0 : Int) * cos64 (k + 64 - e)).foldl (· + ·) 0

/-- The circular centroid of 64 counts rounded to a bin (R497): the bin in whose direction their sum reaches furthest. An exact
half between two bins goes to the later one, away from zero (R568), which is bin 0 after bin 63; counts without a centroid, whose
sum has no direction, leave the bin open. -/
def centroidBin (counts : List Nat) : Nat :=
  let best := (List.range 64).map (towardBin counts)
  let top := best.foldl (fun a b => if a < b then b else a) (best.getD 0 0)
  match (List.range 64).filter fun e => towardBin counts e == top with
  | [e] => e
  | [a, b] => if a = 0 ∧ b = 63 then 0 else b
  | es => es.getD (Config.centroidChoice counts % es.length) 0

/-- EDGE_SWEEP_DONE: PHASE, or RD_DLY of the DQ, is (e + 32) mod 64 (R497). -/
def execEdgeSweepDone (r : Fin 92) (dq : Fin 32) (counts : List Nat) (s : State) : Host.Outcome State Fault Refusal :=
  .next (if !(measuring r.val s) then s
    else storeResult r.val [(if r.val < 32 then dq.val else 1, ((centroidBin counts + 32) % 64 : Nat))] s)

/-! ## Dark windows (R498) -/

/-- DARK_WINDOW: the window of a DIAG_OK slot without pulse or walk step has ended with the means given, in the order PD,
NTC, SS. -/
def execDarkWindow (means : List Int) (s : State) : Host.Outcome State Fault Refusal :=
  .next (if !s.live || !(darkPast 10000 s) then s
    else
      let s := s.onCal fun c => { c with lastDark := some s.ns, darkCnt := sat c.darkCnt }
      (List.range 44).foldl (fun s i => storeResult (48 + i) [(0, means.getD i 0)] s) s)

/-! ## The ends of memory training (R421, R422) -/

/-- The values of a setting that retraining finds: the delays lie within 16 taps of the set in force, and the references within 8 steps
(R421). -/
def foundSetting (x : CalRegion) (vs : List Int) : List (Nat × Int) :=
  (calQtys 0).zipIdx.map fun q =>
    let v := q.1.get x.cur
    let w : Int := if q.2 < 64 then 16 else if q.2 < 96 then 32 else 8
    (q.2, clampI (v - w) (v + w) (vs.getD q.2 0))

/-- RETRAIN_DONE: every setting has been tested, and the working setting found is stored as a set, or the pseudo-channel is fenced. -/
def execRetrainDone (pc : Fin 32) (found : Option (List Int)) (s : State) : Host.Outcome State Fault Refusal :=
  .next (if !(memServes s) || !(nth s.mem.pcs pc.val).retrain || decide ((nth s.mem.pcs pc.val).gaps < 561) || s.mgt.st != .run then s
    else match found with
      | none => retrainEnd pc.val false s
      | some vs => retrainEnd pc.val true
          (storeResult pc.val (foundSetting (s.region pc.val) vs) s))

/-- The working setting that boot training finds for a pseudo-channel is stored and in force. -/
def bootSet (n pc : Nat) (s : State) : State :=
  let s := storeResult pc ((List.range 98).map fun i => (i, Config.trainedTap n pc i)) s
  s.onRegion pc fun x => { x with cur := (nth x.sets (chooseSet x)).bytes }

/-- BOOT_TRAINING_DONE: the pseudo-channels of `working` have a working setting, the others are fenced. -/
def execBootTrainingDone (working : BitVec 32) (s : State) : Host.Outcome State Fault Refusal :=
  .next (if !s.live || s.mem.st != .training then s
    else
      let n := s.free
      bootTrained working ((bitsOf 32 working.toNat).foldl (fun s pc => bootSet n pc s) s.useFree))

/-! ## Calibration windows of BAR0 (R40, R501, R503) -/

/-- CAL_Rr_CTRL is written; a MEM region written during the freeze is retrained when it ends. -/
def freezeWrite (r : Nat) (val : BitVec 32) (s : State) : State :=
  let x := s.region r
  let on := val.getLsbD 0
  let again := x.freeze && !on && x.written && decide (r < 32)
  let s := s.onRegion r fun x => { x with freeze := on, written := x.freeze && on && x.written }
  if again then startRetrain r s else s

/-- FREEZE_WRITE. -/
def execFreezeWrite (r : Fin 92) (val : BitVec 32) (s : State) : Host.Outcome State Fault Refusal :=
  .next (if s.live then freezeWrite r.val val s else s)

/-- Word w of a set with a value written, reserved bits 0. -/
def putSetWord (r w : Nat) (val : BitVec 32) (c : CalSet) : CalSet :=
  if w = 0 then { c with temp := val.truncate 16, valid := val.getLsbD 16 }
  else { c with bytes := (List.range 4).foldl (fun b i =>
    let o := 4 * (w - 1) + i
    upd b o fun _ => BitVec.ofNat 8 (val.toNat / 256 ^ i) &&& BitVec.ofNat 8 (calByteMask r o)) c.bytes }

/-- Set words are written while their region is frozen; otherwise the write is ignored and flagged. -/
def calSetWrite (r set word : Nat) (val : BitVec 32) (s : State) : State :=
  if (s.region r).freeze then
    s.onRegion r fun x => { x with old := some x.inUse, sets := upd x.sets set (putSetWord r word val), written := true }
  else calRaise 0x4 s

/-- CAL_SET_WRITE. -/
def execCalSetWrite (r : Fin 92) (set : Fin 4) (word : Fin 28) (val : BitVec 32) (s : State) :
    Host.Outcome State Fault Refusal :=
  .next (if s.live then calSetWrite r.val set.val word.val val s else s)

/-- CAL_CLASSc_CTRL with a value written, each field clamped to its range. -/
def classOfWord (v : Nat) : CalClass :=
  { stepUs := min 10000 (max 1 (field v 0 14)), deadband := field v 16 8
    darkS := min 60 (max 1 (field v 24 6)), bgEn := bitOf v 31 }

/-- CAL_CLASSc_CTRL is written. -/
def calClassWrite (k : Nat) (val : BitVec 32) (s : State) : State :=
  s.onCal fun c => { c with classes := upd c.classes k fun _ => classOfWord val.toNat }

/-- CAL_CLASS_CTRL_WRITE. -/
def execCalClassCtrlWrite (k : Fin 5) (val : BitVec 32) (s : State) : Host.Outcome State Fault Refusal :=
  .next (if s.live then calClassWrite k.val val s else s)

end Sys2Proof.Machine
end

