-- ==== Sys2Proof/Machine/Link.lean ====
section
/-!
DEFINITION. The array link (spec/08): lane frames and their line code, the bring-up of octets, the back channel's loss, and
the LINK commands; with the parts of the array record (spec/09) that follow the octets.
-/
namespace Sys2Proof.Machine

/-! ## Lane frames (R265 to R269) -/

/-- The w low bits of x, most significant first. -/
def msb (w x : Nat) : List Bool := (List.range w).map fun i => bitOf x (w - 1 - i)

/-- The number whose bits are given, most significant first. -/
def ofMsb (bs : List Bool) : Nat := bs.foldl (fun a b => 2 * a + b2n b) 0

/-- The bytes of a bit string, each byte's first bit its bit 7 (R267). -/
def packBytes : List Bool → List Byte
  | a :: b :: c :: d :: e :: f :: g :: h :: t => BitVec.ofNat 8 (ofMsb [a, b, c, d, e, f, g, h]) :: packBytes t
  | _ => []

/-- SYNC and its complement (R265, R287). -/
def syncWord : Nat := 0xE84DB3
def syncInv : Nat := 0x17B24C

/-- The scrambler's seed (R268). -/
def scrSeed (x : Nat) : Nat :=
  let s := (x ^^^ 0x55555555) % 2147483648
  if s = 0 then 0x7FFFFFFF else s

/-- The 31-bit generator for x^31 + x^28 + 1 added to a bit string (R268). -/
def scramble : Nat → List Bool → List Bool
  | _, [] => []
  | s, b :: t =>
    let z := bitOf s 30 != bitOf s 27
    (b != z) :: scramble ((2 * s + b2n z) % 2147483648) t

/-- Stuffing by R269: after 24 identical bits their complement is inserted and the count restarts. -/
def stuff (last : Bool) (run : Nat) : List Bool → List Bool
  | [] => []
  | b :: t =>
    let run := if run ≠ 0 ∧ b = last then run + 1 else 1
    if run = 24 then b :: (!b) :: stuff b 0 t else b :: stuff b run t

/-- Removal of stuffed bits: the bits, and whether every removed bit was the complement of those before it. -/
def destuff (last : Bool) (run : Nat) : List Bool → List Bool × Bool
  | [] => ([], true)
  | b :: t =>
    if run = 24 then
      let r := destuff b 0 t
      (r.1, r.2 && b != last)
    else
      let r := destuff b (if run ≠ 0 ∧ b = last then run + 1 else 1) t
      (b :: r.1, r.2)

/-- HDR[39:0] of a lane frame (R265). -/
def LaneFrame.hdr (f : LaneFrame) : Nat :=
  f.lane.toNat * 2 ^ 33 + f.fcnt.toNat * 2 ^ 9 + f.type.toNat * 2 ^ 5 + b2n f.stripe7 * 2 ^ 4 + f.dead.toNat * 2

/-- Frame bits 24 to 4063. -/
def LaneFrame.body (f : LaneFrame) : List Bool :=
  msb 40 f.hdr ++ ((List.range 125).flatMap fun i => msb 32 (f.units.getD i 0).toNat)

/-- The line bits of a frame from SYNC to its last. -/
def LaneFrame.coded (f : LaneFrame) : List Bool :=
  let b := f.body
  let plain := b ++ msb 32 (crc32c (packBytes b)).toNat
  msb 24 syncWord ++ stuff false 0 (scramble (scrSeed (f.lane.toNat * 2 ^ 24 + f.fcnt.toNat)) plain)

/-- Fill of n bits after a last line bit: it starts with that bit's complement and alternates (R270). -/
def fillBits (last : Bool) (n : Nat) : List Bool := (List.range n).map fun i => (i % 2 == 0) != last

/-- The line bits of a frame, its preamble by R297 first and its fill last. -/
def LaneFrame.line (f : LaneFrame) : List Bool :=
  (if f.preamble then (List.range 4096).map (· % 2 == 0) else []) ++ f.coded ++ fillBits (f.coded.getLastD false) f.fill

/-- The frames of one interval: each lane that ends earlier sends fill until the last one of the port ends (R270). -/
def paced (fs : List LaneFrame) : List LaneFrame :=
  let n := (fs.map fun f => f.coded.length).foldl max 0
  fs.map fun f => { f with fill := n - f.coded.length }

/-- A frame as its receiver reads it. -/
structure RxFrame where
  lane : Nat := 0
  type : Nat := 0
  words : List (BitVec 32) := []
  crcOk : Bool := false
  stuffOk : Bool := false
  deriving DecidableEq, Repr, Inhabited

/-- The seed that the first 31 scrambled bits imply: they carry {LANE, FCNT}, whose seed is {LANE, FCNT} XOR 0x5555_5555
(R268), so each bit of the seed follows from a line bit. -/
def solveSeed (y : List Bool) : Nat :=
  let c (i : Nat) := bitOf 0x55555555 i
  let low := (List.range 28).map fun i => (27 - i, (y.getD i false) != c (30 - i))
  let bit (j : Nat) : Bool := low.any fun x => x.1 == j && x.2
  let s30 := ((y.getD 28 false) != c 2) != bit 27
  let s29 := ((y.getD 29 false) != c 1) != bit 26
  let s28 := ((y.getD 30 false) != c 0) != bit 25
  ((List.range 28).map fun j => b2n (bit j) * 2 ^ j).sum + b2n s28 * 2 ^ 28 + b2n s29 * 2 ^ 29 + b2n s30 * 2 ^ 30

/-- The plain bits of a frame's 4,072 scrambled ones: the seed is the one that its own header gives. -/
def descramble (y : List Bool) : List Bool :=
  let p := scramble (solveSeed y) y
  let q := scramble 0x7FFFFFFF y
  if scrSeed (ofMsb (q.take 31)) = 0x7FFFFFFF then q else p

/-- A frame read from line bits that follow SYNC, in true polarity (R267 to R269). -/
def readFrame (bits : List Bool) : RxFrame :=
  let d := destuff false 0 bits
  let p := descramble (d.1.take 4072)
  let b := p.take 4040
  { lane := ofMsb (p.take 7), type := ofMsb ((p.drop 31).take 4)
    words := (List.range 125).map fun i => BitVec.ofNat 32 (ofMsb ((p.drop (40 + 32 * i)).take 32))
    crcOk := d.1.length == 4072 && (crc32c (packBytes b)).toNat == ofMsb (p.drop 4040), stuffOk := d.2 }

/-! ## Control packets (R283) -/

/-- A control packet of one word. -/
def ctrlWord (op arg : Nat) : BitVec 64 := BitVec.ofNat 64 (3 * 2 ^ 60 + op * 2 ^ 52 + arg)

/-- A control request is queued, and its answer awaited. -/
def sendCtrl (p op arg : Nat) (s : State) : State :=
  s.onLink p fun l => { l with ctrl := l.ctrl ++ [(s.ns, [ctrlWord op arg])], asked := l.asked ++ [BitVec.ofNat 8 op] }

/-- A request of the port is answered. -/
def answered (p op : Nat) (s : State) : State := s.onLink p fun l => { l with asked := l.asked.erase (BitVec.ofNat 8 op) }

/-- A request of the port awaits its answer. -/
def isAsked (p op : Nat) (s : State) : Bool := (s.link p).asked.contains (BitVec.ofNat 8 op)

/-! ## The health hold and the array's state (R300, R305, R306) -/

/-- The hold follows its causes (R305, R306): it begins with entry 0 and, in hold mode, a reload (R309); it ends when no
cause is left, and the light returns later. -/
def updateHold (p : Nat) (s : State) : State :=
  let a := s.arr p
  let want := a.bandCause != 0 || a.portCause != 0 || a.latched
  if want && !a.hold then
    let s := strobe (s.onArr p fun a => { a with hold := true, dark := true, holdCnt := sat a.holdCnt })
    if (s.port p).hold.on then askReload p s else s
  else if !want && a.hold then s.onArr p fun a => { a with hold := false, holdEnd := s.ns }
  else s

/-- A cause whose instant is `at'`: each band owes a confirmed changeover scheduled after it (R306). -/
def causeBands (p at' : Nat) (s : State) : State :=
  updateHold p (s.onArr p fun a => { a with bandCause := 0xFFFF, causeAt := a.causeAt.map (max at') })

/-- A cause of the whole port: 0 park, 1 lane down, 2 scan. -/
def causePort (p i : Nat) (s : State) : State :=
  updateHold p (s.onArr p fun a => { a with portCause := a.portCause ||| bit1 3 i })

/-- A cause of the whole port ends, and its bands owe a changeover from now on. -/
def endCausePort (p i : Nat) (s : State) : State :=
  if (s.arr p).portCause.getLsbD i then
    causeBands p s.ns (s.onArr p fun a => { a with portCause := a.portCause &&& ~~~(bit1 3 i) })
  else s

/-- A port that enters SETTLE loses every cause but the latched hold and park (R306). -/
def settleCauses (p : Nat) (s : State) : State :=
  updateHold p (s.onArr p fun a => { a with bandCause := 0, portCause := a.portCause &&& 1 })

/-- Every octet of the port is READY. -/
def portReady (p : Nat) (s : State) : Bool :=
  !(octetsOf p s).isEmpty && (octetsOf p s).all fun k => (s.octet k).st == .ready

/-- Beyond BC_LOCK, and beyond BC_ALIGN. -/
def OctSt.aligned (x : OctSt) : Bool := match x with | .electricalIdle | .bcLock => false | _ => true
def OctSt.beyond (x : OctSt) : Bool := match x with | .electricalIdle | .bcLock | .bcAlign => false | _ => true

/-- The array reports park while it is PRESENT: PARKED (R300, R325). -/
def enterPark (p : Nat) (s : State) : State :=
  if (s.arr p).parkHeard && (s.arr p).st == .present then
    causePort p 0 (ahmRaise p 0x100 (s.onArr p fun a => { a with st := .parked, parkCnt := sat a.parkCnt }))
  else s

/-- The state of the array record follows the octets (R300). -/
def ahmFollow (p : Nat) (s : State) : State :=
  let st := (s.arr p).st
  let next : ArrSt :=
    if !(s.port p).enable || (octetsOf p s).isEmpty then .absent
    else if st == .parked then .parked
    else if portReady p s then (if (s.arr p).scanRun.isSome then .scanning else .present)
    else if (octetsOf p s).any fun k => (s.octet k).st.aligned then .linking
    else if st == .linking then .linking else .absent
  enterPark p (s.onArr p fun a => { a with st := next })

/-- A running scan is aborted by R320: the map is kept and the entries received are discarded. The record goes to `next` (R300). -/
def abortScan (p : Nat) (next : ArrSt) (s : State) : State :=
  match (s.arr p).scanRun with
  | none => s
  | some h =>
    let s := s.onArr p fun a => { a with scanRun := none, scanData := [], st := if a.st == .scanning then next else a.st }
    complete h .resetAborted 0 (endCausePort p 2 (ahmRaise p 0x2000 s))

/-- The port's octets leave READY: what waits for the link is lost, a scan is aborted (R320), and a latched hold's octets count as
retrained (R307). -/
def leaveReady (p : Nat) (s : State) : State :=
  let s := s.onLink p fun l => { l with
    resets := [], ctrl := [], cur := [], sent := [], asked := l.asked.filter fun o => o != 1 && o != 2 }
  (abortScan p .linking s).onArr p fun a => { a with run := 0, retrained := a.retrained || a.latched }

/-- The port's link leaves normal operation, and the port enters SETTLE (R24). -/
def portDown (p : Nat) (s : State) : State :=
  let s := (leaveReady p s).onPort p fun q => { q with
    linkSettle := true, st := if q.enable then .settle else q.st, rows := [], cut := none, padding := false }
  ahmFollow p (strobe (settleCauses p s))

/-! ## Octet states (R291 to R295) -/

/-- The lanes of an octet before training. -/
def freshLane (l : Lane) : Lane := { l with locked := false, down := false, excluded := false, notLockedRun := 0, crcRun := 0 }

/-- An octet runs 8 lanes; one that comes back from 7 brings a re-validation at the next boundary (R99, R114). -/
def toEight (k : Nat) (s : State) : State :=
  if (s.octet k).stripe7 then
    (s.onOctet k fun o => { o with stripe7 := false, dead := 0 }).onSeq fun q => { q with reval := true }
  else s

/-- An octet starts bring-up at BC_LOCK (R293, R295). -/
def toBcLock (k : Nat) (s : State) : State :=
  (toEight k s).onOctet k fun o => { o with
    st := .bcLock, epoch := o.epoch + 1, trainCnt := sat o.trainCnt, lanes := o.lanes.map freshLane
    bcLocked := false, bcGood := 0, bcBad := 0, bcLost := false, bcLastMsgs := [], bcPartial := [], bcSkip := false
    pass2 := false, failed := false, idleWait := false, restripe := none, restoreDue := false, cleanRun := 0 }

/-- An octet that is beyond BC_ALIGN returns there with its back channel locked. -/
def toBcAlign (k : Nat) (s : State) : State :=
  s.onOctet k fun o => if o.st.beyond then { o with
    st := .bcAlign, lanes := o.lanes.map freshLane, pass2 := false, restripe := none, restoreDue := false, cleanRun := 0 } else o

/-- An octet goes to ELECTRICAL_IDLE. -/
def toIdle (k : Nat) (wait : Bool) (s : State) : State :=
  s.onOctet k fun o => { o with
    st := .electricalIdle, bcLocked := false, bcGood := 0, bcBad := 0, bcLost := false, bcPartial := [], bcLastMsgs := []
    bcSkip := false, pass2 := false, failed := false, idleWait := wait, lanes := o.lanes.map freshLane
    restripe := none, restoreDue := false, cleanRun := 0 }

/-- A pending restripe is discarded: the lane was found down all the same (R25, R310). -/
def discardRestripe (k : Nat) (s : State) : State :=
  if (s.octet k).restripe.isSome then octRaise k 0x1 (s.onOctet k fun o => { o with restripe := none }) else s

/-- The octet may start at BC_LOCK: allotted to an enabled port, idle and not waiting, its quad's clock good (R290, R291). -/
def mayWake (k : Nat) (s : State) : Bool :=
  let o := s.octet k
  o.allotted && (s.port o.port.toNat).enable && o.st == .electricalIdle && !o.idleWait && !o.failed &&
  !(nth s.glk.quads (k / 4)).bad

/-- The octet starts if it may, and the array record follows. -/
def wakeOctet (k : Nat) (s : State) : State :=
  if mayWake k s then ahmFollow (s.octet k).port.toNat (toBcLock k s) else s

/-- The octets that may start do (R291). -/
def wakeOctets (s : State) : State := forN 16 wakeOctet s

/-- Apply f to each octet of the port. -/
def eachOctet (p : Nat) (f : Nat → State → State) (s : State) : State := (octetsOf p s).foldl (fun s k => f k s) s

/-- Every octet of the port that has started returns to BC_LOCK, and the port enters SETTLE (R289, R308, R310). -/
def retrainPort (p : Nat) (s : State) : State :=
  let s := eachOctet p (fun k s =>
    if (s.octet k).st == .electricalIdle then s else toBcLock k (discardRestripe k s)) s
  portDown p s

/-- Training fails (R293): the octets beyond BC_LOCK return to ELECTRICAL_IDLE for 10 ms. -/
def trainFail (p : Nat) (s : State) : State :=
  let s := s.onLink p fun l => { l with ctrl := [], asked := l.asked.filter fun o => o != 1 && o != 2 }
  let s := eachOctet p (fun k s =>
    if (s.octet k).st.aligned && (s.octet k).st != .ready then
      octRaise k 0x4 ((toIdle k false s).onOctet k fun o => { o with failed := true })
    else s) s
  ahmFollow p s

/-- The array octet indices of the port's octets beyond BC_LOCK are valid and distinct (R293). -/
def indicesOk (p : Nat) (s : State) : Bool :=
  let ks := (octetsOf p s).filter fun k => (s.octet k).st.aligned
  let is := ks.map fun k => (s.octet k).aoct
  decide is.Nodup && is.all fun i => i.toNat < (octetsOf p s).length

/-- From BC_ALIGN the octets of a port move to FWD_TRAIN together (R291). -/
def togetherTrain (p : Nat) (s : State) : State :=
  if !(indicesOk p s) then trainFail p s
  else if (octetsOf p s).all fun k => (s.octet k).st == .bcAlign && (s.octet k).bcLocked then
    eachOctet p (fun k s => (toEight k s).onOctet k fun o => { o with
      st := .fwdTrain, pass2 := false
      lanes := Vector.ofFn fun i => { nth o.lanes i.val with pos := BitVec.ofNat 3 i.val, txInv := false } }) s
  else s

/-- The octets of a port that wait in BC_ALIGN move on if they may. -/
def tryTrain (p : Nat) (s : State) : State :=
  if (octetsOf p s).any fun k => (s.octet k).st == .bcAlign && (s.octet k).bcLocked then ahmFollow p (togetherTrain p s) else s

/-- The octet's back-channel receiver has locked on frames of array octet `idx` (R287, R291). -/
def bcLockGot (k idx : Nat) (inv : Bool) (s : State) : State :=
  let o := s.octet k
  let p := o.port.toNat
  let s := s.onOctet k fun o => { o with bcLocked := true, bcLost := false, bcInv := inv, bcGood := 3, bcPartial := [], bcSkip := true }
  if o.st == .bcLock || o.st == .bcAlign then
    let s := s.onOctet k fun o => { o with st := .bcAlign, aoct := BitVec.ofNat 3 idx }
    if idx < (octetsOf p s).length then ahmFollow p (togetherTrain p (ahmFollow p s)) else trainFail p s
  else s

/-- A back channel is lost (R289): its forward lanes continue; an octet still in BC_ALIGN starts again. When the last back
channel of the port is lost, the port retrains at the next period boundary. -/
def bcLoss (k : Nat) (s : State) : State :=
  let o := s.octet k
  if o.allotted && o.st.aligned && o.bcLocked then
    let p := o.port.toNat
    let s := octRaise k 0x2 (s.onOctet k fun o => { o with
      bcLossCnt := sat o.bcLossCnt, bcLocked := false, bcGood := 0, bcBad := 0, bcLost := true, bcPartial := [], bcLastMsgs := [] })
    let s := if o.st == .bcAlign then ahmFollow p (toBcLock k s) else s
    let all := (octetsOf p s).all fun k => (s.octet k).bcLost || !(s.octet k).st.aligned
    if all && (octetsOf p s).any fun k => (s.octet k).st.aligned then s.onLink p fun l => { l with bcDue := true } else s
  else s

def execBcLockLost (o : Fin 16) (s : State) : Host.Outcome State Fault Refusal := .next (bcLoss o.val s)
def execBcSilence (o : Fin 16) (s : State) : Host.Outcome State Fault Refusal := .next (bcLoss o.val s)

/-- The octet's back-channel receiver is in BC_LOCK: the octet is, or R289 has returned the receiver alone to it. -/
def seeksLock (o : Octet) : Bool := o.st == .bcLock || (o.allotted && o.st.aligned && !o.bcLocked)

/-- A back channel that stays in BC_LOCK for more than 100 ms (R293). -/
def execBcAbsent (o : Fin 16) (s : State) : Host.Outcome State Fault Refusal :=
  .next (if seeksLock (s.octet o.val) then octRaise o.val 0x8 s else s)

/-- The 1 ms of R295 ends. -/
def execElectricalIdleEnd (o : Fin 16) (s : State) : Host.Outcome State Fault Refusal :=
  .next (wakeOctet o.val (s.onOctet o.val fun x => { x with idleWait := false }))

/-- 10 ms after a failure the octets start again (R293). -/
def execTrainRestart (p : Fin 4) (s : State) : Host.Outcome State Fault Refusal :=
  .next (eachOctet p.val (fun k s =>
    if (s.octet k).failed then wakeOctet k (s.onOctet k fun o => { o with failed := false }) else s) s)

/-- The first pass has run 1 ms: the device asks for LANEMAP (R292). -/
def execTrainPass1End (p : Fin 4) (s : State) : Host.Outcome State Fault Refusal :=
  let ks := octetsOf p.val s
  .next (if !ks.isEmpty && (ks.all fun k => (s.octet k).st == .fwdTrain && !(s.octet k).pass2) && !(isAsked p.val 1 s) then
    sendCtrl p.val 1 0 s else s)

/-- The second pass is not confirmed within 10 ms (R293). -/
def execTrainFail (p : Fin 4) (s : State) : Host.Outcome State Fault Refusal :=
  .next (if (octetsOf p.val s).any fun k => (s.octet k).st == .fwdTrain && (s.octet k).pass2 then trainFail p.val s else s)

/-- Entry of a lane map for position q of array octet a (R285). -/
def mapEntry (ws : List (BitVec 32)) (a q : Nat) : Nat := field (ws.getD (2 * a + q / 4) 0).toNat (8 * (q % 4)) 8

/-- The first-pass map is good by R293. -/
def map1Ok (p : Nat) (ws : List (BitVec 32)) (s : State) : Bool :=
  let ks := octetsOf p s
  let n := ks.length
  let f := ks.headD 0
  let es := (List.range n).flatMap fun a => (List.range 8).map fun q => (a, mapEntry ws a q)
  (es.all fun e => bitOf e.2 7) && decide (es.map fun e => e.2 % 64).Nodup &&
  es.all fun e => e.2 % 64 < 8 * n && ((s.octet (f + e.2 % 64 / 8)).aoct.toNat == e.1)

/-- The swizzle of octet k by the first-pass map: for each device lane its logical position and inversion (R292). -/
def swizzle (k : Nat) (ws : List (BitVec 32)) (s : State) : Vector Lane 8 :=
  let o := s.octet k
  let a := o.aoct.toNat
  Vector.ofFn fun i =>
    let q := ((List.range 8).find? fun q => mapEntry ws a q % 8 == i.val).getD i.val
    let inv := bitOf (mapEntry ws a q) 6
    { nth o.lanes i.val with pos := BitVec.ofNat 3 q, txInv := inv, inverted := inv, locked := true }

/-- The swizzle as R294 compares it: the array octet served, and each device lane's position and inversion. -/
def swizzleKey (aoct : BitVec 3) (v : Vector Lane 8) : BitVec 3 × List (BitVec 3 × Bool) :=
  (aoct, v.toList.map fun l => (l.pos, l.txInv))

/-- The octet takes its swizzle and begins the second pass (R292, R294). -/
def takeSwizzle (p : Nat) (ws : List (BitVec 32)) (k : Nat) (s : State) : State :=
  let v := swizzle k ws s
  let key := swizzleKey (s.octet k).aoct v
  let old := nth (s.octet k).prevMap p
  let s := s.onOctet k fun o => { o with lanes := v, pass2 := true, prevMap := upd o.prevMap p fun _ => some key }
  match old with
  | some x => if x == key then s else octRaise k 0x10 s
  | none => s

/-- The second pass is confirmed: every position shows its locked logical lane, not inverted. -/
def map2Ok (p : Nat) (ws : List (BitVec 32)) (s : State) : Bool :=
  (List.range (octetsOf p s).length).all fun a => (List.range 8).all fun q => mapEntry ws a q == 128 + 8 * a + q

/-- A LANEMAP answer (R292). -/
def lanemapMsg (p : Nat) (ws : List (BitVec 32)) (s : State) : State :=
  let ks := octetsOf p s
  if !(isAsked p 1 s) || ks.isEmpty || ws.length != 2 * ks.length || !(ks.all fun k => (s.octet k).st == .fwdTrain) then s
  else
    let s := answered p 1 s
    if ks.all fun k => (s.octet k).pass2 then
      if map2Ok p ws s then sendCtrl p 2 0 (eachOctet p (fun k s => s.onOctet k fun o => { o with st := .capsWait }) s)
      else sendCtrl p 1 0 s
    else if map1Ok p ws s then sendCtrl p 1 0 (eachOctet p (takeSwizzle p ws) s)
    else trainFail p s

def execLanemap (p : Fin 4) (ws : List (BitVec 32)) (s : State) : Host.Outcome State Fault Refusal :=
  .next (lanemapMsg p.val ws s)

/-- The device lane of octet k that sends position q. -/
def laneAt (o : Octet) (q : Nat) : Nat := ((List.range 8).find? fun i => (nth o.lanes i).pos.toNat == q).getD q

/-- The octet of the port that serves array octet a. -/
def octetAt (p a : Nat) (s : State) : Option Nat :=
  (octetsOf p s).find? fun k => (s.octet k).st.aligned && (s.octet k).aoct.toNat == a

/-- An ERRCNT answer (R283, R285): GLK_Ok_Li_CRC_CNT is at least the count that the array reports for the lane. -/
def errcntMsg (p : Nat) (ws : List (BitVec 32)) (s : State) : State :=
  let n := (octetsOf p s).length
  if ws.length != 4 * n then s
  else
    forN n (fun a s => match octetAt p a s with
      | none => s
      | some k => s.onOctet k fun o => { o with lanes := Vector.ofFn fun i =>
          let l := nth o.lanes i.val
          let q := l.pos.toNat
          let c := field (ws.getD (4 * a + q / 2) 0).toNat (16 * (q % 2)) 16
          { l with crcCnt := if l.crcCnt.toNat < c then BitVec.ofNat 32 c else l.crcCnt } }) (answered p 3 s)

def execErrcnt (p : Fin 4) (ws : List (BitVec 32)) (s : State) : Host.Outcome State Fault Refusal :=
  .next (errcntMsg p.val ws s)

/-- A control request is unanswered after 1 ms (R283): counted on the port's octets. A LANEMAP or CAPS that does not come
fails the training (R291, R293), within the 10 ms of a second pass the map is asked for again, and an AHM_PARK ends with
TIMEOUT. -/
def execCtrlTimeout (p : Fin 4) (op : BitVec 8) (s : State) : Host.Outcome State Fault Refusal :=
  .next (if isAsked p.val op.toNat s then
    let ks := octetsOf p.val s
    let s := answered p.val op.toNat s
    let s := eachOctet p.val (fun k s => octRaise k 0x80 (s.onOctet k fun o => { o with ctrlToCnt := sat o.ctrlToCnt })) s
    if op = 1 ∧ ks.any (fun k => (s.octet k).st == .fwdTrain) then
      (if ks.all fun k => (s.octet k).pass2 then sendCtrl p.val 1 0 s else trainFail p.val s)
    else if op = 2 ∧ ks.any (fun k => (s.octet k).st == .capsWait) then trainFail p.val s
    else if op = 0x22 then
      match (s.arr p.val).parkWait with
      | [] => s
      | h :: t => complete h .timeout 0 (s.onArr p.val fun a => { a with parkWait := t })
    else s
    else s)

/-! ## Allotment (R21 to R25, R571) -/

/-- Port p's part of a LINK_ALLOT payload. -/
def parseAllot (b : List Byte) (p : Nat) : Allot :=
  let o := 8 * p
  if u8 b (o + 1) = 0 then {} else
  { first := BitVec.ofNat 4 (u8 b o), count := BitVec.ofNat 4 (u8 b (o + 1)), rate := BitVec.ofNat 2 (u8 b (o + 2))
    kaBurst := bitOf (u8 b (o + 3)) 0, kaUs := BitVec.ofNat 8 (u8 b (o + 4)), flightPs := BitVec.ofNat 16 (u16 b (o + 6)) }

/-- The port that an allotment gives octet k, with its rate. -/
def allotOf (as : List Allot) (k : Nat) : Option (Nat × BitVec 2) :=
  ((List.range 4).find? fun p =>
    let a := as.getD p {}
    a.first.toNat ≤ k && k < a.first.toNat + a.count.toNat).map fun p => (p, (as.getD p {}).rate)

/-- Field checks of one port's entry. -/
def allotField (c : Cmd) (p : Nat) : Option Refuse :=
  let b := Cmd.payload c
  let o := 8 * p
  let on := u8 b (o + 1) != 0
  checks [
    badAt c o (on && 15 < u8 b o), badAt c (o + 1) (8 < u8 b (o + 1)),
    badAt c (o + 2) (on && (u8 b (o + 2) == 0 || 3 < u8 b (o + 2))), rsvBits c (o + 3) 0xFE,
    badAt c (o + 4) (on && (u8 b (o + 4) < 10 || 100 < u8 b (o + 4))), rsv c (o + 5) 1,
    badAt c (o + 6) (on && 10000 < u16 b (o + 6)), badAt c o (on && 16 < u8 b o + u8 b (o + 1))]

/-- R23: an octet in two ports, or a quad with two lane rates. -/
def allotClash (as : List Allot) : Bool :=
  let holds (p k : Nat) : Bool := (as.getD p {}).first.toNat ≤ k && k < (as.getD p {}).first.toNat + (as.getD p {}).count.toNat
  ((List.range 16).any fun k => 1 < ((List.range 4).filter fun p => holds p k).length) ||
  (List.range 4).any fun q =>
    let rs := (List.range 4).filterMap fun i => (allotOf as (4 * q + i)).map (·.2)
    rs.any fun r => r != rs.headD 0

/-- R22 against the octets that an allotment leaves spare: one that LINK_DIAG has enabled keeps its rate in use in its quad. -/
def diagClash (as : List Allot) (s : State) : Bool :=
  (List.range 16).any fun k =>
    (allotOf as k).isNone && !(s.octet k).allotted && (s.octet k).diag != 0 &&
      (List.range 4).any fun i => match allotOf as (k / 4 * 4 + i) with | some x => x.2 != (s.octet k).rate | none => false

def allotsIn (c : Cmd) : List Allot := (List.range 4).map (parseAllot (Cmd.payload c))

/-- The checks of the payload by itself. -/
def allotShape (c : Cmd) : Option Refuse :=
  checks [allotField c 0, allotField c 1, allotField c 2, allotField c 3, badAny (allotClash (allotsIn c))]

/-- The checks of the payload, and of the octets that it leaves spare. -/
def allotBad (c : Cmd) (s : State) : Option Refuse :=
  checks [allotShape c, badAny (diagClash (allotsIn c) s)]

def specLinkAllot : OpSpec where
  op := 0x0600
  cls := [clsLink]
  len := lenIs 32
  owners := ownConfig
  boundary := true
  check c s := checks [allotBad c s, busyIf s.glk.pending.isSome]
  recheck := some fun h s => allotBad h.cmd s
  effect h s := { st := s.onGlk fun g => { g with pending := some h }, status := .accepted }

def execLinkAllot (cmd : Cmd) (s : State) : Host.Outcome State Fault Refusal := .next (accept specLinkAllot cmd s)

/-- Every port that the running allotment changed is READY, or holds no octets: LINK_ALLOT is done. -/
def checkAllot (s : State) : State :=
  let s := forN 4 (fun p s =>
    if (s.link p).changed && (portReady p s || (octetsOf p s).isEmpty) then s.onLink p fun l => { l with changed := false } else s) s
  if (List.range 4).any fun p => (s.link p).changed then s
  else match s.glk.running with
    | none => s
    | some h => complete h .done 0 (s.onGlk fun g => { g with running := none })

/-- An octet takes its part of a new allotment: one that changes its port or rate goes to ELECTRICAL_IDLE, for at least
1 ms when it was in use, and a restripe pending on one that leaves its port is discarded (R25, R295). -/
def allotOctet (as : List Allot) (k : Nat) (s : State) : State :=
  let o := s.octet k
  match allotOf as k with
  | none =>
    if o.allotted then
      (toIdle k true (discardRestripe k s)).onOctet k fun o => { o with allotted := false, port := 0, rate := 0, stripe7 := false, dead := 0 }
    else s
  | some (p, r) =>
    if o.allotted && o.port.toNat == p && o.rate == r then s
    else
      let keep := if o.allotted && o.port.toNat == p then o.restripe else none
      let s := if keep.isSome then s else discardRestripe k s
      (toIdle k (o.allotted || o.idleWait) s).onOctet k fun x => { x with
        allotted := true, port := BitVec.ofNat 2 p, rate := r, diag := 0, stripe7 := false, dead := 0, restripe := keep }

/-- An allotment takes effect at its period boundary (R24, R25, R571). Its ports that change enter SETTLE. -/
def applyAllot (h : Held) (s : State) : State :=
  let as := allotsIn h.cmd
  let s := match s.glk.running with
    | some r => complete r .resetAborted 0 s
    | none => s
  let old (p : Nat) : Allot := (s.link p).allot
  let same (a b : Allot) : Bool := a.count == b.count && (a.count == 0 || (a.first == b.first && a.rate == b.rate))
  let changed := (List.range 4).filter fun p => !(same (old p) (as.getD p {}))
  let leave := (List.range 16).flatMap fun k => (s.octet k).cmds.filter fun _ =>
    !((allotOf as k).map (·.1) == some (s.octet k).port.toNat)
  let s := forN 16 (allotOctet as) s
  let s := forN 4 (fun p s => s.onLink p fun l => { l with
    allot := as.getD p {}, changed := changed.contains p }) s
  let s := changed.foldl (fun s p => portDown p (eachOctet p (fun k s =>
    let keep := (s.octet k).restripe
    (toBcAlign k s).onOctet k fun o => { o with restripe := keep }) s)) s
  let s := leave.foldl (fun s h => complete h .resetAborted 0 s) s
  let s := forN 16 (fun k s => s.onOctet k fun o => { o with cmds := o.cmds.filter fun h => !(leave.contains h) }) s
  checkAllot (forN 4 tryTrain (s.onGlk fun g => { g with pending := none, running := some h }))

/-! ## The other LINK commands -/

/-- The octet's power domain is on: allotted, or enabled for diagnostics (R26, R29). -/
def octetOn (k : Nat) (s : State) : Bool := (s.octet k).allotted || (s.octet k).diag != 0

def specLinkLaneSet : OpSpec where
  op := 0x0601
  cls := [clsOctet]
  len := lenIs 8
  owners c s := [octetOwner c.tindex.toNat s]
  check c s :=
    let b := Cmd.payload c
    checks [badAt c 1 (24 < u8 b 1), badAt c 2 (16 < u8 b 2), badAt c 3 (24 < u8 b 3), badAt c 4 (24 < u8 b 4), rsv c 5 3,
      busyIf !(octetOn c.tindex.toNat s)]
  effect h s :=
    let b := Cmd.payload h.cmd
    { st := s.onOctet h.cmd.tindex.toNat fun o => { o with
        bcCtle := BitVec.ofNat 5 (u8 b 4)
        lanes := Vector.ofFn fun i =>
          let l := nth o.lanes i.val
          if bitOf (u8 b 0) i.val then
            { l with swing := BitVec.ofNat 5 (u8 b 1), pre := BitVec.ofNat 5 (u8 b 2), post := BitVec.ofNat 5 (u8 b 3) }
          else l } }

def execLinkLaneSet (cmd : Cmd) (s : State) : Host.Outcome State Fault Refusal := .next (accept specLinkLaneSet cmd s)

/-- The octet restarts at ELECTRICAL_IDLE, the others of its port return to BC_ALIGN, and the port enters SETTLE. -/
def resetOctet (k : Nat) (s : State) : State :=
  let p := (s.octet k).port.toNat
  let s := eachOctet p discardRestripe s
  let s := eachOctet p (fun j s => if j = k then toIdle k true s else toBcAlign j s) s
  portDown p s

def specLinkOctetReset : OpSpec where
  op := 0x0602
  cls := [clsOctet]
  len := lenIs 0
  owners c s := [octetOwner c.tindex.toNat s]
  check c s := busyIf !(s.octet c.tindex.toNat).allotted
  effect h s :=
    let k := h.cmd.tindex.toNat
    { st := (resetOctet k s).onOctet k fun o => { o with cmds := o.cmds ++ [{ h with sole := true }] }
      status := .accepted, sole := true }

def execLinkOctetReset (cmd : Cmd) (s : State) : Host.Outcome State Fault Refusal := .next (accept specLinkOctetReset cmd s)

/-- The rate in use in a quad by octets other than k (R22). -/
def quadRate (k : Nat) (s : State) : Option (BitVec 2) :=
  ((List.range 4).map fun i => k / 4 * 4 + i).findSome? fun j => if j != k && octetOn j s then some (s.octet j).rate else none

/-- The rate that an allotment which waits for the next boundary brings to the quad of octet k, unless it takes the octet itself. One held by
APPLY_AT looks again at its own boundary (R443). -/
def comingRate (k : Nat) (s : State) : Option (BitVec 2) :=
  match s.glk.pending with
  | none => none
  | some h =>
    let as := allotsIn h.cmd
    if h.due.isSome || (allotOf as k).isSome then none
    else ((List.range 4).map fun i => k / 4 * 4 + i).findSome? fun j => (allotOf as j).map (·.2)

/-- A lane rate breaks R22 on octet k. -/
def rateClash (k r : Nat) (s : State) : Bool :=
  [quadRate k s, comingRate k s].any fun x => match x with | some q => q.toNat != r | none => false

def specLinkDiag : OpSpec where
  op := 0x0603
  cls := [clsOctet]
  len := lenIs 4
  owners := ownConfig
  check c s :=
    let b := Cmd.payload c
    let k := c.tindex.toNat
    checks [badAt c 0 (2 < u8 b 0), badAt c 1 (u8 b 1 == 0 || 3 < u8 b 1), rsv c 2 2, busyIf (s.octet k).allotted,
      badAt c 1 (u8 b 0 != 0 && rateClash k (u8 b 1) s)]
  effect h s :=
    let b := Cmd.payload h.cmd
    { st := pruneDoms (s.onOctet h.cmd.tindex.toNat fun o => { o with
        diag := BitVec.ofNat 2 (u8 b 0), rate := if u8 b 0 = 0 then 0 else BitVec.ofNat 2 (u8 b 1) }) }

def execLinkDiag (cmd : Cmd) (s : State) : Host.Outcome State Fault Refusal := .next (accept specLinkDiag cmd s)

/-- One second after an allotment's boundary, or after a LINK_OCTET_RESET of octet o: an octet is still not READY. -/
def execLinkReadyTimeout (o : Option (Fin 16)) (s : State) : Host.Outcome State Fault Refusal :=
  .next (match o with
    | none => (match s.glk.running with
      | none => s
      | some h => complete h .timeout 0 { s with glk := { s.glk with
          running := none, ports := s.glk.ports.map fun l => { l with changed := false } } })
    | some k => (match (s.octet k.val).cmds with
      | [] => s
      | h :: t => complete h .timeout 0 (s.onOctet k.val fun o => { o with cmds := t })))

/-! ## Quad clocks (R290) -/

/-- A quad's clock is lost: its octets go to ELECTRICAL_IDLE and their ports into SETTLE. -/
def quadFault (q : Nat) (s : State) : State :=
  let ks := ((List.range 4).map fun i => 4 * q + i).filter fun k => (s.octet k).allotted
  let ps := (List.range 4).filter fun p => ks.any fun k => (s.octet k).port.toNat == p
  let s := quadRaise q (s.onGlk fun g => { g with quads := upd g.quads q fun x => { x with bad := true, unlockCnt := sat x.unlockCnt } })
  let s := ks.foldl (fun s k => toIdle k (s.octet k).idleWait (discardRestripe k s)) s
  ps.foldl (fun s p => portDown p (eachOctet p (fun k s => toBcAlign k (discardRestripe k s)) s)) s

/-- The quad's clock is good: its octets resume from BC_LOCK. -/
def quadGood (q : Nat) (s : State) : State :=
  let s := s.onGlk fun g => { g with quads := upd g.quads q fun x => { x with bad := false } }
  ((List.range 4).map fun i => 4 * q + i).foldl (fun s k => wakeOctet k s) s

end Sys2Proof.Machine
end

