-- ==== Sys2Proof/Machine/Health.lean ====
section
/-!
DEFINITION. Array health (spec/09): capability records, the classes of acknowledgements, lost lanes, defect maps, scans,
temperature and parking; the back channel's frames and messages (R285); and the AHM commands.
-/
namespace Sys2Proof.Machine

/-- The array is heard: a back channel of its port is locked or has been (R285). -/
def heard (p : Nat) (s : State) : Bool := (octetsOf p s).any fun k => (s.octet k).st.aligned

/-! ## Acknowledgements (R304 to R308) -/

/-- A restripe to 7 lanes is pending on the port. -/
def restripePending (p : Nat) (s : State) : Bool := (octetsOf p s).any fun k => (s.octet k).restripe.isSome

/-- A REFUSED or MISSING band reset joins the run of R308; a run that reaches the limit schedules a retrain. -/
def countRun (p : Nat) (s : State) : State :=
  let a := s.arr p
  let n := if a.run = 255 then a.run else a.run + 1
  let due := n = a.refuseLimit ∧ n ≠ a.run ∧ ¬ restripePending p s
  s.onArr p fun a => { a with run := n, retrainDue := a.retrainDue || decide due }

/-- A band's changeover scheduled at ns `due` is confirmed: it ends the causes before it (R306) and clears the run. -/
def confirmBand (p b due : Nat) (s : State) : State :=
  updateHold p (s.onArr p fun a => { a with
    ackCnt := sat a.ackCnt, run := 0
    bandCause := if nth a.causeAt b < due then a.bandCause &&& ~~~(bit1 16 b) else a.bandCause })

/-- The classes of R304 for an ACK. -/
inductive AckClass where
  | park | disagree | refused | confirmed
  deriving DecidableEq, Repr

/-- The class of an ACK that answers band reset e (R304). -/
def ackClass (parked mat done equal : Bool) : AckClass :=
  if !done && mat == equal && parked then .park
  else if (mat && !equal) || (mat && !done) || (!mat && done) then .disagree
  else if !mat then .refused
  else .confirmed

/-- An ACK message (R285, R286, R304). -/
def ackMsg (p : Nat) (w1 w2 : BitVec 32) (s : State) : State :=
  let x := w1.toNat
  let band := field x 28 4
  let rseq := field x 20 8
  match (s.link p).sent.find? fun e => e.rseq.toNat == rseq && e.band.toNat == band with
  | none => ahmRaise p 0x10 (s.onArr p fun a => { a with strayCnt := sat a.strayCnt })
  | some e =>
    let s := s.onLink p fun l => { l with sent := l.sent.erase e }
    let s := if bitOf x 17 then ahmRaise p 0x8 (s.onArr p fun a => { a with lateCnt := sat a.lateCnt }) else s
    match ackClass ((s.arr p).st == .parked) (bitOf x 19) (bitOf x 18) (w2 == e.witness) with
    | .park => s
    | .disagree => updateHold p (ahmRaise p 0x2 (s.onArr p fun a => { a with
        disagreeCnt := sat a.disagreeCnt, latched := true, retrained := if a.latched then a.retrained else false }))
    | .refused => countRun p (causeBands p e.due (ahmRaise p 0x1 (s.onArr p fun a => { a with mismatchCnt := sat a.mismatchCnt })))
    | .confirmed => confirmBand p band e.due s

def execAck (p : Fin 4) (w1 w2 : BitVec 32) (s : State) : Host.Outcome State Fault Refusal := .next (ackMsg p.val w1 w2 s)

/-- The band reset whose changeover was due first is without an ACK 10 µs after it (R304). -/
def execAckMissing (p : Fin 4) (s : State) : Host.Outcome State Fault Refusal :=
  let es := (s.link p.val).sent
  .next (match es.find? fun e => (es.all fun f => e.due ≤ f.due) && decide (e.due + 10000 ≤ s.ns) with
    | none => s
    | some e =>
      let s := s.onLink p.val fun l => { l with sent := l.sent.erase e }
      countRun p.val (causeBands p.val s.ns (ahmRaise p.val 0x4 (s.onArr p.val fun a => { a with ackMissCnt := sat a.ackMissCnt }))))

/-! ## Lanes (R288, R310 to R312) -/

/-- The lane at position q of octet k is found down (R310). -/
def laneDown (p k q : Nat) (s : State) : State :=
  let o := s.octet k
  if (o.stripe7 && o.dead.toNat == q) || o.restripe == some (BitVec.ofNat 3 q) then s
  else
    let s := s.onOctet k fun o => { o with
      laneDownCnt := sat o.laneDownCnt, lanes := upd o.lanes (laneAt o q) fun l => { l with down := true } }
    if (s.port p).enable then
      let seven := (octetsOf p s).any fun j => (s.octet j).stripe7 || (s.octet j).restripe.isSome
      causePort p 1 (if seven then s.onArr p fun a => { a with retrainDue := true }
        else s.onOctet k fun o => { o with restripe := some (BitVec.ofNat 3 q) })
    else s

/-- What one STATUS word says of position q of octet k (R285, R288, R299). -/
def statusLane (p k w q : Nat) (s : State) : State :=
  let o := s.octet k
  let i := laneAt o q
  let locked := bitOf w q
  let bad := bitOf w (16 + q)
  let counts := o.st == .ready && o.bcLocked
  let l := nth o.lanes i
  let nl := if !counts then l.notLockedRun else if locked then 0 else min 2 (l.notLockedRun + 1)
  let cr := if !counts then l.crcRun else if bad then min 4 (l.crcRun + 1) else 0
  let s := s.onOctet k fun o => { o with lanes := upd o.lanes i fun l => { l with
    locked := locked, crcCnt := if bad then sat l.crcCnt else l.crcCnt, notLockedRun := nl, crcRun := cr } }
  if counts && !l.down && (nl == 2 || cr == 4) then laneDown p k q s else s

/-- The count of STATUS messages that show an octet's excluded lane clean (R312). -/
def countClean (k w : Nat) (s : State) : State :=
  s.onOctet k fun o =>
    let q := o.dead.toNat
    let n := if o.stripe7 && bitOf w q && !(bitOf w (16 + q)) then min 256 (o.cleanRun + 1) else 0
    { o with cleanRun := n, restoreDue := o.restoreDue || n == 256 }

/-- A STATUS message (R285, R288, R312). -/
def statusMsg (p : Nat) (ws : List (BitVec 32)) (s : State) : State :=
  let n := (octetsOf p s).length
  if ws.length != n + 1 || field (ws.headD 0).toNat 24 8 != n then s
  else forN n (fun a s => match octetAt p a s with
    | none => s
    | some k =>
      let o := s.octet k
      if o.st == .capsWait || o.st == .ready || (o.st == .fwdTrain && o.pass2) then
        let w := (ws.getD (a + 1) 0).toNat
        countClean k w (forN 8 (fun q s => statusLane p k w q s) s)
      else s) s

def execStatus (p : Fin 4) (ws : List (BitVec 32)) (s : State) : Host.Outcome State Fault Refusal := .next (statusMsg p.val ws s)

/-- The octets of a port change between 8 and 7 lanes at a period boundary (R311, R312). -/
def restripeOctet (p k : Nat) (s : State) : State :=
  let o := s.octet k
  match o.restripe with
  | some q =>
    let s := octRaise k 0x1 (s.onOctet k fun o => { o with
      stripe7 := true, dead := q, restripe := none, cleanRun := 0, restoreDue := false, restripeCnt := sat o.restripeCnt
      lanes := upd o.lanes (laneAt o q.toNat) fun l => { l with excluded := true } })
    endCausePort p 1 (s.onSeq fun x => { x with reval := true })
  | none =>
    if o.stripe7 && o.restoreDue && (s.arr p).autoRestore then
      let s := ahmRaise p 0x4000 (s.onOctet k fun o => { o with
        stripe7 := false, dead := 0, cleanRun := 0, restoreDue := false, restripeCnt := sat o.restripeCnt
        lanes := upd o.lanes (laneAt o o.dead.toNat) fun l => { l with excluded := false, down := false, notLockedRun := 0, crcRun := 0 } })
      s.onSeq fun x => { x with reval := true }
    else s.onOctet k fun o => { o with restoreDue := o.cleanRun == 256 }

/-- Retrains and restripes of a period boundary (R289, R308, R310 to R312): `due` are the ports whose retrain by R308 or R310
was scheduled before it. -/
def boundaryLink (due : List Nat) (s : State) : State :=
  forN 4 (fun p s =>
    if due.contains p && !(octetsOf p s).isEmpty then
      let s := ahmRaise p 0x80 (s.onArr p fun a => { a with retrainDue := false, retrainCnt := sat a.retrainCnt })
      retrainPort p (s.onLink p fun l => { l with bcDue := false })
    else if (s.link p).bcDue then retrainPort p (s.onLink p fun l => { l with bcDue := false })
    else eachOctet p (restripeOctet p) s) s

/-! ## Defect maps (R313 to R316) -/

def parseDefect (w : BitVec 32) : DefEntry :=
  { row := BitVec.ofNat 13 (field w.toNat 13 13), col := BitVec.ofNat 13 (field w.toNat 0 13), kind := BitVec.ofNat 2 (field w.toNat 30 2) }

/-- Entries a map holds. -/
def mapSize : Nat := 16384

/-- One entry of R314; `fresh` counts it as found while running (R315). -/
def addDefect (p : Nat) (fresh : Bool) (e : DefEntry) (s : State) : State :=
  let a := s.arr p
  if a.map.contains e then s
  else if mapSize ≤ a.map.length then
    ahmRaise p 0x1000 (s.onArr p fun a => { a with
      defectLostCnt := sat a.defectLostCnt, mapLost := a.mapLost || e.kind == 1 || e.kind == 3, mapDirty := true })
  else
    let s := s.onArr p fun a => { a with map := a.map ++ [e], mapDirty := true }
    if fresh then ahmRaise p 0x800 (s.onArr p fun a => { a with defectNewCnt := sat a.defectNewCnt }) else s

/-- A DEFECT message (R315). -/
def defectMsg (p : Nat) (ws : List (BitVec 32)) (s : State) : State :=
  if heard p s then checkStuck p (ws.foldl (fun s w => addDefect p true (parseDefect w) s) s) else s

def execDefect (p : Fin 4) (ws : List (BitVec 32)) (s : State) : Host.Outcome State Fault Refusal := .next (defectMsg p.val ws s)

/-- The saved maps with one added, newest first: a ninth displaces the least recently used that belongs to no port's record
(R316). -/
def keepSaved (serials : List (BitVec 64)) (x : SavedMap) (old : List SavedMap) : List SavedMap :=
  let xs := x :: old.filter fun y => y.serial != x.serial
  if xs.length ≤ 8 then xs
  else match xs.reverse.find? fun y => !(serials.contains y.serial) with
    | some y => xs.erase y
    | none => xs.take 8

/-- SERIAL of a port's record. -/
def serialOf (p : Nat) (s : State) : BitVec 64 := BitVec.ofNat 64 (s.arr p).serial

/-- A changed map is saved to MRAM with its record's serial and its mark (R316). -/
def saveMap (p : Nat) (s : State) : State :=
  let a := s.arr p
  if a.mapDirty && a.capsValid then
    let serials := ((List.range 4).filter fun q => (s.arr q).capsValid).map fun q => serialOf q s
    (s.onAhm fun x => { x with
      saved := keepSaved serials { serial := serialOf p s, entries := a.map, lost := a.mapLost } x.saved }).onArr p fun a =>
        { a with mapDirty := false }
  else s

def execDefectMapSave (p : Fin 4) (s : State) : Host.Outcome State Fault Refusal := .next (saveMap p.val s)

/-! ## Capability records (R301 to R303) -/

/-- J_MAX at a lane-rate code, ns (R279). -/
def jMax (rate : Nat) : Nat := if rate = 3 then 64 else if rate = 2 then 128 else 256

/-- The bytes of a message word, most significant first. -/
def beBytes (w : BitVec 32) : List Byte := (leBytes 4 w.toNat).reverse

/-- The first failing check of R302 for a record on a port; 0 when it passes. -/
def capsFail (p : Nat) (ws : List (BitVec 32)) (s : State) : Nat :=
  let w (i : Nat) : Nat := (ws.getD i 0).toNat
  let rate := portRate p s
  let lat := if rate = 3 then field (w 3) 0 16 else if rate = 2 then field (w 3) 16 16 else field (w 4) 0 16
  let width := field (w 1) 0 16
  let height := field (w 1) 16 16
  if (crc32c ((ws.take 15).flatMap beBytes)).toNat != w 15 then 0x01
  else if field (w 0) 28 4 != 1 || 1 < field (w 0) 24 4 then 0x02
  else if field (w 0) 3 5 != 0 || field (w 2) 16 16 != 0 || field (w 9) 16 16 != 0 || ((ws.drop 10).take 5).any (· != 0) then 0x03
  else if field (w 0) 16 8 != (octetsOf p s).length then 0x04
  else if field (w 0) 8 8 != 16 then 0x05
  else if width % 64 != 0 || width < 1024 || 8192 < width || height % 16 != 0 || height < 16 || 4352 < height then 0x06
  else if !(bitOf (w 0) (rate - 1)) then 0x07
  else if field (w 2) 0 16 == 0 || 20000 < field (w 2) 0 16 then 0x08
  else if lat < jMax rate || 10000 < lat then 0x09
  else if i16 (leBytes 4 (w 5)) 2 ≤ i16 (leBytes 4 (w 5)) 0 then 0x0A
  else 0

/-- A new record brings in its own defect map (R303, R316). -/
def newRecord (p : Nat) (s : State) : State :=
  let sn := serialOf p s
  let got := s.ahm.saved.find? fun x => x.serial == sn
  let s := s.onAhm fun x => { x with
    saved := match got with | some y => y :: x.saved.erase y | none => x.saved }
  let s := s.onArr p fun a => { a with
    newRec := true, mapDirty := false
    map := match got with | some y => y.entries | none => []
    mapLost := match got with | some y => y.lost | none => false }
  checkStuck p (ahmRaise p 0x40 s)

/-- The port's octets are READY (R291): their commands complete, and the array record follows. -/
def portUp (p : Nat) (s : State) : State :=
  let s := eachOctet p (fun k s => s.onOctet k fun o => { o with st := .ready }) s
  let done := (octetsOf p s).flatMap fun k => (s.octet k).cmds
  let s := eachOctet p (fun k s => s.onOctet k fun o => { o with cmds := [] }) s
  let s := done.foldl (fun s h => complete h .done 0 s) s
  ahmFollow p (checkAllot s)

/-- A CAPS answer (R302, R303, R307). -/
def capsMsg (p : Nat) (ws : List (BitVec 32)) (s : State) : State :=
  let ks := octetsOf p s
  if !(isAsked p 2 s) || ws.length != 16 || ks.isEmpty || !(ks.all fun k => (s.octet k).st == .capsWait) then s
  else
    let s := answered p 2 s
    let cause := capsFail p ws s
    if cause != 0 then
      trainFail p (ahmRaise p 0x20 (s.onArr p fun a => { a with
        capsCause := BitVec.ofNat 8 cause, capsRefuseCnt := sat a.capsRefuseCnt }))
    else
      let a := s.arr p
      let fresh := !a.capsValid || (ws.take 8 != a.caps.toList.take 8)
      let s := if fresh then saveMap p s else s
      let s := s.onArr p fun a => { a with capsValid := true, caps := Vector.ofFn fun i => ws.getD i.val 0 }
      let s := if fresh then newRecord p s else s
      let s := if (s.arr p).latched && (s.arr p).retrained then
        causeBands p s.ns (s.onArr p fun a => { a with latched := false, retrained := false }) else s
      portUp p s

def execCaps (p : Fin 4) (ws : List (BitVec 32)) (s : State) : Host.Outcome State Fault Refusal := .next (capsMsg p.val ws s)

/-- New records take effect at a period boundary for R114 and R218 (R303). -/
def boundaryRecords (s : State) : State :=
  forN 4 (fun p s =>
    if (s.arr p).newRec then
      newRecordEpoch p ((s.onSeq fun x => { x with reval := true }).onArr p fun a => { a with newRec := false })
    else s) s

/-! ## Temperature (R322) -/

def tempMsg (p : Nat) (w : BitVec 32) (s : State) : State :=
  if heard p s then
    let t := w.truncate 16
    let s := s.onArr p fun a => { a with temp := t, tempStale := false }
    if (s.arr p).capsValid && (BitVec.ofNat 16 (capsWord (s.arr p) 5)).toInt ≤ t.toInt then ahmRaise p 0x200 s else s
  else s

def execTemp (p : Fin 4) (w : BitVec 32) (s : State) : Host.Outcome State Fault Refusal := .next (tempMsg p.val w s)

def execTempStale (p : Fin 4) (s : State) : Host.Outcome State Fault Refusal :=
  .next (if (s.arr p.val).st == .present then ahmRaise p.val 0x400 (s.onArr p.val fun a => { a with tempStale := true }) else s)

/-! ## Scans (R317 to R321) -/

/-- A running scan ends: its cause ends, and its command completes. -/
def endScan (p : Nat) (st : Status) (s : State) : State :=
  match (s.arr p).scanRun with
  | none => s
  | some h =>
    let s := s.onArr p fun a => { a with scanRun := none, scanData := [], st := if a.st == .scanning then .present else a.st }
    enterPark p (complete h st 0 (endCausePort p 2 s))

def scanDataMsg (p : Nat) (ws : List (BitVec 32)) (s : State) : State :=
  if (s.arr p).scanRun.isSome then s.onArr p fun a => { a with scanData := a.scanData ++ ws } else s

def execScanData (p : Fin 4) (ws : List (BitVec 32)) (s : State) : Host.Outcome State Fault Refusal := .next (scanDataMsg p.val ws s)

/-- A SCAN_DONE message (R319); one that reports an abort that the device did not ask for leaves the map in force. -/
def scanDoneMsg (p : Nat) (w1 w2 w3 : BitVec 32) (s : State) : State :=
  let s := answered p 0x21 s
  let a := s.arr p
  if a.scanRun.isNone then s
  else if !(w3.getLsbD 0) && w1.toNat == a.scanData.length && crc32c (a.scanData.flatMap beBytes) == w2 then
    let s := s.onArr p fun a => { a with map := [], mapLost := false, mapDirty := true, scanCnt := sat a.scanCnt }
    endScan p .done (checkStuck p (a.scanData.foldl (fun s w => addDefect p false (parseDefect w) s) s))
  else endScan p .degraded s

def execScanDone (p : Fin 4) (w1 w2 w3 : BitVec 32) (s : State) : Host.Outcome State Fault Refusal :=
  .next (scanDoneMsg p.val w1 w2 w3 s)

/-- SCAN_STATE answers SCAN_START (R317). -/
def execScanState (p : Fin 4) (_w : BitVec 32) (s : State) : Host.Outcome State Fault Refusal := .next (answered p.val 0x20 s)

def execScanTimeout (p : Fin 4) (s : State) : Host.Outcome State Fault Refusal :=
  .next (if (s.arr p.val).scanRun.isSome then endScan p.val .timeout (sendCtrl p.val 0x21 0 s) else s)

/-! ## Parking (R323 to R326) -/

/-- A PARK_STATE message (R325); it answers the oldest PARK request. -/
def parkStateMsg (p : Nat) (w : BitVec 32) (s : State) : State :=
  if heard p s then
    let s := (match isAsked p 0x22 s, (s.arr p).parkWait with
      | true, h :: t => complete h .done 0 ((answered p 0x22 s).onArr p fun a => { a with parkWait := t })
      | true, [] => answered p 0x22 s
      | false, _ => s)
    if w.getLsbD 0 then enterPark p (s.onArr p fun a => { a with parkHeard := true })
    else
      let s := s.onArr p fun a => { a with parkHeard := false, st := if a.st == .parked then .present else a.st }
      ahmFollow p (endCausePort p 0 s)
  else s

def execParkState (p : Fin 4) (w : BitVec 32) (s : State) : Host.Outcome State Fault Refusal := .next (parkStateMsg p.val w s)

/-! ## Back-channel frames and messages (R285, R287) -/

/-- A message takes its effect; one of a reserved type, or whose length its type does not have, is discarded. -/
def runMsg (k p : Nat) (m : List (BitVec 32)) (s : State) : State :=
  let h := (m.headD 0).toNat
  let ws := m.drop 1
  let n := (octetsOf p s).length
  let w (i : Nat) : BitVec 32 := ws.getD i 0
  let len := ws.length
  match field h 24 8 with
  | 0x01 => if len = 2 then ackMsg p (w 0) (w 1) s else octRaise k 0x100 s
  | 0x02 => if len = 1 + n then statusMsg p ws s else octRaise k 0x100 s
  | 0x03 => if len = 2 * n then lanemapMsg p ws s else octRaise k 0x100 s
  | 0x04 => if len = 16 then capsMsg p ws s else octRaise k 0x100 s
  | 0x05 => if len = 4 * n then errcntMsg p ws s else octRaise k 0x100 s
  | 0x10 => if len = 1 then tempMsg p (w 0) s else octRaise k 0x100 s
  | 0x11 => if 1 ≤ len then defectMsg p ws s else octRaise k 0x100 s
  | 0x12 => if 1 ≤ len then scanDataMsg p ws s else octRaise k 0x100 s
  | 0x13 => if len = 3 then scanDoneMsg p (w 0) (w 1) (w 2) s else octRaise k 0x100 s
  | 0x14 => if len = 1 then parkStateMsg p (w 0) s else octRaise k 0x100 s
  | 0x15 => if len = 1 then answered p 0x20 s else octRaise k 0x100 s
  | _ => octRaise k 0x100 s

/-- MSEQ of a message. -/
def mseqOf (m : List (BitVec 32)) : Nat := field (m.headD 0).toNat 0 16

/-- A message has arrived on octet k: the first copy is used, and a copy that differs is reported (R285). -/
def gotMsg (k : Nat) (m : List (BitVec 32)) (s : State) : State :=
  let p := (s.octet k).port.toNat
  let copy := (octetsOf p s).findSome? fun j =>
    if j = k then none else (s.octet j).bcLastMsgs.find? fun x => mseqOf x == mseqOf m
  let s := s.onOctet k fun o => { o with bcLastMsgs := (m :: o.bcLastMsgs).take 64 }
  match copy with
  | some x => if x == m then s else octRaise k 0x40 s
  | none => runMsg k p m s

/-- One back-channel word of octet k. -/
def gotWord (k : Nat) (s : State) (w : BitVec 32) : State :=
  let o := s.octet k
  if o.bcSkip then (if w = 0 then s.onOctet k fun o => { o with bcSkip := false } else s)
  else if o.bcPartial.isEmpty && w == 0 then s
  else
    let m := o.bcPartial ++ [w]
    if m.length = 1 + field (m.headD 0).toNat 16 8 then gotMsg k m (s.onOctet k fun o => { o with bcPartial := [] })
    else s.onOctet k fun o => { o with bcPartial := m }

/-- The offset of the first SYNC within the first n line bits, and whether it is the complement; a receiver that holds lock takes SYNC
in its own polarity alone (R270, R287). -/
def findSync (pol : Option Bool) (n : Nat) (bits : List Bool) : Option (Nat × Bool) :=
  (List.range (n - 23)).findSome? fun i =>
    let w := ofMsb ((bits.drop i).take 24)
    if i + 24 ≤ bits.length && w == syncWord && pol != some true then some (i, false)
    else if i + 24 ≤ bits.length && w == syncInv && pol != some false then some (i, true)
    else none

/-- A frame position without SYNC: the search for lock starts again, and the fourth in a row loses lock (R287). -/
def noSync (k : Nat) (s : State) : State :=
  let o := s.octet k
  if !o.bcLocked then s.onOctet k fun o => { o with bcGood := 0 }
  else if 3 ≤ o.bcBad then bcLoss k s
  else s.onOctet k fun o => { o with bcBad := o.bcBad + 1, bcPartial := [], bcSkip := true }

/-- Line bits arrive at octet k from the end of a back-channel frame on: the next frame starts with the first SYNC of the 192 bits that
follow, or while the receiver seeks its first frame with the first SYNC there is (R265, R270, R285, R287). -/
def bcFrame (k : Nat) (bits : List Bool) (s : State) : State :=
  let o := s.octet k
  let seeks := !o.bcLocked && o.bcGood == 0
  if !o.allotted || o.st == .electricalIdle then s
  else match findSync (if o.bcLocked then some o.bcInv else none) (if seeks then bits.length else 192) bits with
  | none => noSync k s
  | some (i, inv) =>
    let s := s.onOctet k fun o => { o with bcBad := 0 }
    let f := readFrame ((bits.drop (i + 24)).map fun b => b != inv)
    let typed := f.type == 2 || f.type == 4 || f.type == 1 || f.type == 3
    let s := if f.stuffOk then s else s.onOctet k fun o => { o with bcStuffCnt := sat o.bcStuffCnt }
    if !(f.stuffOk && f.crcOk && typed) then
      octRaise k 0x20 (s.onOctet k fun o => { o with
        bcCrcCnt := sat o.bcCrcCnt, bcGood := if o.bcLocked then o.bcGood else 0, bcPartial := [], bcSkip := true })
    else if o.bcLocked then
      (if f.type = 4 then f.words.foldl (gotWord k) s else s)
    else
      let same := o.bcGood == 0 || o.bcInv == inv
      let good := if same then o.bcGood + 1 else 1
      let s := s.onOctet k fun o => { o with bcGood := good, bcInv := inv }
      if good = 3 then bcLockGot k (f.lane % 64) inv s else s

def execBcFrameReceived (o : Fin 16) (bits : List Bool) (s : State) : Host.Outcome State Fault Refusal :=
  .next (bcFrame o.val bits s)

/-! ## AHM commands -/

def specAhmPolicySet : OpSpec where
  op := 0x0610
  cls := [clsArray]
  len := lenIs 4
  owners := ownPortIdx
  boundary := true
  check c _ := checks [rsvBits c 0 0xFE, badAt c 1 (u8 (Cmd.payload c) 1 == 0), rsv c 2 2]
  apply h s :=
    let p := h.cmd.tindex.toNat
    let b := Cmd.payload h.cmd
    let n := u8 b 1
    let pend := restripePending p s
    s.onArr p fun a => { a with
      autoRestore := bitOf (u8 b 0) 0, refuseLimit := BitVec.ofNat 8 n
      retrainDue := a.retrainDue || (decide (n ≤ a.run.toNat) && !pend) }

def execAhmPolicySet (cmd : Cmd) (s : State) : Host.Outcome State Fault Refusal := .next (accept specAhmPolicySet cmd s)

/-- CFG bit 0 of a payload. -/
def cfgBit (c : Cmd) : Bool := bitOf (u8 (Cmd.payload c) 0) 0

/-- A scan starts at its boundary, when the array is still PRESENT (R318). -/
def startScan (h : Held) (s : State) : State :=
  let p := h.cmd.tindex.toNat
  let s := s.onArr p fun a => { a with scanPending := none }
  if (s.arr p).st == .present then
    sendCtrl p 0x20 0 (causePort p 2 ((s.onArr p fun a => { a with
      st := .scanning, scanRun := some h, scanData := [], scanQuiet := true }).onLink p fun l => { l with resets := [] }))
  else complete h .resetAborted 0 (ahmRaise p 0x2000 s)

/-- A scan is aborted by command at its boundary (R320). -/
def stopScan (h : Held) (s : State) : State :=
  let p := h.cmd.tindex.toNat
  let s := if (s.arr p).scanRun.isSome then enterPark p (abortScan p .present (sendCtrl p 0x21 0 s)) else s
  complete h .done 0 s

def specAhmScan : OpSpec where
  op := 0x0611
  cls := [clsArray]
  len := lenIs 4
  owners := ownPortIdx
  boundary := true
  check c s :=
    let a := s.arr c.tindex.toNat
    checks [rsvBits c 0 0xFE, rsv c 1 3,
      busyIf (if cfgBit c then a.st != .present || a.scanPending.isSome else a.scanRun.isNone)]
  recheck := some fun h s =>
    let a := s.arr h.cmd.tindex.toNat
    busyIf (if cfgBit h.cmd then a.st != .present else a.scanRun.isNone)
  effect h s :=
    { st := if cfgBit h.cmd then s.onArr h.cmd.tindex.toNat fun a => { a with scanPending := some h } else s, status := .accepted }
  apply h s := if cfgBit h.cmd then startScan h s else stopScan h s

def execAhmScanStart (cmd : Cmd) (s : State) : Host.Outcome State Fault Refusal := .next (accept specAhmScan cmd s)
def execAhmScanAbort (cmd : Cmd) (s : State) : Host.Outcome State Fault Refusal := .next (accept specAhmScan cmd s)

/-- The word of a defect entry (R313). -/
def DefEntry.word (e : DefEntry) : Nat := e.kind.toNat * 2 ^ 30 + e.row.toNat * 2 ^ 13 + e.col.toNat

/-- An entry is put before the first that it precedes by ROW and COL. -/
def insertDefect (e : DefEntry) : List DefEntry → List DefEntry
  | [] => [e]
  | x :: xs => if e.row.toNat * 8192 + e.col.toNat < x.row.toNat * 8192 + x.col.toNat then e :: x :: xs else x :: insertDefect e xs

/-- A map in ascending ROW and COL. -/
def sortDefects (m : List DefEntry) : List DefEntry := m.foldl (fun xs e => insertDefect e xs) []

def specAhmDefectRead : OpSpec where
  op := 0x0612
  cls := [clsArray]
  len := lenIs 8
  check c s := checks [rsv c 4 4, bufChecks c 0 s,
    badAt c 0 (decide (bufSize (BitVec.ofNat 32 (u32 (Cmd.payload c) 0)) s < 4 + 4 * (s.arr c.tindex.toNat).map.length)), memBusy s]
  effect h s :=
    let m := (s.arr h.cmd.tindex.toNat).map
    match findBuf (BitVec.ofNat 32 (u32 (Cmd.payload h.cmd) 0)) s with
    | none => { st := s }
    | some b => { st := bufStore { port := 9 } b 0 (leBytes 4 m.length ++ (sortDefects m).flatMap fun e => leBytes 4 e.word) s }

def execAhmDefectRead (cmd : Cmd) (s : State) : Host.Outcome State Fault Refusal := .next (accept specAhmDefectRead cmd s)

def specAhmPark : OpSpec where
  op := 0x0613
  cls := [clsArray]
  len := lenIs 4
  owners := ownPortIdx
  boundary := true
  check c s :=
    let st := (s.arr c.tindex.toNat).st
    checks [rsvBits c 0 0xFE, rsv c 1 3, busyIf (st != .present && st != .parked)]
  effect _ s := { st := s, status := .accepted, sole := true }
  apply h s :=
    let p := h.cmd.tindex.toNat
    sendCtrl p 0x22 (b2n (cfgBit h.cmd)) (s.onArr p fun a => { a with parkWait := a.parkWait ++ [{ h with sole := true }] })

def execAhmPark (cmd : Cmd) (s : State) : Host.Outcome State Fault Refusal := .next (accept specAhmPark cmd s)
def execAhmParkRelease (cmd : Cmd) (s : State) : Host.Outcome State Fault Refusal := .next (accept specAhmPark cmd s)

end Sys2Proof.Machine
end

