-- ==== Sys2Proof/Machine/Hosts.lean ====
section
/-!
DEFINITION. Hosts (spec/13): sessions, ownership, the journal, the command processors, ingest transfers with the decryption
of R483, BAR2 accesses, and the events of the PCIe functions.
-/
namespace Sys2Proof.Machine

/-! ## Sessions (R432, R433) -/

/-- A host's session ends: a SESSION entry with its cause, and its role ends (R433, R479). -/
def endSession (host : HostId) (cause : Nat) (s : State) : State :=
  if (nth s.hif.sess host.toNat).isOpen then
    let s := s.onHif fun x => { x with sess := upd x.sess host.toNat fun q => { q with isOpen := false, lease := false } }
    let s := s.onSec fun x => { x with
      role := upd x.role host.toNat fun _ => 0, index := upd x.index host.toNat fun _ => 0 }
    journalSession host (BitVec.ofNat 32 cause) s
  else s

/-- The session that SESSION_OPEN opens. -/
def openSession (h : Held) (s : State) : State :=
  let b := Cmd.payload h.cmd
  let ms := u16 b 0
  let s := endSession h.cmd.host 1 s
  let s := s.onHif fun x => { x with sess := upd x.sess h.cmd.host.toNat fun q => { q with
    isOpen := true, number := q.number + 1, lease := ms != 0, leaseMs := BitVec.ofNat 16 ms, leaseStart := s.ns
    evRing := BitVec.ofNat 2 (u8 b 2), noEvRing := bitOf (u8 b 2) 7, mask := BitVec.ofNat 16 (u16 b 4) } }
  journalSession h.cmd.host 0 s

def specSessionOpen : OpSpec where
  op := 0x0000
  cls := [clsDevice]
  len := lenIs 8
  absentOk := true
  check c _ :=
    let b := Cmd.payload c
    checks [badAt c 0 (u16 b 0 != 0 && outside 100 60000 (u16 b 0)), badAt c 2 (c.host != 3 && field (u8 b 2) 2 5 != 0),
      rsv c 3 1, badAt c 4 (u16 b 6 != 0)]
  effect h s :=
    let s := openSession h s
    { st := s, detail := (nth s.hif.sess h.cmd.host.toNat).number, result := s.hif.jseq.truncate 32 }

def specSessionClose : OpSpec where
  op := 0x0001
  cls := [clsDevice]
  len := lenIs 0
  check _ _ := none
  effect h s := { st := endSession h.cmd.host 1 s }

def specHeartbeat : OpSpec where
  op := 0x0002
  cls := [clsDevice]
  len := lenIs 0
  check _ _ := none

/-- The host has an open session. -/
def present (o : HostId) (s : State) : Bool := (nth s.hif.sess o.toNat).isOpen

/-- The sender may claim the resource (R435). -/
def mayClaim (c : Cmd) (s : State) : Bool :=
  let o := ownerOf c.tclass c.tindex.toNat s.hif
  let force := bitOf (u8 (Cmd.payload c) 0) 0
  o == 0 || o == c.host || !(present o s) ||
  (force && ((c.host == s.hif.cfgOwner && c.tclass != clsConfig) || c.host == 3))

def specClaim : OpSpec where
  op := 0x0003
  cls := claimable
  len := lenIs 4
  owners c s := if mayClaim c s then [] else [ownerOf c.tclass c.tindex.toNat s.hif]
  check c _ := checks [rsvBits c 0 0xFE, rsv c 1 3]
  effect h s :=
    let k := h.cmd.tclass
    let i := h.cmd.tindex.toNat
    let o := ownerOf k i s.hif
    let s' := s.onHif (setOwner k i h.cmd.host)
    { st := if o != 0 && o != h.cmd.host && present o s then
        sendEvent o 0x0003 (BitVec.ofNat 32 (k.toNat + 65536 * i)) 19 (hifRaise 0x200 s')
      else s' }

def specRelease : OpSpec where
  op := 0x0004
  cls := claimable
  len := lenIs 4
  owners := ownTarget
  check c s :=
    let n := u8 (Cmd.payload c) 0
    checks [badAt c 0 (3 < n || (n != 0 && !(present (BitVec.ofNat 2 n) s))), rsv c 1 3]
  effect h s :=
    { st := s.onHif (setOwner h.cmd.tclass h.cmd.tindex.toNat (BitVec.ofNat 2 (u8 (Cmd.payload h.cmd) 0))) }

def specEventMaskSet : OpSpec where
  op := 0x0005
  cls := [clsDevice]
  len := lenIs 4
  check c _ := badAt c 0 (u16 (Cmd.payload c) 2 != 0)
  effect h s := { st := s.onHif fun x => { x with
    sess := upd x.sess h.cmd.host.toNat fun q => { q with mask := BitVec.ofNat 16 (u16 (Cmd.payload h.cmd) 0) } } }

/-! ## Command processors (R452) -/

/-- A core is re-initialised: counted, reported and journaled, and its rings pass to the other cores. -/
def resetCore (c : Nat) (s : State) : State :=
  let s := s.onHif fun x => { x with cores := upd x.cores c fun k => { k with
    st := if k.st = .off then .off else .idle, resetCnt := sat k.resetCnt, passed := true } }
  journalAdd { kind := .core, detail := BitVec.ofNat 32 c } (hifRaise 0x20 s)

def specCpReset : OpSpec where
  op := 0x0006
  cls := [clsDevice]
  len := lenIs 4
  owners := ownConfig
  check c _ := checks [badAt c 0 (3 < u8 (Cmd.payload c) 0), rsv c 1 3]
  effect h s := { st := resetCore (u8 (Cmd.payload h.cmd) 0) s }

def execSessionOpen (cmd : Cmd) (s : State) : Host.Outcome State Fault Refusal := .next (accept specSessionOpen cmd s)
def execSessionClose (cmd : Cmd) (s : State) : Host.Outcome State Fault Refusal := .next (accept specSessionClose cmd s)
def execHeartbeat (cmd : Cmd) (s : State) : Host.Outcome State Fault Refusal := .next (accept specHeartbeat cmd s)
def execClaim (cmd : Cmd) (s : State) : Host.Outcome State Fault Refusal := .next (accept specClaim cmd s)
def execRelease (cmd : Cmd) (s : State) : Host.Outcome State Fault Refusal := .next (accept specRelease cmd s)
def execEventMaskSet (cmd : Cmd) (s : State) : Host.Outcome State Fault Refusal := .next (accept specEventMaskSet cmd s)
def execCpReset (cmd : Cmd) (s : State) : Host.Outcome State Fault Refusal := .next (accept specCpReset cmd s)

/-- The command that a core held when it was reset: it had reached no commit, so INTERNAL_ERROR refuses it (R444). -/
def abortCommand (op : BitVec 16) (c : Cmd) (s : State) : State :=
  if deaf c s || !(Cmd.crcOk op c) then s else refuse op c ⟨.internalError, 0⟩ (renewLease c.host (checkSeq c s))

/-- The watchdog of core `c.1` expires; `c.2` is the command on which the core spent more than 1 ms. -/
def execCpWatchdog (c : Fin 4 × Option (BitVec 16 × Cmd)) (s : State) : Host.Outcome State Fault Refusal :=
  .next (if (nth s.hif.cores c.1.val).st == .off then s
    else match c.2 with
      | none => resetCore c.1.val s
      | some q => abortCommand q.1 q.2 (resetCore c.1.val s))

/-- A further core powers on while more than 8 commands await acceptance. -/
def execCpCorePowerOn (c : Fin 4) (s : State) : Host.Outcome State Fault Refusal :=
  .next (if (nth s.hif.cores c.val).st == .off && decide (8 < s.hif.waiting.length) then
    s.onHif fun x => { x with cores := upd x.cores c.val fun k => { k with st := .idle, lastNs := s.ns, passed := false } } else s)

/-- A core other than core 0 powers off after 10 ms without a command. -/
def execCpCoreIdleOff (c : Fin 4) (s : State) : Host.Outcome State Fault Refusal :=
  .next (if c.val ≠ 0 && decide ((nth s.hif.cores c.val).lastNs + 10000000 ≤ s.ns) then
    pruneDoms (s.onHif fun x => { x with cores := upd x.cores c.val fun k => { k with st := .off } }) else s)

/-! ## Journal (R453, R454) -/

/-- KIND of R453. -/
def JKind.code : JKind → Nat
  | .accept => 0 | .complete => 1 | .apply => 2 | .session => 3 | .reset => 4 | .mark => 5 | .core => 6

/-- The 64 bytes of a journal entry (R453). -/
def JEntry.bytes (e : JEntry) : List Byte :=
  let b := leBytes 8 e.jseq.toNat ++ leBytes 8 e.frame.toNat ++ leBytes 8 e.corr.toNat ++ leBytes 8 e.ref.toNat ++
    leBytes 4 e.seq.toNat ++ leBytes 4 (e.tick.toNat + 16777216 * e.kind.code) ++ leBytes 2 e.opcode.toNat ++
    leBytes 2 e.status.code.toNat ++ leBytes 2 e.tclass.toNat ++ leBytes 2 e.tindex.toNat ++ leBytes 2 e.epoch.toNat ++
    leBytes 2 e.epochNow.toNat ++ leBytes 1 (e.host.toNat + 4 * e.ring.toNat) ++ leBytes 1 e.flags.toNat ++ [0, 0] ++
    leBytes 4 e.detail.toNat
  b ++ leBytes 4 (crc32c b).toNat

/-- HIF_JOURNAL_OLDEST: the oldest JSEQ still held. -/
def journalOldest (s : State) : Nat := match s.hif.journal.getLast? with | some e => e.jseq.toNat | none => s.hif.jseq.toNat

/-- The entries a JOURNAL_READ copies: from FROM up to the newest before its own, at most COUNT. -/
def journalCopy (h : Held) (s : State) : List JEntry :=
  let b := Cmd.payload h.cmd
  ((s.hif.journal.reverse.filter fun e => u64 b 0 ≤ e.jseq.toNat && e.jseq.toNat < h.jseq.toNat)).take (u16 b 8)

/-- A copy to host memory and the command's status: HOST_ERROR where the transfer fails, which the command's
JSEQ picks freely. -/
def copyOut (h : Held) (addr : Nat) (bs : List Byte) (detail : Word) (s : State) : Done :=
  if Config.hostWriteFails h.jseq.toNat then { st := s, status := .hostError }
  else { st := s.onHif fun x => { x with outbox := .bytes h.cmd.host addr bs :: x.outbox }, detail := detail }

def specJournalRead : OpSpec where
  op := 0x0D00
  cls := [clsDevice]
  len := lenIs 24
  check c s :=
    let b := Cmd.payload c
    checks [badAny (c.host == 3), badAt c 8 (outside 1 8192 (u16 b 8)), rsv c 10 6, badAt c 16 (u64 b 16 % 64 != 0),
      chk (decide (u64 b 0 < journalOldest s)) ⟨.tooLate, 0⟩]
  effect h s :=
    let es := journalCopy h s
    copyOut h (u64 (Cmd.payload h.cmd) 16) (es.flatMap JEntry.bytes) (BitVec.ofNat 32 es.length) s

def specJournalMark : OpSpec where
  op := 0x0D01
  cls := [clsDevice]
  len := lenIs 4
  check _ _ := none
  effect h s := { st := journalAdd { heldEntry h .mark .done (BitVec.ofNat 32 (u32 (Cmd.payload h.cmd) 0)) s with ref := 0 } s }

def execJournalRead (cmd : Cmd) (s : State) : Host.Outcome State Fault Refusal := .next (accept specJournalRead cmd s)
def execJournalMark (cmd : Cmd) (s : State) : Host.Outcome State Fault Refusal := .next (accept specJournalMark cmd s)

/-- JSEQ of the oldest entry still on its way to MRAM; a number lost with the power (R505) is no entry's. -/
def oldestOnWay (s : State) : BitVec 64 :=
  match (s.hif.journal.filter fun e => decide (s.hif.jhead.toNat < e.jseq.toNat)).getLast? with
  | some e => e.jseq
  | none => s.hif.jseq

/-- The oldest entry still on its way reaches MRAM, and the replies that wait for it are written (R448, R453); a failed write
makes the journal volatile (R454). -/
def execJournalEntryPersisted (ok : Bool) (s : State) : Host.Outcome State Fault Refusal :=
  .next (if s.hif.jseq.toNat ≤ s.hif.jhead.toNat then s
    else if ok then flushReplies (s.onHif fun x => { x with jhead := oldestOnWay s })
    else flushReplies (hifRaise 0x400 (s.onHif fun x => { x with isVolatile := true })))

/-! ## The functions (R428, R429, R451) -/

/-- HIF_READY: the ports answer configuration requests; in RECOVERY they stay in reset (R465). -/
def execHifReady (s : State) : Host.Outcome State Fault Refusal :=
  .next (if s.live && s.mgt.st != .recovery then s.onHif fun x => { x with ready := true } else s)

/-- A base address register's size and type bits: BAR0 and BAR4 64-bit, BAR2 64-bit prefetchable (R426). -/
def barSize (i : Nat) : Nat := if i = 0 then 0x1000000 else if i = 1 then 0x1000000000 else 0x20000
def barType (i : Nat) : Nat := if i = 1 then 0xC else 0x4

/-- The low or high half of base address register i of function h, as a configuration read returns it. -/
def barWord (h i : Nat) (high : Bool) (s : State) : Word :=
  let v := (nth (nth s.hif.pcie h).bars i).toNat + barType i
  BitVec.ofNat 32 (if high then v / 4294967296 else v)

/-- Half of a base address register is written: the address bits below its size stay 0. -/
def barWrite (h i : Nat) (high : Bool) (v : Word) (s : State) : State :=
  let b := (nth (nth s.hif.pcie h).bars i).toNat
  let w := if high then b % 4294967296 + 4294967296 * v.toNat else b / 4294967296 * 4294967296 + v.toNat
  s.onHif fun x => { x with pcie := upd x.pcie h fun f => { f with bars := upd f.bars i fun _ => (BitVec.ofNat 64 (w / barSize i * barSize i)) } }

/-- How a port answers a configuration request (R428). -/
inductive ConfigAnswer where
  | retry
  | served
  deriving DecidableEq, Repr

/-- Configuration Request Retry Status until HIF_STATUS.READY is 1. -/
def configAnswer (s : State) : ConfigAnswer := if s.hif.ready then .served else .retry

/-- A function goes down (R429): its rings are disabled, and with `clear` its BAR4 registers reset (R456); unaccepted entries
are discarded, replies are not delivered, and the session ends. -/
def pcieDown (h : Nat) (clear : Bool) (s : State) : State :=
  let host : HostId := BitVec.ofNat 2 (h + 1)
  let s := s.onHif fun x => { x with
    pcie := upd x.pcie h fun f =>
      if clear then {}
      else { f with
        crings := f.crings.map fun r => { r with cfg := r.cfg &&& ~~~0x10, head := 0, tail := 0, waitFence := false, waitReply := false, lastSeq := none }
        rrings := f.rrings.map fun r => { r with cfg := r.cfg &&& ~~~0x10, tail := 0, phase := true, hostHead := 0 } }
    waiting := x.waiting.filter fun w => w.cmd.host != host
    replyQ := x.replyQ.filter fun r => r.host != host
    sess := upd x.sess (h + 1) fun q => { q with muted := x.jseq } }
  endSession host 3 s

def execFlr (h : Fin 2) (s : State) : Host.Outcome State Fault Refusal := .next (pcieDown h.val true s)
/-- PERST_N: the port's PERST_N is asserted, which also switches its domain off (R29); DOMAIN_SWITCH_ON brings it back. Without VIO33
the input is ignored (R557). -/
def execPerstN (h : Fin 2) (s : State) : Host.Outcome State Fault Refusal :=
  .next (if !(railOn 0 s) then s
    else pcieDown h.val true (s.onPwr fun p => { p with doms := p.doms &&& ~~~(bit1 144 (132 + h.val)) }))
def execDlDown (h : Fin 2) (s : State) : Host.Outcome State Fault Refusal :=
  .next (pcieDown h.val false s)

/-- The 10 µs of a vector end, and a held message that is not masked is sent (R451). -/
def execMsixCoalesceExpire (h : Fin 2) (vec : Fin 64) (s : State) : Host.Outcome State Fault Refusal :=
  let f := nth s.hif.pcie h.val
  let v := vec.val
  .next (if f.coalescing.getLsbD v && decide (nth f.sentNs v + 10000 ≤ s.ns) then
    let s := s.onHif fun x => { x with pcie := upd x.pcie h.val fun f => { f with coalescing := f.coalescing &&& ~~~(bit1 64 v) } }
    if f.pendingBits.getLsbD v && !((nth f.msixTable (4 * v + 3)).getLsbD 0) then
      msix h.val v (s.onHif fun x => { x with pcie := upd x.pcie h.val fun f => { f with pendingBits := f.pendingBits &&& ~~~(bit1 64 v) } })
    else s
    else s)

/-- A lease runs out (R433). -/
def execLeaseExpire (h : Fin 3) (s : State) : Host.Outcome State Fault Refusal :=
  let host := h.val + 1
  let q := nth s.hif.sess host
  .next (if q.isOpen && q.lease && decide (q.leaseStart + q.leaseMs.toNat * 1000000 ≤ s.ns) then
    let s := s.onHif fun x => { x with sess := upd x.sess host fun q => { q with lapseCnt := sat q.lapseCnt } }
    endSession (BitVec.ofNat 2 host) 2 (hifRaise (bit1 11 (6 + h.val)) s)
    else s)

/-! ## Ingest (BUF_INGEST, R483) -/

/-- The fields of a BUF_INGEST. -/
def ingestDecrypt (c : Cmd) : Bool := bitOf (u8 (Cmd.payload c) 4) 1
def ingestSignal (c : Cmd) : Bool := bitOf (u8 (Cmd.payload c) 4) 0
def ingestKey (c : Cmd) : Nat := u8 (Cmd.payload c) 5
def ingestOfs (c : Cmd) : Nat := u64 (Cmd.payload c) 8
def ingestLen (c : Cmd) : Nat := u64 (Cmd.payload c) 24

def specBufIngest : OpSpec where
  op := 0x0909
  cls := [clsBuffer]
  len := lenIs 32
  owners c s := match cmdBuf c s with | some b => if b.shared && c.host != 3 then [] else [b.owner] | none => []
  check c s :=
    let b := Cmd.payload c
    let q := cmdBuf c s
    checks [badAny (c.host == 3), badAt c 0 q.isNone, rsvBits c 4 0xFC,
      badAt c 5 (if ingestDecrypt c then 63 < u8 b 5 else u8 b 5 != 0), rsv c 6 2, badAt c 8 (u64 b 8 % 64 != 0),
      badAt c 16 (u64 b 16 % 64 != 0), badAt c 24 (u64 b 24 % 64 != 0 || outside 64 4294967296 (u64 b 24)),
      badAt c 24 (match q with | some x => decide (x.size < u64 b 8 + u64 b 24) | none => true),
      bufChecks c 0 s, memBusy s, busyIf (scanLocked (BitVec.ofNat 32 (u32 b 0)) s),
      chk (match q with | some x => x.isProtected != ingestDecrypt c | none => true) ⟨.securityDenied, 0⟩]
  effect h s :=
    { st := (s.onHif fun x => { x with ingests := x.ingests ++ [h] }).onCmp fun c => { c with
        named := BitVec.ofNat 32 (u32 (Cmd.payload h.cmd) 0) :: c.named }
      status := .accepted }

def execBufIngest (cmd : Cmd) (s : State) : Host.Outcome State Fault Refusal := .next (accept specBufIngest cmd s)

/-- How the records of a protected transfer end (R483), with the plaintext of those before the one that fails. -/
inductive Unsealed where
  | plain (bytes : List Byte)
  | tagFail (bytes : List Byte)
  | replay (bytes : List Byte)
  deriving DecidableEq, Repr

/-- The header of a record at the front of `bs` keeps the rules of R483, its counter aside. -/
def recordOk (k : KeySlot) (slot : Nat) (bs : List Byte) : Bool :=
  u16 bs 0 == 1 && u8 bs 2 == slot && u8 bs 3 == 0 && u32 bs 4 % 64 == 0 && 64 ≤ u32 bs 4 && u32 bs 4 ≤ 16777216 &&
  64 + u32 bs 4 ≤ bs.length && slice bs 8 4 == k.ivPrefix && zeros bs 20 28

/-- The records of a transfer, at most `fuel` of them: the plaintext so far `acc`, and the slot with the last counter accepted. -/
def unsealRecs (slot : Nat) : Nat → KeySlot → List Byte → List Byte → KeySlot × Unsealed
  | 0, k, _, acc => (k, .plain acc)
  | fuel + 1, k, bs, acc =>
    if bs.isEmpty then (k, .plain acc)
    else if !(recordOk k slot bs) then (k, .tagFail acc)
    else if u64 bs 12 ≤ k.counter then (k, .replay acc)
    else
      let n := u32 bs 4
      match Config.gcmOpen k.key (slice bs 8 12) (slice bs 0 48) (slice bs 64 n) (slice bs 48 16) with
      | none => (k, .tagFail acc)
      | some p => unsealRecs slot fuel { k with counter := u64 bs 12 } (bs.drop (64 + n)) (acc ++ p)

/-- The sender holds the user role and owns the slot, which is loaded (R483). -/
def mayUnseal (c : Cmd) (s : State) : Bool :=
  let k := nth s.sec.keys (ingestKey c)
  s.sec.st == .operational && nth s.sec.role c.host.toNat == 1 && k.loaded && k.owner == c.host

/-- A transfer failed: what it leaves in its part of the buffer is open. -/
def spoil (c : Cmd) (s : State) : State :=
  match cmdBuf c s with
  | none => s
  | some b => (bufStore { port := 0, enclave := ingestDecrypt c } b (ingestOfs c) ((List.range (ingestLen c)).map (Config.ingestByte s.free)) s).useFree

/-- Bytes of a transfer are written from its offset on, by port 0; those of a protected one carry the enclave engine's tag (R406). -/
def writeIngest (c : Cmd) (bs : List Byte) (s : State) : State :=
  match cmdBuf c s with
  | none => s
  | some b => bufStore { port := 0, enclave := ingestDecrypt c } b (ingestOfs c) bs s

/-- The transfer's bytes are written, and its signal given (R355). -/
def deposit (c : Cmd) (bs : List Byte) (s : State) : State :=
  let s := writeIngest c bs s
  match cmdBuf c s with
  | none => s
  | some b => if ingestSignal c then signalBuf b.handle (· + 1) s else s

/-- MEM_FENCE and BUF_SIGNAL commands whose ingests have all completed do so, in JSEQ order. -/
def settleFences (s : State) : State :=
  s.hif.awaiting.foldl (fun s h =>
    if h.opcode = 0x0906 then (if ingesting h.cmd.host none h.jseq s then s else complete h .done 0 s)
    else if h.opcode = 0x0902 then
      let b := BitVec.ofNat 32 (u32 (Cmd.payload h.cmd) 0)
      if ingesting h.cmd.host (some b) h.jseq s then s else complete h .done 0 (unname b (applySignal h s))
    else s) s

/-- A protected transfer ends: what the good records hold is written, and a failing record ends it (R483). -/
def finishSealed (h : Held) (bs : List Byte) (s : State) : State :=
  let c := h.cmd
  let i := ingestKey c
  let tag (p : List Byte) (s : State) : State :=
    complete h .securityDenied 0 (secRaise 0x20 (writeIngest c p (s.onSec fun x => { x with tagFailCnt := sat x.tagFailCnt })))
  if !(mayUnseal c s) then tag [] s
  else
    let r := unsealRecs i (bs.length / 64 + 1) (nth s.sec.keys i) bs []
    let s := s.onSec fun x => { x with keys := upd x.keys i fun _ => r.1 }
    match r.2 with
    | .plain p => complete h .done 0 (deposit c p s)
    | .tagFail p => tag p s
    | .replay p =>
      complete h .securityDenied 0 (secRaise 0x10 (writeIngest c p (s.onSec fun x => { x with ivReplayCnt := sat x.ivReplayCnt })))

/-- INGEST_TRANSFER_DONE: the oldest transfer of the host ends. A protected one waits while the enclave is in SELFTEST (R477). -/
def execIngestTransferDone (host : Fin 3) (res : IngestResult) (s : State) : Host.Outcome State Fault Refusal :=
  .next (match s.hif.ingests.find? fun h => h.cmd.host.toNat == host.val + 1 with
    | none => s
    | some h =>
      let c := h.cmd
      if ingestDecrypt c && s.sec.st == .selftest then s
      else
        let s := s.onHif fun x => { x with ingests := x.ingests.erase h }
        let s := (match res with
          | .hostError => complete h .hostError 0 (spoil c s)
          | .dataError => complete h .dataError 0 (spoil c s)
          | .data bs =>
            let bs := slice bs 0 (ingestLen c)
            if ingestDecrypt c then finishSealed h bs s else complete h .done 0 (deposit c bs s))
        settleFences (unname (BitVec.ofNat 32 (u32 (Cmd.payload c) 0)) s))

/-! ## BAR2 (R427, R358) -/

/-- The buffer that n bytes at a BAR2 offset of function h reach. -/
def bar2Buf (h off n : Nat) (s : State) : Option (Buffer × Nat) :=
  s.cmp.bufs.findSome? fun b => match b.bar2 with
    | some a => if a ≤ off && off + n ≤ a + b.size && (b.shared || b.owner.toNat == h + 1) then some (b, off - a) else none
    | none => none

/-- BAR2_ACCESS: port 0 reads or writes the bytes (R400); a read that meets an uncorrectable word completes poisoned (R427). -/
def execBar2Access (h : Fin 2) (off : Nat) (acc : Bar2Access) (s : State) : Host.Outcome State Fault Refusal :=
  let host : HostId := BitVec.ofNat 2 (h.val + 1)
  let out (d : List Byte) (s : State) : State := s.onHif fun x => { x with outbox := .readBack host d :: x.outbox }
  let n := match acc with | .read n => n | .write d => d.length
  .next (match bar2Buf h.val off n s, acc with
    | some (b, o), .read n =>
      let f := bufFetch { port := 0 } b o n s
      if f.bad.isEmpty then out f.bytes f.st else f.st.onHif fun x => { x with outbox := .poisoned host :: x.outbox }
    | some (b, o), .write d =>
      if scanLocked b.handle s then cmpRaise 0x2 (s.onCmp fun c => { c with lockDropCnt := sat c.lockDropCnt })
      else bufStore { port := 0 } b o d s
    | none, a =>
      let s := hifRaise 0x2 (s.onHif fun x => { x with bar2DropCnt := sat x.bar2DropCnt })
      match a with
      | .read n => out (List.replicate n 0xFF) s
      | .write _ => s)

end Sys2Proof.Machine
end

