-- ==== Sys2Proof/Machine/Management.lean ====
section
/-!
DEFINITION. The management subsystem (spec/14): boot and image verification, re-initialisation, updates, fuses, the records,
and the commands of group 0x0A.
-/
namespace Sys2Proof.Machine

/-! ## Images (R462 to R464) -/

/-- The header's fields (R463). -/
def imgKey (b : List Byte) : Nat := u8 b 6
def imgSvn (b : List Byte) : Nat := u8 b 7
def imgBody (b : List Byte) : Nat := u32 b 8

/-- The offset of an image's body. -/
def bodyAt : Nat := 29920

/-- The checks of R464. -/
def imageOk (b : List Byte) (m : Mgt) : Bool :=
  u32 b 0 == 0x31414857 && u16 b 4 == 1 && decide (1 ≤ imgBody b) && decide (imgBody b ≤ 2097152) &&
  decide (imgKey b < 4) && !(m.revoked.getLsbD (imgKey b)) && (Config.shake256 (slice b 64 64)).toList == Config.otpKeyHash (imgKey b) &&
  decide (m.fuses ≤ imgSvn b) &&
  Config.slhVerify (slice b 64 64) (slice b 0 128 ++ slice b bodyAt (imgBody b)) (slice b 128 29792)

/-- The index of the running slot, and the image it holds. -/
def runIdx (m : Mgt) : Nat := b2n m.runSlot
def runImage (m : Mgt) : List Byte := (nth m.slots (runIdx m)).bytes

/-- The copy of the slot table that is in force: the one with a good CRC and the higher sequence number (R462). -/
def tableIdx (m : Mgt) : Nat :=
  let a := nth m.tables 0
  let b := nth m.tables 1
  if b.crcGood && (!a.crcGood || decide (a.seq.toNat ≤ b.seq.toNat)) then 1 else 0

/-- The slot table in force; an empty one when neither copy has a good CRC. -/
def tableNow (m : Mgt) : SlotTable := if (nth m.tables (tableIdx m)).crcGood then nth m.tables (tableIdx m) else {}

/-- The slot table's new contents are written to the copy that is not in force (R462). -/
def saveTable (m : Mgt) : Mgt :=
  { m with tables := upd m.tables (1 - tableIdx m) fun _ =>
      { seq := (tableNow m).seq + 1, states := m.slots.map (·.st), preferB := m.preferB } }

/-- The ROM reads the slot table at a cold boot (R466). -/
def loadTable (m : Mgt) : Mgt :=
  { m with
    slots := Vector.ofFn fun i => { m.slots[i] with st := nth (tableNow m).states i.val }
    preferB := (tableNow m).preferB }

/-- The enclave firmware section of an image, which body bytes 0 to 7 name by offset and size (R463). -/
def enclaveSection (b : List Byte) : List Byte := slice b (bodyAt + u32 b bodyAt) (min (u32 b (bodyAt + 4)) (imgBody b))

/-- The firmware integrity test of the enclave (R487): SHAKE256 of its section against ENCLAVE_DIGEST. -/
def enclaveIntact (b : List Byte) : Bool := (Config.shake256 (enclaveSection b)).toList == slice b 16 32

/-- The state of an image slot is changed, and the slot table with it. -/
def setSlot (i : Nat) (f : FlashSlot → FlashSlot) (s : State) : State :=
  s.onMgt fun m => saveTable { m with slots := upd m.slots i f }

/-- A slot fails a check at boot (R464). -/
def failSlot (i : Nat) (s : State) : State :=
  mgtRaise 0x10 ((setSlot i (fun x => { x with st := .invalid }) s).onMgt fun m => { m with
    fallbackCnt := sat m.fallbackCnt
    fault := { m.fault with fallbacks := if m.fault.fallbacks = 255 then 255 else m.fault.fallbacks + 1 } })

/-- An update that a reset or re-initialisation ended completes its command (R470). -/
def endUpdateCmd (s : State) : State :=
  match s.mgt.update, s.mgt.updateCmd with
  | none, some h => complete h .resetAborted 0 (s.onMgt fun m => { m with updateCmd := none })
  | _, _ => s

/-- RECOVERY (R465): the PCIe ports stay in reset. -/
def enterRecovery (s : State) : State :=
  let s := endUpdateCmd (s.onMgt fun m => { m with st := .recovery })
  (pcieDown 1 true (pcieDown 0 true s)).onHif fun x => { x with ready := false }

/-- Sequencing is reached with rails on: they are turned off in reverse order, and the sequence begins 10 ms later (R508). -/
def offRails (s : State) : State :=
  if s.pwr.seqDone || s.pwr.step = 0 then s
  else s.onPwr fun p => { p with step := 0, pgood := 0, railsNs := s.ns + 10000000 }

/-- Stage-1 runs: source 10 becomes inactive (R225, R458), an update that was ended completes, and so does an MGT_REINIT. -/
def enterRun (s : State) : State :=
  let s := endUpdateCmd (flushFull (offRails (dropSource 10 (s.onMgt fun m => { m with st := .run }))))
  completeOpt s.mgt.reinitCmd .done 0 (s.onMgt fun m => { m with reinitCmd := none })

/-- The image of slot i runs from SRAM. -/
def runSlotNow (i : Nat) (s : State) : State :=
  logRec 20 4 0 0 (enterRun (s.onMgt fun m => { m with
    runSlot := i == 1, sram := (nth m.slots i).bytes, fault := { m.fault with bootSlot := BitVec.ofNat 1 i } }))

/-- The SRAM copy has the running image's digest (R458). -/
def copyGood (m : Mgt) : Bool := Config.shake256 m.sram == Config.shake256 (runImage m)

/-- The ROM's check of the running slot: the SRAM copy by its digest, and where that differs the slot itself by R464. -/
def restartOk (m : Mgt) : Bool := copyGood m || imageOk (runImage m) m

/-- The slots the ROM tries, in order: the preferred one when it is VALID, then the other when it is. -/
def bootOrder (m : Mgt) : List Nat :=
  (if m.preferB then [1, 0] else [0, 1]).filter fun i => (nth m.slots i).st == .valid

/-- The ROM tries each slot of the list. -/
def tryBoot : List Nat → State → State
  | [], s => enterRecovery s
  | i :: is, s => if imageOk (nth s.mgt.slots i).bytes s.mgt then runSlotNow i s else tryBoot is (failSlot i s)

/-- The boot of a device in which no image has run since PORST_N: the ROM reads the slot table and picks a slot (R464). -/
def coldBoot (s : State) : State :=
  let s := s.onMgt loadTable
  if s.straps.getLsbD 2 then enterRecovery s else tryBoot (bootOrder s.mgt) s

/-- BOOT_IMAGE_VERIFY: at a cold boot the ROM picks a slot; after a warm reset and in a re-initialisation it checks the running slot
(R458), and no other (R467). -/
def execBootImageVerify (s : State) : Host.Outcome State Fault Refusal :=
  .next (if !s.live then s
    else match s.mgt.st with
    | .rom =>
      if s.mgt.warm then
        let s := s.onMgt fun m => { m with warm := false }
        if restartOk s.mgt then runSlotNow (runIdx s.mgt) s else enterRecovery (failSlot (runIdx s.mgt) s)
      else coldBoot s
    | .reinit =>
      if s.mgt.sram.isEmpty then coldBoot s
      else if restartOk s.mgt then s.onMgt fun m => { m with sram := runImage m }
      else enterRecovery (failSlot (runIdx s.mgt) s)
    | _ => s)

/-! ## Re-initialisation (R458 to R460) -/

/-- The subsystem re-initialises, in whatever state it is but HALT: an update in progress ends (R470), and its telemetry is stale
(R460). -/
def reinit (s : State) : State :=
  let s := s.onMgt fun m => { m with st := if m.st = .halt then .halt else .reinit, update := none }
  s.onPwr fun p => { p with items := p.items.map fun i => if i.defined then { i with stale := true } else i }

/-- A mismatch or an SRAM error; the third within 60 s of the first halts the subsystem (R458, R459). -/
def lockstepError (sram : Bool) (s : State) : State :=
  if !s.live || s.mgt.st == .halt then s
    else
      let ts := (s.mgt.mismatches.filter fun t => s.ns ≤ t + 60000000000) ++ [s.ns]
      let s := mgtRaise (if sram then 2 else 1) (s.onMgt fun m => { m with
        lockstepCnt := sat m.lockstepCnt, mismatches := ts, sram := if sram then Config.sramLeft m.lockstepCnt.toNat m.sram else m.sram
        fault := { m.fault with lockstep := m.fault.lockstep + 1, lockstepFrame := s.frame } })
      let s := raiseSource 10 (reinit (logRec 20 7 0 0 s))
      if 3 ≤ ts.length then mgtRaise 8 (s.onMgt fun m => { m with st := .halt }) else s

/-- MGT_LOCKSTEP_ERROR. -/
def execMgtLockstepError (sram : Bool) (s : State) : Host.Outcome State Fault Refusal := .next (lockstepError sram s)

/-- MGT_WATCHDOG: the 1 s watchdog expires. -/
def execMgtWatchdog (s : State) : Host.Outcome State Fault Refusal :=
  .next (if !s.live || s.mgt.st == .halt then s
    else reinit (mgtRaise 4 (s.onMgt fun m => { m with wdogCnt := sat m.wdogCnt })))

/-- MGT_RUN: stage-1 restarts from an SRAM copy whose digest the ROM has found good (R458). -/
def execMgtRun (s : State) : Host.Outcome State Fault Refusal :=
  .next (if s.mgt.st == .reinit && !s.mgt.sram.isEmpty && copyGood s.mgt then enterRun s else s)

def specMgtReinit : OpSpec where
  op := 0x0A08
  cls := [clsMgt]
  len := lenIs 0
  owners := ownConfig
  check _ _ := none
  effect h s := { st := reinit (s.onMgt fun m => { m with reinitCmd := some h }), status := .accepted }

def execMgtReinit (cmd : Cmd) (s : State) : Host.Outcome State Fault Refusal := .next (accept specMgtReinit cmd s)

/-! ## Updates (R469, R470) -/

/-- The slot an update writes: A in RECOVERY, otherwise the one that does not run. -/
def updateSlot (m : Mgt) : Nat := if m.st = .recovery then 0 else 1 - runIdx m

/-- The owner required in RECOVERY is the sender (R465). -/
def ownUpdate (c : Cmd) (s : State) : List HostId := if s.mgt.st = .recovery then [c.host] else [s.hif.cfgOwner]

def specUpdateBegin : OpSpec where
  op := 0x0A01
  cls := [clsMgt]
  len := lenIs 8
  owners := ownUpdate
  check c s := checks [badAt c 0 (outside 29921 2127072 (u32 (Cmd.payload c) 0)), rsv c 4 4,
    busyIf (s.mgt.update.isSome || s.mgt.updateCmd.isSome)]
  effect h s :=
    let i := updateSlot s.mgt
    { st := (setSlot i (fun _ => { st := .incomplete }) s).onMgt fun m => { m with
        update := some (i, u32 (Cmd.payload h.cmd) 0, []), updateCmd := some h }
      status := .accepted }

def specUpdateData : OpSpec where
  op := 0x0A02
  cls := [clsMgt]
  len n := 9 ≤ n
  owners := ownUpdate
  check c s :=
    let n := Cmd.len c - 8
    checks [rsv c 4 4, busyIf (s.mgt.update.isNone || s.mgt.updateCmd.isSome),
      match s.mgt.update with
      | none => none
      | some u => checks [badAt c 0 (u32 (Cmd.payload c) 0 != u.2.2.length), badAt c 8 (decide (u.2.1 < u.2.2.length + n))]]
  effect h s := { st := s.onMgt fun m => { m with updateCmd := some h }, status := .accepted }

def specUpdateCommit : OpSpec where
  op := 0x0A03
  cls := [clsMgt]
  len := lenIs 4
  owners := ownUpdate
  check c s := checks [rsvBits c 0 0xFE, rsv c 1 3,
    busyIf (s.mgt.updateCmd.isSome || match s.mgt.update with | some u => u.2.2.length != u.2.1 | none => true)]
  effect h s := { st := s.onMgt fun m => { m with updateCmd := some h }, status := .accepted }

def execUpdateBegin (cmd : Cmd) (s : State) : Host.Outcome State Fault Refusal := .next (accept specUpdateBegin cmd s)
def execUpdateData (cmd : Cmd) (s : State) : Host.Outcome State Fault Refusal := .next (accept specUpdateData cmd s)
def execUpdateCommit (cmd : Cmd) (s : State) : Host.Outcome State Fault Refusal := .next (accept specUpdateCommit cmd s)

/-- The update command of the opcode that awaits its completion, with the update. -/
def updating (op : BitVec 16) (s : State) : Option (Held × (Nat × Nat × List Byte)) :=
  match s.mgt.updateCmd, s.mgt.update with
  | some h, some u => if h.opcode = op ∧ (s.mgt.st == .run || s.mgt.st == .recovery) then some (h, u) else none
  | _, _ => none

/-- FLASH_ERASE_DONE: the slot is erased. -/
def execFlashEraseDone (s : State) : Host.Outcome State Fault Refusal :=
  .next (match updating 0x0A01 s with
    | none => s
    | some (h, _) => complete h .done 0 (s.onMgt fun m => { m with updateCmd := none }))

/-- FLASH_WRITE_DONE: the bytes are written and read back; a bad read-back ends the update. -/
def execFlashWriteDone (ok : Bool) (s : State) : Host.Outcome State Fault Refusal :=
  .next (match updating 0x0A02 s with
    | none => s
    | some (h, u) =>
      if ok then
        let d := u.2.2 ++ slice (Cmd.payload h.cmd) 8 (Cmd.len h.cmd - 8)
        complete h .done 0 (s.onMgt fun m => { m with
          slots := upd m.slots u.1 fun x => { x with bytes := d }, update := some (u.1, u.2.1, d), updateCmd := none })
      else complete h .dataError 0 (s.onMgt fun m => { m with update := none, updateCmd := none }))

/-- UPDATE_VERIFY_DONE: R464 has been applied to the slot (R469); in RECOVERY a good image is booted (R465). -/
def execUpdateVerifyDone (s : State) : Host.Outcome State Fault Refusal :=
  .next (match updating 0x0A03 s with
    | none => s
    | some (h, u) =>
      let b := (nth s.mgt.slots u.1).bytes
      let rec' := s.mgt.st == .recovery
      let pref := rec' || bitOf (u8 (Cmd.payload h.cmd) 0) 0
      let good := imageOk b s.mgt
      let s := logRec 20 5 0 0 (s.onMgt fun m => { m with update := none, updateCmd := none })
      if good then
        let s := setSlot u.1 (fun x => { x with st := .valid, svn := imgSvn b }) (s.onMgt fun m => { m with
          preferB := if pref then u.1 == 1 else m.preferB })
        let s := complete h .done 0 s
        if rec' then runSlotNow u.1 s else s
      else complete h .securityDenied 0 (mgtRaise 0x20 (setSlot u.1 (fun x => { x with st := .invalid }) s)))

/-! ## Fuses (R471) -/

def fuseOp (c : Cmd) : Nat := u8 (Cmd.payload c) 0
def fuseIdx (c : Cmd) : Nat := u8 (Cmd.payload c) 1

/-- Key indices not revoked. -/
def liveKeys (m : Mgt) : List Nat := (List.range 4).filter fun i => !(m.revoked.getLsbD i)

/-- VALID slots whose SVN lies below the count are INVALID. -/
def retireSlots (m : Mgt) : Mgt :=
  if m.slots.toList.any fun x => x.st == .valid && decide (x.svn < m.fuses) then
    saveTable { m with slots := m.slots.map fun x => if x.st = .valid ∧ x.svn < m.fuses then { x with st := .invalid } else x }
  else m

def specMgtFuse : OpSpec where
  op := 0x0A04
  cls := [clsMgt]
  len := lenIs 4
  owners := ownConfig
  check c s := checks [badAt c 0 (outside 1 2 (fuseOp c)), badAt c 1 (fuseOp c == 2 && 3 < fuseIdx c), rsv c 2 2,
    busyIf (s.mgt.fuseGoal.isSome || s.mgt.st == .rom ||
      (fuseOp c == 2 && (fuseIdx c == imgKey (runImage s.mgt) || (liveKeys s.mgt) == [fuseIdx c])))]
  effect h s :=
    let goal := imgSvn (runImage s.mgt)
    if (fuseOp h.cmd == 1 && decide (goal ≤ s.mgt.fuses)) || (fuseOp h.cmd == 2 && s.mgt.revoked.getLsbD (fuseIdx h.cmd)) then
      { st := if fuseOp h.cmd == 1 then s.onMgt retireSlots else s }
    else { st := s.onMgt fun m => { m with fuseGoal := some (goal, h) }, status := .accepted, sole := true }

def execMgtFuseAdvance (cmd : Cmd) (s : State) : Host.Outcome State Fault Refusal := .next (accept specMgtFuse cmd s)
def execMgtFuseRevoke (cmd : Cmd) (s : State) : Host.Outcome State Fault Refusal := .next (accept specMgtFuse cmd s)

/-- FUSE_BURN_DONE: one fuse has been burned. -/
def execFuseBurnDone (s : State) : Host.Outcome State Fault Refusal :=
  .next (match s.mgt.fuseGoal with
    | none => s
    | some (goal, h) =>
      let h := { h with sole := true }
      let s := logRec 20 8 0 0 s
      if fuseOp h.cmd == 1 then
        let s := s.onMgt fun m => { m with fuses := m.fuses + 1 }
        if goal ≤ s.mgt.fuses then complete h .done 0 (s.onMgt fun m => retireSlots { m with fuseGoal := none }) else s
      else complete h .done 0 (s.onMgt fun m => { m with fuseGoal := none, revoked := m.revoked ||| bit1 8 (fuseIdx h.cmd) }))

/-! ## Records (R468, R474, R475) -/

/-- The ALLOT part of a boot configuration, as a LINK_ALLOT payload. -/
def bootPart (c : Cmd) : Cmd := { c with flags := 0, plen := 32, inl := slice (Cmd.payload c) 4 32 }

def specMgtBootcfgSet : OpSpec where
  op := 0x0A05
  cls := [clsMgt]
  len := lenIs 36
  owners := ownConfig
  check c _ :=
    let b := Cmd.payload c
    checks [badAt c 0 (3 < u8 b 0), rsvBits c 1 0xFE, rsv c 2 2,
      if bitOf (u8 b 1) 0 then
        match allotShape (bootPart c) with
        | none => none
        | some r => if r.detail = 0xFFFFFFFF then some r else badAt c (r.detail.toNat - 32 + 4) true
      else checks ((List.range 4).map fun p => checks [rsvBits c (4 + 8 * p) 0xFE, rsv c (9 + 8 * p) 1])]
  effect h s :=
    let b := Cmd.payload h.cmd
    { st := s.onMgt fun m => { m with
        bootOwner := some (BitVec.ofNat 2 (u8 b 0)), bootAllot := if bitOf (u8 b 1) 0 then some (slice b 4 32) else none } }

def execMgtBootcfgSet (cmd : Cmd) (s : State) : Host.Outcome State Fault Refusal := .next (accept specMgtBootcfgSet cmd s)

/-- BOOT_ALLOTMENT: the boot configuration's allotment, as a LINK_ALLOT from host 0 (R468). -/
def execBootAllotment (s : State) : Host.Outcome State Fault Refusal :=
  .next (match s.mgt.allotNow with
    | none => s
    | some b =>
      if s.mgt.allotMade || s.mem.st != .ready || s.glk.pending.isSome then s
      else
        let c : Cmd := { host := 0, tclass := clsLink, plen := 32, inl := b }
        let h := heldOf specLinkAllot c s
        let s := journalAdd (heldEntry h .accept .accepted 0 s) (s.onMgt fun m => { m with allotMade := true })
        holdCmd specLinkAllot h (specLinkAllot.effect h s))

/-- The 32 bytes of an event-log record (R475). -/
def LogRec.bytes (r : LogRec) : List Byte :=
  let data := if r.code = 1 then leBytes 4 r.off.toNat ++ leBytes 4 r.bits.toNat ++ leBytes 4 0
    else leBytes 12 (Config.logData r.code.toNat r.lseq.toNat).toNat
  let b := leBytes 4 r.lseq.toNat ++ leBytes 4 r.frame.toNat ++
    leBytes 4 (r.tick.toNat + 2 ^ 24 * (Config.severity r.code.toNat r.off.toNat r.bits.toNat).toNat + 2 ^ 27 * r.vec.toNat) ++
    leBytes 2 r.code.toNat ++ [0, 0] ++ data
  b ++ leBytes 4 (crc32c b).toNat

/-- The 64 bytes of the fault record (R474). -/
def FaultRec.bytes (f : FaultRec) : List Byte :=
  let ranks := ((List.range 4).map fun r => (nth f.rank r).toNat * 4 ^ r).sum
  let b := leBytes 4 1 ++ leBytes 1 ranks ++ leBytes 3 0 ++ leBytes 8 f.thermalFrame.toNat ++
    leBytes 4 (f.thermalSensor.toNat + 256 * f.thermalPeak.toNat) ++ leBytes 4 f.lockstep.toNat ++ leBytes 8 f.lockstepFrame.toNat ++
    leBytes 4 f.tamper.toNat ++ leBytes 4 (f.bootSlot.toNat + 256 * f.fallbacks.toNat) ++ leBytes 20 0
  b ++ leBytes 4 (crc32c b).toNat

/-- The oldest LSEQ held. -/
def logOldest (s : State) : Nat := match s.mgt.log.getLast? with | some r => r.lseq.toNat | none => s.mgt.logSeq.toNat + 1

/-- The bytes that an MGT_READ copies. -/
def mgtReadBytes (c : Cmd) (s : State) : List Byte :=
  let b := Cmd.payload c
  let from' := u64 b 8
  let n := u32 b 16
  match u8 b 0 with
  | 0 => ((s.mgt.log.reverse.filter fun r => from' ≤ r.lseq.toNat).take n).flatMap LogRec.bytes
  | 1 => (s.mgt.fault.bytes.drop from').take n
  | _ => (Config.certChain.drop from').take n

def specMgtRead : OpSpec where
  op := 0x0A06
  cls := [clsMgt]
  len := lenIs 32
  check c s :=
    let b := Cmd.payload c
    checks [badAny (c.host == 3), badAt c 0 (2 < u8 b 0), rsv c 1 7, rsv c 20 4, badAt c 24 (u64 b 24 % 64 != 0),
      chk (u8 b 0 == 0 && decide (u64 b 8 < logOldest s) && decide (1 < logOldest s)) ⟨.tooLate, 0⟩]
  effect h s :=
    copyOut h (u64 (Cmd.payload h.cmd) 24) (mgtReadBytes h.cmd s) 0 s

def execMgtRead (cmd : Cmd) (s : State) : Host.Outcome State Fault Refusal := .next (accept specMgtRead cmd s)

def specMgtFaultClear : OpSpec where
  op := 0x0A07
  cls := [clsMgt]
  len := lenIs 4
  owners := ownConfig
  check c _ := badAt c 0 (31 < u32 (Cmd.payload c) 0)
  effect h s :=
    let k := u32 (Cmd.payload h.cmd) 0
    { st := s.onMgt fun m =>
        let ranks := Vector.ofFn fun i => if bitOf k i.val then 0 else nth m.fault.rank i.val
        { m with fault := if bitOf k 4 then { rank := ranks } else { m.fault with rank := ranks } } }

def execMgtFaultClear (cmd : Cmd) (s : State) : Host.Outcome State Fault Refusal := .next (accept specMgtFaultClear cmd s)

/-- EVENT_LOG_FLUSH: the log reaches the flash ring every 10 s (R475). -/
def execEventLogFlush (s : State) : Host.Outcome State Fault Refusal :=
  .next (if s.mgt.st == .run then flushLog s else s)

end Sys2Proof.Machine
end

