-- ==== Sys2Proof/Machine/Enclave.lean ====
section
/-!
DEFINITION. The security enclave (spec/14): its states, roles and keys, its services, tamper detection and zeroisation, and
the commands of group 0x0B.
-/
namespace Sys2Proof.Machine

/-! ## Checks that the enclave makes for a service (R478) -/

def denied (bad : Bool) : Option Refuse := chk bad ⟨.securityDenied, 0⟩

/-- The sender's role: 1 user, 2 crypto officer. -/
def roleOf (c : Cmd) (s : State) : BitVec 2 := nth s.sec.role c.host.toNat

/-- The service is not offered to host 3. -/
def notHost3 (c : Cmd) : Option Refuse := badAny (c.host == 3)

/-- The service needs the state OPERATIONAL and a role. -/
def needRole (r : BitVec 2) (c : Cmd) (s : State) : Option Refuse := denied (s.sec.st != .operational || roleOf c s != r)

/-- The enclave is past its self-tests and not in ERROR. -/
def secAwake (s : State) : Bool := match s.sec.st with | .selftest | .error => false | _ => true

/-- The DRBG is seeded from the entropy source, and its requests and its 24 h begin again (R481). -/
def seedDrbg (s : State) : State :=
  s.onSec fun x => { x with
    drbgState := Config.drbgSeed x.drbgState (Config.entropy x.drbgIdx), drbgIdx := x.drbgIdx + 1, drbgReq := 0, drbgNs := s.ns }

/-- The next 32 bytes of the DRBG, and the state after their use; the 2^20th request is followed by a reseed (R481). -/
def drbgNext (s : State) : List Byte × State :=
  let t := s.onSec fun x => { x with drbgState := Config.drbgStep x.drbgState, drbgReq := x.drbgReq + 1 }
  ((Config.drbg s.sec.drbgState).toList, if 1048576 ≤ t.sec.drbgReq then seedDrbg t else t)

/-- The keys that a power-up derives (R480): the device identity key, and the storage key under the BBRAM secret. -/
def deriveKeys (x : Sec) : Sec :=
  { x with
    identity := (Config.shake256 (Config.puf ++ Config.otpSeed)).toList
    storageKey := if x.bbramValid then (Config.shake256 (Config.puf ++ x.bbram)).toList else [] }

/-! ## Clearing (R480, R489) -/

/-- A key slot is zeroised: its role epoch moves on when it held a key (R482). -/
def clearSlot (k : KeySlot) : KeySlot := { epoch := if k.loaded then k.epoch + 1 else k.epoch }

/-- Services in progress end without a result. -/
def endServices (s : State) : State :=
  s.sec.services.foldl (fun s h => complete h .securityDenied 0 s) (s.onSec fun x => { x with services := [] })

/-- Content keys, contexts, nonces and roles are cleared. -/
def clearKeys (s : State) : State :=
  s.onSec fun x => { x with
    keys := x.keys.map clearSlot, kem := Vector.replicate 4 none, nonce := Vector.replicate 4 none
    role := Vector.replicate 4 0, index := Vector.replicate 4 0 }

/-- Zeros over the protected memory: buffers, stores of protected views and their canvases (R484, R489). -/
def fillProtected (s : State) : State := wipePictures (wipeBuffers (fun b => b.isProtected) s)

/-- Every protected buffer becomes LOST by R424. -/
def loseProtected (s : State) : State :=
  let bs := s.cmp.bufs.filter fun b => b.isProtected
  let s := s.onCmp fun c => { c with bufs := c.bufs.map fun b => if b.isProtected then { b with lost := true } else b }
  let s := bs.foldl (fun s b => sendEvent b.owner 0x0002 b.handle 18 (s.onMem fun m => { m with lostCnt := sat m.lostCnt })) s
  if bs.isEmpty then s else memRaise 0x100 s

/-- Zeroisation (R489), with the sealed store unreadable from then on (R480). The identity key is derived again, and the DRBG
instantiated again. A zeroisation that falls in SELFTEST pends until its tests pass, and ERROR stays (R477, R535). -/
def zeroise (s : State) : State :=
  let s := clearKeys (endServices s)
  let s := s.onSec fun x =>
    let y := { x with
      st := if x.st = .selftest ∨ x.st = .error then x.st else .zeroised
      bbramValid := false, bbram := [], drbgState := [], zeroPending := true, zeroCnt := sat x.zeroCnt
      users := Vector.replicate 16 none, markRequired := false, loopMask := 0xF }
    if x.st = .selftest then { y with identity := [], storageKey := [] } else deriveKeys y
  let s := if s.sec.st = .selftest then s else seedDrbg s
  secRaise 0x81 (loseProtected (fillProtected s))

/-- A tamper of the given cause (R489): on VBAT it clears the BBRAM secret, and the fuse burns at the next power-up. EXTEST
burns no fuse. -/
def tamper (cause : Nat) (s : State) : State :=
  let fuse := cause != 7
  let s := s.onSec fun x => { x with tamperCause := x.tamperCause ||| bit1 8 cause }
  if s.powered then
    let s := zeroise (s.onSec fun x => { x with tamperFuse := x.tamperFuse || fuse })
    let s := s.onMgt fun m => { m with fault := { m.fault with tamper := s.sec.tamperCause.setWidth 32 } }
    logRec 21 6 0 0 s
  else s.onSec fun x => { x with bbramValid := false, bbram := [], zeroPending := true, fusePend := x.fusePend || fuse }

/-- ERROR (R477), with its cause and sticky bit. It offers no service but ends no role and zeroises no key (R479, R480). -/
def secError (cause : BitVec 2) (bit : BitVec 9) (s : State) : State :=
  if s.sec.st = .error then secRaise bit s
  else secRaise bit ((endServices s).onSec fun x => { x with st := .error, errorCause := cause })

/-! ## Self-tests and the entropy source (R477, R481, R487) -/

/-- ENCLAVE_SELFTEST_DONE: the pre-operational tests end. `pass` is the outcome of the known-answer and entropy tests; the firmware
integrity test is that of the image in SRAM (R487). The keys of a power-up are derived, and the DRBG is instantiated. -/
def execEnclaveSelftestDone (pass : Bool) (s : State) : Host.Outcome State Fault Refusal :=
  .next (if !s.live || s.sec.st != .selftest then s
    else if !(pass && enclaveIntact s.mgt.sram) then secError 1 0x2 s
    else (seedDrbg s).onSec fun x => { deriveKeys x with
      st := if x.zeroPending then .zeroised else if x.officers.isEmpty then .provision else .operational })

def execPeriodicSelftest (pass : Bool) (s : State) : Host.Outcome State Fault Refusal :=
  .next (if !s.live || pass || !(secAwake s) then s else secError 1 0x2 s)

/-- DRBG_RESEED: after 2^20 requests or 24 h (R481). -/
def execDrbgReseed (s : State) : Host.Outcome State Fault Refusal :=
  .next (if s.live && secAwake s && (decide (1048576 ≤ s.sec.drbgReq) || decide (s.sec.drbgNs + 86400000000000 ≤ s.ns)) then
    seedDrbg s else s)

def execEntropyFailure (s : State) : Host.Outcome State Fault Refusal := .next (if s.live then secError 3 0x100 s else s)

/-! ## Login (R479) -/

def specSecChallenge : OpSpec where
  op := 0x0B00
  cls := [clsEnclave]
  len := lenIs 0
  check _ s := denied (s.sec.st != .operational && s.sec.st != .zeroised)
  effect h s :=
    let r := drbgNext s
    { st := r.2.onSec fun x => { x with
        nonce := upd x.nonce h.cmd.host.toNat fun _ => some r.1, nonceNs := upd x.nonceNs h.cmd.host.toNat fun _ => s.ns } }

/-- The digest enrolled for a role and index. -/
def enrolled (role index : Nat) (s : State) : Option (List Byte) :=
  if role = 2 then s.sec.officers[index]? else if index < 16 then nth s.sec.users index else none

/-- The login verifies (R479, steps 3 and 4). -/
def loginOk (c : Cmd) (n : List Byte) (s : State) : Bool :=
  let b := Cmd.payload c
  let key := slice b 4 64
  let msg := n ++ leBytes 1 c.host.toNat ++ leBytes 4 (nth s.hif.sess c.host.toNat).number.toNat ++ leBytes 1 (u8 b 0)
  (s.sec.st == .operational || u8 b 0 == 2) && enrolled (u8 b 0) (u8 b 1) s == some (Config.shake256 key).toList &&
  Config.slhVerify key msg (slice b 68 29792)

/-- 60 s in ns. -/
def lockoutNs : Nat := 60000000000

/-- The host's 60 s of refusals run (R479). -/
def lockedOut (h : Nat) (s : State) : Bool := decide (s.ns < nth s.sec.lockout h)

/-- The host's nonce, while its 10 s run (R479). -/
def nonceOf (h : Nat) (s : State) : Option (List Byte) := if s.ns < nth s.sec.nonceNs h + 10000000000 then nth s.sec.nonce h else none

def specSecLogin : OpSpec where
  op := 0x0B01
  cls := [clsEnclave]
  len := lenIs 29860
  check c s :=
    let h := c.host.toNat
    checks [notHost3 c, badAt c 0 (2 < u8 (Cmd.payload c) 0), rsv c 2 2,
      denied (s.sec.st != .operational && s.sec.st != .zeroised),
      busyIf (lockedOut h s || (u8 (Cmd.payload c) 0 != 0 && (nonceOf h s).isNone))]
  effect h s :=
    let b := Cmd.payload h.cmd
    let i := h.cmd.host.toNat
    let put (r x : Nat) (s : State) : State := s.onSec fun y => { y with
      role := upd y.role i fun _ => BitVec.ofNat 2 r, index := upd y.index i fun _ => BitVec.ofNat 4 x }
    if u8 b 0 = 0 then { st := put 0 0 s }
    else
      let n := (nonceOf i s).getD []
      let s' := s.onSec fun x => { x with nonce := upd x.nonce i fun _ => none }
      if loginOk h.cmd n s then
        { st := (put (u8 b 0) (u8 b 1) s').onSec fun x => { x with failRun := upd x.failRun i fun _ => 0 } }
      else
        let run := nth s.sec.failRun i + 1
        { st := secRaise 0x8 (s'.onSec fun x => { x with
            authFailCnt := sat x.authFailCnt, failRun := upd x.failRun i fun _ => if run = 3 then 0 else run
            lockout := upd x.lockout i fun t => if run = 3 then s.ns + lockoutNs else t })
          status := .securityDenied }

def execSecChallenge (cmd : Cmd) (s : State) : Host.Outcome State Fault Refusal := .next (accept specSecChallenge cmd s)
def execSecLogin (cmd : Cmd) (s : State) : Host.Outcome State Fault Refusal := .next (accept specSecLogin cmd s)

/-- NONCE_EXPIRE: the 10 s of a host's nonce end (R479). -/
def execNonceExpire (h : Fin 3) (s : State) : Host.Outcome State Fault Refusal :=
  .next (if (nonceOf (h.val + 1) s).isNone then s.onSec fun x => { x with nonce := upd x.nonce (h.val + 1) fun _ => none } else s)

/-- LOGIN_LOCKOUT_END: the 60 s after a host's third failure end (R479). -/
def execLoginLockoutEnd (h : Fin 3) (s : State) : Host.Outcome State Fault Refusal :=
  .next (if lockedOut (h.val + 1) s then s else s.onSec fun x => { x with lockout := upd x.lockout (h.val + 1) fun _ => 0 })

/-- The decapsulation and encapsulation keys of a context, for 60 s unused (R480). -/
def kemOf (i : Nat) (s : State) : Option (List Byte × List Byte) :=
  if s.ns < nth s.sec.kemNs i + 60000000000 then nth s.sec.kem i else none

/-- KEM_CONTEXT_EXPIRE: a context has been unused for 60 s (R480). -/
def execKemContextExpire (ctx : Fin 4) (s : State) : Host.Outcome State Fault Refusal :=
  .next (if (kemOf ctx.val s).isNone then s.onSec fun x => { x with kem := upd x.kem ctx.val fun _ => none } else s)

/-! ## Users and policy -/

def specSecUserSet : OpSpec where
  op := 0x0B02
  cls := [clsEnclave]
  len := lenIs 36
  check c s := checks [notHost3 c, needRole 2 c s, badAt c 0 (15 < u8 (Cmd.payload c) 0), rsvBits c 1 0xFE, rsv c 2 2]
  effect h s :=
    let b := Cmd.payload h.cmd
    { st := s.onSec fun x => { x with
        users := upd x.users (u8 b 0) fun _ => if bitOf (u8 b 1) 0 then some (slice b 4 32) else none } }

def specSecPolicySet : OpSpec where
  op := 0x0B03
  cls := [clsEnclave]
  len := lenIs 4
  check c s := checks [notHost3 c, needRole 2 c s, rsvBits c 0 0xFE, rsvBits c 1 0xF0, rsv c 2 2]
  effect h s :=
    let b := Cmd.payload h.cmd
    { st := s.onSec fun x => { x with markRequired := bitOf (u8 b 0) 0, loopMask := BitVec.ofNat 4 (u8 b 1) } }

def specSecMarkSet : OpSpec where
  op := 0x0B08
  cls := [clsEnclave]
  len := lenIs 8
  check c s := checks [notHost3 c, needRole 1 c s, badAt c 4 (outside 1 4096 (u16 (Cmd.payload c) 4)), rsv c 6 2]
  effect h s :=
    let b := Cmd.payload h.cmd
    { st := s.onSec fun x => { x with markNext := some (BitVec.ofNat 32 (u32 b 0), BitVec.ofNat 16 (u16 b 4)) } }

/-- A SEC_MARK_SET applies to the view-frames that start after a boundary (R485). -/
def boundaryMark (s : State) : State :=
  s.onSec fun x => { x with mark := match x.markNext with | some m => some m | none => x.mark, markNext := none }

def execSecUserSet (cmd : Cmd) (s : State) : Host.Outcome State Fault Refusal := .next (accept specSecUserSet cmd s)
def execSecPolicySet (cmd : Cmd) (s : State) : Host.Outcome State Fault Refusal := .next (accept specSecPolicySet cmd s)
def execSecMarkSet (cmd : Cmd) (s : State) : Host.Outcome State Fault Refusal := .next (accept specSecMarkSet cmd s)

/-! ## Content keys (R482) -/

/-- The block that a SEC_KEY_LOAD unwraps, when its tag and FLAGS are good. -/
def unwrapKey (c : Cmd) (s : State) : Option (List Byte) :=
  let b := Cmd.payload c
  match kemOf (u8 b 0) s with
  | none => none
  | some (dk, ek) =>
    let ss := Config.kemDecaps dk (slice b 4 1568)
    let kek := (Config.shake256 (ss ++ (Config.shake256 ek).toList ++ leBytes 1 c.tindex.toNat)).toList
    match Config.gcmOpen kek (slice b 1572 12) [] (slice b 1584 48) (slice b 1632 16) with
    | some p => if u32 p 44 = 1 then some p else none
    | none => none

def specSecKeyLoad : OpSpec where
  op := 0x0B05
  cls := [clsKeyslot]
  len := lenIs 1648
  check c s :=
    let b := Cmd.payload c
    checks [notHost3 c, needRole 1 c s, badAt c 0 (3 < u8 b 0), rsv c 1 3,
      busyIf ((nth s.sec.keys c.tindex.toNat).loaded || (kemOf (u8 b 0) s).isNone), denied (unwrapKey c s).isNone]
  effect h s :=
    let p := (unwrapKey h.cmd s).getD []
    { st := s.onSec fun x => { x with
        kem := upd x.kem (u8 (Cmd.payload h.cmd) 0) fun _ => none
        keys := upd x.keys h.cmd.tindex.toNat fun k =>
          { loaded := true, key := slice p 0 32, owner := h.cmd.host, ivPrefix := slice p 32 4, counter := u64 p 36, epoch := k.epoch + 1 } } }

def specSecKeyZero : OpSpec where
  op := 0x0B06
  cls := [clsKeyslot]
  len := lenIs 0
  check c s :=
    let k := nth s.sec.keys c.tindex.toNat
    checks [notHost3 c, needRole 1 c s, denied (!k.loaded || k.owner != c.host)]
  effect h s := { st := s.onSec fun x => { x with keys := upd x.keys h.cmd.tindex.toNat clearSlot } }

def execSecKeyLoad (cmd : Cmd) (s : State) : Host.Outcome State Fault Refusal := .next (accept specSecKeyLoad cmd s)
def execSecKeyZero (cmd : Cmd) (s : State) : Host.Outcome State Fault Refusal := .next (accept specSecKeyZero cmd s)

/-! ## Services that take time (R486, R487) -/

/-- An accepted service is put to work. -/
def startService (h : Held) (s : State) : Done :=
  { st := s.onSec fun x => { x with services := x.services ++ [h] }, status := .accepted }

def specSecKemGen : OpSpec where
  op := 0x0B04
  cls := [clsEnclave]
  len := lenIs 48
  check c s := checks [notHost3 c, needRole 1 c s, badAt c 0 (3 < u8 (Cmd.payload c) 0), rsv c 1 7]
  effect := startService

def specSecQuote : OpSpec where
  op := 0x0B07
  cls := [clsEnclave]
  len := lenIs 40
  check c s := checks [notHost3 c, denied !(secAwake s)]
  effect := startService

def specSecSelftest : OpSpec where
  op := 0x0B09
  cls := [clsEnclave]
  len := lenIs 0
  check _ s := denied !(secAwake s)
  effect := startService

def specSecProvision : OpSpec where
  op := 0x0B0B
  cls := [clsEnclave]
  len := lenIs 132
  check c s := checks [notHost3 c, badAt c 0 (outside 1 4 (u8 (Cmd.payload c) 0)), rsv c 1 3, busyIf (s.sec.st != .provision)]
  effect := startService

def execSecKemGen (cmd : Cmd) (s : State) : Host.Outcome State Fault Refusal := .next (accept specSecKemGen cmd s)
def execSecQuote (cmd : Cmd) (s : State) : Host.Outcome State Fault Refusal := .next (accept specSecQuote cmd s)
def execSecSelftest (cmd : Cmd) (s : State) : Host.Outcome State Fault Refusal := .next (accept specSecSelftest cmd s)
def execSecProvision (cmd : Cmd) (s : State) : Host.Outcome State Fault Refusal := .next (accept specSecProvision cmd s)

/-- MGT_CAPS0 to MGT_CAPS15 (R472). -/
def capsWordOf (i : Nat) (s : State) : Nat :=
  let m := s.mgt
  let img := runImage m
  let dig := (Config.shake256 (slice img 0 128 ++ slice img bodyAt (imgBody img))).toList
  let w (i : Nat) : Nat :=
    if i = 0 then 0xA1 + b2n s.gradeX * 256
    else if i = 1 then Config.deviceSerial.toNat % 2 ^ 32
    else if i = 2 then Config.deviceSerial.toNat / 2 ^ 32
    else if i = 3 then runIdx m + imgSvn img * 2 ^ 8 + m.fuses % 128 * 2 ^ 16 + m.revoked.toNat % 16 * 2 ^ 23
    else if i = 4 then u32 img 12
    else if i = 5 then s.straps.toNat
    else if 6 ≤ i ∧ i ≤ 13 then u32 dig (4 * (i - 6))
    else 0
  if i = 15 then (crc32c ((List.range 15).flatMap fun i => leBytes 4 (w i))).toNat else w i

/-- States as SEC_STATUS reports them. -/
def SecSt.code : SecSt → Nat
  | .selftest => 0 | .provision => 1 | .operational => 2 | .error => 3 | .zeroised => 4

/-- Slots loaded. -/
def keysLoaded (s : State) : Nat := (s.sec.keys.toList.filter (·.loaded)).length

/-- The body of a quote (R486). -/
def quoteBody (user : List Byte) (s : State) : List Byte :=
  let img := runImage s.mgt
  leBytes 2 1 ++ leBytes 1 s.sec.st.code ++ leBytes 1 (b2n s.sec.tamperFuse + 2 * b2n s.sec.markRequired) ++
  leBytes 4 (capsWordOf 0 s) ++ leBytes 8 Config.deviceSerial.toNat ++
  ((List.range 8).flatMap fun i => leBytes 4 (capsWordOf (6 + i) s)) ++
  leBytes 4 (imgSvn img + 256 * s.mgt.fuses + 65536 * imgKey img + 16777216 * keysLoaded s) ++ leBytes 4 0 ++
  leBytes 8 s.frame.toNat ++ user ++ (Config.shake256 (Config.slhPublic s.sec.identity)).toList

/-- A quote: its body and the 49,856 bytes of its signature, made with the DRBG's next output (R486). -/
def quote (user : List Byte) (s : State) : List Byte :=
  let b := quoteBody user s
  b ++ (Config.slhSign s.sec.identity b (drbgNext s).1).toList

/-- Bytes written to the sender's memory. -/
def toHost (h : Held) (a : Nat) (bs : List Byte) (s : State) : State :=
  s.onHif fun x => { x with outbox := .bytes h.cmd.host a bs :: x.outbox }

/-- A service has done its work (R482, R486, R487). -/
def finishService (h : Held) (s : State) : State :=
  let b := Cmd.payload h.cmd
  if h.opcode = 0x0B04 then
    let k := Config.kemGen (drbgNext s).1
    let ek := k.2.toList
    let s := (drbgNext s).2.onSec fun x => { x with
      kem := upd x.kem (u8 b 0) fun _ => some (k.1, ek), kemNs := upd x.kemNs (u8 b 0) fun _ => s.ns }
    let s' := toHost h (u64 b 40) (ek ++ quote (Config.shake256 (ek ++ slice b 8 32)).toList s) s
    complete h .done 0 (drbgNext s').2
  else if h.opcode = 0x0B07 then complete h .done 0 (drbgNext (toHost h (u64 b 32) (quote (slice b 0 32) s) s)).2
  else if h.opcode = 0x0B0B then
    let ds := (List.range (u8 b 0)).map fun i => slice b (4 + 32 * i) 32
    let secret := (drbgNext s).1
    complete h .done 0 ((drbgNext s).2.onSec fun x => { x with st := .selftest, officers := ds, bbramValid := true, bbram := secret })
  else complete h .done 0 s

/-- ENCLAVE_SERVICE_DONE: the oldest service ends. -/
def execEnclaveServiceDone (res : ServiceResult) (s : State) : Host.Outcome State Fault Refusal :=
  .next (match s.sec.services with
    | [] => s
    | h :: t =>
      let s := s.onSec fun x => { x with services := t }
      match res with
      | .ok => finishService h s
      | .hostError => complete h .hostError 0 s
      | .testFail => secError 1 0x2 (complete h .securityDenied 0 s))

/-! ## Zeroisation and tamper (R488, R489) -/

/-- SEC_ZEROISE with RESUME: a new BBRAM secret, and SELFTEST. -/
def resume (s : State) : State :=
  let secret := (drbgNext s).1
  (drbgNext s).2.onSec fun x => { x with st := .selftest, bbramValid := true, bbram := secret, zeroPending := false, tamperCause := 0 }

def specSecZeroise : OpSpec where
  op := 0x0B0A
  cls := [clsEnclave]
  len := lenIs 4
  check c s := checks [notHost3 c, rsvBits c 0 0xFE, rsv c 1 3,
    denied (roleOf c s != 2 || !(s.sec.st == .operational || (s.sec.st == .zeroised && cfgBit c)))]
  effect h s :=
    let s := zeroise s
    { st := if cfgBit h.cmd then resume s else s }

def execSecZeroise (cmd : Cmd) (s : State) : Host.Outcome State Fault Refusal := .next (accept specSecZeroise cmd s)

/-- The next state of the LFSR x^16 + x^14 + x^13 + x^11 + 1 (R488). -/
def lfsrNext (x : BitVec 16) : BitVec 16 :=
  let b := (x.getLsbD 15 != x.getLsbD 13) != (x.getLsbD 12 != x.getLsbD 10)
  (x <<< 1) ||| (if b then 1 else 0)

/-- TAMPER_SAMPLE: the sense input of a loop against what it drives, and the enclave's temperature in 0.01 °C. A cause that
SEC_TAMPER_CAUSE still shows is not struck again by the same loop or temperature (notes/assumptions/125.md). -/
def execTamperSample (loop : Fin 4) (sense : Bool) (temp : Int) (s : State) : Host.Outcome State Fault Refusal :=
  .next (if !s.powered && !s.pwr.vbatGood then s
    else
      let i := loop.val
      let bad := sense != (nth s.sec.lfsr i).getLsbD 15
      let n := if bad then min 2 (nth s.sec.loopBad i + 1) else 0
      let hit := bad && decide (1 ≤ nth s.sec.loopBad i) && s.sec.loopMask.getLsbD i && !(s.sec.tamperCause.getLsbD i)
      let s := s.onSec fun x => { x with loopBad := upd x.loopBad i (fun _ => n), lfsr := upd x.lfsr i lfsrNext }
      let s := if hit then tamper i s else s
      if (temp < -4500 || 13000 < temp) && !(s.sec.tamperCause.getLsbD 5) then tamper 5 s else s)

/-- SUPPLY_GLITCH. -/
def execSupplyGlitch (s : State) : Host.Outcome State Fault Refusal := .next (if s.powered then tamper 6 s else s)

/-- A TAP instruction other than BYPASS, IDCODE and SAMPLE/PRELOAD (R565). -/
def tapTest (ir : BitVec 8) : Bool := [0x00, 0x03, 0x04, 0x05, 0x06].contains ir.toNat

/-- IDCODE (R565): version 1, part 0x8300, maker field 0x52D. -/
def idCode : BitVec 32 := 0x18300A5B

/-- The register between TDI and TDO: BYPASS for its own code and every code that names no instruction. -/
inductive TapReg where
  | bypass | idcode | boundary
  deriving DecidableEq, Repr

def tapReg (ir : BitVec 8) : TapReg :=
  if ir = 0x01 then .idcode else if [0x00, 0x02, 0x03, 0x04].contains ir.toNat then .boundary else .bypass

/-- What the selected register captures, of the registers whose capture the manual gives. -/
def tapCapture (s : State) : Option (List Bool) :=
  match tapReg s.tapIr with
  | .idcode => some ((List.range 32).map idCode.getLsbD)
  | .bypass => some [false]
  | .boundary => none

/-- JTAG_INSTRUCTION: a test instruction zeroises the enclave and holds the light outputs low (R484, R565). Without VIO18 the TAP's
inputs are ignored (R557). -/
def execJtagInstruction (ir : BitVec 8) (s : State) : Host.Outcome State Fault Refusal :=
  .next (if !(railOn 1 s) then s
    else
      let s := { s with tapIr := ir }
      if tapTest ir then
        let s := (tamper 7 s).onXcl fun x => { x with tapHold := true }
        s.onIll fun i => { i with code := 0, chains := i.chains.map fun c => { c with en := false } }
      else s.onXcl fun x => { x with tapHold := false })

end Sys2Proof.Machine
end

