-- ==== Sys2Proof/Machine/Reset.lean ====
section
/-!
DEFINITION. Reset (R528 to R530, R569, R570): what a cold and a warm reset keep, entry into them and their exit, and the
events of the reset pins. While a reset is held, the state is that of its outputs and of what it keeps.
-/
namespace Sys2Proof.Machine

/-! ## What a warm reset keeps, block by block (R529) -/

/-- Sessions keep their number and counters; replies to earlier commands are no longer delivered. -/
def Session.warm (j : BitVec 64) (q : Session) : Session :=
  { number := q.number, cmdCnt := q.cmdCnt, refuseCnt := q.refuseCnt, badCrcCnt := q.badCrcCnt, lapseCnt := q.lapseCnt, muted := j }

/-- A function's rings are disabled and emptied; its links and its MSI-X table stay. -/
def PcieFn.warm (f : PcieFn) : PcieFn :=
  { f with
    crings := f.crings.map fun r => { r with cfg := r.cfg &&& ~~~0x10, head := 0, tail := 0, waitFence := false, waitReply := false, lastSeq := none }
    rrings := f.rrings.map fun r => { r with cfg := r.cfg &&& ~~~0x10, tail := 0, phase := true, hostHead := 0 } }

/-- Journal, ownership, sticky bits, counters, links. -/
def Hif.warm (x : Hif) : Hif :=
  { ({} : Hif) with
    ready := x.ready, sticky := x.sticky, unmappedCnt := x.unmappedCnt, bar2DropCnt := x.bar2DropCnt, evtDropCnt := x.evtDropCnt
    sess := x.sess.map (Session.warm x.jseq)
    cfgOwner := x.cfgOwner, viewOwner := x.viewOwner, portOwner := x.portOwner, chainOwner := x.chainOwner
    xsetOwner := x.xsetOwner, layerOwner := x.layerOwner, loopOwner := x.loopOwner
    cores := Vector.ofFn fun i => { st := if i.val = 0 then .idle else .off, cmdCnt := x.cores[i].cmdCnt, resetCnt := x.cores[i].resetCnt }
    jseq := x.jseq, jhead := x.jhead, journal := x.journal, resetEnds := x.resetEnds
    pcie := x.pcie.map PcieFn.warm, outbox := x.outbox }

/-- The phase keeper reads UNLOCKED while a reset is held (R569). -/
def timHeld : Tim := { st := .unlocked, src := 0 }

def Tim.warm (x : Tim) : Tim :=
  { timHeld with
    sticky := x.sticky, unlockCnt := x.unlockCnt, holdoverCnt := x.holdoverCnt, refSwitchCnt := x.refSwitchCnt
    settleCnt := x.settleCnt, lockTimeoutCnt := x.lockTimeoutCnt
    cams := x.cams.map fun c => { missCnt := c.missCnt, rejectCnt := c.rejectCnt, lostCnt := c.lostCnt, conflictCnt := c.conflictCnt } }

def Seq.warm (x : Seq) : Seq :=
  { ports := x.ports.map fun q => {
      sticky := q.sticky, repeatCnt := q.repeatCnt, underrunCnt := q.underrunCnt, fallbackCnt := q.fallbackCnt
      nofbCnt := q.nofbCnt, substCnt := q.substCnt, darkCnt := q.darkCnt, reloadCnt := q.reloadCnt } }

def Ill.warm (x : Ill) : Ill :=
  { strobes := x.strobes, sticky := x.sticky, starvedCnt := x.starvedCnt, walkCnt := x.walkCnt, walkFailCnt := x.walkFailCnt
    tableLateCnt := x.tableLateCnt, strOpen := x.strOpen, strShort := x.strShort
    chains := x.chains.map fun c => {
      sticky := c.sticky, respCrcCnt := c.respCrcCnt, rejCnt := c.rejCnt, retryCnt := c.retryCnt
      applySkipCnt := c.applySkipCnt, fltCnt := c.fltCnt }
    drivers := x.drivers.map fun d => { epoch := d.epoch }
    strs := x.strs.map fun t => { faultCnt := t.faultCnt, pulseCnt := t.pulseCnt } }

/-- The engine's domain switches off; a clock that is lost stays lost. -/
def Cle.warm (x : Cle) : Cle :=
  { sticky := x.sticky, clockLost := x.clockLost, loops := x.loops.map fun l => { epoch := l.epoch } }

/-- Every region is off as a new version (R202); the latch stays, with source 11's bit (R238); the levels of the inputs and of the
TAP are not state of the reset. -/
def Xcl.warm (x : Xcl) : Xcl :=
  { ({} : Xcl) with
    latch := x.latch ||| 0x800
    sets := x.sets.map fun v => { (blankVersion v) with cap0 := 0, cap1 := 0 }
    sticky := x.sticky, safeCnt := x.safeCnt, safeTick := x.safeTick, safeCode := x.safeCode, safeFrame := x.safeFrame
    discCnt := x.discCnt, blankIn := x.blankIn, ilockA := x.ilockA, ilockB := x.ilockB, tapHold := x.tapHold
    glyphLoaded := x.glyphLoaded, glyphLost := x.glyphLost }

def Slc.warm (x : Slc) : Slc :=
  { sticky := x.sticky
    stores := x.stores.map fun t => { frameCnt := t.frameCnt, stallCnt := t.stallCnt, dropCnt := t.dropCnt, noframeCnt := t.noframeCnt } }

def Octet.warm (o : Octet) : Octet :=
  { epoch := o.epoch, sticky := o.sticky, lanes := o.lanes.map fun l => { crcCnt := l.crcCnt }
    trainCnt := o.trainCnt, laneDownCnt := o.laneDownCnt, restripeCnt := o.restripeCnt, bcCrcCnt := o.bcCrcCnt
    bcStuffCnt := o.bcStuffCnt, bcLossCnt := o.bcLossCnt, kaCnt := o.kaCnt, ctrlToCnt := o.ctrlToCnt, frameCnt := o.frameCnt }

def Glk.warm (x : Glk) : Glk := { octets := x.octets.map Octet.warm, quads := x.quads }

/-- The record last accepted stays (R303), and with it the map. -/
def Arr.warm (a : Arr) : Arr :=
  { caps := a.caps, capsValid := a.capsValid, map := a.map, mapLost := a.mapLost, mapDirty := a.mapDirty
    sticky := a.sticky, ackCnt := a.ackCnt, mismatchCnt := a.mismatchCnt, disagreeCnt := a.disagreeCnt
    ackMissCnt := a.ackMissCnt, lateCnt := a.lateCnt, strayCnt := a.strayCnt, holdCnt := a.holdCnt, parkCnt := a.parkCnt
    defectNewCnt := a.defectNewCnt, defectLostCnt := a.defectLostCnt, scanCnt := a.scanCnt
    capsRefuseCnt := a.capsRefuseCnt, retrainCnt := a.retrainCnt }

/-- Live buffers stay; a free-pending one has lost its last reference and is gone (R357). -/
def Cmp.warm (x : Cmp) : Cmp :=
  { views := x.views.map fun v => {
      sticky := v.sticky, frameCnt := v.frameCnt, skipCnt := v.skipCnt, deferCnt := v.deferCnt, lateCnt := v.lateCnt
      cullCnt := v.cullCnt, wbCnt := v.wbCnt }
    pipes := x.pipes.map fun p => { epoch := p.epoch }
    bufs := x.bufs.filter fun b => b.freePending.isNone
    gens := (x.bufs.filter fun b => b.freePending.isSome).foldl (fun g b => advanceGen b.handle g) x.gens, sticky := x.sticky, lockDropCnt := x.lockDropCnt }

def Fab.warm (x : Fab) : Fab :=
  { clusters := x.clusters.map fun c => { epoch := c.epoch, bandCnt := c.bandCnt, ceCnt := c.ceCnt, ueCnt := c.ueCnt }
    views := x.views.map fun v => {
      sticky := v.sticky, frameCnt := v.frameCnt, dropCnt := v.dropCnt, unrefCnt := v.unrefCnt, symbLateCnt := v.symbLateCnt
      waitCnt := v.waitCnt }
    clockLost := x.clockLost, sticky := x.sticky, clockLostCnt := x.clockLostCnt }

/-- Layout, rank map, migration and contents stay; a retrain stops, and every rank leaves self-refresh at the exit. -/
def Mem.warm (x : Mem) : Mem :=
  { ({} : Mem) with
    st := x.st, planeRows := x.planeRows, order := x.order, grain := x.grain, spare := x.spare, sticky := x.sticky
    rankMap := x.rankMap, spareRank := x.spareRank, spareValid := x.spareValid, failed := x.failed, fenced := x.fenced, laid := x.laid
    migRow := x.migRow, migSrc := x.migSrc, migDst := x.migDst, migRun := x.migRun
    ports := Vector.ofFn fun i => { (({} : Mem).ports[i]) with
      bytes := x.ports[i].bytes, excessCnt := x.ports[i].excessCnt, promoteCnt := x.ports[i].promoteCnt, ueCnt := x.ports[i].ueCnt }
    pcs := x.pcs.map fun p => { ceCnt := p.ceCnt, ueCnt := p.ueCnt }
    ranks := x.ranks.map fun r => { power := 2, segs := r.segs, ceCnt := r.ceCnt, ueCnt := r.ueCnt }
    ueCnt := x.ueCnt, ceCnt := x.ceCnt, nrrCnt := x.nrrCnt, scrubPassCnt := x.scrubPassCnt, retrainCnt := x.retrainCnt
    poison := x.poison, fenceEvtCnt := x.fenceEvtCnt, protViolCnt := x.protViolCnt, migCnt := x.migCnt, lostCnt := x.lostCnt
    plane := x.plane, general := x.general, reserve := x.reserve }

/-- The ROM runs again, and checks the image that SRAM holds when one has run since PORST_N; an update in progress ends, and its slot
stays INCOMPLETE (R467, R470). -/
def Mgt.warmed (x : Mgt) : Mgt :=
  { x with
    st := .rom, warm := !x.sram.isEmpty
    fuseGoal := none, update := none, updateCmd := none, reinitCmd := none, mismatches := [] }

/-- Keys, contexts, nonces and roles are cleared; the sealed store, OTP and BBRAM stay (R480, R489). -/
def Sec.warm (x : Sec) : Sec :=
  { ({} : Sec) with
    keys := x.keys.map fun k => { epoch := k.epoch }, users := x.users, officers := x.officers
    markRequired := x.markRequired, loopMask := x.loopMask, tamperCause := x.tamperCause, bbramValid := x.bbramValid
    bbram := x.bbram, loopBad := x.loopBad
    zeroPending := x.zeroPending, fusePend := x.fusePend, tamperFuse := x.tamperFuse, lfsr := x.lfsr, drbgIdx := x.drbgIdx
    sticky := x.sticky, authFailCnt := x.authFailCnt, tagFailCnt := x.tagFailCnt, ivReplayCnt := x.ivReplayCnt, zeroCnt := x.zeroCnt }

/-- Rails and the VCORE set point stay. -/
def Pwr.warm (x : Pwr) : Pwr :=
  { x with standby := false, standbyCmd := none, margin := 10, avsRun := 0, items := Vector.replicate 32 {} }

/-- The readings are those of the sensors; a shutdown in force is set again at the first sample (R525). -/
def Thm.warm (x : Thm) : Thm :=
  { temp := x.temp, sensFault := x.sensFault, hotTemp := x.hotTemp, hotSensor := x.hotSensor, noRestart := x.noRestart
    again := x.shutdown || x.again, sticky := x.sticky, warnCnt := x.warnCnt, throttleCnt := x.throttleCnt
    shutdownCnt := x.shutdownCnt, gradientCnt := x.gradientCnt, sensorFaultCnt := x.sensorFaultCnt }

/-- The device while a warm reset is held. A domain that its blocks no longer call for switches off; the enclave's and the PCIe
ports' stay on. -/
def warmState (s : State) : State :=
  pruneDoms { s with
    phase := 0, wrapped := false, raised := []
    hif := s.hif.warm, tim := s.tim.warm, seq := s.seq.warm, ill := s.ill.warm, cle := s.cle.warm, xcl := s.xcl.warm
    slc := s.slc.warm, glk := s.glk.warm, ahm := { s.ahm with arrays := s.ahm.arrays.map Arr.warm }, cmp := s.cmp.warm
    fab := s.fab.warm, mem := s.mem.warm, mgt := s.mgt.warmed, sec := s.sec.warm, pwr := s.pwr.warm, thm := s.thm.warm }

/-! ## What a cold reset keeps (R434, R536) -/

/-- The device while a cold reset is held: journal and its high-water mark, flash, fault record, boot configuration, saved
maps, OTP and BBRAM stay, and the levels of the pins. -/
def coldState (s : State) : State :=
  { ({} : State) with
    pending := s.pending, ns := s.ns, relNs := s.relNs, free := s.free, gradeX := s.gradeX, powered := s.powered
    porst := s.porst, wrst := s.wrst, coldReset := true, straps := s.straps, tapIr := s.tapIr
    hif := { ({} : Hif) with
      jseq := s.hif.jseq, jhead := s.hif.jhead, journal := s.hif.journal, resetEnds := s.hif.resetEnds, outbox := s.hif.outbox }
    tim := timHeld
    ill := { strobes := s.ill.strobes }
    xcl := { ({} : Xcl) with
      safeCnt := 0, blankIn := s.xcl.blankIn, ilockA := s.xcl.ilockA, ilockB := s.xcl.ilockB, tapHold := s.xcl.tapHold }
    glk := { quads := s.glk.quads.map fun q => { bad := q.bad } }
    ahm := { saved := s.ahm.saved }
    cle := { clockLost := s.cle.clockLost }
    fab := { clockLost := s.fab.clockLost }
    mgt := { ({} : Mgt) with
      slots := s.mgt.slots, preferB := s.mgt.preferB, tables := s.mgt.tables, flashLog := s.mgt.flashLog
      flashCnt := s.mgt.flashCnt, fault := s.mgt.fault, fuses := s.mgt.fuses
      revoked := s.mgt.revoked, clkStatus := s.mgt.clkStatus, bootOwner := s.mgt.bootOwner, bootAllot := s.mgt.bootAllot
      log := [], logSeq := 0, logUnflushed := 0 }
    sec := { ({} : Sec) with
      users := s.sec.users, officers := s.sec.officers, markRequired := s.sec.markRequired, loopMask := s.sec.loopMask
      tamperCause := s.sec.tamperCause, bbramValid := s.sec.bbramValid, zeroPending := s.sec.zeroPending
      bbram := s.sec.bbram, loopBad := s.sec.loopBad
      fusePend := s.sec.fusePend, tamperFuse := s.sec.tamperFuse, lfsr := s.sec.lfsr, drbgIdx := s.sec.drbgIdx }
    pwr := { ({} : Pwr) with vin := s.pwr.vin, vbatGood := s.pwr.vbatGood, pgood := s.pwr.pgood, step := s.pwr.step } }

/-! ## Entry -/

/-- Insert a command into a list in JSEQ order. -/
def insertHeld (h : Held) : List Held → List Held
  | [] => [h]
  | x :: xs => if h.jseq.toNat < x.jseq.toNat then h :: x :: xs else x :: insertHeld h xs

/-- The commands whose chapters give them a COMPLETE entry at the reset's exit: scans (R320), updates (R470), fuses and
retraining (R541). -/
def endedByReset (s : State) : List Held :=
  (s.ahm.arrays.toList.flatMap fun a => a.scanRun.toList ++ a.scanPending.toList) ++
  s.mgt.updateCmd.toList ++ (s.mgt.fuseGoal.toList.map (·.2)) ++ s.mem.retrainCmd.toList

/-- A reset lets the fuse that is being burned finish, and no further one (R541). -/
def finishBurn (m : Mgt) : Mgt :=
  match m.fuseGoal with
  | none => m
  | some (_, h) => if fuseOp h.cmd == 1 then { m with fuses := m.fuses + 1 } else { m with revoked := m.revoked ||| bit1 8 (fuseIdx h.cmd) }

/-- Entry into a reset (R528, R530): source 11 is raised and code 0 latched by one ISTB pulse, every session ends (R433) and
every scan is aborted (R320). -/
def enterReset (s : State) : State :=
  let s := if s.xcl.safe then strobe0 (raiseSource 11 s) else raiseSource 11 s
  let s := endSession 3 4 (endSession 2 4 (endSession 1 4 s))
  let s := forN 4 (fun p s => if (s.arr p).scanRun.isSome then ahmRaise p 0x2000 s else s) s
  let s := s.onHif fun x => { x with resetEnds := (endedByReset s).foldl (fun l h => insertHeld h l) x.resetEnds }
  s.onMgt finishBurn

/-- Entry into a warm reset: the protected stores, canvas surfaces and freed buffers that it lets go are overwritten with zeros (R484). -/
def warmEnter (s : State) : State :=
  warmState (wipePictures (wipeBuffers (fun b => b.isProtected && b.freePending.isSome) (enterReset s)))

/-- Entry into a cold reset: of a device that is not already held in reset, its sessions and scans end first. -/
def coldEnter (s : State) : State := coldState (if s.live then enterReset s else s)

/-! ## Exit (R569, R570) -/

/-- Every role epoch moves on by 1 (R570). -/
def bumpEpochs (s : State) : State :=
  { s with
    cmp := { s.cmp with pipes := s.cmp.pipes.map fun p => { p with epoch := p.epoch + 1 } }
    ill := { s.ill with drivers := s.ill.drivers.map fun d => { d with epoch := d.epoch + 1 } }
    cle := { s.cle with loops := s.cle.loops.map fun l => { l with epoch := l.epoch + 1 } }
    xcl := { s.xcl with sets := s.xcl.sets.map fun x => { x with epoch := x.epoch + 1 } }
    glk := { s.glk with octets := s.glk.octets.map fun o => { o with epoch := o.epoch + 1 } }
    fab := { s.fab with clusters := s.fab.clusters.map fun c => { c with epoch := c.epoch + 1 } }
    sec := { s.sec with keys := s.sec.keys.map fun k => { k with epoch := k.epoch + 1 } } }

/-- The clock monitors whose response is Blank (R32). -/
def blankMonitors : BitVec 16 := 0x29F

/-- CONFIG's owner after a cold reset (R434, R468). -/
def bootOwnerOf (s : State) : HostId :=
  match s.mgt.bootOwner with
  | some o => o
  | none => if s.straps.getLsbD 0 then 1 else if s.straps.getLsbD 1 then 2 else 3

/-- Memory after a warm reset: it leaves self-refresh under its stored sets (R467). -/
def memExit (m : Mem) : Mem := restSpare { m with ranks := m.ranks.map fun r => { r with power := 0, segs := 0xFF } }

/-! ## Clock monitors (R32, R33) -/

/-- The response to a bad clock, beside the blank. -/
def clockResponse (m : Nat) (s : State) : State :=
  if m = 0 ∨ m = 3 then
    strobe ((timebaseFault s).onSeq fun q => { q with ports := q.ports.map fun p => if p.enable then { p with st := .dark } else p })
  else if m = 1 then lockstepError false s
  else if m = 2 then s.onIll fun i => { i with strs := i.strs.map fun x => { x with isStale := true } }
  else if m = 5 then fabricClockLost s
  else if m = 7 then engineClock false s
  else if m = 8 then secError 2 0x4 s
  else if m = 9 then
    strobe (s.onSeq fun q => { q with ports := q.ports.map fun p => if p.enable then { p with st := .dark, rows := [] } else p })
  else if m = 10 ∨ m = 11 then
    pcieDown (m - 10) false s
  else if 12 ≤ m then quadFault (m - 12) s
  else s

/-- Monitor m reports a fault: it is recorded by R33 and answered by R32. -/
def clockFault (m : Nat) (s : State) : State :=
  let s := clkRaise (bit1 16 m) (s.onMgt fun x => { x with clkFaultCnt := sat x.clkFaultCnt })
  clockResponse m (if blankMonitors.getLsbD m then raiseSource 6 s else s)

/-- At a reset's exit the clocks that went bad while it was held, which `late` names, get what is left of their response, and so does a timebase
that is or an enclave clock that is still bad; after a cold reset, whose entry cleared the registers of R33, every bad clock is recorded and
answered. Any clock still bad raises source 6 again. -/
def exitClocks (cold : Bool) (late : BitVec 16) (s : State) : State :=
  let s := if s.mgt.clkStatus &&& blankMonitors = 0 then s else raiseSource 6 s
  (bitsOf 16 s.mgt.clkStatus.toNat).foldl (fun s m => if cold then clockFault m s 
    else if (late.getLsbD m && m < 3) || m == 0 || m == 3 || m == 8 then clockResponse m s else s) s

/-- The LFSRs of R408 take fresh seeds from the enclave's entropy source. -/
def reseedDraws (s : State) : State :=
  let b := (Config.entropy s.sec.drbgIdx).toList ++ (Config.entropy (s.sec.drbgIdx + 1)).toList
  (s.onMem fun m => { m with nrrLfsr := Vector.ofFn fun c => BitVec.ofNat 32 (u32 b (4 * c.val)) }).onSec fun x => { x with drbgIdx := x.drbgIdx + 2 }

/-- The device leaves the reset it was held in: a period boundary from which the reset mode runs in LOCKED (R569); the RESET
entry, and the completions of the commands that the reset ended. A clock that is still bad raises source 6 again. -/
def exitReset (s : State) : State :=
  let cold := s.coldReset
  let late := s.mgt.clkLate
  let s := { s with
    coldReset := false, phase := 0, relNs := s.ns, wrapped := false, raised := []
    frame := if cold then 0 else s.frame
    tim := { s.tim with st := .locked, src := 3, rateFrom := s.ns, boundNs := s.ns } }
  let s := if cold then
      (s.onHif fun x => { x with cfgOwner := bootOwnerOf s }).onMgt fun m => { m with
        st := .rom, warm := false, allotNow := m.bootAllot, allotMade := m.bootAllot.isNone }
    else bumpEpochs (s.onMem memExit)
  let s := reseedDraws s
  let s := logRec 20 3 0 0 (journalAdd { kind := .reset, detail := if cold then 0 else 1 } s)
  let s := s.hif.resetEnds.foldl (fun s h => complete h .resetAborted 0 s) (s.onHif fun x => { x with resetEnds := [] })
  forN 4 checkStuck <| exitClocks cold late (followMarks (s.onMgt fun m => { m with clkLate := 0 }))

/-! ## The pins -/

/-- PORST_N_ASSERT. -/
def execPorstNAssert (s : State) : Host.Outcome State Fault Refusal :=
  .next (if s.porst then s else if !s.powered then { s with porst := true } else { (coldEnter s) with porst := true })

/-- PORST_N_RELEASE: the straps are sampled (R461); the reset ends unless WRST_N is still low. -/
def execPorstNRelease (straps : BitVec 4) (s : State) : Host.Outcome State Fault Refusal :=
  .next (if !s.porst then s
    else
      let s := { s with porst := false, straps := straps }
      if s.live then exitReset s else s)

/-- WRST_N_ASSERT: no effect beyond the level while PORST_N or a rail fault already holds the device. -/
def execWrstNAssert (s : State) : Host.Outcome State Fault Refusal :=
  .next (if s.live then { (warmEnter s) with wrst := true } else { s with wrst := true })

/-- WRST_N_RELEASE. -/
def execWrstNRelease (s : State) : Host.Outcome State Fault Refusal :=
  .next (if !s.wrst then s
    else
      let s := { s with wrst := false }
      if s.live then exitReset s else s)

end Sys2Proof.Machine
end

