-- ==== Sys2Proof/Machine/Power.lean ====
section
/-!
DEFINITION. Power supplies, thermal limits and clock monitors (spec/16, R32, R33): the input supply, the main rails, AVS and
PMBus telemetry, power domains, the thermal response with shutdown and restart, standby, and their commands.
-/
namespace Sys2Proof.Machine

/-! ## Input supply (R504 to R506) -/

/-- What an enclave finds at power-up: a tamper that struck on VBAT burns its fuse now and is recorded (R489); an invalid
BBRAM of a provisioned device pends a zeroisation with cause VBAT (R488). -/
def powerUpEnclave (s : State) : State :=
  let x := s.sec
  let noUsers (y : Sec) : Sec := { y with users := Vector.replicate 16 none, markRequired := false, loopMask := 0xF }
  if x.fusePend then
    let s := s.onSec fun y => noUsers { y with fusePend := false, tamperFuse := true, zeroCnt := sat y.zeroCnt }
    let s := s.onMgt fun m => { m with fault := { m.fault with tamper := s.sec.tamperCause.setWidth 32 } }
    secRaise 0x81 (logRec 21 6 0 0 s)
  else if x.zeroPending then s.onSec noUsers
  else if !x.bbramValid && !x.officers.isEmpty then
    secRaise 0x80 (s.onSec fun y => noUsers { y with
      zeroPending := true, tamperCause := y.tamperCause ||| 0x10, zeroCnt := sat y.zeroCnt })
  else s

/-- UVLO_RISING: the device is powered; PORST_N is held low from here on (R528). -/
def execUvloRising (mv : BitVec 16) (s : State) : Host.Outcome State Fault Refusal :=
  .next (if s.powered then s
    else powerUpEnclave { s with powered := true, porst := true, pwr := { s.pwr with vin := mv } })

/-- The BBRAM's secret is lost with both VIN and VBAT (R480). -/
def loseBbram (x : Sec) : Sec := { x with bbramValid := false, bbram := [] }

/-- UVLO_FALLING: the device is unpowered. Journal entries that have not reached MRAM are gone, and the BBRAM too when VBAT
is low; the TAP resets. The regulators of the main rails are taken to go off with the device that commands them. -/
def execUvloFalling (mv : BitVec 16) (s : State) : Host.Outcome State Fault Refusal :=
  .next (if !s.powered then s
    else
      let t := coldState s
      { t with
        powered := false, tapIr := 1
        hif := { t.hif with journal := t.hif.journal.filter fun e => decide (e.jseq.toNat ≤ s.hif.jhead.toNat) }
        xcl := { t.xcl with tapHold := false }
        sec := if s.pwr.vbatGood then t.sec else loseBbram t.sec
        pwr := { t.pwr with vin := mv, pgood := 0, step := 0 } })

/-- VIN_HIGH: VIN has risen to 61.0 V. -/
def execVinHigh (mv : BitVec 16) (s : State) : Host.Outcome State Fault Refusal :=
  .next (if s.powered then pwrRaise 0x2 (s.onPwr fun p => { p with vin := mv, vinHighCnt := sat p.vinHighCnt }) else s)

/-- Every journal entry on its way reaches MRAM, unless the journal is volatile, and the replies that wait for it are written. -/
def persistAll (s : State) : State :=
  if s.hif.isVolatile then s else flushReplies (s.onHif fun x => { x with jhead := x.jseq })

/-- VIN_LOW: VIN has fallen through 8.8 V; stage-1, while it runs (R460), flushes the event log. The journal entries and fault-record
writes in progress reach MRAM, as they do within the 2 ms that the integrator keeps VIN up (R505). -/
def execVinLow (mv : BitVec 16) (s : State) : Host.Outcome State Fault Refusal :=
  .next (if s.powered then
    let s := persistAll (pwrRaise 0x1 (s.onPwr fun p => { p with vin := mv, vinLowCnt := sat p.vinLowCnt }))
    if s.mgt.st == .run then flushLog s else s
  else s)

/-- VBAT_LOW: VBAT is below 2.3 V; without VIN the BBRAM is lost. -/
def execVbatLow (s : State) : Host.Outcome State Fault Refusal :=
  .next (let t := s.onPwr fun p => { p with vbatGood := false }
    if s.powered then pwrRaise 0x4 t else t.onSec loseBbram)

/-! ## Main rails (R507 to R510) -/

/-- PMBus address and page of rail i while the boot configuration record holds none (R507); no command writes one. -/
def railAddr (i : Nat) : Nat × Nat := (0x40 + i, 0)

/-- The PGOOD input that confirms a step, if one does. -/
def stepPgood (k : Nat) : BitVec 4 := if k = 2 then 2 else if k = 3 then 1 else if k = 4 then 4 else if k = 9 then 8 else 0

/-- What confirms step k (R508), which RAIL_SEQ_STEP reports: the PGOOD input of stepPgood, or a STATUS_WORD whose bits 15, 11 and 6
read 0. -/
def stepConfirmed (k : Nat) (pgood : BitVec 4) (status : BitVec 16) : Bool :=
  if stepPgood k = 0 then !(status.getLsbD 15 || status.getLsbD 11 || status.getLsbD 6) else pgood &&& stepPgood k != 0

/-- The rails are being sequenced: by stage-1, which runs, or after a rail fault; rails found on have been off for 10 ms. -/
def sequencing (s : State) : Bool :=
  s.powered && !s.porst && !s.pwr.seqDone && !s.pwr.retryWait && decide (s.pwr.seqFails < 3) && decide (s.pwr.railsNs ≤ s.ns) &&
  (s.mgt.st == .run || s.pwr.railReset)

/-- RAIL_SEQ_STEP: a step is confirmed good; the last completes the sequence and ends a rail fault's reset. -/
def execRailSeqStep (s : State) : Host.Outcome State Fault Refusal :=
  .next (if !(sequencing s) then s
    else
      let held := s.pwr.railReset
      let done := decide (9 ≤ s.pwr.step)
      let s := s.onPwr fun p => { p with
        pgood := p.pgood ||| stepPgood p.step, step := p.step + 1, seqDone := done, railReset := held && !done }
      if held && done && s.live then exitReset s else s)

/-- RAIL_SEQ_TIMEOUT: a step is not confirmed within 4 ms; every rail goes off. -/
def execRailSeqTimeout (s : State) : Host.Outcome State Fault Refusal :=
  .next (if !(sequencing s) then s
    else pwrRaise 0x8 <| pruneDoms (s.onPwr fun p => { p with
      pgood := 0, step := 0, retryWait := true, failNs := s.ns, seqFails := p.seqFails + 1, seqFailCnt := sat p.seqFailCnt }))

/-- RAIL_SEQ_RETRY: the 1 s is over; after the third failure the rails stay off. -/
def execRailSeqRetry (s : State) : Host.Outcome State Fault Refusal :=
  .next (if s.powered && !s.porst && s.pwr.retryWait && decide (s.pwr.seqFails < 3) && decide (s.pwr.failNs + 1000000000 ≤ s.ns) then
    s.onPwr fun p => { p with retryWait := false } else s)

/-- Memory contents are lost (R510): every buffer becomes LOST by R424, and a migration ends with its source failing (R540). MEM_FAIL
stays (R535). -/
def loseMemory (s : State) : State :=
  let s := s.cmp.bufs.foldl (fun s b =>
    sendEvent b.owner 0x0002 b.handle 18 (s.onMem fun m => { m with lostCnt := sat m.lostCnt })) s
  let s := if s.cmp.bufs.isEmpty then s else memRaise 0x100 s
  let s := s.onCmp fun c => { c with bufs := c.bufs.map fun b => { b with lost := true } }
  let s := if s.mem.migRun then s.onMgt fun m => { m with fault := { m.fault with rank := upd m.fault.rank s.mem.migSrc.toNat fun _ => 1 } } else s
  (s.onXcl fun x => { x with glyphLost := x.glyphLoaded }).onMem fun m => { m with
    st := if m.st = .failed then .failed else .training, plane := [], general := [], reserve := [], migRun := false, migRow := 0, migCmd := none, openRows := [], waiting := [], poison := [] }

/-- PGOOD_FALL: a rail fault. Every main rail is turned off, VCORE with the calibration state in CORE (R503) among them, and
a warm reset is held until the sequence has run again; WRST_N may be holding one already. PGOOD[3] that falls after another input in
the same rail fault loses the memory contents too (R540). While VLINK is off in standby, PGOOD[2] is low by R526. -/
def execPgoodFall (i : Fin 4) (s : State) : Host.Outcome State Fault Refusal :=
  .next (if !s.powered || s.porst || s.coldReset || !(s.pwr.pgood.getLsbD i.val) && (i.val != 3 || !s.pwr.railReset) then s
    else if !s.pwr.seqDone then (if i.val = 3 && s.pwr.railReset then loseMemory s else s)
    else
      let s := pwrRaise 0x20 (s.onPwr fun p => { p with railFaultCnt := sat p.railFaultCnt })
      let s := if i.val = 3 then loseMemory s else s
      let s := if s.live then warmEnter s else s
      pruneDoms { s with
        cal := {}
        pwr := { s.pwr with railReset := true, seqDone := false, step := 0, pgood := 0, retryWait := false } })

/-! ## AVS and PMBus (R509, R511) -/

/-- The set point that the curve, the hottest reading and the margin call for. -/
def avsTarget (s : State) : Nat :=
  max 700 (min 800 (5 * ceilDiv (Config.avsCurve s.thm.hotTemp + 1000 * s.pwr.margin) 5000))

/-- AVS_UPDATE: the set point moves by at most 5 mV, and is held while ten read-backs in a row were off by more than 25 mV. -/
def execAvsUpdate (readback : Nat) (s : State) : Host.Outcome State Fault Refusal :=
  .next (if !s.live || s.mgt.st != .run || !s.pwr.seqDone || s.pwr.standby then s
    else
      let v := s.pwr.vcoreSet.toNat
      let off := decide (v + 25 < readback) || decide (readback + 25 < v)
      let n := if off then min 10 (s.pwr.avsRun + 1) else 0
      let s := s.onPwr fun p => { p with avsRun := n }
      if n = 10 then pwrRaise 0x10 s
      else
        let t := avsTarget s
        let v' := if v < t then min t (v + 5) else max t (v - 5)
        s.onPwr fun p => { p with vcoreSet := BitVec.ofNat 10 v' })

/-- Units per ampere, volt or degree. -/
def unitScale (u : BitVec 2) : Nat := if u = 2 then 100 else 1000

/-- m × 2^e in units, where a part of a unit is rounded one way or the other. -/
def scaled (n : Nat) (m e : Int) (k : Nat) : Int :=
  if 0 ≤ e then m * k * (2 ^ e.toNat : Nat) else openDiv n (m * k) (2 ^ (-e).toNat)

/-- A reading in the item's unit (R511, PWR_ITEM_SET FORMAT). -/
def itemReading (n : Nat) (x : PwrItem) (raw : BitVec 16) (voutMode : BitVec 8) : Int :=
  if x.format = 0 then scaled n (signed 11 raw.toNat) (signed 5 (raw.toNat / 2048)) (unitScale x.unit)
  else if x.format = 1 then scaled n raw.toNat (signed 5 voutMode.toNat) (unitScale x.unit)
  else raw.toNat

/-- A reading as the register holds it. -/
def itemWord (v : Int) : BitVec 32 :=
  if -2147483648 ≤ v ∧ v ≤ 2147483647 then BitVec.ofInt 32 v else Config.itemOverflow v

/-- PMBUS_ITEM_POLL: stage-1 polls an item; `raw` is none when it does not answer or its PEC is bad. -/
def execPmbusItemPoll (i : Fin 32) (raw : Option (BitVec 16)) (voutMode : BitVec 8) (s : State) :
    Host.Outcome State Fault Refusal :=
  .next (let x := nth s.pwr.items i.val
    if !s.live || s.mgt.st != .run || !x.defined then s
    else match raw with
      | some r =>
        (s.onPwr fun p => { p with items := upd p.items i.val fun y => { y with
          value := itemWord (itemReading s.free y r voutMode), fault := false, stale := false, failRun := 0 } }).useFree
      | none =>
        let bad := decide (2 ≤ x.failRun)
        let s := s.onPwr fun p => { p with items := upd p.items i.val fun y => { y with
          failRun := min 3 (y.failRun + 1), fault := y.fault || bad } }
        if bad then pwrRaise 0x40 s else s)

/-- PMBUS_ALERT: the line asserts, and stage-1, while it runs, reads STATUS_WORD from every rail. -/
def execPmbusAlert (words : List (BitVec 16)) (s : State) : Host.Outcome State Fault Refusal :=
  .next (if s.powered then
    pwrRaise 0x80 (if s.mgt.st == .run then s.onPwr fun p => { p with statusWords := words } else s) else s)

/-! ## Power domains (R29, R512, R513) -/

/-- DOMAIN_SWITCH_ON: one of the domains waiting for their turn has finished switching on. -/
def execDomainSwitchOn (s : State) : Host.Outcome State Fault Refusal :=
  .next (if !s.live then s
    else
      let on := (List.range 144).filter fun d => domainOn d s
      let ds := (List.range 141).filter fun d => wantsDomain d s && !(domainOn d s)
      let pick := match ds with | [] => [] | [d] => [d] | ds => [ds.getD (Config.domainChoice s.free % ds.length) 0]
      (s.onPwr fun p => { p with doms := (on ++ pick).foldl (fun b d => b ||| bit1 144 d) 0 }).useFree)

/-! ## Thermal response (R515 to R525) -/

/-- Thresholds of R516 in 0.01 °C: warning, throttle, shutdown. -/
def thmWarn (s : State) : Int := if s.gradeX then 10000 else 9000
def thmThrottle (s : State) : Int := if s.gradeX then 11000 else 10000
def thmShutdown (s : State) : Int := if s.gradeX then 12500 else 11500

/-- A reading that puts its sensor in fault: none, or outside −55 to 150 °C. -/
def badReading : Option Int → Bool
  | none => true
  | some v => v < -5500 || 15000 < v

/-- Sensor n is read: a new fault is counted; a good reading is taken, unless the sense die's clock is bad (R32). -/
def readSensor (r : List (Option Int)) (n : Nat) (s : State) : State :=
  if 48 ≤ n && s.mgt.clkStatus.getLsbD 2 then s
  else
    let x := (r[n]?).getD none
    let bad := badReading x
    let s := if bad && !(nth s.thm.sensFault n) then
      thmRaise 0x10 (s.onThm fun t => { t with sensorFaultCnt := sat t.sensorFaultCnt }) else s
    s.onThm fun t => { t with
      sensFault := upd t.sensFault n fun _ => bad
      temp := match bad, x with | false, some v => upd t.temp n fun _ => v | _, _ => t.temp }

/-- The hottest reading and its sensor, the lower number first. -/
def takeHottest (s : State) : State :=
  let good := (List.range 48).filter fun n => !(nth s.thm.sensFault n)
  match good with
  | [] => s
  | n :: ns =>
    let h := ns.foldl (fun a b => if nth s.thm.temp a < nth s.thm.temp b then b else a) n
    s.onThm fun t => { t with hotTemp := nth t.temp h, hotSensor := h }

/-- Orthogonally adjacent sensors of the 6 × 8 grid. -/
def sensorPairs : List (Nat × Nat) :=
  (List.range 48).flatMap fun n =>
    (if n % 8 = 7 then [] else [(n, n + 1)]) ++ (if 40 ≤ n then [] else [(n, n + 8)])

/-- R517: every pair more than 30 °C apart is counted at each sample, and one of them is recorded. -/
def checkGradient (s : State) : State :=
  let ps := sensorPairs.filter fun p =>
    !(nth s.thm.sensFault p.1) && !(nth s.thm.sensFault p.2) && 3000 < (nth s.thm.temp p.1 - nth s.thm.temp p.2).natAbs
  match ps with
  | [] => s
  | p :: _ =>
    let q := if ps.length = 1 then p else ps.getD (Config.pairChoice s.free % ps.length) p
    thmRaise 0x8 ((s.onThm fun t => { t with
      gradientCnt := satN t.gradientCnt ps.length, gradA := BitVec.ofNat 6 q.1, gradB := BitVec.ofNat 6 q.2 }).useFree)

/-- Warning and throttle with their hysteresis of 3 °C (R516). -/
def followWarn (s : State) : State :=
  let h := s.thm.hotTemp
  let s := if !s.thm.warn && thmWarn s ≤ h then thmRaise 0x1 (s.onThm fun t => { t with warn := true, warnCnt := sat t.warnCnt })
    else if s.thm.warn && h < thmWarn s - 300 then s.onThm fun t => { t with warn := false } else s
  if !s.thm.throttle && thmThrottle s ≤ h then
    thmRaise 0x2 (s.onThm fun t => { t with throttle := true, throttleCnt := sat t.throttleCnt })
  else if s.thm.throttle && h < thmThrottle s - 300 then s.onThm fun t => { t with throttle := false } else s

/-- e of R519 in 0.01 °C. -/
def overThrottle (s : State) : Nat := (s.thm.hotTemp - thmThrottle s).toNat

/-- φ × 256 (R519). -/
def phiOf (s : State) : Nat :=
  if s.thm.throttle then max 102 (256 * (10000 - 8 * overThrottle s) / 10000) else 256

/-- The die-thermal limit (R520). -/
def limitOf (s : State) : Nat :=
  if s.thm.throttle then (roundDiv (65535 * (10000 - s.thm.lightPct * overThrottle s) : Nat) 10000).toNat else 65535

/-- φ and the die-thermal limit follow the sample. -/
def followThrottle (s : State) : State :=
  recomputeAll (s.onThm fun t => { t with phi := phiOf s, limit := limitOf s })

/-- A port enters DARK by R522: a hold ends and is not restored (R525), and a waiting HOLD_EXIT has what it asked for. -/
def darkPort (p : Nat) (s : State) : State :=
  let q := s.port p
  if !q.enable then s
  else
    let exit := if q.hold.on && q.hold.exiting then q.hold.cmd else none
    let keep : HoldState := { req := q.hold.req, cmd := if q.hold.on && q.hold.exiting then none else q.hold.cmd }
    let s := s.onPort p fun q => { q with
      st := .dark, hold := keep, rows := [], cut := none, padding := false, under := [], sel := [], selNext := none, withheld := 0 }
    completeOpt exit .done 0 s

/-- The picture path stops (R522 step 3): ports dark, frames dropped and buffers emptied, slicers off. -/
def stopPicture (s : State) : State :=
  let s := dropAllFrames (forN 4 darkPort s)
  let s := clustersOff (pipesOff (s.onSlc fun x => { x with slicers := Vector.replicate 8 {} }))
  pruneDoms (strobe (retarget (settleBinds (sweepBuffers s))))

/-- PARK with ARG 1 to a port whose array is PRESENT; a scan is aborted first (R522, R539). -/
def parkPort (p : Nat) (s : State) : State :=
  let s := if (s.arr p).scanRun.isSome then abortScan p .present (sendCtrl p 0x21 0 s) else s
  if (s.arr p).st == .present then sendCtrl p 0x22 1 (s.onArr p fun a => { a with parkShutdown := true }) else s

/-- The hardware shutdown (R522); `count` is false when it is set again after a warm reset (R525). A device in standby has no
picture path to stop. -/
def shutDown (count : Bool) (s : State) : State :=
  let s := raiseSource 7 (s.onThm fun t => { t with shutdown := true, restartDue := false })
  let s := if s.pwr.standby then s else enterSelfRefresh (stopPicture (forN 4 parkPort s))
  let s := s.onMgt fun m => { m with fault := { m.fault with
    thermalFrame := s.frame, thermalSensor := BitVec.ofNat 8 s.thm.hotSensor, thermalPeak := BitVec.ofInt 24 s.thm.hotTemp } }
  thmRaise 0x4 (if count then s.onThm fun t => { t with shutdownCnt := sat t.shutdownCnt } else s)

/-- The peak reading of a shutdown in force is kept in the fault record (R474). -/
def followPeak (s : State) : State :=
  if s.thm.shutdown && decide (s.mgt.fault.thermalPeak.toInt < s.thm.hotTemp) then
    s.onMgt fun m => { m with fault := { m.fault with
      thermalSensor := BitVec.ofNat 8 s.thm.hotSensor, thermalPeak := BitVec.ofInt 24 s.thm.hotTemp } }
  else s

/-- Shutdown by the threshold, by more than 8 sensors of the main die in fault (R518), or again after a warm reset (R525). -/
def followShutdown (s : State) : State :=
  let many := decide (8 < ((List.range 48).filter fun n => nth s.thm.sensFault n).length)
  let again := s.thm.again
  let s := s.onThm fun t => { t with noRestart := t.noRestart || many, again := false }
  let call := thmShutdown s ≤ s.thm.hotTemp || s.thm.noRestart || (again && thmShutdown s - 1500 ≤ s.thm.hotTemp)
  if call && !s.thm.shutdown then shutDown (!again) s else followPeak s

/-- How long a shutdown has cooled is followed (R524). -/
def followCool (s : State) : State :=
  s.onThm fun t => { t with
    coolFrom := if t.shutdown && decide (t.hotTemp < thmShutdown s - 1500) then some (t.coolFrom.getD s.ns) else none }

/-- THERMAL_SAMPLE: the sensors are sampled together, and the thermal state follows. -/
def execThermalSample (readings : List (Option Int)) (s : State) : Host.Outcome State Fault Refusal :=
  .next (if !s.live then s
    else
      let s := checkGradient (takeHottest (forN 52 (readSensor readings) s))
      let s := followCool (followShutdown (followThrottle (followWarn s)))
      let near (t : Int) : Bool := decide ((s.thm.hotTemp - t).natAbs ≤ 500)
      s.onThm fun t => { t with fast := near (thmWarn s) || near (thmThrottle s) || near (thmShutdown s) })

/-- SHUTDOWN_RESTART: the hottest reading has stayed 15 °C below the shutdown threshold for 10 s (R524). -/
def execShutdownRestart (s : State) : Host.Outcome State Fault Refusal :=
  .next (if s.live && s.thm.shutdown && !s.thm.noRestart &&
      (match s.thm.coolFrom with | some n => decide (n + 10000000000 ≤ s.ns) | none => false) then
    thmRaise 0x20 (dropSource 7 (s.onThm fun t => { t with shutdown := false, coolFrom := none, restartDue := !s.pwr.standby }))
  else s)

/-! ## Clock monitors (R32, R33) -/

/-- What a clock that goes bad while a warm reset is held does at once, beside the record: source 6, the flags and sticky bits of the
fabric, enclave and link-quad clocks (R534), and the link of a PCIe port. The other responses act on blocks that the reset holds, and
come at its exit. -/
def heldResponse (m : Nat) (s : State) : State :=
  if m = 5 then fabricClockLost s
  else if m = 7 then engineClock false s
  else if m = 8 then secRaise 0x4 s
  else if m = 10 ∨ m = 11 then pcieDown (m - 10) false s
  else if 12 ≤ m then quadFault (m - 12) s
  else s

/-- CLOCK_MONITOR_FAULT: recorded by R33 and answered by R32. While a warm reset is held it is recorded at once and answered as far as
the reset allows, the rest at the exit; a cold reset holds the registers of R33, and its exit does both. -/
def execClockMonitorFault (m : Fin 16) (s : State) : Host.Outcome State Fault Refusal :=
  .next (if !s.powered || s.mgt.clkStatus.getLsbD m.val then s
    else
      let s := s.onMgt fun x => { x with clkStatus := x.clkStatus ||| bit1 16 m.val }
      if s.live then clockFault m.val s
      else if s.porst || s.coldReset then s
      else
        let s := clkRaise (bit1 16 m.val) (s.onMgt fun x => { x with
          clkFaultCnt := sat x.clkFaultCnt, clkLate := x.clkLate ||| bit1 16 m.val })
        heldResponse m.val (if blankMonitors.getLsbD m.val then raiseSource 6 s else s))

/-- CLOCK_MONITOR_GOOD: source 6 is inactive once every monitor whose response is Blank reports good. -/
def execClockMonitorGood (m : Fin 16) (s : State) : Host.Outcome State Fault Refusal :=
  .next (if !s.powered || !(s.mgt.clkStatus.getLsbD m.val) then s
    else
      let s := s.onMgt fun x => { x with clkStatus := x.clkStatus &&& ~~~(bit1 16 m.val) }
      let s := if blankMonitors.getLsbD m.val && s.mgt.clkStatus &&& blankMonitors == 0 then dropSource 6 s else s
      if m.val = 5 then fabricClockGood s
      else if m.val = 7 then engineClock true s
      else if 12 ≤ m.val then quadGood (m.val - 12) s
      else s)

/-! ## Commands of group 0x0C -/

/-- The sum over items of 150 µs / POLL_US exceeds 0.5, with item i polled every `poll` µs. -/
def pollOver (i poll : Nat) (s : State) : Bool :=
  let ps := ((List.range 32).filter fun k => k != i && (nth s.pwr.items k).defined).map fun k => (nth s.pwr.items k).pollUs
  let f := (poll :: ps).foldl (fun (f : Nat × Nat) p => (f.1 * p + 150 * f.2, f.2 * p)) (0, 1)
  f.2 < 2 * f.1

def specPwrItemSet : OpSpec where
  op := 0x0C00
  cls := [clsPwr]
  len := lenIs 12
  owners := ownConfig
  check c s :=
    let b := Cmd.payload c
    let del := bitOf (u8 b 1) 7
    checks [badAt c 0 (31 < u8 b 0),
      if del then none else checks [badAt c 2 (31 < u8 b 2 && u8 b 2 != 0xFF), badAt c 4 (2 < u8 b 4), badAt c 5 (2 < u8 b 5)],
      rsv c 6 2, badAt c 8 (!del && (u32 b 8 < 100 || 100000 < u32 b 8)),
      chk (!del && pollOver (u8 b 0) (u32 b 8) s) ⟨.budgetExceeded, 0⟩,
      busyIf (s.mgt.st == .reinit || s.mgt.st == .halt)]
  effect h s :=
    let b := Cmd.payload h.cmd
    let x : PwrItem :=
      if bitOf (u8 b 1) 7 then {}
      else { defined := true, addr := BitVec.ofNat 7 (u8 b 1), page := BitVec.ofNat 8 (u8 b 2), code := BitVec.ofNat 8 (u8 b 3)
             format := BitVec.ofNat 2 (u8 b 4), unit := BitVec.ofNat 2 (u8 b 5), pollUs := u32 b 8 }
    { st := s.onPwr fun p => { p with items := upd p.items (u8 b 0) fun _ => x } }

def specThmSet : OpSpec where
  op := 0x0C01
  cls := [clsPwr]
  len := lenIs 4
  owners := ownConfig
  check c _ :=
    let b := Cmd.payload c
    checks [badAt c 0 (25 < u8 b 0), rsv c 1 1, badAt c 2 (50 < u16 b 2)]
  effect h s :=
    let b := Cmd.payload h.cmd
    { st := (s.onThm fun t => { t with lightPct := u8 b 0 }).onPwr fun p => { p with margin := u16 b 2 } }

/-- Standby (R526): switchable domains off, keys cleared, memory in self-refresh, VLINK off with its PGOOD input, VCORE at 0.70 V. PCIe
functions whose hosts have no session go down. -/
def standbyEnter (s : State) : State :=
  let s := forN 2 (fun h s => if (nth s.hif.sess (h + 1)).isOpen then s else
    (pcieDown h true s).onPwr fun p => { p with doms := p.doms &&& ~~~(bit1 144 (132 + h)) }) s
  let s := engineOff (clearKeys (endServices s))
  let s := forN 16 (fun k s => (toIdle k false s).onOctet k fun o => { o with diag := 0 }) (forN 4 leaveReady s)
  let s := s.onHif fun x => { x with cores := Vector.ofFn fun i => if i.val = 0 then x.cores[i] else { x.cores[i] with st := .off } }
  let s := dropAllFrames s
  let s := (clustersOff (pipesOff (s.onSlc fun x => { x with slicers := Vector.replicate 8 {} }))).onPwr fun p => { p with
    standby := true, vcoreSaved := p.vcoreSet, vcoreSet := 700, pgood := p.pgood &&& ~~~4 }
  pruneDoms (enterSelfRefresh (settleBinds (sweepBuffers s)))

/-- The exit from standby (R527): VLINK is on again, the enclave enters SELFTEST unless it is in ERROR, which only a reset leaves
(R535), and memory leaves self-refresh. The command's 1 s begins. -/
def standbyExit (s : State) : State :=
  let s := s.onPwr fun p => { p with exitNs := s.ns }
  if s.pwr.standby then
    { s with
      pwr := { s.pwr with
        standby := false, vcoreSet := s.pwr.vcoreSaved, pgood := if s.pwr.seqDone then s.pwr.pgood ||| 4 else s.pwr.pgood }
      sec := if s.sec.st = .error then s.sec else { s.sec with st := .selftest, identity := [], storageKey := [], drbgState := [] }
      mem := { memExit s.mem with selfRefresh := false } }
  else s

/-- CFG.ENTER of PWR_STANDBY. -/
def standbyOn (c : Cmd) : Bool := bitOf (u8 (Cmd.payload c) 0) 0

def specPwrStandby : OpSpec where
  op := 0x0C02
  cls := [clsPwr]
  len := lenIs 4
  owners := ownConfig
  check c s :=
    checks [rsvBits c 0 0xFE, rsv c 1 3,
      busyIf (s.pwr.standbyCmd.isSome || (standbyOn c && (List.range 4).any fun p => (s.port p).enable))]
  effect h s :=
    let s := if standbyOn h.cmd then (if s.pwr.standby then s else standbyEnter s) else standbyExit s
    { st := s.onPwr fun p => { p with standbyCmd := some h }, status := .accepted }

/-- A PWR_STANDBY completes: at once in standby, and after it once memory is READY and the enclave has left SELFTEST. -/
def settleStandby (s : State) : State :=
  match s.pwr.standbyCmd with
  | none => s
  | some h =>
    if standbyOn h.cmd || (s.mem.st == .ready && s.sec.st != .selftest) then
      complete h .done 0 (s.onPwr fun p => { p with standbyCmd := none })
    else s

/-- STANDBY_EXIT_TIMEOUT: 1 s after the exit began it has not ended (R527). -/
def execStandbyExitTimeout (s : State) : Host.Outcome State Fault Refusal :=
  .next (match s.pwr.standbyCmd with
    | some h =>
      if standbyOn h.cmd || (s.mem.st == .ready && s.sec.st != .selftest) || decide (s.ns < s.pwr.exitNs + 1000000000) then s
      else complete h .timeout 0 (s.onPwr fun p => { p with standbyCmd := none })
    | none => s)

def execPwrItemSet (cmd : Cmd) (s : State) : Host.Outcome State Fault Refusal := .next (accept specPwrItemSet cmd s)
def execThmSet (cmd : Cmd) (s : State) : Host.Outcome State Fault Refusal := .next (accept specThmSet cmd s)
def execPwrStandbyEnter (cmd : Cmd) (s : State) : Host.Outcome State Fault Refusal := .next (accept specPwrStandby cmd s)
def execPwrStandbyExit (cmd : Cmd) (s : State) : Host.Outcome State Fault Refusal := .next (accept specPwrStandby cmd s)

/-! ## Output pins (R530) -/

/-- The outputs of R530's table and INT_N. -/
inductive OutPin where
  | ichEn (c : Fin 4) | islot | istb | ichBus | safeOk | faultN | pwm | glTx | mark (m : Fin 5) | pcieTx | qspiCs | buses | intN (i : Fin 2)
  | uartTx | gpio | tampDrv
  deriving DecidableEq, Repr

/-- What the device makes of an output: a level, no drive, or what the block that owns it drives. -/
inductive OutLevel where
  | low | high | hiZ | block
  deriving DecidableEq, Repr

/-- An output between a reset's filtered edge and its release, where GL_TXP/N at electrical idle counts as low; the table's two reset
columns differ in what the PCIe transmitters do. -/
def heldLevel (p : OutPin) : OutLevel :=
  match p with
  | .ichEn _ | .islot | .istb | .ichBus | .safeOk | .faultN | .glTx | .mark _ => .low
  | .pwm | .qspiCs | .uartTx => .high
  | .buses | .intN _ | .gpio => .hiZ
  | .pcieTx | .tampDrv => .block

/-- INT_N[0] is low while host 3 has an undelivered reply or event (R431); INT_N[1] in HALT (R459), in RECOVERY (R465) and after the
third failure of the rail sequence (R508). -/
def interruptLow (i : Fin 2) (s : State) : Bool :=
  if i.val = 0 then !s.hif.i3cQ.isEmpty
  else s.mgt.st == .halt || s.mgt.st == .recovery || decide (3 ≤ s.pwr.seqFails)

/-- The level of PHASE_MARK[0] to [3] and of REF_OUT (4): its polarity's level while it is active, the other one otherwise (R91, R93). -/
def markLevel (m : Nat) (s : State) : OutLevel :=
  let k := nth s.tim.marks m
  if k.active == k.activeHigh then .high else .low

/-- The level of an output (R530): high-impedance in an unpowered device but for TAMP_DRV, the reset's level while one is held, and
else what its block drives. INT_N[1] stays low through a rail fault whose sequence has failed for the third time (R508), a ball of
VIO33 or VIO18 is high-impedance without its supply (R557), and a TAP instruction that silences the lanes parks the arrays (R565). -/
def outLevel (p : OutPin) (s : State) : OutLevel :=
  if !s.powered then (if p = .tampDrv then .block else .hiZ)
  else if p = .intN 1 ∧ s.pwr.railReset ∧ ¬ s.porst ∧ ¬ s.wrst ∧ 3 ≤ s.pwr.seqFails then .low
  else if !s.live then heldLevel p
  else match p with
    | .gpio => if railOn 1 s then .block else .hiZ
    | .glTx => if s.xcl.tapHold then .low else .block
    | .mark m => markLevel m.val s
    | .ichEn c => if (s.chain c.val).en then .high else .low
    | .safeOk => if safeOk s then .high else .low
    | .faultN => if s.blanked then .low else .hiZ
    | .islot | .istb => if s.xcl.tapHold then .low else .block
    | .intN i => if interruptLow i s then .low else .hiZ
    | _ => .block

end Sys2Proof.Machine
end

