-- ==== Sys2Proof/Machine/Slots.lean ====
section
/-!
DEFINITION. What a port does inside a period: slots and their light (R102, R109, R121, R253), hold mode (R123 to R132), the plane
reader (R255 to R260), row packets and band resets (R275 to R279), lane frames (R265 to R274, R292, R297), and the requests of
the memory ports (R403).
-/
namespace Sys2Proof.Machine

/-! ## Health holds and light (R305, R306) -/

/-- Light may return after a health hold: no cause is left, and the last ended at least 1 µs ago (R306). -/
def lightBack (p : Nat) (s : State) : State :=
  s.onArr p fun a => if a.dark && !a.hold && a.holdEnd + 1000 ≤ s.ns then { a with dark := false } else a

/-! ## Hold mode (R123 to R132) -/

/-- The newest complete frame for a hold request's view, colour and frame offset (R124). It is chosen at the start of
the HOLD_BREAK slot during which its plane loads (DESIGN CHOICE, notes/assumptions/116.md). -/
def newestFor (r : HoldReq) (s : State) : Option Nat :=
  let st := s.store r.view.toNat
  let ok := (List.range st.bufs.length).filter fun i =>
    let b := st.bufs.getD i {}
    b.has [colourSlot st.colours r.colour.toNat] && (b.frame.getD 0) % 4 == r.fofs.toNat
  let fr (i : Nat) : Nat := ((st.bufs.getD i {}).frame).getD 0
  match ok with
  | [] => none
  | i :: is => some (is.foldl (fun a b => if fr a < fr b then b else a) i)

/-- The held plane of a port, as the slot with index k; a zero plane when no frame was complete at the hold's load. -/
def heldPlane (p k : Nat) (s : State) : PlaneId :=
  let h := (s.port p).hold
  { view := h.view, colour := h.colour, bit := h.bit, fofs := h.fofs, slotIdx := k
    zero := (s.store h.view.toNat).bufs.length ≤ h.buf, base := h.base }

/-- The address of a plane of the held buffer. -/
def heldBase (h : HoldState) (colour bit : Nat) (s : State) : Nat := planeBase (s.store h.view.toNat) h.buf colour bit

/-- A HOLD_BREAK slot starts after acceptance: the held plane is chosen, and it loads in place of the plane of the next slot
(R124); the rows already fetched for that slot are discarded. -/
def armHold (p : Nat) (r : HoldReq) (s : State) : State :=
  let buf := (newestFor r s).getD (s.store r.view.toNat).bufs.length
  s.onPort p fun q =>
    let k := q.slot.toNat + 1
    let h := { q.hold with
      breakSeen := true, view := r.view, colour := r.colour, bit := r.bit, fofs := r.fofs, level := r.level, entry := r.entry
      drive := r.drive, buf := buf }
    { loadAnew k q with hold := { h with base := heldBase h r.colour.toNat r.bit.toNat s } }

/-- Bits 9 to 0 of i reversed (R126). -/
def bitrev10 (i : Nat) : Nat := (List.range 10).foldl (fun a k => 2 * a + i / 2 ^ k % 2) 0

/-- Entries of sub-slot i (R126). -/
def subslotEntry (h : HoldState) (i : Nat) : Vector (BitVec 6) 4 :=
  if bitrev10 (i % 1024) < h.level then h.entry else Vector.replicate 4 0

/-- Every band of a port changes over at one instant: it shows the plane loaded, unless its reset was withheld. -/
def changeAll (q : Port) : Port :=
  let now : Vector PlaneId 16 := Vector.ofFn fun b => if q.withheld.getLsbD b.val then q.shown[b] else q.loaded[b]
  { q with shown := now, loaded := now }

/-- The plane reader and the link have nothing to load until a reload. -/
def idleReader (q : Port) : Port :=
  { q with
    rows := [], cut := none, started := [], fetchSlot := 1, fetchRow := 0, sendSlot := 1, sendRow := 0, bandNext := Vector.replicate 16 1
    padding := false }

/-- Back-to-back framing stops here in a hold with KA_BURST, unless a reload goes on with it (R297). -/
def framingStops (p : Nat) (s : State) : State := s.onLink p fun l => { l with stopNs := s.ns }

/-- Hold begins (R124, R126, R127): the bands change over together, every frame buffer but the held one is emptied (R254), the
versions of the exclusion set take effect for every band (R217), and once every enabled port is in hold the compositor and the
fabric stop and the memory enters self-refresh (R128). A load that underran leaves the port dark until a reload completes. -/
def beginHold (p : Nat) (s : State) : State :=
  let bad := (s.port p).withheld != 0
  let cmd := (s.port p).hold.cmd
  let i := s.tick / 16384
  let s := (framingStops p s).onPort p fun q =>
    let q := idleReader (changeAll q)
    let h := { q.hold with
      on := true, req := none, cmd := none, breakSeen := false, exiting := false, reloading := false, reloadFor := false
      reloadBad := false, reloadAts := if bad then [s.ns] else [], reloadDark := bad, subslot := i }
    { q with
      st := .hold, hold := h, withheld := 0, under := [], conflicts := [], slotDark := false, settling := true
      entries := subslotEntry h i, sel := [], selNext := none }
  let s := forN 5 (emptyStore false) (countCodes s)
  let old := !(s.xset p).taken
  let s := takeAll p s
  let s := if old then askReload p s else s
  let s := if (s.arr p).hold then askReload p s else s
  let s := completeOpt cmd .done 0 s
  if allHold s then (stopFabric s).raise .selfRefreshEntry else s

/-- The pending HOLD_SET names another plane than the one held, and takes effect with the reload of that plane (R129). -/
def otherPlane (h : HoldState) : Bool :=
  h.reloadFor || match h.req with | some r => r.colour != h.colour || r.bit != h.bit | none => false

/-- The light settings of the pending HOLD_SET take effect, and it completes. A changed DRIVE that needs no reload reaches an emitter
array with the band resets of the next reload: the spec names no reset for it (DESIGN CHOICE, notes/assumptions/116.md). -/
def takeRequest (p : Nat) (s : State) : State :=
  let h := (s.port p).hold
  match h.req with
  | some r => completeOpt h.cmd .done 0 (countCodes (s.onPort p fun q => { q with hold := { q.hold with
      level := r.level, entry := r.entry, drive := r.drive, req := none, cmd := none } }))
  | none => s

/-- A reload starts (R129): the held plane, or the one that the last HOLD_SET names, is loaded again from its first row. It serves
the events that are 1 µs old. -/
def startReload (p : Nat) (s : State) : State :=
  wakeMemory ((resumeLink p s).onPort p fun q =>
    let h := q.hold
    let colour := match h.req with | some r => r.colour | none => h.colour
    let bit := match h.req with | some r => r.bit | none => h.bit
    { q with
      reloadCnt := sat q.reloadCnt, rows := [], cut := none, started := [], fetchSlot := 0, fetchRow := 0, sendSlot := 0, sendRow := 0
      bandNext := Vector.replicate 16 0, bandNs := Vector.replicate 16 s.ns, withheld := 0, padding := false
      hold := { h with
        reloading := true, reloadFor := otherPlane h, reloadBad := false
        reloadAts := h.reloadAts.filter fun t => s.ns < t + 1000, colour := colour, bit := bit
        base := heldBase h colour.toNat bit.toNat s } })

/-- A reload ends in a global changeover: the light settings of the HOLD_SET that asked for it take effect, and that command
completes. -/
def endReload (p : Nat) (s : State) : State :=
  let mine := (s.port p).hold.reloadFor
  let s := (framingStops p s).onPort p fun q =>
    let q := idleReader (changeAll q)
    { q with settling := true, hold := { q.hold with reloading := false, reloadFor := false, reloadDark := false } }
  if mine then takeRequest p s else s

/-- Every band reset of a reload has been queued, and LEAD_TK has passed since its last row was sent. -/
def reloadLoaded (p : Nat) (s : State) : Bool :=
  let q := s.port p
  q.hold.reloading && !q.hold.reloadBad && q.bandNext.toList.all (· == 1) &&
    decide (q.hold.sentTk + q.leadTk.toNat ≤ absTick s)

/-- The reload goes on at a sub-slot boundary: it ends, or after an underrun starts again (R260); one starts 1 µs after an event that
asks for it, and reloads repeat while a health hold lasts (R309). -/
def reloadAtSubslot (p : Nat) (s : State) : State :=
  let s := if reloadLoaded p s then endReload p s else s
  let h := (s.port p).hold
  if h.reloading then (if h.reloadBad then startReload p s else s)
  else if (h.reloadAts.any fun t => t + 1000 ≤ s.ns) || ((s.arr p).hold && h.reloadAts.isEmpty) then startReload p s
  else s

/-- Sub-slot i of a port in hold begins; the strobe follows. -/
def beginSubslot (p i : Nat) (s : State) : State :=
  let s := reloadAtSubslot p (lightBack p s)
  s.onPort p fun q => { q with hold := { q.hold with subslot := i }, entries := subslotEntry q.hold i }

/-- HOLD_SUBSLOT: the next sub-slot of the period begins; sub-slot 0 begins with the period boundary. -/
def execHoldSubslot (p : Fin 4) (s : State) : Host.Outcome State Fault Refusal :=
  let q := s.port p.val
  .next (if s.live && q.st == .hold && q.hold.on && q.hold.subslot < 1023 && !s.pictureStops then
    noteLit (strobeSet p.val (beginSubslot p.val (q.hold.subslot + 1) s)) else s)

/-! ## Slots (R102, R109, R121, R253) -/

/-- Slot k of a port starts at tick t; the strobe follows. The light of a global slot comes SETTLE_TK later, and a slot is shown at
entry 0 that fails R79, has no frame, or falls back without a substitute. -/
def startSlot (p k t : Nat) (s : State) : State :=
  let q := s.port p
  match q.slots[k]? with
  | none => s
  | some x =>
    let r := substSlot (backNow s) q.kind.toNat s x
    let none' := x.reads && !r.2.2 && (selFor q.sel r.1).isNone
    let cams := (q.conflicts.filter fun y => y.1 == k).map (·.2)
    let s := s.onPort p fun q => { q with
      slot := BitVec.ofNat 12 k, slotStart := t, slotNs := s.ns, entries := x.entry, settling := x.glob
      slotDark := r.2.2 || none' || !cams.isEmpty
      substCnt := if r.2.1 then sat q.substCnt else q.substCnt, darkCnt := if r.2.1 && r.2.2 then sat q.darkCnt else q.darkCnt }
    let s := if r.2.1 then seqRaise p (if r.2.2 then 0x180 else 0x80) s else s
    let v := r.1.view.toNat
    let s := if none' then
      slcRaise (bit1 15 (5 + v)) (s.onStore v fun st => { st with noframeCnt := sat st.noframeCnt }) else s
    let s := cams.foldl (fun s c =>
      timRaise (bit1 20 (12 + c)) (s.onCam c fun x => { x with conflictCnt := sat x.conflictCnt })) s
    let s := lightBack p (s.onIll fun i => { i with pulseUsed := false, walkUsed := false })
    match q.hold.req with
    | some h => if x.holdBreak && !q.hold.on && q.st == .run then armHold p h s else s
    | none => s

/-- The running slot of a port ends: its SLOT triggers fire (R176). -/
def endSlot (p : Nat) (s : State) : State :=
  let q := s.port p
  match q.slots[q.slot.toNat]? with
  | some x => if q.st == .run then slotTriggers p x.entry s else s
  | none => s

/-- The hold that an ended HOLD_BREAK slot brings begins. -/
def holdBegins (q : Port) : Bool := q.hold.breakSeen && q.hold.req.isSome && !q.hold.on && q.st == .run

/-- SLOT_START: the running slot ends and the next one of the period starts, or hold begins. Slot 0 starts with the period
boundary. -/
def execSlotStart (p : Fin 4) (s : State) : Host.Outcome State Fault Refusal :=
  let q := s.port p.val
  let k := q.slot.toNat + 1
  .next (if !s.live || !q.enable || !q.stepping || q.held || s.pictureStops || q.slots.length ≤ k then s
    else
      let t := q.slotStart + (q.slots.getD q.slot.toNat {}).dur.toNat
      let s := endSlot p.val s
      let s := if holdBegins (s.port p.val) then beginHold p.val s else startSlot p.val k t s
      noteLit (strobeSet p.val s))

/-- SLOT_SETTLE_END: SETTLE_TK after a global changeover the entries come into force (R102, R127). -/
def execSlotSettleEnd (p : Fin 4) (s : State) : Host.Outcome State Fault Refusal :=
  .next (if s.live && (s.port p.val).settling then
    noteLit (strobeSet p.val (s.onPort p.val fun q => { q with settling := false })) else s)

/-! ## What a port loads (R97, R101, R255) -/

/-- The held plane loads in place of slot k's plane, during the HOLD_BREAK slot (R124). -/
def heldLoad (q : Port) (k : Nat) : Bool := q.hold.breakSeen && k == q.slot.toNat + 1

/-- The plane that loads for slot k: the held plane during the HOLD_BREAK slot and in a reload, else the one that the slot names, or
named when its rows were started on (R257). -/
def loadPlane (p k : Nat) (s : State) : PlaneId :=
  let q := s.port p
  if q.held then heldPlane p 0 s
  else if heldLoad q k then heldPlane p k s
  else match q.started.find? fun x => x.1 == k with
    | some x => x.2
    | none => planeAt p k s

/-- The reader or the link starts on slot k's plane, which stays named until the boundary (R257). -/
def noteStart (p k : Nat) (s : State) : State :=
  let z := loadPlane p k s
  s.onPort p fun q =>
    if q.held || heldLoad q k || q.started.any (fun x => x.1 == k) then q
    else { q with started := (k, z) :: q.started.filter fun x => q.sendSlot ≤ x.1 }

/-- Rows of one band. -/
def bandHeight (p : Nat) (s : State) : Nat := (s.arr p).height / 16

/-- The last slot whose plane the reader may fetch (R255); in hold, the one of a reload. -/
def fetchLimit (q : Port) : Option Nat :=
  if q.held then (if q.hold.reloading && q.st == .hold then some 0 else none)
  else if !q.stepping then none
  else if q.hold.breakSeen then some (q.slot.toNat + 1)
  else some (q.slot.toNat + 2)

/-- The reader passes over slots that are not fetched, up to the limit. -/
def skipZero (p lim : Nat) : Nat → State → State
  | 0, s => s
  | n + 1, s =>
    let k := (s.port p).fetchSlot
    if k ≤ lim && (loadPlane p k s).zero then
      skipZero p lim n ((noteStart p k s).onPort p fun q => { q with fetchSlot := k + 1, fetchRow := 0 })
    else s

/-- The reader passes over every slot up to slot lim that is not fetched. -/
def skipTo (p lim : Nat) (s : State) : State := skipZero p lim (lim + 1 - (s.port p).fetchSlot) s

/-- Some slot of the coming period, from the reader's next one up to slot lim, reads a plane. -/
def comingReads (p lim : Nat) (s : State) : Bool :=
  let n := (s.port p).slots.length
  let xs := nextSlots p s
  (List.range (lim + 1 - n)).any fun j =>
    decide ((s.port p).fetchSlot ≤ n + j) && match xs.1[j]? with
      | some x => x.reads && !(substSlot (backThen s) xs.2 (ahead s) x).2.2
      | none => false

/-- The reader passes over the rest of a band, from word n of row `row` on: its rows are discarded as they arrive (R258). -/
def skipBand (p k row n : Nat) (s : State) : State :=
  let h := bandHeight p s
  let b := row / h
  s.onPort p fun q =>
    let q := { q with
      rows := q.rows.filter fun x => !(x.1 == k && (if n = 0 then row else row + 1) ≤ x.2.1 && x.2.1 / h == b)
      cut := if n = 0 then q.cut else some (k, row, n) }
    if q.fetchSlot = k && q.fetchRow / h = b then
      (if b = 15 then { q with fetchSlot := k + 1, fetchRow := 0 } else { q with fetchRow := (b + 1) * h })
    else q

/-- The next row of slot k's plane comes into the reader's buffer, by the reader's port; the first uncorrectable word among the array's
pixels cuts it (R258, R410). -/
def fetchRow (p k : Nat) (s : State) : State :=
  let y := (s.port p).fetchRow
  let a := (loadPlane p k s).base + 1024 * y
  let f := portRead { port := Fin.ofNat 11 (5 + p), space := .plane, addr := a } 1024 (noteStart p k s)
  let t := f.st.onPort p fun q => { q with rows := q.rows ++ [(k, y, BitVec.ofNat 8192 (rowBits f.bytes))] }
  match f.bad.find? fun w => w < a + ceilDiv (s.arr p).width 256 * 32 with
  | some w => skipBand p k y (4 * ((w - a) / 32)) t
  | none => t.onPort p fun q =>
      if y + 1 < (s.arr p).height then { q with fetchRow := y + 1 } else { q with fetchSlot := k + 1, fetchRow := 0 }

/-- PLANE_ROW_FETCH: the plane reader fetches the next row, not before u_0 of the slot two before and while its 2 MiB buffer has
room (R255). The first fetch that may start for the coming period is the selection point (R256). -/
def execPlaneRowFetch (p : Fin 4) (s : State) : Host.Outcome State Fault Refusal :=
  let q := s.port p.val
  .next (match fetchLimit q with
    | none => s
    | some lim =>
      if !s.live || !q.enable || s.pictureStops || !(memServes s) || 2048 ≤ q.rows.length || bandHeight p.val s = 0 then s
      else
        let s := if q.held then s else skipTo p.val (min lim (q.slots.length - 1)) s
        let s := if !q.held && q.slots.length ≤ (s.port p.val).fetchSlot && !(selMade s) && comingReads p.val lim s
          then selectNext s else s
        let s := skipTo p.val lim s
        if (s.port p.val).fetchSlot ≤ lim then fetchRow p.val (s.port p.val).fetchSlot s else s)

/-- A plane reader's request of a memory port ends in an uncorrectable error: an underrun from that row on, in the first slot that still
has it to send (R258). -/
def readerError (p a : Nat) (s : State) : State :=
  let q := s.port p
  let h := (s.arr p).height
  match (List.range (q.fetchSlot + 1 - q.sendSlot)).find? fun i =>
      let z := loadPlane p (q.sendSlot + i) s
      !z.zero && z.base ≤ a && a < z.base + h * 1024 && (i != 0 || q.sendRow ≤ (a - z.base) / 1024) with
  | none => s
  | some i =>
    let o := a - (loadPlane p (q.sendSlot + i) s).base
    skipBand p (q.sendSlot + i) (o / 1024) (o % 1024 / 32 * 4) s

/-- A request is served, with its effect on a plane reader (R403 to R410). -/
def serveOne (q : MemReq) (s : State) : State :=
  let r := serveRequest q s
  let n := q.port.val
  if r.2 && 5 ≤ n && n ≤ 8 && q.space == .plane && bandHeight (n - 5) s != 0 then readerError (n - 5) q.addr r.1 else r.1

/-- What serving a read returns. -/
def servedData (q : MemReq) (s : State) : Option (List Byte) :=
  if q.data.isNone then some (readBurst q (serveRequest q s).2 s) else none

/-- A pseudo-channel serves the first of its waiting requests. -/
def servePc (pc : Nat) (s : State) : State :=
  match firstServed pc s with
  | none => s
  | some i =>
    let q := ((s.mem.waiting[i]?).getD {}).req
    serveOne q (s.onMem (servedAt i (servedData q s)))

/-- Every pseudo-channel goes on with its waiting requests. -/
def serveWaiting (s : State) : State :=
  if s.mem.waiting.isEmpty || !(memServes s) then s else forN 32 servePc s

/-- MEM_REQUEST: a request of a memory port joins those that wait, and its pseudo-channel serves the first of them. -/
def execMemRequest (q : MemReq) (s : State) : Host.Outcome State Fault Refusal :=
  .next (if !(memServes s) || !(MemReq.inRegion q s.mem) then s else servePc (MemReq.place q s.mem).pc (joinWait q s))

/-! ## Band resets and changeovers (R100, R101, R214, R278, R282) -/

/-- Band b's rows of slot k have all been sent. -/
def bandSent (p k b : Nat) (s : State) : Bool :=
  let q := s.port p
  k < q.sendSlot || (q.sendSlot == k && (b + 1) * bandHeight p s ≤ q.sendRow)

/-- Picoseconds of the instant at which the tick count of this period reaches u, at the rate in force (MODEL: a whole number). -/
def psAt (u : Nat) (s : State) : Nat :=
  let d := u * 1099511627776 - s.phase.toNat
  s.ns * 1000 + d * s.rd * 1000000000000000000000 / (s.rn * 18446744073709551616 * (1000000000 + s.tim.rateOfs).toNat)

/-- PLANE_TAG of a plane (R275). -/
def planeTag (z : PlaneId) : Nat :=
  z.slotIdx % 8 * 8192 + z.colour.toNat * 1024 + z.bit.toNat * 64 + z.split.toNat * 4 + z.fofs.toNat

/-- The drive code of an emitter array's band reset (R103). -/
def driveCode (p i : Nat) (s : State) : Option (BitVec 16) :=
  if (s.arr p).emitter then some (nth (s.port p).driveTab i) else none

/-- A band reset joins those that wait for the link. -/
def queueReset (p b : Nat) (glob : Bool) (drive duePs : Nat) (s : State) : State :=
  let q := s.port p
  let z := nth q.loaded b
  s.onLink p fun l => { l with resets := l.resets ++ [{
    atNs := s.ns, band := BitVec.ofNat 4 b, tag := BitVec.ofNat 16 (planeTag z), view := z.view, glob := glob, drive := driveCode p drive s
    witness := nth q.witness b, rows := bandHeight p s, duePs := duePs }] }

/-- The first sub-slot boundary at least LEAD_TK after a reload's last row, in ticks of this period. -/
def reloadBoundary (p : Nat) (s : State) : Nat :=
  ceilDiv ((s.port p).hold.sentTk + (s.port p).leadTk.toNat - s.frame.toNat * periodTk) 16384 * 16384

/-- The drive code of a reload's band resets: that of the HOLD_SET whose plane it loads, or that in force (R103, R129). -/
def reloadDrive (h : HoldState) : BitVec 6 :=
  match h.req with | some r => if h.reloadFor then r.drive else h.drive | none => h.drive

/-- A band's reset is not sent: the band goes on showing its plane. -/
def withhold (p b : Nat) (s : State) : State := s.onPort p fun q => { q with withheld := q.withheld ||| bit1 16 b }

/-- BAND_RESET_QUEUE: LEAD_TK before u_b(k) the band reset of band b for slot k is queued, unless it is withheld by R221, R258 or
R260, or a scan runs (R318). In hold, a reload's band resets are queued for the sub-slot boundary at which it ends. -/
def execBandResetQueue (p : Fin 4) (b : Fin 16) (s : State) : Host.Outcome State Fault Refusal :=
  let q := s.port p.val
  let k := nth q.bandNext b.val
  .next (if !s.live || !q.enable || s.pictureStops || !(bandSent p.val k b.val s) || bandHeight p.val s = 0 then s
    else if (s.arr p.val).scanQuiet then withhold p.val b.val s
    else if q.held then
      if !(q.st == .hold) || !q.hold.reloading || k != 0 || q.sendSlot = 0 then s
      else
        let s := if q.hold.reloadBad || q.withheld.getLsbD b.val then s
          else queueReset p.val b.val true (reloadDrive q.hold).toNat (psAt (reloadBoundary p.val s) s) s
        s.onPort p.val fun q => { q with bandNext := upd q.bandNext b.val fun _ => 1, bandNs := upd q.bandNs b.val fun _ => s.ns }
    else if !q.stepping || q.slot.toNat + 1 < k || q.withheld.getLsbD b.val then s
    else
      let held := heldLoad q k
      let x := (slotAt p.val k s).getD {}
      let glob := held || x.glob
      let t := q.slotStart + (if q.slot.toNat < k then (q.slots.getD q.slot.toNat {}).dur.toNat else 0)
      queueReset p.val b.val glob (if held then q.hold.drive.toNat else x.drive.toNat)
        (psAt (changeTk q.bandStep.toNat glob t b.val) s) s)

/-- BAND_CHANGEOVER: at u_b(k) band b takes the newest ready exclusion version and shows slot k's plane, unless its reset was
withheld; the underrun intervals that it ends are over (R259). Rows of the band that were never sent are passed over. -/
def execBandChangeover (p : Fin 4) (b : Fin 16) (s : State) : Host.Outcome State Fault Refusal :=
  let q := s.port p.val
  let k := nth q.bandNext b.val
  .next (if !s.live || !q.enable || !q.stepping || s.pictureStops || q.held || q.slot.toNat + 1 < k || bandHeight p.val s = 0 then s
    else
      let sent := bandSent p.val k b.val s
      let s := takeVersion p.val b.val s
      let s := s.onPort p.val fun q =>
        let z := if q.withheld.getLsbD b.val || !sent then nth q.shown b.val else nth q.loaded b.val
        { q with
          shown := upd q.shown b.val fun _ => z, loaded := upd q.loaded b.val fun _ => z
          bandNext := upd q.bandNext b.val fun _ => k + 1, bandNs := upd q.bandNs b.val fun _ => s.ns
          under := q.under.filter fun u => !(u.1 < (k : Int) && u.2 == b.val) }
      let s := if sent then s else
        skipBand p.val k (b.val * bandHeight p.val s) 0 (s.onPort p.val fun q => { q with
          padding := false
          sendSlot := if b.val = 15 then k + 1 else k, sendRow := if b.val = 15 then 0 else (b.val + 1) * bandHeight p.val s })
      noteLit (strobeSet p.val s))

/-! ## Underruns (R258 to R260) -/

/-- The reader buffer does not hold row y that the link must send, from its word n on: band b of slot k is padded from here on and
its reset withheld; the light goes until the band has changed over again, or in a reload until one completes. -/
def underrun (p k b y n : Nat) (s : State) : State :=
  let hold := (s.port p).held
  let s := skipBand p k y n s
  let s := s.onPort p fun q => { q with
    padding := true, withheld := q.withheld ||| bit1 16 b, underrunCnt := sat q.underrunCnt
    under := if hold then q.under else ((k : Int), b) :: q.under
    hold := if hold then { q.hold with reloadBad := true, reloadDark := true } else q.hold }
  strobe (seqRaise p 0x2 s)

/-! ## Packets (R272 to R283) -/

/-- The bytes of a 64-bit word, most significant first. -/
def wordBytes (w : BitVec 64) : List Byte := (leBytes 8 w.toNat).reverse

/-- The two units of a word (R271). -/
def wordUnits (w : BitVec 64) : List (BitVec 32) := [(w >>> 32).truncate 32, w.truncate 32]

/-- Word i of a row's payload: pixel 64 i is its most significant bit (R275). -/
def rowWord (row : BitVec 8192) (i : Nat) : BitVec 64 :=
  BitVec.ofNat 64 ((List.range 64).foldl (fun a j => 2 * a + b2n (row.getLsbD (64 * i + j))) 0)

/-- The header of a row packet (R275). -/
def rowHeader (z : PlaneId) (b y : Nat) (first pad hold : Bool) : BitVec 64 :=
  BitVec.ofNat 64 (2 ^ 60 + b * 2 ^ 56 + y * 2 ^ 43 + planeTag z * 2 ^ 27 + z.view.toNat * 2 ^ 24 + b2n first * 2 ^ 23 +
    b2n pad * 2 ^ 22 + b2n z.zero * 2 ^ 21 + b2n hold * 2 ^ 20)

/-- The two words of a band reset with its RSEQ and DELAY (R278). -/
def resetWords (r : QReset) (rseq : BitVec 8) (delay : Nat) : List (BitVec 64) :=
  [BitVec.ofNat 64 (2 * 2 ^ 60 + r.band.toNat * 2 ^ 56 + rseq.toNat * 2 ^ 48 + r.tag.toNat * 2 ^ 32 + r.view.toNat * 2 ^ 29 +
     b2n r.glob * 2 ^ 28 + b2n r.drive.isSome * 2 ^ 27 + (r.drive.getD 0).toNat),
   BitVec.ofNat 64 (r.witness.toNat * 2 ^ 32 + delay % 65536 * 2 ^ 16 + r.rows % 8192 * 8)]

/-- The row that the port must send now, as (slot, row): R101 lets band b's rows of slot k leave once the band has changed over to
slot k − 1, after those of band b − 1. Nothing leaves during a scan (R318). -/
def rowDue (p : Nat) (s : State) : Option (Nat × Nat) :=
  let q := s.port p
  let h := bandHeight p s
  let runs := if q.held then q.st == .hold && q.hold.reloading else q.enable && q.stepping
  if !runs || h = 0 || (s.arr p).scanQuiet || s.pictureStops || (q.held && q.sendSlot != 0) then none
  else if nth q.bandNext (q.sendRow / h) = q.sendSlot then some (q.sendSlot, q.sendRow) else none

/-- The row at (k, y) leaves: the words of its packet, and the state with its witness, its audit, and the next row in turn. -/
def sendRow (p k y : Nat) (s : State) : List (BitVec 64) × State :=
  let h := bandHeight p s
  let b := y / h
  let first := y % h = 0
  let s := noteStart p k s
  let z := loadPlane p k s
  let s := if first then s.onPort p fun q => { q with
      padding := false, loaded := upd q.loaded b fun _ => z, withheld := q.withheld &&& ~~~(bit1 16 b)
      witness := upd q.witness b fun _ => 0, rowCnt := upd q.rowCnt b fun _ => 0 } else s
  let got := ((s.port p).rows.find? fun x => x.1 == k && x.2.1 == y).map (·.2.2)
  let w := (s.arr p).width / 64
  let avail := match (s.port p).cut with | some c => if c.1 = k ∧ c.2.1 = y then min w c.2.2 else w | none => w
  let pad := (s.port p).padding || (!z.zero && got.isNone)
  let s := if !(s.port p).padding && !z.zero && (got.isNone || avail < w) then
    underrun p k b y (if got.isNone then 0 else avail) s else s
  let q := s.port p
  let row := if z.zero then 0 else maskRow p b z.view.toNat y (got.getD 0) s
  let row := if avail < w then row &&& BitVec.ofNat 8192 (2 ^ (64 * avail) - 1) else row
  let real := (List.range avail).map (rowWord row)
  let words := if pad then List.replicate w q.lastWord else real ++ List.replicate (w - avail) (real.getLastD q.lastWord)
  let pkt := rowHeader z b y first pad (q.held || heldLoad q k) :: words
  let n := if pad then 0 else auditCount p b z.view.toNat y row s
  let crc := crc32c (pkt.flatMap wordBytes)
  let s := s.onPort p fun q => { q with
    lastWord := words.getLastD q.lastWord
    witness := upd q.witness b (· ^^^ crc), rowCnt := upd q.rowCnt b (· + 1)
    rows := q.rows.filter fun x => !(x.1 == k && x.2.1 == y), cut := q.cut.filter fun c => !(c.1 == k && c.2.1 == y)
    sendSlot := if y + 1 < 16 * h then k else k + 1, sendRow := if y + 1 < 16 * h then y + 1 else 0
    hold := if q.held then { q.hold with sentTk := absTick s } else q.hold }
  (pkt, if n = 0 then s else auditHit p b z.view.toNat y (planeTag z) n s)

/-! ## Lane frames (R265 to R274) -/

/-- The active lanes of a READY port in ascending logical order, as (octet, array octet, position). -/
def activeLanes (p : Nat) (s : State) : List (Nat × Nat × Nat) :=
  (List.range (octetsOf p s).length).flatMap fun a => match octetAt p a s with
    | none => []
    | some k =>
      let o := s.octet k
      ((List.range 8).filter fun q => !(o.stripe7 && o.dead.toNat == q)).map fun q => (k, a, q)

/-- The frame of one lane of octet k. -/
def laneFrame (p k lane : Nat) (type : BitVec 4) (units : List (BitVec 32)) (s : State) : LaneFrame :=
  let o := s.octet k
  { lane := BitVec.ofNat 7 lane, fcnt := (s.link p).fcnt, type := type, stripe7 := o.stripe7, dead := o.dead, units := units
    preamble := (s.link p).resume }

/-- Three times the UI of a lane-rate code in ps. -/
def ui3 (rate : Nat) : Nat := if rate = 3 then 100 else if rate = 2 then 200 else 400

/-- Line bits of a lane that precede its unit i: the preamble, SYNC, and the stuffed bits of the header and the units before. -/
def bitsBefore (f : LaneFrame) (i : Nat) : Nat :=
  let plain := msb 40 f.hdr ++ (List.range i).flatMap fun j => msb 32 (f.units.getD j 0).toNat
  (if f.preamble then 4096 else 0) + 24 + (stuff false 0 (scramble (scrSeed (f.lane.toNat * 2 ^ 24 + f.fcnt.toNat)) plain)).length

/-- The units of an interval that lane j of n carries. -/
def laneUnits (us : List (BitVec 32)) (n j : Nat) : List (BitVec 32) :=
  (List.range (ceilDiv (us.length - j) n)).map fun i => us.getD (i * n + j) 0

/-- The instant, in 1/3 ps, at which the frame interval that ends now began: where the last one ended, and at most 4,266 UI ago
(R270). -/
def intervalStart (p : Nat) (s : State) : Nat := max (3000 * (s.link p).frameNs) (3000 * s.ns - 4266 * ui3 (portRate p s))

/-- The instant, in 1/3 ps, at which the first bit of the next unit of the interval leaves. -/
def unitStart (p : Nat) (us : List (BitVec 32)) (s : State) : Nat :=
  let ls := activeLanes p s
  let n := ls.length
  let j := us.length % n
  let l := ls.getD j (0, 0, 0)
  let f := laneFrame p l.1 (8 * l.2.1 + l.2.2) 1 (laneUnits us n j) s
  intervalStart p s + bitsBefore f (us.length / n) * ui3 (portRate p s)

/-- DELAY of a band reset whose first unit is the next of the interval (R279); 0 when its changeover is already past. -/
def delayOf (p : Nat) (r : QReset) (us : List (BitVec 32)) (s : State) : Nat :=
  let left : Int := 3 * (r.duePs : Int) - unitStart p us s - 3 * (s.link p).allot.flightPs.toNat
  min 65535 (roundDiv left (8 * ui3 (portRate p s))).toNat

/-- A packet queued at an instant waits at the packet boundary that follows the units given. -/
def queuedBy (atNs p : Nat) (us : List (BitVec 32)) (s : State) : Bool :=
  3000 * atNs ≤ intervalStart p s || decide (3000 * atNs ≤ unitStart p us s)

/-- A band reset that waits at the next packet boundary of the interval: queued by its start, or by that boundary (R273). -/
def resetReady (p : Nat) (us : List (BitVec 32)) (s : State) : Option (QReset × List QReset) :=
  match (s.link p).resets with
  | [] => none
  | r :: rs => if queuedBy r.atNs p us s then some (r, rs) else none

/-- The control packet that starts at the next packet boundary, with those after it. -/
def ctrlReady (p : Nat) (us : List (BitVec 32)) (s : State) : Option (List (BitVec 64) × List (Nat × List (BitVec 64))) :=
  match (s.link p).ctrl with
  | [] => none
  | c :: cs => if queuedBy c.1 p us s then some (c.2, cs) else none

/-- The instant, in ns, at which a row that is due was queued: since then its band may take it. -/
def rowNs (p row : Nat) (s : State) : Nat := nth (s.port p).bandNs (row / bandHeight p s)

/-- The next packet of a READY port's stream: band resets first, then control packets, then rows (R273); an idle word when there is
none. -/
def nextPacket (p : Nat) (us : List (BitVec 32)) (s : State) : List (BitVec 64) × State :=
  match resetReady p us s with
  | some (r, rs) =>
    let rseq := (s.link p).rseq
    let e : SentReset := { rseq := rseq, band := r.band, witness := r.witness, due := r.duePs / 1000 }
    (resetWords r rseq (delayOf p r us s), s.onLink p fun l => { l with resets := rs, rseq := l.rseq + 1, sent := l.sent ++ [e] })
  | none =>
    match ctrlReady p us s with
    | some (c, cs) => (c, s.onLink p fun l => { l with ctrl := cs })
    | none => match (rowDue p s).filter fun r => queuedBy (rowNs p r.2 s) p us s with
      | some r => sendRow p r.1 r.2 s
      | none => ([0], s)

/-- The units of an interval, at least n of them: what is left of the packet in hand, then packets. -/
def fillUnits (p n : Nat) : Nat → List (BitVec 32) → State → List (BitVec 32) × State
  | 0, us, s => (us, s)
  | f + 1, us, s =>
    if n ≤ us.length then (us, s)
    else
      let r := nextPacket p us s
      fillUnits p n f (us ++ r.1.flatMap wordUnits) r.2

/-- The frames of an interval have been sent. -/
def framesSent (p : Nat) (fs : List LaneFrame) (s : State) : State :=
  let s := eachOctet p (fun k s => s.onOctet k fun o => { o with frameCnt := o.frameCnt + 1 }) s
  s.onLink p fun l => { l with lastFrames := paced fs, fcnt := l.fcnt + 1, resume := false, frameNs := s.ns }

/-- The lanes of the port by octet and position, ascending by LANE. -/
def allLanes (p : Nat) (s : State) : List (Nat × Nat × Nat) :=
  (List.range (octetsOf p s).length).flatMap fun a => match octetAt p a s with
    | none => []
    | some k => (List.range 8).map fun q => (k, a, q)

/-- An interval of STREAM frames; an excluded lane carries a TRAIN frame (R271, R274). -/
def streamInterval (p : Nat) (s : State) : State :=
  let ls := activeLanes p s
  let n := 125 * ls.length
  let r := fillUnits p n n (s.link p).cur s
  let us := r.1.take n
  let fs := (allLanes p s).map fun l =>
    let lane := 8 * l.2.1 + l.2.2
    match ls.findIdx? (· == l) with
    | some j => laneFrame p l.1 lane 1 (laneUnits us ls.length j) s
    | none => laneFrame p l.1 lane 2 [] s
  framesSent p fs (r.2.onLink p fun l => { l with cur := r.1.drop n })

/-- An interval of TRAIN frames. In forward training a waiting control packet goes in STREAM frames on lane 0 of each octet (R291); in
the first pass the lanes carry the numbers of the device lanes (R292). -/
def trainInterval (p : Nat) (training : Bool) (s : State) : State :=
  let ks := octetsOf p s
  let f := ks.headD 0
  let pkt := if training then ((s.link p).ctrl.headD (0, [])).2 else []
  let us := pkt.flatMap wordUnits
  let fs := ks.flatMap fun k =>
    let o := s.octet k
    (List.range 8).map fun q =>
      let lane := if training && !o.pass2 then 8 * (k - f) + q else 8 * o.aoct.toNat + q
      if q = 0 && !pkt.isEmpty then laneFrame p k lane 1 us s else laneFrame p k lane 2 [] s
  framesSent p fs (s.onLink p fun l => { l with ctrl := if training then l.ctrl.drop 1 else l.ctrl })

/-- Every octet of the port is in state x. -/
def allIn (p : Nat) (x : OctSt) (s : State) : Bool :=
  !(octetsOf p s).isEmpty && (octetsOf p s).all fun k => (s.octet k).st == x

/-- The port is in hold and no reload is running or decided (R297). -/
def holdIdle (p : Nat) (s : State) : Bool :=
  (s.port p).st == .hold && (s.port p).hold.on && !(s.port p).hold.reloading && (s.port p).hold.reloadAts.isEmpty

/-- LINK_FRAME_INTERVAL: the port has sent one frame on each of its lanes; between keep-alive bursts the lanes are in electrical idle. -/
def execLinkFrameInterval (p : Fin 4) (s : State) : Host.Outcome State Fault Refusal :=
  .next (if !s.live then s
    else if allIn p.val .fwdTrain s then trainInterval p.val true s
    else if allIn p.val .capsWait s then streamInterval p.val s
    else if !(portReady p.val s) then s
    else if holdIdle p.val s then (if (s.link p.val).allot.kaBurst then s else trainInterval p.val false s)
    else streamInterval p.val s)

/-- KEEPALIVE_BURST: in hold, with KA_BURST set and no reload running, a preamble and one KEEPALIVE frame go out on every lane. -/
def execKeepaliveBurst (p : Fin 4) (s : State) : Host.Outcome State Fault Refusal :=
  .next (if s.live && portReady p.val s && holdIdle p.val s && (s.link p.val).allot.kaBurst then
    let fs := (allLanes p.val s).map fun l => { laneFrame p.val l.1 (8 * l.2.1 + l.2.2) 3 [] s with preamble := true }
    let s := eachOctet p.val (fun k s => s.onOctet k fun o => { o with kaCnt := sat o.kaCnt }) s
    s.onLink p.val fun l => { l with lastFrames := paced fs, fcnt := l.fcnt + 1, frameNs := s.ns }
  else s)

end Sys2Proof.Machine
end

