-- ==== Sys2Proof/Machine/Boundary.lean ====
section
/-!
DEFINITION. The period boundary (R41, R117): the commands that await it (R443, R444), the timing mode (R81 to R90), the link, the
sequences and the selection of frames, and the start of each port's period.
-/
namespace Sys2Proof.Machine

/-! ## Commands that await a boundary (R443, R444) -/

/-- The commands whose apply point is a period boundary. -/
def boundaryOps : List OpSpec :=
  [specViewBind, specTimingCommit, specPhaseMarkSet, specSeqPortSet, specSeqCommit, specSeqDriveSet, specIllDeviceSet,
   specIllWeightSet, specIllFade, specIllTcSet, specIllStringSet, specIllDiagSet, specLinkAllot, specAhmPolicySet, specAhmScan,
   specAhmPark, specCmpCommit, specFabChainGo, specFabParamSet, specMemReserveSet]

/-- What waits with a command that its boundary refuses is given up. -/
def clearHeld (h : Held) (s : State) : State :=
  if h.opcode = 0x0103 then s.onTim fun t => { t with commit := none, commitMode := none }
  else if h.opcode = 0x0202 then forN 4 (fun p s => s.onPort p fun q =>
    if q.commit == some h then { q with commit := none, commitSeqs := none, commitDue := false } else q) s
  else if h.opcode = 0x0600 then s.onGlk fun g => { g with pending := none }
  else if h.opcode = 0x0611 then s.onArr h.cmd.tindex.toNat fun a => { a with scanPending := none }
  else if h.opcode = 0x0705 then dropCommit h s
  else if h.opcode = 0x0802 then s.onFview h.cmd.tindex.toNat fun f => { f with goCmd := none }
  else s

/-! ## The timing mode (R81 to R90) -/

/-- Two modes have the same nominal rate. -/
def sameRate (a b : TimMode) : Bool := a.rateN * b.rateD == b.rateN * a.rateD

/-- A camera's state with nothing but its counters kept. -/
def freshCam (c : CamState) : CamState :=
  { missCnt := c.missCnt, rejectCnt := c.rejectCnt, lostCnt := c.lostCnt, conflictCnt := c.conflictCnt }

/-- A camera at a committed mode: disabled, acquiring anew, or as it was (R71, R83). -/
def commitCam (change : Bool) (old new : CamCfg) (c : CamState) : CamState :=
  if !new.enable then freshCam c
  else if change || !old.enable then { freshCam c with mode := .acquiring, fellBack := true }
  else c

/-- The phase keeper turns to the committed mode's first source (R51, R82, R84). -/
def commitSource (keep change : Bool) (m : TimMode) (s : State) : State :=
  match m.srcList.map (·.toNat) with
  | [] => goPhase .unlocked 0 (s.onTim fun t => { t with stepNext := false, graced := false })
  | 3 :: _ => goPhase .locked 3 ((setRate 0 s).onTim fun t => { t with stepNext := false, graced := false })
  | c :: _ =>
    if keep then s
    else enterSource c change (if change then s.onTim fun t => { t with
      srcs := upd t.srcs c fun x => { x with valid := true, badPeriods := 0 } } else s)

/-- A committed mode applies (R81 to R84). One that keeps the nominal rate completes here; one that changes it takes every port
into SETTLE and completes when that ends. A commit that keeps the rate while SETTLE runs, or after LOCK_TIMEOUT, completes DONE here
too, starts the settle limit anew and lets SETTLE end at lock again (DESIGN CHOICE, notes/assumptions/114.md). -/
def applyTiming (h : Held) (s : State) : State :=
  let t := s.tim
  let m := t.commitMode.getD t.shadow
  let change := !(sameRate t.mode m)
  let keep := !change && t.st == .locked && m.srcList.head?.map (·.toNat) == some t.src.toNat &&
    (!(isEdgeSrc t.src.toNat) || srcOfs t.src.toNat m == srcOfs t.src.toNat t.mode)
  let s := s.onTim fun t => { t with
    mode := m, commitMode := none, settleExpired := false, settleFrom := s.ns, timebaseFault := s.mgt.clkStatus.getLsbD 0 || s.mgt.clkStatus.getLsbD 3
    cams := Vector.ofFn fun c => commitCam change (nth t.mode.cams c.val) (nth m.cams c.val) t.cams[c]
    srcs := Vector.ofFn fun i => if 4 ≤ i.val && !(nth m.cams (i.val - 4)).enable then {} else t.srcs[i] }
  let s := if change then ((setRate 0 s).onTim fun t => { t with
      settle := true, settleCnt := sat t.settleCnt, rateHist := [], missHist := [] }).onSeq fun q => { q with reval := true } else s
  let s := if change then forN 4 (fun p s => if (s.port p).enable then settleCauses p s else s) s else s
  let s := commitSource keep change m s
  if change then s else complete h .done 0 (s.onTim fun t => { t with commit := none })

/-- SETTLE by R83 ends at the first boundary at or after the phase keeper enters LOCKED (R86). -/
def endSettle (s : State) : State :=
  if s.tim.settle && !s.tim.settleExpired && s.tim.st == .locked then
    let h := s.tim.applied
    completeOpt h .done 0 (s.onTim fun t => { Tim.answered t with settle := false })
  else s

/-! ## Applying what is due -/

/-- An allotment applies, and the sequences are validated again (R24, R114). -/
def applyAllotment (h : Held) (s : State) : State := (applyAllot h s).onSeq fun q => { q with reval := true }

/-- The APPLY entry with JSEQ j of a command that has now applied carries its target's epoch after it (R453). -/
def applyEpoch (h : Held) (j : BitVec 64) (s : State) : State :=
  s.onHif fun x => { x with journal := x.journal.map fun e =>
    if e.jseq = j ∧ e.kind = .apply ∧ e.ref = h.jseq then { e with epochNow := epochNow h.cmd.tclass h.cmd.tindex.toNat s } else e }

/-- A command reaches its boundary. One held by APPLY_AT repeats its own checks, and a failing one completes without applying. -/
def applyHeld (h : Held) (s : State) : State :=
  match boundaryOps.find? fun x => x.op == h.opcode with
  | none => s
  | some sp =>
    let bad := if h.due.isNone then none else match sp.recheck with | some f => f h s | none => sp.check h.cmd s
    match bad with
    | some r => complete h r.status r.detail (clearHeld h s)
    | none =>
      if sp.late then sp.apply h s
      else
        let s := journalApply h s
        let j := s.hif.jseq
        applyEpoch h j (if h.opcode = 0x0103 then applyTiming h s else if h.opcode = 0x0600 then applyAllotment h s else sp.apply h s)

/-- The due commands of a step apply in JSEQ order. -/
def applyGroup (f : Nat → Bool) (hs : List Held) (s : State) : State :=
  (hs.filter fun h => f h.opcode.toNat).foldl (fun s h => applyHeld h s) s

/-- Commands with a step of R117 of their own. -/
def hasStep (op : Nat) : Bool := op == 0x0103 || op == 0x0600 || op == 0x0202

/-! ## Ports at a boundary -/

/-- A port holds no active sequence. -/
def noSeq (q : Port) : Bool := (q.seq 0).isNone && !q.allBlack

/-- The state of a port (SEQ_Pp_STATUS.STATE). In a timebase fault (R61), for which the table names no state, an enabled port reads DARK
(DESIGN CHOICE, notes/assumptions/115.md). -/
def portStateOf (p : Nat) (s : State) : PortSt :=
  let q := s.port p
  if !q.enable || (octetsOf p s).isEmpty then .off
  else if s.pictureStops || s.tim.timebaseFault then .dark
  else if s.tim.settle || q.linkSettle then .settle
  else if noSeq q then .off
  else if q.hold.on then .hold
  else if q.blackKind q.kind.toNat || q.noFallback then .dark
  else .run

/-- The ports take their states. -/
def setStates (s : State) : State := forN 4 (fun p s => s.onPort p fun q => { q with st := portStateOf p s }) s

/-- What outlasts a sequencer port's domain, which switches off with the port (R29): its SEQ_PORT_SET, a commit that is still to be
answered, and the counters and sticky bits that only PORST_N clears (R133). -/
def Port.off (q : Port) : Port :=
  { linkSet := q.linkSet, settleNs := q.settleNs, leadNs := q.leadNs, commitSeqs := q.commitSeqs, commit := q.commit
    commitDue := q.commitDue, sticky := q.sticky, repeatCnt := q.repeatCnt, underrunCnt := q.underrunCnt
    fallbackCnt := q.fallbackCnt, nofbCnt := q.nofbCnt, substCnt := q.substCnt, darkCnt := q.darkCnt, reloadCnt := q.reloadCnt }

/-- A port is disabled: what it holds, loads and shows is lost with its domain, and a hold ends. -/
def disablePort (p : Nat) (s : State) : State :=
  let h := (s.port p).hold
  ahmFollow p (completeOpt h.cmd (if h.on then .done else .timeout) 0 (s.onPort p Port.off))

/-- The effects of a change of a port's enable: a port that is enabled enters SETTLE, where it waits for its link (R24, R306). -/
def followEnable (was : List Bool) (s : State) : State :=
  let s := forN 4 (fun p s =>
    match was.getD p false, (s.port p).enable with
    | true, false => disablePort p s
    | false, true => settleCauses p (s.onPort p fun q => { q with linkSettle := true })
    | _, _ => s) s
  if was.any id && !((List.range 4).any fun p => (s.port p).enable) then sweepBuffers (xclDomainOff s) else s

/-- The link's part of SETTLE ends once the port is READY (R24), and rows leave again after a scan (R321). -/
def endLinkSettle (s : State) : State :=
  forN 4 (fun p s =>
    let s := s.onPort p fun q => { q with linkSettle := q.linkSettle && !(portReady p s) && !(octetsOf p s).isEmpty }
    s.onArr p fun a => { a with scanQuiet := a.scanQuiet && a.scanRun.isSome }) s

/-- The picture path restarts by R524: the arrays that R522 parked are released. -/
def restartPicture (s : State) : State :=
  forN 4 (fun p s =>
    if (s.arr p).parkShutdown then sendCtrl p 0x22 0 (s.onArr p fun a => { a with parkShutdown := false }) else s)
    (s.onThm fun t => { t with restartDue := false })

/-- Every frame that a port's sequence needs is complete (R132). -/
def exitReady (p : Nat) (s : State) : Bool :=
  let c := exitPort p s
  let sh := exitShows p s
  sh.all fun x => (selectBuf x.1 x.2.1 c.frame.toNat (needSlots x.1 x.2.1 sh c) c).1.isSome

/-- A port whose HOLD_EXIT waits leaves hold (R132). -/
def leaveHold (p : Nat) (s : State) : State :=
  let q := s.port p
  if q.hold.on && q.hold.exiting && !q.linkSettle && !s.tim.settle && !s.pictureStops && exitReady p s then
    let h := q.hold.cmd
    completeOpt h .done 0 ((s.onPort p fun q => { q with hold := {}, st := .run }).onLink p fun l => { l with resume := l.allot.kaBurst })
  else s

/-- The frames of the period are selected: those of the selection point, and for pairs that it did not name those that were complete
then (R118, R256, R257). -/
def takeSelection (s : State) : State :=
  let early := ((List.range 4).findSome? fun p => (s.port p).selNext).getD []
  let now := selectAll (backNow s) (fun p => (s.port p).kind.toNat) s.frame.toNat s
  let sel := now.map fun e => (early.find? fun f => f.view == e.view && f.fofs == e.fofs).getD e
  (forN 4 (fun p s => s.onPort p fun q => { q with sel := if q.enable && !q.hold.on then sel else [], selNext := none }) s).onSeq
    fun q => { q with bufsAt := none }

/-! ## The reader at a boundary (R255, R257) -/

/-- A port starts its slots anew: slot 0 has no plane of its own, and its light waits for the changeovers to slot 1. -/
def beginReader (q : Port) : Port :=
  { q with
    rows := [], cut := none, started := [], fetchSlot := 1, fetchRow := 0, sendSlot := 1, sendRow := 0, bandNext := Vector.replicate 16 1
    withheld := 0, padding := false, under := (List.range 16).map fun b => (0, b) }

/-- The slots of a port that goes on are counted from the new period. -/
def shiftReader (n : Nat) (q : Port) : Port :=
  { q with
    rows := (q.rows.filter fun x => n ≤ x.1).map fun x => (x.1 - n, x.2)
    cut := (q.cut.filter fun x => n ≤ x.1).map fun x => (x.1 - n, x.2)
    started := (q.started.filter fun x => n ≤ x.1).map fun x => (x.1 - n, x.2)
    fetchSlot := q.fetchSlot - n, fetchRow := if n ≤ q.fetchSlot then q.fetchRow else 0
    sendSlot := q.sendSlot - n, sendRow := if n ≤ q.sendSlot then q.sendRow else 0
    bandNext := q.bandNext.map fun k => k - n
    under := q.under.map fun u => (u.1 - (n : Int), u.2) }

/-- Slot j turns out to show another plane than the one started on: its rows are discarded, and the bands whose rows have left
underrun (R257, R258). -/
def discardRows (p j : Nat) (s : State) : State :=
  let q := s.port p
  let h := max 1 (bandHeight p s)
  let gone := if j < q.sendSlot then 16 else if q.sendSlot = j then ceilDiv q.sendRow h else 0
  let s := s.onPort p fun q => { q with
    rows := q.rows.filter fun x => x.1 < j, cut := q.cut.filter fun x => x.1 < j, started := q.started.filter fun x => x.1 < j
    fetchSlot := min q.fetchSlot j, fetchRow := if j ≤ q.fetchSlot then (if q.sendSlot = j then gone * h else 0) else q.fetchRow }
  if gone = 0 then s
  else seqRaise p 0x2 (s.onPort p fun q => { q with
    under := ((List.range gone).map fun b => ((j : Int), b)) ++ q.under, underrunCnt := satN q.underrunCnt gone
    withheld := (List.range gone).foldl (fun w b => w ||| bit1 16 b) q.withheld
    padding := q.padding || (q.sendSlot == j && q.sendRow % h != 0) })

/-- The reader of a port that goes on into the new period: the first slot that it started on for another plane than the boundary
gives it is discarded, and what it started on after that. -/
def carryReader (p n : Nat) (s : State) : State :=
  let s := s.onPort p (shiftReader n)
  let stale := (s.port p).started.filter fun x =>
    let z := planeAt p x.1 s
    !((z.zero && x.2.zero) || (z.zero == x.2.zero && z.base == x.2.base))
  match (stale.map (·.1)).min? with
  | some j => discardRows p j s
  | none => s

/-- What the boundary remembers of a port from before it. -/
structure PortWas where
  st : PortSt := .off
  enable : Bool := false
  stepping : Bool := false
  settling : Bool := false
  slots : Nat := 0
  seven : Bool := false
  deriving DecidableEq, Repr, Inhabited

/-- The port as it ends its period. -/
def portWas (p : Nat) (s : State) : PortWas :=
  let q := s.port p
  { st := q.st, enable := q.enable, stepping := q.enable && q.stepping && !q.held, settling := s.tim.settle
    slots := q.slots.length, seven := anySeven p s }

/-- A HOLD_SET that names the plane already held changes the light settings at a boundary (R130). -/
def takeLevel (p : Nat) (s : State) : State := if otherPlane (s.port p).hold then s else takeRequest p s

/-- A port in hold begins sub-slot 0; one that comes back into hold from SETTLE loads its plane again first, and so does one whose
octets have changed between 8 and 7 lanes (R131). -/
def startHeld (p : Nat) (w : PortWas) (s : State) : State :=
  let s := if w.st == .hold then s
    else askReload p (s.onPort p fun q => { idleReader q with withheld := 0, hold := { q.hold with reloading := false, reloadDark := true } })
  let s := if w.st == .hold && w.seven != anySeven p s then askReload p s else s
  beginSubslot p 0 (takeLevel p s)

/-- The window check of R79 for the slots of the period that begins; none after SETTLE by R83. -/
def periodConflicts (m : TimMode) (p : Nat) (w : PortWas) (s : State) : List (Nat × Nat) :=
  let q := s.port p
  if w.settling || q.st != .run then [] else conflictsOf m q.slots s

/-- A port starts its period: hold, its slot 0, or nothing. -/
def startPort (m : TimMode) (p : Nat) (w : PortWas) (s : State) : State :=
  let q := s.port p
  if q.st == .hold then startHeld p w s
  else if q.enable && q.stepping && !q.held && !s.pictureStops then
    if holdBegins q && w.st == .run then beginHold p s
    else
      let go := w.stepping && w.st == q.st && decide (0 < w.slots)
      let s := if go then carryReader p w.slots s else s.onPort p beginReader
      let cs := periodConflicts m p w s
      let s := if q.st == .run || (s.xset p).taken then s else takeAll p s
      startSlot p 0 0 (s.onPort p fun q => { q with conflicts := cs, hold := { q.hold with breakSeen := false } })
  else
    let s := if (s.xset p).taken then s else takeAll p s
    s.onPort p fun q => { q with
      slot := 0, slotStart := 0, entries := Vector.replicate 4 0, slotDark := true, settling := false, conflicts := []
      hold := { q.hold with breakSeen := false } }

/-- The compositor and the fabric stop once every enabled port is in hold, and run again when one is not (R128); the self-refresh of R417
is then not in force any more. -/
def followHold (was : Bool) (s : State) : State :=
  if !(allHold s) then (s.onFab fun f => { f with stopped := false }).onMem fun m => { m with selfRefresh := m.selfRefresh && wantsSelfRefresh s }
  else if was || s.fab.stopped then s
  else (stopFabric s).raise .selfRefreshEntry

/-! ## The boundary (R117) -/

/-- What kept a frame buffer HELD up to the boundary alone ends (R250). -/
def releaseBufs (s : State) : State :=
  s.onSlc fun x => { x with stores := x.stores.map fun st => { st with bufs := st.bufs.map fun b => { b with keep := false } } }

/-- The period that ends: its last slots, references, cameras, fades and strings are judged; TIM_FRAME increments (R42). -/
def endPeriod (s : State) : State :=
  let s := forN 4 (fun p s => if (s.port p).enable && (s.port p).stepping && !(s.port p).held then endSlot p s else s) s
  let s := carryMarks (releaseBufs s)
  let f := s.frame + 1
  let s := endLoopPeriod (endLightPeriod (s.hif.deferred.filter (dueAt f)) s)
  let s := { s with frame := f, wrapped := false, phase := if s.wrapped then s.phase else 0 }
  endCamPeriod (endPhasePeriod (s.onHif fun x => { x with deferred := x.deferred.filter fun h => !(dueAt f h) }))

/-- Steps 1 and 2 of R117, after the commands without a step, whose buffers are let go once all of them have been applied (R356): timing mode, allotment, retrains and restripes; then what the link
and the array records bring. -/
def linkSteps (was : Nat → PortWas) (due : List Held) (retrain : List Nat) (s : State) : State :=
  let s := sweepBuffers (applyGroup (fun o => !(hasStep o)) due s)
  let s := followEnable ((List.range 4).map fun p => (was p).enable) s
  let s := endSettle (applyGroup (· == 0x0103) due s)
  let s := boundaryLink retrain (applyGroup (· == 0x0600) due s)
  let s := if s.thm.restartDue then restartPicture s else s
  endLinkSettle (boundaryRecords (forN 4 ahmFollow (wakeOctets s)))

/-- Steps 3 to 6 of R117: re-validation, sequence commits, fallbacks, frame selection. The commits that are complete are returned. -/
def sequenceSteps (due : List Held) (s : State) : State × List Held :=
  let s := memRestart s
  let s := if s.seq.reval then (revalidate s).onSeq fun q => { q with reval := false } else s
  let r := takeCommits (forN 4 leaveHold (applyGroup (· == 0x0202) due s))
  let done := r.2 ++ due.filter fun h => h.opcode = 0x0202 && (commitMask h.cmd).isEmpty
  let s := done.foldl (fun s h => journalApply h s) r.1
  let s := setStates s
  let s := if s.pictureStops then s else setStates (forN 4 choosePort s)
  (countRepeats (takeSelection s), done)

/-- Composition, fabric, slicers and light at a boundary. -/
def pictureSteps (all : Bool) (s : State) : State :=
  let s := if s.thm.shutdown then sweepBuffers s else switchChains (runCommits s)
  let s := powerSlicers (boundaryMark (recheckChains all s))
  raiseEnables (boundaryPulses s)

/-- PERIOD_BOUNDARY: the tick count has returned to 0. -/
def periodBoundary (s : State) : State :=
  let m := s.tim.mode
  let ws := (List.range 4).map fun p => portWas p s
  let was (p : Nat) : PortWas := ws.getD p {}
  let held := allHold s
  let retrain := (List.range 4).filter fun p => (s.arr p).retrainDue
  let due := s.hif.deferred.filter (dueAt (s.frame + 1))
  let s := linkSteps was due retrain (endPeriod s)
  let all := !(sameRate m s.tim.mode)
  let r := sequenceSteps due s
  let s := pictureSteps all r.1
  let s := forN 4 (fun p s => startPort m p (was p) s) s
  let s := followHold held (s.onSeq fun q => { q with throttleSel := none })
  let s := noteLit (strobe (followMarks (s.onTim fun t => { t with frozen := false })))
  pruneDoms (retarget (r.2.foldl (fun s h => finishCommit h s) s))

def execPeriodBoundary (s : State) : Host.Outcome State Fault Refusal :=
  .next (if s.live then periodBoundary s else { s with wrapped := false })

end Sys2Proof.Machine
end

