-- ==== Sys2Proof/Machine/Phase.lean ====
section
/-!
DEFINITION. What moves the phase of the picture: reference and camera edges, phase samples and steps (R46 to R56, R65 to R68),
and PHASE_STEER (R62 to R64).
-/
namespace Sys2Proof.Machine

/-! ## Steps of the tick count (R54) -/

/-- Every enabled port is dark: none runs its sequence or a held plane. -/
def allPortsDark (s : State) : Bool :=
  s.seq.ports.toList.all fun q => !q.enable || !(q.st == .run || q.st == .hold)

/-- The predictions of the next period are frozen, unless they are already (R69). -/
def freezeAll (s : State) : State :=
  if s.tim.frozen then s else forN 4 freezeCam (s.onTim fun t => { t with frozen := true })

/-- Tick 16,711,680 as a phase. -/
def freezeQ : Nat := 16711680 * 1099511627776

/-- Guarded windows in the ticks of a count that has stepped by d, in 2^-40 tk. -/
def shiftWindows (d : Int) (ws : List (Nat × Nat)) : List (Nat × Nat) :=
  ws.map fun w => ((((w.1 : Int) + roundDiv d 1099511627776) % 16777216).toNat, w.2)

/-- What a camera's measurement knows, frozen or not, is kept in the ticks of a count that has stepped by d, so that its windows stay
at the instants they were measured at (DEDUCED, notes/assumptions/114.md). -/
def CamState.shift (d : Int) (x : CamState) : CamState :=
  { x with predStart := (x.predStart + d) % (periodQ : Int), lastOpen := x.lastOpen.map (CamEdge.shift d)
           cand := x.cand.map (CamEdge.shift d), winNow := shiftWindows d x.winNow, winNext := shiftWindows d x.winNext
           frozenStart := x.frozenStart + BitVec.ofInt 24 (roundDiv d 1099511627776) }

/-- The phase moves by d, in 2^-40 tk, and with it what has been measured in ticks. A move forward past the end of the period makes a
boundary; a move back never leaves the running period. -/
def shiftPhase (d : Int) (s : State) : State :=
  let n := (s.phase.toNat : Int) + d
  let n := if n < 0 then n + (periodQ : Int) else n
  let past := decide ((periodQ : Int) ≤ n)
  let s := s.onTim fun t => { t with cams := t.cams.map (CamState.shift (n - s.phase.toNat)) }
  let s := if past || decide ((freezeQ : Int) ≤ n) then freezeAll s else s
  followMarks { s with phase := BitVec.ofNat 64 n.toNat, wrapped := s.wrapped || past }

/-- A sample of this error steps the tick count: the first after a rate change, and one beyond the lock threshold while every
enabled port is dark. -/
def sampleSteps (err : Int) (s : State) : Bool :=
  s.tim.stepNext || (allPortsDark s && s.tim.mode.lockThrNs < err.natAbs)

/-- The step: no phase sample, but delivered for R56, and the lock count starts again. -/
def stepPhase (d : Int) (s : State) : State :=
  shiftPhase d (s.onTim fun t => { t with stepNext := false, lockRun := 0, sampleSeen := true })

/-! ## Phase samples (R44, R52, R53, R55) -/

/-- The lock and unlock criteria. -/
def lockSample (err : Int) (s : State) : State :=
  let m := s.tim.mode
  if s.tim.st = .acquiring then
    let run := if err.natAbs ≤ m.lockThrNs then s.tim.lockRun + 1 else 0
    if m.lockCount ≤ run then goPhase .locked s.tim.src.toNat s else s.onTim fun t => { t with lockRun := run }
  else if s.tim.st = .locked then
    let run := if m.unlockThrNs < err.natAbs then s.tim.unlockRun + 1 else 0
    if m.unlockCount ≤ run then
      timRaise 0x1 (goPhase .acquiring s.tim.src.toNat (s.onTim fun t => { t with unlockCnt := sat t.unlockCnt }))
    else s.onTim fun t => { t with unlockRun := run }
  else s

/-- The time since the loop's last sample in ns, a whole nominal period at most: a period without a sample leaves the rate
unchanged (R56, R62). -/
def sampleNs (s : State) : Nat :=
  match s.tim.loopNs with | some n => min (s.ns - n) (s.rd * 1000000000 / s.rn) | none => 0

/-- The integrator of the type-2 loop of damping factor 1 after a sample (R55), in 1/loopUnit ppb: a quarter of the square of the
gain times the error, over the time since the last sample, and the rate hint of a PHASE_STEER. It holds within the pull range. -/
def loopIntegral (err hint : Int) (s : State) : Int :=
  let k : Int := Config.loopGain s.tim.mode.bwCHz
  clampI (-pullPpb * loopUnit) (pullPpb * loopUnit) (s.tim.loopInt - k * k * sampleNs s * err + hint * loopUnit)

/-- The offset in ppb that the loop asks for: the integrator less the gain times the error (10^-15 of gain units times ns). The
rule gives no rounding of it. -/
def loopRate (err hint : Int) (s : State) : Int :=
  openDiv s.free (loopIntegral err hint s - 4000000000000000 * Config.loopGain s.tim.mode.bwCHz * err) loopUnit

/-- One phase sample: the loop sets the rate, within the pull range, and the criteria are judged. -/
def takeSample (err hint : Int) (s : State) : State :=
  let i := loopIntegral err hint s
  lockSample err ((setRate (loopRate err hint s) s).useFree.onTim fun t => { t with
    phaseErr := BitVec.ofInt 32 err, sampleSeen := true, loopInt := i, loopNs := some s.ns })

/-- SETTLE ends at the boundary that an edge just after it marks (R86): the rest of that boundary is made now. -/
def lateEnd (s : State) : State :=
  let ws := (List.range 4).map fun p => portWas p s
  let held := allHold s
  let r := sequenceSteps [] (endSettle s)
  let s := forN 4 (fun p s => startPort s.tim.mode p (ws.getD p {}) s) r.1
  let s := noteLit (strobe (followMarks (followHold held s)))
  r.2.foldl (fun s h => finishCommit h s) s

/-- An edge of the active source at a phase of a frame: a step, a sample, or neither when it is not well spaced (R54, R56). After a
rate change each later edge is a sample, until the source is next lost (R84). The phase error is rounded to whole nanoseconds before it
is held against the thresholds of R52 to R54, which name no rounding (DESIGN CHOICE, notes/assumptions/114.md). -/
def edgeSample (code : Nat) (ph frame : BitVec 64) (spaced : Bool) (s : State) : State :=
  let near := nearest ph (windowStarts (srcM code s.tim.mode) (srcOfs code s.tim.mode))
  let err := distNs s near.2
  if sampleSteps err s then stepPhase (-near.2) s
  else if spaced || s.tim.graced then
    let t := takeSample err 0 s
    if s.tim.st == .acquiring && t.tim.st == .locked && t.tim.settle && !t.wrapped && near.1 == 0 && (0 ≤ near.2 || frame != t.frame) then
      lateEnd t
    else t
  else s

/-- An edge of a source: its spacing counts toward validity (R49), it may be selected (R50, R58), and an edge of the active
source is used. -/
def sourceEdge (code ns : Nat) (ph frame : BitVec 64) (usable : Bool) (s : State) : State :=
  let spaced := wellSpaced code s ns
  let active := sourceActive s && s.tim.src.toNat == code
  let s := noteEdge code ns spaced s
  if active then (if usable then edgeSample code ph frame spaced s else s) else selectSource s

/-- The frame number of an edge now: a tick count that has returned to 0 belongs to the period that its boundary is still to start. -/
def edgeFrame (s : State) : BitVec 64 := if s.wrapped then s.frame + 1 else s.frame

/-- REF_IN_EDGE: an edge of REF_IN; the selected edge of each pulse counts (R46, R48). -/
def execRefInEdge (rising : Bool) (s : State) : Host.Outcome State Fault Refusal :=
  .next (if s.live && railOn 0 s && rising != s.tim.mode.refFalling then sourceEdge 1 s.ns s.phase (edgeFrame s) true s else s)

/-! ## Camera edges (R65 to R68) -/

/-- An edge of camera c that has outlasted the glitch test is used. One from before the freeze of its period still counts for the
frozen prediction (R69). -/
def camEdge (c : Nat) (e : CamEdge) (s : State) : State :=
  let r := if e.isOpen then camOpen c e s else (camClose c e s, false)
  let s := if s.tim.frozen && e.frame == s.frame && e.phase.toNat < freezeQ then freezeCam c r.1 else r.1
  if e.isOpen then sourceEdge (4 + c) e.ns e.phase e.frame r.2 s else s

/-- Camera c's candidate edge is used once it is 1 µs old, and counts for R75 and R56 in the period in which it is used, where its
timestamp may lie in the one before (DESIGN CHOICE, notes/assumptions/35.md). -/
def settleEdge (c : Nat) (s : State) : State :=
  match (s.cam c).cand with
  | some e => if s.ns < e.ns + 1000 then s else camEdge c e (s.onCam c fun x => { x with cand := none })
  | none => s

/-- The cameras' candidate edges that have become 1 µs old are used. -/
def settleEdges (s : State) : State := forN 4 settleEdge s

/-- Two edges less than 1 µs apart are a glitch (R66), which makes the period not good (R75). -/
def glitch (c : Nat) (s : State) : State :=
  s.onCam c fun x => { x with cand := none, rejectCnt := sat x.rejectCnt, badSeen := true }

/-- CAM_SHUT_EDGE: camera c's shutter input goes to a level; the edge is timestamped and awaits the glitch test. -/
def execCamShutEdge (c : Fin 4) (level : Bool) (s : State) : Host.Outcome State Fault Refusal :=
  .next (if !s.live || !(railOn 0 s) || (s.cam c.val).mode == .off then s
    else
      let s := settleEdge c.val s
      match (s.cam c.val).cand with
      | some _ => glitch c.val s
      | none => s.onCam c.val fun x => { x with cand := some {
          ns := s.ns, phase := s.phase, frame := edgeFrame s, isOpen := level == (nth s.tim.mode.cams c.val).openHigh } })

/-! ## PHASE_STEER (R62 to R64) -/

/-- A phase error in ns as a distance in 2^-40 tk at the nominal rate. -/
def nsToQ (s : State) (err : Int) : Int := roundDiv (err * (s.rn * 18446744073709551616 : Nat)) (s.rd * 1000000000)

/-- PHASE_ERR_NS of a payload exceeds half the nominal period. -/
def steerTooFar (err : Int) (s : State) : Bool := decide (s.rd * 1000000000 < 2 * err.natAbs * s.rn)

/-- FRAME lies more than 16 periods from the current frame number. -/
def steerFrameBad (f : Nat) (s : State) : Bool := decide (16 < (BitVec.ofNat 32 f - s.frame.truncate 32).toInt.natAbs)

/-- An accepted PHASE_STEER: a step, or a sample with its rate hint. The hint of one that steps, which is no sample, has no effect
(DESIGN CHOICE, notes/assumptions/114.md). -/
def steer (b : List Byte) (s : State) : State :=
  let err := i32 b 4
  if sampleSteps err s then stepPhase (-(nsToQ s err)) s
  else takeSample err (if bitOf (u32 b 12) 0 then i32 b 8 else 0) s

def specPhaseSteer : OpSpec where
  op := 0x0104
  cls := [clsTiming]
  len := lenIs 16
  owners := ownConfig
  check c s :=
    let b := Cmd.payload c
    checks [busyIf (s.tim.src != 2), badAt c 0 (steerFrameBad (u32 b 0) s), badAt c 4 (steerTooFar (i32 b 4) s),
      badAt c 12 (u32 b 12 &&& 0xFFFFFFFE != 0)]
  effect h s := { st := (steer (Cmd.payload h.cmd) s).onTim fun t => { t with steerFrom := s.ns } }

def execPhaseSteer (cmd : Cmd) (s : State) : Host.Outcome State Fault Refusal := .next (accept specPhaseSteer cmd s)

end Sys2Proof.Machine
end

