-- ==== Sys2Proof/Machine/Registers.lean ====
section
/-!
DEFINITION. The BAR0 map (R36 to R40): what each register reads as, by block in map order, what a W1C or calibration-window write
does, and the accesses to it.
-/
namespace Sys2Proof.Machine

/-! ## Words and repeated groups -/

/-- The register word of fields given as (lowest bit, value). -/
def packW (fs : List (Nat × Nat)) : Word := BitVec.ofNat 32 (fs.map fun f => f.2 * 2 ^ f.1).sum

def wN (n : Nat) : Word := BitVec.ofNat 32 n
def wI (i : Int) : Word := BitVec.ofInt 32 i

/-- A signed value in the low 16 bits. -/
def i16W (i : Int) : Nat := (BitVec.ofInt 16 i).toNat

/-- The halves of a 64-bit value. -/
def lowW (x : BitVec 64) : Word := x.truncate 32
def highW (x : BitVec 64) : Word := (x >>> 32).truncate 32

/-- Bits from a predicate on indices below n. -/
def maskW (n : Nat) (f : Nat → Bool) : Nat := ((List.range n).map fun i => if f i then 2 ^ i else 0).sum

/-- The copy and the offset in it of an offset among n copies of `stride` bytes from `base` on. -/
def copyOf (base stride n o : Nat) : Option (Nat × Nat) :=
  if base ≤ o ∧ o < base + stride * n then some ((o - base) / stride, (o - base) % stride) else none

/-- The copy when the offset is that of the copy's register at `reg`. -/
def copyAt (base stride n reg o : Nat) : Option Nat :=
  match copyOf base stride n o with
  | some (i, r) => if r = reg then some i else none
  | none => none

/-- Registers at the offsets of a table. -/
def tableW (o : Nat) (t : List (Nat × Word)) : Option Word := (t.find? fun x => x.1 == o).map (·.2)

/-- The first table or group that names the offset. -/
def firstW : List (Option Word) → Option Word
  | [] => none
  | some w :: _ => some w
  | none :: t => firstW t

/-- A group of n copies. -/
def groupW (base stride n o : Nat) (f : Nat → Nat → Option Word) : Option Word :=
  match copyOf base stride n o with
  | some (i, r) => f i r
  | none => none

/-- A register of a domain that is off reads all ones (R38). -/
def gated (on : Bool) (w : Option Word) : Option Word := if on then w else w.map fun _ => 0xFFFFFFFF

/-- A quotient shown in whole units, its rounding open. -/
def shown (a b : Nat) : Nat := a / b + (if a % b = 0 then 0 else b2n (Config.shownUp a b))

/-! ## HIF (R455) -/

/-- Owners, two bits each. -/
def ownersW (os : List HostId) : Nat := os.foldr (fun o n => o.toNat + 4 * n) 0

/-- The rings of function h (0 or 1) that core c serves. -/
def servedRings (c h : Nat) (s : State) : Nat :=
  maskW 4 fun r =>
    let f := nth s.hif.pcie h
    ringOn (nth f.crings r).cfg && servingCore { host := BitVec.ofNat 2 (h + 1), ring := BitVec.ofNat 2 r } s == some c

/-- HIF_CPc_STATUS. -/
def coreW (c : Nat) (s : State) : Word :=
  let a := servedRings c 0 s
  let b := servedRings c 1 s
  let second := a = 0 || (b != 0 && Config.coreHostShown c)
  let st := if !(railOn 3 s) then 0 else match (nth s.hif.cores c).st with | .off => 0 | .idle => 1 | .busy => 2 | .reset => 3
  packW [(0, st), (2, if second then b else a), (6, if a = 0 ∧ b = 0 then 0 else if second then 2 else 1)]

def hifW (o : Nat) (s : State) : Option Word :=
  let x := s.hif
  firstW [
    tableW o [
      (0x00, packW [(0, b2n x.ready), (1, x.cfgOwner.toNat), (3, maskW 3 fun h => (nth x.sess (h + 1)).isOpen),
        (6, maskW 4 fun c => (nth x.cores c).st != .off && railOn 3 s), (10, b2n x.isVolatile)]),
      (0x04, x.sticky.setWidth 32), (0x08, x.unmappedCnt), (0x0C, x.bar2DropCnt), (0x10, lowW x.jhead), (0x14, highW x.jhead),
      (0x18, wN (journalOldest s)), (0x1C, wN (journalOldest s / 2 ^ 32)), (0x20, wN (ownersW x.viewOwner.toList)),
      (0x24, packW [(0, ownersW x.portOwner.toList), (8, ownersW x.chainOwner.toList), (16, ownersW x.xsetOwner.toList)]),
      (0x28, wN (ownersW (x.layerOwner.toList.take 16))), (0x2C, wN (ownersW (x.layerOwner.toList.drop 16))),
      (0x40, x.evtDropCnt), (0x44, wN (applyPending s))],
    groupW 0x30 4 4 o fun k r => tableW r [(0, wN (ownersW ((x.loopOwner.toList.drop (16 * k)).take 16)))],
    groupW 0x120 0x20 3 o fun i r =>
      let q := nth x.sess (i + 1)
      tableW r [(0x00, q.number), (0x04, packW [(0, b2n q.isOpen), (1, b2n q.lease), (2, q.evRing.toNat), (4, b2n q.noEvRing), (16, q.leaseMs.toNat)]),
        (0x08, q.cmdCnt), (0x0C, q.refuseCnt), (0x10, q.badCrcCnt), (0x14, q.lapseCnt)],
    groupW 0x200 0x10 4 o fun c r => tableW r [(0, coreW c s), (4, (nth x.cores c).cmdCnt), (8, (nth x.cores c).resetCnt)]]

/-! ## MGT and SEC (R490) -/

def MgtSt.code : MgtSt → Nat
  | .rom => 0 | .recovery => 1 | .run => 2 | .reinit => 3 | .halt => 4

def SlotSt.code : SlotSt → Nat
  | .empty => 0 | .incomplete => 1 | .valid => 2 | .invalid => 3

def mgtW (o : Nat) (s : State) : Option Word :=
  let m := s.mgt
  firstW [
    tableW o [
      (0x00, packW [(0, m.st.code), (3, runIdx m), (4, b2n m.update.isSome)]), (0x04, m.sticky.setWidth 32), (0x08, m.lockstepCnt),
      (0x0C, m.wdogCnt), (0x10, m.fallbackCnt), (0x14, m.logSeq), (0x18, m.logLostCnt),
      (0x1C, packW [(0, (nth m.slots 0).st.code), (2, (nth m.slots 1).st.code), (4, b2n m.preferB),
        (5, (nth m.slots 0).svn % 128), (12, (nth m.slots 1).svn % 128)]),
      (0x20, m.clkStatus.setWidth 32), (0x24, m.clkSticky.setWidth 32), (0x28, m.clkFaultCnt)],
    groupW 0x40 4 16 o fun w r => tableW r [(0, wN (capsWordOf w s))]]

/-- SEC_Hh_ROLE. -/
def roleW (h : Nat) (s : State) : Word :=
  let t := nth s.sec.lockout h
  packW [(0, (nth s.sec.role h).toNat), (2, (nth s.sec.index h).toNat), (16, shown (t - s.ns) 1000000000)]

def secW (o : Nat) (s : State) : Option Word :=
  let x := s.sec
  firstW [
    tableW o [
      (0x00, packW [(0, x.st.code), (3, b2n s.pwr.vbatGood), (4, x.loopMask.toNat), (8, keysLoaded s), (15, b2n x.markRequired), (16, x.errorCause.toNat)]),
      (0x04, x.sticky.setWidth 32), (0x08, x.tamperCause.setWidth 32), (0x0C, x.authFailCnt), (0x10, x.tagFailCnt),
      (0x14, x.ivReplayCnt), (0x18, x.zeroCnt), (0x20, wN (maskW 32 fun i => (nth x.keys i).loaded)),
      (0x24, wN (maskW 32 fun i => (nth x.keys (32 + i)).loaded))],
    groupW 0x140 0x40 3 o fun i r => firstW [
      tableW r [(0, roleW (i + 1) s)],
      groupW 0x20 4 8 r fun w q => tableW q [(0, wN (u32 ((nth x.nonce (i + 1)).getD []) (4 * w)))]]]

/-! ## TIM (R94) -/

/-- The integer square root, bit by bit from 2^b down. -/
def sqrtFrom : Nat → Nat → Nat → Nat
  | 0, r, x => if (r + 1) * (r + 1) ≤ x then r + 1 else r
  | b + 1, r, x => sqrtFrom b (if (r + 2 ^ (b + 1)) * (r + 2 ^ (b + 1)) ≤ x then r + 2 ^ (b + 1) else r) x

/-- TIM_CAMc_JITTER: the root mean square of the deviations. -/
def jitterW (devs : List Int) : Nat :=
  let n := devs.length
  let q := (devs.map fun d => d.natAbs * d.natAbs).sum
  if n = 0 then 0
  else
    let r := sqrtFrom 20 0 (q / n)
    let v := if r * r * n = q then r else r + b2n (Config.shownUp q n)
    if v < 65536 then v else (Config.jitterOverflow q n).toNat

def PhaseSt.code : PhaseSt → Nat
  | .unlocked => 0 | .acquiring => 1 | .locked => 2 | .holdover => 3

def CamMode.code : CamMode → Nat
  | .off => 0 | .acquiring => 1 | .tracking => 2 | .coasting => 3 | .lost => 4

def timW (o : Nat) (s : State) : Option Word :=
  let t := s.tim
  firstW [
    tableW o [
      (0x00, packW [(0, t.st.code), (2, b2n (t.settle && s.seq.ports.toList.any fun q => q.st == .settle)), (3, b2n t.commit.isSome), (4, t.src.toNat),
        (8, maskW 4 fun c => (s.cam c).seen), (12, maskW 4 fun c => (s.cam c).mode == .lost)]),
      (0x04, t.sticky.setWidth 32), (0x08, wN s.tick), (0x10, lowW s.frame), (0x14, highW s.frame), (0x18, t.phaseErr),
      (0x1C, wI t.rateOfs), (0xA0, t.unlockCnt), (0xA4, t.holdoverCnt), (0xA8, t.refSwitchCnt), (0xAC, t.settleCnt),
      (0xB0, t.lockTimeoutCnt)],
    groupW 0x20 0x20 4 o fun c r =>
      let x := s.cam c
      tableW r [(0x00, packW [(0, x.mode.code), (3, min x.miss 255)]), (0x04, x.frozenStart.setWidth 32), (0x08, x.frozenLen.setWidth 32),
        (0x0C, wN (jitterW x.devs)), (0x10, x.missCnt), (0x14, x.rejectCnt), (0x18, x.lostCnt), (0x1C, x.conflictCnt)]]

/-! ## SEQ (R133) -/

def PortSt.code : PortSt → Nat
  | .off => 0 | .settle => 1 | .run => 2 | .hold => 3 | .dark => 4

/-- A SEQ_COMMIT whose mask names the port awaits its completion reply. -/
def commitWaits (p : Nat) (s : State) : Bool :=
  s.hif.awaiting.any fun h => h.opcode == 0x0202 && (commitMask h.cmd).contains p

def seqW (o : Nat) (s : State) : Option Word :=
  firstW [
    tableW o [(0, s.seq.codes.setWidth 32)],
    groupW 0x100 0x100 4 o fun p r =>
      let q := s.port p
      tableW r [
        (0x00, packW [(0, q.st.code), (3, q.kind.toNat), (5, b2n (commitWaits p s)), (6, b2n q.hold.cmd.isSome), (8, q.slot.toNat)]),
        (0x04, q.sticky.setWidth 32), (0x08, q.bandStep.setWidth 32), (0x0C, q.settleTk.setWidth 32), (0x10, q.leadTk.setWidth 32),
        (0x14, q.dMin.setWidth 32), (0x18, q.repeatCnt), (0x1C, q.underrunCnt), (0x20, q.fallbackCnt), (0x24, q.nofbCnt),
        (0x28, q.substCnt), (0x2C, q.darkCnt), (0x30, q.reloadCnt)]]

/-! ## ILL (R172) -/

def ChainSt.code : ChainSt → Nat
  | .off => 0 | .walk => 1 | .discover => 2 | .run => 3 | .fault => 4

def StrSt.code : StrSt → Nat
  | .unused => 0 | .ok => 1 | .opened => 2 | .shorted => 3 | .senseFault => 4

/-- ILL_Cc_Dd_ROLE. -/
def driverW (d : Driver) : Word :=
  packW [(0, d.epoch.toNat), (16, (d.port.getD 0).toNat), (18, d.group.toNat), (20, b2n d.port.isSome)]

def illW (o : Nat) (s : State) : Option Word :=
  let x := s.ill
  firstW [
    tableW o [
      (0x00, packW [(0, x.code.toNat), (6, b2n s.xcl.safe), (7, b2n (tableChange s))]), (0x04, x.sticky.setWidth 32),
      (0x08, wN (tableNs (fun k => (nth x.drivers k).target) s)), (0x0C, x.starvedCnt), (0x10, x.walkCnt), (0x14, x.walkFailCnt),
      (0x18, x.tableLateCnt), (0x20, x.strOpen.setWidth 32), (0x24, x.strShort.setWidth 32)],
    groupW 0x40 4 6 o fun i r => tableW r [(0, packW [(0, (nth x.tcs i).gain.toNat), (16, (nth x.tcs i).temp.toNat)])],
    groupW 0x100 0x40 4 o fun c r =>
      let q := s.chain c
      tableW r [(0x00, packW [(0, q.st.code), (3, q.n), (9, b2n q.en), (10, b2n (nth x.drivers (c * 32)).tab)]), (0x04, q.sticky.setWidth 32), (0x08, q.respCrcCnt),
        (0x0C, q.rejCnt), (0x10, q.retryCnt), (0x14, q.applySkipCnt), (0x18, q.fltCnt)],
    groupW 0x200 4 128 o fun d r => tableW r [(0, driverW (nth x.drivers d))],
    groupW 0x400 0x10 24 o fun i r =>
      let q := nth x.strs i
      tableW r [(0x00, packW [(0, q.st.code), (3, b2n q.lowduty), (4, b2n q.isStale), (5, b2n q.acting)]), (0x04, q.volt.setWidth 32),
        (0x08, q.faultCnt), (0x0C, q.pulseCnt)]]

/-! ## CLE (R201) -/

def LoopSt.code : LoopSt → Nat
  | .free => 0 | .stop => 1 | .ramp => 2 | .run => 3 | .fault => 4

/-- CLE_LPn_STATUS: with the engine domain off, the role epoch alone. -/
def loopW (n : Nat) (s : State) : Word :=
  let l := s.loop n
  if domainOn 139 s then
    packW [(0, l.st.code), (3, l.region), (6, maskW 2 fun j => isSelected n j s), (8, l.saturated.toNat), (10, b2n l.skipped),
      (11, b2n l.staleStep), (16, l.epoch.toNat)]
  else packW [(16, l.epoch.toNat)]

def cleW (o : Nat) (s : State) : Option Word :=
  let x := s.cle
  let on := domainOn 139 s
  let count (f : Loop → Bool) : Nat := (x.loops.toList.filter f).length
  firstW [
    tableW o [(0x04, x.sticky.setWidth 32)],
    groupW 0x100 0x40 64 o fun n r => tableW r [(0, loopW n s)],
    groupW 0x1200 0x10 8 o fun n r =>
      tableW r [(0, packW [(0, (nth x.pwms n).duty.toNat), (16, b2n (nth x.pwms n).failsafeOn)])],
    gated on (firstW [
      tableW o [
        (0x00, packW [(0, count (·.st != .free)), (8, count (·.running))]),
        (0x08, wN (shown (loadOf 64 s).1 ((loadOf 64 s).2 * 1000) % 65536)),
        (0x10, wN (maskW 32 fun n => (s.loop n).st == .fault)), (0x14, wN (maskW 32 fun n => (s.loop (32 + n)).st == .fault))],
      groupW 0x100 0x40 64 o fun n r =>
        let l := s.loop n
        tableW r [(0x04, l.sticky.setWidth 32), (0x08, packW [(0, nth l.d 0 % 65536), (16, nth l.d 1 % 65536)]), (0x0C, l.resid),
          (0x10, wI (nth l.r 0)), (0x14, wI (nth l.r 1)), (0x18, l.sampleCnt), (0x1C, l.skipCnt), (0x20, l.overrunCnt), (0x24, l.faultCnt),
          (0x28, l.swapCnt)],
      groupW 0x1100 0x10 16 o fun g r =>
        let q := nth x.groups g
        tableW r [(0, packW [(0, q.value.toNat), (16, b2n q.dieWin)]), (4, packW [(0, lowestSelected g s), (8, (membersOf g s).length)]), (8, q.dieCnt)]])]

/-! ## XCL (R238) -/

/-- XCL_Pp_STATUS: with the exclusion-engine domain off, the role epoch alone. -/
def xsetW (p : Nat) (s : State) : Word :=
  let x := s.xset p
  if domainOn 140 s then
    packW [(0, (x.last.regions.toList.filter (·.shape != 0)).length), (7, b2n (s.port p).enable), (8, x.queue.length), (16, x.epoch.toNat)]
  else packW [(16, x.epoch.toNat)]

def xclW (o : Nat) (s : State) : Option Word :=
  let x := s.xcl
  firstW [
    tableW o [
      (0x00, packW [(0, x.active.toNat), (12, b2n x.safe), (13, b2n (safeOk s)), (14, b2n (x.safe || x.tapHold)), (16, b2n x.ilockA),
        (17, b2n x.ilockB), (18, b2n x.blankIn)]),
      (0x04, x.sticky.setWidth 32), (0x08, x.latch.setWidth 32), (0x0C, x.safeCnt),
      (0x10, packW [(0, x.safeTick.toNat), (24, x.safeCode.toNat)]), (0x14, x.safeFrame), (0x1C, x.discCnt)],
    groupW 0x100 0x40 4 o fun p r => tableW r [(0, xsetW p s)],
    gated (domainOn 140 s) (groupW 0x100 0x40 4 o fun p r =>
      let q := s.xset p
      tableW r [(0x04, q.sticky.setWidth 32), (0x08, q.newest), (0x0C, wN (latBound p s)), (0x10, q.auditPix), (0x14, q.auditRow), (0x18, q.cap0),
        (0x1C, q.cap1), (0x20, q.updateCnt), (0x24, q.skipCnt), (0x28, wN (match q.maskCopies with | v :: _ => v.runs.length | [] => 0))])]

/-! ## SLC (R261) -/

def SlicerSt.code : SlicerSt → Nat
  | .off => 0 | .idle => 1 | .fill => 2 | .drain => 3

def slcW (o : Nat) (s : State) : Option Word :=
  let x := s.slc
  firstW [
    tableW o [
      (0x00, packW [(0, maskW 8 fun i => domainOn (84 + i) s), (8, maskW 8 fun i => (s.slicer i).st == .fill || (s.slicer i).st == .drain)]),
      (0x04, x.sticky.setWidth 32), (0x08, x.rate.setWidth 32)],
    groupW 0x100 0x20 8 o fun i r => gated (domainOn (84 + i) s)
      (let q := s.slicer i
      tableW r [(0, packW [(0, q.st.code), (2, q.view.toNat), (5, q.primary.toNat), (8, q.band.toNat)]), (4, q.bandCnt), (8, q.burstCnt)]),
    groupW 0x200 0x20 5 o fun v r =>
      let q := s.store v
      tableW r [(0x00, packW [(0, q.colours.toNat), (6, if q.bufs.isEmpty then 0 else q.f), (9, q.bufs.length), (13, b2n q.isProtected)]),
        (0x04, match q.newest with | some n => packW [(0, n.1 % 8), (3, 1), (4, n.2.toNat)] | none => 0), (0x08, q.frameCnt), (0x0C, q.stallCnt),
        (0x10, q.dropCnt), (0x14, q.noframeCnt)]]

/-! ## GLK (R299) -/

def OctSt.code : OctSt → Nat
  | .electricalIdle => 0 | .bcLock => 1 | .bcAlign => 2 | .fwdTrain => 3 | .capsWait => 4 | .ready => 5

/-- The octets of a quad that are in use, ascending. -/
def quadUses (q : Nat) (s : State) : List Nat :=
  ((List.range 4).map (4 * q + ·)).filter fun k => (s.octet k).allotted || (s.octet k).diag != 0

/-- GLK_Qq_STATUS. -/
def quadW (q : Nat) (s : State) : Word :=
  match quadUses q s with
  | [] => 0
  | k :: _ => packW [(0, b2n !(nth s.glk.quads q).bad), (1, (s.octet k).rate.toNat), (3, 1)]

def octetW (k r : Nat) (s : State) : Option Word :=
  let o := s.octet k
  firstW [
    tableW r [
      (0x00, packW [(0, o.st.code), (3, o.port.toNat), (5, b2n o.allotted), (6, o.rate.toNat), (8, o.dead.toNat), (11, b2n o.stripe7),
        (12, b2n o.bcInv), (13, o.aoct.toNat), (16, o.epoch.toNat)]),
      (0x04, o.sticky.setWidth 32), (0x08, packW ((24, o.aoct.toNat) :: (List.range 8).map fun p => (3 * p, laneAt o p))),
      (0x0C, wN (maskW 8 fun i => (nth o.lanes i).txInv)), (0x10, o.trainCnt), (0x14, o.laneDownCnt), (0x18, o.restripeCnt), (0x1C, o.bcCrcCnt),
      (0x20, o.bcStuffCnt), (0x24, o.bcLossCnt), (0x28, o.kaCnt), (0x2C, o.ctrlToCnt), (0x30, lowW o.frameCnt), (0x34, highW o.frameCnt)],
    groupW 0x100 0x20 8 r fun i q =>
      let l := nth o.lanes i
      tableW q [(0, packW [(0, b2n l.locked), (1, b2n l.inverted), (2, b2n l.down), (3, b2n l.excluded), (4, l.pos.toNat)]), (4, l.crcCnt),
        (8, packW [(0, l.swing.toNat), (8, l.pre.toNat), (16, l.post.toNat)])],
    if k % 4 = 0 then
      tableW r [(0x800, quadW (k / 4) s), (0x804, (nth s.glk.quads (k / 4)).sticky.setWidth 32), (0x808, (nth s.glk.quads (k / 4)).unlockCnt)]
    else none]

def glkW (o : Nat) (s : State) : Option Word := groupW 0 0x1000 16 o fun k r => octetW k r s

/-! ## AHM (R327) -/

def ArrSt.code : ArrSt → Nat
  | .absent => 0 | .linking => 1 | .present => 2 | .scanning => 3 | .parked => 4

def arrW (p r : Nat) (s : State) : Option Word :=
  let a := s.arr p
  let n := a.map.length
  firstW [
    tableW r [
      (0x00, packW [(0, a.st.code), (3, b2n a.hold), (4, b2n a.latched), (5, a.kind % 2), (6, b2n (restripePending p s)),
        (7, b2n a.scanPending.isSome), (8, a.run.toNat)]),
      (0x04, a.sticky.setWidth 32), (0x08, packW [(0, a.temp.toNat), (16, b2n a.tempStale)]),
      (0x0C, packW [(0, n % 32768), (15, b2n (decide (16384 ≤ n))), (16, (a.map.filter fun e => e.kind == 1 || e.kind == 3).length % 32768)]),
      (0x10, a.capsCause.setWidth 32), (0x14, a.ackCnt), (0x18, a.mismatchCnt), (0x1C, a.disagreeCnt), (0x20, a.ackMissCnt), (0x24, a.lateCnt),
      (0x28, a.strayCnt), (0x2C, a.holdCnt), (0x30, a.parkCnt), (0x34, a.defectNewCnt), (0x38, a.defectLostCnt), (0x3C, a.scanCnt),
      (0x40, a.capsRefuseCnt), (0x44, a.retrainCnt)],
    groupW 0x80 4 16 r fun w q => tableW q [(0, nth a.caps w)]]

def ahmW (o : Nat) (s : State) : Option Word := groupW 0x100 0x100 4 o fun p r => arrW p r s

/-! ## CMP (R360) -/

/-- CMP_Li_STATUS: with the pipe's domain off, the role epoch alone. -/
def pipeW (i : Nat) (s : State) : Word :=
  let x := s.pipe i
  if domainOn (92 + i) s then
    packW [(0, (x.view.getD 0).toNat), (3, b2n x.view.isSome), (4, b2n x.layer.enable), (5, x.layer.z % 8), (8, x.layer.format.toNat),
      (16, x.epoch.toNat)]
  else packW [(16, x.epoch.toNat)]

def cviewW (v r : Nat) (s : State) : Option Word :=
  let x := s.cview v
  let wait := s.cmp.commits.find? fun c => c.mask.getLsbD v
  tableW r [
    (0x00, packW [(0, (pipesOf v s).length), (4, b2n x.isProtected), (5, b2n (x.cfg.wbMode != 0)),
      (6, match wait with | some c => c.waited % 16 | none => 0)]),
    (0x04, x.sticky.setWidth 32), (0x08, x.frameCnt), (0x0C, x.skipCnt), (0x10, x.deferCnt), (0x14, x.lateCnt), (0x18, x.cullCnt), (0x1C, x.wbCnt),
    (0x20, x.wbFrame)]

def cmpW (o : Nat) (s : State) : Option Word :=
  let x := s.cmp
  firstW [
    tableW o [
      (0x00, packW [(0, maskW 5 fun v => (s.cview v).composing.isSome), (5, maskW 5 fun v => x.commits.any fun c => c.mask.getLsbD v),
        (10, b2n s.fab.stopped)]),
      (0x04, x.sticky.setWidth 32), (0x08, x.lockDropCnt), (0x0C, wN x.bufs.length), (0x10, wN (x.bufs.filter (·.freePending.isSome)).length)],
    groupW 0x100 0x40 5 o fun v r => cviewW v r s,
    groupW 0x400 0x20 24 o fun i r => firstW [tableW r [(0, pipeW i s)],
      gated (domainOn (92 + i) s) (tableW r [(4, (s.pipe i).tileCnt), (8, (s.pipe i).layer.buffer)])]]

/-! ## FAB (R392) -/

def ClSt.code : ClSt → Nat
  | .off => 0 | .load => 1 | .standby => 2 | .active => 3 | .drain => 4 | .faulted => 5

/-- FAB_IMGi_STATUS. -/
def imageW (i : Nat) (s : State) : Word :=
  let m := nth s.fab.images i
  let uses := (s.fab.clusters.toList.filter fun c => c.st != .off && c.slot.toNat == i).length
  let cost := if i = 0 then 160 else if i = 3 then 24 else if i = 5 then 0 else if m.builtIn then (Config.builtInCost i).toNat else m.cost.toNat
  packW [(0, b2n m.valid), (1, b2n m.builtIn), (2, m.role.toNat), (8, uses), (16, cost)]

def fviewW (v r : Nat) (s : State) : Option Word :=
  let x := s.fview v
  tableW r [
    (0x00, packW [(0, x.chain.stages.length), (4, b2n x.next.isSome), (5, b2n (awaitsGo v s)), (6, b2n x.invalid),
      (7, b2n x.chain.symbImage.isSome), (8, b2n x.frame.isSome)]),
    (0x04, x.sticky.setWidth 32), (0x08, x.frameCnt), (0x0C, x.dropCnt), (0x10, x.unrefCnt), (0x14, x.symbLateCnt), (0x18, x.waitCnt), (0x1C, x.lastUs)]

def fabW (o : Nat) (s : State) : Option Word :=
  let x := s.fab
  firstW [
    tableW o [
      (0x00, packW [(0, (x.clusters.toList.filter (·.st != .off)).length), (7, b2n x.stopped), (8, s.thm.phi)]), (0x04, x.sticky.setWidth 32),
      (0x08, x.clockLostCnt)],
    groupW 0x100 0x40 5 o fun v r => fviewW v r s,
    groupW 0x400 0x10 64 o fun n r =>
      let c := s.cluster n
      tableW r [(0, packW [(0, c.epoch.toNat), (16, c.role.toNat), (19, c.view.toNat), (22, c.stage.toNat), (25, c.slot.toNat), (29, c.st.code)]),
        (4, c.bandCnt), (8, c.ceCnt), (12, c.ueCnt)],
    groupW 0x800 0x10 16 o fun i r =>
      let m := nth x.images i
      tableW r [(0, imageW i s), (4, if m.builtIn then wN (Config.builtInRev i) else m.rev), (8, if m.builtIn then wN (Config.builtInSize i) else m.size)]]

/-! ## MEM (R425) -/

def MemSt.code : MemSt → Nat
  | .training => 0 | .ready => 1 | .restart => 2 | .failed => 3

/-- Physical rank r: in service, spare, failed, or source of a migration. -/
def rankState (r : Nat) (m : Mem) : Nat :=
  if m.failed.getLsbD r then 2
  else if m.migRun && m.migSrc.toNat == r then 3
  else if m.spareValid && m.spareRank.toNat == r then 1
  else 0

def memW (o : Nat) (s : State) : Option Word :=
  let m := s.mem
  firstW [
    tableW o [
      (0x00, packW [(0, m.st.code), (2, b2n m.migRun), (3, b2n (m.selfRefresh && wantsSelfRefresh s)),
        (4, if m.st = .training then 0 else workingPcs m), (10, if m.st = .training then 0 else ranksIn m)]),
      (0x04, m.sticky.setWidth 32), (0x08, packW [(0, m.planeRows), (14, m.order.toNat), (16, m.grain), (20, b2n m.spare)]),
      (0x0C, packW ((8, m.spareRank.toNat) :: (10, b2n m.spareValid) :: (11, m.failed.toNat) :: (List.range 4).map fun i => (2 * i, (nth m.rankMap i).toNat))),
      (0x10, m.fenced), (0x14, packW [(0, m.migRow), (15, m.migSrc.toNat), (17, m.migDst.toNat), (19, b2n m.migRun)]), (0x18, m.ueAddrLo),
      (0x1C, m.ueAddrHi), (0x20, m.ueCnt), (0x24, m.ceCnt), (0x28, m.nrrCnt), (0x2C, m.scrubPassCnt), (0x30, m.retrainCnt), (0x34, m.fenceEvtCnt),
      (0x38, m.protViolCnt), (0x3C, m.migCnt), (0x40, m.lostCnt)],
    groupW 0x100 0x20 11 o fun n r =>
      let q := nth m.ports n
      tableW r [(0x00, packW [(0, q.cls.toNat), (2, b2n (decide (bucketNow n s < 32000)))]), (0x04, wN (bucketRate n s)), (0x08, lowW q.bytes),
        (0x0C, highW q.bytes), (0x10, q.excessCnt), (0x14, q.promoteCnt), (0x18, q.ueCnt)],
    groupW 0x400 0x10 32 o fun i r =>
      let q := nth m.pcs i
      tableW r [(0, packW [(0, b2n (!(m.fenced.getLsbD i) && m.st != .training)), (1, b2n (m.fenced.getLsbD i)),
        (2, b2n (decide (s.ns < q.gapUntil))), (3, b2n q.retrain)]), (4, q.ceCnt),
        (8, q.ueCnt)],
    groupW 0x800 0x10 4 o fun i r =>
      let q := nth m.ranks i
      tableW r [(0, packW [(0, rankState i m), (2, q.power.toNat), (4, q.segs.toNat)]), (4, q.ceCnt), (8, q.ueCnt)]]

/-! ## PWR and THM (R532) -/

def pwrW (o : Nat) (s : State) : Option Word :=
  let x := s.pwr
  firstW [
    tableW o [
      (0x00, packW [(0, x.pgood.toNat), (4, b2n x.seqDone), (5, b2n x.standby), (6, b2n x.railReset), (7, b2n x.vbatGood)]), (0x04, x.sticky.setWidth 32),
      (0x08, x.vin.setWidth 32), (0x0C, x.vcoreSet.setWidth 32), (0x10, x.railFaultCnt), (0x14, x.seqFailCnt), (0x18, x.vinLowCnt), (0x1C, x.vinHighCnt)],
    groupW 0x40 4 5 o fun k r => tableW r [(0, wN (maskW 32 fun i => decide (32 * k + i < 144) && domainOn (32 * k + i) s))],
    groupW 0x100 8 32 o fun i r =>
      let q := nth x.items i
      tableW r [(0, q.value), (4, packW [(0, b2n q.defined), (1, b2n q.fault), (2, b2n q.stale)])]]

def thmW (o : Nat) (s : State) : Option Word :=
  let x := s.thm
  firstW [
    tableW o [
      (0x1000, packW [(0, b2n x.warn), (1, b2n x.throttle), (2, b2n x.shutdown), (3, b2n x.fast), (4, x.phi), (13, b2n x.noRestart)]),
      (0x1004, x.sticky.setWidth 32), (0x1008, packW [(0, i16W x.hotTemp), (16, x.hotSensor)]), (0x100C, wN x.limit),
      (0x1010, packW [(0, x.gradA.toNat), (8, x.gradB.toNat)]), (0x1014, x.warnCnt), (0x1018, x.throttleCnt), (0x101C, x.shutdownCnt),
      (0x1020, x.gradientCnt), (0x1024, x.sensorFaultCnt)],
    groupW 0x1100 4 52 o fun n r => tableW r [(0, packW [(0, i16W (nth x.temp n)), (16, b2n (nth x.sensFault n))])]]

/-! ## CAL (R503) -/

/-- Word w (1 to 27) of a set's bytes after its header. -/
def setBytesW (w : Nat) (b : Vector Byte 108) : Word :=
  packW ((List.range 4).map fun i => (8 * i, (nth b (4 * (w - 1) + i)).toNat))

/-- CAL_Rr_STATUS. -/
def regionW (r : Nat) (s : State) : Word :=
  let x := s.region r
  packW [(0, calSensor r), (6, b2n (atTarget r x)), (7, b2n x.limit), (8, b2n (decide (48 ≤ r) && (darkUntil 11000 s || darkStale s))), (9, maskW 4 fun i => (nth x.sets i).valid)]

/-- CAL_CLASSc_CTRL. -/
def classW (c : CalClass) : Word := packW [(0, c.stepUs), (16, c.deadband), (24, c.darkS), (31, b2n c.bgEn)]

def calW (o : Nat) (s : State) : Option Word :=
  let x := s.cal
  firstW [
    tableW o [(0x00, wN (b2n (darkUntil 10000 s))), (0x04, x.sticky.setWidth 32), (0x08, x.updateCnt), (0x0C, x.limitCnt), (0x10, x.darkCnt)],
    groupW 0x20 4 5 o fun k r => tableW r [(0, classW (nth x.classes k))],
    groupW 0x1000 0x200 92 o fun i r => firstW [
      tableW r [(0, wN (b2n (s.region i).freeze)), (4, regionW i s), (8, wN (i16W (s.region i).theta))],
      groupW 0x10 0x70 4 r fun k q =>
        let c := nth (s.region i).sets k
        if q % 4 ≠ 0 then none
        else if q = 0 then some (packW [(0, c.temp.toNat), (16, b2n c.valid)]) else some (setBytesW (q / 4) c.bytes)],
    groupW 0xC800 0x70 92 o fun i q =>
      if q % 4 ≠ 0 then none else if q = 0 then some 0 else some (setBytesW (q / 4) (s.region i).cur)]

/-! ## The map (R36) -/

/-- The journal window (R453): the entry with sequence j lies in slot j mod 8,192; a slot that holds none reads 0. -/
def journalW (o : Nat) (s : State) : Word :=
  match s.hif.journal.find? fun e => e.jseq.toNat % 8192 == o / 64 with
  | some e => wN (u32 e.bytes (o % 64))
  | none => 0

/-- The register at a BAR0 offset lies in CORE, or in a domain that is off whenever CORE is: not the MGT registers, the journal
window, MEM_MIG_CKPT and the PWR registers up to 0x1C (AON-V), the XCL registers up to 0x1C (AON-S) or SEC_TAMPER_CAUSE (VBAT). -/
def inCore (off : Nat) : Bool :=
  match off / 65536 with
  | 1 => false
  | 6 => decide (0x1F < off % 65536)
  | 12 => off != 0xC0014
  | 13 => decide (0x1F < off % 65536)
  | 15 => off != 0xF0008
  | k => decide (k < 16)

/-- The value behind a BAR0 offset while CORE is on; none for an offset that names no register. -/
def regShown (off : Nat) (s : State) : Option Word :=
  let o := off % 65536
  if off % 4 ≠ 0 then none
  else match off / 65536 with
    | 0 => hifW o s | 1 => mgtW o s | 2 => timW o s | 3 => seqW o s | 4 => illW o s | 5 => cleW o s | 6 => xclW o s | 7 => slcW o s
    | 8 => glkW o s | 9 => ahmW o s | 10 => cmpW o s | 11 => fabW o s | 12 => memW o s
    | 13 => firstW [pwrW o s, thmW o s] | 14 => calW o s | 15 => secW o s
    | k => if 16 ≤ k ∧ k < 24 then some (journalW (off - 0x100000) s) else none

/-- What an aligned 32-bit read of a BAR0 offset returns: all ones from a register in CORE while VCORE is off (R38); none for an
offset that names no register. -/
def regRead (off : Nat) (s : State) : Option Word := gated (domainOn 143 s || !(inCore off)) (regShown off s)

/-! ## Writes (R9, R11, R39, R40) -/

/-- The bits of a sticky register that a W1C write leaves. -/
def w1c {w : Nat} (old : BitVec w) (val : Word) : BitVec w := old &&& ~~~(val.setWidth w)

/-- What a W1C write of v to the sticky register at offset off may clear: a bit that the device sets in the same clock cycle, a
nanosecond here (notes/assumptions/113.md), ends set (R11, R39). -/
def clearable (off : Nat) (v : Word) (s : State) : Word :=
  (s.hif.hwSet.filter fun x => x.1 == off).foldl (fun v x => v &&& ~~~x.2) v

/-- W1C writes of the blocks' single sticky registers. -/
def clearSingle (off : Nat) (v : Word) (s : State) : Option State :=
  match off with
  | 0x00004 => some (s.onHif fun x => { x with sticky := w1c x.sticky v })
  | 0x10004 => some (s.onMgt fun x => { x with sticky := w1c x.sticky v })
  | 0x10024 => some (s.onMgt fun x => { x with clkSticky := w1c x.clkSticky v })
  | 0x20004 => some (s.onTim fun x => { x with sticky := w1c x.sticky v })
  | 0x40004 => some (s.onIll fun x => { x with sticky := w1c x.sticky v })
  | 0x40020 => some (s.onIll fun x => { x with strOpen := w1c x.strOpen v })
  | 0x40024 => some (s.onIll fun x => { x with strShort := w1c x.strShort v })
  | 0x50004 => some (s.onCle fun x => { x with sticky := w1c x.sticky v })
  | 0x60004 => some (s.onXcl fun x => { x with sticky := w1c x.sticky v })
  | 0x70004 => some (s.onSlc fun x => { x with sticky := w1c x.sticky v })
  | 0xA0004 => some (s.onCmp fun x => { x with sticky := w1c x.sticky v })
  | 0xB0004 => some (s.onFab fun x => { x with sticky := w1c x.sticky v })
  | 0xC0004 => some (s.onMem fun x => { x with sticky := w1c x.sticky v })
  | 0xD0004 => some (s.onPwr fun x => { x with sticky := w1c x.sticky v })
  | 0xD1004 => some (s.onThm fun x => { x with sticky := w1c x.sticky v })
  | 0xE0004 => some (s.onCal fun x => { x with sticky := w1c x.sticky v })
  | 0xF0004 => some (s.onSec fun x => { x with sticky := w1c x.sticky v })
  | _ => none

/-- W1C writes of the sticky registers that stand in groups. -/
def clearGroup (off : Nat) (v : Word) (s : State) : Option State :=
  let go (base stride n : Nat) (f : Nat → State) : Option State := (copyAt base stride n 4 off).map f
  (([
    go 0x30100 0x100 4 fun p => s.onPort p fun x => { x with sticky := w1c x.sticky v },
    go 0x40100 0x40 4 fun c => s.onChain c fun x => { x with sticky := w1c x.sticky v },
    go 0x50100 0x40 64 fun n => if domainOn 139 s then s.onLoop n fun x => { x with sticky := w1c x.sticky v } else s,
    go 0x60100 0x40 4 fun p => if domainOn 140 s then s.onXset p fun x => { x with sticky := w1c x.sticky v } else s,
    go 0x80000 0x1000 16 fun k => s.onOctet k fun x => { x with sticky := w1c x.sticky v },
    go 0x80800 0x4000 4 fun q => s.onGlk fun g => { g with quads := upd g.quads q fun x => { x with sticky := w1c x.sticky v } },
    go 0x90100 0x100 4 fun p => s.onArr p fun x => { x with sticky := w1c x.sticky v },
    go 0xA0100 0x40 5 fun c => s.onCview c fun x => { x with sticky := w1c x.sticky v },
    go 0xB0100 0x40 5 fun c => s.onFview c fun x => { x with sticky := w1c x.sticky v }] : List (Option State)).find? (·.isSome)).join

/-- A write to the calibration windows of R40. -/
def writeCal (off : Nat) (v : Word) (s : State) : Option State :=
  match copyAt 0xE0020 4 5 0 off, copyOf 0xE1000 0x200 92 off with
  | some k, _ => some (calClassWrite k v s)
  | none, some (r, q) =>
    if q = 0 then some (freezeWrite r v s)
    else match copyOf 0x10 0x70 4 q with
      | some (set, w) => if w % 4 = 0 then some (calSetWrite r set (w / 4) v s) else none
      | none => none
  | none, none => none

/-- An access at an unmapped offset, or of a bad size or alignment: counted and flagged (R37). -/
def countUnmapped (s : State) : State :=
  hifRaise 0x1 (s.onHif fun x => { x with unmappedCnt := sat x.unmappedCnt })

/-- An aligned 32-bit write to BAR0. A register of a domain that is off takes none (R38), a read-only register ignores it (R9), and
the calibration windows take it when `cal`. -/
def regWrite (cal : Bool) (off : Nat) (v : Word) (s : State) : State :=
  if inCore off && !(domainOn 143 s) && (regRead off s).isSome then s else
  let c := clearable off v s
  match (if off % 4 = 0 then clearSingle off c s else none), clearGroup off c s, (if cal then writeCal off v s else none) with
  | some t, _, _ => t
  | none, some t, _ => t
  | none, none, some t => t
  | none, none, none => if (regRead off s).isSome then s else countUnmapped s

/-- REGISTER_WRITE: a function writes a BAR0 register. -/
def execRegisterWrite (_h : Fin 2) (off : BitVec 24) (val : BitVec 32) (s : State) : Host.Outcome State Fault Refusal :=
  .next (if s.live then regWrite true off.toNat val s else s)

/-- The access of this size is one that R37 lets through: 32 bits, or a read of both halves of a 64-bit counter. -/
def goodAccess (off size : Nat) (write : Bool) (s : State) : Bool :=
  (size == 4 && (regRead off s).isSome) ||
  (!write && size == 8 && off % 8 == 0 &&
    ([0x10, 0x18, 0x20010].contains off || (copyAt 0x80000 0x1000 16 0x30 off).isSome || (copyAt 0xC0100 0x20 11 8 off).isSome))

/-- UNMAPPED: it completes without error; a read returns all ones. -/
def execUnmapped (h : Fin 2) (off : BitVec 24) (size : Nat) (write : Bool) (s : State) : Host.Outcome State Fault Refusal :=
  .next (if !s.live || goodAccess off.toNat size write s then s
    else
      let s := countUnmapped s
      if write then s
      else s.onHif fun x => { x with outbox := .readBack (BitVec.ofNat 2 (h.val + 1)) (List.replicate size 0xFF) :: x.outbox })

/-! ## BAR0 over I3C (R430, R431) -/

/-- A word of BAR0 as a read over I3C takes it: an unmapped one reads all ones and is counted. -/
def fetchWord (off : Nat) (s : State) : State :=
  match regRead off s with
  | some w => s.onHif fun x => { x with i3cRead := x.i3cRead ++ [w] }
  | none => (countUnmapped s).onHif fun x => { x with i3cRead := x.i3cRead ++ [0xFFFFFFFF] }

/-- I3C_BAR0_READ_SETUP: the words are taken, and wait for the private read. -/
def execI3cBar0ReadSetup (off : BitVec 24) (count : BitVec 8) (s : State) : Host.Outcome State Fault Refusal :=
  .next (if !s.live || count == 0 || 64 < count.toNat then s
    else (List.range count.toNat).foldl (fun s i => fetchWord ((off.toNat + 4 * i) % 2 ^ 24) s) (s.onHif fun x => { x with i3cRead := [] }))

/-- I3C_BAR0_WRITE: it takes effect on W1C fields only; BAR0 holds no doorbell and no W1S field, and the calibration windows ignore
it. -/
def execI3cBar0Write (off : BitVec 24) (val : BitVec 32) (s : State) : Host.Outcome State Fault Refusal :=
  .next (if s.live then regWrite false off.toNat val s else s)

end Sys2Proof.Machine
end

