-- ==== Sys2Proof/Machine/Rings.lean ====
section
/-!
DEFINITION. Command and reply rings (R438, R441, R445, R456), the MSI-X table of BAR4, and the commands and replies of the service
host (R430, R431). Raw entries run through the same acceptance as the rows of the commands.
-/
namespace Sys2Proof.Machine

/-! ## Commands by opcode (R446) -/

def sessionOps : List OpSpec :=
  [specSessionOpen, specSessionClose, specHeartbeat, specClaim, specRelease, specEventMaskSet, specCpReset, specJournalRead, specJournalMark]

def timingOps : List OpSpec :=
  [specTimingSet, specCameraSet, specViewBind, specTimingCommit, specPhaseSteer, specPhaseMarkSet, specSeqPortSet, specSeqLoad,
   specSeqCommit, specSeqDriveSet, specHoldSet, specHoldExit, specPlaneStoreSet]

def lightOps : List OpSpec :=
  [specIllChainSet, specIllDeviceSet, specIllWeightSet, specIllFade, specIllTcSet, specIllStringSet, specIllDiagSet, specLoopSet,
   specLoopCoefSet, specLoopRefSet, specLoopGroupSet, specLoopArm, specLoopPwmSet, specXclRegionSet, specXclMaskLoad, specXclHostBlank,
   specXclSafeRelease, specSymListSet, specSymGlyphLoad]

def linkOps : List OpSpec :=
  [specLinkAllot, specLinkLaneSet, specLinkOctetReset, specLinkDiag, specAhmPolicySet, specAhmScan, specAhmDefectRead, specAhmPark]

def pixelOps : List OpSpec :=
  [specCmpViewSet, specCmpPipeBind, specCmpLayerSet, specCmpLutSet, specCmpWritebackSet, specCmpCommit, specFabImageLoad, specFabChainSet,
   specFabChainGo, specFabParamSet, specFabClusterReset]

def memoryOps : List OpSpec :=
  [specBufAlloc, specBufFree, specBufSignal, specMemLayoutSet, specMemReserveSet, specMemPolicySet, specMemFence, specMemRankRetire,
   specMemRetrain, specBufIngest]

def serviceOps : List OpSpec :=
  [specUpdateBegin, specUpdateData, specUpdateCommit, specMgtFuse, specMgtBootcfgSet, specMgtRead, specMgtFaultClear, specMgtReinit,
   specSecChallenge, specSecLogin, specSecUserSet, specSecPolicySet, specSecKemGen, specSecKeyLoad, specSecKeyZero, specSecQuote,
   specSecMarkSet, specSecSelftest, specSecZeroise, specSecProvision, specPwrItemSet, specThmSet, specPwrStandby]

/-- Every command of the device. -/
def allOps : List OpSpec := sessionOps ++ timingOps ++ lightOps ++ linkOps ++ pixelOps ++ memoryOps ++ serviceOps

/-- Acceptance of an entry whose opcode names no command: CRC, VERSION, then OPCODE (R442 steps 1 to 3). -/
def acceptUnknown (op : BitVec 16) (c : Cmd) (s : State) : State :=
  let s := renewLease c.host (checkSeq c (countCore c s))
  if Cmd.crcOk op c then refuse op c ⟨if c.version != 1 then .badVersion else .badOpcode, 0⟩ s else refuseCrc op c s

/-- Acceptance of an entry by its opcode. -/
def acceptOp (op : BitVec 16) (c : Cmd) (s : State) : State :=
  match allOps.find? fun sp => sp.op == op with
  | some sp => acceptNow sp c s
  | none => acceptUnknown op c s

/-- An entry reaches the command processors, as `accept` says of a row's command. -/
def deliver (op : BitVec 16) (c : Cmd) (s : State) : State :=
  if deaf c s then s
  else if ringStops c s || ringWaits c s then waitCmd op c s
  else acceptOp op c s

/-! ## Waiting commands (R439, R445) -/

/-- The ring's state that CRING_r_STATUS shows: what its oldest waiting command waits on. -/
def showWait (h r : Nat) (s : State) : State :=
  let w := s.hif.waiting.find? fun x => x.cmd.host.toNat == h + 1 && x.cmd.ring.toNat == r
  let fence := match w with | some x => Cmd.isFence x.cmd && !(ringQuiet x.cmd s) | none => false
  let full := match w with
    | some x =>
      let q := nth (nth s.hif.pcie h).rrings (replyRingOf x.cmd.host x.cmd.ring s).toNat
      !fence && ringOn q.cfg && rringFull q
    | none => false
  s.onHif fun x => { x with pcie := upd x.pcie h fun f => { f with
    crings := upd f.crings r fun q => { q with waitFence := fence, waitReply := full } } }

/-- The oldest command that is first of its ring and no longer stopped: its place among those that wait. -/
def nextToRun (s : State) : Option Nat :=
  let ws := s.hif.waiting
  (List.range ws.length).find? fun i => match ws[i]? with
    | some h => !(ringStops h.cmd s) && !(deaf h.cmd s) &&
        !((ws.take i).any fun g => g.cmd.host == h.cmd.host && g.cmd.ring == h.cmd.ring)
    | none => false

/-- Waiting commands go on, at most `fuel` of them. -/
def resumeUpTo : Nat → State → State
  | 0, s => s
  | fuel + 1, s => match nextToRun s with
    | none => s
    | some i => match s.hif.waiting[i]? with
      | none => s
      | some h => resumeUpTo fuel (acceptOp h.opcode h.cmd (s.onHif fun x => { x with waiting := x.waiting.eraseIdx i }))

/-- Every waiting command that may go on does. -/
def resumeRings (s : State) : State :=
  if s.hif.waiting.isEmpty then s
  else forN 2 (fun h s => forN 4 (fun r s => showWait h r s) s) (resumeUpTo s.hif.waiting.length s)

/-! ## Doorbells (R438, R456) -/

/-- A doorbell's index, [11:0]. -/
def doorIdx (v : Word) : Nat := v.toNat % 4096

/-- The ring takes a doorbell of this index. -/
def doorOk (cfg v : Word) : Bool := ringOn cfg && decide (doorIdx v < ringSize cfg)

/-- A raw entry is read from command ring r of function h. -/
def readEntry (h r : Nat) (e : RawEntry) (s : State) : State :=
  let x := RawEntry.parse (BitVec.ofNat 2 (h + 1)) (BitVec.ofNat 2 r) e
  deliver x.1 x.2 s

/-- CRING_DOORBELL: the entries from the head up to the new tail are read; `entries` are their bytes in host memory. -/
def execCringDoorbell (h : Fin 2) (ring : Fin 4) (tail : BitVec 32) (entries : List RawEntry) (s : State) :
    Host.Outcome State Fault Refusal :=
  let q := nth (nth s.hif.pcie h.val).crings ring.val
  .next (if !s.live then s
    else if !(doorOk q.cfg tail) then hifRaise 0x4 s
    else
      let t := doorIdx tail
      let n := (t + ringSize q.cfg - q.head.toNat) % ringSize q.cfg
      let s := s.onHif fun x => { x with pcie := upd x.pcie h.val fun f => { f with
        crings := upd f.crings ring.val fun q => { q with head := BitVec.ofNat 12 t, tail := BitVec.ofNat 12 t } } }
      (List.range n).foldl (fun s i => readEntry h.val ring.val (entries.getD i {}) s) s)

/-- RRING_DOORBELL: reply entries have been consumed; waiting replies are written, and stopped rings go on. -/
def execRringDoorbell (h : Fin 2) (ring : Fin 4) (head : BitVec 32) (s : State) : Host.Outcome State Fault Refusal :=
  let q := nth (nth s.hif.pcie h.val).rrings ring.val
  .next (if !s.live then s
    else if !(doorOk q.cfg head) then hifRaise 0x4 s
    else
      resumeRings (flushReplies (s.onHif fun x => { x with pcie := upd x.pcie h.val fun f => { f with
        rrings := upd f.rrings ring.val fun q => { q with hostHead := BitVec.ofNat 12 (doorIdx head) } } })))

/-! ## Ring registers and the MSI-X table (R456) -/

/-- A CFG write: while the ring is enabled only the enable bit changes, and a change of the rest sets BAD_RING; s must lie from 4 to
12 to enable it. The new CFG, and whether the write is bad. -/
def newCfg (mask old val : Word) : Word × Bool :=
  let v := val &&& mask
  if ringOn old then ((old &&& ~~~0x10) ||| (v &&& 0x10), (v ||| 0x10) != old)
  else if ringOn v && (v.toNat % 16 < 4 || 12 < v.toNat % 16) then (old, true)
  else (v, false)

/-- A base or configuration register of a ring: the field's new value under the rule for enabled rings. -/
def newBase (cfg mask old val : Word) : Word × Bool := if ringOn cfg then (old, true) else (val &&& mask, false)

/-- The write was bad: BAD_RING is set. -/
def badRing (bad : Bool) (s : State) : State := if bad then hifRaise 0x4 s else s

/-- Command ring r of function h loses its unread entries when it is disabled, and starts at index 0 when enabled. -/
def cringCfg (h r : Nat) (val : Word) (s : State) : State :=
  let q := nth (nth s.hif.pcie h).crings r
  let n := newCfg 0x7F q.cfg val
  let off := ringOn q.cfg && !(ringOn n.1)
  badRing n.2 (s.onHif fun x => { x with
    pcie := upd x.pcie h fun f => { f with crings := upd f.crings r fun c =>
      if off then { c with cfg := n.1, head := 0, tail := 0, waitFence := false, waitReply := false, lastSeq := none } else { c with cfg := n.1 } }
    waiting := if off then x.waiting.filter fun w => !(w.cmd.host.toNat == h + 1 && w.cmd.ring.toNat == r) else x.waiting })

/-- Reply ring r of function h: disabled, it starts again at index 0 with PHASE 1. -/
def rringCfg (h r : Nat) (val : Word) (s : State) : State :=
  let q := nth (nth s.hif.pcie h).rrings r
  let n := newCfg 0x7FF q.cfg val
  let off := ringOn q.cfg && !(ringOn n.1)
  let s := badRing n.2 (s.onHif fun x => { x with pcie := upd x.pcie h fun f => { f with rrings := upd f.rrings r fun c =>
    if off then { c with cfg := n.1, tail := 0, phase := true, hostHead := 0 } else { c with cfg := n.1 } } })
  if off then resumeRings (flushReplies s) else s

/-- A register of command ring r. -/
def cringWrite (h r reg : Nat) (val : Word) (s : State) : State :=
  let q := nth (nth s.hif.pcie h).crings r
  let put (f : CRing → CRing) (s : State) : State := s.onHif fun x => { x with pcie := upd x.pcie h fun g => { g with crings := upd g.crings r f } }
  if reg = 0 then
    let n := newBase q.cfg 0xFFFFF000 q.baseLo val
    badRing n.2 (put (fun c => { c with baseLo := n.1 }) s)
  else if reg = 4 then
    let n := newBase q.cfg 0xFFFFFFFF q.baseHi val
    badRing n.2 (put (fun c => { c with baseHi := n.1 }) s)
  else if reg = 8 then cringCfg h r val s
  else s

/-- A register of reply ring r. -/
def rringWrite (h r reg : Nat) (val : Word) (s : State) : State :=
  let q := nth (nth s.hif.pcie h).rrings r
  let put (f : RRing → RRing) (s : State) : State := s.onHif fun x => { x with pcie := upd x.pcie h fun g => { g with rrings := upd g.rrings r f } }
  if reg = 0 then
    let n := newBase q.cfg 0xFFFFF000 q.baseLo val
    badRing n.2 (put (fun c => { c with baseLo := n.1 }) s)
  else if reg = 4 then
    let n := newBase q.cfg 0xFFFFFFFF q.baseHi val
    badRing n.2 (put (fun c => { c with baseHi := n.1 }) s)
  else if reg = 8 then rringCfg h r val s
  else s

/-- Word w of the MSI-X table: an entry that is unmasked sends the message it holds, outside its 10 µs (R451). -/
def msixWrite (h w : Nat) (val : Word) (s : State) : State :=
  let v := w / 4
  let keep : Word := if w % 4 = 0 then 0xFFFFFFFC else if w % 4 = 3 then 1 else 0xFFFFFFFF
  let s := s.onHif fun x => { x with pcie := upd x.pcie h fun f => { f with msixTable := upd f.msixTable w fun _ => val &&& keep } }
  let f := nth s.hif.pcie h
  if w % 4 = 3 && val &&& 1 == 0 && f.pendingBits.getLsbD v && !f.coalescing.getLsbD v then
    msix h v (s.onHif fun x => { x with pcie := upd x.pcie h fun f => { f with pendingBits := f.pendingBits &&& ~~~(bit1 64 v) } })
  else s

/-- What an aligned 32-bit read of a BAR4 offset returns (R456, R9): BASE, CFG and the MSI-X table read as written, HEAD, TAIL,
STATUS and the pending-bit array as they stand, the write-only doorbells 0; none for an offset that names no register. No row of
the table reads BAR4 (notes/assumptions/20.md). -/
def bar4Read (h off : Nat) (s : State) : Option Word :=
  let f := nth s.hif.pcie h
  firstW [
    groupW 0 0x40 4 off fun r o =>
      let q := nth f.crings r
      tableW o [(0x00, q.baseLo), (0x04, q.baseHi), (0x08, q.cfg), (0x0C, q.head.setWidth 32),
        (0x10, packW [(0, b2n (ringOn q.cfg)), (1, b2n q.waitFence), (2, b2n q.waitReply)])],
    groupW 0x400 0x40 4 off fun r o =>
      let q := nth f.rrings r
      tableW o [(0x00, q.baseLo), (0x04, q.baseHi), (0x08, q.cfg), (0x0C, packW [(0, q.tail.toNat), (12, b2n q.phase)])],
    groupW 0x1000 4 8 off fun _ o => tableW o [(0, 0)],
    groupW 0x10000 4 256 off fun w o => tableW o [(0, nth f.msixTable w)],
    groupW 0x18000 4 2 off fun w o => tableW o [(0, wN (f.pendingBits.toNat / 2 ^ (32 * w)))]]

/-- RING_CFG_WRITE: a write to a ring register or the MSI-X table in BAR4; the other offsets of BAR4 are read-only or name no
register, and the doorbells have rows of their own. -/
def execRingCfgWrite (h : Fin 2) (off : BitVec 17) (val : BitVec 32) (s : State) : Host.Outcome State Fault Refusal :=
  .next (if !s.live then s
    else match copyOf 0 0x40 4 off.toNat, copyOf 0x400 0x40 4 off.toNat, copyOf 0x10000 4 256 off.toNat with
      | some (r, reg), _, _ => cringWrite h.val r reg val s
      | none, some (r, reg), _ => rringWrite h.val r reg val s
      | none, none, some (w, 0) => msixWrite h.val w val s
      | none, none, _ => s)

/-! ## The service host (R430, R431) -/

/-- The static address of the I3C target. -/
def i3cStatic : BitVec 7 := 0x2A

/-- The bus's controller assigns the target a dynamic address, which it answers to from then on; the device resets to its static one. -/
def i3cAssign (a : BitVec 7) (s : State) : State := s.onHif fun x => { x with i3cAddr := a }

/-- What a private write to address `a` with bytes `b` is: its first byte says which of the three, each with its length; none when the
target does not answer to the address, or the bytes are none of the three. -/
def i3cWrite (a : BitVec 7) (b : List Byte) (s : State) : Option Instr :=
  if a ≠ s.hif.i3cAddr then none
  else if u8 b 0 = 1 ∧ b.length = 257 then some (.i3cCommandWrite { bytes := b.drop 1 })
  else if u8 b 0 = 2 ∧ b.length = 5 then some (.i3cBar0ReadSetup (BitVec.ofNat 24 (u32 b 1)) (BitVec.ofNat 8 (u8 b 4)))
  else if u8 b 0 = 3 ∧ b.length = 8 then some (.i3cBar0Write (BitVec.ofNat 24 (u32 b 1)) (BitVec.ofNat 32 (u32 b 4)))
  else none

/-- I3C_COMMAND_WRITE: one command entry of host 3; it is not taken while 8 of them await acceptance. -/
def execI3cCommandWrite (entry : RawEntry) (s : State) : Host.Outcome State Fault Refusal :=
  let x := RawEntry.parse 3 0 entry
  .next (if 8 ≤ (s.hif.waiting.filter fun h => h.cmd.host == 3).length then s else deliver x.1 x.2 s)

/-- The 32 bytes of a reply entry (R448). -/
def Reply.bytes (phase : Bool) (r : Reply) : List Byte :=
  leBytes 8 r.corr.toNat ++ leBytes 8 r.jseq.toNat ++ leBytes 4 r.result.toNat ++ leBytes 2 r.opcode.toNat ++ leBytes 2 r.code.toNat ++
  leBytes 4 r.detail.toNat ++ leBytes 2 r.epoch.toNat ++ leBytes 2 (b2n phase + 2 * r.kind.toNat + 8 * r.cring.toNat)

/-- I3C_PRIVATE_READ: the words of a BAR0 read that was set up, or the oldest reply, or zeros. -/
def execI3cPrivateRead (s : State) : Host.Outcome State Fault Refusal :=
  let out (d : List Byte) (s : State) : State := s.onHif fun x => { x with outbox := .readBack 3 d :: x.outbox }
  .next (if !s.live then s
    else match s.hif.i3cRead, s.hif.i3cQ with
      | w :: ws, _ => out ((w :: ws).flatMap fun x => leBytes 4 x.toNat) (s.onHif fun x => { x with i3cRead := [] })
      | [], r :: rs => out (Reply.bytes Config.i3cPhase r) (s.onHif fun x => { x with i3cQ := rs })
      | [], [] => out (List.replicate 32 0) s)

end Sys2Proof.Machine
end

