-- ==== Sys2Proof/Machine/Dispatch.lean ====
section
/-!
DEFINITION. The meaning of every command of spec/opcode_table.json: one arm per constructor of Instr, each one direct call of its meaning.
-/
namespace Sys2Proof.Machine
open Sys2Proof

/-- What a command does to everything but the queue. -/
def exec (i : Instr) (s : State) : Host.Outcome State Fault Refusal :=
  match i with
  | .sessionOpen cmd => Sys2Proof.Machine.execSessionOpen cmd s
  | .sessionClose cmd => Sys2Proof.Machine.execSessionClose cmd s
  | .heartbeat cmd => Sys2Proof.Machine.execHeartbeat cmd s
  | .claim cmd => Sys2Proof.Machine.execClaim cmd s
  | .release cmd => Sys2Proof.Machine.execRelease cmd s
  | .eventMaskSet cmd => Sys2Proof.Machine.execEventMaskSet cmd s
  | .cpReset cmd => Sys2Proof.Machine.execCpReset cmd s
  | .timingSet cmd => Sys2Proof.Machine.execTimingSet cmd s
  | .cameraSet cmd => Sys2Proof.Machine.execCameraSet cmd s
  | .viewBind cmd => Sys2Proof.Machine.execViewBind cmd s
  | .timingCommit cmd => Sys2Proof.Machine.execTimingCommit cmd s
  | .phaseSteer cmd => Sys2Proof.Machine.execPhaseSteer cmd s
  | .phaseMarkSet cmd => Sys2Proof.Machine.execPhaseMarkSet cmd s
  | .seqPortSet cmd => Sys2Proof.Machine.execSeqPortSet cmd s
  | .seqLoad cmd => Sys2Proof.Machine.execSeqLoad cmd s
  | .seqCommit cmd => Sys2Proof.Machine.execSeqCommit cmd s
  | .seqDriveSet cmd => Sys2Proof.Machine.execSeqDriveSet cmd s
  | .holdSet cmd => Sys2Proof.Machine.execHoldSet cmd s
  | .holdExit cmd => Sys2Proof.Machine.execHoldExit cmd s
  | .planeStoreSet cmd => Sys2Proof.Machine.execPlaneStoreSet cmd s
  | .illChainSet cmd => Sys2Proof.Machine.execIllChainSet cmd s
  | .illDeviceSet cmd => Sys2Proof.Machine.execIllDeviceSet cmd s
  | .illWeightSet cmd => Sys2Proof.Machine.execIllWeightSet cmd s
  | .illFade cmd => Sys2Proof.Machine.execIllFade cmd s
  | .illTcSet cmd => Sys2Proof.Machine.execIllTcSet cmd s
  | .illStringSet cmd => Sys2Proof.Machine.execIllStringSet cmd s
  | .illDiagSet cmd => Sys2Proof.Machine.execIllDiagSet cmd s
  | .loopSet cmd => Sys2Proof.Machine.execLoopSet cmd s
  | .loopCoefSet cmd => Sys2Proof.Machine.execLoopCoefSet cmd s
  | .loopRefSet cmd => Sys2Proof.Machine.execLoopRefSet cmd s
  | .loopGroupSet cmd => Sys2Proof.Machine.execLoopGroupSet cmd s
  | .loopArm cmd => Sys2Proof.Machine.execLoopArm cmd s
  | .loopPwmSet cmd => Sys2Proof.Machine.execLoopPwmSet cmd s
  | .xclRegionSet cmd => Sys2Proof.Machine.execXclRegionSet cmd s
  | .xclMaskLoad cmd => Sys2Proof.Machine.execXclMaskLoad cmd s
  | .xclHostBlank cmd => Sys2Proof.Machine.execXclHostBlank cmd s
  | .xclSafeRelease cmd => Sys2Proof.Machine.execXclSafeRelease cmd s
  | .symListSet cmd => Sys2Proof.Machine.execSymListSet cmd s
  | .symGlyphLoad cmd => Sys2Proof.Machine.execSymGlyphLoad cmd s
  | .linkAllot cmd => Sys2Proof.Machine.execLinkAllot cmd s
  | .linkLaneSet cmd => Sys2Proof.Machine.execLinkLaneSet cmd s
  | .linkOctetReset cmd => Sys2Proof.Machine.execLinkOctetReset cmd s
  | .linkDiag cmd => Sys2Proof.Machine.execLinkDiag cmd s
  | .ahmPolicySet cmd => Sys2Proof.Machine.execAhmPolicySet cmd s
  | .ahmScanStart cmd => Sys2Proof.Machine.execAhmScanStart cmd s
  | .ahmScanAbort cmd => Sys2Proof.Machine.execAhmScanAbort cmd s
  | .ahmDefectRead cmd => Sys2Proof.Machine.execAhmDefectRead cmd s
  | .ahmPark cmd => Sys2Proof.Machine.execAhmPark cmd s
  | .ahmParkRelease cmd => Sys2Proof.Machine.execAhmParkRelease cmd s
  | .cmpViewSet cmd => Sys2Proof.Machine.execCmpViewSet cmd s
  | .cmpPipeBind cmd => Sys2Proof.Machine.execCmpPipeBind cmd s
  | .cmpLayerSet cmd => Sys2Proof.Machine.execCmpLayerSet cmd s
  | .cmpLutSet cmd => Sys2Proof.Machine.execCmpLutSet cmd s
  | .cmpWritebackSet cmd => Sys2Proof.Machine.execCmpWritebackSet cmd s
  | .cmpCommit cmd => Sys2Proof.Machine.execCmpCommit cmd s
  | .fabImageLoad cmd => Sys2Proof.Machine.execFabImageLoad cmd s
  | .fabChainSet cmd => Sys2Proof.Machine.execFabChainSet cmd s
  | .fabChainGo cmd => Sys2Proof.Machine.execFabChainGo cmd s
  | .fabParamSet cmd => Sys2Proof.Machine.execFabParamSet cmd s
  | .fabClusterReset cmd => Sys2Proof.Machine.execFabClusterReset cmd s
  | .bufAlloc cmd => Sys2Proof.Machine.execBufAlloc cmd s
  | .bufFree cmd => Sys2Proof.Machine.execBufFree cmd s
  | .bufSignal cmd => Sys2Proof.Machine.execBufSignal cmd s
  | .bufIngest cmd => Sys2Proof.Machine.execBufIngest cmd s
  | .memLayoutSet cmd => Sys2Proof.Machine.execMemLayoutSet cmd s
  | .memReserveSet cmd => Sys2Proof.Machine.execMemReserveSet cmd s
  | .memPolicySet cmd => Sys2Proof.Machine.execMemPolicySet cmd s
  | .memFence cmd => Sys2Proof.Machine.execMemFence cmd s
  | .memRankRetire cmd => Sys2Proof.Machine.execMemRankRetire cmd s
  | .memRetrain cmd => Sys2Proof.Machine.execMemRetrain cmd s
  | .updateBegin cmd => Sys2Proof.Machine.execUpdateBegin cmd s
  | .updateData cmd => Sys2Proof.Machine.execUpdateData cmd s
  | .updateCommit cmd => Sys2Proof.Machine.execUpdateCommit cmd s
  | .mgtFuseAdvance cmd => Sys2Proof.Machine.execMgtFuseAdvance cmd s
  | .mgtFuseRevoke cmd => Sys2Proof.Machine.execMgtFuseRevoke cmd s
  | .mgtBootcfgSet cmd => Sys2Proof.Machine.execMgtBootcfgSet cmd s
  | .mgtRead cmd => Sys2Proof.Machine.execMgtRead cmd s
  | .mgtFaultClear cmd => Sys2Proof.Machine.execMgtFaultClear cmd s
  | .mgtReinit cmd => Sys2Proof.Machine.execMgtReinit cmd s
  | .secChallenge cmd => Sys2Proof.Machine.execSecChallenge cmd s
  | .secLogin cmd => Sys2Proof.Machine.execSecLogin cmd s
  | .secUserSet cmd => Sys2Proof.Machine.execSecUserSet cmd s
  | .secPolicySet cmd => Sys2Proof.Machine.execSecPolicySet cmd s
  | .secKemGen cmd => Sys2Proof.Machine.execSecKemGen cmd s
  | .secKeyLoad cmd => Sys2Proof.Machine.execSecKeyLoad cmd s
  | .secKeyZero cmd => Sys2Proof.Machine.execSecKeyZero cmd s
  | .secQuote cmd => Sys2Proof.Machine.execSecQuote cmd s
  | .secMarkSet cmd => Sys2Proof.Machine.execSecMarkSet cmd s
  | .secSelftest cmd => Sys2Proof.Machine.execSecSelftest cmd s
  | .secZeroise cmd => Sys2Proof.Machine.execSecZeroise cmd s
  | .secProvision cmd => Sys2Proof.Machine.execSecProvision cmd s
  | .pwrItemSet cmd => Sys2Proof.Machine.execPwrItemSet cmd s
  | .thmSet cmd => Sys2Proof.Machine.execThmSet cmd s
  | .pwrStandbyEnter cmd => Sys2Proof.Machine.execPwrStandbyEnter cmd s
  | .pwrStandbyExit cmd => Sys2Proof.Machine.execPwrStandbyExit cmd s
  | .journalRead cmd => Sys2Proof.Machine.execJournalRead cmd s
  | .journalMark cmd => Sys2Proof.Machine.execJournalMark cmd s
  | .cringDoorbell h ring tail entries => Sys2Proof.Machine.execCringDoorbell h ring tail entries s
  | .rringDoorbell h ring head => Sys2Proof.Machine.execRringDoorbell h ring head s
  | .ringCfgWrite h off val => Sys2Proof.Machine.execRingCfgWrite h off val s
  | .i3cCommandWrite entry => Sys2Proof.Machine.execI3cCommandWrite entry s
  | .i3cBar0ReadSetup off count => Sys2Proof.Machine.execI3cBar0ReadSetup off count s
  | .i3cBar0Write off val => Sys2Proof.Machine.execI3cBar0Write off val s
  | .i3cPrivateRead => Sys2Proof.Machine.execI3cPrivateRead s
  | .registerWrite h off val => Sys2Proof.Machine.execRegisterWrite h off val s
  | .unmapped h off size write => Sys2Proof.Machine.execUnmapped h off size write s
  | .bar2Access h off acc => Sys2Proof.Machine.execBar2Access h off acc s
  | .freezeWrite r val => Sys2Proof.Machine.execFreezeWrite r val s
  | .calSetWrite r set word val => Sys2Proof.Machine.execCalSetWrite r set word val s
  | .calClassCtrlWrite k val => Sys2Proof.Machine.execCalClassCtrlWrite k val s
  | .flr h => Sys2Proof.Machine.execFlr h s
  | .perstN h => Sys2Proof.Machine.execPerstN h s
  | .dlDown h => Sys2Proof.Machine.execDlDown h s
  | .hifReady => Sys2Proof.Machine.execHifReady s
  | .journalEntryPersisted ok => Sys2Proof.Machine.execJournalEntryPersisted ok s
  | .msixCoalesceExpire h vec => Sys2Proof.Machine.execMsixCoalesceExpire h vec s
  | .leaseExpire h => Sys2Proof.Machine.execLeaseExpire h s
  | .cpWatchdog c => Sys2Proof.Machine.execCpWatchdog c s
  | .cpCorePowerOn c => Sys2Proof.Machine.execCpCorePowerOn c s
  | .cpCoreIdleOff c => Sys2Proof.Machine.execCpCoreIdleOff c s
  | .porstNAssert => Sys2Proof.Machine.execPorstNAssert s
  | .porstNRelease straps => Sys2Proof.Machine.execPorstNRelease straps s
  | .wrstNAssert => Sys2Proof.Machine.execWrstNAssert s
  | .wrstNRelease => Sys2Proof.Machine.execWrstNRelease s
  | .uvloRising mv => Sys2Proof.Machine.execUvloRising mv s
  | .uvloFalling mv => Sys2Proof.Machine.execUvloFalling mv s
  | .vinHigh mv => Sys2Proof.Machine.execVinHigh mv s
  | .vinLow mv => Sys2Proof.Machine.execVinLow mv s
  | .vbatLow => Sys2Proof.Machine.execVbatLow s
  | .railSeqStep => Sys2Proof.Machine.execRailSeqStep s
  | .railSeqTimeout => Sys2Proof.Machine.execRailSeqTimeout s
  | .railSeqRetry => Sys2Proof.Machine.execRailSeqRetry s
  | .pgoodFall k => Sys2Proof.Machine.execPgoodFall k s
  | .avsUpdate readback => Sys2Proof.Machine.execAvsUpdate readback s
  | .pmbusItemPoll k raw voutMode => Sys2Proof.Machine.execPmbusItemPoll k raw voutMode s
  | .pmbusAlert words => Sys2Proof.Machine.execPmbusAlert words s
  | .domainSwitchOn => Sys2Proof.Machine.execDomainSwitchOn s
  | .thermalSample readings => Sys2Proof.Machine.execThermalSample readings s
  | .shutdownRestart => Sys2Proof.Machine.execShutdownRestart s
  | .safeBlankNFall => Sys2Proof.Machine.execSafeBlankNFall s
  | .safeBlankNRise => Sys2Proof.Machine.execSafeBlankNRise s
  | .ilockOpen b => Sys2Proof.Machine.execIlockOpen b s
  | .ilockClose b => Sys2Proof.Machine.execIlockClose b s
  | .ilockClosed10ms => Sys2Proof.Machine.execIlockClosed10ms s
  | .ilockDisc => Sys2Proof.Machine.execIlockDisc s
  | .clockMonitorFault m => Sys2Proof.Machine.execClockMonitorFault m s
  | .clockMonitorGood m => Sys2Proof.Machine.execClockMonitorGood m s
  | .periodBoundary => Sys2Proof.Machine.execPeriodBoundary s
  | .windowFreeze => Sys2Proof.Machine.execWindowFreeze s
  | .selectionPoint => Sys2Proof.Machine.execSelectionPoint s
  | .refLoss => Sys2Proof.Machine.execRefLoss s
  | .holdoverExpire => Sys2Proof.Machine.execHoldoverExpire s
  | .steerTimeout => Sys2Proof.Machine.execSteerTimeout s
  | .lockTimeout => Sys2Proof.Machine.execLockTimeout s
  | .refInEdge rising => Sys2Proof.Machine.execRefInEdge rising s
  | .camShutEdge c level => Sys2Proof.Machine.execCamShutEdge c level s
  | .camOpenEdgeMissing c => Sys2Proof.Machine.execCamOpenEdgeMissing c s
  | .phaseMarkEdge k active => Sys2Proof.Machine.execPhaseMarkEdge k active s
  | .slotStart p => Sys2Proof.Machine.execSlotStart p s
  | .slotSettleEnd p => Sys2Proof.Machine.execSlotSettleEnd p s
  | .bandResetQueue p b => Sys2Proof.Machine.execBandResetQueue p b s
  | .bandChangeover p b => Sys2Proof.Machine.execBandChangeover p b s
  | .planeRowFetch p => Sys2Proof.Machine.execPlaneRowFetch p s
  | .linkFrameInterval p => Sys2Proof.Machine.execLinkFrameInterval p s
  | .holdTimeout p => Sys2Proof.Machine.execHoldTimeout p s
  | .holdSubslot p => Sys2Proof.Machine.execHoldSubslot p s
  | .keepaliveBurst p => Sys2Proof.Machine.execKeepaliveBurst p s
  | .chainFrame c responses => Sys2Proof.Machine.execChainFrame c responses s
  | .startupWalkDone c fail => Sys2Proof.Machine.execStartupWalkDone c fail s
  | .discoverDone c delay ids => Sys2Proof.Machine.execDiscoverDone c delay ids s
  | .discoverTimeout c => Sys2Proof.Machine.execDiscoverTimeout c s
  | .walkStep fail => Sys2Proof.Machine.execWalkStep fail s
  | .diagPulse => Sys2Proof.Machine.execDiagPulse s
  | .stringMeasurement k mv stale => Sys2Proof.Machine.execStringMeasurement k mv stale s
  | .diagStarved => Sys2Proof.Machine.execDiagStarved s
  | .loopTrigger n => Sys2Proof.Machine.execLoopTrigger n s
  | .loopStep n sense => Sys2Proof.Machine.execLoopStep n sense s
  | .pwmPeriodStart n => Sys2Proof.Machine.execPwmPeriodStart n s
  | .xclVersionReady p agree => Sys2Proof.Machine.execXclVersionReady p agree s
  | .slicerBandOffer v => Sys2Proof.Machine.execSlicerBandOffer v s
  | .slicerFillDone k => Sys2Proof.Machine.execSlicerFillDone k s
  | .slicerDrainDone k => Sys2Proof.Machine.execSlicerDrainDone k s
  | .cmpFrameStart v fofs => Sys2Proof.Machine.execCmpFrameStart v fofs s
  | .cmpFrameDone v => Sys2Proof.Machine.execCmpFrameDone v s
  | .fabBandStart v => Sys2Proof.Machine.execFabBandStart v s
  | .fabBandDone v => Sys2Proof.Machine.execFabBandDone v s
  | .symbRenderStart v fofs => Sys2Proof.Machine.execSymbRenderStart v fofs s
  | .symbRenderDone v => Sys2Proof.Machine.execSymbRenderDone v s
  | .clusterLoadDone n => Sys2Proof.Machine.execClusterLoadDone n s
  | .clusterDrainDone n => Sys2Proof.Machine.execClusterDrainDone n s
  | .fabSramUe n => Sys2Proof.Machine.execFabSramUe n s
  | .memRequest q => Sys2Proof.Machine.execMemRequest q s
  | .requestPromote n => Sys2Proof.Machine.execRequestPromote n s
  | .pageIdleClose pc rank bank => Sys2Proof.Machine.execPageIdleClose pc rank bank s
  | .refresh pc rank bank => Sys2Proof.Machine.execRefresh pc rank bank s
  | .rankPowerDown r => Sys2Proof.Machine.execRankPowerDown r s
  | .selfRefreshEntry => Sys2Proof.Machine.execSelfRefreshEntry s
  | .selfRefreshExit r => Sys2Proof.Machine.execSelfRefreshExit r s
  | .scrubPass => Sys2Proof.Machine.execScrubPass s
  | .migrationStart lr => Sys2Proof.Machine.execMigrationStart lr s
  | .migrationRowCopied => Sys2Proof.Machine.execMigrationRowCopied s
  | .retrainTempTrigger pc => Sys2Proof.Machine.execRetrainTempTrigger pc s
  | .retrainGap pc => Sys2Proof.Machine.execRetrainGap pc s
  | .retrainDone pc found => Sys2Proof.Machine.execRetrainDone pc found s
  | .bootTrainingDone working => Sys2Proof.Machine.execBootTrainingDone working s
  | .ingestTransferDone host res => Sys2Proof.Machine.execIngestTransferDone host res s
  | .bcFrameReceived o bits => Sys2Proof.Machine.execBcFrameReceived o bits s
  | .bcLockLost o => Sys2Proof.Machine.execBcLockLost o s
  | .bcSilence o => Sys2Proof.Machine.execBcSilence o s
  | .ack p w1 w2 => Sys2Proof.Machine.execAck p w1 w2 s
  | .ackMissing p => Sys2Proof.Machine.execAckMissing p s
  | .status p ws => Sys2Proof.Machine.execStatus p ws s
  | .lanemap p ws => Sys2Proof.Machine.execLanemap p ws s
  | .caps p ws => Sys2Proof.Machine.execCaps p ws s
  | .errcnt p ws => Sys2Proof.Machine.execErrcnt p ws s
  | .temp p w => Sys2Proof.Machine.execTemp p w s
  | .tempStale p => Sys2Proof.Machine.execTempStale p s
  | .defect p ws => Sys2Proof.Machine.execDefect p ws s
  | .scanData p ws => Sys2Proof.Machine.execScanData p ws s
  | .scanDone p w1 w2 w3 => Sys2Proof.Machine.execScanDone p w1 w2 w3 s
  | .scanState p w => Sys2Proof.Machine.execScanState p w s
  | .scanTimeout p => Sys2Proof.Machine.execScanTimeout p s
  | .parkState p w => Sys2Proof.Machine.execParkState p w s
  | .ctrlTimeout p op => Sys2Proof.Machine.execCtrlTimeout p op s
  | .trainPass1End p => Sys2Proof.Machine.execTrainPass1End p s
  | .trainFail p => Sys2Proof.Machine.execTrainFail p s
  | .trainRestart p => Sys2Proof.Machine.execTrainRestart p s
  | .bcAbsent o => Sys2Proof.Machine.execBcAbsent o s
  | .electricalIdleEnd o => Sys2Proof.Machine.execElectricalIdleEnd o s
  | .defectMapSave p => Sys2Proof.Machine.execDefectMapSave p s
  | .mgtLockstepError sram => Sys2Proof.Machine.execMgtLockstepError sram s
  | .mgtWatchdog => Sys2Proof.Machine.execMgtWatchdog s
  | .mgtRun => Sys2Proof.Machine.execMgtRun s
  | .bootImageVerify => Sys2Proof.Machine.execBootImageVerify s
  | .bootAllotment => Sys2Proof.Machine.execBootAllotment s
  | .eventLogFlush => Sys2Proof.Machine.execEventLogFlush s
  | .flashEraseDone => Sys2Proof.Machine.execFlashEraseDone s
  | .fuseBurnDone => Sys2Proof.Machine.execFuseBurnDone s
  | .enclaveSelftestDone pass => Sys2Proof.Machine.execEnclaveSelftestDone pass s
  | .periodicSelftest pass => Sys2Proof.Machine.execPeriodicSelftest pass s
  | .drbgReseed => Sys2Proof.Machine.execDrbgReseed s
  | .entropyFailure => Sys2Proof.Machine.execEntropyFailure s
  | .nonceExpire h => Sys2Proof.Machine.execNonceExpire h s
  | .loginLockoutEnd h => Sys2Proof.Machine.execLoginLockoutEnd h s
  | .kemContextExpire ctx => Sys2Proof.Machine.execKemContextExpire ctx s
  | .tamperSample loop sense temp => Sys2Proof.Machine.execTamperSample loop sense temp s
  | .jtagInstruction ir => Sys2Proof.Machine.execJtagInstruction ir s
  | .calStep k => Sys2Proof.Machine.execCalStep k s
  | .offsetWindow r dq ones => Sys2Proof.Machine.execOffsetWindow r dq ones s
  | .edgeSweepDone r dq counts => Sys2Proof.Machine.execEdgeSweepDone r dq counts s
  | .darkWindow means => Sys2Proof.Machine.execDarkWindow means s
  | .linkReadyTimeout o => Sys2Proof.Machine.execLinkReadyTimeout o s
  | .standbyExitTimeout => Sys2Proof.Machine.execStandbyExitTimeout s
  | .enclaveServiceDone res => Sys2Proof.Machine.execEnclaveServiceDone res s
  | .flashWriteDone ok => Sys2Proof.Machine.execFlashWriteDone ok s
  | .updateVerifyDone => Sys2Proof.Machine.execUpdateVerifyDone s
  | .supplyGlitch => Sys2Proof.Machine.execSupplyGlitch s

end Sys2Proof.Machine
end

