-- ==== Sys2Proof/Machine/Idle.lean ====
section
/-!
DEFINITION. What one nanosecond does when no command waits (a choice of the model, notes/assumptions/4.md): the NCO advances, and
what the device does of itself at that instant becomes due.
-/
namespace Sys2Proof.Machine

/-- The advance of the phase in one nanosecond, in 2^-40 tk, as a numerator over ncoDen: the committed rate with the
current offset (R43, R44). -/
def ncoNum (s : State) : Int := (s.rn : Int) * (1000000000 + s.tim.rateOfs) * 18446744073709551616

def ncoDen (s : State) : Nat := s.rd * 1000000000000000000

/-- The phase moves on by one nanosecond; the manual gives no rounding of the step, so it is open. Passing tick 16,711,680 makes
WINDOW_FREEZE due (R69), and passing the end of the period makes PERIOD_BOUNDARY due (R41). -/
def advancePhase (s : State) : State :=
  let n := s.phase.toNat + (openDiv s.free (ncoNum s) (ncoDen s)).toNat
  let s := if s.phase.toNat < freezeQ && decide (freezeQ ≤ n) && !s.tim.frozen then s.raise .windowFreeze else s
  { s.useFree with phase := BitVec.ofNat 64 n, wrapped := s.wrapped || decide (periodQ ≤ n) }

/-- Blank sources 3 and 11 are events: they are active only at the instant they are raised (R225). -/
def endImpulses (s : State) : State := s.onXcl fun x => { x with active := x.active &&& ~~~(0x808 : BitVec 12) }

/-- 40 ns after a reset's release, each external blank input that has stayed at its blanking level is qualified (R225). -/
def qualifyInputs (s : State) : State :=
  if s.ns = s.relNs + 40 then
    let raiseIf (b : Bool) (k : Nat) (s : State) : State := if b && !s.xcl.active.getLsbD k then raiseSource k s else s
    raiseIf (!s.xcl.ilockB) 2 (raiseIf (!s.xcl.ilockA) 1 (raiseIf (!s.xcl.blankIn) 0 s))
  else s

/-- The return of a rank to self-refresh becomes due IDLE_NS after its last request (R418). -/
def followRanks (s : State) : State :=
  if (List.range 4).any fun r => rankReturns r s then s.raise .selfRefreshEntry else s

/-- One nanosecond with no command: time passes, and a device that is powered and out of reset moves on. -/
def idle (s : State) : State :=
  let s := { s with ns := s.ns + 1, hif := { s.hif with hwSet := [] } }
  if s.live then followRanks (resumeRings (settleStandby (qualifyInputs (endImpulses (serveWaiting (noteLit (settleEdges (followMarks (advancePhase s))))))))) else s

end Sys2Proof.Machine
end

