-- ==== Sys2Proof/Machine/Tick.lean ====
section
/-!
DEFINITION. What a step does when no command waits (notes/assumptions/4.md).
-/
namespace Sys2Proof.Machine

/-- With no command waiting: the boundary that the tick count has reached, else the oldest event that the device has produced
itself, else one nanosecond of time. -/
def unattended (s : State) : Host.Outcome State Fault Refusal :=
  if s.wrapped then exec .periodBoundary s
  else match s.raised with
    | e :: es => exec e { s with raised := es }
    | [] => .next (idle s)

end Sys2Proof.Machine
end

