-- ==== Sys2Proof/Safety.lean ====
section
/-!
DEFINITION. What claims call safe: a step that goes on, memories in canonical form, the safe state in force while it must be,
and the light outputs it holds at their safe levels.
-/
namespace Sys2Proof.Machine

/-- The outcome is a next state. -/
def goesOn (o : Host.Outcome State Fault Refusal) : Bool := match o with | .next _ => true | _ => false

/-- The three byte memories are in canonical form. -/
def Memory.wf (m : Mem) : Bool := memWf m.plane && memWf m.general && memWf m.reserve

/-- XCL_STATUS.SAFE is 1 exactly while a latched source's bit or a raised level source demands it (R226). -/
def safeAgrees (x : Xcl) : Bool := x.safe == safeNow x

/-- Every illumination chain's ICH_EN is low, and the slot-bus code is 0 (R171, R227). -/
def lightOff (s : State) : Bool := s.ill.code == 0 && s.ill.chains.toList.all fun c => !c.en

/-- The rate offset, and the offsets that HOLDOVER takes the mean of (R57), lie in the pull range of R44. -/
def rateInRange (t : Tim) : Bool :=
  (t.rateOfs :: (t.rateHist ++ t.missHist)).all fun r => decide (-1000000 ≤ r ∧ r ≤ 1000000)

/-! ## Commands that run, and what they may touch beside their effect -/

/-- The state in which a command of a host meets the checks of R442 from step 2 on: a core has taken it, its SEQ is held against
its ring's, and its host's lease is renewed. -/
def atChecks (c : Cmd) (s : State) : State := renewLease c.host (checkSeq c (countCore c s))

/-- The entry reaches the command processors and is read at once: the device is live, the ring does not stop (R439, R445), no
earlier command of the ring waits, and the CRC is right (R438). -/
def isRead (op : BitVec 16) (c : Cmd) (s : State) : Bool :=
  !(deaf c s) && !(ringStops c s) && !(ringWaits c s) && Cmd.crcOk op c

/-- The command passes every check of R442. -/
def accepted (sp : OpSpec) (c : Cmd) (s : State) : Bool := isRead sp.op c s && (refusal sp c (atChecks c s)).isNone

/-- The command is refused with r. -/
def refusedWith (sp : OpSpec) (c : Cmd) (r : Refuse) (s : State) : Prop :=
  isRead sp.op c s = true ∧ refusal sp c (atChecks c s) = some r

/-- A session without what reports change: its lease's last renewal and its counters. -/
def Session.settings (q : Session) : Session := { q with leaseStart := 0, cmdCnt := 0, refuseCnt := 0, badCrcCnt := 0 }

/-- A function without what reports change: why a command ring waits, its previous SEQ, where a reply ring stands, and what its
MSI-X vectors hold back and when each last sent. -/
def PcieFn.settings (f : PcieFn) : PcieFn :=
  { f with
    crings := f.crings.map fun r => { r with waitFence := false, waitReply := false, lastSeq := none }
    rrings := f.rrings.map fun r => { r with tail := 0, phase := true }
    coalescing := 0, pendingBits := 0, sentNs := Vector.replicate 64 0 }

/-- A core without what reports change: its counts and the time of its last command. -/
def CpCore.settings (k : CpCore) : CpCore := { k with cmdCnt := 0, resetCnt := 0, lastNs := 0 }

/-- The host interface without what reports change: the journal, replies, events, messages, commands in hand, counters, and which
sticky bits the device set last. -/
def Hif.settings (x : Hif) : Hif :=
  { x with
    sticky := 0, evtDropCnt := 0, sess := x.sess.map Session.settings, cores := x.cores.map CpCore.settings, jseq := 0, journal := []
    replyQ := [], i3cQ := [], pcie := x.pcie.map PcieFn.settings, deferred := [], awaiting := [], waiting := [], outbox := [], hwSet := [] }

/-- The state without what journaling, counting, replying and signalling change: that part of the host interface, and the event
log. -/
def State.settings (s : State) : State :=
  { s with
    hif := s.hif.settings
    mgt := { s.mgt with log := [], logSeq := 0, logUnflushed := 0, logLostCnt := 0, flashLog := [], flashCnt := 0, sticky := 0 } }

/-- t is s but for what journaling, counting, replying and signalling change. -/
def onlyReports (s t : State) : Prop := t.settings = s.settings

/-- The settings without the target tables and the code map built for the coming boundary (R149, R150). -/
def State.noTables (s : State) : State :=
  { s with ill := { s.ill with mapNext := [], drivers := s.ill.drivers.map fun d => { d with target := default } } }

/-- t is s but for reports and for the target tables and code map built for the coming boundary. -/
def onlyTables (s t : State) : Prop := t.settings.noTables = s.settings.noTables

/-- t is what f makes of s, reports aside. -/
def madeBy (f : State → State) (s t : State) : Prop := ∃ u, onlyReports s u ∧ onlyReports (f u) t

/-- The rows of the hosts' commands: what each command's header line and chapter give, and its entry. -/
def hostRow (i : Instr) : Option (OpSpec × Cmd) :=
  match i with
  | .sessionOpen cmd => some (specSessionOpen, cmd)
  | .sessionClose cmd => some (specSessionClose, cmd)
  | .heartbeat cmd => some (specHeartbeat, cmd)
  | .claim cmd => some (specClaim, cmd)
  | .release cmd => some (specRelease, cmd)
  | .eventMaskSet cmd => some (specEventMaskSet, cmd)
  | .cpReset cmd => some (specCpReset, cmd)
  | .timingSet cmd => some (specTimingSet, cmd)
  | .cameraSet cmd => some (specCameraSet, cmd)
  | .viewBind cmd => some (specViewBind, cmd)
  | .timingCommit cmd => some (specTimingCommit, cmd)
  | .phaseSteer cmd => some (specPhaseSteer, cmd)
  | .phaseMarkSet cmd => some (specPhaseMarkSet, cmd)
  | .seqPortSet cmd => some (specSeqPortSet, cmd)
  | .seqLoad cmd => some (specSeqLoad, cmd)
  | .seqCommit cmd => some (specSeqCommit, cmd)
  | .seqDriveSet cmd => some (specSeqDriveSet, cmd)
  | .holdSet cmd => some (specHoldSet, cmd)
  | .holdExit cmd => some (specHoldExit, cmd)
  | .planeStoreSet cmd => some (specPlaneStoreSet, cmd)
  | .illChainSet cmd => some (specIllChainSet, cmd)
  | .illDeviceSet cmd => some (specIllDeviceSet, cmd)
  | .illWeightSet cmd => some (specIllWeightSet, cmd)
  | .illFade cmd => some (specIllFade, cmd)
  | .illTcSet cmd => some (specIllTcSet, cmd)
  | .illStringSet cmd => some (specIllStringSet, cmd)
  | .illDiagSet cmd => some (specIllDiagSet, cmd)
  | .loopSet cmd => some (specLoopSet, cmd)
  | .loopCoefSet cmd => some (specLoopCoefSet, cmd)
  | .loopRefSet cmd => some (specLoopRefSet, cmd)
  | .loopGroupSet cmd => some (specLoopGroupSet, cmd)
  | .loopArm cmd => some (specLoopArm, cmd)
  | .loopPwmSet cmd => some (specLoopPwmSet, cmd)
  | .xclRegionSet cmd => some (specXclRegionSet, cmd)
  | .xclMaskLoad cmd => some (specXclMaskLoad, cmd)
  | .xclHostBlank cmd => some (specXclHostBlank, cmd)
  | .xclSafeRelease cmd => some (specXclSafeRelease, cmd)
  | .symListSet cmd => some (specSymListSet, cmd)
  | .symGlyphLoad cmd => some (specSymGlyphLoad, cmd)
  | .linkAllot cmd => some (specLinkAllot, cmd)
  | .linkLaneSet cmd => some (specLinkLaneSet, cmd)
  | .linkOctetReset cmd => some (specLinkOctetReset, cmd)
  | .linkDiag cmd => some (specLinkDiag, cmd)
  | .ahmPolicySet cmd => some (specAhmPolicySet, cmd)
  | .ahmScanStart cmd => some (specAhmScan, cmd)
  | .ahmScanAbort cmd => some (specAhmScan, cmd)
  | .ahmDefectRead cmd => some (specAhmDefectRead, cmd)
  | .ahmPark cmd => some (specAhmPark, cmd)
  | .ahmParkRelease cmd => some (specAhmPark, cmd)
  | .cmpViewSet cmd => some (specCmpViewSet, cmd)
  | .cmpPipeBind cmd => some (specCmpPipeBind, cmd)
  | .cmpLayerSet cmd => some (specCmpLayerSet, cmd)
  | .cmpLutSet cmd => some (specCmpLutSet, cmd)
  | .cmpWritebackSet cmd => some (specCmpWritebackSet, cmd)
  | .cmpCommit cmd => some (specCmpCommit, cmd)
  | .fabImageLoad cmd => some (specFabImageLoad, cmd)
  | .fabChainSet cmd => some (specFabChainSet, cmd)
  | .fabChainGo cmd => some (specFabChainGo, cmd)
  | .fabParamSet cmd => some (specFabParamSet, cmd)
  | .fabClusterReset cmd => some (specFabClusterReset, cmd)
  | .bufAlloc cmd => some (specBufAlloc, cmd)
  | .bufFree cmd => some (specBufFree, cmd)
  | .bufSignal cmd => some (specBufSignal, cmd)
  | .bufIngest cmd => some (specBufIngest, cmd)
  | .memLayoutSet cmd => some (specMemLayoutSet, cmd)
  | .memReserveSet cmd => some (specMemReserveSet, cmd)
  | .memPolicySet cmd => some (specMemPolicySet, cmd)
  | .memFence cmd => some (specMemFence, cmd)
  | .memRankRetire cmd => some (specMemRankRetire, cmd)
  | .memRetrain cmd => some (specMemRetrain, cmd)
  | .updateBegin cmd => some (specUpdateBegin, cmd)
  | .updateData cmd => some (specUpdateData, cmd)
  | .updateCommit cmd => some (specUpdateCommit, cmd)
  | .mgtFuseAdvance cmd => some (specMgtFuse, cmd)
  | .mgtFuseRevoke cmd => some (specMgtFuse, cmd)
  | .mgtBootcfgSet cmd => some (specMgtBootcfgSet, cmd)
  | .mgtRead cmd => some (specMgtRead, cmd)
  | .mgtFaultClear cmd => some (specMgtFaultClear, cmd)
  | .mgtReinit cmd => some (specMgtReinit, cmd)
  | .secChallenge cmd => some (specSecChallenge, cmd)
  | .secLogin cmd => some (specSecLogin, cmd)
  | .secUserSet cmd => some (specSecUserSet, cmd)
  | .secPolicySet cmd => some (specSecPolicySet, cmd)
  | .secKemGen cmd => some (specSecKemGen, cmd)
  | .secKeyLoad cmd => some (specSecKeyLoad, cmd)
  | .secKeyZero cmd => some (specSecKeyZero, cmd)
  | .secQuote cmd => some (specSecQuote, cmd)
  | .secMarkSet cmd => some (specSecMarkSet, cmd)
  | .secSelftest cmd => some (specSecSelftest, cmd)
  | .secZeroise cmd => some (specSecZeroise, cmd)
  | .secProvision cmd => some (specSecProvision, cmd)
  | .pwrItemSet cmd => some (specPwrItemSet, cmd)
  | .thmSet cmd => some (specThmSet, cmd)
  | .pwrStandbyEnter cmd => some (specPwrStandby, cmd)
  | .pwrStandbyExit cmd => some (specPwrStandby, cmd)
  | .journalRead cmd => some (specJournalRead, cmd)
  | .journalMark cmd => some (specJournalMark, cmd)
  | _ => none

/-- A command of this row that passes every check of R442 goes on to a state that P relates to the command and to the state
before it. -/
def Completes (sp : OpSpec) (row : Cmd → Instr) (P : Cmd → State → State → Prop) : Prop :=
  ∀ c s, accepted sp c s = true → ∃ t, exec (row c) s = .next t ∧ P c s t

/-- The register at BAR0 offset o lies in a domain that switches and is off (R38): CORE (VCORE), the loop engine's, the exclusion
engine's, a slicer's or a pipe's, the last four less what R201, R238, R261 and R360 place in CORE. -/
def inDarkDomain (o : Nat) (s : State) : Bool :=
  (!(domainOn 143 s) && inCore o && (regShown o s).isSome) ||
  (!(domainOn 139 s) && ([0x50000, 0x50008, 0x50010, 0x50014].contains o ||
    (List.range 64).any (fun n => (List.range 10).any fun k => o == 0x50104 + n * 0x40 + 4 * k) ||
    (List.range 16).any fun g => (List.range 3).any fun k => o == 0x51100 + g * 0x10 + 4 * k)) ||
  (!(domainOn 140 s) && (List.range 4).any fun p => (List.range 10).any fun k => o == 0x60104 + p * 0x40 + 4 * k) ||
  ((List.range 8).any fun i => !(domainOn (84 + i) s) && (List.range 3).any fun k => o == 0x70100 + i * 0x20 + 4 * k) ||
  ((List.range 24).any fun i => !(domainOn (92 + i) s) && (List.range 2).any fun k => o == 0xA0404 + i * 0x20 + 4 * k)

/-- The event or access i brings s to a state that differs from s' only in what reports change. -/
def Goes (i : Instr) (s s' : State) : Prop := ∃ t, exec i s = .next t ∧ onlyReports s' t

/-! ## Fault classes (R533, R534) -/

/-- The class of a condition by its effect on the light; R534 does not tell DEGRADE from REPORT. -/
inductive FaultClass where
  | blank | dark | degradeOrReport
  deriving DecidableEq, Repr

/-- A sticky register of R534: the BAR0 offset of its first instance, the distance of the next and their number, and the bits of
class BLANK and of class DARK. -/
structure StickyRow where
  off : Nat
  stride : Nat := 0
  count : Nat := 1
  blank : BitVec 32 := 0
  dark : BitVec 32 := 0
  deriving DecidableEq, Repr

/-- The registers of R534 with a bit in class BLANK or DARK, but for those whose class turns on a setting. -/
def stickyRows : List StickyRow := [
  { off := 0x20004, blank := 0x40, dark := 0xFF08 }, { off := 0x30104, stride := 0x100, count := 4, dark := 0x162 },
  { off := 0x40004, dark := 0xA }, { off := 0x40104, stride := 0x40, count := 4, dark := 0x63 },
  { off := 0x50004, blank := 0x2 }, { off := 0x60004, blank := 0xFFF },
  { off := 0x60104, stride := 0x40, count := 4, blank := 0xB }, { off := 0x70004, dark := 0x3E0 },
  { off := 0x80004, stride := 0x1000, count := 16, dark := 0xF }, { off := 0x80804, stride := 0x4000, count := 4, dark := 0x1 },
  { off := 0x90104, stride := 0x100, count := 4, dark := 0x1A7 }, { off := 0xB0004, dark := 0x4 },
  { off := 0xB0104, stride := 0x40, count := 5, dark := 0x1 }, { off := 0xC0004, dark := 0x204 },
  { off := 0x10004, blank := 0xB }, { off := 0x10024, blank := 0x29F, dark := 0xF000 },
  { off := 0xD0004, blank := 0x20, dark := 0x8 }, { off := 0xD1004, blank := 0x4 }]

/-- The row's register at a BAR0 offset. -/
def StickyRow.covers (r : StickyRow) (off : Nat) : Bool := (List.range r.count).any fun i => off == r.off + i * r.stride

/-- The class of bit k of the sticky register at a BAR0 offset. The bits of ILL_STR_OPEN and ILL_STR_SHORT, RESID_FAULT and
INPUT_FAULT of a loop, and MAP_FULL of an array follow the string's action, the loop's action and the entry lost. -/
def faultClass (off k : Nat) (s : State) : FaultClass :=
  if off = 0x40020 ∨ off = 0x40024 then
    match (nth s.ill.strs k).action.toNat with | 3 => .blank | 0 => .degradeOrReport | _ => .dark
  else if 0x50104 ≤ off ∧ off < 0x50104 + 64 * 0x40 ∧ (off - 0x50104) % 0x40 = 0 then
    let c := (s.loop ((off - 0x50104) / 0x40)).cfg
    if 1 < k then .degradeOrReport
    else if c.action = 2 then .blank
    else if c.action = 1 && ((c.outs.toList.take c.m).any fun o => o.safe == 0) then .dark else .degradeOrReport
  else if k = 12 ∧ (0x90104 ≤ off ∧ off < 0x90504 ∧ (off - 0x90104) % 0x100 = 0) then
    if (s.arr ((off - 0x90104) / 0x100)).mapLost then .blank else .degradeOrReport
  else match stickyRows.find? (·.covers off) with
    | some r => if r.blank.getLsbD k then .blank else if r.dark.getLsbD k then .dark else .degradeOrReport
    | none => .degradeOrReport

end Sys2Proof.Machine
end

