-- ==== Sys2Proof/Certificates/Slice0/Obligations.lean ====
section
/-!
DEFINITION. The statements for the provers, one def per obligation of OBLIGATIONS.json.
-/
open Sys2Proof Sys2Proof.Machine

/-- For every command c and state s whose queue is c followed by rest, step at s is exec of c at s with rest as its queue.
Model: the queue is the model's own (assumption 4). [98_reader.md: the table; 13_hosts_and_commands.md R437] -/
def Obligations.StepRunsTheFrontCommand : Prop :=
  ∀ (c : Instr) (rest : List Instr) (s : State), s.pending = c :: rest → step s = exec c { s with pending := rest }

/-- The model's choice of assumption 4. On an empty queue: a boundary that the tick count has reached is stepped first; else
the oldest event that the device has produced itself; else one nanosecond passes, which in a device that is unpowered or held
in reset is all that happens (with it ends the clock cycle in which a hardware set wins over a clear, assumption 113). The
phase moves on in that nanosecond by the rate times one nanosecond, to one neighbour of the exact value (the manual gives no
rounding). [02_picture_phase.md R41, R43, R44] -/
def Obligations.UnattendedStepFollowsTheClock : Prop :=
  ∀ s : State, s.pending = [] →
  (s.wrapped = true → step s = exec .periodBoundary s) ∧
  (∀ e es, s.wrapped = false → s.raised = e :: es → step s = exec e { s with raised := es }) ∧
  (s.wrapped = false → s.raised = [] → s.live = false →
    step s = .next { s with ns := s.ns + 1, hif := { s.hif with hwSet := [] } }) ∧
  (s.wrapped = false → s.raised = [] → step s = .next (idle s)) ∧
  (0 < s.rd → -1000000 ≤ s.tim.rateOfs →
    ∃ d : Nat, (advancePhase s).phase = BitVec.ofNat 64 (s.phase.toNat + d) ∧
      ((d * (s.rd * 1000000000000000000) : Nat) - (s.rn * (1000000000 + s.tim.rateOfs) * 18446744073709551616 : Int)).natAbs <
        s.rd * 1000000000000000000)

/-- For every command and state, when exec answers a next state, its queue is the queue before. Model: the queue is the
model's own (assumption 4). [13_hosts_and_commands.md R437] -/
def Obligations.ExecKeepsTheQueue : Prop :=
  ∀ (i : Instr) (s t : State), exec i s = .next t → t.pending = s.pending

/-- If plane memory, general memory and the memory reserve are lists of cells with strictly rising addresses of which none
holds what an unlisted address reads (0, assumption 2), they still are after any step. [12_memory.md R396, R397, R398] -/
def Obligations.StepKeepsMemoryCanonical : Prop :=
  ∀ s t : State, Memory.wf s.mem = true → step s = .next t → Memory.wf t.mem = true

/-- If the current rate and the rates kept for holdover, those of periods with a missing sample among them, lie within
1,000,000 ppb of the nominal rate, they do so after any step; and a phase sample sets the rate to what the loop asks for with
the host's hint in it (assumption 114), clamped to that range. [R44] -/
def Obligations.RateStaysWithinThePullRange : Prop :=
  (∀ s t : State, rateInRange s.tim = true → step s = .next t → rateInRange t.tim = true) ∧
  (∀ (err hint : Int) (s : State), (takeSample err hint s).tim.rateOfs =
    max (-1000000) (min 1000000 (loopRate err hint s)))

/-- If the safe state is in force exactly while a bit of XCL_SAFE_LATCH is 1 or a level source (0 or 7) is raised, that still
holds after any step. [06_exclusion_and_symbols.md R226, R231] -/
def Obligations.SafeStateFollowsItsSources : Prop :=
  ∀ s t : State, safeAgrees s.xcl = true → step s = .next t → safeAgrees t.xcl = true

/-- At State.reset the memories are in canonical form, the rate lies in the pull range, and SAFE agrees with its sources.
[02_picture_phase.md R44; 06_exclusion_and_symbols.md R226; 12_memory.md R396] -/
def Obligations.InvariantsHoldAtReset : Prop :=
  Memory.wf State.reset.mem = true ∧ rateInRange State.reset.tim = true ∧ safeAgrees State.reset.xcl = true

/-- A period boundary of a live device adds 1 to TIM_FRAME. A cold reset ends with TIM_FRAME at 0. A warm reset's entry and
exit leave it. No command other than a period boundary or an event of the reset pins and supplies (PORST_N, WRST_N,
UVLO_FALLING, RAIL_SEQ_STEP, PGOOD_FALL) changes it. [R42] -/
def Obligations.FrameNumberCountsBoundaries : Prop :=
  (∀ s, s.live = true → ∃ t, exec .periodBoundary s = .next t ∧ t.frame = s.frame + 1) ∧
  (∀ straps s, s.porst = true → s.powered = true → s.wrst = false → s.pwr.railReset = false → s.coldReset = true →
    ∃ t, exec (.porstNRelease straps) s = .next t ∧ t.frame = 0) ∧
  (∀ s, s.live = true → ∃ t, exec .wrstNAssert s = .next t ∧ t.frame = s.frame) ∧
  (∀ s, s.wrst = true → s.powered = true → s.porst = false → s.pwr.railReset = false → s.coldReset = false →
    ∃ t, exec .wrstNRelease s = .next t ∧ t.frame = s.frame) ∧
  (∀ i s t, exec i s = .next t → i ≠ .periodBoundary → i ≠ .porstNAssert → (∀ b, i ≠ .porstNRelease b) → i ≠ .wrstNAssert →
    i ≠ .wrstNRelease → (∀ v, i ≠ .uvloFalling v) → i ≠ .railSeqStep → (∀ k, i ≠ .pgoodFall k) → t.frame = s.frame)

/-- No command clears a bit of XCL_SAFE_LATCH but XCL_SAFE_RELEASE, the four ways by which a command entry comes in raw and
may be one (doorbells, ring registers, I3C), and PORST_N and the fall of the supply through UVLO.
[06_exclusion_and_symbols.md R226, R231, R238; 16_power_thermal_reset.md R528] -/
def Obligations.LatchedSourceStaysLatched : Prop :=
  ∀ i s t, exec i s = .next t → (∀ c, i ≠ .xclSafeRelease c) → (∀ h r v l, i ≠ .cringDoorbell h r v l) →
    (∀ h r v, i ≠ .rringDoorbell h r v) → (∀ h o v, i ≠ .ringCfgWrite h o v) → (∀ e, i ≠ .i3cCommandWrite e) →
    i ≠ .porstNAssert → (∀ v, i ≠ .uvloFalling v) →
    ∀ k, s.xcl.latch.getLsbD k = true → t.xcl.latch.getLsbD k = true

/-- For every opcode and every command, the 256 bytes of R438 built from its header fields and inline area parse back to that
opcode and command, with the inline area filled up with zeros to its 224 bytes. [13_hosts_and_commands.md R438, R439] -/
def Obligations.EntryReadsBack : Prop :=
  ∀ (op : BitVec 16) (c : Cmd), RawEntry.parse c.host c.ring { bytes := Cmd.bytes op c, ptr := c.ptr } =
    (op, { c with inl := slice c.inl 0 224 })

/-- For every host command that is read at once with a right CRC and that some check of R442 refuses: the step goes on to a
state that differs from the one before only in the journal, counters, replies and signals; outside RECOVERY the newest
journal entry is its ACCEPT entry with the next JSEQ, its correlation value, the status and the DETAIL of the first failing
check; and the host's count of refusals has moved on by 1 (saturating). [13_hosts_and_commands.md R442, R447, R448, R453] -/
def Obligations.RefusedCommandOnlyReports : Prop :=
  ∀ i sp c r s, hostRow i = some (sp, c) → refusedWith sp c r s → ∃ t, exec i s = .next t ∧ onlyReports s t ∧
    (s.mgt.st ≠ .recovery → ∃ e rest, t.hif.journal = e :: rest ∧ e.jseq = t.hif.jseq ∧ t.hif.jseq = s.hif.jseq + 1 ∧
      e.kind = .accept ∧ e.opcode = sp.op ∧ e.status = r.status ∧ e.detail = r.detail ∧ e.corr = c.corr ∧ e.seq = c.seq ∧
      e.host = c.host) ∧
    (nth t.hif.sess c.host.toNat).refuseCnt = sat (nth s.hif.sess c.host.toNat).refuseCnt

/-- For every host command that is read at once and whose CRC (or PCRC) is wrong: the step goes on to a state that differs
only in what reports change, the journal and its JSEQ are as before, and the host's BAD_CRC count has moved on by 1.
[13_hosts_and_commands.md R442] -/
def Obligations.BadCrcIsCountedAndNotJournaled : Prop :=
  ∀ i sp c s, hostRow i = some (sp, c) → deaf c s = false → ringStops c s = false → ringWaits c s = false →
    Cmd.crcOk sp.op c = false → ∃ t, exec i s = .next t ∧ onlyReports s t ∧ t.hif.journal = s.hif.journal ∧ t.hif.jseq = s.hif.jseq ∧
      (nth t.hif.sess c.host.toNat).badCrcCnt = sat (nth s.hif.sess c.host.toNat).badCrcCnt

/-- A host command that reaches a device that is unpowered, held in reset or, from a PCIe host, in RECOVERY or with that
host's clock bad changes nothing. One whose ring stops (FENCE, a full reply ring, a lost command clock) or has an earlier
command waiting joins the waiting commands and changes nothing else but its ring's state bits. [13_hosts_and_commands.md
R439, R445; 17_faults_and_recovery.md R32] -/
def Obligations.StoppedRingHoldsItsCommands : Prop :=
  ∀ i sp c s, hostRow i = some (sp, c) →
    (deaf c s = true → exec i s = .next s) ∧
    (deaf c s = false → (ringStops c s = true ∨ ringWaits c s = true) → ∃ t, exec i s = .next t ∧ onlyReports s t ∧
      t.hif.waiting = s.hif.waiting ++ [{ opcode := sp.op, cmd := c }] ∧ t.hif.journal = s.hif.journal)

/-- For every host command that passes the checks: its effect d is taken in a state u that differs from s only in reports;
the commands that await a boundary are those after the effect with this command added when its apply point is a boundary, and
the commands that await completion are those after the effect with it added when its first status is ACCEPTED; the host's
count of commands, or of refusals when the effect itself refuses (an enclave service), moves on by 1; a write to the host
that fails (HOST_ERROR) counts among the refusals. [13_hosts_and_commands.md R442, R443, R444, R448] -/
def Obligations.AcceptedCommandIsCountedAndHeld : Prop :=
  ∀ i sp c s, hostRow i = some (sp, c) → accepted sp c s = true → ∃ u t, exec i s = .next t ∧ onlyReports s u ∧
    (let h := heldOf sp c (atChecks c s)
     let d := sp.effect h u
     onlyReports d.st t ∧ t.hif.deferred = d.st.hif.deferred ++ (if sp.boundary then [h] else []) ∧
     t.hif.awaiting = d.st.hif.awaiting ++ (if d.status = .accepted then [{ h with sole := d.sole }] else []) ∧
     (nth t.hif.sess c.host.toNat).cmdCnt = (if d.status = .done ∨ d.status = .accepted
       then sat (nth d.st.hif.sess c.host.toNat).cmdCnt else (nth d.st.hif.sess c.host.toNat).cmdCnt) ∧
     (nth t.hif.sess c.host.toNat).refuseCnt = (if d.status = .done ∨ d.status = .accepted
       then (nth d.st.hif.sess c.host.toNat).refuseCnt else sat (nth d.st.hif.sess c.host.toNat).refuseCnt))

/-- Accepted, SESSION_OPEN leaves the sender's session open under the next session number with the lease, event ring and
vector mask of its payload (ending an open one first, with its enclave role); SESSION_CLOSE ends it with its role; HEARTBEAT
restarts its lease and EVENT_MASK_SET sets its mask. Nothing else changes but what reports change. [13_hosts_and_commands.md
R432, R433, SESSION_OPEN, SESSION_CLOSE, HEARTBEAT, EVENT_MASK_SET; 14_management_and_security.md R479] -/
def Obligations.SessionCommandsSetTheSession : Prop :=
  Completes specSessionOpen .sessionOpen (fun c s t =>
    let b := Cmd.payload c
    let i := c.host.toNat
    let n := s.onHif fun x => { x with sess := upd x.sess i fun q => { q with
      isOpen := true, number := q.number + 1, lease := u16 b 0 != 0, leaseMs := BitVec.ofNat 16 (u16 b 0)
      evRing := BitVec.ofNat 2 (u8 b 2), noEvRing := bitOf (u8 b 2) 7, mask := BitVec.ofNat 16 (u16 b 4) } }
    onlyReports (if (nth s.hif.sess i).isOpen then n.onSec fun x => { x with
      role := upd x.role i fun _ => 0, index := upd x.index i fun _ => 0 } else n) t) ∧
  Completes specSessionClose .sessionClose (fun c s t =>
    let i := c.host.toNat
    onlyReports (if (nth s.hif.sess i).isOpen then
      (s.onHif fun x => { x with sess := upd x.sess i fun q => { q with isOpen := false, lease := false } }).onSec fun x => { x with
        role := upd x.role i fun _ => 0, index := upd x.index i fun _ => 0 } else s) t) ∧
  Completes specHeartbeat .heartbeat (fun c s t => onlyReports s t ∧ (nth t.hif.sess c.host.toNat).leaseStart = s.ns) ∧
  Completes specEventMaskSet .eventMaskSet (fun c s t =>
    onlyReports (s.onHif fun x => { x with sess := upd x.sess c.host.toNat fun q => { q with
      mask := BitVec.ofNat 16 (u16 (Cmd.payload c) 0) } }) t)

/-- Accepted, CLAIM leaves the target of a claimable class owned by the sender, and RELEASE by the host named in its payload
(0 for unowned). Nothing else changes but what reports change. [13_hosts_and_commands.md R434, R435, R436, CLAIM, RELEASE] -/
def Obligations.OwnershipCommandsSetTheOwner : Prop :=
  Completes specClaim .claim (fun c s t => onlyReports (s.onHif (setOwner c.tclass c.tindex.toNat c.host)) t ∧
    ownerOf c.tclass c.tindex.toNat t.hif = c.host) ∧
  Completes specRelease .release (fun c s t =>
    let n := BitVec.ofNat 2 (u8 (Cmd.payload c) 0)
    onlyReports (s.onHif (setOwner c.tclass c.tindex.toNat n)) t ∧ ownerOf c.tclass c.tindex.toNat t.hif = n)

/-- Accepted, CP_RESET counts a reset of the core its payload names and leaves it IDLE (OFF if it was off), its rings passed
to the other cores. JOURNAL_READ writes to the host, at ADDR, unless that write fails (HOST_ERROR, assumption 111), the bytes
of the oldest entries from FROM on that are older than its own, at most COUNT of them. JOURNAL_MARK adds, outside RECOVERY, a
MARK entry right after its own ACCEPT entry with its CORR and its payload word. Nothing else changes but what reports change.
[13_hosts_and_commands.md R452, R453, CP_RESET, JOURNAL_READ, JOURNAL_MARK] -/
def Obligations.ProcessorAndJournalCommands : Prop :=
  Completes specCpReset .cpReset (fun c s t =>
    let k := u8 (Cmd.payload c) 0
    onlyReports (s.onHif fun x => { x with cores := upd x.cores k fun q => { q with
      st := if q.st = .off then .off else .idle, passed := true } }) t ∧
    (nth t.hif.cores k).resetCnt = sat (nth s.hif.cores k).resetCnt ∧
    (nth t.hif.cores k).st = if (nth s.hif.cores k).st = .off then .off else .idle) ∧
  Completes specJournalRead .journalRead (fun c s t =>
    let b := Cmd.payload c
    onlyReports s t ∧ (Config.hostWriteFails (s.hif.jseq + 1).toNat = false →
      .bytes c.host (u64 b 16) (((t.hif.journal.reverse.filter fun e =>
      u64 b 0 ≤ e.jseq.toNat && e.jseq.toNat < (s.hif.jseq + 1).toNat).take (u16 b 8)).flatMap JEntry.bytes) ∈ t.hif.outbox)) ∧
  Completes specJournalMark .journalMark (fun c s t =>
    onlyReports s t ∧ (s.mgt.st ≠ .recovery → ∃ e ∈ t.hif.journal, e.kind = .mark ∧ e.jseq = s.hif.jseq + 2 ∧ e.corr = c.corr ∧
      e.detail = BitVec.ofNat 32 (u32 (Cmd.payload c) 0)))

/-- Accepted, TIMING_SET writes the shadow mode's fields from its payload and CAMERA_SET the settings of the target camera in
it; the mode in force stays. TIMING_COMMIT takes the shadow mode as the one that its boundary will apply, and is the commit
that awaits completion. Nothing else changes but what reports change. [02_picture_phase.md R43, R47, R67, R81, TIMING_SET,
CAMERA_SET, TIMING_COMMIT] -/
def Obligations.TimingCommandsFillTheShadow : Prop :=
  Completes specTimingSet .timingSet (fun c s t =>
    let b := Cmd.payload c
    onlyReports (s.onTim fun x => { x with shadow := { x.shadow with
      rateN := u32 b 0, rateD := u32 b 4
      srcList := ([u8 b 8, u8 b 9, u8 b 10, u8 b 11].map (BitVec.ofNat 8)).takeWhile (· != 0)
      bwCHz := u16 b 12, lockCount := u8 b 14, unlockCount := u8 b 15, lockThrNs := u32 b 16, unlockThrNs := u32 b 20
      refLossLimit := u8 b 24, refM := u8 b 25 % 16 + 1, refFalling := bitOf (u8 b 25) 4, holdoverS := u16 b 26
      refOfs := BitVec.ofNat 24 (u32 b 28), settleMs := u16 b 32, steerMs := u16 b 34 } }) t) ∧
  Completes specCameraSet .cameraSet (fun c s t =>
    let b := Cmd.payload c
    onlyReports (s.onTim fun x => { x with shadow := { x.shadow with cams := upd x.shadow.cams c.tindex.toNat fun _ =>
      { enable := bitOf (u8 b 0) 0, openHigh := bitOf (u8 b 0) 1, m := field (u8 b 0) 2 4 + 1, filterK := u8 b 1
        missLimit := u8 b 2, reacq := u8 b 3, nomOfs := BitVec.ofNat 24 (u32 b 4), nomLen := BitVec.ofNat 24 (u32 b 8)
        guard := BitVec.ofNat 20 (u32 b 12), outlierNs := u32 b 16 } } }) t) ∧
  Completes specTimingCommit .timingCommit (fun c s t =>
    ∃ h, h.cmd = c ∧ h.opcode = 0x0103 ∧ onlyReports (s.onTim fun x => { x with commit := some h, commitMode := some x.shadow }) t)

/-- Accepted, VIEW_BIND and PHASE_MARK_SET change nothing before their boundary. At it, VIEW_BIND binds the target view as
its payload says and PHASE_MARK_SET sets the target output from its payload. A TIMING_COMMIT at its boundary puts the
scheduled mode in force, and one that changes the nominal rate takes the device into SETTLE and counts it.
[02_picture_phase.md R81, R82, R83, R91, R93, VIEW_BIND, PHASE_MARK_SET; 13_hosts_and_commands.md R443, R444] -/
def Obligations.TimingBoundaryCommandsApply : Prop :=
  Completes specViewBind .viewBind (fun _ s t => onlyReports s t) ∧
  Completes specPhaseMarkSet .phaseMarkSet (fun _ s t => onlyReports s t) ∧
  (∀ h s, h.opcode = 0x0102 → h.due = none → onlyReports (s.onTim fun x => { x with
    bind := upd x.bind h.cmd.tindex.toNat fun _ => BitVec.ofNat 3 (u8 (Cmd.payload h.cmd) 0) }) (applyHeld h s)) ∧
  (∀ h s, h.opcode = 0x0105 → h.due = none →
    let b := Cmd.payload h.cmd
    onlyReports (s.onTim fun x => { x with marks := upd x.marks h.cmd.tindex.toNat fun _ =>
      { mode := BitVec.ofNat 2 (u8 b 0), activeHigh := bitOf (u8 b 1) 0, cam := BitVec.ofNat 2 (field (u8 b 1) 1 2)
        divider := u8 b 2 + 1, divPhase := u8 b 3, start := BitVec.ofNat 24 (u32 b 4), width := BitVec.ofNat 24 (u32 b 8) } })
      (applyHeld h s)) ∧
  (∀ h s m, s.tim.commitMode = some m →
    (applyTiming h s).tim.mode = m ∧ (applyTiming h s).tim.commitMode = none ∧
    (applyTiming h s).tim.settle = (s.tim.settle || !(s.tim.mode.rateN * m.rateD == m.rateN * s.tim.mode.rateD)) ∧
    (applyTiming h s).tim.settleCnt =
      (if s.tim.mode.rateN * m.rateD = m.rateN * s.tim.mode.rateD then s.tim.settleCnt else sat s.tim.settleCnt))

/-- For every PHASE_STEER read at once while the active source is not code 2: when none of the checks of its header refuses
it and no earlier command blocks it, it is refused with BUSY, before its fields are looked at (R442); and in every case the
step goes on with the phase keeper, its rate with it, as it was. [R64] -/
def Obligations.SteeringNeedsTheHostSource : Prop :=
  ∀ c s, isRead 0x0104 c s = true → s.tim.src ≠ 2 →
    (headerRefusal specPhaseSteer c (atChecks c s) = none → groupBusy 0x0104 (atChecks c s) = false →
      refusedWith specPhaseSteer c ⟨.busy, 0⟩ s) ∧
    ∃ t, exec (.phaseSteer c) s = .next t ∧ t.tim = s.tim

/-- Accepted, PHASE_STEER with an error that calls for a step (the first sample after a rate change, or an error beyond the
lock threshold while every enabled port is dark) makes that step: no step is due any more, and the lock count starts again.
Otherwise it is one phase sample: its error is the last sample, and the rate is what the loop makes of the error and of the
hint, when valid, held to the pull range. The loop's form and the hint's place in it are the model's (assumption 114), its
gain is open (assumption 3). [02_picture_phase.md R44, R54, R62, PHASE_STEER] -/
def Obligations.SteeringStepsOrTrimsThePhase : Prop :=
  Completes specPhaseSteer .phaseSteer (fun c s t =>
    let b := Cmd.payload c
    let err := i32 b 4
    (sampleSteps err s = true → t.tim.stepNext = false ∧ t.tim.lockRun = 0 ∧ t.tim.rateOfs = s.tim.rateOfs) ∧
    (sampleSteps err s = false → t.tim.phaseErr = BitVec.ofInt 32 err ∧ t.phase = s.phase ∧ t.frame = s.frame ∧
      t.tim.rateOfs = max (-1000000) (min 1000000
        (loopRate err (if bitOf (u32 b 12) 0 then i32 b 8 else 0) s))))

/-- Accepted, SEQ_LOAD writes (or empties) one shadow sequence of its port, and SEQ_COMMIT takes the shadow sequences of
every port in its mask as those its boundary will commit. SEQ_PORT_SET and SEQ_DRIVE_SET change nothing of the port before
their boundary; at it they set the port's enable, link set, settle and lead times (the code map is then built anew), and the
drive table. A SEQ_COMMIT that reaches its boundary is due on each port of its mask. The target tables for the coming
boundary (R150) follow; nothing else changes but what reports change. [03_sequences.md R111, R112, R115, R116, R117,
SEQ_PORT_SET, SEQ_LOAD, SEQ_COMMIT, SEQ_DRIVE_SET] -/
def Obligations.SequenceCommandsSetTheirPort : Prop :=
  Completes specSeqPortSet .seqPortSet (fun _ s t => onlyTables s t) ∧
  Completes specSeqLoad .seqLoad (fun c s t =>
    let b := Cmd.payload c
    let xs := if u16 b 2 = 0 then none else some (parseSlots b 8 (u16 b 2))
    onlyReports (s.onPort c.tindex.toNat fun q => { q with shadow := upd q.shadow (u8 b 0) fun _ => xs }) t) ∧
  Completes specSeqCommit .seqCommit (fun c s t => ∃ h : Held, h.cmd = c ∧ h.opcode = 0x0202 ∧
    onlyTables ((bitsOf 4 (u8 (Cmd.payload c) 0)).foldl (fun s p => s.onPort p fun q => { q with
      commitSeqs := some q.shadow, commit := some h, commitDue := false }) s) t) ∧
  Completes specSeqDriveSet .seqDriveSet (fun _ s t => onlyReports s t) ∧
  (∀ h s, h.opcode = 0x0200 → h.due = none →
    let b := Cmd.payload h.cmd
    onlyReports ((s.onPort h.cmd.tindex.toNat fun q => { q with
      enable := bitOf (u8 b 0) 0, linkSet := BitVec.ofNat 4 (u8 b 1), settleNs := u16 b 2, leadNs := u16 b 4 }).onIll fun i => { i with
      rebuild := true }) (applyHeld h s)) ∧
  (∀ h s, h.opcode = 0x0202 → h.due = none →
    applyHeld h s = (bitsOf 4 (u8 (Cmd.payload h.cmd) 0)).foldl (fun s p => s.onPort p fun q => { q with commitDue := true }) s) ∧
  (∀ h s, h.opcode = 0x0203 → h.due = none → onlyReports (s.onPort h.cmd.tindex.toNat fun q => { q with
    driveTab := Vector.ofFn fun i => BitVec.ofNat 16 (u16 (Cmd.payload h.cmd) (2 * i.val)) }) (applyHeld h s))

/-- Each command named completes (exec answers a next state) whenever it passes the checks of R442. Accepted, HOLD_SET
records on its port the plane and light that its payload names as the hold asked for, with the tick it was asked at; on a
port in hold whose plane changes colour or bit it also asks for a reload, which wakes the memory and takes the link out of
its keep-alive bursts. HOLD_EXIT marks the port as leaving hold and the fabric as running. PLANE_STORE_SET drops the view's
frames, counting each, and gives the store the shape of its payload (or none), at the lowest place of the plane region that
is free when it fits. Nothing else changes but reports and the target tables. [03_sequences.md R123, R129, HOLD_SET,
HOLD_EXIT; 07_slicer_and_plane_store.md R241, R251, PLANE_STORE_SET] -/
def Obligations.HoldAndPlaneStoreCommands : Prop :=
  (∀ c s, accepted specHoldSet c s = true → ∃ t, exec (.holdSet c) s = .next t ∧
    (∃ h : Held, h.cmd = c ∧ h.opcode = 0x0204 ∧
    (let p := c.tindex.toNat
     let b := Cmd.payload c
     let r : HoldReq := {
       view := BitVec.ofNat 3 (u16 b 0), colour := BitVec.ofNat 3 (field (u16 b 0) 3 3), bit := BitVec.ofNat 4 (field (u16 b 0) 6 4)
       fofs := BitVec.ofNat 2 (field (u16 b 0) 14 2), level := u16 b 2
       entry := Vector.ofFn fun g => BitVec.ofNat 6 (field (u32 b 4) (6 * g.val) 6), drive := BitVec.ofNat 6 (u8 b 8) }
     let n := s.onPort p fun q => { q with hold := { q.hold with req := some r, cmd := some h, reqTk := absTick s, breakSeen := false } }
     let q := (s.port p).hold
     onlyTables (if q.on && (r.colour != q.colour || r.bit != q.bit) then
       wakeMemory ((resumeLink p n).onPort p fun q => { q with hold := { q.hold with
         reloadAts := q.hold.reloadAts ++ [s.ns] } }) else n) t))) ∧
  (∀ c s, accepted specHoldExit c s = true → ∃ t, exec (.holdExit c) s = .next t ∧
    (∃ h : Held, h.cmd = c ∧ h.opcode = 0x0205 ∧
    onlyReports ((s.onPort c.tindex.toNat fun q => { q with hold := { q.hold with exiting := true, cmd := some h } }).onFab
      fun f => { f with stopped := false }) t)) ∧
  (∀ c s, accepted specPlaneStoreSet c s = true → ∃ t, exec (.planeStoreSet c) s = .next t ∧
    (let b := Cmd.payload c
    let v := c.tindex.toNat
    madeBy (fun u =>
      let w := (emptyStore true v u).onFview v fun f => { f with frame := f.frame.filter fun g => g.offered == 0, recheck := true }
      let st := parseStore b (w.store v)
      if u8 b 2 = 0 then w.onStore v noStore
      else match firstFit (storeSize st) (planeSize w.mem) (storeExtents v w) with
        | some a => w.onStore v fun _ => { st with base := a }
        | none => w) s t))

/-- Each command named completes (exec answers a next state) whenever it passes the checks of R442. Accepted, ILL_CHAIN_SET
with ENABLE 1 takes its chain to WALK with no device known, ICH_EN low and its walk awaited; with ENABLE 0 to OFF. The six
others wait for their boundary, at which they give their driver its port, group and base currents (a new role epoch when port
or group change), their group its primary and weights (entry 0 stays 0; with both the code map is built anew) or a fade from
the factor in force, their set its sensor and points, their string its settings with its checks started anew, and the
controller its sensing times. Nothing else changes but reports and the target tables. [04_illumination.md R144, R148, R149,
R152, R153, R162, R164, R166, ILL_CHAIN_SET, ILL_DEVICE_SET, ILL_WEIGHT_SET] -/
def Obligations.IlluminationCommands : Prop :=
  (∀ c s, accepted specIllChainSet c s = true → ∃ t, exec (.illChainSet c) s = .next t ∧
    (let b := Cmd.payload c
    (bitOf (u8 b 0) 0 = true → ∃ h : Held, h.cmd = c ∧ h.opcode = 0x0300 ∧ onlyReports (s.onChain c.tindex.toNat fun x => { x with
      st := .walk, n := 0, nExpect := u8 b 1, en := false, frames := 0, enBad := 0, noCheck := true
      nopNext := false, stage := 0, walkSteps := 0, cmd := some h }) t) ∧
    (bitOf (u8 b 0) 0 = false → onlyReports (s.onChain c.tindex.toNat fun x => { x with
      st := .off, n := 0, nExpect := u8 b 1, en := false, cmd := none }) t))) ∧
  (∀ c s, accepted specIllDeviceSet c s = true → ∃ t, exec (.illDeviceSet c) s = .next t ∧
    (onlyTables s t)) ∧
  (∀ c s, accepted specIllWeightSet c s = true → ∃ t, exec (.illWeightSet c) s = .next t ∧
    (onlyTables s t)) ∧
  (∀ c s, accepted specIllFade c s = true → ∃ t, exec (.illFade c) s = .next t ∧
    (onlyReports s t)) ∧
  (∀ c s, accepted specIllTcSet c s = true → ∃ t, exec (.illTcSet c) s = .next t ∧
    (onlyReports s t)) ∧
  (∀ c s, accepted specIllStringSet c s = true → ∃ t, exec (.illStringSet c) s = .next t ∧
    (onlyReports s t)) ∧
  (∀ c s, accepted specIllDiagSet c s = true → ∃ t, exec (.illDiagSet c) s = .next t ∧
    (onlyReports s t)) ∧
  (∀ h s, h.due = none →
    let b := Cmd.payload h.cmd
    let n := h.cmd.tindex.toNat
    (h.opcode = 0x0301 → onlyReports (s.onIll fun i => { i with rebuild := true, drivers := upd i.drivers n fun d =>
      let port : Option (BitVec 2) := if u8 b 0 = 0xFF then none else some (BitVec.ofNat 2 (u8 b 0))
      let group := BitVec.ofNat 2 (u8 b 1)
      { d with
        port := port, group := group, baseNom := Vector.ofFn fun k => BitVec.ofNat 16 (u16 b (4 + 2 * k.val))
        epoch := if d.port = port ∧ d.group = group then d.epoch else d.epoch + 1 } }) (applyHeld h s)) ∧
    (h.opcode = 0x0302 → onlyReports (s.onIll fun i => { i with rebuild := true, groups := upd i.groups n fun g => { g with
      primary := BitVec.ofNat 3 (u8 b 0)
      weight := Vector.ofFn fun k => if k.val = 0 then 0 else BitVec.ofNat 16 (u16 b (2 * k.val)) } }) (applyHeld h s)) ∧
    (h.opcode = 0x0303 → onlyReports (s.onIll fun i => { i with groups := upd i.groups n fun g =>
      let f := { g with fadeFrom := g.fade, fadeTo := BitVec.ofNat 16 (u16 b 0), fadeMs := u16 b 2, fadeJ := 0, fading := true }
      { f with fade := fadeAt s.rn s.rd f 0 } }) (applyHeld h s)) ∧
    (h.opcode = 0x0304 → onlyReports (s.onIll fun i => { i with tcs := upd i.tcs n fun x => { x with
      ntc := BitVec.ofNat 3 (u8 b 0), points := parseTc b (u8 b 1) } }) (applyHeld h s)) ∧
    (h.opcode = 0x0305 → ∃ w, (∀ k, k ≠ n → nth (applyHeld h s).ill.strs k = nth s.ill.strs k) ∧
      (n < 24 → nth (applyHeld h s).ill.strs n = w) ∧ w.enable = bitOf (u8 b 0) 0 ∧ w.action = BitVec.ofNat 2 (field (u8 b 0) 1 2) ∧
      w.confirm = field (u8 b 0) 3 4 ∧ w.chain = BitVec.ofNat 2 (u8 b 1) ∧ w.channel = BitVec.ofNat 3 (field (u8 b 1) 2 3) ∧
      w.device = BitVec.ofNat 5 (u8 b 2) ∧ w.vOpen = BitVec.ofNat 16 (u16 b 4) ∧ w.vShort = BitVec.ofNat 16 (u16 b 6) ∧
      w.iMin = BitVec.ofNat 16 (u16 b 8) ∧ w.diagCur = BitVec.ofNat 16 (u16 b 10) ∧ w.acting = false ∧
      w.st = if bitOf (u8 b 0) 0 then .ok else .unused) ∧
    (h.opcode = 0x0306 → onlyReports (s.onIll fun i => { i with senseSettleNs := u16 b 0, walkS := u8 b 2 }) (applyHeld h s)))

/-- Each command named completes (exec answers a next state) whenever it passes the checks of R442. Accepted, LOOP_SET with
ALLOC gives the loop the descriptor of its payload, stopped with RUN 0, still running or entering RAMP with RUN 1; its
waiting triggers go with RUN 0; without ALLOC it frees the loop with its waiting triggers, under a new role epoch when it was
allocated, its sticky bits and counters kept (until the engine's domain switches off). LOOP_COEF_SET fills one coefficient
set, LOOP_REF_SET writes the targets that its mask names, LOOP_GROUP_SET sets a group's destination and default, LOOP_ARM
takes the loop to RAMP, LOOP_PWM_SET gives the output new settings, in force at once when it is held low. After LOOP_SET and
LOOP_ARM the groups are computed anew and blank source 4 follows. [05_control_loops.md R175, R177, R178, R189, R190, R200,
R201, LOOP_SET, LOOP_COEF_SET, LOOP_REF_SET, LOOP_GROUP_SET, LOOP_ARM, LOOP_PWM_SET] -/
def Obligations.LoopCommandsSetLoopsAndGroups : Prop :=
  (∀ c s, accepted specLoopSet c s = true → ∃ t, exec (.loopSet c) s = .next t ∧
    (let b := Cmd.payload c
    let n := c.tindex.toNat
    (bitOf (u8 b 0) 0 = true →
      onlyReports (followLoops (recomputeAll ((if bitOf (u8 b 0) 1 then s else s.onCle fun x => { x with
        queue := x.queue.filter fun y => y.2 != n }).onLoop n (setLoop (bitOf (u8 b 0) 1) (parseLoop b) s)))) t ∧
      (t.loop n).cfg = parseLoop b ∧
      (bitOf (u8 b 0) 1 = false → (t.loop n).st = .stop ∧ (t.loop n).entered = 0) ∧
      (bitOf (u8 b 0) 1 = true → (t.loop n).st =
        if (s.loop n).st = .ramp ∨ (s.loop n).st = .run then (s.loop n).st else .ramp)) ∧
    (bitOf (u8 b 0) 0 = false →
      onlyReports (if (s.loop n).st = .free then s else
        let w := (s.onCle fun x => { x with queue := x.queue.filter fun y => y.2 != n }).onLoop n fun l => {
          epoch := l.epoch + 1, sticky := l.sticky, sampleCnt := l.sampleCnt, skipCnt := l.skipCnt
          overrunCnt := l.overrunCnt, faultCnt := l.faultCnt, swapCnt := l.swapCnt }
        if engineOn w then followLoops (recomputeAll w) else engineOff w) t ∧
      (t.loop n).st = .free ∧ (t.loop n).epoch = if (s.loop n).st = .free then (s.loop n).epoch else (s.loop n).epoch + 1))) ∧
  (∀ c s, accepted specLoopCoefSet c s = true → ∃ t, exec (.loopCoefSet c) s = .next t ∧
    (let b := Cmd.payload c
    let x32 := (s.loop c.tindex.toNat).cfg.x32
    let k : CoefSet := {
      value := (List.range 168).map fun i => if x32 then i32 b (8 + 4 * i) else i16 b (8 + 4 * i)
      shift := (List.range 168).map fun i => u8 b (680 + i) }
    onlyReports (s.onLoop c.tindex.toNat fun l => { l with coefs := upd l.coefs (u8 b 0) fun _ => some k }) t)) ∧
  (∀ c s, accepted specLoopRefSet c s = true → ∃ t, exec (.loopRefSet c) s = .next t ∧
    (let b := Cmd.payload c
    let m := BitVec.ofNat 2 (u8 b 0)
    onlyReports (s.onLoop c.tindex.toNat fun l => { l with
      cfg := { l.cfg with target := Vector.ofFn fun j => if m.getLsbD j.val then i32 b (4 + 4 * j.val) else l.cfg.target[j] }
      rJump := if l.running then l.rJump ||| m else l.rJump }) t)) ∧
  (∀ c s, accepted specLoopGroupSet c s = true → ∃ t, exec (.loopGroupSet c) s = .next t ∧
    (let b := Cmd.payload c
    onlyReports (recompute c.tindex.toNat (s.onCle fun x => { x with groups := upd x.groups c.tindex.toNat fun g => { g with
      dest := BitVec.ofNat 2 (u8 b 0), index := BitVec.ofNat 4 (u8 b 1), dflt := BitVec.ofNat 16 (u16 b 2) } })) t)) ∧
  (∀ c s, accepted specLoopArm c s = true → ∃ t, exec (.loopArm c) s = .next t ∧
    (onlyReports (followLoops (recomputeAll (s.onLoop c.tindex.toNat (rampEntry s)))) t ∧ (t.loop c.tindex.toNat).st = .ramp ∧
    (t.loop c.tindex.toNat).x = (s.loop c.tindex.toNat).cfg.x0 ∧ (t.loop c.tindex.toNat).z = (s.loop c.tindex.toNat).cfg.z0)) ∧
  (∀ c s, accepted specLoopPwmSet c s = true → ∃ t, exec (.loopPwmSet c) s = .next t ∧
    (let b := Cmd.payload c
    let n := c.tindex.toNat
    let w := s.onCle fun x => { x with pwms := upd x.pwms n fun w => { w with
      next := some (u32 b 0, BitVec.ofNat 16 (u16 b 4), bitOf (u8 b 6) 0, bitOf (u8 b 6) 1) } }
    onlyReports (if (nth s.cle.pwms n).enable then w else pwmTake n (pwmApply n w)) t))

/-- Each command named completes (exec answers a next state) whenever it passes the checks of R442. Accepted, XCL_REGION_SET
and XCL_MASK_LOAD create the next version of their port's set, with the regions that the payload names replaced, or with the
mask's runs as read from the buffer through port 9, and queue it; a mask of more than 65,536 runs is not taken.
XCL_HOST_BLANK sets the latch, sticky and active bit of source 11 and, when the safe state was not in force, enters it:
counted, recorded with code 11, tick and frame, light outputs low. XCL_SAFE_RELEASE clears the latch and leaves SAFE to the
level sources. Nothing else changes but what reports change. Accepted, SYM_LIST_SET makes the payload the symbol list of its
view. SYM_GLYPH_LOAD copies the bytes of COUNT + 1 glyphs, read through port 9, from the named buffer to the glyph store, the
first bytes of the memory reserve (assumption 120), from glyph FIRST on (a fenced pseudo-channel takes no write), and marks
those glyphs as loaded and not lost; every other byte of memory reads as before. Nothing else changes but what reports
change. [06_exclusion_and_symbols.md R202, R213, R225, R226, R227, R231, XCL_REGION_SET, XCL_MASK_LOAD, XCL_HOST_BLANK,
XCL_SAFE_RELEASE; 06_exclusion_and_symbols.md R234, R236, R238, SYM_LIST_SET, SYM_GLYPH_LOAD] -/
def Obligations.ExclusionAndSymbolCommands : Prop :=
  (∀ c s, accepted specXclRegionSet c s = true → ∃ t, exec (.xclRegionSet c) s = .next t ∧
    (let b := Cmd.payload c
    let is := namedRegions (u64 b 0)
    onlyReports (s.onXset c.tindex.toNat fun x =>
      let v := { x.last with
        number := x.last.number + 1
        regions := (List.range is.length).foldl (fun rs i => upd rs (is.getD i 64) fun _ => parseRegion b (16 + 80 * i)) x.last.regions }
      { x with last := v, queue := x.queue ++ [(v, none)], updateCnt := sat x.updateCnt }) t)) ∧
  (∀ c s, accepted specXclMaskLoad c s = true → ∃ t, exec (.xclMaskLoad c) s = .next t ∧
    (∃ u, ∃ h : Held, onlyReports s u ∧ h.cmd = c ∧ h.opcode = 0x0501 ∧
    let p := c.tindex.toNat
    let f := maskRead c u
    let runs := planeRuns f.bytes (s.arr p).height
    (maxRuns < runs.length → onlyReports f.st t) ∧
    (runs.length ≤ maxRuns → onlyReports ((f.st.onCmp fun x => { x with named := BitVec.ofNat 32 (u32 (Cmd.payload c) 0) :: x.named }).onXset p fun x =>
      let v := { x.last with number := x.last.number + 1, runs := runs }
      { x with last := v, queue := x.queue ++ [(v, some h)], updateCnt := sat x.updateCnt }) t))) ∧
  (∀ c s, accepted specXclHostBlank c s = true → ∃ t, exec (.xclHostBlank c) s = .next t ∧
    (onlyReports (raiseSource 11 s) t ∧ t.xcl.safe = true ∧ t.xcl.latch = s.xcl.latch ||| 0x800 ∧ t.xcl.active = s.xcl.active ||| 0x800 ∧
    t.xcl.sticky = s.xcl.sticky ||| 0x800 ∧
    (s.xcl.safe = false → lightOff t = true ∧ t.xcl.safeCnt = sat s.xcl.safeCnt ∧ t.xcl.safeCode = 11 ∧
      t.xcl.safeTick = BitVec.ofNat 24 s.tick ∧ t.xcl.safeFrame = s.frame.truncate 32))) ∧
  (∀ c s, accepted specXclSafeRelease c s = true → ∃ t, exec (.xclSafeRelease c) s = .next t ∧
    (onlyReports (s.onXcl fun x => { x with
    latch := 0, active := x.active &&& ~~~0x808, safe := x.active.getLsbD 0 || x.active.getLsbD 7 }) t)) ∧
  (∀ c s, accepted specSymListSet c s = true → ∃ t, exec (.symListSet c) s = .next t ∧
    (onlyReports (s.onXcl fun x => { x with
    symList := upd x.symList c.tindex.toNat fun _ => some (Cmd.payload c) }) t)) ∧
  (∀ c s, accepted specSymGlyphLoad c s = true → ∃ t, exec (.symGlyphLoad c) s = .next t ∧
    (let b := Cmd.payload c
    let n := u8 b 1 + 1
    let a := u8 b 0 * glyphSize
    let m := BitVec.ofNat 256 ((2 ^ n - 1) * 2 ^ u8 b 0)
    ∃ u q, onlyReports s u ∧ findBuf (BitVec.ofNat 32 (u32 b 4)) s = some q ∧
      let f := bufFetch { port := 9 } q 0 (n * glyphSize) u
      onlyReports ((portWrite { port := 9, space := .reserve, addr := a } f.bytes f.st).onXcl fun x => { x with
        glyphLoaded := x.glyphLoaded ||| m, glyphLost := x.glyphLost &&& ~~~m }) t ∧
      (memWf s.mem.reserve = true → ∀ k,
        (k < n * glyphSize → s.mem.fenced = 0 → memGet t.mem.reserve (a + k) = f.bytes.getD k 0) ∧
        (k < a ∨ a + n * glyphSize ≤ k → memGet t.mem.reserve k = memGet s.mem.reserve k)) ∧
      t.mem.plane = s.mem.plane ∧ t.mem.general = s.mem.general))

/-- Each command named completes (exec answers a next state) whenever it passes the checks of R442. Accepted, LINK_LANE_SET
writes the drive and equalisation settings of the lanes that its mask names and the back channel's; LINK_DIAG sets the
octet's diagnostic mode and rate; LINK_OCTET_RESET takes the octet to ELECTRICAL_IDLE, its port down, and waits for READY.
LINK_ALLOT is the pending allotment, and at its boundary each port's allotment becomes that of the payload. [08_array_link.md
R23, R24, R276, R277, R289, R297, LINK_ALLOT, LINK_LANE_SET, LINK_OCTET_RESET, LINK_DIAG] -/
def Obligations.LinkCommandsSetOctets : Prop :=
  (∀ c s, accepted specLinkAllot c s = true → ∃ t, exec (.linkAllot c) s = .next t ∧
    (∃ h : Held, h.cmd = c ∧ h.opcode = 0x0600 ∧
    onlyReports (s.onGlk fun g => { g with pending := some h }) t)) ∧
  (∀ c s, accepted specLinkLaneSet c s = true → ∃ t, exec (.linkLaneSet c) s = .next t ∧
    (let b := Cmd.payload c
    onlyReports (s.onOctet c.tindex.toNat fun o => { o with
      bcCtle := BitVec.ofNat 5 (u8 b 4)
      lanes := Vector.ofFn fun i =>
        let l := nth o.lanes i.val
        if bitOf (u8 b 0) i.val then
          { l with swing := BitVec.ofNat 5 (u8 b 1), pre := BitVec.ofNat 5 (u8 b 2), post := BitVec.ofNat 5 (u8 b 3) }
        else l }) t)) ∧
  (∀ c s, accepted specLinkOctetReset c s = true → ∃ t, exec (.linkOctetReset c) s = .next t ∧
    (∃ h : Held, h.cmd = c ∧ h.opcode = 0x0602 ∧
    madeBy (fun u => (resetOctet c.tindex.toNat u).onOctet c.tindex.toNat fun o => { o with cmds := o.cmds ++ [{ h with sole := true }] }) s t)) ∧
  (∀ c s, accepted specLinkDiag c s = true → ∃ t, exec (.linkDiag c) s = .next t ∧
    (let b := Cmd.payload c
    onlyReports (pruneDoms (s.onOctet c.tindex.toNat fun o => { o with
      diag := BitVec.ofNat 2 (u8 b 0), rate := if u8 b 0 = 0 then 0 else BitVec.ofNat 2 (u8 b 1) })) t)) ∧
  (∀ h s, h.opcode = 0x0600 → h.due = none → madeBy (applyAllotment h) s (applyHeld h s) ∧
    ∀ p, p < 4 → ((applyHeld h s).link p).allot = parseAllot (Cmd.payload h.cmd) p)

/-- Each command named completes (exec answers a next state) whenever it passes the checks of R442. Accepted, AHM_SCAN with
START is the scan that its array awaits; ABORT and AHM_PARK change nothing before their boundary. At it AHM_POLICY_SET sets
the array's policy and limit, and schedules a retrain when the run has reached the limit and no restripe is pending; AHM_SCAN
starts or stops the scan; AHM_PARK sends a park request and awaits the array's answer. AHM_DEFECT_READ writes to the named
buffer, through port 9, the count of defects and their entries in ascending ROW and COL. [09_array_health.md R308, R313,
R314, R320, R321, R322, AHM_POLICY_SET, AHM_SCAN, AHM_DEFECT_READ, AHM_PARK] -/
def Obligations.ArrayHealthCommandsScanParkAndRead : Prop :=
  (∀ c s, accepted specAhmPolicySet c s = true → ∃ t, exec (.ahmPolicySet c) s = .next t ∧
    (onlyReports s t)) ∧
  (∀ c s, accepted specAhmScan c s = true → ∃ t, exec (.ahmScanStart c) s = .next t ∧
    (∃ h : Held, h.cmd = c ∧ h.opcode = 0x0611 ∧
    onlyReports (if bitOf (u8 (Cmd.payload c) 0) 0 then s.onArr c.tindex.toNat fun a => { a with scanPending := some h } else s) t)) ∧
  (∀ c s, accepted specAhmScan c s = true → ∃ t, exec (.ahmScanAbort c) s = .next t ∧
    (∃ h : Held, h.cmd = c ∧ h.opcode = 0x0611 ∧
    onlyReports (if bitOf (u8 (Cmd.payload c) 0) 0 then s.onArr c.tindex.toNat fun a => { a with scanPending := some h } else s) t)) ∧
  (∀ c s, accepted specAhmDefectRead c s = true → ∃ t, exec (.ahmDefectRead c) s = .next t ∧
    (let m := (s.arr c.tindex.toNat).map
    ∃ q, findBuf (BitVec.ofNat 32 (u32 (Cmd.payload c) 0)) s = some q ∧
      madeBy (bufStore { port := 9 } q 0 (leBytes 4 m.length ++ (sortDefects m).flatMap fun e => leBytes 4 e.word)) s t)) ∧
  (∀ c s, accepted specAhmPark c s = true → ∃ t, exec (.ahmPark c) s = .next t ∧
    (onlyReports s t)) ∧
  (∀ c s, accepted specAhmPark c s = true → ∃ t, exec (.ahmParkRelease c) s = .next t ∧
    (onlyReports s t)) ∧
  (∀ h s, h.due = none →
    let b := Cmd.payload h.cmd
    let p := h.cmd.tindex.toNat
    (h.opcode = 0x0610 → onlyReports (s.onArr p fun a => { a with
      autoRestore := bitOf (u8 b 0) 0, refuseLimit := BitVec.ofNat 8 (u8 b 1)
      retrainDue := a.retrainDue || (decide (u8 b 1 ≤ a.run.toNat) && !(restripePending p s)) }) (applyHeld h s)) ∧
    (h.opcode = 0x0611 → madeBy (if bitOf (u8 b 0) 0 then startScan h else stopScan h) s (applyHeld h s)) ∧
    (h.opcode = 0x0613 → onlyReports (sendCtrl p 0x22 (if bitOf (u8 b 0) 0 then 1 else 0)
      (s.onArr p fun a => { a with parkWait := a.parkWait ++ [{ h with sole := true }] })) (applyHeld h s)))

/-- Each command named completes (exec answers a next state) whenever it passes the checks of R442. Accepted, CMP_VIEW_SET,
CMP_LUT_SET and CMP_WRITEBACK_SET write the shadow of their view, CMP_LAYER_SET and CMP_LUT_SET that of their pipe, from the
payload. CMP_PIPE_BIND binds the pipe under a new role epoch (when the view changes), or waits while frames read the pipe; an
unbound pipe's domain goes off. CMP_COMMIT joins the commits with the shadows of this instant and the pipes that its views
have now, and is due when it reaches its boundary. Nothing else changes but what reports change. [10_composition.md R330,
R332, R333, R339, R340, R346, R348, CMP_VIEW_SET, CMP_PIPE_BIND, CMP_LAYER_SET, CMP_LUT_SET, CMP_WRITEBACK_SET, CMP_COMMIT]
-/
def Obligations.CompositionCommandsFillShadows : Prop :=
  (∀ c s, accepted specCmpViewSet c s = true → ∃ t, exec (.cmpViewSet c) s = .next t ∧
    (let b := Cmd.payload c
    onlyReports (s.onCview c.tindex.toNat fun v => { v with shadow := { v.shadow with
      width := u16 b 0, height := u16 b 2, leadTk := u32 b 4
      bg := Vector.ofFn fun i => BitVec.ofNat 16 (u16 b (8 + 2 * i.val))
      lutOn := bitOf (u8 b 14) 0, range := BitVec.ofNat 2 (field (u8 b 14) 1 2) } }) t)) ∧
  (∀ c s, accepted specCmpPipeBind c s = true → ∃ t, exec (.cmpPipeBind c) s = .next t ∧
    (let i := c.tindex.toNat
    let n := u8 (Cmd.payload c) 0
    let v : Option (BitVec 3) := if n = 0xFF then none else some (BitVec.ofNat 3 n)
    (pipeRead i s = true → (s.pipe i).view ≠ v → ∃ h : Held, h.cmd = c ∧ onlyReports (s.onPipe i fun p => { p with bindWait := some h }) t) ∧
    (pipeRead i s = false ∨ (s.pipe i).view = v →
      let w := s.onPipe i fun p =>
        if v = p.view then { p with bindWait := none }
        else if v = none then { epoch := p.epoch + 1 }
        else { p with view := v, epoch := p.epoch + 1, bindWait := none }
      onlyReports (if v = none then pruneDoms w else w) t))) ∧
  (∀ c s, accepted specCmpLayerSet c s = true → ∃ t, exec (.cmpLayerSet c) s = .next t ∧
    (onlyReports (s.onPipe c.tindex.toNat fun p => { p with shadow := parseLayer (Cmd.payload c) }) t)) ∧
  (∀ c s, accepted specCmpLutSet c s = true → ∃ t, exec (.cmpLutSet c) s = .next t ∧
    (let l := (List.range (lutCurves c * lutEntries c)).map fun i => BitVec.ofNat 19 (u32 (Cmd.payload c) (8 + 4 * i))
    onlyReports (if c.tclass = clsLayer then s.onPipe c.tindex.toNat fun p => { p with shadowLut := some l }
      else s.onCview c.tindex.toNat fun v => { v with shadow := { v.shadow with lut := some l } }) t)) ∧
  (∀ c s, accepted specCmpWritebackSet c s = true → ∃ t, exec (.cmpWritebackSet c) s = .next t ∧
    (let b := Cmd.payload c
    onlyReports (s.onCview c.tindex.toNat fun v => { v with shadow := { v.shadow with
      wbMode := BitVec.ofNat 2 (u8 b 0), wbBuffer := BitVec.ofNat 32 (u32 b 4), wbStride := u32 b 8 } }) t)) ∧
  (∀ c s, accepted specCmpCommit c s = true → ∃ t, exec (.cmpCommit c) s = .next t ∧
    (∃ h : Held, h.cmd = c ∧ h.opcode = 0x0705 ∧
    onlyReports (s.onCmp fun x => { x with commits := x.commits ++ [{
      held := h, mask := BitVec.ofNat 5 (u8 (Cmd.payload c) 0), maxDefer := u8 (Cmd.payload c) 1
      views := Vector.ofFn fun v => x.views[v].shadow
      pipes := (bitsOf 5 (u8 (Cmd.payload c) 0)).flatMap fun v => pipesOf v s
      layers := Vector.ofFn fun i => x.pipes[i].shadow
      luts := Vector.ofFn fun i => x.pipes[i].shadowLut }] }) t)) ∧
  (∀ h s, h.opcode = 0x0705 → h.due = none → applyHeld h s = s.onCmp fun x => { x with
    commits := x.commits.map fun y => if y.held.jseq = h.jseq then { y with due := true } else y })

/-- Each command named completes (exec answers a next state) whenever it passes the checks of R442. Accepted, FAB_IMAGE_LOAD
fills its slot with the image in the named buffer, as read through port 9, its header's fields and its code, data and shared
parts, and leaves it when header or digest are wrong; FAB_CHAIN_SET makes the payload's chain the next of its view, takes
surfaces for it and gives each cluster that changes place its new place, LOAD and a new role epoch. FAB_CHAIN_GO lets the
switch go at its boundary. FAB_PARAM_SET acts at its boundary: on a chain in force it gives the stage its parameters while
the cluster's epoch stands (R375). FAB_CLUSTER_RESET abandons the frame (or the symbol surface) that uses the cluster,
switches its domain off, which empties its memories, and loads it again; its reply waits for that. [11_pixel_fabric.md R364,
R367, R370, R371, R373, R374, R375, R385, FAB_IMAGE_LOAD, FAB_CHAIN_SET, FAB_CHAIN_GO, FAB_PARAM_SET, FAB_CLUSTER_RESET] -/
def Obligations.FabricCommandsSetImagesChainsAndParameters : Prop :=
  (∀ c s, accepted specFabImageLoad c s = true → ∃ t, exec (.fabImageLoad c) s = .next t ∧
    (∃ u q, onlyReports s u ∧ cmdBuf c s = some q ∧
    let r := bufImage q u
    (r.1 = none → onlyReports r.2 t) ∧ ∀ b, r.1 = some b → onlyReports (r.2.onFab fun f => { f with images := upd f.images c.tindex.toNat fun _ => {
      valid := true, role := BitVec.ofNat 3 (u8 b 6), io := BitVec.ofNat 8 (u8 b 7), cost := BitVec.ofNat 16 (u16 b 8)
      paramSize := u16 b 10, rev := BitVec.ofNat 32 (u32 b 24), size := BitVec.ofNat 32 b.length
      code := slice b 64 (u32 b 12), data := slice b (64 + u32 b 12) (u32 b 16)
      shared := slice b (64 + u32 b 12 + u32 b 16) (u32 b 20) } }) t)) ∧
  (∀ c s, accepted specFabChainSet c s = true → ∃ t, exec (.fabChainSet c) s = .next t ∧
    (∃ h : Held, h.cmd = c ∧ h.opcode = 0x0801 ∧
    let v := c.tindex.toNat
    let ch := parseChain (Cmd.payload c)
    let old := (s.fview v).chain
    let w := match takeSurfaces v [ch] s with
      | some x => s.onFview v fun f => { f with canvas := x.1, symbSurf := x.2, surfSize := surfaceSize v s }
      | none => s
    onlyReports ((forN 64 (fun n s => s.onCluster n (nameCluster v (imageOf ((placeOf ch n).getD (0, 0)).2 w).role
      (placeOf ch n) (placeOf old n))) w).onFview v fun f => { f with
        next := some ch, nextStart := bitOf (u8 (Cmd.payload c) 0) 0, nextGo := false, goCmd := none, nextCmd := some h
        nextParams := Vector.replicate 8 none }) t)) ∧
  (∀ c s, accepted specFabChainGo c s = true → ∃ t, exec (.fabChainGo c) s = .next t ∧
    (∃ h : Held, h.cmd = c ∧ h.opcode = 0x0802 ∧
    onlyReports (s.onFview c.tindex.toNat fun f => { f with goCmd := some h }) t)) ∧
  (∀ c s, accepted specFabParamSet c s = true → ∃ t, exec (.fabParamSet c) s = .next t ∧
    (onlyReports s t)) ∧
  (∀ c s, accepted specFabClusterReset c s = true → ∃ t, exec (.fabClusterReset c) s = .next t ∧
    (∃ h : Held, h.cmd = c ∧
    madeBy (fun u =>
      let n := c.tindex.toNat
      let v := (u.cluster n).view.toNat
      let w := if clusterBusy n u then (if (u.cluster n).symb then u.onFview v fun f => { f with symbRun := none } else dropFrame v u) else u
      (w.onPwr fun p => { p with doms := p.doms &&& ~~~(bit1 144 n) }).onCluster n fun x => { x with
        st := .load, engines := Vector.replicate 8 {}, shared := [], loaded := false, cmds := x.cmds ++ [h] }) s t ∧ (t.cluster c.tindex.toNat).st = .load)) ∧
  (∀ h s, h.opcode = 0x0802 → h.due = none → onlyReports (s.onFview h.cmd.tindex.toNat fun f => { f with
    goCmd := none, nextGo := true }) (applyHeld h s)) ∧
  (∀ h s, h.opcode = 0x0803 → h.due = none → (s.cluster h.cmd.tindex.toNat).symb = false →
    epochStands h.cmd.tindex.toNat h true s = true →
    (s.cluster h.cmd.tindex.toNat).st ≠ .off →
    inForce h.cmd.tindex.toNat s = true →
    let x := s.cluster h.cmd.tindex.toNat
    x.view.toNat < 5 → nth ((applyHeld h s).fview x.view.toNat).params x.stage.toNat = some {
      bytes := slice (Cmd.payload h.cmd) 8 (u16 (Cmd.payload h.cmd) 0), buffer := BitVec.ofNat 32 (u32 (Cmd.payload h.cmd) 4) })

/-- Each command named completes (exec answers a next state) whenever it passes the checks of R442. Accepted, BUF_ALLOC adds
the buffer that the payload asks for, owned by the sender, at the lowest place that is free. BUF_FREE drops the named buffer
and moves its index on to the next generation or, while something refers to it, leaves it free-pending without its window.
BUF_SIGNAL sets or increments the buffer's fence and ends its LOST state, or waits for the sender's earlier transfers into
it. BUF_INGEST is the newest transfer and refers to its buffer. [10_composition.md R350, R351, R352, R355, R357; 12_memory.md
R424; 13_hosts_and_commands.md R436, BUF_ALLOC, BUF_FREE, BUF_SIGNAL, BUF_INGEST] -/
def Obligations.BufferCommandsAllocateFreeSignalAndIngest : Prop :=
  (∀ c s, accepted specBufAlloc c s = true → ∃ t, exec (.bufAlloc c) s = .next t ∧
    (∃ b, allocBuf c s = some b ∧ b.owner = c.host ∧ b.size = u64 (Cmd.payload c) 0 ∧
    onlyReports (s.onCmp fun x => { x with bufs := b :: x.bufs }) t)) ∧
  (∀ c s, accepted specBufFree c s = true → ∃ t, exec (.bufFree c) s = .next t ∧
    (∃ b u, cmdBuf c s = some b ∧ onlyReports s u ∧
    (referenced b.handle u = false → onlyReports (dropBuf b u) t ∧ findBuf b.handle t = none) ∧
    (referenced b.handle u = true → ∃ h : Held, h.cmd = c ∧ h.opcode = 0x0901 ∧
      onlyReports (s.onBuf b.handle fun b => { b with freePending := some h, bar2 := none }) t))) ∧
  (∀ c s, accepted specBufSignal c s = true → ∃ t, exec (.bufSignal c) s = .next t ∧
    (let b := Cmd.payload c
    let d := BitVec.ofNat 32 (u32 b 0)
    onlyReports (if ingesting c.host (some d) (s.hif.jseq + 1) s then s.onCmp fun x => { x with named := d :: x.named }
      else s.onBuf d fun x => { x with fence := if bitOf (u8 b 4) 0 then BitVec.ofNat 32 (u32 b 8) else x.fence + 1, lost := false }) t)) ∧
  (∀ c s, accepted specBufIngest c s = true → ∃ t, exec (.bufIngest c) s = .next t ∧
    (∃ h : Held, h.cmd = c ∧ h.opcode = 0x0909 ∧
    onlyReports ((s.onHif fun x => { x with ingests := x.ingests ++ [h] }).onCmp fun x => { x with
      named := BitVec.ofNat 32 (u32 (Cmd.payload c) 0) :: x.named }) t))

/-- Each command named completes (exec answers a next state) whenever it passes the checks of R442. Accepted, MEM_LAYOUT_SET
sets plane rows, order, grain and spare and lays the ranks anew; MEM_POLICY_SET sets ages, idle times, refresh, scrub and
migration rates and the ports' classes; MEM_RESERVE_SET sets the reservations at its boundary, and calls for validation when
the display's shrinks; MEM_FENCE only waits; MEM_RANK_RETIRE starts the migration of the rank named to the spare; MEM_RETRAIN
starts the retraining of each pseudo-channel of its mask that is not fenced and not in retraining. [12_memory.md R394, R396,
R399, R402, R405, R406, R415, R416, R421, MEM_LAYOUT_SET, MEM_RESERVE_SET, MEM_POLICY_SET, MEM_FENCE, MEM_RANK_RETIRE,
MEM_RETRAIN] -/
def Obligations.MemoryCommandsSetLayoutPolicyAndRanks : Prop :=
  (∀ c s, accepted specMemLayoutSet c s = true → ∃ t, exec (.memLayoutSet c) s = .next t ∧
    (let b := Cmd.payload c
    onlyReports (s.onMem fun m => layRanks { m with
      planeRows := u16 b 0, order := BitVec.ofNat 2 (u8 b 2), grain := u8 b 3, spare := bitOf (u8 b 4) 0 }) t)) ∧
  (∀ c s, accepted specMemReserveSet c s = true → ∃ t, exec (.memReserveSet c) s = .next t ∧
    (onlyReports s t)) ∧
  (∀ c s, accepted specMemPolicySet c s = true → ∃ t, exec (.memPolicySet c) s = .next t ∧
    (let b := Cmd.payload c
    onlyReports (s.onMem fun m => { m with
      ageUs := Vector.ofFn fun i => u16 b (2 * i.val)
      pageIdleNs := u16 b 6, idleNs := u32 b 8, nrrP := u8 b 12, scrubH := u8 b 13, migRate := u16 b 14
      ports := [0, 1, 2, 3, 4, 9].zipIdx.foldl (fun ps x => upd ps x.1 fun p => { p with
        cls := BitVec.ofNat 2 (u8 b (16 + x.2)) }) m.ports }) t)) ∧
  (∀ c s, accepted specMemFence c s = true → ∃ t, exec (.memFence c) s = .next t ∧
    (onlyReports s t)) ∧
  (∀ c s, accepted specMemRankRetire c s = true → ∃ t, exec (.memRankRetire c) s = .next t ∧
    (∃ h : Held, h.cmd = c ∧ h.opcode = 0x0907 ∧
    let src := nth s.mem.rankMap (u8 (Cmd.payload c) 0)
    onlyReports (memRaise 0x8 ((s.onMgt fun g => { g with fault := { g.fault with rank := upd g.fault.rank src.toNat fun _ => 1 } }).onMem
      fun m => restSpare { m with migRun := true, migRow := 0, migNs := s.ns, migSrc := src, migDst := m.spareRank, migCmd := some h })) t)) ∧
  (∀ c s, accepted specMemRetrain c s = true → ∃ t, exec (.memRetrain c) s = .next t ∧
    (let is := bitsOf 32 (u32 (Cmd.payload c) 0)
    (is = [] → onlyReports s t) ∧
    (is ≠ [] → ∃ h : Held, h.cmd = c ∧ h.opcode = 0x0908 ∧ onlyReports (is.foldl (fun s i =>
      if s.mem.fenced.getLsbD i || (nth s.mem.pcs i).retrain then s
      else s.onMem fun m => { m with pcs := upd m.pcs i fun x => { x with retrain := true, gaps := 0 } })
      (s.onMem fun m => { m with retrainCmd := some h, retrainFenced := false })) t))) ∧
  (∀ h s, h.opcode = 0x0904 → h.due = none →
    let r := parseRes (Cmd.payload h.cmd)
    onlyReports { s with mem := { s.mem with res := r }, seq := { s.seq with reval := s.seq.reval || decide (nth r 0 < nth s.mem.res 0) } }
      (applyHeld h s))

/-- Each command named completes (exec answers a next state) whenever it passes the checks of R442. Accepted, UPDATE_BEGIN
leaves the slot that does not run INCOMPLETE, in the slot table's next copy too, and opens an update of the payload's length;
UPDATE_DATA and UPDATE_COMMIT hand their work to the flash. MGT_FUSE asks for the fuses, or is done when nothing is left to
blow (a VALID slot below the fuses then turns INVALID). MGT_BOOTCFG_SET writes the boot record's owner and allotment;
MGT_READ sends the bytes it names to the host, unless that write fails (HOST_ERROR, assumption 111); MGT_FAULT_CLEAR clears
the fault records named; MGT_REINIT takes the subsystem to REINIT unless it is in HALT, ends an update and leaves every
defined power item stale. [14_management_and_security.md R460, R463, R465, R466, R468, R472, UPDATE_BEGIN, UPDATE_DATA,
UPDATE_COMMIT, MGT_FUSE, MGT_BOOTCFG_SET, MGT_READ; 17_faults_and_recovery.md MGT_FAULT_CLEAR, MGT_REINIT] -/
def Obligations.ManagementCommandsUpdateReadAndReinitialise : Prop :=
  (∀ c s, accepted specUpdateBegin c s = true → ∃ t, exec (.updateBegin c) s = .next t ∧
    (∃ h : Held, h.cmd = c ∧ h.opcode = 0x0A01 ∧
    onlyReports (s.onMgt fun m => saveTable { m with
      slots := upd m.slots (updateSlot m) fun _ => { st := .incomplete }
      update := some (updateSlot m, u32 (Cmd.payload c) 0, []), updateCmd := some h }) t)) ∧
  (∀ c s, accepted specUpdateData c s = true → ∃ t, exec (.updateData c) s = .next t ∧
    (∃ h : Held, h.cmd = c ∧ h.opcode = 0x0A02 ∧
    onlyReports (s.onMgt fun m => { m with updateCmd := some h }) t)) ∧
  (∀ c s, accepted specUpdateCommit c s = true → ∃ t, exec (.updateCommit c) s = .next t ∧
    (∃ h : Held, h.cmd = c ∧ h.opcode = 0x0A03 ∧
    onlyReports (s.onMgt fun m => { m with updateCmd := some h }) t)) ∧
  (∀ row ∈ [Instr.mgtFuseAdvance, Instr.mgtFuseRevoke], (∀ c s, accepted specMgtFuse c s = true → ∃ t, exec (row c) s = .next t ∧
    (let goal := imgSvn (runImage s.mgt)
    let o := fuseOp c
    if o = 1 ∧ goal ≤ s.mgt.fuses then onlyReports (s.onMgt fun m =>
      if m.slots.toList.any fun x => x.st == .valid && decide (x.svn < m.fuses) then saveTable { m with
        slots := m.slots.map fun x => if x.st = .valid ∧ x.svn < m.fuses then { x with st := .invalid } else x }
      else m) t
    else if o = 2 ∧ s.mgt.revoked.getLsbD (fuseIdx c) = true then onlyReports s t
    else ∃ h : Held, h.cmd = c ∧ h.opcode = 0x0A04 ∧ onlyReports (s.onMgt fun m => { m with fuseGoal := some (goal, h) }) t))) ∧
  (∀ c s, accepted specMgtBootcfgSet c s = true → ∃ t, exec (.mgtBootcfgSet c) s = .next t ∧
    (let b := Cmd.payload c
    onlyReports (s.onMgt fun m => { m with
      bootOwner := some (BitVec.ofNat 2 (u8 b 0)), bootAllot := if bitOf (u8 b 1) 0 then some (slice b 4 32) else none }) t)) ∧
  (∀ c s, accepted specMgtRead c s = true → ∃ t, exec (.mgtRead c) s = .next t ∧
    (∃ u, onlyReports s u ∧ onlyReports s t ∧
    (Config.hostWriteFails (s.hif.jseq + 1).toNat = false →
      .bytes c.host (u64 (Cmd.payload c) 24) (mgtReadBytes c u) ∈ t.hif.outbox))) ∧
  (∀ c s, accepted specMgtFaultClear c s = true → ∃ t, exec (.mgtFaultClear c) s = .next t ∧
    (let k := u32 (Cmd.payload c) 0
    onlyReports (s.onMgt fun m =>
      let ranks := Vector.ofFn fun i => if bitOf k i.val then 0 else nth m.fault.rank i.val
      { m with fault := if bitOf k 4 then { rank := ranks } else { m.fault with rank := ranks } }) t)) ∧
  (∀ c s, accepted specMgtReinit c s = true → ∃ t, exec (.mgtReinit c) s = .next t ∧
    (∃ h : Held, h.cmd = c ∧ h.opcode = 0x0A08 ∧
    onlyReports { s with
      mgt := { s.mgt with
        reinitCmd := some h, update := none
        st := if s.mgt.st = .halt then .halt else .reinit }
      pwr := { s.pwr with items := s.pwr.items.map fun i => { i with stale := i.stale || i.defined } } } t))

/-- Each command named completes (exec answers a next state) whenever it passes the checks of R442. Accepted: SEC_CHALLENGE
draws the host's nonce from the DRBG, which steps (its bytes are open, assumption 3); SEC_LOGIN with ROLE 0 ends the role,
and with another gives it when the login is right, else counts the failure and locks the host out for 60 s at the third in a
row, using up the nonce either way; users, policy, the next mark and the key slot take the payload; SEC_KEY_ZERO empties the
slot; the four services join those in progress; SEC_ZEROISE leaves the enclave ZEROISED, or in SELFTEST with the payload's
RESUME bit. [14_management_and_security.md R477, R479, R480, R481, R482, R485, R487, SEC_CHALLENGE, SEC_LOGIN, SEC_USER_SET,
SEC_POLICY_SET, SEC_KEY_LOAD, SEC_KEY_ZERO] -/
def Obligations.EnclaveCommandsLogInAndKeepKeys : Prop :=
  (∀ c s, accepted specSecChallenge c s = true → ∃ t, exec (.secChallenge c) s = .next t ∧
    (onlyReports ((drbgNext s).2.onSec fun x => { x with
    nonce := upd x.nonce c.host.toNat fun _ => some (Config.drbg s.sec.drbgState).toList
    nonceNs := upd x.nonceNs c.host.toNat fun _ => s.ns }) t)) ∧
  (∀ c s, accepted specSecLogin c s = true → ∃ t, exec (.secLogin c) s = .next t ∧
    (let b := Cmd.payload c
    let i := c.host.toNat
    let put (r x : Nat) (s : State) : State := s.onSec fun y => { y with
      role := upd y.role i fun _ => BitVec.ofNat 2 r, index := upd y.index i fun _ => BitVec.ofNat 4 x }
    let used := s.onSec fun x => { x with nonce := upd x.nonce i fun _ => none }
    (u8 b 0 = 0 → onlyReports (put 0 0 s) t) ∧
    (u8 b 0 ≠ 0 → loginOk c ((nonceOf i s).getD []) s = true →
      onlyReports ((put (u8 b 0) (u8 b 1) used).onSec fun x => { x with failRun := upd x.failRun i fun _ => 0 }) t) ∧
    (u8 b 0 ≠ 0 → loginOk c ((nonceOf i s).getD []) s = false →
      let third := nth s.sec.failRun i = 2
      onlyReports (secRaise 0x8 (used.onSec fun x => { x with
        authFailCnt := sat x.authFailCnt, failRun := upd x.failRun i fun n => if third then 0 else n + 1
        lockout := upd x.lockout i fun l => if third then s.ns + 60000000000 else l })) t))) ∧
  (∀ c s, accepted specSecUserSet c s = true → ∃ t, exec (.secUserSet c) s = .next t ∧
    (let b := Cmd.payload c
    let d := if bitOf (u8 b 1) 0 then some (slice b 4 32) else none
    onlyReports (s.onSec fun x => { x with users := upd x.users (u8 b 0) fun _ => d }) t)) ∧
  (∀ c s, accepted specSecPolicySet c s = true → ∃ t, exec (.secPolicySet c) s = .next t ∧
    (let b := Cmd.payload c
    onlyReports (s.onSec fun x => { x with markRequired := bitOf (u8 b 0) 0, loopMask := BitVec.ofNat 4 (u8 b 1) }) t)) ∧
  (∀ c s, accepted specSecMarkSet c s = true → ∃ t, exec (.secMarkSet c) s = .next t ∧
    (let b := Cmd.payload c
    onlyReports (s.onSec fun x => { x with markNext := some (BitVec.ofNat 32 (u32 b 0), BitVec.ofNat 16 (u16 b 4)) }) t)) ∧
  (∀ c s, accepted specSecKeyLoad c s = true → ∃ t, exec (.secKeyLoad c) s = .next t ∧
    (∃ p, unwrapKey c s = some p ∧ onlyReports (s.onSec fun x => { x with
    kem := upd x.kem (u8 (Cmd.payload c) 0) fun _ => none
    keys := upd x.keys c.tindex.toNat fun k =>
      { loaded := true, key := slice p 0 32, owner := c.host, ivPrefix := slice p 32 4, counter := u64 p 36, epoch := k.epoch + 1 } }) t)) ∧
  (∀ c s, accepted specSecKeyZero c s = true → ∃ t, exec (.secKeyZero c) s = .next t ∧
    (onlyReports (s.onSec fun x => { x with
    keys := upd x.keys c.tindex.toNat fun k => { epoch := if k.loaded then k.epoch + 1 else k.epoch } }) t)) ∧
  (∀ x ∈ [(specSecKemGen, Instr.secKemGen), (specSecQuote, Instr.secQuote), (specSecSelftest, Instr.secSelftest),
      (specSecProvision, Instr.secProvision)],
    (∀ c s, accepted x.1 c s = true → ∃ t, exec (x.2 c) s = .next t ∧
    (∃ h : Held, h.cmd = c ∧ h.opcode = x.1.op ∧
      onlyReports (s.onSec fun y => { y with services := y.services ++ [h] }) t))) ∧
  (∀ c s, accepted specSecZeroise c s = true → ∃ t, exec (.secZeroise c) s = .next t ∧
    (madeBy (fun u => if bitOf (u8 (Cmd.payload c) 0) 0 then resume (zeroise u) else zeroise u) s t ∧
    t.sec.st = (if bitOf (u8 (Cmd.payload c) 0) 0 then .selftest else .zeroised) ∧ t.sec.keys = s.sec.keys.map clearSlot ∧
    t.sec.kem = Vector.replicate 4 none ∧ t.sec.role = Vector.replicate 4 0 ∧ t.sec.users = Vector.replicate 16 none ∧
    t.sec.zeroCnt = sat s.sec.zeroCnt))

/-- Each command named completes (exec answers a next state) whenever it passes the checks of R442. Accepted, PWR_ITEM_SET
defines the item of its payload, or deletes it; THM_SET sets the light percentage and the supply margin. PWR_STANDBY with
ENTER, outside standby, ends services and keys, loops, octets and frames and lowers the core set-point to 0.700 V; without,
in standby, it restores the set-point and takes the enclave, unless in ERROR, to SELFTEST and memory out of self-refresh; it
awaits its completion. [16_power_thermal_reset.md R503, R510, R521, R526, R527, PWR_ITEM_SET, THM_SET, PWR_STANDBY] -/
def Obligations.PowerCommandsSetItemsLimitsAndStandby : Prop :=
  (∀ c s, accepted specPwrItemSet c s = true → ∃ t, exec (.pwrItemSet c) s = .next t ∧
    (let b := Cmd.payload c
    let x : PwrItem := if bitOf (u8 b 1) 7 then {} else {
      defined := true, addr := BitVec.ofNat 7 (u8 b 1), page := BitVec.ofNat 8 (u8 b 2), code := BitVec.ofNat 8 (u8 b 3)
      format := BitVec.ofNat 2 (u8 b 4), unit := BitVec.ofNat 2 (u8 b 5), pollUs := u32 b 8 }
    onlyReports (s.onPwr fun p => { p with items := upd p.items (u8 b 0) fun _ => x }) t)) ∧
  (∀ c s, accepted specThmSet c s = true → ∃ t, exec (.thmSet c) s = .next t ∧
    (let b := Cmd.payload c
    onlyReports ((s.onThm fun t => { t with lightPct := u8 b 0 }).onPwr fun p => { p with margin := u16 b 2 }) t)) ∧
  (∀ row ∈ [Instr.pwrStandbyEnter, Instr.pwrStandbyExit], (∀ c s, accepted specPwrStandby c s = true → ∃ t, exec (row c) s = .next t ∧
    (let on := bitOf (u8 (Cmd.payload c) 0) 0
    ∃ h : Held, h.cmd = c ∧ h.opcode = 0x0C02 ∧
      madeBy (fun u => (if on then (if u.pwr.standby then u else standbyEnter u) else standbyExit u).onPwr fun p => { p with
        standbyCmd := some h }) s t ∧
      t.pwr.standby = on ∧
      t.pwr.vcoreSet = (if on = s.pwr.standby then s.pwr.vcoreSet else if on then 700 else s.pwr.vcoreSaved) ∧
      (on = false → s.pwr.standby = true → t.sec.st = if s.sec.st = .error then .error else .selftest))))

/-- In a live device whose core supply is on, a register write of a PCIe function or of I3C to a single sticky register
clears exactly the bits written with 1 that the hardware has not set in the same clock cycle (assumption 113), and one to the
sticky register of a port, chain, loop, set, octet, quad, array or view does so for it alone (not while the loop engine's or
exclusion engine's domain is off). A function's write to a calibration window has that window's effect, which an I3C write
has not. A write to any other register changes nothing, and one to an offset that names no register is counted and sets
HIF_STICKY.UNMAPPED. [01_device_map.md R9, R36, R37, R39, R40; 13_hosts_and_commands.md R430, R455; 15_calibration.md R503]
-/
def Obligations.RegisterWritesClearStickyBits : Prop :=
  (∀ h v s, s.live = true → domainOn 143 s = true →
    (∀ off, ∀ i ∈ [Instr.registerWrite h off v, .i3cBar0Write off v],
      (off = 0x00004 → exec i s = .next (s.onHif fun x => { x with sticky := x.sticky &&& ~~~((clearable off.toNat v s).setWidth _) })) ∧
      (off = 0x10004 → exec i s = .next (s.onMgt fun x => { x with sticky := x.sticky &&& ~~~((clearable off.toNat v s).setWidth _) })) ∧
      (off = 0x10024 → exec i s = .next (s.onMgt fun x => { x with clkSticky := x.clkSticky &&& ~~~((clearable off.toNat v s).setWidth _) })) ∧
      (off = 0x20004 → exec i s = .next (s.onTim fun x => { x with sticky := x.sticky &&& ~~~((clearable off.toNat v s).setWidth _) })) ∧
      (off = 0x40004 → exec i s = .next (s.onIll fun x => { x with sticky := x.sticky &&& ~~~((clearable off.toNat v s).setWidth _) })) ∧
      (off = 0x40020 → exec i s = .next (s.onIll fun x => { x with strOpen := x.strOpen &&& ~~~((clearable off.toNat v s).setWidth _) })) ∧
      (off = 0x40024 → exec i s = .next (s.onIll fun x => { x with strShort := x.strShort &&& ~~~((clearable off.toNat v s).setWidth _) })) ∧
      (off = 0x50004 → exec i s = .next (s.onCle fun x => { x with sticky := x.sticky &&& ~~~((clearable off.toNat v s).setWidth _) })) ∧
      (off = 0x60004 → exec i s = .next (s.onXcl fun x => { x with sticky := x.sticky &&& ~~~((clearable off.toNat v s).setWidth _) })) ∧
      (off = 0x70004 → exec i s = .next (s.onSlc fun x => { x with sticky := x.sticky &&& ~~~((clearable off.toNat v s).setWidth _) })) ∧
      (off = 0xA0004 → exec i s = .next (s.onCmp fun x => { x with sticky := x.sticky &&& ~~~((clearable off.toNat v s).setWidth _) })) ∧
      (off = 0xB0004 → exec i s = .next (s.onFab fun x => { x with sticky := x.sticky &&& ~~~((clearable off.toNat v s).setWidth _) })) ∧
      (off = 0xC0004 → exec i s = .next (s.onMem fun x => { x with sticky := x.sticky &&& ~~~((clearable off.toNat v s).setWidth _) })) ∧
      (off = 0xD0004 → exec i s = .next (s.onPwr fun x => { x with sticky := x.sticky &&& ~~~((clearable off.toNat v s).setWidth _) })) ∧
      (off = 0xD1004 → exec i s = .next (s.onThm fun x => { x with sticky := x.sticky &&& ~~~((clearable off.toNat v s).setWidth _) })) ∧
      (off = 0xE0004 → exec i s = .next (s.onCal fun x => { x with sticky := x.sticky &&& ~~~((clearable off.toNat v s).setWidth _) })) ∧
      (off = 0xF0004 → exec i s = .next (s.onSec fun x => { x with sticky := x.sticky &&& ~~~((clearable off.toNat v s).setWidth _) })) ∧
      (∀ p, p < 4 → off.toNat = 0x30104 + 0x100 * p → exec i s = .next (s.onPort p fun x => { x with sticky := x.sticky &&& ~~~((clearable off.toNat v s).setWidth _) })) ∧
      (∀ c, c < 4 → off.toNat = 0x40104 + 0x40 * c → exec i s = .next (s.onChain c fun x => { x with sticky := x.sticky &&& ~~~((clearable off.toNat v s).setWidth _) })) ∧
      (∀ n, n < 64 → off.toNat = 0x50104 + 0x40 * n → exec i s = .next (if domainOn 139 s then
        s.onLoop n fun x => { x with sticky := x.sticky &&& ~~~((clearable off.toNat v s).setWidth _) } else s)) ∧
      (∀ p, p < 4 → off.toNat = 0x60104 + 0x40 * p → exec i s = .next (if domainOn 140 s then
        s.onXset p fun x => { x with sticky := x.sticky &&& ~~~((clearable off.toNat v s).setWidth _) } else s)) ∧
      (∀ k, k < 16 → off.toNat = 0x80004 + 0x1000 * k → exec i s = .next (s.onOctet k fun x => { x with sticky := x.sticky &&& ~~~((clearable off.toNat v s).setWidth _) })) ∧
      (∀ q, q < 4 → off.toNat = 0x80804 + 0x4000 * q → exec i s = .next (s.onGlk fun g => { g with quads := upd g.quads q fun x => { x with
        sticky := x.sticky &&& ~~~((clearable off.toNat v s).setWidth _) } })) ∧
      (∀ p, p < 4 → off.toNat = 0x90104 + 0x100 * p → exec i s = .next (s.onArr p fun x => { x with sticky := x.sticky &&& ~~~((clearable off.toNat v s).setWidth _) })) ∧
      (∀ c, c < 5 → off.toNat = 0xA0104 + 0x40 * c → exec i s = .next (s.onCview c fun x => { x with sticky := x.sticky &&& ~~~((clearable off.toNat v s).setWidth _) })) ∧
      (∀ c, c < 5 → off.toNat = 0xB0104 + 0x40 * c → exec i s = .next (s.onFview c fun x => { x with sticky := x.sticky &&& ~~~((clearable off.toNat v s).setWidth _) }))) ∧
    (∀ off, (∀ k, k < 5 → off.toNat = 0xE0020 + 4 * k → exec (.registerWrite h off v) s = .next (calClassWrite k v s)) ∧
      (∀ r, r < 92 → off.toNat = 0xE1000 + 0x200 * r → exec (.registerWrite h off v) s = .next (freezeWrite r v s)) ∧
      (∀ r set w, r < 92 → set < 4 → w < 28 → off.toNat = 0xE1010 + 0x200 * r + 0x70 * set + 4 * w →
        exec (.registerWrite h off v) s = .next (calSetWrite r set w v s))) ∧
    (∀ off, off.toNat % 4 = 0 → clearSingle off.toNat v s = none → clearGroup off.toNat v s = none → writeCal off.toNat v s = none →
      ∀ i ∈ [Instr.registerWrite h off v, .i3cBar0Write off v],
        (regRead off.toNat s ≠ none → exec i s = .next s) ∧
        (regRead off.toNat s = none → ∃ t, exec i s = .next t ∧ onlyReports (s.onHif fun x => { x with unmappedCnt := sat x.unmappedCnt }) t ∧
          t.hif.sticky.getLsbD 0 = true)) ∧
    (∀ off, clearSingle off.toNat v s = none → clearGroup off.toNat v s = none → regRead off.toNat s ≠ none →
      exec (.i3cBar0Write off v) s = .next s))

/-- For every register of a domain that switches (CORE itself, the loop engine's, the exclusion engine's, a slicer's, a
pipe's; the registers that their chapters place in CORE count for CORE): while its domain is off it reads 0xFFFFFFFF, a write
to it by a function or over I3C leaves a live device as it is, and a read of it over I3C takes 0xFFFFFFFF. [R38] -/
def Obligations.DarkRegistersReadAllOnes : Prop :=
  ∀ (o : Nat) (s : State), inDarkDomain o s = true →
    regRead o s = some 0xFFFFFFFF ∧
    (s.live = true → ∀ h v, exec (.registerWrite h (BitVec.ofNat 24 o) v) s = .next s ∧ exec (.i3cBar0Write (BitVec.ofNat 24 o) v) s = .next s) ∧
    (s.live = true → ∃ t, exec (.i3cBar0ReadSetup (BitVec.ofNat 24 o) 1) s = .next t ∧ t.hif.i3cRead = [0xFFFFFFFF])

/-- In a live device: an access of a bad size, alignment or offset is counted, and a read of that kind answers bytes 0xFF. An
I3C read set-up of 1 to 64 words takes the words from its offset on; an I3C private read answers them, else the oldest reply,
else zeros. A BAR2 access inside a mapped buffer reads its bytes (zeros where it is protected; one that covers a word with an
uncorrectable error completes poisoned, and each error is counted), or writes exactly them (where protection and fences let
it) unless the buffer is locked, which is counted; one outside is counted, and a read answers 0xFF. [01_device_map.md R37;
10_composition.md R358, R359; 13_hosts_and_commands.md R430, R431] -/
def Obligations.HostReadsAndBadAccesses : Prop :=
  (∀ h (off : BitVec 24) size s, s.live = true → goodAccess off.toNat size false s = false →
    ∃ t, exec (.unmapped h off size false) s = .next t ∧ onlyReports (s.onHif fun x => { x with unmappedCnt := sat x.unmappedCnt }) t ∧
      t.hif.sticky.getLsbD 0 = true ∧ .readBack (BitVec.ofNat 2 (h.val + 1)) (List.replicate size 0xFF) ∈ t.hif.outbox) ∧
  (∀ h (off : BitVec 24) size s, s.live = true → goodAccess off.toNat size true s = false →
    Goes (.unmapped h off size true) s (s.onHif fun x => { x with unmappedCnt := sat x.unmappedCnt })) ∧
  (∀ (off : BitVec 24) (n : BitVec 8) s, s.live = true → 0 < n.toNat → n.toNat ≤ 64 →
    (∀ i, i < n.toNat → regRead ((off.toNat + 4 * i) % 2 ^ 24) s ≠ none) →
      exec (.i3cBar0ReadSetup off n) s = .next (s.onHif fun x => { x with
        i3cRead := (List.range n.toNat).map fun i => (regRead ((off.toNat + 4 * i) % 2 ^ 24) s).getD 0 })) ∧
  (∀ s, s.live = true → ∃ t, exec .i3cPrivateRead s = .next t ∧
    .readBack 3 (if s.hif.i3cRead ≠ [] then s.hif.i3cRead.flatMap (fun x => leBytes 4 x.toNat) else
      match s.hif.i3cQ with | r :: _ => Reply.bytes Config.i3cPhase r | [] => List.replicate 32 0) ∈ t.hif.outbox ∧
    t.hif.i3cRead = [] ∧ t.hif.i3cQ = (if s.hif.i3cRead ≠ [] then s.hif.i3cQ else s.hif.i3cQ.drop 1)) ∧
  (∀ h off s b o n, bar2Buf h.val off n s = some (b, o) →
    (b.lost = true ∨ b.place = none → ∃ t, exec (.bar2Access h off (.read n)) s = .next t ∧ onlyReports s t ∧
      .readBack (BitVec.ofNat 2 (h.val + 1)) (bufBytes b o n s) ∈ t.hif.outbox) ∧
    (∀ a, b.lost = false → b.place = some a → ∃ t, exec (.bar2Access h off (.read n)) s = .next t ∧ t.mem.general = s.mem.general ∧
      ((∀ w ∈ burstsOf (a + o) n, isProtectedAt .general w.1 s = true) →
        .readBack (BitVec.ofNat 2 (h.val + 1)) (List.replicate n 0) ∈ t.hif.outbox) ∧
      ((∀ w ∈ burstsOf (a + o) n, isProtectedAt .general w.1 s = false) →
        ((∀ w ∈ burstsOf (a + o) n, badWord .general w.1 s = false) →
          .readBack (BitVec.ofNat 2 (h.val + 1)) (memRead s.mem.general (a + o) n) ∈ t.hif.outbox ∧ t.mem.ueCnt = s.mem.ueCnt) ∧
        ((∃ w ∈ burstsOf (a + o) n, badWord .general w.1 s = true) → .poisoned (BitVec.ofNat 2 (h.val + 1)) ∈ t.hif.outbox ∧
          (s.mem.migRun = false → t.mem.ueCnt =
            ((burstsOf (a + o) n).filter fun w => badWord .general w.1 s).foldl (fun k _ => sat k) s.mem.ueCnt))))) ∧
  (∀ h off s b o d, bar2Buf h.val off d.length s = some (b, o) →
    (scanLocked b.handle s = false → exec (.bar2Access h off (.write d)) s = .next (bufStore { port := 0 } b o d s) ∧
      ∀ a, b.place = some a → s.mem.fenced = 0 → memWf s.mem.general = true →
        (∀ w ∈ burstsOf (a + o) d.length, isProtectedAt .general w.1 s = false) → ∀ k,
        memGet (bufStore { port := 0 } b o d s).mem.general k =
          if a + o ≤ k ∧ k < a + o + d.length then d.getD (k - (a + o)) 0 else memGet s.mem.general k) ∧
    (scanLocked b.handle s = true → Goes (.bar2Access h off (.write d)) s (s.onCmp fun c => { c with
      lockDropCnt := sat c.lockDropCnt, sticky := c.sticky ||| 2 }))) ∧
  (∀ h off s n, bar2Buf h.val off n s = none → ∃ t, exec (.bar2Access h off (.read n)) s = .next t ∧
    onlyReports (s.onHif fun x => { x with bar2DropCnt := sat x.bar2DropCnt }) t ∧
    .readBack (BitVec.ofNat 2 (h.val + 1)) (List.replicate n 0xFF) ∈ t.hif.outbox)

/-- Every row of a host command does what the delivery of an entry with its opcode does. A doorbell that a live device takes
reads the entries from the head up to its index, in order, with the ring's head and tail at that index, and one that it does
not take only sets HIF_STICKY.BAD_RING; an I3C command write delivers its entry, unless 8 wait. An entry read at once whose
opcode no command has is refused with BAD_OPCODE (with version 1) and has no effect. [13_hosts_and_commands.md R430, R438,
R439, R442, R446, R456] -/
def Obligations.RawEntriesRunLikeTheirRows : Prop :=
  (∀ i sp c s, hostRow i = some (sp, c) → exec i s = .next (deliver sp.op c s)) ∧
  (∀ h r tail es s, s.live = true → doorOk (nth (nth s.hif.pcie h.val).crings r.val).cfg tail = true →
    exec (.cringDoorbell h r tail es) s =
      (let q := nth (nth s.hif.pcie h.val).crings r.val
       let t := tail.toNat % 4096
       .next ((List.range ((t + ringSize q.cfg - q.head.toNat) % ringSize q.cfg)).foldl (fun s i =>
          let x := RawEntry.parse (BitVec.ofNat 2 (h.val + 1)) (BitVec.ofNat 2 r.val) (es.getD i {})
          deliver x.1 x.2 s)
        (s.onHif fun x => { x with pcie := upd x.pcie h.val fun f => { f with
          crings := upd f.crings r.val fun q => { q with head := BitVec.ofNat 12 t, tail := BitVec.ofNat 12 t } } })))) ∧
  (∀ h r tail es s, s.live = true → doorOk (nth (nth s.hif.pcie h.val).crings r.val).cfg tail = false →
    ∃ t, exec (.cringDoorbell h r tail es) s = .next t ∧ onlyReports s t ∧ t.hif.sticky.getLsbD 2 = true) ∧
  (∀ e s, (s.hif.waiting.filter fun h => h.cmd.host == 3).length < 8 →
    exec (.i3cCommandWrite e) s = .next (deliver (RawEntry.parse 3 0 e).1 (RawEntry.parse 3 0 e).2 s)) ∧
  (∀ op c s, (∀ i sp, hostRow i = some (sp, c) → sp.op ≠ op) → isRead op c s = true → c.version = 1 → s.mgt.st ≠ .recovery →
    onlyReports s (deliver op c s) ∧ ∃ e rest, (deliver op c s).hif.journal = e :: rest ∧ e.kind = .accept ∧ e.opcode = op ∧
      e.status = .badOpcode ∧ e.corr = c.corr)

/-- In a live device: a command ring that is disabled takes BASE (its low 12 bits 0) and, for a size of 16 to 4,096 entries
or without enable, CFG; while enabled, BASE stays and BAD_RING is set. A word of the MSI-X table takes its value. A reply
doorbell that is taken sets the index that the host has read. When a vector's 10 µs are over since it last sent, it is no
longer held back, and a message it held goes out unless masked. [13_hosts_and_commands.md R445, R451, R456] -/
def Obligations.RingRegistersAndInterrupts : Prop :=
  (∀ h (r : Fin 4) v s, s.live = true → ringOn (nth (nth s.hif.pcie h.val).crings r.val).cfg = false →
    exec (.ringCfgWrite h (BitVec.ofNat 17 (r.val * 0x40)) v) s = .next (s.onHif fun x => { x with pcie := upd x.pcie h.val fun f => { f with
      crings := upd f.crings r.val fun q => { q with baseLo := v &&& 0xFFFFF000 } } }) ∧
    ((v.getLsbD 4 = true → 4 ≤ v.toNat % 16 ∧ v.toNat % 16 ≤ 12) →
      exec (.ringCfgWrite h (BitVec.ofNat 17 (r.val * 0x40 + 8)) v) s = .next (s.onHif fun x => { x with pcie := upd x.pcie h.val fun f => { f with
        crings := upd f.crings r.val fun q => { q with cfg := v &&& 0x7F } } }))) ∧
  (∀ h (r : Fin 4) v s, s.live = true → ringOn (nth (nth s.hif.pcie h.val).crings r.val).cfg = true →
    ∃ t, exec (.ringCfgWrite h (BitVec.ofNat 17 (r.val * 0x40)) v) s = .next t ∧ onlyReports s t ∧ t.hif.sticky.getLsbD 2 = true) ∧
  (∀ h (w : Fin 256) v s, s.live = true → ∃ t, exec (.ringCfgWrite h (BitVec.ofNat 17 (0x10000 + 4 * w.val)) v) s = .next t ∧
    onlyReports (s.onHif fun x => { x with pcie := upd x.pcie h.val fun f => { f with msixTable := upd f.msixTable w.val fun _ =>
      v &&& (if w.val % 4 = 0 then 0xFFFFFFFC else if w.val % 4 = 3 then 1 else 0xFFFFFFFF) } }) t) ∧
  (∀ h r v s, s.live = true → doorOk (nth (nth s.hif.pcie h.val).rrings r.val).cfg v = true →
    exec (.rringDoorbell h r v) s = .next (resumeRings (flushReplies (s.onHif fun x => { x with pcie := upd x.pcie h.val fun f => { f with
      rrings := upd f.rrings r.val fun q => { q with hostHead := BitVec.ofNat 12 (v.toNat % 4096) } } })))) ∧
  (∀ h vec s, (nth s.hif.pcie h.val).coalescing.getLsbD vec.val = true →
    nth (nth s.hif.pcie h.val).sentNs vec.val + 10000 ≤ s.ns → ∃ t, exec (.msixCoalesceExpire h vec) s = .next t ∧ onlyReports s t ∧
    ((nth (nth s.hif.pcie h.val).msixTable (4 * vec.val + 3)).getLsbD 0 = false →
      (nth t.hif.pcie h.val).pendingBits.getLsbD vec.val = false ∧
      ((nth s.hif.pcie h.val).pendingBits.getLsbD vec.val = true → .msix h vec.val ∈ t.hif.outbox)))

/-- A core watchdog resets its core as CP_RESET does, its rings passed on, and the command on which it was busy ends with
INTERNAL_ERROR; a core powers on while more than 8 commands wait, and core 1 to 3 off 10 ms after its last command. READY is
set outside RECOVERY. FLR, PERST# (which is not looked at while its bank is unpowered) and a link that goes down end the
function's rings (the first two also its BAR4) and its session; a lease whose time is over ends its session, counted. A
journal entry that reaches MRAM, the oldest one on its way, moves the head on to itself; one that fails leaves the journal
volatile. A transfer's data reach the buffer at its offset, through port 0. [13_hosts_and_commands.md R429, R432, R433, R436,
R448, R452, R453, R454] -/
def Obligations.SessionsCoresAndJournalEvents : Prop :=
  (∀ (k : Fin 4) busy s, (nth s.hif.cores k.val).st ≠ .off → ∃ t, exec (.cpWatchdog (k, busy)) s = .next t ∧
    onlyReports (s.onHif fun x => { x with cores := upd x.cores k.val fun q => { q with st := .idle, passed := true } }) t ∧
    (nth t.hif.cores k.val).resetCnt = sat (nth s.hif.cores k.val).resetCnt ∧ (nth t.hif.cores k.val).st = .idle ∧
    (∀ op c, busy = some (op, c) → deaf c s = false → Cmd.crcOk op c = true → s.mgt.st ≠ .recovery →
      ∃ e rest, t.hif.journal = e :: rest ∧ e.kind = .accept ∧ e.opcode = op ∧ e.corr = c.corr ∧ e.status = .internalError)) ∧
  (∀ (k : Fin 4) s, (nth s.hif.cores k.val).st = .off → 8 < s.hif.waiting.length →
    exec (.cpCorePowerOn k) s = .next (s.onHif fun x => { x with cores := upd x.cores k.val fun q => { q with st := .idle, lastNs := s.ns, passed := false } })) ∧
  (∀ (k : Fin 4) s, k.val ≠ 0 → (nth s.hif.cores k.val).lastNs + 10000000 ≤ s.ns →
    exec (.cpCoreIdleOff k) s = .next (pruneDoms (s.onHif fun x => { x with cores := upd x.cores k.val fun q => { q with st := .off } }))) ∧
  (∀ s, s.live = true → s.mgt.st ≠ .recovery → exec .hifReady s = .next (s.onHif fun x => { x with ready := true })) ∧
  (∀ s, s.mgt.st = .recovery → exec .hifReady s = .next s) ∧
  (∀ ok s, s.hif.jhead.toNat < s.hif.jseq.toNat → ∃ t, exec (.journalEntryPersisted ok) s = .next t ∧
    (ok = true → onlyReports (s.onHif fun x => { x with jhead := oldestOnWay s }) t) ∧
    (ok = false → onlyReports (s.onHif fun x => { x with isVolatile := true }) t ∧ t.hif.sticky.getLsbD 10 = true)) ∧
  (∀ (h : Fin 2) s, railOn 0 s = false → exec (.perstN h) s = .next s) ∧
  (∀ (h : Fin 2) s, ∀ i ∈ [Instr.flr h, .perstN h, .dlDown h], (i = .perstN h → railOn 0 s = true) → ∃ t, exec i s = .next t ∧ (nth t.hif.sess (h.val + 1)).isOpen = false ∧
    (∀ r, r < 4 → ringOn (nth (nth t.hif.pcie h.val).crings r).cfg = false ∧ ringOn (nth (nth t.hif.pcie h.val).rrings r).cfg = false) ∧
    nth t.sec.role (h.val + 1) = (if (nth s.hif.sess (h.val + 1)).isOpen then 0 else nth s.sec.role (h.val + 1)) ∧
    (∀ k, k ≠ h.val → (nth t.hif.pcie k).settings = (nth s.hif.pcie k).settings) ∧
    (∀ k, k ≠ h.val + 1 → (nth t.hif.sess k).settings = (nth s.hif.sess k).settings)) ∧
  (∀ (h : Fin 3) s, (nth s.hif.sess (h.val + 1)).isOpen = true → (nth s.hif.sess (h.val + 1)).lease = true →
    (nth s.hif.sess (h.val + 1)).leaseStart + (nth s.hif.sess (h.val + 1)).leaseMs.toNat * 1000000 ≤ s.ns →
    ∃ t, exec (.leaseExpire h) s = .next t ∧ onlyReports ((s.onHif fun x => { x with sess := upd x.sess (h.val + 1) fun q => { q with
      lapseCnt := sat q.lapseCnt, isOpen := false, lease := false } }).onSec fun x => { x with
        role := upd x.role (h.val + 1) fun _ => 0, index := upd x.index (h.val + 1) fun _ => 0 }) t) ∧
  (∀ (host : Fin 3) bs s h b, (s.hif.ingests.find? fun h => h.cmd.host.toNat == host.val + 1) = some h → ingestDecrypt h.cmd = false →
    cmdBuf h.cmd s = some b → ingestSignal h.cmd = false → ∃ t, exec (.ingestTransferDone host (.data bs)) s = .next t ∧
      t.hif.ingests = s.hif.ingests.erase h ∧ ((∀ x ∈ s.cmp.bufs, x.freePending = none) →
        t.mem = (bufStore { port := 0 } b (ingestOfs h.cmd) (slice bs 0 (ingestLen h.cmd))
          (s.onHif fun x => { x with ingests := x.ingests.erase h })).mem))

/-- PORST_N low, WRST_N low and a supply that falls through UVLO leave the device not live with SAFE set; the pins set the
ports and the phase keeper back, UNLOCKED. A supply that rises leaves it powered and held by PORST_N. Releasing the last pin
starts it at tick 0 in LOCKED on source 3 (UNLOCKED while monitor 0 or 3 reports a bad reference), with a RESET entry in the
journal when the reset ended no command. A warm reset keeps TIM_FRAME, ownership and memory (protected plane stores it
clears) and, all clocks good, moves every role epoch on by 1; a supply that falls keeps the journal entries that are in MRAM.
[01_device_map.md R32; 16_power_thermal_reset.md R505, R506, R528, R529, R569, R570] -/
def Obligations.ResetPinsHoldAndReleaseTheDevice : Prop :=
  (∀ s, s.powered = true → s.porst = false → ∃ t, exec .porstNAssert s = .next t ∧ t.porst = true ∧ t.live = false ∧ t.xcl.safe = true ∧ t.coldReset = true ∧
    t.seq = {} ∧ t.slc = {} ∧ t.cmp = {} ∧ t.tim.st = .unlocked ∧ t.xcl.sets = ({} : Xcl).sets) ∧
  (∀ s, s.live = true → ∃ t, exec .wrstNAssert s = .next t ∧ t.wrst = true ∧ t.live = false ∧ t.xcl.safe = true ∧ t.tim.st = .unlocked ∧ t.phase = 0 ∧
    t.seq = s.seq.warm ∧ (∀ k, s.xcl.latch.getLsbD k = true → t.xcl.latch.getLsbD k = true) ∧ t.hif.cfgOwner = s.hif.cfgOwner ∧ t.hif.portOwner = s.hif.portOwner ∧ t.cal = s.cal ∧
    ((∀ v, v < 5 → (s.store v).isProtected = false) → t.mem.plane = s.mem.plane) ∧
    (∀ v k, v < 5 → memWf s.mem.plane = true → (s.store v).isProtected = true → k < storeSize (s.store v) →
      memGet t.mem.plane ((s.store v).base + k) = 0) ∧
    ((∀ b ∈ s.cmp.bufs, b.isProtected = true → b.freePending = none) → (∀ v i, v < 5 → canvasSecret v i s = false) →
      t.mem.general = s.mem.general) ∧ t.mem.reserve = s.mem.reserve ∧
    t.xcl.safeCnt = (if s.xcl.safe then s.xcl.safeCnt else sat s.xcl.safeCnt) ∧ t.xcl.sticky = s.xcl.sticky ||| 0x800) ∧
  (∀ s straps, s.powered = true → s.porst = true → s.wrst = false → s.pwr.railReset = false →
    ∃ t, exec (.porstNRelease straps) s = .next t ∧ t.live = true ∧ t.straps = straps ∧ t.phase = 0 ∧
      (s.mgt.clkStatus.getLsbD 0 = false → s.mgt.clkStatus.getLsbD 3 = false → t.tim.st = .locked ∧ t.tim.src = 3) ∧
      ((s.mgt.clkStatus.getLsbD 0 = true ∨ s.mgt.clkStatus.getLsbD 3 = true) → t.tim.st = .unlocked) ∧
      (s.mgt.clkStatus = 0 → s.hif.resetEnds = [] → s.coldReset = true → ∃ e rest, t.hif.journal = e :: rest ∧ e.kind = .reset ∧ e.detail = 0)) ∧
  (∀ s, s.powered = true → s.porst = false → s.wrst = true → s.pwr.railReset = false → s.coldReset = false →
    ∃ t, exec .wrstNRelease s = .next t ∧ t.live = true ∧ t.phase = 0 ∧ t.frame = s.frame ∧
      (s.mgt.clkStatus.getLsbD 0 = false → s.mgt.clkStatus.getLsbD 3 = false → t.tim.st = .locked ∧ t.tim.src = 3) ∧
      ((s.mgt.clkStatus.getLsbD 0 = true ∨ s.mgt.clkStatus.getLsbD 3 = true) → t.tim.st = .unlocked) ∧
      (s.mgt.clkStatus = 0 → s.hif.resetEnds = [] → s.mgt.st ≠ .recovery → ∃ e rest, t.hif.journal = e :: rest ∧ e.kind = .reset ∧ e.detail = 1) ∧
      (s.mgt.clkStatus = 0 → (∀ n, n < 64 → (t.loop n).epoch = (s.loop n).epoch + 1) ∧ (∀ k, k < 16 → (t.octet k).epoch = (s.octet k).epoch + 1) ∧
      (∀ i, i < 24 → (t.pipe i).epoch = (s.pipe i).epoch + 1) ∧ (∀ d, d < 128 → (nth t.ill.drivers d).epoch = (nth s.ill.drivers d).epoch + 1))) ∧
  (∀ s mv, s.powered = false → ∃ t, exec (.uvloRising mv) s = .next t ∧ t.powered = true ∧ t.porst = true ∧ t.pwr.vin = mv) ∧
  (∀ s mv, s.powered = true → ∃ t, exec (.uvloFalling mv) s = .next t ∧ t.powered = false ∧ t.live = false ∧ t.xcl.safe = true ∧ t.pwr.vin = mv ∧
    t.seq = {} ∧ t.mem.plane = [] ∧ t.mem.general = [] ∧
    t.hif.journal = s.hif.journal.filter fun e => e.jseq.toNat ≤ s.hif.jhead.toNat)

/-- While powered: VIN_HIGH and VIN_LOW take the reading, count and set their bits, VIN_LOW with every journal entry brought
to MRAM; VBAT_LOW clears VBAT_GOOD and sets its bit (unpowered, the BBRAM is lost). A step of the rail sequence raises the
PGOOD that it names and moves on; a timeout counts, drops every rail and waits 1 s for the retry, which up to the third
failure starts again. A fall of PGOOD after the sequence, WRST_N held or not, is a rail fault: counted, with the device held
in a warm reset and its rails down. With rails up, stage-1 running and outside standby, an AVS update whose read-back agrees
within 25 mV moves the set-point toward its target by at most 5 mV; ten bad ones in a row hold it and set the bit. A poll of
a defined item that answers writes its value and clears its fault; the third without an answer puts it in fault. ALERT sets
its bit, and in RUN the status words that it reads are kept. A domain that is waited for switches on (which of several is
open, assumption 3). A standby exit not ended in 1 s completes. [16_power_thermal_reset.md R504, R505, R506, R507, R508,
R510; 16_power_thermal_reset.md R509, R511, R512, R513, R527; 01_device_map.md R29, R30] -/
def Obligations.SuppliesRailsAndDomains : Prop :=
  (∀ mv s, s.powered = true →
    Goes (.vinHigh mv) s (s.onPwr fun p => { p with vin := mv, vinHighCnt := sat p.vinHighCnt, sticky := p.sticky ||| 2 }) ∧
    (∃ t, exec (.vinLow mv) s = .next t ∧ (s.hif.isVolatile = false → t.hif.jhead = s.hif.jseq) ∧ t.pwr = { s.pwr with vin := mv, vinLowCnt := sat s.pwr.vinLowCnt, sticky := s.pwr.sticky ||| 1 }) ∧
    Goes .vbatLow s (s.onPwr fun p => { p with vbatGood := false, sticky := p.sticky ||| 4 })) ∧
  (∀ s, s.powered = false → exec .vbatLow s = .next { s with
    pwr := { s.pwr with vbatGood := false }, sec := { s.sec with bbramValid := false, bbram := [] } }) ∧
  (∀ s, sequencing s = true → s.pwr.railReset = false →
    exec .railSeqStep s = .next (s.onPwr fun p => { p with
      pgood := p.pgood ||| stepPgood p.step, step := p.step + 1, seqDone := decide (9 ≤ p.step), railReset := false }) ∧
    Goes .railSeqTimeout s (pruneDoms (s.onPwr fun p => { p with
      pgood := 0, step := 0, retryWait := true, failNs := s.ns, seqFails := p.seqFails + 1, seqFailCnt := sat p.seqFailCnt, sticky := p.sticky ||| 8 }))) ∧
  (∀ s, s.powered = true → s.porst = false → s.pwr.retryWait = true → s.pwr.seqFails < 3 → s.pwr.failNs + 1000000000 ≤ s.ns →
    exec .railSeqRetry s = .next (s.onPwr fun p => { p with retryWait := false })) ∧
  (∀ (i : Fin 4) s, s.powered = true → s.porst = false → s.coldReset = false → s.pwr.seqDone = true → s.pwr.pgood.getLsbD i.val = true →
    ∃ t, exec (.pgoodFall i) s = .next t ∧ t.live = false ∧
    t.pwr.railReset = true ∧ t.pwr.seqDone = false ∧ t.pwr.step = 0 ∧ t.pwr.pgood = 0 ∧ t.pwr.railFaultCnt = sat s.pwr.railFaultCnt ∧
    t.pwr.sticky = s.pwr.sticky ||| 0x20 ∧ t.cal = {}) ∧
  (∀ rb s, s.live = true → s.mgt.st = .run → s.pwr.seqDone = true → s.pwr.standby = false →
    (rb ≤ s.pwr.vcoreSet.toNat + 25 → s.pwr.vcoreSet.toNat ≤ rb + 25 → ∃ t, exec (.avsUpdate rb) s = .next t ∧
      t = (s.onPwr fun p => { p with avsRun := 0, vcoreSet := t.pwr.vcoreSet }) ∧
      (avsTarget s < 1024 → (t.pwr.vcoreSet.toNat : Int) = max (s.pwr.vcoreSet.toNat - 5 : Int) (min (s.pwr.vcoreSet.toNat + 5) (avsTarget s)))) ∧
    (rb + 25 < s.pwr.vcoreSet.toNat → 9 ≤ s.pwr.avsRun →
      Goes (.avsUpdate rb) s (s.onPwr fun p => { p with avsRun := 10, sticky := p.sticky ||| 0x10 }))) ∧
  (∀ (i : Fin 32) vm s, s.live = true → s.mgt.st = .run → (nth s.pwr.items i.val).defined = true →
    (∀ r, exec (.pmbusItemPoll i (some r) vm) s = .next { s with free := s.free + 1, pwr := { s.pwr with
      items := upd s.pwr.items i.val fun y => { y with
        value := itemWord (itemReading s.free y r vm), fault := false, stale := false, failRun := 0 } } }) ∧
    ((nth s.pwr.items i.val).failRun < 2 → exec (.pmbusItemPoll i none vm) s = .next (s.onPwr fun p => { p with
      items := upd p.items i.val fun y => { y with failRun := y.failRun + 1 } })) ∧
    (2 ≤ (nth s.pwr.items i.val).failRun → Goes (.pmbusItemPoll i none vm) s (s.onPwr fun p => { p with
      sticky := p.sticky ||| 0x40, items := upd p.items i.val fun y => { y with failRun := 3, fault := true } }))) ∧
  (∀ ws s, s.powered = true → Goes (.pmbusAlert ws) s (s.onPwr fun p => { p with
    sticky := p.sticky ||| 0x80, statusWords := if s.mgt.st = .run then ws else p.statusWords })) ∧
  (∀ s, s.live = true → ∃ t, exec .domainSwitchOn s = .next t ∧ t.pwr = { s.pwr with doms := t.pwr.doms } ∧
    (∀ d, d < 141 → domainOn d s = true → t.pwr.doms.getLsbD d = true) ∧
    (∀ d, d < 141 → t.pwr.doms.getLsbD d = true → domainOn d s = true ∨ wantsDomain d s = true) ∧
    ((∃ d, d < 141 ∧ wantsDomain d s = true ∧ domainOn d s = false) →
      ∃ d, d < 141 ∧ wantsDomain d s = true ∧ domainOn d s = false ∧ t.pwr.doms.getLsbD d = true)) ∧
  (∀ h s, s.pwr.standbyCmd = some h → standbyOn h.cmd = false → (s.mem.st = .ready → s.sec.st = .selftest) →
    s.pwr.exitNs + 1000000000 ≤ s.ns →
    Goes .standbyExitTimeout s (s.onPwr fun p => { p with standbyCmd := none }))

/-- In a live device whose sense clock is good, a sample marks exactly the sensors in fault that report nothing or a reading
outside −55 to 150 °C and takes the other readings. The hottest reading is the largest of the main die's sensors, 0 to 47,
that are not in fault. At or above the warning, throttle or shutdown threshold of it the state is set; 3 °C below, warning
and throttle end. A shutdown also sets source 7 and stays; in it the sample keeps or starts the time since which the hottest
reading is 15 °C below the shutdown threshold, and ends that time otherwise. Restart, 10 s after the samples have found the
hottest reading 15 °C below, ends it and source 7. [16_power_thermal_reset.md R515, R516, R518, R519, R520, R522, R524] -/
def Obligations.ThermalSampleFollowsTheHottestReading : Prop :=
  (∀ rs s, s.live = true → s.mgt.clkStatus.getLsbD 2 = false → ∃ t, exec (.thermalSample rs) s = .next t ∧
    (∀ n, n < 52 → nth t.thm.sensFault n = badReading ((rs[n]?).getD none) ∧
      (∀ v, (rs[n]?).getD none = some v → badReading (some v) = false → nth t.thm.temp n = v)) ∧
    (thmWarn s ≤ t.thm.hotTemp → t.thm.warn = true) ∧ (t.thm.hotTemp < thmWarn s - 300 → t.thm.warn = false) ∧
    (thmThrottle s ≤ t.thm.hotTemp → t.thm.throttle = true) ∧ (t.thm.hotTemp < thmThrottle s - 300 → t.thm.throttle = false) ∧
    (thmShutdown s ≤ t.thm.hotTemp → t.thm.shutdown = true) ∧ (s.thm.shutdown = true → t.thm.shutdown = true) ∧
    (s.thm.shutdown = false → t.thm.shutdown = true → t.xcl.safe = true ∧ t.xcl.active.getLsbD 7 = true) ∧
    (t.thm.throttle = false → t.thm.limit = 65535) ∧
    (∀ n, n < 48 → nth t.thm.sensFault n = false → nth t.thm.temp n ≤ t.thm.hotTemp) ∧
    ((∃ n, n < 48 ∧ nth t.thm.sensFault n = false) →
      ∃ n, n < 48 ∧ nth t.thm.sensFault n = false ∧ nth t.thm.temp n = t.thm.hotTemp) ∧
    t.thm.coolFrom = (if t.thm.shutdown = true ∧ t.thm.hotTemp < thmShutdown s - 1500 then some (s.thm.coolFrom.getD s.ns) else none)) ∧
  (∀ s, s.live = true → s.thm.shutdown = true → s.thm.noRestart = false → (∃ n, s.thm.coolFrom = some n ∧ n + 10000000000 ≤ s.ns) →
    ∃ t, exec .shutdownRestart s = .next t ∧ t.thm.shutdown = false ∧ t.thm.restartDue = !s.pwr.standby ∧
      t.xcl = { s.xcl with active := s.xcl.active &&& ~~~0x80, safe := s.xcl.latch != 0 || s.xcl.active.getLsbD 0 } ∧
      t.thm.sticky = s.thm.sticky ||| 0x20)

/-- In a live device, a fault of a monitor that reported good sets its bit of the clock status and sticky, counts, and for
monitors 0, 1, 2, 3, 4, 7 and 9 raises source 6. When a bad monitor reports good its bit clears and, once none of those seven
is bad, source 6 is inactive (its latch bit stays). [01_device_map.md R32, R33; 06_exclusion_and_symbols.md R225] -/
def Obligations.ClockMonitorsRecordAndBlank : Prop :=
  (∀ (m : Fin 16) s, s.live = true → s.mgt.clkStatus.getLsbD m.val = false → ∃ t, exec (.clockMonitorFault m) s = .next t ∧
    t.mgt.clkStatus = s.mgt.clkStatus ||| bit1 16 m.val ∧ t.mgt.clkSticky = s.mgt.clkSticky ||| bit1 16 m.val ∧
    t.mgt.clkFaultCnt = sat s.mgt.clkFaultCnt ∧
    (m.val ∈ [0, 1, 2, 3, 4, 7, 9] → t.xcl.safe = true ∧ t.xcl.active.getLsbD 6 = true ∧ t.xcl.latch.getLsbD 6 = true)) ∧
  (∀ (m : Fin 16) s, s.powered = true → s.mgt.clkStatus.getLsbD m.val = true → ∃ t, exec (.clockMonitorGood m) s = .next t ∧
    t.mgt.clkStatus = s.mgt.clkStatus &&& ~~~(bit1 16 m.val) ∧ t.xcl.latch.getLsbD 6 = s.xcl.latch.getLsbD 6 ∧
    (m.val ∈ [0, 1, 2, 3, 4, 7, 9] → t.mgt.clkStatus &&& 0x29F = 0 → t.xcl.active.getLsbD 6 = false))

/-- In a live device: the selected edge of REF_IN is one of source 1 (this pin and the cameras' count only while their bank
is supplied; an edge after the phase has wrapped counts for the next frame). A lost active source leads to HOLDOVER at the
held rate (within the pull range), counted, from which a valid listed source is taken; the holdover limit, once its seconds
are over, to UNLOCKED at the rate in force; a missing open edge counts a miss and leads to COASTING, at the limit to LOST. An
output takes the level that its setting gives at that tick, and no other. A camera edge awaits the glitch test, and a second
within 1 µs drops both. The settle limit, once its milliseconds are over, leaves the ports dark and ends the commit in force
with LOCK_TIMEOUT, not one that awaits its boundary. Windows freeze once a period. A locked keeper whose error is too large
for long enough leaves LOCKED, counted. [02_picture_phase.md R46, R48, R53, R56, R57, R58, R60, R63, R66, R69, R72, R73, R87,
R91, R93] -/
def Obligations.ReferenceAndCameraEvents : Prop :=
  (∀ b s, s.live = true → railOn 0 s = true → b ≠ s.tim.mode.refFalling →
    exec (.refInEdge b) s = .next (sourceEdge 1 s.ns s.phase (edgeFrame s) true s)) ∧
  (∀ b (c : Fin 4) s, railOn 0 s = false → exec (.refInEdge b) s = .next s ∧ exec (.camShutEdge c b) s = .next s) ∧
  (∀ i s, s.live = true → sourceActive s = true →
    (i = .refLoss ∧ isEdgeSrc s.tim.src.toNat = true ∧ s.tim.mode.refLossLimit ≤ s.tim.lossPeriods) ∨ (i = .steerTimeout ∧ s.tim.src = 2 ∧ steerOver s = true) →
    ∃ t, exec i s = .next t ∧ t.tim.holdoverCnt = sat s.tim.holdoverCnt ∧ t.tim.sticky.getLsbD 1 = true ∧
      t.tim.rateOfs = max (-1000000) (min 1000000 (heldRate s.tim)) ∧ ((∀ c ∈ s.tim.mode.srcList, (nth s.tim.srcs c.toNat).valid = true → c.toNat = s.tim.src.toNat) →
        t.tim.st = .holdover ∧ t.tim.src = 0) ∧
      ∀ c, ((s.tim.mode.srcList.map (·.toNat)).find? fun c => c != s.tim.src.toNat && (nth s.tim.srcs c).valid) = some c →
        t.tim.st = .acquiring ∧ t.tim.src = BitVec.ofNat 3 c) ∧
  (∀ s, s.live = true → s.tim.st = .holdover → holdoverOver s = true → Goes .holdoverExpire s (s.onTim fun x => { x with
    st := .unlocked, src := 0, lockRun := 0, unlockRun := 0, sticky := x.sticky ||| 4 })) ∧
  (∀ s, s.live = true → settleOver s = true → Goes .lockTimeout s (s.onTim fun x => { Tim.answered x with
    settleExpired := true, lockTimeoutCnt := sat x.lockTimeoutCnt, sticky := x.sticky ||| 8 })) ∧
  (∀ (c : Fin 4) s, s.live = true → (s.cam c.val).mode ≠ .off → ∃ t, exec (.camOpenEdgeMissing c) s = .next t ∧
    (t.cam c.val).miss = (s.cam c.val).miss + 1 ∧ (t.cam c.val).missCnt = sat (s.cam c.val).missCnt ∧
    ((s.cam c.val).miss + 1 < (nth s.tim.mode.cams c.val).missLimit →
      (t.cam c.val).mode = (if (s.cam c.val).seen then .coasting else (s.cam c.val).mode)) ∧
    ((nth s.tim.mode.cams c.val).missLimit ≤ (s.cam c.val).miss + 1 → (t.cam c.val).mode = .lost ∧
      ((s.cam c.val).seen = true → (t.cam c.val).lostCnt = sat (s.cam c.val).lostCnt ∧ t.tim.sticky.getLsbD (8 + c.val) = true))) ∧
  (∀ (c : Fin 4) level s, s.live = true → railOn 0 s = true → (s.cam c.val).mode ≠ .off →
    ((s.cam c.val).cand = none → exec (.camShutEdge c level) s = .next (s.onCam c.val fun x => { x with cand := some {
      ns := s.ns, phase := s.phase, frame := edgeFrame s, isOpen := level == (nth s.tim.mode.cams c.val).openHigh } })) ∧
    (∀ e, (s.cam c.val).cand = some e → s.ns < e.ns + 1000 → exec (.camShutEdge c level) s = .next (s.onCam c.val fun x => { x with
      cand := none, rejectCnt := sat x.rejectCnt, badSeen := true }))) ∧
  (∀ i a s, s.live = true → (a = markWant i.val s → exec (.phaseMarkEdge i a) s = .next (s.onTim fun x => { x with
    marks := upd x.marks i.val fun m => { m with active := a } })) ∧
    (a ≠ markWant i.val s → exec (.phaseMarkEdge i a) s = .next s)) ∧
  (∀ s, s.live = true → s.tim.frozen = false →
    exec .windowFreeze s = .next (forN 4 freezeCam (s.onTim fun x => { x with frozen := true }))) ∧
  (∀ s, s.tim.frozen = true → exec .windowFreeze s = .next s) ∧
  (∀ err hint s, s.tim.st = .locked → s.tim.mode.unlockThrNs < err.natAbs → s.tim.mode.unlockCount ≤ s.tim.unlockRun + 1 →
    (takeSample err hint s).tim.st = .acquiring ∧ (takeSample err hint s).tim.unlockCnt = sat s.tim.unlockCnt ∧
    (takeSample err hint s).tim.sticky.getLsbD 0 = true)

/-- For every SEQ_COMMIT that is read at once, passes the header checks and the device-state checks that come before its own,
and has its reserved bits 0: when a port of its mask holds the sequences of a commit that awaits its boundary, it is refused
with BUSY, and the step goes on with the sequencer as it was. [R116] -/
def Obligations.SecondCommitIsRefusedBusy : Prop :=
  ∀ c s, isRead 0x0202 c s = true → headerRefusal specSeqCommit c (atChecks c s) = none → groupBusy 0x0202 (atChecks c s) = false →
    u8 (Cmd.payload c) 0 < 16 → (∀ i ∈ [1, 2, 3], u8 (Cmd.payload c) i = 0) →
    (∃ p ∈ bitsOf 4 (u8 (Cmd.payload c) 0), (s.port p).commitSeqs.isSome = true) →
    refusedWith specSeqCommit c ⟨.busy, 0⟩ s ∧ ∃ t, exec (.seqCommit c) s = .next t ∧ t.seq = s.seq

/-- The row HOLD_TIMEOUT stands for the instant two periods after acceptance. For every port whose HOLD_SET was asked two
periods ago and is still waiting for its hold to begin: the step goes on to a state in which the port's HOLD_TIMEOUT bit is
set, the request is gone, no command awaits its completion under that JSEQ, and outside RECOVERY the newest journal entry is
its COMPLETE entry with status TIMEOUT. [R125] -/
def Obligations.HoldTimesOut : Prop :=
  ∀ (p : Fin 4) h s, (s.port p.val).hold.req.isSome = true → (s.port p.val).hold.on = false → (s.port p.val).hold.cmd = some h →
    (s.port p.val).hold.reqTk + 2 * periodTk ≤ absTick s → ∃ t, exec (.holdTimeout p) s = .next t ∧ (t.port p.val).sticky = (s.port p.val).sticky ||| 0x200 ∧
      (t.port p.val).hold.req = none ∧ (t.port p.val).hold.cmd = none ∧ (t.port p.val).hold.on = false ∧
      (∀ x ∈ t.hif.awaiting, x.jseq ≠ h.jseq) ∧
      (s.mgt.st ≠ .recovery → ∃ e rest, t.hif.journal = e :: rest ∧ e.kind = .complete ∧ e.ref = h.jseq ∧ e.status = .timeout)

/-- In a live device whose picture path runs: SLOT_START ends the running slot at its duration and starts the next with its
entries; SLOT_SETTLE_END ends settling; HOLD_SUBSLOT begins the next sub-slot with the held entries or none by its level. A
row fetch, none of whose words reads uncorrectable, adds the next row of the plane to the reader's buffer. A band reset that
is due joins the link's queue; a changeover shows the plane loaded, unless withheld or unsent, and ends the band's older
underruns. The selection point selects frames for every enabled port not in hold. [03_sequences.md R102, R109, R118, R126,
R127; 07_slicer_and_plane_store.md R255, R256, R259; 08_array_link.md R278] -/
def Obligations.SlotsStepAndBandsChangeOver : Prop :=
  (∀ (p : Fin 4) s x, s.live = true → (s.port p.val).enable = true → (s.port p.val).stepping = true → (s.port p.val).hold.on = false →
    s.pictureStops = false → holdBegins (s.port p.val) = false → (s.port p.val).slot.toNat + 1 < 4096 →
    (s.port p.val).slots[(s.port p.val).slot.toNat + 1]? = some x → ∃ t, exec (.slotStart p) s = .next t ∧
      (t.port p.val).slot.toNat = (s.port p.val).slot.toNat + 1 ∧ (t.port p.val).entries = x.entry ∧ (t.port p.val).settling = x.glob ∧
      (t.port p.val).slotStart = (s.port p.val).slotStart + ((s.port p.val).slots.getD (s.port p.val).slot.toNat {}).dur.toNat) ∧
  (∀ (p : Fin 4) s, s.live = true → (s.port p.val).settling = true → ∃ t, exec (.slotSettleEnd p) s = .next t ∧
    t.seq = (s.onPort p.val fun q => { q with settling := false }).seq) ∧
  (∀ (p : Fin 4) s, s.live = true → (s.port p.val).st = .hold → (s.port p.val).hold.on = true → (s.port p.val).hold.subslot < 1023 →
    s.pictureStops = false → ∃ t, exec (.holdSubslot p) s = .next t ∧ (t.port p.val).hold.subslot = (s.port p.val).hold.subslot + 1 ∧
      (t.port p.val).entries = (if bitrev10 ((s.port p.val).hold.subslot + 1) < (t.port p.val).hold.level then (t.port p.val).hold.entry
        else Vector.replicate 4 0)) ∧
  (∀ s, s.live = true → s.thm.shutdown = false → (∀ p, p < 4 → (s.port p).selNext = none) → ∃ t, exec .selectionPoint s = .next t ∧
    ∀ p, p < 4 → (t.port p).selNext.isSome = ((s.port p).enable && !(s.port p).hold.on)) ∧
  (∀ (p : Fin 4) s lim, s.live = true → (s.port p.val).enable = true → s.pictureStops = false → memServes s = true →
    (s.port p.val).rows.length < 2048 → bandHeight p.val s ≠ 0 → fetchLimit (s.port p.val) = some lim → (s.port p.val).fetchSlot ≤ lim →
    (s.port p.val).fetchSlot < (s.port p.val).slots.length → (s.port p.val).hold.on = false →
    (loadPlane p.val (s.port p.val).fetchSlot s).zero = false →
    let a := (loadPlane p.val (s.port p.val).fetchSlot s).base + 1024 * (s.port p.val).fetchRow
    (∀ w ∈ burstsOf a 1024, badWord .plane w.1 s = false) → ∃ t, exec (.planeRowFetch p) s = .next t ∧ (t.port p.val).rows = (s.port p.val).rows ++
      [((s.port p.val).fetchSlot, (s.port p.val).fetchRow, BitVec.ofNat 8192 (rowBits (memRead s.mem.plane a 1024)))]) ∧
  (∀ (p : Fin 4) (b : Fin 16) s, s.live = true → (s.port p.val).enable = true → (s.port p.val).stepping = true →
    s.pictureStops = false → (s.port p.val).hold.on = false → bandHeight p.val s ≠ 0 → (s.arr p.val).scanQuiet = false →
    let k := nth (s.port p.val).bandNext b.val
    k ≤ (s.port p.val).slot.toNat + 1 →
    (bandSent p.val k b.val s = true → (s.port p.val).withheld.getLsbD b.val = false → ∃ t r, exec (.bandResetQueue p b) s = .next t ∧
      t = (s.onLink p.val fun l => { l with resets := l.resets ++ [r] }) ∧ r.band.toNat = b.val ∧
      r.tag.toNat = planeTag (nth (s.port p.val).loaded b.val) % 65536 ∧ r.witness = nth (s.port p.val).witness b.val) ∧
    (∃ t, exec (.bandChangeover p b) s = .next t ∧ nth (t.port p.val).bandNext b.val = k + 1 ∧
      nth (t.port p.val).shown b.val = (if (s.port p.val).withheld.getLsbD b.val = false ∧ bandSent p.val k b.val s = true
        then nth (s.port p.val).loaded b.val else nth (s.port p.val).shown b.val) ∧
      ∀ u ∈ (t.port p.val).under, u.2 = b.val → (k : Int) ≤ u.1))

/-- In a live device an interval of a port whose octets all train, wait for CAPS or are READY (in hold without reload only if
it makes no keep-alive bursts) sends one frame for each lane of each octet of the port (beyond forward training, where its
octets are aligned to the array's octets 0 on) under the port's frame count and moves the count on by 1. A burst, in hold
without reload on a port that makes them, sends a type-3 frame with preamble on each of those lanes, counts it on its octets
and moves the frame count on. [08_array_link.md R265, R271, R274, R291, R297] -/
def Obligations.LaneFramesAreSent : Prop :=
  (∀ (p : Fin 4) s, s.live = true →
    (allIn p.val .fwdTrain s = true ∨ allIn p.val .capsWait s = true ∨ (portReady p.val s = true ∧
      (holdIdle p.val s = true → (s.link p.val).allot.kaBurst = false))) →
    ∃ t, exec (.linkFrameInterval p) s = .next t ∧ (t.link p.val).fcnt = (s.link p.val).fcnt + 1 ∧
      (∀ f ∈ (t.link p.val).lastFrames, f.fcnt = (s.link p.val).fcnt ∧ (f.type = 1 ∨ f.type = 2)) ∧
      (t.link p.val).resume = false ∧
      (let ks := octetsOf p.val s
       (allIn p.val .fwdTrain s = true → (t.link p.val).lastFrames.map (·.lane) = ks.flatMap fun k => (List.range 8).map fun q =>
         BitVec.ofNat 7 ((if (s.octet k).pass2 then 8 * (s.octet k).aoct.toNat else 8 * (k - ks.headD 0)) + q)) ∧
       (allIn p.val .fwdTrain s = false →
         (∀ a, a < ks.length → ∃ k ∈ ks, (s.octet k).st.aligned = true ∧ (s.octet k).aoct.toNat = a) →
         (t.link p.val).lastFrames.length = 8 * ks.length ∧
         ∀ j, j < 8 * ks.length → ∃ f ∈ (t.link p.val).lastFrames, f.lane = BitVec.ofNat 7 j))) ∧
  (∀ (p : Fin 4) s, s.live = true → portReady p.val s = true → holdIdle p.val s = true → (s.link p.val).allot.kaBurst = true →
    ∃ t, exec (.keepaliveBurst p) s = .next t ∧ (t.link p.val).fcnt = (s.link p.val).fcnt + 1 ∧
      (∀ f ∈ (t.link p.val).lastFrames, f.type = 3 ∧ f.units = [] ∧ f.preamble = true) ∧
      (∀ k ∈ octetsOf p.val s, (t.octet k).kaCnt = sat (s.octet k).kaCnt) ∧ t.seq = s.seq ∧
      (let ks := octetsOf p.val s
       (∀ a, a < ks.length → ∃ k ∈ ks, (s.octet k).st.aligned = true ∧ (s.octet k).aoct.toNat = a) →
         (t.link p.val).lastFrames.length = 8 * ks.length ∧
         ∀ j, j < 8 * ks.length → ∃ f ∈ (t.link p.val).lastFrames, f.lane = BitVec.ofNat 7 j))

/-- In a live device: a frame of a running chain whose responses need no check is counted, with the ICH_EN and table bits it
sent. A start-up walk leads to discovery or FAULT (while another chain runs, step by step in DIAG_OK slots), discovery to the
write-out of the devices found or FAULT, its timeout to FAULT, and the write-out, all its words sent and confirmed, to RUN; a
walk step that is due, taken from 7 to 11 µs after the mark of its slot, counts. A string's first measurement of an interval
in which it is eligible, when below OPEN and not below SHORT ends its runs; at or above V_OPEN or below V_SHORT it counts
and, when the run reaches CONFIRM, sets the string's state and starts its action. A due pulse, taken in the microsecond that
begins 1 µs after that mark, counts on its strings, and starvation counts and sets its bit. [04_illumination.md R143, R152,
R154, R156, R163, R164, R165, R166, R167] -/
def Obligations.IlluminationEventsFollowTheChains : Prop :=
  (∀ (c : Fin 4) rs s, framing c.val s = true → (s.chain c.val).noCheck = true →
    ((s.chain c.val).st = .run → ∃ t, exec (.chainFrame c rs) s = .next t ∧
      (t.chain c.val).frames = (s.chain c.val).frames + 1 ∧ (t.chain c.val).sentEn = (s.chain c.val).en ∧
      (∀ k ∈ chainDrivers c.val s, (nth t.ill.drivers k).sentTab = (nth s.ill.drivers k).tab) ∧
      (t.chain c.val).noCheck = (s.chain c.val).nopNext ∧ (t.chain c.val).st = .run) ∧
    ((s.chain c.val).st = .discover → (s.chain c.val).stage = 4 →
      (∀ k ∈ chainDrivers c.val s, wOp (frameWord c.val 0 k s) = 0 ∧ (nth s.ill.drivers k).retry = []) →
      ∃ t, exec (.chainFrame c rs) s = .next t ∧ (t.chain c.val).st = .run ∧ (t.chain c.val).en = !s.blanked ∧ (t.chain c.val).cmd = none)) ∧
  (∀ (c : Fin 4) s, s.live = true → (s.chain c.val).st = .walk →
    (slotWalk c.val s = true → walkSlot s = true ∧ s.ill.pulseUsed = false ∧ (s.chain c.val).walkSteps = 2) →
    ∀ fail, ∃ t, exec (.startupWalkDone c fail) s = .next t ∧
      t.ill.walkCnt = (if slotWalk c.val s then sat s.ill.walkCnt else satN s.ill.walkCnt (3 - (s.chain c.val).walkSteps)) ∧
      (t.chain c.val).st = (if fail = none then .discover else .fault) ∧
      t.ill.walkFailCnt = (if fail = none then s.ill.walkFailCnt else sat s.ill.walkFailCnt)) ∧
  (∀ (c : Fin 4) d ids s, s.live = true → (s.chain c.val).st = .discover →
    ((s.chain c.val).stage = 0 → d % 40 = 0 → 1 ≤ d / 40 → d / 40 ≤ 32 → ((s.chain c.val).nExpect = 0 ∨ d / 40 = (s.chain c.val).nExpect) →
      ids.length = d / 40 → ids.all idOk = true → ∃ t, exec (.discoverDone c d ids) s = .next t ∧ (t.chain c.val).st = .discover ∧
        (t.chain c.val).stage = 1 ∧ (t.chain c.val).n = d / 40 ∧ (t.chain c.val).cmd = (s.chain c.val).cmd ∧
        ∀ i, i < d / 40 → (nth t.ill.drivers (c.val * 32 + i)).id = ids.getD i 0) ∧
    ((s.chain c.val).stage = 0 → d % 40 ≠ 0 ∨ ids.length ≠ d / 40 → ∃ t, exec (.discoverDone c d ids) s = .next t ∧
      (t.chain c.val).st = .fault ∧ (t.chain c.val).sticky.getLsbD 1 = true) ∧
    (∃ t, exec (.discoverTimeout c) s = .next t ∧ (t.chain c.val).st = .fault ∧ (t.chain c.val).en = false ∧
      (t.chain c.val).sticky.getLsbD 1 = true)) ∧
  (∀ s, walkSlot s = true →
    (startupStep s = none → tableChange s = false → walkDue ((diagMark s).getD 0 + 7000) s = true → ∃ t, exec (.walkStep none) s = .next t ∧
      t.ill.walkCnt = sat s.ill.walkCnt ∧ t.ill.walkUsed = true ∧ t.ill.walkFailCnt = s.ill.walkFailCnt ∧ t.ill.walkAt = s.ns) ∧
    (∀ c, startupStep s = some c → s.ill.pulseUsed = false → ∃ t, exec (.walkStep none) s = .next t ∧
      t.ill.walkCnt = sat s.ill.walkCnt ∧ t.ill.walkUsed = true ∧ (t.chain c).walkSteps = (s.chain c).walkSteps + 1)) ∧
  (∀ (i : Fin 24) mv s, s.live = true → (nth s.ill.strs i.val).enable = true → (nth s.ill.strs i.val).measured = false →
    eligible (nth s.ill.strs i.val) s = true → senseStale s = false → ∃ t, exec (.stringMeasurement i mv false) s = .next t ∧
    (nth t.ill.strs i.val).volt = mv ∧ (nth t.ill.strs i.val).measured = true ∧
    (mv < (nth s.ill.strs i.val).vOpen → (nth s.ill.strs i.val).vShort ≤ mv →
      (nth t.ill.strs i.val).openRun = 0 ∧ (nth t.ill.strs i.val).shortRun = 0 ∧ (nth t.ill.strs i.val).faultCnt = (nth s.ill.strs i.val).faultCnt) ∧
    ((nth s.ill.strs i.val).vOpen ≤ mv → (nth t.ill.strs i.val).faultCnt = sat (nth s.ill.strs i.val).faultCnt ∧
      ((nth s.ill.strs i.val).openRun + 1 = (nth s.ill.strs i.val).confirm →
        (nth t.ill.strs i.val).st = .opened ∧ (nth t.ill.strs i.val).acting = true ∧ t.ill.strOpen.getLsbD i.val = true)) ∧
    (mv < (nth s.ill.strs i.val).vOpen → mv < (nth s.ill.strs i.val).vShort → (nth s.ill.strs i.val).shortRun + 1 = (nth s.ill.strs i.val).confirm →
      (nth t.ill.strs i.val).st = .shorted ∧ (nth t.ill.strs i.val).acting = true ∧ t.ill.strShort.getLsbD i.val = true)) ∧
  (∀ s, s.live = true → markPast 1000 s = true → markPast 2000 s = false → s.ill.pulseUsed = false → s.ill.walkUsed = false → s.blanked = false → tableChange s = false →
    ∃ t, exec .diagPulse s = .next t ∧
    ∀ i, i < 24 → (nth t.ill.strs i).pulseCnt = if i ∈ firing (pulsesDue s) s then sat (nth s.ill.strs i).pulseCnt else (nth s.ill.strs i).pulseCnt) ∧
  (∀ s, s.live = true → (∃ c, c < 4 ∧ chainRuns c s = true) → Goes .diagStarved s (s.onIll fun i => { i with
    starvedCnt := sat i.starvedCnt, sticky := i.sticky ||| 1 }))

/-- In a live device with the engine clock good: a time or tick trigger of a running loop that is due joins the queue of
triggers (its order is that of arrival, then of loop number), or counts an overrun when the loop's last one still waits
there. The step at the head of the queue of a running loop whose destination is inactive is skipped and counted; else it is
taken, counted as a sample. A PWM output at the start of a period takes settings that wait and the value of its group.
[05_control_loops.md R176, R191, R193, R200] -/
def Obligations.LoopEventsStepAndTrigger : Prop :=
  (∀ (n : Fin 64) s, s.live = true → s.cle.clockLost = false → (s.loop n.val).running = true →
    (trigDue (s.loop n.val) s = true → trigPending n.val s = false → exec (.loopTrigger n) s = .next ((s.onLoop n.val (trigMade s)).onCle
      fun x => { x with queue := enqueue (s.ns, n.val) x.queue })) ∧
    (trigDue (s.loop n.val) s = true → trigPending n.val s = true → Goes (.loopTrigger n) s ((s.onLoop n.val fun l => { trigMade s l with
      overrunCnt := sat l.overrunCnt, sticky := l.sticky ||| 4 }).onCle fun x => { x with sticky := x.sticky ||| 4 })) ∧
    (trigDue (s.loop n.val) s = false → exec (.loopTrigger n) s = .next s)) ∧
  (∀ (n : Fin 64) xs s, s.live = true → s.cle.clockLost = false → (s.loop n.val).running = true → stepNext n.val s = true →
    let w := s.onCle fun x => { x with queue := x.queue.filter fun y => y.2 != n.val }
    (destInactive n.val w = true → exec (.loopStep n xs) s = .next (w.onLoop n.val fun l => { l with
      skipped := true, skipCnt := sat l.skipCnt })) ∧
    (destInactive n.val w = false → ∃ t, exec (.loopStep n xs) s = .next t ∧ (t.loop n.val).sampleCnt = sat (s.loop n.val).sampleCnt ∧
      trigPending n.val t = false ∧ (t.loop n.val).skipCnt = (s.loop n.val).skipCnt)) ∧
  (∀ (n : Fin 8) s, s.live = true → ∃ t, exec (.pwmPeriodStart n) s = .next t ∧ (nth t.cle.pwms n.val).next = none ∧
    (pwmFailsafe s = true → (nth t.cle.pwms n.val).duty = (nth t.cle.pwms n.val).failsafe ∧ (nth t.cle.pwms n.val).failsafeOn = true) ∧
    (pwmFailsafe s = false → (nth t.cle.pwms n.val).enable = false → (nth t.cle.pwms n.val).duty = 0) ∧
    (∀ f fs en hi, (nth s.cle.pwms n.val).next = some (f, fs, en, hi) → (nth t.cle.pwms n.val).carrier = f ∧
      (nth t.cle.pwms n.val).failsafe = fs ∧ (nth t.cle.pwms n.val).enable = en ∧ (nth t.cle.pwms n.val).activeHigh = hi))

/-- In a live device: SAFE_BLANK_N low raises source 0 and puts the safe state in force; high drops it, and the safe state
lasts while another demands it. An interlock that opens latches source 1 or 2; it stays raised when it closes, until both
have been closed for 10 ms. Inputs that differ are counted. The oldest version in the queue that agrees becomes ready, a
version that no band took is counted as skipped, one that disagrees raises source 9; the mask load that made either
completes. [06_exclusion_and_symbols.md R213, R215, R222, R225, R226, R227, R230] -/
def Obligations.BlankInputsRaiseAndDropTheirSources : Prop :=
  (∀ s, s.live = true → safeAgrees s.xcl = true → ∃ t, exec .safeBlankNFall s = .next t ∧ t.xcl.blankIn = false ∧ t.xcl.safe = true ∧ t.xcl.active.getLsbD 0 = true ∧
    t.xcl.latch = s.xcl.latch) ∧
  (∀ s, s.live = true → exec .safeBlankNRise s = .next (s.onXcl fun x => { x with
    blankIn := true, active := x.active &&& ~~~1, safe := x.latch != 0 || x.active.getLsbD 7 })) ∧
  (∀ (b : Fin 2) s, s.live = true → ∃ t, exec (.ilockOpen b) s = .next t ∧ t.xcl.safe = true ∧
    t.xcl.active.getLsbD (1 + b.val) = true ∧ t.xcl.latch.getLsbD (1 + b.val) = true ∧
    (if b.val = 0 then t.xcl.ilockA else t.xcl.ilockB) = false) ∧
  (∀ (b : Fin 2) s, exec (.ilockClose b) s = .next (s.onXcl fun x => { x with
    ilockA := x.ilockA || b.val == 0, ilockB := x.ilockB || b.val == 1 })) ∧
  (∀ s, s.live = true → s.xcl.ilockA = true → s.xcl.ilockB = true → ∃ t, exec .ilockClosed10ms s = .next t ∧
    t.xcl.active = s.xcl.active &&& ~~~6 ∧ t.xcl.latch = s.xcl.latch) ∧
  (∀ s, s.live = true → s.xcl.ilockA ≠ s.xcl.ilockB → Goes .ilockDisc s (s.onXcl fun x => { x with
    discCnt := sat x.discCnt, sticky := x.sticky ||| 0x1000 })) ∧
  (∀ (p : Fin 4) v h rest s, s.live = true → (s.xset p.val).queue = (v, h) :: rest →
    (∃ t, exec (.xclVersionReady p true) s = .next t ∧ (t.xset p.val).queue = rest ∧ (t.xset p.val).ready = v ∧ (t.xset p.val).lastOk = true ∧
      (t.xset p.val).skipCnt = if (s.xset p.val).taken then (s.xset p.val).skipCnt else sat (s.xset p.val).skipCnt) ∧
    (∃ t, exec (.xclVersionReady p false) s = .next t ∧ (t.xset p.val).queue = rest ∧ (t.xset p.val).lastOk = false ∧ t.xcl.safe = true ∧
      t.xcl.active.getLsbD 9 = true ∧ (t.xset p.val).maskCopies = (s.xset p.val).maskCopies) ∧
    ∀ b c t, h = some c → exec (.xclVersionReady p b) s = .next t → ∀ x ∈ t.hif.awaiting, x.jseq ≠ c.jseq)

/-- In a live device a filled slicer drains. At the end of its drain, counted, with its 16 bursts unless its frame was
dropped, its rows stand in the bit planes of its buffer unless its frame was dropped, and it rests or is off. When no band of
the frame is left the buffer is complete and counted, and is the view's newest. A band that is offered to an idle slicer with
a buffer to take it fills the slicer and is no longer offered; with its last band a frame has completed in the fabric,
counted. [07_slicer_and_plane_store.md R242, R243, R244, R249, R250] -/
def Obligations.SlicersFillDrainAndWriteTheirPlanes : Prop :=
  (∀ (i : Fin 8) s, s.live = true → (s.slicer i.val).st = .fill →
    exec (.slicerFillDone i) s = .next (s.onSlicer i.val fun q => { q with st := .drain })) ∧
  (∀ (i : Fin 8) s, s.live = true → (s.slicer i.val).st = .drain → ∃ t, exec (.slicerDrainDone i) s = .next t ∧
    (t.slicer i.val).st = (if (s.slicer i.val).offAfter then .off else .idle) ∧
    ((s.slicer i.val).offAfter = false → (t.slicer i.val).bandCnt = sat (s.slicer i.val).bandCnt ∧
      (t.slicer i.val).burstCnt = if (s.slicer i.val).dropped then (s.slicer i.val).burstCnt else satN (s.slicer i.val).burstCnt 16) ∧
    ((s.slicer i.val).dropped = true → t.mem = s.mem ∧ t.slc.stores = s.slc.stores) ∧
    ((s.slicer i.val).dropped = false → t.mem = (writeBand (s.slicer i.val) s).mem ∧
      let v := (s.slicer i.val).view.toNat
      let b := (s.slicer i.val).buf
      v < 5 → ((s.store v).bufs.getD b {}).left =
          [(colourSlot (s.store v).colours (s.slicer i.val).primary.toNat, (s.slicer i.val).band.toNat)] →
        (t.store v).frameCnt = sat (s.store v).frameCnt ∧ (t.store v).newest = some (b, s.frame.truncate 28))) ∧
  (∀ (v : Fin 5) s g i, fabRuns s = true → (s.fview v.val).frame = some g → idleSlicer s = some i → g.offered < g.done → 0 < g.offered →
    (∃ k, slicingBuf v.val g.id s = some k) → ∃ t, exec (.slicerBandOffer v) s = .next t ∧ (t.slicer i).st = .fill ∧
      (t.slicer i).view = BitVec.ofNat 3 v.val ∧
      (t.slicer i).band = BitVec.ofNat 7 (g.offered / colourCount (s.store v.val).colours) ∧
      (g.offered + 1 < bandsOf (s.store v.val).height * colourCount (s.store v.val).colours →
        (t.fview v.val).frame = some { g with offered := g.offered + 1 }) ∧
      (g.offered + 1 = bandsOf (s.store v.val).height * colourCount (s.store v.val).colours →
        (t.fview v.val).frame = none ∧ (t.fview v.val).frameCnt = sat (s.fview v.val).frameCnt))

/-- A locked back channel that is lost or silent unlocks its octet, counted; one absent while its octet seeks lock sets its
bit. An end of idle lets an allotted octet of an enabled port start, a training that fails fails its octets and its restart
wakes them, a lane map moves its pass on, an unanswered request counts, and commands that wait for READY complete with
TIMEOUT. An ACK that answers no reset counts as stray, one that confirms counts and ends the run, one that refuses or
disagrees counts with its cause, one missing 10 µs after its changeover counts; STATUS, ERRCNT, TEMP, DEFECT, SCAN and PARK
messages enter what they carry, and a scan that completes replaces the map. A back-channel frame with bad stuffing counts,
good ones lead to lock at the third, and a locked receiver takes the words of a message frame. [08_array_link.md R284, R289,
R291, R292, R293, R297; 09_array_health.md R301, R304, R308, R311, R313, R316, R319, R320, R321, R322] -/
def Obligations.LinkEventsAndArrayMessages : Prop :=
  (∀ (k : Fin 16) s, (s.octet k.val).allotted = true → (s.octet k.val).st.aligned = true → (s.octet k.val).bcLocked = true →
    ∀ i ∈ [Instr.bcLockLost k, .bcSilence k], ∃ t, exec i s = .next t ∧ (t.octet k.val).bcLossCnt = sat (s.octet k.val).bcLossCnt ∧
      (t.octet k.val).bcLocked = false ∧ (t.octet k.val).sticky.getLsbD 1 = true) ∧
  (∀ (k : Fin 16) s, (s.octet k.val).st = .bcLock ∨ ((s.octet k.val).allotted = true ∧ (s.octet k.val).st.aligned = true ∧
    (s.octet k.val).bcLocked = false) → Goes (.bcAbsent k) s (s.onOctet k.val fun o => { o with sticky := o.sticky ||| 8 })) ∧
  (∀ (k : Fin 16) s, (s.octet k.val).allotted = true → (s.port (s.octet k.val).port.toNat).enable = true →
    (s.octet k.val).st = .electricalIdle → (s.octet k.val).failed = false → (nth s.glk.quads (k.val / 4)).bad = false →
    ∃ t, exec (.electricalIdleEnd k) s = .next t ∧ (t.octet k.val).st = .bcLock ∧ (t.octet k.val).epoch = (s.octet k.val).epoch + 1) ∧
  (∀ (p : Fin 4) s, (∃ k ∈ octetsOf p.val s, (s.octet k).failed = true) → ∃ t, exec (.trainRestart p) s = .next t ∧
    ∀ k ∈ octetsOf p.val s, (t.octet k).failed = false ∧ ((s.octet k).failed = true → (s.port p.val).enable = true →
      (s.octet k).st = .electricalIdle → (s.octet k).idleWait = false → (nth s.glk.quads (k / 4)).bad = false → (t.octet k).st = .bcLock)) ∧
  (∀ (p : Fin 4) s, octetsOf p.val s ≠ [] → (∀ k ∈ octetsOf p.val s, (s.octet k).st = .fwdTrain ∧ (s.octet k).pass2 = false) →
    isAsked p.val 1 s = false → exec (.trainPass1End p) s = .next (sendCtrl p.val 1 0 s)) ∧
  (∀ (p : Fin 4) s, (∃ k ∈ octetsOf p.val s, (s.octet k).st = .fwdTrain ∧ (s.octet k).pass2 = true) → ∃ t, exec (.trainFail p) s = .next t ∧
    ∀ k ∈ octetsOf p.val s, (s.octet k).st.aligned = true → (s.octet k).st ≠ .ready → (t.octet k).st = .electricalIdle ∧ (t.octet k).failed = true ∧
      (t.octet k).sticky.getLsbD 2 = true) ∧
  (∀ (p : Fin 4) ws s, isAsked p.val 1 s = true → octetsOf p.val s ≠ [] → ws.length = 2 * (octetsOf p.val s).length →
    (∀ k ∈ octetsOf p.val s, (s.octet k).st = .fwdTrain) →
    ((∀ k ∈ octetsOf p.val s, (s.octet k).pass2 = true) →
      (map2Ok p.val ws (answered p.val 1 s) = true → ∃ t, exec (.lanemap p ws) s = .next t ∧ ∀ k ∈ octetsOf p.val s, (t.octet k).st = .capsWait) ∧
      (map2Ok p.val ws (answered p.val 1 s) = false → exec (.lanemap p ws) s = .next (sendCtrl p.val 1 0 (answered p.val 1 s)))) ∧
    ((∃ k ∈ octetsOf p.val s, (s.octet k).pass2 = false) →
      (map1Ok p.val ws (answered p.val 1 s) = true → ∃ t, exec (.lanemap p ws) s = .next t ∧ ∀ k ∈ octetsOf p.val s, (t.octet k).pass2 = true) ∧
      (map1Ok p.val ws (answered p.val 1 s) = false → ∃ t, exec (.lanemap p ws) s = .next t ∧
        ∀ k ∈ octetsOf p.val s, (t.octet k).st = .electricalIdle ∧ (t.octet k).failed = true))) ∧
  (∀ (p : Fin 4) ws s, ws.length = 4 * (octetsOf p.val s).length → ∃ t, exec (.errcnt p ws) s = .next t ∧
    ∀ a k i, a < (octetsOf p.val s).length → octetAt p.val a s = some k → i < 8 →
      (nth (t.octet k).lanes i).crcCnt.toNat = max (nth (s.octet k).lanes i).crcCnt.toNat
        (let q := (nth (s.octet k).lanes i).pos.toNat
         field (ws.getD (4 * a + q / 2) 0).toNat (16 * (q % 2)) 16)) ∧
  (∀ (p : Fin 4) op s, isAsked p.val op.toNat s = true → ∃ t, exec (.ctrlTimeout p op) s = .next t ∧
    ∀ k ∈ octetsOf p.val s, (t.octet k).ctrlToCnt = sat (s.octet k).ctrlToCnt ∧ (t.octet k).sticky.getLsbD 7 = true) ∧
  (∀ s, (∀ h, s.glk.running = some h → ∃ t, exec (.linkReadyTimeout none) s = .next t ∧ t.glk.running = none ∧
      (s.mgt.st ≠ .recovery → ∃ e rest, t.hif.journal = e :: rest ∧ e.kind = .complete ∧ e.ref = h.jseq ∧ e.status = .timeout)) ∧
    ∀ (k : Fin 16) h cs, (s.octet k.val).cmds = h :: cs → ∃ t, exec (.linkReadyTimeout (some k)) s = .next t ∧
      onlyReports (s.onOctet k.val fun o => { o with cmds := cs }) t ∧ (s.mgt.st ≠ .recovery → ∃ e rest, t.hif.journal = e :: rest ∧ e.kind = .complete ∧ e.ref = h.jseq ∧ e.status = .timeout)) ∧
  (∀ (p : Fin 4) w1 w2 s,
    ((∀ e ∈ (s.link p.val).sent, e.rseq.toNat ≠ field w1.toNat 20 8 ∨ e.band.toNat ≠ field w1.toNat 28 4) →
      Goes (.ack p w1 w2) s (s.onArr p.val fun a => { a with strayCnt := sat a.strayCnt, sticky := a.sticky ||| 0x10 })) ∧
    (∀ e, ((s.link p.val).sent.find? fun e => e.rseq.toNat == field w1.toNat 20 8 && e.band.toNat == field w1.toNat 28 4) = some e →
      let c := ackClass ((s.arr p.val).st == .parked) (bitOf w1.toNat 19) (bitOf w1.toNat 18) (w2 == e.witness)
      ∃ t, exec (.ack p w1 w2) s = .next t ∧ (t.link p.val).sent = (s.link p.val).sent.erase e ∧
        (c = .confirmed → (t.arr p.val).ackCnt = sat (s.arr p.val).ackCnt ∧ (t.arr p.val).run = 0) ∧
        (c = .refused → (t.arr p.val).mismatchCnt = sat (s.arr p.val).mismatchCnt ∧ (t.arr p.val).bandCause = 0xFFFF ∧
          (t.arr p.val).sticky.getLsbD 0 = true) ∧
        (c = .disagree → (t.arr p.val).disagreeCnt = sat (s.arr p.val).disagreeCnt ∧ (t.arr p.val).latched = true ∧
          (t.arr p.val).sticky.getLsbD 1 = true) ∧
        (c = .park → (t.arr p.val).ackCnt = (s.arr p.val).ackCnt ∧ (t.arr p.val).run = (s.arr p.val).run))) ∧
  (∀ (p : Fin 4) s,
    ((∃ e ∈ (s.link p.val).sent, (∀ f ∈ (s.link p.val).sent, e.due ≤ f.due) ∧ e.due + 10000 ≤ s.ns) →
      ∃ t, exec (.ackMissing p) s = .next t ∧
      (t.arr p.val).ackMissCnt = sat (s.arr p.val).ackMissCnt ∧ (t.arr p.val).sticky.getLsbD 2 = true ∧ (t.arr p.val).bandCause = 0xFFFF ∧
      (t.arr p.val).run = (if (s.arr p.val).run = 255 then 255 else (s.arr p.val).run + 1) ∧
      (t.link p.val).sent.length + 1 = (s.link p.val).sent.length) ∧
    ((∀ e ∈ (s.link p.val).sent, s.ns < e.due + 10000) → exec (.ackMissing p) s = .next s)) ∧
  (∀ (p : Fin 4) ws s, heard p.val s = true → ∃ t, exec (.defect p ws) s = .next t ∧
    (t.arr p.val).map = (ws.foldl (fun s w => addDefect p.val true (parseDefect w) s) s).ahm.arrays[p].map ∧
    ((s.arr p.val).map.length + ws.length ≤ mapSize → ∀ w ∈ ws, parseDefect w ∈ (t.arr p.val).map)) ∧
  (∀ (p : Fin 4) ws s,
    (ws.length ≠ (octetsOf p.val s).length + 1 → exec (.status p ws) s = .next s) ∧
    (ws.length = (octetsOf p.val s).length + 1 → field (ws.headD 0).toNat 24 8 = (octetsOf p.val s).length →
      ∀ a k q, a < (octetsOf p.val s).length → octetAt p.val a s = some k → (s.octet k).st = .ready →
        (∀ i, i < 8 → (nth (s.octet k).lanes i).pos.toNat = i) → q < 8 → ∃ t, exec (.status p ws) s = .next t ∧
          (nth (t.octet k).lanes q).locked = bitOf (ws.getD (a + 1) 0).toNat q)) ∧
  (∀ (p : Fin 4) s, (s.arr p.val).mapDirty = true → (s.arr p.val).capsValid = true → ∃ t, exec (.defectMapSave p) s = .next t ∧
    (t.arr p.val).mapDirty = false ∧ ∃ m ∈ t.ahm.saved, m.serial = serialOf p.val s ∧ m.entries = (s.arr p.val).map) ∧
  (∀ (p : Fin 4) ws s, isAsked p.val 2 s = true → ws.length = 16 → octetsOf p.val s ≠ [] → (∀ k ∈ octetsOf p.val s, (s.octet k).st = .capsWait) →
    (capsFail p.val ws (answered p.val 2 s) ≠ 0 → ∃ t, exec (.caps p ws) s = .next t ∧
      (t.arr p.val).capsRefuseCnt = sat (s.arr p.val).capsRefuseCnt ∧ (t.arr p.val).capsValid = (s.arr p.val).capsValid ∧
      (t.arr p.val).capsCause.toNat = capsFail p.val ws (answered p.val 2 s) ∧
      ∀ k ∈ octetsOf p.val s, (t.octet k).st = .electricalIdle ∧ (t.octet k).failed = true) ∧
    (capsFail p.val ws (answered p.val 2 s) = 0 → ∃ t, exec (.caps p ws) s = .next t ∧ (t.arr p.val).capsValid = true ∧
      (∀ i, i < 16 → nth (t.arr p.val).caps i = ws.getD i 0))) ∧
  (∀ (p : Fin 4) w s, heard p.val s = true → ∃ t, exec (.temp p w) s = .next t ∧ (t.arr p.val).temp = w.truncate 16 ∧
    (t.arr p.val).tempStale = false ∧ ((s.arr p.val).capsValid = true →
      (BitVec.ofNat 16 (capsWord (s.arr p.val) 5)).toInt ≤ (w.truncate 16 : BitVec 16).toInt → (t.arr p.val).sticky.getLsbD 9 = true)) ∧
  (∀ (p : Fin 4) s, (s.arr p.val).st = .present → Goes (.tempStale p) s (s.onArr p.val fun a => { a with
    tempStale := true, sticky := a.sticky ||| 0x400 })) ∧
  (∀ (p : Fin 4) ws s, (s.arr p.val).scanRun.isSome = true →
    exec (.scanData p ws) s = .next (s.onArr p.val fun a => { a with scanData := a.scanData ++ ws })) ∧
  (∀ (p : Fin 4) w1 w2 w3 s, (s.arr p.val).scanRun.isSome = true → ∃ t, exec (.scanDone p w1 w2 w3) s = .next t ∧
    (t.arr p.val).scanRun = none ∧ (t.arr p.val).scanData = [] ∧
    (w3.getLsbD 0 = false → w1.toNat = (s.arr p.val).scanData.length → crc32c ((s.arr p.val).scanData.flatMap beBytes) = w2 →
      (t.arr p.val).scanCnt = sat (s.arr p.val).scanCnt ∧
      (∀ e ∈ (t.arr p.val).map, ∃ w ∈ (s.arr p.val).scanData, e = parseDefect w) ∧
      ((s.arr p.val).scanData.length ≤ mapSize → ∀ w ∈ (s.arr p.val).scanData, parseDefect w ∈ (t.arr p.val).map)) ∧
    (w3.getLsbD 0 = true → (t.arr p.val).map = (s.arr p.val).map) ∧
    ∀ h, (s.arr p.val).scanRun = some h → ∀ x ∈ t.hif.awaiting, x.jseq ≠ h.jseq) ∧
  (∀ (p : Fin 4) w s, exec (.scanState p w) s = .next (answered p.val 0x20 s)) ∧
  (∀ (p : Fin 4) s, (s.arr p.val).scanRun.isSome = true → ∃ t, exec (.scanTimeout p) s = .next t ∧ (t.arr p.val).scanRun = none ∧
    (t.arr p.val).map = (s.arr p.val).map ∧ ∀ h, (s.arr p.val).scanRun = some h → ∀ x ∈ t.hif.awaiting, x.jseq ≠ h.jseq) ∧
  (∀ (p : Fin 4) w s, heard p.val s = true → ∃ t, exec (.parkState p w) s = .next t ∧
    ((t.arr p.val).parkHeard = w.getLsbD 0) ∧ (∀ h hs, isAsked p.val 0x22 s = true → (s.arr p.val).parkWait = h :: hs →
      (t.arr p.val).parkWait = hs)) ∧
  (∀ (k : Fin 16) bits s, (s.octet k.val).allotted = true → (s.octet k.val).st ≠ .electricalIdle →
    24 ≤ bits.length → ofMsb (bits.take 24) = syncWord →
    let f := readFrame ((bits.drop 24).map fun b => b != false)
    let good := f.stuffOk = true ∧ f.crcOk = true ∧ (f.type = 1 ∨ f.type = 2 ∨ f.type = 3 ∨ f.type = 4)
    ((s.octet k.val).bcLocked = false → f.stuffOk = false → ∃ t, exec (.bcFrameReceived k bits) s = .next t ∧
      (t.octet k.val).bcStuffCnt = sat (s.octet k.val).bcStuffCnt ∧ (t.octet k.val).bcCrcCnt = sat (s.octet k.val).bcCrcCnt ∧
      (t.octet k.val).bcGood = 0) ∧
    ((s.octet k.val).bcLocked = false → (s.octet k.val).bcGood = 0 → good → exec (.bcFrameReceived k bits) s =
      .next (s.onOctet k.val fun o => { o with bcBad := 0, bcGood := 1, bcInv := false })) ∧
    ((s.octet k.val).bcLocked = false → (s.octet k.val).bcGood = 2 → (s.octet k.val).bcInv = false → (s.octet k.val).st = .ready → good →
      ∃ t, exec (.bcFrameReceived k bits) s = .next t ∧ (t.octet k.val).bcLocked = true) ∧
    ((s.octet k.val).bcLocked = true → (s.octet k.val).bcInv = false → good → f.type = 4 → exec (.bcFrameReceived k bits) s =
      .next (f.words.foldl (gotWord k.val) (s.onOctet k.val fun o => { o with bcBad := 0 }))))

/-- In a live device: a view whose previous frame is still composed counts a skip at a start instant; another starts its
frame with the layers in force, or is late for its symbols, counted. The end of composition counts the frame and leaves the
compositor free. A cluster whose domain is on ends its load with its memories filled, in its place (active in a chain in
force), and its drain OFF; an uncorrectable SRAM error counts, empties its memories and leaves it FAULTED. Fabric bands start
with the canvas rows they need, read through port 3, and finish in their counts, the last stage waiting while its band has
not been taken; a frame that nothing references is counted and left; a symbol render whose glyphs read well is taken on,
never into a surface that a frame composes from, and completes into it. [10_composition.md R331, R333, R343;
11_pixel_fabric.md R372, R374, R376, R377, R378, R382, R385, R387, R388] -/
def Obligations.FramesAreComposedAndProcessed : Prop :=
  (∀ (v : Fin 5) f s, s.live = true → s.fab.stopped = false → s.pictureStops = false → (s.cview v.val).committed = true →
    composes v.val (s.cview v.val).cfg s = true → f.toNat < framesOf v.val s →
    ((s.cview v.val).composing.isSome = true → Goes (.cmpFrameStart v f) s (s.onCview v.val fun x => { x with
      skipCnt := sat x.skipCnt, sticky := x.sticky ||| 1 })) ∧
    ((s.cview v.val).composing = none → symbLate v.val (startPeriod v.val f.toNat 0 s) f.toNat s = true →
      Goes (.cmpFrameStart v f) s (s.onFview v.val fun x => { x with symbLateCnt := sat x.symbLateCnt, sticky := x.sticky ||| 4 })) ∧
    ((s.cview v.val).composing = none → symbLate v.val (startPeriod v.val f.toNat 0 s) f.toNat s = false →
      ∃ t c, exec (.cmpFrameStart v f) s = .next t ∧ (t.cview v.val).composing = some c ∧ c.fofs = f ∧ c.cfg = (s.cview v.val).cfg ∧
        c.period = BitVec.ofNat 64 (startPeriod v.val f.toNat 0 s) ∧
        c.layers = ((pipesOf v.val s).map fun i => (i, (s.pipe i).layer)).filter fun l => l.2.enable)) ∧
  (∀ (v : Fin 5) c s, s.live = true → (s.cview v.val).composing = some c → ∃ t, exec (.cmpFrameDone v) s = .next t ∧
    (t.cview v.val).composing = none ∧ (t.cview v.val).frameCnt = sat (s.cview v.val).frameCnt ∧
    t.mem.plane = s.mem.plane ∧ t.mem.reserve = s.mem.reserve) ∧
  (∀ (n : Fin 64) s, s.live = true → (s.cluster n.val).loading = true →
    (domainOn n.val s = true → Goes (.clusterLoadDone n) s (s.onCluster n.val fun c => {
      loadSram c.slot.toNat (clusterImage n.val s) c with
      loaded := true, cmds := [], st := if c.assigned = false then .drain else if inForce n.val s then .active else .standby })) ∧
    (domainOn n.val s = false → exec (.clusterLoadDone n) s = .next s)) ∧
  (∀ (n : Fin 64) s, s.live = true → (s.cluster n.val).st = .drain → (s.cluster n.val).cmds = [] → clusterBusy n.val s = false → ∃ t, exec (.clusterDrainDone n) s = .next t ∧
    (t.cluster n.val).st = .off ∧ (t.cluster n.val).epoch = (s.cluster n.val).epoch ∧ (t.cluster n.val).assigned = false) ∧
  (∀ (n : Fin 64) s, s.live = true → (s.cluster n.val).st ≠ .off → ∃ t, exec (.fabSramUe n) s = .next t ∧
    (t.cluster n.val).ueCnt = sat (s.cluster n.val).ueCnt ∧ t.fab.sticky.getLsbD 0 = true ∧
    (t.cluster n.val).st = .faulted ∧ (t.cluster n.val).engines = Vector.replicate 8 {} ∧ (t.cluster n.val).loaded = false) ∧
  (∀ (v : Fin 5) s, fabRuns s = true → chainLive v.val s = true →
    (∀ g, (s.fview v.val).frame = some g → stagesServed g.chain s = true → g.started < bandsOf (s.store v.val).height →
      exec (.fabBandStart v) s = .next (enterBand v.val g s) ∧
      (s.mem.fenced = 0 → s.mem.poison = [] →
        ((enterBand v.val g s).fview v.val).frame = some { g with started := g.started + 1 })) ∧
    (∀ g, (s.fview v.val).frame = none → nextFrame v.val s = some g →
      (isReferenced v.val g.fofs.toNat s = true → stagesServed (s.fview v.val).chain s = true →
        exec (.fabBandStart v) s = .next (enterFrame v.val g s)) ∧
      (isReferenced v.val g.fofs.toNat s = false → g.composed = true → exec (.fabBandStart v) s = .next (s.onFview v.val fun f => { f with
        waiting := none, unrefCnt := sat f.unrefCnt }))) ∧
    (∀ g, (s.fview v.val).frame = some g → g.offered < g.done → exec (.fabBandDone v) s = .next s) ∧
    (∀ g, (s.fview v.val).frame = some g → stagesServed g.chain s = true → g.done < g.started * colourCount (s.store v.val).colours →
      g.done ≤ g.offered → ∃ t, exec (.fabBandDone v) s = .next t ∧ (t.fview v.val).frame = some { g with done := g.done + 1 } ∧
        (t.fview v.val).frameCnt = (s.fview v.val).frameCnt)) ∧
  (∀ (v : Fin 5) f s a, fabRuns s = true → symbServed v.val s = true → (s.fview v.val).symbRun = none → f.toNat < framesOf v.val s →
    (s.fview v.val).symbSurf[symbTarget v.val s]? = some a →
    let r := readGlyphs (nth s.xcl.symList v.val) s
    (r.2 = true → exec (.symbRenderStart v f) s = .next r.1) ∧
    (r.2 = false → ∃ t b, exec (.symbRenderStart v f) s = .next t ∧ t = (portWrite { port := 3, addr := a } b r.1).onFview v.val fun x => { x with
      symbRun := some (BitVec.ofNat 64 (startPeriod v.val f.toNat (16777216 / framesOf v.val s) s), f), symbTo := symbTarget v.val s
      symbDone := if symbTarget v.val s = x.symbIdx then none else x.symbDone })) ∧
  (∀ (v : Fin 5) s c a, (s.cview v.val).composing = some c → c.symb = some a →
    (s.fview v.val).symbSurf[(s.fview v.val).symbIdx]? ≠ (s.fview v.val).symbSurf[1 - (s.fview v.val).symbIdx]? →
    (s.fview v.val).symbSurf[symbTarget v.val s]? ≠ some a) ∧
  (∀ (v : Fin 5) s r, fabRuns s = true → (s.fview v.val).symbRun = some r → exec (.symbRenderDone v) s = .next (s.onFview v.val fun f => { f with
    symbRun := none, symbDone := some r, symbIdx := f.symbTo }))

/-- While memory serves: a write request that no protection or fence refuses, with no other waiting and its bank ready,
stores its 32 bytes at its aligned address, and every other byte reads as before; one whose bank is not ready waits and
stores nothing. The requests of a port over their age limit are promoted and counted, banks idle long enough and refreshed
banks close, ranks idle long enough power down, ranks enter self-refresh, return to it when idle after a request woke them,
and leave it. A scrub pass, its interval over, counts; a migration starts (a further one is refused with NO_SPARE), copies
row by row, each at its time, and at the last row maps the rank to the spare. Retraining starts outside the temperatures of
the settings, passes its 561 gaps, at most two pseudo-channels in one at once and a channel's requests waiting for it, and
ends with a setting near the one in force (assumption 120), or fencing a pseudo-channel without a setting; boot training adds
the channels that fail it to the fenced and leaves memory READY or, with more than 8 fenced, FAILED. [12_memory.md R397,
R403, R407, R412, R413, R415, R416, R418, R419, R420, R421, R422] -/
def Obligations.MemoryEventsServeAndMaintain : Prop :=
  (∀ q s d, memServes s = true → MemReq.inRegion q s.mem = true → s.mem.waiting = [] → q.waitNs = 0 → q.data = some d →
    (nth s.mem.pcs (MemReq.place q s.mem).pc).gapUntil ≤ s.ns →
    Memory.wf s.mem = true → ∃ t, exec (.memRequest q) s = .next t ∧ t.mem.waiting = [] ∧
    let cells (sp : MemSpace) (m : Mem) := match sp with | .plane => m.plane | .general => m.general | .reserve => m.reserve
    (protRefused (MemReq.whole q) s = false → s.mem.fenced.getLsbD (MemReq.place (MemReq.whole q) s.mem).pc = false → ∀ a,
      memGet (cells q.space t.mem) a =
        if q.addr / 32 * 32 ≤ a ∧ a < q.addr / 32 * 32 + 32 then (slice d 0 32).getD (a - q.addr / 32 * 32) 0
        else memGet (cells q.space s.mem) a) ∧
    (protRefused (MemReq.whole q) s = true ∨ s.mem.fenced.getLsbD (MemReq.place (MemReq.whole q) s.mem).pc = true → cells q.space t.mem = cells q.space s.mem) ∧
    ∀ sp, sp ≠ q.space → cells sp t.mem = cells sp s.mem) ∧
  (∀ q s, memServes s = true → MemReq.inRegion q s.mem = true → s.mem.waiting = [] → 0 < q.waitNs → ∃ t, exec (.memRequest q) s = .next t ∧
    t.mem.plane = s.mem.plane ∧ t.mem.general = s.mem.general ∧ t.mem.reserve = s.mem.reserve ∧
    t.mem.waiting.map (fun w => (w.req, w.readyNs)) = [(q, s.ns + q.waitNs)]) ∧
  (∀ (n : Fin 11) s, memServes s = true → exec (.requestPromote n) s = .next (s.onMem fun m => { m with
    waiting := m.waiting.map fun w => if w.overdue n.val s then { w with promoted := true } else w
    ports := upd m.ports n.val fun p => { p with promoteCnt := satN p.promoteCnt (m.waiting.filter fun w => w.overdue n.val s).length } })) ∧
  (∀ (pc : Fin 32) (r : Fin 4) (b : Fin 16) s i, memServes s = true →
    (i = .pageIdleClose pc r b ∧ ∃ o ∈ s.mem.openRows, o.pc = pc.val ∧ o.rank = r.val ∧ o.bank = b.val ∧ o.atNs + s.mem.pageIdleNs ≤ s.ns) ∨
    (i = .refresh pc r b ∧ (nth s.mem.ranks r.val).power ≠ 2) → exec i s = .next (s.onMem fun m => { m with
      openRows := m.openRows.filter fun o => !(o.pc == pc.val && o.rank == r.val && o.bank == b.val) })) ∧
  (∀ (r : Fin 4) s, memServes s = true → rankInService r.val s.mem = true → (nth s.mem.ranks r.val).power = 0 →
    (nth s.mem.ranks r.val).lastNs + s.mem.idleNs ≤ s.ns → exec (.rankPowerDown r) s = .next (s.onMem fun m => { m with ranks := upd m.ranks r.val fun x => { x with power := 1 } })) ∧
  (∀ s, memServes s = true → s.mem.selfRefresh = true → ∃ t, exec .selfRefreshEntry s = .next t ∧ t.mem.plane = s.mem.plane ∧
    t.mem.general = s.mem.general ∧ ∀ r, r < 4 → (nth t.mem.ranks r).power = if rankReturns r s then 2 else (nth s.mem.ranks r).power) ∧
  (∀ s, memServes s = true → wantsSelfRefresh s = true → s.mem.migRun = false → s.mem.selfRefresh = false → ∃ t, exec .selfRefreshEntry s = .next t ∧
    t.mem.selfRefresh = true ∧ t.mem.openRows = [] ∧ ∀ r, r < 4 → (nth t.mem.ranks r).power =
      if rankInService r (dropSegments (if s.thm.shutdown then 0xFF else keptSegments s) s.mem) then 2 else (nth s.mem.ranks r).power) ∧
  (∀ (r : Fin 4) s, memServes s = true → rankInService r.val s.mem = true → (nth s.mem.ranks r.val).power = 2 → ∃ t, exec (.selfRefreshExit r) s = .next t ∧
    (nth t.mem.ranks r.val).power ≠ 2 ∧ t.mem.selfRefresh = (s.mem.selfRefresh && wantsSelfRefresh s) ∧ t.mem.general = s.mem.general) ∧
  (∀ s, memServes s = true → (∀ r, r < 4 → rankInService r s.mem = true → (nth s.mem.ranks r).power ≠ 2) →
    s.mem.scrubNs + s.mem.scrubH * 3600000000000 ≤ s.ns →
    exec .scrubPass s = .next (s.onMem fun m => { m with scrubPassCnt := sat m.scrubPassCnt, scrubNs := s.ns })) ∧
  (∀ (lr : Fin 4) s, memServes s = true → s.mem.migRun = false → s.mem.spareValid = true → lr.val < ranksIn s.mem →
    ∃ t, exec (.migrationStart lr) s = .next t ∧ t.mem.migRun = true ∧ t.mem.migRow = 0 ∧ t.mem.migSrc = nth s.mem.rankMap lr.val ∧
      t.mem.migDst = s.mem.spareRank ∧ t.mem.sticky.getLsbD 3 = true) ∧
  (∀ (lr : Fin 4) s, memServes s = true → s.mem.migRun = true ∨ s.mem.spareValid = false → lr.val < ranksIn s.mem →
    Goes (.migrationStart lr) s (s.onMem fun m => { m with sticky := m.sticky ||| 0x40 })) ∧
  (∀ s, memServes s = true → s.mem.migRun = true → s.mem.migNs + rowCopyNs s.mem ≤ s.ns →
    (s.mem.migRow + 1 < 16384 → exec .migrationRowCopied s = .next (s.onMem fun m => { m with
      migRow := m.migRow + 1, migNs := s.ns })) ∧
    (16384 ≤ s.mem.migRow + 1 → ∃ t, exec .migrationRowCopied s = .next t ∧ t.mem.migRun = false ∧ t.mem.migCnt = sat s.mem.migCnt ∧
      t.mem.rankMap = s.mem.rankMap.map (fun r => if r = s.mem.migSrc then s.mem.migDst else r) ∧
      t.mem.failed = s.mem.failed ||| bit1 4 s.mem.migSrc.toNat ∧ t.mem.sticky.getLsbD 4 = true)) ∧
  (∀ (pc : Fin 32) temp s, memServes s = true → s.mem.fenced.getLsbD pc.val = false → (nth s.mem.pcs pc.val).retrain = false →
    beyondSets pc.val temp s = true → exec (.retrainTempTrigger (pc, temp)) s = .next (s.onMem fun m => { m with pcs := upd m.pcs pc.val fun x => { x with retrain := true, gaps := 0 } })) ∧
  (∀ (pc : Fin 32) s, memServes s = true → (nth s.mem.pcs pc.val).retrain = true → s.mgt.st = .run →
    ((nth s.mem.pcs pc.val).gaps < 561 → (nth s.mem.pcs pc.val).gapNs + 100000 ≤ s.ns →
      (gapsFull s = true → exec (.retrainGap pc) s = .next s) ∧
      (gapsFull s = false → ∃ t, exec (.retrainGap pc) s = .next t ∧ (nth t.mem.pcs pc.val).gaps = (nth s.mem.pcs pc.val).gaps + 1 ∧
        (nth t.mem.pcs pc.val).gapNs = s.ns ∧ s.ns ≤ (nth t.mem.pcs pc.val).gapUntil ∧ (nth t.mem.pcs pc.val).gapUntil ≤ s.ns + 2000 ∧
        (∀ k, k ≠ pc.val → nth t.mem.pcs k = nth s.mem.pcs k) ∧ t.mem.plane = s.mem.plane ∧ t.mem.general = s.mem.general ∧
        t.mem.reserve = s.mem.reserve ∧ t.cal = s.cal)) ∧
    (561 ≤ (nth s.mem.pcs pc.val).gaps → ∀ f, ∃ t, exec (.retrainDone pc f) s = .next t ∧ (nth t.mem.pcs pc.val).retrain = false ∧ t.mem.retrainCnt = sat s.mem.retrainCnt ∧
      (f = none → t.mem.fenced.getLsbD pc.val = true) ∧
      ∀ vs, f = some vs → t.cal = (storeResult pc.val (foundSetting (s.region pc.val) vs) s).cal ∧ t.mem.fenced = s.mem.fenced ∧
        ∀ x ∈ foundSetting (s.region pc.val) vs, ∃ q, (calQtys 0)[x.1]? = some q ∧
          (x.2 - q.get (s.region pc.val).cur).natAbs ≤ if x.1 < 64 then 16 else if x.1 < 96 then 32 else 8)) ∧
  (∀ w s, s.live = true → s.mem.st = .training → ∃ t, exec (.bootTrainingDone w) s = .next t ∧ t.mem.fenced = s.mem.fenced ||| ~~~w ∧
    t.mem.st = if 8 < (bitsOf 32 (s.mem.fenced ||| ~~~w).toNat).length then .failed else .ready)

/-- Each event named completes (exec answers a next state) under its conditions. A boot takes the slot table in force
(assumption 124) and runs the first valid slot if its image verifies, or RECOVERY by strap, and a warm restart runs the slot
that ran or enters RECOVERY; a lockstep mismatch counts, reinitialises (the third within 60 s halts) and raises source 10,
the watchdog counts and reinitialises, a REINIT with a copy in SRAM loads the running image again, and RUN ends it once that
copy is good. Flash, verify and fuse events complete their commands: a bad image leaves its slot INVALID. Enclave: a
self-test that passes on the intact enclave section leads on, any other to ERROR; nonces, lockouts and contexts expire when
their time is over, and the DRBG is reseeded when its requests or its day are; the oldest service ends; a second bad tamper
sample in a row of an armed loop not yet noted zeroises, as do a supply glitch and a TAP test instruction, which also holds
the light low; in SELFTEST and ERROR the zeroised enclave keeps its state (assumption 125). [14_management_and_security.md
R458, R459, R460, R464, R465, R466, R467, R468, R470, R475, R477, R479, R480, R481, R487, R488, R489;
18_package_and_electrical.md R565] -/
def Obligations.ManagementAndEnclaveEvents : Prop :=
  (∀ s, s.live = true → s.mgt.st = .rom → s.mgt.warm = false → ∃ t, exec .bootImageVerify s = .next t ∧
    (s.straps.getLsbD 2 = true → t.mgt.st = .recovery) ∧
    (∀ i is, s.straps.getLsbD 2 = false → bootOrder (loadTable s.mgt) = i :: is →
      imageOk (nth (loadTable s.mgt).slots i).bytes (loadTable s.mgt) = true → t.mgt.st = .run ∧ t.mgt.runSlot = (i == 1))) ∧
  (∀ s, s.live = true → s.mgt.st = .rom → s.mgt.warm = true → ∃ t, exec .bootImageVerify s = .next t ∧ t.mgt.warm = false ∧
    (restartOk s.mgt = true → t.mgt.st = .run ∧ t.mgt.runSlot = s.mgt.runSlot) ∧ (restartOk s.mgt = false → t.mgt.st = .recovery)) ∧
  (∀ sram s, s.live = true → s.mgt.st ≠ .halt → ∃ t, exec (.mgtLockstepError sram) s = .next t ∧
    t.mgt.lockstepCnt = sat s.mgt.lockstepCnt ∧ t.xcl.safe = true ∧ t.xcl.latch.getLsbD 10 = true ∧
    
    t.mgt.st = if 2 ≤ (s.mgt.mismatches.filter fun x => s.ns ≤ x + 60000000000).length then .halt else .reinit) ∧
  (∀ s, s.live = true → s.mgt.st ≠ .halt → ∃ t, exec .mgtWatchdog s = .next t ∧ t.mgt.wdogCnt = sat s.mgt.wdogCnt ∧ t.mgt.st = .reinit ∧
    t.mgt.update = none) ∧
  (∀ s, s.live = true → s.mgt.st = .reinit → s.mgt.sram ≠ [] → restartOk s.mgt = true →
    exec .bootImageVerify s = .next (s.onMgt fun m => { m with sram := runImage m })) ∧
  (∀ s, s.mgt.st = .reinit → (s.mgt.sram ≠ [] → copyGood s.mgt = true → ∃ t, exec .mgtRun s = .next t ∧ t.mgt.st = .run ∧
      t.mgt.reinitCmd = none ∧ t.xcl.active.getLsbD 10 = false) ∧
    (copyGood s.mgt = false → exec .mgtRun s = .next s)) ∧
  (∀ s h u, updating 0x0A01 s = some (h, u) → (∃ t₁, exec .flashEraseDone s = .next t₁ ∧ onlyReports (s.onMgt fun m => { m with updateCmd := none }) t₁)) ∧
  (∀ s h u, updating 0x0A02 s = some (h, u) →
    let d := u.2.2 ++ slice (Cmd.payload h.cmd) 8 (Cmd.len h.cmd - 8)
    (∃ t₁, exec (.flashWriteDone true) s = .next t₁ ∧ onlyReports (s.onMgt fun m => { m with
      slots := upd m.slots u.1 (fun x => { x with bytes := d }), update := some (u.1, u.2.1, d), updateCmd := none }) t₁) ∧
    (∃ t₁, exec (.flashWriteDone false) s = .next t₁ ∧ onlyReports (s.onMgt fun m => { m with update := none, updateCmd := none }) t₁)) ∧
  (∀ s h u, updating 0x0A03 s = some (h, u) → u.1 < 2 → ∃ t, exec .updateVerifyDone s = .next t ∧ t.mgt.update = none ∧ t.mgt.updateCmd = none ∧
    (nth t.mgt.slots u.1).st = (if imageOk (nth s.mgt.slots u.1).bytes s.mgt then .valid else .invalid)) ∧
  (∀ s g h, s.mgt.fuseGoal = some (g, h) → ∃ t, exec .fuseBurnDone s = .next t ∧
    t.mgt.fuses = (if fuseOp h.cmd = 1 then s.mgt.fuses + 1 else s.mgt.fuses) ∧
    t.mgt.revoked = (if fuseOp h.cmd = 1 then s.mgt.revoked else s.mgt.revoked ||| bit1 8 (fuseIdx h.cmd))) ∧
  (∀ s b, s.mgt.allotNow = some b → s.mgt.allotMade = false → s.mem.st = .ready → s.glk.pending = none → ∃ t h, exec .bootAllotment s = .next t ∧
    t.mgt.allotMade = true ∧ t.glk.pending = some h ∧ h.opcode = 0x0600 ∧ h.cmd.inl = b ∧ h ∈ t.hif.deferred) ∧
  (∀ s, s.mgt.st = .run → ∃ t, exec .eventLogFlush s = .next t ∧ t.mgt.logUnflushed = 0 ∧
    t.mgt.flashCnt = s.mgt.flashCnt + s.mgt.logUnflushed ∧
    t.mgt.flashLog = (s.mgt.log.take s.mgt.logUnflushed ++ s.mgt.flashLog).take (ringHolds (s.mgt.flashCnt + s.mgt.logUnflushed))) ∧
  (∀ s, s.live = true → s.sec.st = .selftest →
    (enclaveIntact s.mgt.sram = true → exec (.enclaveSelftestDone true) s = .next ((seedDrbg s).onSec fun x => { deriveKeys x with
      st := if x.zeroPending then .zeroised else if x.officers = [] then .provision else .operational })) ∧
    ∀ pass, (pass && enclaveIntact s.mgt.sram) = false → ∃ t, exec (.enclaveSelftestDone pass) s = .next t ∧ t.sec.st = .error ∧
      t.sec.errorCause = 1 ∧ t.sec.keys = s.sec.keys) ∧
  (∀ s, s.live = true → secAwake s = true → (∃ t, exec (.periodicSelftest false) s = .next t ∧ t.sec.st = .error ∧ t.sec.errorCause = 1) ∧
    ((1048576 ≤ s.sec.drbgReq ∨ s.sec.drbgNs + 86400000000000 ≤ s.ns) →
      exec .drbgReseed s = .next (seedDrbg s))) ∧
  (∀ s, s.live = true → ∃ t, exec .entropyFailure s = .next t ∧ t.sec.st = .error ∧ t.sec.sticky.getLsbD 8 = true ∧
    (s.sec.st ≠ .error → t.sec.errorCause = 3)) ∧
  (∀ (h : Fin 3) (k : Fin 4) s,
    (nth s.sec.nonceNs (h.val + 1) + 10000000000 ≤ s.ns → exec (.nonceExpire h) s = .next (s.onSec fun x => { x with nonce := upd x.nonce (h.val + 1) fun _ => none })) ∧
    (nth s.sec.lockout (h.val + 1) ≤ s.ns → exec (.loginLockoutEnd h) s = .next (s.onSec fun x => { x with lockout := upd x.lockout (h.val + 1) fun _ => 0 })) ∧
    (nth s.sec.kemNs k.val + 60000000000 ≤ s.ns → exec (.kemContextExpire k) s = .next (s.onSec fun x => { x with kem := upd x.kem k.val fun _ => none }))) ∧
  (∀ res s h hs, s.sec.services = h :: hs → ∃ t, exec (.enclaveServiceDone res) s = .next t ∧
    (res ≠ .testFail → t.sec.services = hs) ∧ (res = .testFail → t.sec.st = .error) ∧
    (res = .hostError → onlyReports (s.onSec fun x => { x with services := hs }) t)) ∧
  (∀ (l : Fin 4) sense temp s, s.powered = true → -4500 ≤ temp → temp ≤ 13000 →
    (sense = (nth s.sec.lfsr l.val).getLsbD 15 → exec (.tamperSample l sense temp) s = .next (s.onSec fun x => { x with
      loopBad := upd x.loopBad l.val (fun _ => 0), lfsr := upd x.lfsr l.val lfsrNext })) ∧
    (sense ≠ (nth s.sec.lfsr l.val).getLsbD 15 → 1 ≤ nth s.sec.loopBad l.val → s.sec.loopMask.getLsbD l.val = true →
      s.sec.tamperCause.getLsbD l.val = false → ∃ t, exec (.tamperSample l sense temp) s = .next t ∧
      t.sec.st = (if s.sec.st = .selftest ∨ s.sec.st = .error then s.sec.st else .zeroised) ∧ t.sec.tamperCause.getLsbD l.val = true)) ∧
  (∀ s, s.powered = true → ∃ t, exec .supplyGlitch s = .next t ∧
    t.sec.st = (if s.sec.st = .selftest ∨ s.sec.st = .error then s.sec.st else .zeroised) ∧ t.sec.tamperCause.getLsbD 6 = true ∧
    t.sec.bbramValid = false ∧ t.sec.keys = s.sec.keys.map clearSlot) ∧
  (∀ ir s, s.powered = true → railOn 1 s = true → ∃ t, exec (.jtagInstruction ir) s = .next t ∧ t.tapIr = ir ∧ t.xcl.tapHold = tapTest ir ∧
    (tapTest ir = true → lightOff t = true ∧ t.sec.st = if s.sec.st = .selftest ∨ s.sec.st = .error then s.sec.st else .zeroised) ∧ (tapTest ir = false → t.sec = s.sec))

/-- In a live device: a step, STEP_US after the last, moves the values in force of the class's regions towards the targets of
their sets as they then stand, an edge sweep and a threshold that has been quiet four times are entered as results unless the
region is frozen, and a dark window that is due and whose 10 µs of a DIAG_OK slot with no pulse or walk are over counts and
is dated. A freeze write sets the freeze; a set word is taken while frozen (the target it moves is taken up at the next step)
and sets WRITE_IGNORED while not; a class control word sets its class. [15_calibration.md R492, R494, R495, R496, R497, R498,
R499, R500, R502, R503] -/
def Obligations.CalibrationEventsStoreResults : Prop :=
  (∀ (k : Fin 5) s, s.live = true → nth s.cal.stepNs k.val + 1000 * (nth s.cal.classes k.val).stepUs ≤ s.ns → ∃ t, exec (.calStep k) s = .next t ∧ t.cal.classes = s.cal.classes ∧ t.mem = s.mem ∧
    (∀ r, r < 92 → r ∉ calRegions k.val → s.region r = t.region r) ∧
    ∀ r ∈ calRegions k.val, ∃ up, t.region r = stepRegion r up { (takeTheta r s).region r with old := none }) ∧
  (∀ (r : Fin 92) (dq : Fin 32) ones s, measuring r.val s = true →
    let i := if r.val < 32 then dq.val else 0
    let v := nth (s.region r.val).thr i
    let v' := moveThr r.val (nth s.cal.classes (calClassOf r.val)).deadband ones v
    ∃ t, exec (.offsetWindow r dq ones) s = .next t ∧ nth (t.region r.val).thr i = v' ∧
      t.cal.updateCnt = if v' = v ∧ nth (s.region r.val).quiet i = 3 then sat s.cal.updateCnt else s.cal.updateCnt) ∧
  (∀ (r : Fin 92) (dq : Fin 32) cs s, measuring r.val s = true → exec (.edgeSweepDone r dq cs) s =
    .next (storeResult r.val [(if r.val < 32 then dq.val else 1, ((centroidBin cs + 32) % 64 : Nat))] s) ∧
    ∃ t, exec (.edgeSweepDone r dq cs) s = .next t ∧ t.cal.updateCnt = sat s.cal.updateCnt) ∧
  (∀ ms s, s.live = true → darkPast 10000 s = true → ∃ t, exec (.darkWindow ms) s = .next t ∧
    t.cal.darkCnt = sat s.cal.darkCnt ∧ t.cal.lastDark = some s.ns) ∧
  (∀ (r : Fin 92) v s, s.live = true → ∃ t, exec (.freezeWrite r v) s = .next t ∧ (t.region r.val).freeze = v.getLsbD 0 ∧
    (t.region r.val).sets = (s.region r.val).sets) ∧
  (∀ (r : Fin 92) (k : Fin 4) (w : Fin 28) v s, s.live = true →
    ((s.region r.val).freeze = true → exec (.calSetWrite r k w v) s = .next (s.onRegion r.val fun x => { x with
      old := some x.inUse, sets := upd x.sets k.val (putSetWord r.val w.val v), written := true })) ∧
    ((s.region r.val).freeze = false → Goes (.calSetWrite r k w v) s (s.onCal fun c => { c with sticky := c.sticky ||| 4 }))) ∧
  (∀ (k : Fin 5) v s, s.live = true → exec (.calClassCtrlWrite k v) s = .next (s.onCal fun c => { c with
    classes := upd c.classes k.val fun _ => classOfWord v.toNat }))

/-- Each of the 78 host commands named, whenever it passes the checks of R442, makes exec answer a next state t: its effect,
taken in a state u that differs from s only in reports (the checks are done and the ACCEPT entry is made), gives t but for
reports. Each of the 21 events of the management subsystem and the enclave named makes exec answer a next state under its
conditions on the state and operands alone, with the change that its row stands for; so do the register writes of a function
and of I3C, the thermal sample and restart, the lane frames and the keep-alive burst, and the 26 events of the link and the
array messages named. [13_hosts_and_commands.md R442, R443, R444; 08_array_link.md R274, R289, R291, R292, R293, R297;
09_array_health.md R301, R304, R308, R311, R313, R316, R319, R321; 14_management_and_security.md R458, R460, R464, R465,
R466, R468, R470, R475, R477, R480, R481, R488; 16_power_thermal_reset.md R515, R524; 18_package_and_electrical.md R565] -/
def Obligations.NamedFormsComplete : Prop :=
  (∀ row ∈ [(specHoldSet, Instr.holdSet), (specHoldExit, Instr.holdExit), (specPlaneStoreSet, Instr.planeStoreSet),
      (specIllChainSet, Instr.illChainSet), (specIllDeviceSet, Instr.illDeviceSet), (specIllWeightSet, Instr.illWeightSet),
      (specIllFade, Instr.illFade), (specIllTcSet, Instr.illTcSet), (specIllStringSet, Instr.illStringSet),
      (specIllDiagSet, Instr.illDiagSet), (specLoopSet, Instr.loopSet), (specLoopCoefSet, Instr.loopCoefSet),
      (specLoopRefSet, Instr.loopRefSet), (specLoopGroupSet, Instr.loopGroupSet), (specLoopArm, Instr.loopArm),
      (specLoopPwmSet, Instr.loopPwmSet), (specXclRegionSet, Instr.xclRegionSet), (specXclMaskLoad, Instr.xclMaskLoad),
      (specXclHostBlank, Instr.xclHostBlank), (specXclSafeRelease, Instr.xclSafeRelease), (specSymListSet, Instr.symListSet),
      (specSymGlyphLoad, Instr.symGlyphLoad), (specLinkAllot, Instr.linkAllot), (specLinkLaneSet, Instr.linkLaneSet),
      (specLinkOctetReset, Instr.linkOctetReset), (specLinkDiag, Instr.linkDiag), (specAhmPolicySet, Instr.ahmPolicySet),
      (specAhmScan, Instr.ahmScanStart), (specAhmScan, Instr.ahmScanAbort), (specAhmDefectRead, Instr.ahmDefectRead),
      (specAhmPark, Instr.ahmPark), (specAhmPark, Instr.ahmParkRelease), (specCmpViewSet, Instr.cmpViewSet),
      (specCmpPipeBind, Instr.cmpPipeBind), (specCmpLayerSet, Instr.cmpLayerSet), (specCmpLutSet, Instr.cmpLutSet),
      (specCmpWritebackSet, Instr.cmpWritebackSet), (specCmpCommit, Instr.cmpCommit), (specFabImageLoad, Instr.fabImageLoad),
      (specFabChainSet, Instr.fabChainSet), (specFabChainGo, Instr.fabChainGo), (specFabParamSet, Instr.fabParamSet),
      (specFabClusterReset, Instr.fabClusterReset), (specBufAlloc, Instr.bufAlloc), (specBufFree, Instr.bufFree),
      (specBufSignal, Instr.bufSignal), (specBufIngest, Instr.bufIngest), (specMemLayoutSet, Instr.memLayoutSet),
      (specMemReserveSet, Instr.memReserveSet), (specMemPolicySet, Instr.memPolicySet), (specMemFence, Instr.memFence),
      (specMemRankRetire, Instr.memRankRetire), (specMemRetrain, Instr.memRetrain), (specUpdateBegin, Instr.updateBegin),
      (specUpdateData, Instr.updateData), (specUpdateCommit, Instr.updateCommit), (specMgtFuse, Instr.mgtFuseAdvance),
      (specMgtFuse, Instr.mgtFuseRevoke), (specMgtBootcfgSet, Instr.mgtBootcfgSet), (specMgtRead, Instr.mgtRead),
      (specMgtFaultClear, Instr.mgtFaultClear), (specMgtReinit, Instr.mgtReinit), (specSecChallenge, Instr.secChallenge),
      (specSecLogin, Instr.secLogin), (specSecUserSet, Instr.secUserSet), (specSecPolicySet, Instr.secPolicySet),
      (specSecKemGen, Instr.secKemGen), (specSecKeyLoad, Instr.secKeyLoad), (specSecKeyZero, Instr.secKeyZero),
      (specSecQuote, Instr.secQuote), (specSecMarkSet, Instr.secMarkSet), (specSecSelftest, Instr.secSelftest),
      (specSecZeroise, Instr.secZeroise), (specSecProvision, Instr.secProvision), (specPwrItemSet, Instr.pwrItemSet),
      (specThmSet, Instr.thmSet), (specPwrStandby, Instr.pwrStandbyEnter), (specPwrStandby, Instr.pwrStandbyExit)],
    ∀ (c : Cmd) (s : State), accepted row.1 c s = true → ∃ u t, exec (row.2 c) s = .next t ∧ onlyReports s u ∧
      onlyReports (row.1.effect (heldOf row.1 c (atChecks c s)) u).st t) ∧
  (∀ s : State, s.live = true → s.mgt.st = .rom → s.mgt.warm = false → s.straps.getLsbD 2 = false → ∀ i is,
    bootOrder (loadTable s.mgt) = i :: is → imageOk (nth (loadTable s.mgt).slots i).bytes (loadTable s.mgt) = true → ∃ t, exec .bootImageVerify s = .next t ∧ t.mgt.st = .run) ∧
  (∀ sram (s : State), s.live = true → s.mgt.st ≠ .halt →
    ∃ t, exec (.mgtLockstepError sram) s = .next t ∧ t.mgt.lockstepCnt = sat s.mgt.lockstepCnt) ∧
  (∀ s : State, s.live = true → s.mgt.st ≠ .halt → ∃ t, exec .mgtWatchdog s = .next t ∧ t.mgt.st = .reinit) ∧
  (∀ s : State, s.mgt.st = .reinit → s.mgt.sram ≠ [] → copyGood s.mgt = true → ∃ t, exec .mgtRun s = .next t ∧ t.mgt.st = .run) ∧
  (∀ (s : State) b, s.mgt.allotNow = some b → s.mgt.allotMade = false → s.mem.st = .ready → s.glk.pending = none →
    ∃ t, exec .bootAllotment s = .next t ∧ t.mgt.allotMade = true ∧ t.glk.pending.isSome = true) ∧
  (∀ s : State, s.mgt.st = .run → ∃ t, exec .eventLogFlush s = .next t ∧ t.mgt.logUnflushed = 0) ∧
  (∀ (s : State) h u, updating 0x0A01 s = some (h, u) → ∃ t, exec .flashEraseDone s = .next t ∧ t.mgt.updateCmd = none) ∧
  (∀ ok (s : State) h u, updating 0x0A02 s = some (h, u) → ∃ t, exec (.flashWriteDone ok) s = .next t ∧ t.mgt.updateCmd = none) ∧
  (∀ (s : State) h u, updating 0x0A03 s = some (h, u) → ∃ t, exec .updateVerifyDone s = .next t ∧ t.mgt.update = none) ∧
  (∀ (s : State) g h, s.mgt.fuseGoal = some (g, h) → ∃ t, exec .fuseBurnDone s = .next t ∧
    (fuseOp h.cmd = 1 → t.mgt.fuses = s.mgt.fuses + 1)) ∧
  (∀ s : State, s.live = true → s.sec.st = .selftest → enclaveIntact s.mgt.sram = true →
    ∃ t, exec (.enclaveSelftestDone true) s = .next t ∧ t.sec.st ≠ .selftest) ∧
  (∀ s : State, s.live = true → secAwake s = true → ∃ t, exec (.periodicSelftest false) s = .next t ∧ t.sec.st = .error) ∧
  (∀ s : State, s.live = true → secAwake s = true → 1048576 ≤ s.sec.drbgReq → ∃ t, exec .drbgReseed s = .next t ∧ t.sec.drbgReq = 0) ∧
  (∀ s : State, s.live = true → ∃ t, exec .entropyFailure s = .next t ∧ t.sec.st = .error) ∧
  (∀ (h : Fin 3) (s : State), nth s.sec.nonceNs (h.val + 1) + 10000000000 ≤ s.ns →
    ∃ t, exec (.nonceExpire h) s = .next t ∧ nth t.sec.nonce (h.val + 1) = none) ∧
  (∀ (h : Fin 3) (s : State), nth s.sec.lockout (h.val + 1) ≤ s.ns →
    ∃ t, exec (.loginLockoutEnd h) s = .next t ∧ nth t.sec.lockout (h.val + 1) = 0) ∧
  (∀ (k : Fin 4) (s : State), nth s.sec.kemNs k.val + 60000000000 ≤ s.ns →
    ∃ t, exec (.kemContextExpire k) s = .next t ∧ nth t.sec.kem k.val = none) ∧
  (∀ (s : State) h hs, s.sec.services = h :: hs → ∃ t, exec (.enclaveServiceDone .ok) s = .next t ∧ t.sec.services = hs) ∧
  (∀ (l : Fin 4) temp (s : State), s.powered = true → -4500 ≤ temp → temp ≤ 13000 →
    ∃ t, exec (.tamperSample l ((nth s.sec.lfsr l.val).getLsbD 15) temp) s = .next t ∧ nth t.sec.loopBad l.val = 0) ∧
  (∀ s : State, s.powered = true → ∃ t, exec .supplyGlitch s = .next t ∧ t.sec.tamperCause.getLsbD 6 = true ∧ t.sec.bbramValid = false) ∧
  (∀ ir (s : State), s.powered = true → railOn 1 s = true → ∃ t, exec (.jtagInstruction ir) s = .next t ∧ t.tapIr = ir) ∧
  (∀ (h : Fin 2) off v (s : State), s.live = true → exec (.registerWrite h off v) s = .next (regWrite true off.toNat v s) ∧
    exec (.i3cBar0Write off v) s = .next (regWrite false off.toNat v s)) ∧
  (∀ (h : Fin 2) v (s : State), s.live = true → domainOn 143 s = true → ∀ i ∈ [Instr.registerWrite h 0xC0004 v, .i3cBar0Write 0xC0004 v],
    ∃ t, exec i s = .next t ∧ t.mem.sticky = s.mem.sticky &&& ~~~((clearable 0xC0004 v s).setWidth _)) ∧
  (∀ rs (s : State), s.live = true → s.mgt.clkStatus.getLsbD 2 = false → ∃ t, exec (.thermalSample rs) s = .next t ∧
    ∀ n, n < 52 → nth t.thm.sensFault n = badReading ((rs[n]?).getD none)) ∧
  (∀ s : State, s.live = true → s.thm.shutdown = true → s.thm.noRestart = false → (∃ n, s.thm.coolFrom = some n ∧ n + 10000000000 ≤ s.ns) →
    ∃ t, exec .shutdownRestart s = .next t ∧ t.thm.shutdown = false ∧ t.thm.sticky.getLsbD 5 = true) ∧
  (∀ (p : Fin 4) (s : State), s.live = true →
    (allIn p.val .fwdTrain s = true ∨ allIn p.val .capsWait s = true ∨ (portReady p.val s = true ∧ holdIdle p.val s = false)) →
    ∃ t, exec (.linkFrameInterval p) s = .next t ∧ (t.link p.val).fcnt = (s.link p.val).fcnt + 1) ∧
  (∀ (p : Fin 4) (s : State), s.live = true → portReady p.val s = true → holdIdle p.val s = true → (s.link p.val).allot.kaBurst = true →
    ∃ t, exec (.keepaliveBurst p) s = .next t ∧ (t.link p.val).fcnt = (s.link p.val).fcnt + 1) ∧
  (∀ (k : Fin 16) (s : State), (s.octet k.val).allotted = true → (s.octet k.val).st.aligned = true → (s.octet k.val).bcLocked = true →
    ∀ i ∈ [Instr.bcLockLost k, .bcSilence k], ∃ t, exec i s = .next t ∧ (t.octet k.val).bcLocked = false) ∧
  (∀ (k : Fin 16) (s : State), (s.octet k.val).st = .bcLock → ∃ t, exec (.bcAbsent k) s = .next t ∧ (t.octet k.val).sticky.getLsbD 3 = true) ∧
  (∀ (k : Fin 16) (s : State), (s.octet k.val).allotted = true → (s.port (s.octet k.val).port.toNat).enable = true →
    (s.octet k.val).st = .electricalIdle → (s.octet k.val).failed = false → (nth s.glk.quads (k.val / 4)).bad = false →
    ∃ t, exec (.electricalIdleEnd k) s = .next t ∧ (t.octet k.val).st = .bcLock) ∧
  (∀ (p : Fin 4) (s : State), (∃ k ∈ octetsOf p.val s, (s.octet k).failed = true) →
    ∃ t, exec (.trainRestart p) s = .next t ∧ ∀ k ∈ octetsOf p.val s, (t.octet k).failed = false) ∧
  (∀ (p : Fin 4) (s : State), octetsOf p.val s ≠ [] → (∀ k ∈ octetsOf p.val s, (s.octet k).st = .fwdTrain ∧ (s.octet k).pass2 = false) →
    isAsked p.val 1 s = false → exec (.trainPass1End p) s = .next (sendCtrl p.val 1 0 s)) ∧
  (∀ (p : Fin 4) (s : State), octetsOf p.val s ≠ [] → (∀ k ∈ octetsOf p.val s, (s.octet k).st = .fwdTrain ∧ (s.octet k).pass2 = true) →
    ∃ t, exec (.trainFail p) s = .next t ∧ ∀ k ∈ octetsOf p.val s, (t.octet k).st = .electricalIdle ∧ (t.octet k).failed = true) ∧
  (∀ (p : Fin 4) ws (s : State), isAsked p.val 1 s = true → octetsOf p.val s ≠ [] → ws.length = 2 * (octetsOf p.val s).length →
    (∀ k ∈ octetsOf p.val s, (s.octet k).st = .fwdTrain ∧ (s.octet k).pass2 = true) → map2Ok p.val ws (answered p.val 1 s) = true →
    ∃ t, exec (.lanemap p ws) s = .next t ∧ ∀ k ∈ octetsOf p.val s, (t.octet k).st = .capsWait) ∧
  (∀ (p : Fin 4) ws (s : State), ws.length = 4 * (octetsOf p.val s).length → ∃ t, exec (.errcnt p ws) s = .next t ∧
    ∀ k, octetAt p.val 0 s = some k → (nth (s.octet k).lanes 0).pos = 0 →
      field (ws.getD 0 0).toNat 0 16 ≤ (nth (t.octet k).lanes 0).crcCnt.toNat) ∧
  (∀ (p : Fin 4) op (s : State), isAsked p.val op.toNat s = true → ∃ t, exec (.ctrlTimeout p op) s = .next t ∧
    ∀ k ∈ octetsOf p.val s, (t.octet k).ctrlToCnt = sat (s.octet k).ctrlToCnt) ∧
  (∀ (s : State) h, s.glk.running = some h → ∃ t, exec (.linkReadyTimeout none) s = .next t ∧ t.glk.running = none) ∧
  (∀ (k : Fin 16) (s : State) h cs, (s.octet k.val).cmds = h :: cs → ∃ t, exec (.linkReadyTimeout (some k)) s = .next t ∧
    (t.octet k.val).cmds = cs) ∧
  (∀ (p : Fin 4) w1 w2 (s : State), (∃ e ∈ (s.link p.val).sent, e.rseq.toNat = field w1.toNat 20 8 ∧ e.band.toNat = field w1.toNat 28 4) →
    ∃ t, exec (.ack p w1 w2) s = .next t ∧ (t.link p.val).sent.length + 1 = (s.link p.val).sent.length) ∧
  (∀ (p : Fin 4) (s : State), (∃ e ∈ (s.link p.val).sent, (∀ f ∈ (s.link p.val).sent, e.due ≤ f.due) ∧ e.due + 10000 ≤ s.ns) →
    ∃ t, exec (.ackMissing p) s = .next t ∧ (t.arr p.val).ackMissCnt = sat (s.arr p.val).ackMissCnt) ∧
  (∀ (p : Fin 4) ws (s : State), heard p.val s = true → (s.arr p.val).map.length + ws.length ≤ mapSize →
    ∃ t, exec (.defect p ws) s = .next t ∧ ∀ w ∈ ws, parseDefect w ∈ (t.arr p.val).map) ∧
  (∀ (p : Fin 4) ws (s : State) k, ws.length = (octetsOf p.val s).length + 1 → field (ws.headD 0).toNat 24 8 = (octetsOf p.val s).length →
    octetAt p.val 0 s = some k → (s.octet k).st = .ready → (∀ i, i < 8 → (nth (s.octet k).lanes i).pos.toNat = i) →
    ∃ t, exec (.status p ws) s = .next t ∧ (nth (t.octet k).lanes 0).locked = bitOf (ws.getD 1 0).toNat 0) ∧
  (∀ (p : Fin 4) (s : State), (s.arr p.val).mapDirty = true → (s.arr p.val).capsValid = true →
    ∃ t, exec (.defectMapSave p) s = .next t ∧ (t.arr p.val).mapDirty = false) ∧
  (∀ (p : Fin 4) ws (s : State), isAsked p.val 2 s = true → ws.length = 16 → octetsOf p.val s ≠ [] →
    (∀ k ∈ octetsOf p.val s, (s.octet k).st = .capsWait) → capsFail p.val ws (answered p.val 2 s) = 0 →
    ∃ t, exec (.caps p ws) s = .next t ∧ (t.arr p.val).capsValid = true) ∧
  (∀ (p : Fin 4) w (s : State), heard p.val s = true → ∃ t, exec (.temp p w) s = .next t ∧ (t.arr p.val).temp = w.truncate 16) ∧
  (∀ (p : Fin 4) (s : State), (s.arr p.val).st = .present → ∃ t, exec (.tempStale p) s = .next t ∧ (t.arr p.val).tempStale = true) ∧
  (∀ (p : Fin 4) ws (s : State), (s.arr p.val).scanRun.isSome = true →
    ∃ t, exec (.scanData p ws) s = .next t ∧ (t.arr p.val).scanData = (s.arr p.val).scanData ++ ws) ∧
  (∀ (p : Fin 4) w1 w2 w3 (s : State), (s.arr p.val).scanRun.isSome = true →
    ∃ t, exec (.scanDone p w1 w2 w3) s = .next t ∧ (t.arr p.val).scanRun = none) ∧
  (∀ (p : Fin 4) w (s : State), ∃ t, exec (.scanState p w) s = .next t ∧ (t.link p.val).asked = (s.link p.val).asked.erase 0x20) ∧
  (∀ (p : Fin 4) (s : State), (s.arr p.val).scanRun.isSome = true → ∃ t, exec (.scanTimeout p) s = .next t ∧ (t.arr p.val).scanRun = none) ∧
  (∀ (p : Fin 4) w (s : State), heard p.val s = true → ∃ t, exec (.parkState p w) s = .next t ∧ (t.arr p.val).parkHeard = w.getLsbD 0) ∧
  (∀ (k : Fin 16) bits (s : State), (s.octet k.val).allotted = true → (s.octet k.val).st ≠ .electricalIdle →
    24 ≤ bits.length → ofMsb (bits.take 24) = syncWord → (s.octet k.val).bcLocked = false → (readFrame ((bits.drop 24).map fun b => b != false)).stuffOk = false →
    ∃ t, exec (.bcFrameReceived k bits) s = .next t ∧ (t.octet k.val).bcStuffCnt = sat (s.octet k.val).bcStuffCnt)
end

