-- ==== Sys2Proof/Laws/State.lean ====
section
/-!
SUPPORT. One lemma per field per update of State, true by rfl, so that no proof unfolds a record update; reading a vector after a
change of one entry; and the updates of one entry of a block as updates of the block.
-/
namespace Sys2Proof.Machine

/-! ## Entries of vectors -/

@[simp] theorem nth_upd_self {α : Type} [Inhabited α] {n : Nat} (v : Vector α n) (i : Nat) (f : α → α) (h : i < n) :
    nth (upd v i f) i = f (nth v i) := by simp [nth, upd, h]

theorem nth_upd_other {α : Type} [Inhabited α] {n : Nat} (v : Vector α n) (i j : Nat) (f : α → α) (h : i ≠ j) :
    nth (upd v i f) j = nth v j := by
  simp only [nth, upd]
  split
  · split
    · simp [h]
    · rfl
  · rfl

/-- A change that g does not see. -/
theorem map_upd {α β : Type} {n : Nat} (v : Vector α n) (i : Nat) (f : α → α) (g : α → β) (h : ∀ x, g (f x) = g x) :
    (upd v i f).map g = v.map g := by
  unfold upd
  split
  · ext j hj
    simp only [Vector.getElem_map, Vector.getElem_set]
    split
    · subst_vars; exact h _
    · rfl
  · rfl

/-! ## Updates of one block -/

section
variable (s : State)

section
variable (f : Hif → Hif)
@[simp] theorem State.onHif_pending : (s.onHif f).pending = s.pending := rfl
@[simp] theorem State.onHif_ns : (s.onHif f).ns = s.ns := rfl
@[simp] theorem State.onHif_phase : (s.onHif f).phase = s.phase := rfl
@[simp] theorem State.onHif_frame : (s.onHif f).frame = s.frame := rfl
@[simp] theorem State.onHif_powered : (s.onHif f).powered = s.powered := rfl
@[simp] theorem State.onHif_relNs : (s.onHif f).relNs = s.relNs := rfl
@[simp] theorem State.onHif_porst : (s.onHif f).porst = s.porst := rfl
@[simp] theorem State.onHif_wrst : (s.onHif f).wrst = s.wrst := rfl
@[simp] theorem State.onHif_coldReset : (s.onHif f).coldReset = s.coldReset := rfl
@[simp] theorem State.onHif_straps : (s.onHif f).straps = s.straps := rfl
@[simp] theorem State.onHif_tapIr : (s.onHif f).tapIr = s.tapIr := rfl
@[simp] theorem State.onHif_gradeX : (s.onHif f).gradeX = s.gradeX := rfl
@[simp] theorem State.onHif_free : (s.onHif f).free = s.free := rfl
@[simp] theorem State.onHif_wrapped : (s.onHif f).wrapped = s.wrapped := rfl
@[simp] theorem State.onHif_raised : (s.onHif f).raised = s.raised := rfl
@[simp] theorem State.onHif_hif : (s.onHif f).hif = f s.hif := rfl
@[simp] theorem State.onHif_tim : (s.onHif f).tim = s.tim := rfl
@[simp] theorem State.onHif_seq : (s.onHif f).seq = s.seq := rfl
@[simp] theorem State.onHif_ill : (s.onHif f).ill = s.ill := rfl
@[simp] theorem State.onHif_cle : (s.onHif f).cle = s.cle := rfl
@[simp] theorem State.onHif_xcl : (s.onHif f).xcl = s.xcl := rfl
@[simp] theorem State.onHif_slc : (s.onHif f).slc = s.slc := rfl
@[simp] theorem State.onHif_glk : (s.onHif f).glk = s.glk := rfl
@[simp] theorem State.onHif_ahm : (s.onHif f).ahm = s.ahm := rfl
@[simp] theorem State.onHif_cmp : (s.onHif f).cmp = s.cmp := rfl
@[simp] theorem State.onHif_fab : (s.onHif f).fab = s.fab := rfl
@[simp] theorem State.onHif_mem : (s.onHif f).mem = s.mem := rfl
@[simp] theorem State.onHif_mgt : (s.onHif f).mgt = s.mgt := rfl
@[simp] theorem State.onHif_sec : (s.onHif f).sec = s.sec := rfl
@[simp] theorem State.onHif_cal : (s.onHif f).cal = s.cal := rfl
@[simp] theorem State.onHif_pwr : (s.onHif f).pwr = s.pwr := rfl
@[simp] theorem State.onHif_thm : (s.onHif f).thm = s.thm := rfl
@[simp] theorem State.onHif_tick : (s.onHif f).tick = s.tick := rfl
@[simp] theorem State.onHif_live : (s.onHif f).live = s.live := rfl
@[simp] theorem State.onHif_blanked : (s.onHif f).blanked = s.blanked := rfl
@[simp] theorem State.onHif_pictureStops : (s.onHif f).pictureStops = s.pictureStops := rfl
end

section
variable (f : Tim → Tim)
@[simp] theorem State.onTim_pending : (s.onTim f).pending = s.pending := rfl
@[simp] theorem State.onTim_ns : (s.onTim f).ns = s.ns := rfl
@[simp] theorem State.onTim_phase : (s.onTim f).phase = s.phase := rfl
@[simp] theorem State.onTim_frame : (s.onTim f).frame = s.frame := rfl
@[simp] theorem State.onTim_powered : (s.onTim f).powered = s.powered := rfl
@[simp] theorem State.onTim_relNs : (s.onTim f).relNs = s.relNs := rfl
@[simp] theorem State.onTim_porst : (s.onTim f).porst = s.porst := rfl
@[simp] theorem State.onTim_wrst : (s.onTim f).wrst = s.wrst := rfl
@[simp] theorem State.onTim_coldReset : (s.onTim f).coldReset = s.coldReset := rfl
@[simp] theorem State.onTim_straps : (s.onTim f).straps = s.straps := rfl
@[simp] theorem State.onTim_tapIr : (s.onTim f).tapIr = s.tapIr := rfl
@[simp] theorem State.onTim_gradeX : (s.onTim f).gradeX = s.gradeX := rfl
@[simp] theorem State.onTim_free : (s.onTim f).free = s.free := rfl
@[simp] theorem State.onTim_wrapped : (s.onTim f).wrapped = s.wrapped := rfl
@[simp] theorem State.onTim_raised : (s.onTim f).raised = s.raised := rfl
@[simp] theorem State.onTim_hif : (s.onTim f).hif = s.hif := rfl
@[simp] theorem State.onTim_tim : (s.onTim f).tim = f s.tim := rfl
@[simp] theorem State.onTim_seq : (s.onTim f).seq = s.seq := rfl
@[simp] theorem State.onTim_ill : (s.onTim f).ill = s.ill := rfl
@[simp] theorem State.onTim_cle : (s.onTim f).cle = s.cle := rfl
@[simp] theorem State.onTim_xcl : (s.onTim f).xcl = s.xcl := rfl
@[simp] theorem State.onTim_slc : (s.onTim f).slc = s.slc := rfl
@[simp] theorem State.onTim_glk : (s.onTim f).glk = s.glk := rfl
@[simp] theorem State.onTim_ahm : (s.onTim f).ahm = s.ahm := rfl
@[simp] theorem State.onTim_cmp : (s.onTim f).cmp = s.cmp := rfl
@[simp] theorem State.onTim_fab : (s.onTim f).fab = s.fab := rfl
@[simp] theorem State.onTim_mem : (s.onTim f).mem = s.mem := rfl
@[simp] theorem State.onTim_mgt : (s.onTim f).mgt = s.mgt := rfl
@[simp] theorem State.onTim_sec : (s.onTim f).sec = s.sec := rfl
@[simp] theorem State.onTim_cal : (s.onTim f).cal = s.cal := rfl
@[simp] theorem State.onTim_pwr : (s.onTim f).pwr = s.pwr := rfl
@[simp] theorem State.onTim_thm : (s.onTim f).thm = s.thm := rfl
@[simp] theorem State.onTim_tick : (s.onTim f).tick = s.tick := rfl
@[simp] theorem State.onTim_live : (s.onTim f).live = s.live := rfl
@[simp] theorem State.onTim_blanked : (s.onTim f).blanked = s.blanked := rfl
@[simp] theorem State.onTim_pictureStops : (s.onTim f).pictureStops = s.pictureStops := rfl
end

section
variable (f : Seq → Seq)
@[simp] theorem State.onSeq_pending : (s.onSeq f).pending = s.pending := rfl
@[simp] theorem State.onSeq_ns : (s.onSeq f).ns = s.ns := rfl
@[simp] theorem State.onSeq_phase : (s.onSeq f).phase = s.phase := rfl
@[simp] theorem State.onSeq_frame : (s.onSeq f).frame = s.frame := rfl
@[simp] theorem State.onSeq_powered : (s.onSeq f).powered = s.powered := rfl
@[simp] theorem State.onSeq_relNs : (s.onSeq f).relNs = s.relNs := rfl
@[simp] theorem State.onSeq_porst : (s.onSeq f).porst = s.porst := rfl
@[simp] theorem State.onSeq_wrst : (s.onSeq f).wrst = s.wrst := rfl
@[simp] theorem State.onSeq_coldReset : (s.onSeq f).coldReset = s.coldReset := rfl
@[simp] theorem State.onSeq_straps : (s.onSeq f).straps = s.straps := rfl
@[simp] theorem State.onSeq_tapIr : (s.onSeq f).tapIr = s.tapIr := rfl
@[simp] theorem State.onSeq_gradeX : (s.onSeq f).gradeX = s.gradeX := rfl
@[simp] theorem State.onSeq_free : (s.onSeq f).free = s.free := rfl
@[simp] theorem State.onSeq_wrapped : (s.onSeq f).wrapped = s.wrapped := rfl
@[simp] theorem State.onSeq_raised : (s.onSeq f).raised = s.raised := rfl
@[simp] theorem State.onSeq_hif : (s.onSeq f).hif = s.hif := rfl
@[simp] theorem State.onSeq_tim : (s.onSeq f).tim = s.tim := rfl
@[simp] theorem State.onSeq_seq : (s.onSeq f).seq = f s.seq := rfl
@[simp] theorem State.onSeq_ill : (s.onSeq f).ill = s.ill := rfl
@[simp] theorem State.onSeq_cle : (s.onSeq f).cle = s.cle := rfl
@[simp] theorem State.onSeq_xcl : (s.onSeq f).xcl = s.xcl := rfl
@[simp] theorem State.onSeq_slc : (s.onSeq f).slc = s.slc := rfl
@[simp] theorem State.onSeq_glk : (s.onSeq f).glk = s.glk := rfl
@[simp] theorem State.onSeq_ahm : (s.onSeq f).ahm = s.ahm := rfl
@[simp] theorem State.onSeq_cmp : (s.onSeq f).cmp = s.cmp := rfl
@[simp] theorem State.onSeq_fab : (s.onSeq f).fab = s.fab := rfl
@[simp] theorem State.onSeq_mem : (s.onSeq f).mem = s.mem := rfl
@[simp] theorem State.onSeq_mgt : (s.onSeq f).mgt = s.mgt := rfl
@[simp] theorem State.onSeq_sec : (s.onSeq f).sec = s.sec := rfl
@[simp] theorem State.onSeq_cal : (s.onSeq f).cal = s.cal := rfl
@[simp] theorem State.onSeq_pwr : (s.onSeq f).pwr = s.pwr := rfl
@[simp] theorem State.onSeq_thm : (s.onSeq f).thm = s.thm := rfl
@[simp] theorem State.onSeq_tick : (s.onSeq f).tick = s.tick := rfl
@[simp] theorem State.onSeq_live : (s.onSeq f).live = s.live := rfl
@[simp] theorem State.onSeq_blanked : (s.onSeq f).blanked = s.blanked := rfl
@[simp] theorem State.onSeq_pictureStops : (s.onSeq f).pictureStops = s.pictureStops := rfl
end

section
variable (f : Ill → Ill)
@[simp] theorem State.onIll_pending : (s.onIll f).pending = s.pending := rfl
@[simp] theorem State.onIll_ns : (s.onIll f).ns = s.ns := rfl
@[simp] theorem State.onIll_phase : (s.onIll f).phase = s.phase := rfl
@[simp] theorem State.onIll_frame : (s.onIll f).frame = s.frame := rfl
@[simp] theorem State.onIll_powered : (s.onIll f).powered = s.powered := rfl
@[simp] theorem State.onIll_relNs : (s.onIll f).relNs = s.relNs := rfl
@[simp] theorem State.onIll_porst : (s.onIll f).porst = s.porst := rfl
@[simp] theorem State.onIll_wrst : (s.onIll f).wrst = s.wrst := rfl
@[simp] theorem State.onIll_coldReset : (s.onIll f).coldReset = s.coldReset := rfl
@[simp] theorem State.onIll_straps : (s.onIll f).straps = s.straps := rfl
@[simp] theorem State.onIll_tapIr : (s.onIll f).tapIr = s.tapIr := rfl
@[simp] theorem State.onIll_gradeX : (s.onIll f).gradeX = s.gradeX := rfl
@[simp] theorem State.onIll_free : (s.onIll f).free = s.free := rfl
@[simp] theorem State.onIll_wrapped : (s.onIll f).wrapped = s.wrapped := rfl
@[simp] theorem State.onIll_raised : (s.onIll f).raised = s.raised := rfl
@[simp] theorem State.onIll_hif : (s.onIll f).hif = s.hif := rfl
@[simp] theorem State.onIll_tim : (s.onIll f).tim = s.tim := rfl
@[simp] theorem State.onIll_seq : (s.onIll f).seq = s.seq := rfl
@[simp] theorem State.onIll_ill : (s.onIll f).ill = f s.ill := rfl
@[simp] theorem State.onIll_cle : (s.onIll f).cle = s.cle := rfl
@[simp] theorem State.onIll_xcl : (s.onIll f).xcl = s.xcl := rfl
@[simp] theorem State.onIll_slc : (s.onIll f).slc = s.slc := rfl
@[simp] theorem State.onIll_glk : (s.onIll f).glk = s.glk := rfl
@[simp] theorem State.onIll_ahm : (s.onIll f).ahm = s.ahm := rfl
@[simp] theorem State.onIll_cmp : (s.onIll f).cmp = s.cmp := rfl
@[simp] theorem State.onIll_fab : (s.onIll f).fab = s.fab := rfl
@[simp] theorem State.onIll_mem : (s.onIll f).mem = s.mem := rfl
@[simp] theorem State.onIll_mgt : (s.onIll f).mgt = s.mgt := rfl
@[simp] theorem State.onIll_sec : (s.onIll f).sec = s.sec := rfl
@[simp] theorem State.onIll_cal : (s.onIll f).cal = s.cal := rfl
@[simp] theorem State.onIll_pwr : (s.onIll f).pwr = s.pwr := rfl
@[simp] theorem State.onIll_thm : (s.onIll f).thm = s.thm := rfl
@[simp] theorem State.onIll_tick : (s.onIll f).tick = s.tick := rfl
@[simp] theorem State.onIll_live : (s.onIll f).live = s.live := rfl
@[simp] theorem State.onIll_blanked : (s.onIll f).blanked = s.blanked := rfl
@[simp] theorem State.onIll_pictureStops : (s.onIll f).pictureStops = s.pictureStops := rfl
end

section
variable (f : Cle → Cle)
@[simp] theorem State.onCle_pending : (s.onCle f).pending = s.pending := rfl
@[simp] theorem State.onCle_ns : (s.onCle f).ns = s.ns := rfl
@[simp] theorem State.onCle_phase : (s.onCle f).phase = s.phase := rfl
@[simp] theorem State.onCle_frame : (s.onCle f).frame = s.frame := rfl
@[simp] theorem State.onCle_powered : (s.onCle f).powered = s.powered := rfl
@[simp] theorem State.onCle_relNs : (s.onCle f).relNs = s.relNs := rfl
@[simp] theorem State.onCle_porst : (s.onCle f).porst = s.porst := rfl
@[simp] theorem State.onCle_wrst : (s.onCle f).wrst = s.wrst := rfl
@[simp] theorem State.onCle_coldReset : (s.onCle f).coldReset = s.coldReset := rfl
@[simp] theorem State.onCle_straps : (s.onCle f).straps = s.straps := rfl
@[simp] theorem State.onCle_tapIr : (s.onCle f).tapIr = s.tapIr := rfl
@[simp] theorem State.onCle_gradeX : (s.onCle f).gradeX = s.gradeX := rfl
@[simp] theorem State.onCle_free : (s.onCle f).free = s.free := rfl
@[simp] theorem State.onCle_wrapped : (s.onCle f).wrapped = s.wrapped := rfl
@[simp] theorem State.onCle_raised : (s.onCle f).raised = s.raised := rfl
@[simp] theorem State.onCle_hif : (s.onCle f).hif = s.hif := rfl
@[simp] theorem State.onCle_tim : (s.onCle f).tim = s.tim := rfl
@[simp] theorem State.onCle_seq : (s.onCle f).seq = s.seq := rfl
@[simp] theorem State.onCle_ill : (s.onCle f).ill = s.ill := rfl
@[simp] theorem State.onCle_cle : (s.onCle f).cle = f s.cle := rfl
@[simp] theorem State.onCle_xcl : (s.onCle f).xcl = s.xcl := rfl
@[simp] theorem State.onCle_slc : (s.onCle f).slc = s.slc := rfl
@[simp] theorem State.onCle_glk : (s.onCle f).glk = s.glk := rfl
@[simp] theorem State.onCle_ahm : (s.onCle f).ahm = s.ahm := rfl
@[simp] theorem State.onCle_cmp : (s.onCle f).cmp = s.cmp := rfl
@[simp] theorem State.onCle_fab : (s.onCle f).fab = s.fab := rfl
@[simp] theorem State.onCle_mem : (s.onCle f).mem = s.mem := rfl
@[simp] theorem State.onCle_mgt : (s.onCle f).mgt = s.mgt := rfl
@[simp] theorem State.onCle_sec : (s.onCle f).sec = s.sec := rfl
@[simp] theorem State.onCle_cal : (s.onCle f).cal = s.cal := rfl
@[simp] theorem State.onCle_pwr : (s.onCle f).pwr = s.pwr := rfl
@[simp] theorem State.onCle_thm : (s.onCle f).thm = s.thm := rfl
@[simp] theorem State.onCle_tick : (s.onCle f).tick = s.tick := rfl
@[simp] theorem State.onCle_live : (s.onCle f).live = s.live := rfl
@[simp] theorem State.onCle_blanked : (s.onCle f).blanked = s.blanked := rfl
@[simp] theorem State.onCle_pictureStops : (s.onCle f).pictureStops = s.pictureStops := rfl
end

section
variable (f : Xcl → Xcl)
@[simp] theorem State.onXcl_pending : (s.onXcl f).pending = s.pending := rfl
@[simp] theorem State.onXcl_ns : (s.onXcl f).ns = s.ns := rfl
@[simp] theorem State.onXcl_phase : (s.onXcl f).phase = s.phase := rfl
@[simp] theorem State.onXcl_frame : (s.onXcl f).frame = s.frame := rfl
@[simp] theorem State.onXcl_powered : (s.onXcl f).powered = s.powered := rfl
@[simp] theorem State.onXcl_relNs : (s.onXcl f).relNs = s.relNs := rfl
@[simp] theorem State.onXcl_porst : (s.onXcl f).porst = s.porst := rfl
@[simp] theorem State.onXcl_wrst : (s.onXcl f).wrst = s.wrst := rfl
@[simp] theorem State.onXcl_coldReset : (s.onXcl f).coldReset = s.coldReset := rfl
@[simp] theorem State.onXcl_straps : (s.onXcl f).straps = s.straps := rfl
@[simp] theorem State.onXcl_tapIr : (s.onXcl f).tapIr = s.tapIr := rfl
@[simp] theorem State.onXcl_gradeX : (s.onXcl f).gradeX = s.gradeX := rfl
@[simp] theorem State.onXcl_free : (s.onXcl f).free = s.free := rfl
@[simp] theorem State.onXcl_wrapped : (s.onXcl f).wrapped = s.wrapped := rfl
@[simp] theorem State.onXcl_raised : (s.onXcl f).raised = s.raised := rfl
@[simp] theorem State.onXcl_hif : (s.onXcl f).hif = s.hif := rfl
@[simp] theorem State.onXcl_tim : (s.onXcl f).tim = s.tim := rfl
@[simp] theorem State.onXcl_seq : (s.onXcl f).seq = s.seq := rfl
@[simp] theorem State.onXcl_ill : (s.onXcl f).ill = s.ill := rfl
@[simp] theorem State.onXcl_cle : (s.onXcl f).cle = s.cle := rfl
@[simp] theorem State.onXcl_xcl : (s.onXcl f).xcl = f s.xcl := rfl
@[simp] theorem State.onXcl_slc : (s.onXcl f).slc = s.slc := rfl
@[simp] theorem State.onXcl_glk : (s.onXcl f).glk = s.glk := rfl
@[simp] theorem State.onXcl_ahm : (s.onXcl f).ahm = s.ahm := rfl
@[simp] theorem State.onXcl_cmp : (s.onXcl f).cmp = s.cmp := rfl
@[simp] theorem State.onXcl_fab : (s.onXcl f).fab = s.fab := rfl
@[simp] theorem State.onXcl_mem : (s.onXcl f).mem = s.mem := rfl
@[simp] theorem State.onXcl_mgt : (s.onXcl f).mgt = s.mgt := rfl
@[simp] theorem State.onXcl_sec : (s.onXcl f).sec = s.sec := rfl
@[simp] theorem State.onXcl_cal : (s.onXcl f).cal = s.cal := rfl
@[simp] theorem State.onXcl_pwr : (s.onXcl f).pwr = s.pwr := rfl
@[simp] theorem State.onXcl_thm : (s.onXcl f).thm = s.thm := rfl
@[simp] theorem State.onXcl_tick : (s.onXcl f).tick = s.tick := rfl
@[simp] theorem State.onXcl_live : (s.onXcl f).live = s.live := rfl
@[simp] theorem State.onXcl_pictureStops : (s.onXcl f).pictureStops = s.pictureStops := rfl
end

section
variable (f : Slc → Slc)
@[simp] theorem State.onSlc_pending : (s.onSlc f).pending = s.pending := rfl
@[simp] theorem State.onSlc_ns : (s.onSlc f).ns = s.ns := rfl
@[simp] theorem State.onSlc_phase : (s.onSlc f).phase = s.phase := rfl
@[simp] theorem State.onSlc_frame : (s.onSlc f).frame = s.frame := rfl
@[simp] theorem State.onSlc_powered : (s.onSlc f).powered = s.powered := rfl
@[simp] theorem State.onSlc_relNs : (s.onSlc f).relNs = s.relNs := rfl
@[simp] theorem State.onSlc_porst : (s.onSlc f).porst = s.porst := rfl
@[simp] theorem State.onSlc_wrst : (s.onSlc f).wrst = s.wrst := rfl
@[simp] theorem State.onSlc_coldReset : (s.onSlc f).coldReset = s.coldReset := rfl
@[simp] theorem State.onSlc_straps : (s.onSlc f).straps = s.straps := rfl
@[simp] theorem State.onSlc_tapIr : (s.onSlc f).tapIr = s.tapIr := rfl
@[simp] theorem State.onSlc_gradeX : (s.onSlc f).gradeX = s.gradeX := rfl
@[simp] theorem State.onSlc_free : (s.onSlc f).free = s.free := rfl
@[simp] theorem State.onSlc_wrapped : (s.onSlc f).wrapped = s.wrapped := rfl
@[simp] theorem State.onSlc_raised : (s.onSlc f).raised = s.raised := rfl
@[simp] theorem State.onSlc_hif : (s.onSlc f).hif = s.hif := rfl
@[simp] theorem State.onSlc_tim : (s.onSlc f).tim = s.tim := rfl
@[simp] theorem State.onSlc_seq : (s.onSlc f).seq = s.seq := rfl
@[simp] theorem State.onSlc_ill : (s.onSlc f).ill = s.ill := rfl
@[simp] theorem State.onSlc_cle : (s.onSlc f).cle = s.cle := rfl
@[simp] theorem State.onSlc_xcl : (s.onSlc f).xcl = s.xcl := rfl
@[simp] theorem State.onSlc_slc : (s.onSlc f).slc = f s.slc := rfl
@[simp] theorem State.onSlc_glk : (s.onSlc f).glk = s.glk := rfl
@[simp] theorem State.onSlc_ahm : (s.onSlc f).ahm = s.ahm := rfl
@[simp] theorem State.onSlc_cmp : (s.onSlc f).cmp = s.cmp := rfl
@[simp] theorem State.onSlc_fab : (s.onSlc f).fab = s.fab := rfl
@[simp] theorem State.onSlc_mem : (s.onSlc f).mem = s.mem := rfl
@[simp] theorem State.onSlc_mgt : (s.onSlc f).mgt = s.mgt := rfl
@[simp] theorem State.onSlc_sec : (s.onSlc f).sec = s.sec := rfl
@[simp] theorem State.onSlc_cal : (s.onSlc f).cal = s.cal := rfl
@[simp] theorem State.onSlc_pwr : (s.onSlc f).pwr = s.pwr := rfl
@[simp] theorem State.onSlc_thm : (s.onSlc f).thm = s.thm := rfl
@[simp] theorem State.onSlc_tick : (s.onSlc f).tick = s.tick := rfl
@[simp] theorem State.onSlc_live : (s.onSlc f).live = s.live := rfl
@[simp] theorem State.onSlc_blanked : (s.onSlc f).blanked = s.blanked := rfl
@[simp] theorem State.onSlc_pictureStops : (s.onSlc f).pictureStops = s.pictureStops := rfl
end

section
variable (f : Glk → Glk)
@[simp] theorem State.onGlk_pending : (s.onGlk f).pending = s.pending := rfl
@[simp] theorem State.onGlk_ns : (s.onGlk f).ns = s.ns := rfl
@[simp] theorem State.onGlk_phase : (s.onGlk f).phase = s.phase := rfl
@[simp] theorem State.onGlk_frame : (s.onGlk f).frame = s.frame := rfl
@[simp] theorem State.onGlk_powered : (s.onGlk f).powered = s.powered := rfl
@[simp] theorem State.onGlk_relNs : (s.onGlk f).relNs = s.relNs := rfl
@[simp] theorem State.onGlk_porst : (s.onGlk f).porst = s.porst := rfl
@[simp] theorem State.onGlk_wrst : (s.onGlk f).wrst = s.wrst := rfl
@[simp] theorem State.onGlk_coldReset : (s.onGlk f).coldReset = s.coldReset := rfl
@[simp] theorem State.onGlk_straps : (s.onGlk f).straps = s.straps := rfl
@[simp] theorem State.onGlk_tapIr : (s.onGlk f).tapIr = s.tapIr := rfl
@[simp] theorem State.onGlk_gradeX : (s.onGlk f).gradeX = s.gradeX := rfl
@[simp] theorem State.onGlk_free : (s.onGlk f).free = s.free := rfl
@[simp] theorem State.onGlk_wrapped : (s.onGlk f).wrapped = s.wrapped := rfl
@[simp] theorem State.onGlk_raised : (s.onGlk f).raised = s.raised := rfl
@[simp] theorem State.onGlk_hif : (s.onGlk f).hif = s.hif := rfl
@[simp] theorem State.onGlk_tim : (s.onGlk f).tim = s.tim := rfl
@[simp] theorem State.onGlk_seq : (s.onGlk f).seq = s.seq := rfl
@[simp] theorem State.onGlk_ill : (s.onGlk f).ill = s.ill := rfl
@[simp] theorem State.onGlk_cle : (s.onGlk f).cle = s.cle := rfl
@[simp] theorem State.onGlk_xcl : (s.onGlk f).xcl = s.xcl := rfl
@[simp] theorem State.onGlk_slc : (s.onGlk f).slc = s.slc := rfl
@[simp] theorem State.onGlk_glk : (s.onGlk f).glk = f s.glk := rfl
@[simp] theorem State.onGlk_ahm : (s.onGlk f).ahm = s.ahm := rfl
@[simp] theorem State.onGlk_cmp : (s.onGlk f).cmp = s.cmp := rfl
@[simp] theorem State.onGlk_fab : (s.onGlk f).fab = s.fab := rfl
@[simp] theorem State.onGlk_mem : (s.onGlk f).mem = s.mem := rfl
@[simp] theorem State.onGlk_mgt : (s.onGlk f).mgt = s.mgt := rfl
@[simp] theorem State.onGlk_sec : (s.onGlk f).sec = s.sec := rfl
@[simp] theorem State.onGlk_cal : (s.onGlk f).cal = s.cal := rfl
@[simp] theorem State.onGlk_pwr : (s.onGlk f).pwr = s.pwr := rfl
@[simp] theorem State.onGlk_thm : (s.onGlk f).thm = s.thm := rfl
@[simp] theorem State.onGlk_tick : (s.onGlk f).tick = s.tick := rfl
@[simp] theorem State.onGlk_live : (s.onGlk f).live = s.live := rfl
@[simp] theorem State.onGlk_blanked : (s.onGlk f).blanked = s.blanked := rfl
@[simp] theorem State.onGlk_pictureStops : (s.onGlk f).pictureStops = s.pictureStops := rfl
end

section
variable (f : Ahm → Ahm)
@[simp] theorem State.onAhm_pending : (s.onAhm f).pending = s.pending := rfl
@[simp] theorem State.onAhm_ns : (s.onAhm f).ns = s.ns := rfl
@[simp] theorem State.onAhm_phase : (s.onAhm f).phase = s.phase := rfl
@[simp] theorem State.onAhm_frame : (s.onAhm f).frame = s.frame := rfl
@[simp] theorem State.onAhm_powered : (s.onAhm f).powered = s.powered := rfl
@[simp] theorem State.onAhm_relNs : (s.onAhm f).relNs = s.relNs := rfl
@[simp] theorem State.onAhm_porst : (s.onAhm f).porst = s.porst := rfl
@[simp] theorem State.onAhm_wrst : (s.onAhm f).wrst = s.wrst := rfl
@[simp] theorem State.onAhm_coldReset : (s.onAhm f).coldReset = s.coldReset := rfl
@[simp] theorem State.onAhm_straps : (s.onAhm f).straps = s.straps := rfl
@[simp] theorem State.onAhm_tapIr : (s.onAhm f).tapIr = s.tapIr := rfl
@[simp] theorem State.onAhm_gradeX : (s.onAhm f).gradeX = s.gradeX := rfl
@[simp] theorem State.onAhm_free : (s.onAhm f).free = s.free := rfl
@[simp] theorem State.onAhm_wrapped : (s.onAhm f).wrapped = s.wrapped := rfl
@[simp] theorem State.onAhm_raised : (s.onAhm f).raised = s.raised := rfl
@[simp] theorem State.onAhm_hif : (s.onAhm f).hif = s.hif := rfl
@[simp] theorem State.onAhm_tim : (s.onAhm f).tim = s.tim := rfl
@[simp] theorem State.onAhm_seq : (s.onAhm f).seq = s.seq := rfl
@[simp] theorem State.onAhm_ill : (s.onAhm f).ill = s.ill := rfl
@[simp] theorem State.onAhm_cle : (s.onAhm f).cle = s.cle := rfl
@[simp] theorem State.onAhm_xcl : (s.onAhm f).xcl = s.xcl := rfl
@[simp] theorem State.onAhm_slc : (s.onAhm f).slc = s.slc := rfl
@[simp] theorem State.onAhm_glk : (s.onAhm f).glk = s.glk := rfl
@[simp] theorem State.onAhm_ahm : (s.onAhm f).ahm = f s.ahm := rfl
@[simp] theorem State.onAhm_cmp : (s.onAhm f).cmp = s.cmp := rfl
@[simp] theorem State.onAhm_fab : (s.onAhm f).fab = s.fab := rfl
@[simp] theorem State.onAhm_mem : (s.onAhm f).mem = s.mem := rfl
@[simp] theorem State.onAhm_mgt : (s.onAhm f).mgt = s.mgt := rfl
@[simp] theorem State.onAhm_sec : (s.onAhm f).sec = s.sec := rfl
@[simp] theorem State.onAhm_cal : (s.onAhm f).cal = s.cal := rfl
@[simp] theorem State.onAhm_pwr : (s.onAhm f).pwr = s.pwr := rfl
@[simp] theorem State.onAhm_thm : (s.onAhm f).thm = s.thm := rfl
@[simp] theorem State.onAhm_tick : (s.onAhm f).tick = s.tick := rfl
@[simp] theorem State.onAhm_live : (s.onAhm f).live = s.live := rfl
@[simp] theorem State.onAhm_blanked : (s.onAhm f).blanked = s.blanked := rfl
@[simp] theorem State.onAhm_pictureStops : (s.onAhm f).pictureStops = s.pictureStops := rfl
end

section
variable (f : Cmp → Cmp)
@[simp] theorem State.onCmp_pending : (s.onCmp f).pending = s.pending := rfl
@[simp] theorem State.onCmp_ns : (s.onCmp f).ns = s.ns := rfl
@[simp] theorem State.onCmp_phase : (s.onCmp f).phase = s.phase := rfl
@[simp] theorem State.onCmp_frame : (s.onCmp f).frame = s.frame := rfl
@[simp] theorem State.onCmp_powered : (s.onCmp f).powered = s.powered := rfl
@[simp] theorem State.onCmp_relNs : (s.onCmp f).relNs = s.relNs := rfl
@[simp] theorem State.onCmp_porst : (s.onCmp f).porst = s.porst := rfl
@[simp] theorem State.onCmp_wrst : (s.onCmp f).wrst = s.wrst := rfl
@[simp] theorem State.onCmp_coldReset : (s.onCmp f).coldReset = s.coldReset := rfl
@[simp] theorem State.onCmp_straps : (s.onCmp f).straps = s.straps := rfl
@[simp] theorem State.onCmp_tapIr : (s.onCmp f).tapIr = s.tapIr := rfl
@[simp] theorem State.onCmp_gradeX : (s.onCmp f).gradeX = s.gradeX := rfl
@[simp] theorem State.onCmp_free : (s.onCmp f).free = s.free := rfl
@[simp] theorem State.onCmp_wrapped : (s.onCmp f).wrapped = s.wrapped := rfl
@[simp] theorem State.onCmp_raised : (s.onCmp f).raised = s.raised := rfl
@[simp] theorem State.onCmp_hif : (s.onCmp f).hif = s.hif := rfl
@[simp] theorem State.onCmp_tim : (s.onCmp f).tim = s.tim := rfl
@[simp] theorem State.onCmp_seq : (s.onCmp f).seq = s.seq := rfl
@[simp] theorem State.onCmp_ill : (s.onCmp f).ill = s.ill := rfl
@[simp] theorem State.onCmp_cle : (s.onCmp f).cle = s.cle := rfl
@[simp] theorem State.onCmp_xcl : (s.onCmp f).xcl = s.xcl := rfl
@[simp] theorem State.onCmp_slc : (s.onCmp f).slc = s.slc := rfl
@[simp] theorem State.onCmp_glk : (s.onCmp f).glk = s.glk := rfl
@[simp] theorem State.onCmp_ahm : (s.onCmp f).ahm = s.ahm := rfl
@[simp] theorem State.onCmp_cmp : (s.onCmp f).cmp = f s.cmp := rfl
@[simp] theorem State.onCmp_fab : (s.onCmp f).fab = s.fab := rfl
@[simp] theorem State.onCmp_mem : (s.onCmp f).mem = s.mem := rfl
@[simp] theorem State.onCmp_mgt : (s.onCmp f).mgt = s.mgt := rfl
@[simp] theorem State.onCmp_sec : (s.onCmp f).sec = s.sec := rfl
@[simp] theorem State.onCmp_cal : (s.onCmp f).cal = s.cal := rfl
@[simp] theorem State.onCmp_pwr : (s.onCmp f).pwr = s.pwr := rfl
@[simp] theorem State.onCmp_thm : (s.onCmp f).thm = s.thm := rfl
@[simp] theorem State.onCmp_tick : (s.onCmp f).tick = s.tick := rfl
@[simp] theorem State.onCmp_live : (s.onCmp f).live = s.live := rfl
@[simp] theorem State.onCmp_blanked : (s.onCmp f).blanked = s.blanked := rfl
@[simp] theorem State.onCmp_pictureStops : (s.onCmp f).pictureStops = s.pictureStops := rfl
end

section
variable (f : Fab → Fab)
@[simp] theorem State.onFab_pending : (s.onFab f).pending = s.pending := rfl
@[simp] theorem State.onFab_ns : (s.onFab f).ns = s.ns := rfl
@[simp] theorem State.onFab_phase : (s.onFab f).phase = s.phase := rfl
@[simp] theorem State.onFab_frame : (s.onFab f).frame = s.frame := rfl
@[simp] theorem State.onFab_powered : (s.onFab f).powered = s.powered := rfl
@[simp] theorem State.onFab_relNs : (s.onFab f).relNs = s.relNs := rfl
@[simp] theorem State.onFab_porst : (s.onFab f).porst = s.porst := rfl
@[simp] theorem State.onFab_wrst : (s.onFab f).wrst = s.wrst := rfl
@[simp] theorem State.onFab_coldReset : (s.onFab f).coldReset = s.coldReset := rfl
@[simp] theorem State.onFab_straps : (s.onFab f).straps = s.straps := rfl
@[simp] theorem State.onFab_tapIr : (s.onFab f).tapIr = s.tapIr := rfl
@[simp] theorem State.onFab_gradeX : (s.onFab f).gradeX = s.gradeX := rfl
@[simp] theorem State.onFab_free : (s.onFab f).free = s.free := rfl
@[simp] theorem State.onFab_wrapped : (s.onFab f).wrapped = s.wrapped := rfl
@[simp] theorem State.onFab_raised : (s.onFab f).raised = s.raised := rfl
@[simp] theorem State.onFab_hif : (s.onFab f).hif = s.hif := rfl
@[simp] theorem State.onFab_tim : (s.onFab f).tim = s.tim := rfl
@[simp] theorem State.onFab_seq : (s.onFab f).seq = s.seq := rfl
@[simp] theorem State.onFab_ill : (s.onFab f).ill = s.ill := rfl
@[simp] theorem State.onFab_cle : (s.onFab f).cle = s.cle := rfl
@[simp] theorem State.onFab_xcl : (s.onFab f).xcl = s.xcl := rfl
@[simp] theorem State.onFab_slc : (s.onFab f).slc = s.slc := rfl
@[simp] theorem State.onFab_glk : (s.onFab f).glk = s.glk := rfl
@[simp] theorem State.onFab_ahm : (s.onFab f).ahm = s.ahm := rfl
@[simp] theorem State.onFab_cmp : (s.onFab f).cmp = s.cmp := rfl
@[simp] theorem State.onFab_fab : (s.onFab f).fab = f s.fab := rfl
@[simp] theorem State.onFab_mem : (s.onFab f).mem = s.mem := rfl
@[simp] theorem State.onFab_mgt : (s.onFab f).mgt = s.mgt := rfl
@[simp] theorem State.onFab_sec : (s.onFab f).sec = s.sec := rfl
@[simp] theorem State.onFab_cal : (s.onFab f).cal = s.cal := rfl
@[simp] theorem State.onFab_pwr : (s.onFab f).pwr = s.pwr := rfl
@[simp] theorem State.onFab_thm : (s.onFab f).thm = s.thm := rfl
@[simp] theorem State.onFab_tick : (s.onFab f).tick = s.tick := rfl
@[simp] theorem State.onFab_live : (s.onFab f).live = s.live := rfl
@[simp] theorem State.onFab_blanked : (s.onFab f).blanked = s.blanked := rfl
@[simp] theorem State.onFab_pictureStops : (s.onFab f).pictureStops = s.pictureStops := rfl
end

section
variable (f : Mem → Mem)
@[simp] theorem State.onMem_pending : (s.onMem f).pending = s.pending := rfl
@[simp] theorem State.onMem_ns : (s.onMem f).ns = s.ns := rfl
@[simp] theorem State.onMem_phase : (s.onMem f).phase = s.phase := rfl
@[simp] theorem State.onMem_frame : (s.onMem f).frame = s.frame := rfl
@[simp] theorem State.onMem_powered : (s.onMem f).powered = s.powered := rfl
@[simp] theorem State.onMem_relNs : (s.onMem f).relNs = s.relNs := rfl
@[simp] theorem State.onMem_porst : (s.onMem f).porst = s.porst := rfl
@[simp] theorem State.onMem_wrst : (s.onMem f).wrst = s.wrst := rfl
@[simp] theorem State.onMem_coldReset : (s.onMem f).coldReset = s.coldReset := rfl
@[simp] theorem State.onMem_straps : (s.onMem f).straps = s.straps := rfl
@[simp] theorem State.onMem_tapIr : (s.onMem f).tapIr = s.tapIr := rfl
@[simp] theorem State.onMem_gradeX : (s.onMem f).gradeX = s.gradeX := rfl
@[simp] theorem State.onMem_free : (s.onMem f).free = s.free := rfl
@[simp] theorem State.onMem_wrapped : (s.onMem f).wrapped = s.wrapped := rfl
@[simp] theorem State.onMem_raised : (s.onMem f).raised = s.raised := rfl
@[simp] theorem State.onMem_hif : (s.onMem f).hif = s.hif := rfl
@[simp] theorem State.onMem_tim : (s.onMem f).tim = s.tim := rfl
@[simp] theorem State.onMem_seq : (s.onMem f).seq = s.seq := rfl
@[simp] theorem State.onMem_ill : (s.onMem f).ill = s.ill := rfl
@[simp] theorem State.onMem_cle : (s.onMem f).cle = s.cle := rfl
@[simp] theorem State.onMem_xcl : (s.onMem f).xcl = s.xcl := rfl
@[simp] theorem State.onMem_slc : (s.onMem f).slc = s.slc := rfl
@[simp] theorem State.onMem_glk : (s.onMem f).glk = s.glk := rfl
@[simp] theorem State.onMem_ahm : (s.onMem f).ahm = s.ahm := rfl
@[simp] theorem State.onMem_cmp : (s.onMem f).cmp = s.cmp := rfl
@[simp] theorem State.onMem_fab : (s.onMem f).fab = s.fab := rfl
@[simp] theorem State.onMem_mem : (s.onMem f).mem = f s.mem := rfl
@[simp] theorem State.onMem_mgt : (s.onMem f).mgt = s.mgt := rfl
@[simp] theorem State.onMem_sec : (s.onMem f).sec = s.sec := rfl
@[simp] theorem State.onMem_cal : (s.onMem f).cal = s.cal := rfl
@[simp] theorem State.onMem_pwr : (s.onMem f).pwr = s.pwr := rfl
@[simp] theorem State.onMem_thm : (s.onMem f).thm = s.thm := rfl
@[simp] theorem State.onMem_tick : (s.onMem f).tick = s.tick := rfl
@[simp] theorem State.onMem_live : (s.onMem f).live = s.live := rfl
@[simp] theorem State.onMem_blanked : (s.onMem f).blanked = s.blanked := rfl
end

section
variable (f : Mgt → Mgt)
@[simp] theorem State.onMgt_pending : (s.onMgt f).pending = s.pending := rfl
@[simp] theorem State.onMgt_ns : (s.onMgt f).ns = s.ns := rfl
@[simp] theorem State.onMgt_phase : (s.onMgt f).phase = s.phase := rfl
@[simp] theorem State.onMgt_frame : (s.onMgt f).frame = s.frame := rfl
@[simp] theorem State.onMgt_powered : (s.onMgt f).powered = s.powered := rfl
@[simp] theorem State.onMgt_relNs : (s.onMgt f).relNs = s.relNs := rfl
@[simp] theorem State.onMgt_porst : (s.onMgt f).porst = s.porst := rfl
@[simp] theorem State.onMgt_wrst : (s.onMgt f).wrst = s.wrst := rfl
@[simp] theorem State.onMgt_coldReset : (s.onMgt f).coldReset = s.coldReset := rfl
@[simp] theorem State.onMgt_straps : (s.onMgt f).straps = s.straps := rfl
@[simp] theorem State.onMgt_tapIr : (s.onMgt f).tapIr = s.tapIr := rfl
@[simp] theorem State.onMgt_gradeX : (s.onMgt f).gradeX = s.gradeX := rfl
@[simp] theorem State.onMgt_free : (s.onMgt f).free = s.free := rfl
@[simp] theorem State.onMgt_wrapped : (s.onMgt f).wrapped = s.wrapped := rfl
@[simp] theorem State.onMgt_raised : (s.onMgt f).raised = s.raised := rfl
@[simp] theorem State.onMgt_hif : (s.onMgt f).hif = s.hif := rfl
@[simp] theorem State.onMgt_tim : (s.onMgt f).tim = s.tim := rfl
@[simp] theorem State.onMgt_seq : (s.onMgt f).seq = s.seq := rfl
@[simp] theorem State.onMgt_ill : (s.onMgt f).ill = s.ill := rfl
@[simp] theorem State.onMgt_cle : (s.onMgt f).cle = s.cle := rfl
@[simp] theorem State.onMgt_xcl : (s.onMgt f).xcl = s.xcl := rfl
@[simp] theorem State.onMgt_slc : (s.onMgt f).slc = s.slc := rfl
@[simp] theorem State.onMgt_glk : (s.onMgt f).glk = s.glk := rfl
@[simp] theorem State.onMgt_ahm : (s.onMgt f).ahm = s.ahm := rfl
@[simp] theorem State.onMgt_cmp : (s.onMgt f).cmp = s.cmp := rfl
@[simp] theorem State.onMgt_fab : (s.onMgt f).fab = s.fab := rfl
@[simp] theorem State.onMgt_mem : (s.onMgt f).mem = s.mem := rfl
@[simp] theorem State.onMgt_mgt : (s.onMgt f).mgt = f s.mgt := rfl
@[simp] theorem State.onMgt_sec : (s.onMgt f).sec = s.sec := rfl
@[simp] theorem State.onMgt_cal : (s.onMgt f).cal = s.cal := rfl
@[simp] theorem State.onMgt_pwr : (s.onMgt f).pwr = s.pwr := rfl
@[simp] theorem State.onMgt_thm : (s.onMgt f).thm = s.thm := rfl
@[simp] theorem State.onMgt_tick : (s.onMgt f).tick = s.tick := rfl
@[simp] theorem State.onMgt_live : (s.onMgt f).live = s.live := rfl
@[simp] theorem State.onMgt_blanked : (s.onMgt f).blanked = s.blanked := rfl
end

section
variable (f : Sec → Sec)
@[simp] theorem State.onSec_pending : (s.onSec f).pending = s.pending := rfl
@[simp] theorem State.onSec_ns : (s.onSec f).ns = s.ns := rfl
@[simp] theorem State.onSec_phase : (s.onSec f).phase = s.phase := rfl
@[simp] theorem State.onSec_frame : (s.onSec f).frame = s.frame := rfl
@[simp] theorem State.onSec_powered : (s.onSec f).powered = s.powered := rfl
@[simp] theorem State.onSec_relNs : (s.onSec f).relNs = s.relNs := rfl
@[simp] theorem State.onSec_porst : (s.onSec f).porst = s.porst := rfl
@[simp] theorem State.onSec_wrst : (s.onSec f).wrst = s.wrst := rfl
@[simp] theorem State.onSec_coldReset : (s.onSec f).coldReset = s.coldReset := rfl
@[simp] theorem State.onSec_straps : (s.onSec f).straps = s.straps := rfl
@[simp] theorem State.onSec_tapIr : (s.onSec f).tapIr = s.tapIr := rfl
@[simp] theorem State.onSec_gradeX : (s.onSec f).gradeX = s.gradeX := rfl
@[simp] theorem State.onSec_free : (s.onSec f).free = s.free := rfl
@[simp] theorem State.onSec_wrapped : (s.onSec f).wrapped = s.wrapped := rfl
@[simp] theorem State.onSec_raised : (s.onSec f).raised = s.raised := rfl
@[simp] theorem State.onSec_hif : (s.onSec f).hif = s.hif := rfl
@[simp] theorem State.onSec_tim : (s.onSec f).tim = s.tim := rfl
@[simp] theorem State.onSec_seq : (s.onSec f).seq = s.seq := rfl
@[simp] theorem State.onSec_ill : (s.onSec f).ill = s.ill := rfl
@[simp] theorem State.onSec_cle : (s.onSec f).cle = s.cle := rfl
@[simp] theorem State.onSec_xcl : (s.onSec f).xcl = s.xcl := rfl
@[simp] theorem State.onSec_slc : (s.onSec f).slc = s.slc := rfl
@[simp] theorem State.onSec_glk : (s.onSec f).glk = s.glk := rfl
@[simp] theorem State.onSec_ahm : (s.onSec f).ahm = s.ahm := rfl
@[simp] theorem State.onSec_cmp : (s.onSec f).cmp = s.cmp := rfl
@[simp] theorem State.onSec_fab : (s.onSec f).fab = s.fab := rfl
@[simp] theorem State.onSec_mem : (s.onSec f).mem = s.mem := rfl
@[simp] theorem State.onSec_mgt : (s.onSec f).mgt = s.mgt := rfl
@[simp] theorem State.onSec_sec : (s.onSec f).sec = f s.sec := rfl
@[simp] theorem State.onSec_cal : (s.onSec f).cal = s.cal := rfl
@[simp] theorem State.onSec_pwr : (s.onSec f).pwr = s.pwr := rfl
@[simp] theorem State.onSec_thm : (s.onSec f).thm = s.thm := rfl
@[simp] theorem State.onSec_tick : (s.onSec f).tick = s.tick := rfl
@[simp] theorem State.onSec_live : (s.onSec f).live = s.live := rfl
@[simp] theorem State.onSec_blanked : (s.onSec f).blanked = s.blanked := rfl
@[simp] theorem State.onSec_pictureStops : (s.onSec f).pictureStops = s.pictureStops := rfl
end

section
variable (f : Cal → Cal)
@[simp] theorem State.onCal_pending : (s.onCal f).pending = s.pending := rfl
@[simp] theorem State.onCal_ns : (s.onCal f).ns = s.ns := rfl
@[simp] theorem State.onCal_phase : (s.onCal f).phase = s.phase := rfl
@[simp] theorem State.onCal_frame : (s.onCal f).frame = s.frame := rfl
@[simp] theorem State.onCal_powered : (s.onCal f).powered = s.powered := rfl
@[simp] theorem State.onCal_relNs : (s.onCal f).relNs = s.relNs := rfl
@[simp] theorem State.onCal_porst : (s.onCal f).porst = s.porst := rfl
@[simp] theorem State.onCal_wrst : (s.onCal f).wrst = s.wrst := rfl
@[simp] theorem State.onCal_coldReset : (s.onCal f).coldReset = s.coldReset := rfl
@[simp] theorem State.onCal_straps : (s.onCal f).straps = s.straps := rfl
@[simp] theorem State.onCal_tapIr : (s.onCal f).tapIr = s.tapIr := rfl
@[simp] theorem State.onCal_gradeX : (s.onCal f).gradeX = s.gradeX := rfl
@[simp] theorem State.onCal_free : (s.onCal f).free = s.free := rfl
@[simp] theorem State.onCal_wrapped : (s.onCal f).wrapped = s.wrapped := rfl
@[simp] theorem State.onCal_raised : (s.onCal f).raised = s.raised := rfl
@[simp] theorem State.onCal_hif : (s.onCal f).hif = s.hif := rfl
@[simp] theorem State.onCal_tim : (s.onCal f).tim = s.tim := rfl
@[simp] theorem State.onCal_seq : (s.onCal f).seq = s.seq := rfl
@[simp] theorem State.onCal_ill : (s.onCal f).ill = s.ill := rfl
@[simp] theorem State.onCal_cle : (s.onCal f).cle = s.cle := rfl
@[simp] theorem State.onCal_xcl : (s.onCal f).xcl = s.xcl := rfl
@[simp] theorem State.onCal_slc : (s.onCal f).slc = s.slc := rfl
@[simp] theorem State.onCal_glk : (s.onCal f).glk = s.glk := rfl
@[simp] theorem State.onCal_ahm : (s.onCal f).ahm = s.ahm := rfl
@[simp] theorem State.onCal_cmp : (s.onCal f).cmp = s.cmp := rfl
@[simp] theorem State.onCal_fab : (s.onCal f).fab = s.fab := rfl
@[simp] theorem State.onCal_mem : (s.onCal f).mem = s.mem := rfl
@[simp] theorem State.onCal_mgt : (s.onCal f).mgt = s.mgt := rfl
@[simp] theorem State.onCal_sec : (s.onCal f).sec = s.sec := rfl
@[simp] theorem State.onCal_cal : (s.onCal f).cal = f s.cal := rfl
@[simp] theorem State.onCal_pwr : (s.onCal f).pwr = s.pwr := rfl
@[simp] theorem State.onCal_thm : (s.onCal f).thm = s.thm := rfl
@[simp] theorem State.onCal_tick : (s.onCal f).tick = s.tick := rfl
@[simp] theorem State.onCal_live : (s.onCal f).live = s.live := rfl
@[simp] theorem State.onCal_blanked : (s.onCal f).blanked = s.blanked := rfl
@[simp] theorem State.onCal_pictureStops : (s.onCal f).pictureStops = s.pictureStops := rfl
end

section
variable (f : Pwr → Pwr)
@[simp] theorem State.onPwr_pending : (s.onPwr f).pending = s.pending := rfl
@[simp] theorem State.onPwr_ns : (s.onPwr f).ns = s.ns := rfl
@[simp] theorem State.onPwr_phase : (s.onPwr f).phase = s.phase := rfl
@[simp] theorem State.onPwr_frame : (s.onPwr f).frame = s.frame := rfl
@[simp] theorem State.onPwr_powered : (s.onPwr f).powered = s.powered := rfl
@[simp] theorem State.onPwr_relNs : (s.onPwr f).relNs = s.relNs := rfl
@[simp] theorem State.onPwr_porst : (s.onPwr f).porst = s.porst := rfl
@[simp] theorem State.onPwr_wrst : (s.onPwr f).wrst = s.wrst := rfl
@[simp] theorem State.onPwr_coldReset : (s.onPwr f).coldReset = s.coldReset := rfl
@[simp] theorem State.onPwr_straps : (s.onPwr f).straps = s.straps := rfl
@[simp] theorem State.onPwr_tapIr : (s.onPwr f).tapIr = s.tapIr := rfl
@[simp] theorem State.onPwr_gradeX : (s.onPwr f).gradeX = s.gradeX := rfl
@[simp] theorem State.onPwr_free : (s.onPwr f).free = s.free := rfl
@[simp] theorem State.onPwr_wrapped : (s.onPwr f).wrapped = s.wrapped := rfl
@[simp] theorem State.onPwr_raised : (s.onPwr f).raised = s.raised := rfl
@[simp] theorem State.onPwr_hif : (s.onPwr f).hif = s.hif := rfl
@[simp] theorem State.onPwr_tim : (s.onPwr f).tim = s.tim := rfl
@[simp] theorem State.onPwr_seq : (s.onPwr f).seq = s.seq := rfl
@[simp] theorem State.onPwr_ill : (s.onPwr f).ill = s.ill := rfl
@[simp] theorem State.onPwr_cle : (s.onPwr f).cle = s.cle := rfl
@[simp] theorem State.onPwr_xcl : (s.onPwr f).xcl = s.xcl := rfl
@[simp] theorem State.onPwr_slc : (s.onPwr f).slc = s.slc := rfl
@[simp] theorem State.onPwr_glk : (s.onPwr f).glk = s.glk := rfl
@[simp] theorem State.onPwr_ahm : (s.onPwr f).ahm = s.ahm := rfl
@[simp] theorem State.onPwr_cmp : (s.onPwr f).cmp = s.cmp := rfl
@[simp] theorem State.onPwr_fab : (s.onPwr f).fab = s.fab := rfl
@[simp] theorem State.onPwr_mem : (s.onPwr f).mem = s.mem := rfl
@[simp] theorem State.onPwr_mgt : (s.onPwr f).mgt = s.mgt := rfl
@[simp] theorem State.onPwr_sec : (s.onPwr f).sec = s.sec := rfl
@[simp] theorem State.onPwr_cal : (s.onPwr f).cal = s.cal := rfl
@[simp] theorem State.onPwr_pwr : (s.onPwr f).pwr = f s.pwr := rfl
@[simp] theorem State.onPwr_thm : (s.onPwr f).thm = s.thm := rfl
@[simp] theorem State.onPwr_tick : (s.onPwr f).tick = s.tick := rfl
@[simp] theorem State.onPwr_blanked : (s.onPwr f).blanked = s.blanked := rfl
end

section
variable (f : Thm → Thm)
@[simp] theorem State.onThm_pending : (s.onThm f).pending = s.pending := rfl
@[simp] theorem State.onThm_ns : (s.onThm f).ns = s.ns := rfl
@[simp] theorem State.onThm_phase : (s.onThm f).phase = s.phase := rfl
@[simp] theorem State.onThm_frame : (s.onThm f).frame = s.frame := rfl
@[simp] theorem State.onThm_powered : (s.onThm f).powered = s.powered := rfl
@[simp] theorem State.onThm_relNs : (s.onThm f).relNs = s.relNs := rfl
@[simp] theorem State.onThm_porst : (s.onThm f).porst = s.porst := rfl
@[simp] theorem State.onThm_wrst : (s.onThm f).wrst = s.wrst := rfl
@[simp] theorem State.onThm_coldReset : (s.onThm f).coldReset = s.coldReset := rfl
@[simp] theorem State.onThm_straps : (s.onThm f).straps = s.straps := rfl
@[simp] theorem State.onThm_tapIr : (s.onThm f).tapIr = s.tapIr := rfl
@[simp] theorem State.onThm_gradeX : (s.onThm f).gradeX = s.gradeX := rfl
@[simp] theorem State.onThm_free : (s.onThm f).free = s.free := rfl
@[simp] theorem State.onThm_wrapped : (s.onThm f).wrapped = s.wrapped := rfl
@[simp] theorem State.onThm_raised : (s.onThm f).raised = s.raised := rfl
@[simp] theorem State.onThm_hif : (s.onThm f).hif = s.hif := rfl
@[simp] theorem State.onThm_tim : (s.onThm f).tim = s.tim := rfl
@[simp] theorem State.onThm_seq : (s.onThm f).seq = s.seq := rfl
@[simp] theorem State.onThm_ill : (s.onThm f).ill = s.ill := rfl
@[simp] theorem State.onThm_cle : (s.onThm f).cle = s.cle := rfl
@[simp] theorem State.onThm_xcl : (s.onThm f).xcl = s.xcl := rfl
@[simp] theorem State.onThm_slc : (s.onThm f).slc = s.slc := rfl
@[simp] theorem State.onThm_glk : (s.onThm f).glk = s.glk := rfl
@[simp] theorem State.onThm_ahm : (s.onThm f).ahm = s.ahm := rfl
@[simp] theorem State.onThm_cmp : (s.onThm f).cmp = s.cmp := rfl
@[simp] theorem State.onThm_fab : (s.onThm f).fab = s.fab := rfl
@[simp] theorem State.onThm_mem : (s.onThm f).mem = s.mem := rfl
@[simp] theorem State.onThm_mgt : (s.onThm f).mgt = s.mgt := rfl
@[simp] theorem State.onThm_sec : (s.onThm f).sec = s.sec := rfl
@[simp] theorem State.onThm_cal : (s.onThm f).cal = s.cal := rfl
@[simp] theorem State.onThm_pwr : (s.onThm f).pwr = s.pwr := rfl
@[simp] theorem State.onThm_thm : (s.onThm f).thm = f s.thm := rfl
@[simp] theorem State.onThm_tick : (s.onThm f).tick = s.tick := rfl
@[simp] theorem State.onThm_live : (s.onThm f).live = s.live := rfl
@[simp] theorem State.onThm_blanked : (s.onThm f).blanked = s.blanked := rfl
end

/-! ## Updates of one entry of a block -/

@[simp] theorem State.onPort_def (i : Nat) (f : Port → Port) :
    s.onPort i f = s.onSeq fun x => { x with ports := upd x.ports i f } := rfl
theorem State.onPort_self (i : Nat) (f : Port → Port) (h : i < 4) : (s.onPort i f).port i = f (s.port i) :=
  nth_upd_self _ _ _ h
theorem State.onPort_other (i j : Nat) (f : Port → Port) (h : i ≠ j) : (s.onPort i f).port j = s.port j :=
  nth_upd_other _ _ _ _ h
@[simp] theorem State.onArr_def (i : Nat) (f : Arr → Arr) :
    s.onArr i f = s.onAhm fun x => { x with arrays := upd x.arrays i f } := rfl
theorem State.onArr_self (i : Nat) (f : Arr → Arr) (h : i < 4) : (s.onArr i f).arr i = f (s.arr i) :=
  nth_upd_self _ _ _ h
theorem State.onArr_other (i j : Nat) (f : Arr → Arr) (h : i ≠ j) : (s.onArr i f).arr j = s.arr j :=
  nth_upd_other _ _ _ _ h
@[simp] theorem State.onLink_def (i : Nat) (f : LinkPort → LinkPort) :
    s.onLink i f = s.onGlk fun x => { x with ports := upd x.ports i f } := rfl
theorem State.onLink_self (i : Nat) (f : LinkPort → LinkPort) (h : i < 4) : (s.onLink i f).link i = f (s.link i) :=
  nth_upd_self _ _ _ h
theorem State.onLink_other (i j : Nat) (f : LinkPort → LinkPort) (h : i ≠ j) : (s.onLink i f).link j = s.link j :=
  nth_upd_other _ _ _ _ h
@[simp] theorem State.onOctet_def (i : Nat) (f : Octet → Octet) :
    s.onOctet i f = s.onGlk fun x => { x with octets := upd x.octets i f } := rfl
theorem State.onOctet_self (i : Nat) (f : Octet → Octet) (h : i < 16) : (s.onOctet i f).octet i = f (s.octet i) :=
  nth_upd_self _ _ _ h
theorem State.onOctet_other (i j : Nat) (f : Octet → Octet) (h : i ≠ j) : (s.onOctet i f).octet j = s.octet j :=
  nth_upd_other _ _ _ _ h
@[simp] theorem State.onXset_def (i : Nat) (f : XSet → XSet) :
    s.onXset i f = s.onXcl fun x => { x with sets := upd x.sets i f } := rfl
theorem State.onXset_self (i : Nat) (f : XSet → XSet) (h : i < 4) : (s.onXset i f).xset i = f (s.xset i) :=
  nth_upd_self _ _ _ h
theorem State.onXset_other (i j : Nat) (f : XSet → XSet) (h : i ≠ j) : (s.onXset i f).xset j = s.xset j :=
  nth_upd_other _ _ _ _ h
@[simp] theorem State.onStore_def (i : Nat) (f : PlaneStore → PlaneStore) :
    s.onStore i f = s.onSlc fun x => { x with stores := upd x.stores i f } := rfl
theorem State.onStore_self (i : Nat) (f : PlaneStore → PlaneStore) (h : i < 5) : (s.onStore i f).store i = f (s.store i) :=
  nth_upd_self _ _ _ h
theorem State.onStore_other (i j : Nat) (f : PlaneStore → PlaneStore) (h : i ≠ j) : (s.onStore i f).store j = s.store j :=
  nth_upd_other _ _ _ _ h
@[simp] theorem State.onSlicer_def (i : Nat) (f : Slicer → Slicer) :
    s.onSlicer i f = s.onSlc fun x => { x with slicers := upd x.slicers i f } := rfl
theorem State.onSlicer_self (i : Nat) (f : Slicer → Slicer) (h : i < 8) : (s.onSlicer i f).slicer i = f (s.slicer i) :=
  nth_upd_self _ _ _ h
theorem State.onSlicer_other (i j : Nat) (f : Slicer → Slicer) (h : i ≠ j) : (s.onSlicer i f).slicer j = s.slicer j :=
  nth_upd_other _ _ _ _ h
@[simp] theorem State.onLoop_def (i : Nat) (f : Loop → Loop) :
    s.onLoop i f = s.onCle fun x => { x with loops := upd x.loops i f } := rfl
theorem State.onLoop_self (i : Nat) (f : Loop → Loop) (h : i < 64) : (s.onLoop i f).loop i = f (s.loop i) :=
  nth_upd_self _ _ _ h
theorem State.onLoop_other (i j : Nat) (f : Loop → Loop) (h : i ≠ j) : (s.onLoop i f).loop j = s.loop j :=
  nth_upd_other _ _ _ _ h
@[simp] theorem State.onChain_def (i : Nat) (f : Chain → Chain) :
    s.onChain i f = s.onIll fun x => { x with chains := upd x.chains i f } := rfl
theorem State.onChain_self (i : Nat) (f : Chain → Chain) (h : i < 4) : (s.onChain i f).chain i = f (s.chain i) :=
  nth_upd_self _ _ _ h
theorem State.onChain_other (i j : Nat) (f : Chain → Chain) (h : i ≠ j) : (s.onChain i f).chain j = s.chain j :=
  nth_upd_other _ _ _ _ h
@[simp] theorem State.onCview_def (i : Nat) (f : CmpView → CmpView) :
    s.onCview i f = s.onCmp fun x => { x with views := upd x.views i f } := rfl
theorem State.onCview_self (i : Nat) (f : CmpView → CmpView) (h : i < 5) : (s.onCview i f).cview i = f (s.cview i) :=
  nth_upd_self _ _ _ h
theorem State.onCview_other (i j : Nat) (f : CmpView → CmpView) (h : i ≠ j) : (s.onCview i f).cview j = s.cview j :=
  nth_upd_other _ _ _ _ h
@[simp] theorem State.onPipe_def (i : Nat) (f : Pipe → Pipe) :
    s.onPipe i f = s.onCmp fun x => { x with pipes := upd x.pipes i f } := rfl
theorem State.onPipe_self (i : Nat) (f : Pipe → Pipe) (h : i < 24) : (s.onPipe i f).pipe i = f (s.pipe i) :=
  nth_upd_self _ _ _ h
theorem State.onPipe_other (i j : Nat) (f : Pipe → Pipe) (h : i ≠ j) : (s.onPipe i f).pipe j = s.pipe j :=
  nth_upd_other _ _ _ _ h
@[simp] theorem State.onFview_def (i : Nat) (f : FabView → FabView) :
    s.onFview i f = s.onFab fun x => { x with views := upd x.views i f } := rfl
theorem State.onFview_self (i : Nat) (f : FabView → FabView) (h : i < 5) : (s.onFview i f).fview i = f (s.fview i) :=
  nth_upd_self _ _ _ h
theorem State.onFview_other (i j : Nat) (f : FabView → FabView) (h : i ≠ j) : (s.onFview i f).fview j = s.fview j :=
  nth_upd_other _ _ _ _ h
@[simp] theorem State.onCluster_def (i : Nat) (f : Cluster → Cluster) :
    s.onCluster i f = s.onFab fun x => { x with clusters := upd x.clusters i f } := rfl
theorem State.onCluster_self (i : Nat) (f : Cluster → Cluster) (h : i < 64) : (s.onCluster i f).cluster i = f (s.cluster i) :=
  nth_upd_self _ _ _ h
theorem State.onCluster_other (i j : Nat) (f : Cluster → Cluster) (h : i ≠ j) : (s.onCluster i f).cluster j = s.cluster j :=
  nth_upd_other _ _ _ _ h
@[simp] theorem State.onCam_def (i : Nat) (f : CamState → CamState) :
    s.onCam i f = s.onTim fun x => { x with cams := upd x.cams i f } := rfl
theorem State.onCam_self (i : Nat) (f : CamState → CamState) (h : i < 4) : (s.onCam i f).cam i = f (s.cam i) :=
  nth_upd_self _ _ _ h
theorem State.onCam_other (i j : Nat) (f : CamState → CamState) (h : i ≠ j) : (s.onCam i f).cam j = s.cam j :=
  nth_upd_other _ _ _ _ h

/-! ## The next free value -/

@[simp] theorem State.useFree_pending : s.useFree.pending = s.pending := rfl
@[simp] theorem State.useFree_ns : s.useFree.ns = s.ns := rfl
@[simp] theorem State.useFree_phase : s.useFree.phase = s.phase := rfl
@[simp] theorem State.useFree_frame : s.useFree.frame = s.frame := rfl
@[simp] theorem State.useFree_powered : s.useFree.powered = s.powered := rfl
@[simp] theorem State.useFree_relNs : s.useFree.relNs = s.relNs := rfl
@[simp] theorem State.useFree_porst : s.useFree.porst = s.porst := rfl
@[simp] theorem State.useFree_wrst : s.useFree.wrst = s.wrst := rfl
@[simp] theorem State.useFree_coldReset : s.useFree.coldReset = s.coldReset := rfl
@[simp] theorem State.useFree_straps : s.useFree.straps = s.straps := rfl
@[simp] theorem State.useFree_tapIr : s.useFree.tapIr = s.tapIr := rfl
@[simp] theorem State.useFree_gradeX : s.useFree.gradeX = s.gradeX := rfl
@[simp] theorem State.useFree_free : s.useFree.free = s.free + 1 := rfl
@[simp] theorem State.useFree_wrapped : s.useFree.wrapped = s.wrapped := rfl
@[simp] theorem State.useFree_raised : s.useFree.raised = s.raised := rfl
@[simp] theorem State.useFree_hif : s.useFree.hif = s.hif := rfl
@[simp] theorem State.useFree_tim : s.useFree.tim = s.tim := rfl
@[simp] theorem State.useFree_seq : s.useFree.seq = s.seq := rfl
@[simp] theorem State.useFree_ill : s.useFree.ill = s.ill := rfl
@[simp] theorem State.useFree_cle : s.useFree.cle = s.cle := rfl
@[simp] theorem State.useFree_xcl : s.useFree.xcl = s.xcl := rfl
@[simp] theorem State.useFree_slc : s.useFree.slc = s.slc := rfl
@[simp] theorem State.useFree_glk : s.useFree.glk = s.glk := rfl
@[simp] theorem State.useFree_ahm : s.useFree.ahm = s.ahm := rfl
@[simp] theorem State.useFree_cmp : s.useFree.cmp = s.cmp := rfl
@[simp] theorem State.useFree_fab : s.useFree.fab = s.fab := rfl
@[simp] theorem State.useFree_mem : s.useFree.mem = s.mem := rfl
@[simp] theorem State.useFree_mgt : s.useFree.mgt = s.mgt := rfl
@[simp] theorem State.useFree_sec : s.useFree.sec = s.sec := rfl
@[simp] theorem State.useFree_cal : s.useFree.cal = s.cal := rfl
@[simp] theorem State.useFree_pwr : s.useFree.pwr = s.pwr := rfl
@[simp] theorem State.useFree_thm : s.useFree.thm = s.thm := rfl

end

end Sys2Proof.Machine
end

