-- ==== Sys2Proof/Laws/Accept.lean ====
section
/-!
SUPPORT. What journaling, counting, replying and signalling leave unchanged, and what acceptance does to a command that is refused,
that waits, or that runs.
-/
namespace Sys2Proof.Machine

/-! ## The settings of a state -/

theorem onlyReports_refl (s : State) : onlyReports s s := rfl
theorem onlyReports_trans {a b c : State} (h : onlyReports a b) (k : onlyReports b c) : onlyReports a c := Eq.trans k h

@[simp] theorem settings_onTim (s : State) (f) : (s.onTim f).settings = s.settings.onTim f := rfl
@[simp] theorem settings_onSeq (s : State) (f) : (s.onSeq f).settings = s.settings.onSeq f := rfl
@[simp] theorem settings_onIll (s : State) (f) : (s.onIll f).settings = s.settings.onIll f := rfl
@[simp] theorem settings_onCle (s : State) (f) : (s.onCle f).settings = s.settings.onCle f := rfl
@[simp] theorem settings_onXcl (s : State) (f) : (s.onXcl f).settings = s.settings.onXcl f := rfl
@[simp] theorem settings_onSlc (s : State) (f) : (s.onSlc f).settings = s.settings.onSlc f := rfl
@[simp] theorem settings_onGlk (s : State) (f) : (s.onGlk f).settings = s.settings.onGlk f := rfl
@[simp] theorem settings_onAhm (s : State) (f) : (s.onAhm f).settings = s.settings.onAhm f := rfl
@[simp] theorem settings_onCmp (s : State) (f) : (s.onCmp f).settings = s.settings.onCmp f := rfl
@[simp] theorem settings_onFab (s : State) (f) : (s.onFab f).settings = s.settings.onFab f := rfl
@[simp] theorem settings_onMem (s : State) (f) : (s.onMem f).settings = s.settings.onMem f := rfl
@[simp] theorem settings_onSec (s : State) (f) : (s.onSec f).settings = s.settings.onSec f := rfl
@[simp] theorem settings_onCal (s : State) (f) : (s.onCal f).settings = s.settings.onCal f := rfl
@[simp] theorem settings_onPwr (s : State) (f) : (s.onPwr f).settings = s.settings.onPwr f := rfl
@[simp] theorem settings_onThm (s : State) (f) : (s.onThm f).settings = s.settings.onThm f := rfl
@[simp] theorem settings_useFree (s : State) : s.useFree.settings = s.settings.useFree := rfl

/-- An update of the host interface that its settings do not see. -/
theorem only_onHif {a s : State} (h : onlyReports a s) (f : Hif → Hif) (hf : (f s.hif).settings = s.hif.settings) :
    onlyReports a (s.onHif f) := by
  unfold onlyReports at h ⊢
  rw [← h]
  show { s with hif := (f s.hif).settings, mgt := _ } = _
  rw [hf]; rfl

/-- An update of the event log. -/
theorem only_onMgt {a s : State} (h : onlyReports a s) (f : Mgt → Mgt)
    (hf : { f s.mgt with log := [], logSeq := 0, logUnflushed := 0, logLostCnt := 0, flashLog := [], flashCnt := 0, sticky := 0 } =
      { s.mgt with log := [], logSeq := 0, logUnflushed := 0, logLostCnt := 0, flashLog := [], flashCnt := 0, sticky := 0 }) : onlyReports a (s.onMgt f) := by
  unfold onlyReports at h ⊢
  rw [← h]
  show { s with hif := s.hif.settings, mgt := { f s.mgt with log := [], logSeq := 0, logUnflushed := 0, logLostCnt := 0, flashLog := [], flashCnt := 0, sticky := 0 } } = _
  rw [hf]; rfl

theorem only_ite {a s t : State} {c : Prop} [Decidable c] (h : onlyReports a s) (k : onlyReports a t) :
    onlyReports a (if c then s else t) := by
  split
  · exact h
  · exact k

/-! ## The same update of two states that differ only in reports -/

theorem same_onHif {a s : State} (h : onlyReports a s) (f : Hif → Hif) (hf : (f s.hif).settings = (f a.hif).settings) :
    onlyReports (a.onHif f) (s.onHif f) := by
  unfold onlyReports at *
  have e (x : State) : (x.onHif f).settings = { x.settings with hif := (f x.hif).settings } := rfl
  rw [e, e, hf, h]

theorem same_onTim {a s : State} (h : onlyReports a s) (f) : onlyReports (a.onTim f) (s.onTim f) := by
  unfold onlyReports at *
  rw [settings_onTim, settings_onTim, h]
theorem same_onSeq {a s : State} (h : onlyReports a s) (f) : onlyReports (a.onSeq f) (s.onSeq f) := by
  unfold onlyReports at *
  rw [settings_onSeq, settings_onSeq, h]
theorem same_onIll {a s : State} (h : onlyReports a s) (f) : onlyReports (a.onIll f) (s.onIll f) := by
  unfold onlyReports at *
  rw [settings_onIll, settings_onIll, h]
theorem same_onCle {a s : State} (h : onlyReports a s) (f) : onlyReports (a.onCle f) (s.onCle f) := by
  unfold onlyReports at *
  rw [settings_onCle, settings_onCle, h]
theorem same_onXcl {a s : State} (h : onlyReports a s) (f) : onlyReports (a.onXcl f) (s.onXcl f) := by
  unfold onlyReports at *
  rw [settings_onXcl, settings_onXcl, h]
theorem same_onSlc {a s : State} (h : onlyReports a s) (f) : onlyReports (a.onSlc f) (s.onSlc f) := by
  unfold onlyReports at *
  rw [settings_onSlc, settings_onSlc, h]
theorem same_onGlk {a s : State} (h : onlyReports a s) (f) : onlyReports (a.onGlk f) (s.onGlk f) := by
  unfold onlyReports at *
  rw [settings_onGlk, settings_onGlk, h]
theorem same_onAhm {a s : State} (h : onlyReports a s) (f) : onlyReports (a.onAhm f) (s.onAhm f) := by
  unfold onlyReports at *
  rw [settings_onAhm, settings_onAhm, h]
theorem same_onCmp {a s : State} (h : onlyReports a s) (f) : onlyReports (a.onCmp f) (s.onCmp f) := by
  unfold onlyReports at *
  rw [settings_onCmp, settings_onCmp, h]
theorem same_onFab {a s : State} (h : onlyReports a s) (f) : onlyReports (a.onFab f) (s.onFab f) := by
  unfold onlyReports at *
  rw [settings_onFab, settings_onFab, h]
theorem same_onMem {a s : State} (h : onlyReports a s) (f) : onlyReports (a.onMem f) (s.onMem f) := by
  unfold onlyReports at *
  rw [settings_onMem, settings_onMem, h]
theorem same_onSec {a s : State} (h : onlyReports a s) (f) : onlyReports (a.onSec f) (s.onSec f) := by
  unfold onlyReports at *
  rw [settings_onSec, settings_onSec, h]
theorem same_onCal {a s : State} (h : onlyReports a s) (f) : onlyReports (a.onCal f) (s.onCal f) := by
  unfold onlyReports at *
  rw [settings_onCal, settings_onCal, h]
theorem same_onPwr {a s : State} (h : onlyReports a s) (f) : onlyReports (a.onPwr f) (s.onPwr f) := by
  unfold onlyReports at *
  rw [settings_onPwr, settings_onPwr, h]
theorem same_onThm {a s : State} (h : onlyReports a s) (f) : onlyReports (a.onThm f) (s.onThm f) := by
  unfold onlyReports at *
  rw [settings_onThm, settings_onThm, h]

/-- A change of one session that its settings do not see. -/
theorem hif_sess (x : Hif) (h : Nat) (f : Session → Session) (hf : ∀ g, (f g).settings = g.settings) :
    Hif.settings { x with sess := upd x.sess h f } = x.settings := by
  simp only [Hif.settings, map_upd _ _ _ _ hf]

/-! ## What the domains need is a setting -/

/-- A core's state is a setting. -/
theorem nth_cores_settings (x : Hif) (k : Nat) : (nth x.settings.cores k).st = (nth x.cores k).st := by
  unfold nth
  split
  · simp [Hif.settings, CpCore.settings]
  · rfl

/-- Whether a domain is needed is a setting. -/
theorem wantsDomain_settings (d : Nat) (s : State) : wantsDomain d s.settings = wantsDomain d s := by
  unfold wantsDomain
  rw [show (nth s.settings.hif.cores (d - 135)).st = _ from nth_cores_settings s.hif (d - 135)]
  rfl

/-- Two states that differ only in reports lose the same domains. -/
theorem pruneDoms_same {a s : State} (h : onlyReports a s) : onlyReports (pruneDoms a) (pruneDoms s) := by
  have w (d : Nat) : wantsDomain d s = wantsDomain d a := by
    rw [← wantsDomain_settings d s, ← wantsDomain_settings d a, h]
  unfold pruneDoms
  simp only [w]
  exact same_onPwr h _

/-! ## Messages, the event log and sticky bits -/

theorem msix_only {a : State} (h v : Nat) (s : State) (hk : onlyReports a s) : onlyReports a (msix h v s) := by
  unfold msix
  lift_lets
  intro f
  split
  · exact only_onHif hk _ (by simp only [Hif.settings]; rw [map_upd _ _ _ _ fun _ => ?_]; rfl)
  · exact only_onHif hk _ (by simp only [Hif.settings]; rw [map_upd _ _ _ _ fun _ => ?_]; rfl)

theorem signal_only {a : State} (v : Nat) (s : State) (hk : onlyReports a s) : onlyReports a (signal v s) := by
  unfold signal
  lift_lets
  intro s1 s2
  have h1 : onlyReports a s1 := only_ite (msix_only _ _ _ hk) hk
  have h2 : onlyReports a s2 := only_ite (msix_only _ _ _ h1) h1
  exact only_ite (only_onHif h2 _ rfl) h2

theorem printRec_only {a : State} (r : LogRec) (s : State) (hk : onlyReports a s) : onlyReports a (printRec r s) :=
  only_onHif hk _ rfl

theorem flushFull_only {a : State} (s : State) (hk : onlyReports a s) : onlyReports a (flushFull s) :=
  only_ite (only_onMgt hk _ rfl) hk

theorem logRec_only {a : State} (vec code : Nat) (off bits : BitVec 32) (s : State) (hk : onlyReports a s) :
    onlyReports a (logRec vec code off bits s) := by
  unfold logRec
  split
  · exact flushFull_only _ (printRec_only _ _ (only_onMgt hk _ rfl))
  · have h1 := only_onHif hk (fun x => { x with hwSet := (0x10004, 0x40) :: x.hwSet }) rfl
    dsimp only
    split
    · exact only_onMgt h1 _ rfl
    · exact signal_only _ _ (only_onMgt h1 _ rfl)

theorem stickyUp_only {a : State} {w : Nat} (vec off : Nat) (old b : BitVec w) (s : State) (hk : onlyReports a s) :
    onlyReports a (stickyUp vec off old b s) :=
  have h1 := only_onHif hk _ rfl
  only_ite h1 (signal_only _ _ (logRec_only _ _ _ _ _ h1))

theorem hifRaise_only {a : State} (b : BitVec 11) (s : State) (hk : onlyReports a s) : onlyReports a (hifRaise b s) :=
  stickyUp_only _ _ _ _ _ (only_onHif hk _ rfl)

/-! ## Replies, events and the journal -/

theorem writeReply_only {a : State} (r : Reply) (s : State) (hk : onlyReports a s) : onlyReports a (writeReply r s) := by
  unfold writeReply
  split
  · exact only_onHif hk _ rfl
  · split
    · exact hk
    · lift_lets
      intro h ring t s1
      refine only_ite (msix_only _ _ _ (only_onHif hk _ ?_)) hk
      simp only [Hif.settings]
      rw [map_upd _ _ _ _ fun g => ?_]
      simp only [PcieFn.settings]
      rw [map_upd _ _ _ _ fun _ => ?_]
      rfl

theorem writeReplies_only {a : State} (rs : List Reply) (s : State) (hk : onlyReports a s) : onlyReports a (writeReplies rs s) := by
  induction rs generalizing s with
  | nil => exact hk
  | cons r rs ih =>
    unfold writeReplies
    split
    · exact ih _ (writeReply_only _ _ hk)
    · exact only_onHif (ih _ hk) _ rfl

theorem queueReply_only {a : State} (r : Reply) (s : State) (hk : onlyReports a s) : onlyReports a (queueReply r s) :=
  writeReplies_only _ _ (only_onHif (only_onHif hk _ rfl) _ rfl)

theorem flushReplies_only {a : State} (s : State) (hk : onlyReports a s) : onlyReports a (flushReplies s) :=
  writeReplies_only _ _ (only_onHif hk _ rfl)

theorem sendEvent_only {a : State} (host : HostId) (code : BitVec 16) (detail : BitVec 32) (vec : Nat) (s : State)
    (hk : onlyReports a s) : onlyReports a (sendEvent host code detail vec s) := by
  unfold sendEvent
  lift_lets
  intro ss r ring ok s1
  exact signal_only _ _ (only_ite (writeReply_only _ _ hk) (hifRaise_only _ _ (only_onHif hk _ rfl)))

theorem journalAdd_only {a : State} (e : JEntry) (s : State) (hk : onlyReports a s) : onlyReports a (journalAdd e s) :=
  only_ite hk (only_onHif hk _ rfl)

theorem replyUnlessQuiet_only {a : State} (h : Held) (st : Status) (r : Reply) (s : State) (hk : onlyReports a s) :
    onlyReports a (replyUnlessQuiet h st r s) := only_ite hk (queueReply_only _ _ hk)

theorem complete_only {a : State} (h : Held) (st : Status) (detail : Word) (s : State) (hk : onlyReports a s) :
    onlyReports a (complete h st detail s) :=
  replyUnlessQuiet_only _ _ _ _ (journalAdd_only _ _ (only_onHif hk _ rfl))

theorem completeOpt_only {a : State} (h : Option Held) (st : Status) (detail : Word) (s : State) (hk : onlyReports a s) :
    onlyReports a (completeOpt h st detail s) := by
  cases h
  · exact hk
  · exact complete_only _ _ _ _ hk

theorem journalApply_only {a : State} (h : Held) (s : State) (hk : onlyReports a s) : onlyReports a (journalApply h s) :=
  journalAdd_only _ _ hk

/-! ## Acceptance -/

theorem countCore_only {a : State} (c : Cmd) (s : State) (hk : onlyReports a s) : onlyReports a (countCore c s) := by
  unfold countCore
  split
  · exact only_onHif hk _ (by simp only [Hif.settings]; rw [map_upd _ _ _ _ fun _ => ?_]; rfl)
  · exact hk

theorem checkSeq_only {a : State} (c : Cmd) (s : State) (hk : onlyReports a s) : onlyReports a (checkSeq c s) := by
  unfold checkSeq
  split
  · exact hk
  · lift_lets
    intro h r s1
    have h1 : onlyReports a s1 := by
      show onlyReports a (match r.lastSeq with | some q => _ | none => _)
      split
      · exact only_ite hk (hifRaise_only _ _ hk)
      · exact hk
    refine only_onHif h1 _ ?_
    simp only [Hif.settings]
    rw [map_upd _ _ _ _ fun g => ?_]
    simp only [PcieFn.settings]
    rw [map_upd _ _ _ _ fun _ => ?_]
    rfl

theorem renewLease_only {a : State} (h : HostId) (s : State) (hk : onlyReports a s) : onlyReports a (renewLease h s) :=
  only_onHif hk _ (hif_sess _ _ _ fun _ => rfl)

theorem atChecks_only (c : Cmd) (s : State) : onlyReports s (atChecks c s) :=
  renewLease_only _ _ (checkSeq_only _ _ (countCore_only _ _ (onlyReports_refl s)))

theorem refuse_only {a : State} (op : BitVec 16) (c : Cmd) (r : Refuse) (s : State) (hk : onlyReports a s) :
    onlyReports a (refuse op c r s) :=
  queueReply_only _ _ (only_onHif (journalAdd_only _ _ hk) _ (hif_sess _ _ _ fun _ => rfl))

theorem refuseCrc_only {a : State} (op : BitVec 16) (c : Cmd) (s : State) (hk : onlyReports a s) :
    onlyReports a (refuseCrc op c s) :=
  queueReply_only _ _ (only_onHif hk _ (hif_sess _ _ _ fun _ => rfl))

/-- An entry that is read at once and whose CRC is right is checked by R442. -/
theorem accept_read (sp : OpSpec) (c : Cmd) (s : State) (h : isRead sp.op c s = true) :
    accept sp c s = match refusal sp c (atChecks c s) with
      | some r => refuse sp.op c r (atChecks c s)
      | none => acceptOk sp c (atChecks c s) := by
  simp only [isRead, Bool.and_eq_true, Bool.not_eq_true'] at h
  obtain ⟨⟨⟨h1, h2⟩, h3⟩, h4⟩ := h
  simp only [accept, h1, h2, h3, Bool.or_self, Bool.false_eq_true, if_false, acceptNow, h4, if_true, atChecks] <;> rfl

theorem accept_refused (sp : OpSpec) (c : Cmd) (r : Refuse) (s : State) (h : refusedWith sp c r s) :
    accept sp c s = refuse sp.op c r (atChecks c s) := by
  rw [accept_read sp c s h.1, h.2]

theorem accept_accepted (sp : OpSpec) (c : Cmd) (s : State) (h : accepted sp c s = true) :
    accept sp c s = acceptOk sp c (atChecks c s) := by
  simp only [accepted, Bool.and_eq_true, Option.isNone_iff_eq_none] at h
  rw [accept_read sp c s h.1, h.2]

/-- The state that an accepted command's effect begins in: the checks are done and its ACCEPT entry stands in the journal. -/
def atEffect (sp : OpSpec) (c : Cmd) (s : State) : State :=
  journalAdd (heldEntry (heldOf sp c (atChecks c s)) .accept .accepted 0 (atChecks c s)) (atChecks c s)

theorem atEffect_only (sp : OpSpec) (c : Cmd) (s : State) : onlyReports s (atEffect sp c s) :=
  journalAdd_only _ _ (atChecks_only c s)

/-- An accepted command does its effect; what follows only reports. -/
theorem accept_effect (sp : OpSpec) (c : Cmd) (s : State) (h : accepted sp c s = true) :
    onlyReports (sp.effect (heldOf sp c (atChecks c s)) (atEffect sp c s)).st (accept sp c s) := by
  rw [accept_accepted sp c s h]
  unfold acceptOk
  lift_lets
  intro h d s1 good s2
  have h2 : onlyReports d.st s2 := by
    refine only_onHif (only_onHif (only_onHif (onlyReports_refl _) _ rfl) _ rfl) _ (hif_sess _ _ _ fun q => ?_)
    split <;> rfl
  exact only_ite h2 (replyUnlessQuiet_only _ _ _ _ h2)

/-- A row completes when its effect leaves what P asks of the settings. -/
theorem completes_of_effect {sp : OpSpec} {row : Cmd → Instr} {P : Cmd → State → State → Prop}
    (hx : ∀ c s, exec (row c) s = .next (accept sp c s))
    (hp : ∀ c s h u t, onlyReports s u → h.cmd = c → h.opcode = sp.op → onlyReports (sp.effect h u).st t → P c s t) :
    Completes sp row P := fun c s h =>
  ⟨_, hx c s, hp c s _ _ _ (atEffect_only sp c s) rfl rfl (accept_effect sp c s h)⟩

end Sys2Proof.Machine
end

