-- ==== Sys2Proof/Laws/Memory.lean ====
section
/-!
SUPPORT. The byte memories: every operation keeps the canonical form, a read after a write gives what was written, and a write
leaves every other address alone.
-/
namespace Sys2Proof.Machine

theorem memAbove_mono {lo lo' : Nat} (h : lo ≤ lo') (m : List Host.Cell) (hm : memAbove lo' m = true) : memAbove lo m = true := by
  rcases m with _ | ⟨⟨x, b⟩, m⟩
  · rfl
  · simp only [memAbove, Bool.and_eq_true, decide_eq_true_eq] at hm ⊢
    exact ⟨⟨by omega, hm.1.2⟩, hm.2⟩

theorem memWf_of_memAbove {lo : Nat} {m : List Host.Cell} (h : memAbove lo m = true) : memWf m = true := by
  rcases m with _ | ⟨⟨x, b⟩, m⟩
  · rfl
  · simp only [memAbove, memWf, Bool.and_eq_true, decide_eq_true_eq] at h ⊢
    exact ⟨h.1.2, h.2⟩

theorem memAbove_memPut {lo : Nat} (m : List Host.Cell) (a : Nat) (b : Byte) (ha : lo < a) (h : memAbove lo m = true) :
    memAbove lo (memPut m a b) = true := by
  induction m generalizing lo with
  | nil => by_cases hb : b = 0#8 <;> simp [memPut, memAbove, hb, ha]
  | cons c m ih =>
    obtain ⟨x, v⟩ := c
    simp only [memAbove, Bool.and_eq_true, decide_eq_true_eq] at h
    obtain ⟨⟨h1, h2⟩, h3⟩ := h
    have h2' : v ≠ 0#8 := by simpa using h2
    unfold memPut
    split
    · rename_i hax
      split
      · simp [memAbove, h1, h2', h3]
      · rename_i hb
        have hb : b ≠ 0#8 := hb
        simp [memAbove, ha, hb, hax, h2', h3]
    · split
      · rename_i hxa
        subst hxa
        split
        · exact memAbove_mono (Nat.le_of_lt h1) m h3
        · rename_i hb
          have hb : b ≠ 0#8 := hb
          simp [memAbove, ha, hb, h3]
      · simp only [memAbove, Bool.and_eq_true, decide_eq_true_eq]
        exact ⟨⟨h1, h2⟩, ih (by omega) h3⟩

theorem memPut_wf (m : List Host.Cell) (a : Nat) (b : Byte) (h : memWf m = true) : memWf (memPut m a b) = true := by
  rcases m with _ | ⟨⟨x, v⟩, m⟩
  · by_cases hb : b = 0#8 <;> simp [memPut, memWf, memAbove, hb]
  · simp only [memWf, Bool.and_eq_true] at h
    obtain ⟨h2, h3⟩ := h
    have h2' : v ≠ 0#8 := by simpa using h2
    unfold memPut
    split
    · rename_i hax
      split
      · simp [memWf, h2', h3]
      · rename_i hb
        have hb : b ≠ 0#8 := hb
        simp [memWf, memAbove, hb, hax, h2', h3]
    · split
      · split
        · exact memWf_of_memAbove h3
        · rename_i hxa hb
          subst hxa
          have hb : b ≠ 0#8 := hb
          simp [memWf, hb, h3]
      · simp only [memWf, Bool.and_eq_true]
        exact ⟨h2, memAbove_memPut m a b (by omega) h3⟩

theorem memWrite_wf (bs : List Byte) (m : List Host.Cell) (a : Nat) (h : memWf m = true) : memWf (memWrite m a bs) = true := by
  induction bs generalizing m a with
  | nil => exact h
  | cons b bs ih => exact ih _ _ (memPut_wf _ _ _ h)

theorem memAbove_filter (p : Host.Cell → Bool) (m : List Host.Cell) {lo : Nat} (h : memAbove lo m = true) :
    memAbove lo (m.filter p) = true := by
  induction m generalizing lo with
  | nil => rfl
  | cons c m ih =>
    obtain ⟨x, v⟩ := c
    simp only [memAbove, Bool.and_eq_true, decide_eq_true_eq] at h
    by_cases hp : p (x, v) = true
    · simp only [List.filter_cons, hp, if_true, memAbove, Bool.and_eq_true, decide_eq_true_eq]
      exact ⟨h.1, ih h.2⟩
    · simp only [List.filter_cons, hp]
      exact ih (memAbove_mono (Nat.le_of_lt h.1.1) m h.2)

theorem filter_wf (p : Host.Cell → Bool) (m : List Host.Cell) (h : memWf m = true) : memWf (m.filter p) = true := by
  rcases m with _ | ⟨⟨x, v⟩, m⟩
  · rfl
  · simp only [memWf, Bool.and_eq_true] at h
    by_cases hp : p (x, v) = true
    · simp only [List.filter_cons, hp, if_true, memWf, Bool.and_eq_true]
      exact ⟨h.1, memAbove_filter p m h.2⟩
    · simp only [List.filter_cons, hp]
      exact memWf_of_memAbove (memAbove_filter p m h.2)

theorem memClear_wf (m : List Host.Cell) (lo hi : Nat) (h : memWf m = true) : memWf (memClear m lo hi) = true := filter_wf _ m h

theorem memGet_of_memAbove {lo x : Nat} (m : List Host.Cell) (h : memAbove lo m = true) (hx : x ≤ lo) : memGet m x = 0 := by
  rcases m with _ | ⟨⟨y, v⟩, m⟩
  · rfl
  · simp only [memAbove, Bool.and_eq_true, decide_eq_true_eq] at h
    unfold memGet
    rw [if_neg (by omega), if_pos (by omega)]

theorem memAbove_of_memWf_cons {x : Nat} {v : Byte} {m : List Host.Cell} (h : memWf ((x, v) :: m) = true) : memAbove x m = true := by
  simp only [memWf, Bool.and_eq_true] at h
  exact h.2

/-- A byte written is read back, and every other address reads as before. -/
theorem memGet_memPut (m : List Host.Cell) (a x : Nat) (b : Byte) (h : memWf m = true) :
    memGet (memPut m a b) x = if x = a then b else memGet m x := by
  induction m with
  | nil =>
    by_cases hb : b = 0#8
    · simp [memPut, memGet, hb]
    · by_cases hx : x = a
      · simp [memPut, memGet, hb, hx]
      · simp [memPut, memGet, hb, hx, Ne.symm hx]
  | cons c m ih =>
    obtain ⟨y, v⟩ := c
    have h3 := memAbove_of_memWf_cons h
    have ih := ih (memWf_of_memAbove h3)
    unfold memPut
    by_cases h1 : a < y
    · rw [if_pos h1]
      by_cases hb : b = 0
      · rw [if_pos hb]
        by_cases hx : x = a
        · subst hx; rw [if_pos rfl, memGet, if_neg (by omega), if_pos h1, hb]
        · rw [if_neg hx]
      · rw [if_neg hb]
        by_cases hx : x = a
        · subst hx; rw [if_pos rfl, memGet, if_pos rfl]
        · rw [if_neg hx, memGet, if_neg (by omega)]
          by_cases hlt : x < a
          · rw [if_pos hlt, memGet, if_neg (by omega), if_pos (by omega)]
          · rw [if_neg hlt]
    · rw [if_neg h1]
      by_cases h2 : y = a
      · subst h2
        rw [if_pos rfl]
        by_cases hb : b = 0
        · rw [if_pos hb]
          by_cases hx : x = y
          · subst hx; rw [if_pos rfl, memGet_of_memAbove m h3 (Nat.le_refl _), hb]
          · rw [if_neg hx, memGet, if_neg (Ne.symm hx)]
            by_cases hlt : x < y
            · rw [if_pos hlt, memGet_of_memAbove m h3 (by omega)]
            · rw [if_neg hlt]
        · rw [if_neg hb]
          by_cases hx : x = y
          · subst hx; rw [if_pos rfl, memGet, if_pos rfl]
          · rw [if_neg hx, memGet, memGet, if_neg (Ne.symm hx), if_neg (Ne.symm hx)]
      · rw [if_neg h2]
        by_cases hx : x = a
        · subst hx
          rw [if_pos rfl] at ih ⊢
          rw [memGet, if_neg h2, if_neg (by omega), ih]
        · rw [if_neg hx] at ih ⊢
          rw [memGet, memGet, ih]

/-- A write leaves every address outside its bytes alone. -/
theorem memGet_memWrite_other (bs : List Byte) (m : List Host.Cell) (a x : Nat) (h : memWf m = true)
    (hx : x < a ∨ a + bs.length ≤ x) : memGet (memWrite m a bs) x = memGet m x := by
  induction bs generalizing m a with
  | nil => rfl
  | cons b bs ih =>
    simp only [List.length_cons] at hx
    rw [memWrite, ih _ _ (memPut_wf _ _ _ h) (by omega), memGet_memPut _ _ _ _ h, if_neg (by omega)]

/-- A byte that a write covers reads as written. -/
theorem memGet_memWrite (bs : List Byte) (m : List Host.Cell) (a i : Nat) (h : memWf m = true) (hi : i < bs.length) :
    memGet (memWrite m a bs) (a + i) = bs.getD i 0 := by
  induction bs generalizing m a i with
  | nil => simp at hi
  | cons b bs ih =>
    simp only [List.length_cons] at hi
    rw [memWrite]
    rcases i with _ | i
    · rw [memGet_memWrite_other _ _ _ _ (memPut_wf _ _ _ h) (by omega), memGet_memPut _ _ _ _ h]
      simp
    · have e : a + (i + 1) = a + 1 + i := by omega
      rw [e, ih _ _ _ (memPut_wf _ _ _ h) (by omega)]
      simp

@[simp] theorem memRead_length (m : List Host.Cell) (a n : Nat) : (memRead m a n).length = n := by
  induction n generalizing a with
  | zero => rfl
  | succ n ih => simp [memRead, ih]

end Sys2Proof.Machine
end

