-- ==== Sys2Proof/Laws/Access.lean ====
section
/-!
SUPPORT. What a unit's own reads and writes of memory do: a run of reads gives the bytes of its region and changes only meters, ranks,
open rows and the neighbour draws; a run of writes stores its bytes in its region.
-/
namespace Sys2Proof.Machine

theorem memRead_append (m : List Host.Cell) : ∀ (a x y : Nat), memRead m a (x + y) = memRead m a x ++ memRead m (a + x) y
  | a, 0, y => by simp [memRead]
  | a, x + 1, y => by
    rw [show x + 1 + y = (x + y) + 1 by omega]
    simp only [memRead, List.cons_append, memRead_append m (a + 1) x y, show a + 1 + x = a + (x + 1) by omega]

theorem memWrite_append (a : Nat) : ∀ (xs ys : List Byte) (m : List Host.Cell),
    memWrite m a (xs ++ ys) = memWrite (memWrite m a xs) (a + xs.length) ys := by
  intro xs
  induction xs generalizing a with
  | nil => simp [memWrite]
  | cons x xs ih => intro ys m; simp only [List.cons_append, memWrite, ih (a + 1), List.length_cons, show a + 1 + xs.length = a + (xs.length + 1) by omega]

theorem burstsOf_zero (a : Nat) : burstsOf a 0 = [] := by simp [burstsOf]

/-- A run is the part up to the next word boundary and the run of the rest. -/
theorem burstsOf_step (a n : Nat) (hn : 0 < n) :
    burstsOf a n = (a, min n (32 - a % 32)) :: burstsOf (a + min n (32 - a % 32)) (n - min n (32 - a % 32)) := by
  have h0 : (a + n - 1) / 32 + 1 - a / 32 = ((a + n - 1) / 32 - a / 32) + 1 := by omega
  simp only [burstsOf, if_neg (show ¬ n = 0 by omega), h0, List.range_succ_eq_map, List.map_cons, List.map_map]
  congr 1
  · simp only [Nat.add_zero, Prod.mk.injEq]; omega
  · by_cases hle : n ≤ 32 - a % 32
    · have h1 : (a + n - 1) / 32 - a / 32 = 0 := by omega
      have h2 : n - min n (32 - a % 32) = 0 := by omega
      simp [h1, h2]
    · have hm : min n (32 - a % 32) = 32 - a % 32 := by omega
      rw [hm, if_neg (by omega)]
      have hd : (a + (32 - a % 32)) / 32 = a / 32 + 1 := by omega
      have he : a + (32 - a % 32) + (n - (32 - a % 32)) = a + n := by omega
      rw [hd, he, show (a + n - 1) / 32 + 1 - (a / 32 + 1) = (a + n - 1) / 32 - a / 32 by omega]
      apply List.map_congr_left
      intro i _
      simp only [Function.comp, Nat.succ_eq_add_one, Prod.mk.injEq]
      omega

/-- t is s after accesses that have read only: its meters, ranks, open rows and neighbour draws may differ. -/
def Metered (s t : State) : Prop := ∃ ports ranks rows lfsr cnt, t = { s with
  mem := { s.mem with ports := ports, ranks := ranks, openRows := rows, nrrLfsr := lfsr, nrrCnt := cnt } }

theorem Metered.refl (s : State) : Metered s s := ⟨_, _, _, _, _, rfl⟩
theorem Metered.trans {s t u : State} (h : Metered s t) (k : Metered t u) : Metered s u := by
  obtain ⟨_, _, _, _, _, rfl⟩ := h; obtain ⟨a, b, c, d, e, rfl⟩ := k; exact ⟨a, b, c, d, e, rfl⟩
theorem meter_metered (n : Nat) (s : State) : Metered s (meter n s) := ⟨_, _, _, _, _, rfl⟩
theorem wakeRank_metered (r : Nat) (s : State) : Metered s (wakeRank r s) := ⟨_, _, _, _, _, rfl⟩
theorem activate_metered (k : Bool) (p : MemPlace) (r : Nat) (s : State) : Metered s (activate k p r s) := by
  unfold activate; dsimp only; split <;> exact ⟨_, _, _, _, _, rfl⟩
theorem Metered.cells {s t : State} (h : Metered s t) (x : MemSpace) : t.mem.cells x = s.mem.cells x := by
  obtain ⟨_, _, _, _, _, rfl⟩ := h; cases x <;> rfl
theorem Metered.refused {s t : State} (h : Metered s t) (q : MemReq) : protRefused q t = protRefused q s := by
  obtain ⟨_, _, _, _, _, rfl⟩ := h; rfl
theorem Metered.bad {s t : State} (h : Metered s t) (x : MemSpace) (a : Nat) : badWord x a t = badWord x a s := by
  obtain ⟨_, _, _, _, _, rfl⟩ := h; rfl
theorem Metered.fenced {s t : State} (h : Metered s t) : t.mem.fenced = s.mem.fenced := by
  obtain ⟨_, _, _, _, _, rfl⟩ := h; rfl

/-- The state in which a burst meets its protection and its errors. -/
theorem served_metered (q : MemReq) (s : State) : Metered s (activate (MemReq.closesRow q (MemReq.place q s.mem).column)
    (MemReq.place q s.mem) (readRank (MemReq.place q s.mem) s.mem) (wakeRank (readRank (MemReq.place q s.mem) s.mem) s)) :=
  (wakeRank_metered _ s).trans (activate_metered _ _ _ _)

/-- A read that nothing refuses and that is not uncorrectable succeeds. -/
theorem serveBurst_good (q : MemReq) (s : State) (hd : q.data = none) (he : q.ecc = .clean) (hp : protRefused q s = false)
    (hb : badWord q.space q.addr s = false) : (serveBurst q s).2 = false ∧ Metered s (serveBurst q s).1 := by
  have hm := served_metered q s
  simp only [serveBurst, hm.refused, hm.bad, hp, hb, hd, he, Bool.false_eq_true, if_false]
  exact ⟨rfl, hm⟩

/-- The reads of a run, one after the other, to its end e. -/
theorem fold_good (q : MemReq) (e : Nat) (hd : q.data = none) (he : q.ecc = .clean) : ∀ (n a : Nat) (g : Fetched),
    (∀ w ∈ burstsOf a n, isProtectedAt q.space w.1 g.st = false ∧ badWord q.space w.1 g.st = false) →
    let f := (burstsOf a n).foldl (fun g w =>
      let r : MemReq := { q with addr := w.1, closes := w.1 + w.2 == e }
      let t := serveBurst r (meter q.port.val g.st)
      { bytes := g.bytes ++ burstBytes r w.2 t.2 t.1, bad := if t.2 then g.bad ++ [w.1 / 32 * 32] else g.bad, st := t.1 }) g
    f.bytes = g.bytes ++ memRead (g.st.mem.cells q.space) a n ∧ f.bad = g.bad ∧ Metered g.st f.st := by
  intro n
  induction n using Nat.strongRecOn with
  | ind n ih =>
    intro a g h
    by_cases h0 : n = 0
    · subst h0; simp [burstsOf_zero, memRead, Metered.refl]
    · rw [burstsOf_step a n (by omega)] at h ⊢
      obtain ⟨hp, hb⟩ := h _ (List.mem_cons_self ..)
      let r : MemReq := { q with addr := a, closes := a + min n (32 - a % 32) == e }
      have hm := meter_metered q.port.val g.st
      have hq : protRefused r (meter q.port.val g.st) = false := by
        rw [hm.refused]; simp only [protRefused, r, hp, Bool.false_and]
      obtain ⟨k1, k2⟩ := serveBurst_good r (meter q.port.val g.st) hd he hq (by rw [hm.bad]; exact hb)
      have k3 := hm.trans k2
      simp only [List.foldl_cons]
      have hlt : n - min n (32 - a % 32) < n := by omega
      have hr := ih _ hlt (a + min n (32 - a % 32))
        { bytes := g.bytes ++ burstBytes r (min n (32 - a % 32)) (serveBurst r (meter q.port.val g.st)).2 (serveBurst r (meter q.port.val g.st)).1
          bad := if (serveBurst r (meter q.port.val g.st)).2 then g.bad ++ [a / 32 * 32] else g.bad
          st := (serveBurst r (meter q.port.val g.st)).1 }
        (fun w hw => by
          obtain ⟨x, y⟩ := h w (List.mem_cons_of_mem _ hw)
          refine ⟨?_, (k3.bad _ _).trans y⟩
          obtain ⟨_, _, _, _, _, e⟩ := k3
          simp only [e]; exact x)
      obtain ⟨r1, r2, r3⟩ := hr
      refine ⟨r1.trans ?_, r2.trans (by simp only [k1]; rfl), k3.trans r3⟩
      have hc := k3.cells q.space
      have hq' : protRefused r (serveBurst r (meter q.port.val g.st)).1 = false := by rw [k2.refused, hq]
      simp only [burstBytes, hq', k1, Bool.false_eq_true, if_false, hc]
      conv_rhs => rw [show n = min n (32 - a % 32) + (n - min n (32 - a % 32)) by omega, memRead_append, ← List.append_assoc]
      congr 2
      exact congrArg (fun m => memRead m a _) hc

/-- A run of good, unprotected words reads its region's bytes, with no error and no effect but on meters, ranks and open rows. -/
theorem portRead_good (q : MemReq) (n : Nat) (s : State) (hd : q.data = none) (he : q.ecc = .clean)
    (h : ∀ w ∈ burstsOf q.addr n, isProtectedAt q.space w.1 s = false ∧ badWord q.space w.1 s = false) :
    (portRead q n s).bytes = memRead (s.mem.cells q.space) q.addr n ∧ (portRead q n s).bad = [] ∧ Metered s (portRead q n s).st := by
  obtain ⟨a, b, c⟩ := fold_good q (q.addr + n) hd he n q.addr { st := s } h
  exact ⟨by simpa [portRead] using a, b, c⟩

/-- t is s after accesses that store d at address a of region x, and change nothing else but meters, ranks, open rows, neighbour draws
and the marks of uncorrectable words. -/
def Stored (x : MemSpace) (a : Nat) (d : List Byte) (s t : State) : Prop := ∃ ports ranks rows lfsr cnt bad, t = { s with
  mem := { storeAt x a d s.mem with ports := ports, ranks := ranks, openRows := rows, nrrLfsr := lfsr, nrrCnt := cnt, poison := bad } }

theorem Stored.cells {x : MemSpace} {a : Nat} {d : List Byte} {s t : State} (h : Stored x a d s t) :
    t.mem.cells x = memWrite (s.mem.cells x) a d ∧ ∀ y, y ≠ x → t.mem.cells y = s.mem.cells y := by
  obtain ⟨_, _, _, _, _, _, rfl⟩ := h
  cases x <;> refine ⟨rfl, fun y hy => ?_⟩ <;> cases y <;> first | rfl | exact absurd rfl hy
theorem Stored.guarded {x : MemSpace} {a : Nat} {d : List Byte} {s t : State} (h : Stored x a d s t) (y : MemSpace) (b : Nat) :
    isProtectedAt y b t = isProtectedAt y b s := by
  obtain ⟨_, _, _, _, _, _, rfl⟩ := h; cases x <;> rfl
theorem Stored.fenced {x : MemSpace} {a : Nat} {d : List Byte} {s t : State} (h : Stored x a d s t) : t.mem.fenced = s.mem.fenced := by
  obtain ⟨_, _, _, _, _, _, rfl⟩ := h; cases x <;> rfl
theorem Stored.append {x : MemSpace} {a : Nat} {d e : List Byte} {s t u : State} (h : Stored x a d s t)
    (k : Stored x (a + d.length) e t u) : Stored x a (d ++ e) s u := by
  obtain ⟨_, _, _, _, _, _, rfl⟩ := h; obtain ⟨p, r, o, l, c, b, rfl⟩ := k
  refine ⟨p, r, o, l, c, b, ?_⟩
  cases x <;> simp only [storeAt, memWrite_append]
theorem Stored.empty (x : MemSpace) (a : Nat) (s : State) : Stored x a [] s s := by
  refine ⟨s.mem.ports, s.mem.ranks, s.mem.openRows, s.mem.nrrLfsr, s.mem.nrrCnt, s.mem.poison, ?_⟩
  cases x <;> rfl

/-- A write to unprotected memory with no fence stores its data. -/
theorem serveBurst_stores (q : MemReq) (d : List Byte) (s : State) (hd : q.data = some d) (hp : protRefused q s = false)
    (hf : s.mem.fenced = 0) : Stored q.space q.addr d s (serveBurst q s).1 := by
  have hm := served_metered q s
  simp only [serveBurst, hm.refused, hm.fenced, hp, hf, hd, Bool.false_eq_true, if_false]
  obtain ⟨_, _, _, _, _, e⟩ := hm
  simp only [e, cleanWord, State.onMem]
  split
  · simp at *
  · split <;> cases q.space <;> exact ⟨_, _, _, _, _, _, rfl⟩

/-- The writes of a run, one after the other, to its end e; i bytes of the data d have been stored already. -/
theorem fold_stores (q : MemReq) (d : List Byte) (e : Nat) : ∀ (n i : Nat) (s : State), i + n = d.length → s.mem.fenced = 0 →
    (∀ w ∈ burstsOf (q.addr + i) n, isProtectedAt q.space w.1 s = false) →
    Stored q.space (q.addr + i) (slice d i n) s ((burstsOf (q.addr + i) n).foldl (fun s w =>
      (serveBurst { q with addr := w.1, data := some (slice d (w.1 - q.addr) w.2), closes := w.1 + w.2 == e } (meter q.port.val s)).1) s) := by
  intro n
  induction n using Nat.strongRecOn with
  | ind n ih =>
    intro i s hn hf h
    by_cases h0 : n = 0
    · subst h0; simpa [burstsOf_zero, slice] using Stored.empty q.space (q.addr + i) s
    · rw [burstsOf_step _ n (by omega)] at h ⊢
      generalize hl : min n (32 - (q.addr + i) % 32) = l at h ⊢
      have hl0 : 0 < l := by omega
      have hln : l ≤ n := by omega
      have hp := h _ (List.mem_cons_self ..)
      have hm := meter_metered q.port.val s
      let r : MemReq := { q with addr := q.addr + i, data := some (slice d (q.addr + i - q.addr) l), closes := q.addr + i + l == e }
      have hq : protRefused r (meter q.port.val s) = false := by
        rw [hm.refused]; simp only [protRefused, r, hp, Bool.false_and]
      have k := serveBurst_stores r _ (meter q.port.val s) rfl hq (hm.fenced.trans hf)
      have k1 : Stored q.space (q.addr + i) (slice d i l) s (serveBurst r (meter q.port.val s)).1 := by
        rw [show q.addr + i - q.addr = i by omega] at k
        obtain ⟨_, _, _, _, _, e1⟩ := hm
        obtain ⟨a1, a2, a3, a4, a5, a6, e2⟩ := k
        refine ⟨a1, a2, a3, a4, a5, a6, ?_⟩
        rw [e2, e1]
        simp only [r]
        cases q.space <;> rfl
      have hlen : (slice d i l).length = l := by simp [slice]
      have hr := ih (n - l) (by omega) (i + l) (serveBurst r (meter q.port.val s)).1 (by omega) (k1.fenced.trans hf)
        (fun w hw => (k1.guarded _ _).trans (h w (List.mem_cons_of_mem _ (by rwa [show q.addr + i + l = q.addr + (i + l) by omega]))))
      simp only [List.foldl_cons]
      rw [show q.addr + i + l = q.addr + (i + l) by omega]
      have hs : slice d i n = slice d i l ++ slice d (i + l) (n - l) := by
        simp only [slice]
        have e1 : (List.take l (List.drop i d)).length = l := by simp; omega
        have e2 : (List.take (n - l) (List.drop (i + l) d)).length = n - l := by simp; omega
        have e3 : (List.take n (List.drop i d)).length = n := by simp; omega
        rw [e1, e2, e3]
        simp only [Nat.sub_self, List.replicate_zero, List.append_nil]
        conv_lhs => rw [show n = l + (n - l) by omega, List.take_add, List.drop_drop]
      rw [hs]
      refine k1.append ?_
      rw [hlen, show q.addr + i + l = q.addr + (i + l) by omega]
      rw [show q.addr + (i + l) = q.addr + i + l by omega] at hr ⊢
      exact hr

/-- A run of writes to unprotected memory, with no fence, stores its bytes and nothing else. -/
theorem portWrite_stores (q : MemReq) (d : List Byte) (s : State) (hf : s.mem.fenced = 0)
    (h : ∀ w ∈ burstsOf q.addr d.length, isProtectedAt q.space w.1 s = false) : Stored q.space q.addr d s (portWrite q d s) := by
  have := fold_stores q d (q.addr + d.length) d.length 0 s (by omega) hf (by simpa using h)
  have e : slice d 0 d.length = d := by simp [slice]
  rw [e] at this
  exact this

end Sys2Proof.Machine
end

