-- ==== Sys2Proof/Laws/Flags.lean ====
section
/-!
SUPPORT. Setting sticky bits: the bits are set in their register, and what follows only reports.
-/
namespace Sys2Proof.Machine

theorem clkRaise_only {a : State} (b : BitVec 16) (s : State)
    (h : onlyReports a (s.onMgt fun x => { x with clkSticky := x.clkSticky ||| b })) : onlyReports a (clkRaise b s) :=
  stickyUp_only _ _ _ _ _ h

theorem timRaise_only {a : State} (b : BitVec 20) (s : State)
    (h : onlyReports a (s.onTim fun x => { x with sticky := x.sticky ||| b })) : onlyReports a (timRaise b s) :=
  stickyUp_only _ _ _ _ _ h

theorem seqRaise_only {a : State} (p : Nat) (b : BitVec 10) (s : State)
    (h : onlyReports a (s.onPort p fun x => { x with sticky := x.sticky ||| b })) : onlyReports a (seqRaise p b s) :=
  stickyUp_only _ _ _ _ _ h

theorem illRaise_only {a : State} (b : BitVec 4) (s : State)
    (h : onlyReports a (s.onIll fun x => { x with sticky := x.sticky ||| b })) : onlyReports a (illRaise b s) :=
  stickyUp_only _ _ _ _ _ h

theorem chainRaise_only {a : State} (c : Nat) (b : BitVec 9) (s : State)
    (h : onlyReports a (s.onChain c fun x => { x with sticky := x.sticky ||| b })) : onlyReports a (chainRaise c b s) :=
  stickyUp_only _ _ _ _ _ h

theorem strOpenRaise_only {a : State} (b : BitVec 24) (s : State)
    (h : onlyReports a (s.onIll fun x => { x with strOpen := x.strOpen ||| b })) : onlyReports a (strOpenRaise b s) :=
  stickyUp_only _ _ _ _ _ h

theorem strShortRaise_only {a : State} (b : BitVec 24) (s : State)
    (h : onlyReports a (s.onIll fun x => { x with strShort := x.strShort ||| b })) : onlyReports a (strShortRaise b s) :=
  stickyUp_only _ _ _ _ _ h

theorem cleRaise_only {a : State} (b : BitVec 4) (s : State)
    (h : onlyReports a (s.onCle fun x => { x with sticky := x.sticky ||| b })) : onlyReports a (cleRaise b s) :=
  stickyUp_only _ _ _ _ _ h

theorem loopRaise_only {a : State} (n : Nat) (b : BitVec 3) (s : State)
    (h : onlyReports a (s.onLoop n fun x => { x with sticky := x.sticky ||| b })) : onlyReports a (loopRaise n b s) :=
  stickyUp_only _ _ _ _ _ h

theorem xclRaise_only {a : State} (b : BitVec 13) (s : State)
    (h : onlyReports a (s.onXcl fun x => { x with sticky := x.sticky ||| b })) : onlyReports a (xclRaise b s) :=
  stickyUp_only _ _ _ _ _ h

theorem xsetRaise_only {a : State} (p : Nat) (b : BitVec 4) (s : State)
    (h : onlyReports a (s.onXset p fun x => { x with sticky := x.sticky ||| b })) : onlyReports a (xsetRaise p b s) :=
  stickyUp_only _ _ _ _ _ h

theorem slcRaise_only {a : State} (b : BitVec 15) (s : State)
    (h : onlyReports a (s.onSlc fun x => { x with sticky := x.sticky ||| b })) : onlyReports a (slcRaise b s) :=
  stickyUp_only _ _ _ _ _ h

theorem octRaise_only {a : State} (k : Nat) (b : BitVec 9) (s : State)
    (h : onlyReports a (s.onOctet k fun x => { x with sticky := x.sticky ||| b })) : onlyReports a (octRaise k b s) :=
  stickyUp_only _ _ _ _ _ h

theorem quadRaise_only {a : State} (q : Nat) (s : State)
    (h : onlyReports a (s.onGlk fun g => { g with quads := upd g.quads q fun x => { x with sticky := 1 } })) : onlyReports a (quadRaise q s) :=
  stickyUp_only _ _ _ _ _ h

theorem ahmRaise_only {a : State} (p : Nat) (b : BitVec 15) (s : State)
    (h : onlyReports a (s.onArr p fun x => { x with sticky := x.sticky ||| b })) : onlyReports a (ahmRaise p b s) :=
  stickyUp_only _ _ _ _ _ h

theorem cmpRaise_only {a : State} (b : BitVec 2) (s : State)
    (h : onlyReports a (s.onCmp fun x => { x with sticky := x.sticky ||| b })) : onlyReports a (cmpRaise b s) :=
  stickyUp_only _ _ _ _ _ h

theorem cviewRaise_only {a : State} (v : Nat) (b : BitVec 2) (s : State)
    (h : onlyReports a (s.onCview v fun x => { x with sticky := x.sticky ||| b })) : onlyReports a (cviewRaise v b s) :=
  stickyUp_only _ _ _ _ _ h

theorem fabRaise_only {a : State} (b : BitVec 3) (s : State)
    (h : onlyReports a (s.onFab fun x => { x with sticky := x.sticky ||| b })) : onlyReports a (fabRaise b s) :=
  stickyUp_only _ _ _ _ _ h

theorem fviewRaise_only {a : State} (v : Nat) (b : BitVec 3) (s : State)
    (h : onlyReports a (s.onFview v fun x => { x with sticky := x.sticky ||| b })) : onlyReports a (fviewRaise v b s) :=
  stickyUp_only _ _ _ _ _ h

theorem memRaise_only {a : State} (b : BitVec 10) (s : State)
    (h : onlyReports a (s.onMem fun x => { x with sticky := x.sticky ||| b })) : onlyReports a (memRaise b s) :=
  stickyUp_only _ _ _ _ _ h

theorem secRaise_only {a : State} (b : BitVec 9) (s : State)
    (h : onlyReports a (s.onSec fun x => { x with sticky := x.sticky ||| b })) : onlyReports a (secRaise b s) :=
  stickyUp_only _ _ _ _ _ h

theorem pwrRaise_only {a : State} (b : BitVec 8) (s : State)
    (h : onlyReports a (s.onPwr fun x => { x with sticky := x.sticky ||| b })) : onlyReports a (pwrRaise b s) :=
  stickyUp_only _ _ _ _ _ h

theorem thmRaise_only {a : State} (b : BitVec 6) (s : State)
    (h : onlyReports a (s.onThm fun x => { x with sticky := x.sticky ||| b })) : onlyReports a (thmRaise b s) :=
  stickyUp_only _ _ _ _ _ h

theorem calRaise_only {a : State} (b : BitVec 3) (s : State)
    (h : onlyReports a (s.onCal fun x => { x with sticky := x.sticky ||| b })) : onlyReports a (calRaise b s) :=
  stickyUp_only _ _ _ _ _ h

end Sys2Proof.Machine
end

