-- ==== Sys2Proof/Laws/Keeps.lean ====
section
/-!
SUPPORT. The relation that one lemma per function of the machine carries (Laws/Keeps*.lean): what no command but a named few
changes, and the invariants that every command keeps.
-/
namespace Sys2Proof.Machine

/-- From a to s the queue stays, and so does each of three invariants: the memories' canonical form, the pull range of R44, and
XCL_STATUS.SAFE by R226. -/
structure KeepsInv (a s : State) : Prop where
  queue : s.pending = a.pending
  mem : Memory.wf a.mem = true → Memory.wf s.mem = true
  rate : rateInRange a.tim = true → rateInRange s.tim = true
  safe : safeAgrees a.xcl = true → safeAgrees s.xcl = true

/-- Beside that, the frame count stays, and a latched blank source stays latched. -/
structure Keeps (a s : State) : Prop extends KeepsInv a s where
  frame : s.frame = a.frame
  latch : ∀ k, a.xcl.latch.getLsbD k = true → s.xcl.latch.getLsbD k = true

theorem KeepsInv.refl (s : State) : KeepsInv s s := ⟨rfl, id, id, id⟩
theorem Keeps.refl (s : State) : Keeps s s := ⟨.refl s, rfl, fun _ => id⟩

theorem KeepsInv.trans {a b c : State} (h : KeepsInv a b) (k : KeepsInv b c) : KeepsInv a c :=
  ⟨k.queue.trans h.queue, fun x => k.mem (h.mem x), fun x => k.rate (h.rate x), fun x => k.safe (h.safe x)⟩

theorem Keeps.trans {a b c : State} (h : Keeps a b) (k : Keeps b c) : Keeps a c :=
  ⟨h.toKeepsInv.trans k.toKeepsInv, k.frame.trans h.frame, fun i x => k.latch i (h.latch i x)⟩

/-- The outcome, if it is a next state, is in the relation. -/
structure OutKeeps (a : State) (o : Host.Outcome State Fault Refusal) : Prop where
  next : ∀ t, o = .next t → Keeps a t

theorem out_next {a t : State} (h : Keeps a t) : OutKeeps a (.next t) := ⟨fun _ e => by cases e; exact h⟩

theorem keeps_ite {a s t : State} {c : Prop} [Decidable c] (h : Keeps a s) (k : Keeps a t) : Keeps a (if c then s else t) := by
  split
  · exact h
  · exact k

/-! ## Updates of one block -/

/-- A state that differs from s in nothing the relation speaks of. -/
theorem keeps_eq {a s t : State} (h : Keeps a s) (hp : t.pending = s.pending) (hm : t.mem = s.mem) (ht : t.tim = s.tim)
    (hx : t.xcl = s.xcl) (hf : t.frame = s.frame) : Keeps a t :=
  h.trans ⟨⟨hp, fun x => hm ▸ x, fun y => ht ▸ y, fun z => hx ▸ z⟩, hf, fun _ => by rw [hx]; exact id⟩

section
variable {a s : State} (h : Keeps a s)
include h

theorem keeps_onHif (f) : Keeps a (s.onHif f) := keeps_eq h rfl rfl rfl rfl rfl
theorem keeps_onSeq (f) : Keeps a (s.onSeq f) := keeps_eq h rfl rfl rfl rfl rfl
theorem keeps_onIll (f) : Keeps a (s.onIll f) := keeps_eq h rfl rfl rfl rfl rfl
theorem keeps_onCle (f) : Keeps a (s.onCle f) := keeps_eq h rfl rfl rfl rfl rfl
theorem keeps_onSlc (f) : Keeps a (s.onSlc f) := keeps_eq h rfl rfl rfl rfl rfl
theorem keeps_onGlk (f) : Keeps a (s.onGlk f) := keeps_eq h rfl rfl rfl rfl rfl
theorem keeps_onAhm (f) : Keeps a (s.onAhm f) := keeps_eq h rfl rfl rfl rfl rfl
theorem keeps_onCmp (f) : Keeps a (s.onCmp f) := keeps_eq h rfl rfl rfl rfl rfl
theorem keeps_onFab (f) : Keeps a (s.onFab f) := keeps_eq h rfl rfl rfl rfl rfl
theorem keeps_onMgt (f) : Keeps a (s.onMgt f) := keeps_eq h rfl rfl rfl rfl rfl
theorem keeps_onSec (f) : Keeps a (s.onSec f) := keeps_eq h rfl rfl rfl rfl rfl
theorem keeps_onCal (f) : Keeps a (s.onCal f) := keeps_eq h rfl rfl rfl rfl rfl
theorem keeps_onPwr (f) : Keeps a (s.onPwr f) := keeps_eq h rfl rfl rfl rfl rfl
theorem keeps_onThm (f) : Keeps a (s.onThm f) := keeps_eq h rfl rfl rfl rfl rfl
theorem keeps_onPort (p f) : Keeps a (s.onPort p f) := keeps_eq h rfl rfl rfl rfl rfl
theorem keeps_onArr (p f) : Keeps a (s.onArr p f) := keeps_eq h rfl rfl rfl rfl rfl
theorem keeps_onLink (p f) : Keeps a (s.onLink p f) := keeps_eq h rfl rfl rfl rfl rfl
theorem keeps_onOctet (p f) : Keeps a (s.onOctet p f) := keeps_eq h rfl rfl rfl rfl rfl
theorem keeps_onStore (p f) : Keeps a (s.onStore p f) := keeps_eq h rfl rfl rfl rfl rfl
theorem keeps_onSlicer (p f) : Keeps a (s.onSlicer p f) := keeps_eq h rfl rfl rfl rfl rfl
theorem keeps_onLoop (p f) : Keeps a (s.onLoop p f) := keeps_eq h rfl rfl rfl rfl rfl
theorem keeps_onChain (p f) : Keeps a (s.onChain p f) := keeps_eq h rfl rfl rfl rfl rfl
theorem keeps_onCview (p f) : Keeps a (s.onCview p f) := keeps_eq h rfl rfl rfl rfl rfl
theorem keeps_onPipe (p f) : Keeps a (s.onPipe p f) := keeps_eq h rfl rfl rfl rfl rfl
theorem keeps_onFview (p f) : Keeps a (s.onFview p f) := keeps_eq h rfl rfl rfl rfl rfl
theorem keeps_onCluster (p f) : Keeps a (s.onCluster p f) := keeps_eq h rfl rfl rfl rfl rfl
theorem keeps_onBuf (p f) : Keeps a (s.onBuf p f) := keeps_eq h rfl rfl rfl rfl rfl
theorem keeps_useFree : Keeps a s.useFree := keeps_eq h rfl rfl rfl rfl rfl
theorem keeps_raise (i) : Keeps a (s.raise i) := by
  unfold State.raise; split <;> first | exact h | exact keeps_eq h rfl rfl rfl rfl rfl

/-- The rate and its history stay. -/
theorem keeps_onTim (f) (hr : (f s.tim).rateOfs = s.tim.rateOfs) (hh : (f s.tim).rateHist = s.tim.rateHist)
    (hm : (f s.tim).missHist = s.tim.missHist) : Keeps a (s.onTim f) :=
  h.trans ⟨⟨rfl, id, fun y => by simpa [rateInRange, State.onTim, hr, hh, hm] using y, id⟩, rfl, fun _ => id⟩

theorem keeps_onCam (c f) : Keeps a (s.onCam c f) := keeps_onTim h _ rfl rfl rfl
theorem pruneDoms_keeps : Keeps a (pruneDoms s) := keeps_onPwr h _

/-- The rate, when it changes, is in range. -/
theorem keeps_onTimRate (f) (hr : rateInRange s.tim = true → rateInRange (f s.tim) = true) : Keeps a (s.onTim f) :=
  h.trans ⟨⟨rfl, id, hr, id⟩, rfl, fun _ => id⟩

/-- The three byte memories stay. -/
theorem keeps_onMem (f) (h1 : (f s.mem).plane = s.mem.plane) (h2 : (f s.mem).general = s.mem.general)
    (h3 : (f s.mem).reserve = s.mem.reserve) : Keeps a (s.onMem f) :=
  h.trans ⟨⟨rfl, fun x => by simpa [Memory.wf, State.onMem, h1, h2, h3] using x, id, id⟩, rfl, fun _ => id⟩

/-- The memories change in canonical form. -/
theorem keeps_onMemWf (f) (hm : Memory.wf s.mem = true → Memory.wf (f s.mem) = true) : Keeps a (s.onMem f) :=
  h.trans ⟨⟨rfl, hm, id, id⟩, rfl, fun _ => id⟩

/-- The blank sources, their latch and SAFE stay. -/
theorem keeps_onXcl (f) (h1 : (f s.xcl).active = s.xcl.active) (h2 : (f s.xcl).latch = s.xcl.latch)
    (h3 : (f s.xcl).safe = s.xcl.safe) : Keeps a (s.onXcl f) :=
  h.trans ⟨⟨rfl, id, id, fun z => by simpa [safeAgrees, safeNow, State.onXcl, h1, h2, h3] using z⟩, rfl,
    fun _ => by simp [State.onXcl, h2]⟩

theorem keeps_onXset (p f) : Keeps a (s.onXset p f) := keeps_onXcl h _ rfl rfl rfl

/-! ## Repetition -/

theorem keeps_forN (n : Nat) (f : Nat → State → State) (hf : ∀ i s, Keeps a s → Keeps a (f i s)) : Keeps a (forN n f s) := by
  induction n with
  | zero => exact h
  | succ n ih => exact hf _ _ ih

theorem keeps_foldl {α : Type} (f : State → α → State) (l : List α) (hf : ∀ s x, Keeps a s → Keeps a (f s x)) :
    Keeps a (l.foldl f s) := by
  induction l generalizing s with
  | nil => exact h
  | cons x l ih => exact ih (hf _ _ h)

/-- A fold that carries a state and something beside it. -/
theorem keeps_foldl_fst {α β : Type} {b : β} (f : State × β → α → State × β) (l : List α)
    (hf : ∀ t x, Keeps a t.1 → Keeps a (f t x).1) : Keeps a (l.foldl f (s, b)).1 := by
  suffices g : ∀ t : State × β, Keeps a t.1 → Keeps a (l.foldl f t).1 from g _ h
  induction l with
  | nil => exact fun _ h => h
  | cons x l ih => exact fun t h => ih _ (hf _ _ h)

theorem keeps_foldr {α : Type} (f : α → State → State) (l : List α) (hf : ∀ x s, Keeps a s → Keeps a (f x s)) :
    Keeps a (l.foldr f s) := by
  induction l with
  | nil => exact h
  | cons x l ih => exact hf _ _ ih

end

end Sys2Proof.Machine
end

