-- ==== Sys2Proof/Laws/KeepsHosts.lean ====
section
/-!
SUPPORT. The relation Keeps for the functions of Machine/Flags.lean and Machine/Accept.lean.
-/
set_option linter.unusedTactic false
set_option linter.unreachableTactic false
set_option linter.unusedVariables false
namespace Sys2Proof.Machine

theorem msix_keeps {org : State} (h : Nat) (v : Nat) (s : State) (hk : Keeps org s) : Keeps org (msix h v s) := by
  unfold msix
  repeat' first
    | with_reducible assumption
    | with_reducible apply keeps_onHif
    | (intro z; have hz : Keeps org z; on_goal 1 => (simp (zeta := false) only [z]))
    | intro z
    | lift_lets
    | split

theorem signal_keeps {org : State} (v : Nat) (s : State) (hk : Keeps org s) : Keeps org (signal v s) := by
  unfold signal
  repeat' first
    | with_reducible assumption
    | with_reducible apply msix_keeps
    | with_reducible apply keeps_onHif
    | (intro z; have hz : Keeps org z; on_goal 1 => (simp (zeta := false) only [z]))
    | intro z
    | lift_lets
    | split

theorem printRec_keeps {org : State} (r : LogRec) (s : State) (hk : Keeps org s) : Keeps org (printRec r s) := by
  unfold printRec
  repeat' first
    | with_reducible assumption
    | with_reducible apply keeps_onHif
    | split

theorem flushLog_keeps {org : State} (s : State) (hk : Keeps org s) : Keeps org (flushLog s) := by
  unfold flushLog
  repeat' first
    | with_reducible assumption
    | with_reducible apply keeps_onMgt

theorem flushFull_keeps {org : State} (s : State) (hk : Keeps org s) : Keeps org (flushFull s) := by
  unfold flushFull
  repeat' first
    | with_reducible assumption
    | with_reducible apply flushLog_keeps
    | split

theorem logRec_keeps {org : State} (vec code : Nat) (off bits : BitVec 32) (s : State) (hk : Keeps org s) : Keeps org (logRec vec code off bits s) := by
  unfold logRec
  repeat' first
    | with_reducible assumption
    | with_reducible apply flushFull_keeps
    | with_reducible apply printRec_keeps
    | with_reducible apply signal_keeps
    | with_reducible apply keeps_onHif
    | with_reducible apply keeps_onMgt
    | (intro z; have hz : Keeps org z; on_goal 1 => (simp (zeta := false) only [z]))
    | intro z
    | lift_lets
    | split

theorem stickyUp_keeps {org : State} {w : Nat} (vec off : Nat) (old b : BitVec w) (s : State) (hk : Keeps org s) : Keeps org (stickyUp vec off old b s) := by
  unfold stickyUp
  repeat' first
    | with_reducible assumption
    | with_reducible apply logRec_keeps
    | with_reducible apply signal_keeps
    | with_reducible apply keeps_onHif
    | (intro z; have hz : Keeps org z; on_goal 1 => (simp (zeta := false) only [z]))
    | intro z
    | lift_lets
    | split

theorem hifRaise_keeps {org : State} (b : BitVec 11) (s : State) (hk : Keeps org s) : Keeps org (hifRaise b s) := by
  unfold hifRaise
  repeat' first
    | with_reducible assumption
    | with_reducible apply stickyUp_keeps
    | with_reducible apply keeps_onHif
    | split

theorem mgtRaise_keeps {org : State} (b : BitVec 7) (s : State) (hk : Keeps org s) : Keeps org (mgtRaise b s) := by
  unfold mgtRaise
  repeat' first
    | with_reducible assumption
    | with_reducible apply stickyUp_keeps
    | with_reducible apply keeps_onMgt

theorem clkRaise_keeps {org : State} (b : BitVec 16) (s : State) (hk : Keeps org s) : Keeps org (clkRaise b s) := by
  unfold clkRaise
  repeat' first
    | with_reducible assumption
    | with_reducible apply stickyUp_keeps
    | with_reducible apply keeps_onMgt

theorem timRaise_keeps {org : State} (b : BitVec 20) (s : State) (hk : Keeps org s) : Keeps org (timRaise b s) := by
  unfold timRaise
  repeat' first
    | with_reducible assumption
    | with_reducible apply stickyUp_keeps
    | with_reducible apply keeps_onTim
    | with_reducible rfl
    | rfl

theorem seqRaise_keeps {org : State} (p : Nat) (b : BitVec 10) (s : State) (hk : Keeps org s) : Keeps org (seqRaise p b s) := by
  unfold seqRaise
  repeat' first
    | with_reducible assumption
    | with_reducible apply stickyUp_keeps
    | with_reducible apply keeps_onPort

theorem illRaise_keeps {org : State} (b : BitVec 4) (s : State) (hk : Keeps org s) : Keeps org (illRaise b s) := by
  unfold illRaise
  repeat' first
    | with_reducible assumption
    | with_reducible apply stickyUp_keeps
    | with_reducible apply keeps_onIll

theorem chainRaise_keeps {org : State} (c : Nat) (b : BitVec 9) (s : State) (hk : Keeps org s) : Keeps org (chainRaise c b s) := by
  unfold chainRaise
  repeat' first
    | with_reducible assumption
    | with_reducible apply stickyUp_keeps
    | with_reducible apply keeps_onChain

theorem strOpenRaise_keeps {org : State} (b : BitVec 24) (s : State) (hk : Keeps org s) : Keeps org (strOpenRaise b s) := by
  unfold strOpenRaise
  repeat' first
    | with_reducible assumption
    | with_reducible apply stickyUp_keeps
    | with_reducible apply keeps_onIll

theorem strShortRaise_keeps {org : State} (b : BitVec 24) (s : State) (hk : Keeps org s) : Keeps org (strShortRaise b s) := by
  unfold strShortRaise
  repeat' first
    | with_reducible assumption
    | with_reducible apply stickyUp_keeps
    | with_reducible apply keeps_onIll

theorem cleRaise_keeps {org : State} (b : BitVec 4) (s : State) (hk : Keeps org s) : Keeps org (cleRaise b s) := by
  unfold cleRaise
  repeat' first
    | with_reducible assumption
    | with_reducible apply stickyUp_keeps
    | with_reducible apply keeps_onCle

theorem loopRaise_keeps {org : State} (n : Nat) (b : BitVec 3) (s : State) (hk : Keeps org s) : Keeps org (loopRaise n b s) := by
  unfold loopRaise
  repeat' first
    | with_reducible assumption
    | with_reducible apply stickyUp_keeps
    | with_reducible apply keeps_onLoop

theorem xclRaise_keeps {org : State} (b : BitVec 13) (s : State) (hk : Keeps org s) : Keeps org (xclRaise b s) := by
  unfold xclRaise
  repeat' first
    | with_reducible assumption
    | with_reducible apply stickyUp_keeps
    | with_reducible apply keeps_onXcl
    | with_reducible rfl
    | rfl

theorem xsetRaise_keeps {org : State} (p : Nat) (b : BitVec 4) (s : State) (hk : Keeps org s) : Keeps org (xsetRaise p b s) := by
  unfold xsetRaise
  repeat' first
    | with_reducible assumption
    | with_reducible apply stickyUp_keeps
    | with_reducible apply keeps_onXset

theorem slcRaise_keeps {org : State} (b : BitVec 15) (s : State) (hk : Keeps org s) : Keeps org (slcRaise b s) := by
  unfold slcRaise
  repeat' first
    | with_reducible assumption
    | with_reducible apply stickyUp_keeps
    | with_reducible apply keeps_onSlc

theorem octRaise_keeps {org : State} (k : Nat) (b : BitVec 9) (s : State) (hk : Keeps org s) : Keeps org (octRaise k b s) := by
  unfold octRaise
  repeat' first
    | with_reducible assumption
    | with_reducible apply stickyUp_keeps
    | with_reducible apply keeps_onOctet

theorem quadRaise_keeps {org : State} (q : Nat) (s : State) (hk : Keeps org s) : Keeps org (quadRaise q s) := by
  unfold quadRaise
  repeat' first
    | with_reducible assumption
    | with_reducible apply stickyUp_keeps
    | with_reducible apply keeps_onGlk

theorem ahmRaise_keeps {org : State} (p : Nat) (b : BitVec 15) (s : State) (hk : Keeps org s) : Keeps org (ahmRaise p b s) := by
  unfold ahmRaise
  repeat' first
    | with_reducible assumption
    | with_reducible apply stickyUp_keeps
    | with_reducible apply keeps_onArr

theorem cmpRaise_keeps {org : State} (b : BitVec 2) (s : State) (hk : Keeps org s) : Keeps org (cmpRaise b s) := by
  unfold cmpRaise
  repeat' first
    | with_reducible assumption
    | with_reducible apply stickyUp_keeps
    | with_reducible apply keeps_onCmp

theorem cviewRaise_keeps {org : State} (v : Nat) (b : BitVec 2) (s : State) (hk : Keeps org s) : Keeps org (cviewRaise v b s) := by
  unfold cviewRaise
  repeat' first
    | with_reducible assumption
    | with_reducible apply stickyUp_keeps
    | with_reducible apply keeps_onCview

theorem fabRaise_keeps {org : State} (b : BitVec 3) (s : State) (hk : Keeps org s) : Keeps org (fabRaise b s) := by
  unfold fabRaise
  repeat' first
    | with_reducible assumption
    | with_reducible apply stickyUp_keeps
    | with_reducible apply keeps_onFab

theorem fviewRaise_keeps {org : State} (v : Nat) (b : BitVec 3) (s : State) (hk : Keeps org s) : Keeps org (fviewRaise v b s) := by
  unfold fviewRaise
  repeat' first
    | with_reducible assumption
    | with_reducible apply stickyUp_keeps
    | with_reducible apply keeps_onFview

theorem memRaise_keeps {org : State} (b : BitVec 10) (s : State) (hk : Keeps org s) : Keeps org (memRaise b s) := by
  unfold memRaise
  repeat' first
    | with_reducible assumption
    | with_reducible apply stickyUp_keeps
    | with_reducible apply keeps_onMem
    | with_reducible rfl
    | rfl

theorem secRaise_keeps {org : State} (b : BitVec 9) (s : State) (hk : Keeps org s) : Keeps org (secRaise b s) := by
  unfold secRaise
  repeat' first
    | with_reducible assumption
    | with_reducible apply stickyUp_keeps
    | with_reducible apply keeps_onSec

theorem pwrRaise_keeps {org : State} (b : BitVec 8) (s : State) (hk : Keeps org s) : Keeps org (pwrRaise b s) := by
  unfold pwrRaise
  repeat' first
    | with_reducible assumption
    | with_reducible apply stickyUp_keeps
    | with_reducible apply keeps_onPwr

theorem thmRaise_keeps {org : State} (b : BitVec 6) (s : State) (hk : Keeps org s) : Keeps org (thmRaise b s) := by
  unfold thmRaise
  repeat' first
    | with_reducible assumption
    | with_reducible apply stickyUp_keeps
    | with_reducible apply keeps_onThm

theorem calRaise_keeps {org : State} (b : BitVec 3) (s : State) (hk : Keeps org s) : Keeps org (calRaise b s) := by
  unfold calRaise
  repeat' first
    | with_reducible assumption
    | with_reducible apply stickyUp_keeps
    | with_reducible apply keeps_onCal

theorem strobe0_keeps {org : State} (s : State) (hk : Keeps org s) : Keeps org (strobe0 s) := by
  unfold strobe0
  repeat' first
    | with_reducible assumption
    | with_reducible apply keeps_onIll
    | split


theorem keeps_mk {a s t : State} (h : Keeps a s) (hp : t.pending = s.pending) (hm : t.mem = s.mem) (ht : t.tim = s.tim)
    (hf : t.frame = s.frame) (hl : ∀ k, s.xcl.latch.getLsbD k = true → t.xcl.latch.getLsbD k = true)
    (hs : safeAgrees s.xcl = true → safeAgrees t.xcl = true) : Keeps a t :=
  h.trans ⟨⟨hp, fun x => hm ▸ x, fun y => ht ▸ y, hs⟩, hf, hl⟩

/-- Signalling touches the host interface alone, and logging the event log beside it. -/
structure Reports (s t : State) : Prop where
  pending : t.pending = s.pending
  mem : t.mem = s.mem
  tim : t.tim = s.tim
  frame : t.frame = s.frame
  xcl : t.xcl = s.xcl
  phase : t.phase = s.phase

theorem msix_reports (h v : Nat) (s : State) : Reports s (msix h v s) := by
  unfold msix
  lift_lets
  intro f
  split <;> exact ⟨rfl, rfl, rfl, rfl, rfl, rfl⟩

theorem Reports.trans {a b c : State} (h : Reports a b) (k : Reports b c) : Reports a c :=
  ⟨k.1.trans h.1, k.2.trans h.2, k.3.trans h.3, k.4.trans h.4, k.5.trans h.5, k.6.trans h.6⟩

theorem Reports.refl (s : State) : Reports s s := ⟨rfl, rfl, rfl, rfl, rfl, rfl⟩

theorem Reports.ite {a s t : State} {c : Prop} [Decidable c] (h : Reports a s) (k : Reports a t) :
    Reports a (if c then s else t) := by
  split
  · exact h
  · exact k

theorem signal_reports (v : Nat) (s : State) : Reports s (signal v s) := by
  have h1 : Reports s (if wantsVec 1 v s then msix 0 v s else s) := .ite (msix_reports ..) (.refl s)
  unfold signal
  generalize (if wantsVec 1 v s then msix 0 v s else s) = t at *
  have h2 : Reports s (if wantsVec 2 v t then msix 1 v t else t) := .ite (h1.trans (msix_reports ..)) h1
  simp only []
  generalize (if wantsVec 2 v t then msix 1 v t else t) = u at *
  exact .ite (h2.trans ⟨rfl, rfl, rfl, rfl, rfl, rfl⟩) h2

theorem onMgt_reports (f : Mgt → Mgt) (s : State) : Reports s (s.onMgt f) := ⟨rfl, rfl, rfl, rfl, rfl, rfl⟩

theorem printRec_reports (r : LogRec) (s : State) : Reports s (printRec r s) :=
  ⟨rfl, rfl, rfl, rfl, rfl, rfl⟩

theorem flushFull_reports (s : State) : Reports s (flushFull s) := .ite (onMgt_reports ..) (.refl s)

theorem logRec_reports (vec code : Nat) (off bits : BitVec 32) (s : State) : Reports s (logRec vec code off bits s) := by
  unfold logRec
  split
  · exact ((onMgt_reports ..).trans (printRec_reports ..)).trans (flushFull_reports ..)
  · have h : Reports s (s.onHif fun x => { x with hwSet := (0x10004, 0x40) :: x.hwSet }) := ⟨rfl, rfl, rfl, rfl, rfl, rfl⟩
    exact h.trans (.ite (onMgt_reports ..) ((onMgt_reports ..).trans (signal_reports ..)))

theorem stickyUp_reports {w : Nat} (vec off : Nat) (old b : BitVec w) (s : State) : Reports s (stickyUp vec off old b s) :=
  have h1 : Reports s (s.onHif fun x => { x with hwSet := (off, b.setWidth 32) :: x.hwSet }) := ⟨rfl, rfl, rfl, rfl, rfl, rfl⟩
  .ite h1 (h1.trans ((logRec_reports ..).trans (signal_reports ..)))

theorem bit1_ne_zero {code : Nat} (hc : code < 12) : bit1 12 code ≠ 0 := by
  revert hc
  revert code
  decide

theorem bit1_or (b : BitVec 12) {code : Nat} (hc : code < 12) : b ||| bit1 12 code ≠ 0 := by
  intro h
  exact bit1_ne_zero hc (BitVec.or_eq_zero_iff.mp h).2

/-- A source that is raised leaves something that holds the safe state (R226). -/
theorem safeNow_raised (x : Xcl) {code : Nat} (hc : code < 12) :
    (if isLevel code then x.latch else x.latch ||| bit1 12 code) ≠ 0 ∨
    (x.active ||| bit1 12 code).getLsbD 0 = true ∨ (x.active ||| bit1 12 code).getLsbD 7 = true := by
  by_cases h : isLevel code = true
  · right
    simp [isLevel] at h
    rcases h with rfl | rfl
    · left; simp [bit1]
    · right; simp [bit1]
  · left; rw [if_neg h]; exact bit1_or _ hc

theorem raiseSource_keeps {a : State} (code : Nat) (s : State) (hc : code < 12) (hk : Keeps a s) :
    Keeps a (raiseSource code s) := by
  have hn := safeNow_raised s.xcl hc
  have hl : ∀ k, s.xcl.latch.getLsbD k = true →
      (if isLevel code then s.xcl.latch else s.xcl.latch ||| bit1 12 code).getLsbD k = true := by
    intro k h; split
    · exact h
    · simp [BitVec.getLsbD_or, h]
  unfold raiseSource
  lift_lets
  intro was s1 t
  have r : Reports (s1.onXcl fun x => { x with sticky := x.sticky ||| bit1 13 code }) t := stickyUp_reports ..
  have r1 : t.pending = s.pending := r.1
  have r2 : t.mem = s.mem := r.2
  have r3 : t.tim = s.tim := r.3
  have r4 : t.frame = s.frame := r.4
  have e1 : t.xcl.latch = (if isLevel code then s.xcl.latch else s.xcl.latch ||| bit1 12 code) := by rw [r.5]; rfl
  have e2 : t.xcl.active = s.xcl.active ||| bit1 12 code := by rw [r.5]; rfl
  have e3 : t.xcl.safe = s.xcl.safe := by rw [r.5]; rfl
  clear r
  clear_value t
  have ok : ∀ u : State, u.pending = t.pending → u.mem = t.mem → u.tim = t.tim → u.frame = t.frame →
      u.xcl.latch = t.xcl.latch → u.xcl.active = t.xcl.active → u.xcl.safe = true → Keeps a u := by
    intro u h1 h2 h3 h4 h5 h6 h7
    refine keeps_mk hk (h1.trans r1) (h2.trans r2) (h3.trans r3) (h4.trans r4) (fun k h => ?_) (fun _ => ?_)
    · rw [h5, e1]; exact hl k h
    · simp only [safeAgrees, safeNow, h5, h6, h7, e1, e2]
      simpa [or_assoc] using hn
  split
  · rename_i w
    split <;> exact ok _ rfl rfl rfl rfl rfl rfl (e3.trans w)
  · unfold enterSafe
    have q := logRec_reports 12 2 0 0 ((strobe0 (t.onXcl fun x => { x with
      safe := true, safeCnt := sat x.safeCnt, safeTick := BitVec.ofNat 24 t.tick
      safeCode := BitVec.ofNat 4 code, safeFrame := t.frame.truncate 32 })).onIll fun i => { i with
      chains := i.chains.map fun c => { c with en := false } })
    exact ok _ q.1 q.2 q.3 q.4 (by rw [q.5]; rfl) (by rw [q.5]; rfl) (by rw [q.5]; rfl)

theorem dropSource_keeps {a : State} (code : Nat) (s : State) (hk : Keeps a s) : Keeps a (dropSource code s) :=
  keeps_mk hk rfl rfl rfl rfl (fun _ => id) fun _ => by simp [dropSource, State.onXcl, safeAgrees, safeNow]

theorem followSource_keeps {a : State} (code : Nat) (on : Bool) (s : State) (hc : code < 12) (hk : Keeps a s) :
    Keeps a (followSource code on s) := by
  unfold followSource
  split
  · split
    · exact hk
    · exact raiseSource_keeps _ _ hc hk
  · exact dropSource_keeps _ _ hk

theorem writeReply_keeps {org : State} (r : Reply) (s : State) (hk : Keeps org s) : Keeps org (writeReply r s) := by
  unfold writeReply
  repeat' first
    | with_reducible assumption
    | with_reducible apply msix_keeps
    | with_reducible apply keeps_onHif
    | (intro z; have hz : Keeps org z; on_goal 1 => (simp (zeta := false) only [z]))
    | intro z
    | lift_lets
    | split

theorem writeReplies_keeps {a : State} (rs : List Reply) (s : State) (hk : Keeps a s) : Keeps a (writeReplies rs s) := by
  induction rs generalizing s with
  | nil => exact hk
  | cons r rs ih =>
    unfold writeReplies
    split
    · exact ih _ (writeReply_keeps _ _ hk)
    · exact keeps_onHif (ih _ hk) _

theorem flushReplies_keeps {org : State} (s : State) (hk : Keeps org s) : Keeps org (flushReplies s) := by
  unfold flushReplies
  repeat' first
    | with_reducible assumption
    | with_reducible apply writeReplies_keeps
    | with_reducible apply keeps_onHif
    | split

theorem queueReply_keeps {org : State} (r : Reply) (s : State) (hk : Keeps org s) : Keeps org (queueReply r s) := by
  unfold queueReply
  repeat' first
    | with_reducible assumption
    | with_reducible apply flushReplies_keeps
    | with_reducible apply keeps_onHif
    | split

theorem sendEvent_keeps {org : State} (host : HostId) (code : BitVec 16) (detail : BitVec 32) (vec : Nat) (s : State) (hk : Keeps org s) : Keeps org (sendEvent host code detail vec s) := by
  unfold sendEvent
  repeat' first
    | with_reducible assumption
    | with_reducible apply hifRaise_keeps
    | with_reducible apply signal_keeps
    | with_reducible apply writeReply_keeps
    | with_reducible apply keeps_onHif
    | (intro z; have hz : Keeps org z; on_goal 1 => (simp (zeta := false) only [z]))
    | intro z
    | lift_lets
    | split

theorem journalAdd_keeps {org : State} (e : JEntry) (s : State) (hk : Keeps org s) : Keeps org (journalAdd e s) := by
  unfold journalAdd
  repeat' first
    | with_reducible assumption
    | with_reducible apply keeps_onHif
    | (intro z; have hz : Keeps org z; on_goal 1 => (simp (zeta := false) only [z]))
    | intro z
    | lift_lets
    | split

theorem replyUnlessQuiet_keeps {org : State} (h : Held) (st : Status) (r : Reply) (s : State) (hk : Keeps org s) : Keeps org (replyUnlessQuiet h st r s) := by
  unfold replyUnlessQuiet
  repeat' first
    | with_reducible assumption
    | with_reducible apply queueReply_keeps
    | split

theorem complete_keeps {org : State} (h : Held) (st : Status) (detail : Word) (s : State) (hk : Keeps org s) : Keeps org (complete h st detail s) := by
  unfold complete
  repeat' first
    | with_reducible assumption
    | with_reducible apply journalAdd_keeps
    | with_reducible apply replyUnlessQuiet_keeps
    | with_reducible apply keeps_onHif
    | (intro z; have hz : Keeps org z; on_goal 1 => (simp (zeta := false) only [z]))
    | intro z
    | lift_lets
    | split

theorem completeOpt_keeps {org : State} (h : Option Held) (st : Status) (detail : Word) (s : State) (hk : Keeps org s) : Keeps org (completeOpt h st detail s) := by
  unfold completeOpt
  repeat' first
    | with_reducible assumption
    | with_reducible apply complete_keeps
    | split

theorem journalApply_keeps {org : State} (h : Held) (s : State) (hk : Keeps org s) : Keeps org (journalApply h s) := by
  unfold journalApply
  repeat' first
    | with_reducible assumption
    | with_reducible apply journalAdd_keeps

theorem journalSession_keeps {org : State} (host : HostId) (detail : Word) (s : State) (hk : Keeps org s) : Keeps org (journalSession host detail s) := by
  unfold journalSession
  repeat' first
    | with_reducible assumption
    | with_reducible apply journalAdd_keeps

theorem checkSeq_keeps {org : State} (c : Cmd) (s : State) (hk : Keeps org s) : Keeps org (checkSeq c s) := by
  unfold checkSeq
  repeat' first
    | with_reducible assumption
    | with_reducible apply hifRaise_keeps
    | with_reducible apply keeps_onHif
    | (intro z; have hz : Keeps org z; on_goal 1 => (simp (zeta := false) only [z]))
    | intro z
    | lift_lets
    | split

theorem renewLease_keeps {org : State} (host : HostId) (s : State) (hk : Keeps org s) : Keeps org (renewLease host s) := by
  unfold renewLease
  repeat' first
    | with_reducible assumption
    | with_reducible apply keeps_onHif
    | split

theorem countCore_keeps {org : State} (c : Cmd) (s : State) (hk : Keeps org s) : Keeps org (countCore c s) := by
  unfold countCore
  repeat' first
    | with_reducible assumption
    | with_reducible apply keeps_onHif
    | split
    | with_reducible refine keeps_eq ?_ rfl rfl rfl rfl rfl

theorem refuseCrc_keeps {org : State} (op : BitVec 16) (c : Cmd) (s : State) (hk : Keeps org s) : Keeps org (refuseCrc op c s) := by
  unfold refuseCrc
  repeat' first
    | with_reducible assumption
    | with_reducible apply queueReply_keeps
    | with_reducible apply keeps_onHif
    | (intro z; have hz : Keeps org z; on_goal 1 => (simp (zeta := false) only [z]))
    | intro z
    | lift_lets
    | split

theorem refuse_keeps {org : State} (op : BitVec 16) (c : Cmd) (r : Refuse) (s : State) (hk : Keeps org s) : Keeps org (refuse op c r s) := by
  unfold refuse
  repeat' first
    | with_reducible assumption
    | with_reducible apply journalAdd_keeps
    | with_reducible apply queueReply_keeps
    | with_reducible apply keeps_onHif
    | (intro z; have hz : Keeps org z; on_goal 1 => (simp (zeta := false) only [z]))
    | intro z
    | lift_lets
    | split

theorem journalFix_keeps {org : State} (h : Held) (st : Status) (detail : Word) (s : State) (hk : Keeps org s) : Keeps org (journalFix h st detail s) := by
  unfold journalFix
  repeat' first
    | with_reducible assumption
    | with_reducible apply keeps_onHif
    | split


/-- A command's effects, at acceptance and at a boundary, keep what the relation speaks of. -/
structure OpKeeps (sp : OpSpec) : Prop where
  effect : ∀ {a : State} (h : Held) (s : State), Keeps a s → Keeps a (sp.effect h s).st
  apply : ∀ {a : State} (h : Held) (s : State), Keeps a s → Keeps a (sp.apply h s)

theorem acceptOk_keeps {a : State} (sp : OpSpec) (c : Cmd) (s : State) (ho : OpKeeps sp) (hk : Keeps a s) :
    Keeps a (acceptOk sp c s) := by
  have h1 : Keeps a (sp.effect (heldOf sp c s) (journalAdd (heldEntry (heldOf sp c s) .accept .accepted 0 s) s)).st :=
    ho.effect _ _ (journalAdd_keeps _ _ hk)
  unfold acceptOk
  lift_lets
  intro h d s1 good s2
  have h2 : Keeps a s2 := keeps_onHif (journalFix_keeps _ _ _ _ (keeps_onHif h1 _)) _
  split
  · exact h2
  · exact replyUnlessQuiet_keeps _ _ _ _ h2

theorem acceptNow_keeps {a : State} (sp : OpSpec) (c : Cmd) (s : State) (ho : OpKeeps sp) (hk : Keeps a s) :
    Keeps a (acceptNow sp c s) := by
  have h1 := renewLease_keeps c.host _ (checkSeq_keeps c _ (countCore_keeps c _ hk))
  unfold acceptNow
  lift_lets
  intro s1
  split
  · split
    · exact refuse_keeps _ _ _ _ h1
    · exact acceptOk_keeps _ _ _ ho h1
  · exact refuseCrc_keeps _ _ _ h1

theorem waitCmd_keeps {org : State} (op : BitVec 16) (c : Cmd) (s : State) (hk : Keeps org s) : Keeps org (waitCmd op c s) := by
  unfold waitCmd
  repeat' first
    | with_reducible assumption
    | with_reducible apply keeps_onHif
    | (intro z; have hz : Keeps org z; on_goal 1 => (simp (zeta := false) only [z]))
    | intro z
    | lift_lets
    | split

theorem accept_keeps {a : State} (sp : OpSpec) (c : Cmd) (s : State) (ho : OpKeeps sp) (hk : Keeps a s) :
    Keeps a (accept sp c s) := by
  unfold accept
  split
  · exact hk
  · split
    · exact waitCmd_keeps _ _ _ hk
    · exact acceptNow_keeps _ _ _ ho hk

end Sys2Proof.Machine
end

