-- ==== Sys2Proof/Laws/KeepsTiming.lean ====
section
/-!
SUPPORT. The relation Keeps for the functions of Machine/Picture.lean and Machine/Timing.lean.
-/
set_option linter.unusedTactic false
set_option linter.unreachableTactic false
set_option linter.unusedVariables false
namespace Sys2Proof.Machine

theorem derive_keeps {org : State} (p : Nat) (s : State) (hk : Keeps org s) : Keeps org (derive p s) := by
  unfold derive
  repeat' first
    | with_reducible assumption
    | with_reducible apply keeps_onPort
    | (intro z; have hz : Keeps org z; on_goal 1 => (simp (zeta := false) only [z]))
    | intro z
    | lift_lets

theorem strobe_keeps {org : State} (s : State) (hk : Keeps org s) : Keeps org (strobe s) := by
  unfold strobe
  repeat' first
    | with_reducible assumption
    | with_reducible apply keeps_onIll
    | (intro z; have hz : Keeps org z; on_goal 1 => (simp (zeta := false) only [z]))
    | intro z
    | lift_lets
    | split

theorem strobeSet_keeps {org : State} (p : Nat) (s : State) (hk : Keeps org s) : Keeps org (strobeSet p s) := by
  unfold strobeSet
  repeat' first
    | with_reducible assumption
    | with_reducible apply strobe_keeps
    | split

theorem specTimingSet_keeps : OpKeeps specTimingSet where
  effect {org} h s hk := by
    unfold specTimingSet
    repeat' first
      | with_reducible assumption
      | (dsimp (zeta := false) only)
      | with_reducible apply keeps_onTim
      | with_reducible rfl
      | rfl
  apply _ _ hk := hk

theorem specCameraSet_keeps : OpKeeps specCameraSet where
  effect {org} h s hk := by
    unfold specCameraSet
    repeat' first
      | with_reducible assumption
      | (dsimp (zeta := false) only)
      | with_reducible apply keeps_onTim
      | with_reducible rfl
      | rfl
  apply _ _ hk := hk

theorem specViewBind_keeps : OpKeeps specViewBind where
  effect _ _ hk := hk
  apply {org} h s hk := by
    unfold specViewBind
    repeat' first
      | with_reducible assumption
      | (dsimp (zeta := false) only)
      | with_reducible apply keeps_onTim
      | with_reducible rfl
      | rfl

theorem specTimingCommit_keeps : OpKeeps specTimingCommit where
  effect {org} h s hk := by
    unfold specTimingCommit
    repeat' first
      | with_reducible assumption
      | (dsimp (zeta := false) only)
      | with_reducible apply keeps_onTim
      | with_reducible rfl
      | rfl
  apply _ _ hk := hk

theorem execTimingSet_keeps {org : State} (cmd : Cmd) (s : State) (hk : Keeps org s) : OutKeeps org (execTimingSet cmd s) :=
  out_next (accept_keeps _ _ _ specTimingSet_keeps hk)

theorem execCameraSet_keeps {org : State} (cmd : Cmd) (s : State) (hk : Keeps org s) : OutKeeps org (execCameraSet cmd s) :=
  out_next (accept_keeps _ _ _ specCameraSet_keeps hk)

theorem execViewBind_keeps {org : State} (cmd : Cmd) (s : State) (hk : Keeps org s) : OutKeeps org (execViewBind cmd s) :=
  out_next (accept_keeps _ _ _ specViewBind_keeps hk)

theorem execTimingCommit_keeps {org : State} (cmd : Cmd) (s : State) (hk : Keeps org s) : OutKeeps org (execTimingCommit cmd s) :=
  out_next (accept_keeps _ _ _ specTimingCommit_keeps hk)

theorem specPhaseMarkSet_keeps : OpKeeps specPhaseMarkSet where
  effect _ _ hk := hk
  apply {org} h s hk := by
    unfold specPhaseMarkSet
    repeat' first
      | with_reducible assumption
      | (dsimp (zeta := false) only)
      | with_reducible apply keeps_onTim
      | with_reducible rfl
      | rfl

theorem execPhaseMarkSet_keeps {org : State} (cmd : Cmd) (s : State) (hk : Keeps org s) : OutKeeps org (execPhaseMarkSet cmd s) :=
  out_next (accept_keeps _ _ _ specPhaseMarkSet_keeps hk)

theorem followMarks_keeps {org : State} (s : State) (hk : Keeps org s) : Keeps org (followMarks s) := by
  unfold followMarks
  repeat' first
    | with_reducible assumption
    | with_reducible apply keeps_onTim
    | with_reducible refine keeps_forN ?_ _ _ fun _ _ _ => ?_
    | split
    | with_reducible rfl
    | rfl

theorem carryMarks_keeps {org : State} (s : State) (hk : Keeps org s) : Keeps org (carryMarks s) := by
  unfold carryMarks
  repeat' first
    | with_reducible assumption
    | with_reducible apply keeps_onTim
    | split
    | with_reducible rfl
    | rfl

theorem execPhaseMarkEdge_keeps {org : State} (i : Fin 5) (active : Bool) (s : State) (hk : Keeps org s) : OutKeeps org (execPhaseMarkEdge i active s) := by
  unfold execPhaseMarkEdge
  repeat' first
    | with_reducible assumption
    | with_reducible apply out_next
    | with_reducible apply keeps_onTim
    | split
    | with_reducible rfl
    | rfl

theorem clampI_range (x : Int) : -1000000 ≤ clampI (-pullPpb) pullPpb x ∧ clampI (-pullPpb) pullPpb x ≤ 1000000 := by
  simp only [clampI, pullPpb]
  omega

/-- What rateInRange asks of the three places an offset stands. -/
theorem rateInRange_iff (t : Tim) : rateInRange t = true ↔ (-1000000 ≤ t.rateOfs ∧ t.rateOfs ≤ 1000000) ∧
    (∀ r ∈ t.rateHist, -1000000 ≤ r ∧ r ≤ 1000000) ∧ ∀ r ∈ t.missHist, -1000000 ≤ r ∧ r ≤ 1000000 := by
  simp only [rateInRange, List.all_cons, List.all_append, List.all_eq_true, Bool.and_eq_true, decide_eq_true_eq]

theorem setRate_keeps {org : State} (r : Int) (s : State) (hk : Keeps org s) : Keeps org (setRate r s) :=
  keeps_onTimRate hk _ fun h => (rateInRange_iff _).mpr ⟨clampI_range r, ((rateInRange_iff _).mp h).2⟩

theorem goPhase_keeps {org : State} (st : PhaseSt) (src : Nat) (s : State) (hk : Keeps org s) : Keeps org (goPhase st src s) := by
  unfold goPhase
  repeat' first
    | with_reducible assumption
    | with_reducible apply keeps_onTim
    | with_reducible rfl
    | rfl

theorem enterSource_keeps {org : State} (c : Nat) (graced : Bool) (s : State) (hk : Keeps org s) : Keeps org (enterSource c graced s) := by
  unfold enterSource
  repeat' first
    | with_reducible assumption
    | with_reducible apply goPhase_keeps
    | with_reducible apply keeps_onTim
    | with_reducible rfl
    | rfl

theorem selectSource_keeps {org : State} (s : State) (hk : Keeps org s) : Keeps org (selectSource s) := by
  unfold selectSource
  repeat' first
    | with_reducible assumption
    | with_reducible apply enterSource_keeps
    | with_reducible apply timRaise_keeps
    | with_reducible apply keeps_onTim
    | (intro z; have hz : Keeps org z; on_goal 1 => (simp (zeta := false) only [z]))
    | intro z
    | lift_lets
    | split
    | with_reducible refine keeps_eq ?_ rfl rfl rfl rfl rfl
    | with_reducible rfl
    | rfl

theorem loseSource_keeps {a : State} (s : State) (hk : Keeps a s) : Keeps a (loseSource s) := by
  unfold loseSource
  lift_lets
  intro code s1
  have h1 : Keeps a s1 := keeps_onTim (setRate_keeps _ _ hk) _ rfl rfl rfl
  exact selectSource_keeps _ (timRaise_keeps _ _ (goPhase_keeps _ _ _ h1))

theorem execRefLoss_keeps {org : State} (s : State) (hk : Keeps org s) : OutKeeps org (execRefLoss s) := by
  unfold execRefLoss
  repeat' first
    | with_reducible assumption
    | with_reducible apply out_next
    | with_reducible apply loseSource_keeps
    | split

theorem execHoldoverExpire_keeps {org : State} (s : State) (hk : Keeps org s) : OutKeeps org (execHoldoverExpire s) := by
  unfold execHoldoverExpire
  repeat' first
    | with_reducible assumption
    | with_reducible apply out_next
    | with_reducible apply goPhase_keeps
    | with_reducible apply timRaise_keeps
    | split

theorem execSteerTimeout_keeps {org : State} (s : State) (hk : Keeps org s) : OutKeeps org (execSteerTimeout s) := by
  unfold execSteerTimeout
  repeat' first
    | with_reducible assumption
    | with_reducible apply out_next
    | with_reducible apply loseSource_keeps
    | with_reducible apply timRaise_keeps
    | split

theorem execLockTimeout_keeps {org : State} (s : State) (hk : Keeps org s) : OutKeeps org (execLockTimeout s) := by
  unfold execLockTimeout
  repeat' first
    | with_reducible assumption
    | with_reducible apply out_next
    | with_reducible apply completeOpt_keeps
    | with_reducible apply timRaise_keeps
    | with_reducible apply keeps_onTim
    | (intro z; have hz : Keeps org z; on_goal 1 => (simp (zeta := false) only [z]))
    | intro z
    | lift_lets
    | split
    | with_reducible rfl
    | rfl

theorem timebaseFault_keeps {org : State} (s : State) (hk : Keeps org s) : Keeps org (timebaseFault s) := by
  unfold timebaseFault
  repeat' first
    | with_reducible assumption
    | with_reducible apply followMarks_keeps
    | with_reducible apply goPhase_keeps
    | with_reducible apply timRaise_keeps
    | with_reducible apply keeps_onTim
    | with_reducible rfl
    | rfl

theorem noteEdge_keeps {org : State} (code ns : Nat) (ok : Bool) (s : State) (hk : Keeps org s) : Keeps org (noteEdge code ns ok s) := by
  unfold noteEdge
  repeat' first
    | with_reducible assumption
    | with_reducible apply keeps_onTim
    | (intro z; have hz : Keeps org z; on_goal 1 => (simp (zeta := false) only [z]))
    | intro z
    | lift_lets
    | split
    | with_reducible rfl
    | rfl

theorem meanRate_range (now : Nat) (t : Tim) (h : -1000000 ≤ t.rateOfs ∧ t.rateOfs ≤ 1000000) :
    -1000000 ≤ meanRate now t ∧ meanRate now t ≤ 1000000 := by
  unfold meanRate
  split
  · exact h
  · exact clampI_range _

theorem endPhasePeriod_keeps {a : State} (s : State) (hk : Keeps a s) : Keeps a (endPhasePeriod s) := by
  unfold endPhasePeriod
  lift_lets
  intro t track loss s1
  have h1 : Keeps a s1 := by
    refine keeps_onTimRate hk _ fun h => ?_
    rw [rateInRange_iff] at h ⊢
    refine ⟨h.1, fun r hr => ?_, fun r hr => ?_⟩
    · rcases List.mem_cons.mp (List.mem_of_mem_take hr) with rfl | hr
      · exact meanRate_range _ _ h.1
      · exact h.2.1 r hr
    · dsimp only at hr
      split at hr
      · exact h.2.1 r hr
      · exact h.2.2 r hr
  split
  · exact keeps_raise h1 _
  · exact h1

theorem loseCam_keeps {org : State} (c : Nat) (s : State) (hk : Keeps org s) : Keeps org (loseCam c s) := by
  unfold loseCam
  repeat' first
    | with_reducible assumption
    | with_reducible apply timRaise_keeps
    | with_reducible apply keeps_onCam

theorem execCamOpenEdgeMissing_keeps {org : State} (c : Fin 4) (s : State) (hk : Keeps org s) : OutKeeps org (execCamOpenEdgeMissing c s) := by
  unfold execCamOpenEdgeMissing
  repeat' first
    | with_reducible assumption
    | with_reducible apply out_next
    | with_reducible apply loseCam_keeps
    | with_reducible apply keeps_onCam
    | (intro z; have hz : Keeps org z; on_goal 1 => (simp (zeta := false) only [z]))
    | intro z
    | lift_lets
    | split

theorem rejectEdge_keeps {org : State} (c : Nat) (s : State) (hk : Keeps org s) : Keeps org (rejectEdge c s) := by
  unfold rejectEdge
  repeat' first
    | with_reducible assumption
    | with_reducible apply timRaise_keeps
    | with_reducible apply keeps_onCam

theorem camClose_keeps {org : State} (c : Nat) (e : CamEdge) (s : State) (hk : Keeps org s) : Keeps org (camClose c e s) := by
  unfold camClose
  repeat' first
    | with_reducible assumption
    | with_reducible apply rejectEdge_keeps
    | with_reducible apply keeps_onCam
    | (intro z; have hz : Keeps org z; on_goal 1 => (simp (zeta := false) only [z]))
    | intro z
    | lift_lets
    | split

theorem freezeCam_keeps {org : State} (c : Nat) (s : State) (hk : Keeps org s) : Keeps org (freezeCam c s) := by
  unfold freezeCam
  repeat' first
    | with_reducible assumption
    | with_reducible apply keeps_onCam
    | (intro z; have hz : Keeps org z; on_goal 1 => (simp (zeta := false) only [z]))
    | intro z
    | lift_lets
    | split

theorem execWindowFreeze_keeps {org : State} (s : State) (hk : Keeps org s) : OutKeeps org (execWindowFreeze s) := by
  unfold execWindowFreeze
  repeat' first
    | with_reducible assumption
    | with_reducible apply out_next
    | with_reducible apply freezeCam_keeps
    | with_reducible apply keeps_onTim
    | with_reducible refine keeps_forN ?_ _ _ fun _ _ _ => ?_
    | split
    | with_reducible rfl
    | rfl

theorem endCamPeriod_keeps {org : State} (s : State) (hk : Keeps org s) : Keeps org (endCamPeriod s) := by
  unfold endCamPeriod
  repeat' first
    | with_reducible assumption
    | with_reducible apply keeps_onCam
    | with_reducible refine keeps_forN ?_ _ _ fun _ _ _ => ?_
    | (intro z; have hz : Keeps org z; on_goal 1 => (simp (zeta := false) only [z]))
    | intro z
    | lift_lets
    | split

end Sys2Proof.Machine
end

