-- ==== Sys2Proof/Laws/KeepsAccess.lean ====
section
/-!
SUPPORT. The relation Keeps for the functions of Machine/Access.lean.
-/
set_option linter.unusedTactic false
set_option linter.unreachableTactic false
set_option linter.unusedVariables false
namespace Sys2Proof.Machine

theorem meter_keeps {org : State} (n : Nat) (s : State) (hk : Keeps org s) : Keeps org (meter n s) := by
  unfold meter
  repeat' first
    | with_reducible assumption
    | with_reducible apply keeps_onMem
    | (intro z; have hz : Keeps org z; on_goal 1 => (simp (zeta := false) only [z]))
    | intro z
    | lift_lets
    | split
    | with_reducible rfl
    | rfl

theorem activate_keeps {org : State} (closes : Bool) (p : MemPlace) (rank : Nat) (s : State) (hk : Keeps org s) : Keeps org (activate closes p rank s) := by
  unfold activate
  repeat' first
    | with_reducible assumption
    | with_reducible apply keeps_onMem
    | (intro z; have hz : Keeps org z; on_goal 1 => (simp (zeta := false) only [z]))
    | intro z
    | lift_lets
    | split
    | with_reducible rfl
    | rfl

theorem wakeRank_keeps {org : State} (r : Nat) (s : State) (hk : Keeps org s) : Keeps org (wakeRank r s) := by
  unfold wakeRank
  repeat' first
    | with_reducible assumption
    | with_reducible apply keeps_onMem
    | (intro z; have hz : Keeps org z; on_goal 1 => (simp (zeta := false) only [z]))
    | intro z
    | lift_lets
    | split
    | with_reducible rfl
    | rfl

theorem correctedRead_keeps {org : State} (rank pc : Nat) (s : State) (hk : Keeps org s) : Keeps org (correctedRead rank pc s) := by
  unfold correctedRead
  repeat' first
    | with_reducible assumption
    | with_reducible apply memRaise_keeps
    | with_reducible apply meter_keeps
    | with_reducible apply keeps_onMem
    | with_reducible rfl
    | rfl

theorem startMigration_keeps {org : State} (lr : Nat) (cmd : Option Held) (s : State) (hk : Keeps org s) : Keeps org (startMigration lr cmd s) := by
  unfold startMigration
  repeat' first
    | with_reducible assumption
    | with_reducible apply memRaise_keeps
    | with_reducible apply keeps_onMgt
    | with_reducible apply keeps_onMem
    | (intro z; have hz : Keeps org z; on_goal 1 => (simp (zeta := false) only [z]))
    | intro z
    | lift_lets
    | with_reducible rfl
    | rfl

theorem migrationOver_keeps {org : State} (s : State) (hk : Keeps org s) : Keeps org (migrationOver s) := by
  unfold migrationOver
  repeat' first
    | with_reducible assumption
    | with_reducible apply keeps_raise
    | split

theorem abortMigration_keeps {org : State} (s : State) (hk : Keeps org s) : Keeps org (abortMigration s) := by
  unfold abortMigration
  repeat' first
    | with_reducible assumption
    | with_reducible apply completeOpt_keeps
    | with_reducible apply memRaise_keeps
    | with_reducible apply migrationOver_keeps
    | with_reducible apply keeps_onMgt
    | with_reducible apply keeps_onMem
    | (intro z; have hz : Keeps org z; on_goal 1 => (simp (zeta := false) only [z]))
    | intro z
    | lift_lets
    | with_reducible rfl
    | rfl

theorem spareReaction_keeps {org : State} (lr rank : Nat) (s : State) (hk : Keeps org s) : Keeps org (spareReaction lr rank s) := by
  unfold spareReaction
  repeat' first
    | with_reducible assumption
    | with_reducible apply abortMigration_keeps
    | with_reducible apply memRaise_keeps
    | with_reducible apply keeps_raise
    | split

theorem countUe_keeps {org : State} (n : Nat) (p : MemPlace) (rank : Nat) (s : State) (hk : Keeps org s) : Keeps org (countUe n p rank s) := by
  unfold countUe
  repeat' first
    | with_reducible assumption
    | with_reducible apply memRaise_keeps
    | with_reducible apply spareReaction_keeps
    | with_reducible apply keeps_onMem
    | (intro z; have hz : Keeps org z; on_goal 1 => (simp (zeta := false) only [z]))
    | intro z
    | lift_lets
    | split
    | with_reducible rfl
    | rfl

theorem mem_wf_parts {m n : Mem} (hp : memWf m.plane = true → memWf n.plane = true)
    (hg : memWf m.general = true → memWf n.general = true) (hr : memWf m.reserve = true → memWf n.reserve = true) :
    Memory.wf m = true → Memory.wf n = true := by
  intro h
  simp only [Memory.wf, Bool.and_eq_true] at h ⊢
  exact ⟨⟨hp h.1.1, hg h.1.2⟩, hr h.2⟩

theorem storeAt_wf (space : MemSpace) (a : Nat) (d : List Byte) (m : Mem) (h : Memory.wf m = true) :
    Memory.wf (storeAt space a d m) = true := by
  cases space
  · exact mem_wf_parts (m := m) (memWrite_wf _ _ _) id id h
  · exact mem_wf_parts (m := m) id (memWrite_wf _ _ _) id h
  · exact mem_wf_parts (m := m) id id (memWrite_wf _ _ _) h

theorem clearAt_wf (space : MemSpace) (a n : Nat) (m : Mem) (h : Memory.wf m = true) : Memory.wf (clearAt space a n m) = true := by
  cases space
  · exact mem_wf_parts (m := m) (memClear_wf _ _ _) id id h
  · exact mem_wf_parts (m := m) id (memClear_wf _ _ _) id h
  · exact mem_wf_parts (m := m) id id (memClear_wf _ _ _) h

theorem cleanWord_wf (p : MemPlace) (d : List Byte) (m : Mem) (h : Memory.wf m = true) : Memory.wf (cleanWord p d m) = true := by
  unfold cleanWord
  split <;> exact h

theorem serveBurst_keeps {a : State} (q : MemReq) (s : State) (hk : Keeps a s) : Keeps a (serveBurst q s).1 := by
  unfold serveBurst
  lift_lets
  intro p rank s1
  have h1 : Keeps a s1 := activate_keeps _ _ _ _ (wakeRank_keeps _ _ hk)
  clear_value s1
  split
  · exact memRaise_keeps _ _ (keeps_onMem h1 _ rfl rfl rfl)
  · split
    · rename_i d _
      split
      · exact h1
      · exact keeps_onMemWf h1 (fun m => cleanWord p d (storeAt q.space q.addr d m)) fun hw =>
          cleanWord_wf _ _ _ (storeAt_wf _ _ _ _ hw)
    · split
      · exact countUe_keeps _ _ _ _ h1
      · split
        · exact correctedRead_keeps _ _ _ h1
        · exact h1

theorem portRead_keeps {a : State} (q : MemReq) (n : Nat) (s : State) (hk : Keeps a s) : Keeps a (portRead q n s).st := by
  unfold portRead
  have h : ∀ (l : List (Nat × Nat)) (g : Fetched), Keeps a g.st → Keeps a (l.foldl (fun g w =>
      let r : MemReq := { q with addr := w.1, closes := w.1 + w.2 == q.addr + n }
      let t := serveBurst r (meter q.port.val g.st)
      { bytes := g.bytes ++ burstBytes r w.2 t.2 t.1, bad := if t.2 then g.bad ++ [w.1 / 32 * 32] else g.bad, st := t.1 }) g).st := by
    intro l
    induction l with
    | nil => exact fun _ h => h
    | cons w l ih => exact fun g h => ih _ (serveBurst_keeps _ _ (meter_keeps _ _ h))
  exact h _ _ hk

theorem portWrite_keeps {a : State} (q : MemReq) (d : List Byte) (s : State) (hk : Keeps a s) : Keeps a (portWrite q d s) := by
  unfold portWrite
  exact keeps_foldl hk _ _ fun s _ h => serveBurst_keeps _ _ (meter_keeps _ _ h)

theorem wipe_keeps {a : State} (space : MemSpace) (x n : Nat) (s : State) (hk : Keeps a s) : Keeps a (wipe space x n s) :=
  keeps_onMemWf hk _ fun h => clearAt_wf space x n _ h

theorem bufFetch_keeps {a : State} (q : MemReq) (b : Buffer) (o n : Nat) (s : State) (hk : Keeps a s) :
    Keeps a (bufFetch q b o n s).st := by
  unfold bufFetch
  split
  · exact hk
  · exact portRead_keeps _ _ _ hk

theorem bufStore_keeps {org : State} (q : MemReq) (b : Buffer) (o : Nat) (d : List Byte) (s : State) (hk : Keeps org s) : Keeps org (bufStore q b o d s) := by
  unfold bufStore
  repeat' first
    | with_reducible assumption
    | with_reducible apply portWrite_keeps
    | split

end Sys2Proof.Machine
end

