-- ==== Sys2Proof/Laws/KeepsLight.lean ====
section
/-!
SUPPORT. The relation Keeps for the functions of Machine/Light.lean, Machine/Sequencer.lean and Machine/Illumination.lean.
-/
set_option linter.unusedTactic false
set_option linter.unreachableTactic false
set_option linter.unusedVariables false
namespace Sys2Proof.Machine

theorem putPortSet_keeps {org : State} (h : Held) (s : State) (hk : Keeps org s) : Keeps org (putPortSet h s) := by
  unfold putPortSet
  repeat' first
    | with_reducible assumption
    | with_reducible apply keeps_onIll
    | with_reducible apply keeps_onPort
    | (intro z; have hz : Keeps org z; on_goal 1 => (simp (zeta := false) only [z]))
    | intro z
    | lift_lets

theorem putDeviceSet_keeps {org : State} (h : Held) (s : State) (hk : Keeps org s) : Keeps org (putDeviceSet h s) := by
  unfold putDeviceSet
  repeat' first
    | with_reducible assumption
    | with_reducible apply keeps_onIll
    | (intro z; have hz : Keeps org z; on_goal 1 => (simp (zeta := false) only [z]))
    | intro z
    | lift_lets
    | split

theorem putWeightSet_keeps {org : State} (h : Held) (s : State) (hk : Keeps org s) : Keeps org (putWeightSet h s) := by
  unfold putWeightSet
  repeat' first
    | with_reducible assumption
    | with_reducible apply keeps_onIll
    | (intro z; have hz : Keeps org z; on_goal 1 => (simp (zeta := false) only [z]))
    | intro z
    | lift_lets
    | split

theorem putPending_keeps {org : State} (h : Held) (s : State) (hk : Keeps org s) : Keeps org (putPending h s) := by
  unfold putPending
  repeat' first
    | with_reducible assumption
    | with_reducible apply putDeviceSet_keeps
    | with_reducible apply putPortSet_keeps
    | with_reducible apply putWeightSet_keeps
    | split

theorem aheadOf_keeps {org : State} (f : BitVec 64) (s : State) (hk : Keeps org s) : Keeps org (aheadOf f s) := by
  unfold aheadOf
  repeat' first
    | with_reducible assumption
    | with_reducible apply putPending_keeps
    | with_reducible apply keeps_onIll
    | with_reducible apply keeps_onPort
    | with_reducible refine keeps_forN ?_ _ _ fun _ _ _ => ?_
    | with_reducible refine keeps_foldl ?_ _ _ fun _ _ _ => ?_
    | (intro z; have hz : Keeps org z; on_goal 1 => (simp (zeta := false) only [z]))
    | intro z
    | lift_lets
    | split

theorem ahead_keeps {org : State} (s : State) (hk : Keeps org s) : Keeps org (ahead s) := by
  unfold ahead
  repeat' first
    | with_reducible assumption
    | with_reducible apply aheadOf_keeps

theorem withPortSets_keeps {org : State} (s : State) (hk : Keeps org s) : Keeps org (withPortSets s) := by
  unfold withPortSets
  repeat' first
    | with_reducible assumption
    | with_reducible apply putPortSet_keeps
    | with_reducible refine keeps_foldl ?_ _ _ fun _ _ _ => ?_
    | split

theorem countCodes_keeps {org : State} (s : State) (hk : Keeps org s) : Keeps org (countCodes s) := by
  unfold countCodes
  repeat' first
    | with_reducible assumption
    | with_reducible apply keeps_onSeq

theorem retarget_keeps {org : State} (s : State) (hk : Keeps org s) : Keeps org (retarget s) := by
  unfold retarget
  repeat' first
    | with_reducible assumption
    | with_reducible apply ahead_keeps
    | with_reducible apply keeps_onIll
    | (intro z; have hz : Keeps org z; on_goal 1 => (simp (zeta := false) only [z]))
    | intro z
    | lift_lets

theorem retargetWith_keeps {org : State} (h : Held) (s : State) (hk : Keeps org s) : Keeps org (retargetWith h s) := by
  unfold retargetWith
  repeat' first
    | with_reducible assumption
    | with_reducible apply retarget_keeps
    | with_reducible apply keeps_onHif
    | split

theorem specSeqPortSet_keeps : OpKeeps specSeqPortSet where
  effect {org} h s hk := by
    unfold specSeqPortSet
    repeat' first
      | with_reducible assumption
      | (dsimp (zeta := false) only)
      | with_reducible apply retargetWith_keeps
  apply {org} h s hk := by
    unfold specSeqPortSet
    repeat' first
      | with_reducible assumption
      | (dsimp (zeta := false) only)
      | with_reducible apply putPortSet_keeps

theorem specSeqLoad_keeps : OpKeeps specSeqLoad where
  effect {org} h s hk := by
    unfold specSeqLoad
    repeat' first
      | with_reducible assumption
      | (dsimp (zeta := false) only)
      | with_reducible apply keeps_onPort
      | (intro z; have hz : Keeps org z; on_goal 1 => (simp (zeta := false) only [z]))
      | intro z
      | lift_lets
      | split
  apply _ _ hk := hk

theorem withSeqs_keeps {org : State} (ports : List Nat) (f : Port → Vector (Option (List Slot)) 4) (s : State) (hk : Keeps org s) : Keeps org (withSeqs ports f s) := by
  unfold withSeqs
  repeat' first
    | with_reducible assumption
    | with_reducible apply keeps_onPort
    | with_reducible refine keeps_foldl ?_ _ _ fun _ _ _ => ?_

theorem specSeqCommit_keeps : OpKeeps specSeqCommit where
  effect {org} h s hk := by
    unfold specSeqCommit
    repeat' first
      | with_reducible assumption
      | (dsimp (zeta := false) only)
      | with_reducible apply retarget_keeps
      | with_reducible apply keeps_onPort
      | with_reducible refine keeps_foldl ?_ _ _ fun _ _ _ => ?_
      | (intro z; have hz : Keeps org z; on_goal 1 => (simp (zeta := false) only [z]))
      | intro z
      | lift_lets
  apply {org} h s hk := by
    unfold specSeqCommit
    repeat' first
      | with_reducible assumption
      | (dsimp (zeta := false) only)
      | with_reducible apply keeps_onPort
      | with_reducible refine keeps_foldl ?_ _ _ fun _ _ _ => ?_

theorem specSeqDriveSet_keeps : OpKeeps specSeqDriveSet where
  effect _ _ hk := hk
  apply {org} h s hk := by
    unfold specSeqDriveSet
    repeat' first
      | with_reducible assumption
      | (dsimp (zeta := false) only)
      | with_reducible apply keeps_onPort

theorem wakeMemory_keeps {org : State} (s : State) (hk : Keeps org s) : Keeps org (wakeMemory s) := by
  unfold wakeMemory
  repeat' first
    | with_reducible assumption
    | with_reducible apply keeps_raise
    | with_reducible refine keeps_forN ?_ _ _ fun _ _ _ => ?_
    | split

theorem resumeLink_keeps {org : State} (p : Nat) (s : State) (hk : Keeps org s) : Keeps org (resumeLink p s) := by
  unfold resumeLink
  repeat' first
    | with_reducible assumption
    | with_reducible apply keeps_onLink
    | (intro z; have hz : Keeps org z; on_goal 1 => (simp (zeta := false) only [z]))
    | intro z
    | lift_lets
    | split

theorem askReload_keeps {org : State} (p : Nat) (s : State) (hk : Keeps org s) : Keeps org (askReload p s) := by
  unfold askReload
  repeat' first
    | with_reducible assumption
    | with_reducible apply resumeLink_keeps
    | with_reducible apply wakeMemory_keeps
    | with_reducible apply keeps_onPort

theorem specHoldSet_keeps : OpKeeps specHoldSet where
  effect {org} h s hk := by
    unfold specHoldSet
    repeat' first
      | with_reducible assumption
      | (dsimp (zeta := false) only)
      | with_reducible apply askReload_keeps
      | with_reducible apply retarget_keeps
      | with_reducible apply keeps_onPort
      | (intro z; have hz : Keeps org z; on_goal 1 => (simp (zeta := false) only [z]))
      | intro z
      | lift_lets
      | split
  apply _ _ hk := hk

theorem specHoldExit_keeps : OpKeeps specHoldExit where
  effect {org} h s hk := by
    unfold specHoldExit
    repeat' first
      | with_reducible assumption
      | (dsimp (zeta := false) only)
      | with_reducible apply keeps_onFab
      | with_reducible apply keeps_onPort
  apply _ _ hk := hk

theorem execSeqPortSet_keeps {org : State} (cmd : Cmd) (s : State) (hk : Keeps org s) : OutKeeps org (execSeqPortSet cmd s) :=
  out_next (accept_keeps _ _ _ specSeqPortSet_keeps hk)

theorem execSeqLoad_keeps {org : State} (cmd : Cmd) (s : State) (hk : Keeps org s) : OutKeeps org (execSeqLoad cmd s) :=
  out_next (accept_keeps _ _ _ specSeqLoad_keeps hk)

theorem execSeqCommit_keeps {org : State} (cmd : Cmd) (s : State) (hk : Keeps org s) : OutKeeps org (execSeqCommit cmd s) :=
  out_next (accept_keeps _ _ _ specSeqCommit_keeps hk)

theorem execSeqDriveSet_keeps {org : State} (cmd : Cmd) (s : State) (hk : Keeps org s) : OutKeeps org (execSeqDriveSet cmd s) :=
  out_next (accept_keeps _ _ _ specSeqDriveSet_keeps hk)

theorem execHoldSet_keeps {org : State} (cmd : Cmd) (s : State) (hk : Keeps org s) : OutKeeps org (execHoldSet cmd s) :=
  out_next (accept_keeps _ _ _ specHoldSet_keeps hk)

theorem execHoldExit_keeps {org : State} (cmd : Cmd) (s : State) (hk : Keeps org s) : OutKeeps org (execHoldExit cmd s) :=
  out_next (accept_keeps _ _ _ specHoldExit_keeps hk)

theorem execHoldTimeout_keeps {org : State} (p : Fin 4) (s : State) (hk : Keeps org s) : OutKeeps org (execHoldTimeout p s) := by
  unfold execHoldTimeout
  repeat' first
    | with_reducible assumption
    | with_reducible apply out_next
    | with_reducible apply completeOpt_keeps
    | with_reducible apply retarget_keeps
    | with_reducible apply seqRaise_keeps
    | with_reducible apply keeps_onPort
    | (intro z; have hz : Keeps org z; on_goal 1 => (simp (zeta := false) only [z]))
    | intro z
    | lift_lets
    | split

theorem exitPort_keeps {org : State} (p : Nat) (s : State) (hk : Keeps org s) : Keeps org (exitPort p s) := by
  unfold exitPort
  repeat' first
    | with_reducible assumption
    | with_reducible apply keeps_onPort
    | (intro z; have hz : Keeps org z; on_goal 1 => (simp (zeta := false) only [z]))
    | intro z
    | lift_lets
    | split

theorem selectNext_keeps {org : State} (s : State) (hk : Keeps org s) : Keeps org (selectNext s) := by
  unfold selectNext
  repeat' first
    | with_reducible assumption
    | with_reducible apply ahead_keeps
    | with_reducible apply keeps_onSeq
    | with_reducible apply keeps_onPort
    | with_reducible refine keeps_forN ?_ _ _ fun _ _ _ => ?_
    | (intro z; have hz : Keeps org z; on_goal 1 => (simp (zeta := false) only [z]))
    | intro z
    | lift_lets
    | split

theorem execSelectionPoint_keeps {org : State} (s : State) (hk : Keeps org s) : OutKeeps org (execSelectionPoint s) := by
  unfold execSelectionPoint
  repeat' first
    | with_reducible assumption
    | with_reducible apply out_next
    | with_reducible apply selectNext_keeps
    | split

theorem countRepeats_keeps {org : State} (s : State) (hk : Keeps org s) : Keeps org (countRepeats s) := by
  unfold countRepeats
  repeat' first
    | with_reducible assumption
    | with_reducible apply seqRaise_keeps
    | with_reducible apply keeps_onPort
    | with_reducible refine keeps_forN ?_ _ _ fun _ _ _ => ?_
    | (intro z; have hz : Keeps org z; on_goal 1 => (simp (zeta := false) only [z]))
    | intro z
    | lift_lets
    | split

theorem revalidate_keeps {org : State} (s0 : State) (hk : Keeps org s0) : Keeps org (revalidate s0) := by
  unfold revalidate
  repeat' first
    | with_reducible assumption
    | with_reducible apply derive_keeps
    | with_reducible apply seqRaise_keeps
    | with_reducible apply keeps_onPort
    | with_reducible refine keeps_forN ?_ _ _ fun _ _ _ => ?_
    | (intro z; have hz : Keeps org z; on_goal 1 => (simp (zeta := false) only [z]))
    | intro z
    | lift_lets
    | split

theorem dropPending_keeps {org : State} (h : Held) (s : State) (hk : Keeps org s) : Keeps org (dropPending h s) := by
  unfold dropPending
  repeat' first
    | with_reducible assumption
    | with_reducible apply keeps_onPort
    | with_reducible refine keeps_forN ?_ _ _ fun _ _ _ => ?_
    | split

theorem finishCommit_keeps {org : State} (h : Held) (s : State) (hk : Keeps org s) : Keeps org (finishCommit h s) := by
  unfold finishCommit
  repeat' first
    | with_reducible assumption
    | with_reducible apply complete_keeps
    | with_reducible apply dropPending_keeps
    | (intro z; have hz : Keeps org z; on_goal 1 => (simp (zeta := false) only [z]))
    | intro z
    | lift_lets
    | split

theorem choosePort_keeps {org : State} (p : Nat) (s : State) (hk : Keeps org s) : Keeps org (choosePort p s) := by
  unfold choosePort
  repeat' first
    | with_reducible assumption
    | with_reducible apply seqRaise_keeps
    | with_reducible apply keeps_onPort
    | (intro z; have hz : Keeps org z; on_goal 1 => (simp (zeta := false) only [z]))
    | intro z
    | lift_lets
    | split
    | with_reducible refine keeps_eq ?_ rfl rfl rfl rfl rfl

theorem chainReply_keeps {org : State} (c : Nat) (st : Status) (s : State) (hk : Keeps org s) : Keeps org (chainReply c st s) := by
  unfold chainReply
  repeat' first
    | with_reducible assumption
    | with_reducible apply completeOpt_keeps
    | with_reducible apply keeps_onChain
    | (intro z; have hz : Keeps org z; on_goal 1 => (simp (zeta := false) only [z]))
    | intro z
    | lift_lets

theorem chainFault_keeps {org : State} (c : Nat) (b : BitVec 9) (s : State) (hk : Keeps org s) : Keeps org (chainFault c b s) := by
  unfold chainFault
  repeat' first
    | with_reducible assumption
    | with_reducible apply chainRaise_keeps
    | with_reducible apply chainReply_keeps
    | with_reducible apply keeps_onChain

theorem State.onDriver_keeps {org : State} (s : State) (k : Nat) (f : Driver → Driver) (hk : Keeps org s) : Keeps org (State.onDriver s k f) := by
  unfold State.onDriver
  repeat' first
    | with_reducible assumption
    | with_reducible apply keeps_onIll

theorem checkResponse_keeps {org : State} (c d : Nat) (resp : BitVec 40) (s : State) (hk : Keeps org s) : Keeps org (checkResponse c d resp s) := by
  unfold checkResponse
  repeat' first
    | with_reducible assumption
    | with_reducible apply State.onDriver_keeps
    | with_reducible apply chainRaise_keeps
    | with_reducible apply keeps_onChain
    | (intro z; have hz : Keeps org z; on_goal 1 => (simp (zeta := false) only [z]))
    | intro z
    | lift_lets
    | split

theorem computeTc_keeps {a : State} (early : Bool) (i : Nat) (s : State) (hk : Keeps a s) : Keeps a (computeTc early i s) := by
  unfold computeTc
  lift_lets
  intro x
  split
  · exact hk
  · split
    · exact illRaise_keeps _ _ (keeps_onIll (keeps_useFree hk) _)
    · lift_lets
      intro r t
      have ht : Keeps a t := keeps_onIll hk _
      clear_value t
      exact keeps_eq ht rfl rfl rfl rfl rfl

theorem computeBases_keeps {org : State} (early : Bool) (c : Nat) (s : State) (hk : Keeps org s) : Keeps org (computeBases early c s) := by
  unfold computeBases
  repeat' first
    | with_reducible assumption
    | with_reducible apply State.onDriver_keeps
    | with_reducible apply ahead_keeps
    | with_reducible apply computeTc_keeps
    | with_reducible apply keeps_onChain
    | with_reducible refine keeps_forN ?_ _ _ fun _ _ _ => ?_
    | with_reducible refine keeps_foldl ?_ _ _ fun _ _ _ => ?_
    | (intro z; have hz : Keeps org z; on_goal 1 => (simp (zeta := false) only [z]))
    | intro z
    | lift_lets

theorem noteLit_keeps {org : State} (s : State) (hk : Keeps org s) : Keeps org (noteLit s) := by
  unfold noteLit
  repeat' first
    | with_reducible assumption
    | with_reducible apply keeps_onIll

theorem sendWords_keeps {org : State} (c r : Nat) (s t : State) (hk : Keeps org t) : Keeps org (sendWords c r s t) := by
  unfold sendWords
  repeat' first
    | with_reducible assumption
    | with_reducible apply State.onDriver_keeps
    | with_reducible apply keeps_onChain
    | with_reducible refine keeps_foldl ?_ _ _ fun _ _ _ => ?_
    | (intro z; have hz : Keeps org z; on_goal 1 => (simp (zeta := false) only [z]))
    | intro z
    | lift_lets
    | split

theorem takeResponses_keeps {org : State} (c : Nat) (rs : List (BitVec 40)) (s : State) (hk : Keeps org s) : Keeps org (takeResponses c rs s) := by
  unfold takeResponses
  repeat' first
    | with_reducible assumption
    | with_reducible apply chainFault_keeps
    | with_reducible apply chainRaise_keeps
    | with_reducible apply checkResponse_keeps
    | with_reducible apply keeps_onChain
    | with_reducible refine keeps_foldl ?_ _ _ fun _ _ _ => ?_
    | (intro z; have hz : Keeps org z; on_goal 1 => (simp (zeta := false) only [z]))
    | intro z
    | lift_lets
    | split

theorem pulse_keeps {org : State} (swap : Bool) (c : Nat) (s : State) (hk : Keeps org s) : Keeps org (pulse swap c s) := by
  unfold pulse
  repeat' first
    | with_reducible assumption
    | with_reducible apply State.onDriver_keeps
    | with_reducible refine keeps_foldl ?_ _ _ fun _ _ _ => ?_

theorem startStage_keeps {org : State} (c n : Nat) (s : State) (hk : Keeps org s) : Keeps org (startStage c n s) := by
  unfold startStage
  repeat' first
    | with_reducible assumption
    | with_reducible apply State.onDriver_keeps
    | with_reducible apply keeps_onChain
    | with_reducible refine keeps_foldl ?_ _ _ fun _ _ _ => ?_

theorem endStage_keeps {org : State} (c : Nat) (s : State) (hk : Keeps org s) : Keeps org (endStage c s) := by
  unfold endStage
  repeat' first
    | with_reducible assumption
    | with_reducible apply State.onDriver_keeps
    | with_reducible apply chainReply_keeps
    | with_reducible apply computeBases_keeps
    | with_reducible apply pulse_keeps
    | with_reducible apply startStage_keeps
    | with_reducible apply keeps_onChain
    | with_reducible refine keeps_foldl ?_ _ _ fun _ _ _ => ?_
    | (intro z; have hz : Keeps org z; on_goal 1 => (simp (zeta := false) only [z]))
    | intro z
    | lift_lets
    | split

theorem execChainFrame_keeps {org : State} (c : Fin 4) (responses : List (BitVec 40)) (s : State) (hk : Keeps org s) : OutKeeps org (execChainFrame c responses s) := by
  unfold execChainFrame
  repeat' first
    | with_reducible assumption
    | with_reducible apply out_next
    | with_reducible apply computeBases_keeps
    | with_reducible apply endStage_keeps
    | with_reducible apply sendWords_keeps
    | with_reducible apply takeResponses_keeps
    | (intro z; have hz : Keeps org z; on_goal 1 => (simp (zeta := false) only [z]))
    | intro z
    | lift_lets
    | split

theorem specIllChainSet_keeps : OpKeeps specIllChainSet where
  effect {org} h s hk := by
    unfold specIllChainSet
    repeat' first
      | with_reducible assumption
      | (dsimp (zeta := false) only)
      | with_reducible apply chainReply_keeps
      | with_reducible apply keeps_onChain
      | (intro z; have hz : Keeps org z; on_goal 1 => (simp (zeta := false) only [z]))
      | intro z
      | lift_lets
      | split
  apply _ _ hk := hk

theorem specIllDeviceSet_keeps : OpKeeps specIllDeviceSet where
  effect {org} h s hk := by
    unfold specIllDeviceSet
    repeat' first
      | with_reducible assumption
      | (dsimp (zeta := false) only)
      | with_reducible apply retargetWith_keeps
  apply {org} h s hk := by
    unfold specIllDeviceSet
    repeat' first
      | with_reducible assumption
      | (dsimp (zeta := false) only)
      | with_reducible apply putDeviceSet_keeps

theorem specIllWeightSet_keeps : OpKeeps specIllWeightSet where
  effect {org} h s hk := by
    unfold specIllWeightSet
    repeat' first
      | with_reducible assumption
      | (dsimp (zeta := false) only)
      | with_reducible apply retargetWith_keeps
  apply {org} h s hk := by
    unfold specIllWeightSet
    repeat' first
      | with_reducible assumption
      | (dsimp (zeta := false) only)
      | with_reducible apply putWeightSet_keeps

theorem specIllFade_keeps : OpKeeps specIllFade where
  effect _ _ hk := hk
  apply {org} h s hk := by
    unfold specIllFade
    repeat' first
      | with_reducible assumption
      | (dsimp (zeta := false) only)
      | with_reducible apply keeps_onIll

theorem specIllTcSet_keeps : OpKeeps specIllTcSet where
  effect _ _ hk := hk
  apply {org} h s hk := by
    unfold specIllTcSet
    repeat' first
      | with_reducible assumption
      | (dsimp (zeta := false) only)
      | with_reducible apply keeps_onIll
      | (intro z; have hz : Keeps org z; on_goal 1 => (simp (zeta := false) only [z]))
      | intro z
      | lift_lets

theorem specIllStringSet_keeps : OpKeeps specIllStringSet where
  effect _ _ hk := hk
  apply {org} h s hk := by
    unfold specIllStringSet
    repeat' first
      | with_reducible assumption
      | (dsimp (zeta := false) only)
      | with_reducible apply dropSource_keeps
      | with_reducible apply keeps_onIll
      | (intro z; have hz : Keeps org z; on_goal 1 => (simp (zeta := false) only [z]))
      | intro z
      | lift_lets
      | split

theorem specIllDiagSet_keeps : OpKeeps specIllDiagSet where
  effect _ _ hk := hk
  apply {org} h s hk := by
    unfold specIllDiagSet
    repeat' first
      | with_reducible assumption
      | (dsimp (zeta := false) only)
      | with_reducible apply keeps_onIll

theorem execIllChainSet_keeps {org : State} (cmd : Cmd) (s : State) (hk : Keeps org s) : OutKeeps org (execIllChainSet cmd s) :=
  out_next (accept_keeps _ _ _ specIllChainSet_keeps hk)

theorem execIllDeviceSet_keeps {org : State} (cmd : Cmd) (s : State) (hk : Keeps org s) : OutKeeps org (execIllDeviceSet cmd s) :=
  out_next (accept_keeps _ _ _ specIllDeviceSet_keeps hk)

theorem execIllWeightSet_keeps {org : State} (cmd : Cmd) (s : State) (hk : Keeps org s) : OutKeeps org (execIllWeightSet cmd s) :=
  out_next (accept_keeps _ _ _ specIllWeightSet_keeps hk)

theorem execIllFade_keeps {org : State} (cmd : Cmd) (s : State) (hk : Keeps org s) : OutKeeps org (execIllFade cmd s) :=
  out_next (accept_keeps _ _ _ specIllFade_keeps hk)

theorem execIllTcSet_keeps {org : State} (cmd : Cmd) (s : State) (hk : Keeps org s) : OutKeeps org (execIllTcSet cmd s) :=
  out_next (accept_keeps _ _ _ specIllTcSet_keeps hk)

theorem execIllStringSet_keeps {org : State} (cmd : Cmd) (s : State) (hk : Keeps org s) : OutKeeps org (execIllStringSet cmd s) :=
  out_next (accept_keeps _ _ _ specIllStringSet_keeps hk)

theorem execIllDiagSet_keeps {org : State} (cmd : Cmd) (s : State) (hk : Keeps org s) : OutKeeps org (execIllDiagSet cmd s) :=
  out_next (accept_keeps _ _ _ specIllDiagSet_keeps hk)

theorem senseFault_keeps {org : State} (cs : List (Fin 24)) (s : State) (hk : Keeps org s) : Keeps org (senseFault cs s) := by
  unfold senseFault
  repeat' first
    | with_reducible assumption
    | with_reducible apply keeps_onIll
    | with_reducible refine keeps_foldl ?_ _ _ fun _ _ _ => ?_
    | split

theorem walkFault_keeps {org : State} (c : Nat) (s : State) (hk : Keeps org s) : Keeps org (walkFault c s) := by
  unfold walkFault
  repeat' first
    | with_reducible assumption
    | with_reducible apply chainFault_keeps
    | split

theorem walkFound_keeps {org : State} (fail : Option WalkFail) (s : State) (hk : Keeps org s) : Keeps org (walkFound fail s) := by
  unfold walkFound
  repeat' first
    | with_reducible assumption
    | with_reducible apply illRaise_keeps
    | with_reducible apply senseFault_keeps
    | with_reducible apply walkFault_keeps
    | with_reducible apply keeps_onIll
    | with_reducible refine keeps_forN ?_ _ _ fun _ _ _ => ?_
    | (intro z; have hz : Keeps org z; on_goal 1 => (simp (zeta := false) only [z]))
    | intro z
    | lift_lets
    | split

theorem slotStep_keeps {org : State} (s : State) (hk : Keeps org s) : Keeps org (slotStep s) := by
  unfold slotStep
  repeat' first
    | with_reducible assumption
    | with_reducible apply keeps_onIll
    | split

theorem walkEnds_keeps {org : State} (c : Nat) (fail : Option WalkFail) (s : State) (hk : Keeps org s) : Keeps org (walkEnds c fail s) := by
  unfold walkEnds
  repeat' first
    | with_reducible assumption
    | with_reducible apply chainFault_keeps
    | with_reducible apply walkFound_keeps
    | (intro z; have hz : Keeps org z; on_goal 1 => (simp (zeta := false) only [z]))
    | intro z
    | lift_lets
    | split

theorem execStartupWalkDone_keeps {org : State} (c : Fin 4) (fail : Option WalkFail) (s : State) (hk : Keeps org s) : OutKeeps org (execStartupWalkDone c fail s) := by
  unfold execStartupWalkDone
  repeat' first
    | with_reducible assumption
    | with_reducible apply out_next
    | with_reducible apply slotStep_keeps
    | with_reducible apply walkEnds_keeps
    | with_reducible apply keeps_onIll
    | with_reducible apply keeps_onChain
    | (intro z; have hz : Keeps org z; on_goal 1 => (simp (zeta := false) only [z]))
    | intro z
    | lift_lets
    | split

theorem execWalkStep_keeps {org : State} (fail : Option WalkFail) (s : State) (hk : Keeps org s) : OutKeeps org (execWalkStep fail s) := by
  unfold execWalkStep
  repeat' first
    | with_reducible assumption
    | with_reducible apply out_next
    | with_reducible apply slotStep_keeps
    | with_reducible apply walkEnds_keeps
    | with_reducible apply walkFound_keeps
    | with_reducible apply keeps_onIll
    | with_reducible apply keeps_onChain
    | split
    | with_reducible refine keeps_eq ?_ rfl rfl rfl rfl rfl

theorem startWriteOut_keeps {org : State} (c : Nat) (ids : List (BitVec 16)) (s : State) (hk : Keeps org s) : Keeps org (startWriteOut c ids s) := by
  unfold startWriteOut
  repeat' first
    | with_reducible assumption
    | with_reducible apply State.onDriver_keeps
    | with_reducible apply retarget_keeps
    | with_reducible apply startStage_keeps
    | with_reducible apply keeps_onChain
    | with_reducible refine keeps_foldl ?_ _ _ fun _ _ _ => ?_
    | (intro z; have hz : Keeps org z; on_goal 1 => (simp (zeta := false) only [z]))
    | intro z
    | lift_lets

theorem execDiscoverDone_keeps {org : State} (c : Fin 4) (delay : Nat) (ids : List (BitVec 16)) (s : State) (hk : Keeps org s) : OutKeeps org (execDiscoverDone c delay ids s) := by
  unfold execDiscoverDone
  repeat' first
    | with_reducible assumption
    | with_reducible apply out_next
    | with_reducible apply chainFault_keeps
    | with_reducible apply startWriteOut_keeps
    | with_reducible apply keeps_onChain
    | (intro z; have hz : Keeps org z; on_goal 1 => (simp (zeta := false) only [z]))
    | intro z
    | lift_lets
    | split

theorem execDiscoverTimeout_keeps {org : State} (c : Fin 4) (s : State) (hk : Keeps org s) : OutKeeps org (execDiscoverTimeout c s) := by
  unfold execDiscoverTimeout
  repeat' first
    | with_reducible assumption
    | with_reducible apply out_next
    | with_reducible apply chainFault_keeps
    | split

theorem State.onStr_keeps {org : State} (s : State) (i : Nat) (f : Str → Str) (hk : Keeps org s) : Keeps org (State.onStr s i f) := by
  unfold State.onStr
  repeat' first
    | with_reducible assumption
    | with_reducible apply keeps_onIll

theorem takeAction_keeps {org : State} (i : Nat) (s : State) (hk : Keeps org s) : Keeps org (takeAction i s) := by
  unfold takeAction
  repeat' first
    | with_reducible assumption
    | with_reducible apply State.onStr_keeps
    | with_reducible apply followSource_keeps
    | (intro z; have hz : Keeps org z; on_goal 1 => (simp (zeta := false) only [z]))
    | intro z
    | lift_lets
    | omega
    | split

theorem execStringMeasurement_keeps {org : State} (i : Fin 24) (mv : BitVec 16) (stale : Bool) (s : State) (hk : Keeps org s) : OutKeeps org (execStringMeasurement i mv stale s) := by
  unfold execStringMeasurement
  repeat' first
    | with_reducible assumption
    | with_reducible apply out_next
    | with_reducible apply State.onStr_keeps
    | with_reducible apply strOpenRaise_keeps
    | with_reducible apply strShortRaise_keeps
    | with_reducible apply takeAction_keeps
    | (intro z; have hz : Keeps org z; on_goal 1 => (simp (zeta := false) only [z]))
    | intro z
    | lift_lets
    | split

theorem firePulse_keeps {org : State} (fire : List Nat) (s : State) (hk : Keeps org s) : Keeps org (firePulse fire s) := by
  unfold firePulse
  repeat' first
    | with_reducible assumption
    | with_reducible apply State.onDriver_keeps
    | with_reducible apply State.onStr_keeps
    | with_reducible apply noteLit_keeps
    | with_reducible apply keeps_onIll
    | with_reducible refine keeps_foldl ?_ _ _ fun _ _ _ => ?_
    | (intro z; have hz : Keeps org z; on_goal 1 => (simp (zeta := false) only [z]))
    | intro z
    | lift_lets

theorem execDiagPulse_keeps {org : State} (s : State) (hk : Keeps org s) : OutKeeps org (execDiagPulse s) := by
  unfold execDiagPulse
  repeat' first
    | with_reducible assumption
    | with_reducible apply out_next
    | with_reducible apply firePulse_keeps
    | (intro z; have hz : Keeps org z; on_goal 1 => (simp (zeta := false) only [z]))
    | intro z
    | lift_lets
    | split

theorem execDiagStarved_keeps {org : State} (s : State) (hk : Keeps org s) : OutKeeps org (execDiagStarved s) := by
  unfold execDiagStarved
  repeat' first
    | with_reducible assumption
    | with_reducible apply out_next
    | with_reducible apply illRaise_keeps
    | with_reducible apply keeps_onIll
    | split

theorem skipApply_keeps {org : State} (c : Nat) (s : State) (hk : Keeps org s) : Keeps org (skipApply c s) := by
  unfold skipApply
  repeat' first
    | with_reducible assumption
    | with_reducible apply chainRaise_keeps
    | with_reducible apply keeps_onChain

theorem boundaryPulses_keeps {org : State} (s : State) (hk : Keeps org s) : Keeps org (boundaryPulses s) := by
  unfold boundaryPulses
  repeat' first
    | with_reducible assumption
    | with_reducible apply countCodes_keeps
    | with_reducible apply illRaise_keeps
    | with_reducible apply pulse_keeps
    | with_reducible apply skipApply_keeps
    | with_reducible apply keeps_onIll
    | with_reducible apply keeps_onPort
    | with_reducible refine keeps_forN ?_ _ _ fun _ _ _ => ?_
    | with_reducible refine keeps_foldl ?_ _ _ fun _ _ _ => ?_
    | (intro z; have hz : Keeps org z; on_goal 1 => (simp (zeta := false) only [z]))
    | intro z
    | lift_lets
    | split
    | with_reducible refine keeps_eq ?_ rfl rfl rfl rfl rfl

theorem endLightPeriod_keeps {org : State} (due : List Held) (s : State) (hk : Keeps org s) : Keeps org (endLightPeriod due s) := by
  unfold endLightPeriod
  repeat' first
    | with_reducible assumption
    | with_reducible apply keeps_onIll
    | split

theorem raiseEnables_keeps {org : State} (s : State) (hk : Keeps org s) : Keeps org (raiseEnables s) := by
  unfold raiseEnables
  repeat' first
    | with_reducible assumption
    | with_reducible apply keeps_onIll
    | split

end Sys2Proof.Machine
end

