-- ==== Sys2Proof/Laws/KeepsLoops.lean ====
section
/-!
SUPPORT. The relation Keeps for the functions of Machine/Loops.lean, Machine/Exclusion.lean and Machine/Slicer.lean.
-/
set_option linter.unusedTactic false
set_option linter.unreachableTactic false
set_option linter.unusedVariables false
namespace Sys2Proof.Machine

theorem recompute_keeps {org : State} (g : Nat) (s : State) (hk : Keeps org s) : Keeps org (recompute g s) := by
  unfold recompute
  repeat' first
    | with_reducible assumption
    | with_reducible apply keeps_onCle
    | with_reducible refine keeps_foldl ?_ _ _ fun _ _ _ => ?_
    | (intro z; have hz : Keeps org z; on_goal 1 => (simp (zeta := false) only [z]))
    | intro z
    | lift_lets
    | split

theorem recomputeAll_keeps {org : State} (s : State) (hk : Keeps org s) : Keeps org (recomputeAll s) := by
  unfold recomputeAll
  repeat' first
    | with_reducible assumption
    | with_reducible apply recompute_keeps
    | with_reducible refine keeps_forN ?_ _ _ fun _ _ _ => ?_

theorem followLoops_keeps {org : State} (s : State) (hk : Keeps org s) : Keeps org (followLoops s) := by
  unfold followLoops
  repeat' first
    | with_reducible assumption
    | with_reducible apply followSource_keeps
    | omega

theorem pwmTake_keeps {org : State} (n : Nat) (s : State) (hk : Keeps org s) : Keeps org (pwmTake n s) := by
  unfold pwmTake
  repeat' first
    | with_reducible assumption
    | with_reducible apply keeps_onCle
    | (intro z; have hz : Keeps org z; on_goal 1 => (simp (zeta := false) only [z]))
    | intro z
    | lift_lets
    | split

theorem pwmLose_keeps {org : State} (s : State) (hk : Keeps org s) : Keeps org (pwmLose s) := by
  unfold pwmLose
  repeat' first
    | with_reducible assumption
    | with_reducible apply cleRaise_keeps
    | with_reducible apply pwmTake_keeps
    | with_reducible refine keeps_forN ?_ _ _ fun _ _ _ => ?_

theorem pwmApply_keeps {org : State} (n : Nat) (s : State) (hk : Keeps org s) : Keeps org (pwmApply n s) := by
  unfold pwmApply
  repeat' first
    | with_reducible assumption
    | with_reducible apply keeps_onCle
    | split

theorem execPwmPeriodStart_keeps {org : State} (n : Fin 8) (s : State) (hk : Keeps org s) : OutKeeps org (execPwmPeriodStart n s) := by
  unfold execPwmPeriodStart
  repeat' first
    | with_reducible assumption
    | with_reducible apply out_next
    | with_reducible apply pwmApply_keeps
    | with_reducible apply pwmTake_keeps
    | split

theorem engineClock_keeps {org : State} (ok : Bool) (s : State) (hk : Keeps org s) : Keeps org (engineClock ok s) := by
  unfold engineClock
  repeat' first
    | with_reducible assumption
    | with_reducible apply pwmLose_keeps
    | with_reducible apply keeps_onCle
    | (intro z; have hz : Keeps org z; on_goal 1 => (simp (zeta := false) only [z]))
    | intro z
    | lift_lets
    | split

theorem engineOff_keeps {org : State} (s : State) (hk : Keeps org s) : Keeps org (engineOff s) := by
  unfold engineOff
  repeat' first
    | with_reducible assumption
    | with_reducible apply followLoops_keeps
    | with_reducible apply pruneDoms_keeps
    | with_reducible apply pwmLose_keeps
    | with_reducible apply keeps_onCle

theorem enterFault_keeps {org : State} (n : Nat) (cause : BitVec 3) (s : State) (hk : Keeps org s) : Keeps org (enterFault n cause s) := by
  unfold enterFault
  repeat' first
    | with_reducible assumption
    | with_reducible apply cleRaise_keeps
    | with_reducible apply loopRaise_keeps
    | with_reducible apply keeps_onLoop
    | (intro z; have hz : Keeps org z; on_goal 1 => (simp (zeta := false) only [z]))
    | intro z
    | lift_lets
    | split

theorem enterOut_keeps {org : State} (n j : Nat) (s : State) (hk : Keeps org s) : Keeps org (enterOut n j s) := by
  unfold enterOut
  repeat' first
    | with_reducible assumption
    | with_reducible apply recompute_keeps
    | with_reducible apply keeps_onLoop
    | (intro z; have hz : Keeps org z; on_goal 1 => (simp (zeta := false) only [z]))
    | intro z
    | lift_lets
    | split

theorem enterOuts_keeps {a : State} (n m : Nat) (s : State) (hk : Keeps a s) : Keeps a (enterOuts n m s).1 := by
  induction m with
  | zero => exact hk
  | succ m ih => exact enterOut_keeps _ _ _ ih

theorem runStep_keeps {a : State} (n : Nat) (sense : List SenseIn) (s : State) (hk : Keeps a s) : Keeps a (runStep n sense s) := by
  have kite {c : Prop} [Decidable c] {t u : State} (h1 : Keeps a t) (h2 : Keeps a u) : Keeps a (if c then t else u) := by
    split
    · exact h1
    · exact h2
  unfold runStep
  lift_lets
  intro l rs ins anyFault sched s1
  have h1 : Keeps a s1 := kite (keeps_useFree hk) hk
  clear_value s1
  intro region y s2
  have h2 : Keeps a s2 := keeps_onLoop h1 _ _
  clear_value s2
  intro s3
  have h3 : Keeps a s3 := kite (enterFault_keeps _ _ _ h2) h2
  clear_value s3
  intro s4
  have h4 : Keeps a s4 := keeps_onLoop h3 _ _
  clear_value s4
  intro l xs rho sup s5
  have h5 : Keeps a s5 := keeps_onLoop h4 _ _
  clear_value s5
  intro s6
  have h6 : Keeps a s6 := kite (enterFault_keeps _ _ _ h5) h5
  clear_value s6
  intro x s7
  exact followLoops_keeps _ (keeps_onLoop (enterOuts_keeps _ _ _ h6) _ _)

theorem dropTrigger_keeps {org : State} (n : Nat) (s : State) (hk : Keeps org s) : Keeps org (dropTrigger n s) := by
  unfold dropTrigger
  repeat' first
    | with_reducible assumption
    | with_reducible apply keeps_onCle

theorem execLoopStep_keeps {org : State} (n : Fin 64) (sense : List SenseIn) (s : State) (hk : Keeps org s) : OutKeeps org (execLoopStep n sense s) := by
  unfold execLoopStep
  repeat' first
    | with_reducible assumption
    | with_reducible apply out_next
    | with_reducible apply dropTrigger_keeps
    | with_reducible apply runStep_keeps
    | with_reducible apply keeps_onLoop
    | (intro z; have hz : Keeps org z; on_goal 1 => (simp (zeta := false) only [z]))
    | intro z
    | lift_lets
    | split

theorem fireTrigger_keeps {org : State} (n : Nat) (s : State) (hk : Keeps org s) : Keeps org (fireTrigger n s) := by
  unfold fireTrigger
  repeat' first
    | with_reducible assumption
    | with_reducible apply cleRaise_keeps
    | with_reducible apply loopRaise_keeps
    | with_reducible apply keeps_onCle
    | with_reducible apply keeps_onLoop
    | split

theorem execLoopTrigger_keeps {org : State} (n : Fin 64) (s : State) (hk : Keeps org s) : OutKeeps org (execLoopTrigger n s) := by
  unfold execLoopTrigger
  repeat' first
    | with_reducible assumption
    | with_reducible apply out_next
    | with_reducible apply fireTrigger_keeps
    | with_reducible apply keeps_onLoop
    | (intro z; have hz : Keeps org z; on_goal 1 => (simp (zeta := false) only [z]))
    | intro z
    | lift_lets
    | split

theorem endLoopPeriod_keeps {org : State} (s : State) (hk : Keeps org s) : Keeps org (endLoopPeriod s) := by
  unfold endLoopPeriod
  repeat' first
    | with_reducible assumption
    | with_reducible apply keeps_onCle

theorem slotTriggers_keeps {org : State} (p : Nat) (entry : Vector (BitVec 6) 4) (s : State) (hk : Keeps org s) : Keeps org (slotTriggers p entry s) := by
  unfold slotTriggers
  repeat' first
    | with_reducible assumption
    | with_reducible apply fireTrigger_keeps
    | with_reducible apply keeps_onLoop
    | with_reducible refine keeps_forN ?_ _ _ fun _ _ _ => ?_
    | (intro z; have hz : Keeps org z; on_goal 1 => (simp (zeta := false) only [z]))
    | intro z
    | lift_lets
    | split

theorem specLoopSet_keeps : OpKeeps specLoopSet where
  effect {org} h s hk := by
    unfold specLoopSet
    repeat' first
      | with_reducible assumption
      | (dsimp (zeta := false) only)
      | with_reducible apply dropTrigger_keeps
      | with_reducible apply engineOff_keeps
      | with_reducible apply followLoops_keeps
      | with_reducible apply recomputeAll_keeps
      | with_reducible apply keeps_onLoop
      | (intro z; have hz : Keeps org z; on_goal 1 => (simp (zeta := false) only [z]))
      | intro z
      | lift_lets
      | split
  apply _ _ hk := hk

theorem specLoopCoefSet_keeps : OpKeeps specLoopCoefSet where
  effect {org} h s hk := by
    unfold specLoopCoefSet
    repeat' first
      | with_reducible assumption
      | (dsimp (zeta := false) only)
      | with_reducible apply keeps_onLoop
      | (intro z; have hz : Keeps org z; on_goal 1 => (simp (zeta := false) only [z]))
      | intro z
      | lift_lets
  apply _ _ hk := hk

theorem specLoopRefSet_keeps : OpKeeps specLoopRefSet where
  effect {org} h s hk := by
    unfold specLoopRefSet
    repeat' first
      | with_reducible assumption
      | (dsimp (zeta := false) only)
      | with_reducible apply keeps_onLoop
      | (intro z; have hz : Keeps org z; on_goal 1 => (simp (zeta := false) only [z]))
      | intro z
      | lift_lets
      | split
  apply _ _ hk := hk

theorem specLoopGroupSet_keeps : OpKeeps specLoopGroupSet where
  effect {org} h s hk := by
    unfold specLoopGroupSet
    repeat' first
      | with_reducible assumption
      | (dsimp (zeta := false) only)
      | with_reducible apply recompute_keeps
      | with_reducible apply keeps_onCle
      | (intro z; have hz : Keeps org z; on_goal 1 => (simp (zeta := false) only [z]))
      | intro z
      | lift_lets
  apply _ _ hk := hk

theorem specLoopArm_keeps : OpKeeps specLoopArm where
  effect {org} h s hk := by
    unfold specLoopArm
    repeat' first
      | with_reducible assumption
      | (dsimp (zeta := false) only)
      | with_reducible apply followLoops_keeps
      | with_reducible apply recomputeAll_keeps
      | with_reducible apply keeps_onLoop
  apply _ _ hk := hk

theorem specLoopPwmSet_keeps : OpKeeps specLoopPwmSet where
  effect {org} h s hk := by
    unfold specLoopPwmSet
    repeat' first
      | with_reducible assumption
      | (dsimp (zeta := false) only)
      | with_reducible apply pwmApply_keeps
      | with_reducible apply pwmTake_keeps
      | with_reducible apply keeps_onCle
      | (intro z; have hz : Keeps org z; on_goal 1 => (simp (zeta := false) only [z]))
      | intro z
      | lift_lets
      | split
  apply _ _ hk := hk

theorem execLoopSet_keeps {org : State} (cmd : Cmd) (s : State) (hk : Keeps org s) : OutKeeps org (execLoopSet cmd s) :=
  out_next (accept_keeps _ _ _ specLoopSet_keeps hk)

theorem execLoopCoefSet_keeps {org : State} (cmd : Cmd) (s : State) (hk : Keeps org s) : OutKeeps org (execLoopCoefSet cmd s) :=
  out_next (accept_keeps _ _ _ specLoopCoefSet_keeps hk)

theorem execLoopRefSet_keeps {org : State} (cmd : Cmd) (s : State) (hk : Keeps org s) : OutKeeps org (execLoopRefSet cmd s) :=
  out_next (accept_keeps _ _ _ specLoopRefSet_keeps hk)

theorem execLoopGroupSet_keeps {org : State} (cmd : Cmd) (s : State) (hk : Keeps org s) : OutKeeps org (execLoopGroupSet cmd s) :=
  out_next (accept_keeps _ _ _ specLoopGroupSet_keeps hk)

theorem execLoopArm_keeps {org : State} (cmd : Cmd) (s : State) (hk : Keeps org s) : OutKeeps org (execLoopArm cmd s) :=
  out_next (accept_keeps _ _ _ specLoopArm_keeps hk)

theorem execLoopPwmSet_keeps {org : State} (cmd : Cmd) (s : State) (hk : Keeps org s) : OutKeeps org (execLoopPwmSet cmd s) :=
  out_next (accept_keeps _ _ _ specLoopPwmSet_keeps hk)

theorem createVersion_keeps {org : State} (p : Nat) (f : XVersion → XVersion) (h : Option Held) (s : State) (hk : Keeps org s) : Keeps org (createVersion p f h s) := by
  unfold createVersion
  repeat' first
    | with_reducible assumption
    | with_reducible apply keeps_onXset
    | (intro z; have hz : Keeps org z; on_goal 1 => (simp (zeta := false) only [z]))
    | intro z
    | lift_lets

theorem takeAll_keeps {org : State} (p : Nat) (s : State) (hk : Keeps org s) : Keeps org (takeAll p s) := by
  unfold takeAll
  repeat' first
    | with_reducible assumption
    | with_reducible apply keeps_onXset
    | (intro z; have hz : Keeps org z; on_goal 1 => (simp (zeta := false) only [z]))
    | intro z
    | lift_lets

theorem takeVersion_keeps {org : State} (p b : Nat) (s : State) (hk : Keeps org s) : Keeps org (takeVersion p b s) := by
  unfold takeVersion
  repeat' first
    | with_reducible assumption
    | with_reducible apply keeps_onXset
    | (intro z; have hz : Keeps org z; on_goal 1 => (simp (zeta := false) only [z]))
    | intro z
    | lift_lets

theorem checkStuck_keeps {org : State} (p : Nat) (s : State) (hk : Keeps org s) : Keeps org (checkStuck p s) := by
  unfold checkStuck
  repeat' first
    | with_reducible assumption
    | with_reducible apply followSource_keeps
    | with_reducible apply xsetRaise_keeps
    | with_reducible apply keeps_onXset
    | (intro z; have hz : Keeps org z; on_goal 1 => (simp (zeta := false) only [z]))
    | intro z
    | lift_lets
    | omega
    | split

theorem followStuck_keeps {org : State} (s : State) (hk : Keeps org s) : Keeps org (followStuck s) := by
  unfold followStuck
  repeat' first
    | with_reducible assumption
    | with_reducible apply followSource_keeps
    | with_reducible apply keeps_onXcl
    | (intro z; have hz : Keeps org z; on_goal 1 => (simp (zeta := false) only [z]))
    | intro z
    | lift_lets
    | omega
    | with_reducible rfl
    | rfl

theorem followSets_keeps {org : State} (s : State) (hk : Keeps org s) : Keeps org (followSets s) := by
  unfold followSets
  repeat' first
    | with_reducible assumption
    | with_reducible apply dropSource_keeps
    | split

theorem versionReady_keeps {org : State} (p : Fin 4) (agree : Bool) (s : State) (hk : Keeps org s) : Keeps org (versionReady p agree s) := by
  unfold versionReady
  repeat' first
    | with_reducible assumption
    | with_reducible apply askReload_keeps
    | with_reducible apply checkStuck_keeps
    | with_reducible apply completeOpt_keeps
    | with_reducible apply followSets_keeps
    | with_reducible apply raiseSource_keeps
    | with_reducible apply takeAll_keeps
    | with_reducible apply xsetRaise_keeps
    | with_reducible apply keeps_onCmp
    | with_reducible apply keeps_onXset
    | (intro z; have hz : Keeps org z; on_goal 1 => (simp (zeta := false) only [z]))
    | intro z
    | lift_lets
    | omega
    | split

theorem abortLoad_keeps {org : State} (x : XVersion × Option Held) (s : State) (hk : Keeps org s) : Keeps org (abortLoad x s) := by
  unfold abortLoad
  repeat' first
    | with_reducible assumption
    | with_reducible apply complete_keeps
    | with_reducible apply keeps_onCmp
    | split

theorem xclDomainOff_keeps {org : State} (s : State) (hk : Keeps org s) : Keeps org (xclDomainOff s) := by
  unfold xclDomainOff
  repeat' first
    | with_reducible assumption
    | with_reducible apply abortLoad_keeps
    | with_reducible apply dropSource_keeps
    | with_reducible apply followStuck_keeps
    | with_reducible apply keeps_onXcl
    | with_reducible refine keeps_foldl ?_ _ _ fun _ _ _ => ?_
    | (intro z; have hz : Keeps org z; on_goal 1 => (simp (zeta := false) only [z]))
    | intro z
    | lift_lets
    | with_reducible rfl
    | rfl

theorem newRecordEpoch_keeps {org : State} (p : Nat) (s : State) (hk : Keeps org s) : Keeps org (newRecordEpoch p s) := by
  unfold newRecordEpoch
  repeat' first
    | with_reducible assumption
    | with_reducible apply keeps_onXset

theorem auditHit_keeps {org : State} (p b v y tag n : Nat) (s : State) (hk : Keeps org s) : Keeps org (auditHit p b v y tag n s) := by
  unfold auditHit
  repeat' first
    | with_reducible assumption
    | with_reducible apply raiseSource_keeps
    | with_reducible apply xsetRaise_keeps
    | with_reducible apply keeps_onPort
    | with_reducible apply keeps_onXset
    | (intro z; have hz : Keeps org z; on_goal 1 => (simp (zeta := false) only [z]))
    | intro z
    | lift_lets
    | omega
    | split

theorem specXclRegionSet_keeps : OpKeeps specXclRegionSet where
  effect {org} h s hk := by
    unfold specXclRegionSet
    repeat' first
      | with_reducible assumption
      | (dsimp (zeta := false) only)
      | with_reducible apply createVersion_keeps
      | with_reducible refine keeps_foldl ?_ _ _ fun _ _ _ => ?_
      | (intro z; have hz : Keeps org z; on_goal 1 => (simp (zeta := false) only [z]))
      | intro z
      | lift_lets
  apply _ _ hk := hk

theorem maskRead_keeps {a : State} (c : Cmd) (s : State) (hk : Keeps a s) : Keeps a (maskRead c s).st := by
  unfold maskRead
  split
  · exact bufFetch_keeps _ _ _ _ _ hk
  · exact hk

theorem specXclMaskLoad_keeps : OpKeeps specXclMaskLoad where
  effect {org} h s hk := by
    unfold specXclMaskLoad
    repeat' first
      | with_reducible assumption
      | (dsimp (zeta := false) only)
      | with_reducible apply createVersion_keeps
      | with_reducible apply maskRead_keeps
      | with_reducible apply keeps_onCmp
      | (intro z; have hz : Keeps org z; on_goal 1 => (simp (zeta := false) only [z]))
      | intro z
      | lift_lets
      | split
  apply _ _ hk := hk

theorem specXclHostBlank_keeps : OpKeeps specXclHostBlank where
  effect {org} h s hk := by
    unfold specXclHostBlank
    repeat' first
      | with_reducible assumption
      | (dsimp (zeta := false) only)
      | with_reducible apply raiseSource_keeps
      | omega
  apply _ _ hk := hk

theorem specXclSafeRelease_keepsInv (h : Held) (s : State) : KeepsInv s (specXclSafeRelease.effect h s).st :=
  ⟨rfl, id, id, fun _ => by simp [specXclSafeRelease, State.onXcl, safeAgrees, safeNow]⟩

theorem specSymListSet_keeps : OpKeeps specSymListSet where
  effect {org} h s hk := by
    unfold specSymListSet
    repeat' first
      | with_reducible assumption
      | (dsimp (zeta := false) only)
      | with_reducible apply keeps_onXcl
      | with_reducible rfl
      | rfl
  apply _ _ hk := hk

theorem specSymGlyphLoad_keeps : OpKeeps specSymGlyphLoad where
  effect {a} h s hk := by
    unfold specSymGlyphLoad
    dsimp (zeta := false) only
    lift_lets
    intro b n
    split
    · exact hk
    · lift_lets
      intro m f u
      have hu : Keeps a u := portWrite_keeps _ _ _ (bufFetch_keeps _ _ _ _ _ hk)
      clear_value u
      exact keeps_onXcl hu (fun x => { x with glyphLoaded := x.glyphLoaded ||| m, glyphLost := x.glyphLost &&& ~~~m }) rfl rfl rfl
  apply _ _ hk := hk

theorem execXclRegionSet_keeps {org : State} (cmd : Cmd) (s : State) (hk : Keeps org s) : OutKeeps org (execXclRegionSet cmd s) :=
  out_next (accept_keeps _ _ _ specXclRegionSet_keeps hk)

theorem execXclMaskLoad_keeps {org : State} (cmd : Cmd) (s : State) (hk : Keeps org s) : OutKeeps org (execXclMaskLoad cmd s) :=
  out_next (accept_keeps _ _ _ specXclMaskLoad_keeps hk)

theorem execXclHostBlank_keeps {org : State} (cmd : Cmd) (s : State) (hk : Keeps org s) : OutKeeps org (execXclHostBlank cmd s) :=
  out_next (accept_keeps _ _ _ specXclHostBlank_keeps hk)

/-- XCL_SAFE_RELEASE clears the latch, and keeps the rest. -/
theorem execXclSafeRelease_keepsInv {a t : State} (cmd : Cmd) (s : State) (hk : KeepsInv a s)
    (he : execXclSafeRelease cmd s = .next t) : KeepsInv a t ∧ t.frame = s.frame := by
  obtain rfl := (Host.Outcome.next.inj he).symm
  have frm (u v : State) (h : Keeps u v) : KeepsInv u v ∧ v.frame = u.frame := ⟨h.toKeepsInv, h.frame⟩
  suffices h : KeepsInv s (accept specXclSafeRelease cmd s) ∧ (accept specXclSafeRelease cmd s).frame = s.frame from
    ⟨hk.trans h.1, h.2⟩
  unfold accept
  split
  · exact ⟨.refl s, rfl⟩
  · split
    · exact frm _ _ (waitCmd_keeps _ _ _ (.refl s))
    · have h1 := renewLease_keeps cmd.host _ (checkSeq_keeps cmd _ (countCore_keeps cmd _ (Keeps.refl s)))
      unfold acceptNow
      lift_lets
      intro s2
      split
      · split
        · exact frm _ _ (refuse_keeps _ _ _ _ h1)
        · unfold acceptOk
          lift_lets
          intro h d s3 good s4
          have h2 := journalAdd_keeps (heldEntry h .accept .accepted 0 s2) s2 h1
          have h3 := specXclSafeRelease_keepsInv h (journalAdd (heldEntry h .accept .accepted 0 s2) s2)
          have h4 : Keeps d.st s4 := keeps_onHif (journalFix_keeps _ _ _ _ (keeps_onHif (.refl _) _)) _
          have h5 : KeepsInv s s4 ∧ s4.frame = s.frame :=
            ⟨(h2.toKeepsInv.trans h3).trans h4.toKeepsInv, h4.frame.trans h2.frame⟩
          clear_value s4
          split
          · exact h5
          · have h6 := replyUnlessQuiet_keeps h d.status (heldReply h 0 d.status h.jseq d.detail d.result s4) s4 (.refl s4)
            exact ⟨h5.1.trans h6.toKeepsInv, h6.frame.trans h5.2⟩
      · exact frm _ _ (refuseCrc_keeps _ _ _ h1)

theorem execSymListSet_keeps {org : State} (cmd : Cmd) (s : State) (hk : Keeps org s) : OutKeeps org (execSymListSet cmd s) :=
  out_next (accept_keeps _ _ _ specSymListSet_keeps hk)

theorem execSymGlyphLoad_keeps {org : State} (cmd : Cmd) (s : State) (hk : Keeps org s) : OutKeeps org (execSymGlyphLoad cmd s) :=
  out_next (accept_keeps _ _ _ specSymGlyphLoad_keeps hk)

theorem execSafeBlankNFall_keeps {org : State} (s : State) (hk : Keeps org s) : OutKeeps org (execSafeBlankNFall s) := by
  unfold execSafeBlankNFall
  repeat' first
    | with_reducible assumption
    | with_reducible apply out_next
    | with_reducible apply followSource_keeps
    | with_reducible apply keeps_onXcl
    | (intro z; have hz : Keeps org z; on_goal 1 => (simp (zeta := false) only [z]))
    | intro z
    | lift_lets
    | omega
    | split
    | with_reducible rfl
    | rfl

theorem execSafeBlankNRise_keeps {org : State} (s : State) (hk : Keeps org s) : OutKeeps org (execSafeBlankNRise s) := by
  unfold execSafeBlankNRise
  repeat' first
    | with_reducible assumption
    | with_reducible apply out_next
    | with_reducible apply dropSource_keeps
    | with_reducible apply keeps_onXcl
    | (intro z; have hz : Keeps org z; on_goal 1 => (simp (zeta := false) only [z]))
    | intro z
    | lift_lets
    | split
    | with_reducible rfl
    | rfl

theorem setIlock_keeps {org : State} (b : Fin 2) (closed : Bool) (s : State) (hk : Keeps org s) : Keeps org (setIlock b closed s) := by
  unfold setIlock
  repeat' first
    | with_reducible assumption
    | with_reducible apply keeps_onXcl
    | split
    | with_reducible rfl
    | rfl

theorem execIlockOpen_keeps {org : State} (b : Fin 2) (s : State) (hk : Keeps org s) : OutKeeps org (execIlockOpen b s) := by
  unfold execIlockOpen
  repeat' first
    | with_reducible assumption
    | with_reducible apply out_next
    | with_reducible apply raiseSource_keeps
    | with_reducible apply setIlock_keeps
    | (intro z; have hz : Keeps org z; on_goal 1 => (simp (zeta := false) only [z]))
    | intro z
    | lift_lets
    | omega
    | split

theorem execIlockClose_keeps {org : State} (b : Fin 2) (s : State) (hk : Keeps org s) : OutKeeps org (execIlockClose b s) := by
  unfold execIlockClose
  repeat' first
    | with_reducible assumption
    | with_reducible apply out_next
    | with_reducible apply setIlock_keeps

theorem execIlockClosed10ms_keeps {org : State} (s : State) (hk : Keeps org s) : OutKeeps org (execIlockClosed10ms s) := by
  unfold execIlockClosed10ms
  repeat' first
    | with_reducible assumption
    | with_reducible apply out_next
    | with_reducible apply dropSource_keeps
    | split

theorem execIlockDisc_keeps {org : State} (s : State) (hk : Keeps org s) : OutKeeps org (execIlockDisc s) := by
  unfold execIlockDisc
  repeat' first
    | with_reducible assumption
    | with_reducible apply out_next
    | with_reducible apply xclRaise_keeps
    | with_reducible apply keeps_onXcl
    | split
    | with_reducible rfl
    | rfl

theorem dropSlicing_keeps {org : State} (count : Bool) (v i : Nat) (s : State) (hk : Keeps org s) : Keeps org (dropSlicing count v i s) := by
  unfold dropSlicing
  repeat' first
    | with_reducible assumption
    | with_reducible apply slcRaise_keeps
    | with_reducible apply keeps_onSlc
    | with_reducible apply keeps_onStore
    | (intro z; have hz : Keeps org z; on_goal 1 => (simp (zeta := false) only [z]))
    | intro z
    | lift_lets
    | split

theorem dropFrames_keeps {org : State} (count : Bool) (v : Nat) (s : State) (hk : Keeps org s) : Keeps org (dropFrames count v s) := by
  unfold dropFrames
  repeat' first
    | with_reducible assumption
    | with_reducible apply dropSlicing_keeps
    | with_reducible refine keeps_foldl ?_ _ _ fun _ _ _ => ?_

theorem emptyStore_keeps {org : State} (count : Bool) (v : Nat) (s : State) (hk : Keeps org s) : Keeps org (emptyStore count v s) := by
  unfold emptyStore
  repeat' first
    | with_reducible assumption
    | with_reducible apply dropFrames_keeps
    | with_reducible apply keeps_onStore
    | split

theorem startSlicing_keeps {org : State} (v i frame : Nat) (s : State) (hk : Keeps org s) : Keeps org (startSlicing v i frame s) := by
  unfold startSlicing
  repeat' first
    | with_reducible assumption
    | with_reducible apply keeps_onStore
    | (intro z; have hz : Keeps org z; on_goal 1 => (simp (zeta := false) only [z]))
    | intro z
    | lift_lets
    | split

theorem fillSlicer_keeps {org : State} (i v c band buf : Nat) (rows : List (List (BitVec 16))) (s : State) (hk : Keeps org s) : Keeps org (fillSlicer i v c band buf rows s) := by
  unfold fillSlicer
  repeat' first
    | with_reducible assumption
    | with_reducible apply keeps_onSlicer
    | (intro z; have hz : Keeps org z; on_goal 1 => (simp (zeta := false) only [z]))
    | intro z
    | lift_lets

theorem execSlicerFillDone_keeps {org : State} (i : Fin 8) (s : State) (hk : Keeps org s) : OutKeeps org (execSlicerFillDone i s) := by
  unfold execSlicerFillDone
  repeat' first
    | with_reducible assumption
    | with_reducible apply out_next
    | with_reducible apply keeps_onSlicer
    | split

theorem writeBand_keeps {a : State} (q : Slicer) (s : State) (hk : Keeps a s) : Keeps a (writeBand q s) :=
  keeps_foldl hk _ _ fun _ _ h => portWrite_keeps _ _ _ h

theorem bandWritten_keeps {org : State} (q : Slicer) (s : State) (hk : Keeps org s) : Keeps org (bandWritten q s) := by
  unfold bandWritten
  repeat' first
    | with_reducible assumption
    | with_reducible apply complete_keeps
    | with_reducible apply keeps_onStore
    | (intro z; have hz : Keeps org z; on_goal 1 => (simp (zeta := false) only [z]))
    | intro z
    | lift_lets
    | split

theorem slicerRest_keeps {org : State} (i : Nat) (s : State) (hk : Keeps org s) : Keeps org (slicerRest i s) := by
  unfold slicerRest
  repeat' first
    | with_reducible assumption
    | with_reducible apply keeps_onSlicer
    | split

theorem execSlicerDrainDone_keeps {org : State} (i : Fin 8) (s : State) (hk : Keeps org s) : OutKeeps org (execSlicerDrainDone i s) := by
  unfold execSlicerDrainDone
  repeat' first
    | with_reducible assumption
    | with_reducible apply out_next
    | with_reducible apply bandWritten_keeps
    | with_reducible apply slicerRest_keeps
    | with_reducible apply writeBand_keeps
    | with_reducible apply keeps_onSlicer
    | (intro z; have hz : Keeps org z; on_goal 1 => (simp (zeta := false) only [z]))
    | intro z
    | lift_lets
    | split

theorem powerSlicers_keeps {org : State} (s : State) (hk : Keeps org s) : Keeps org (powerSlicers s) := by
  unfold powerSlicers
  repeat' first
    | with_reducible assumption
    | with_reducible apply keeps_useFree
    | with_reducible apply keeps_onSlc
    | (intro z; have hz : Keeps org z; on_goal 1 => (simp (zeta := false) only [z]))
    | intro z
    | lift_lets
    | split

theorem specPlaneStoreSet_keeps : OpKeeps specPlaneStoreSet where
  effect {org} h s hk := by
    unfold specPlaneStoreSet
    repeat' first
      | with_reducible assumption
      | (dsimp (zeta := false) only)
      | with_reducible apply emptyStore_keeps
      | with_reducible apply keeps_onStore
      | with_reducible apply keeps_onFview
      | (intro z; have hz : Keeps org z; on_goal 1 => (simp (zeta := false) only [z]))
      | intro z
      | lift_lets
      | split
  apply _ _ hk := hk

theorem execPlaneStoreSet_keeps {org : State} (cmd : Cmd) (s : State) (hk : Keeps org s) : OutKeeps org (execPlaneStoreSet cmd s) :=
  out_next (accept_keeps _ _ _ specPlaneStoreSet_keeps hk)

end Sys2Proof.Machine
end

