-- ==== Sys2Proof/Laws/KeepsFabric.lean ====
section
/-!
SUPPORT. The relation Keeps for the functions of Machine/Operands.lean, Machine/Compose.lean and Machine/Fabric.lean.
-/
set_option linter.unusedTactic false
set_option linter.unreachableTactic false
set_option linter.unusedVariables false
namespace Sys2Proof.Machine

theorem State.onBuf_keeps {org : State} (s : State) (h : BitVec 32) (f : Buffer → Buffer) (hk : Keeps org s) : Keeps org (State.onBuf s h f) := by
  unfold State.onBuf
  repeat' first
    | with_reducible assumption
    | with_reducible apply keeps_onCmp
    | split

theorem dropBuf_keeps {org : State} (b : Buffer) (s : State) (hk : Keeps org s) : Keeps org (dropBuf b s) := by
  unfold dropBuf
  repeat' first
    | with_reducible assumption
    | with_reducible apply wipe_keeps
    | with_reducible apply keeps_onCmp
    | (intro z; have hz : Keeps org z; on_goal 1 => (simp (zeta := false) only [z]))
    | intro z
    | lift_lets
    | split

theorem sweepBuffers_keeps {org : State} (s : State) (hk : Keeps org s) : Keeps org (sweepBuffers s) := by
  unfold sweepBuffers
  repeat' first
    | with_reducible assumption
    | with_reducible apply complete_keeps
    | with_reducible apply dropBuf_keeps
    | with_reducible apply sendEvent_keeps
    | with_reducible refine keeps_foldl ?_ _ _ fun _ _ _ => ?_
    | split

theorem unname_keeps {org : State} (h : BitVec 32) (s : State) (hk : Keeps org s) : Keeps org (unname h s) := by
  unfold unname
  repeat' first
    | with_reducible assumption
    | with_reducible apply sweepBuffers_keeps
    | with_reducible apply keeps_onCmp

theorem execXclVersionReady_keeps {org : State} (p : Fin 4) (agree : Bool) (s : State) (hk : Keeps org s) : OutKeeps org (execXclVersionReady p agree s) := by
  unfold execXclVersionReady
  repeat' first
    | with_reducible assumption
    | with_reducible apply out_next
    | with_reducible apply sweepBuffers_keeps
    | with_reducible apply versionReady_keeps

theorem specBufAlloc_keeps : OpKeeps specBufAlloc where
  effect {org} h s hk := by
    unfold specBufAlloc
    repeat' first
      | with_reducible assumption
      | (dsimp (zeta := false) only)
      | with_reducible apply keeps_onCmp
      | split
      | with_reducible refine keeps_eq ?_ rfl rfl rfl rfl rfl
  apply _ _ hk := hk

theorem specBufFree_keeps : OpKeeps specBufFree where
  effect {org} h s hk := by
    unfold specBufFree
    repeat' first
      | with_reducible assumption
      | (dsimp (zeta := false) only)
      | with_reducible apply State.onBuf_keeps
      | with_reducible apply dropBuf_keeps
      | with_reducible apply keeps_onBuf
      | split
      | with_reducible refine keeps_eq ?_ rfl rfl rfl rfl rfl
  apply _ _ hk := hk

theorem signalBuf_keeps {org : State} (h : BitVec 32) (f : BitVec 32 → BitVec 32) (s : State) (hk : Keeps org s) : Keeps org (signalBuf h f s) := by
  unfold signalBuf
  repeat' first
    | with_reducible assumption
    | with_reducible apply State.onBuf_keeps
    | with_reducible apply keeps_onBuf

theorem applySignal_keeps {org : State} (h : Held) (s : State) (hk : Keeps org s) : Keeps org (applySignal h s) := by
  unfold applySignal
  repeat' first
    | with_reducible assumption
    | with_reducible apply signalBuf_keeps
    | (intro z; have hz : Keeps org z; on_goal 1 => (simp (zeta := false) only [z]))
    | intro z
    | lift_lets
    | split

theorem specBufSignal_keeps : OpKeeps specBufSignal where
  effect {org} h s hk := by
    unfold specBufSignal
    repeat' first
      | with_reducible assumption
      | (dsimp (zeta := false) only)
      | with_reducible apply applySignal_keeps
      | with_reducible apply keeps_onCmp
      | (intro z; have hz : Keeps org z; on_goal 1 => (simp (zeta := false) only [z]))
      | intro z
      | lift_lets
      | split
  apply _ _ hk := hk

theorem execBufAlloc_keeps {org : State} (cmd : Cmd) (s : State) (hk : Keeps org s) : OutKeeps org (execBufAlloc cmd s) :=
  out_next (accept_keeps _ _ _ specBufAlloc_keeps hk)

theorem execBufFree_keeps {org : State} (cmd : Cmd) (s : State) (hk : Keeps org s) : OutKeeps org (execBufFree cmd s) :=
  out_next (accept_keeps _ _ _ specBufFree_keeps hk)

theorem execBufSignal_keeps {org : State} (cmd : Cmd) (s : State) (hk : Keeps org s) : OutKeeps org (execBufSignal cmd s) :=
  out_next (accept_keeps _ _ _ specBufSignal_keeps hk)

theorem specCmpViewSet_keeps : OpKeeps specCmpViewSet where
  effect {org} h s hk := by
    unfold specCmpViewSet
    repeat' first
      | with_reducible assumption
      | (dsimp (zeta := false) only)
      | with_reducible apply keeps_onCview
      | (intro z; have hz : Keeps org z; on_goal 1 => (simp (zeta := false) only [z]))
      | intro z
      | lift_lets
  apply _ _ hk := hk

theorem pipesOff_keeps {org : State} (s : State) (hk : Keeps org s) : Keeps org (pipesOff s) := by
  unfold pipesOff
  repeat' first
    | with_reducible assumption
    | with_reducible apply keeps_onPipe
    | with_reducible refine keeps_forN ?_ _ _ fun _ _ _ => ?_

theorem takeBind_keeps {org : State} (i : Nat) (v : Option (BitVec 3)) (s : State) (hk : Keeps org s) : Keeps org (takeBind i v s) := by
  unfold takeBind
  repeat' first
    | with_reducible assumption
    | with_reducible apply pruneDoms_keeps
    | with_reducible apply keeps_onPipe
    | (intro z; have hz : Keeps org z; on_goal 1 => (simp (zeta := false) only [z]))
    | intro z
    | lift_lets
    | split

theorem settleBinds_keeps {org : State} (s : State) (hk : Keeps org s) : Keeps org (settleBinds s) := by
  unfold settleBinds
  repeat' first
    | with_reducible assumption
    | with_reducible apply complete_keeps
    | with_reducible apply takeBind_keeps
    | with_reducible refine keeps_forN ?_ _ _ fun _ _ _ => ?_
    | split

theorem specCmpPipeBind_keeps : OpKeeps specCmpPipeBind where
  effect {org} h s hk := by
    unfold specCmpPipeBind
    repeat' first
      | with_reducible assumption
      | (dsimp (zeta := false) only)
      | with_reducible apply takeBind_keeps
      | with_reducible apply keeps_onPipe
      | (intro z; have hz : Keeps org z; on_goal 1 => (simp (zeta := false) only [z]))
      | intro z
      | lift_lets
      | split
  apply _ _ hk := hk

theorem specCmpLayerSet_keeps : OpKeeps specCmpLayerSet where
  effect {org} h s hk := by
    unfold specCmpLayerSet
    repeat' first
      | with_reducible assumption
      | (dsimp (zeta := false) only)
      | with_reducible apply keeps_onPipe
  apply _ _ hk := hk

theorem specCmpLutSet_keeps : OpKeeps specCmpLutSet where
  effect {org} h s hk := by
    unfold specCmpLutSet
    repeat' first
      | with_reducible assumption
      | (dsimp (zeta := false) only)
      | with_reducible apply keeps_onCview
      | with_reducible apply keeps_onPipe
      | (intro z; have hz : Keeps org z; on_goal 1 => (simp (zeta := false) only [z]))
      | intro z
      | lift_lets
      | split
  apply _ _ hk := hk

theorem specCmpWritebackSet_keeps : OpKeeps specCmpWritebackSet where
  effect {org} h s hk := by
    unfold specCmpWritebackSet
    repeat' first
      | with_reducible assumption
      | (dsimp (zeta := false) only)
      | with_reducible apply keeps_onCview
      | (intro z; have hz : Keeps org z; on_goal 1 => (simp (zeta := false) only [z]))
      | intro z
      | lift_lets
  apply _ _ hk := hk

theorem execCmpViewSet_keeps {org : State} (cmd : Cmd) (s : State) (hk : Keeps org s) : OutKeeps org (execCmpViewSet cmd s) :=
  out_next (accept_keeps _ _ _ specCmpViewSet_keeps hk)

theorem execCmpPipeBind_keeps {org : State} (cmd : Cmd) (s : State) (hk : Keeps org s) : OutKeeps org (execCmpPipeBind cmd s) :=
  out_next (accept_keeps _ _ _ specCmpPipeBind_keeps hk)

theorem execCmpLayerSet_keeps {org : State} (cmd : Cmd) (s : State) (hk : Keeps org s) : OutKeeps org (execCmpLayerSet cmd s) :=
  out_next (accept_keeps _ _ _ specCmpLayerSet_keeps hk)

theorem execCmpLutSet_keeps {org : State} (cmd : Cmd) (s : State) (hk : Keeps org s) : OutKeeps org (execCmpLutSet cmd s) :=
  out_next (accept_keeps _ _ _ specCmpLutSet_keeps hk)

theorem execCmpWritebackSet_keeps {org : State} (cmd : Cmd) (s : State) (hk : Keeps org s) : OutKeeps org (execCmpWritebackSet cmd s) :=
  out_next (accept_keeps _ _ _ specCmpWritebackSet_keeps hk)

theorem dropCommit_keeps {org : State} (h : Held) (s : State) (hk : Keeps org s) : Keeps org (dropCommit h s) := by
  unfold dropCommit
  repeat' first
    | with_reducible assumption
    | with_reducible apply sweepBuffers_keeps
    | with_reducible apply keeps_onCmp

theorem specCmpCommit_keeps : OpKeeps specCmpCommit where
  effect {org} h s hk := by
    unfold specCmpCommit
    repeat' first
      | with_reducible assumption
      | (dsimp (zeta := false) only)
      | with_reducible apply keeps_onCmp
      | (intro z; have hz : Keeps org z; on_goal 1 => (simp (zeta := false) only [z]))
      | intro z
      | lift_lets
  apply {org} h s hk := by
    unfold specCmpCommit
    repeat' first
      | with_reducible assumption
      | (dsimp (zeta := false) only)
      | with_reducible apply keeps_onCmp
      | split

theorem execCmpCommit_keeps {org : State} (cmd : Cmd) (s : State) (hk : Keeps org s) : OutKeeps org (execCmpCommit cmd s) :=
  out_next (accept_keeps _ _ _ specCmpCommit_keeps hk)

theorem followProtection_keeps {org : State} (v : Nat) (s : State) (hk : Keeps org s) : Keeps org (followProtection v s) := by
  unfold followProtection
  repeat' first
    | with_reducible assumption
    | with_reducible apply emptyStore_keeps
    | with_reducible apply wipe_keeps
    | with_reducible apply keeps_onStore
    | (intro z; have hz : Keeps org z; on_goal 1 => (simp (zeta := false) only [z]))
    | intro z
    | lift_lets
    | split

theorem applyCommit_keeps {org : State} (c : CmpCommit) (late : List Nat) (s : State) (hk : Keeps org s) : Keeps org (applyCommit c late s) := by
  unfold applyCommit
  repeat' first
    | with_reducible assumption
    | with_reducible apply cmpRaise_keeps
    | with_reducible apply complete_keeps
    | with_reducible apply cviewRaise_keeps
    | with_reducible apply followProtection_keeps
    | with_reducible apply journalApply_keeps
    | with_reducible apply keeps_onCmp
    | with_reducible apply keeps_onCview
    | with_reducible apply keeps_onPipe
    | with_reducible apply keeps_onFview
    | with_reducible refine keeps_forN ?_ _ _ fun _ _ _ => ?_
    | with_reducible refine keeps_foldl ?_ _ _ fun _ _ _ => ?_
    | (intro z; have hz : Keeps org z; on_goal 1 => (simp (zeta := false) only [z]))
    | intro z
    | lift_lets
    | split

theorem runCommits_keeps {org : State} (s : State) (hk : Keeps org s) : Keeps org (runCommits s) := by
  unfold runCommits
  repeat' first
    | with_reducible assumption
    | with_reducible apply applyCommit_keeps
    | with_reducible apply settleBinds_keeps
    | with_reducible apply sweepBuffers_keeps
    | with_reducible apply keeps_onCmp
    | with_reducible apply keeps_onCview
    | with_reducible refine keeps_forN ?_ _ _ fun _ _ _ => ?_
    | with_reducible refine keeps_foldl ?_ _ _ fun _ _ _ => ?_
    | (intro z; have hz : Keeps org z; on_goal 1 => (simp (zeta := false) only [z]))
    | intro z
    | lift_lets
    | split

theorem fabDrop_keeps {org : State} (v : Nat) (s : State) (hk : Keeps org s) : Keeps org (fabDrop v s) := by
  unfold fabDrop
  repeat' first
    | with_reducible assumption
    | with_reducible apply fviewRaise_keeps
    | with_reducible apply keeps_onFview

theorem takeSurface_keeps {a : State} (v : Nat) (s : State) (hk : Keeps a s) : Keeps a (takeSurface v s).1 := by
  unfold takeSurface
  lift_lets
  intro f
  split
  · exact fabDrop_keeps _ _ (keeps_onFview hk _ _)
  · exact fabDrop_keeps _ _ (keeps_onFview hk _ _)
  · exact hk
  · exact hk

theorem fetchLayers_keeps {org : State} (c : Composing) (s : State) (hk : Keeps org s) : Keeps org (fetchLayers c s) := by
  unfold fetchLayers
  repeat' first
    | with_reducible assumption
    | with_reducible apply bufFetch_keeps
    | with_reducible apply portRead_keeps
    | with_reducible refine keeps_foldl ?_ _ _ fun _ _ _ => ?_
    | (intro z; have hz : Keeps org z; on_goal 1 => (simp (zeta := false) only [z]))
    | intro z
    | lift_lets
    | split
    | with_reducible refine keeps_eq ?_ rfl rfl rfl rfl rfl

theorem cleanSurface_keeps {org : State} (v i : Nat) (s : State) (hk : Keeps org s) : Keeps org (cleanSurface v i s) := by
  unfold cleanSurface
  repeat' first
    | with_reducible assumption
    | with_reducible apply wipe_keeps
    | with_reducible apply keeps_onFview
    | (intro z; have hz : Keeps org z; on_goal 1 => (simp (zeta := false) only [z]))
    | intro z
    | lift_lets
    | split

theorem startFrame_keeps {org : State} (v p fofs : Nat) (s : State) (hk : Keeps org s) : Keeps org (startFrame v p fofs s) := by
  unfold startFrame
  repeat' first
    | with_reducible assumption
    | with_reducible apply cleanSurface_keeps
    | with_reducible apply fetchLayers_keeps
    | with_reducible apply secRaise_keeps
    | with_reducible apply takeSurface_keeps
    | with_reducible apply keeps_onCview
    | (intro z; have hz : Keeps org z; on_goal 1 => (simp (zeta := false) only [z]))
    | intro z
    | lift_lets
    | split

theorem execCmpFrameStart_keeps {org : State} (v : Fin 5) (fofs : BitVec 2) (s : State) (hk : Keeps org s) : OutKeeps org (execCmpFrameStart v fofs s) := by
  unfold execCmpFrameStart
  repeat' first
    | with_reducible assumption
    | with_reducible apply out_next
    | with_reducible apply cviewRaise_keeps
    | with_reducible apply fviewRaise_keeps
    | with_reducible apply startFrame_keeps
    | with_reducible apply keeps_onCview
    | with_reducible apply keeps_onFview
    | (intro z; have hz : Keeps org z; on_goal 1 => (simp (zeta := false) only [z]))
    | intro z
    | lift_lets
    | split


theorem storeRows_keeps {org : State} (v n : Nat) (c : Composing) (s : State) (hk : Keeps org s) : Keeps org (storeRows v n c s) := by
  unfold storeRows
  repeat' first
    | with_reducible assumption
    | with_reducible apply portWrite_keeps
    | (intro z; have hz : Keeps org z; on_goal 1 => (simp (zeta := false) only [z]))
    | intro z
    | lift_lets
    | split

theorem writeBack_keeps {org : State} (v : Nat) (c : Composing) (s : State) (hk : Keeps org s) : Keeps org (writeBack v c s) := by
  unfold writeBack
  repeat' first
    | with_reducible assumption
    | with_reducible apply bufStore_keeps
    | with_reducible apply keeps_onCview
    | with_reducible refine keeps_foldl ?_ _ _ fun _ _ _ => ?_
    | (intro z; have hz : Keeps org z; on_goal 1 => (simp (zeta := false) only [z]))
    | intro z
    | lift_lets
    | split

theorem countTiles_keeps {org : State} (v : Nat) (c : Composing) (s : State) (hk : Keeps org s) : Keeps org (countTiles v c s) := by
  unfold countTiles
  repeat' first
    | with_reducible assumption
    | with_reducible apply keeps_onCview
    | with_reducible apply keeps_onPipe
    | with_reducible refine keeps_foldl ?_ _ _ fun _ _ _ => ?_
    | (intro z; have hz : Keeps org z; on_goal 1 => (simp (zeta := false) only [z]))
    | intro z
    | lift_lets

theorem countUnref_keeps {org : State} (v : Nat) (s : State) (hk : Keeps org s) : Keeps org (countUnref v s) := by
  unfold countUnref
  repeat' first
    | with_reducible assumption
    | with_reducible apply keeps_onFview

theorem toFabric_keeps {org : State} (v : Nat) (c : Composing) (s : State) (hk : Keeps org s) : Keeps org (toFabric v c s) := by
  unfold toFabric
  repeat' first
    | with_reducible assumption
    | with_reducible apply countUnref_keeps
    | with_reducible apply fabDrop_keeps
    | with_reducible apply keeps_onFview
    | split

theorem execCmpFrameDone_keeps {org : State} (v : Fin 5) (s : State) (hk : Keeps org s) : OutKeeps org (execCmpFrameDone v s) := by
  unfold execCmpFrameDone
  repeat' first
    | with_reducible assumption
    | with_reducible apply out_next
    | with_reducible apply countTiles_keeps
    | with_reducible apply settleBinds_keeps
    | with_reducible apply storeRows_keeps
    | with_reducible apply sweepBuffers_keeps
    | with_reducible apply toFabric_keeps
    | with_reducible apply writeBack_keeps
    | with_reducible apply keeps_onCview
    | (intro z; have hz : Keeps org z; on_goal 1 => (simp (zeta := false) only [z]))
    | intro z
    | lift_lets
    | split

theorem bufImage_keeps {a : State} (q : Buffer) (s : State) (hk : Keeps a s) : Keeps a (bufImage q s).2 := by
  unfold bufImage
  lift_lets
  intro h
  have h1 : Keeps a h.st := bufFetch_keeps _ _ _ _ _ hk
  clear_value h
  split
  · exact h1
  · exact bufFetch_keeps _ _ _ _ _ h1

theorem specFabImageLoad_keeps : OpKeeps specFabImageLoad where
  effect {a} h s hk := by
    have hb (q : Buffer) (o : Option (List Byte)) (t : State) (e : bufImage q s = (o, t)) : Keeps a t := by
      have := bufImage_keeps q s hk
      rwa [e] at this
    unfold specFabImageLoad
    dsimp only
    split
    · exact hk
    · rename_i e
      obtain ⟨q, _, e⟩ := Option.map_eq_some_iff.mp e
      exact hb q _ _ e
    · rename_i e
      obtain ⟨q, _, e⟩ := Option.map_eq_some_iff.mp e
      dsimp only
      exact keeps_onFab (hb q _ _ e) _
  apply _ _ hk := hk

theorem specFabChainSet_keeps : OpKeeps specFabChainSet where
  effect {org} h s hk := by
    unfold specFabChainSet
    repeat' first
      | with_reducible assumption
      | (dsimp (zeta := false) only)
      | with_reducible apply keeps_onFview
      | with_reducible apply keeps_onCluster
      | with_reducible refine keeps_forN ?_ _ _ fun _ _ _ => ?_
      | (intro z; have hz : Keeps org z; on_goal 1 => (simp (zeta := false) only [z]))
      | intro z
      | lift_lets
      | split
      | with_reducible refine keeps_eq ?_ rfl rfl rfl rfl rfl
  apply _ _ hk := hk

theorem execFabImageLoad_keeps {org : State} (cmd : Cmd) (s : State) (hk : Keeps org s) : OutKeeps org (execFabImageLoad cmd s) :=
  out_next (accept_keeps _ _ _ specFabImageLoad_keeps hk)

theorem execFabChainSet_keeps {org : State} (cmd : Cmd) (s : State) (hk : Keeps org s) : OutKeeps org (execFabChainSet cmd s) :=
  out_next (accept_keeps _ _ _ specFabChainSet_keeps hk)

theorem specFabChainGo_keeps : OpKeeps specFabChainGo where
  effect {org} h s hk := by
    unfold specFabChainGo
    repeat' first
      | with_reducible assumption
      | (dsimp (zeta := false) only)
      | with_reducible apply keeps_onFview
  apply {org} h s hk := by
    unfold specFabChainGo
    repeat' first
      | with_reducible assumption
      | (dsimp (zeta := false) only)
      | with_reducible apply keeps_onFview

theorem execFabChainGo_keeps {org : State} (cmd : Cmd) (s : State) (hk : Keeps org s) : OutKeeps org (execFabChainGo cmd s) :=
  out_next (accept_keeps _ _ _ specFabChainGo_keeps hk)

theorem wipeCanvas_keeps {org : State} (v : Nat) (s : State) (hk : Keeps org s) : Keeps org (wipeCanvas v s) := by
  unfold wipeCanvas
  repeat' first
    | with_reducible assumption
    | with_reducible apply wipe_keeps
    | with_reducible apply keeps_onFview
    | with_reducible refine keeps_foldl ?_ _ _ fun _ _ _ => ?_
    | split

theorem wipePictures_keeps {org : State} (s : State) (hk : Keeps org s) : Keeps org (wipePictures s) := by
  unfold wipePictures
  repeat' first
    | with_reducible assumption
    | with_reducible apply wipe_keeps
    | with_reducible apply wipeCanvas_keeps
    | with_reducible refine keeps_forN ?_ _ _ fun _ _ _ => ?_
    | split

theorem wipeBuffers_keeps {org : State} (f : Buffer → Bool) (s : State) (hk : Keeps org s) : Keeps org (wipeBuffers f s) := by
  unfold wipeBuffers
  repeat' first
    | with_reducible assumption
    | with_reducible apply wipe_keeps
    | with_reducible refine keeps_foldl ?_ _ _ fun _ _ _ => ?_
    | split

theorem freeSurfaces_keeps {org : State} (v : Nat) (s : State) (hk : Keeps org s) : Keeps org (freeSurfaces v s) := by
  unfold freeSurfaces
  repeat' first
    | with_reducible assumption
    | with_reducible apply wipeCanvas_keeps
    | with_reducible apply keeps_onFview
    | (intro z; have hz : Keeps org z; on_goal 1 => (simp (zeta := false) only [z]))
    | intro z
    | lift_lets
    | split

theorem switchChain_keeps {org : State} (v : Nat) (ch : RoleChain) (s : State) (hk : Keeps org s) : Keeps org (switchChain v ch s) := by
  unfold switchChain
  repeat' first
    | with_reducible assumption
    | with_reducible apply completeOpt_keeps
    | with_reducible apply freeSurfaces_keeps
    | with_reducible apply journalApply_keeps
    | with_reducible apply sweepBuffers_keeps
    | with_reducible apply keeps_onFview
    | with_reducible apply keeps_onCluster
    | with_reducible refine keeps_forN ?_ _ _ fun _ _ _ => ?_
    | (intro z; have hz : Keeps org z; on_goal 1 => (simp (zeta := false) only [z]))
    | intro z
    | lift_lets
    | split

theorem switchChains_keeps {org : State} (s : State) (hk : Keeps org s) : Keeps org (switchChains s) := by
  unfold switchChains
  repeat' first
    | with_reducible assumption
    | with_reducible apply switchChain_keeps
    | with_reducible refine keeps_forN ?_ _ _ fun _ _ _ => ?_
    | split

theorem abandonSlicing_keeps {org : State} (v frame : Nat) (s : State) (hk : Keeps org s) : Keeps org (abandonSlicing v frame s) := by
  unfold abandonSlicing
  repeat' first
    | with_reducible assumption
    | with_reducible apply keeps_onSlc
    | with_reducible apply keeps_onStore
    | (intro z; have hz : Keeps org z; on_goal 1 => (simp (zeta := false) only [z]))
    | intro z
    | lift_lets
    | split
    | with_reducible refine keeps_eq ?_ rfl rfl rfl rfl rfl

theorem abandonFrame_keeps {org : State} (v : Nat) (s : State) (hk : Keeps org s) : Keeps org (abandonFrame v s) := by
  unfold abandonFrame
  repeat' first
    | with_reducible assumption
    | with_reducible apply abandonSlicing_keeps
    | with_reducible apply sweepBuffers_keeps
    | with_reducible apply keeps_onFview
    | split

theorem dropComposing_keeps {org : State} (v : Nat) (g : FabFrame) (s : State) (hk : Keeps org s) : Keeps org (dropComposing v g s) := by
  unfold dropComposing
  repeat' first
    | with_reducible assumption
    | with_reducible apply keeps_onCview
    | split

theorem dropFrame_keeps {org : State} (v : Nat) (s : State) (hk : Keeps org s) : Keeps org (dropFrame v s) := by
  unfold dropFrame
  repeat' first
    | with_reducible assumption
    | with_reducible apply abandonFrame_keeps
    | with_reducible apply dropComposing_keeps
    | with_reducible apply fabDrop_keeps
    | split

theorem dropWaiting_keeps {org : State} (v : Nat) (s : State) (hk : Keeps org s) : Keeps org (dropWaiting v s) := by
  unfold dropWaiting
  repeat' first
    | with_reducible assumption
    | with_reducible apply fabDrop_keeps
    | with_reducible apply keeps_onFview
    | split

theorem resizeSurfaces_keeps {org : State} (v : Nat) (s : State) (hk : Keeps org s) : Keeps org (resizeSurfaces v s) := by
  unfold resizeSurfaces
  repeat' first
    | with_reducible assumption
    | with_reducible apply dropFrame_keeps
    | with_reducible apply dropWaiting_keeps
    | with_reducible apply wipeCanvas_keeps
    | with_reducible apply keeps_onCview
    | with_reducible apply keeps_onFview
    | (intro z; have hz : Keeps org z; on_goal 1 => (simp (zeta := false) only [z]))
    | intro z
    | lift_lets
    | split
    | with_reducible refine keeps_eq ?_ rfl rfl rfl rfl rfl

theorem recheckChains_keeps {org : State} (all : Bool) (s : State) (hk : Keeps org s) : Keeps org (recheckChains all s) := by
  unfold recheckChains
  repeat' first
    | with_reducible assumption
    | with_reducible apply dropFrame_keeps
    | with_reducible apply dropWaiting_keeps
    | with_reducible apply fabRaise_keeps
    | with_reducible apply fviewRaise_keeps
    | with_reducible apply resizeSurfaces_keeps
    | with_reducible apply keeps_onFview
    | with_reducible refine keeps_forN ?_ _ _ fun _ _ _ => ?_
    | (intro z; have hz : Keeps org z; on_goal 1 => (simp (zeta := false) only [z]))
    | intro z
    | lift_lets
    | split

theorem specFabParamSet_keeps : OpKeeps specFabParamSet where
  effect _ _ hk := hk
  apply {org} h s hk := by
    unfold specFabParamSet
    repeat' first
      | with_reducible assumption
      | (dsimp (zeta := false) only)
      | with_reducible apply keeps_onFview
      | (intro z; have hz : Keeps org z; on_goal 1 => (simp (zeta := false) only [z]))
      | intro z
      | lift_lets
      | split

theorem execFabParamSet_keeps {org : State} (cmd : Cmd) (s : State) (hk : Keeps org s) : OutKeeps org (execFabParamSet cmd s) :=
  out_next (accept_keeps _ _ _ specFabParamSet_keeps hk)

theorem stopFabric_keeps {org : State} (s : State) (hk : Keeps org s) : Keeps org (stopFabric s) := by
  unfold stopFabric
  repeat' first
    | with_reducible assumption
    | with_reducible apply abandonFrame_keeps
    | with_reducible apply settleBinds_keeps
    | with_reducible apply sweepBuffers_keeps
    | with_reducible apply keeps_onCmp
    | with_reducible apply keeps_onFab
    | with_reducible apply keeps_onFview
    | with_reducible refine keeps_forN ?_ _ _ fun _ _ _ => ?_
    | (intro z; have hz : Keeps org z; on_goal 1 => (simp (zeta := false) only [z]))
    | intro z
    | lift_lets

theorem fabricClockLost_keeps {org : State} (s : State) (hk : Keeps org s) : Keeps org (fabricClockLost s) := by
  unfold fabricClockLost
  repeat' first
    | with_reducible assumption
    | with_reducible apply fabRaise_keeps
    | with_reducible apply keeps_onCmp
    | with_reducible apply keeps_onFab
    | (intro z; have hz : Keeps org z; on_goal 1 => (simp (zeta := false) only [z]))
    | intro z
    | lift_lets
    | split

theorem fabricClockGood_keeps {org : State} (s : State) (hk : Keeps org s) : Keeps org (fabricClockGood s) := by
  unfold fabricClockGood
  repeat' first
    | with_reducible assumption
    | with_reducible apply dropFrame_keeps
    | with_reducible apply dropWaiting_keeps
    | with_reducible apply keeps_onFab
    | with_reducible refine keeps_forN ?_ _ _ fun _ _ _ => ?_
    | split

theorem cycleCluster_keeps {org : State} (n : Nat) (s : State) (hk : Keeps org s) : Keeps org (cycleCluster n s) := by
  unfold cycleCluster
  repeat' first
    | with_reducible assumption
    | with_reducible apply dropFrame_keeps
    | with_reducible apply keeps_onPwr
    | with_reducible apply keeps_onFview
    | with_reducible apply keeps_onCluster
    | (intro z; have hz : Keeps org z; on_goal 1 => (simp (zeta := false) only [z]))
    | intro z
    | lift_lets
    | split

theorem clustersOff_keeps {org : State} (s : State) (hk : Keeps org s) : Keeps org (clustersOff s) := by
  unfold clustersOff
  repeat' first
    | with_reducible assumption
    | with_reducible apply cycleCluster_keeps
    | with_reducible apply keeps_onCluster
    | with_reducible refine keeps_forN ?_ _ _ fun _ _ _ => ?_
    | split

theorem specFabClusterReset_keeps : OpKeeps specFabClusterReset where
  effect {org} h s hk := by
    unfold specFabClusterReset
    repeat' first
      | with_reducible assumption
      | (dsimp (zeta := false) only)
      | with_reducible apply cycleCluster_keeps
      | with_reducible apply keeps_onCluster
      | (intro z; have hz : Keeps org z; on_goal 1 => (simp (zeta := false) only [z]))
      | intro z
      | lift_lets
  apply _ _ hk := hk

theorem execFabClusterReset_keeps {org : State} (cmd : Cmd) (s : State) (hk : Keeps org s) : OutKeeps org (execFabClusterReset cmd s) :=
  out_next (accept_keeps _ _ _ specFabClusterReset_keeps hk)

theorem execClusterLoadDone_keeps {org : State} (n : Fin 64) (s : State) (hk : Keeps org s) : OutKeeps org (execClusterLoadDone n s) := by
  unfold execClusterLoadDone
  repeat' first
    | with_reducible assumption
    | with_reducible apply out_next
    | with_reducible apply complete_keeps
    | with_reducible apply keeps_onCluster
    | with_reducible refine keeps_foldl ?_ _ _ fun _ _ _ => ?_
    | (intro z; have hz : Keeps org z; on_goal 1 => (simp (zeta := false) only [z]))
    | intro z
    | lift_lets
    | split

theorem execClusterDrainDone_keeps {org : State} (n : Fin 64) (s : State) (hk : Keeps org s) : OutKeeps org (execClusterDrainDone n s) := by
  unfold execClusterDrainDone
  repeat' first
    | with_reducible assumption
    | with_reducible apply out_next
    | with_reducible apply freeSurfaces_keeps
    | with_reducible apply keeps_onPwr
    | with_reducible apply keeps_onCluster
    | (intro z; have hz : Keeps org z; on_goal 1 => (simp (zeta := false) only [z]))
    | intro z
    | lift_lets
    | split

theorem execFabSramUe_keeps {org : State} (n : Fin 64) (s : State) (hk : Keeps org s) : OutKeeps org (execFabSramUe n s) := by
  unfold execFabSramUe
  repeat' first
    | with_reducible assumption
    | with_reducible apply out_next
    | with_reducible apply cycleCluster_keeps
    | with_reducible apply fabRaise_keeps
    | with_reducible apply keeps_onCluster
    | split

theorem readCanvas_keeps {org : State} (v : Nat) (g : FabFrame) (lo hi : Nat) (s : State) (hk : Keeps org s) : Keeps org (readCanvas v g lo hi s) := by
  unfold readCanvas
  repeat' first
    | with_reducible assumption
    | with_reducible apply dropFrame_keeps
    | with_reducible apply portRead_keeps
    | (intro z; have hz : Keeps org z; on_goal 1 => (simp (zeta := false) only [z]))
    | intro z
    | lift_lets
    | split

theorem readParams_keeps {a : State} (v : Nat) (g : FabFrame) (s : State) (hk : Keeps a s) : Keeps a (readParams v g s) := by
  unfold readParams
  lift_lets
  intro ps r
  have h : Keeps a r.1 := keeps_foldl_fst hk _ _ fun _ _ h => bufFetch_keeps _ _ _ _ _ h
  clear_value r
  exact keeps_ite (dropFrame_keeps _ _ h) h

theorem enterBand_keeps {org : State} (v : Nat) (g : FabFrame) (s : State) (hk : Keeps org s) : Keeps org (enterBand v g s) := by
  unfold enterBand
  repeat' first
    | with_reducible assumption
    | with_reducible apply readCanvas_keeps
    | with_reducible apply storeRows_keeps
    | with_reducible apply keeps_onCview
    | with_reducible apply keeps_onFview
    | (intro z; have hz : Keeps org z; on_goal 1 => (simp (zeta := false) only [z]))
    | intro z
    | lift_lets
    | split
    | with_reducible refine keeps_eq ?_ rfl rfl rfl rfl rfl

theorem enterFrame_keeps {org : State} (v : Nat) (g : FabFrame) (s : State) (hk : Keeps org s) : Keeps org (enterFrame v g s) := by
  unfold enterFrame
  repeat' first
    | with_reducible assumption
    | with_reducible apply enterBand_keeps
    | with_reducible apply readParams_keeps
    | with_reducible apply keeps_onCview
    | with_reducible apply keeps_onFview
    | (intro z; have hz : Keeps org z; on_goal 1 => (simp (zeta := false) only [z]))
    | intro z
    | lift_lets
    | split

theorem execFabBandStart_keeps {org : State} (v : Fin 5) (s : State) (hk : Keeps org s) : OutKeeps org (execFabBandStart v s) := by
  unfold execFabBandStart
  repeat' first
    | with_reducible assumption
    | with_reducible apply out_next
    | with_reducible apply countUnref_keeps
    | with_reducible apply enterBand_keeps
    | with_reducible apply enterFrame_keeps
    | with_reducible apply keeps_onFview
    | split

theorem countBand_keeps {a : State} (v band : Nat) (c : RoleChain) (s : State) (hk : Keeps a s) : Keeps a (countBand v band c s) := by
  unfold countBand
  refine keeps_foldl hk _ _ fun t x ht => ?_
  dsimp only
  generalize (bitsOf 64 x.1.2.toNat).filter _ = ns
  rcases ns with _ | ⟨n, l⟩
  · exact ht
  · exact keeps_useFree (keeps_onCluster ht _ _)

theorem countWait_keeps {org : State} (v : Nat) (first : Bool) (s : State) (hk : Keeps org s) : Keeps org (countWait v first s) := by
  unfold countWait
  repeat' first
    | with_reducible assumption
    | with_reducible apply slcRaise_keeps
    | with_reducible apply keeps_onStore
    | with_reducible apply keeps_onFview
    | (intro z; have hz : Keeps org z; on_goal 1 => (simp (zeta := false) only [z]))
    | intro z
    | lift_lets
    | split

theorem execFabBandDone_keeps {org : State} (v : Fin 5) (s : State) (hk : Keeps org s) : OutKeeps org (execFabBandDone v s) := by
  unfold execFabBandDone
  repeat' first
    | with_reducible assumption
    | with_reducible apply out_next
    | with_reducible apply countBand_keeps
    | with_reducible apply countWait_keeps
    | with_reducible apply keeps_onFview
    | (intro z; have hz : Keeps org z; on_goal 1 => (simp (zeta := false) only [z]))
    | intro z
    | lift_lets
    | split

theorem bandTaken_keeps {org : State} (v : Nat) (g : FabFrame) (s : State) (hk : Keeps org s) : Keeps org (bandTaken v g s) := by
  unfold bandTaken
  repeat' first
    | with_reducible assumption
    | with_reducible apply sweepBuffers_keeps
    | with_reducible apply keeps_onFview
    | split

theorem bandBuffer_keeps {a : State} (v : Nat) (g : FabFrame) (s : State) (hk : Keeps a s) : Keeps a (bandBuffer v g s).1 := by
  unfold bandBuffer
  split
  · split
    · exact startSlicing_keeps _ _ _ _ hk
    · exact hk
  · exact hk

theorem execSlicerBandOffer_keeps {a : State} (v : Fin 5) (s : State) (hk : Keeps a s) : OutKeeps a (execSlicerBandOffer v s) := by
  unfold execSlicerBandOffer
  refine out_next ?_
  split
  · rename_i g i h1 h2
    dsimp only
    have hb := bandBuffer_keeps v.val g s hk
    generalize bandBuffer v.val g s = t at *
    obtain ⟨t, k⟩ := t
    split
    · exact hk
    · rcases k with _ | k
      · dsimp only
        split
        · exact hk
        · exact bandTaken_keeps _ _ _ hk
      · exact bandTaken_keeps _ _ _ (fillSlicer_keeps _ _ _ _ _ _ _ hb)
  · exact hk

theorem readGlyphs_keeps {a : State} (l : Option (List Byte)) (s : State) (hk : Keeps a s) : Keeps a (readGlyphs l s).1 := by
  unfold readGlyphs
  exact keeps_foldl_fst hk _ _ fun _ _ h => portRead_keeps _ _ _ h

theorem execSymbRenderStart_keeps {a : State} (v : Fin 5) (fofs : BitVec 2) (s : State) (hk : Keeps a s) :
    OutKeeps a (execSymbRenderStart v fofs s) := by
  unfold execSymbRenderStart
  refine out_next ?_
  lift_lets
  intro f cfg p i
  split
  · exact hk
  · split
    · exact hk
    · have h : Keeps a (readGlyphs (nth s.xcl.symList v.val) s).1 := readGlyphs_keeps _ _ hk
      lift_lets
      intro r b
      split
      · exact h
      · exact keeps_onFview (portWrite_keeps _ _ _ h) _ _

theorem execSymbRenderDone_keeps {org : State} (v : Fin 5) (s : State) (hk : Keeps org s) : OutKeeps org (execSymbRenderDone v s) := by
  unfold execSymbRenderDone
  repeat' first
    | with_reducible assumption
    | with_reducible apply out_next
    | with_reducible apply keeps_onFview
    | split

end Sys2Proof.Machine
end

