-- ==== Sys2Proof/Laws/KeepsLink.lean ====
section
/-!
SUPPORT. The relation Keeps for the functions of Machine/Memory.lean, Machine/Link.lean and Machine/Health.lean.
-/
set_option linter.unusedTactic false
set_option linter.unreachableTactic false
set_option linter.unusedVariables false
namespace Sys2Proof.Machine

theorem fabricError_keeps {org : State} (a : Nat) (s : State) (hk : Keeps org s) : Keeps org (fabricError a s) := by
  unfold fabricError
  repeat' first
    | with_reducible assumption
    | with_reducible apply dropFrame_keeps
    | with_reducible apply keeps_onFview
    | with_reducible refine keeps_forN ?_ _ _ fun _ _ _ => ?_
    | (intro z; have hz : Keeps org z; on_goal 1 => (simp (zeta := false) only [z]))
    | intro z
    | lift_lets
    | split
    | with_reducible refine keeps_eq ?_ rfl rfl rfl rfl rfl

theorem composeError_keeps {org : State} (a : Nat) (s : State) (hk : Keeps org s) : Keeps org (composeError a s) := by
  unfold composeError
  repeat' first
    | with_reducible assumption
    | with_reducible apply keeps_onCmp
    | (intro z; have hz : Keeps org z; on_goal 1 => (simp (zeta := false) only [z]))
    | intro z
    | lift_lets
    | split
    | with_reducible refine keeps_eq ?_ rfl rfl rfl rfl rfl

theorem requesterError_keeps {org : State} (q : MemReq) (s : State) (hk : Keeps org s) : Keeps org (requesterError q s) := by
  unfold requesterError
  repeat' first
    | with_reducible assumption
    | with_reducible apply composeError_keeps
    | with_reducible apply fabricError_keeps
    | split

theorem joinWait_keeps {org : State} (q : MemReq) (s : State) (hk : Keeps org s) : Keeps org (joinWait q s) := by
  unfold joinWait
  repeat' first
    | with_reducible assumption
    | with_reducible apply meter_keeps
    | with_reducible apply keeps_onMem
    | with_reducible rfl
    | rfl

theorem execRequestPromote_keeps {org : State} (n : Fin 11) (s : State) (hk : Keeps org s) : OutKeeps org (execRequestPromote n s) := by
  unfold execRequestPromote
  repeat' first
    | with_reducible assumption
    | with_reducible apply out_next
    | with_reducible apply keeps_onMem
    | split
    | with_reducible rfl
    | rfl

theorem closeBank_keeps {org : State} (pc rank bank : Nat) (s : State) (hk : Keeps org s) : Keeps org (closeBank pc rank bank s) := by
  unfold closeBank
  repeat' first
    | with_reducible assumption
    | with_reducible apply keeps_onMem
    | with_reducible rfl
    | rfl

theorem execPageIdleClose_keeps {org : State} (pc : Fin 32) (rank : Fin 4) (bank : Fin 16) (s : State) (hk : Keeps org s) : OutKeeps org (execPageIdleClose pc rank bank s) := by
  unfold execPageIdleClose
  repeat' first
    | with_reducible assumption
    | with_reducible apply out_next
    | with_reducible apply closeBank_keeps
    | split

theorem execRefresh_keeps {org : State} (pc : Fin 32) (rank : Fin 4) (bank : Fin 16) (s : State) (hk : Keeps org s) : OutKeeps org (execRefresh pc rank bank s) := by
  unfold execRefresh
  repeat' first
    | with_reducible assumption
    | with_reducible apply out_next
    | with_reducible apply closeBank_keeps
    | split

theorem execRankPowerDown_keeps {org : State} (r : Fin 4) (s : State) (hk : Keeps org s) : OutKeeps org (execRankPowerDown r s) := by
  unfold execRankPowerDown
  repeat' first
    | with_reducible assumption
    | with_reducible apply out_next
    | with_reducible apply keeps_onMem
    | split
    | with_reducible rfl
    | rfl

theorem dropSegments_wf (k : BitVec 8) (m : Mem) (h : Memory.wf m = true) : Memory.wf (dropSegments k m) = true := by
  simp only [Memory.wf, dropSegments, Bool.and_eq_true] at h ⊢
  exact ⟨⟨filter_wf _ _ h.1.1, filter_wf _ _ h.1.2⟩, h.2⟩

theorem enterSelfRefresh_keeps {a : State} (s : State) (hk : Keeps a s) : Keeps a (enterSelfRefresh s) := by
  unfold enterSelfRefresh
  split
  · exact keeps_onMemWf hk _ fun h => dropSegments_wf _ _ h
  · exact hk

theorem returnRanks_keeps {org : State} (s : State) (hk : Keeps org s) : Keeps org (returnRanks s) := by
  unfold returnRanks
  repeat' first
    | with_reducible assumption
    | with_reducible apply keeps_onMem
    | with_reducible refine keeps_forN ?_ _ _ fun _ _ _ => ?_
    | (intro z; have hz : Keeps org z; on_goal 1 => (simp (zeta := false) only [z]))
    | intro z
    | lift_lets
    | split
    | with_reducible rfl
    | rfl

theorem execSelfRefreshEntry_keeps {org : State} (s : State) (hk : Keeps org s) : OutKeeps org (execSelfRefreshEntry s) := by
  unfold execSelfRefreshEntry
  repeat' first
    | with_reducible assumption
    | with_reducible apply out_next
    | with_reducible apply enterSelfRefresh_keeps
    | with_reducible apply returnRanks_keeps
    | split

theorem execSelfRefreshExit_keeps {org : State} (r : Fin 4) (s : State) (hk : Keeps org s) : OutKeeps org (execSelfRefreshExit r s) := by
  unfold execSelfRefreshExit
  repeat' first
    | with_reducible assumption
    | with_reducible apply out_next
    | with_reducible apply wakeRank_keeps
    | with_reducible apply keeps_onMem
    | (intro z; have hz : Keeps org z; on_goal 1 => (simp (zeta := false) only [z]))
    | intro z
    | lift_lets
    | split
    | with_reducible rfl
    | rfl

theorem execScrubPass_keeps {org : State} (s : State) (hk : Keeps org s) : OutKeeps org (execScrubPass s) := by
  unfold execScrubPass
  repeat' first
    | with_reducible assumption
    | with_reducible apply out_next
    | with_reducible apply keeps_onMem
    | split
    | with_reducible rfl
    | rfl

theorem execMigrationStart_keeps {org : State} (lr : Fin 4) (s : State) (hk : Keeps org s) : OutKeeps org (execMigrationStart lr s) := by
  unfold execMigrationStart
  repeat' first
    | with_reducible assumption
    | with_reducible apply out_next
    | with_reducible apply memRaise_keeps
    | with_reducible apply startMigration_keeps
    | split

theorem execMigrationRowCopied_keeps {org : State} (s : State) (hk : Keeps org s) : OutKeeps org (execMigrationRowCopied s) := by
  unfold execMigrationRowCopied
  repeat' first
    | with_reducible assumption
    | with_reducible apply out_next
    | with_reducible apply completeOpt_keeps
    | with_reducible apply memRaise_keeps
    | with_reducible apply migrationOver_keeps
    | with_reducible apply keeps_onMgt
    | with_reducible apply keeps_onMem
    | (intro z; have hz : Keeps org z; on_goal 1 => (simp (zeta := false) only [z]))
    | intro z
    | lift_lets
    | split
    | with_reducible rfl
    | rfl

theorem fencePc_keeps {org : State} (pc : Nat) (s : State) (hk : Keeps org s) : Keeps org (fencePc pc s) := by
  unfold fencePc
  repeat' first
    | with_reducible assumption
    | with_reducible apply memRaise_keeps
    | with_reducible apply pruneDoms_keeps
    | with_reducible apply keeps_onMem
    | (intro z; have hz : Keeps org z; on_goal 1 => (simp (zeta := false) only [z]))
    | intro z
    | lift_lets
    | split
    | with_reducible rfl
    | rfl

theorem dropAllFrames_keeps {org : State} (s : State) (hk : Keeps org s) : Keeps org (dropAllFrames s) := by
  unfold dropAllFrames
  repeat' first
    | with_reducible assumption
    | with_reducible apply dropFrame_keeps
    | with_reducible apply dropWaiting_keeps
    | with_reducible apply emptyStore_keeps
    | with_reducible apply fabDrop_keeps
    | with_reducible apply keeps_onCview
    | with_reducible refine keeps_forN ?_ _ _ fun _ _ _ => ?_
    | (intro z; have hz : Keeps org z; on_goal 1 => (simp (zeta := false) only [z]))
    | intro z
    | lift_lets
    | split

theorem replaceStores_keeps {org : State} (s : State) (hk : Keeps org s) : Keeps org (replaceStores s) := by
  unfold replaceStores
  repeat' first
    | with_reducible assumption
    | with_reducible apply keeps_onStore
    | with_reducible apply keeps_onFview
    | with_reducible refine keeps_foldl ?_ _ _ fun _ _ _ => ?_
    | (intro z; have hz : Keeps org z; on_goal 1 => (simp (zeta := false) only [z]))
    | intro z
    | lift_lets
    | split

theorem replaceBuffers_keeps {org : State} (s : State) (hk : Keeps org s) : Keeps org (replaceBuffers s) := by
  unfold replaceBuffers
  repeat' first
    | with_reducible assumption
    | with_reducible apply memRaise_keeps
    | with_reducible apply sendEvent_keeps
    | with_reducible apply keeps_onCmp
    | with_reducible apply keeps_onFview
    | with_reducible apply keeps_onMem
    | with_reducible apply keeps_onXcl
    | with_reducible refine keeps_forN ?_ _ _ fun _ _ _ => ?_
    | with_reducible refine keeps_foldl ?_ _ _ fun _ _ _ => ?_
    | (intro z; have hz : Keeps org z; on_goal 1 => (simp (zeta := false) only [z]))
    | intro z
    | lift_lets
    | split
    | with_reducible rfl
    | rfl

theorem memRestart_keeps {a : State} (s : State) (hk : Keeps a s) : Keeps a (memRestart s) := by
  unfold memRestart
  lift_lets
  intro s1
  have h1 : Keeps a s1 := dropAllFrames_keeps _ hk
  clear_value s1
  intro s2
  have h2 : Keeps a s2 := keeps_onMemWf h1 _ fun _ => rfl
  clear_value s2
  intro s3
  have h3 : Keeps a s3 := replaceBuffers_keeps _ (replaceStores_keeps _ h2)
  clear_value s3
  exact keeps_ite hk (settleBinds_keeps _ (sweepBuffers_keeps _ (keeps_onSeq h3 _)))

theorem endRetrain_keeps {org : State} (s : State) (hk : Keeps org s) : Keeps org (endRetrain s) := by
  unfold endRetrain
  repeat' first
    | with_reducible assumption
    | with_reducible apply complete_keeps
    | with_reducible apply keeps_onMem
    | (intro z; have hz : Keeps org z; on_goal 1 => (simp (zeta := false) only [z]))
    | intro z
    | lift_lets
    | split
    | with_reducible rfl
    | rfl

theorem startRetrain_keeps {org : State} (pc : Nat) (s : State) (hk : Keeps org s) : Keeps org (startRetrain pc s) := by
  unfold startRetrain
  repeat' first
    | with_reducible assumption
    | with_reducible apply keeps_onMem
    | split
    | with_reducible rfl
    | rfl

theorem execRetrainTempTrigger_keeps {org : State} (p : Fin 32 × Int) (s : State) (hk : Keeps org s) : OutKeeps org (execRetrainTempTrigger p s) := by
  unfold execRetrainTempTrigger
  repeat' first
    | with_reducible assumption
    | with_reducible apply out_next
    | with_reducible apply startRetrain_keeps
    | split

theorem execRetrainGap_keeps {org : State} (pc : Fin 32) (s : State) (hk : Keeps org s) : OutKeeps org (execRetrainGap pc s) := by
  unfold execRetrainGap
  repeat' first
    | with_reducible assumption
    | with_reducible apply out_next
    | with_reducible apply keeps_useFree
    | with_reducible apply keeps_onMem
    | (intro z; have hz : Keeps org z; on_goal 1 => (simp (zeta := false) only [z]))
    | intro z
    | lift_lets
    | split
    | with_reducible rfl
    | rfl

theorem retrainEnd_keeps {org : State} (pc : Nat) (found : Bool) (s : State) (hk : Keeps org s) : Keeps org (retrainEnd pc found s) := by
  unfold retrainEnd
  repeat' first
    | with_reducible assumption
    | with_reducible apply endRetrain_keeps
    | with_reducible apply fencePc_keeps
    | with_reducible apply keeps_onMem
    | (intro z; have hz : Keeps org z; on_goal 1 => (simp (zeta := false) only [z]))
    | intro z
    | lift_lets
    | split
    | with_reducible rfl
    | rfl

theorem bootTrained_keeps {org : State} (working : BitVec 32) (s : State) (hk : Keeps org s) : Keeps org (bootTrained working s) := by
  unfold bootTrained
  repeat' first
    | with_reducible assumption
    | with_reducible apply memRaise_keeps
    | with_reducible apply keeps_raise
    | with_reducible apply keeps_onMem
    | (intro z; have hz : Keeps org z; on_goal 1 => (simp (zeta := false) only [z]))
    | intro z
    | lift_lets
    | split
    | with_reducible rfl
    | rfl

theorem specMemLayoutSet_keeps : OpKeeps specMemLayoutSet where
  effect {org} h s hk := by
    unfold specMemLayoutSet
    repeat' first
      | with_reducible assumption
      | (dsimp (zeta := false) only)
      | with_reducible apply keeps_onMem
      | (intro z; have hz : Keeps org z; on_goal 1 => (simp (zeta := false) only [z]))
      | intro z
      | lift_lets
      | with_reducible rfl
      | rfl
  apply _ _ hk := hk

theorem specMemReserveSet_keeps : OpKeeps specMemReserveSet where
  effect _ _ hk := hk
  apply {org} h s hk := by
    unfold specMemReserveSet
    repeat' first
      | with_reducible assumption
      | (dsimp (zeta := false) only)
      | with_reducible apply keeps_onSeq
      | with_reducible apply keeps_onMem
      | (intro z; have hz : Keeps org z; on_goal 1 => (simp (zeta := false) only [z]))
      | intro z
      | lift_lets
      | split
      | with_reducible rfl
      | rfl

theorem specMemPolicySet_keeps : OpKeeps specMemPolicySet where
  effect {org} h s hk := by
    unfold specMemPolicySet
    repeat' first
      | with_reducible assumption
      | (dsimp (zeta := false) only)
      | with_reducible apply keeps_onMem
      | (intro z; have hz : Keeps org z; on_goal 1 => (simp (zeta := false) only [z]))
      | intro z
      | lift_lets
      | with_reducible rfl
      | rfl
  apply _ _ hk := hk

theorem specMemFence_keeps : OpKeeps specMemFence where
  effect {org} h s hk := by
    unfold specMemFence
    repeat' first
      | with_reducible assumption
      | (dsimp (zeta := false) only)
      | split
  apply _ _ hk := hk

theorem specMemRankRetire_keeps : OpKeeps specMemRankRetire where
  effect {org} h s hk := by
    unfold specMemRankRetire
    repeat' first
      | with_reducible assumption
      | (dsimp (zeta := false) only)
      | with_reducible apply startMigration_keeps
  apply _ _ hk := hk

theorem specMemRetrain_keeps : OpKeeps specMemRetrain where
  effect {org} h s hk := by
    unfold specMemRetrain
    repeat' first
      | with_reducible assumption
      | (dsimp (zeta := false) only)
      | with_reducible apply startRetrain_keeps
      | with_reducible apply keeps_onMem
      | with_reducible refine keeps_foldl ?_ _ _ fun _ _ _ => ?_
      | (intro z; have hz : Keeps org z; on_goal 1 => (simp (zeta := false) only [z]))
      | intro z
      | lift_lets
      | split
      | with_reducible rfl
      | rfl
  apply _ _ hk := hk

theorem execMemLayoutSet_keeps {org : State} (cmd : Cmd) (s : State) (hk : Keeps org s) : OutKeeps org (execMemLayoutSet cmd s) :=
  out_next (accept_keeps _ _ _ specMemLayoutSet_keeps hk)

theorem execMemReserveSet_keeps {org : State} (cmd : Cmd) (s : State) (hk : Keeps org s) : OutKeeps org (execMemReserveSet cmd s) :=
  out_next (accept_keeps _ _ _ specMemReserveSet_keeps hk)

theorem execMemPolicySet_keeps {org : State} (cmd : Cmd) (s : State) (hk : Keeps org s) : OutKeeps org (execMemPolicySet cmd s) :=
  out_next (accept_keeps _ _ _ specMemPolicySet_keeps hk)

theorem execMemFence_keeps {org : State} (cmd : Cmd) (s : State) (hk : Keeps org s) : OutKeeps org (execMemFence cmd s) :=
  out_next (accept_keeps _ _ _ specMemFence_keeps hk)

theorem execMemRankRetire_keeps {org : State} (cmd : Cmd) (s : State) (hk : Keeps org s) : OutKeeps org (execMemRankRetire cmd s) :=
  out_next (accept_keeps _ _ _ specMemRankRetire_keeps hk)

theorem execMemRetrain_keeps {org : State} (cmd : Cmd) (s : State) (hk : Keeps org s) : OutKeeps org (execMemRetrain cmd s) :=
  out_next (accept_keeps _ _ _ specMemRetrain_keeps hk)

theorem sendCtrl_keeps {org : State} (p op arg : Nat) (s : State) (hk : Keeps org s) : Keeps org (sendCtrl p op arg s) := by
  unfold sendCtrl
  repeat' first
    | with_reducible assumption
    | with_reducible apply keeps_onLink

theorem answered_keeps {org : State} (p op : Nat) (s : State) (hk : Keeps org s) : Keeps org (answered p op s) := by
  unfold answered
  repeat' first
    | with_reducible assumption
    | with_reducible apply keeps_onLink

theorem updateHold_keeps {org : State} (p : Nat) (s : State) (hk : Keeps org s) : Keeps org (updateHold p s) := by
  unfold updateHold
  repeat' first
    | with_reducible assumption
    | with_reducible apply askReload_keeps
    | with_reducible apply strobe_keeps
    | with_reducible apply keeps_onArr
    | (intro z; have hz : Keeps org z; on_goal 1 => (simp (zeta := false) only [z]))
    | intro z
    | lift_lets
    | split

theorem causeBands_keeps {org : State} (p at' : Nat) (s : State) (hk : Keeps org s) : Keeps org (causeBands p at' s) := by
  unfold causeBands
  repeat' first
    | with_reducible assumption
    | with_reducible apply updateHold_keeps
    | with_reducible apply keeps_onArr

theorem causePort_keeps {org : State} (p i : Nat) (s : State) (hk : Keeps org s) : Keeps org (causePort p i s) := by
  unfold causePort
  repeat' first
    | with_reducible assumption
    | with_reducible apply updateHold_keeps
    | with_reducible apply keeps_onArr

theorem endCausePort_keeps {org : State} (p i : Nat) (s : State) (hk : Keeps org s) : Keeps org (endCausePort p i s) := by
  unfold endCausePort
  repeat' first
    | with_reducible assumption
    | with_reducible apply causeBands_keeps
    | with_reducible apply keeps_onArr
    | split

theorem settleCauses_keeps {org : State} (p : Nat) (s : State) (hk : Keeps org s) : Keeps org (settleCauses p s) := by
  unfold settleCauses
  repeat' first
    | with_reducible assumption
    | with_reducible apply updateHold_keeps
    | with_reducible apply keeps_onArr

theorem enterPark_keeps {org : State} (p : Nat) (s : State) (hk : Keeps org s) : Keeps org (enterPark p s) := by
  unfold enterPark
  repeat' first
    | with_reducible assumption
    | with_reducible apply ahmRaise_keeps
    | with_reducible apply causePort_keeps
    | with_reducible apply keeps_onArr
    | split

theorem ahmFollow_keeps {org : State} (p : Nat) (s : State) (hk : Keeps org s) : Keeps org (ahmFollow p s) := by
  unfold ahmFollow
  repeat' first
    | with_reducible assumption
    | with_reducible apply enterPark_keeps
    | with_reducible apply keeps_onArr
    | (intro z; have hz : Keeps org z; on_goal 1 => (simp (zeta := false) only [z]))
    | intro z
    | lift_lets
    | split

theorem abortScan_keeps {org : State} (p : Nat) (next : ArrSt) (s : State) (hk : Keeps org s) : Keeps org (abortScan p next s) := by
  unfold abortScan
  repeat' first
    | with_reducible assumption
    | with_reducible apply ahmRaise_keeps
    | with_reducible apply complete_keeps
    | with_reducible apply endCausePort_keeps
    | with_reducible apply keeps_onArr
    | (intro z; have hz : Keeps org z; on_goal 1 => (simp (zeta := false) only [z]))
    | intro z
    | lift_lets
    | split

theorem leaveReady_keeps {org : State} (p : Nat) (s : State) (hk : Keeps org s) : Keeps org (leaveReady p s) := by
  unfold leaveReady
  repeat' first
    | with_reducible assumption
    | with_reducible apply abortScan_keeps
    | with_reducible apply keeps_onArr
    | with_reducible apply keeps_onLink
    | (intro z; have hz : Keeps org z; on_goal 1 => (simp (zeta := false) only [z]))
    | intro z
    | lift_lets

theorem portDown_keeps {org : State} (p : Nat) (s : State) (hk : Keeps org s) : Keeps org (portDown p s) := by
  unfold portDown
  repeat' first
    | with_reducible assumption
    | with_reducible apply ahmFollow_keeps
    | with_reducible apply leaveReady_keeps
    | with_reducible apply settleCauses_keeps
    | with_reducible apply strobe_keeps
    | with_reducible apply keeps_onPort
    | (intro z; have hz : Keeps org z; on_goal 1 => (simp (zeta := false) only [z]))
    | intro z
    | lift_lets
    | split

theorem toEight_keeps {org : State} (k : Nat) (s : State) (hk : Keeps org s) : Keeps org (toEight k s) := by
  unfold toEight
  repeat' first
    | with_reducible assumption
    | with_reducible apply keeps_onSeq
    | with_reducible apply keeps_onOctet
    | split

theorem toBcLock_keeps {org : State} (k : Nat) (s : State) (hk : Keeps org s) : Keeps org (toBcLock k s) := by
  unfold toBcLock
  repeat' first
    | with_reducible assumption
    | with_reducible apply toEight_keeps
    | with_reducible apply keeps_onOctet

theorem toBcAlign_keeps {org : State} (k : Nat) (s : State) (hk : Keeps org s) : Keeps org (toBcAlign k s) := by
  unfold toBcAlign
  repeat' first
    | with_reducible assumption
    | with_reducible apply keeps_onOctet
    | split

theorem toIdle_keeps {org : State} (k : Nat) (wait : Bool) (s : State) (hk : Keeps org s) : Keeps org (toIdle k wait s) := by
  unfold toIdle
  repeat' first
    | with_reducible assumption
    | with_reducible apply keeps_onOctet

theorem discardRestripe_keeps {org : State} (k : Nat) (s : State) (hk : Keeps org s) : Keeps org (discardRestripe k s) := by
  unfold discardRestripe
  repeat' first
    | with_reducible assumption
    | with_reducible apply octRaise_keeps
    | with_reducible apply keeps_onOctet
    | split

theorem wakeOctet_keeps {org : State} (k : Nat) (s : State) (hk : Keeps org s) : Keeps org (wakeOctet k s) := by
  unfold wakeOctet
  repeat' first
    | with_reducible assumption
    | with_reducible apply ahmFollow_keeps
    | with_reducible apply toBcLock_keeps
    | split

theorem wakeOctets_keeps {org : State} (s : State) (hk : Keeps org s) : Keeps org (wakeOctets s) := by
  unfold wakeOctets
  repeat' first
    | with_reducible assumption
    | with_reducible apply wakeOctet_keeps
    | with_reducible refine keeps_forN ?_ _ _ fun _ _ _ => ?_

theorem eachOctet_keeps {a : State} (p : Nat) (f : Nat → State → State) (s : State)
    (hf : ∀ k s, Keeps a s → Keeps a (f k s)) (hk : Keeps a s) : Keeps a (eachOctet p f s) :=
  keeps_foldl hk _ _ fun _ _ h => hf _ _ h

theorem retrainPort_keeps {org : State} (p : Nat) (s : State) (hk : Keeps org s) : Keeps org (retrainPort p s) := by
  unfold retrainPort
  repeat' first
    | with_reducible assumption
    | with_reducible refine eachOctet_keeps _ _ _ (fun _ _ _ => ?_) ?_
    | with_reducible apply discardRestripe_keeps
    | with_reducible apply portDown_keeps
    | with_reducible apply toBcLock_keeps
    | (intro z; have hz : Keeps org z; on_goal 1 => (simp (zeta := false) only [z]))
    | intro z
    | lift_lets
    | split

theorem trainFail_keeps {org : State} (p : Nat) (s : State) (hk : Keeps org s) : Keeps org (trainFail p s) := by
  unfold trainFail
  repeat' first
    | with_reducible assumption
    | with_reducible refine eachOctet_keeps _ _ _ (fun _ _ _ => ?_) ?_
    | with_reducible apply ahmFollow_keeps
    | with_reducible apply octRaise_keeps
    | with_reducible apply toIdle_keeps
    | with_reducible apply keeps_onLink
    | with_reducible apply keeps_onOctet
    | (intro z; have hz : Keeps org z; on_goal 1 => (simp (zeta := false) only [z]))
    | intro z
    | lift_lets
    | split

theorem togetherTrain_keeps {org : State} (p : Nat) (s : State) (hk : Keeps org s) : Keeps org (togetherTrain p s) := by
  unfold togetherTrain
  repeat' first
    | with_reducible assumption
    | with_reducible refine eachOctet_keeps _ _ _ (fun _ _ _ => ?_) ?_
    | with_reducible apply toEight_keeps
    | with_reducible apply trainFail_keeps
    | with_reducible apply keeps_onOctet
    | split

theorem tryTrain_keeps {org : State} (p : Nat) (s : State) (hk : Keeps org s) : Keeps org (tryTrain p s) := by
  unfold tryTrain
  repeat' first
    | with_reducible assumption
    | with_reducible apply ahmFollow_keeps
    | with_reducible apply togetherTrain_keeps
    | split

theorem bcLockGot_keeps {org : State} (k idx : Nat) (inv : Bool) (s : State) (hk : Keeps org s) : Keeps org (bcLockGot k idx inv s) := by
  unfold bcLockGot
  repeat' first
    | with_reducible assumption
    | with_reducible apply ahmFollow_keeps
    | with_reducible apply togetherTrain_keeps
    | with_reducible apply trainFail_keeps
    | with_reducible apply keeps_onOctet
    | (intro z; have hz : Keeps org z; on_goal 1 => (simp (zeta := false) only [z]))
    | intro z
    | lift_lets
    | split

theorem bcLoss_keeps {org : State} (k : Nat) (s : State) (hk : Keeps org s) : Keeps org (bcLoss k s) := by
  unfold bcLoss
  repeat' first
    | with_reducible assumption
    | with_reducible apply ahmFollow_keeps
    | with_reducible apply octRaise_keeps
    | with_reducible apply toBcLock_keeps
    | with_reducible apply keeps_onLink
    | with_reducible apply keeps_onOctet
    | (intro z; have hz : Keeps org z; on_goal 1 => (simp (zeta := false) only [z]))
    | intro z
    | lift_lets
    | split

theorem execBcLockLost_keeps {org : State} (o : Fin 16) (s : State) (hk : Keeps org s) : OutKeeps org (execBcLockLost o s) := by
  unfold execBcLockLost
  repeat' first
    | with_reducible assumption
    | with_reducible apply out_next
    | with_reducible apply bcLoss_keeps

theorem execBcSilence_keeps {org : State} (o : Fin 16) (s : State) (hk : Keeps org s) : OutKeeps org (execBcSilence o s) := by
  unfold execBcSilence
  repeat' first
    | with_reducible assumption
    | with_reducible apply out_next
    | with_reducible apply bcLoss_keeps

theorem execBcAbsent_keeps {org : State} (o : Fin 16) (s : State) (hk : Keeps org s) : OutKeeps org (execBcAbsent o s) := by
  unfold execBcAbsent
  repeat' first
    | with_reducible assumption
    | with_reducible apply out_next
    | with_reducible apply octRaise_keeps
    | split

theorem execElectricalIdleEnd_keeps {org : State} (o : Fin 16) (s : State) (hk : Keeps org s) : OutKeeps org (execElectricalIdleEnd o s) := by
  unfold execElectricalIdleEnd
  repeat' first
    | with_reducible assumption
    | with_reducible apply out_next
    | with_reducible apply wakeOctet_keeps
    | with_reducible apply keeps_onOctet

theorem execTrainRestart_keeps {org : State} (p : Fin 4) (s : State) (hk : Keeps org s) : OutKeeps org (execTrainRestart p s) := by
  unfold execTrainRestart
  repeat' first
    | with_reducible assumption
    | with_reducible apply out_next
    | with_reducible refine eachOctet_keeps _ _ _ (fun _ _ _ => ?_) ?_
    | with_reducible apply wakeOctet_keeps
    | with_reducible apply keeps_onOctet
    | split

theorem execTrainPass1End_keeps {org : State} (p : Fin 4) (s : State) (hk : Keeps org s) : OutKeeps org (execTrainPass1End p s) := by
  unfold execTrainPass1End
  repeat' first
    | with_reducible assumption
    | with_reducible apply out_next
    | with_reducible apply sendCtrl_keeps
    | (intro z; have hz : Keeps org z; on_goal 1 => (simp (zeta := false) only [z]))
    | intro z
    | lift_lets
    | split

theorem execTrainFail_keeps {org : State} (p : Fin 4) (s : State) (hk : Keeps org s) : OutKeeps org (execTrainFail p s) := by
  unfold execTrainFail
  repeat' first
    | with_reducible assumption
    | with_reducible apply out_next
    | with_reducible apply trainFail_keeps
    | split

theorem takeSwizzle_keeps {a : State} (p : Nat) (ws : List (BitVec 32)) (k : Nat) (s : State) (hk : Keeps a s) :
    Keeps a (takeSwizzle p ws k s) := by
  unfold takeSwizzle
  lift_lets
  intro v key old s1
  have h1 : Keeps a s1 := keeps_onOctet hk _ _
  clear_value s1 old
  rcases old with _ | x
  · exact h1
  · exact keeps_ite h1 (octRaise_keeps _ _ _ h1)

theorem lanemapMsg_keeps {org : State} (p : Nat) (ws : List (BitVec 32)) (s : State) (hk : Keeps org s) : Keeps org (lanemapMsg p ws s) := by
  unfold lanemapMsg
  repeat' first
    | with_reducible assumption
    | with_reducible refine eachOctet_keeps _ _ _ (fun _ _ _ => ?_) ?_
    | with_reducible apply answered_keeps
    | with_reducible apply sendCtrl_keeps
    | with_reducible apply takeSwizzle_keeps
    | with_reducible apply trainFail_keeps
    | with_reducible apply keeps_onOctet
    | (intro z; have hz : Keeps org z; on_goal 1 => (simp (zeta := false) only [z]))
    | intro z
    | lift_lets
    | split

theorem execLanemap_keeps {org : State} (p : Fin 4) (ws : List (BitVec 32)) (s : State) (hk : Keeps org s) : OutKeeps org (execLanemap p ws s) := by
  unfold execLanemap
  repeat' first
    | with_reducible assumption
    | with_reducible apply out_next
    | with_reducible apply lanemapMsg_keeps

theorem errcntMsg_keeps {org : State} (p : Nat) (ws : List (BitVec 32)) (s : State) (hk : Keeps org s) : Keeps org (errcntMsg p ws s) := by
  unfold errcntMsg
  repeat' first
    | with_reducible assumption
    | with_reducible apply answered_keeps
    | with_reducible apply keeps_onOctet
    | with_reducible refine keeps_forN ?_ _ _ fun _ _ _ => ?_
    | (intro z; have hz : Keeps org z; on_goal 1 => (simp (zeta := false) only [z]))
    | intro z
    | lift_lets
    | split
    | with_reducible refine keeps_eq ?_ rfl rfl rfl rfl rfl

theorem execErrcnt_keeps {org : State} (p : Fin 4) (ws : List (BitVec 32)) (s : State) (hk : Keeps org s) : OutKeeps org (execErrcnt p ws s) := by
  unfold execErrcnt
  repeat' first
    | with_reducible assumption
    | with_reducible apply out_next
    | with_reducible apply errcntMsg_keeps

theorem execCtrlTimeout_keeps {org : State} (p : Fin 4) (op : BitVec 8) (s : State) (hk : Keeps org s) : OutKeeps org (execCtrlTimeout p op s) := by
  unfold execCtrlTimeout
  repeat' first
    | with_reducible assumption
    | with_reducible apply out_next
    | with_reducible refine eachOctet_keeps _ _ _ (fun _ _ _ => ?_) ?_
    | with_reducible apply answered_keeps
    | with_reducible apply complete_keeps
    | with_reducible apply octRaise_keeps
    | with_reducible apply sendCtrl_keeps
    | with_reducible apply trainFail_keeps
    | with_reducible apply keeps_onArr
    | with_reducible apply keeps_onOctet
    | (intro z; have hz : Keeps org z; on_goal 1 => (simp (zeta := false) only [z]))
    | intro z
    | lift_lets
    | split

theorem specLinkAllot_keeps : OpKeeps specLinkAllot where
  effect {org} h s hk := by
    unfold specLinkAllot
    repeat' first
      | with_reducible assumption
      | (dsimp (zeta := false) only)
      | with_reducible apply keeps_onGlk
  apply _ _ hk := hk

theorem execLinkAllot_keeps {org : State} (cmd : Cmd) (s : State) (hk : Keeps org s) : OutKeeps org (execLinkAllot cmd s) :=
  out_next (accept_keeps _ _ _ specLinkAllot_keeps hk)

theorem checkAllot_keeps {org : State} (s : State) (hk : Keeps org s) : Keeps org (checkAllot s) := by
  unfold checkAllot
  repeat' first
    | with_reducible assumption
    | with_reducible apply complete_keeps
    | with_reducible apply keeps_onGlk
    | with_reducible apply keeps_onLink
    | with_reducible refine keeps_forN ?_ _ _ fun _ _ _ => ?_
    | (intro z; have hz : Keeps org z; on_goal 1 => (simp (zeta := false) only [z]))
    | intro z
    | lift_lets
    | split

theorem allotOctet_keeps {a : State} (as : List Allot) (k : Nat) (s : State) (hk : Keeps a s) : Keeps a (allotOctet as k s) := by
  unfold allotOctet
  rcases allotOf as k with _ | ⟨p, r⟩
  · exact keeps_ite (keeps_onOctet (toIdle_keeps _ _ _ (discardRestripe_keeps _ _ hk)) _ _) hk
  · exact keeps_ite hk (keeps_onOctet (toIdle_keeps _ _ _ (keeps_ite hk (discardRestripe_keeps _ _ hk))) _ _)

theorem applyAllot_keeps {org : State} (h : Held) (s : State) (hk : Keeps org s) : Keeps org (applyAllot h s) := by
  unfold applyAllot
  repeat' first
    | with_reducible assumption
    | with_reducible refine eachOctet_keeps _ _ _ (fun _ _ _ => ?_) ?_
    | with_reducible apply allotOctet_keeps
    | with_reducible apply checkAllot_keeps
    | with_reducible apply complete_keeps
    | with_reducible apply portDown_keeps
    | with_reducible apply toBcAlign_keeps
    | with_reducible apply tryTrain_keeps
    | with_reducible apply keeps_onGlk
    | with_reducible apply keeps_onLink
    | with_reducible apply keeps_onOctet
    | with_reducible refine keeps_forN ?_ _ _ fun _ _ _ => ?_
    | with_reducible refine keeps_foldl ?_ _ _ fun _ _ _ => ?_
    | (intro z; have hz : Keeps org z; on_goal 1 => (simp (zeta := false) only [z]))
    | intro z
    | lift_lets
    | split

theorem specLinkLaneSet_keeps : OpKeeps specLinkLaneSet where
  effect {org} h s hk := by
    unfold specLinkLaneSet
    repeat' first
      | with_reducible assumption
      | (dsimp (zeta := false) only)
      | with_reducible apply keeps_onOctet
      | (intro z; have hz : Keeps org z; on_goal 1 => (simp (zeta := false) only [z]))
      | intro z
      | lift_lets
      | split
  apply _ _ hk := hk

theorem execLinkLaneSet_keeps {org : State} (cmd : Cmd) (s : State) (hk : Keeps org s) : OutKeeps org (execLinkLaneSet cmd s) :=
  out_next (accept_keeps _ _ _ specLinkLaneSet_keeps hk)

theorem resetOctet_keeps {org : State} (k : Nat) (s : State) (hk : Keeps org s) : Keeps org (resetOctet k s) := by
  unfold resetOctet
  repeat' first
    | with_reducible assumption
    | with_reducible refine eachOctet_keeps _ _ _ (fun _ _ _ => ?_) ?_
    | with_reducible apply discardRestripe_keeps
    | with_reducible apply portDown_keeps
    | with_reducible apply toBcAlign_keeps
    | with_reducible apply toIdle_keeps
    | (intro z; have hz : Keeps org z; on_goal 1 => (simp (zeta := false) only [z]))
    | intro z
    | lift_lets
    | split

theorem specLinkOctetReset_keeps : OpKeeps specLinkOctetReset where
  effect {org} h s hk := by
    unfold specLinkOctetReset
    repeat' first
      | with_reducible assumption
      | (dsimp (zeta := false) only)
      | with_reducible apply resetOctet_keeps
      | with_reducible apply keeps_onOctet
      | (intro z; have hz : Keeps org z; on_goal 1 => (simp (zeta := false) only [z]))
      | intro z
      | lift_lets
  apply _ _ hk := hk

theorem execLinkOctetReset_keeps {org : State} (cmd : Cmd) (s : State) (hk : Keeps org s) : OutKeeps org (execLinkOctetReset cmd s) :=
  out_next (accept_keeps _ _ _ specLinkOctetReset_keeps hk)

theorem specLinkDiag_keeps : OpKeeps specLinkDiag where
  effect {org} h s hk := by
    unfold specLinkDiag
    repeat' first
      | with_reducible assumption
      | (dsimp (zeta := false) only)
      | with_reducible apply pruneDoms_keeps
      | with_reducible apply keeps_onOctet
      | (intro z; have hz : Keeps org z; on_goal 1 => (simp (zeta := false) only [z]))
      | intro z
      | lift_lets
      | split
  apply _ _ hk := hk

theorem execLinkDiag_keeps {org : State} (cmd : Cmd) (s : State) (hk : Keeps org s) : OutKeeps org (execLinkDiag cmd s) :=
  out_next (accept_keeps _ _ _ specLinkDiag_keeps hk)

theorem execLinkReadyTimeout_keeps {a : State} (o : Option (Fin 16)) (s : State) (hk : Keeps a s) :
    OutKeeps a (execLinkReadyTimeout o s) := by
  unfold execLinkReadyTimeout
  refine out_next ?_
  rcases o with _ | k
  · dsimp only
    split
    · exact hk
    · exact complete_keeps _ _ _ _ (keeps_eq hk rfl rfl rfl rfl rfl)
  · dsimp only
    split
    · exact hk
    · exact complete_keeps _ _ _ _ (keeps_onOctet hk _ _)

theorem quadFault_keeps {org : State} (q : Nat) (s : State) (hk : Keeps org s) : Keeps org (quadFault q s) := by
  unfold quadFault
  repeat' first
    | with_reducible assumption
    | with_reducible refine eachOctet_keeps _ _ _ (fun _ _ _ => ?_) ?_
    | with_reducible apply discardRestripe_keeps
    | with_reducible apply portDown_keeps
    | with_reducible apply quadRaise_keeps
    | with_reducible apply toBcAlign_keeps
    | with_reducible apply toIdle_keeps
    | with_reducible apply keeps_onGlk
    | with_reducible refine keeps_foldl ?_ _ _ fun _ _ _ => ?_
    | (intro z; have hz : Keeps org z; on_goal 1 => (simp (zeta := false) only [z]))
    | intro z
    | lift_lets

theorem quadGood_keeps {org : State} (q : Nat) (s : State) (hk : Keeps org s) : Keeps org (quadGood q s) := by
  unfold quadGood
  repeat' first
    | with_reducible assumption
    | with_reducible apply wakeOctet_keeps
    | with_reducible apply keeps_onGlk
    | with_reducible refine keeps_foldl ?_ _ _ fun _ _ _ => ?_
    | (intro z; have hz : Keeps org z; on_goal 1 => (simp (zeta := false) only [z]))
    | intro z
    | lift_lets

theorem countRun_keeps {org : State} (p : Nat) (s : State) (hk : Keeps org s) : Keeps org (countRun p s) := by
  unfold countRun
  repeat' first
    | with_reducible assumption
    | with_reducible apply keeps_onArr
    | (intro z; have hz : Keeps org z; on_goal 1 => (simp (zeta := false) only [z]))
    | intro z
    | lift_lets
    | split

theorem confirmBand_keeps {org : State} (p b due : Nat) (s : State) (hk : Keeps org s) : Keeps org (confirmBand p b due s) := by
  unfold confirmBand
  repeat' first
    | with_reducible assumption
    | with_reducible apply updateHold_keeps
    | with_reducible apply keeps_onArr
    | split

theorem ackMsg_keeps {org : State} (p : Nat) (w1 w2 : BitVec 32) (s : State) (hk : Keeps org s) : Keeps org (ackMsg p w1 w2 s) := by
  unfold ackMsg
  repeat' first
    | with_reducible assumption
    | with_reducible apply ahmRaise_keeps
    | with_reducible apply causeBands_keeps
    | with_reducible apply confirmBand_keeps
    | with_reducible apply countRun_keeps
    | with_reducible apply updateHold_keeps
    | with_reducible apply keeps_onArr
    | with_reducible apply keeps_onLink
    | (intro z; have hz : Keeps org z; on_goal 1 => (simp (zeta := false) only [z]))
    | intro z
    | lift_lets
    | split

theorem execAck_keeps {org : State} (p : Fin 4) (w1 w2 : BitVec 32) (s : State) (hk : Keeps org s) : OutKeeps org (execAck p w1 w2 s) := by
  unfold execAck
  repeat' first
    | with_reducible assumption
    | with_reducible apply out_next
    | with_reducible apply ackMsg_keeps

theorem execAckMissing_keeps {org : State} (p : Fin 4) (s : State) (hk : Keeps org s) : OutKeeps org (execAckMissing p s) := by
  unfold execAckMissing
  repeat' first
    | with_reducible assumption
    | with_reducible apply out_next
    | with_reducible apply ahmRaise_keeps
    | with_reducible apply causeBands_keeps
    | with_reducible apply countRun_keeps
    | with_reducible apply keeps_onArr
    | with_reducible apply keeps_onLink
    | (intro z; have hz : Keeps org z; on_goal 1 => (simp (zeta := false) only [z]))
    | intro z
    | lift_lets
    | split

theorem laneDown_keeps {org : State} (p k q : Nat) (s : State) (hk : Keeps org s) : Keeps org (laneDown p k q s) := by
  unfold laneDown
  repeat' first
    | with_reducible assumption
    | with_reducible apply causePort_keeps
    | with_reducible apply keeps_onArr
    | with_reducible apply keeps_onOctet
    | (intro z; have hz : Keeps org z; on_goal 1 => (simp (zeta := false) only [z]))
    | intro z
    | lift_lets
    | split

theorem statusLane_keeps {org : State} (p k w q : Nat) (s : State) (hk : Keeps org s) : Keeps org (statusLane p k w q s) := by
  unfold statusLane
  repeat' first
    | with_reducible assumption
    | with_reducible apply laneDown_keeps
    | with_reducible apply keeps_onOctet
    | (intro z; have hz : Keeps org z; on_goal 1 => (simp (zeta := false) only [z]))
    | intro z
    | lift_lets
    | split

theorem countClean_keeps {org : State} (k w : Nat) (s : State) (hk : Keeps org s) : Keeps org (countClean k w s) := by
  unfold countClean
  repeat' first
    | with_reducible assumption
    | with_reducible apply keeps_onOctet
    | (intro z; have hz : Keeps org z; on_goal 1 => (simp (zeta := false) only [z]))
    | intro z
    | lift_lets
    | split

theorem statusMsg_keeps {org : State} (p : Nat) (ws : List (BitVec 32)) (s : State) (hk : Keeps org s) : Keeps org (statusMsg p ws s) := by
  unfold statusMsg
  repeat' first
    | with_reducible assumption
    | with_reducible apply countClean_keeps
    | with_reducible apply statusLane_keeps
    | with_reducible refine keeps_forN ?_ _ _ fun _ _ _ => ?_
    | (intro z; have hz : Keeps org z; on_goal 1 => (simp (zeta := false) only [z]))
    | intro z
    | lift_lets
    | split

theorem execStatus_keeps {org : State} (p : Fin 4) (ws : List (BitVec 32)) (s : State) (hk : Keeps org s) : OutKeeps org (execStatus p ws s) := by
  unfold execStatus
  repeat' first
    | with_reducible assumption
    | with_reducible apply out_next
    | with_reducible apply statusMsg_keeps

theorem restripeOctet_keeps {org : State} (p k : Nat) (s : State) (hk : Keeps org s) : Keeps org (restripeOctet p k s) := by
  unfold restripeOctet
  repeat' first
    | with_reducible assumption
    | with_reducible apply ahmRaise_keeps
    | with_reducible apply endCausePort_keeps
    | with_reducible apply octRaise_keeps
    | with_reducible apply keeps_onSeq
    | with_reducible apply keeps_onOctet
    | (intro z; have hz : Keeps org z; on_goal 1 => (simp (zeta := false) only [z]))
    | intro z
    | lift_lets
    | split

theorem boundaryLink_keeps {org : State} (due : List Nat) (s : State) (hk : Keeps org s) : Keeps org (boundaryLink due s) := by
  unfold boundaryLink
  repeat' first
    | with_reducible assumption
    | with_reducible refine eachOctet_keeps _ _ _ (fun _ _ _ => ?_) ?_
    | with_reducible apply ahmRaise_keeps
    | with_reducible apply restripeOctet_keeps
    | with_reducible apply retrainPort_keeps
    | with_reducible apply keeps_onArr
    | with_reducible apply keeps_onLink
    | with_reducible refine keeps_forN ?_ _ _ fun _ _ _ => ?_
    | (intro z; have hz : Keeps org z; on_goal 1 => (simp (zeta := false) only [z]))
    | intro z
    | lift_lets
    | split

theorem addDefect_keeps {org : State} (p : Nat) (fresh : Bool) (e : DefEntry) (s : State) (hk : Keeps org s) : Keeps org (addDefect p fresh e s) := by
  unfold addDefect
  repeat' first
    | with_reducible assumption
    | with_reducible apply ahmRaise_keeps
    | with_reducible apply keeps_onArr
    | (intro z; have hz : Keeps org z; on_goal 1 => (simp (zeta := false) only [z]))
    | intro z
    | lift_lets
    | split

theorem defectMsg_keeps {org : State} (p : Nat) (ws : List (BitVec 32)) (s : State) (hk : Keeps org s) : Keeps org (defectMsg p ws s) := by
  unfold defectMsg
  repeat' first
    | with_reducible assumption
    | with_reducible apply addDefect_keeps
    | with_reducible apply checkStuck_keeps
    | with_reducible refine keeps_foldl ?_ _ _ fun _ _ _ => ?_
    | split

theorem execDefect_keeps {org : State} (p : Fin 4) (ws : List (BitVec 32)) (s : State) (hk : Keeps org s) : OutKeeps org (execDefect p ws s) := by
  unfold execDefect
  repeat' first
    | with_reducible assumption
    | with_reducible apply out_next
    | with_reducible apply defectMsg_keeps

theorem saveMap_keeps {org : State} (p : Nat) (s : State) (hk : Keeps org s) : Keeps org (saveMap p s) := by
  unfold saveMap
  repeat' first
    | with_reducible assumption
    | with_reducible apply keeps_onAhm
    | with_reducible apply keeps_onArr
    | (intro z; have hz : Keeps org z; on_goal 1 => (simp (zeta := false) only [z]))
    | intro z
    | lift_lets
    | split

theorem execDefectMapSave_keeps {org : State} (p : Fin 4) (s : State) (hk : Keeps org s) : OutKeeps org (execDefectMapSave p s) := by
  unfold execDefectMapSave
  repeat' first
    | with_reducible assumption
    | with_reducible apply out_next
    | with_reducible apply saveMap_keeps

theorem newRecord_keeps {org : State} (p : Nat) (s : State) (hk : Keeps org s) : Keeps org (newRecord p s) := by
  unfold newRecord
  repeat' first
    | with_reducible assumption
    | with_reducible apply ahmRaise_keeps
    | with_reducible apply checkStuck_keeps
    | with_reducible apply keeps_onAhm
    | with_reducible apply keeps_onArr
    | (intro z; have hz : Keeps org z; on_goal 1 => (simp (zeta := false) only [z]))
    | intro z
    | lift_lets
    | split

theorem portUp_keeps {org : State} (p : Nat) (s : State) (hk : Keeps org s) : Keeps org (portUp p s) := by
  unfold portUp
  repeat' first
    | with_reducible assumption
    | with_reducible refine eachOctet_keeps _ _ _ (fun _ _ _ => ?_) ?_
    | with_reducible apply ahmFollow_keeps
    | with_reducible apply checkAllot_keeps
    | with_reducible apply complete_keeps
    | with_reducible apply keeps_onOctet
    | with_reducible refine keeps_foldl ?_ _ _ fun _ _ _ => ?_
    | (intro z; have hz : Keeps org z; on_goal 1 => (simp (zeta := false) only [z]))
    | intro z
    | lift_lets

theorem capsMsg_keeps {org : State} (p : Nat) (ws : List (BitVec 32)) (s : State) (hk : Keeps org s) : Keeps org (capsMsg p ws s) := by
  unfold capsMsg
  repeat' first
    | with_reducible assumption
    | with_reducible apply ahmRaise_keeps
    | with_reducible apply answered_keeps
    | with_reducible apply causeBands_keeps
    | with_reducible apply newRecord_keeps
    | with_reducible apply portUp_keeps
    | with_reducible apply saveMap_keeps
    | with_reducible apply trainFail_keeps
    | with_reducible apply keeps_onArr
    | (intro z; have hz : Keeps org z; on_goal 1 => (simp (zeta := false) only [z]))
    | intro z
    | lift_lets
    | split

theorem execCaps_keeps {org : State} (p : Fin 4) (ws : List (BitVec 32)) (s : State) (hk : Keeps org s) : OutKeeps org (execCaps p ws s) := by
  unfold execCaps
  repeat' first
    | with_reducible assumption
    | with_reducible apply out_next
    | with_reducible apply capsMsg_keeps

theorem boundaryRecords_keeps {org : State} (s : State) (hk : Keeps org s) : Keeps org (boundaryRecords s) := by
  unfold boundaryRecords
  repeat' first
    | with_reducible assumption
    | with_reducible apply newRecordEpoch_keeps
    | with_reducible apply keeps_onSeq
    | with_reducible apply keeps_onArr
    | with_reducible refine keeps_forN ?_ _ _ fun _ _ _ => ?_
    | split

theorem tempMsg_keeps {org : State} (p : Nat) (w : BitVec 32) (s : State) (hk : Keeps org s) : Keeps org (tempMsg p w s) := by
  unfold tempMsg
  repeat' first
    | with_reducible assumption
    | with_reducible apply ahmRaise_keeps
    | with_reducible apply keeps_onArr
    | (intro z; have hz : Keeps org z; on_goal 1 => (simp (zeta := false) only [z]))
    | intro z
    | lift_lets
    | split

theorem execTemp_keeps {org : State} (p : Fin 4) (w : BitVec 32) (s : State) (hk : Keeps org s) : OutKeeps org (execTemp p w s) := by
  unfold execTemp
  repeat' first
    | with_reducible assumption
    | with_reducible apply out_next
    | with_reducible apply tempMsg_keeps

theorem execTempStale_keeps {org : State} (p : Fin 4) (s : State) (hk : Keeps org s) : OutKeeps org (execTempStale p s) := by
  unfold execTempStale
  repeat' first
    | with_reducible assumption
    | with_reducible apply out_next
    | with_reducible apply ahmRaise_keeps
    | with_reducible apply keeps_onArr
    | split

theorem endScan_keeps {org : State} (p : Nat) (st : Status) (s : State) (hk : Keeps org s) : Keeps org (endScan p st s) := by
  unfold endScan
  repeat' first
    | with_reducible assumption
    | with_reducible apply complete_keeps
    | with_reducible apply endCausePort_keeps
    | with_reducible apply enterPark_keeps
    | with_reducible apply keeps_onArr
    | (intro z; have hz : Keeps org z; on_goal 1 => (simp (zeta := false) only [z]))
    | intro z
    | lift_lets
    | split

theorem scanDataMsg_keeps {org : State} (p : Nat) (ws : List (BitVec 32)) (s : State) (hk : Keeps org s) : Keeps org (scanDataMsg p ws s) := by
  unfold scanDataMsg
  repeat' first
    | with_reducible assumption
    | with_reducible apply keeps_onArr
    | split

theorem execScanData_keeps {org : State} (p : Fin 4) (ws : List (BitVec 32)) (s : State) (hk : Keeps org s) : OutKeeps org (execScanData p ws s) := by
  unfold execScanData
  repeat' first
    | with_reducible assumption
    | with_reducible apply out_next
    | with_reducible apply scanDataMsg_keeps

theorem scanDoneMsg_keeps {org : State} (p : Nat) (w1 w2 w3 : BitVec 32) (s : State) (hk : Keeps org s) : Keeps org (scanDoneMsg p w1 w2 w3 s) := by
  unfold scanDoneMsg
  repeat' first
    | with_reducible assumption
    | with_reducible apply addDefect_keeps
    | with_reducible apply answered_keeps
    | with_reducible apply checkStuck_keeps
    | with_reducible apply endScan_keeps
    | with_reducible apply keeps_onArr
    | with_reducible refine keeps_foldl ?_ _ _ fun _ _ _ => ?_
    | (intro z; have hz : Keeps org z; on_goal 1 => (simp (zeta := false) only [z]))
    | intro z
    | lift_lets
    | split

theorem execScanDone_keeps {org : State} (p : Fin 4) (w1 w2 w3 : BitVec 32) (s : State) (hk : Keeps org s) : OutKeeps org (execScanDone p w1 w2 w3 s) := by
  unfold execScanDone
  repeat' first
    | with_reducible assumption
    | with_reducible apply out_next
    | with_reducible apply scanDoneMsg_keeps

theorem execScanState_keeps {org : State} (p : Fin 4) (uw : BitVec 32) (s : State) (hk : Keeps org s) : OutKeeps org (execScanState p uw s) := by
  unfold execScanState
  repeat' first
    | with_reducible assumption
    | with_reducible apply out_next
    | with_reducible apply answered_keeps

theorem execScanTimeout_keeps {org : State} (p : Fin 4) (s : State) (hk : Keeps org s) : OutKeeps org (execScanTimeout p s) := by
  unfold execScanTimeout
  repeat' first
    | with_reducible assumption
    | with_reducible apply out_next
    | with_reducible apply endScan_keeps
    | with_reducible apply sendCtrl_keeps
    | split

theorem parkStateMsg_keeps {org : State} (p : Nat) (w : BitVec 32) (s : State) (hk : Keeps org s) : Keeps org (parkStateMsg p w s) := by
  unfold parkStateMsg
  repeat' first
    | with_reducible assumption
    | with_reducible apply ahmFollow_keeps
    | with_reducible apply answered_keeps
    | with_reducible apply complete_keeps
    | with_reducible apply endCausePort_keeps
    | with_reducible apply enterPark_keeps
    | with_reducible apply keeps_onArr
    | (intro z; have hz : Keeps org z; on_goal 1 => (simp (zeta := false) only [z]))
    | intro z
    | lift_lets
    | split

theorem execParkState_keeps {org : State} (p : Fin 4) (w : BitVec 32) (s : State) (hk : Keeps org s) : OutKeeps org (execParkState p w s) := by
  unfold execParkState
  repeat' first
    | with_reducible assumption
    | with_reducible apply out_next
    | with_reducible apply parkStateMsg_keeps

theorem runMsg_keeps {org : State} (k p : Nat) (m : List (BitVec 32)) (s : State) (hk : Keeps org s) : Keeps org (runMsg k p m s) := by
  unfold runMsg
  repeat' first
    | with_reducible assumption
    | with_reducible apply ackMsg_keeps
    | with_reducible apply answered_keeps
    | with_reducible apply capsMsg_keeps
    | with_reducible apply defectMsg_keeps
    | with_reducible apply errcntMsg_keeps
    | with_reducible apply lanemapMsg_keeps
    | with_reducible apply octRaise_keeps
    | with_reducible apply parkStateMsg_keeps
    | with_reducible apply scanDataMsg_keeps
    | with_reducible apply scanDoneMsg_keeps
    | with_reducible apply statusMsg_keeps
    | with_reducible apply tempMsg_keeps
    | (intro z; have hz : Keeps org z; on_goal 1 => (simp (zeta := false) only [z]))
    | intro z
    | lift_lets
    | split

theorem gotMsg_keeps {a : State} (k : Nat) (m : List (BitVec 32)) (s : State) (hk : Keeps a s) : Keeps a (gotMsg k m s) := by
  unfold gotMsg
  lift_lets
  intro p copy s1
  have h1 : Keeps a s1 := keeps_onOctet hk _ _
  clear_value s1 copy
  rcases copy with _ | x
  · exact runMsg_keeps _ _ _ _ h1
  · exact keeps_ite h1 (octRaise_keeps _ _ _ h1)

theorem gotWord_keeps {org : State} (k : Nat) (s : State) (w : BitVec 32) (hk : Keeps org s) : Keeps org (gotWord k s w) := by
  unfold gotWord
  repeat' first
    | with_reducible assumption
    | with_reducible apply gotMsg_keeps
    | with_reducible apply keeps_onOctet
    | (intro z; have hz : Keeps org z; on_goal 1 => (simp (zeta := false) only [z]))
    | intro z
    | lift_lets
    | split

theorem noSync_keeps {org : State} (k : Nat) (s : State) (hk : Keeps org s) : Keeps org (noSync k s) := by
  unfold noSync
  repeat' first
    | with_reducible assumption
    | with_reducible apply bcLoss_keeps
    | with_reducible apply keeps_onOctet
    | (intro z; have hz : Keeps org z; on_goal 1 => (simp (zeta := false) only [z]))
    | intro z
    | lift_lets
    | split

theorem bcFrame_keeps {org : State} (k : Nat) (bits : List Bool) (s : State) (hk : Keeps org s) : Keeps org (bcFrame k bits s) := by
  unfold bcFrame
  repeat' first
    | with_reducible assumption
    | with_reducible apply bcLockGot_keeps
    | with_reducible apply gotWord_keeps
    | with_reducible apply noSync_keeps
    | with_reducible apply octRaise_keeps
    | with_reducible apply keeps_onOctet
    | with_reducible refine keeps_foldl ?_ _ _ fun _ _ _ => ?_
    | (intro z; have hz : Keeps org z; on_goal 1 => (simp (zeta := false) only [z]))
    | intro z
    | lift_lets
    | split
    | with_reducible refine keeps_eq ?_ rfl rfl rfl rfl rfl

theorem execBcFrameReceived_keeps {org : State} (o : Fin 16) (bits : List Bool) (s : State) (hk : Keeps org s) : OutKeeps org (execBcFrameReceived o bits s) := by
  unfold execBcFrameReceived
  repeat' first
    | with_reducible assumption
    | with_reducible apply out_next
    | with_reducible apply bcFrame_keeps

theorem specAhmPolicySet_keeps : OpKeeps specAhmPolicySet where
  effect _ _ hk := hk
  apply {org} h s hk := by
    unfold specAhmPolicySet
    repeat' first
      | with_reducible assumption
      | (dsimp (zeta := false) only)
      | with_reducible apply keeps_onArr
      | (intro z; have hz : Keeps org z; on_goal 1 => (simp (zeta := false) only [z]))
      | intro z
      | lift_lets

theorem execAhmPolicySet_keeps {org : State} (cmd : Cmd) (s : State) (hk : Keeps org s) : OutKeeps org (execAhmPolicySet cmd s) :=
  out_next (accept_keeps _ _ _ specAhmPolicySet_keeps hk)

theorem startScan_keeps {org : State} (h : Held) (s : State) (hk : Keeps org s) : Keeps org (startScan h s) := by
  unfold startScan
  repeat' first
    | with_reducible assumption
    | with_reducible apply ahmRaise_keeps
    | with_reducible apply causePort_keeps
    | with_reducible apply complete_keeps
    | with_reducible apply sendCtrl_keeps
    | with_reducible apply keeps_onArr
    | with_reducible apply keeps_onLink
    | (intro z; have hz : Keeps org z; on_goal 1 => (simp (zeta := false) only [z]))
    | intro z
    | lift_lets
    | split

theorem stopScan_keeps {org : State} (h : Held) (s : State) (hk : Keeps org s) : Keeps org (stopScan h s) := by
  unfold stopScan
  repeat' first
    | with_reducible assumption
    | with_reducible apply abortScan_keeps
    | with_reducible apply complete_keeps
    | with_reducible apply enterPark_keeps
    | with_reducible apply sendCtrl_keeps
    | (intro z; have hz : Keeps org z; on_goal 1 => (simp (zeta := false) only [z]))
    | intro z
    | lift_lets
    | split

theorem specAhmScan_keeps : OpKeeps specAhmScan where
  effect {org} h s hk := by
    unfold specAhmScan
    repeat' first
      | with_reducible assumption
      | (dsimp (zeta := false) only)
      | with_reducible apply keeps_onArr
      | split
  apply {org} h s hk := by
    unfold specAhmScan
    repeat' first
      | with_reducible assumption
      | (dsimp (zeta := false) only)
      | with_reducible apply startScan_keeps
      | with_reducible apply stopScan_keeps
      | split

theorem execAhmScanStart_keeps {org : State} (cmd : Cmd) (s : State) (hk : Keeps org s) : OutKeeps org (execAhmScanStart cmd s) :=
  out_next (accept_keeps _ _ _ specAhmScan_keeps hk)

theorem execAhmScanAbort_keeps {org : State} (cmd : Cmd) (s : State) (hk : Keeps org s) : OutKeeps org (execAhmScanAbort cmd s) :=
  out_next (accept_keeps _ _ _ specAhmScan_keeps hk)

theorem specAhmDefectRead_keeps : OpKeeps specAhmDefectRead where
  effect {org} h s hk := by
    unfold specAhmDefectRead
    repeat' first
      | with_reducible assumption
      | (dsimp (zeta := false) only)
      | with_reducible apply bufStore_keeps
      | (intro z; have hz : Keeps org z; on_goal 1 => (simp (zeta := false) only [z]))
      | intro z
      | lift_lets
      | split
      | with_reducible refine keeps_eq ?_ rfl rfl rfl rfl rfl
  apply _ _ hk := hk

theorem execAhmDefectRead_keeps {org : State} (cmd : Cmd) (s : State) (hk : Keeps org s) : OutKeeps org (execAhmDefectRead cmd s) :=
  out_next (accept_keeps _ _ _ specAhmDefectRead_keeps hk)

theorem specAhmPark_keeps : OpKeeps specAhmPark where
  effect {org} h s hk := by
    unfold specAhmPark
    repeat' first
      | with_reducible assumption
      | (dsimp (zeta := false) only)
  apply {org} h s hk := by
    unfold specAhmPark
    repeat' first
      | with_reducible assumption
      | (dsimp (zeta := false) only)
      | with_reducible apply sendCtrl_keeps
      | with_reducible apply keeps_onArr
      | (intro z; have hz : Keeps org z; on_goal 1 => (simp (zeta := false) only [z]))
      | intro z
      | lift_lets

theorem execAhmPark_keeps {org : State} (cmd : Cmd) (s : State) (hk : Keeps org s) : OutKeeps org (execAhmPark cmd s) :=
  out_next (accept_keeps _ _ _ specAhmPark_keeps hk)

theorem execAhmParkRelease_keeps {org : State} (cmd : Cmd) (s : State) (hk : Keeps org s) : OutKeeps org (execAhmParkRelease cmd s) :=
  out_next (accept_keeps _ _ _ specAhmPark_keeps hk)

end Sys2Proof.Machine
end

