-- ==== Sys2Proof/Laws/KeepsMgt.lean ====
section
/-!
SUPPORT. The relation Keeps for the functions of Machine/Hosts.lean, Machine/Management.lean, Machine/Enclave.lean and Machine/Calibration.lean.
-/
set_option linter.unusedTactic false
set_option linter.unreachableTactic false
set_option linter.unusedVariables false
namespace Sys2Proof.Machine

theorem endSession_keeps {org : State} (host : HostId) (cause : Nat) (s : State) (hk : Keeps org s) : Keeps org (endSession host cause s) := by
  unfold endSession
  repeat' first
    | with_reducible assumption
    | with_reducible apply journalSession_keeps
    | with_reducible apply keeps_onHif
    | with_reducible apply keeps_onSec
    | (intro z; have hz : Keeps org z; on_goal 1 => (simp (zeta := false) only [z]))
    | intro z
    | lift_lets
    | split

theorem openSession_keeps {org : State} (h : Held) (s : State) (hk : Keeps org s) : Keeps org (openSession h s) := by
  unfold openSession
  repeat' first
    | with_reducible assumption
    | with_reducible apply endSession_keeps
    | with_reducible apply journalSession_keeps
    | with_reducible apply keeps_onHif
    | (intro z; have hz : Keeps org z; on_goal 1 => (simp (zeta := false) only [z]))
    | intro z
    | lift_lets
    | split

theorem specSessionOpen_keeps : OpKeeps specSessionOpen where
  effect {org} h s hk := by
    unfold specSessionOpen
    repeat' first
      | with_reducible assumption
      | (dsimp (zeta := false) only)
      | with_reducible apply openSession_keeps
      | (intro z; have hz : Keeps org z; on_goal 1 => (simp (zeta := false) only [z]))
      | intro z
      | lift_lets
  apply _ _ hk := hk

theorem specSessionClose_keeps : OpKeeps specSessionClose where
  effect {org} h s hk := by
    unfold specSessionClose
    repeat' first
      | with_reducible assumption
      | (dsimp (zeta := false) only)
      | with_reducible apply endSession_keeps
  apply _ _ hk := hk

theorem specHeartbeat_keeps : OpKeeps specHeartbeat where
  effect _ _ hk := hk
  apply _ _ hk := hk

theorem specClaim_keeps : OpKeeps specClaim where
  effect {org} h s hk := by
    unfold specClaim
    repeat' first
      | with_reducible assumption
      | (dsimp (zeta := false) only)
      | with_reducible apply hifRaise_keeps
      | with_reducible apply sendEvent_keeps
      | with_reducible apply keeps_onHif
      | (intro z; have hz : Keeps org z; on_goal 1 => (simp (zeta := false) only [z]))
      | intro z
      | lift_lets
      | split
  apply _ _ hk := hk

theorem specRelease_keeps : OpKeeps specRelease where
  effect {org} h s hk := by
    unfold specRelease
    repeat' first
      | with_reducible assumption
      | (dsimp (zeta := false) only)
      | with_reducible apply keeps_onHif
      | split
  apply _ _ hk := hk

theorem specEventMaskSet_keeps : OpKeeps specEventMaskSet where
  effect {org} h s hk := by
    unfold specEventMaskSet
    repeat' first
      | with_reducible assumption
      | (dsimp (zeta := false) only)
      | with_reducible apply keeps_onHif
      | split
  apply _ _ hk := hk

theorem resetCore_keeps {org : State} (c : Nat) (s : State) (hk : Keeps org s) : Keeps org (resetCore c s) := by
  unfold resetCore
  repeat' first
    | with_reducible assumption
    | with_reducible apply hifRaise_keeps
    | with_reducible apply journalAdd_keeps
    | with_reducible apply keeps_onHif
    | (intro z; have hz : Keeps org z; on_goal 1 => (simp (zeta := false) only [z]))
    | intro z
    | lift_lets
    | split

theorem specCpReset_keeps : OpKeeps specCpReset where
  effect {org} h s hk := by
    unfold specCpReset
    repeat' first
      | with_reducible assumption
      | (dsimp (zeta := false) only)
      | with_reducible apply resetCore_keeps
  apply _ _ hk := hk

theorem execSessionOpen_keeps {org : State} (cmd : Cmd) (s : State) (hk : Keeps org s) : OutKeeps org (execSessionOpen cmd s) :=
  out_next (accept_keeps _ _ _ specSessionOpen_keeps hk)

theorem execSessionClose_keeps {org : State} (cmd : Cmd) (s : State) (hk : Keeps org s) : OutKeeps org (execSessionClose cmd s) :=
  out_next (accept_keeps _ _ _ specSessionClose_keeps hk)

theorem execHeartbeat_keeps {org : State} (cmd : Cmd) (s : State) (hk : Keeps org s) : OutKeeps org (execHeartbeat cmd s) :=
  out_next (accept_keeps _ _ _ specHeartbeat_keeps hk)

theorem execClaim_keeps {org : State} (cmd : Cmd) (s : State) (hk : Keeps org s) : OutKeeps org (execClaim cmd s) :=
  out_next (accept_keeps _ _ _ specClaim_keeps hk)

theorem execRelease_keeps {org : State} (cmd : Cmd) (s : State) (hk : Keeps org s) : OutKeeps org (execRelease cmd s) :=
  out_next (accept_keeps _ _ _ specRelease_keeps hk)

theorem execEventMaskSet_keeps {org : State} (cmd : Cmd) (s : State) (hk : Keeps org s) : OutKeeps org (execEventMaskSet cmd s) :=
  out_next (accept_keeps _ _ _ specEventMaskSet_keeps hk)

theorem execCpReset_keeps {org : State} (cmd : Cmd) (s : State) (hk : Keeps org s) : OutKeeps org (execCpReset cmd s) :=
  out_next (accept_keeps _ _ _ specCpReset_keeps hk)

theorem abortCommand_keeps {org : State} (op : BitVec 16) (c : Cmd) (s : State) (hk : Keeps org s) : Keeps org (abortCommand op c s) := by
  unfold abortCommand
  repeat' first
    | with_reducible assumption
    | with_reducible apply checkSeq_keeps
    | with_reducible apply refuse_keeps
    | with_reducible apply renewLease_keeps
    | split

theorem execCpWatchdog_keeps {org : State} (c : Fin 4 × Option (BitVec 16 × Cmd)) (s : State) (hk : Keeps org s) : OutKeeps org (execCpWatchdog c s) := by
  unfold execCpWatchdog
  repeat' first
    | with_reducible assumption
    | with_reducible apply out_next
    | with_reducible apply abortCommand_keeps
    | with_reducible apply resetCore_keeps
    | split

theorem execCpCorePowerOn_keeps {org : State} (c : Fin 4) (s : State) (hk : Keeps org s) : OutKeeps org (execCpCorePowerOn c s) := by
  unfold execCpCorePowerOn
  repeat' first
    | with_reducible assumption
    | with_reducible apply out_next
    | with_reducible apply keeps_onHif
    | split

theorem execCpCoreIdleOff_keeps {org : State} (c : Fin 4) (s : State) (hk : Keeps org s) : OutKeeps org (execCpCoreIdleOff c s) := by
  unfold execCpCoreIdleOff
  repeat' first
    | with_reducible assumption
    | with_reducible apply out_next
    | with_reducible apply pruneDoms_keeps
    | with_reducible apply keeps_onHif
    | split

theorem copyOut_keeps {org : State} (h : Held) (addr : Nat) (bs : List Byte) (detail : Word) (s : State) (hk : Keeps org s) :
    Keeps org (copyOut h addr bs detail s).st := by
  unfold copyOut
  split
  · exact hk
  · exact keeps_eq hk rfl rfl rfl rfl rfl

theorem specJournalRead_keeps : OpKeeps specJournalRead where
  effect {org} h s hk := by
    unfold specJournalRead
    repeat' first
      | with_reducible assumption
      | (dsimp (zeta := false) only)
      | with_reducible apply copyOut_keeps
      | (intro z; have hz : Keeps org z; on_goal 1 => (simp (zeta := false) only [z]))
      | intro z
      | lift_lets
  apply _ _ hk := hk

theorem specJournalMark_keeps : OpKeeps specJournalMark where
  effect {org} h s hk := by
    unfold specJournalMark
    repeat' first
      | with_reducible assumption
      | (dsimp (zeta := false) only)
      | with_reducible apply journalAdd_keeps
      | with_reducible refine keeps_eq ?_ rfl rfl rfl rfl rfl
  apply _ _ hk := hk

theorem execJournalRead_keeps {org : State} (cmd : Cmd) (s : State) (hk : Keeps org s) : OutKeeps org (execJournalRead cmd s) :=
  out_next (accept_keeps _ _ _ specJournalRead_keeps hk)

theorem execJournalMark_keeps {org : State} (cmd : Cmd) (s : State) (hk : Keeps org s) : OutKeeps org (execJournalMark cmd s) :=
  out_next (accept_keeps _ _ _ specJournalMark_keeps hk)

theorem execJournalEntryPersisted_keeps {org : State} (ok : Bool) (s : State) (hk : Keeps org s) : OutKeeps org (execJournalEntryPersisted ok s) := by
  unfold execJournalEntryPersisted
  repeat' first
    | with_reducible assumption
    | with_reducible apply out_next
    | with_reducible apply flushReplies_keeps
    | with_reducible apply hifRaise_keeps
    | with_reducible apply keeps_onHif
    | split

theorem execHifReady_keeps {org : State} (s : State) (hk : Keeps org s) : OutKeeps org (execHifReady s) := by
  unfold execHifReady
  repeat' first
    | with_reducible assumption
    | with_reducible apply out_next
    | with_reducible apply keeps_onHif
    | split

theorem barWrite_keeps {org : State} (h i : Nat) (high : Bool) (v : Word) (s : State) (hk : Keeps org s) : Keeps org (barWrite h i high v s) := by
  unfold barWrite
  repeat' first
    | with_reducible assumption
    | with_reducible apply keeps_onHif
    | (intro z; have hz : Keeps org z; on_goal 1 => (simp (zeta := false) only [z]))
    | intro z
    | lift_lets
    | split

theorem pcieDown_keeps {org : State} (h : Nat) (clear : Bool) (s : State) (hk : Keeps org s) : Keeps org (pcieDown h clear s) := by
  unfold pcieDown
  repeat' first
    | with_reducible assumption
    | with_reducible apply endSession_keeps
    | with_reducible apply keeps_onHif
    | (intro z; have hz : Keeps org z; on_goal 1 => (simp (zeta := false) only [z]))
    | intro z
    | lift_lets
    | split

theorem execFlr_keeps {org : State} (h : Fin 2) (s : State) (hk : Keeps org s) : OutKeeps org (execFlr h s) := by
  unfold execFlr
  repeat' first
    | with_reducible assumption
    | with_reducible apply out_next
    | with_reducible apply pcieDown_keeps

theorem execPerstN_keeps {org : State} (h : Fin 2) (s : State) (hk : Keeps org s) : OutKeeps org (execPerstN h s) := by
  unfold execPerstN
  repeat' first
    | with_reducible assumption
    | with_reducible apply out_next
    | with_reducible apply pcieDown_keeps
    | with_reducible apply keeps_onPwr
    | split

theorem execDlDown_keeps {org : State} (h : Fin 2) (s : State) (hk : Keeps org s) : OutKeeps org (execDlDown h s) := by
  unfold execDlDown
  repeat' first
    | with_reducible assumption
    | with_reducible apply out_next
    | with_reducible apply pcieDown_keeps

theorem execMsixCoalesceExpire_keeps {org : State} (h : Fin 2) (vec : Fin 64) (s : State) (hk : Keeps org s) : OutKeeps org (execMsixCoalesceExpire h vec s) := by
  unfold execMsixCoalesceExpire
  repeat' first
    | with_reducible assumption
    | with_reducible apply out_next
    | with_reducible apply msix_keeps
    | with_reducible apply keeps_onHif
    | (intro z; have hz : Keeps org z; on_goal 1 => (simp (zeta := false) only [z]))
    | intro z
    | lift_lets
    | split

theorem execLeaseExpire_keeps {org : State} (h : Fin 3) (s : State) (hk : Keeps org s) : OutKeeps org (execLeaseExpire h s) := by
  unfold execLeaseExpire
  repeat' first
    | with_reducible assumption
    | with_reducible apply out_next
    | with_reducible apply endSession_keeps
    | with_reducible apply hifRaise_keeps
    | with_reducible apply keeps_onHif
    | (intro z; have hz : Keeps org z; on_goal 1 => (simp (zeta := false) only [z]))
    | intro z
    | lift_lets
    | split

theorem specBufIngest_keeps : OpKeeps specBufIngest where
  effect {org} h s hk := by
    unfold specBufIngest
    repeat' first
      | with_reducible assumption
      | (dsimp (zeta := false) only)
      | with_reducible apply keeps_onHif
      | with_reducible apply keeps_onCmp
      | split
  apply _ _ hk := hk

theorem execBufIngest_keeps {org : State} (cmd : Cmd) (s : State) (hk : Keeps org s) : OutKeeps org (execBufIngest cmd s) :=
  out_next (accept_keeps _ _ _ specBufIngest_keeps hk)

theorem spoil_keeps {org : State} (c : Cmd) (s : State) (hk : Keeps org s) : Keeps org (spoil c s) := by
  unfold spoil
  repeat' first
    | with_reducible assumption
    | with_reducible apply bufStore_keeps
    | with_reducible apply keeps_useFree
    | split
    | with_reducible refine keeps_eq ?_ rfl rfl rfl rfl rfl

theorem writeIngest_keeps {org : State} (c : Cmd) (bs : List Byte) (s : State) (hk : Keeps org s) : Keeps org (writeIngest c bs s) := by
  unfold writeIngest
  repeat' first
    | with_reducible assumption
    | with_reducible apply bufStore_keeps
    | split
    | with_reducible refine keeps_eq ?_ rfl rfl rfl rfl rfl

theorem deposit_keeps {org : State} (c : Cmd) (bs : List Byte) (s : State) (hk : Keeps org s) : Keeps org (deposit c bs s) := by
  unfold deposit
  repeat' first
    | with_reducible assumption
    | with_reducible apply signalBuf_keeps
    | with_reducible apply writeIngest_keeps
    | (intro z; have hz : Keeps org z; on_goal 1 => (simp (zeta := false) only [z]))
    | intro z
    | lift_lets
    | split

theorem settleFences_keeps {org : State} (s : State) (hk : Keeps org s) : Keeps org (settleFences s) := by
  unfold settleFences
  repeat' first
    | with_reducible assumption
    | with_reducible apply applySignal_keeps
    | with_reducible apply complete_keeps
    | with_reducible apply unname_keeps
    | with_reducible refine keeps_foldl ?_ _ _ fun _ _ _ => ?_
    | (intro z; have hz : Keeps org z; on_goal 1 => (simp (zeta := false) only [z]))
    | intro z
    | lift_lets
    | split

theorem finishSealed_keeps {org : State} (h : Held) (bs : List Byte) (s : State) (hk : Keeps org s) : Keeps org (finishSealed h bs s) := by
  unfold finishSealed
  repeat' first
    | with_reducible assumption
    | with_reducible apply complete_keeps
    | with_reducible apply deposit_keeps
    | with_reducible apply secRaise_keeps
    | with_reducible apply writeIngest_keeps
    | with_reducible apply keeps_onSec
    | (intro z; have hz : Keeps org z; on_goal 1 => (simp (zeta := false) only [z]))
    | intro z
    | lift_lets
    | split

theorem execIngestTransferDone_keeps {org : State} (host : Fin 3) (res : IngestResult) (s : State) (hk : Keeps org s) : OutKeeps org (execIngestTransferDone host res s) := by
  unfold execIngestTransferDone
  repeat' first
    | with_reducible assumption
    | with_reducible apply out_next
    | with_reducible apply complete_keeps
    | with_reducible apply deposit_keeps
    | with_reducible apply finishSealed_keeps
    | with_reducible apply settleFences_keeps
    | with_reducible apply spoil_keeps
    | with_reducible apply unname_keeps
    | with_reducible apply keeps_onHif
    | (intro z; have hz : Keeps org z; on_goal 1 => (simp (zeta := false) only [z]))
    | intro z
    | lift_lets
    | split
    | with_reducible refine keeps_eq ?_ rfl rfl rfl rfl rfl

theorem execBar2Access_keeps {org : State} (h : Fin 2) (off : Nat) (acc : Bar2Access) (s : State) (hk : Keeps org s) : OutKeeps org (execBar2Access h off acc s) := by
  unfold execBar2Access
  repeat' first
    | with_reducible assumption
    | with_reducible apply out_next
    | with_reducible apply bufFetch_keeps
    | with_reducible apply bufStore_keeps
    | with_reducible apply cmpRaise_keeps
    | with_reducible apply hifRaise_keeps
    | with_reducible apply keeps_onHif
    | with_reducible apply keeps_onCmp
    | (intro z; have hz : Keeps org z; on_goal 1 => (simp (zeta := false) only [z]))
    | intro z
    | lift_lets
    | split

theorem setSlot_keeps {org : State} (i : Nat) (f : FlashSlot → FlashSlot) (s : State) (hk : Keeps org s) : Keeps org (setSlot i f s) := by
  unfold setSlot
  repeat' first
    | with_reducible assumption
    | with_reducible apply keeps_onMgt

theorem failSlot_keeps {org : State} (i : Nat) (s : State) (hk : Keeps org s) : Keeps org (failSlot i s) := by
  unfold failSlot
  repeat' first
    | with_reducible assumption
    | with_reducible apply mgtRaise_keeps
    | with_reducible apply setSlot_keeps
    | with_reducible apply keeps_onMgt
    | split

theorem endUpdateCmd_keeps {org : State} (s : State) (hk : Keeps org s) : Keeps org (endUpdateCmd s) := by
  unfold endUpdateCmd
  repeat' first
    | with_reducible assumption
    | with_reducible apply complete_keeps
    | with_reducible apply keeps_onMgt
    | split

theorem enterRecovery_keeps {org : State} (s : State) (hk : Keeps org s) : Keeps org (enterRecovery s) := by
  unfold enterRecovery
  repeat' first
    | with_reducible assumption
    | with_reducible apply endUpdateCmd_keeps
    | with_reducible apply pcieDown_keeps
    | with_reducible apply keeps_onHif
    | with_reducible apply keeps_onMgt
    | (intro z; have hz : Keeps org z; on_goal 1 => (simp (zeta := false) only [z]))
    | intro z
    | lift_lets
    | split

theorem offRails_keeps {org : State} (s : State) (hk : Keeps org s) : Keeps org (offRails s) := by
  unfold offRails
  repeat' first
    | with_reducible assumption
    | with_reducible apply keeps_onPwr
    | split

theorem enterRun_keeps {org : State} (s : State) (hk : Keeps org s) : Keeps org (enterRun s) := by
  unfold enterRun
  repeat' first
    | with_reducible assumption
    | with_reducible apply completeOpt_keeps
    | with_reducible apply dropSource_keeps
    | with_reducible apply endUpdateCmd_keeps
    | with_reducible apply flushFull_keeps
    | with_reducible apply offRails_keeps
    | with_reducible apply keeps_onMgt
    | (intro z; have hz : Keeps org z; on_goal 1 => (simp (zeta := false) only [z]))
    | intro z
    | lift_lets

theorem runSlotNow_keeps {org : State} (i : Nat) (s : State) (hk : Keeps org s) : Keeps org (runSlotNow i s) := by
  unfold runSlotNow
  repeat' first
    | with_reducible assumption
    | with_reducible apply enterRun_keeps
    | with_reducible apply logRec_keeps
    | with_reducible apply keeps_onMgt

theorem tryBoot_keeps {a : State} (l : List Nat) (s : State) (hk : Keeps a s) : Keeps a (tryBoot l s) := by
  induction l generalizing s with
  | nil => exact enterRecovery_keeps _ hk
  | cons i l ih => exact keeps_ite (runSlotNow_keeps _ _ hk) (ih _ (failSlot_keeps _ _ hk))

theorem coldBoot_keeps {org : State} (s : State) (hk : Keeps org s) : Keeps org (coldBoot s) := by
  unfold coldBoot
  repeat' first
    | with_reducible assumption
    | with_reducible apply enterRecovery_keeps
    | with_reducible apply tryBoot_keeps
    | with_reducible apply keeps_onMgt
    | (intro z; have hz : Keeps org z; on_goal 1 => (simp (zeta := false) only [z]))
    | intro z
    | lift_lets
    | split

theorem execBootImageVerify_keeps {org : State} (s : State) (hk : Keeps org s) : OutKeeps org (execBootImageVerify s) := by
  unfold execBootImageVerify
  repeat' first
    | with_reducible assumption
    | with_reducible apply out_next
    | with_reducible apply coldBoot_keeps
    | with_reducible apply enterRecovery_keeps
    | with_reducible apply failSlot_keeps
    | with_reducible apply runSlotNow_keeps
    | with_reducible apply keeps_onMgt
    | (intro z; have hz : Keeps org z; on_goal 1 => (simp (zeta := false) only [z]))
    | intro z
    | lift_lets
    | split

theorem reinit_keeps {org : State} (s : State) (hk : Keeps org s) : Keeps org (reinit s) := by
  unfold reinit
  repeat' first
    | with_reducible assumption
    | with_reducible apply keeps_onMgt
    | with_reducible apply keeps_onPwr
    | (intro z; have hz : Keeps org z; on_goal 1 => (simp (zeta := false) only [z]))
    | intro z
    | lift_lets
    | split

theorem lockstepError_keeps {org : State} (sram : Bool) (s : State) (hk : Keeps org s) : Keeps org (lockstepError sram s) := by
  unfold lockstepError
  repeat' first
    | with_reducible assumption
    | with_reducible apply logRec_keeps
    | with_reducible apply mgtRaise_keeps
    | with_reducible apply raiseSource_keeps
    | with_reducible apply reinit_keeps
    | with_reducible apply keeps_onMgt
    | (intro z; have hz : Keeps org z; on_goal 1 => (simp (zeta := false) only [z]))
    | intro z
    | lift_lets
    | omega
    | split

theorem execMgtLockstepError_keeps {org : State} (sram : Bool) (s : State) (hk : Keeps org s) : OutKeeps org (execMgtLockstepError sram s) := by
  unfold execMgtLockstepError
  repeat' first
    | with_reducible assumption
    | with_reducible apply out_next
    | with_reducible apply lockstepError_keeps

theorem execMgtWatchdog_keeps {org : State} (s : State) (hk : Keeps org s) : OutKeeps org (execMgtWatchdog s) := by
  unfold execMgtWatchdog
  repeat' first
    | with_reducible assumption
    | with_reducible apply out_next
    | with_reducible apply mgtRaise_keeps
    | with_reducible apply reinit_keeps
    | with_reducible apply keeps_onMgt
    | split

theorem execMgtRun_keeps {org : State} (s : State) (hk : Keeps org s) : OutKeeps org (execMgtRun s) := by
  unfold execMgtRun
  repeat' first
    | with_reducible assumption
    | with_reducible apply out_next
    | with_reducible apply enterRun_keeps
    | with_reducible apply reinit_keeps
    | split

theorem specMgtReinit_keeps : OpKeeps specMgtReinit where
  effect {org} h s hk := by
    unfold specMgtReinit
    repeat' first
      | with_reducible assumption
      | (dsimp (zeta := false) only)
      | with_reducible apply reinit_keeps
      | with_reducible apply keeps_onMgt
  apply _ _ hk := hk

theorem execMgtReinit_keeps {org : State} (cmd : Cmd) (s : State) (hk : Keeps org s) : OutKeeps org (execMgtReinit cmd s) :=
  out_next (accept_keeps _ _ _ specMgtReinit_keeps hk)

theorem specUpdateBegin_keeps : OpKeeps specUpdateBegin where
  effect {org} h s hk := by
    unfold specUpdateBegin
    repeat' first
      | with_reducible assumption
      | (dsimp (zeta := false) only)
      | with_reducible apply setSlot_keeps
      | with_reducible apply keeps_onMgt
      | (intro z; have hz : Keeps org z; on_goal 1 => (simp (zeta := false) only [z]))
      | intro z
      | lift_lets
  apply _ _ hk := hk

theorem specUpdateData_keeps : OpKeeps specUpdateData where
  effect {org} h s hk := by
    unfold specUpdateData
    repeat' first
      | with_reducible assumption
      | (dsimp (zeta := false) only)
      | with_reducible apply keeps_onMgt
  apply _ _ hk := hk

theorem specUpdateCommit_keeps : OpKeeps specUpdateCommit where
  effect {org} h s hk := by
    unfold specUpdateCommit
    repeat' first
      | with_reducible assumption
      | (dsimp (zeta := false) only)
      | with_reducible apply keeps_onMgt
  apply _ _ hk := hk

theorem execUpdateBegin_keeps {org : State} (cmd : Cmd) (s : State) (hk : Keeps org s) : OutKeeps org (execUpdateBegin cmd s) :=
  out_next (accept_keeps _ _ _ specUpdateBegin_keeps hk)

theorem execUpdateData_keeps {org : State} (cmd : Cmd) (s : State) (hk : Keeps org s) : OutKeeps org (execUpdateData cmd s) :=
  out_next (accept_keeps _ _ _ specUpdateData_keeps hk)

theorem execUpdateCommit_keeps {org : State} (cmd : Cmd) (s : State) (hk : Keeps org s) : OutKeeps org (execUpdateCommit cmd s) :=
  out_next (accept_keeps _ _ _ specUpdateCommit_keeps hk)

theorem execFlashEraseDone_keeps {org : State} (s : State) (hk : Keeps org s) : OutKeeps org (execFlashEraseDone s) := by
  unfold execFlashEraseDone
  repeat' first
    | with_reducible assumption
    | with_reducible apply out_next
    | with_reducible apply complete_keeps
    | with_reducible apply keeps_onMgt
    | split
    | with_reducible refine keeps_eq ?_ rfl rfl rfl rfl rfl

theorem execFlashWriteDone_keeps {org : State} (ok : Bool) (s : State) (hk : Keeps org s) : OutKeeps org (execFlashWriteDone ok s) := by
  unfold execFlashWriteDone
  repeat' first
    | with_reducible assumption
    | with_reducible apply out_next
    | with_reducible apply complete_keeps
    | with_reducible apply keeps_onMgt
    | (intro z; have hz : Keeps org z; on_goal 1 => (simp (zeta := false) only [z]))
    | intro z
    | lift_lets
    | split
    | with_reducible refine keeps_eq ?_ rfl rfl rfl rfl rfl

theorem execUpdateVerifyDone_keeps {a : State} (s : State) (hk : Keeps a s) : OutKeeps a (execUpdateVerifyDone s) := by
  unfold execUpdateVerifyDone
  refine out_next ?_
  rcases updating 0x0A03 s with _ | ⟨h, u⟩
  · exact hk
  · have h1 := logRec_keeps 20 5 0 0 _ (keeps_onMgt hk fun m => { m with update := none, updateCmd := none })
    exact keeps_ite
      (keeps_ite (runSlotNow_keeps _ _ (complete_keeps _ _ _ _ (setSlot_keeps _ _ _ (keeps_onMgt h1 _))))
        (complete_keeps _ _ _ _ (setSlot_keeps _ _ _ (keeps_onMgt h1 _))))
      (complete_keeps _ _ _ _ (mgtRaise_keeps _ _ (setSlot_keeps _ _ _ h1)))

theorem specMgtFuse_keeps : OpKeeps specMgtFuse where
  effect {org} h s hk := by
    unfold specMgtFuse
    repeat' first
      | with_reducible assumption
      | (dsimp (zeta := false) only)
      | with_reducible apply keeps_onMgt
      | (intro z; have hz : Keeps org z; on_goal 1 => (simp (zeta := false) only [z]))
      | intro z
      | lift_lets
      | split
  apply _ _ hk := hk

theorem execMgtFuseAdvance_keeps {org : State} (cmd : Cmd) (s : State) (hk : Keeps org s) : OutKeeps org (execMgtFuseAdvance cmd s) :=
  out_next (accept_keeps _ _ _ specMgtFuse_keeps hk)

theorem execMgtFuseRevoke_keeps {org : State} (cmd : Cmd) (s : State) (hk : Keeps org s) : OutKeeps org (execMgtFuseRevoke cmd s) :=
  out_next (accept_keeps _ _ _ specMgtFuse_keeps hk)

theorem execFuseBurnDone_keeps {org : State} (s : State) (hk : Keeps org s) : OutKeeps org (execFuseBurnDone s) := by
  unfold execFuseBurnDone
  repeat' first
    | with_reducible assumption
    | with_reducible apply out_next
    | with_reducible apply complete_keeps
    | with_reducible apply logRec_keeps
    | with_reducible apply keeps_onMgt
    | (intro z; have hz : Keeps org z; on_goal 1 => (simp (zeta := false) only [z]))
    | intro z
    | lift_lets
    | split

theorem specMgtBootcfgSet_keeps : OpKeeps specMgtBootcfgSet where
  effect {org} h s hk := by
    unfold specMgtBootcfgSet
    repeat' first
      | with_reducible assumption
      | (dsimp (zeta := false) only)
      | with_reducible apply keeps_onMgt
      | (intro z; have hz : Keeps org z; on_goal 1 => (simp (zeta := false) only [z]))
      | intro z
      | lift_lets
      | split
  apply _ _ hk := hk

theorem execMgtBootcfgSet_keeps {org : State} (cmd : Cmd) (s : State) (hk : Keeps org s) : OutKeeps org (execMgtBootcfgSet cmd s) :=
  out_next (accept_keeps _ _ _ specMgtBootcfgSet_keeps hk)

theorem execBootAllotment_keeps {a : State} (s : State) (hk : Keeps a s) : OutKeeps a (execBootAllotment s) := by
  unfold execBootAllotment
  refine out_next ?_
  rcases s.mgt.allotNow with _ | b
  · exact hk
  · refine keeps_ite hk ?_
    exact keeps_onHif (specLinkAllot_keeps.effect _ _ (journalAdd_keeps _ _ (keeps_onMgt hk _))) _

theorem specMgtRead_keeps : OpKeeps specMgtRead where
  effect {org} h s hk := by
    unfold specMgtRead
    repeat' first
      | with_reducible assumption
      | (dsimp (zeta := false) only)
      | with_reducible apply copyOut_keeps
  apply _ _ hk := hk

theorem execMgtRead_keeps {org : State} (cmd : Cmd) (s : State) (hk : Keeps org s) : OutKeeps org (execMgtRead cmd s) :=
  out_next (accept_keeps _ _ _ specMgtRead_keeps hk)

theorem specMgtFaultClear_keeps : OpKeeps specMgtFaultClear where
  effect {org} h s hk := by
    unfold specMgtFaultClear
    repeat' first
      | with_reducible assumption
      | (dsimp (zeta := false) only)
      | with_reducible apply keeps_onMgt
      | (intro z; have hz : Keeps org z; on_goal 1 => (simp (zeta := false) only [z]))
      | intro z
      | lift_lets
      | split
  apply _ _ hk := hk

theorem execMgtFaultClear_keeps {org : State} (cmd : Cmd) (s : State) (hk : Keeps org s) : OutKeeps org (execMgtFaultClear cmd s) :=
  out_next (accept_keeps _ _ _ specMgtFaultClear_keeps hk)

theorem execEventLogFlush_keeps {org : State} (s : State) (hk : Keeps org s) : OutKeeps org (execEventLogFlush s) := by
  unfold execEventLogFlush
  repeat' first
    | with_reducible assumption
    | with_reducible apply out_next
    | with_reducible apply flushLog_keeps
    | split

theorem seedDrbg_keeps {org : State} (s : State) (hk : Keeps org s) : Keeps org (seedDrbg s) := by
  unfold seedDrbg
  repeat' first
    | with_reducible assumption
    | with_reducible apply keeps_onSec

theorem drbgNext_keeps {a : State} (s : State) (hk : Keeps a s) : Keeps a (drbgNext s).2 := by
  have h : Keeps a (s.onSec fun x => { x with drbgState := Config.drbgStep x.drbgState, drbgReq := x.drbgReq + 1 }) := keeps_onSec hk _
  exact keeps_ite (seedDrbg_keeps _ h) h

theorem endServices_keeps {org : State} (s : State) (hk : Keeps org s) : Keeps org (endServices s) := by
  unfold endServices
  repeat' first
    | with_reducible assumption
    | with_reducible apply complete_keeps
    | with_reducible apply keeps_onSec
    | with_reducible refine keeps_foldl ?_ _ _ fun _ _ _ => ?_

theorem clearKeys_keeps {org : State} (s : State) (hk : Keeps org s) : Keeps org (clearKeys s) := by
  unfold clearKeys
  repeat' first
    | with_reducible assumption
    | with_reducible apply keeps_onSec

theorem fillProtected_keeps {org : State} (s : State) (hk : Keeps org s) : Keeps org (fillProtected s) := by
  unfold fillProtected
  repeat' first
    | with_reducible assumption
    | with_reducible apply wipeBuffers_keeps
    | with_reducible apply wipePictures_keeps

theorem loseProtected_keeps {org : State} (s : State) (hk : Keeps org s) : Keeps org (loseProtected s) := by
  unfold loseProtected
  repeat' first
    | with_reducible assumption
    | with_reducible apply memRaise_keeps
    | with_reducible apply sendEvent_keeps
    | with_reducible apply keeps_onCmp
    | with_reducible apply keeps_onMem
    | with_reducible refine keeps_foldl ?_ _ _ fun _ _ _ => ?_
    | (intro z; have hz : Keeps org z; on_goal 1 => (simp (zeta := false) only [z]))
    | intro z
    | lift_lets
    | split
    | with_reducible rfl
    | rfl

theorem zeroise_keeps {org : State} (s : State) (hk : Keeps org s) : Keeps org (zeroise s) := by
  unfold zeroise
  repeat' first
    | with_reducible assumption
    | with_reducible apply clearKeys_keeps
    | with_reducible apply endServices_keeps
    | with_reducible apply fillProtected_keeps
    | with_reducible apply loseProtected_keeps
    | with_reducible apply secRaise_keeps
    | with_reducible apply seedDrbg_keeps
    | with_reducible apply keeps_onSec
    | (intro z; have hz : Keeps org z; on_goal 1 => (simp (zeta := false) only [z]))
    | intro z
    | lift_lets
    | split

theorem tamper_keeps {org : State} (cause : Nat) (s : State) (hk : Keeps org s) : Keeps org (tamper cause s) := by
  unfold tamper
  repeat' first
    | with_reducible assumption
    | with_reducible apply logRec_keeps
    | with_reducible apply zeroise_keeps
    | with_reducible apply keeps_onMgt
    | with_reducible apply keeps_onSec
    | (intro z; have hz : Keeps org z; on_goal 1 => (simp (zeta := false) only [z]))
    | intro z
    | lift_lets
    | split

theorem secError_keeps {org : State} (cause : BitVec 2) (bit : BitVec 9) (s : State) (hk : Keeps org s) : Keeps org (secError cause bit s) := by
  unfold secError
  repeat' first
    | with_reducible assumption
    | with_reducible apply endServices_keeps
    | with_reducible apply secRaise_keeps
    | with_reducible apply keeps_onSec
    | split

theorem execEnclaveSelftestDone_keeps {org : State} (pass : Bool) (s : State) (hk : Keeps org s) : OutKeeps org (execEnclaveSelftestDone pass s) := by
  unfold execEnclaveSelftestDone
  repeat' first
    | with_reducible assumption
    | with_reducible apply out_next
    | with_reducible apply secError_keeps
    | with_reducible apply seedDrbg_keeps
    | with_reducible apply keeps_onSec
    | split

theorem execPeriodicSelftest_keeps {org : State} (pass : Bool) (s : State) (hk : Keeps org s) : OutKeeps org (execPeriodicSelftest pass s) := by
  unfold execPeriodicSelftest
  repeat' first
    | with_reducible assumption
    | with_reducible apply out_next
    | with_reducible apply secError_keeps
    | split

theorem execDrbgReseed_keeps {org : State} (s : State) (hk : Keeps org s) : OutKeeps org (execDrbgReseed s) := by
  unfold execDrbgReseed
  repeat' first
    | with_reducible assumption
    | with_reducible apply out_next
    | with_reducible apply seedDrbg_keeps
    | split

theorem execEntropyFailure_keeps {org : State} (s : State) (hk : Keeps org s) : OutKeeps org (execEntropyFailure s) := by
  unfold execEntropyFailure
  repeat' first
    | with_reducible assumption
    | with_reducible apply out_next
    | with_reducible apply secError_keeps
    | split

theorem specSecChallenge_keeps : OpKeeps specSecChallenge where
  effect {org} h s hk := by
    unfold specSecChallenge
    repeat' first
      | with_reducible assumption
      | (dsimp (zeta := false) only)
      | with_reducible apply drbgNext_keeps
      | with_reducible apply keeps_onSec
      | (intro z; have hz : Keeps org z; on_goal 1 => (simp (zeta := false) only [z]))
      | intro z
      | lift_lets
  apply _ _ hk := hk

theorem specSecLogin_keeps : OpKeeps specSecLogin where
  effect {org} h s hk := by
    unfold specSecLogin
    repeat' first
      | with_reducible assumption
      | (dsimp (zeta := false) only)
      | with_reducible apply secRaise_keeps
      | with_reducible apply keeps_onSec
      | (intro z; have hz : Keeps org z; on_goal 1 => (simp (zeta := false) only [z]))
      | intro z
      | lift_lets
      | split
  apply _ _ hk := hk

theorem execSecChallenge_keeps {org : State} (cmd : Cmd) (s : State) (hk : Keeps org s) : OutKeeps org (execSecChallenge cmd s) :=
  out_next (accept_keeps _ _ _ specSecChallenge_keeps hk)

theorem execSecLogin_keeps {org : State} (cmd : Cmd) (s : State) (hk : Keeps org s) : OutKeeps org (execSecLogin cmd s) :=
  out_next (accept_keeps _ _ _ specSecLogin_keeps hk)

theorem execNonceExpire_keeps {org : State} (h : Fin 3) (s : State) (hk : Keeps org s) : OutKeeps org (execNonceExpire h s) := by
  unfold execNonceExpire
  repeat' first
    | with_reducible assumption
    | with_reducible apply out_next
    | with_reducible apply keeps_onSec
    | split

theorem execLoginLockoutEnd_keeps {org : State} (h : Fin 3) (s : State) (hk : Keeps org s) : OutKeeps org (execLoginLockoutEnd h s) := by
  unfold execLoginLockoutEnd
  repeat' first
    | with_reducible assumption
    | with_reducible apply out_next
    | with_reducible apply keeps_onSec
    | split

theorem execKemContextExpire_keeps {org : State} (ctx : Fin 4) (s : State) (hk : Keeps org s) : OutKeeps org (execKemContextExpire ctx s) := by
  unfold execKemContextExpire
  repeat' first
    | with_reducible assumption
    | with_reducible apply out_next
    | with_reducible apply keeps_onSec
    | split

theorem specSecUserSet_keeps : OpKeeps specSecUserSet where
  effect {org} h s hk := by
    unfold specSecUserSet
    repeat' first
      | with_reducible assumption
      | (dsimp (zeta := false) only)
      | with_reducible apply keeps_onSec
      | (intro z; have hz : Keeps org z; on_goal 1 => (simp (zeta := false) only [z]))
      | intro z
      | lift_lets
      | split
  apply _ _ hk := hk

theorem specSecPolicySet_keeps : OpKeeps specSecPolicySet where
  effect {org} h s hk := by
    unfold specSecPolicySet
    repeat' first
      | with_reducible assumption
      | (dsimp (zeta := false) only)
      | with_reducible apply keeps_onSec
      | (intro z; have hz : Keeps org z; on_goal 1 => (simp (zeta := false) only [z]))
      | intro z
      | lift_lets
  apply _ _ hk := hk

theorem specSecMarkSet_keeps : OpKeeps specSecMarkSet where
  effect {org} h s hk := by
    unfold specSecMarkSet
    repeat' first
      | with_reducible assumption
      | (dsimp (zeta := false) only)
      | with_reducible apply keeps_onSec
      | (intro z; have hz : Keeps org z; on_goal 1 => (simp (zeta := false) only [z]))
      | intro z
      | lift_lets
  apply _ _ hk := hk

theorem boundaryMark_keeps {org : State} (s : State) (hk : Keeps org s) : Keeps org (boundaryMark s) := by
  unfold boundaryMark
  repeat' first
    | with_reducible assumption
    | with_reducible apply keeps_onSec
    | split

theorem execSecUserSet_keeps {org : State} (cmd : Cmd) (s : State) (hk : Keeps org s) : OutKeeps org (execSecUserSet cmd s) :=
  out_next (accept_keeps _ _ _ specSecUserSet_keeps hk)

theorem execSecPolicySet_keeps {org : State} (cmd : Cmd) (s : State) (hk : Keeps org s) : OutKeeps org (execSecPolicySet cmd s) :=
  out_next (accept_keeps _ _ _ specSecPolicySet_keeps hk)

theorem execSecMarkSet_keeps {org : State} (cmd : Cmd) (s : State) (hk : Keeps org s) : OutKeeps org (execSecMarkSet cmd s) :=
  out_next (accept_keeps _ _ _ specSecMarkSet_keeps hk)

theorem specSecKeyLoad_keeps : OpKeeps specSecKeyLoad where
  effect {org} h s hk := by
    unfold specSecKeyLoad
    repeat' first
      | with_reducible assumption
      | (dsimp (zeta := false) only)
      | with_reducible apply keeps_onSec
      | (intro z; have hz : Keeps org z; on_goal 1 => (simp (zeta := false) only [z]))
      | intro z
      | lift_lets
  apply _ _ hk := hk

theorem specSecKeyZero_keeps : OpKeeps specSecKeyZero where
  effect {org} h s hk := by
    unfold specSecKeyZero
    repeat' first
      | with_reducible assumption
      | (dsimp (zeta := false) only)
      | with_reducible apply keeps_onSec
  apply _ _ hk := hk

theorem execSecKeyLoad_keeps {org : State} (cmd : Cmd) (s : State) (hk : Keeps org s) : OutKeeps org (execSecKeyLoad cmd s) :=
  out_next (accept_keeps _ _ _ specSecKeyLoad_keeps hk)

theorem execSecKeyZero_keeps {org : State} (cmd : Cmd) (s : State) (hk : Keeps org s) : OutKeeps org (execSecKeyZero cmd s) :=
  out_next (accept_keeps _ _ _ specSecKeyZero_keeps hk)

theorem startService_keeps {a : State} (h : Held) (s : State) (hk : Keeps a s) : Keeps a (startService h s).st :=
  keeps_eq hk rfl rfl rfl rfl rfl

theorem specSecKemGen_keeps : OpKeeps specSecKemGen where
  effect {org} h s hk := by
    unfold specSecKemGen
    repeat' first
      | with_reducible assumption
      | (dsimp (zeta := false) only)
      | with_reducible apply startService_keeps
  apply _ _ hk := hk

theorem specSecQuote_keeps : OpKeeps specSecQuote where
  effect {org} h s hk := by
    unfold specSecQuote
    repeat' first
      | with_reducible assumption
      | (dsimp (zeta := false) only)
      | with_reducible apply startService_keeps
  apply _ _ hk := hk

theorem specSecSelftest_keeps : OpKeeps specSecSelftest where
  effect {org} h s hk := by
    unfold specSecSelftest
    repeat' first
      | with_reducible assumption
      | (dsimp (zeta := false) only)
      | with_reducible apply startService_keeps
  apply _ _ hk := hk

theorem specSecProvision_keeps : OpKeeps specSecProvision where
  effect {org} h s hk := by
    unfold specSecProvision
    repeat' first
      | with_reducible assumption
      | (dsimp (zeta := false) only)
      | with_reducible apply startService_keeps
  apply _ _ hk := hk

theorem execSecKemGen_keeps {org : State} (cmd : Cmd) (s : State) (hk : Keeps org s) : OutKeeps org (execSecKemGen cmd s) :=
  out_next (accept_keeps _ _ _ specSecKemGen_keeps hk)

theorem execSecQuote_keeps {org : State} (cmd : Cmd) (s : State) (hk : Keeps org s) : OutKeeps org (execSecQuote cmd s) :=
  out_next (accept_keeps _ _ _ specSecQuote_keeps hk)

theorem execSecSelftest_keeps {org : State} (cmd : Cmd) (s : State) (hk : Keeps org s) : OutKeeps org (execSecSelftest cmd s) :=
  out_next (accept_keeps _ _ _ specSecSelftest_keeps hk)

theorem execSecProvision_keeps {org : State} (cmd : Cmd) (s : State) (hk : Keeps org s) : OutKeeps org (execSecProvision cmd s) :=
  out_next (accept_keeps _ _ _ specSecProvision_keeps hk)

theorem toHost_keeps {org : State} (h : Held) (a : Nat) (bs : List Byte) (s : State) (hk : Keeps org s) : Keeps org (toHost h a bs s) := by
  unfold toHost
  repeat' first
    | with_reducible assumption
    | with_reducible apply keeps_onHif
    | split

theorem finishService_keeps {org : State} (h : Held) (s : State) (hk : Keeps org s) : Keeps org (finishService h s) := by
  unfold finishService
  repeat' first
    | with_reducible assumption
    | with_reducible apply complete_keeps
    | with_reducible apply drbgNext_keeps
    | with_reducible apply toHost_keeps
    | with_reducible apply keeps_onSec
    | (intro z; have hz : Keeps org z; on_goal 1 => (simp (zeta := false) only [z]))
    | intro z
    | lift_lets
    | split

theorem execEnclaveServiceDone_keeps {org : State} (res : ServiceResult) (s : State) (hk : Keeps org s) : OutKeeps org (execEnclaveServiceDone res s) := by
  unfold execEnclaveServiceDone
  repeat' first
    | with_reducible assumption
    | with_reducible apply out_next
    | with_reducible apply complete_keeps
    | with_reducible apply finishService_keeps
    | with_reducible apply secError_keeps
    | with_reducible apply keeps_onSec
    | (intro z; have hz : Keeps org z; on_goal 1 => (simp (zeta := false) only [z]))
    | intro z
    | lift_lets
    | split
    | with_reducible refine keeps_eq ?_ rfl rfl rfl rfl rfl

theorem resume_keeps {org : State} (s : State) (hk : Keeps org s) : Keeps org (resume s) := by
  unfold resume
  repeat' first
    | with_reducible assumption
    | with_reducible apply drbgNext_keeps
    | with_reducible apply keeps_onSec
    | (intro z; have hz : Keeps org z; on_goal 1 => (simp (zeta := false) only [z]))
    | intro z
    | lift_lets

theorem specSecZeroise_keeps : OpKeeps specSecZeroise where
  effect {org} h s hk := by
    unfold specSecZeroise
    repeat' first
      | with_reducible assumption
      | (dsimp (zeta := false) only)
      | with_reducible apply resume_keeps
      | with_reducible apply zeroise_keeps
      | (intro z; have hz : Keeps org z; on_goal 1 => (simp (zeta := false) only [z]))
      | intro z
      | lift_lets
      | split
  apply _ _ hk := hk

theorem execSecZeroise_keeps {org : State} (cmd : Cmd) (s : State) (hk : Keeps org s) : OutKeeps org (execSecZeroise cmd s) :=
  out_next (accept_keeps _ _ _ specSecZeroise_keeps hk)

theorem execTamperSample_keeps {org : State} (loop : Fin 4) (sense : Bool) (temp : Int) (s : State) (hk : Keeps org s) : OutKeeps org (execTamperSample loop sense temp s) := by
  unfold execTamperSample
  repeat' first
    | with_reducible assumption
    | with_reducible apply out_next
    | with_reducible apply tamper_keeps
    | with_reducible apply keeps_onSec
    | (intro z; have hz : Keeps org z; on_goal 1 => (simp (zeta := false) only [z]))
    | intro z
    | lift_lets
    | split

theorem execSupplyGlitch_keeps {org : State} (s : State) (hk : Keeps org s) : OutKeeps org (execSupplyGlitch s) := by
  unfold execSupplyGlitch
  repeat' first
    | with_reducible assumption
    | with_reducible apply out_next
    | with_reducible apply tamper_keeps
    | split

theorem execJtagInstruction_keeps {a : State} (ir : BitVec 8) (s : State) (hk : Keeps a s) :
    OutKeeps a (execJtagInstruction ir s) := by
  unfold execJtagInstruction
  refine out_next (keeps_ite hk ?_)
  have h1 : Keeps a { s with tapIr := ir } := keeps_eq hk rfl rfl rfl rfl rfl
  generalize ({ s with tapIr := ir } : State) = t at h1
  exact keeps_ite (keeps_onIll (keeps_onXcl (tamper_keeps _ _ h1) _ rfl rfl rfl) _) (keeps_onXcl h1 _ rfl rfl rfl)

theorem State.onRegion_keeps {org : State} (s : State) (r : Nat) (f : CalRegion → CalRegion) (hk : Keeps org s) : Keeps org (State.onRegion s r f) := by
  unfold State.onRegion
  repeat' first
    | with_reducible assumption
    | with_reducible apply keeps_onCal

theorem takeTheta_keeps {org : State} (r : Nat) (s : State) (hk : Keeps org s) : Keeps org (takeTheta r s) := by
  unfold takeTheta
  repeat' first
    | with_reducible assumption
    | with_reducible apply State.onRegion_keeps
    | with_reducible apply calRaise_keeps
    | split

theorem calStepRegion_keeps {org : State} (r : Nat) (s : State) (hk : Keeps org s) : Keeps org (calStepRegion r s) := by
  unfold calStepRegion
  repeat' first
    | with_reducible assumption
    | with_reducible apply State.onRegion_keeps
    | with_reducible apply calRaise_keeps
    | with_reducible apply takeTheta_keeps
    | with_reducible apply keeps_useFree
    | with_reducible apply keeps_onCal
    | (intro z; have hz : Keeps org z; on_goal 1 => (simp (zeta := false) only [z]))
    | intro z
    | lift_lets
    | split

theorem execCalStep_keeps {org : State} (k : Fin 5) (s : State) (hk : Keeps org s) : OutKeeps org (execCalStep k s) := by
  unfold execCalStep
  repeat' first
    | with_reducible assumption
    | with_reducible apply out_next
    | with_reducible apply calStepRegion_keeps
    | with_reducible apply keeps_onCal
    | with_reducible refine keeps_foldl ?_ _ _ fun _ _ _ => ?_
    | split

theorem storeResult_keeps {org : State} (r : Nat) (vals : List (Nat × Int)) (s : State) (hk : Keeps org s) : Keeps org (storeResult r vals s) := by
  unfold storeResult
  repeat' first
    | with_reducible assumption
    | with_reducible apply State.onRegion_keeps
    | with_reducible apply takeTheta_keeps
    | with_reducible apply keeps_onCal
    | (intro z; have hz : Keeps org z; on_goal 1 => (simp (zeta := false) only [z]))
    | intro z
    | lift_lets
    | split

theorem execOffsetWindow_keeps {org : State} (r : Fin 92) (dq : Fin 32) (ones : Nat) (s : State) (hk : Keeps org s) : OutKeeps org (execOffsetWindow r dq ones s) := by
  unfold execOffsetWindow
  repeat' first
    | with_reducible assumption
    | with_reducible apply out_next
    | with_reducible apply State.onRegion_keeps
    | with_reducible apply storeResult_keeps
    | (intro z; have hz : Keeps org z; on_goal 1 => (simp (zeta := false) only [z]))
    | intro z
    | lift_lets
    | split

theorem execEdgeSweepDone_keeps {org : State} (r : Fin 92) (dq : Fin 32) (counts : List Nat) (s : State) (hk : Keeps org s) : OutKeeps org (execEdgeSweepDone r dq counts s) := by
  unfold execEdgeSweepDone
  repeat' first
    | with_reducible assumption
    | with_reducible apply out_next
    | with_reducible apply storeResult_keeps
    | split

theorem execDarkWindow_keeps {org : State} (means : List Int) (s : State) (hk : Keeps org s) : OutKeeps org (execDarkWindow means s) := by
  unfold execDarkWindow
  repeat' first
    | with_reducible assumption
    | with_reducible apply out_next
    | with_reducible apply storeResult_keeps
    | with_reducible apply keeps_onCal
    | with_reducible refine keeps_foldl ?_ _ _ fun _ _ _ => ?_
    | (intro z; have hz : Keeps org z; on_goal 1 => (simp (zeta := false) only [z]))
    | intro z
    | lift_lets
    | split

theorem execRetrainDone_keeps {org : State} (pc : Fin 32) (found : Option (List Int)) (s : State) (hk : Keeps org s) : OutKeeps org (execRetrainDone pc found s) := by
  unfold execRetrainDone
  repeat' first
    | with_reducible assumption
    | with_reducible apply out_next
    | with_reducible apply retrainEnd_keeps
    | with_reducible apply storeResult_keeps
    | split

theorem bootSet_keeps {org : State} (n pc : Nat) (s : State) (hk : Keeps org s) : Keeps org (bootSet n pc s) := by
  unfold bootSet
  repeat' first
    | with_reducible assumption
    | with_reducible apply State.onRegion_keeps
    | with_reducible apply storeResult_keeps
    | (intro z; have hz : Keeps org z; on_goal 1 => (simp (zeta := false) only [z]))
    | intro z
    | lift_lets

theorem execBootTrainingDone_keeps {org : State} (working : BitVec 32) (s : State) (hk : Keeps org s) : OutKeeps org (execBootTrainingDone working s) := by
  unfold execBootTrainingDone
  repeat' first
    | with_reducible assumption
    | with_reducible apply out_next
    | with_reducible apply bootSet_keeps
    | with_reducible apply bootTrained_keeps
    | with_reducible apply keeps_useFree
    | with_reducible refine keeps_foldl ?_ _ _ fun _ _ _ => ?_
    | (intro z; have hz : Keeps org z; on_goal 1 => (simp (zeta := false) only [z]))
    | intro z
    | lift_lets
    | split

theorem freezeWrite_keeps {org : State} (r : Nat) (val : BitVec 32) (s : State) (hk : Keeps org s) : Keeps org (freezeWrite r val s) := by
  unfold freezeWrite
  repeat' first
    | with_reducible assumption
    | with_reducible apply State.onRegion_keeps
    | with_reducible apply startRetrain_keeps
    | (intro z; have hz : Keeps org z; on_goal 1 => (simp (zeta := false) only [z]))
    | intro z
    | lift_lets
    | split

theorem execFreezeWrite_keeps {org : State} (r : Fin 92) (val : BitVec 32) (s : State) (hk : Keeps org s) : OutKeeps org (execFreezeWrite r val s) := by
  unfold execFreezeWrite
  repeat' first
    | with_reducible assumption
    | with_reducible apply out_next
    | with_reducible apply freezeWrite_keeps
    | split

theorem calSetWrite_keeps {org : State} (r set word : Nat) (val : BitVec 32) (s : State) (hk : Keeps org s) : Keeps org (calSetWrite r set word val s) := by
  unfold calSetWrite
  repeat' first
    | with_reducible assumption
    | with_reducible apply State.onRegion_keeps
    | with_reducible apply calRaise_keeps
    | split

theorem execCalSetWrite_keeps {org : State} (r : Fin 92) (set : Fin 4) (word : Fin 28) (val : BitVec 32) (s : State) (hk : Keeps org s) : OutKeeps org (execCalSetWrite r set word val s) := by
  unfold execCalSetWrite
  repeat' first
    | with_reducible assumption
    | with_reducible apply out_next
    | with_reducible apply calSetWrite_keeps
    | split

theorem calClassWrite_keeps {org : State} (k : Nat) (val : BitVec 32) (s : State) (hk : Keeps org s) : Keeps org (calClassWrite k val s) := by
  unfold calClassWrite
  repeat' first
    | with_reducible assumption
    | with_reducible apply keeps_onCal

theorem execCalClassCtrlWrite_keeps {org : State} (k : Fin 5) (val : BitVec 32) (s : State) (hk : Keeps org s) : OutKeeps org (execCalClassCtrlWrite k val s) := by
  unfold execCalClassCtrlWrite
  repeat' first
    | with_reducible assumption
    | with_reducible apply out_next
    | with_reducible apply calClassWrite_keeps
    | split

end Sys2Proof.Machine
end

