-- ==== Sys2Proof/Laws/KeepsReset.lean ====
section
/-!
SUPPORT. The relation Keeps for the functions of Machine/Reset.lean.
-/
set_option linter.unusedTactic false
set_option linter.unreachableTactic false
set_option linter.unusedVariables false
namespace Sys2Proof.Machine

theorem KeepsInv.ite {a s t : State} {c : Prop} [Decidable c] (h : KeepsInv a s) (k : KeepsInv a t) :
    KeepsInv a (if c then s else t) := by
  split
  · exact h
  · exact k

/-- A state whose invariants hold whatever held before, but for the memories, which stay. -/
theorem keepsInv_reset {a s : State} (hp : s.pending = a.pending) (hm : Memory.wf a.mem = true → Memory.wf s.mem = true)
    (ht : rateInRange s.tim = true) (hx : safeAgrees s.xcl = true) : KeepsInv a s := ⟨hp, hm, fun _ => ht, fun _ => hx⟩

/-- The rate, the blank sources and the memories as they are kept by an update of other fields. -/
theorem keepsInv_eq {a s t : State} (h : KeepsInv a s) (hp : t.pending = s.pending) (hm : t.mem = s.mem)
    (ht : rateInRange t.tim = rateInRange s.tim) (hx : safeAgrees t.xcl = safeAgrees s.xcl) : KeepsInv a t :=
  h.trans ⟨hp, fun x => hm ▸ x, fun y => ht ▸ y, fun z => hx ▸ z⟩

theorem Xcl.warm_safe (x : Xcl) : safeAgrees x.warm = true := by
  have h : x.latch ||| 0x800#12 ≠ 0 := bit1_or x.latch (code := 11) (by omega)
  simp [safeAgrees, safeNow, Xcl.warm, h]

theorem warmState_keepsInv (s : State) : KeepsInv s (warmState s) := by
  unfold warmState
  refine KeepsInv.trans ?_ (pruneDoms_keeps (.refl _)).toKeepsInv
  exact keepsInv_reset rfl (fun h => by simpa [Mem.warm, Memory.wf] using h) rfl (Xcl.warm_safe _)

/-- A latched source stays latched over a warm reset (R238). -/
theorem warmState_latch (s : State) (k : Nat) (h : s.xcl.latch.getLsbD k = true) : (warmState s).xcl.latch.getLsbD k = true := by
  unfold warmState
  refine (pruneDoms_keeps (.refl _)).latch k ?_
  show (s.xcl.latch ||| 0x800 : BitVec 12).getLsbD k = true
  simp [h]

theorem coldState_keepsInv (s : State) : KeepsInv s (coldState s) :=
  keepsInv_reset rfl (fun _ => rfl) rfl rfl

theorem enterReset_keeps {org : State} (s : State) (hk : Keeps org s) : Keeps org (enterReset s) := by
  unfold enterReset
  repeat' first
    | with_reducible assumption
    | with_reducible apply ahmRaise_keeps
    | with_reducible apply endSession_keeps
    | with_reducible apply raiseSource_keeps
    | with_reducible apply strobe0_keeps
    | with_reducible apply keeps_onHif
    | with_reducible apply keeps_onMgt
    | with_reducible refine keeps_forN ?_ _ _ fun _ _ _ => ?_
    | with_reducible refine keeps_foldl ?_ _ _ fun _ _ _ => ?_
    | (intro z; have hz : Keeps org z; on_goal 1 => (simp (zeta := false) only [z]))
    | intro z
    | lift_lets
    | omega
    | split

theorem warmSteps_keeps (f : Buffer → Bool) (s : State) : Keeps s (wipePictures (wipeBuffers f (enterReset s))) :=
  wipePictures_keeps _ (wipeBuffers_keeps _ _ (enterReset_keeps _ (.refl s)))

theorem warmEnter_keepsInv {a : State} (s : State) (hk : KeepsInv a s) : KeepsInv a (warmEnter s) :=
  (hk.trans (warmSteps_keeps _ s).toKeepsInv).trans (warmState_keepsInv _)

theorem warmState_frame (s : State) : (warmState s).frame = s.frame := by
  unfold warmState
  exact (pruneDoms_keeps (.refl _)).frame

theorem warmEnter_frame (s : State) : (warmEnter s).frame = s.frame := by
  unfold warmEnter
  rw [warmState_frame]
  exact (warmSteps_keeps _ s).frame

theorem warmEnter_latch (s : State) (k : Nat) (h : s.xcl.latch.getLsbD k = true) : (warmEnter s).xcl.latch.getLsbD k = true :=
  warmState_latch _ k ((warmSteps_keeps _ s).latch k h)

theorem coldEnter_keepsInv {a : State} (s : State) (hk : KeepsInv a s) : KeepsInv a (coldEnter s) := by
  unfold coldEnter
  split
  · exact (hk.trans (enterReset_keeps _ (.refl s)).toKeepsInv).trans (coldState_keepsInv _)
  · exact hk.trans (coldState_keepsInv _)

theorem bumpEpochs_keeps {a : State} (s : State) (hk : Keeps a s) : Keeps a (bumpEpochs s) :=
  keeps_mk hk rfl rfl rfl rfl (fun _ => id) id

theorem clockResponse_keeps {org : State} (m : Nat) (s : State) (hk : Keeps org s) : Keeps org (clockResponse m s) := by
  unfold clockResponse
  repeat' first
    | with_reducible assumption
    | with_reducible apply engineClock_keeps
    | with_reducible apply fabricClockLost_keeps
    | with_reducible apply lockstepError_keeps
    | with_reducible apply pcieDown_keeps
    | with_reducible apply quadFault_keeps
    | with_reducible apply secError_keeps
    | with_reducible apply strobe_keeps
    | with_reducible apply timebaseFault_keeps
    | with_reducible apply keeps_onSeq
    | with_reducible apply keeps_onIll
    | split

theorem clockFault_keeps {org : State} (m : Nat) (s : State) (hk : Keeps org s) : Keeps org (clockFault m s) := by
  unfold clockFault
  repeat' first
    | with_reducible assumption
    | with_reducible apply clkRaise_keeps
    | with_reducible apply clockResponse_keeps
    | with_reducible apply raiseSource_keeps
    | with_reducible apply keeps_onMgt
    | (intro z; have hz : Keeps org z; on_goal 1 => (simp (zeta := false) only [z]))
    | intro z
    | lift_lets
    | omega
    | split

theorem exitClocks_keeps {org : State} (cold : Bool) (late : BitVec 16) (s : State) (hk : Keeps org s) : Keeps org (exitClocks cold late s) := by
  unfold exitClocks
  repeat' first
    | with_reducible assumption
    | with_reducible apply clockFault_keeps
    | with_reducible apply clockResponse_keeps
    | with_reducible apply raiseSource_keeps
    | with_reducible refine keeps_foldl ?_ _ _ fun _ _ _ => ?_
    | (intro z; have hz : Keeps org z; on_goal 1 => (simp (zeta := false) only [z]))
    | intro z
    | lift_lets
    | omega
    | split

theorem reseedDraws_keeps {org : State} (s : State) (hk : Keeps org s) : Keeps org (reseedDraws s) := by
  unfold reseedDraws
  repeat' first
    | with_reducible assumption
    | with_reducible apply keeps_onSec
    | with_reducible apply keeps_onMem
    | (intro z; have hz : Keeps org z; on_goal 1 => (simp (zeta := false) only [z]))
    | intro z
    | lift_lets
    | with_reducible rfl
    | rfl

/-- What a reset's exit does once its state is set keeps all of the relation. -/
theorem exitSteps_keeps {org : State} (cold : Bool) (d : Word) (late : BitVec 16) (s : State) (hk : Keeps org s) :
    Keeps org (
      let s := logRec 20 3 0 0 (journalAdd { kind := .reset, detail := d } s)
      let s := s.hif.resetEnds.foldl (fun s h => complete h .resetAborted 0 s) (s.onHif fun x => { x with resetEnds := [] })
      forN 4 checkStuck <| exitClocks cold late (followMarks (s.onMgt fun m => { m with clkLate := 0 }))) := by
  lift_lets
  intro s1 s2
  have h1 : Keeps org s1 := logRec_keeps _ _ _ _ _ (journalAdd_keeps _ _ hk)
  have h2 : Keeps org s2 := keeps_foldl (keeps_onHif h1 _) _ _ fun _ _ h => complete_keeps _ _ _ _ h
  exact keeps_forN (exitClocks_keeps _ _ _ (followMarks_keeps _ (keeps_onMgt h2 _))) _ _ fun _ _ h => checkStuck_keeps _ _ h

theorem ite_frame {c : Prop} [Decidable c] (s t : State) (f : BitVec 64) (h : s.frame = f) (k : t.frame = f) :
    (if c then s else t).frame = f := by
  split
  · exact h
  · exact k

theorem ite_latch {c : Prop} [Decidable c] (s t : State) (k : Nat) (h : s.xcl.latch.getLsbD k = true) (g : t.xcl.latch.getLsbD k = true) :
    (if c then s else t).xcl.latch.getLsbD k = true := by
  split
  · exact h
  · exact g

/-- The exit sets the state of a device out of reset, and what follows keeps all of the relation. -/
theorem exitReset_from (s : State) : ∃ u, KeepsInv s u ∧ (u.frame = if s.coldReset then 0 else s.frame) ∧
    (∀ k, s.xcl.latch.getLsbD k = true → u.xcl.latch.getLsbD k = true) ∧ Keeps u (exitReset s) := by
  unfold exitReset
  lift_lets
  intro cold late y s1 s2 s3 s4 s5
  have h1 : KeepsInv s s1 := keepsInv_eq (.refl s) rfl rfl rfl rfl
  have h2 : KeepsInv s s2 := KeepsInv.ite (h1.trans (keeps_onMgt (keeps_onHif (.refl _) _) _).toKeepsInv)
    (h1.trans (bumpEpochs_keeps _ (keeps_onMem (.refl _) _ rfl rfl rfl)).toKeepsInv)
  have f1 : s1.frame = if cold then 0 else s.frame := rfl
  have f2 : s2.frame = if cold then 0 else s.frame :=
    ite_frame _ _ _ f1 ((bumpEpochs_keeps _ (keeps_onMem (.refl s1) _ rfl rfl rfl)).frame.trans f1)
  refine ⟨s2, h2, f2, fun k h => ?_, exitSteps_keeps _ _ _ _ (reseedDraws_keeps _ (.refl s2))⟩
  have l1 : s1.xcl.latch.getLsbD k = true := h
  exact ite_latch _ _ k l1 ((bumpEpochs_keeps _ (keeps_onMem (.refl s1) _ rfl rfl rfl)).latch k l1)

theorem exitReset_keepsInv {a : State} (s : State) (hk : KeepsInv a s) : KeepsInv a (exitReset s) :=
  have ⟨_, h, _, _, k⟩ := exitReset_from s
  hk.trans (h.trans k.toKeepsInv)

theorem exitReset_frame (s : State) : (exitReset s).frame = if s.coldReset then 0 else s.frame :=
  have ⟨_, _, f, _, k⟩ := exitReset_from s
  k.frame.trans f

theorem exitReset_latch (s : State) (k : Nat) (h : s.xcl.latch.getLsbD k = true) : (exitReset s).xcl.latch.getLsbD k = true :=
  have ⟨_, _, _, l, e⟩ := exitReset_from s
  e.latch k (l k h)

theorem leaveReset_keepsInv {a : State} (s : State) (hk : KeepsInv a s) : KeepsInv a (if s.live then exitReset s else s) :=
  KeepsInv.ite (exitReset_keepsInv _ hk) hk

theorem execPorstNAssert_keepsInv {a t : State} (s : State) (hk : KeepsInv a s) (he : execPorstNAssert s = .next t) :
    KeepsInv a t := by
  cases he
  exact KeepsInv.ite hk (KeepsInv.ite (keepsInv_eq hk rfl rfl rfl rfl) (keepsInv_eq (coldEnter_keepsInv s hk) rfl rfl rfl rfl))

theorem execPorstNRelease_keepsInv {a t : State} (straps : BitVec 4) (s : State) (hk : KeepsInv a s)
    (he : execPorstNRelease straps s = .next t) : KeepsInv a t := by
  have h : KeepsInv a { s with porst := false, straps := straps } := keepsInv_eq hk rfl rfl rfl rfl
  have h' := leaveReset_keepsInv _ h
  unfold execPorstNRelease at he
  injection he with he
  rw [← he]
  exact KeepsInv.ite hk h'

theorem wrst_keepsInv {a : State} (u : State) (h : KeepsInv a u) : KeepsInv a { u with wrst := true } :=
  ⟨h.queue, h.mem, h.rate, h.safe⟩

theorem execWrstNAssert_keepsInv {a t : State} (s : State) (hk : KeepsInv a s) (he : execWrstNAssert s = .next t) :
    KeepsInv a t := by
  have h := warmEnter_keepsInv s hk
  have h' := wrst_keepsInv s hk
  rw [execWrstNAssert.eq_1] at he
  generalize warmEnter s = u at he h
  cases he
  exact KeepsInv.ite (wrst_keepsInv u h) h'

theorem execWrstNRelease_keepsInv {a t : State} (s : State) (hk : KeepsInv a s) (he : execWrstNRelease s = .next t) :
    KeepsInv a t := by
  have h : KeepsInv a { s with wrst := false } := keepsInv_eq hk rfl rfl rfl rfl
  have h' := leaveReset_keepsInv _ h
  unfold execWrstNRelease at he
  injection he with he
  rw [← he]
  exact KeepsInv.ite hk h'

end Sys2Proof.Machine
end

