-- ==== Sys2Proof/Laws/KeepsPower.lean ====
section
/-!
SUPPORT. The relation Keeps for the functions of Machine/Power.lean.
-/
set_option linter.unusedTactic false
set_option linter.unreachableTactic false
set_option linter.unusedVariables false
namespace Sys2Proof.Machine

theorem powerUpEnclave_keeps {org : State} (s : State) (hk : Keeps org s) : Keeps org (powerUpEnclave s) := by
  unfold powerUpEnclave
  repeat' first
    | with_reducible assumption
    | with_reducible apply logRec_keeps
    | with_reducible apply secRaise_keeps
    | with_reducible apply tamper_keeps
    | with_reducible apply keeps_onMgt
    | with_reducible apply keeps_onSec
    | (intro z; have hz : Keeps org z; on_goal 1 => (simp (zeta := false) only [z]))
    | intro z
    | lift_lets
    | split

theorem uvlo_keeps {org : State} (s : State) (hk : Keeps org s) (p) : Keeps org { s with powered := true, porst := true, pwr := p } :=
  keeps_eq hk rfl rfl rfl rfl rfl

theorem execUvloRising_keeps {org : State} (mv : BitVec 16) (s : State) (hk : Keeps org s) : OutKeeps org (execUvloRising mv s) := by
  have h (p) := powerUpEnclave_keeps _ (uvlo_keeps s hk p)
  rw [execUvloRising.eq_1]
  exact out_next (keeps_ite hk (h _))

theorem execUvloFalling_keepsInv {a t : State} (mv : BitVec 16) (s : State) (hk : KeepsInv a s)
    (he : execUvloFalling mv s = .next t) : KeepsInv a t := by
  have h := hk.trans (coldState_keepsInv s)
  rw [execUvloFalling.eq_1] at he
  obtain rfl := Host.Outcome.next.inj he
  refine KeepsInv.ite hk ?_
  generalize coldState s = u at h
  exact ⟨h.queue, h.mem, h.rate, fun x => by simpa [safeAgrees, safeNow] using h.safe x⟩

theorem execVinHigh_keeps {org : State} (mv : BitVec 16) (s : State) (hk : Keeps org s) : OutKeeps org (execVinHigh mv s) := by
  unfold execVinHigh
  repeat' first
    | with_reducible assumption
    | with_reducible apply out_next
    | with_reducible apply pwrRaise_keeps
    | with_reducible apply keeps_onPwr
    | split

theorem persistAll_keeps {org : State} (s : State) (hk : Keeps org s) : Keeps org (persistAll s) := by
  unfold persistAll
  repeat' first
    | with_reducible assumption
    | with_reducible apply flushReplies_keeps
    | with_reducible apply keeps_onHif
    | split

theorem execVinLow_keeps {org : State} (mv : BitVec 16) (s : State) (hk : Keeps org s) : OutKeeps org (execVinLow mv s) := by
  unfold execVinLow
  repeat' first
    | with_reducible assumption
    | with_reducible apply out_next
    | with_reducible apply flushLog_keeps
    | with_reducible apply persistAll_keeps
    | with_reducible apply pwrRaise_keeps
    | with_reducible apply keeps_onPwr
    | (intro z; have hz : Keeps org z; on_goal 1 => (simp (zeta := false) only [z]))
    | intro z
    | lift_lets
    | split

theorem execVbatLow_keeps {org : State} (s : State) (hk : Keeps org s) : OutKeeps org (execVbatLow s) := by
  unfold execVbatLow
  repeat' first
    | with_reducible assumption
    | with_reducible apply out_next
    | with_reducible apply pwrRaise_keeps
    | with_reducible apply keeps_onSec
    | with_reducible apply keeps_onPwr
    | (intro z; have hz : Keeps org z; on_goal 1 => (simp (zeta := false) only [z]))
    | intro z
    | lift_lets
    | split

theorem execRailSeqStep_keepsInv {a t : State} (s : State) (hk : KeepsInv a s) (he : execRailSeqStep s = .next t) :
    KeepsInv a t := by
  have h (f) : KeepsInv a (s.onPwr f) := hk.trans (keeps_onPwr (.refl s) f).toKeepsInv
  have h' (f) := exitReset_keepsInv _ (h f)
  rw [execRailSeqStep.eq_1] at he
  simp only [Host.Outcome.next.injEq] at he
  rw [← he]
  exact KeepsInv.ite hk (KeepsInv.ite (h' _) (h _))

theorem execRailSeqTimeout_keeps {org : State} (s : State) (hk : Keeps org s) : OutKeeps org (execRailSeqTimeout s) := by
  unfold execRailSeqTimeout
  repeat' first
    | with_reducible assumption
    | with_reducible apply out_next
    | with_reducible apply pruneDoms_keeps
    | with_reducible apply pwrRaise_keeps
    | with_reducible apply keeps_onPwr
    | split

theorem execRailSeqRetry_keeps {org : State} (s : State) (hk : Keeps org s) : OutKeeps org (execRailSeqRetry s) := by
  unfold execRailSeqRetry
  repeat' first
    | with_reducible assumption
    | with_reducible apply out_next
    | with_reducible apply keeps_onPwr
    | split

theorem loseMemory_keeps {org : State} (s : State) (hk : Keeps org s) : Keeps org (loseMemory s) := by
  unfold loseMemory
  lift_lets
  intro s1 s2 s3 s4
  have h1 : Keeps org s1 := keeps_foldl hk _ _ fun s _ h => sendEvent_keeps _ _ _ _ _ (keeps_onMem h _ rfl rfl rfl)
  clear_value s1
  have h2 : Keeps org s2 := keeps_ite h1 (memRaise_keeps _ _ h1)
  clear_value s2
  have h3 : Keeps org s3 := keeps_onCmp h2 _
  clear_value s3
  have h4 : Keeps org s4 := keeps_ite (keeps_onMgt h3 _) h3
  clear_value s4
  exact keeps_onMemWf (keeps_onXcl h4 _ rfl rfl rfl) _ fun _ => rfl

theorem railsOff_keepsInv {a : State} (u : State) (h : KeepsInv a u) (c p) : KeepsInv a (pruneDoms { u with cal := c, pwr := p }) :=
  KeepsInv.trans (b := { u with cal := c, pwr := p }) ⟨h.queue, h.mem, h.rate, h.safe⟩ (pruneDoms_keeps (.refl _)).toKeepsInv

theorem execPgoodFall_keepsInv {a t : State} (i : Fin 4) (s : State) (hk : KeepsInv a s) (he : execPgoodFall i s = .next t) :
    KeepsInv a t := by
  have h (f) : KeepsInv a (pwrRaise 0x20 (s.onPwr f)) := hk.trans (pwrRaise_keeps _ _ (keeps_onPwr (.refl s) f)).toKeepsInv
  have h' (f) := KeepsInv.ite (c := i.val = 3) ((h f).trans (loseMemory_keeps _ (.refl _)).toKeepsInv) (h f)
  rw [execPgoodFall.eq_1] at he
  simp only [Host.Outcome.next.injEq] at he
  rw [← he]
  refine KeepsInv.ite hk (KeepsInv.ite ?_ (railsOff_keepsInv _ (KeepsInv.ite (warmEnter_keepsInv _ (h' _)) (h' _)) _ _))
  exact KeepsInv.ite (hk.trans (loseMemory_keeps _ (.refl _)).toKeepsInv) hk

theorem execAvsUpdate_keeps {org : State} (readback : Nat) (s : State) (hk : Keeps org s) : OutKeeps org (execAvsUpdate readback s) := by
  unfold execAvsUpdate
  repeat' first
    | with_reducible assumption
    | with_reducible apply out_next
    | with_reducible apply pwrRaise_keeps
    | with_reducible apply keeps_onPwr
    | (intro z; have hz : Keeps org z; on_goal 1 => (simp (zeta := false) only [z]))
    | intro z
    | lift_lets
    | split

theorem execPmbusItemPoll_keeps {org : State} (i : Fin 32) (raw : Option (BitVec 16)) (voutMode : BitVec 8) (s : State) (hk : Keeps org s) : OutKeeps org (execPmbusItemPoll i raw voutMode s) := by
  unfold execPmbusItemPoll
  repeat' first
    | with_reducible assumption
    | with_reducible apply out_next
    | with_reducible apply pwrRaise_keeps
    | with_reducible apply keeps_useFree
    | with_reducible apply keeps_onPwr
    | (intro z; have hz : Keeps org z; on_goal 1 => (simp (zeta := false) only [z]))
    | intro z
    | lift_lets
    | split

theorem execPmbusAlert_keeps {org : State} (words : List (BitVec 16)) (s : State) (hk : Keeps org s) : OutKeeps org (execPmbusAlert words s) := by
  unfold execPmbusAlert
  repeat' first
    | with_reducible assumption
    | with_reducible apply out_next
    | with_reducible apply pwrRaise_keeps
    | with_reducible apply keeps_onPwr
    | split

theorem execDomainSwitchOn_keeps {org : State} (s : State) (hk : Keeps org s) : OutKeeps org (execDomainSwitchOn s) := by
  unfold execDomainSwitchOn
  repeat' first
    | with_reducible assumption
    | with_reducible apply out_next
    | with_reducible apply keeps_useFree
    | with_reducible apply keeps_onPwr
    | with_reducible refine keeps_foldl ?_ _ _ fun _ _ _ => ?_
    | (intro z; have hz : Keeps org z; on_goal 1 => (simp (zeta := false) only [z]))
    | intro z
    | lift_lets
    | split
    | with_reducible refine keeps_eq ?_ rfl rfl rfl rfl rfl

theorem readSensor_keeps {org : State} (r : List (Option Int)) (n : Nat) (s : State) (hk : Keeps org s) : Keeps org (readSensor r n s) := by
  unfold readSensor
  repeat' first
    | with_reducible assumption
    | with_reducible apply thmRaise_keeps
    | with_reducible apply keeps_onThm
    | (intro z; have hz : Keeps org z; on_goal 1 => (simp (zeta := false) only [z]))
    | intro z
    | lift_lets
    | split

theorem takeHottest_keeps {org : State} (s : State) (hk : Keeps org s) : Keeps org (takeHottest s) := by
  unfold takeHottest
  lift_lets
  intro z; clear_value z; rcases z with _ | ⟨n, ns⟩
  · exact hk
  · exact keeps_onThm hk _

theorem checkGradient_keeps {org : State} (s : State) (hk : Keeps org s) : Keeps org (checkGradient s) := by
  unfold checkGradient
  lift_lets
  intro z; clear_value z; rcases z with _ | ⟨n, ns⟩
  · exact hk
  · exact thmRaise_keeps _ _ (keeps_useFree (keeps_onThm hk _))

theorem followWarn_keeps {org : State} (s : State) (hk : Keeps org s) : Keeps org (followWarn s) := by
  unfold followWarn
  repeat' first
    | with_reducible assumption
    | with_reducible apply thmRaise_keeps
    | with_reducible apply keeps_onThm
    | (intro z; have hz : Keeps org z; on_goal 1 => (simp (zeta := false) only [z]))
    | intro z
    | lift_lets
    | split

theorem followThrottle_keeps {org : State} (s : State) (hk : Keeps org s) : Keeps org (followThrottle s) := by
  unfold followThrottle
  repeat' first
    | with_reducible assumption
    | with_reducible apply recomputeAll_keeps
    | with_reducible apply keeps_onThm

theorem darkPort_keeps {org : State} (p : Nat) (s : State) (hk : Keeps org s) : Keeps org (darkPort p s) := by
  unfold darkPort
  repeat' first
    | with_reducible assumption
    | with_reducible apply completeOpt_keeps
    | with_reducible apply keeps_onPort
    | (intro z; have hz : Keeps org z; on_goal 1 => (simp (zeta := false) only [z]))
    | intro z
    | lift_lets
    | split

theorem stopPicture_keeps {org : State} (s : State) (hk : Keeps org s) : Keeps org (stopPicture s) := by
  unfold stopPicture
  repeat' first
    | with_reducible assumption
    | with_reducible apply clustersOff_keeps
    | with_reducible apply darkPort_keeps
    | with_reducible apply dropAllFrames_keeps
    | with_reducible apply pipesOff_keeps
    | with_reducible apply pruneDoms_keeps
    | with_reducible apply retarget_keeps
    | with_reducible apply settleBinds_keeps
    | with_reducible apply strobe_keeps
    | with_reducible apply sweepBuffers_keeps
    | with_reducible apply keeps_onSlc
    | with_reducible refine keeps_forN ?_ _ _ fun _ _ _ => ?_
    | (intro z; have hz : Keeps org z; on_goal 1 => (simp (zeta := false) only [z]))
    | intro z
    | lift_lets

theorem parkPort_keeps {org : State} (p : Nat) (s : State) (hk : Keeps org s) : Keeps org (parkPort p s) := by
  unfold parkPort
  repeat' first
    | with_reducible assumption
    | with_reducible apply abortScan_keeps
    | with_reducible apply sendCtrl_keeps
    | with_reducible apply keeps_onArr
    | (intro z; have hz : Keeps org z; on_goal 1 => (simp (zeta := false) only [z]))
    | intro z
    | lift_lets
    | split

theorem shutDown_keeps {org : State} (count : Bool) (s : State) (hk : Keeps org s) : Keeps org (shutDown count s) := by
  unfold shutDown
  repeat' first
    | with_reducible assumption
    | with_reducible apply enterSelfRefresh_keeps
    | with_reducible apply parkPort_keeps
    | with_reducible apply raiseSource_keeps
    | with_reducible apply stopPicture_keeps
    | with_reducible apply thmRaise_keeps
    | with_reducible apply keeps_onMgt
    | with_reducible apply keeps_onThm
    | with_reducible refine keeps_forN ?_ _ _ fun _ _ _ => ?_
    | (intro z; have hz : Keeps org z; on_goal 1 => (simp (zeta := false) only [z]))
    | intro z
    | lift_lets
    | omega
    | split

theorem followPeak_keeps {org : State} (s : State) (hk : Keeps org s) : Keeps org (followPeak s) := by
  unfold followPeak
  repeat' first
    | with_reducible assumption
    | with_reducible apply keeps_onMgt
    | split

theorem followShutdown_keeps {org : State} (s : State) (hk : Keeps org s) : Keeps org (followShutdown s) := by
  unfold followShutdown
  repeat' first
    | with_reducible assumption
    | with_reducible apply followPeak_keeps
    | with_reducible apply shutDown_keeps
    | with_reducible apply keeps_onThm
    | (intro z; have hz : Keeps org z; on_goal 1 => (simp (zeta := false) only [z]))
    | intro z
    | lift_lets
    | split

theorem followCool_keeps {org : State} (s : State) (hk : Keeps org s) : Keeps org (followCool s) := by
  unfold followCool
  repeat' first
    | with_reducible assumption
    | with_reducible apply keeps_onThm
    | split

theorem execThermalSample_keeps {org : State} (readings : List (Option Int)) (s : State) (hk : Keeps org s) : OutKeeps org (execThermalSample readings s) := by
  unfold execThermalSample
  repeat' first
    | with_reducible assumption
    | with_reducible apply out_next
    | with_reducible apply checkGradient_keeps
    | with_reducible apply followCool_keeps
    | with_reducible apply followShutdown_keeps
    | with_reducible apply followThrottle_keeps
    | with_reducible apply followWarn_keeps
    | with_reducible apply readSensor_keeps
    | with_reducible apply takeHottest_keeps
    | with_reducible apply keeps_onThm
    | with_reducible refine keeps_forN ?_ _ _ fun _ _ _ => ?_
    | (intro z; have hz : Keeps org z; on_goal 1 => (simp (zeta := false) only [z]))
    | intro z
    | lift_lets
    | split

theorem execShutdownRestart_keeps {org : State} (s : State) (hk : Keeps org s) : OutKeeps org (execShutdownRestart s) := by
  unfold execShutdownRestart
  repeat' first
    | with_reducible assumption
    | with_reducible apply out_next
    | with_reducible apply dropSource_keeps
    | with_reducible apply thmRaise_keeps
    | with_reducible apply keeps_onThm
    | split

theorem heldResponse_keeps {org : State} (m : Nat) (s : State) (hk : Keeps org s) : Keeps org (heldResponse m s) := by
  unfold heldResponse
  repeat' first
    | with_reducible assumption
    | with_reducible apply engineClock_keeps
    | with_reducible apply fabricClockLost_keeps
    | with_reducible apply pcieDown_keeps
    | with_reducible apply quadFault_keeps
    | with_reducible apply secRaise_keeps
    | split

theorem execClockMonitorFault_keeps {org : State} (m : Fin 16) (s : State) (hk : Keeps org s) : OutKeeps org (execClockMonitorFault m s) := by
  unfold execClockMonitorFault
  repeat' first
    | with_reducible assumption
    | with_reducible apply out_next
    | with_reducible apply clkRaise_keeps
    | with_reducible apply clockFault_keeps
    | with_reducible apply heldResponse_keeps
    | with_reducible apply raiseSource_keeps
    | with_reducible apply keeps_onMgt
    | (intro z; have hz : Keeps org z; on_goal 1 => (simp (zeta := false) only [z]))
    | intro z
    | lift_lets
    | omega
    | split

theorem execClockMonitorGood_keeps {org : State} (m : Fin 16) (s : State) (hk : Keeps org s) : OutKeeps org (execClockMonitorGood m s) := by
  unfold execClockMonitorGood
  repeat' first
    | with_reducible assumption
    | with_reducible apply out_next
    | with_reducible apply dropSource_keeps
    | with_reducible apply engineClock_keeps
    | with_reducible apply fabricClockGood_keeps
    | with_reducible apply quadGood_keeps
    | with_reducible apply keeps_onMgt
    | (intro z; have hz : Keeps org z; on_goal 1 => (simp (zeta := false) only [z]))
    | intro z
    | lift_lets
    | split

theorem specPwrItemSet_keeps : OpKeeps specPwrItemSet where
  effect {org} h s hk := by
    unfold specPwrItemSet
    repeat' first
      | with_reducible assumption
      | (dsimp (zeta := false) only)
      | with_reducible apply keeps_onPwr
      | (intro z; have hz : Keeps org z; on_goal 1 => (simp (zeta := false) only [z]))
      | intro z
      | lift_lets
      | split
  apply _ _ hk := hk

theorem specThmSet_keeps : OpKeeps specThmSet where
  effect {org} h s hk := by
    unfold specThmSet
    repeat' first
      | with_reducible assumption
      | (dsimp (zeta := false) only)
      | with_reducible apply keeps_onPwr
      | with_reducible apply keeps_onThm
      | (intro z; have hz : Keeps org z; on_goal 1 => (simp (zeta := false) only [z]))
      | intro z
      | lift_lets
  apply _ _ hk := hk

theorem standbyEnter_keeps {org : State} (s : State) (hk : Keeps org s) : Keeps org (standbyEnter s) := by
  unfold standbyEnter
  repeat' first
    | with_reducible assumption
    | with_reducible apply clearKeys_keeps
    | with_reducible apply clustersOff_keeps
    | with_reducible apply dropAllFrames_keeps
    | with_reducible apply endServices_keeps
    | with_reducible apply engineOff_keeps
    | with_reducible apply enterSelfRefresh_keeps
    | with_reducible apply leaveReady_keeps
    | with_reducible apply pcieDown_keeps
    | with_reducible apply pipesOff_keeps
    | with_reducible apply pruneDoms_keeps
    | with_reducible apply settleBinds_keeps
    | with_reducible apply sweepBuffers_keeps
    | with_reducible apply toIdle_keeps
    | with_reducible apply keeps_onHif
    | with_reducible apply keeps_onSlc
    | with_reducible apply keeps_onPwr
    | with_reducible apply keeps_onOctet
    | with_reducible refine keeps_forN ?_ _ _ fun _ _ _ => ?_
    | (intro z; have hz : Keeps org z; on_goal 1 => (simp (zeta := false) only [z]))
    | intro z
    | lift_lets
    | split

theorem standbyExit_keeps {org : State} (s : State) (hk : Keeps org s) : Keeps org (standbyExit s) := by
  have h : Keeps org (s.onPwr fun p => { p with exitNs := s.ns }) := keeps_onPwr hk _
  unfold standbyExit
  lift_lets
  intro t
  change Keeps org t at h
  clear_value t
  split
  · exact h.trans ⟨⟨rfl, id, id, id⟩, rfl, fun _ => id⟩
  · exact h

theorem specPwrStandby_keeps : OpKeeps specPwrStandby where
  effect {org} h s hk := by
    unfold specPwrStandby
    repeat' first
      | with_reducible assumption
      | (dsimp (zeta := false) only)
      | with_reducible apply standbyEnter_keeps
      | with_reducible apply standbyExit_keeps
      | with_reducible apply keeps_onPwr
      | (intro z; have hz : Keeps org z; on_goal 1 => (simp (zeta := false) only [z]))
      | intro z
      | lift_lets
      | split
  apply _ _ hk := hk

theorem settleStandby_keeps {org : State} (s : State) (hk : Keeps org s) : Keeps org (settleStandby s) := by
  unfold settleStandby
  repeat' first
    | with_reducible assumption
    | with_reducible apply complete_keeps
    | with_reducible apply keeps_onPwr
    | split

theorem execStandbyExitTimeout_keeps {org : State} (s : State) (hk : Keeps org s) : OutKeeps org (execStandbyExitTimeout s) := by
  unfold execStandbyExitTimeout
  repeat' first
    | with_reducible assumption
    | with_reducible apply out_next
    | with_reducible apply complete_keeps
    | with_reducible apply keeps_onPwr
    | split

theorem execPwrItemSet_keeps {org : State} (cmd : Cmd) (s : State) (hk : Keeps org s) : OutKeeps org (execPwrItemSet cmd s) :=
  out_next (accept_keeps _ _ _ specPwrItemSet_keeps hk)

theorem execThmSet_keeps {org : State} (cmd : Cmd) (s : State) (hk : Keeps org s) : OutKeeps org (execThmSet cmd s) :=
  out_next (accept_keeps _ _ _ specThmSet_keeps hk)

theorem execPwrStandbyEnter_keeps {org : State} (cmd : Cmd) (s : State) (hk : Keeps org s) : OutKeeps org (execPwrStandbyEnter cmd s) :=
  out_next (accept_keeps _ _ _ specPwrStandby_keeps hk)

theorem execPwrStandbyExit_keeps {org : State} (cmd : Cmd) (s : State) (hk : Keeps org s) : OutKeeps org (execPwrStandbyExit cmd s) :=
  out_next (accept_keeps _ _ _ specPwrStandby_keeps hk)

end Sys2Proof.Machine
end

