-- ==== Sys2Proof/Laws/KeepsSlots.lean ====
section
/-!
SUPPORT. The relation Keeps for the functions of Machine/Slots.lean.
-/
set_option linter.unusedTactic false
set_option linter.unreachableTactic false
set_option linter.unusedVariables false
namespace Sys2Proof.Machine

theorem lightBack_keeps {org : State} (p : Nat) (s : State) (hk : Keeps org s) : Keeps org (lightBack p s) := by
  unfold lightBack
  repeat' first
    | with_reducible assumption
    | with_reducible apply keeps_onArr
    | split

theorem armHold_keeps {org : State} (p : Nat) (r : HoldReq) (s : State) (hk : Keeps org s) : Keeps org (armHold p r s) := by
  unfold armHold
  repeat' first
    | with_reducible assumption
    | with_reducible apply keeps_onPort
    | (intro z; have hz : Keeps org z; on_goal 1 => (simp (zeta := false) only [z]))
    | intro z
    | lift_lets

theorem framingStops_keeps {org : State} (p : Nat) (s : State) (hk : Keeps org s) : Keeps org (framingStops p s) := by
  unfold framingStops
  repeat' first
    | with_reducible assumption
    | with_reducible apply keeps_onLink

theorem beginHold_keeps {org : State} (p : Nat) (s : State) (hk : Keeps org s) : Keeps org (beginHold p s) := by
  unfold beginHold
  repeat' first
    | with_reducible assumption
    | with_reducible apply askReload_keeps
    | with_reducible apply completeOpt_keeps
    | with_reducible apply countCodes_keeps
    | with_reducible apply emptyStore_keeps
    | with_reducible apply framingStops_keeps
    | with_reducible apply stopFabric_keeps
    | with_reducible apply takeAll_keeps
    | with_reducible apply keeps_raise
    | with_reducible apply keeps_onPort
    | with_reducible refine keeps_forN ?_ _ _ fun _ _ _ => ?_
    | (intro z; have hz : Keeps org z; on_goal 1 => (simp (zeta := false) only [z]))
    | intro z
    | lift_lets
    | split

theorem takeRequest_keeps {org : State} (p : Nat) (s : State) (hk : Keeps org s) : Keeps org (takeRequest p s) := by
  unfold takeRequest
  repeat' first
    | with_reducible assumption
    | with_reducible apply completeOpt_keeps
    | with_reducible apply countCodes_keeps
    | with_reducible apply keeps_onPort
    | (intro z; have hz : Keeps org z; on_goal 1 => (simp (zeta := false) only [z]))
    | intro z
    | lift_lets
    | split

theorem startReload_keeps {org : State} (p : Nat) (s : State) (hk : Keeps org s) : Keeps org (startReload p s) := by
  unfold startReload
  repeat' first
    | with_reducible assumption
    | with_reducible apply resumeLink_keeps
    | with_reducible apply wakeMemory_keeps
    | with_reducible apply keeps_onPort
    | (intro z; have hz : Keeps org z; on_goal 1 => (simp (zeta := false) only [z]))
    | intro z
    | lift_lets
    | split

theorem endReload_keeps {org : State} (p : Nat) (s : State) (hk : Keeps org s) : Keeps org (endReload p s) := by
  unfold endReload
  repeat' first
    | with_reducible assumption
    | with_reducible apply framingStops_keeps
    | with_reducible apply takeRequest_keeps
    | with_reducible apply keeps_onPort
    | (intro z; have hz : Keeps org z; on_goal 1 => (simp (zeta := false) only [z]))
    | intro z
    | lift_lets
    | split

theorem reloadAtSubslot_keeps {org : State} (p : Nat) (s : State) (hk : Keeps org s) : Keeps org (reloadAtSubslot p s) := by
  unfold reloadAtSubslot
  repeat' first
    | with_reducible assumption
    | with_reducible apply endReload_keeps
    | with_reducible apply startReload_keeps
    | (intro z; have hz : Keeps org z; on_goal 1 => (simp (zeta := false) only [z]))
    | intro z
    | lift_lets
    | split

theorem beginSubslot_keeps {org : State} (p i : Nat) (s : State) (hk : Keeps org s) : Keeps org (beginSubslot p i s) := by
  unfold beginSubslot
  repeat' first
    | with_reducible assumption
    | with_reducible apply lightBack_keeps
    | with_reducible apply reloadAtSubslot_keeps
    | with_reducible apply keeps_onPort
    | (intro z; have hz : Keeps org z; on_goal 1 => (simp (zeta := false) only [z]))
    | intro z
    | lift_lets

theorem execHoldSubslot_keeps {org : State} (p : Fin 4) (s : State) (hk : Keeps org s) : OutKeeps org (execHoldSubslot p s) := by
  unfold execHoldSubslot
  repeat' first
    | with_reducible assumption
    | with_reducible apply out_next
    | with_reducible apply beginSubslot_keeps
    | with_reducible apply noteLit_keeps
    | with_reducible apply strobeSet_keeps
    | (intro z; have hz : Keeps org z; on_goal 1 => (simp (zeta := false) only [z]))
    | intro z
    | lift_lets
    | split

theorem startSlot_keeps {org : State} (p k t : Nat) (s : State) (hk : Keeps org s) : Keeps org (startSlot p k t s) := by
  unfold startSlot
  repeat' first
    | with_reducible assumption
    | with_reducible apply armHold_keeps
    | with_reducible apply lightBack_keeps
    | with_reducible apply seqRaise_keeps
    | with_reducible apply slcRaise_keeps
    | with_reducible apply timRaise_keeps
    | with_reducible apply keeps_onIll
    | with_reducible apply keeps_onPort
    | with_reducible apply keeps_onStore
    | with_reducible apply keeps_onCam
    | with_reducible refine keeps_foldl ?_ _ _ fun _ _ _ => ?_
    | (intro z; have hz : Keeps org z; on_goal 1 => (simp (zeta := false) only [z]))
    | intro z
    | lift_lets
    | split

theorem endSlot_keeps {org : State} (p : Nat) (s : State) (hk : Keeps org s) : Keeps org (endSlot p s) := by
  unfold endSlot
  repeat' first
    | with_reducible assumption
    | with_reducible apply slotTriggers_keeps
    | (intro z; have hz : Keeps org z; on_goal 1 => (simp (zeta := false) only [z]))
    | intro z
    | lift_lets
    | split

theorem execSlotStart_keeps {org : State} (p : Fin 4) (s : State) (hk : Keeps org s) : OutKeeps org (execSlotStart p s) := by
  unfold execSlotStart
  repeat' first
    | with_reducible assumption
    | with_reducible apply out_next
    | with_reducible apply beginHold_keeps
    | with_reducible apply endSlot_keeps
    | with_reducible apply noteLit_keeps
    | with_reducible apply startSlot_keeps
    | with_reducible apply strobeSet_keeps
    | (intro z; have hz : Keeps org z; on_goal 1 => (simp (zeta := false) only [z]))
    | intro z
    | lift_lets
    | split

theorem execSlotSettleEnd_keeps {org : State} (p : Fin 4) (s : State) (hk : Keeps org s) : OutKeeps org (execSlotSettleEnd p s) := by
  unfold execSlotSettleEnd
  repeat' first
    | with_reducible assumption
    | with_reducible apply out_next
    | with_reducible apply noteLit_keeps
    | with_reducible apply strobeSet_keeps
    | with_reducible apply keeps_onPort
    | split

theorem noteStart_keeps {org : State} (p k : Nat) (s : State) (hk : Keeps org s) : Keeps org (noteStart p k s) := by
  unfold noteStart
  repeat' first
    | with_reducible assumption
    | with_reducible apply keeps_onPort
    | (intro z; have hz : Keeps org z; on_goal 1 => (simp (zeta := false) only [z]))
    | intro z
    | lift_lets
    | split

theorem skipZero_keeps {org : State} (p lim n : Nat) (s : State) (hk : Keeps org s) : Keeps org (skipZero p lim n s) := by
  induction n generalizing s with
  | zero => exact hk
  | succ n ih =>
    unfold skipZero
    lift_lets
    intro k
    exact keeps_ite (ih _ (keeps_onPort (noteStart_keeps _ _ _ hk) _ _)) hk

theorem skipTo_keeps {org : State} (p lim : Nat) (s : State) (hk : Keeps org s) : Keeps org (skipTo p lim s) := by
  unfold skipTo
  repeat' first
    | with_reducible assumption
    | with_reducible apply skipZero_keeps

theorem skipBand_keeps {org : State} (p k row n : Nat) (s : State) (hk : Keeps org s) : Keeps org (skipBand p k row n s) := by
  unfold skipBand
  repeat' first
    | with_reducible assumption
    | with_reducible apply keeps_onPort
    | (intro z; have hz : Keeps org z; on_goal 1 => (simp (zeta := false) only [z]))
    | intro z
    | lift_lets
    | split

theorem fetchRow_keeps {org : State} (p k : Nat) (s : State) (hk : Keeps org s) : Keeps org (fetchRow p k s) := by
  unfold fetchRow
  repeat' first
    | with_reducible assumption
    | with_reducible apply noteStart_keeps
    | with_reducible apply portRead_keeps
    | with_reducible apply skipBand_keeps
    | with_reducible apply keeps_onPort
    | (intro z; have hz : Keeps org z; on_goal 1 => (simp (zeta := false) only [z]))
    | intro z
    | lift_lets
    | split

theorem execPlaneRowFetch_keeps {org : State} (p : Fin 4) (s : State) (hk : Keeps org s) : OutKeeps org (execPlaneRowFetch p s) := by
  unfold execPlaneRowFetch
  repeat' first
    | with_reducible assumption
    | with_reducible apply out_next
    | with_reducible apply fetchRow_keeps
    | with_reducible apply selectNext_keeps
    | with_reducible apply skipTo_keeps
    | (intro z; have hz : Keeps org z; on_goal 1 => (simp (zeta := false) only [z]))
    | intro z
    | lift_lets
    | split

theorem readerError_keeps {org : State} (p a : Nat) (s : State) (hk : Keeps org s) : Keeps org (readerError p a s) := by
  unfold readerError
  repeat' first
    | with_reducible assumption
    | with_reducible apply skipBand_keeps
    | (intro z; have hz : Keeps org z; on_goal 1 => (simp (zeta := false) only [z]))
    | intro z
    | lift_lets
    | split

theorem serveRequest_keeps {a : State} (q : MemReq) (s : State) (hk : Keeps a s) : Keeps a (serveRequest q s).1 := by
  have h := serveBurst_keeps (MemReq.whole q) _ hk
  exact keeps_ite (requesterError_keeps q _ h) h

theorem serveOne_keeps {org : State} (q : MemReq) (s : State) (hk : Keeps org s) : Keeps org (serveOne q s) :=
  have h := serveRequest_keeps q s hk
  keeps_ite (readerError_keeps _ _ _ h) h

theorem servedAt_mem (i : Nat) (d : Option (List Byte)) (m : Mem) :
    (servedAt i d m).plane = m.plane ∧ (servedAt i d m).general = m.general ∧ (servedAt i d m).reserve = m.reserve := by
  cases d <;> exact ⟨rfl, rfl, rfl⟩

theorem servePc_keeps {org : State} (pc : Nat) (s : State) (hk : Keeps org s) : Keeps org (servePc pc s) := by
  unfold servePc
  split
  · exact hk
  · have h := servedAt_mem
    exact serveOne_keeps _ _ (keeps_onMem hk _ (h _ _ _).1 (h _ _ _).2.1 (h _ _ _).2.2)

theorem serveWaiting_keeps {org : State} (s : State) (hk : Keeps org s) : Keeps org (serveWaiting s) := by
  unfold serveWaiting
  repeat' first
    | with_reducible assumption
    | with_reducible apply servePc_keeps
    | with_reducible refine keeps_forN ?_ _ _ fun _ _ _ => ?_
    | split

theorem execMemRequest_keeps {org : State} (q : MemReq) (s : State) (hk : Keeps org s) : OutKeeps org (execMemRequest q s) := by
  unfold execMemRequest
  repeat' first
    | with_reducible assumption
    | with_reducible apply out_next
    | with_reducible apply joinWait_keeps
    | with_reducible apply servePc_keeps
    | split

theorem queueReset_keeps {org : State} (p b : Nat) (glob : Bool) (drive duePs : Nat) (s : State) (hk : Keeps org s) : Keeps org (queueReset p b glob drive duePs s) := by
  unfold queueReset
  repeat' first
    | with_reducible assumption
    | with_reducible apply keeps_onLink
    | (intro z; have hz : Keeps org z; on_goal 1 => (simp (zeta := false) only [z]))
    | intro z
    | lift_lets

theorem withhold_keeps {org : State} (p b : Nat) (s : State) (hk : Keeps org s) : Keeps org (withhold p b s) := by
  unfold withhold
  repeat' first
    | with_reducible assumption
    | with_reducible apply keeps_onPort

theorem execBandResetQueue_keeps {org : State} (p : Fin 4) (b : Fin 16) (s : State) (hk : Keeps org s) : OutKeeps org (execBandResetQueue p b s) := by
  unfold execBandResetQueue
  repeat' first
    | with_reducible assumption
    | with_reducible apply out_next
    | with_reducible apply queueReset_keeps
    | with_reducible apply withhold_keeps
    | with_reducible apply keeps_onPort
    | (intro z; have hz : Keeps org z; on_goal 1 => (simp (zeta := false) only [z]))
    | intro z
    | lift_lets
    | split

theorem execBandChangeover_keeps {org : State} (p : Fin 4) (b : Fin 16) (s : State) (hk : Keeps org s) : OutKeeps org (execBandChangeover p b s) := by
  unfold execBandChangeover
  repeat' first
    | with_reducible assumption
    | with_reducible apply out_next
    | with_reducible apply noteLit_keeps
    | with_reducible apply skipBand_keeps
    | with_reducible apply strobeSet_keeps
    | with_reducible apply takeVersion_keeps
    | with_reducible apply keeps_onPort
    | (intro z; have hz : Keeps org z; on_goal 1 => (simp (zeta := false) only [z]))
    | intro z
    | lift_lets
    | split

theorem underrun_keeps {org : State} (p k b y n : Nat) (s : State) (hk : Keeps org s) : Keeps org (underrun p k b y n s) := by
  unfold underrun
  repeat' first
    | with_reducible assumption
    | with_reducible apply seqRaise_keeps
    | with_reducible apply skipBand_keeps
    | with_reducible apply strobe_keeps
    | with_reducible apply keeps_onPort
    | (intro z; have hz : Keeps org z; on_goal 1 => (simp (zeta := false) only [z]))
    | intro z
    | lift_lets
    | split

theorem sendRow_keeps {org : State} (p k y : Nat) (s : State) (hk : Keeps org s) : Keeps org (sendRow p k y s).2 := by
  unfold sendRow
  lift_lets
  intro h b first s0 z s1 got w avail pad s2 q row row' real words pkt n crc s3
  have h0 : Keeps org s0 := noteStart_keeps _ _ _ hk
  have h1 : Keeps org s1 := keeps_ite (keeps_onPort h0 _ _) h0
  have h2 : Keeps org s2 := keeps_ite (underrun_keeps _ _ _ _ _ _ h1) h1
  have h3 : Keeps org s3 := keeps_onPort h2 _ _
  exact keeps_ite h3 (auditHit_keeps _ _ _ _ _ _ _ h3)

theorem nextPacket_keeps {org : State} (p : Nat) (us : List (BitVec 32)) (s : State) (hk : Keeps org s) :
    Keeps org (nextPacket p us s).2 := by
  unfold nextPacket
  split
  · exact keeps_onLink hk _ _
  · split
    · exact keeps_onLink hk _ _
    · split
      · exact sendRow_keeps _ _ _ _ hk
      · exact hk

theorem fillUnits_keeps {org : State} (p n f : Nat) (us : List (BitVec 32)) (s : State) (hk : Keeps org s) :
    Keeps org (fillUnits p n f us s).2 := by
  induction f generalizing us s with
  | zero => exact hk
  | succ f ih =>
    unfold fillUnits
    split
    · exact hk
    · exact ih _ _ (nextPacket_keeps _ _ _ hk)

theorem framesSent_keeps {org : State} (p : Nat) (fs : List LaneFrame) (s : State) (hk : Keeps org s) : Keeps org (framesSent p fs s) := by
  unfold framesSent
  repeat' first
    | with_reducible assumption
    | with_reducible refine eachOctet_keeps _ _ _ (fun _ _ _ => ?_) ?_
    | with_reducible apply resume_keeps
    | with_reducible apply keeps_onLink
    | with_reducible apply keeps_onOctet
    | (intro z; have hz : Keeps org z; on_goal 1 => (simp (zeta := false) only [z]))
    | intro z
    | lift_lets

theorem streamInterval_keeps {org : State} (p : Nat) (s : State) (hk : Keeps org s) : Keeps org (streamInterval p s) := by
  unfold streamInterval
  repeat' first
    | with_reducible assumption
    | with_reducible apply fillUnits_keeps
    | with_reducible apply framesSent_keeps
    | with_reducible apply keeps_onLink
    | (intro z; have hz : Keeps org z; on_goal 1 => (simp (zeta := false) only [z]))
    | intro z
    | lift_lets
    | split

theorem trainInterval_keeps {org : State} (p : Nat) (training : Bool) (s : State) (hk : Keeps org s) : Keeps org (trainInterval p training s) := by
  unfold trainInterval
  repeat' first
    | with_reducible assumption
    | with_reducible apply framesSent_keeps
    | with_reducible apply keeps_onLink
    | (intro z; have hz : Keeps org z; on_goal 1 => (simp (zeta := false) only [z]))
    | intro z
    | lift_lets
    | split

theorem execLinkFrameInterval_keeps {org : State} (p : Fin 4) (s : State) (hk : Keeps org s) : OutKeeps org (execLinkFrameInterval p s) := by
  unfold execLinkFrameInterval
  repeat' first
    | with_reducible assumption
    | with_reducible apply out_next
    | with_reducible apply streamInterval_keeps
    | with_reducible apply trainInterval_keeps
    | split

theorem execKeepaliveBurst_keeps {org : State} (p : Fin 4) (s : State) (hk : Keeps org s) : OutKeeps org (execKeepaliveBurst p s) := by
  unfold execKeepaliveBurst
  repeat' first
    | with_reducible assumption
    | with_reducible apply out_next
    | with_reducible refine eachOctet_keeps _ _ _ (fun _ _ _ => ?_) ?_
    | with_reducible apply keeps_onLink
    | with_reducible apply keeps_onOctet
    | (intro z; have hz : Keeps org z; on_goal 1 => (simp (zeta := false) only [z]))
    | intro z
    | lift_lets
    | split
    | with_reducible refine keeps_eq ?_ rfl rfl rfl rfl rfl

end Sys2Proof.Machine
end

