-- ==== Sys2Proof/Laws/KeepsBoundary.lean ====
section
/-!
SUPPORT. The relation Keeps for the functions of Machine/Boundary.lean.
-/
set_option linter.unusedTactic false
set_option linter.unreachableTactic false
set_option linter.unusedVariables false
namespace Sys2Proof.Machine

theorem clearHeld_keeps {org : State} (h : Held) (s : State) (hk : Keeps org s) : Keeps org (clearHeld h s) := by
  unfold clearHeld
  repeat' first
    | with_reducible assumption
    | with_reducible apply dropCommit_keeps
    | with_reducible apply keeps_onGlk
    | with_reducible apply keeps_onPort
    | with_reducible apply keeps_onArr
    | with_reducible apply keeps_onFview
    | with_reducible apply keeps_onTim
    | with_reducible refine keeps_forN ?_ _ _ fun _ _ _ => ?_
    | split
    | with_reducible rfl
    | rfl

theorem commitSource_keeps {org : State} (keep change : Bool) (m : TimMode) (s : State) (hk : Keeps org s) :
    Keeps org (commitSource keep change m s) := by
  unfold commitSource
  split
  · exact goPhase_keeps _ _ _ (keeps_onTim hk _ rfl rfl rfl)
  · exact goPhase_keeps _ _ _ (keeps_onTim (setRate_keeps _ _ hk) _ rfl rfl rfl)
  · exact keeps_ite hk (enterSource_keeps _ _ _ (keeps_ite (keeps_onTim hk _ rfl rfl rfl) hk))

theorem applyTiming_keeps {org : State} (h : Held) (s : State) (hk : Keeps org s) : Keeps org (applyTiming h s) := by
  unfold applyTiming
  lift_lets
  intro t m change keep s1 s2 s3 s4
  have h1 : Keeps org s1 := keeps_onTim hk _ rfl rfl rfl
  have h2 : Keeps org s2 := keeps_ite (keeps_onSeq (keeps_onTimRate (setRate_keeps _ _ h1) _ fun hr =>
    have hr := (rateInRange_iff _).mp hr
    (rateInRange_iff _).mpr ⟨hr.1, fun _ hx => by simp at hx, fun _ hx => by simp at hx⟩) _) h1
  have h3 : Keeps org s3 := keeps_ite (keeps_forN h2 _ _ fun _ _ hs => keeps_ite (settleCauses_keeps _ _ hs) hs) h2
  have h4 : Keeps org s4 := commitSource_keeps _ _ _ _ h3
  exact keeps_ite h4 (complete_keeps _ _ _ _ (keeps_onTim h4 _ rfl rfl rfl))

theorem endSettle_keeps {org : State} (s : State) (hk : Keeps org s) : Keeps org (endSettle s) := by
  unfold endSettle
  repeat' first
    | with_reducible assumption
    | with_reducible apply completeOpt_keeps
    | with_reducible apply keeps_onTim
    | (intro z; have hz : Keeps org z; on_goal 1 => (simp (zeta := false) only [z]))
    | intro z
    | lift_lets
    | split
    | with_reducible rfl
    | rfl

theorem applyAllotment_keeps {org : State} (h : Held) (s : State) (hk : Keeps org s) : Keeps org (applyAllotment h s) := by
  unfold applyAllotment
  repeat' first
    | with_reducible assumption
    | with_reducible apply applyAllot_keeps
    | with_reducible apply keeps_onSeq

theorem applyEpoch_keeps {org : State} (h : Held) (j : BitVec 64) (s : State) (hk : Keeps org s) : Keeps org (applyEpoch h j s) := by
  unfold applyEpoch
  repeat' first
    | with_reducible assumption
    | with_reducible apply keeps_onHif
    | split

theorem boundaryOps_keeps : ∀ sp ∈ boundaryOps, OpKeeps sp := by
  simp only [boundaryOps, List.forall_mem_cons, List.not_mem_nil, false_implies, implies_true, and_true]
  exact ⟨specViewBind_keeps, specTimingCommit_keeps, specPhaseMarkSet_keeps, specSeqPortSet_keeps, specSeqCommit_keeps, specSeqDriveSet_keeps, specIllDeviceSet_keeps, specIllWeightSet_keeps, specIllFade_keeps, specIllTcSet_keeps, specIllStringSet_keeps, specIllDiagSet_keeps, specLinkAllot_keeps, specAhmPolicySet_keeps, specAhmScan_keeps, specAhmPark_keeps, specCmpCommit_keeps, specFabChainGo_keeps, specFabParamSet_keeps, specMemReserveSet_keeps⟩

theorem applyHeld_keeps {org : State} (h : Held) (s : State) (hk : Keeps org s) : Keeps org (applyHeld h s) := by
  have h1 := journalApply_keeps h s hk
  have h2 (sp) (hs : sp ∈ boundaryOps) := applyEpoch_keeps h (journalApply h s).hif.jseq _ (keeps_ite (c := h.opcode = 0x0103)
    (applyTiming_keeps h _ h1) (keeps_ite (c := h.opcode = 0x0600) (applyAllotment_keeps h _ h1) ((boundaryOps_keeps sp hs).apply h _ h1)))
  unfold applyHeld
  split
  · exact hk
  · rename_i sp hf
    have hm := List.mem_of_find?_eq_some hf
    cases (if h.due.isNone then none else match sp.recheck with | some f => f h s | none => sp.check h.cmd s) with
    | some r => exact complete_keeps _ _ _ _ (clearHeld_keeps _ _ hk)
    | none => exact keeps_ite ((boundaryOps_keeps sp hm).apply _ _ hk) (h2 sp hm)

theorem applyGroup_keeps {org : State} (f : Nat → Bool) (hs : List Held) (s : State) (hk : Keeps org s) : Keeps org (applyGroup f hs s) := by
  unfold applyGroup
  repeat' first
    | with_reducible assumption
    | with_reducible apply applyHeld_keeps
    | with_reducible refine keeps_foldl ?_ _ _ fun _ _ _ => ?_

theorem setStates_keeps {org : State} (s : State) (hk : Keeps org s) : Keeps org (setStates s) := by
  unfold setStates
  repeat' first
    | with_reducible assumption
    | with_reducible apply keeps_onPort
    | with_reducible refine keeps_forN ?_ _ _ fun _ _ _ => ?_

theorem disablePort_keeps {org : State} (p : Nat) (s : State) (hk : Keeps org s) : Keeps org (disablePort p s) := by
  unfold disablePort
  repeat' first
    | with_reducible assumption
    | with_reducible apply ahmFollow_keeps
    | with_reducible apply completeOpt_keeps
    | with_reducible apply keeps_onPort
    | (intro z; have hz : Keeps org z; on_goal 1 => (simp (zeta := false) only [z]))
    | intro z
    | lift_lets
    | split

theorem followEnable_keeps {org : State} (was : List Bool) (s : State) (hk : Keeps org s) : Keeps org (followEnable was s) := by
  unfold followEnable
  repeat' first
    | with_reducible assumption
    | with_reducible apply disablePort_keeps
    | with_reducible apply settleCauses_keeps
    | with_reducible apply sweepBuffers_keeps
    | with_reducible apply xclDomainOff_keeps
    | with_reducible apply keeps_onPort
    | with_reducible refine keeps_forN ?_ _ _ fun _ _ _ => ?_
    | (intro z; have hz : Keeps org z; on_goal 1 => (simp (zeta := false) only [z]))
    | intro z
    | lift_lets
    | split

theorem endLinkSettle_keeps {org : State} (s : State) (hk : Keeps org s) : Keeps org (endLinkSettle s) := by
  unfold endLinkSettle
  repeat' first
    | with_reducible assumption
    | with_reducible apply keeps_onPort
    | with_reducible apply keeps_onArr
    | with_reducible refine keeps_forN ?_ _ _ fun _ _ _ => ?_
    | (intro z; have hz : Keeps org z; on_goal 1 => (simp (zeta := false) only [z]))
    | intro z
    | lift_lets

theorem restartPicture_keeps {org : State} (s : State) (hk : Keeps org s) : Keeps org (restartPicture s) := by
  unfold restartPicture
  repeat' first
    | with_reducible assumption
    | with_reducible apply sendCtrl_keeps
    | with_reducible apply keeps_onThm
    | with_reducible apply keeps_onArr
    | with_reducible refine keeps_forN ?_ _ _ fun _ _ _ => ?_
    | split

theorem leaveHold_keeps {org : State} (p : Nat) (s : State) (hk : Keeps org s) : Keeps org (leaveHold p s) := by
  unfold leaveHold
  repeat' first
    | with_reducible assumption
    | with_reducible apply completeOpt_keeps
    | with_reducible apply resume_keeps
    | with_reducible apply keeps_onPort
    | with_reducible apply keeps_onLink
    | (intro z; have hz : Keeps org z; on_goal 1 => (simp (zeta := false) only [z]))
    | intro z
    | lift_lets
    | split

theorem takeSelection_keeps {org : State} (s : State) (hk : Keeps org s) : Keeps org (takeSelection s) := by
  unfold takeSelection
  repeat' first
    | with_reducible assumption
    | with_reducible apply keeps_onSeq
    | with_reducible apply keeps_onPort
    | with_reducible refine keeps_forN ?_ _ _ fun _ _ _ => ?_
    | (intro z; have hz : Keeps org z; on_goal 1 => (simp (zeta := false) only [z]))
    | intro z
    | lift_lets
    | split

theorem discardRows_keeps {org : State} (p j : Nat) (s : State) (hk : Keeps org s) : Keeps org (discardRows p j s) := by
  unfold discardRows
  repeat' first
    | with_reducible assumption
    | with_reducible apply fetchRow_keeps
    | with_reducible apply seqRaise_keeps
    | with_reducible apply keeps_onPort
    | with_reducible refine keeps_foldl ?_ _ _ fun _ _ _ => ?_
    | (intro z; have hz : Keeps org z; on_goal 1 => (simp (zeta := false) only [z]))
    | intro z
    | lift_lets
    | split

theorem carryReader_keeps {org : State} (p n : Nat) (s : State) (hk : Keeps org s) : Keeps org (carryReader p n s) := by
  unfold carryReader
  repeat' first
    | with_reducible assumption
    | with_reducible apply discardRows_keeps
    | with_reducible apply keeps_onPort
    | (intro z; have hz : Keeps org z; on_goal 1 => (simp (zeta := false) only [z]))
    | intro z
    | lift_lets
    | split

theorem takeLevel_keeps {org : State} (p : Nat) (s : State) (hk : Keeps org s) : Keeps org (takeLevel p s) := by
  unfold takeLevel
  repeat' first
    | with_reducible assumption
    | with_reducible apply takeRequest_keeps
    | split

theorem startHeld_keeps {org : State} (p : Nat) (w : PortWas) (s : State) (hk : Keeps org s) : Keeps org (startHeld p w s) := by
  unfold startHeld
  repeat' first
    | with_reducible assumption
    | with_reducible apply askReload_keeps
    | with_reducible apply beginSubslot_keeps
    | with_reducible apply takeLevel_keeps
    | with_reducible apply keeps_onPort
    | (intro z; have hz : Keeps org z; on_goal 1 => (simp (zeta := false) only [z]))
    | intro z
    | lift_lets
    | split

theorem startPort_keeps {org : State} (m : TimMode) (p : Nat) (w : PortWas) (s : State) (hk : Keeps org s) : Keeps org (startPort m p w s) := by
  unfold startPort
  repeat' first
    | with_reducible assumption
    | with_reducible apply beginHold_keeps
    | with_reducible apply carryReader_keeps
    | with_reducible apply startHeld_keeps
    | with_reducible apply startSlot_keeps
    | with_reducible apply takeAll_keeps
    | with_reducible apply keeps_onPort
    | (intro z; have hz : Keeps org z; on_goal 1 => (simp (zeta := false) only [z]))
    | intro z
    | lift_lets
    | split

theorem followHold_keeps {org : State} (was : Bool) (s : State) (hk : Keeps org s) : Keeps org (followHold was s) := by
  unfold followHold
  repeat' first
    | with_reducible assumption
    | with_reducible apply stopFabric_keeps
    | with_reducible apply keeps_raise
    | with_reducible apply keeps_onFab
    | with_reducible apply keeps_onMem
    | split
    | with_reducible rfl
    | rfl

theorem releaseBufs_keeps {org : State} (s : State) (hk : Keeps org s) : Keeps org (releaseBufs s) := by
  unfold releaseBufs
  repeat' first
    | with_reducible assumption
    | with_reducible apply keeps_onSlc

/-- The period that ends: the frame count moves on by one. -/
theorem endPeriod_keepsInv (s : State) : KeepsInv s (endPeriod s) ∧ (endPeriod s).frame = s.frame + 1 ∧
    ∀ k, s.xcl.latch.getLsbD k = true → (endPeriod s).xcl.latch.getLsbD k = true := by
  unfold endPeriod
  lift_lets
  intro s1 s2 f s3 s4
  have h2 : Keeps s s2 := carryMarks_keeps _ (releaseBufs_keeps _ (keeps_forN (.refl s) _ _ fun _ _ h => keeps_ite (endSlot_keeps _ _ h) h))
  clear_value s2
  have h3 : Keeps s s3 := endLoopPeriod_keeps _ (endLightPeriod_keeps _ _ h2)
  have hf : f = s.frame + 1 := by show s2.frame + 1 = _; rw [h2.frame]
  clear_value s3
  have h4 : KeepsInv s s4 := keepsInv_eq h3.toKeepsInv rfl rfl rfl rfl
  have h5 : Keeps s4 (endCamPeriod (endPhasePeriod (s4.onHif fun x => { x with
      deferred := x.deferred.filter fun h => !(dueAt f h) }))) :=
    endCamPeriod_keeps _ (endPhasePeriod_keeps _ (keeps_onHif (.refl _) _))
  exact ⟨h4.trans h5.toKeepsInv, h5.frame.trans hf, fun k x => h5.latch k (h3.latch k x)⟩

theorem linkSteps_keeps {org : State} (was : Nat → PortWas) (due : List Held) (retrain : List Nat) (s : State) (hk : Keeps org s) : Keeps org (linkSteps was due retrain s) := by
  unfold linkSteps
  repeat' first
    | with_reducible assumption
    | with_reducible apply ahmFollow_keeps
    | with_reducible apply applyGroup_keeps
    | with_reducible apply boundaryLink_keeps
    | with_reducible apply boundaryRecords_keeps
    | with_reducible apply endLinkSettle_keeps
    | with_reducible apply endSettle_keeps
    | with_reducible apply followEnable_keeps
    | with_reducible apply restartPicture_keeps
    | with_reducible apply sweepBuffers_keeps
    | with_reducible apply wakeOctets_keeps
    | with_reducible refine keeps_forN ?_ _ _ fun _ _ _ => ?_
    | (intro z; have hz : Keeps org z; on_goal 1 => (simp (zeta := false) only [z]))
    | intro z
    | lift_lets
    | split

theorem takeCommits_keeps {org : State} (s : State) (hk : Keeps org s) : Keeps org (takeCommits s).1 := by
  unfold takeCommits
  exact keeps_foldl (keeps_onIll hk _) _ _ fun _ _ h => derive_keeps _ _ (keeps_onPort h _ _)

theorem sequenceSteps_keeps {org : State} (due : List Held) (s : State) (hk : Keeps org s) : Keeps org (sequenceSteps due s).1 := by
  unfold sequenceSteps
  lift_lets
  intro s1 s2 r done s3 s4 s5
  dsimp (zeta := false) only
  have h1 : Keeps org s1 := memRestart_keeps _ hk
  clear_value s1
  have h2 : Keeps org s2 := keeps_ite (keeps_onSeq (revalidate_keeps _ h1) _) h1
  clear_value s2
  have h3 : Keeps org s3 := keeps_foldl (takeCommits_keeps _ (keeps_forN (applyGroup_keeps _ _ _ h2) _ _ fun _ _ h =>
    leaveHold_keeps _ _ h)) _ _ fun _ _ h => journalApply_keeps _ _ h
  clear_value s3
  have h4 : Keeps org s4 := setStates_keeps _ h3
  clear_value s4
  have h5 : Keeps org s5 := keeps_ite h4 (setStates_keeps _ (keeps_forN h4 _ _ fun _ _ h => choosePort_keeps _ _ h))
  clear_value s5
  with_reducible exact countRepeats_keeps _ (takeSelection_keeps _ h5)

theorem pictureSteps_keeps {org : State} (all : Bool) (s : State) (hk : Keeps org s) : Keeps org (pictureSteps all s) := by
  unfold pictureSteps
  repeat' first
    | with_reducible assumption
    | with_reducible apply boundaryMark_keeps
    | with_reducible apply boundaryPulses_keeps
    | with_reducible apply powerSlicers_keeps
    | with_reducible apply raiseEnables_keeps
    | with_reducible apply recheckChains_keeps
    | with_reducible apply runCommits_keeps
    | with_reducible apply sweepBuffers_keeps
    | with_reducible apply switchChains_keeps
    | (intro z; have hz : Keeps org z; on_goal 1 => (simp (zeta := false) only [z]))
    | intro z
    | lift_lets
    | split

theorem periodBoundary_keepsInv (s : State) : KeepsInv s (periodBoundary s) ∧
    (periodBoundary s).frame = s.frame + 1 ∧ ∀ k, s.xcl.latch.getLsbD k = true → (periodBoundary s).xcl.latch.getLsbD k = true := by
  obtain ⟨h0, hf, hl⟩ := endPeriod_keepsInv s
  suffices h : Keeps (endPeriod s) (periodBoundary s) from ⟨h0.trans h.toKeepsInv, h.frame.trans hf, fun k x => h.latch k (hl k x)⟩
  unfold periodBoundary
  generalize endPeriod s = e
  lift_lets
  intro m ws was held retrain due s1 all r s2 s3 s4 s5
  have h1 : Keeps e s1 := linkSteps_keeps _ _ _ _ (.refl _)
  clear_value s1
  have h2 : Keeps e s2 := pictureSteps_keeps _ _ (sequenceSteps_keeps _ _ h1)
  clear_value s2
  have h3 : Keeps e s3 := keeps_forN h2 _ _ fun _ _ h => startPort_keeps _ _ _ _ h
  clear_value s3
  have h4 : Keeps e s4 := followHold_keeps _ _ (keeps_onSeq h3 _)
  clear_value s4
  have h5 : Keeps e s5 := noteLit_keeps _ (strobe_keeps _ (followMarks_keeps _ (keeps_onTim h4 _ rfl rfl rfl)))
  clear_value s5
  exact pruneDoms_keeps (retarget_keeps _ (keeps_foldl h5 _ _ fun _ _ h => finishCommit_keeps _ _ h))

theorem execPeriodBoundary_keepsInv {a t : State} (s : State) (hk : KeepsInv a s) (he : execPeriodBoundary s = .next t) :
    KeepsInv a t := by
  have h := (periodBoundary_keepsInv s).1
  rw [execPeriodBoundary.eq_1] at he
  simp only [Host.Outcome.next.injEq] at he
  rw [← he]
  generalize periodBoundary s = u at h
  refine KeepsInv.ite (hk.trans h) ?_
  exact ⟨hk.queue, hk.mem, hk.rate, hk.safe⟩

end Sys2Proof.Machine
end

