-- ==== Sys2Proof/Laws/KeepsPhase.lean ====
section
/-!
SUPPORT. The relation Keeps for the functions of Machine/Phase.lean.
-/
set_option linter.unusedTactic false
set_option linter.unreachableTactic false
set_option linter.unusedVariables false
namespace Sys2Proof.Machine

theorem freezeAll_keeps {org : State} (s : State) (hk : Keeps org s) : Keeps org (freezeAll s) := by
  unfold freezeAll
  repeat' first
    | with_reducible assumption
    | with_reducible apply freezeCam_keeps
    | with_reducible apply keeps_onTim
    | with_reducible refine keeps_forN ?_ _ _ fun _ _ _ => ?_
    | split
    | with_reducible rfl
    | rfl

theorem shiftPhase_keeps {org : State} (d : Int) (s : State) (hk : Keeps org s) : Keeps org (shiftPhase d s) := by
  unfold shiftPhase
  lift_lets
  intro n n2 past s1 s2
  have h1 : Keeps org s1 := keeps_onTim hk _ rfl rfl rfl
  clear_value s1
  have h2 : Keeps org s2 := keeps_ite (freezeAll_keeps _ h1) h1
  clear_value s2
  exact followMarks_keeps _ (keeps_eq h2 rfl rfl rfl rfl rfl)

theorem stepPhase_keeps {org : State} (d : Int) (s : State) (hk : Keeps org s) : Keeps org (stepPhase d s) := by
  unfold stepPhase
  repeat' first
    | with_reducible assumption
    | with_reducible apply shiftPhase_keeps
    | with_reducible apply keeps_onTim
    | with_reducible rfl
    | rfl

theorem lockSample_keeps {org : State} (err : Int) (s : State) (hk : Keeps org s) : Keeps org (lockSample err s) := by
  unfold lockSample
  repeat' first
    | with_reducible assumption
    | with_reducible apply goPhase_keeps
    | with_reducible apply timRaise_keeps
    | with_reducible apply keeps_onTim
    | (intro z; have hz : Keeps org z; on_goal 1 => (simp (zeta := false) only [z]))
    | intro z
    | lift_lets
    | split
    | with_reducible rfl
    | rfl

theorem takeSample_keeps {org : State} (err hint : Int) (s : State) (hk : Keeps org s) : Keeps org (takeSample err hint s) := by
  unfold takeSample
  exact lockSample_keeps _ _ (keeps_onTim (keeps_useFree (setRate_keeps _ _ hk)) _ rfl rfl rfl)

theorem lateEnd_keeps {org : State} (s : State) (hk : Keeps org s) : Keeps org (lateEnd s) := by
  unfold lateEnd
  repeat' first
    | with_reducible assumption
    | with_reducible apply endSettle_keeps
    | with_reducible apply finishCommit_keeps
    | with_reducible apply followHold_keeps
    | with_reducible apply followMarks_keeps
    | with_reducible apply noteLit_keeps
    | with_reducible apply sequenceSteps_keeps
    | with_reducible apply startPort_keeps
    | with_reducible apply strobe_keeps
    | with_reducible refine keeps_forN ?_ _ _ fun _ _ _ => ?_
    | with_reducible refine keeps_foldl ?_ _ _ fun _ _ _ => ?_
    | (intro z; have hz : Keeps org z; on_goal 1 => (simp (zeta := false) only [z]))
    | intro z
    | lift_lets

theorem edgeSample_keeps {org : State} (code : Nat) (ph frame : BitVec 64) (spaced : Bool) (s : State) (hk : Keeps org s) : Keeps org (edgeSample code ph frame spaced s) := by
  unfold edgeSample
  repeat' first
    | with_reducible assumption
    | with_reducible apply lateEnd_keeps
    | with_reducible apply stepPhase_keeps
    | with_reducible apply takeSample_keeps
    | (intro z; have hz : Keeps org z; on_goal 1 => (simp (zeta := false) only [z]))
    | intro z
    | lift_lets
    | split

theorem sourceEdge_keeps {org : State} (code ns : Nat) (ph frame : BitVec 64) (usable : Bool) (s : State) (hk : Keeps org s) : Keeps org (sourceEdge code ns ph frame usable s) := by
  unfold sourceEdge
  repeat' first
    | with_reducible assumption
    | with_reducible apply edgeSample_keeps
    | with_reducible apply noteEdge_keeps
    | with_reducible apply selectSource_keeps
    | (intro z; have hz : Keeps org z; on_goal 1 => (simp (zeta := false) only [z]))
    | intro z
    | lift_lets
    | split

theorem execRefInEdge_keeps {org : State} (rising : Bool) (s : State) (hk : Keeps org s) : OutKeeps org (execRefInEdge rising s) := by
  unfold execRefInEdge
  repeat' first
    | with_reducible assumption
    | with_reducible apply out_next
    | with_reducible apply sourceEdge_keeps
    | split

theorem camOpen_keeps {org : State} (c : Nat) (e : CamEdge) (s : State) (hk : Keeps org s) : Keeps org (camOpen c e s).1 := by
  unfold camOpen
  repeat' first
    | with_reducible assumption
    | with_reducible apply timRaise_keeps
    | with_reducible apply keeps_onCam
    | with_reducible apply rejectEdge_keeps
    | lift_lets
    | intro z
    | split

theorem camEdge_keeps {org : State} (c : Nat) (e : CamEdge) (s : State) (hk : Keeps org s) : Keeps org (camEdge c e s) := by
  have h1 : Keeps org (if e.isOpen then camOpen c e s else (camClose c e s, false)).1 := by
    split
    · exact camOpen_keeps _ _ _ hk
    · exact camClose_keeps _ _ _ hk
  unfold camEdge
  exact keeps_ite (sourceEdge_keeps _ _ _ _ _ _ (keeps_ite (freezeCam_keeps _ _ h1) h1)) (keeps_ite (freezeCam_keeps _ _ h1) h1)

theorem settleEdge_keeps {org : State} (c : Nat) (s : State) (hk : Keeps org s) : Keeps org (settleEdge c s) := by
  unfold settleEdge
  repeat' first
    | with_reducible assumption
    | with_reducible apply camEdge_keeps
    | with_reducible apply keeps_onCam
    | split

theorem settleEdges_keeps {org : State} (s : State) (hk : Keeps org s) : Keeps org (settleEdges s) := by
  unfold settleEdges
  repeat' first
    | with_reducible assumption
    | with_reducible apply settleEdge_keeps
    | with_reducible refine keeps_forN ?_ _ _ fun _ _ _ => ?_

theorem glitch_keeps {org : State} (c : Nat) (s : State) (hk : Keeps org s) : Keeps org (glitch c s) := by
  unfold glitch
  repeat' first
    | with_reducible assumption
    | with_reducible apply keeps_onCam

theorem execCamShutEdge_keeps {org : State} (c : Fin 4) (level : Bool) (s : State) (hk : Keeps org s) : OutKeeps org (execCamShutEdge c level s) := by
  unfold execCamShutEdge
  repeat' first
    | with_reducible assumption
    | with_reducible apply out_next
    | with_reducible apply glitch_keeps
    | with_reducible apply settleEdge_keeps
    | with_reducible apply keeps_onCam
    | (intro z; have hz : Keeps org z; on_goal 1 => (simp (zeta := false) only [z]))
    | intro z
    | lift_lets
    | split

theorem steer_keeps {org : State} (b : List Byte) (s : State) (hk : Keeps org s) : Keeps org (steer b s) := by
  unfold steer
  repeat' first
    | with_reducible assumption
    | with_reducible apply stepPhase_keeps
    | with_reducible apply takeSample_keeps
    | (intro z; have hz : Keeps org z; on_goal 1 => (simp (zeta := false) only [z]))
    | intro z
    | lift_lets
    | split

theorem specPhaseSteer_keeps : OpKeeps specPhaseSteer where
  effect {org} h s hk := by
    unfold specPhaseSteer
    repeat' first
      | with_reducible assumption
      | (dsimp (zeta := false) only)
      | with_reducible apply steer_keeps
      | with_reducible apply keeps_onTim
      | with_reducible rfl
      | rfl
  apply _ _ hk := hk

theorem execPhaseSteer_keeps {org : State} (cmd : Cmd) (s : State) (hk : Keeps org s) : OutKeeps org (execPhaseSteer cmd s) :=
  out_next (accept_keeps _ _ _ specPhaseSteer_keeps hk)

end Sys2Proof.Machine
end

