-- ==== Sys2Proof/Laws/KeepsRegisters.lean ====
section
/-!
SUPPORT. The relation Keeps for the functions of Machine/Registers.lean.
-/
set_option linter.unusedTactic false
set_option linter.unreachableTactic false
set_option linter.unusedVariables false
namespace Sys2Proof.Machine

theorem countUnmapped_keeps {org : State} (s : State) (hk : Keeps org s) : Keeps org (countUnmapped s) := by
  unfold countUnmapped
  repeat' first
    | with_reducible assumption
    | with_reducible apply hifRaise_keeps
    | with_reducible apply keeps_onHif
    | split

/-- Every state that an option holds is in the relation. -/
def OptKeeps (a : State) (o : Option State) : Prop := ∀ t ∈ o, Keeps a t

theorem optKeeps_none (a : State) : OptKeeps a none := fun _ h => by cases h
theorem optKeeps_some {a t : State} (h : Keeps a t) : OptKeeps a (some t) := fun _ e => by cases e; exact h
theorem optKeeps_map {a : State} {α : Type} (o : Option α) (f : α → State) (h : ∀ x, Keeps a (f x)) : OptKeeps a (o.map f) := by
  cases o
  · exact optKeeps_none a
  · exact optKeeps_some (h _)

theorem clearSingle_keeps {a : State} (off : Nat) (v : Word) (s : State) (hk : Keeps a s) : OptKeeps a (clearSingle off v s) := by
  unfold clearSingle
  split
  all_goals first
    | with_reducible exact optKeeps_none a
    | with_reducible apply optKeeps_some
  all_goals first
    | with_reducible exact keeps_onHif hk _
    | with_reducible exact keeps_onMgt hk _
    | with_reducible exact keeps_onTim hk _ rfl rfl rfl
    | with_reducible exact keeps_onIll hk _
    | with_reducible exact keeps_onCle hk _
    | with_reducible exact keeps_onXcl hk _ rfl rfl rfl
    | with_reducible exact keeps_onSlc hk _
    | with_reducible exact keeps_onCmp hk _
    | with_reducible exact keeps_onFab hk _
    | with_reducible exact keeps_onMem hk _ rfl rfl rfl
    | with_reducible exact keeps_onPwr hk _
    | with_reducible exact keeps_onThm hk _
    | with_reducible exact keeps_onCal hk _
    | with_reducible exact keeps_onSec hk _

theorem clearGroup_keeps {a : State} (off : Nat) (v : Word) (s : State) (hk : Keeps a s) : OptKeeps a (clearGroup off v s) := by
  have go (base stride n : Nat) (f : Nat → State) (h : ∀ i, Keeps a (f i)) : OptKeeps a ((copyAt base stride n 4 off).map f) :=
    optKeeps_map _ _ h
  have pick : ∀ l : List (Option State), (∀ o ∈ l, OptKeeps a o) → OptKeeps a (l.find? (·.isSome)).join := by
    intro l h t ht
    simp only [Option.mem_def, Option.join_eq_some_iff] at ht
    exact h _ (List.mem_of_find?_eq_some ht) t rfl
  unfold clearGroup
  refine pick _ ?_
  simp only [List.forall_mem_cons, List.not_mem_nil, false_implies, implies_true, and_true]
  refine ⟨go _ _ _ _ fun _ => keeps_onPort hk _ _, go _ _ _ _ fun _ => keeps_onChain hk _ _,
    go _ _ _ _ fun _ => keeps_ite (keeps_onLoop hk _ _) hk, go _ _ _ _ fun _ => keeps_ite (keeps_onXset hk _ _) hk,
    go _ _ _ _ fun _ => keeps_onOctet hk _ _, go _ _ _ _ fun _ => keeps_onGlk hk _, go _ _ _ _ fun _ => keeps_onArr hk _ _,
    go _ _ _ _ fun _ => keeps_onCview hk _ _, go _ _ _ _ fun _ => keeps_onFview hk _ _⟩

theorem writeCal_keeps {a : State} (off : Nat) (v : Word) (s : State) (hk : Keeps a s) : OptKeeps a (writeCal off v s) := by
  unfold writeCal
  split
  · exact optKeeps_some (calClassWrite_keeps _ _ _ hk)
  · split
    · exact optKeeps_some (freezeWrite_keeps _ _ _ hk)
    · split
      · split
        · exact optKeeps_some (calSetWrite_keeps _ _ _ _ _ hk)
        · exact optKeeps_none a
      · exact optKeeps_none a
  · exact optKeeps_none a

theorem regWrite_keeps {a : State} (cal : Bool) (off : Nat) (v : Word) (s : State) (hk : Keeps a s) :
    Keeps a (regWrite cal off v s) := by
  have h1 (c : Word) : OptKeeps a (if off % 4 = 0 then clearSingle off c s else none) := by
    split
    · exact clearSingle_keeps _ _ _ hk
    · exact optKeeps_none a
  have h3 : OptKeeps a (if cal then writeCal off v s else none) := by
    split
    · exact writeCal_keeps _ _ _ hk
    · exact optKeeps_none a
  unfold regWrite
  split
  · exact hk
  · lift_lets
    intro c
    split
    · exact h1 c _ (by assumption)
    · exact clearGroup_keeps off c s hk _ (by assumption)
    · exact h3 _ (by assumption)
    · exact keeps_ite hk (countUnmapped_keeps _ hk)

theorem execRegisterWrite_keeps {org : State} (uh : Fin 2) (off : BitVec 24) (val : BitVec 32) (s : State) (hk : Keeps org s) : OutKeeps org (execRegisterWrite uh off val s) := by
  unfold execRegisterWrite
  repeat' first
    | with_reducible assumption
    | with_reducible apply out_next
    | with_reducible apply regWrite_keeps
    | split

theorem execUnmapped_keeps {org : State} (h : Fin 2) (off : BitVec 24) (size : Nat) (write : Bool) (s : State) (hk : Keeps org s) : OutKeeps org (execUnmapped h off size write s) := by
  unfold execUnmapped
  repeat' first
    | with_reducible assumption
    | with_reducible apply out_next
    | with_reducible apply countUnmapped_keeps
    | with_reducible apply keeps_onHif
    | (intro z; have hz : Keeps org z; on_goal 1 => (simp (zeta := false) only [z]))
    | intro z
    | lift_lets
    | split

theorem fetchWord_keeps {org : State} (off : Nat) (s : State) (hk : Keeps org s) : Keeps org (fetchWord off s) := by
  unfold fetchWord
  repeat' first
    | with_reducible assumption
    | with_reducible apply countUnmapped_keeps
    | with_reducible apply keeps_onHif
    | split
    | with_reducible refine keeps_eq ?_ rfl rfl rfl rfl rfl

theorem execI3cBar0ReadSetup_keeps {org : State} (off : BitVec 24) (count : BitVec 8) (s : State) (hk : Keeps org s) : OutKeeps org (execI3cBar0ReadSetup off count s) := by
  unfold execI3cBar0ReadSetup
  repeat' first
    | with_reducible assumption
    | with_reducible apply out_next
    | with_reducible apply fetchWord_keeps
    | with_reducible apply keeps_onHif
    | with_reducible refine keeps_foldl ?_ _ _ fun _ _ _ => ?_
    | split

theorem execI3cBar0Write_keeps {org : State} (off : BitVec 24) (val : BitVec 32) (s : State) (hk : Keeps org s) : OutKeeps org (execI3cBar0Write off val s) := by
  unfold execI3cBar0Write
  repeat' first
    | with_reducible assumption
    | with_reducible apply out_next
    | with_reducible apply regWrite_keeps
    | split

end Sys2Proof.Machine
end

