-- ==== Sys2Proof/Laws/KeepsRings.lean ====
section
/-!
SUPPORT. The relation Keeps for the functions of Machine/Rings.lean.
-/
set_option linter.unusedTactic false
set_option linter.unreachableTactic false
set_option linter.unusedVariables false
namespace Sys2Proof.Machine

theorem acceptUnknown_keeps {org : State} (op : BitVec 16) (c : Cmd) (s : State) (hk : Keeps org s) : Keeps org (acceptUnknown op c s) := by
  unfold acceptUnknown
  repeat' first
    | with_reducible assumption
    | with_reducible apply checkSeq_keeps
    | with_reducible apply countCore_keeps
    | with_reducible apply refuse_keeps
    | with_reducible apply refuseCrc_keeps
    | with_reducible apply renewLease_keeps
    | (intro z; have hz : Keeps org z; on_goal 1 => (simp (zeta := false) only [z]))
    | intro z
    | lift_lets
    | split

/-- What a command that comes through a ring keeps, XCL_SAFE_RELEASE among them: all of Keeps but the latch. -/
structure KeepsRing (a s : State) : Prop extends KeepsInv a s where
  frame : s.frame = a.frame

theorem Keeps.toRing {a s : State} (h : Keeps a s) : KeepsRing a s := ⟨h.toKeepsInv, h.frame⟩
theorem KeepsRing.trans {a b c : State} (h : KeepsRing a b) (k : KeepsRing b c) : KeepsRing a c :=
  ⟨h.toKeepsInv.trans k.toKeepsInv, k.frame.trans h.frame⟩

/-- A command's effect at acceptance is in the relation. -/
def OpRing (sp : OpSpec) : Prop := ∀ (h : Held) (s : State), KeepsRing s (sp.effect h s).st

theorem OpKeeps.toRing {sp : OpSpec} (h : OpKeeps sp) : OpRing sp := fun x s => (h.effect x s (.refl s)).toRing

theorem acceptOk_ring (sp : OpSpec) (c : Cmd) (s : State) (ho : OpRing sp) : KeepsRing s (acceptOk sp c s) := by
  have h0 := (journalAdd_keeps (heldEntry (heldOf sp c s) .accept .accepted 0 s) s (.refl s)).toRing
  have h1 := h0.trans (ho (heldOf sp c s) (journalAdd (heldEntry (heldOf sp c s) .accept .accepted 0 s) s))
  unfold acceptOk
  lift_lets
  intro h d s1 good s2
  have h2 : KeepsRing s s2 := h1.trans (keeps_onHif (journalFix_keeps _ _ _ _ (keeps_onHif (.refl _) _)) _).toRing
  clear_value s2
  split
  · exact h2
  · exact h2.trans (replyUnlessQuiet_keeps _ _ _ _ (.refl s2)).toRing

theorem acceptNow_ring (sp : OpSpec) (c : Cmd) (s : State) (ho : OpRing sp) : KeepsRing s (acceptNow sp c s) := by
  have h1 := renewLease_keeps c.host _ (checkSeq_keeps c _ (countCore_keeps c _ (.refl s)))
  unfold acceptNow
  lift_lets
  intro s1
  split
  · split
    · exact (refuse_keeps _ _ _ _ h1).toRing
    · exact h1.toRing.trans (acceptOk_ring _ _ _ ho)
  · exact (refuseCrc_keeps _ _ _ h1).toRing

theorem sessionOps_ring : ∀ sp ∈ sessionOps, OpRing sp := by
  simp only [sessionOps, List.forall_mem_cons, List.not_mem_nil, false_implies, implies_true, and_true]
  exact ⟨specSessionOpen_keeps.toRing, specSessionClose_keeps.toRing, specHeartbeat_keeps.toRing, specClaim_keeps.toRing, specRelease_keeps.toRing, specEventMaskSet_keeps.toRing, specCpReset_keeps.toRing, specJournalRead_keeps.toRing, specJournalMark_keeps.toRing⟩

theorem timingOps_ring : ∀ sp ∈ timingOps, OpRing sp := by
  simp only [timingOps, List.forall_mem_cons, List.not_mem_nil, false_implies, implies_true, and_true]
  exact ⟨specTimingSet_keeps.toRing, specCameraSet_keeps.toRing, specViewBind_keeps.toRing, specTimingCommit_keeps.toRing, specPhaseSteer_keeps.toRing, specPhaseMarkSet_keeps.toRing, specSeqPortSet_keeps.toRing, specSeqLoad_keeps.toRing, specSeqCommit_keeps.toRing, specSeqDriveSet_keeps.toRing, specHoldSet_keeps.toRing, specHoldExit_keeps.toRing, specPlaneStoreSet_keeps.toRing⟩

theorem lightOps_ring : ∀ sp ∈ lightOps, OpRing sp := by
  simp only [lightOps, List.forall_mem_cons, List.not_mem_nil, false_implies, implies_true, and_true]
  exact ⟨specIllChainSet_keeps.toRing, specIllDeviceSet_keeps.toRing, specIllWeightSet_keeps.toRing, specIllFade_keeps.toRing, specIllTcSet_keeps.toRing, specIllStringSet_keeps.toRing, specIllDiagSet_keeps.toRing, specLoopSet_keeps.toRing, specLoopCoefSet_keeps.toRing, specLoopRefSet_keeps.toRing, specLoopGroupSet_keeps.toRing, specLoopArm_keeps.toRing, specLoopPwmSet_keeps.toRing, specXclRegionSet_keeps.toRing, specXclMaskLoad_keeps.toRing, specXclHostBlank_keeps.toRing, fun h s => ⟨(specXclSafeRelease_keepsInv h s), rfl⟩, specSymListSet_keeps.toRing, specSymGlyphLoad_keeps.toRing⟩

theorem linkOps_ring : ∀ sp ∈ linkOps, OpRing sp := by
  simp only [linkOps, List.forall_mem_cons, List.not_mem_nil, false_implies, implies_true, and_true]
  exact ⟨specLinkAllot_keeps.toRing, specLinkLaneSet_keeps.toRing, specLinkOctetReset_keeps.toRing, specLinkDiag_keeps.toRing, specAhmPolicySet_keeps.toRing, specAhmScan_keeps.toRing, specAhmDefectRead_keeps.toRing, specAhmPark_keeps.toRing⟩

theorem pixelOps_ring : ∀ sp ∈ pixelOps, OpRing sp := by
  simp only [pixelOps, List.forall_mem_cons, List.not_mem_nil, false_implies, implies_true, and_true]
  exact ⟨specCmpViewSet_keeps.toRing, specCmpPipeBind_keeps.toRing, specCmpLayerSet_keeps.toRing, specCmpLutSet_keeps.toRing, specCmpWritebackSet_keeps.toRing, specCmpCommit_keeps.toRing, specFabImageLoad_keeps.toRing, specFabChainSet_keeps.toRing, specFabChainGo_keeps.toRing, specFabParamSet_keeps.toRing, specFabClusterReset_keeps.toRing⟩

theorem memoryOps_ring : ∀ sp ∈ memoryOps, OpRing sp := by
  simp only [memoryOps, List.forall_mem_cons, List.not_mem_nil, false_implies, implies_true, and_true]
  exact ⟨specBufAlloc_keeps.toRing, specBufFree_keeps.toRing, specBufSignal_keeps.toRing, specMemLayoutSet_keeps.toRing, specMemReserveSet_keeps.toRing, specMemPolicySet_keeps.toRing, specMemFence_keeps.toRing, specMemRankRetire_keeps.toRing, specMemRetrain_keeps.toRing, specBufIngest_keeps.toRing⟩

theorem serviceOps_ring : ∀ sp ∈ serviceOps, OpRing sp := by
  simp only [serviceOps, List.forall_mem_cons, List.not_mem_nil, false_implies, implies_true, and_true]
  exact ⟨specUpdateBegin_keeps.toRing, specUpdateData_keeps.toRing, specUpdateCommit_keeps.toRing, specMgtFuse_keeps.toRing, specMgtBootcfgSet_keeps.toRing, specMgtRead_keeps.toRing, specMgtFaultClear_keeps.toRing, specMgtReinit_keeps.toRing, specSecChallenge_keeps.toRing, specSecLogin_keeps.toRing, specSecUserSet_keeps.toRing, specSecPolicySet_keeps.toRing, specSecKemGen_keeps.toRing, specSecKeyLoad_keeps.toRing, specSecKeyZero_keeps.toRing, specSecQuote_keeps.toRing, specSecMarkSet_keeps.toRing, specSecSelftest_keeps.toRing, specSecZeroise_keeps.toRing, specSecProvision_keeps.toRing, specPwrItemSet_keeps.toRing, specThmSet_keeps.toRing, specPwrStandby_keeps.toRing⟩


theorem allOps_ring : ∀ sp ∈ allOps, OpRing sp := by
  simp only [allOps, List.forall_mem_append]
  exact ⟨⟨⟨⟨⟨⟨sessionOps_ring, timingOps_ring⟩, lightOps_ring⟩, linkOps_ring⟩, pixelOps_ring⟩, memoryOps_ring⟩, serviceOps_ring⟩

theorem acceptOp_ring (op : BitVec 16) (c : Cmd) (s : State) : KeepsRing s (acceptOp op c s) := by
  unfold acceptOp
  split
  · exact acceptNow_ring _ _ _ (allOps_ring _ (List.mem_of_find?_eq_some (by assumption)))
  · exact (acceptUnknown_keeps _ _ _ (.refl s)).toRing

theorem deliver_ring (op : BitVec 16) (c : Cmd) (s : State) : KeepsRing s (deliver op c s) := by
  unfold deliver
  split
  · exact (Keeps.refl s).toRing
  · split
    · exact (waitCmd_keeps _ _ _ (.refl s)).toRing
    · exact acceptOp_ring _ _ _

theorem showWait_keeps {org : State} (h r : Nat) (s : State) (hk : Keeps org s) : Keeps org (showWait h r s) := by
  unfold showWait
  repeat' first
    | with_reducible assumption
    | with_reducible apply keeps_onHif
    | (intro z; have hz : Keeps org z; on_goal 1 => (simp (zeta := false) only [z]))
    | intro z
    | lift_lets
    | split

theorem resumeUpTo_ring (n : Nat) (s : State) : KeepsRing s (resumeUpTo n s) := by
  induction n generalizing s with
  | zero => exact (Keeps.refl s).toRing
  | succ n ih =>
    unfold resumeUpTo
    split
    · exact (Keeps.refl s).toRing
    · split
      · exact (Keeps.refl s).toRing
      · exact ((keeps_onHif (.refl s) _).toRing.trans (acceptOp_ring _ _ _)).trans (ih _)

theorem resumeRings_ring (s : State) : KeepsRing s (resumeRings s) := by
  unfold resumeRings
  split
  · exact (Keeps.refl s).toRing
  · exact (resumeUpTo_ring _ _).trans (keeps_forN (.refl _) _ _ fun _ _ h => keeps_forN h _ _ fun _ _ h => showWait_keeps _ _ _ h).toRing

theorem readEntry_ring (h r : Nat) (e : RawEntry) (s : State) : KeepsRing s (readEntry h r e s) := deliver_ring _ _ _

theorem ring_ite {a s t : State} {c : Prop} [Decidable c] (h : KeepsRing a s) (k : KeepsRing a t) :
    KeepsRing a (if c then s else t) := by
  split
  · exact h
  · exact k

theorem ring_foldl {a s : State} {α : Type} (f : State → α → State) (l : List α) (hf : ∀ s x, KeepsRing a s → KeepsRing a (f s x))
    (h : KeepsRing a s) : KeepsRing a (l.foldl f s) := by
  induction l generalizing s with
  | nil => exact h
  | cons x l ih => exact ih (hf _ _ h)

theorem execCringDoorbell_ring {a t : State} (h : Fin 2) (ring : Fin 4) (tail : BitVec 32) (entries : List RawEntry) (s : State)
    (hk : KeepsRing a s) (he : execCringDoorbell h ring tail entries s = .next t) : KeepsRing a t := by
  obtain rfl := (Host.Outcome.next.inj he).symm
  refine ring_ite hk (ring_ite (hk.trans (hifRaise_keeps _ _ (.refl s)).toRing) ?_)
  exact ring_foldl _ _ (fun s x h => h.trans (readEntry_ring _ _ _ s)) (hk.trans (keeps_onHif (.refl s) _).toRing)

theorem execRringDoorbell_ring {a t : State} (h : Fin 2) (ring : Fin 4) (head : BitVec 32) (s : State)
    (hk : KeepsRing a s) (he : execRringDoorbell h ring head s = .next t) : KeepsRing a t := by
  obtain rfl := (Host.Outcome.next.inj he).symm
  refine ring_ite hk (ring_ite (hk.trans (hifRaise_keeps _ _ (.refl s)).toRing) ?_)
  exact hk.trans ((flushReplies_keeps _ (keeps_onHif (.refl s) _)).toRing.trans (resumeRings_ring _))

theorem badRing_keeps {org : State} (bad : Bool) (s : State) (hk : Keeps org s) : Keeps org (badRing bad s) := by
  unfold badRing
  repeat' first
    | with_reducible assumption
    | with_reducible apply hifRaise_keeps
    | split

theorem cringCfg_keeps {org : State} (h r : Nat) (val : Word) (s : State) (hk : Keeps org s) : Keeps org (cringCfg h r val s) := by
  unfold cringCfg
  repeat' first
    | with_reducible assumption
    | with_reducible apply badRing_keeps
    | with_reducible apply keeps_onHif
    | (intro z; have hz : Keeps org z; on_goal 1 => (simp (zeta := false) only [z]))
    | intro z
    | lift_lets
    | split

theorem rringCfg_ring (h r : Nat) (val : Word) (s : State) : KeepsRing s (rringCfg h r val s) := by
  unfold rringCfg
  lift_lets
  intro q n off s1
  have h1 : Keeps s s1 := badRing_keeps _ _ (keeps_onHif (.refl s) _)
  exact ring_ite ((flushReplies_keeps _ h1).toRing.trans (resumeRings_ring _)) h1.toRing

theorem cringWrite_keeps {org : State} (h r reg : Nat) (val : Word) (s : State) (hk : Keeps org s) : Keeps org (cringWrite h r reg val s) := by
  unfold cringWrite
  repeat' first
    | with_reducible assumption
    | with_reducible apply badRing_keeps
    | with_reducible apply cringCfg_keeps
    | with_reducible apply keeps_onHif
    | (intro z; have hz : Keeps org z; on_goal 1 => (simp (zeta := false) only [z]))
    | intro z
    | lift_lets
    | split

theorem rringWrite_ring (h r reg : Nat) (val : Word) (s : State) : KeepsRing s (rringWrite h r reg val s) := by
  unfold rringWrite
  lift_lets
  intro q put
  refine ring_ite ?_ (ring_ite ?_ (ring_ite (rringCfg_ring _ _ _ _) (Keeps.refl s).toRing))
  · exact (badRing_keeps _ _ (keeps_onHif (.refl s) _)).toRing
  · exact (badRing_keeps _ _ (keeps_onHif (.refl s) _)).toRing

theorem msixWrite_keeps {org : State} (h w : Nat) (val : Word) (s : State) (hk : Keeps org s) : Keeps org (msixWrite h w val s) := by
  unfold msixWrite
  repeat' first
    | with_reducible assumption
    | with_reducible apply msix_keeps
    | with_reducible apply keeps_onHif
    | (intro z; have hz : Keeps org z; on_goal 1 => (simp (zeta := false) only [z]))
    | intro z
    | lift_lets
    | split

theorem execRingCfgWrite_ring {a t : State} (h : Fin 2) (off : BitVec 17) (val : BitVec 32) (s : State)
    (hk : KeepsRing a s) (he : execRingCfgWrite h off val s = .next t) : KeepsRing a t := by
  unfold execRingCfgWrite at he
  obtain rfl := (Host.Outcome.next.inj he).symm
  refine hk.trans (ring_ite (Keeps.refl s).toRing ?_)
  split
  · exact (cringWrite_keeps _ _ _ _ _ (.refl s)).toRing
  · exact rringWrite_ring _ _ _ _ _
  · exact (msixWrite_keeps _ _ _ _ (.refl s)).toRing
  · exact (Keeps.refl s).toRing

theorem i3cAssign_keeps {org : State} (a : BitVec 7) (s : State) (hk : Keeps org s) : Keeps org (i3cAssign a s) := by
  unfold i3cAssign
  repeat' first
    | with_reducible assumption
    | with_reducible apply keeps_onHif
    | split

theorem execI3cCommandWrite_ring {a t : State} (entry : RawEntry) (s : State)
    (hk : KeepsRing a s) (he : execI3cCommandWrite entry s = .next t) : KeepsRing a t := by
  obtain rfl := (Host.Outcome.next.inj he).symm
  exact ring_ite hk (hk.trans (deliver_ring _ _ _))

theorem execI3cPrivateRead_keeps {org : State} (s : State) (hk : Keeps org s) : OutKeeps org (execI3cPrivateRead s) := by
  unfold execI3cPrivateRead
  repeat' first
    | with_reducible assumption
    | with_reducible apply out_next
    | with_reducible apply keeps_onHif
    | (intro z; have hz : Keeps org z; on_goal 1 => (simp (zeta := false) only [z]))
    | intro z
    | lift_lets
    | split

end Sys2Proof.Machine
end

