-- ==== Sys2Proof/Laws/KeepsIdle.lean ====
section
/-!
SUPPORT. The relation Keeps for the functions of Machine/Idle.lean.
-/
set_option linter.unusedTactic false
set_option linter.unreachableTactic false
set_option linter.unusedVariables false
namespace Sys2Proof.Machine

theorem advancePhase_keeps {org : State} (s : State) (hk : Keeps org s) : Keeps org (advancePhase s) := by
  unfold advancePhase
  lift_lets
  intro n s1
  have h1 : Keeps org s1 := keeps_ite (keeps_raise hk _) hk
  clear_value s1
  exact ⟨⟨h1.queue, h1.mem, h1.rate, h1.safe⟩, h1.frame, h1.latch⟩

theorem endImpulses_keeps {org : State} (s : State) (hk : Keeps org s) : Keeps org (endImpulses s) :=
  keeps_mk hk rfl rfl rfl rfl (fun _ => id) fun h => by
    simpa [endImpulses, State.onXcl, safeAgrees, safeNow] using h

theorem qualifyInputs_keeps {org : State} (s : State) (hk : Keeps org s) : Keeps org (qualifyInputs s) := by
  unfold qualifyInputs
  split
  · lift_lets
    intro raiseIf
    have h (b : Bool) (k : Nat) (hc : k < 12) (s : State) (hk : Keeps org s) : Keeps org (raiseIf b k s) :=
      keeps_ite (raiseSource_keeps _ _ hc hk) hk
    exact h _ _ (by omega) _ (h _ _ (by omega) _ (h _ _ (by omega) _ hk))
  · exact hk

theorem followRanks_keeps {org : State} (s : State) (hk : Keeps org s) : Keeps org (followRanks s) := by
  unfold followRanks
  repeat' first
    | with_reducible assumption
    | with_reducible apply keeps_raise
    | split

theorem idle_ring (s : State) : KeepsRing s (idle s) := by
  unfold idle
  lift_lets
  intro y s1
  have h1 : Keeps s s1 := keeps_eq (.refl s) rfl rfl rfl rfl rfl
  clear_value s1
  refine ring_ite ?_ h1.toRing
  have h2 : Keeps s (followMarks (advancePhase s1)) := followMarks_keeps _ (advancePhase_keeps _ h1)
  have h3 : Keeps s (serveWaiting (noteLit (settleEdges (followMarks (advancePhase s1))))) :=
    serveWaiting_keeps _ (noteLit_keeps _ (settleEdges_keeps _ h2))
  have h4 := (settleStandby_keeps _ (qualifyInputs_keeps _ (endImpulses_keeps _ h3))).toRing.trans (resumeRings_ring _)
  exact h4.trans (followRanks_keeps _ (.refl _)).toRing

end Sys2Proof.Machine
end

