-- ==== Sys2Proof/WellFormed.lean ====
section
/-!
DEFINITION. Well-formed commands: the operands that a host, a pin or a unit of the device can present. The meanings are total, so a
command that is not well formed has a next state too.
-/
namespace Sys2Proof

/-- A command entry as it can arrive: from host 1 to 3, host 3 on ring 0, with the inline area's bytes, and with PTR the LEN bytes
that its descriptor names (R438, R439). -/
def Cmd.wf (c : Cmd) : Bool :=
  c.host != 0 && (c.host != 3 || c.ring == 0) && decide (c.inl.length ≤ 224) &&
  (if Machine.Cmd.isPtr c && c.plen == 16 then c.ptr.length == Machine.Cmd.ptrLen c else c.ptr.isEmpty)

/-- The operands of a command are ones that can occur. -/
def Instr.wf (i : Instr) : Bool :=
  match i with
  | .sessionOpen cmd => cmd.wf
  | .sessionClose cmd => cmd.wf
  | .heartbeat cmd => cmd.wf
  | .claim cmd => cmd.wf
  | .release cmd => cmd.wf
  | .eventMaskSet cmd => cmd.wf
  | .cpReset cmd => cmd.wf
  | .timingSet cmd => cmd.wf
  | .cameraSet cmd => cmd.wf
  | .viewBind cmd => cmd.wf
  | .timingCommit cmd => cmd.wf
  | .phaseSteer cmd => cmd.wf
  | .phaseMarkSet cmd => cmd.wf
  | .seqPortSet cmd => cmd.wf
  | .seqLoad cmd => cmd.wf
  | .seqCommit cmd => cmd.wf
  | .seqDriveSet cmd => cmd.wf
  | .holdSet cmd => cmd.wf
  | .holdExit cmd => cmd.wf
  | .planeStoreSet cmd => cmd.wf
  | .illChainSet cmd => cmd.wf
  | .illDeviceSet cmd => cmd.wf
  | .illWeightSet cmd => cmd.wf
  | .illFade cmd => cmd.wf
  | .illTcSet cmd => cmd.wf
  | .illStringSet cmd => cmd.wf
  | .illDiagSet cmd => cmd.wf
  | .loopSet cmd => cmd.wf
  | .loopCoefSet cmd => cmd.wf
  | .loopRefSet cmd => cmd.wf
  | .loopGroupSet cmd => cmd.wf
  | .loopArm cmd => cmd.wf
  | .loopPwmSet cmd => cmd.wf
  | .xclRegionSet cmd => cmd.wf
  | .xclMaskLoad cmd => cmd.wf
  | .xclHostBlank cmd => cmd.wf
  | .xclSafeRelease cmd => cmd.wf
  | .symListSet cmd => cmd.wf
  | .symGlyphLoad cmd => cmd.wf
  | .linkAllot cmd => cmd.wf
  | .linkLaneSet cmd => cmd.wf
  | .linkOctetReset cmd => cmd.wf
  | .linkDiag cmd => cmd.wf
  | .ahmPolicySet cmd => cmd.wf
  | .ahmScanStart cmd => cmd.wf
  | .ahmScanAbort cmd => cmd.wf
  | .ahmDefectRead cmd => cmd.wf
  | .ahmPark cmd => cmd.wf
  | .ahmParkRelease cmd => cmd.wf
  | .cmpViewSet cmd => cmd.wf
  | .cmpPipeBind cmd => cmd.wf
  | .cmpLayerSet cmd => cmd.wf
  | .cmpLutSet cmd => cmd.wf
  | .cmpWritebackSet cmd => cmd.wf
  | .cmpCommit cmd => cmd.wf
  | .fabImageLoad cmd => cmd.wf
  | .fabChainSet cmd => cmd.wf
  | .fabChainGo cmd => cmd.wf
  | .fabParamSet cmd => cmd.wf
  | .fabClusterReset cmd => cmd.wf
  | .bufAlloc cmd => cmd.wf
  | .bufFree cmd => cmd.wf
  | .bufSignal cmd => cmd.wf
  | .bufIngest cmd => cmd.wf
  | .memLayoutSet cmd => cmd.wf
  | .memReserveSet cmd => cmd.wf
  | .memPolicySet cmd => cmd.wf
  | .memFence cmd => cmd.wf
  | .memRankRetire cmd => cmd.wf
  | .memRetrain cmd => cmd.wf
  | .updateBegin cmd => cmd.wf
  | .updateData cmd => cmd.wf
  | .updateCommit cmd => cmd.wf
  | .mgtFuseAdvance cmd => cmd.wf
  | .mgtFuseRevoke cmd => cmd.wf
  | .mgtBootcfgSet cmd => cmd.wf
  | .mgtRead cmd => cmd.wf
  | .mgtFaultClear cmd => cmd.wf
  | .mgtReinit cmd => cmd.wf
  | .secChallenge cmd => cmd.wf
  | .secLogin cmd => cmd.wf
  | .secUserSet cmd => cmd.wf
  | .secPolicySet cmd => cmd.wf
  | .secKemGen cmd => cmd.wf
  | .secKeyLoad cmd => cmd.wf
  | .secKeyZero cmd => cmd.wf
  | .secQuote cmd => cmd.wf
  | .secMarkSet cmd => cmd.wf
  | .secSelftest cmd => cmd.wf
  | .secZeroise cmd => cmd.wf
  | .secProvision cmd => cmd.wf
  | .pwrItemSet cmd => cmd.wf
  | .thmSet cmd => cmd.wf
  | .pwrStandbyEnter cmd => cmd.wf
  | .pwrStandbyExit cmd => cmd.wf
  | .journalRead cmd => cmd.wf
  | .journalMark cmd => cmd.wf
  | .cringDoorbell _ _ _ entries => decide (entries.length < 4096) && entries.all fun e => e.bytes.length == 256
  | .rringDoorbell _ _ _ => true
  | .ringCfgWrite _ off _ => off.toNat % 4 == 0
  | .i3cCommandWrite entry => entry.bytes.length == 256
  | .i3cBar0ReadSetup off _ => off.toNat % 4 == 0
  | .i3cBar0Write off _ => off.toNat % 4 == 0
  | .i3cPrivateRead => true
  | .registerWrite _ off _ => off.toNat % 4 == 0
  | .unmapped _ _ size _ => decide (0 < size)
  | .bar2Access _ _ acc => (match acc with | .read n => decide (0 < n) | .write d => decide (0 < d.length))
  | .freezeWrite _ _ => true
  | .calSetWrite _ _ _ _ => true
  | .calClassCtrlWrite _ _ => true
  | .flr _ => true
  | .perstN _ => true
  | .dlDown _ => true
  | .hifReady => true
  | .journalEntryPersisted _ => true
  | .msixCoalesceExpire _ _ => true
  | .leaseExpire _ => true
  | .cpWatchdog c => match c.2 with | none => true | some q => q.2.wf
  | .cpCorePowerOn _ => true
  | .cpCoreIdleOff _ => true
  | .porstNAssert => true
  | .porstNRelease _ => true
  | .wrstNAssert => true
  | .wrstNRelease => true
  | .uvloRising _ => true
  | .uvloFalling _ => true
  | .vinHigh _ => true
  | .vinLow _ => true
  | .vbatLow => true
  | .railSeqStep => true
  | .railSeqTimeout => true
  | .railSeqRetry => true
  | .pgoodFall _ => true
  | .avsUpdate readback => decide (readback < 65536)
  | .pmbusItemPoll _ _ _ => true
  | .pmbusAlert _ => true
  | .domainSwitchOn => true
  | .thermalSample readings => readings.length == 52
  | .shutdownRestart => true
  | .safeBlankNFall => true
  | .safeBlankNRise => true
  | .ilockOpen _ => true
  | .ilockClose _ => true
  | .ilockClosed10ms => true
  | .ilockDisc => true
  | .clockMonitorFault _ => true
  | .clockMonitorGood _ => true
  | .periodBoundary => true
  | .windowFreeze => true
  | .selectionPoint => true
  | .refLoss => true
  | .holdoverExpire => true
  | .steerTimeout => true
  | .lockTimeout => true
  | .refInEdge _ => true
  | .camShutEdge _ _ => true
  | .camOpenEdgeMissing _ => true
  | .phaseMarkEdge _ _ => true
  | .slotStart _ => true
  | .slotSettleEnd _ => true
  | .bandResetQueue _ _ => true
  | .bandChangeover _ _ => true
  | .planeRowFetch _ => true
  | .linkFrameInterval _ => true
  | .holdTimeout _ => true
  | .holdSubslot _ => true
  | .keepaliveBurst _ => true
  | .chainFrame _ responses => decide (responses.length ≤ 32)
  | .startupWalkDone _ _ => true
  | .discoverDone _ _ ids => decide (ids.length ≤ 32)
  | .discoverTimeout _ => true
  | .walkStep fail => (match fail with | some (.senseBall cs) => decide (0 < cs.length) | _ => true)
  | .diagPulse => true
  | .stringMeasurement _ _ _ => true
  | .diagStarved => true
  | .loopTrigger _ => true
  | .loopStep _ sense => decide (sense.length ≤ 5)
  | .pwmPeriodStart _ => true
  | .xclVersionReady _ _ => true
  | .slicerBandOffer _ => true
  | .slicerFillDone _ => true
  | .slicerDrainDone _ => true
  | .cmpFrameStart _ _ => true
  | .cmpFrameDone _ => true
  | .fabBandStart _ => true
  | .fabBandDone _ => true
  | .symbRenderStart _ _ => true
  | .symbRenderDone _ => true
  | .clusterLoadDone _ => true
  | .clusterDrainDone _ => true
  | .fabSramUe _ => true
  | .memRequest q => q.addr % 32 == 0 && (match q.data with | some d => d.length == 32 | none => true)
  | .requestPromote _ => true
  | .pageIdleClose _ _ _ => true
  | .refresh _ _ _ => true
  | .rankPowerDown _ => true
  | .selfRefreshEntry => true
  | .selfRefreshExit _ => true
  | .scrubPass => true
  | .migrationStart _ => true
  | .migrationRowCopied => true
  | .retrainTempTrigger _ => true
  | .retrainGap _ => true
  | .retrainDone _ found => (match found with | some vs => vs.length == 98 | none => true)
  | .bootTrainingDone _ => true
  | .ingestTransferDone _ _ => true
  | .bcFrameReceived _ bits => decide (24 < bits.length)
  | .bcLockLost _ => true
  | .bcSilence _ => true
  | .ack _ _ _ => true
  | .ackMissing _ => true
  | .status _ ws => decide (ws.length ≤ 32)
  | .lanemap _ ws => decide (ws.length ≤ 32)
  | .caps _ ws => decide (ws.length ≤ 32)
  | .errcnt _ ws => decide (ws.length ≤ 64)
  | .temp _ _ => true
  | .tempStale _ => true
  | .defect _ ws => decide (ws.length ≤ 255)
  | .scanData _ ws => decide (ws.length ≤ 255)
  | .scanDone _ _ _ _ => true
  | .scanState _ _ => true
  | .scanTimeout _ => true
  | .parkState _ _ => true
  | .ctrlTimeout _ _ => true
  | .trainPass1End _ => true
  | .trainFail _ => true
  | .trainRestart _ => true
  | .bcAbsent _ => true
  | .electricalIdleEnd _ => true
  | .defectMapSave _ => true
  | .mgtLockstepError _ => true
  | .mgtWatchdog => true
  | .mgtRun => true
  | .bootImageVerify => true
  | .bootAllotment => true
  | .eventLogFlush => true
  | .flashEraseDone => true
  | .fuseBurnDone => true
  | .enclaveSelftestDone _ => true
  | .periodicSelftest _ => true
  | .drbgReseed => true
  | .entropyFailure => true
  | .nonceExpire _ => true
  | .loginLockoutEnd _ => true
  | .kemContextExpire _ => true
  | .tamperSample _ _ cdeg => decide (-27316 < cdeg)
  | .jtagInstruction _ => true
  | .calStep _ => true
  | .offsetWindow _ _ ones => decide (ones ≤ 65536)
  | .edgeSweepDone _ _ counts => counts.length == 64
  | .darkWindow means => means.length == 44
  | .linkReadyTimeout _ => true
  | .standbyExitTimeout => true
  | .enclaveServiceDone _ => true
  | .flashWriteDone _ => true
  | .updateVerifyDone => true
  | .supplyGlitch => true

end Sys2Proof
end

