-- ==== Sys2Proof/Laws/PerInstr.lean ====
section
/-!
SUPPORT. One statement about each command as syntax: a row that carries a command entry is well formed exactly when its entry is,
and its opcode lies in the groups 0x00 to 0x0D of R446; the other rows carry no entry.
-/
namespace Sys2Proof.Laws.Entry

/-- What the row's entry says of the row. -/
def Statement (i : Instr) : Prop :=
  ∀ sp c, Machine.hostRow i = some (sp, c) → i.wf = c.wf ∧ sp.op.toNat < 0x0E00

theorem sessionOpen (c : Cmd) : Statement (.sessionOpen c) := by
  intro sp d h; cases h; exact ⟨rfl, by decide⟩
theorem sessionClose (c : Cmd) : Statement (.sessionClose c) := by
  intro sp d h; cases h; exact ⟨rfl, by decide⟩
theorem heartbeat (c : Cmd) : Statement (.heartbeat c) := by
  intro sp d h; cases h; exact ⟨rfl, by decide⟩
theorem claim (c : Cmd) : Statement (.claim c) := by
  intro sp d h; cases h; exact ⟨rfl, by decide⟩
theorem release (c : Cmd) : Statement (.release c) := by
  intro sp d h; cases h; exact ⟨rfl, by decide⟩
theorem eventMaskSet (c : Cmd) : Statement (.eventMaskSet c) := by
  intro sp d h; cases h; exact ⟨rfl, by decide⟩
theorem cpReset (c : Cmd) : Statement (.cpReset c) := by
  intro sp d h; cases h; exact ⟨rfl, by decide⟩
theorem timingSet (c : Cmd) : Statement (.timingSet c) := by
  intro sp d h; cases h; exact ⟨rfl, by decide⟩
theorem cameraSet (c : Cmd) : Statement (.cameraSet c) := by
  intro sp d h; cases h; exact ⟨rfl, by decide⟩
theorem viewBind (c : Cmd) : Statement (.viewBind c) := by
  intro sp d h; cases h; exact ⟨rfl, by decide⟩
theorem timingCommit (c : Cmd) : Statement (.timingCommit c) := by
  intro sp d h; cases h; exact ⟨rfl, by decide⟩
theorem phaseSteer (c : Cmd) : Statement (.phaseSteer c) := by
  intro sp d h; cases h; exact ⟨rfl, by decide⟩
theorem phaseMarkSet (c : Cmd) : Statement (.phaseMarkSet c) := by
  intro sp d h; cases h; exact ⟨rfl, by decide⟩
theorem seqPortSet (c : Cmd) : Statement (.seqPortSet c) := by
  intro sp d h; cases h; exact ⟨rfl, by decide⟩
theorem seqLoad (c : Cmd) : Statement (.seqLoad c) := by
  intro sp d h; cases h; exact ⟨rfl, by decide⟩
theorem seqCommit (c : Cmd) : Statement (.seqCommit c) := by
  intro sp d h; cases h; exact ⟨rfl, by decide⟩
theorem seqDriveSet (c : Cmd) : Statement (.seqDriveSet c) := by
  intro sp d h; cases h; exact ⟨rfl, by decide⟩
theorem holdSet (c : Cmd) : Statement (.holdSet c) := by
  intro sp d h; cases h; exact ⟨rfl, by decide⟩
theorem holdExit (c : Cmd) : Statement (.holdExit c) := by
  intro sp d h; cases h; exact ⟨rfl, by decide⟩
theorem planeStoreSet (c : Cmd) : Statement (.planeStoreSet c) := by
  intro sp d h; cases h; exact ⟨rfl, by decide⟩
theorem illChainSet (c : Cmd) : Statement (.illChainSet c) := by
  intro sp d h; cases h; exact ⟨rfl, by decide⟩
theorem illDeviceSet (c : Cmd) : Statement (.illDeviceSet c) := by
  intro sp d h; cases h; exact ⟨rfl, by decide⟩
theorem illWeightSet (c : Cmd) : Statement (.illWeightSet c) := by
  intro sp d h; cases h; exact ⟨rfl, by decide⟩
theorem illFade (c : Cmd) : Statement (.illFade c) := by
  intro sp d h; cases h; exact ⟨rfl, by decide⟩
theorem illTcSet (c : Cmd) : Statement (.illTcSet c) := by
  intro sp d h; cases h; exact ⟨rfl, by decide⟩
theorem illStringSet (c : Cmd) : Statement (.illStringSet c) := by
  intro sp d h; cases h; exact ⟨rfl, by decide⟩
theorem illDiagSet (c : Cmd) : Statement (.illDiagSet c) := by
  intro sp d h; cases h; exact ⟨rfl, by decide⟩
theorem loopSet (c : Cmd) : Statement (.loopSet c) := by
  intro sp d h; cases h; exact ⟨rfl, by decide⟩
theorem loopCoefSet (c : Cmd) : Statement (.loopCoefSet c) := by
  intro sp d h; cases h; exact ⟨rfl, by decide⟩
theorem loopRefSet (c : Cmd) : Statement (.loopRefSet c) := by
  intro sp d h; cases h; exact ⟨rfl, by decide⟩
theorem loopGroupSet (c : Cmd) : Statement (.loopGroupSet c) := by
  intro sp d h; cases h; exact ⟨rfl, by decide⟩
theorem loopArm (c : Cmd) : Statement (.loopArm c) := by
  intro sp d h; cases h; exact ⟨rfl, by decide⟩
theorem loopPwmSet (c : Cmd) : Statement (.loopPwmSet c) := by
  intro sp d h; cases h; exact ⟨rfl, by decide⟩
theorem xclRegionSet (c : Cmd) : Statement (.xclRegionSet c) := by
  intro sp d h; cases h; exact ⟨rfl, by decide⟩
theorem xclMaskLoad (c : Cmd) : Statement (.xclMaskLoad c) := by
  intro sp d h; cases h; exact ⟨rfl, by decide⟩
theorem xclHostBlank (c : Cmd) : Statement (.xclHostBlank c) := by
  intro sp d h; cases h; exact ⟨rfl, by decide⟩
theorem xclSafeRelease (c : Cmd) : Statement (.xclSafeRelease c) := by
  intro sp d h; cases h; exact ⟨rfl, by decide⟩
theorem symListSet (c : Cmd) : Statement (.symListSet c) := by
  intro sp d h; cases h; exact ⟨rfl, by decide⟩
theorem symGlyphLoad (c : Cmd) : Statement (.symGlyphLoad c) := by
  intro sp d h; cases h; exact ⟨rfl, by decide⟩
theorem linkAllot (c : Cmd) : Statement (.linkAllot c) := by
  intro sp d h; cases h; exact ⟨rfl, by decide⟩
theorem linkLaneSet (c : Cmd) : Statement (.linkLaneSet c) := by
  intro sp d h; cases h; exact ⟨rfl, by decide⟩
theorem linkOctetReset (c : Cmd) : Statement (.linkOctetReset c) := by
  intro sp d h; cases h; exact ⟨rfl, by decide⟩
theorem linkDiag (c : Cmd) : Statement (.linkDiag c) := by
  intro sp d h; cases h; exact ⟨rfl, by decide⟩
theorem ahmPolicySet (c : Cmd) : Statement (.ahmPolicySet c) := by
  intro sp d h; cases h; exact ⟨rfl, by decide⟩
theorem ahmScanStart (c : Cmd) : Statement (.ahmScanStart c) := by
  intro sp d h; cases h; exact ⟨rfl, by decide⟩
theorem ahmScanAbort (c : Cmd) : Statement (.ahmScanAbort c) := by
  intro sp d h; cases h; exact ⟨rfl, by decide⟩
theorem ahmDefectRead (c : Cmd) : Statement (.ahmDefectRead c) := by
  intro sp d h; cases h; exact ⟨rfl, by decide⟩
theorem ahmPark (c : Cmd) : Statement (.ahmPark c) := by
  intro sp d h; cases h; exact ⟨rfl, by decide⟩
theorem ahmParkRelease (c : Cmd) : Statement (.ahmParkRelease c) := by
  intro sp d h; cases h; exact ⟨rfl, by decide⟩
theorem cmpViewSet (c : Cmd) : Statement (.cmpViewSet c) := by
  intro sp d h; cases h; exact ⟨rfl, by decide⟩
theorem cmpPipeBind (c : Cmd) : Statement (.cmpPipeBind c) := by
  intro sp d h; cases h; exact ⟨rfl, by decide⟩
theorem cmpLayerSet (c : Cmd) : Statement (.cmpLayerSet c) := by
  intro sp d h; cases h; exact ⟨rfl, by decide⟩
theorem cmpLutSet (c : Cmd) : Statement (.cmpLutSet c) := by
  intro sp d h; cases h; exact ⟨rfl, by decide⟩
theorem cmpWritebackSet (c : Cmd) : Statement (.cmpWritebackSet c) := by
  intro sp d h; cases h; exact ⟨rfl, by decide⟩
theorem cmpCommit (c : Cmd) : Statement (.cmpCommit c) := by
  intro sp d h; cases h; exact ⟨rfl, by decide⟩
theorem fabImageLoad (c : Cmd) : Statement (.fabImageLoad c) := by
  intro sp d h; cases h; exact ⟨rfl, by decide⟩
theorem fabChainSet (c : Cmd) : Statement (.fabChainSet c) := by
  intro sp d h; cases h; exact ⟨rfl, by decide⟩
theorem fabChainGo (c : Cmd) : Statement (.fabChainGo c) := by
  intro sp d h; cases h; exact ⟨rfl, by decide⟩
theorem fabParamSet (c : Cmd) : Statement (.fabParamSet c) := by
  intro sp d h; cases h; exact ⟨rfl, by decide⟩
theorem fabClusterReset (c : Cmd) : Statement (.fabClusterReset c) := by
  intro sp d h; cases h; exact ⟨rfl, by decide⟩
theorem bufAlloc (c : Cmd) : Statement (.bufAlloc c) := by
  intro sp d h; cases h; exact ⟨rfl, by decide⟩
theorem bufFree (c : Cmd) : Statement (.bufFree c) := by
  intro sp d h; cases h; exact ⟨rfl, by decide⟩
theorem bufSignal (c : Cmd) : Statement (.bufSignal c) := by
  intro sp d h; cases h; exact ⟨rfl, by decide⟩
theorem bufIngest (c : Cmd) : Statement (.bufIngest c) := by
  intro sp d h; cases h; exact ⟨rfl, by decide⟩
theorem memLayoutSet (c : Cmd) : Statement (.memLayoutSet c) := by
  intro sp d h; cases h; exact ⟨rfl, by decide⟩
theorem memReserveSet (c : Cmd) : Statement (.memReserveSet c) := by
  intro sp d h; cases h; exact ⟨rfl, by decide⟩
theorem memPolicySet (c : Cmd) : Statement (.memPolicySet c) := by
  intro sp d h; cases h; exact ⟨rfl, by decide⟩
theorem memFence (c : Cmd) : Statement (.memFence c) := by
  intro sp d h; cases h; exact ⟨rfl, by decide⟩
theorem memRankRetire (c : Cmd) : Statement (.memRankRetire c) := by
  intro sp d h; cases h; exact ⟨rfl, by decide⟩
theorem memRetrain (c : Cmd) : Statement (.memRetrain c) := by
  intro sp d h; cases h; exact ⟨rfl, by decide⟩
theorem updateBegin (c : Cmd) : Statement (.updateBegin c) := by
  intro sp d h; cases h; exact ⟨rfl, by decide⟩
theorem updateData (c : Cmd) : Statement (.updateData c) := by
  intro sp d h; cases h; exact ⟨rfl, by decide⟩
theorem updateCommit (c : Cmd) : Statement (.updateCommit c) := by
  intro sp d h; cases h; exact ⟨rfl, by decide⟩
theorem mgtFuseAdvance (c : Cmd) : Statement (.mgtFuseAdvance c) := by
  intro sp d h; cases h; exact ⟨rfl, by decide⟩
theorem mgtFuseRevoke (c : Cmd) : Statement (.mgtFuseRevoke c) := by
  intro sp d h; cases h; exact ⟨rfl, by decide⟩
theorem mgtBootcfgSet (c : Cmd) : Statement (.mgtBootcfgSet c) := by
  intro sp d h; cases h; exact ⟨rfl, by decide⟩
theorem mgtRead (c : Cmd) : Statement (.mgtRead c) := by
  intro sp d h; cases h; exact ⟨rfl, by decide⟩
theorem mgtFaultClear (c : Cmd) : Statement (.mgtFaultClear c) := by
  intro sp d h; cases h; exact ⟨rfl, by decide⟩
theorem mgtReinit (c : Cmd) : Statement (.mgtReinit c) := by
  intro sp d h; cases h; exact ⟨rfl, by decide⟩
theorem secChallenge (c : Cmd) : Statement (.secChallenge c) := by
  intro sp d h; cases h; exact ⟨rfl, by decide⟩
theorem secLogin (c : Cmd) : Statement (.secLogin c) := by
  intro sp d h; cases h; exact ⟨rfl, by decide⟩
theorem secUserSet (c : Cmd) : Statement (.secUserSet c) := by
  intro sp d h; cases h; exact ⟨rfl, by decide⟩
theorem secPolicySet (c : Cmd) : Statement (.secPolicySet c) := by
  intro sp d h; cases h; exact ⟨rfl, by decide⟩
theorem secKemGen (c : Cmd) : Statement (.secKemGen c) := by
  intro sp d h; cases h; exact ⟨rfl, by decide⟩
theorem secKeyLoad (c : Cmd) : Statement (.secKeyLoad c) := by
  intro sp d h; cases h; exact ⟨rfl, by decide⟩
theorem secKeyZero (c : Cmd) : Statement (.secKeyZero c) := by
  intro sp d h; cases h; exact ⟨rfl, by decide⟩
theorem secQuote (c : Cmd) : Statement (.secQuote c) := by
  intro sp d h; cases h; exact ⟨rfl, by decide⟩
theorem secMarkSet (c : Cmd) : Statement (.secMarkSet c) := by
  intro sp d h; cases h; exact ⟨rfl, by decide⟩
theorem secSelftest (c : Cmd) : Statement (.secSelftest c) := by
  intro sp d h; cases h; exact ⟨rfl, by decide⟩
theorem secZeroise (c : Cmd) : Statement (.secZeroise c) := by
  intro sp d h; cases h; exact ⟨rfl, by decide⟩
theorem secProvision (c : Cmd) : Statement (.secProvision c) := by
  intro sp d h; cases h; exact ⟨rfl, by decide⟩
theorem pwrItemSet (c : Cmd) : Statement (.pwrItemSet c) := by
  intro sp d h; cases h; exact ⟨rfl, by decide⟩
theorem thmSet (c : Cmd) : Statement (.thmSet c) := by
  intro sp d h; cases h; exact ⟨rfl, by decide⟩
theorem pwrStandbyEnter (c : Cmd) : Statement (.pwrStandbyEnter c) := by
  intro sp d h; cases h; exact ⟨rfl, by decide⟩
theorem pwrStandbyExit (c : Cmd) : Statement (.pwrStandbyExit c) := by
  intro sp d h; cases h; exact ⟨rfl, by decide⟩
theorem journalRead (c : Cmd) : Statement (.journalRead c) := by
  intro sp d h; cases h; exact ⟨rfl, by decide⟩
theorem journalMark (c : Cmd) : Statement (.journalMark c) := by
  intro sp d h; cases h; exact ⟨rfl, by decide⟩
theorem cringDoorbell h ring tail entries : Statement (.cringDoorbell h ring tail entries) := nofun
theorem rringDoorbell h ring head : Statement (.rringDoorbell h ring head) := nofun
theorem ringCfgWrite h off val : Statement (.ringCfgWrite h off val) := nofun
theorem i3cCommandWrite entry : Statement (.i3cCommandWrite entry) := nofun
theorem i3cBar0ReadSetup off count : Statement (.i3cBar0ReadSetup off count) := nofun
theorem i3cBar0Write off val : Statement (.i3cBar0Write off val) := nofun
theorem i3cPrivateRead : Statement (.i3cPrivateRead) := nofun
theorem registerWrite h off val : Statement (.registerWrite h off val) := nofun
theorem unmapped h off size write : Statement (.unmapped h off size write) := nofun
theorem bar2Access h off acc : Statement (.bar2Access h off acc) := nofun
theorem freezeWrite r val : Statement (.freezeWrite r val) := nofun
theorem calSetWrite r set word val : Statement (.calSetWrite r set word val) := nofun
theorem calClassCtrlWrite k val : Statement (.calClassCtrlWrite k val) := nofun
theorem flr h : Statement (.flr h) := nofun
theorem perstN h : Statement (.perstN h) := nofun
theorem dlDown h : Statement (.dlDown h) := nofun
theorem hifReady : Statement (.hifReady) := nofun
theorem journalEntryPersisted ok : Statement (.journalEntryPersisted ok) := nofun
theorem msixCoalesceExpire h vec : Statement (.msixCoalesceExpire h vec) := nofun
theorem leaseExpire h : Statement (.leaseExpire h) := nofun
theorem cpWatchdog c : Statement (.cpWatchdog c) := nofun
theorem cpCorePowerOn c : Statement (.cpCorePowerOn c) := nofun
theorem cpCoreIdleOff c : Statement (.cpCoreIdleOff c) := nofun
theorem porstNAssert : Statement (.porstNAssert) := nofun
theorem porstNRelease straps : Statement (.porstNRelease straps) := nofun
theorem wrstNAssert : Statement (.wrstNAssert) := nofun
theorem wrstNRelease : Statement (.wrstNRelease) := nofun
theorem uvloRising mv : Statement (.uvloRising mv) := nofun
theorem uvloFalling mv : Statement (.uvloFalling mv) := nofun
theorem vinHigh mv : Statement (.vinHigh mv) := nofun
theorem vinLow mv : Statement (.vinLow mv) := nofun
theorem vbatLow : Statement (.vbatLow) := nofun
theorem railSeqStep : Statement (.railSeqStep) := nofun
theorem railSeqTimeout : Statement (.railSeqTimeout) := nofun
theorem railSeqRetry : Statement (.railSeqRetry) := nofun
theorem pgoodFall k : Statement (.pgoodFall k) := nofun
theorem avsUpdate readback : Statement (.avsUpdate readback) := nofun
theorem pmbusItemPoll k raw voutMode : Statement (.pmbusItemPoll k raw voutMode) := nofun
theorem pmbusAlert words : Statement (.pmbusAlert words) := nofun
theorem domainSwitchOn : Statement (.domainSwitchOn) := nofun
theorem thermalSample readings : Statement (.thermalSample readings) := nofun
theorem shutdownRestart : Statement (.shutdownRestart) := nofun
theorem safeBlankNFall : Statement (.safeBlankNFall) := nofun
theorem safeBlankNRise : Statement (.safeBlankNRise) := nofun
theorem ilockOpen b : Statement (.ilockOpen b) := nofun
theorem ilockClose b : Statement (.ilockClose b) := nofun
theorem ilockClosed10ms : Statement (.ilockClosed10ms) := nofun
theorem ilockDisc : Statement (.ilockDisc) := nofun
theorem clockMonitorFault m : Statement (.clockMonitorFault m) := nofun
theorem clockMonitorGood m : Statement (.clockMonitorGood m) := nofun
theorem periodBoundary : Statement (.periodBoundary) := nofun
theorem windowFreeze : Statement (.windowFreeze) := nofun
theorem selectionPoint : Statement (.selectionPoint) := nofun
theorem refLoss : Statement (.refLoss) := nofun
theorem holdoverExpire : Statement (.holdoverExpire) := nofun
theorem steerTimeout : Statement (.steerTimeout) := nofun
theorem lockTimeout : Statement (.lockTimeout) := nofun
theorem refInEdge rising : Statement (.refInEdge rising) := nofun
theorem camShutEdge c level : Statement (.camShutEdge c level) := nofun
theorem camOpenEdgeMissing c : Statement (.camOpenEdgeMissing c) := nofun
theorem phaseMarkEdge k active : Statement (.phaseMarkEdge k active) := nofun
theorem slotStart p : Statement (.slotStart p) := nofun
theorem slotSettleEnd p : Statement (.slotSettleEnd p) := nofun
theorem bandResetQueue p b : Statement (.bandResetQueue p b) := nofun
theorem bandChangeover p b : Statement (.bandChangeover p b) := nofun
theorem planeRowFetch p : Statement (.planeRowFetch p) := nofun
theorem linkFrameInterval p : Statement (.linkFrameInterval p) := nofun
theorem holdTimeout p : Statement (.holdTimeout p) := nofun
theorem holdSubslot p : Statement (.holdSubslot p) := nofun
theorem keepaliveBurst p : Statement (.keepaliveBurst p) := nofun
theorem chainFrame c responses : Statement (.chainFrame c responses) := nofun
theorem startupWalkDone c fail : Statement (.startupWalkDone c fail) := nofun
theorem discoverDone c delay ids : Statement (.discoverDone c delay ids) := nofun
theorem discoverTimeout c : Statement (.discoverTimeout c) := nofun
theorem walkStep fail : Statement (.walkStep fail) := nofun
theorem diagPulse : Statement (.diagPulse) := nofun
theorem stringMeasurement k mv stale : Statement (.stringMeasurement k mv stale) := nofun
theorem diagStarved : Statement (.diagStarved) := nofun
theorem loopTrigger n : Statement (.loopTrigger n) := nofun
theorem loopStep n sense : Statement (.loopStep n sense) := nofun
theorem pwmPeriodStart n : Statement (.pwmPeriodStart n) := nofun
theorem xclVersionReady p agree : Statement (.xclVersionReady p agree) := nofun
theorem slicerBandOffer v : Statement (.slicerBandOffer v) := nofun
theorem slicerFillDone k : Statement (.slicerFillDone k) := nofun
theorem slicerDrainDone k : Statement (.slicerDrainDone k) := nofun
theorem cmpFrameStart v fofs : Statement (.cmpFrameStart v fofs) := nofun
theorem cmpFrameDone v : Statement (.cmpFrameDone v) := nofun
theorem fabBandStart v : Statement (.fabBandStart v) := nofun
theorem fabBandDone v : Statement (.fabBandDone v) := nofun
theorem symbRenderStart v fofs : Statement (.symbRenderStart v fofs) := nofun
theorem symbRenderDone v : Statement (.symbRenderDone v) := nofun
theorem clusterLoadDone n : Statement (.clusterLoadDone n) := nofun
theorem clusterDrainDone n : Statement (.clusterDrainDone n) := nofun
theorem fabSramUe n : Statement (.fabSramUe n) := nofun
theorem memRequest q : Statement (.memRequest q) := nofun
theorem requestPromote n : Statement (.requestPromote n) := nofun
theorem pageIdleClose pc rank bank : Statement (.pageIdleClose pc rank bank) := nofun
theorem refresh pc rank bank : Statement (.refresh pc rank bank) := nofun
theorem rankPowerDown r : Statement (.rankPowerDown r) := nofun
theorem selfRefreshEntry : Statement (.selfRefreshEntry) := nofun
theorem selfRefreshExit r : Statement (.selfRefreshExit r) := nofun
theorem scrubPass : Statement (.scrubPass) := nofun
theorem migrationStart lr : Statement (.migrationStart lr) := nofun
theorem migrationRowCopied : Statement (.migrationRowCopied) := nofun
theorem retrainTempTrigger pc : Statement (.retrainTempTrigger pc) := nofun
theorem retrainGap pc : Statement (.retrainGap pc) := nofun
theorem retrainDone pc found : Statement (.retrainDone pc found) := nofun
theorem bootTrainingDone working : Statement (.bootTrainingDone working) := nofun
theorem ingestTransferDone host res : Statement (.ingestTransferDone host res) := nofun
theorem bcFrameReceived o bits : Statement (.bcFrameReceived o bits) := nofun
theorem bcLockLost o : Statement (.bcLockLost o) := nofun
theorem bcSilence o : Statement (.bcSilence o) := nofun
theorem ack p w1 w2 : Statement (.ack p w1 w2) := nofun
theorem ackMissing p : Statement (.ackMissing p) := nofun
theorem status p ws : Statement (.status p ws) := nofun
theorem lanemap p ws : Statement (.lanemap p ws) := nofun
theorem caps p ws : Statement (.caps p ws) := nofun
theorem errcnt p ws : Statement (.errcnt p ws) := nofun
theorem temp p w : Statement (.temp p w) := nofun
theorem tempStale p : Statement (.tempStale p) := nofun
theorem defect p ws : Statement (.defect p ws) := nofun
theorem scanData p ws : Statement (.scanData p ws) := nofun
theorem scanDone p w1 w2 w3 : Statement (.scanDone p w1 w2 w3) := nofun
theorem scanState p w : Statement (.scanState p w) := nofun
theorem scanTimeout p : Statement (.scanTimeout p) := nofun
theorem parkState p w : Statement (.parkState p w) := nofun
theorem ctrlTimeout p op : Statement (.ctrlTimeout p op) := nofun
theorem trainPass1End p : Statement (.trainPass1End p) := nofun
theorem trainFail p : Statement (.trainFail p) := nofun
theorem trainRestart p : Statement (.trainRestart p) := nofun
theorem bcAbsent o : Statement (.bcAbsent o) := nofun
theorem electricalIdleEnd o : Statement (.electricalIdleEnd o) := nofun
theorem defectMapSave p : Statement (.defectMapSave p) := nofun
theorem mgtLockstepError sram : Statement (.mgtLockstepError sram) := nofun
theorem mgtWatchdog : Statement (.mgtWatchdog) := nofun
theorem mgtRun : Statement (.mgtRun) := nofun
theorem bootImageVerify : Statement (.bootImageVerify) := nofun
theorem bootAllotment : Statement (.bootAllotment) := nofun
theorem eventLogFlush : Statement (.eventLogFlush) := nofun
theorem flashEraseDone : Statement (.flashEraseDone) := nofun
theorem fuseBurnDone : Statement (.fuseBurnDone) := nofun
theorem enclaveSelftestDone pass : Statement (.enclaveSelftestDone pass) := nofun
theorem periodicSelftest pass : Statement (.periodicSelftest pass) := nofun
theorem drbgReseed : Statement (.drbgReseed) := nofun
theorem entropyFailure : Statement (.entropyFailure) := nofun
theorem nonceExpire h : Statement (.nonceExpire h) := nofun
theorem loginLockoutEnd h : Statement (.loginLockoutEnd h) := nofun
theorem kemContextExpire ctx : Statement (.kemContextExpire ctx) := nofun
theorem tamperSample loop sense temp : Statement (.tamperSample loop sense temp) := nofun
theorem jtagInstruction ir : Statement (.jtagInstruction ir) := nofun
theorem calStep k : Statement (.calStep k) := nofun
theorem offsetWindow r dq ones : Statement (.offsetWindow r dq ones) := nofun
theorem edgeSweepDone r dq counts : Statement (.edgeSweepDone r dq counts) := nofun
theorem darkWindow means : Statement (.darkWindow means) := nofun
theorem linkReadyTimeout o : Statement (.linkReadyTimeout o) := nofun
theorem standbyExitTimeout : Statement (.standbyExitTimeout) := nofun
theorem enclaveServiceDone res : Statement (.enclaveServiceDone res) := nofun
theorem flashWriteDone ok : Statement (.flashWriteDone ok) := nofun
theorem updateVerifyDone : Statement (.updateVerifyDone) := nofun
theorem supplyGlitch : Statement (.supplyGlitch) := nofun

end Sys2Proof.Laws.Entry
end

