-- ==== Sys2Proof/Tests/Slice0.lean ====
section
/-!
SUPPORT. The model's own tests: well-formedness with an ill-formed command for each check, and for the hypotheses of every statement a
state and operands that meet them.
-/
open Sys2Proof Sys2Proof.Machine
namespace Sys2Proof.Tests

/-! ## Commands and states -/

/-- Fields of a payload, as (size, value), little-endian. -/
def pay (l : List (Nat × Nat)) : List Byte := l.flatMap fun x => leBytes x.1 x.2

/-- Host 1's command with an inline payload and its right CRC. -/
def cmd (op cls idx : Nat) (l : List (Nat × Nat)) : Cmd :=
  let c : Cmd := { tclass := BitVec.ofNat 16 cls, tindex := BitVec.ofNat 16 idx, inl := pay l, plen := BitVec.ofNat 16 (pay l).length }
  { c with crc := Cmd.goodCrc (BitVec.ofNat 16 op) c }

/-- The same with a pointer payload. -/
def cmdP (op cls idx : Nat) (b : List Byte) : Cmd :=
  let c : Cmd := {
    flags := 1, tclass := BitVec.ofNat 16 cls, tindex := BitVec.ofNat 16 idx, plen := 16, ptr := b
    inl := pay [(8, 0), (4, b.length), (4, (crc32c b).toNat)] }
  { c with crc := Cmd.goodCrc (BitVec.ofNat 16 op) c }

/-- A running device: host 1 has a session and owns everything, memory serves, stage-1 runs, the rails are up. -/
def base : State :=
  { State.reset with
    hif := { State.reset.hif with
      ready := true, sess := Vector.replicate 4 { isOpen := true }, viewOwner := Vector.replicate 5 1, portOwner := Vector.replicate 4 1
      chainOwner := Vector.replicate 4 1, xsetOwner := Vector.replicate 4 1, layerOwner := Vector.replicate 24 1
      loopOwner := Vector.replicate 64 1 }
    mem := { State.reset.mem with st := .ready }
    mgt := { State.reset.mgt with st := .run }
    sec := { State.reset.sec with st := .operational, role := Vector.replicate 4 2 }
    pwr := { State.reset.pwr with seqDone := true, step := 9, pgood := 15, doms := 0xFFFFFFFFFFFFFFFFFFFFFFFFFFFFFFFFFFFF } }

def State.resetOpen : State := { State.reset with hif := { State.reset.hif with sess := Vector.replicate 4 { isOpen := true } } }
def withLoop (st : LoopSt) : State := { base with cle := { base.cle with loops := Vector.replicate 64 { st := st } } }
def withBuf : State := { base with
  cmp := { base.cmp with bufs := [{ handle := 0x100, owner := 1, size := 65536, place := some 0 }] } }
def withPorts : State := { base with seq := { base.seq with ports := Vector.replicate 4 { enable := true } } }
def withOctets : State := { base with
  glk := { base.glk with octets := Vector.replicate 16 { allotted := true, rate := 1, st := .ready } } }
def withArray (st : ArrSt) : State := { base with ahm := { base.ahm with arrays := Vector.replicate 4 { st := st } } }
def withPipe : State := { base with cmp := { base.cmp with pipes := Vector.replicate 24 { view := some 0 } } }
def withCluster : State := { base with fab := { base.fab with clusters := Vector.replicate 64 { st := .active, assigned := true, role := 1 } } }
def withRole (r : BitVec 2) : State := { base with sec := { base.sec with role := Vector.replicate 4 r } }
def withKey : State := { base with sec := { base.sec with role := Vector.replicate 4 1, keys := Vector.replicate 64 { loaded := true, owner := 1 } } }
theorem cmd_crc (op cls idx : Nat) (l : List (Nat × Nat)) : Cmd.crcOk (BitVec.ofNat 16 op) (cmd op cls idx l) = true := by
  simp [Cmd.crcOk, cmd, Cmd.goodCrc, Cmd.isPtr, Cmd.header]
theorem leBytes_four (n : Nat) : leBytes 4 n = [BitVec.ofNat 8 n, BitVec.ofNat 8 (n / 256), BitVec.ofNat 8 (n / 256 / 256), BitVec.ofNat 8 (n / 256 / 256 / 256)] := by
  simp [leBytes]
theorem cmdP_crc (op cls idx : Nat) (b : List Byte) : Cmd.crcOk (BitVec.ofNat 16 op) (cmdP op cls idx b) = true := by
  have h : Cmd.ptrCrc (cmdP op cls idx b) = (crc32c b).toNat := by
    have := (crc32c b).isLt
    simp only [Cmd.ptrCrc, cmdP, pay, List.flatMap_cons, List.flatMap_nil, leBytes_four]
    simp [leBytes, u32, u16, u8]
    omega
  have g : (cmdP op cls idx b).ptr = b := rfl
  have e : ((cmdP op cls idx b).crc == Cmd.goodCrc (BitVec.ofNat 16 op) (cmdP op cls idx b)) = true := by
    simp [cmdP, Cmd.goodCrc, Cmd.header]
  simp only [Cmd.crcOk, e, h, g, beq_self_eq_true, Bool.or_true, Bool.and_self]
/-- A command passes all its checks but that of its CRC. -/
def passes (sp : OpSpec) (c : Cmd) (s : State) : Bool :=
  !(deaf c s) && !(ringStops c s) && !(ringWaits c s) && (refusal sp c (atChecks c s)).isNone
theorem accepts (sp : OpSpec) (c : Cmd) (s : State) (h : Cmd.crcOk sp.op c = true) (p : passes sp c s = true) : accepted sp c s = true := by
  simp only [passes, Bool.and_eq_true] at p
  simp only [accepted, isRead, h, p, Bool.and_self]
def holdBase : State := { base with
  seq := { base.seq with ports := Vector.replicate 4 { enable := true, st := .run, seqs := Vector.replicate 4 (some [{ holdBreak := true }]) } }
  ill := { base.ill with drivers := upd base.ill.drivers 0 fun d => { d with port := some 0 } }
  tim := { base.tim with bind := Vector.replicate 5 4 }
  slc := { base.slc with stores := Vector.replicate 5 { colours := 1, width := 1024, height := 16 } } }
def loopReady (st : LoopSt) : State := { base with cle := { base.cle with
  loops := Vector.replicate 64 { st := st, coefs := Vector.replicate 8 (some {}) } } }
def pipeBusy : State := { base with cmp := { base.cmp with
  views := Vector.replicate 5 { composing := some { layers := [(0, {})] } } } }
def ingestBase : State := { withBuf with hif := { withBuf.hif with
  ingests := [{ opcode := 0x0909, cmd := cmd 0x909 0x19 0 [(4, 0x100), (4, 0), (8, 0), (8, 64), (8, 64)] }] } }
def withKem : State := { base with sec := { base.sec with role := Vector.replicate 4 1, kem := Vector.replicate 4 (some ([], [])) } }
def twoBlack : List Slot := [{ black := true, dur := 0x800000 }, { black := true, dur := 0x800000 }]
def seqBase : State := { base with
  ahm := { base.ahm with arrays := Vector.replicate 4 { capsValid := true } }
  glk := { base.glk with
    octets := Vector.replicate 16 { allotted := true, rate := 2, st := .ready }, ports := Vector.replicate 4 { allot := { count := 15, rate := 2 } } }
  seq := { base.seq with ports := Vector.replicate 4 { enable := true, shadow := #v[some twoBlack, none, none, none] } } }
def withNonce : State := { base with sec := { base.sec with nonce := Vector.replicate 4 (some []) } }
theorem firstOf_nones (l : List (Option Refuse)) (h : ∀ x ∈ l, x = none) : firstOf l = none := by
  induction l with
  | nil => rfl
  | cons a l ih =>
    have ha := h a (List.mem_cons_self ..)
    subst ha
    exact ih fun x hx => h x (List.mem_cons_of_mem _ hx)
theorem checks_nones (l : List (Option Refuse)) (h : ∀ x ∈ l, x = none) : checks l = none := by
  simp [checks, firstOf_nones l h]
theorem chk_ok {b : Bool} (h : b = false) (r : Refuse) : chk b r = none := by simp [h, chk]

/-- A command with another check in place of its own. -/
def checkWith (sp : OpSpec) (f : Cmd → State → Option Refuse) : OpSpec := { sp with check := f }
/-- A command may be tried with its own check replaced by one that answers the same. -/
theorem accepts_as (sp : OpSpec) (c : Cmd) (s : State) (f : Cmd → State → Option Refuse) (e : sp.check c (atChecks c s) = f c (atChecks c s))
    (h : Cmd.crcOk sp.op c = true) (p : passes (checkWith sp f) c s = true) : accepted sp c s = true := by
  apply accepts sp c s h
  rw [← p]
  unfold passes refusal
  rw [e]
  rfl

/-- With no chain enabled, no table change takes time. -/
theorem tableBusy_quiet (c : Cmd) (a s : State) (h : (List.range 4).all (fun k => !chainEnabled k s) = true) : tableBusy c a s = none := by
  have z (f) : tableNs f s = 0 := by
    simp only [List.all_eq_true, List.mem_range, Bool.not_eq_true'] at h
    simp [tableNs, List.range_succ, h]
  simp [tableBusy, z, busyIf, chk]

/-- n bytes of 0. -/
def zeroBytes (n : Nat) : List Byte := List.replicate n 0
theorem zeroBytes_length (n : Nat) : (zeroBytes n).length = n := by simp [zeroBytes]
theorem u8_zeros (n o : Nat) : u8 (zeroBytes n) o = 0 := by
  simp only [u8, zeroBytes, List.getD_eq_getElem?_getD, List.getElem?_replicate]; split <;> rfl
theorem u16_zeros (n o : Nat) : u16 (zeroBytes n) o = 0 := by simp [u16, u8_zeros]
theorem u32_zeros (n o : Nat) : u32 (zeroBytes n) o = 0 := by simp [u32, u16_zeros]
theorem zeros_zeros (n o k : Nat) : zeros (zeroBytes n) o k = true := by simp [zeros, zeroBytes]
theorem u8_cons (x : Byte) (b : List Byte) : u8 (x :: b) 0 = x.toNat := rfl
theorem zeros_cons (x : Byte) (n o k : Nat) : zeros (x :: zeroBytes n) (o + 1) k = true := by simp [zeros, zeroBytes]
theorem cmdP_isPtr (op cls idx : Nat) (b : List Byte) : Cmd.isPtr (cmdP op cls idx b) = true := by
  show (1#8).getLsbD 0 = true
  decide
theorem cmdP_payload (op cls idx : Nat) (b : List Byte) : Cmd.payload (cmdP op cls idx b) = b := by
  simp only [Cmd.payload, cmdP_isPtr, if_true]; rfl
theorem cmdP_ptrLen (op cls idx : Nat) (b : List Byte) (h : b.length < 1048577) : Cmd.ptrLen (cmdP op cls idx b) = b.length := by
  simp only [Cmd.ptrLen, cmdP, pay, List.flatMap_cons, List.flatMap_nil, leBytes_four]
  simp [leBytes, u32, u16, u8]
  omega

/-- The shape of a pointer command of host 1. -/
theorem ptr_shape (sp : OpSpec) (op cls idx : Nat) (b : List Byte) (h0 : 0 < b.length) (h1 : b.length < 1048577)
    (hl : sp.len b.length = true) (hp : sp.shape (cmdP op cls idx b) = true) : shapeRefusal sp (cmdP op cls idx b) = none := by
  have hn : Cmd.ptrLen (cmdP op cls idx b) = b.length := cmdP_ptrLen op cls idx b h1
  have hlen : Cmd.len (cmdP op cls idx b) = b.length := by
    simp only [Cmd.len, cmdP_isPtr, if_true, hn]
  unfold shapeRefusal
  rw [hn, hlen, hl, hp]
  apply firstOf_nones
  simp only [List.mem_cons, List.not_mem_nil, or_false, forall_eq_or_imp, forall_eq]
  refine ⟨rfl, by simp [cmdP, chk], chk_ok ?_ _, rfl, by simp [cmdP, chk, Cmd.isApplyAt], by simp [cmdP, chk], chk_ok ?_ _⟩
  have a : (b.length == 0) = false := by rw [beq_eq_false_iff_ne]; omega
  have c : (decide (1048576 < b.length)) = false := by simp; omega
  have d : ((cmdP op cls idx b).plen != 16) = false := rfl
  · rw [a, c, d]; simp
  · have e : u8 (cmdP op cls idx b).inl 0 = 0 := by simp [cmdP, pay, leBytes, u8]
    simp [e]
/-- A pointer command passes when its shape and its own check do and the rest of the header is right. -/
theorem ptr_passes (sp : OpSpec) (c : Cmd) (s : State) (hs : shapeRefusal sp c = none) (hc : sp.check c (atChecks c s) = none)
    (hr : (!(deaf c s) && !(ringStops c s) && !(ringWaits c s) && (firstOf [
      chk (c.version != 1) ⟨.badVersion, 0⟩, busyIf (recoveryBusy sp.op (atChecks c s)),
      chk (!sp.absentOk && !(nth (atChecks c s).hif.sess c.host.toNat).isOpen) ⟨.noSession, 0⟩,
      chk (!(sp.cls.contains c.tclass) || clsSize c.tclass ≤ c.tindex.toNat) ⟨.badTarget, 0⟩,
      ownerRefusal c (sp.owners c (atChecks c s)), sp.owned c (atChecks c s), epochRefusal c (atChecks c s), applyAtRefusal c (atChecks c s),
      busyIf (groupBusy sp.op (atChecks c s))]).isNone) = true) : passes sp c s = true := by
  simp only [Bool.and_eq_true] at hr
  obtain ⟨⟨⟨h1, h2⟩, h3⟩, h4⟩ := hr
  simp only [passes, h1, h2, h3, Bool.and_self, Bool.true_and, refusal, headerRefusal, hs, hc]
  revert h4
  generalize chk (c.version != 1) _ = a1
  generalize chk (!sp.absentOk && _) _ = a2
  generalize chk (!(sp.cls.contains c.tclass) || _) _ = a3
  generalize ownerRefusal c _ = a4
  generalize epochRefusal c _ = a5
  generalize applyAtRefusal c _ = a6
  generalize busyIf (groupBusy _ _) = a7
  generalize busyIf _ = a8
  generalize sp.owned c _ = a9
  rcases a1 with _ | _ <;> rcases a2 with _ | _ <;> rcases a3 with _ | _ <;> rcases a4 with _ | _ <;> rcases a5 with _ | _ <;>
    rcases a6 with _ | _ <;> rcases a7 with _ | _ <;>
    rcases a8 with _ | _ <;> rcases a9 with _ | _ <;> simp [firstOf]
/-- A pointer command is accepted when its length, its own check and the rest of the header are right. -/
theorem accepts_ptr (sp : OpSpec) (op cls idx : Nat) (b : List Byte) (n : Nat) (s : State) (hb : b.length = n) (ho : sp.op = BitVec.ofNat 16 op)
    (h0 : 0 < n) (h1 : n < 1048577) (hl : sp.len n = true) (hp : sp.shape (cmdP op cls idx b) = true)
    (hc : sp.check (cmdP op cls idx b) (atChecks (cmdP op cls idx b) s) = none)
    (hr : (let c := cmdP op cls idx b; !(deaf c s) && !(ringStops c s) && !(ringWaits c s) && (firstOf [
      chk (c.version != 1) ⟨.badVersion, 0⟩, busyIf (recoveryBusy sp.op (atChecks c s)),
      chk (!sp.absentOk && !(nth (atChecks c s).hif.sess c.host.toNat).isOpen) ⟨.noSession, 0⟩,
      chk (!(sp.cls.contains c.tclass) || clsSize c.tclass ≤ c.tindex.toNat) ⟨.badTarget, 0⟩,
      ownerRefusal c (sp.owners c (atChecks c s)), sp.owned c (atChecks c s), epochRefusal c (atChecks c s), applyAtRefusal c (atChecks c s),
      busyIf (groupBusy sp.op (atChecks c s))]).isNone) = true) :
    accepted sp (cmdP op cls idx b) s = true :=
  accepts _ _ _ (ho ▸ cmdP_crc op cls idx _)
    (ptr_passes _ _ _ (ptr_shape sp op cls idx _ (by rwa [hb]) (by rwa [hb]) (by rwa [hb]) hp) hc hr)
def coldHeld : State := { base with porst := true, coldReset := true }
def warmHeld : State := { base with wrst := true }
def badCrc : Cmd := { cmd 2 0 0 [] with crc := Cmd.goodCrc 2 (cmd 2 0 0 []) + 1 }
def clockBad : State := { base with mgt := { base.mgt with clkStatus := 0x40 } }
def clock0Bad : State := { base with mgt := { base.mgt with clkStatus := 1 } }
def steer : Cmd := cmd 0x104 2 0 [(4, 0), (4, 500), (4, 0), (4, 0)]
def inChain : State := { base with fab := { base.fab with
  clusters := Vector.replicate 64 { st := .active, assigned := true, role := 2, slot := 1 }
  views := Vector.replicate 5 { chain := { stages := [(1, 1)] } } } }
def mappedBuf : Buffer := { handle := 0x100, owner := 1, size := 65536, map := true, bar2 := some 0, place := some 0 }
def mapped : State := { base with cmp := { base.cmp with bufs := [mappedBuf] } }
def guardedMap : State := { base with cmp := { base.cmp with bufs := [{ mappedBuf with isProtected := true }] } }
def lostMap : State := { base with cmp := { base.cmp with bufs := [{ mappedBuf with lost := true }] } }
def locked : State := { mapped with cmp := { mapped.cmp with views := Vector.replicate 5 { composing := some { uses := [0x100] } } } }
def ringsOn : State := { base with hif := { base.hif with pcie := Vector.replicate 2 {
  crings := Vector.replicate 4 { cfg := 0x14 }, rrings := Vector.replicate 4 { cfg := 0x14 }, coalescing := 0x20, pendingBits := 0x20 } } }
def busyCores : State := { base with hif := { base.hif with
  waiting := List.replicate 9 {}, sess := Vector.replicate 4 { isOpen := true, lease := true } } }
def plainBuf : Buffer := { handle := 0x100, owner := 1, size := 65536, place := some 0 }
def ingestHeld : Held := { opcode := 0x0909, cmd := cmd 0x909 0x19 0 [(4, 0x100), (4, 0), (8, 0), (8, 64), (8, 64)] }
def railsDown : State := { base with pwr := { base.pwr with seqDone := false, step := 0, pgood := 0 } }
def railsFailed : State := { base with ns := 1000000000, pwr := { base.pwr with seqDone := false, retryWait := true, seqFails := 2 } }
def avsBad : State := { base with pwr := { base.pwr with avsRun := 9 } }
def itemsSet : State := { base with pwr := { base.pwr with
  items := upd (Vector.replicate 32 { defined := true }) 1 fun x => { x with failRun := 2 } } }
def leavingStandby : State := { base with ns := 1000000000, pwr := { base.pwr with standbyCmd := some {} }, sec := { base.sec with st := .selftest } }
def shutDown : State := { base with ns := 10000000001, thm := { base.thm with shutdown := true, coolFrom := some 1 } }
def refLost : State := { base with tim := { base.tim with
  src := 1, st := .locked, lossPeriods := 3, mode := { base.tim.mode with srcList := [1, 3] } } }
def refLost2 : State := { refLost with tim := { refLost.tim with srcs := Vector.replicate 8 { valid := true } } }
def steered : State := { base with tim := { base.tim with src := 2, st := .locked } }
def heldOver : State := { base with tim := { base.tim with st := .holdover } }
def settling : State := { base with tim := { base.tim with settle := true, st := .acquiring } }
def seen (miss : Nat) : State := { base with tim := { base.tim with cams := Vector.replicate 4 { mode := .tracking, miss := miss } } }
def candSeen : State := { base with tim := { base.tim with cams := Vector.replicate 4 { mode := .tracking, cand := some {} } } }
def unlocking : State := { base with tim := { base.tim with unlockRun := 3 } }
def commit1 : Cmd := cmd 0x202 9 0 [(4, 1)]
def committing : State := { base with seq := { base.seq with ports := Vector.replicate 4 { commitSeqs := some (Vector.replicate 4 none), commit := some {} } } }
def holdAsked : State := { base with seq := { base.seq with ports := Vector.replicate 4 { hold := { req := some {}, cmd := some { jseq := 7 } } } } }
/-- Port 0 runs three slots that read a plane of a complete frame, on an array of 16 rows. -/
def picture : State := { base with
  tim := { base.tim with bind := Vector.replicate 5 4 }
  seq := { base.seq with ports := Vector.replicate 4 {
    enable := true, st := .run, seqs := Vector.replicate 4 (some [{}, {}, {}]), sel := [{ buf := some 0 }], sendSlot := 5 } }
  slc := { base.slc with stores := Vector.replicate 5 { colours := 1, width := 1024, height := 16, bufs := [{}] } }
  ahm := { base.ahm with arrays := Vector.replicate 4 { caps := upd (Vector.replicate 16 0) 1 fun _ => 0x100000 } } }
def settlingSlot : State := { base with seq := { base.seq with ports := Vector.replicate 4 { settling := true } } }
def inHold : State := { base with seq := { base.seq with ports := Vector.replicate 4 { enable := true, st := .hold, hold := { on := true } } } }
/-- Octets 8 to 15 are those of port 0, in one state. -/
def octetsIn (o : Octet) : State := { base with
  seq := { base.seq with ports := Vector.replicate 4 { enable := true } }
  glk := { base.glk with octets := Vector.ofFn fun i => { o with allotted := 8 ≤ i.val, aoct := BitVec.ofNat _ (i.val - 8) } } }
/-- The same, with requests that await an answer. -/
def asking (op : Nat) (o : Octet) : State := (octetsIn o).onLink 0 fun l => { l with asked := [BitVec.ofNat 8 op] }
def bursting : State := { (octetsIn { st := .ready }) with
  seq := { base.seq with ports := Vector.replicate 4 { st := .hold, hold := { on := true } } }
  glk := { (octetsIn { st := .ready }).glk with ports := Vector.replicate 4 { allot := { kaBurst := true } } } }
def chainsIn (c : Chain) : State := { base with ill := { base.ill with chains := Vector.replicate 4 c } }
def diagnosing : State := { base with seq := { base.seq with ports := Vector.replicate 4 { enable := true, st := .run, seqs := Vector.replicate 4 (some [{ diagOk := true }]) } } }
def lit (s : State) : State := { s with xcl := { s.xcl with safe := false, latch := 0, active := 0 } }
def stringsIn (x : Str) : State := { base with ill := { base.ill with strs := Vector.replicate 24 { x with enable := true, vOpen := 1000, vShort := 100 } } }
def loopsIn (l : Loop) : State := { base with cle := { base.cle with loops := Vector.replicate 64 l } }
/-- A running loop on group 0, which drives a dark port's light; its trigger waits, as does that of loop 63 in `stepping`. -/
def loopInactive : State :=
  let s := loopsIn { st := .run, cfg := { outs := Vector.replicate 2 { group := some 0 } } }
  { s with cle := { s.cle with groups := Vector.replicate 16 { dest := 1 }, queue := [(0, 63)] } }
def stepping (st : LoopSt) : State := (loopsIn { st := st }).onCle fun x => { x with queue := [(0, 63)] }
def allFenced : State := { mapped with mem := { mapped.mem with fenced := 0xFFFFFFFF } }
def ringsLater : State := { ringsOn with ns := 10000 }
def later : State := { busyCores with ns := 100000000000000 }
def domainsOff : State := { base with pwr := { base.pwr with doms := 0 } }
def refOutHigh : State := { base with tim := { base.tim with st := .locked, marks := upd base.tim.marks 4 fun m => { m with mode := 1, width := 1000 } } }
def pwmWaits : State := { (loopsIn { st := .run }) with cle := { (loopsIn { st := .run }).cle with
  pwms := Vector.replicate 8 { enable := false, next := some (1, 2, false, true) } } }
def closed : State := { base with xcl := { base.xcl with ilockA := true, ilockB := true } }
def versionQueued : State := { base with xcl := { base.xcl with sets := Vector.replicate 4 { queue := [({}, some { jseq := 5 })] } } }
def slicersIn (q : Slicer) : State := { base with slc := { base.slc with
  slicers := Vector.replicate 8 q
  stores := Vector.replicate 5 { colours := 1, width := 16, height := 64, bufs := [{ slicing := true, frame := some 0, left := [(0, 0)] }] } } }
def offering : State := { (slicersIn { st := .idle }) with fab := { base.fab with
  views := Vector.replicate 5 { frame := some { done := 2, offered := 1 } } } }
def arraysIn (a : Arr) (s : State) : State := { s with ahm := { s.ahm with arrays := Vector.replicate 4 a } }
/-- The answer of an array of 8 octets to the second pass, and its capability record with its CRC. -/
def straightMap : List (BitVec 32) := (List.range 16).map fun i =>
  BitVec.ofNat 32 (128 + 4 * i + 256 * (129 + 4 * i) + 65536 * (130 + 4 * i) + 16777216 * (131 + 4 * i))
def record15 : List (BitVec 32) := [0x10081007, 0x00100400, 1000, 0x03E803E8, 1000, 0x00640000, 7, 0, 0, 0, 0, 0, 0, 0, 0]
def goodRecord : List (BitVec 32) := record15 ++ [crc32c (record15.flatMap beBytes)]
def capsAsked : State := (asking 2 { st := .capsWait }).onLink 0 fun l => { l with allot := { count := 15, rate := 2 } }
def syncBits : List Bool := (List.range 24).map fun i => syncWord.testBit (23 - i)
def resetSent : SentReset := { rseq := 3, band := 2, witness := 77 }
def resetOut : State := base.onLink 0 fun l => { l with sent := [resetSent] }
def viewsIn (x : CmpView) (s : State) : State := { s with cmp := { s.cmp with views := Vector.replicate 5 { x with committed := true } } }
def clusterIn (c : Cluster) : State := { base with fab := { base.fab with clusters := Vector.replicate 64 c } }
/-- A view whose chain is one stage on cluster 0, in force, of an array of 64 rows. -/
def oneStage : RoleChain := { stages := [(1, 1)], symbImage := some 9, symbClusters := 2 }
def fabricIn (f : FabView) : State := { (slicersIn {}) with
  cmp := { base.cmp with views := Vector.replicate 5 { composing := some {} } }
  tim := picture.tim
  seq := picture.seq
  fab := { base.fab with
    clusters := Vector.replicate 64 { st := .active, loaded := true }, views := Vector.replicate 5 { f with chain := oneStage, canvas := [0], symbSurf := [0, 65536] } } }
def writeReq : MemReq := { port := 10, space := .plane, addr := 32, data := some (List.replicate 32 7) }
set_option Elab.async false
set_option maxRecDepth 1000000

/-! ## Well-formedness: an ill-formed term for each check, and well-formed ones (R438, R439, R443) -/

theorem test_cmd_wf : (cmd 2 0 0 []).wf = true ∧ (cmdP 0x201 2 0 [1, 2]).wf = true ∧ { cmd 2 0 0 [] with host := 0 }.wf = false ∧
    { cmd 2 0 0 [] with host := 3, ring := 1 }.wf = false ∧ { cmd 2 0 0 [] with inl := List.replicate 225 0 }.wf = false ∧
    { cmdP 0x201 2 0 [1, 2] with ptr := [1] }.wf = false ∧ { cmd 2 0 0 [] with ptr := [1] }.wf = false := by decide +kernel
theorem test_wf_hostPort : (Instr.heartbeat { cmd 2 0 0 [] with host := 0 }).wf = false ∧ (Instr.heartbeat (cmd 2 0 0 [])).wf = true ∧
    (Instr.cringDoorbell 0 0 1 [{ bytes := List.replicate 255 0 }]).wf = false ∧
    (Instr.cringDoorbell 0 0 1 (List.replicate 4096 { bytes := List.replicate 256 0 })).wf = false ∧
    (Instr.cringDoorbell 0 0 1 [{ bytes := List.replicate 256 0 }]).wf = true ∧ (Instr.ringCfgWrite 0 2 0).wf = false ∧
    (Instr.i3cCommandWrite {}).wf = false ∧ (Instr.i3cBar0ReadSetup 1 4).wf = false ∧ (Instr.i3cBar0Write 3 0).wf = false ∧
    (Instr.registerWrite 0 0x30102 0).wf = false ∧ (Instr.registerWrite 0 0x30104 0).wf = true ∧ (Instr.unmapped 0 0 0 true).wf = false ∧
    (Instr.bar2Access 0 0 (.read 0)).wf = false ∧ (Instr.bar2Access 0 0 (.write [])).wf = false := by decide +kernel
theorem test_wf_power : (Instr.avsUpdate 65536).wf = false ∧ (Instr.avsUpdate 65535).wf = true ∧ (Instr.thermalSample []).wf = false ∧
    (Instr.thermalSample (List.replicate 52 none)).wf = true ∧ (Instr.tamperSample 0 true (-27316)).wf = false ∧
    (Instr.tamperSample 0 true 2500).wf = true := by decide +kernel
theorem test_wf_light : (Instr.chainFrame 0 (List.replicate 33 0)).wf = false ∧ (Instr.discoverDone 0 40 (List.replicate 33 0)).wf = false ∧
    (Instr.walkStep (some (.senseBall []))).wf = false ∧ (Instr.walkStep none).wf = true ∧
    (Instr.loopStep 0 (List.replicate 6 default)).wf = false ∧ (Instr.loopStep 0 []).wf = true := by decide +kernel
theorem test_wf_memory : (Instr.memRequest { addr := 33 }).wf = false ∧ (Instr.memRequest { data := some [1] }).wf = false ∧
    (Instr.memRequest writeReq).wf = true ∧ (Instr.retrainDone 0 (some [1])).wf = false ∧ (Instr.retrainDone 0 none).wf = true := by decide +kernel
theorem test_wf_link : (Instr.bcFrameReceived 0 (List.replicate 24 false)).wf = false ∧ (Instr.status 0 (List.replicate 33 0)).wf = false ∧
    (Instr.lanemap 0 (List.replicate 33 0)).wf = false ∧ (Instr.caps 0 (List.replicate 33 0)).wf = false ∧
    (Instr.errcnt 0 (List.replicate 65 0)).wf = false ∧ (Instr.defect 0 (List.replicate 256 0)).wf = false ∧
    (Instr.scanData 0 (List.replicate 256 0)).wf = false ∧ (Instr.caps 0 goodRecord).wf = true := by decide +kernel
theorem test_wf_calibration : (Instr.offsetWindow 0 0 65537).wf = false ∧ (Instr.edgeSweepDone 0 0 []).wf = false ∧ (Instr.darkWindow []).wf = false ∧
    (Instr.edgeSweepDone 0 0 (List.replicate 64 0)).wf = true := by decide +kernel

/-- The opcode table gives no command bits, so no word spells one. -/
theorem test_decodeTableWord (n w : Nat) : decodeTableWord n w = none := rfl

/-! ## Worked examples of the manual -/

/-- R138's example: a WRITE of 0xFFFF to BASE_PEND of channel 0. -/
theorem test_chainWord_example : chainWord 1 0 0x40 0xFFFF = 0x4040FFFFE8 := by decide +kernel
/-- The example of R265 and R268: logical lane 13, FCNT 0x001234, a STREAM frame. -/
theorem test_laneFrame_example : ({ lane := 13, fcnt := 0x1234, type := 1 } : LaneFrame).hdr = 0x1A00246820 ∧
    scrSeed 0x0D001234 = 0x58554761 := by decide +kernel
/-- The example of R99: a Stage-A port's BAND_STEP at 24 Hz on 40 lanes of 30 Gbit/s. -/
def stageA : State := { base with
  tim := { base.tim with mode := { base.tim.mode with rateN := 24, rateD := 1 } }
  ahm := { base.ahm with arrays := Vector.replicate 4 { caps := upd (Vector.replicate 16 0) 1 fun _ => BitVec.ofNat 32 (4320 * 65536 + 8192) } }
  glk := { base.glk with ports := Vector.replicate 4 { allot := { count := 5, rate := 3 } } } }
theorem test_bandStep_example : bandStepOf 0 40 stageA = 799 := by decide +kernel
/-- The example of R493 and R495: PHASE 30 at 35.00 °C and 34 at 55.00 °C give 33 at 47.50 °C, reached in three steps. -/
def stageACal : CalRegion := {
  theta := 4750, cur := (Qty.put { off := 1, bits := 6, circ := true } 30 (Vector.replicate 108 0))
  sets := #v[{ valid := true, temp := 3500, bytes := Qty.put { off := 1, bits := 6, circ := true } 30 (Vector.replicate 108 0) },
    { valid := true, temp := 5500, bytes := Qty.put { off := 1, bits := 6, circ := true } 34 (Vector.replicate 108 0) }, {}, {}] }
theorem test_calibration_example : calTarget { off := 1, bits := 6, circ := true } stageACal = 33 ∧
    ({ off := 1, bits := 6, circ := true } : Qty).get (stepRegion 39 true (stepRegion 39 true stageACal)).cur = 32 ∧
    ({ off := 1, bits := 6, circ := true } : Qty).get (stepRegion 39 true (stepRegion 39 true (stepRegion 39 true stageACal))).cur = 33 := by decide +kernel
/-- The memory example: with a spare, the row unit is 1.5 MiB, and with 1,536 plane rows the general region holds 21,888 MiB. -/
theorem test_memoryLayout_example : rowUnit base.mem = 3 * 512 * 1024 ∧
    generalSize { base.mem with planeRows := 1536 } = 21888 * 1048576 := by decide +kernel

/-! ## States and operands that meet the hypotheses of the statements -/

/-- The cells of a list of bytes from address a on. -/
def cellsFrom : Nat → List Byte → List Host.Cell
  | _, [] => []
  | a, b :: bs => (a, b) :: cellsFrom (a + 1) bs
theorem memGet_cellsFrom (bs : List Byte) : ∀ a k, memGet (cellsFrom a bs) (a + k) = bs.getD k 0 := by
  induction bs with
  | nil => intro a k; rfl
  | cons b bs ih =>
    intro a k
    cases k with
    | zero => simp [cellsFrom, memGet]
    | succ k =>
      have := ih (a + 1) k
      simp only [cellsFrom, memGet, List.getD_cons_succ]
      rw [if_neg (by omega), if_neg (by omega), ← this]
      congr 1; omega
theorem memRead_cellsFrom (bs : List Byte) (a n k : Nat) (h : k + n = bs.length) : memRead (cellsFrom a bs) (a + k) n = bs.drop k := by
  induction n generalizing k with
  | zero => simp [memRead]; omega
  | succ n ih =>
    rw [memRead, memGet_cellsFrom, Nat.add_assoc, ih (k + 1) (by omega), List.drop_eq_getElem_cons (show k < bs.length by omega)]
    simp [List.getElem?_eq_getElem (show k < bs.length by omega)]

/-- Bytes 0 to 31 of an image of one code byte in the gain role, and its digest. -/
def imgHead : List Byte := pay [(4, 0x31424657), (2, 1), (1, 1), (1, 0), (2, 1), (2, 0), (4, 1), (16, 0)]
def imgDigest : Vector Byte 32 := Config.shake256 (imgHead ++ List.replicate 32 0 ++ [0])
def imgBytes : List Byte := imgHead ++ imgDigest.toList ++ [0]
/-- A buffer that holds the image. -/
def imgBuf : Buffer := { handle := 0x100, owner := 1, size := 65536, place := some 0 }
def withImage : State := { base with cmp := { base.cmp with bufs := [imgBuf] }, mem := { base.mem with general := cellsFrom 0 imgBytes } }

theorem imgHead_length : imgHead.length = 32 := by decide +kernel
theorem imgBytes_length : imgBytes.length = 65 := by simp [imgBytes, imgHead_length]
theorem imgDigest_ok : imageDigest imgBytes = slice imgBytes 32 32 := by
  have h1 : imgBytes.take 32 = imgHead := by simp [imgBytes, imgHead_length]
  have h2 : imgBytes.drop 64 = [0] := List.drop_left' (by simp [imgHead_length])
  have h3 : imgBytes.drop 32 = imgDigest.toList ++ [0] := by simp [imgBytes, imgHead_length]
  simp [imageDigest, slice, h1, h2, h3, imgDigest]
/-- The buffer's image is read whole, and its digest is right. -/
theorem test_image_is_read : (bufImage imgBuf withImage).1 = some imgBytes := by
  have g (s : State) (h : Metered withImage s) (k n : Nat) (hk : k + n ≤ 65)
      (hq : ∀ w ∈ burstsOf k n, isProtectedAt .general w.1 s = false ∧ badWord .general w.1 s = false) :
      (bufFetch { port := 9 } imgBuf k n s).bytes = memRead (cellsFrom 0 imgBytes) k n ∧ Metered withImage (bufFetch { port := 9 } imgBuf k n s).st := by
    obtain ⟨a, _, c⟩ := portRead_good { port := 9, addr := 0 + k } n s rfl rfl (by rwa [Nat.zero_add])
    exact ⟨by rw [show bufFetch { port := 9 } imgBuf k n s = portRead { port := 9, addr := 0 + k } n s from rfl, a, h.cells, Nat.zero_add]; rfl, h.trans c⟩
  have q : ∀ w ∈ burstsOf 0 64, isProtectedAt .general w.1 withImage = false ∧ badWord .general w.1 withImage = false := by decide +kernel
  obtain ⟨a, h⟩ := g withImage (Metered.refl _) 0 64 (by omega) q
  have q' : ∀ w ∈ burstsOf 64 1, isProtectedAt .general w.1 withImage = false ∧ badWord .general w.1 withImage = false := by decide +kernel
  obtain ⟨b, _⟩ := g _ h 64 1 (by omega) (fun w hw => ⟨by obtain ⟨_, _, _, _, _, e⟩ := h; rw [e]; exact (q' w hw).1, (h.bad _ _).trans (q' w hw).2⟩)
  have m : memRead (cellsFrom 0 imgBytes) 0 64 ++ memRead (cellsFrom 0 imgBytes) 64 1 = imgBytes := by
    have := memRead_append (cellsFrom 0 imgBytes) 0 64 1
    rw [Nat.zero_add] at this
    rw [← this]
    have := memRead_cellsFrom imgBytes 0 65 0 imgBytes_length.symm
    simpa using this
  have hh : (decide (imgBuf.size < 64) || imageBad (memRead (cellsFrom 0 imgBytes) 0 64) || decide (imgBuf.size < 65)) = false := by decide +kernel
  have hn : imageBytes (memRead (cellsFrom 0 imgBytes) 0 64) = 65 := by decide +kernel
  simp only [bufImage, a, hn, hh, b, m, imgDigest_ok, Bool.false_eq_true, if_false, if_true]
theorem test_accepts_LOOP_COEF_SET : accepted specLoopCoefSet (cmdP 0x401 0x10 0 (zeroBytes 848)) (withLoop .stop) = true := by
  refine accepts_ptr specLoopCoefSet 0x401 0x10 0 _ 848 _ (zeroBytes_length _) rfl (by omega) (by omega) rfl rfl ?_ (by decide +kernel)
  have h : (((atChecks (cmdP 0x401 0x10 0 (zeroBytes 848)) (withLoop .stop)).loop 0).st == .free) = false := by decide +kernel
  generalize hs : atChecks (cmdP 0x401 0x10 0 (zeroBytes 848)) (withLoop .stop) = s at *
  have e : (cmdP 0x401 0x10 0 (zeroBytes 848)).tindex.toNat = 0 := rfl
  simp only [specLoopCoefSet, cmdP_payload, e, h, rsv, u8_zeros, u16_zeros, zeros_zeros]
  apply checks_nones
  simp only [List.mem_cons, List.not_mem_nil, or_false, forall_eq_or_imp, forall_eq]
  refine ⟨rfl, rfl, rfl, rfl, rfl, checks_nones _ ?_, checks_nones _ ?_⟩ <;> simp [badAt, chk]
theorem test_accepts_CMP_LUT_SET : accepted specCmpLutSet (cmdP 0x703 7 0 (zeroBytes 12296)) withPipe = true := by
  have b0 : bitOf (u8 (Cmd.payload (cmdP 0x703 7 0 (zeroBytes 12296))) 0) 0 = false := by rw [cmdP_payload, u8_zeros]; rfl
  refine accepts_ptr specCmpLutSet 0x703 7 0 _ 12296 _ (zeroBytes_length _) rfl (by omega) (by omega) rfl ?_ ?_ (by decide +kernel)
  · have hl : Cmd.len (cmdP 0x703 7 0 (zeroBytes 12296)) = 12296 := by
      simp only [Cmd.len, cmdP_isPtr, if_true]; rw [cmdP_ptrLen _ _ _ _ (by rw [zeroBytes_length]; omega), zeroBytes_length]
    simp only [specCmpLutSet, hl, lutCurves, lutEntries, b0]
    rfl
  · have h : ((cmdP 0x703 7 0 (zeroBytes 12296)).tclass == clsLayer && ((atChecks (cmdP 0x703 7 0 (zeroBytes 12296)) withPipe).thm.shutdown ||
        ((atChecks (cmdP 0x703 7 0 (zeroBytes 12296)) withPipe).pipe 0).view.isNone)) = false := by decide +kernel
    have e : (cmdP 0x703 7 0 (zeroBytes 12296)).tindex.toNat = 0 := rfl
    generalize hs : atChecks (cmdP 0x703 7 0 (zeroBytes 12296)) withPipe = s at *
    simp only [specCmpLutSet, e, h, rsv, rsvBits, cmdP_payload, u8_zeros, u32_zeros, zeros_zeros]
    apply checks_nones
    simp only [List.mem_cons, List.not_mem_nil, or_false, forall_eq_or_imp, forall_eq]
    refine ⟨rfl, rfl, rfl, checks_nones _ ?_⟩
    simp [badAt, chk]
theorem test_accepts_SEC_LOGIN : accepted specSecLogin (cmdP 0xB01 0x21 0 (zeroBytes 29860)) base = true := by
  refine accepts_ptr specSecLogin 0xB01 0x21 0 _ 29860 _ (zeroBytes_length _) rfl (by omega) (by omega) rfl rfl ?_ (by decide +kernel)
  have h : (atChecks (cmdP 0xB01 0x21 0 (zeroBytes 29860)) base).sec.st = .operational := by decide +kernel
  have k : lockedOut 1 (atChecks (cmdP 0xB01 0x21 0 (zeroBytes 29860)) base) = false := by decide +kernel
  have e : (cmdP 0xB01 0x21 0 (zeroBytes 29860)).host = 1 := rfl
  have e' : (1 : HostId).toNat = 1 := rfl
  generalize hs : atChecks (cmdP 0xB01 0x21 0 (zeroBytes 29860)) base = s at *
  simp only [specSecLogin, notHost3, e, e', h, k, rsv, cmdP_payload, u8_zeros, zeros_zeros]
  rfl
/-- A login in the user role for which no user is enrolled is accepted, and is not right. -/
theorem test_accepts_SEC_LOGIN_wrong : accepted specSecLogin (cmdP 0xB01 0x21 0 (1 :: zeroBytes 29859)) withNonce = true ∧
    loginOk (cmdP 0xB01 0x21 0 (1 :: zeroBytes 29859)) [] withNonce = false := by
  constructor
  · refine accepts_ptr specSecLogin 0xB01 0x21 0 _ 29860 _ (by simp [zeroBytes_length]) rfl (by omega) (by omega) rfl rfl ?_ (by decide +kernel)
    have h : (atChecks (cmdP 0xB01 0x21 0 (1 :: zeroBytes 29859)) withNonce).sec.st = .operational := by decide +kernel
    have k : lockedOut 1 (atChecks (cmdP 0xB01 0x21 0 (1 :: zeroBytes 29859)) withNonce) = false := by decide +kernel
    have n : (nonceOf 1 (atChecks (cmdP 0xB01 0x21 0 (1 :: zeroBytes 29859)) withNonce)).isNone = false := by decide +kernel
    have e : (cmdP 0xB01 0x21 0 (1 :: zeroBytes 29859)).host = 1 := rfl
    have e' : (1 : HostId).toNat = 1 := rfl
    generalize hs : atChecks (cmdP 0xB01 0x21 0 (1 :: zeroBytes 29859)) withNonce = s at *
    simp only [specSecLogin, notHost3, e, e', h, k, n, rsv, cmdP_payload, u8_cons, zeros_cons]
    rfl
  · have n : enrolled 1 (u8 (1 :: zeroBytes 29859) 1) withNonce = none := by
      have : u8 (1 :: zeroBytes 29859) 1 = 0 := u8_zeros 29859 0
      rw [this]; decide +kernel
    have m : u8 (1 :: zeroBytes 29859) 0 = 1 := rfl
    simp only [loginOk, cmdP_payload, m, n]
    simp
/-- SEC_KEY_LOAD is accepted when the wrapped key opens, which the free values of ML-KEM and AES-GCM decide. -/
theorem test_accepts_SEC_KEY_LOAD (h : (unwrapKey (cmdP 0xB05 0x22 0 (zeroBytes 1648)) (atChecks (cmdP 0xB05 0x22 0 (zeroBytes 1648)) withKem)).isNone = false) :
    accepted specSecKeyLoad (cmdP 0xB05 0x22 0 (zeroBytes 1648)) withKem = true := by
  refine accepts_ptr specSecKeyLoad 0xB05 0x22 0 _ 1648 _ (zeroBytes_length _) rfl (by omega) (by omega) rfl rfl ?_ (by decide +kernel)
  have r : needRole 1 (cmdP 0xB05 0x22 0 (zeroBytes 1648)) (atChecks (cmdP 0xB05 0x22 0 (zeroBytes 1648)) withKem) = none := by decide +kernel
  have k : ((nth (atChecks (cmdP 0xB05 0x22 0 (zeroBytes 1648)) withKem).sec.keys 0).loaded ||
    (kemOf 0 (atChecks (cmdP 0xB05 0x22 0 (zeroBytes 1648)) withKem)).isNone) = false := by decide +kernel
  have e : (cmdP 0xB05 0x22 0 (zeroBytes 1648)).tindex.toNat = 0 := rfl
  have e' : (cmdP 0xB05 0x22 0 (zeroBytes 1648)).host = 1 := rfl
  generalize hs : atChecks (cmdP 0xB05 0x22 0 (zeroBytes 1648)) withKem = s at *
  simp only [specSecKeyLoad, notHost3, e, e', r, k, h, rsv, cmdP_payload, u8_zeros, zeros_zeros]
  rfl
theorem acc {sp : OpSpec} {op cls idx : Nat} {l : List (Nat × Nat)} {s : State} (h : sp.op = BitVec.ofNat 16 op)
    (p : passes sp (cmd op cls idx l) s = true) : accepted sp (cmd op cls idx l) s = true := accepts _ _ _ (h ▸ cmd_crc op cls idx l) p
theorem quiet_seqCommit : accepted specSeqCommit (cmd 0x202 9 0 [(4, 1)]) seqBase = true := by
  refine accepts_as _ _ _ (fun c s => checks [rsvBits c 0 0xF0, rsv c 1 3, busyIf ((commitMask c).any fun p => (s.port p).commitSeqs.isSome),
    (let x := withSeqs (commitMask c) (·.shadow) (withPortSets s); commitFail (commitPorts (commitMask c) x) x), none]) ?_
    (cmd_crc 0x202 9 0 _) (by decide +kernel)
  have h := tableBusy_quiet (cmd 0x202 9 0 [(4, 1)])
  simp only [specSeqCommit]
  rw [h _ (atChecks (cmd 0x202 9 0 [(4, 1)]) seqBase) (by decide +kernel)]
theorem quiet_illDeviceSet : accepted specIllDeviceSet (cmd 0x301 0xB 0 [(1, 0), (1, 1), (2, 0), (16, 100)]) base = true := by
  refine accepts_as _ _ _ (fun c _ => checks [badAt c 0 (3 < u8 (Cmd.payload c) 0 && u8 (Cmd.payload c) 0 != 0xFF),
    badAt c 1 (3 < u8 (Cmd.payload c) 1), rsv c 2 2, none]) ?_ (cmd_crc 0x301 0xB 0 _) (by decide +kernel)
  simp only [specIllDeviceSet]
  rw [tableBusy_quiet _ _ (atChecks (cmd 0x301 0xB 0 [(1, 0), (1, 1), (2, 0), (16, 100)]) base) (by decide +kernel)]
theorem quiet_illWeightSet : accepted specIllWeightSet (cmd 0x302 0xC 0 [(2, 1), (2, 100), (124, 0)]) base = true := by
  refine accepts_as _ _ _ (fun c _ => checks [badAt c 0 (5 < u8 (Cmd.payload c) 0), rsv c 1 1, none]) ?_
    (cmd_crc 0x302 0xC 0 _) (by decide +kernel)
  simp only [specIllWeightSet]
  rw [tableBusy_quiet _ _ (atChecks (cmd 0x302 0xC 0 [(2, 1), (2, 100), (124, 0)]) base) (by decide +kernel)]
theorem test_accepts_FAB_IMAGE_LOAD : accepted specFabImageLoad (cmd 0x800 0x17 6 [(4, 0x100), (4, 0)]) withImage = true :=
  acc rfl (by decide +kernel)
theorem test_meets_SessionCommandsSetTheSession :
    accepted specSessionOpen (cmd 0x0 0x0 0 [(2, 0), (1, 0), (1, 0), (4, 0xFFFF)]) base = true ∧
    accepted specSessionClose (cmd 0x1 0x0 0 []) base = true ∧
    accepted specHeartbeat (cmd 0x2 0x0 0 []) base = true ∧
    accepted specEventMaskSet (cmd 0x5 0x0 0 [(4, 0x1234)]) base = true ∧
    accepted specSessionOpen (cmd 0x0 0x0 0 [(2, 100), (1, 0x80), (1, 0), (4, 0xFFFF)]) State.reset = true :=
  ⟨acc rfl (by decide +kernel),
  acc rfl (by decide +kernel),
  acc rfl (by decide +kernel),
  acc rfl (by decide +kernel),
  acc rfl (by decide +kernel)⟩
theorem test_meets_OwnershipCommandsSetTheOwner :
    accepted specClaim (cmd 0x3 0x8 2 [(4, 0)]) State.resetOpen = true ∧
    accepted specRelease (cmd 0x4 0x8 2 [(4, 0)]) base = true :=
  ⟨acc rfl (by decide +kernel),
  acc rfl (by decide +kernel)⟩
theorem test_meets_ProcessorAndJournalCommands :
    accepted specCpReset (cmd 0x6 0x0 0 [(4, 0)]) base = true ∧
    accepted specJournalRead (cmd 0xD00 0x0 0 [(8, 1), (8, 1), (8, 64)]) base = true ∧
    accepted specJournalMark (cmd 0xD01 0x0 0 [(4, 7)]) base = true ∧
    accepted specCpReset (cmd 0x6 0x0 0 [(4, 1)]) base = true :=
  ⟨acc rfl (by decide +kernel),
  acc rfl (by decide +kernel),
  acc rfl (by decide +kernel),
  acc rfl (by decide +kernel)⟩
theorem test_meets_TimingCommandsFillTheShadow :
    accepted specTimingSet (cmd 0x100 0x2 0 [(4, 48), (4, 1), (4, 1), (2, 100), (1, 3), (1, 4), (4, 1000), (4, 20000), (1, 3), (1, 0), (2, 60), (4, 0), (2, 200), (2, 1000)]) base = true ∧
    accepted specCameraSet (cmd 0x101 0x3 1 [(1, 3), (1, 3), (1, 8), (1, 4), (4, 0), (4, 1000), (4, 0), (4, 20000)]) base = true ∧
    accepted specTimingCommit (cmd 0x103 0x2 0 []) base = true :=
  ⟨acc rfl (by decide +kernel),
  acc rfl (by decide +kernel),
  acc rfl (by decide +kernel)⟩
theorem test_meets_TimingBoundaryCommandsApply :
    accepted specViewBind (cmd 0x102 0x5 0 [(4, 4)]) base = true ∧
    accepted specPhaseMarkSet (cmd 0x105 0x4 0 [(4, 1), (4, 100), (4, 50)]) base = true :=
  ⟨acc rfl (by decide +kernel),
  acc rfl (by decide +kernel)⟩
theorem test_meets_SteeringStepsOrTrimsThePhase :
    accepted specPhaseSteer (cmd 0x104 0x2 0 [(4, 0), (4, 500), (4, 0), (4, 0)]) ({ base with tim := { base.tim with src := 2, st := .locked } }) = true ∧
    accepted specPhaseSteer (cmd 0x104 0x2 0 [(4, 0), (4, 5000), (4, 7), (4, 1)]) ({ base with tim := { base.tim with src := 2, st := .locked } }) = true :=
  ⟨acc rfl (by decide +kernel),
  acc rfl (by decide +kernel)⟩
theorem test_meets_SequenceCommandsSetTheirPort :
    accepted specSeqPortSet (cmd 0x200 0x8 0 [(1, 1), (1, 1), (2, 0), (2, 0), (2, 0)]) base = true ∧
    accepted specSeqLoad (cmd 0x201 0x8 0 [(2, 0), (2, 2), (4, 0), (4, 0x2800000), (4, 0), (8, 0), (4, 0x2800000), (4, 0), (8, 0)]) withPorts = true ∧
    accepted specSeqDriveSet (cmd 0x203 0x8 0 [(2, 0), (2, 5), (124, 0)]) withPorts = true ∧
    accepted specSeqLoad (cmd 0x201 0x8 0 [(2, 1), (2, 0), (4, 0)]) withPorts = true ∧
    accepted specSeqCommit (cmd 0x202 0x9 0 [(4, 1)]) seqBase = true :=
  ⟨acc rfl (by decide +kernel),
  acc rfl (by decide +kernel),
  acc rfl (by decide +kernel),
  acc rfl (by decide +kernel),
  quiet_seqCommit⟩
theorem test_meets_HoldAndPlaneStoreCommands :
    accepted specHoldExit (cmd 0x205 0x8 0 []) ({ base with seq := { base.seq with ports := Vector.replicate 4 { hold := { on := true } } } }) = true ∧
    accepted specPlaneStoreSet (cmd 0x206 0x5 0 [(1, 1), (1, 1), (1, 3), (1, 0), (2, 1024), (2, 16)]) base = true ∧
    accepted specPlaneStoreSet (cmd 0x206 0x5 0 [(1, 1), (1, 1), (1, 0), (1, 0), (2, 1024), (2, 16)]) base = true ∧
    accepted specHoldSet (cmd 0x204 0x8 0 [(2, 0), (2, 512), (4, 1), (4, 0)]) holdBase = true ∧
    accepted specHoldSet (cmd 0x204 0x8 0 [(2, 64), (2, 512), (4, 1), (4, 0)]) (holdBase.onPort 0 fun q => { q with hold := { on := true } }) = true :=
  ⟨acc rfl (by decide +kernel),
  acc rfl (by decide +kernel),
  acc rfl (by decide +kernel),
  acc rfl (by decide +kernel),
  acc rfl (by decide +kernel)⟩
theorem test_meets_IlluminationCommands :
    accepted specIllChainSet (cmd 0x300 0xA 0 [(4, 1)]) base = true ∧
    accepted specIllChainSet (cmd 0x300 0xA 0 [(4, 0)]) base = true ∧
    accepted specIllDeviceSet (cmd 0x301 0xB 0 [(1, 0), (1, 1), (2, 0), (16, 100)]) base = true ∧
    accepted specIllWeightSet (cmd 0x302 0xC 0 [(2, 1), (2, 100), (124, 0)]) base = true ∧
    accepted specIllFade (cmd 0x303 0xC 0 [(2, 1000), (2, 100)]) base = true ∧
    accepted specIllTcSet (cmd 0x304 0xD 0 [(1, 0), (1, 1), (2, 0), (2, 2500), (2, 16384), (6, 0)]) base = true ∧
    accepted specIllStringSet (cmd 0x305 0xE 0 [(1, 9), (1, 0), (1, 0), (1, 0), (2, 3000), (2, 1000), (2, 5), (2, 10)]) base = true ∧
    accepted specIllDiagSet (cmd 0x306 0xF 0 [(2, 1000), (1, 10), (1, 0)]) base = true :=
  ⟨acc rfl (by decide +kernel),
  acc rfl (by decide +kernel),
  quiet_illDeviceSet,
  quiet_illWeightSet,
  acc rfl (by decide +kernel),
  acc rfl (by decide +kernel),
  acc rfl (by decide +kernel),
  acc rfl (by decide +kernel)⟩
theorem test_meets_LoopCommandsSetLoopsAndGroups :
    accepted specLoopRefSet (cmd 0x402 0x10 0 [(4, 1), (4, 5), (4, 0)]) (withLoop .stop) = true ∧
    accepted specLoopSet (cmd 0x400 0x10 0 [(180, 0)]) base = true ∧
    accepted specLoopGroupSet (cmd 0x403 0x11 0 [(1, 1), (1, 0), (2, 500)]) (withLoop .stop) = true ∧
    accepted specLoopArm (cmd 0x404 0x10 0 []) (withLoop .fault) = true ∧
    accepted specLoopPwmSet (cmd 0x405 0x12 0 [(4, 25000), (2, 500), (2, 3)]) base = true ∧
    accepted specLoopSet (cmd 0x400 0x10 0 [(180, 0)]) (withLoop .run) = true ∧
    accepted specLoopSet (cmd 0x400 0x10 0 [(1, 1), (1, 0), (1, 9), (1, 0), (4, 1000), (4, 0), (2, 0), (1, 1), (33, 0), (1, 255), (7, 0), (1, 255), (7, 0), (16, 0), (3, 0), (1, 1), (96, 0)]) base = true ∧
    accepted specLoopSet (cmd 0x400 0x10 0 [(1, 3), (1, 0), (1, 9), (1, 0), (4, 1000), (4, 0), (2, 0), (1, 1), (33, 0), (1, 255), (7, 0), (1, 255), (7, 0), (16, 0), (3, 0), (1, 1), (96, 0)]) (loopReady .stop) = true ∧
    accepted specLoopSet (cmd 0x400 0x10 0 [(1, 3), (1, 0), (1, 9), (1, 0), (4, 1000), (4, 0), (2, 0), (1, 1), (33, 0), (1, 255), (7, 0), (1, 255), (7, 0), (16, 0), (3, 0), (1, 1), (96, 0)]) (loopReady .run) = true :=
  ⟨acc rfl (by decide +kernel),
  acc rfl (by decide +kernel),
  acc rfl (by decide +kernel),
  acc rfl (by decide +kernel),
  acc rfl (by decide +kernel),
  acc rfl (by decide +kernel),
  acc rfl (by decide +kernel),
  acc rfl (by decide +kernel),
  acc rfl (by decide +kernel)⟩
theorem test_meets_ExclusionAndSymbolCommands :
    accepted specXclRegionSet (cmd 0x500 0x13 0 [(8, 1), (8, 0), (80, 0)]) withPorts = true ∧
    accepted specXclMaskLoad (cmd 0x501 0x13 0 [(4, 0x100), (4, 0)]) ({ withBuf with seq := withPorts.seq }) = true ∧
    accepted specXclHostBlank (cmd 0x502 0x0 0 []) base = true ∧
    accepted specXclSafeRelease (cmd 0x503 0x0 0 []) ({ base with xcl := { base.xcl with blankIn := true, ilockA := true, ilockB := true } }) = true ∧
    accepted specSymListSet (cmd 0x504 0x5 0 [(16, 1), (128, 0), (32, 0)]) base = true ∧
    accepted specSymGlyphLoad (cmd 0x505 0x0 0 [(4, 0), (4, 0x100)]) withBuf = true :=
  ⟨acc rfl (by decide +kernel),
  acc rfl (by decide +kernel),
  acc rfl (by decide +kernel),
  acc rfl (by decide +kernel),
  acc rfl (by decide +kernel),
  acc rfl (by decide +kernel)⟩
theorem test_meets_LinkCommandsSetOctets :
    accepted specLinkAllot (cmd 0x600 0x14 0 [(32, 0)]) base = true ∧
    accepted specLinkLaneSet (cmd 0x601 0x15 0 [(1, 255), (1, 24), (1, 16), (1, 24), (4, 24)]) withOctets = true ∧
    accepted specLinkOctetReset (cmd 0x602 0x15 0 []) withOctets = true ∧
    accepted specLinkDiag (cmd 0x603 0x15 0 [(1, 1), (1, 1), (2, 0)]) base = true :=
  ⟨acc rfl (by decide +kernel),
  acc rfl (by decide +kernel),
  acc rfl (by decide +kernel),
  acc rfl (by decide +kernel)⟩
theorem test_meets_ArrayHealthCommandsScanParkAndRead :
    accepted specAhmPolicySet (cmd 0x610 0x16 0 [(1, 1), (1, 64), (2, 0)]) base = true ∧
    accepted specAhmScan (cmd 0x611 0x16 0 [(4, 1)]) (withArray .present) = true ∧
    accepted specAhmScan (cmd 0x611 0x16 0 [(4, 0)]) ({ base with ahm := { base.ahm with arrays := Vector.replicate 4 { st := .scanning, scanRun := some {} } } }) = true ∧
    accepted specAhmDefectRead (cmd 0x612 0x16 0 [(4, 0x100), (4, 0)]) withBuf = true ∧
    accepted specAhmPark (cmd 0x613 0x16 0 [(4, 1)]) (withArray .present) = true ∧
    accepted specAhmPark (cmd 0x613 0x16 0 [(4, 0)]) (withArray .parked) = true :=
  ⟨acc rfl (by decide +kernel),
  acc rfl (by decide +kernel),
  acc rfl (by decide +kernel),
  acc rfl (by decide +kernel),
  acc rfl (by decide +kernel),
  acc rfl (by decide +kernel)⟩
theorem test_meets_CompositionCommandsFillShadows :
    accepted specCmpViewSet (cmd 0x700 0x5 0 [(2, 1024), (2, 512), (4, 8388608), (6, 0), (2, 0)]) base = true ∧
    accepted specCmpPipeBind (cmd 0x701 0x7 0 [(4, 0)]) base = true ∧
    accepted specCmpLayerSet (cmd 0x702 0x7 0 [(64, 0)]) withPipe = true ∧
    accepted specCmpWritebackSet (cmd 0x704 0x5 0 [(4, 1), (4, 0x100), (4, 4096)]) base = true ∧
    accepted specCmpCommit (cmd 0x705 0x6 0 [(4, 0)]) base = true ∧
    accepted specCmpPipeBind (cmd 0x701 0x7 0 [(4, 1)]) pipeBusy = true :=
  ⟨acc rfl (by decide +kernel),
  acc rfl (by decide +kernel),
  acc rfl (by decide +kernel),
  acc rfl (by decide +kernel),
  acc rfl (by decide +kernel),
  acc rfl (by decide +kernel)⟩
theorem test_meets_FabricCommandsSetImagesChainsAndParameters :
    accepted specFabChainSet (cmd 0x801 0x5 0 [(1, 0), (1, 0), (1, 255), (5, 0), (136, 0)]) base = true ∧
    accepted specFabChainGo (cmd 0x802 0x5 0 []) ({ base with fab := { base.fab with views := Vector.replicate 5 { next := some {}, nextStart := true } } }) = true ∧
    accepted specFabParamSet (cmd 0x803 0x18 0 [(2, 4), (2, 0), (4, 0), (4, 0)]) withCluster = true ∧
    accepted specFabClusterReset (cmd 0x804 0x18 0 []) withCluster = true :=
  ⟨acc rfl (by decide +kernel),
  acc rfl (by decide +kernel),
  acc rfl (by decide +kernel),
  acc rfl (by decide +kernel)⟩
theorem test_meets_BufferCommandsAllocateFreeSignalAndIngest :
    accepted specBufAlloc (cmd 0x900 0x0 0 [(8, 4096), (8, 1)]) base = true ∧
    accepted specBufFree (cmd 0x901 0x19 0 [(4, 0x100), (4, 0)]) withBuf = true ∧
    accepted specBufSignal (cmd 0x902 0x19 0 [(4, 0x100), (4, 1), (4, 9)]) withBuf = true ∧
    accepted specBufIngest (cmd 0x909 0x19 0 [(4, 0x100), (4, 0), (8, 0), (8, 64), (8, 64)]) withBuf = true ∧
    accepted specBufFree (cmd 0x901 0x19 0 [(4, 0x100), (4, 0)]) ({ withBuf with cmp := { withBuf.cmp with named := [0x100] } }) = true ∧
    accepted specBufSignal (cmd 0x902 0x19 0 [(4, 0x100), (4, 0), (4, 0)]) ingestBase = true :=
  ⟨acc rfl (by decide +kernel),
  acc rfl (by decide +kernel),
  acc rfl (by decide +kernel),
  acc rfl (by decide +kernel),
  acc rfl (by decide +kernel),
  acc rfl (by decide +kernel)⟩
theorem test_meets_MemoryCommandsSetLayoutPolicyAndRanks :
    accepted specMemLayoutSet (cmd 0x903 0x1A 0 [(2, 2048), (1, 1), (1, 12), (4, 1)]) base = true ∧
    accepted specMemReserveSet (cmd 0x904 0x1A 0 [(4, 100), (20, 0)]) base = true ∧
    accepted specMemPolicySet (cmd 0x905 0x1A 0 [(2, 4), (2, 20), (2, 200), (2, 100), (4, 2000), (1, 10), (1, 24), (2, 430), (8, 0)]) base = true ∧
    accepted specMemFence (cmd 0x906 0x1A 0 []) base = true ∧
    accepted specMemRankRetire (cmd 0x907 0x1A 0 [(4, 0)]) base = true ∧
    accepted specMemRetrain (cmd 0x908 0x1A 0 [(4, 3)]) base = true ∧
    accepted specMemRetrain (cmd 0x908 0x1A 0 [(4, 0)]) base = true :=
  ⟨acc rfl (by decide +kernel),
  acc rfl (by decide +kernel),
  acc rfl (by decide +kernel),
  acc rfl (by decide +kernel),
  acc rfl (by decide +kernel),
  acc rfl (by decide +kernel),
  acc rfl (by decide +kernel)⟩
theorem test_meets_ManagementCommandsUpdateReadAndReinitialise :
    accepted specUpdateBegin (cmd 0xA01 0x20 0 [(8, 30000)]) base = true ∧
    accepted specUpdateData (cmd 0xA02 0x20 0 [(8, 0), (4, 1)]) ({ base with mgt := { base.mgt with update := some (1, 30000, []) } }) = true ∧
    accepted specUpdateCommit (cmd 0xA03 0x20 0 [(4, 0)]) ({ base with mgt := { base.mgt with update := some (1, 0, []) } }) = true ∧
    accepted specMgtFuse (cmd 0xA04 0x20 0 [(4, 1)]) base = true ∧
    accepted specMgtFuse (cmd 0xA04 0x20 0 [(1, 2), (3, 1)]) base = true ∧
    accepted specMgtBootcfgSet (cmd 0xA05 0x20 0 [(36, 1)]) base = true ∧
    accepted specMgtRead (cmd 0xA06 0x20 0 [(8, 0), (8, 1), (8, 1), (8, 64)]) base = true ∧
    accepted specMgtFaultClear (cmd 0xA07 0x20 0 [(4, 31)]) base = true ∧
    accepted specMgtReinit (cmd 0xA08 0x20 0 []) base = true ∧
    accepted specMgtFuse (cmd 0xA04 0x20 0 [(1, 2), (3, 1)]) ({ base with mgt := { base.mgt with revoked := 2 } }) = true ∧
    accepted specMgtReinit (cmd 0xA08 0x20 0 []) ({ base with mgt := { base.mgt with st := .rom } }) = true ∧
    accepted specMgtFuse (cmd 0xA04 0x20 0 [(4, 1)]) ({ base with mgt := { base.mgt with slots := Vector.replicate 2 { st := .valid, bytes := [0, 0, 0, 0, 0, 0, 0, 5] } } }) = true :=
  ⟨acc rfl (by decide +kernel),
  acc rfl (by decide +kernel),
  acc rfl (by decide +kernel),
  acc rfl (by decide +kernel),
  acc rfl (by decide +kernel),
  acc rfl (by decide +kernel),
  acc rfl (by decide +kernel),
  acc rfl (by decide +kernel),
  acc rfl (by decide +kernel),
  acc rfl (by decide +kernel),
  acc rfl (by decide +kernel),
  acc rfl (by decide +kernel)⟩
theorem test_meets_EnclaveCommandsLogInAndKeepKeys :
    accepted specSecChallenge (cmd 0xB00 0x21 0 []) base = true ∧
    accepted specSecUserSet (cmd 0xB02 0x21 0 [(36, 0x100)]) base = true ∧
    accepted specSecPolicySet (cmd 0xB03 0x21 0 [(4, 0xF01)]) base = true ∧
    accepted specSecKemGen (cmd 0xB04 0x21 0 [(48, 0)]) (withRole 1) = true ∧
    accepted specSecKeyZero (cmd 0xB06 0x22 0 []) withKey = true ∧
    accepted specSecQuote (cmd 0xB07 0x21 0 [(40, 0)]) base = true ∧
    accepted specSecMarkSet (cmd 0xB08 0x21 0 [(4, 77), (4, 100)]) (withRole 1) = true ∧
    accepted specSecSelftest (cmd 0xB09 0x21 0 []) base = true ∧
    accepted specSecZeroise (cmd 0xB0A 0x21 0 [(4, 0)]) base = true ∧
    accepted specSecProvision (cmd 0xB0B 0x21 0 [(4, 1), (128, 0)]) ({ base with sec := { base.sec with st := .provision } }) = true ∧
    accepted specSecZeroise (cmd 0xB0A 0x21 0 [(4, 1)]) base = true :=
  ⟨acc rfl (by decide +kernel),
  acc rfl (by decide +kernel),
  acc rfl (by decide +kernel),
  acc rfl (by decide +kernel),
  acc rfl (by decide +kernel),
  acc rfl (by decide +kernel),
  acc rfl (by decide +kernel),
  acc rfl (by decide +kernel),
  acc rfl (by decide +kernel),
  acc rfl (by decide +kernel),
  acc rfl (by decide +kernel)⟩
theorem test_meets_PowerCommandsSetItemsLimitsAndStandby :
    accepted specPwrItemSet (cmd 0xC00 0x23 0 [(1, 3), (1, 0x20), (1, 0), (1, 0x88), (4, 0), (4, 1000)]) base = true ∧
    accepted specThmSet (cmd 0xC01 0x23 0 [(2, 12), (2, 20)]) base = true ∧
    accepted specPwrStandby (cmd 0xC02 0x23 0 [(4, 1)]) base = true ∧
    accepted specPwrStandby (cmd 0xC02 0x23 0 [(4, 0)]) ({ base with pwr := { base.pwr with standby := true } }) = true ∧
    accepted specPwrStandby (cmd 0xC02 0x23 0 [(4, 0)]) base = true ∧
    accepted specPwrStandby (cmd 0xC02 0x23 0 [(4, 1)]) ({ base with pwr := { base.pwr with standby := true } }) = true :=
  ⟨acc rfl (by decide +kernel),
  acc rfl (by decide +kernel),
  acc rfl (by decide +kernel),
  acc rfl (by decide +kernel),
  acc rfl (by decide +kernel),
  acc rfl (by decide +kernel)⟩
/-- A property of the next state of an outcome. -/
def after (o : Host.Outcome State Fault Refusal) (p : State → Bool) : Bool := match o with | .next t => p t | _ => false

theorem test_meets_StepRunsTheFrontCommand : ({ base with pending := [.hifReady, .i3cPrivateRead] } : State).pending = .hifReady :: [.i3cPrivateRead] := rfl
theorem test_meets_UnattendedStepFollowsTheClock :
    base.pending = [] ∧ base.wrapped = false ∧ base.raised = [] ∧ ({ base with wrapped := true } : State).wrapped = true ∧
    ({ base with raised := [.hifReady] } : State).raised = .hifReady :: [] ∧ ({ base with powered := false } : State).live = false ∧
    0 < base.rd ∧ -1000000 ≤ base.tim.rateOfs := by decide +kernel
theorem test_meets_invariants : Memory.wf base.mem = true ∧ rateInRange base.tim = true ∧ safeAgrees base.xcl = true ∧
    base.xcl.latch.getLsbD 11 = true ∧ after (step { base with pending := [.hifReady] }) (fun _ => true) = true ∧
    after (exec .hifReady base) (fun _ => true) = true := by decide +kernel
theorem test_meets_FrameNumberCountsBoundaries : base.live = true ∧
    (coldHeld.porst = true ∧ coldHeld.powered = true ∧ coldHeld.wrst = false ∧ coldHeld.pwr.railReset = false ∧ coldHeld.coldReset = true) ∧
    (warmHeld.wrst = true ∧ warmHeld.powered = true ∧ warmHeld.porst = false ∧ warmHeld.pwr.railReset = false ∧ warmHeld.coldReset = false) := by
  decide +kernel

/-- A HEARTBEAT to a class that it does not have. -/
theorem test_meets_RefusedCommandOnlyReports : hostRow (.heartbeat (cmd 2 9 0 [])) = some (specHeartbeat, cmd 2 9 0 []) ∧
    refusedWith specHeartbeat (cmd 2 9 0 []) ⟨.badTarget, 0⟩ base := by
  refine ⟨rfl, ?_, by decide +kernel⟩
  simp only [isRead, show Cmd.crcOk specHeartbeat.op (cmd 2 9 0 []) = true from cmd_crc 2 9 0 [], Bool.and_true]
  decide +kernel
theorem test_meets_BadCrcIsCountedAndNotJournaled : deaf badCrc base = false ∧ ringStops badCrc base = false ∧ ringWaits badCrc base = false ∧
    Cmd.crcOk specHeartbeat.op badCrc = false := by
  refine ⟨by decide +kernel, by decide +kernel, by decide +kernel, ?_⟩
  have h : badCrc.crc ≠ Cmd.goodCrc specHeartbeat.op badCrc := by
    intro e
    exact absurd (show (Cmd.goodCrc 2 (cmd 2 0 0 [])) + 1 = Cmd.goodCrc 2 (cmd 2 0 0 []) from e) (by simp)
  simp only [Cmd.crcOk, beq_eq_false_iff_ne.2 h, Bool.false_and]
theorem test_meets_StoppedRingHoldsItsCommands : deaf badCrc { base with powered := false } = true ∧ deaf badCrc clockBad = false ∧
    ringStops badCrc clockBad = true ∧ ringWaits badCrc { base with hif := { base.hif with waiting := [{ cmd := badCrc }] } } = true := by decide +kernel
theorem test_meets_SteeringNeedsTheHostSource : base.tim.src ≠ 2 ∧ isRead 0x0104 steer base = true ∧
    headerRefusal specPhaseSteer steer (atChecks steer base) = none ∧ groupBusy 0x0104 (atChecks steer base) = false := by
  refine ⟨by decide +kernel, ?_, by decide +kernel⟩
  simp only [isRead, show Cmd.crcOk 0x0104 steer = true from cmd_crc 0x104 2 0 _, Bool.and_true]
  decide +kernel
theorem test_meets_SteeringSteps_clauses : sampleSteps 500 base = false ∧ sampleSteps 5000 base = true := by decide +kernel
/-- A command that awaits the next boundary. -/
theorem test_meets_boundary_clauses (op : BitVec 16) : ∃ h : Held, h.opcode = op ∧ h.due = none := ⟨{ opcode := op }, rfl, rfl⟩
theorem test_meets_TimingBoundaryCommands_waits : ({ base with tim := { base.tim with commitMode := some {} } } : State).tim.commitMode = some {} := rfl
theorem test_meets_CompositionCommandsFillShadows_read : pipeRead 0 pipeBusy = true ∧ (pipeBusy.pipe 0).view ≠ some 1 ∧ pipeRead 0 base = false := by
  decide +kernel
theorem test_meets_FabricCommands_params : (inChain.cluster 0).symb = false ∧ (inChain.cluster 0).st ≠ .off ∧
    inForce 0 inChain = true ∧ (inChain.cluster 0).view.toNat < 5 := by decide +kernel
theorem test_meets_BufferCommands_cases : referenced 0x100 { withBuf with cmp := { withBuf.cmp with named := [0x100] } } = true ∧
    referenced 0x100 withBuf = false ∧ ingesting 1 (some 0x100) (ingestBase.hif.jseq + 1) ingestBase = true ∧
    ingesting 1 (some 0x100) (withBuf.hif.jseq + 1) withBuf = false := by decide +kernel

theorem test_meets_RegisterWritesClearStickyBits : base.live = true ∧ domainOn 143 base = true ∧
    clearable 0x30104 1 base = 1 ∧
    (clearSingle 0x30104 1 base = none ∧ (clearGroup 0x30104 1 base).isSome = true) ∧
    (clearSingle 0xE0020 1 base = none ∧ clearGroup 0xE0020 1 base = none ∧ (writeCal 0xE0020 1 base).isSome = true) ∧
    (clearSingle 0 1 base = none ∧ clearGroup 0 1 base = none ∧ writeCal 0 1 base = none ∧ regRead 0 base ≠ none) ∧
    (clearSingle 0xFFFFFC 1 base = none ∧ clearGroup 0xFFFFFC 1 base = none ∧ writeCal 0xFFFFFC 1 base = none ∧ regRead 0xFFFFFC base = none) := by
  decide +kernel
/-- The core supply is off in a live device. -/
def coreOff : State := { base with pwr := { base.pwr with seqDone := false, step := 2 } }
theorem test_meets_DarkRegistersReadAllOnes : inDarkDomain 0x50104 base = true ∧ inDarkDomain 0x60104 base = true ∧ inDarkDomain 0x70100 base = true ∧
    inDarkDomain 0xA0404 base = true ∧ base.live = true ∧ coreOff.live = true ∧ domainOn 143 coreOff = false ∧ inDarkDomain 0x20004 coreOff = true ∧
    inDarkDomain 0x10004 coreOff = false := by decide +kernel
theorem test_meets_HostReadsAndBadAccesses : base.live = true ∧ goodAccess 2 4 false base = false ∧ goodAccess 4 2 true base = false ∧
    regRead 0 base ≠ none ∧ regRead 4 base ≠ none ∧ bar2Buf 0 8 4 mapped = some (mappedBuf, 8) ∧ mappedBuf.lost = false ∧ mappedBuf.place = some 0 ∧
    (∀ w ∈ burstsOf (0 + 8) 4, isProtectedAt .general w.1 mapped = false ∧ badWord .general w.1 mapped = false ∧ badWord .general w.1 allFenced = true ∧
      isProtectedAt .general w.1 allFenced = false ∧ isProtectedAt .general w.1 guardedMap = true) ∧ burstsOf (0 + 8) 4 = [(8, 4)] ∧
    allFenced.mem.migRun = false ∧ mapped.mem.fenced = 0 ∧ memWf mapped.mem.general = true ∧ bar2Buf 0 8 4 lostMap = some ({ mappedBuf with lost := true }, 8) ∧
    bar2Buf 0 8 4 guardedMap = some ({ mappedBuf with isProtected := true }, 8) ∧
    bar2Buf 0 8 4 allFenced = some (mappedBuf, 8) ∧ scanLocked mappedBuf.handle mapped = false ∧
    bar2Buf 0 8 4 locked = some (mappedBuf, 8) ∧ scanLocked mappedBuf.handle locked = true ∧ bar2Buf 0 8 4 base = none := by decide +kernel
theorem test_meets_RawEntriesRunLikeTheirRows : hostRow (.heartbeat badCrc) = some (specHeartbeat, badCrc) ∧
    doorOk (nth (nth ringsOn.hif.pcie 0).crings 0).cfg 3 = true ∧ doorOk (nth (nth base.hif.pcie 0).crings 0).cfg 3 = false ∧ ringsOn.live = true ∧
    (base.hif.waiting.filter fun h => h.cmd.host == 3).length < 8 := ⟨rfl, by decide +kernel⟩
theorem test_meets_RawEntries_unknown : (∀ i sp, hostRow i = some (sp, cmd 0xFFFF 0 0 []) → sp.op ≠ 0xFFFF) ∧
    isRead 0xFFFF (cmd 0xFFFF 0 0 []) base = true ∧ (cmd 0xFFFF 0 0 []).version = 1 ∧ base.mgt.st ≠ .recovery := by
  refine ⟨?_, ?_, rfl, by decide +kernel⟩
  · intro i sp h
    cases i <;> simp only [hostRow] at h <;> cases h <;> decide
  · simp only [isRead, show Cmd.crcOk 0xFFFF (cmd 0xFFFF 0 0 []) = true from cmd_crc 0xFFFF 0 0 [], Bool.and_true]
    decide +kernel
theorem test_meets_RingRegistersAndInterrupts : base.live = true ∧ ringOn (nth (nth base.hif.pcie 0).crings 0).cfg = false ∧
    (0x14 : Word).getLsbD 4 = true ∧ 4 ≤ (0x14 : Word).toNat % 16 ∧ (0x14 : Word).toNat % 16 ≤ 12 ∧
    ringsOn.live = true ∧ ringOn (nth (nth ringsOn.hif.pcie 0).crings 0).cfg = true ∧ doorOk (nth (nth ringsOn.hif.pcie 0).rrings 0).cfg 3 = true ∧
    (nth ringsOn.hif.pcie 0).coalescing.getLsbD 5 = true ∧ (nth ringsOn.hif.pcie 0).pendingBits.getLsbD 5 = true ∧
    (nth (nth ringsOn.hif.pcie 0).msixTable (4 * 5 + 3)).getLsbD 0 = false ∧ (nth ringsLater.hif.pcie 0).coalescing.getLsbD 5 = true ∧
    nth (nth ringsLater.hif.pcie 0).sentNs 5 + 10000 ≤ ringsLater.ns := by decide +kernel
theorem test_meets_SessionsCores_times : (1 : Nat) ≠ 0 ∧ (nth later.hif.cores 1).lastNs + 10000000 ≤ later.ns ∧ (nth later.hif.sess 1).isOpen = true ∧
    (nth later.hif.sess 1).lease = true ∧ (nth later.hif.sess 1).leaseStart + (nth later.hif.sess 1).leaseMs.toNat * 1000000 ≤ later.ns ∧
    deaf (cmd 2 0 0 []) later = false ∧ Cmd.crcOk 2 (cmd 2 0 0 []) = true ∧ later.mgt.st ≠ .recovery :=
  ⟨by decide, by decide +kernel, by decide +kernel, by decide +kernel, by decide +kernel, by decide +kernel, cmd_crc 2 0 0 [], by decide +kernel⟩
theorem test_meets_SessionsCoresAndJournalEvents : (nth base.hif.cores 0).st ≠ .off ∧ (nth busyCores.hif.cores 1).st = .off ∧
    8 < busyCores.hif.waiting.length ∧ base.live = true ∧ base.hif.jhead.toNat < base.hif.jseq.toNat ∧
    railOn 0 base = true ∧ railOn 0 railsDown = false ∧ base.mgt.st ≠ .recovery ∧
    ({ base with mgt := { base.mgt with st := .recovery } } : State).mgt.st = .recovery ∧
    (nth busyCores.hif.sess 1).isOpen = true ∧ (nth busyCores.hif.sess 1).lease = true ∧
    (ingestBase.hif.ingests.find? fun h => h.cmd.host.toNat == 1) = some ingestHeld ∧ ingestDecrypt ingestHeld.cmd = false ∧
    cmdBuf ingestHeld.cmd ingestBase = some plainBuf ∧ ingestSignal ingestHeld.cmd = false ∧ (∀ x ∈ ingestBase.cmp.bufs, x.freePending = none) := by
  decide +kernel
theorem test_meets_ResetPinsHoldAndReleaseTheDevice : (base.powered = true ∧ base.porst = false ∧ base.live = true) ∧
    (coldHeld.powered = true ∧ coldHeld.porst = true ∧ coldHeld.wrst = false ∧ coldHeld.pwr.railReset = false ∧ coldHeld.hif.resetEnds = [] ∧
      coldHeld.coldReset = true) ∧
    (warmHeld.powered = true ∧ warmHeld.porst = false ∧ warmHeld.wrst = true ∧ warmHeld.pwr.railReset = false ∧ warmHeld.coldReset = false ∧
      warmHeld.hif.resetEnds = [] ∧ warmHeld.mgt.st ≠ .recovery) ∧
    base.mgt.clkStatus = 0 ∧ ({ coldHeld with mgt := clock0Bad.mgt } : State).mgt.clkStatus.getLsbD 0 = true ∧
    ({ warmHeld with mgt := { base.mgt with clkStatus := 8 } } : State).mgt.clkStatus.getLsbD 3 = true ∧
    ({ base with powered := false } : State).powered = false ∧ base.hif.isVolatile = false ∧ base.xcl.latch.getLsbD 11 = true := by decide +kernel
/-- A protected plane store holds bytes, and no canvas does. -/
def guardedStore : State := { warmHeld with slc := { warmHeld.slc with
  stores := Vector.replicate 5 { colours := 1, width := 1024, height := 16, bufs := [{}], isProtected := true } } }
theorem test_meets_ResetPins_memory : (∀ v, v < 5 → (warmHeld.store v).isProtected = false) ∧ (guardedStore.store 4).isProtected = true ∧
    0 < storeSize (guardedStore.store 4) ∧ memWf guardedStore.mem.plane = true ∧ warmHeld.cmp.bufs = [] ∧
    (∀ v i, v < 5 → canvasSecret v i warmHeld = false) := by
  refine ⟨by decide +kernel, by decide +kernel, by decide +kernel, by decide +kernel, by decide +kernel, fun v i h => ?_⟩
  have q : ∀ v, v < 5 → (warmHeld.cview v).isProtected = false ∧ (warmHeld.fview v).secret = [] := by decide +kernel
  simp [canvasSecret, (q v h).1, (q v h).2]
theorem test_meets_SuppliesRailsAndDomains : base.powered = true ∧ ({ base with powered := false } : State).powered = false ∧
    (sequencing railsDown = true ∧ railsDown.pwr.railReset = false) ∧
    (railsFailed.powered = true ∧ railsFailed.porst = false ∧ railsFailed.pwr.retryWait = true ∧ railsFailed.pwr.seqFails < 3 ∧
      railsFailed.pwr.failNs + 1000000000 ≤ railsFailed.ns) ∧
    (base.live = true ∧ base.pwr.seqDone = true ∧ base.mgt.st = .run ∧ base.pwr.standby = false) ∧ base.hif.isVolatile = false ∧
    (warmHeld.powered = true ∧ warmHeld.porst = false ∧ warmHeld.coldReset = false ∧ warmHeld.pwr.seqDone = true ∧ warmHeld.pwr.pgood.getLsbD 3 = true) ∧
    (740 ≤ base.pwr.vcoreSet.toNat + 25 ∧ base.pwr.vcoreSet.toNat ≤ 740 + 25) ∧ (700 + 25 < avsBad.pwr.vcoreSet.toNat ∧ 9 ≤ avsBad.pwr.avsRun) ∧
    ((nth itemsSet.pwr.items 0).defined = true ∧ (nth itemsSet.pwr.items 0).failRun < 2 ∧ 2 ≤ (nth itemsSet.pwr.items 1).failRun ∧
      (nth itemsSet.pwr.items 1).defined = true) ∧
    (∃ d, d < 141 ∧ wantsDomain d domainsOff = true ∧ domainOn d domainsOff = false) ∧ domainsOff.live = true ∧
    (leavingStandby.pwr.standbyCmd = some {} ∧ standbyOn ({} : Held).cmd = false ∧ leavingStandby.sec.st = .selftest ∧
      leavingStandby.pwr.exitNs + 1000000000 ≤ leavingStandby.ns) := by decide +kernel
theorem test_meets_ThermalSampleFollowsTheHottestReading : base.live = true ∧ base.mgt.clkStatus.getLsbD 2 = false ∧
    after (exec (.thermalSample (List.replicate 52 (some 13000))) base) (fun t => thmWarn base ≤ t.thm.hotTemp && thmThrottle base ≤ t.thm.hotTemp &&
      thmShutdown base ≤ t.thm.hotTemp && t.thm.shutdown) = true ∧
    after (exec (.thermalSample (List.replicate 52 (some 2500))) base) (fun t => t.thm.hotTemp < thmWarn base - 300 &&
      t.thm.hotTemp < thmThrottle base - 300) = true ∧
    (shutDown.live = true ∧ shutDown.thm.shutdown = true ∧ shutDown.thm.noRestart = false ∧ shutDown.thm.coolFrom = some 1 ∧ 1 + 10000000000 ≤ shutDown.ns) ∧
    after (exec (.thermalSample (List.replicate 52 (some 2500))) shutDown) (fun t => t.thm.shutdown && t.thm.hotTemp < thmShutdown shutDown - 1500 &&
      !(nth t.thm.sensFault 0)) = true := by
  decide +kernel
theorem test_meets_ClockMonitorsRecordAndBlank : base.live = true ∧ base.mgt.clkStatus.getLsbD 0 = false ∧ base.powered = true ∧
    clock0Bad.mgt.clkStatus.getLsbD 0 = true ∧
    after (exec (.clockMonitorGood 0) clock0Bad) (fun t => t.mgt.clkStatus &&& 0x29F == 0) = true := by decide +kernel
theorem test_meets_ReferenceAndCameraEvents : base.live = true ∧ true ≠ base.tim.mode.refFalling ∧
    (sourceActive refLost = true ∧ isEdgeSrc refLost.tim.src.toNat = true ∧ refLost.tim.mode.refLossLimit ≤ refLost.tim.lossPeriods) ∧
    (∀ c ∈ refLost.tim.mode.srcList, (nth refLost.tim.srcs c.toNat).valid = true → c.toNat = refLost.tim.src.toNat) ∧
    ((refLost2.tim.mode.srcList.map (·.toNat)).find? fun c => c != refLost2.tim.src.toNat && (nth refLost2.tim.srcs c).valid) = some 3 ∧
    (sourceActive steered = true ∧ steered.tim.src = 2 ∧ steerOver { steered with ns := 10 ^ 15 } = true) ∧
    (heldOver.tim.st = .holdover ∧ holdoverOver { heldOver with ns := 10 ^ 15 } = true) ∧ settleOver { settling with ns := 10 ^ 15 } = true ∧
    railOn 0 base = true ∧ railOn 0 railsDown = false ∧
    ((seen 0).cam 0).seen = true ∧ markWant 1 base = false ∧ markWant 4 refOutHigh = true ∧ ((seen 0).cam 0).mode ≠ .off ∧ ((seen 0).cam 0).miss + 1 < (nth (seen 0).tim.mode.cams 0).missLimit ∧
    (nth (seen 7).tim.mode.cams 0).missLimit ≤ ((seen 7).cam 0).miss + 1 ∧ ((seen 7).cam 0).seen = true ∧
    (((seen 0).cam 0).mode ≠ .off ∧ ((seen 0).cam 0).cand = none) ∧ ((candSeen.cam 0).cand = some {} ∧ candSeen.ns < ({} : CamEdge).ns + 1000) ∧
    base.tim.frozen = false ∧ ({ base with tim := { base.tim with frozen := true } } : State).tim.frozen = true ∧
    (unlocking.tim.st = .locked ∧ unlocking.tim.mode.unlockThrNs < Int.natAbs 30000 ∧ unlocking.tim.mode.unlockCount ≤ unlocking.tim.unlockRun + 1) := by
  decide +kernel
theorem test_meets_SecondCommitIsRefusedBusy : isRead 0x0202 commit1 committing = true ∧
    headerRefusal specSeqCommit commit1 (atChecks commit1 committing) = none ∧ groupBusy 0x0202 (atChecks commit1 committing) = false ∧
    u8 (Cmd.payload commit1) 0 < 16 ∧ (∀ i ∈ [1, 2, 3], u8 (Cmd.payload commit1) i = 0) ∧
    (∃ p ∈ bitsOf 4 (u8 (Cmd.payload commit1) 0), (committing.port p).commitSeqs.isSome = true) := by
  refine ⟨?_, by decide +kernel⟩
  simp only [isRead, show Cmd.crcOk 0x0202 commit1 = true from cmd_crc 0x202 9 0 _, Bool.and_true]
  decide +kernel
theorem test_meets_HoldTimesOut : (holdAsked.port 0).hold.req.isSome = true ∧ (holdAsked.port 0).hold.on = false ∧
    (holdAsked.port 0).hold.cmd = some { jseq := 7 } ∧ holdAsked.mgt.st ≠ .recovery ∧
    (holdAsked.port 0).hold.reqTk + 2 * periodTk ≤ absTick { holdAsked with frame := 2 } := by decide +kernel
theorem test_meets_SlotsStepAndBandsChangeOver : (picture.live = true ∧ (picture.port 0).enable = true ∧ (picture.port 0).stepping = true ∧
      (picture.port 0).hold.on = false ∧ picture.pictureStops = false ∧ holdBegins (picture.port 0) = false ∧
      (picture.port 0).slots[(picture.port 0).slot.toNat + 1]? = some {}) ∧
    (settlingSlot.port 0).settling = true ∧
    ((inHold.port 0).st = .hold ∧ (inHold.port 0).hold.on = true ∧ (inHold.port 0).hold.subslot < 1023 ∧ inHold.pictureStops = false) ∧
    (∀ p, p < 4 → (base.port p).selNext = none) ∧
    (memServes picture = true ∧ bandHeight 0 picture ≠ 0 ∧ fetchLimit (picture.port 0) = some 2 ∧ (loadPlane 0 0 picture).zero = false ∧
      (∀ w ∈ burstsOf ((loadPlane 0 0 picture).base + 1024 * (picture.port 0).fetchRow) 1024, badWord .plane w.1 picture = false) ∧ (picture.port 0).rows.length < 2048 ∧
      (picture.port 0).fetchSlot ≤ 2 ∧ (picture.port 0).fetchSlot < (picture.port 0).slots.length) ∧
    (nth (picture.port 0).bandNext 15 ≤ 1 ∧ bandSent 0 (nth (picture.port 0).bandNext 15) 15 picture = true ∧
      (picture.port 0).withheld.getLsbD 15 = false ∧ (picture.arr 0).scanQuiet = false ∧ (picture.port 0).slot.toNat + 1 < 4096) := by decide +kernel
theorem test_meets_LaneFramesAreSent : base.live = true ∧ allIn 0 .fwdTrain (octetsIn { st := .fwdTrain }) = true ∧
    allIn 0 .capsWait (octetsIn { st := .capsWait }) = true ∧ (portReady 0 (octetsIn { st := .ready }) = true ∧
      holdIdle 0 (octetsIn { st := .ready }) = false) ∧
    (bursting.live = true ∧ portReady 0 bursting = true ∧ holdIdle 0 bursting = true ∧ (bursting.link 0).allot.kaBurst = true) ∧
    (∀ a, a < (octetsOf 0 bursting).length → ∃ k ∈ octetsOf 0 bursting, (bursting.octet k).st.aligned = true ∧ (bursting.octet k).aoct.toNat = a) ∧
    (∀ a, a < (octetsOf 0 (octetsIn { st := .ready })).length → ∃ k ∈ octetsOf 0 (octetsIn { st := .ready }),
      ((octetsIn { st := .ready }).octet k).st.aligned = true ∧ ((octetsIn { st := .ready }).octet k).aoct.toNat = a) := by decide +kernel
/-- A DIAG_OK slot that has run for d ns. -/
def diagAt (d : Nat) : State := { diagnosing with
  ns := 60000000000 + d, seq := { base.seq with ports := Vector.replicate 4 { diagnosing.port 0 with slotNs := 60000000000 } } }
/-- A chain on its own; chain 0 in one state and chain 1 in RUN beside it. -/
def beside (c : Chain) (s : State) : State := { s with ill := { s.ill with chains := #v[c, { st := .run }, {}, {}] } }
/-- A write-out whose last word has been sent. -/
def writtenOut : State :=
  let s := chainsIn { st := .discover, stage := 4, n := 1 }
  { s with ill := { s.ill with drivers := upd s.ill.drivers 0 fun d => { d with next := 1 } } }
theorem test_meets_IlluminationEventsFollowTheChains : framing 0 (chainsIn { st := .run }) = true ∧ ((chainsIn { st := .run }).chain 0).st = .run ∧
    ((chainsIn { st := .run }).chain 0).noCheck = true ∧
    (framing 0 writtenOut = true ∧ (writtenOut.chain 0).stage = 4 ∧ chainDrivers 0 writtenOut = [0] ∧ wOp (frameWord 0 0 0 writtenOut) = 0 ∧
      (nth writtenOut.ill.drivers 0).retry = [] ∧ (writtenOut.chain 0).noCheck = true) ∧
    (((chainsIn { st := .walk }).chain 0).st = .walk ∧ slotWalk 0 (chainsIn { st := .walk }) = false) ∧
    (slotWalk 0 (beside { st := .walk, walkSteps := 2 } (diagAt 7000)) = true ∧ walkSlot (beside { st := .walk, walkSteps := 2 } (diagAt 7000)) = true ∧
      (beside { st := .walk, walkSteps := 2 } (diagAt 7000)).ill.pulseUsed = false) ∧
    ((chainsIn { st := .discover }).chain 0).st = .discover ∧ ((chainsIn { st := .discover }).chain 0).stage = 0 ∧
    (List.replicate 32 (0x1700 : BitVec 16)).all idOk = true ∧
    (walkSlot (diagAt 7000) = true ∧ startupStep (diagAt 7000) = none ∧ tableChange (diagAt 7000) = false ∧
      walkDue ((diagMark (diagAt 7000)).getD 0 + 7000) (diagAt 7000) = true) ∧
    (walkSlot (beside { st := .walk } (diagAt 11000)) = true ∧ startupStep (beside { st := .walk } (diagAt 11000)) = some 0 ∧
      (beside { st := .walk } (diagAt 11000)).ill.pulseUsed = false) ∧
    (markPast 1000 (lit (diagAt 1000)) = true ∧ markPast 2000 (lit (diagAt 1999)) = false ∧ (lit (diagAt 1000)).ill.pulseUsed = false ∧
      (lit (diagAt 1000)).ill.walkUsed = false ∧ (lit (diagAt 1000)).blanked = false ∧ tableChange (lit (diagAt 1000)) = false ∧ (lit (diagAt 1000)).live = true) ∧
    (∃ c, c < 4 ∧ chainRuns c (chainsIn { st := .run }) = true) := by decide +kernel
/-- String 23 is lit, has settled, and has had two bad samples. -/
def measurable : State :=
  let s := stringsIn { openRun := 2, shortRun := 2, cur := some (65535 ^ 3), chain := 0 }
  { s with ns := 1000000, cal := { s.cal with lastDark := some 0 }
           ill := { s.ill with chains := Vector.replicate 4 { st := .run, en := true } } }
theorem test_meets_StringMeasurement : measurable.live = true ∧ (nth measurable.ill.strs 23).enable = true ∧ (nth measurable.ill.strs 23).measured = false ∧
    eligible (nth measurable.ill.strs 23) measurable = true ∧ senseStale measurable = false ∧
    (nth measurable.ill.strs 23).openRun + 1 = (nth measurable.ill.strs 23).confirm ∧
    (nth measurable.ill.strs 23).shortRun + 1 = (nth measurable.ill.strs 23).confirm ∧
    (nth measurable.ill.strs 23).vShort ≤ (500 : BitVec 16) ∧ (500 : BitVec 16) < (nth measurable.ill.strs 23).vOpen ∧
    (nth measurable.ill.strs 23).vOpen ≤ (1000 : BitVec 16) ∧ (99 : BitVec 16) < (nth measurable.ill.strs 23).vShort := by decide +kernel
theorem test_meets_LoopEventsStepAndTrigger : (base.live = true ∧ base.cle.clockLost = false ∧ ((loopsIn { st := .run }).loop 63).running = true ∧
      trigDue ((loopsIn { st := .run }).loop 63) (loopsIn { st := .run }) = true ∧ trigPending 63 (loopsIn { st := .run }) = false ∧
      trigDue ((stepping .run).loop 63) (stepping .run) = true ∧ trigPending 63 (stepping .run) = true ∧
      trigDue ((loopsIn { st := .run, cfg := { kind := 2 } }).loop 63) (loopsIn { st := .run, cfg := { kind := 2 } }) = false ∧
      ((stepping .ramp).loop 63).running = true ∧ stepNext 63 (stepping .ramp) = true) ∧
    (stepNext 63 loopInactive = true ∧ (loopInactive.loop 63).running = true ∧
      destInactive 63 (loopInactive.onCle fun x => { x with queue := x.queue.filter fun y => y.2 != 63 }) = true ∧
      destInactive 63 ((stepping .run).onCle fun x => { x with queue := x.queue.filter fun y => y.2 != 63 }) = false) ∧
    (pwmFailsafe base = true ∧ pwmFailsafe pwmWaits = false ∧ (nth pwmWaits.cle.pwms 7).next = some (1, 2, false, true) ∧
      after (exec (.pwmPeriodStart 7) pwmWaits) (fun t => !(nth t.cle.pwms 7).enable) = true) := by decide +kernel
theorem test_meets_BlankInputsRaiseAndDropTheirSources : base.live = true ∧ safeAgrees base.xcl = true ∧
    (closed.xcl.ilockA = true ∧ closed.xcl.ilockB = true ∧ closed.live = true) ∧
    ({ closed with xcl := { closed.xcl with ilockB := false } } : State).xcl.ilockA ≠ ({ closed with xcl := { closed.xcl with ilockB := false } } : State).xcl.ilockB ∧
    (versionQueued.xset 3).queue = ({}, some { jseq := 5 }) :: [] ∧ after (exec (.xclVersionReady 3 true) versionQueued) (fun _ => true) = true := by
  decide +kernel
theorem test_meets_SlicersFillDrainAndWriteTheirPlanes : base.live = true ∧ ((slicersIn { st := .fill }).slicer 7).st = .fill ∧
    (((slicersIn { st := .drain }).slicer 7).st = .drain ∧ ((slicersIn { st := .drain }).slicer 7).dropped = false ∧
      ((slicersIn { st := .drain }).slicer 7).offAfter = false ∧
      (((slicersIn { st := .drain }).store 0).bufs.getD 0 {}).left = [(colourSlot ((slicersIn { st := .drain }).store 0).colours 0, 0)]) ∧
    ((slicersIn { st := .drain, dropped := true }).slicer 7).dropped = true ∧
    ((offering.fview 0).frame = some { done := 2, offered := 1 } ∧ idleSlicer offering = some 0 ∧ slicingBuf 0 ({ done := 2, offered := 1 } : FabFrame).id offering = some 0) := by
  decide +kernel
theorem test_meets_LinkEventsAndArrayMessages :
    (((octetsIn { st := .ready, bcLocked := true }).octet 15).allotted = true ∧ ((octetsIn { st := .ready, bcLocked := true }).octet 15).st.aligned = true ∧
      ((octetsIn { st := .ready, bcLocked := true }).octet 15).bcLocked = true) ∧
    ((octetsIn { st := .bcLock }).octet 15).st = .bcLock ∧
    (((octetsIn {}).octet 15).st = .electricalIdle ∧ ((octetsIn {}).octet 15).allotted = true ∧
      ((octetsIn {}).port ((octetsIn {}).octet 15).port.toNat).enable = true ∧ ((octetsIn {}).octet 15).failed = false ∧
      (nth (octetsIn {}).glk.quads 3).bad = false) ∧
    (∃ k ∈ octetsOf 0 (octetsIn { failed := true }), ((octetsIn { failed := true }).octet k).failed = true) ∧
    (octetsOf 0 (octetsIn { st := .fwdTrain }) ≠ [] ∧ (∀ k ∈ octetsOf 0 (octetsIn { st := .fwdTrain }),
      ((octetsIn { st := .fwdTrain }).octet k).st = .fwdTrain ∧ ((octetsIn { st := .fwdTrain }).octet k).pass2 = false) ∧
      isAsked 0 1 (octetsIn { st := .fwdTrain }) = false) ∧
    (isAsked 0 1 (asking 1 { st := .fwdTrain, pass2 := true }) = true ∧
      straightMap.length = 2 * (octetsOf 0 (asking 1 { st := .fwdTrain, pass2 := true })).length ∧
      (∀ k ∈ octetsOf 0 (asking 1 { st := .fwdTrain, pass2 := true }), ((asking 1 { st := .fwdTrain, pass2 := true }).octet k).st = .fwdTrain ∧
        ((asking 1 { st := .fwdTrain, pass2 := true }).octet k).pass2 = true) ∧
      map2Ok 0 straightMap (answered 0 1 (asking 1 { st := .fwdTrain, pass2 := true })) = true ∧
      map2Ok 0 (List.replicate 16 0) (answered 0 1 (asking 1 { st := .fwdTrain, pass2 := true })) = false) ∧
    (isAsked 0 1 (asking 1 { st := .fwdTrain }) = true ∧ map1Ok 0 straightMap (answered 0 1 (asking 1 { st := .fwdTrain })) = true ∧
      map1Ok 0 (List.replicate 16 0) (answered 0 1 (asking 1 { st := .fwdTrain })) = false ∧
      (∃ k ∈ octetsOf 0 (asking 1 { st := .fwdTrain }), ((asking 1 { st := .fwdTrain }).octet k).pass2 = false)) ∧
    (((octetsIn { failed := true }).octet 15).idleWait = false ∧ ((octetsIn { failed := true }).octet 15).st = .electricalIdle) ∧
    (((octetsIn { st := .ready }).octet 15).bcLocked = false ∧ ((octetsIn { st := .ready }).octet 15).st.aligned = true) ∧
    (∀ a, a < 8 → octetAt 0 a (octetsIn { st := .ready }) = some (a + 8)) := by decide +kernel
theorem test_meets_LinkTimeouts : isAsked 0 2 (asking 2 {}) = true ∧
    ({ base with glk := { base.glk with running := some {} } } : State).glk.running = some {} ∧
    ((octetsIn { cmds := [{}] }).octet 15).cmds = {} :: [] := by decide +kernel
theorem test_meets_Acks : ((resetOut.link 0).sent.find? fun e => e.rseq.toNat == field (0x203C0000 : BitVec 32).toNat 20 8 &&
      e.band.toNat == field (0x203C0000 : BitVec 32).toNat 28 4) = some resetSent ∧
    ackClass ((resetOut.arr 0).st == .parked) (bitOf (0x203C0000 : BitVec 32).toNat 19) (bitOf (0x203C0000 : BitVec 32).toNat 18) (77 == resetSent.witness) = .confirmed ∧
    (∀ e ∈ (resetOut.link 0).sent, e.rseq.toNat ≠ field (0x204C0000 : BitVec 32).toNat 20 8 ∨ e.band.toNat ≠ field (0x204C0000 : BitVec 32).toNat 28 4) ∧
    (ackClass ((resetOut.arr 0).st == .parked) false false false = .refused ∧ ackClass ((resetOut.arr 0).st == .parked) true true false = .disagree ∧
      ackClass ((({ resetOut with ahm := { resetOut.ahm with arrays := Vector.replicate 4 { st := .parked } } } : State).arr 0).st == .parked)
        true false true = .park) ∧
    (∃ e ∈ (resetOut.link 0).sent, (∀ f ∈ (resetOut.link 0).sent, e.due ≤ f.due) ∧ e.due + 10000 ≤ ({ resetOut with ns := 10000 } : State).ns) ∧
    (∀ e ∈ (resetOut.link 0).sent, resetOut.ns < e.due + 10000) := by decide +kernel
theorem test_meets_ArrayMessages : heard 0 (octetsIn { st := .ready }) = true ∧ (octetsOf 0 (octetsIn { st := .ready })).length = 8 ∧
    field (0x08000000 : BitVec 32).toNat 24 8 = 8 ∧ (octetAt 0 0 (octetsIn { st := .ready })).isSome = true ∧
    (∀ i, i < 8 → (nth ((octetsIn { st := .ready }).octet 8).lanes i).pos.toNat = i) ∧
    (((arraysIn { mapDirty := true, capsValid := true } base).arr 0).mapDirty = true ∧ ((arraysIn { mapDirty := true, capsValid := true } base).arr 0).capsValid = true) ∧
    ((arraysIn { st := .present } base).arr 0).st = .present ∧ ((arraysIn { scanRun := some {} } base).arr 0).scanRun.isSome = true ∧
    (isAsked 0 0x22 (arraysIn { parkWait := [{}] } (asking 0x22 { st := .ready })) = true ∧ heard 0 (arraysIn { parkWait := [{}] } (asking 0x22 { st := .ready })) = true ∧
      ((arraysIn { parkWait := [{}] } (asking 0x22 { st := .ready })).arr 0).parkWait = {} :: []) := by decide +kernel
theorem test_meets_CapsAnswers : isAsked 0 2 capsAsked = true ∧ goodRecord.length = 16 ∧ octetsOf 0 capsAsked ≠ [] ∧
    (∀ k ∈ octetsOf 0 capsAsked, (capsAsked.octet k).st = .capsWait) ∧ capsFail 0 goodRecord (answered 0 2 capsAsked) = 0 ∧
    capsFail 0 (0x20081007 :: goodRecord.tail) (answered 0 2 capsAsked) ≠ 0 := by decide +kernel
theorem test_meets_ArrayMessages_cases : ((octetsIn { st := .ready }).arr 0).map.length + 3 ≤ mapSize ∧
    (let s := arraysIn { capsValid := true } (octetsIn { st := .ready })
     heard 0 s = true ∧ (s.arr 0).capsValid = true ∧ (BitVec.ofNat 16 (capsWord (s.arr 0) 5)).toInt ≤ (0 : BitVec 16).toInt) ∧
    ((0 : BitVec 32).getLsbD 0 = false ∧ (1 : BitVec 32).getLsbD 0 = true ∧
      (2 : BitVec 32).toNat = ((arraysIn { scanRun := some {}, scanData := [5, 6] } base).arr 0).scanData.length ∧
      crc32c (((arraysIn { scanRun := some {}, scanData := [5, 6] } base).arr 0).scanData.flatMap beBytes) = crc32c (([5, 6] : List (BitVec 32)).flatMap beBytes)) := by
  decide +kernel
/-- A message frame as a transmitter codes it (R265 to R270). -/
def messageBits : List Bool := LaneFrame.coded { lane := 3, fcnt := 77, type := 4, units := [5] }
theorem test_message_frame_reads_back : 24 ≤ messageBits.length ∧ ofMsb (messageBits.take 24) = syncWord ∧
    (let f := readFrame ((messageBits.drop 24).map fun b => b != false)
     f.stuffOk = true ∧ f.crcOk = true ∧ f.type = 4 ∧ f.lane = 3) := by decide +kernel
theorem test_meets_GoodFrames : (((octetsIn { st := .bcLock }).octet 15).bcLocked = false ∧ ((octetsIn { st := .bcLock }).octet 15).bcGood = 0) ∧
    (((octetsIn { st := .ready, bcGood := 2 }).octet 15).bcGood = 2 ∧ ((octetsIn { st := .ready, bcGood := 2 }).octet 15).bcInv = false ∧
      ((octetsIn { st := .ready, bcGood := 2 }).octet 15).st = .ready) ∧
    (((octetsIn { st := .ready, bcLocked := true }).octet 15).bcLocked = true ∧ ((octetsIn { st := .ready, bcLocked := true }).octet 15).bcInv = false) := by
  decide +kernel
theorem test_meets_BadStuffing : ((octetsIn { st := .bcLock }).octet 15).bcLocked = false ∧ 24 ≤ (syncBits ++ List.replicate 25 true).length ∧ ofMsb ((syncBits ++ List.replicate 25 true).take 24) = syncWord ∧
    (readFrame (((syncBits ++ List.replicate 25 true).drop 24).map fun b => b != false)).stuffOk = false := by decide +kernel
/-- A view that composes a symbol layer, whose surface has not been drawn. -/
def lateSymbols : State := let s := viewsIn {} (fabricIn {}); { s with cmp := { s.cmp with pipes := Vector.replicate 24 { view := some 4, layer := { enable := true, source := 1 } } } }
theorem test_meets_FramesAreComposedAndProcessed : base.live = true ∧
    ((viewsIn {} (fabricIn {})).fab.stopped = false ∧ (viewsIn {} (fabricIn {})).pictureStops = false ∧
      ((viewsIn {} (fabricIn {})).cview 4).committed = true ∧ composes 4 ((viewsIn {} (fabricIn {})).cview 4).cfg (viewsIn {} (fabricIn {})) = true ∧
      0 < framesOf 4 (viewsIn {} (fabricIn {})) ∧ ((viewsIn {} (fabricIn {})).cview 4).composing = none ∧
      symbLate 4 (startPeriod 4 0 0 (viewsIn {} (fabricIn {}))) 0 (viewsIn {} (fabricIn {})) = false) ∧
    ((viewsIn { composing := some {} } (fabricIn {})).cview 4).composing = some {} ∧
    (((clusterIn { st := .load }).cluster 63).loading = true ∧ domainOn 63 (clusterIn { st := .load }) = true ∧
      domainOn 63 { clusterIn { st := .load } with pwr := {} } = false) ∧
    symbLate 4 (startPeriod 4 0 0 lateSymbols) 0 lateSymbols = true ∧ (lateSymbols.cview 4).composing = none ∧
    (((clusterIn { st := .drain }).cluster 63).st = .drain ∧ ((clusterIn { st := .drain }).cluster 63).cmds = [] ∧
      clusterBusy 63 (clusterIn { st := .drain }) = false ∧ ((clusterIn { st := .drain }).cluster 63).st ≠ .off) := by decide +kernel
theorem test_meets_FabricBands : (fabRuns (fabricIn {}) = true ∧ chainLive 4 (fabricIn {}) = true ∧ stagesServed oneStage (fabricIn {}) = true) ∧
    (((fabricIn { frame := some { started := 0, chain := oneStage } }).fview 4).frame = some { started := 0, chain := oneStage } ∧
      0 < bandsOf ((fabricIn {}).store 4).height ∧ 0 < 1 * colourCount ((fabricIn {}).store 4).colours) ∧
    (((fabricIn {}).fview 0).frame = none ∧ nextFrame 0 (fabricIn {}) = some {} ∧ stagesServed ((fabricIn {}).fview 0).chain (fabricIn {}) = true ∧
      isReferenced 0 0 (fabricIn {}) = true) ∧
    (((fabricIn { waiting := some { composed := true } }).fview 4).frame = none ∧
      nextFrame 4 (fabricIn { waiting := some { composed := true } }) = some { composed := true } ∧
      isReferenced 4 0 (fabricIn { waiting := some { composed := true } }) = false ∧ chainLive 4 (fabricIn { waiting := some { composed := true } }) = true) ∧
    ((({ done := 2, offered := 1 } : FabFrame).offered < ({ done := 2, offered := 1 } : FabFrame).done) ∧
      ({ done := 1, offered := 1, started := 2 } : FabFrame).done ≤ ({ done := 1, offered := 1, started := 2 } : FabFrame).offered) ∧
    (symbServed 4 (fabricIn {}) = true ∧ ((fabricIn {}).fview 4).symbRun = none ∧
      ((fabricIn {}).fview 4).symbSurf[symbTarget 4 (fabricIn {})]? = some 65536 ∧ (readGlyphs (nth (fabricIn {}).xcl.symList 4) (fabricIn {})).2 = false) ∧
    (fabricIn {}).mem.fenced = 0 ∧ (fabricIn {}).mem.poison = [] ∧
    ((viewsIn { composing := some { symb := some 65536 } } (fabricIn {})).cview 4).composing = some { symb := some 65536 } ∧
    ((fabricIn { symbRun := some (1, 0) }).fview 4).symbRun = some (1, 0) := by decide +kernel
/-- A read of the scrub whose bank is ready in 20 ns. -/
def lateReq : MemReq := { port := 10, space := .plane, addr := 64, waitNs := 20 }
theorem test_meets_MemoryRequests : memServes base = true ∧ MemReq.inRegion writeReq base.mem = true ∧ Memory.wf base.mem = true ∧
    base.mem.waiting = [] ∧ writeReq.waitNs = 0 ∧ writeReq.data = some (List.replicate 32 7) ∧ protRefused writeReq base = false ∧
    base.mem.fenced.getLsbD (MemReq.place writeReq base.mem).pc = false ∧ allFenced.mem.fenced.getLsbD (MemReq.place writeReq allFenced.mem).pc = true ∧
    MemReq.inRegion lateReq base.mem = true ∧ 0 < lateReq.waitNs ∧ (nth base.mem.pcs (MemReq.place writeReq base.mem).pc).gapUntil ≤ base.ns := by decide +kernel
def aged : State := { base with ns := 1000000000000000 }
def migrating (row : Nat) : State := { aged with mem := { base.mem with migRun := true, migRow := row, spareValid := false } }
def asleep : State := { base with pwr := { base.pwr with standby := true }, mem := { base.mem with ranks := Vector.replicate 4 { power := 2 } } }
def retraining (gaps : Nat) : State := { aged with mem := { base.mem with pcs := Vector.replicate 32 { retrain := true, gaps := gaps } } }
/-- Self-refresh with a rank that a request has woken, and that has been idle since. -/
def resting : State := { aged with pwr := { base.pwr with standby := true }, mem := { base.mem with selfRefresh := true } }
def untrained : State := { base with mem := { base.mem with st := .training } }
def openAt : State := { aged with mem := { base.mem with openRows := [{ pc := 31, rank := 2, bank := 15 }] } }
def trained : State := { base with cal := { base.cal with regions := Vector.replicate 92 { sets := #v[{ valid := true, temp := 2500 }, {}, {}, {}] } } }
theorem test_meets_MemoryMaintenance : ((nth base.mem.ranks 0).power ≠ 2 ∧ rankInService 0 base.mem = true ∧ (nth base.mem.ranks 0).power = 0 ∧
      (nth aged.mem.ranks 0).lastNs + aged.mem.idleNs ≤ aged.ns ∧ memServes aged = true) ∧
    (∃ o ∈ openAt.mem.openRows, o.pc = 31 ∧ o.rank = 2 ∧ o.bank = 15 ∧ o.atNs + openAt.mem.pageIdleNs ≤ openAt.ns) ∧
    (memServes asleep = true ∧ wantsSelfRefresh asleep = true ∧ asleep.mem.migRun = false ∧ asleep.mem.selfRefresh = false ∧
      (nth asleep.mem.ranks 0).power = 2 ∧ rankInService 0 asleep.mem = true) ∧
    (∀ r, r < 4 → rankInService r base.mem = true → (nth base.mem.ranks r).power ≠ 2) ∧
    aged.mem.scrubNs + aged.mem.scrubH * 3600000000000 ≤ ({ aged with ns := 10 ^ 17 } : State).ns ∧
    (base.mem.migRun = false ∧ base.mem.spareValid = true ∧ 2 < ranksIn base.mem ∧ 2 < ranksIn (migrating 0).mem ∧ (migrating 0).mem.spareValid = false) ∧
    (memServes resting = true ∧ resting.mem.selfRefresh = true ∧ rankReturns 0 resting = true) ∧ gapsFull (retraining 560) = false ∧
    gapsFull { retraining 560 with mem := { (retraining 560).mem with pcs := Vector.replicate 32 { gapUntil := 10 ^ 16 } } } = true ∧
    (memServes (migrating 0) = true ∧ (migrating 0).mem.migRun = true ∧ (migrating 0).mem.migRow + 1 < 16384 ∧ 16384 ≤ (migrating 16383).mem.migRow + 1 ∧
      (migrating 0).mem.migNs + rowCopyNs (migrating 0).mem ≤ (migrating 0).ns) ∧
    (base.mem.fenced.getLsbD 31 = false ∧ (nth base.mem.pcs 31).retrain = false ∧ beyondSets 31 3501 trained = true) ∧
    (memServes (retraining 560) = true ∧ (nth (retraining 560).mem.pcs 31).retrain = true ∧ (nth (retraining 560).mem.pcs 31).gaps < 561 ∧
      (nth (retraining 560).mem.pcs 31).gapNs + 100000 ≤ (retraining 560).ns ∧ 561 ≤ (nth (retraining 561).mem.pcs 31).gaps ∧
      (retraining 560).mgt.st = .run) ∧
    (untrained.live = true ∧ untrained.mem.st = .training) := by decide +kernel
theorem test_meets_RetrainDone : ([] : List Int).length = 0 ∧ 561 ≤ (nth (retraining 561).mem.pcs 31).gaps ∧ memServes (retraining 561) = true ∧
    (retraining 561).mgt.st = .run := by decide +kernel
theorem test_meets_RequestPromote : MemWait.overdue { req := { port := 1 } } 1 aged = true := by decide +kernel
def mgtIn (m : Mgt) : State := { base with mgt := m }
def secIn (x : Sec) : State := { base with sec := x }
/-- A management image's header: magic, version, body length, key, version number. -/
def imageHeader : List Byte := pay [(4, 0x31414857), (2, 1), (1, 0), (1, 0), (4, 64)]
def bootable : State := mgtIn { st := .rom, slots := Vector.replicate 2 { bytes := imageHeader }, tables := Vector.replicate 2 { states := Vector.replicate 2 .valid } }
/-- Conditional on the signature functions, which are free. -/
theorem test_meets_BootImageVerify (h : (Config.shake256 (slice imageHeader 64 64)).toList = Config.otpKeyHash 0)
    (hs : Config.slhVerify (slice imageHeader 64 64) (slice imageHeader 0 128 ++ slice imageHeader bodyAt (imgBody imageHeader))
      (slice imageHeader 128 29792) = true) :
    bootOrder (loadTable bootable.mgt) = 0 :: [1] ∧ imageOk (nth (loadTable bootable.mgt).slots 0).bytes (loadTable bootable.mgt) = true := by
  refine ⟨by decide +kernel, ?_⟩
  have hk : imgKey imageHeader = 0 := by decide +kernel
  simp only [show (nth (loadTable bootable.mgt).slots 0).bytes = imageHeader from by decide +kernel, imageOk, hk, hs, h, beq_self_eq_true]
  decide +kernel
def updateAt (op : BitVec 16) (slot : Nat) : State := mgtIn { base.mgt with update := some (slot, 64, []), updateCmd := some { opcode := op } }
def rotating (bad : Nat) : State := { base with sec := { base.sec with loopBad := Vector.replicate 4 bad } }
theorem test_meets_ManagementAndEnclaveEvents : ((mgtIn { st := .rom }).live = true ∧ (mgtIn { st := .rom }).mgt.st = .rom ∧
      (mgtIn { st := .rom }).mgt.warm = false ∧ (mgtIn { st := .rom }).straps.getLsbD 2 = false ∧
      ({ mgtIn { st := .rom } with straps := 4 } : State).straps.getLsbD 2 = true ∧
      bootOrder (loadTable { st := .rom, tables := Vector.replicate 2 { states := Vector.replicate 2 .valid } }) = 0 :: [1]) ∧
    ((mgtIn { st := .rom, warm := true }).mgt.warm = true ∧ (mgtIn { st := .recovery }).mgt.st ≠ .halt) ∧
    (base.live = true ∧ base.mgt.st = .run) ∧ (mgtIn { st := .reinit }).mgt.st = .reinit ∧
    (updating 0x0A01 (updateAt 0x0A01 1) = some ({ opcode := 0x0A01 }, (1, 64, [])) ∧
      updating 0x0A02 (updateAt 0x0A02 1) = some ({ opcode := 0x0A02 }, (1, 64, [])) ∧
      updating 0x0A03 (updateAt 0x0A03 1) = some ({ opcode := 0x0A03 }, (1, 64, []))) := by
  refine ⟨by decide +kernel, by decide +kernel, by decide +kernel, by decide +kernel, rfl, rfl, rfl⟩
/-- The SRAM holds a copy of the running image. -/
def copied (st : MgtSt) : State := mgtIn { st := st, sram := [7], slots := Vector.replicate 2 { bytes := [7] } }
def warmCopied : Mgt := { (copied .rom).mgt with warm := true }
theorem test_meets_BootImageVerify_reinit : (copied .reinit).mgt.st = .reinit ∧ (copied .reinit).mgt.sram ≠ [] ∧ copyGood (copied .reinit).mgt = true ∧
    restartOk (copied .reinit).mgt = true ∧ restartOk warmCopied = true := by
  have h : copyGood (copied .reinit).mgt = true := by
    simp only [copyGood, show (copied .reinit).mgt.sram = runImage (copied .reinit).mgt from by decide +kernel, beq_self_eq_true]
  have g : copyGood warmCopied = true := by
    simp only [copyGood, show warmCopied.sram = runImage warmCopied from by decide +kernel, beq_self_eq_true]
  exact ⟨rfl, by decide +kernel, h, by simp only [restartOk, h, Bool.true_or], by simp only [restartOk, g, Bool.true_or]⟩
/-- Conditional on the digest, which is a free function. -/
theorem test_meets_RestartFails (h : Config.shake256 ([1] : List Byte) ≠ Config.shake256 []) : copyGood { sram := [1] } = false ∧ restartOk { sram := [1] } = false := by
  have c : copyGood { sram := [1] } = false := by
    simp only [copyGood, show runImage { sram := [1] } = [] from by decide +kernel]
    simpa using h
  refine ⟨c, ?_⟩
  have i : imageOk (runImage { sram := [1] }) { sram := [1] } = false := by
    simp only [show runImage { sram := [1] } = [] from by decide +kernel]
    simp only [imageOk, show (u32 ([] : List Byte) 0 == 0x31414857) = false from by decide +kernel, Bool.false_and]
  simp only [restartOk, c, i, Bool.or_self]
/-- An image whose enclave section is empty, with its digest. -/
def enclaveImage : List Byte := List.replicate 16 0 ++ (Config.shake256 []).toList
theorem test_meets_EnclaveIntact : enclaveIntact enclaveImage = true := by
  have e : imgBody enclaveImage = 0 := by decide +kernel
  have s : enclaveSection enclaveImage = [] := by simp [enclaveSection, e, slice]
  have d : slice enclaveImage 16 32 = (Config.shake256 []).toList := by simp [slice, enclaveImage]
  simp only [enclaveIntact, s, d, beq_self_eq_true]
theorem test_meets_EnclaveEvents : (mgtIn { fuseGoal := some (1, {}) }).mgt.fuseGoal = some (1, {}) ∧
    ((mgtIn { allotNow := some [], allotMade := false }).mgt.allotNow = some [] ∧
      (mgtIn { allotNow := some [], allotMade := false }).mgt.allotMade = false ∧
      (mgtIn { allotNow := some [], allotMade := false }).mem.st = .ready ∧ (mgtIn { allotNow := some [], allotMade := false }).glk.pending = none) ∧
    ((secIn { st := .selftest }).live = true ∧ (secIn { st := .selftest }).sec.st = .selftest) ∧ secAwake base = true ∧
    (nth aged.sec.nonceNs 3 + 10000000000 ≤ aged.ns ∧ nth aged.sec.lockout 3 ≤ aged.ns ∧ nth aged.sec.kemNs 3 + 60000000000 ≤ aged.ns ∧
      aged.sec.drbgNs + 86400000000000 ≤ aged.ns ∧ 1048576 ≤ (secIn { base.sec with drbgReq := 1048576 }).sec.drbgReq) ∧
    (secIn { services := [{}] }).sec.services = {} :: [] ∧
    (base.powered = true ∧ (nth base.sec.lfsr 3).getLsbD 15 = false ∧ nth (rotating 1).sec.loopBad 3 = 1 ∧
      (rotating 1).sec.loopMask.getLsbD 3 = true ∧ (rotating 2).sec.loopMask.getLsbD 3 = true ∧ 1 ≤ nth (rotating 2).sec.loopBad 3 ∧
      (rotating 1).sec.tamperCause.getLsbD 3 = false ∧ railOn 1 base = true ∧ (true ≠ (nth (rotating 1).sec.lfsr 3).getLsbD 15)) ∧
    (tapTest 0 = true ∧ tapTest 1 = false) := by decide +kernel
def calIn (c : CalClass) : State := { base with
  cal := { base.cal with classes := Vector.replicate 5 { c with bgEn := true } }
  glk := { base.glk with octets := Vector.replicate 16 { bcLocked := true } } }
def darkBase : State := { diagAt 10000 with cal := { base.cal with lastDark := none }, ill := { base.ill with walkAt := 60000000000 } }
def frozenAll : State := { base with cal := { base.cal with regions := Vector.replicate 92 { freeze := true } } }
theorem test_meets_CalibrationEventsStoreResults : base.live = true ∧ measuring 0 (calIn {}) = true ∧ measuring 31 (calIn {}) = true ∧
    measuring 32 (calIn {}) = true ∧ measuring 47 (calIn {}) = true ∧ measuring 48 (calIn {}) = false ∧
    (darkBase.live = true ∧ darkPast 10000 darkBase = true ∧ nth aged.cal.stepNs 4 + 1000 * (nth aged.cal.classes 4).stepUs ≤ aged.ns) ∧
    (frozenAll.live = true ∧ (frozenAll.region 91).freeze = true ∧ (base.region 91).freeze = false) := by decide +kernel
theorem test_meets_NamedFormsComplete : accepted specPlaneStoreSet (cmd 0x206 0x5 0 [(1, 1), (1, 1), (1, 3), (1, 0), (2, 1024), (2, 16)]) base = true ∧
    base.mgt.st ≠ .halt ∧ secAwake aged = true ∧ domainOn 143 base = true ∧
    portReady 0 (octetsIn { st := .ready }) = true ∧ holdIdle 0 (octetsIn { st := .ready }) = false ∧ base.powered = true ∧ (-4500 : Int) ≤ 2500 ∧ (2500 : Int) ≤ 13000 :=
  ⟨acc rfl (by decide +kernel), by decide +kernel⟩

end Sys2Proof.Tests
end

section
/-!
PROOFS. BAR0 writes (R9, R36 to R40): what a write of a function or of I3C does to each sticky register, to a calibration window,
to any other register, and at an offset that names none. O36 is settled here.
-/
namespace Sys2Proof.Machine

/-! ## The copies of a group of registers -/

theorem copyOf_eq_some {base stride n o i r : Nat} (hi : i < n) (hr : r < stride) (ho : o = base + stride * i + r) :
    copyOf base stride n o = some (i, r) := by
  have hlt : stride * i + r < stride * n :=
    calc stride * i + r < stride * (i + 1) := by rw [Nat.mul_succ]; omega
      _ ≤ stride * n := Nat.mul_le_mul_left _ hi
  have hsub : o - base = stride * i + r := by omega
  rw [copyOf, if_pos (by omega), hsub, Nat.mul_add_div (by omega), Nat.div_eq_of_lt hr, Nat.mul_add_mod, Nat.mod_eq_of_lt hr,
    Nat.add_zero]

theorem copyOf_eq_none {base stride n o : Nat} (ho : o < base ∨ base + stride * n ≤ o) : copyOf base stride n o = none :=
  if_neg (by omega)

theorem lt_of_copyOf_eq_some {base stride n o i r : Nat} (h : copyOf base stride n o = some (i, r)) :
    i < n ∧ o = base + stride * i + r := by
  unfold copyOf at h
  split at h
  next hin =>
    obtain ⟨rfl, rfl⟩ : (o - base) / stride = i ∧ (o - base) % stride = r := by simpa using h
    have hdm := Nat.div_add_mod (o - base) stride
    exact ⟨Nat.div_lt_of_lt_mul (by omega), by omega⟩
  next => cases h

theorem copyAt_eq_some {base stride n reg o i : Nat} (hi : i < n) (hr : reg < stride) (ho : o = base + stride * i + reg) :
    copyAt base stride n reg o = some i := by
  simp [copyAt, copyOf_eq_some hi hr ho]

theorem copyAt_eq_none {base stride n reg o : Nat} (ho : o < base ∨ base + stride * n ≤ o) : copyAt base stride n reg o = none := by
  simp [copyAt, copyOf_eq_none ho]

theorem lt_of_copyAt_eq_some {base stride n reg o i : Nat} (h : copyAt base stride n reg o = some i) :
    i < n ∧ o = base + stride * i + reg := by
  unfold copyAt at h
  split at h
  next j r hc =>
    obtain ⟨rfl, rfl⟩ : r = reg ∧ j = i := by simpa using h
    exact lt_of_copyOf_eq_some hc
  next => cases h

/-! ## The single sticky registers (R39) -/

/-- The offsets of the blocks' single sticky registers. -/
def singleOffsets : List Nat :=
  [0x00004, 0x10004, 0x10024, 0x20004, 0x40004, 0x40020, 0x40024, 0x50004, 0x60004, 0x70004, 0xA0004, 0xB0004, 0xC0004, 0xD0004,
    0xD1004, 0xE0004, 0xF0004]

/-- Whether an offset is a single sticky register's does not depend on the value written. -/
theorem clearSingle_eq_none_iff (off : Nat) (v : Word) (s : State) : clearSingle off v s = none ↔ off ∉ singleOffsets := by
  unfold clearSingle
  split <;> simp_all [singleOffsets]

theorem singleOffsets_aligned {off : Nat} (h : off ∈ singleOffsets) : off % 4 = 0 := by
  revert off
  decide

theorem clearSingle_if_aligned (off : Nat) (v : Word) (s : State) :
    (if off % 4 = 0 then clearSingle off v s else none) = clearSingle off v s := by
  split
  · rfl
  · next h => exact ((clearSingle_eq_none_iff off v s).2 fun hm => h (singleOffsets_aligned hm)).symm

/-! ## The sticky registers that stand in groups (R39) -/

/-- A group of sticky registers: where its copies lie, and what a W1C write to one of them does. -/
structure StickyGroup where
  base : Nat
  stride : Nat
  count : Nat
  clear : Nat → Word → State → State

/-- The offset of copy i's sticky register. -/
def StickyGroup.reg (g : StickyGroup) (i : Nat) : Nat := g.base + 4 + g.stride * i

/-- The copy whose sticky register lies at the offset. -/
def StickyGroup.copy (g : StickyGroup) (off : Nat) : Option Nat := copyAt g.base g.stride g.count 4 off

def portGroup : StickyGroup := ⟨0x30100, 0x100, 4, fun p v s => s.onPort p fun x => { x with sticky := w1c x.sticky v }⟩
def chainGroup : StickyGroup := ⟨0x40100, 0x40, 4, fun c v s => s.onChain c fun x => { x with sticky := w1c x.sticky v }⟩
def loopGroup : StickyGroup :=
  ⟨0x50100, 0x40, 64, fun n v s => if domainOn 139 s then s.onLoop n fun x => { x with sticky := w1c x.sticky v } else s⟩
def xsetGroup : StickyGroup :=
  ⟨0x60100, 0x40, 4, fun p v s => if domainOn 140 s then s.onXset p fun x => { x with sticky := w1c x.sticky v } else s⟩
def octetGroup : StickyGroup := ⟨0x80000, 0x1000, 16, fun k v s => s.onOctet k fun x => { x with sticky := w1c x.sticky v }⟩
def quadGroup : StickyGroup :=
  ⟨0x80800, 0x4000, 4, fun q v s => s.onGlk fun g => { g with quads := upd g.quads q fun x => { x with sticky := w1c x.sticky v } }⟩
def arrGroup : StickyGroup := ⟨0x90100, 0x100, 4, fun p v s => s.onArr p fun x => { x with sticky := w1c x.sticky v }⟩
def cviewGroup : StickyGroup := ⟨0xA0100, 0x40, 5, fun c v s => s.onCview c fun x => { x with sticky := w1c x.sticky v }⟩
def fviewGroup : StickyGroup := ⟨0xB0100, 0x40, 5, fun c v s => s.onFview c fun x => { x with sticky := w1c x.sticky v }⟩

def stickyGroups : List StickyGroup :=
  [portGroup, chainGroup, loopGroup, xsetGroup, octetGroup, quadGroup, arrGroup, cviewGroup, fviewGroup]

theorem clearGroup_eq (off : Nat) (v : Word) (s : State) :
    clearGroup off v s = ((stickyGroups.map fun g => (g.copy off).map fun i => g.clear i v s).find? (·.isSome)).join := rfl

theorem four_lt_stride : ∀ g ∈ stickyGroups, 4 < g.stride := by decide

/-- No offset is a sticky register of both groups. -/
def StickyGroup.Disjoint (g k : StickyGroup) : Prop := ∀ i j, i < g.count → j < k.count → g.reg i ≠ k.reg j

theorem StickyGroup.disjoint_symm : Std.Symm StickyGroup.Disjoint := ⟨fun _ _ h i j hi hj e => h j i hj hi e.symm⟩

theorem stickyGroups_disjoint : stickyGroups.Pairwise StickyGroup.Disjoint := by
  simp only [stickyGroups, List.pairwise_cons, List.forall_mem_cons, List.not_mem_nil, false_implies, implies_true, and_true,
    List.Pairwise.nil, StickyGroup.Disjoint, StickyGroup.reg, portGroup, chainGroup, loopGroup, xsetGroup, octetGroup, quadGroup,
    arrGroup, cviewGroup, fviewGroup]
  and_intros <;> intros <;> omega

theorem StickyGroup.copy_reg {g : StickyGroup} (hg : g ∈ stickyGroups) {i : Nat} (hi : i < g.count) : g.copy (g.reg i) = some i :=
  copyAt_eq_some hi (four_lt_stride g hg) (Nat.add_right_comm ..)

theorem StickyGroup.eq_reg_of_copy {g : StickyGroup} {off i : Nat} (h : g.copy off = some i) : i < g.count ∧ off = g.reg i :=
  (lt_of_copyAt_eq_some h).imp_right fun ho => ho.trans (Nat.add_right_comm ..)

/-- An offset is a sticky register of one group at most. -/
theorem group_eq_of_copy {g k : StickyGroup} (hg : g ∈ stickyGroups) (hk : k ∈ stickyGroups) {i j : Nat} (hi : i < g.count)
    (hj : k.copy (g.reg i) = some j) : k = g := by
  obtain ⟨hlt, hreg⟩ := StickyGroup.eq_reg_of_copy hj
  have := StickyGroup.disjoint_symm
  by_contra hne
  exact stickyGroups_disjoint.forall hk hg hne j i hlt hi hreg.symm

theorem clearGroup_reg {g : StickyGroup} (hg : g ∈ stickyGroups) {i : Nat} (hi : i < g.count) (v : Word) (s : State) :
    clearGroup (g.reg i) v s = some (g.clear i v s) := by
  rw [clearGroup_eq]
  have hmine : (g.copy (g.reg i)).map (fun i => g.clear i v s) = some (g.clear i v s) := by rw [StickyGroup.copy_reg hg hi]; rfl
  cases hf : (stickyGroups.map fun k => (k.copy (g.reg i)).map fun j => k.clear j v s).find? (·.isSome) with
  | none =>
    have hno := List.find?_eq_none.1 hf _ (List.mem_map_of_mem hg)
    simp [hmine] at hno
  | some o =>
    obtain ⟨k, hk, rfl⟩ := List.mem_map.1 (List.mem_of_find?_eq_some hf)
    have hsome := List.find?_some hf
    obtain ⟨j, hj⟩ : ∃ j, k.copy (g.reg i) = some j := by simpa [Option.isSome_iff_exists] using hsome
    rw [group_eq_of_copy hg hk hi hj, hmine, Option.join_some]

/-- Whether an offset is a grouped sticky register's does not depend on the value written. -/
theorem clearGroup_eq_none_iff (off : Nat) (v : Word) (s : State) :
    clearGroup off v s = none ↔ ∀ g ∈ stickyGroups, g.copy off = none := by
  rw [clearGroup_eq]
  constructor
  · intro h g hg
    cases hc : g.copy off with
    | none => rfl
    | some i =>
      obtain ⟨hi, rfl⟩ := StickyGroup.eq_reg_of_copy hc
      have hsome := clearGroup_reg hg hi v s
      rw [clearGroup_eq, h] at hsome
      cases hsome
  · intro h
    rw [List.find?_eq_none.2, Option.join_none]
    simp only [List.mem_map, forall_exists_index, and_imp, forall_apply_eq_imp_iff₂]
    intro g hg
    simp [h g hg]

/-- No group's sticky register is a single one. -/
theorem clearSingle_reg {g : StickyGroup} (hg : g ∈ stickyGroups) {i : Nat} (hi : i < g.count) (v : Word) (s : State) :
    clearSingle (g.reg i) v s = none := by
  have hapart : ∀ g ∈ stickyGroups, ∀ i < g.count, g.reg i ∉ singleOffsets := by decide
  exact (clearSingle_eq_none_iff ..).2 (hapart g hg i hi)

/-! ## The calibration windows (R40) -/

/-- From 0xE0020 on and below 0xF0000 no sticky register lies. -/
theorem clearSingle_of_cal {off : Nat} (h : 0xE0020 ≤ off) (h' : off < 0xF0000) (v : Word) (s : State) : clearSingle off v s = none := by
  rw [clearSingle_eq_none_iff]
  simp only [singleOffsets, List.mem_cons, List.not_mem_nil, or_false]
  omega

theorem clearGroup_of_cal {off : Nat} (h : 0xE0020 ≤ off) (v : Word) (s : State) : clearGroup off v s = none := by
  rw [clearGroup_eq_none_iff]
  have hlow : ∀ g ∈ stickyGroups, g.base + g.stride * g.count ≤ 0xE0020 := by decide
  exact fun g hg => copyAt_eq_none (.inr ((hlow g hg).trans h))

theorem writeCal_class {k : Nat} (hk : k < 5) (v : Word) (s : State) : writeCal (0xE0020 + 4 * k) v s = some (calClassWrite k v s) := by
  have hclass : copyAt 0xE0020 4 5 0 (0xE0020 + 4 * k) = some k := copyAt_eq_some hk (by decide) rfl
  simp only [writeCal, hclass]

theorem writeCal_freeze {r : Nat} (hr : r < 92) (v : Word) (s : State) : writeCal (0xE1000 + 0x200 * r) v s = some (freezeWrite r v s) := by
  have hclass : copyAt 0xE0020 4 5 0 (0xE1000 + 0x200 * r) = none := copyAt_eq_none (by omega)
  have hregion : copyOf 0xE1000 0x200 92 (0xE1000 + 0x200 * r) = some (r, 0) := copyOf_eq_some hr (by decide) rfl
  simp only [writeCal, hclass, hregion, if_true]

theorem writeCal_set {r set w : Nat} (hr : r < 92) (hset : set < 4) (hw : w < 28) (v : Word) (s : State) :
    writeCal (0xE1010 + 0x200 * r + 0x70 * set + 4 * w) v s = some (calSetWrite r set w v s) := by
  have hclass : copyAt 0xE0020 4 5 0 (0xE1010 + 0x200 * r + 0x70 * set + 4 * w) = none := copyAt_eq_none (by omega)
  have hregion : copyOf 0xE1000 0x200 92 (0xE1010 + 0x200 * r + 0x70 * set + 4 * w) = some (r, 0x10 + 0x70 * set + 4 * w) :=
    copyOf_eq_some hr (by omega) (by omega)
  have hword : copyOf 0x10 0x70 4 (0x10 + 0x70 * set + 4 * w) = some (set, 4 * w) := copyOf_eq_some hset (by omega) rfl
  simp only [writeCal, hclass, hregion, hword]
  rw [if_neg (by omega), if_pos (by omega), Nat.mul_div_cancel_left w (by decide)]

/-! ## Reporting leaves HIF_STICKY as it is (R37) -/

theorem msix_hifSticky (h v : Nat) (s : State) : (msix h v s).hif.sticky = s.hif.sticky := by
  unfold msix
  dsimp only
  split <;> rfl

theorem signal_hifSticky (v : Nat) (s : State) : (signal v s).hif.sticky = s.hif.sticky := by
  unfold signal
  simp only [apply_ite State.hif, apply_ite Hif.sticky, State.onHif_hif, msix_hifSticky, ite_self]

theorem logRec_hifSticky (vec code : Nat) (off bits : BitVec 32) (s : State) :
    (logRec vec code off bits s).hif.sticky = s.hif.sticky := by
  unfold logRec flushFull
  split
  · dsimp only
    split <;> rfl
  · dsimp only
    split
    · rfl
    · exact signal_hifSticky _ _

theorem stickyUp_hifSticky {w : Nat} (vec off : Nat) (old b : BitVec w) (s : State) :
    (stickyUp vec off old b s).hif.sticky = s.hif.sticky := by
  unfold stickyUp
  dsimp only
  split
  · rfl
  · rw [signal_hifSticky, logRec_hifSticky]; rfl

theorem hifRaise_hifSticky (b : BitVec 11) (s : State) : (hifRaise b s).hif.sticky = s.hif.sticky ||| b :=
  stickyUp_hifSticky ..

theorem countUnmapped_only (s : State) :
    onlyReports (s.onHif fun x => { x with unmappedCnt := sat x.unmappedCnt }) (countUnmapped s) :=
  hifRaise_only _ _ (onlyReports_refl _)

theorem countUnmapped_hifSticky (s : State) : (countUnmapped s).hif.sticky.getLsbD 0 = true := by
  rw [countUnmapped, hifRaise_hifSticky, BitVec.getLsbD_or, Bool.or_eq_true]
  exact .inr rfl

/-! ## A write while the core supply is on -/

/-- A write has the effect of the first of these that its offset names: a single sticky register, one of a group, a calibration
window for a function; else a mapped register ignores it, and an offset that names none is counted. -/
theorem regWrite_coreOn {s : State} (hd : domainOn 143 s = true) (cal : Bool) (off : Nat) (v : Word) :
    regWrite cal off v s =
      (((clearSingle off (clearable off v s) s).or (clearGroup off (clearable off v s) s)).or
        (if cal then writeCal off v s else none)).getD (if (regRead off s).isSome then s else countUnmapped s) := by
  unfold regWrite
  rw [hd, Bool.not_true, Bool.and_false, Bool.false_and, if_neg Bool.false_ne_true]
  dsimp only
  rw [clearSingle_if_aligned]
  split <;> simp_all

/-! What tells the two rows of a register write apart: a function's write reaches the calibration windows. -/

theorem exec_registerWrite {s : State} (hl : s.live = true) (h : Fin 2) (off : BitVec 24) (v : Word) :
    exec (.registerWrite h off v) s = .next (regWrite true off.toNat v s) := by
  show execRegisterWrite h off v s = _
  rw [execRegisterWrite, if_pos hl]

theorem exec_i3cBar0Write {s : State} (hl : s.live = true) (off : BitVec 24) (v : Word) :
    exec (.i3cBar0Write off v) s = .next (regWrite false off.toNat v s) := by
  show execI3cBar0Write off v s = _
  rw [execI3cBar0Write, if_pos hl]

section
variable {h : Fin 2} {v : Word} {s : State} {off : BitVec 24} {i : Instr}

theorem exec_registerWrites (hl : s.live = true) (hi : i ∈ [Instr.registerWrite h off v, .i3cBar0Write off v]) :
    ∃ cal, exec i s = .next (regWrite cal off.toNat v s) := by
  obtain rfl | rfl : i = .registerWrite h off v ∨ i = .i3cBar0Write off v := by simpa using hi
  · exact ⟨true, exec_registerWrite hl h off v⟩
  · exact ⟨false, exec_i3cBar0Write hl off v⟩

theorem exec_write_single (hl : s.live = true) (hd : domainOn 143 s = true)
    (hi : i ∈ [Instr.registerWrite h off v, .i3cBar0Write off v]) {a : BitVec 24} (ha : off = a) {t : State}
    (hc : clearSingle a.toNat (clearable off.toNat v s) s = some t) : exec i s = .next t := by
  subst ha
  obtain ⟨cal, he⟩ := exec_registerWrites hl hi
  simp [he, regWrite_coreOn hd, hc]

theorem exec_write_group (hl : s.live = true) (hd : domainOn 143 s = true)
    (hi : i ∈ [Instr.registerWrite h off v, .i3cBar0Write off v]) {g : StickyGroup} (hg : g ∈ stickyGroups) {n : Nat}
    (hn : n < g.count) (ho : off.toNat = g.reg n) : exec i s = .next (g.clear n (clearable off.toNat v s) s) := by
  obtain ⟨cal, he⟩ := exec_registerWrites hl hi
  rw [he, regWrite_coreOn hd, ho, clearSingle_reg hg hn, clearGroup_reg hg hn]
  rfl

theorem exec_write_cal (hl : s.live = true) (hd : domainOn 143 s = true) (hlo : 0xE0020 ≤ off.toNat) (hhi : off.toNat < 0xF0000)
    {t : State} (hc : writeCal off.toNat v s = some t) : exec (.registerWrite h off v) s = .next t := by
  rw [exec_registerWrite hl, regWrite_coreOn hd, clearSingle_of_cal hlo hhi, clearGroup_of_cal hlo, if_pos rfl, hc]
  rfl

/-- A write at an offset that is no sticky register's, and no calibration window's when `cal`. -/
theorem regWrite_other (hd : domainOn 143 s = true) {cal : Bool} {o : Nat} (h1 : clearSingle o v s = none)
    (h2 : clearGroup o v s = none) (h3 : cal = true → writeCal o v s = none) :
    regWrite cal o v s = if (regRead o s).isSome then s else countUnmapped s := by
  rw [clearSingle_eq_none_iff] at h1
  rw [clearGroup_eq_none_iff] at h2
  rw [regWrite_coreOn hd, (clearSingle_eq_none_iff ..).2 h1, (clearGroup_eq_none_iff ..).2 h2]
  cases cal with
  | false => rfl
  | true => rw [h3 rfl]; rfl

end

end Sys2Proof.Machine

namespace Sys2Proof.Proofs
open Sys2Proof.Machine

/-- Settles O36: a write has the effect of what its offset names, and no two of the map's writable registers share an offset. -/
theorem registerWritesClearStickyBits : Obligations.RegisterWritesClearStickyBits := by
  unfold Obligations.RegisterWritesClearStickyBits
  intro h v s hl hd
  refine ⟨fun off i hi => ?sticky, fun off => ?windows, fun off _ h1 h2 h3 i hi => ?others, fun off h1 h2 hr => ?i3c⟩
  case sticky =>
    have single {a : BitVec 24} {t : State} := exec_write_single (a := a) (t := t) hl hd hi
    have group {g : StickyGroup} (hg : g ∈ stickyGroups) {n : Nat} := exec_write_group (n := n) hl hd hi hg
    exact ⟨(single · rfl), (single · rfl), (single · rfl), (single · rfl), (single · rfl), (single · rfl),
      (single · rfl), (single · rfl), (single · rfl), (single · rfl), (single · rfl), (single · rfl),
      (single · rfl), (single · rfl), (single · rfl), (single · rfl), (single · rfl),
      fun _ => group (g := portGroup) (by simp [stickyGroups]),
      fun _ => group (g := chainGroup) (by simp [stickyGroups]),
      fun _ => group (g := loopGroup) (by simp [stickyGroups]),
      fun _ => group (g := xsetGroup) (by simp [stickyGroups]),
      fun _ => group (g := octetGroup) (by simp [stickyGroups]),
      fun _ => group (g := quadGroup) (by simp [stickyGroups]),
      fun _ => group (g := arrGroup) (by simp [stickyGroups]),
      fun _ => group (g := cviewGroup) (by simp [stickyGroups]),
      fun _ => group (g := fviewGroup) (by simp [stickyGroups])⟩
  case windows =>
    refine ⟨fun k hk e => ?_, fun r hr e => ?_, fun r set w hr hset hw e => ?_⟩
    · exact exec_write_cal hl hd (by omega) (by omega) (e ▸ writeCal_class hk v s)
    · exact exec_write_cal hl hd (by omega) (by omega) (e ▸ writeCal_freeze hr v s)
    · exact exec_write_cal hl hd (by omega) (by omega) (e ▸ writeCal_set hr hset hw v s)
  case others =>
    obtain ⟨cal, he⟩ := exec_registerWrites hl hi
    rw [he, regWrite_other hd h1 h2 fun _ => h3]
    refine ⟨fun hr => by rw [if_pos (Option.isSome_iff_ne_none.2 hr)], fun hr => ?_⟩
    exact ⟨countUnmapped s, by rw [hr]; rfl, countUnmapped_only s, countUnmapped_hifSticky s⟩
  case i3c =>
    rw [exec_i3cBar0Write hl, regWrite_other hd h1 h2 Bool.noConfusion, if_pos (Option.isSome_iff_ne_none.2 hr)]

end Sys2Proof.Proofs
end

section
/-!
PROOFS. Registers of a domain that is off (R38): each reads all ones, no write of a function or of I3C does anything to it, and a read
over I3C takes all ones. O37 is settled here.
-/
namespace Sys2Proof.Machine

/-! ## Reading a table, a group, a gated register -/

theorem tableW_isSome_iff (o : Nat) (t : List (Nat × Word)) : (tableW o t).isSome = true ↔ o ∈ t.map Prod.fst := by
  simp only [tableW, Option.isSome_map, List.find?_isSome, List.mem_map, beq_iff_eq]

theorem tableW_eq_none_iff (o : Nat) (t : List (Nat × Word)) : tableW o t = none ↔ o ∉ t.map Prod.fst := by
  rw [← tableW_isSome_iff, Option.not_isSome_iff_eq_none]

theorem groupW_copy {base stride n o i r : Nat} (hi : i < n) (hr : r < stride) (ho : o = base + stride * i + r)
    (f : Nat → Nat → Option Word) : groupW base stride n o f = f i r := by
  rw [groupW, copyOf_eq_some hi hr ho]

theorem groupW_outside {base stride n o : Nat} (ho : o < base ∨ base + stride * n ≤ o) (f : Nat → Nat → Option Word) :
    groupW base stride n o f = none := by
  rw [groupW, copyOf_eq_none ho]

theorem gated_off_of_isSome {w : Option Word} (h : w.isSome = true) : gated false w = some 0xFFFFFFFF := by
  obtain ⟨x, rfl⟩ := Option.isSome_iff_exists.1 h
  rfl

theorem firstW_isSome {w : Option Word} {l : List (Option Word)} (hw : w ∈ l) (h : w.isSome = true) : (firstW l).isSome = true := by
  induction l with
  | nil => cases hw
  | cons x l ih =>
    cases x with
    | some y => rfl
    | none =>
      rcases List.mem_cons.1 hw with rfl | hl
      · cases h
      · exact ih hl

theorem gated_ones (on : Bool) : gated on (some 0xFFFFFFFF) = some 0xFFFFFFFF := by cases on <;> rfl

/-! ## The blocks that hold registers of a domain that switches (R201, R238, R261, R360) -/

section
variable {r : Nat} (hr : r < 0x10000) (ha : r % 4 = 0) (s : State)
include hr ha

theorem regShown_cle : regShown (0x50000 + r) s = cleW r s := by
  rw [regShown, if_neg (by omega), show (0x50000 + r) / 65536 = 5 by omega, show (0x50000 + r) % 65536 = r by omega]; rfl

theorem regShown_xcl : regShown (0x60000 + r) s = xclW r s := by
  rw [regShown, if_neg (by omega), show (0x60000 + r) / 65536 = 6 by omega, show (0x60000 + r) % 65536 = r by omega]; rfl

theorem regShown_slc : regShown (0x70000 + r) s = slcW r s := by
  rw [regShown, if_neg (by omega), show (0x70000 + r) / 65536 = 7 by omega, show (0x70000 + r) % 65536 = r by omega]; rfl

theorem regShown_cmp : regShown (0xA0000 + r) s = cmpW r s := by
  rw [regShown, if_neg (by omega), show (0xA0000 + r) / 65536 = 10 by omega, show (0xA0000 + r) % 65536 = r by omega]; rfl

end


/-! ## A register of a domain that is off (R38) -/

/-- The registers of the loop engine's domain: its own, its loops' and its groups'. -/
theorem regShown_engine {s : State} (hd : domainOn 139 s = false) {r : Nat}
    (h : r ∈ [0x00, 0x08, 0x10, 0x14]) : regShown (0x50000 + r) s = some 0xFFFFFFFF := by
  have hr : r < 0x100 ∧ r % 4 = 0 ∧ r ≠ 4 := by
    revert r
    decide
  obtain ⟨hlt, ha, h4⟩ := hr
  rw [regShown_cle (by omega) ha]
  simp only [cleW, hd]
  rw [(tableW_eq_none_iff ..).2 (by simpa using h4), groupW_outside (.inl hlt), groupW_outside (by omega),
    gated_off_of_isSome (firstW_isSome (List.mem_cons_self ..) ((tableW_isSome_iff ..).2 (by simpa using h)))]
  rfl

theorem regShown_loop {s : State} (hd : domainOn 139 s = false) {n k : Nat} (hn : n < 64) (hk : k < 10) :
    regShown (0x50104 + n * 0x40 + 4 * k) s = some 0xFFFFFFFF := by
  rw [show 0x50104 + n * 0x40 + 4 * k = 0x50000 + (0x104 + n * 0x40 + 4 * k) by omega, regShown_cle (by omega) (by omega)]
  have hr : 0x104 + n * 0x40 + 4 * k = 0x100 + 0x40 * n + (4 + 4 * k) := by omega
  have hlt : 4 + 4 * k < 0x40 := by omega
  simp only [cleW, hd, groupW_copy hn hlt hr]
  rw [(tableW_eq_none_iff ..).2 (by simp; omega), (tableW_eq_none_iff ..).2 (by simp), groupW_outside (by omega),
    gated_off_of_isSome (firstW_isSome (.tail _ (List.mem_cons_self ..)) ((tableW_isSome_iff ..).2 (by simp; omega)))]
  rfl

theorem regShown_group {s : State} (hd : domainOn 139 s = false) {g k : Nat} (hg : g < 16) (hk : k < 3) :
    regShown (0x51100 + g * 0x10 + 4 * k) s = some 0xFFFFFFFF := by
  rw [show 0x51100 + g * 0x10 + 4 * k = 0x50000 + (0x1100 + g * 0x10 + 4 * k) by omega, regShown_cle (by omega) (by omega)]
  have hr : 0x1100 + g * 0x10 + 4 * k = 0x1100 + 0x10 * g + 4 * k := by omega
  have hlt : 4 * k < 0x10 := by omega
  simp only [cleW, hd, groupW_copy hg hlt hr]
  rw [(tableW_eq_none_iff ..).2 (by simp; omega), groupW_outside (by omega), groupW_outside (by omega),
    gated_off_of_isSome (firstW_isSome (.tail _ (.tail _ (List.mem_cons_self ..))) ((tableW_isSome_iff ..).2 (by simp; omega)))]
  rfl

theorem regShown_xset {s : State} (hd : domainOn 140 s = false) {p k : Nat} (hp : p < 4) (hk : k < 10) :
    regShown (0x60104 + p * 0x40 + 4 * k) s = some 0xFFFFFFFF := by
  rw [show 0x60104 + p * 0x40 + 4 * k = 0x60000 + (0x104 + p * 0x40 + 4 * k) by omega, regShown_xcl (by omega) (by omega)]
  have hr : 0x104 + p * 0x40 + 4 * k = 0x100 + 0x40 * p + (4 + 4 * k) := by omega
  have hlt : 4 + 4 * k < 0x40 := by omega
  simp only [xclW, hd, groupW_copy hp hlt hr]
  rw [(tableW_eq_none_iff ..).2 (by simp; omega), (tableW_eq_none_iff ..).2 (by simp),
    gated_off_of_isSome ((tableW_isSome_iff ..).2 (by simp; omega))]
  rfl

theorem regShown_slicer {s : State} {i k : Nat} (hi : i < 8) (hd : domainOn (84 + i) s = false) (hk : k < 3) :
    regShown (0x70100 + i * 0x20 + 4 * k) s = some 0xFFFFFFFF := by
  rw [show 0x70100 + i * 0x20 + 4 * k = 0x70000 + (0x100 + i * 0x20 + 4 * k) by omega, regShown_slc (by omega) (by omega)]
  have hr : 0x100 + i * 0x20 + 4 * k = 0x100 + 0x20 * i + 4 * k := by omega
  have hlt : 4 * k < 0x20 := by omega
  simp only [slcW, groupW_copy hi hlt hr, hd]
  rw [(tableW_eq_none_iff ..).2 (by simp; omega), gated_off_of_isSome ((tableW_isSome_iff ..).2 (by simp; omega))]
  rfl

theorem regShown_pipe {s : State} {i k : Nat} (hi : i < 24) (hd : domainOn (92 + i) s = false) (hk : k < 2) :
    regShown (0xA0404 + i * 0x20 + 4 * k) s = some 0xFFFFFFFF := by
  rw [show 0xA0404 + i * 0x20 + 4 * k = 0xA0000 + (0x404 + i * 0x20 + 4 * k) by omega, regShown_cmp (by omega) (by omega)]
  have hr : 0x404 + i * 0x20 + 4 * k = 0x400 + 0x20 * i + (4 + 4 * k) := by omega
  have hlt : 4 + 4 * k < 0x20 := by omega
  simp only [cmpW, groupW_copy hi hlt hr, hd]
  rw [(tableW_eq_none_iff ..).2 (by simp; omega), groupW_outside (by omega), (tableW_eq_none_iff ..).2 (by simp),
    gated_off_of_isSome ((tableW_isSome_iff ..).2 (by simp; omega))]
  rfl

/-! ## Reads and writes of a dark register -/

/-- While CORE is on, the register at the offset reads all ones, and no write to it does anything. -/
structure Inert (o : Nat) (s : State) : Prop where
  shown : regShown o s = some 0xFFFFFFFF
  single : o ∉ singleOffsets
  group : ∀ g ∈ stickyGroups, ∀ i, g.copy o = some i → ∀ v, g.clear i v s = s
  low : o < 0xE0000
  core : inCore o = true

theorem clearGroup_inert {o : Nat} {s : State} (h : ∀ g ∈ stickyGroups, ∀ i, g.copy o = some i → ∀ v, g.clear i v s = s) (v : Word) :
    clearGroup o v s = none ∨ clearGroup o v s = some s := by
  by_cases hn : ∀ g ∈ stickyGroups, g.copy o = none
  · exact .inl ((clearGroup_eq_none_iff ..).2 hn)
  · simp only [not_forall, Option.ne_none_iff_exists'] at hn
    obtain ⟨g, hg, i, hi⟩ := hn
    obtain ⟨hlt, ho⟩ := StickyGroup.eq_reg_of_copy hi
    have hsome := clearGroup_reg hg hlt v s
    rw [← ho, h g hg i hi v] at hsome
    exact .inr hsome

theorem writeCal_eq_none {o : Nat} (h : o < 0xE0020) (v : Word) (s : State) : writeCal o v s = none := by
  rw [writeCal, copyAt_eq_none (.inl h), copyOf_eq_none (.inl (by omega))]

theorem Inert.regWrite {o : Nat} {s : State} (h : Inert o s) (cal : Bool) (v : Word) : regWrite cal o v s = s := by
  have hread : (regRead o s).isSome = true := by rw [regRead, h.shown, gated_ones]; rfl
  cases hc : domainOn 143 s with
  | false => rw [Machine.regWrite, h.core, hc, hread]; rfl
  | true =>
    rw [regWrite_coreOn hc, (clearSingle_eq_none_iff ..).2 h.single, writeCal_eq_none (by have := h.low; omega), ite_self, hread]
    rcases clearGroup_inert h.group (clearable o v s) with hg | hg <;> rw [hg] <;> rfl

/-- A register that reads all ones is inert when it lies in a range that holds no sticky register that a write may clear. -/
theorem inert_of_range {o lo hi : Nat} {s : State} (hshown : regShown o s = some 0xFFFFFFFF) (hlo : lo ≤ o) (hhi : o < hi)
    (hgroup : ∀ g ∈ stickyGroups, g.base + g.stride * g.count ≤ lo ∨ hi ≤ g.base ∨ ∀ i v, g.clear i v s = s)
    (hsingle : ∀ k ∈ singleOffsets, k < lo ∨ hi ≤ k) (hlow : hi ≤ 0xE0000) (hcore : inCore o = true) : Inert o s where
  shown := hshown
  single hm := by rcases hsingle o hm with h | h <;> omega
  group g hg i hi v := by
    rcases hgroup g hg with h | h | h
    · rw [StickyGroup.copy, copyAt_eq_none (.inr (by omega))] at hi
      cases hi
    · rw [StickyGroup.copy, copyAt_eq_none (.inl (by omega))] at hi
      cases hi
    · exact h i v
  low := by omega
  core := hcore

theorem inCore_of_block {o b : Nat} (hlo : b * 65536 + 0x20 ≤ o) (hhi : o < (b + 1) * 65536) (hb : b ∈ [5, 6, 7, 10]) : inCore o = true := by
  have hdiv : o / 65536 = b := by omega
  rw [inCore, hdiv]
  simp only [List.mem_cons, List.not_mem_nil, or_false] at hb
  rcases hb with rfl | rfl | rfl | rfl
  · rfl
  · exact decide_eq_true (by omega)
  · rfl
  · rfl

section
variable {s : State}

theorem inert_engine (hd : domainOn 139 s = false) {o : Nat} (h : o ∈ [0x50000, 0x50008, 0x50010, 0x50014]) : Inert o s := by
  have hplace : ∀ o ∈ [0x50000, 0x50008, 0x50010, 0x50014], (∀ k ∈ singleOffsets, k < o ∨ o + 1 ≤ k) ∧
      (∀ g ∈ stickyGroups, g.base + g.stride * g.count ≤ o ∨ o + 1 ≤ g.base) ∧ o + 1 ≤ 0xE0000 ∧ inCore o = true ∧
      0x50000 + o % 65536 = o ∧ o % 65536 ∈ [0x00, 0x08, 0x10, 0x14] := by decide
  obtain ⟨hsingle, hgroup, hlow, hcore, ho, hmem⟩ := hplace o h
  exact inert_of_range (ho ▸ regShown_engine hd hmem) (Nat.le_refl o) (Nat.lt_succ_self o)
    (fun g hg => (hgroup g hg).imp_right .inl) hsingle hlow hcore

theorem inert_loops (hd : domainOn 139 s = false) {o : Nat} (hlo : 0x50100 ≤ o) (hhi : o < 0x51200)
    (hshown : regShown o s = some 0xFFFFFFFF) : Inert o s :=
  inert_of_range hshown hlo hhi (by simp [stickyGroups, portGroup, chainGroup, loopGroup, xsetGroup, octetGroup, quadGroup, arrGroup,
    cviewGroup, fviewGroup, hd]) (by decide) (by decide) (inCore_of_block (b := 5) (by omega) (by omega) (by decide))

theorem inert_xset (hd : domainOn 140 s = false) {p k : Nat} (hp : p < 4) (hk : k < 10) : Inert (0x60104 + p * 0x40 + 4 * k) s :=
  inert_of_range (lo := 0x60100) (hi := 0x60200) (regShown_xset hd hp hk) (by omega) (by omega)
    (by simp [stickyGroups, portGroup, chainGroup, loopGroup, xsetGroup, octetGroup, quadGroup, arrGroup, cviewGroup, fviewGroup, hd])
    (by decide) (by decide) (inCore_of_block (b := 6) (by omega) (by omega) (by decide))

theorem inert_slicer {i k : Nat} (hi : i < 8) (hd : domainOn (84 + i) s = false) (hk : k < 3) :
    Inert (0x70100 + i * 0x20 + 4 * k) s :=
  have hfree : ∀ g ∈ stickyGroups, g.base + g.stride * g.count ≤ 0x70100 ∨ 0x70200 ≤ g.base := by decide
  inert_of_range (regShown_slicer hi hd hk) (by omega) (by omega) (fun g hg => (hfree g hg).imp_right .inl)
    (by decide) (by decide) (inCore_of_block (b := 7) (by omega) (by omega) (by decide))

theorem inert_pipe {i k : Nat} (hi : i < 24) (hd : domainOn (92 + i) s = false) (hk : k < 2) :
    Inert (0xA0404 + i * 0x20 + 4 * k) s :=
  have hfree : ∀ g ∈ stickyGroups, g.base + g.stride * g.count ≤ 0xA0400 ∨ 0xA0704 ≤ g.base := by decide
  inert_of_range (regShown_pipe hi hd hk) (by omega) (by omega) (fun g hg => (hfree g hg).imp_right .inl)
    (by decide) (by decide) (inCore_of_block (b := 10) (by omega) (by omega) (by decide))

/-- A dark register is CORE's while CORE is off, or is inert for the domain of its own that is off. -/
theorem inDarkDomain_cases {o : Nat} (h : inDarkDomain o s = true) :
    (domainOn 143 s = false ∧ inCore o = true ∧ (regShown o s).isSome = true) ∨ Inert o s := by
  simp only [inDarkDomain, Bool.or_eq_true, Bool.and_eq_true, Bool.not_eq_true', List.any_eq_true, List.mem_range, beq_iff_eq,
    List.contains_iff_mem] at h
  rcases h with (((⟨⟨hd, hc⟩, hs⟩ | ⟨hd, (h | ⟨n, hn, k, hk, rfl⟩) | ⟨g, hg, k, hk, rfl⟩⟩) | ⟨hd, p, hp, k, hk, rfl⟩) |
    ⟨i, hi, hd, k, hk, rfl⟩) | ⟨i, hi, hd, k, hk, rfl⟩
  · exact .inl ⟨hd, hc, hs⟩
  · exact .inr (inert_engine hd h)
  · exact .inr (inert_loops hd (by omega) (by omega) (regShown_loop hd hn hk))
  · exact .inr (inert_loops hd (by omega) (by omega) (regShown_group hd hg hk))
  · exact .inr (inert_xset hd hp hk)
  · exact .inr (inert_slicer hi hd hk)
  · exact .inr (inert_pipe hi hd hk)

theorem regRead_dark {o : Nat} (h : inDarkDomain o s = true) : regRead o s = some 0xFFFFFFFF := by
  rcases inDarkDomain_cases h with ⟨hd, hc, hs⟩ | hi
  · rw [regRead, hd, hc]
    exact gated_off_of_isSome hs
  · rw [regRead, hi.shown, gated_ones]

theorem regWrite_dark {o : Nat} (h : inDarkDomain o s = true) (cal : Bool) (v : Word) : regWrite cal o v s = s := by
  rcases inDarkDomain_cases h with ⟨hd, hc, _⟩ | hi
  · rw [regWrite, hd, hc, regRead_dark h]
    rfl
  · exact hi.regWrite cal v

theorem lt_of_inCore {o : Nat} (h : inCore o = true) : o < 2 ^ 24 := by
  unfold inCore at h
  split at h
  case h_6 => have := of_decide_eq_true h; omega
  all_goals omega

theorem lt_of_inDarkDomain {o : Nat} (h : inDarkDomain o s = true) : o < 2 ^ 24 := by
  rcases inDarkDomain_cases h with ⟨_, hc, _⟩ | hi
  · exact lt_of_inCore hc
  · exact lt_of_inCore hi.core

end

/-! ## Words of BAR0 over I3C (R430) -/

theorem regRead_i3cRead (off : Nat) (l : List Word) (s : State) :
    regRead off (s.onHif fun x => { x with i3cRead := l }) = regRead off s := rfl

theorem fetchWord_some {off : Nat} {w : Word} {s : State} (h : regRead off s = some w) :
    fetchWord off s = s.onHif fun x => { x with i3cRead := x.i3cRead ++ [w] } := by
  rw [fetchWord, h]

/-- The words at offsets that all name registers are appended in order, and nothing else happens. -/
theorem fold_fetchWord (s : State) (offs : List Nat) (h : ∀ o ∈ offs, regRead o s ≠ none) (l : List Word) :
    offs.foldl (fun s o => fetchWord o s) (s.onHif fun x => { x with i3cRead := l }) =
      s.onHif fun x => { x with i3cRead := l ++ offs.map fun o => (regRead o s).getD 0 } := by
  induction offs generalizing l with
  | nil => simp
  | cons o offs ih =>
    obtain ⟨w, hw⟩ := Option.ne_none_iff_exists'.1 (h o (List.mem_cons_self ..))
    have hstep : fetchWord o (s.onHif fun x => { x with i3cRead := l }) = s.onHif fun x => { x with i3cRead := l ++ [w] } :=
      fetchWord_some ((regRead_i3cRead o l s).trans hw)
    rw [List.foldl_cons, hstep, ih (fun p hp => h p (List.mem_cons_of_mem _ hp)), List.map_cons, hw]
    simp

theorem exec_i3cReadSetup {s : State} (hl : s.live = true) {off : BitVec 24} {n : BitVec 8} (h0 : 0 < n.toNat) (h64 : n.toNat ≤ 64)
    (h : ∀ i, i < n.toNat → regRead ((off.toNat + 4 * i) % 2 ^ 24) s ≠ none) :
    exec (.i3cBar0ReadSetup off n) s = .next (s.onHif fun x => { x with
      i3cRead := (List.range n.toNat).map fun i => (regRead ((off.toNat + 4 * i) % 2 ^ 24) s).getD 0 }) := by
  show execI3cBar0ReadSetup off n s = _
  have hn : (n == 0) = false := by simpa using fun e : n = 0 => by simp [e] at h0
  have hfold := fold_fetchWord s ((List.range n.toNat).map fun i => (off.toNat + 4 * i) % 2 ^ 24) (by simpa using h) []
  rw [List.foldl_map, List.map_map] at hfold
  rw [execI3cBar0ReadSetup, hl, hn, Bool.not_true, Bool.false_or, if_neg (by simpa using h64), hfold]
  rfl

end Sys2Proof.Machine

namespace Sys2Proof.Proofs
open Sys2Proof.Machine

/-- Settles O37: a dark register is one of CORE while CORE is off, or lies where its own domain gates the read and no sticky register
takes the write. -/
theorem darkRegistersReadAllOnes : Obligations.DarkRegistersReadAllOnes := by
  unfold Obligations.DarkRegistersReadAllOnes
  intro o s h
  have hoff : (BitVec.ofNat 24 o).toNat = o := Nat.mod_eq_of_lt (lt_of_inDarkDomain h)
  have hwrap : o % 16777216 = o := Nat.mod_eq_of_lt (lt_of_inDarkDomain h)
  have hread : regRead o s = some 0xFFFFFFFF := regRead_dark h
  refine ⟨hread, fun hl k v => ⟨?function, ?i3c⟩, fun hl => ⟨_, exec_i3cReadSetup hl (by decide) (by decide) ?named, ?taken⟩⟩
  case function => rw [exec_registerWrite hl, hoff, regWrite_dark h]
  case i3c => rw [exec_i3cBar0Write hl, hoff, regWrite_dark h]
  case named =>
    intro i hi
    obtain rfl : i = 0 := by simpa using hi
    simp [hoff, hwrap, hread]
  case taken => simp [hoff, hwrap, hread]

end Sys2Proof.Proofs
end

section
/-!
PROOFS. Accesses of the hosts that R37, R358, R406 and R427 speak of: what port 0 reads burst by burst, where protection refuses it and where a
word is uncorrectable, and what an I3C read brings. O38 is settled here.
-/
namespace Sys2Proof.Machine

/-! ## What reports leave as it is -/

section
variable {s t : State} (h : onlyReports s t)
include h

theorem only_mem : t.mem = s.mem := show t.settings.mem = s.settings.mem by rw [h]
theorem only_slc : t.slc = s.slc := show t.settings.slc = s.settings.slc by rw [h]
theorem only_cmp : t.cmp = s.cmp := show t.settings.cmp = s.settings.cmp by rw [h]
theorem only_fab : t.fab = s.fab := show t.settings.fab = s.settings.fab by rw [h]

end

/-! ## What a read leaves as it is, also one that is refused or uncorrectable -/

/-- The memory without what meters, rows, counters and sticky bits hold. -/
def Mem.words (m : Mem) : Mem :=
  { m with
    ports := default, pcs := default, ranks := default, nrrLfsr := default, openRows := [], sticky := 0, nrrCnt := 0, ueAddrLo := 0
    ueAddrHi := 0, ueCnt := 0, protViolCnt := 0 }

/-- t holds the words of s, with the same errors and the same protection. -/
structure SameWords (s t : State) : Prop where
  mem : t.mem.words = s.mem.words
  slc : t.slc = s.slc
  cmp : t.cmp = s.cmp
  fab : t.fab = s.fab

theorem SameWords.refl (s : State) : SameWords s s := ⟨rfl, rfl, rfl, rfl⟩
theorem SameWords.trans {s t u : State} (h : SameWords s t) (k : SameWords t u) : SameWords s u :=
  ⟨k.mem.trans h.mem, k.slc.trans h.slc, k.cmp.trans h.cmp, k.fab.trans h.fab⟩

theorem SameWords.of_onlyReports {s t : State} (h : onlyReports s t) : SameWords s t :=
  ⟨congrArg Mem.words (only_mem h), only_slc h, only_cmp h, only_fab h⟩

theorem Metered.sameWords {s t : State} (h : Metered s t) : SameWords s t := by
  obtain ⟨_, _, _, _, _, rfl⟩ := h
  exact ⟨rfl, rfl, rfl, rfl⟩

theorem Metered.ueCnt {s t : State} (h : Metered s t) : t.mem.ueCnt = s.mem.ueCnt := by
  obtain ⟨_, _, _, _, _, rfl⟩ := h
  rfl

theorem badWord_words (x : MemSpace) (a : Nat) (s : State) : badWord x a s = badWord x a { ({} : State) with mem := s.mem.words } := rfl

theorem isProtectedAt_words (x : MemSpace) (a : Nat) (s : State) :
    isProtectedAt x a s = isProtectedAt x a { ({} : State) with slc := s.slc, cmp := s.cmp, fab := s.fab } := rfl

section
variable {s t : State} (h : SameWords s t)
include h

theorem SameWords.bad (x : MemSpace) (a : Nat) : badWord x a t = badWord x a s := by
  rw [badWord_words, h.mem, ← badWord_words]

theorem SameWords.guarded (x : MemSpace) (a : Nat) : isProtectedAt x a t = isProtectedAt x a s := by
  rw [isProtectedAt_words, h.slc, h.cmp, h.fab, ← isProtectedAt_words]

theorem SameWords.general : t.mem.general = s.mem.general :=
  show t.mem.words.general = s.mem.words.general by rw [h.mem]
theorem SameWords.migRun : t.mem.migRun = s.mem.migRun :=
  show t.mem.words.migRun = s.mem.words.migRun by rw [h.mem]

end

/-! ## A burst of port 0 that reads (R400, R406, R410) -/

/-- What port 0 reads at an address: a burst with no data and no error of its own. -/
def hostRead (a : Nat) (closes : Bool) : MemReq := { port := 0, addr := a, closes := closes }

theorem protRefused_hostRead (a : Nat) (c : Bool) (s : State) : protRefused (hostRead a c) s = isProtectedAt .general a s := by
  simp [protRefused, hostRead]

/-- A sticky bit of the memory, beside a change of its counters. -/
theorem memRaise_sameWords (b : BitVec 10) {a s : State} (h : SameWords a s) : SameWords a (memRaise b s) := by
  have hbit : SameWords a (s.onMem fun x => { x with sticky := x.sticky ||| b }) := ⟨h.mem, h.slc, h.cmp, h.fab⟩
  exact hbit.trans (.of_onlyReports (memRaise_only b s (onlyReports_refl _)))

/-- The memory after a sticky bit. -/
theorem memRaise_mem (b : BitVec 10) (s : State) : (memRaise b s).mem = { s.mem with sticky := s.mem.sticky ||| b } :=
  only_mem (memRaise_only b s (onlyReports_refl _))

theorem memRaise_ueCnt (b : BitVec 10) (s : State) : (memRaise b s).mem.ueCnt = s.mem.ueCnt := by rw [memRaise_mem]
theorem memRaise_general (b : BitVec 10) (s : State) : (memRaise b s).mem.general = s.mem.general := by rw [memRaise_mem]

theorem serveBurst_refused {a : Nat} {c : Bool} {s : State} (h : isProtectedAt .general a s = true) :
    (serveBurst (hostRead a c) s).2 = false ∧ SameWords s (serveBurst (hostRead a c) s).1 ∧
      (serveBurst (hostRead a c) s).1.mem.ueCnt = s.mem.ueCnt := by
  have hm := served_metered (hostRead a c) s
  have hp : protRefused (hostRead a c) s = true := (protRefused_hostRead a c s).trans h
  simp only [serveBurst, hm.refused, hp, if_true]
  have hw := hm.sameWords
  exact ⟨trivial, memRaise_sameWords _ ⟨hw.mem, hw.slc, hw.cmp, hw.fab⟩, (memRaise_ueCnt _ _).trans hm.ueCnt⟩

theorem serveBurst_clean {a : Nat} {c : Bool} {s : State} (hp : isProtectedAt .general a s = false)
    (hb : badWord .general a s = false) : (serveBurst (hostRead a c) s).2 = false ∧ Metered s (serveBurst (hostRead a c) s).1 :=
  serveBurst_good _ s rfl rfl ((protRefused_hostRead a c s).trans hp) hb

theorem serveBurst_bad {a : Nat} {c : Bool} {s : State} (hp : isProtectedAt .general a s = false)
    (hb : badWord .general a s = true) : ∃ p r u, Metered s u ∧ serveBurst (hostRead a c) s = (countUe 0 p r u, true) := by
  have hm := served_metered (hostRead a c) s
  have hr : protRefused (hostRead a c) s = false := (protRefused_hostRead a c s).trans hp
  refine ⟨MemReq.place (hostRead a c) s.mem, readRank (MemReq.place (hostRead a c) s.mem) s.mem, _, hm, ?_⟩
  have hb' : badWord (hostRead a c).space (hostRead a c).addr s = true := hb
  simp only [serveBurst, hm.refused, hr, hm.bad, hb']
  rfl

theorem raise_sameWords (i : Instr) (s : State) : SameWords s (s.raise i) := by
  unfold State.raise
  split <;> exact ⟨rfl, rfl, rfl, rfl⟩

theorem raise_mem (i : Instr) (s : State) : (s.raise i).mem = s.mem := by
  unfold State.raise
  split <;> rfl

theorem spareReaction_sameWords {lr r : Nat} {s : State} (h : s.mem.migRun = false) :
    SameWords s (spareReaction lr r s) ∧ (spareReaction lr r s).mem.ueCnt = s.mem.ueCnt := by
  simp only [spareReaction, h, Bool.false_and, Bool.false_eq_true, if_false]
  split
  · exact ⟨memRaise_sameWords _ (.refl s), memRaise_ueCnt _ _⟩
  · exact ⟨raise_sameWords _ s, congrArg Mem.ueCnt (raise_mem _ s)⟩

/-- An uncorrectable read of port 0 counts; while no migration runs it changes no word. -/
theorem countUe_sameWords {p : MemPlace} {r : Nat} {s : State} (h : s.mem.migRun = false) : SameWords s (countUe 0 p r s) ∧
    (countUe 0 p r s).mem.ueCnt = sat s.mem.ueCnt := by
  simp only [countUe, Nat.reduceEqDiff, decide_false, Bool.false_and, Bool.false_eq_true, if_false]
  have hraise (u : State) : SameWords s u → u.mem.ueCnt = sat s.mem.ueCnt →
      SameWords s (spareReaction p.lr r (memRaise 0x2 u)) ∧ (spareReaction p.lr r (memRaise 0x2 u)).mem.ueCnt = sat s.mem.ueCnt := by
    intro hw hc
    have hb := memRaise_sameWords 0x2 hw
    obtain ⟨hs, hn⟩ := spareReaction_sameWords (lr := p.lr) (r := r) (hb.migRun.trans h)
    exact ⟨hb.trans hs, hn.trans ((memRaise_ueCnt _ _).trans hc)⟩
  exact hraise _ ⟨rfl, rfl, rfl, rfl⟩ rfl

/-! ## The bytes of the general region under an uncorrectable read (R412, R415) -/

theorem migrationOver_mem (s : State) : (migrationOver s).mem = s.mem := by
  unfold migrationOver
  split
  · exact raise_mem _ s
  · rfl

theorem abortMigration_general (s : State) : (abortMigration s).mem.general = s.mem.general := by
  rw [abortMigration, only_mem (completeOpt_only _ _ _ _ (onlyReports_refl _)), migrationOver_mem, memRaise_general]
  rfl

theorem spareReaction_general (lr r : Nat) (s : State) : (spareReaction lr r s).mem.general = s.mem.general := by
  unfold spareReaction
  split
  · exact abortMigration_general s
  · split
    · exact memRaise_general _ s
    · exact congrArg Mem.general (raise_mem _ s)

theorem countUe_general (n : Nat) (p : MemPlace) (r : Nat) (s : State) : (countUe n p r s).mem.general = s.mem.general := by
  unfold countUe
  lift_lets
  intro first s1 s2 s3
  have hcount : s2.mem.general = s.mem.general := memRaise_general 0x2 s1
  have hpoison : s3.mem.general = s2.mem.general := by
    dsimp only [s3]
    split <;> rfl
  rw [spareReaction_general, hpoison, hcount]

theorem serveBurst_general (a : Nat) (c : Bool) (s : State) : (serveBurst (hostRead a c) s).1.mem.general = s.mem.general := by
  cases hp : isProtectedAt .general a s with
  | true => exact (serveBurst_refused hp).2.1.general
  | false =>
    cases hb : badWord .general a s with
    | false => exact (serveBurst_clean hp hb).2.sameWords.general
    | true =>
      obtain ⟨p, r, u, hm, he⟩ := serveBurst_bad (c := c) hp hb
      rw [he]
      exact (countUe_general 0 p r u).trans hm.sameWords.general

/-! ## A run of port 0 that reads (R400, R427) -/

/-- One burst of a run that ends at e: w says where it starts, and how long it is. -/
def readStep (e : Nat) (g : Fetched) (w : Nat × Nat) : Fetched :=
  let t := serveBurst (hostRead w.1 (w.1 + w.2 == e)) (meter 0 g.st)
  { bytes := g.bytes ++ burstBytes (hostRead w.1 (w.1 + w.2 == e)) w.2 t.2 t.1
    bad := if t.2 then g.bad ++ [w.1 / 32 * 32] else g.bad, st := t.1 }

theorem portRead_host (a n : Nat) (s : State) :
    portRead { port := 0, addr := a } n s = (burstsOf a n).foldl (readStep (a + n)) { st := s } := rfl

section
variable (e : Nat) (g : Fetched) (w : Nat × Nat)

theorem readStep_general : (readStep e g w).st.mem.general = g.st.mem.general :=
  (serveBurst_general ..).trans (meter_metered 0 g.st).sameWords.general

theorem readStep_refused (hp : isProtectedAt .general w.1 g.st = true) :
    (readStep e g w).bytes = g.bytes ++ List.replicate w.2 0 ∧ (readStep e g w).bad = g.bad ∧ SameWords g.st (readStep e g w).st := by
  have hm := (meter_metered 0 g.st).sameWords
  obtain ⟨hf, hw, _⟩ := serveBurst_refused (c := w.1 + w.2 == e) ((hm.guarded _ _).trans hp)
  have hr : protRefused (hostRead w.1 (w.1 + w.2 == e)) (serveBurst (hostRead w.1 (w.1 + w.2 == e)) (meter 0 g.st)).1 = true := by
    rw [protRefused_hostRead, hw.guarded, hm.guarded, hp]
  simp only [readStep, hf, burstBytes, hr]
  exact ⟨rfl, rfl, hm.trans hw⟩

theorem readStep_clean (hp : isProtectedAt .general w.1 g.st = false) (hb : badWord .general w.1 g.st = false) :
    (readStep e g w).bad = g.bad ∧ Metered g.st (readStep e g w).st := by
  have hm := meter_metered 0 g.st
  obtain ⟨hf, hw⟩ := serveBurst_clean (c := w.1 + w.2 == e) ((hm.sameWords.guarded _ _).trans hp) ((hm.bad _ _).trans hb)
  simp only [readStep, hf]
  exact ⟨rfl, hm.trans hw⟩

theorem readStep_bad (hp : isProtectedAt .general w.1 g.st = false) (hb : badWord .general w.1 g.st = true) :
    (readStep e g w).bad = g.bad ++ [w.1 / 32 * 32] ∧
      (g.st.mem.migRun = false → SameWords g.st (readStep e g w).st ∧ (readStep e g w).st.mem.ueCnt = sat g.st.mem.ueCnt) := by
  have hm := meter_metered 0 g.st
  obtain ⟨p, r, u, hu, he⟩ := serveBurst_bad (c := w.1 + w.2 == e) ((hm.sameWords.guarded _ _).trans hp) ((hm.bad _ _).trans hb)
  have hmu := hm.trans hu
  simp only [readStep, he]
  refine ⟨rfl, fun h => ?_⟩
  obtain ⟨hw, hc⟩ := countUe_sameWords (p := p) (r := r) (hmu.sameWords.migRun.trans h)
  exact ⟨hmu.sameWords.trans hw, hc.trans (congrArg sat hmu.ueCnt)⟩

theorem readStep_bad_ne_nil (h : g.bad ≠ []) : (readStep e g w).bad ≠ [] := by
  dsimp only [readStep]
  split <;> simp [h]

end

section
variable (e : Nat) (ws : List (Nat × Nat)) (g : Fetched)

theorem readRun_general : (ws.foldl (readStep e) g).st.mem.general = g.st.mem.general := by
  induction ws generalizing g with
  | nil => rfl
  | cons w ws ih => exact (ih _).trans (readStep_general e g w)

/-- A run in protected memory reads zeros, with no error (R406). -/
theorem readRun_refused (hp : ∀ w ∈ ws, isProtectedAt .general w.1 g.st = true) :
    (ws.foldl (readStep e) g).bytes = g.bytes ++ List.replicate (ws.map (·.2)).sum 0 ∧ (ws.foldl (readStep e) g).bad = g.bad := by
  induction ws generalizing g with
  | nil => simp
  | cons w ws ih =>
    obtain ⟨hbytes, hbad, hw⟩ := readStep_refused e g w (hp w (List.mem_cons_self ..))
    obtain ⟨ihbytes, ihbad⟩ := ih (readStep e g w) fun x hx => (hw.guarded _ _).trans (hp x (List.mem_cons_of_mem _ hx))
    rw [List.foldl_cons, ihbytes, ihbad, hbytes, hbad, List.map_cons, List.sum_cons, List.replicate_add, List.append_assoc]
    exact ⟨rfl, rfl⟩

theorem readRun_bad_ne_nil (h : g.bad ≠ []) : (ws.foldl (readStep e) g).bad ≠ [] := by
  induction ws generalizing g with
  | nil => exact h
  | cons w ws ih => exact ih _ (readStep_bad_ne_nil e g w h)

/-- The first uncorrectable word of an unprotected run is found: before it, only meters, ranks and open rows have changed. -/
theorem readRun_finds_bad (hp : ∀ w ∈ ws, isProtectedAt .general w.1 g.st = false) (hb : ∃ w ∈ ws, badWord .general w.1 g.st = true) :
    (ws.foldl (readStep e) g).bad ≠ [] := by
  induction ws generalizing g with
  | nil => simp at hb
  | cons w ws ih =>
    have hpw := hp w (List.mem_cons_self ..)
    cases hw : badWord .general w.1 g.st with
    | true =>
      refine readRun_bad_ne_nil e ws _ ?_
      simp [(readStep_bad e g w hpw hw).1]
    | false =>
      obtain ⟨_, hm⟩ := readStep_clean e g w hpw hw
      refine ih _ (fun x hx => (hm.sameWords.guarded _ _).trans (hp x (List.mem_cons_of_mem _ hx))) ?_
      obtain ⟨x, hx, hxb⟩ := hb
      rcases List.mem_cons.1 hx with rfl | hx
      · rw [hw] at hxb
        cases hxb
      · exact ⟨x, hx, (hm.bad _ _).trans hxb⟩

/-- While no migration runs, each uncorrectable word of an unprotected run is counted, and no other (R410). -/
theorem readRun_ueCnt (hr : g.st.mem.migRun = false) (hp : ∀ w ∈ ws, isProtectedAt .general w.1 g.st = false) :
    (ws.foldl (readStep e) g).st.mem.ueCnt =
      (ws.filter fun w => badWord .general w.1 g.st).foldl (fun k _ => sat k) g.st.mem.ueCnt := by
  induction ws generalizing g with
  | nil => rfl
  | cons w ws ih =>
    have hpw := hp w (List.mem_cons_self ..)
    have hrest {u : State} (hu : SameWords g.st u) (hstep : (readStep e g w).st = u) :
        (ws.foldl (readStep e) (readStep e g w)).st.mem.ueCnt =
          (ws.filter fun w => badWord .general w.1 g.st).foldl (fun k _ => sat k) u.mem.ueCnt := by
      subst hstep
      rw [ih _ (hu.migRun.trans hr) fun x hx => (hu.guarded _ _).trans (hp x (List.mem_cons_of_mem _ hx))]
      simp only [hu.bad]
    cases hw : badWord .general w.1 g.st with
    | true =>
      obtain ⟨hs, hc⟩ := (readStep_bad e g w hpw hw).2 hr
      rw [List.foldl_cons, hrest hs rfl, hc, List.filter_cons_of_pos (by exact hw), List.foldl_cons]
    | false =>
      obtain ⟨_, hm⟩ := readStep_clean e g w hpw hw
      rw [List.foldl_cons, hrest hm.sameWords rfl, hm.ueCnt, List.filter_cons_of_neg (by simp [hw])]

end

theorem burstsOf_length_sum (a n : Nat) : ((burstsOf a n).map (·.2)).sum = n := by
  induction n using Nat.strongRecOn generalizing a with
  | ind n ih =>
    by_cases h0 : n = 0
    · subst h0
      simp [burstsOf_zero]
    · rw [burstsOf_step a n (by omega), List.map_cons, List.sum_cons, ih _ (by omega)]
      omega

/-! ## What the host gets back -/

/-- A read that answers d. -/
def answer (host : HostId) (d : List Byte) (s : State) : State := s.onHif fun x => { x with outbox := .readBack host d :: x.outbox }

theorem answer_only {a s : State} (h : onlyReports a s) (host : HostId) (d : List Byte) : onlyReports a (answer host d s) :=
  only_onHif h _ rfl

theorem mem_answer (host : HostId) (d : List Byte) (s : State) : .readBack host d ∈ (answer host d s).hif.outbox := List.mem_cons_self ..

/-- The end of a read over BAR2: its bytes, or a poisoned completion when a word was uncorrectable (R427). -/
def readOut (host : HostId) (f : Fetched) : State :=
  if f.bad.isEmpty then answer host f.bytes f.st else f.st.onHif fun x => { x with outbox := .poisoned host :: x.outbox }

theorem readOut_good (host : HostId) {f : Fetched} (h : f.bad = []) : readOut host f = answer host f.bytes f.st := by
  rw [readOut, h]
  rfl

theorem readOut_mem (host : HostId) (f : Fetched) : (readOut host f).mem = f.st.mem := by
  unfold readOut
  split <;> rfl

theorem mem_readOut_poisoned (host : HostId) {f : Fetched} (h : f.bad ≠ []) : .poisoned host ∈ (readOut host f).hif.outbox := by
  rw [readOut, if_neg (by simpa using h)]
  exact List.mem_cons_self ..

/-! ## Accesses that R37 counts -/

section
variable {s : State} (h : Fin 2) {off : BitVec 24} {size : Nat}

theorem exec_unmapped_read (hl : s.live = true) (hg : goodAccess off.toNat size false s = false) :
    exec (.unmapped h off size false) s = .next (answer (BitVec.ofNat 2 (h.val + 1)) (List.replicate size 0xFF) (countUnmapped s)) := by
  show execUnmapped h off size false s = _
  rw [execUnmapped, hl, hg]
  rfl

theorem exec_unmapped_write (hl : s.live = true) (hg : goodAccess off.toNat size true s = false) :
    exec (.unmapped h off size true) s = .next (countUnmapped s) := by
  show execUnmapped h off size true s = _
  rw [execUnmapped, hl, hg]
  rfl

end

/-! ## What an I3C read brings (R430, R431) -/

theorem exec_i3cPrivateRead {s : State} (hl : s.live = true) : ∃ t, exec .i3cPrivateRead s = .next t ∧
    .readBack 3 (if s.hif.i3cRead ≠ [] then s.hif.i3cRead.flatMap (fun x => leBytes 4 x.toNat) else
      match s.hif.i3cQ with | r :: _ => Reply.bytes Config.i3cPhase r | [] => List.replicate 32 0) ∈ t.hif.outbox ∧
    t.hif.i3cRead = [] ∧ t.hif.i3cQ = (if s.hif.i3cRead ≠ [] then s.hif.i3cQ else s.hif.i3cQ.drop 1) := by
  refine ⟨_, rfl, ?_⟩
  rw [hl]
  cases hr : s.hif.i3cRead with
  | cons w ws => simp
  | nil => cases hq : s.hif.i3cQ <;> simp [hr, hq]

/-! ## BAR2 (R358, R406, R427) -/

section
variable {h : Fin 2} {off : Nat} {s : State} {b : Buffer} {o : Nat}

theorem exec_bar2Read {n : Nat} (hb : bar2Buf h.val off n s = some (b, o)) :
    exec (.bar2Access h off (.read n)) s = .next (readOut (BitVec.ofNat 2 (h.val + 1)) (bufFetch { port := 0 } b o n s)) := by
  show execBar2Access h off (.read n) s = _
  simp only [execBar2Access, hb]
  rfl

theorem exec_bar2Read_none {n : Nat} (hb : bar2Buf h.val off n s = none) :
    exec (.bar2Access h off (.read n)) s = .next (answer (BitVec.ofNat 2 (h.val + 1)) (List.replicate n 0xFF)
      (hifRaise 0x2 (s.onHif fun x => { x with bar2DropCnt := sat x.bar2DropCnt }))) := by
  show execBar2Access h off (.read n) s = _
  simp only [execBar2Access, hb]
  rfl

theorem exec_bar2Write {d : List Byte} (hb : bar2Buf h.val off d.length s = some (b, o)) :
    exec (.bar2Access h off (.write d)) s = .next (if scanLocked b.handle s then
      cmpRaise 0x2 (s.onCmp fun c => { c with lockDropCnt := sat c.lockDropCnt }) else bufStore { port := 0 } b o d s) := by
  show execBar2Access h off (.write d) s = _
  simp only [execBar2Access, hb]

theorem bufFetch_unplaced {q : MemReq} {n : Nat} (hb : b.lost = true ∨ b.place = none) :
    bufFetch q b o n s = { bytes := bufBytes b o n s, st := s } := by
  rcases hb with hb | hb <;> simp [bufFetch, hb]

theorem bufFetch_placed {q : MemReq} {n a : Nat} (hl : b.lost = false) (hp : b.place = some a) :
    bufFetch q b o n s = portRead { q with addr := a + o } n s := by
  simp [bufFetch, hl, hp]

theorem bar2Read_unplaced {n : Nat} (hb : bar2Buf h.val off n s = some (b, o)) (hp : b.lost = true ∨ b.place = none) :
    exec (.bar2Access h off (.read n)) s = .next (answer (BitVec.ofNat 2 (h.val + 1)) (bufBytes b o n s) s) := by
  rw [exec_bar2Read hb, bufFetch_unplaced hp, readOut_good _ rfl]

/-- What a read of a buffer's words brings: their bytes, zeros, or a poisoned completion. -/
theorem bar2Read_placed {n a : Nat} (hb : bar2Buf h.val off n s = some (b, o)) (hl : b.lost = false) (hp : b.place = some a) :
    ∃ t, exec (.bar2Access h off (.read n)) s = .next t ∧ t.mem.general = s.mem.general ∧
      ((∀ w ∈ burstsOf (a + o) n, isProtectedAt .general w.1 s = true) →
        .readBack (BitVec.ofNat 2 (h.val + 1)) (List.replicate n 0) ∈ t.hif.outbox) ∧
      ((∀ w ∈ burstsOf (a + o) n, isProtectedAt .general w.1 s = false) →
        ((∀ w ∈ burstsOf (a + o) n, badWord .general w.1 s = false) →
          .readBack (BitVec.ofNat 2 (h.val + 1)) (memRead s.mem.general (a + o) n) ∈ t.hif.outbox ∧ t.mem.ueCnt = s.mem.ueCnt) ∧
        ((∃ w ∈ burstsOf (a + o) n, badWord .general w.1 s = true) → .poisoned (BitVec.ofNat 2 (h.val + 1)) ∈ t.hif.outbox ∧
          (s.mem.migRun = false → t.mem.ueCnt =
            ((burstsOf (a + o) n).filter fun w => badWord .general w.1 s).foldl (fun k _ => sat k) s.mem.ueCnt))) := by
  rw [exec_bar2Read hb, bufFetch_placed hl hp]
  have hfold := portRead_host (a + o) n s
  generalize hf : portRead { port := 0, addr := a + o } n s = f at hfold ⊢
  refine ⟨_, rfl, ?general, fun hprot => ?zeros, fun hopen => ⟨fun hgood => ?bytes, fun hbad => ?poisoned⟩⟩
  case general =>
    rw [readOut_mem, hfold]
    exact readRun_general (a + o + n) (burstsOf (a + o) n) { st := s }
  case zeros =>
    obtain ⟨hbytes, hnil⟩ := readRun_refused (a + o + n) (burstsOf (a + o) n) { st := s } hprot
    rw [← hfold] at hbytes hnil
    rw [burstsOf_length_sum] at hbytes
    rw [readOut_good _ hnil, hbytes]
    exact mem_answer ..
  case bytes =>
    obtain ⟨hbytes, hnil, hm⟩ := portRead_good { port := 0, addr := a + o } n s rfl rfl fun w hw => ⟨hopen w hw, hgood w hw⟩
    rw [hf] at hbytes hnil hm
    rw [readOut_good _ hnil, hbytes]
    exact ⟨mem_answer .., hm.ueCnt⟩
  case poisoned =>
    have hne := readRun_finds_bad (a + o + n) _ { st := s } hopen hbad
    rw [← hfold] at hne
    refine ⟨mem_readOut_poisoned _ hne, fun hr => ?_⟩
    rw [readOut_mem, hfold]
    exact readRun_ueCnt (a + o + n) _ { st := s } hr hopen

/-- A write that neither protection nor a fence keeps back stores its bytes, and no other (R358). -/
theorem memGet_bufStore {d : List Byte} {a : Nat} (hp : b.place = some a) (hf : s.mem.fenced = 0) (hwf : memWf s.mem.general = true)
    (hopen : ∀ w ∈ burstsOf (a + o) d.length, isProtectedAt .general w.1 s = false) (k : Nat) :
    memGet (bufStore { port := 0 } b o d s).mem.general k =
      if a + o ≤ k ∧ k < a + o + d.length then d.getD (k - (a + o)) 0 else memGet s.mem.general k := by
  have hstore : bufStore { port := 0 } b o d s = portWrite { port := 0, addr := a + o } d s := by simp [bufStore, hp]
  have hcells := (portWrite_stores { port := 0, addr := a + o } d s hf hopen).cells.1
  have hgen : (bufStore { port := 0 } b o d s).mem.general = memWrite s.mem.general (a + o) d := by rw [hstore]; exact hcells
  rw [hgen]
  split
  next hin =>
    obtain ⟨i, rfl⟩ := Nat.exists_eq_add_of_le hin.1
    rw [memGet_memWrite _ _ _ _ hwf (by omega), Nat.add_sub_cancel_left]
  next hout => exact memGet_memWrite_other _ _ _ _ hwf (by omega)

end

end Sys2Proof.Machine

namespace Sys2Proof.Proofs
open Sys2Proof.Machine

/-- Settles O38: the accesses that R37 counts, the words over I3C, and the reads and writes of BAR2 burst by burst. -/
theorem hostReadsAndBadAccesses : Obligations.HostReadsAndBadAccesses := by
  unfold Obligations.HostReadsAndBadAccesses
  refine ⟨fun h off size s hl hg => ?badRead, fun h off size s hl hg => ?badWrite, fun off n s hl h0 h64 hr => ?setup,
    fun s hl => exec_i3cPrivateRead hl, fun h off s b o n hb => ⟨fun hp => ?unplaced, fun a hl hp => bar2Read_placed hb hl hp⟩,
    fun h off s b o d hb => ⟨fun hk => ⟨?write, fun a hp hf hwf hopen k => memGet_bufStore hp hf hwf hopen k⟩, fun hk => ?locked⟩,
    fun h off s n hb => ?outside⟩
  case badRead =>
    refine ⟨_, exec_unmapped_read h hl hg, answer_only (countUnmapped_only s) .., countUnmapped_hifSticky s, mem_answer ..⟩
  case badWrite => exact ⟨_, exec_unmapped_write h hl hg, countUnmapped_only s⟩
  case setup => exact exec_i3cReadSetup hl h0 h64 hr
  case unplaced => exact ⟨_, bar2Read_unplaced hb hp, answer_only (onlyReports_refl s) .., mem_answer ..⟩
  case write => rw [exec_bar2Write hb, hk]; rfl
  case locked =>
    refine ⟨_, by rw [exec_bar2Write hb, if_pos hk], cmpRaise_only _ _ (onlyReports_refl _)⟩
  case outside =>
    exact ⟨_, exec_bar2Read_none hb, answer_only (hifRaise_only _ _ (onlyReports_refl _)) .., mem_answer ..⟩

end Sys2Proof.Proofs
end

section
/-!
PROOFS. What the state holds for the reset pins, the phase keeper, the exclusion engine, the clock monitors and the ports' allotments, and the
operations of light, links, arrays, fabric, enclave and hosts that leave it as it is.
-/
namespace Sys2Proof.Machine

/-! ## Repetition -/

/-- What every pass leaves as it is, a repetition leaves as it is. -/
theorem foldl_keeps {α β : Type} {g : State → β} {f : State → α → State} (hf : ∀ t x, g (f t x) = g t) (l : List α) (s : State) :
    g (l.foldl f s) = g s := by
  induction l generalizing s with
  | nil => rfl
  | cons x l ih => rw [List.foldl_cons, ih, hf]

theorem forN_keeps {β : Type} {g : State → β} {f : Nat → State → State} (hf : ∀ i t, g (f i t) = g t) (n : Nat) (s : State) :
    g (forN n f s) = g s := by
  induction n with
  | zero => rfl
  | succ n ih => rw [forN, hf, ih]

/-! ## The part of the state that only pins, timekeeping, the safe state and the clock monitors move -/

/-- What of a state the reset pins, the phase keeper, the exclusion engine and the clock monitors hold, and the ports' allotments. -/
def State.still (s : State) : State :=
  { ({} : State) with
    glk := { ({} : Glk) with ports := s.glk.ports.map fun l => { ({} : LinkPort) with allot := l.allot } }
    phase := s.phase, frame := s.frame, powered := s.powered, porst := s.porst, wrst := s.wrst, straps := s.straps, tim := s.tim, xcl := s.xcl
    mgt := { ({} : Mgt) with clkStatus := s.mgt.clkStatus, clkSticky := s.mgt.clkSticky, clkFaultCnt := s.mgt.clkFaultCnt }
    pwr := { ({} : Pwr) with railReset := s.pwr.railReset } }

section
variable (s : State)

@[simp] theorem still_onHif (f) : (s.onHif f).still = s.still := rfl
@[simp] theorem still_onSeq (f) : (s.onSeq f).still = s.still := rfl
@[simp] theorem still_onIll (f) : (s.onIll f).still = s.still := rfl
@[simp] theorem still_onCle (f) : (s.onCle f).still = s.still := rfl
@[simp] theorem still_onSlc (f) : (s.onSlc f).still = s.still := rfl
@[simp] theorem still_onOctet (k f) : (s.onOctet k f).still = s.still := rfl
@[simp] theorem still_onAhm (f) : (s.onAhm f).still = s.still := rfl
@[simp] theorem still_onCmp (f) : (s.onCmp f).still = s.still := rfl
@[simp] theorem still_onFab (f) : (s.onFab f).still = s.still := rfl
@[simp] theorem still_onMem (f) : (s.onMem f).still = s.still := rfl
@[simp] theorem still_onSec (f) : (s.onSec f).still = s.still := rfl

theorem still_onLink (p : Nat) {f : LinkPort → LinkPort} (hf : ∀ l, (f l).allot = l.allot) : (s.onLink p f).still = s.still := by
  simp only [State.still, State.onLink, State.onGlk]
  rw [map_upd _ _ _ _ fun l => by rw [hf l]]

@[simp] theorem still_raise (i : Instr) : (s.raise i).still = s.still := by
  unfold State.raise
  split <;> rfl

theorem only_still {s t : State} (h : onlyReports s t) : t.still = s.still := show t.settings.still = s.settings.still by rw [h]

/-! ### Reports and sticky bits -/

@[simp] theorem still_logRec (vec code : Nat) (off bits : BitVec 32) : (logRec vec code off bits s).still = s.still :=
  only_still (logRec_only _ _ _ _ s (onlyReports_refl s))
@[simp] theorem still_journalAdd (e : JEntry) : (journalAdd e s).still = s.still := only_still (journalAdd_only e s (onlyReports_refl s))
@[simp] theorem still_complete (h : Held) (st : Status) (d : Word) : (complete h st d s).still = s.still :=
  only_still (complete_only _ _ _ s (onlyReports_refl s))
@[simp] theorem still_sendEvent (host : HostId) (code : BitVec 16) (d : BitVec 32) (v : Nat) : (sendEvent host code d v s).still = s.still :=
  only_still (sendEvent_only _ _ _ _ s (onlyReports_refl s))
@[simp] theorem still_stickyUp {w : Nat} (vec off : Nat) (old b : BitVec w) : (stickyUp vec off old b s).still = s.still :=
  only_still (stickyUp_only _ _ _ _ s (onlyReports_refl s))
@[simp] theorem still_octRaise (k : Nat) (b : BitVec 9) : (octRaise k b s).still = s.still := still_stickyUp ..
@[simp] theorem still_quadRaise (q : Nat) : (quadRaise q s).still = s.still := still_stickyUp ..
@[simp] theorem still_ahmRaise (p : Nat) (b : BitVec 15) : (ahmRaise p b s).still = s.still := still_stickyUp ..
@[simp] theorem still_cleRaise (b : BitVec 4) : (cleRaise b s).still = s.still := still_stickyUp ..
@[simp] theorem still_fabRaise (b : BitVec 3) : (fabRaise b s).still = s.still := still_stickyUp ..
@[simp] theorem still_fviewRaise (v : Nat) (b : BitVec 3) : (fviewRaise v b s).still = s.still := still_stickyUp ..
@[simp] theorem still_secRaise (b : BitVec 9) : (secRaise b s).still = s.still := still_stickyUp ..
@[simp] theorem still_mgtRaise (b : BitVec 7) : (mgtRaise b s).still = s.still := still_stickyUp ..

/-! ### Repetition of what leaves it as it is -/

theorem still_forN {f : Nat → State → State} (hf : ∀ i t, (f i t).still = t.still) (n : Nat) : (forN n f s).still = s.still :=
  forN_keeps hf n s

theorem still_foldl {α : Type} {f : State → α → State} (hf : ∀ t x, (f t x).still = t.still) (l : List α) :
    (l.foldl f s).still = s.still := foldl_keeps hf l s

end

/-! ### Light, fabric, loops and enclave -/

section
variable (s : State)

@[simp] theorem still_strobe : (strobe s).still = s.still := by
  unfold strobe
  dsimp only
  split <;> rfl

theorem still_pwmTake (n : Nat) : (pwmTake n s).still = s.still := rfl

@[simp] theorem still_pwmLose : (pwmLose s).still = s.still := by
  rw [pwmLose, still_cleRaise, still_forN s fun n t => still_pwmTake t n]

@[simp] theorem still_engineClock (ok : Bool) : (engineClock ok s).still = s.still := by
  cases ok
  · exact still_pwmLose _
  · rfl

@[simp] theorem still_fabricClockLost : (fabricClockLost s).still = s.still := by
  unfold fabricClockLost
  split
  · rfl
  · exact still_fabRaise ..

@[simp] theorem still_wipe (x : MemSpace) (a n : Nat) : (wipe x a n s).still = s.still := rfl

@[simp] theorem still_dropBuf (b : Buffer) : (dropBuf b s).still = s.still := by
  unfold dropBuf
  dsimp only
  rw [still_onCmp]
  split
  · split <;> rfl
  · rfl

@[simp] theorem still_sweepBuffers : (sweepBuffers s).still = s.still := by
  refine still_foldl s (fun t b => ?_) _
  split
  · rfl
  · split
    · rfl
    · simp

@[simp] theorem still_fabDrop (v : Nat) : (fabDrop v s).still = s.still := still_fviewRaise ..

@[simp] theorem still_abandonSlicing (v n : Nat) : (abandonSlicing v n s).still = s.still := by
  unfold abandonSlicing
  split <;> rfl

@[simp] theorem still_abandonFrame (v : Nat) : (abandonFrame v s).still = s.still := by
  unfold abandonFrame
  split
  · rfl
  · simp

@[simp] theorem still_dropFrame (v : Nat) : (dropFrame v s).still = s.still := by
  unfold dropFrame
  split
  · rfl
  · rw [still_fabDrop, still_abandonFrame]
    rfl

@[simp] theorem still_dropWaiting (v : Nat) : (dropWaiting v s).still = s.still := by
  unfold dropWaiting
  split
  · exact still_fabDrop ..
  · rfl

@[simp] theorem still_fabricClockGood : (fabricClockGood s).still = s.still := by
  unfold fabricClockGood
  split
  · rw [still_onFab, still_forN]
    exact fun v t => (still_dropWaiting ..).trans (still_dropFrame ..)
  · rfl

@[simp] theorem still_endServices : (endServices s).still = s.still := still_foldl _ (fun _ _ => still_complete ..) _

@[simp] theorem still_secError (cause : BitVec 2) (b : BitVec 9) : (secError cause b s).still = s.still := by
  unfold secError
  split <;> simp

/-! ### Hosts and management -/

@[simp] theorem still_endSession (h : HostId) (cause : Nat) : (endSession h cause s).still = s.still := by
  unfold endSession
  split
  · exact still_journalAdd ..
  · rfl

@[simp] theorem still_pcieDown (h : Nat) (clear : Bool) : (pcieDown h clear s).still = s.still := still_endSession ..

@[simp] theorem still_reinit : (reinit s).still = s.still := rfl

/-! ### Links and arrays -/

@[simp] theorem still_wakeMemory : (wakeMemory s).still = s.still := by
  refine still_forN s (fun i t => ?_) 4
  split <;> simp

@[simp] theorem still_resumeLink (p : Nat) : (resumeLink p s).still = s.still := by
  unfold resumeLink
  dsimp only
  split
  · rfl
  · exact still_onLink _ _ fun _ => rfl

@[simp] theorem still_askReload (p : Nat) : (askReload p s).still = s.still := by simp [askReload]

@[simp] theorem still_updateHold (p : Nat) : (updateHold p s).still = s.still := by
  unfold updateHold
  dsimp only
  split
  · split <;> simp
  · split <;> rfl

@[simp] theorem still_causePort (p i : Nat) : (causePort p i s).still = s.still := still_updateHold ..
@[simp] theorem still_settleCauses (p : Nat) : (settleCauses p s).still = s.still := still_updateHold ..

@[simp] theorem still_endCausePort (p i : Nat) : (endCausePort p i s).still = s.still := by
  unfold endCausePort
  split
  · exact still_updateHold ..
  · rfl

@[simp] theorem still_enterPark (p : Nat) : (enterPark p s).still = s.still := by
  unfold enterPark
  split
  · exact (still_causePort ..).trans (still_ahmRaise ..)
  · rfl

@[simp] theorem still_ahmFollow (p : Nat) : (ahmFollow p s).still = s.still := still_enterPark ..

@[simp] theorem still_abortScan (p : Nat) (next : ArrSt) : (abortScan p next s).still = s.still := by
  unfold abortScan
  split
  · rfl
  · rw [still_complete, still_endCausePort, still_ahmRaise]
    rfl

@[simp] theorem still_leaveReady (p : Nat) : (leaveReady p s).still = s.still :=
  (still_abortScan ..).trans (still_onLink _ _ fun _ => rfl)

@[simp] theorem still_portDown (p : Nat) : (portDown p s).still = s.still := by
  rw [portDown, still_ahmFollow, still_strobe, still_settleCauses]
  exact still_leaveReady ..

@[simp] theorem still_discardRestripe (k : Nat) : (discardRestripe k s).still = s.still := by
  unfold discardRestripe
  split
  · exact still_octRaise ..
  · rfl

theorem still_toEight (k : Nat) : (toEight k s).still = s.still := by
  unfold toEight
  split <;> rfl

@[simp] theorem still_wakeOctet (k : Nat) : (wakeOctet k s).still = s.still := by
  unfold wakeOctet
  split
  · exact (still_ahmFollow ..).trans (still_toEight ..)
  · rfl

@[simp] theorem still_quadGood (q : Nat) : (quadGood q s).still = s.still :=
  still_foldl _ (fun t k => still_wakeOctet t k) _

@[simp] theorem still_quadFault (q : Nat) : (quadFault q s).still = s.still := by
  unfold quadFault
  dsimp only
  rw [still_foldl _ (fun t p => ?ports), still_foldl _ (fun t k => ?octets), still_quadRaise]
  case octets => exact still_discardRestripe t k
  case ports =>
    rw [still_portDown, eachOctet, still_foldl]
    exact fun u k => still_discardRestripe u k
  rfl

end
end Sys2Proof.Machine
end

section
/-!
PROOFS. What a raised source, a timebase fault, a lockstep mismatch and the responses of R32 do to that part of the state.
-/
namespace Sys2Proof.Machine

/-! ## A raised source (R226, R227) -/

theorem only_xcl {s t : State} (h : onlyReports s t) : t.xcl = s.xcl := show t.settings.xcl = s.settings.xcl by rw [h]
theorem only_tim {s t : State} (h : onlyReports s t) : t.tim = s.tim := show t.settings.tim = s.settings.tim by rw [h]

/-- The exclusion engine after a source is raised, but for the record of the entry. -/
def Xcl.raised (code : Nat) (x : Xcl) : Xcl :=
  { x with
    active := x.active ||| bit1 12 code, latch := if isLevel code then x.latch else x.latch ||| bit1 12 code
    sticky := x.sticky ||| bit1 13 code, safe := true, safeCnt := if x.safe then x.safeCnt else sat x.safeCnt }

theorem raiseSource_xcl (code : Nat) (s : State) : ∃ k c f,
    (raiseSource code s).xcl = { s.xcl.raised code with safeTick := k, safeCode := c, safeFrame := f } := by
  unfold raiseSource
  lift_lets
  intro was s1 s2
  have hx : s2.xcl = { s1.xcl with sticky := s1.xcl.sticky ||| bit1 13 code } :=
    only_xcl (xclRaise_only (bit1 13 code) s1 (onlyReports_refl _))
  cases hw : was with
  | true =>
    have hs : s.xcl.safe = true := hw
    have hx1 : s2.xcl = { s1.xcl with sticky := s1.xcl.sticky ||| bit1 13 code, safe := true } := by
      rw [hx]
      simp only [show s1.xcl.safe = true from hs]
    simp only [Xcl.raised, hs, if_true, apply_ite State.xcl, State.onXcl_xcl, hx1]
    split <;> exact ⟨_, _, _, rfl⟩
  | false =>
    have hs : s.xcl.safe = false := hw
    simp only [Xcl.raised, hs, Bool.false_eq_true, if_false, enterSafe, only_xcl (logRec_only _ _ _ _ _ (onlyReports_refl _)),
      strobe0, State.onIll_xcl, State.onXcl_xcl, hx]
    exact ⟨_, _, _, rfl⟩

section
variable (code : Nat) (s : State)

theorem raiseSource_safe : (raiseSource code s).xcl.safe = true := by
  obtain ⟨k, c, f, h⟩ := raiseSource_xcl code s
  rw [h]
  rfl

theorem raiseSource_active : (raiseSource code s).xcl.active = s.xcl.active ||| bit1 12 code := by
  obtain ⟨k, c, f, h⟩ := raiseSource_xcl code s
  rw [h]
  rfl

theorem raiseSource_latch :
    (raiseSource code s).xcl.latch = if isLevel code then s.xcl.latch else s.xcl.latch ||| bit1 12 code := by
  obtain ⟨k, c, f, h⟩ := raiseSource_xcl code s
  rw [h]
  rfl

end

/-- Raising a source keeps whatever a change of the exclusion engine, the lights' going out, a sticky bit and a log record all keep. -/
theorem raiseSource_untouched {β : Type} {g : State → β} (hx : ∀ f t, g (t.onXcl f) = g t)
    (hi : ∀ t, g ((strobe0 t).onIll fun i => { i with chains := i.chains.map fun c => { c with en := false } }) = g t)
    (hs : ∀ t {w : Nat} (vec off : Nat) (old b : BitVec w), g (stickyUp vec off old b t) = g t)
    (hl : ∀ t vec code off bits, g (logRec vec code off bits t) = g t) (code : Nat) (s : State) : g (raiseSource code s) = g s := by
  unfold raiseSource
  lift_lets
  intro was s1 s2
  have h2 : g s2 = g s := ((hs ..).trans (hx ..)).trans (hx ..)
  clear_value was s1 s2
  split
  · split
    · exact (hx ..).trans h2
    · exact h2
  · rw [enterSafe, hl, hi, hx, h2]

/-! ## The part that neither the phase keeper nor the exclusion engine holds -/

/-- What of a state the reset pins and the clock monitors hold. -/
def State.base (s : State) : State := { s.still with tim := {}, xcl := {} }

section
variable {s t : State}

theorem base_of_still (h : t.still = s.still) : t.base = s.base := by rw [State.base, h, State.base]

theorem only_base (h : onlyReports s t) : t.base = s.base := base_of_still (only_still h)

theorem tim_of_still (h : t.still = s.still) : t.tim = s.tim := show t.still.tim = s.still.tim by rw [h]
theorem xcl_of_still (h : t.still = s.still) : t.xcl = s.xcl := show t.still.xcl = s.still.xcl by rw [h]

section
variable (h : t.base = s.base)
include h

theorem base_clkStatus : t.mgt.clkStatus = s.mgt.clkStatus := show t.base.mgt.clkStatus = s.base.mgt.clkStatus by rw [h]
theorem base_clkSticky : t.mgt.clkSticky = s.mgt.clkSticky := show t.base.mgt.clkSticky = s.base.mgt.clkSticky by rw [h]
theorem base_clkFaultCnt : t.mgt.clkFaultCnt = s.mgt.clkFaultCnt := show t.base.mgt.clkFaultCnt = s.base.mgt.clkFaultCnt by rw [h]

end
end

section
variable (s : State)

theorem base_stickyUp {w : Nat} (vec off : Nat) (old b : BitVec w) : (stickyUp vec off old b s).base = s.base :=
  base_of_still (still_stickyUp ..)
theorem tim_stickyUp {w : Nat} (vec off : Nat) (old b : BitVec w) : (stickyUp vec off old b s).tim = s.tim :=
  tim_of_still (still_stickyUp ..)
theorem base_logRec (vec code : Nat) (off bits : BitVec 32) : (logRec vec code off bits s).base = s.base :=
  base_of_still (still_logRec ..)
theorem tim_logRec (vec code : Nat) (off bits : BitVec 32) : (logRec vec code off bits s).tim = s.tim :=
  tim_of_still (still_logRec ..)

theorem raiseSource_base (code : Nat) : (raiseSource code s).base = s.base :=
  raiseSource_untouched (g := State.base) (fun _ _ => rfl) (fun _ => rfl) base_stickyUp base_logRec code s
theorem raiseSource_tim (code : Nat) : (raiseSource code s).tim = s.tim :=
  raiseSource_untouched (g := State.tim) (fun _ _ => rfl) (fun _ => rfl) tim_stickyUp tim_logRec code s

/-! ## The outputs that follow the tick count (R92) -/

theorem followMarks_marks : ∃ m, followMarks s = s.onTim fun t => { t with marks := m } := by
  unfold followMarks
  split
  · exact ⟨s.tim.marks, rfl⟩
  · have hfold (n : Nat) : ∃ m, forN n (fun i s => s.onTim fun t => { t with marks := upd t.marks i fun m =>
        { m with active := markWant i s } }) s = s.onTim fun t => { t with marks := m } := by
      induction n with
      | zero => exact ⟨s.tim.marks, rfl⟩
      | succ n ih =>
        obtain ⟨m, hm⟩ := ih
        rw [forN, hm]
        exact ⟨_, rfl⟩
    exact hfold 5

theorem followMarks_base : (followMarks s).base = s.base := by
  obtain ⟨m, hm⟩ := followMarks_marks s
  rw [hm]
  rfl

theorem followMarks_xcl : (followMarks s).xcl = s.xcl := by
  obtain ⟨m, hm⟩ := followMarks_marks s
  rw [hm, State.onTim_xcl]

theorem followMarks_st : (followMarks s).tim.st = s.tim.st := by
  obtain ⟨m, hm⟩ := followMarks_marks s
  rw [hm]
  rfl

theorem followMarks_src : (followMarks s).tim.src = s.tim.src := by
  obtain ⟨m, hm⟩ := followMarks_marks s
  rw [hm]
  rfl

/-! ## The response to a bad clock (R32) -/

theorem timebaseFault_base : (timebaseFault s).base = s.base := by
  rw [timebaseFault, followMarks_base, only_base (timRaise_only _ _ (onlyReports_refl _))]
  rfl

theorem timebaseFault_xcl : (timebaseFault s).xcl = s.xcl := by
  rw [timebaseFault, followMarks_xcl, only_xcl (timRaise_only _ _ (onlyReports_refl _))]
  rfl

theorem timebaseFault_st : (timebaseFault s).tim.st = .unlocked := by
  rw [timebaseFault, followMarks_st, only_tim (timRaise_only _ _ (onlyReports_refl _))]
  rfl

/-- A mismatch of the lockstep pair raises source 10, unless the device is not live or the subsystem has halted. -/
theorem lockstepError_cases (b : Bool) : lockstepError b s = s ∨
    ∃ u, u.still = s.still ∧ (lockstepError b s).still = (raiseSource 10 u).still := by
  unfold lockstepError
  split
  · exact .inl rfl
  · lift_lets
    intro ts s1 s2
    refine .inr ⟨reinit (logRec 20 7 0 0 s1), ?_, ?_⟩
    · have h1 : s1.still = s.still := still_mgtRaise ..
      rw [still_reinit, still_logRec, h1]
    · split
      · exact still_mgtRaise ..
      · rfl

theorem lockstepError_base (b : Bool) : (lockstepError b s).base = s.base := by
  rcases lockstepError_cases s b with h | ⟨u, hu, h⟩
  · rw [h]
  · rw [base_of_still h, raiseSource_base, base_of_still hu]

theorem lockstepError_tim (b : Bool) : (lockstepError b s).tim = s.tim := by
  rcases lockstepError_cases s b with h | ⟨u, hu, h⟩
  · rw [h]
  · rw [tim_of_still h, raiseSource_tim, tim_of_still hu]

/-- No monitor's response but those of 0, 1 and 3 touches the phase keeper or the exclusion engine. -/
theorem clockResponse_still {m : Nat} (h0 : m ≠ 0) (h1 : m ≠ 1) (h3 : m ≠ 3) : (clockResponse m s).still = s.still := by
  unfold clockResponse
  rw [if_neg (by omega), if_neg h1]
  repeat' split
  all_goals simp

theorem clockResponse_timebase {m : Nat} (h : m = 0 ∨ m = 3) : ∃ u, u.still = (timebaseFault s).still ∧ clockResponse m s = u := by
  refine ⟨_, ?_, if_pos h⟩
  simp

theorem clockResponse_base (m : Nat) : (clockResponse m s).base = s.base := by
  by_cases h : m = 0 ∨ m = 3
  · obtain ⟨u, hu, he⟩ := clockResponse_timebase s h
    rw [he, base_of_still hu, timebaseFault_base]
  · by_cases h1 : m = 1
    · subst h1
      exact lockstepError_base s false
    · exact base_of_still (clockResponse_still s (by tauto) h1 (by tauto))

end
end Sys2Proof.Machine
end

section
/-!
PROOFS. Clock monitors: what a fault records and what a monitor that reports good ends (R32, R33, R225). O45 is settled here.
-/
namespace Sys2Proof.Machine

/-! ## Source 6, the clock monitors whose response is Blank (R225) -/

/-- The safe state is in force, and source 6 is active and latched. -/
def Xcl.clockBlank (x : Xcl) : Prop := x.safe = true ∧ x.active.getLsbD 6 = true ∧ x.latch.getLsbD 6 = true

section
variable (s : State)

theorem raiseSource_six : (raiseSource 6 s).xcl.clockBlank := by
  refine ⟨raiseSource_safe .., ?_, ?_⟩
  · rw [raiseSource_active, BitVec.getLsbD_or, show (bit1 12 6).getLsbD 6 = true from rfl, Bool.or_true]
  · rw [raiseSource_latch, if_neg (by decide), BitVec.getLsbD_or, show (bit1 12 6).getLsbD 6 = true from rfl, Bool.or_true]

theorem raiseSource_clockBlank (code : Nat) (h : s.xcl.clockBlank) : (raiseSource code s).xcl.clockBlank := by
  obtain ⟨-, ha, hl⟩ := h
  refine ⟨raiseSource_safe .., ?_, ?_⟩
  · rw [raiseSource_active, BitVec.getLsbD_or, ha, Bool.true_or]
  · rw [raiseSource_latch]
    split
    · exact hl
    · rw [BitVec.getLsbD_or, hl, Bool.true_or]

theorem lockstepError_clockBlank (b : Bool) (h : s.xcl.clockBlank) : (lockstepError b s).xcl.clockBlank := by
  obtain e | ⟨u, hu, e⟩ := lockstepError_cases s b
  · rwa [e]
  · rw [xcl_of_still e]
    exact raiseSource_clockBlank u 10 (xcl_of_still hu ▸ h)

theorem clockResponse_clockBlank (m : Nat) (h : s.xcl.clockBlank) : (clockResponse m s).xcl.clockBlank := by
  by_cases h03 : m = 0 ∨ m = 3
  · obtain ⟨u, hu, e⟩ := clockResponse_timebase s h03
    rwa [e, xcl_of_still hu, timebaseFault_xcl]
  · by_cases h1 : m = 1
    · subst h1
      exact lockstepError_clockBlank s false h
    · rwa [xcl_of_still (clockResponse_still s (by tauto) h1 (by tauto))]

/-! ## A monitor's fault and its end (R32, R33) -/

/-- A fault moves, of the registers of R33, its sticky bit and the count. -/
theorem clockFault_base (m : Nat) : (clockFault m s).base =
    (s.onMgt fun x => { x with clkSticky := x.clkSticky ||| bit1 16 m, clkFaultCnt := sat x.clkFaultCnt }).base := by
  have hr (u : State) : (clkRaise (bit1 16 m) u).base = (u.onMgt fun x => { x with clkSticky := x.clkSticky ||| bit1 16 m }).base :=
    only_base (clkRaise_only _ _ (onlyReports_refl _))
  rw [clockFault, clockResponse_base]
  split
  · rw [raiseSource_base, hr]
    rfl
  · rw [hr]
    rfl

theorem clockFault_clockBlank {m : Nat} (h : blankMonitors.getLsbD m = true) : (clockFault m s).xcl.clockBlank := by
  rw [clockFault, if_pos h]
  exact clockResponse_clockBlank _ m (raiseSource_six _)

theorem dropSource_active (code : Nat) : (dropSource code s).xcl.active = s.xcl.active &&& ~~~(bit1 12 code) := rfl

/-- The status without a monitor that reports good, and source 6 inactive when no monitor whose response is Blank is left. -/
def clockCleared (m : Nat) (s : State) : State :=
  let u := s.onMgt fun x => { x with clkStatus := x.clkStatus &&& ~~~(bit1 16 m) }
  if blankMonitors.getLsbD m && u.mgt.clkStatus &&& blankMonitors == 0 then dropSource 6 u else u

theorem clockCleared_clkStatus (m : Nat) : (clockCleared m s).mgt.clkStatus = s.mgt.clkStatus &&& ~~~(bit1 16 m) := by
  unfold clockCleared
  lift_lets
  intro u
  split <;> rfl

theorem clockCleared_latch (m : Nat) : (clockCleared m s).xcl.latch = s.xcl.latch := by
  unfold clockCleared
  lift_lets
  intro u
  split <;> rfl

theorem clockCleared_active {m : Nat} (hb : blankMonitors.getLsbD m = true)
    (hz : s.mgt.clkStatus &&& ~~~(bit1 16 m) &&& blankMonitors = 0) : (clockCleared m s).xcl.active.getLsbD 6 = false := by
  have hc : (blankMonitors.getLsbD m && s.mgt.clkStatus &&& ~~~(bit1 16 m) &&& blankMonitors == 0) = true := by
    rw [hb, hz]
    rfl
  have hd : clockCleared m s = dropSource 6 (s.onMgt fun x => { x with clkStatus := x.clkStatus &&& ~~~(bit1 16 m) }) := if_pos hc
  rw [hd, dropSource_active, BitVec.getLsbD_and, show (~~~(bit1 12 6)).getLsbD 6 = false from rfl, Bool.and_false]

/-- What a monitor that reports good brings back moves neither the exclusion engine nor the registers of R33. -/
theorem clockRestored_still (m : Nat) : (if m = 5 then fabricClockGood s else if m = 7 then engineClock true s
    else if 12 ≤ m then quadGood (m - 12) s else s).still = s.still := by
  repeat' split
  all_goals simp

end

/-- The monitors whose response is Blank. -/
theorem blankMonitors_of_mem {m : Fin 16} (h : m.val ∈ [0, 1, 2, 3, 4, 7, 9]) : blankMonitors.getLsbD m.val = true := by
  revert m
  decide

theorem execClockMonitorFault_live {m : Fin 16} {s : State} (hl : s.live = true) (hg : s.mgt.clkStatus.getLsbD m.val = false) :
    execClockMonitorFault m s =
      .next (clockFault m.val (s.onMgt fun x => { x with clkStatus := x.clkStatus ||| bit1 16 m.val })) := by
  have hp : s.powered = true := by
    simp only [State.live, Bool.and_eq_true] at hl
    obtain ⟨⟨⟨hp, -⟩, -⟩, -⟩ := hl
    exact hp
  have hlive : (s.onMgt fun x => { x with clkStatus := x.clkStatus ||| bit1 16 m.val }).live = true := hl
  rw [execClockMonitorFault, if_neg (by rw [hp, hg]; decide), if_pos hlive]

theorem execClockMonitorGood_bad {m : Fin 16} {s : State} (hp : s.powered = true) (hb : s.mgt.clkStatus.getLsbD m.val = true) :
    ∃ t, execClockMonitorGood m s = .next t ∧ t.still = (clockCleared m.val s).still := by
  refine ⟨_, ?_, clockRestored_still (clockCleared m.val s) m.val⟩
  rw [execClockMonitorGood, if_neg (by rw [hp, hb]; decide)]
  rfl

end Sys2Proof.Machine

namespace Sys2Proof.Proofs
open Sys2Proof.Machine

/-- Settles O45: a fault is recorded, counted and, for a monitor whose response is Blank, raises source 6, which ends with the last of
them. -/
theorem clockMonitorsRecordAndBlank : Obligations.ClockMonitorsRecordAndBlank := by
  refine ⟨fun m s hl hg => ⟨_, execClockMonitorFault_live hl hg, ?_, ?_, ?_, fun h => ?_⟩, fun m s hp hb => ?_⟩
  · exact base_clkStatus (clockFault_base ..)
  · exact base_clkSticky (clockFault_base ..)
  · exact base_clkFaultCnt (clockFault_base ..)
  · exact clockFault_clockBlank _ (blankMonitors_of_mem h)
  · obtain ⟨t, ht, he⟩ := execClockMonitorGood_bad hp hb
    have hc : t.mgt.clkStatus = s.mgt.clkStatus &&& ~~~(bit1 16 m.val) := by
      rw [base_clkStatus (base_of_still he), clockCleared_clkStatus]
    refine ⟨t, ht, hc, ?_, fun h hz => ?_⟩
    · rw [xcl_of_still he, clockCleared_latch]
    · rw [hc] at hz
      rw [xcl_of_still he]
      exact clockCleared_active s (blankMonitors_of_mem h) hz

end Sys2Proof.Proofs
end

section
/-!
PROOFS. Allotments: what an allotment's boundary leaves of the ports' allotments (R24).
-/
namespace Sys2Proof.Machine

/-! ## The ports' allotments -/

section
variable {s t : State}

theorem link_allot_of_still (h : t.still = s.still) (p : Nat) : (t.link p).allot = (s.link p).allot := by
  have e (u : State) : (u.link p).allot = (u.still.link p).allot := by
    simp only [State.link, State.still, nth]
    split
    · simp
    · rfl
  rw [e t, e s, h]

/-- Each port in turn takes the allotment that f gives it. -/
theorem link_allot_forN (g : Nat → LinkPort → LinkPort) (f : Nat → Allot) (hf : ∀ p l, (g p l).allot = f p) {n p : Nat} (hp : p < n) (h4 : p < 4)
    (s : State) : ((forN n (fun p s => s.onLink p (g p)) s).link p).allot = f p := by
  induction n with
  | zero => omega
  | succ n ih =>
    rw [forN]
    by_cases hn : n = p
    · rw [hn, State.onLink_self _ _ _ h4, hf]
    · rw [State.onLink_other _ _ _ _ hn, ih (by omega)]

end

section
variable (s : State)

@[simp] theorem still_toIdle (k : Nat) (w : Bool) : (toIdle k w s).still = s.still := rfl
@[simp] theorem still_toBcAlign (k : Nat) : (toBcAlign k s).still = s.still := rfl

theorem still_eachOctet (p : Nat) {f : Nat → State → State} (hf : ∀ k t, (f k t).still = t.still) : (eachOctet p f s).still = s.still :=
  still_foldl s (fun t k => hf k t) _

@[simp] theorem still_trainFail (p : Nat) : (trainFail p s).still = s.still := by
  rw [trainFail, still_ahmFollow, still_eachOctet, still_onLink]
  · exact fun _ => rfl
  · intro k t
    split
    · exact still_octRaise ..
    · rfl

@[simp] theorem still_togetherTrain (p : Nat) : (togetherTrain p s).still = s.still := by
  unfold togetherTrain
  split
  · exact still_trainFail ..
  · split
    · exact still_eachOctet _ _ fun k t => still_toEight ..
    · rfl

@[simp] theorem still_tryTrain (p : Nat) : (tryTrain p s).still = s.still := by
  unfold tryTrain
  split
  · rw [still_ahmFollow, still_togetherTrain]
  · rfl

@[simp] theorem still_checkAllot : (checkAllot s).still = s.still := by
  unfold checkAllot
  lift_lets
  intro u
  have hu : u.still = s.still := by
    refine still_forN s (fun p t => ?_) 4
    split
    · exact still_onLink _ _ fun _ => rfl
    · rfl
  clear_value u
  split
  · exact hu
  · split
    · exact hu
    · exact (still_complete ..).trans hu

/-- At its boundary each port's allotment becomes that of the command (R24). -/
theorem applyAllot_allot (h : Held) {p : Nat} (hp : p < 4) : ((applyAllot h s).link p).allot = parseAllot (Cmd.payload h.cmd) p := by
  unfold applyAllot
  lift_lets
  intro as s0 old same changed leave s1 s2 s3 s4 s5
  have h2 : (s2.link p).allot = parseAllot (Cmd.payload h.cmd) p := by
    refine (link_allot_forN _ (fun p => as.getD p {}) (fun _ _ => rfl) hp hp s1).trans ?_
    interval_cases p <;> rfl
  have h3 : s3.still = s2.still := by
    refine still_foldl s2 (fun t p => ?_) changed
    rw [still_portDown, still_eachOctet t p fun k u => ?_]
    exact still_toBcAlign u k
  have h4 : s4.still = s3.still := still_foldl s3 (fun t h => still_complete ..) leave
  have h5 : s5.still = s4.still := by
    refine still_forN s4 (fun k t => ?_) 16
    exact still_onOctet ..
  clear_value s5 s4 s3 s2
  rw [link_allot_of_still (s := s5), link_allot_of_still (h5.trans (h4.trans h3)), h2]
  rw [still_checkAllot, still_forN _ fun p t => still_tryTrain ..]
  rfl

end

end Sys2Proof.Machine
end

section
/-!
PROOFS. The LINK commands. O27 is settled here.
-/
namespace Sys2Proof.Machine

/-- A pending allotment that no APPLY_AT holds applies at its boundary, after its APPLY entry. -/
theorem applyHeld_linkAllot {h : Held} (ho : h.opcode = 0x0600) (hd : h.due = none) (s : State) :
    applyHeld h s = applyEpoch h (journalApply h s).hif.jseq (applyAllotment h (journalApply h s)) := by
  have hf : (boundaryOps.find? fun x => x.op == h.opcode) = some specLinkAllot := by
    rw [ho]
    rfl
  unfold applyHeld
  rw [hf]
  simp only [hd, Option.isNone_none, if_true, ho, show specLinkAllot.late = false from rfl, Bool.false_eq_true, if_false]
  rfl

theorem applyEpoch_only (h : Held) (j : BitVec 64) (s : State) : onlyReports s (applyEpoch h j s) :=
  only_onHif (onlyReports_refl s) _ rfl

theorem applyEpoch_link (h : Held) (j : BitVec 64) (s : State) (p : Nat) : (applyEpoch h j s).link p = s.link p := rfl
theorem applyAllotment_link (h : Held) (s : State) (p : Nat) : (applyAllotment h s).link p = (applyAllot h s).link p := by
  rw [applyAllotment, State.link, State.onSeq_glk, State.link]

end Sys2Proof.Machine
namespace Sys2Proof.Proofs
open Sys2Proof.Machine

/-- Settles O27: each command's effect is the one named, and a pending allotment gives each port its part at the boundary. -/
theorem linkCommandsSetOctets : Obligations.LinkCommandsSetOctets := by
  refine ⟨completes_of_effect (fun _ _ => rfl) fun c s h u t hu hc ho ht => ⟨h, hc, ho, onlyReports_trans (same_onGlk hu _) ht⟩,
    completes_of_effect (fun _ _ => rfl) fun c s h u t hu hc _ ht => ?_,
    completes_of_effect (fun _ _ => rfl) fun c s h u t hu hc ho ht => ⟨h, hc, ho, u, hu, ?_⟩,
    completes_of_effect (fun _ _ => rfl) fun c s h u t hu hc _ ht => ?_,
    fun h s ho hd => ?_⟩
  · subst hc
    exact onlyReports_trans (same_onGlk hu _) ht
  · subst hc
    exact ht
  · subst hc
    exact onlyReports_trans (pruneDoms_same (same_onGlk hu _)) ht
  · rw [applyHeld_linkAllot ho hd]
    refine ⟨⟨journalApply h s, journalApply_only _ _ (onlyReports_refl s), applyEpoch_only ..⟩, fun p hp => ?_⟩
    rw [applyEpoch_link, applyAllotment_link]
    exact applyAllot_allot (journalApply h s) h hp

end Sys2Proof.Proofs
end

section
/-!
PROOFS. Memory that is wiped (R484): the protected plane stores, canvas surfaces and buffers that a reset lets go, and what a wipe leaves.
-/
namespace Sys2Proof.Machine

/-! ## Memory that is wiped (R484) -/

/-- No cell of the memory stands at address a. -/
def memBlank (m : List Host.Cell) (a : Nat) : Prop := ∀ c ∈ m, c.1 ≠ a

theorem memGet_of_memBlank {m : List Host.Cell} {a : Nat} (h : memBlank m a) : memGet m a = 0 := by
  induction m with
  | nil => rfl
  | cons c m ih =>
    obtain ⟨x, b⟩ := c
    rw [memGet, if_neg (h (x, b) List.mem_cons_self), ih fun c hc => h c (List.mem_cons_of_mem _ hc)]
    split <;> rfl

theorem memBlank_memClear {m : List Host.Cell} {a lo hi : Nat} (h : memBlank m a ∨ lo ≤ a ∧ a < hi) : memBlank (memClear m lo hi) a := by
  intro c hc
  obtain ⟨hm, hp⟩ := List.mem_filter.mp hc
  simp only [Bool.or_eq_true, decide_eq_true_eq] at hp
  rcases h with h | ⟨hlo, hhi⟩
  · exact h c hm
  · omega

/-! ## What a wipe changes -/

/-- The state without memory and without the render fabric. -/
def State.outside (s : State) : State := { s with mem := {}, fab := {} }

section
variable (s : State)

/-- What no wipe of general memory touches is as before a canvas is wiped. -/
theorem wipeCanvas_untouched {β : Type} {g : State → β} (hw : ∀ a n t, g (wipe .general a n t) = g t)
    (hv : ∀ v f t, g (t.onFview v f) = g t) (v : Nat) : g (wipeCanvas v s) = g s := by
  rw [wipeCanvas, hv]
  refine foldl_keeps (fun t c => ?_) _ s
  split
  · exact hw ..
  · rfl

@[simp] theorem outside_wipeCanvas (v : Nat) : (wipeCanvas v s).outside = s.outside :=
  wipeCanvas_untouched s (fun _ _ _ => rfl) (fun _ _ _ => rfl) v
@[simp] theorem plane_wipeCanvas (v : Nat) : (wipeCanvas v s).mem.plane = s.mem.plane :=
  wipeCanvas_untouched s (g := fun t => t.mem.plane) (fun _ _ _ => rfl) (fun _ _ _ => rfl) v
@[simp] theorem reserve_wipeCanvas (v : Nat) : (wipeCanvas v s).mem.reserve = s.mem.reserve :=
  wipeCanvas_untouched s (g := fun t => t.mem.reserve) (fun _ _ _ => rfl) (fun _ _ _ => rfl) v

/-- The plane store of view v is wiped when it is protected, and then its canvas. -/
def wipeView (v : Nat) (s : State) : State :=
  wipeCanvas v (if (s.store v).isProtected then wipe .plane (s.store v).base (storeSize (s.store v)) s else s)

theorem wipePictures_eq : wipePictures s = forN 5 wipeView s := rfl

@[simp] theorem outside_wipeView (v : Nat) : (wipeView v s).outside = s.outside := by
  rw [wipeView, outside_wipeCanvas]
  split <;> rfl

@[simp] theorem reserve_wipeView (v : Nat) : (wipeView v s).mem.reserve = s.mem.reserve := by
  rw [wipeView, reserve_wipeCanvas]
  split <;> rfl

theorem outside_wipePictures : (wipePictures s).outside = s.outside := by
  rw [wipePictures_eq, forN_keeps fun v t => outside_wipeView t v]
theorem reserve_wipePictures : (wipePictures s).mem.reserve = s.mem.reserve := by
  rw [wipePictures_eq]
  exact forN_keeps (g := fun t => t.mem.reserve) (fun v t => reserve_wipeView t v) _ s

/-- What no wipe of general memory touches is as before buffers are wiped. -/
theorem wipeBuffers_untouched {β : Type} {g : State → β} (hw : ∀ a n t, g (wipe .general a n t) = g t) (f : Buffer → Bool) :
    g (wipeBuffers f s) = g s := by
  refine foldl_keeps (fun t b => ?_) _ s
  split
  · exact hw ..
  · rfl

/-- No buffer is wiped when none is to be. -/
theorem wipeBuffers_none {f : Buffer → Bool} (h : ∀ b ∈ s.cmp.bufs, f b = false) : wipeBuffers f s = s := by
  unfold wipeBuffers
  generalize s.cmp.bufs = l at h
  induction l with
  | nil => rfl
  | cons b l ih =>
    rw [List.foldl_cons, h b List.mem_cons_self]
    exact ih fun b hb => h b (List.mem_cons_of_mem _ hb)

end

section
variable {s t : State}

theorem store_of_outside (h : t.outside = s.outside) (v : Nat) : t.store v = s.store v :=
  show t.outside.store v = s.outside.store v by rw [h]

/-! ## Plane stores that a warm reset lets go -/

theorem plane_wipeView_unprotected {v : Nat} (h : (s.store v).isProtected = false) : (wipeView v s).mem.plane = s.mem.plane := by
  rw [wipeView, plane_wipeCanvas, if_neg (by rw [h]; decide)]

theorem plane_wipeView_blank {v a : Nat} (h : memBlank s.mem.plane a ∨
    (s.store v).isProtected = true ∧ (s.store v).base ≤ a ∧ a < (s.store v).base + storeSize (s.store v)) : memBlank (wipeView v s).mem.plane a := by
  rw [wipeView, plane_wipeCanvas]
  split
  · exact memBlank_memClear (h.imp_right And.right)
  · rename_i hp
    exact h.resolve_right fun hk => hp hk.1

theorem store_forN_wipeView (n v : Nat) (s : State) : (forN n wipeView s).store v = s.store v :=
  store_of_outside (forN_keeps (fun v t => outside_wipeView t v) n s) v

theorem plane_wipePictures_unprotected (h : ∀ v, v < 5 → (s.store v).isProtected = false) : (wipePictures s).mem.plane = s.mem.plane := by
  have hn (n : Nat) (hn : n ≤ 5) : (forN n wipeView s).mem.plane = s.mem.plane := by
    induction n with
    | zero => rfl
    | succ n ih =>
      rw [forN, plane_wipeView_unprotected, ih (by omega)]
      rw [store_forN_wipeView]
      exact h n hn
  rw [wipePictures_eq]
  exact hn 5 (le_refl 5)

theorem plane_wipePictures_blank {v k : Nat} (hv : v < 5) (hp : (s.store v).isProtected = true) (hk : k < storeSize (s.store v)) :
    memBlank (wipePictures s).mem.plane ((s.store v).base + k) := by
  have hn (n : Nat) (hn : v < n) : memBlank (forN n wipeView s).mem.plane ((s.store v).base + k) := by
    induction n with
    | zero => omega
    | succ n ih =>
      rw [forN]
      refine plane_wipeView_blank ?_
      by_cases he : n = v
      · subst he
        rw [store_forN_wipeView]
        exact .inr ⟨hp, by omega, by omega⟩
      · exact .inl (ih (by omega))
  rw [wipePictures_eq]
  exact hn 5 hv

/-! ## Canvas surfaces that a warm reset lets go -/

/-- A canvas none of whose surfaces is secret is not wiped. -/
theorem wipeCanvas_open {v : Nat} (h : ∀ i, canvasSecret v i s = false) : wipeCanvas v s = s.onFview v fun f => { f with secret := [] } := by
  rw [wipeCanvas]
  congr 1
  generalize (s.fview v).canvas.zipIdx = l
  induction l with
  | nil => rfl
  | cons c l ih => rw [List.foldl_cons, h, if_neg Bool.false_ne_true, ih]

theorem canvasSecret_onFview {v w i : Nat} (hv : v < 5) (h : canvasSecret w i s = false) :
    canvasSecret w i (s.onFview v fun f => { f with secret := [] }) = false := by
  by_cases he : v = w
  · subst he
    simp only [canvasSecret, Bool.or_eq_false_iff] at h ⊢
    exact ⟨h.1, by rw [State.onFview_self _ _ _ hv]; rfl⟩
  · rw [canvasSecret, State.onFview_other _ _ _ _ he]
    exact h

/-- A plane store that is wiped leaves the canvases as they are. -/
theorem canvasSecret_wipeStore (v w i : Nat) (s : State) :
    canvasSecret w i (if (s.store v).isProtected then wipe .plane (s.store v).base (storeSize (s.store v)) s else s) = canvasSecret w i s := by
  split <;> rfl

/-- Views whose surfaces are not secret have none after one of them is wiped. -/
theorem canvasSecret_wipeView {v w i : Nat} (hv : v < 5) (hs : ∀ i, canvasSecret v i s = false) (h : canvasSecret w i s = false) :
    canvasSecret w i (wipeView v s) = false := by
  rw [wipeView, wipeCanvas_open fun i => by rw [canvasSecret_wipeStore, hs]]
  exact canvasSecret_onFview hv (by rw [canvasSecret_wipeStore, h])

theorem general_wipeView {v : Nat} (h : ∀ i, canvasSecret v i s = false) : (wipeView v s).mem.general = s.mem.general := by
  rw [wipeView, wipeCanvas_open fun i => by rw [canvasSecret_wipeStore, h], State.onFview, State.onFab_mem]
  split <;> rfl

theorem general_wipePictures (h : ∀ v i, v < 5 → canvasSecret v i s = false) : (wipePictures s).mem.general = s.mem.general := by
  have hn (n : Nat) (hn : n ≤ 5) : (forN n wipeView s).mem.general = s.mem.general ∧ ∀ v i, v < 5 → canvasSecret v i (forN n wipeView s) = false := by
    induction n with
    | zero => exact ⟨rfl, h⟩
    | succ n ih =>
      obtain ⟨hg, hs⟩ := ih (by omega)
      have hsn (i : Nat) := hs n i hn
      exact ⟨(general_wipeView hsn).trans hg, fun v i hv => canvasSecret_wipeView hn hsn (hs v i hv)⟩
  rw [wipePictures_eq]
  exact (hn 5 (le_refl 5)).1

end
end Sys2Proof.Machine
end

section
/-!
PROOFS. Entry into a reset (R528 to R530): source 11, what the entry leaves of media and ownership, and the device that a warm reset lets go.
-/
namespace Sys2Proof.Machine

/-! ## What the entry into a reset leaves as it is (R528, R530) -/

/-- What of a state holds pictures, data, calibration and ownership. -/
def State.media (s : State) : State :=
  { ({} : State) with
    seq := s.seq, cal := s.cal, slc := s.slc, cmp := s.cmp, fab := s.fab, mem := s.mem
    hif := { ({} : Hif) with cfgOwner := s.hif.cfgOwner, portOwner := s.hif.portOwner } }

section
variable {s t : State}

theorem seq_of_outside (h : t.outside = s.outside) : t.seq = s.seq := show t.outside.seq = s.outside.seq by rw [h]
theorem cal_of_outside (h : t.outside = s.outside) : t.cal = s.cal := show t.outside.cal = s.outside.cal by rw [h]
theorem hif_of_outside (h : t.outside = s.outside) : t.hif = s.hif := show t.outside.hif = s.outside.hif by rw [h]
theorem xcl_of_outside (h : t.outside = s.outside) : t.xcl = s.xcl := show t.outside.xcl = s.outside.xcl by rw [h]

section
variable (h : t.media = s.media)
include h

theorem seq_of_media : t.seq = s.seq := show t.media.seq = s.media.seq by rw [h]
theorem cal_of_media : t.cal = s.cal := show t.media.cal = s.media.cal by rw [h]
theorem cmp_of_media : t.cmp = s.cmp := show t.media.cmp = s.media.cmp by rw [h]
theorem mem_of_media : t.mem = s.mem := show t.media.mem = s.media.mem by rw [h]
theorem store_of_media (v : Nat) : t.store v = s.store v := show t.media.store v = s.media.store v by rw [h]
theorem canvasSecret_of_media (v i : Nat) : canvasSecret v i t = canvasSecret v i s :=
  show canvasSecret v i t.media = canvasSecret v i s.media by rw [h]
theorem cfgOwner_of_media : t.hif.cfgOwner = s.hif.cfgOwner := show t.media.hif.cfgOwner = s.media.hif.cfgOwner by rw [h]
theorem portOwner_of_media : t.hif.portOwner = s.hif.portOwner := show t.media.hif.portOwner = s.media.hif.portOwner by rw [h]

end
end

theorem only_media {s t : State} (h : onlyReports s t) : t.media = s.media := show t.settings.media = s.settings.media by rw [h]

section
variable (s : State)

theorem media_stickyUp {w : Nat} (vec off : Nat) (old b : BitVec w) : (stickyUp vec off old b s).media = s.media :=
  only_media (stickyUp_only _ _ _ _ s (onlyReports_refl s))

theorem media_journalAdd (e : JEntry) : (journalAdd e s).media = s.media := only_media (journalAdd_only e s (onlyReports_refl s))

theorem media_logRec (vec code : Nat) (off bits : BitVec 32) : (logRec vec code off bits s).media = s.media :=
  only_media (logRec_only _ _ _ _ s (onlyReports_refl s))

theorem raiseSource_media (code : Nat) : (raiseSource code s).media = s.media :=
  raiseSource_untouched (g := State.media) (fun _ _ => rfl) (fun _ => rfl) media_stickyUp media_logRec code s

theorem endSession_media (h : HostId) (cause : Nat) : (endSession h cause s).media = s.media := by
  unfold endSession
  split
  · exact media_journalAdd ..
  · rfl

/-- Entry into a reset: source 11 is raised, and what it does beside that moves neither the exclusion engine nor the media. -/
theorem enterReset_from_raise : (enterReset s).media = (raiseSource 11 s).media ∧ (enterReset s).xcl = (raiseSource 11 s).xcl := by
  unfold enterReset
  lift_lets
  intro s1 s2 s3 s4
  have h1 : s1.media = (raiseSource 11 s).media ∧ s1.xcl = (raiseSource 11 s).xcl := by
    show (if s.xcl.safe then strobe0 (raiseSource 11 s) else raiseSource 11 s).media = _ ∧
      (if s.xcl.safe then strobe0 (raiseSource 11 s) else raiseSource 11 s).xcl = _
    split <;> exact ⟨rfl, rfl⟩
  have h2 : s2.media = s1.media ∧ s2.xcl = s1.xcl :=
    ⟨((endSession_media ..).trans (endSession_media ..)).trans (endSession_media ..),
      xcl_of_still (((still_endSession ..).trans (still_endSession ..)).trans (still_endSession ..))⟩
  have h3 : s3.media = s2.media ∧ s3.xcl = s2.xcl := by
    constructor
    · refine forN_keeps (fun p t => ?_) 4 s2
      split
      · exact media_stickyUp ..
      · rfl
    · refine forN_keeps (g := State.xcl) (fun p t => ?_) 4 s2
      split
      · exact xcl_of_still (still_ahmRaise ..)
      · rfl
  clear_value s3 s2 s1
  exact ⟨(h3.1.trans h2.1).trans h1.1, (h3.2.trans h2.2).trans h1.2⟩

theorem enterReset_media : (enterReset s).media = s.media := (enterReset_from_raise s).1.trans (raiseSource_media s 11)

/-- Source 11 latches, and it is a first entry of the safe state when none was in force (R528, R530). -/
theorem enterReset_xcl : ∃ k c f, (enterReset s).xcl = { s.xcl.raised 11 with safeTick := k, safeCode := c, safeFrame := f } := by
  rw [(enterReset_from_raise s).2]
  exact raiseSource_xcl 11 s

end

/-! ## Entry into a warm reset (R529) -/

/-- The device that a warm reset lets go: its entry is done, and its secrets are wiped. -/
def warmLeft (s : State) : State := wipePictures (wipeBuffers (fun b => b.isProtected && b.freePending.isSome) (enterReset s))

section
variable (s : State)

theorem warmLeft_outside : (warmLeft s).outside = (enterReset s).outside := by
  rw [warmLeft, outside_wipePictures, wipeBuffers_untouched (g := State.outside) _ fun _ _ _ => rfl]

theorem warmLeft_seq : (warmLeft s).seq = s.seq := (seq_of_outside (warmLeft_outside s)).trans (seq_of_media (enterReset_media s))
theorem warmLeft_cal : (warmLeft s).cal = s.cal := (cal_of_outside (warmLeft_outside s)).trans (cal_of_media (enterReset_media s))
theorem warmLeft_cfgOwner : (warmLeft s).hif.cfgOwner = s.hif.cfgOwner :=
  (congrArg Hif.cfgOwner (hif_of_outside (warmLeft_outside s))).trans (cfgOwner_of_media (enterReset_media s))
theorem warmLeft_portOwner : (warmLeft s).hif.portOwner = s.hif.portOwner :=
  (congrArg Hif.portOwner (hif_of_outside (warmLeft_outside s))).trans (portOwner_of_media (enterReset_media s))
theorem warmLeft_xcl : (warmLeft s).xcl = (enterReset s).xcl := xcl_of_outside (warmLeft_outside s)

theorem enterReset_mem : (enterReset s).mem = s.mem := mem_of_media (enterReset_media s)
theorem enterReset_bufs : (enterReset s).cmp.bufs = s.cmp.bufs := congrArg Cmp.bufs (cmp_of_media (enterReset_media s))
theorem enterReset_store (v : Nat) : (enterReset s).store v = s.store v := store_of_media (enterReset_media s) v
theorem enterReset_canvasSecret (v i : Nat) : canvasSecret v i (enterReset s) = canvasSecret v i s :=
  canvasSecret_of_media (enterReset_media s) v i

theorem store_wipeBuffers (f : Buffer → Bool) (v : Nat) (t : State) : (wipeBuffers f t).store v = t.store v :=
  wipeBuffers_untouched t (g := fun u => u.store v) (fun _ _ _ => rfl) f

theorem warmLeft_plane (h : ∀ v, v < 5 → (s.store v).isProtected = false) : (warmLeft s).mem.plane = s.mem.plane := by
  rw [warmLeft, plane_wipePictures_unprotected, wipeBuffers_untouched (g := fun u => u.mem.plane) _ fun _ _ _ => rfl, enterReset_mem]
  intro v hv
  rw [store_wipeBuffers, enterReset_store, h v hv]

theorem warmLeft_plane_wiped {v k : Nat} (hv : v < 5) (hp : (s.store v).isProtected = true) (hk : k < storeSize (s.store v)) :
    memGet (warmLeft s).mem.plane ((s.store v).base + k) = 0 := by
  refine memGet_of_memBlank ?_
  have he (f : Buffer → Bool) : (wipeBuffers f (enterReset s)).store v = s.store v := by rw [store_wipeBuffers, enterReset_store]
  rw [warmLeft, ← he]
  exact plane_wipePictures_blank hv (by rw [he, hp]) (by rwa [he])

theorem warmLeft_general (hb : ∀ b ∈ s.cmp.bufs, b.isProtected = true → b.freePending = none)
    (hc : ∀ v i, v < 5 → canvasSecret v i s = false) : (warmLeft s).mem.general = s.mem.general := by
  have hw : wipeBuffers (fun b => b.isProtected && b.freePending.isSome) (enterReset s) = enterReset s := by
    refine wipeBuffers_none _ fun b hm => ?_
    rw [enterReset_bufs] at hm
    cases hp : b.isProtected with
    | false => rfl
    | true => rw [hb b hm hp]; rfl
  rw [warmLeft, hw, general_wipePictures, enterReset_mem]
  intro v i hv
  rw [enterReset_canvasSecret, hc v i hv]

theorem warmLeft_reserve : (warmLeft s).mem.reserve = s.mem.reserve := by
  rw [warmLeft, reserve_wipePictures, wipeBuffers_untouched (g := fun u => u.mem.reserve) _ fun _ _ _ => rfl, enterReset_mem]

end
end Sys2Proof.Machine
end

section
/-!
PROOFS. The device that WRST_N, PORST_N or the supply holds (R504 to R506, R528, R529).
-/
namespace Sys2Proof.Machine

/-! ## The device in a reset -/

/-- The device that WRST_N holds, from what the entry left. -/
def wrstHeld (u : State) : State := { (warmState u) with wrst := true }

theorem execWrstNAssert_live {s : State} (h : s.live = true) : execWrstNAssert s = .next (wrstHeld (warmLeft s)) := by
  rw [execWrstNAssert, if_pos h]
  rfl

section
variable (u : State)

theorem wrstHeld_wrst : (wrstHeld u).wrst = true := rfl
theorem wrstHeld_live : (wrstHeld u).live = false := by simp [State.live, wrstHeld]
theorem wrstHeld_phase : (wrstHeld u).phase = 0 := rfl
theorem wrstHeld_st : (wrstHeld u).tim.st = .unlocked := rfl
theorem wrstHeld_seq : (wrstHeld u).seq = u.seq.warm := rfl
theorem wrstHeld_cal : (wrstHeld u).cal = u.cal := rfl
theorem wrstHeld_cfgOwner : (wrstHeld u).hif.cfgOwner = u.hif.cfgOwner := rfl
theorem wrstHeld_portOwner : (wrstHeld u).hif.portOwner = u.hif.portOwner := rfl
theorem wrstHeld_plane : (wrstHeld u).mem.plane = u.mem.plane := rfl
theorem wrstHeld_general : (wrstHeld u).mem.general = u.mem.general := rfl
theorem wrstHeld_reserve : (wrstHeld u).mem.reserve = u.mem.reserve := rfl
theorem wrstHeld_safe : (wrstHeld u).xcl.safe = true := rfl
theorem wrstHeld_latch : (wrstHeld u).xcl.latch = u.xcl.latch ||| 0x800 := rfl
theorem wrstHeld_safeCnt : (wrstHeld u).xcl.safeCnt = u.xcl.safeCnt := rfl
theorem wrstHeld_sticky : (wrstHeld u).xcl.sticky = u.xcl.sticky := rfl

end

section
variable (s : State)

theorem warmLeft_latch : (warmLeft s).xcl.latch = s.xcl.latch ||| 0x800 := by
  obtain ⟨k, c, f, h⟩ := enterReset_xcl s
  rw [warmLeft_xcl, h]
  rfl
theorem warmLeft_safeCnt : (warmLeft s).xcl.safeCnt = if s.xcl.safe then s.xcl.safeCnt else sat s.xcl.safeCnt := by
  obtain ⟨k, c, f, h⟩ := enterReset_xcl s
  rw [warmLeft_xcl, h]
  rfl
theorem warmLeft_sticky : (warmLeft s).xcl.sticky = s.xcl.sticky ||| 0x800 := by
  obtain ⟨k, c, f, h⟩ := enterReset_xcl s
  rw [warmLeft_xcl, h]
  rfl

end

/-! ## The supply (R504 to R506) and PORST_N -/

theorem execUvloFalling_powered {s : State} (mv : BitVec 16) (h : s.powered = true) : ∃ t, execUvloFalling mv s = .next t ∧
    t.powered = false ∧ t.live = false ∧ t.xcl.safe = true ∧ t.pwr.vin = mv ∧ t.seq = {} ∧ t.mem.plane = [] ∧ t.mem.general = [] ∧
    t.hif.journal = s.hif.journal.filter fun e => e.jseq.toNat ≤ s.hif.jhead.toNat := by
  rw [execUvloFalling, if_neg (by rw [h]; decide)]
  exact ⟨_, rfl, rfl, rfl, rfl, rfl, rfl, rfl, rfl, rfl⟩

/-- The pins and the supplies of a device. -/
def State.supply (s : State) : Bool × Bool × Pwr := (s.powered, s.porst, s.pwr)

theorem only_supply {s t : State} (h : onlyReports s t) : t.supply = s.supply := show t.settings.supply = s.settings.supply by rw [h]

theorem stickyUp_supply {w : Nat} (vec off : Nat) (old b : BitVec w) (s : State) : (stickyUp vec off old b s).supply = s.supply :=
  only_supply (stickyUp_only _ _ _ _ s (onlyReports_refl s))
theorem secRaise_supply (b : BitVec 9) (s : State) : (secRaise b s).supply = s.supply := stickyUp_supply ..
theorem logRec_supply (vec code : Nat) (off bits : BitVec 32) (s : State) : (logRec vec code off bits s).supply = s.supply :=
  only_supply (logRec_only _ _ _ _ s (onlyReports_refl s))

/-- What the enclave finds at power-up moves neither the pins nor the supplies. -/
theorem powerUpEnclave_supply (s : State) : (powerUpEnclave s).supply = s.supply := by
  unfold powerUpEnclave
  dsimp only
  split
  · rw [secRaise_supply, logRec_supply]
    rfl
  · split
    · rfl
    · split
      · exact secRaise_supply ..
      · rfl

theorem execUvloRising_unpowered {s : State} (mv : BitVec 16) (h : s.powered = false) : ∃ t, execUvloRising mv s = .next t ∧
    t.powered = true ∧ t.porst = true ∧ t.pwr.vin = mv := by
  have hs := powerUpEnclave_supply { s with powered := true, porst := true, pwr := { s.pwr with vin := mv } }
  rw [execUvloRising, if_neg (by rw [h]; decide)]
  exact ⟨_, rfl, congrArg (·.1) hs, congrArg (·.2.1) hs, congrArg (·.2.2.vin) hs⟩

/-- A cold reset leaves nothing of the ports, the stores, the buffers and the versions. -/
theorem execPorstNAssert_running {s : State} (h : s.porst = false) (hp : s.powered = true) : ∃ t, execPorstNAssert s = .next t ∧
    t.porst = true ∧ t.live = false ∧ t.xcl.safe = true ∧ t.coldReset = true ∧
    t.seq = {} ∧ t.slc = {} ∧ t.cmp = {} ∧ t.tim.st = .unlocked ∧ t.xcl.sets = ({} : Xcl).sets := by
  rw [execPorstNAssert, if_neg (by rw [h]; decide), if_neg (by rw [hp]; decide)]
  exact ⟨_, rfl, rfl, by simp [State.live], rfl, rfl, rfl, rfl, rfl, rfl, rfl⟩

end Sys2Proof.Machine
end

section
/-!
PROOFS. Exit from a reset (R569): its stages, and what becomes of the phase keeper under clocks that are bad (R32).
-/
namespace Sys2Proof.Machine

/-! ## The stages of a reset's exit (R569, R570) -/

/-- The device released: the phase keeper runs from a period boundary in LOCKED. -/
def resetLeft (s : State) : State :=
  { s with
    coldReset := false, phase := 0, relNs := s.ns, wrapped := false, raised := []
    frame := if s.coldReset then 0 else s.frame
    tim := { s.tim with st := .locked, src := 3, rateFrom := s.ns, boundNs := s.ns } }

/-- After a cold reset CONFIG has its boot owner and the ROM runs; after a warm one the epochs and the memory move on. -/
def resetModes (cold : Bool) (s : State) : State :=
  if cold then
    (s.onHif fun x => { x with cfgOwner := bootOwnerOf s }).onMgt fun m => { m with
      st := .rom, warm := false, allotNow := m.bootAllot, allotMade := m.bootAllot.isNone }
  else bumpEpochs (s.onMem memExit)

/-- The RESET entry, and the completions of the commands that the reset ended. -/
def exitReports (cold : Bool) (s : State) : State :=
  let s := logRec 20 3 0 0 (journalAdd { kind := .reset, detail := if cold then 0 else 1 } s)
  s.hif.resetEnds.foldl (fun s h => complete h .resetAborted 0 s) (s.onHif fun x => { x with resetEnds := [] })

/-- The state in which the exit looks at the clocks. -/
def exitBegun (s : State) : State :=
  followMarks ((exitReports s.coldReset (reseedDraws (resetModes s.coldReset (resetLeft s)))).onMgt fun m => { m with clkLate := 0 })

theorem exitReset_eq (s : State) : exitReset s = forN 4 checkStuck (exitClocks s.coldReset s.mgt.clkLate (exitBegun s)) := rfl

/-! ## What the exit leaves of the pins, the frame and the clock status -/

/-- What of a state the pins hold, with the frame and the clock status. -/
def State.pins (s : State) : State := { s.base with mgt := { ({} : Mgt) with clkStatus := s.mgt.clkStatus } }

section
variable {s t : State}

theorem pins_of_base (h : t.base = s.base) : t.pins = s.pins := by rw [State.pins, h, base_clkStatus h, State.pins]

section
variable (h : t.pins = s.pins)
include h

theorem live_of_pins : t.live = s.live := show t.pins.live = s.pins.live by rw [h]
theorem phase_of_pins : t.phase = s.phase := show t.pins.phase = s.pins.phase by rw [h]
theorem straps_of_pins : t.straps = s.straps := show t.pins.straps = s.pins.straps by rw [h]

end
end

section
variable (s : State)

theorem exitReports_still (cold : Bool) : (exitReports cold s).still = s.still := by
  rw [exitReports, still_foldl _ fun t h => still_complete .., still_onHif, still_logRec, still_journalAdd]

theorem reseedDraws_still : (reseedDraws s).still = s.still := (still_onSec ..).trans (still_onMem ..)

theorem resetModes_base (cold : Bool) : (resetModes cold s).base = s.base := by cases cold <;> rfl
theorem resetModes_tim (cold : Bool) : (resetModes cold s).tim = s.tim := by cases cold <;> rfl

theorem clkLate_base (x : BitVec 16) : (s.onMgt fun m => { m with clkLate := x }).base = s.base := rfl

theorem exitBegun_base : (exitBegun s).base = (resetLeft s).base := by
  rw [exitBegun, followMarks_base, clkLate_base, base_of_still (exitReports_still ..), base_of_still (reseedDraws_still _), resetModes_base]

theorem exitBegun_tim : (exitBegun s).tim.st = .locked ∧ (exitBegun s).tim.src = 3 := by
  have h : (exitReports s.coldReset (reseedDraws (resetModes s.coldReset (resetLeft s)))).tim = (resetLeft s).tim := by
    rw [tim_of_still (exitReports_still ..), tim_of_still (reseedDraws_still _), resetModes_tim]
  rw [exitBegun, followMarks_st, followMarks_src, State.onMgt_tim, h]
  exact ⟨rfl, rfl⟩

/-! ## The clocks at the exit (R32) -/

theorem clockFault_pins (m : Nat) : (clockFault m s).pins = s.pins := by
  rw [State.pins, base_clkStatus (clockFault_base ..), clockFault_base]
  rfl

theorem clkRaise_tim (b : BitVec 16) : (clkRaise b s).tim = s.tim := tim_stickyUp (s.onMgt fun x => { x with clkSticky := x.clkSticky ||| b }) ..

/-- What a response finds of the phase keeper after the fault is recorded. -/
theorem clockFault_response (m : Nat) : ∃ u, u.tim = s.tim ∧ clockFault m s = clockResponse m u := by
  refine ⟨_, ?_, rfl⟩
  split
  · rw [raiseSource_tim, clkRaise_tim, State.onMgt_tim]
  · rw [clkRaise_tim, State.onMgt_tim]

theorem clockResponse_tim {m : Nat} (h0 : m ≠ 0) (h3 : m ≠ 3) : (clockResponse m s).tim = s.tim := by
  by_cases h1 : m = 1
  · subst h1
    exact lockstepError_tim s false
  · exact tim_of_still (clockResponse_still s h0 h1 h3)

theorem clockResponse_st {m : Nat} (h : m = 0 ∨ m = 3) : (clockResponse m s).tim.st = .unlocked := by
  obtain ⟨u, hu, e⟩ := clockResponse_timebase s h
  rw [e, tim_of_still hu, timebaseFault_st]

/-- What the exit does about one clock that is bad. -/
def exitClock (cold : Bool) (late : BitVec 16) (s : State) (m : Nat) : State :=
  if cold then clockFault m s
  else if (late.getLsbD m && m < 3) || m == 0 || m == 3 || m == 8 then clockResponse m s else s

theorem exitClocks_eq (cold : Bool) (late : BitVec 16) : exitClocks cold late s = (bitsOf 16 s.mgt.clkStatus.toNat).foldl (exitClock cold late)
    (if s.mgt.clkStatus &&& blankMonitors = 0 then s else raiseSource 6 s) := by
  have hc : (if s.mgt.clkStatus &&& blankMonitors = 0 then s else raiseSource 6 s).mgt.clkStatus = s.mgt.clkStatus := by
    split
    · rfl
    · exact base_clkStatus (raiseSource_base ..)
  exact congrArg (fun c : BitVec 16 => (bitsOf 16 c.toNat).foldl (exitClock cold late)
    (if s.mgt.clkStatus &&& blankMonitors = 0 then s else raiseSource 6 s)) hc

variable (cold : Bool) (late : BitVec 16)

theorem exitClock_pins (m : Nat) : (exitClock cold late s m).pins = s.pins := by
  unfold exitClock
  split
  · exact clockFault_pins ..
  · split
    · exact pins_of_base (clockResponse_base ..)
    · rfl

theorem exitClock_tim {m : Nat} (h0 : m ≠ 0) (h3 : m ≠ 3) : (exitClock cold late s m).tim = s.tim := by
  unfold exitClock
  split
  · obtain ⟨u, hu, e⟩ := clockFault_response s m
    rw [e, clockResponse_tim u h0 h3, hu]
  · split
    · exact clockResponse_tim s h0 h3
    · rfl

theorem exitClock_st {m : Nat} (h : m = 0 ∨ m = 3) : (exitClock cold late s m).tim.st = .unlocked := by
  unfold exitClock
  split
  · obtain ⟨u, -, e⟩ := clockFault_response s m
    rw [e, clockResponse_st u h]
  · rw [if_pos (by rcases h with rfl | rfl <;> simp)]
    exact clockResponse_st s h

theorem exitClocks_pins : (exitClocks cold late s).pins = s.pins := by
  rw [exitClocks_eq, foldl_keeps fun t m => exitClock_pins t cold late m]
  split
  · rfl
  · exact pins_of_base (raiseSource_base ..)

theorem exitClocks_start_tim : (if s.mgt.clkStatus &&& blankMonitors = 0 then s else raiseSource 6 s).tim = s.tim := by
  split
  · rfl
  · exact raiseSource_tim ..

theorem foldl_exitClock_tim {l : List Nat} (h : ∀ m ∈ l, m ≠ 0 ∧ m ≠ 3) : (l.foldl (exitClock cold late) s).tim = s.tim := by
  induction l generalizing s with
  | nil => rfl
  | cons m l ih =>
    obtain ⟨h0, h3⟩ := h m List.mem_cons_self
    rw [List.foldl_cons, ih _ fun k hk => h k (List.mem_cons_of_mem _ hk), exitClock_tim s cold late h0 h3]

/-- A phase keeper that is UNLOCKED stays so, and a bad reference takes it there. -/
theorem foldl_exitClock_st {l : List Nat} (h : s.tim.st = .unlocked ∨ ∃ m ∈ l, m = 0 ∨ m = 3) : (l.foldl (exitClock cold late) s).tim.st = .unlocked := by
  induction l generalizing s with
  | nil => simpa using h
  | cons m l ih =>
    refine ih _ ?_
    by_cases hm : m = 0 ∨ m = 3
    · exact .inl (exitClock_st s cold late hm)
    · obtain ⟨h0, h3⟩ := not_or.mp hm
      rw [exitClock_tim s cold late h0 h3]
      refine h.imp_right fun ⟨k, hk, hk03⟩ => ⟨k, ?_, hk03⟩
      rcases List.mem_cons.mp hk with rfl | hk
      · exact absurd hk03 hm
      · exact hk

theorem mem_bitsOf {m : Nat} {b : BitVec 16} : m ∈ bitsOf 16 b.toNat ↔ m < 16 ∧ b.getLsbD m = true := by
  simp [bitsOf, bitOf, BitVec.getLsbD, Nat.testBit_eq_decide_div_mod_eq]

theorem exitClocks_good (h0 : s.mgt.clkStatus.getLsbD 0 = false) (h3 : s.mgt.clkStatus.getLsbD 3 = false) :
    (exitClocks cold late s).tim = s.tim := by
  rw [exitClocks_eq, foldl_exitClock_tim, exitClocks_start_tim]
  intro m hm
  obtain ⟨-, hb⟩ := mem_bitsOf.mp hm
  constructor
  · rintro rfl
    rw [h0] at hb
    cases hb
  · rintro rfl
    rw [h3] at hb
    cases hb

theorem exitClocks_bad (h : s.mgt.clkStatus.getLsbD 0 = true ∨ s.mgt.clkStatus.getLsbD 3 = true) :
    (exitClocks cold late s).tim.st = .unlocked := by
  rw [exitClocks_eq]
  refine foldl_exitClock_st _ cold late (.inr ?_)
  rcases h with h | h
  · exact ⟨0, mem_bitsOf.mpr ⟨by omega, h⟩, .inl rfl⟩
  · exact ⟨3, mem_bitsOf.mpr ⟨by omega, h⟩, .inr rfl⟩

/-- With no clock bad the exit does nothing about them. -/
theorem exitClocks_none (h : s.mgt.clkStatus = 0) : exitClocks cold late s = s := by
  rw [exitClocks_eq, h]
  rfl

end
end Sys2Proof.Machine
end

section
/-!
PROOFS. What a reset's exit leaves: the pins, the phase keeper, the journal's RESET entry and the role epochs (R569, R570).
-/
namespace Sys2Proof.Machine

/-! ## The stuck-on check at the exit (R224) -/

/-- The stuck-on check keeps whatever a change of the exclusion engine, a sticky bit of a set and a raised source all keep. -/
theorem checkStuck_untouched {β : Type} {g : State → β} (hx : ∀ f t, g (t.onXcl f) = g t) (hs : ∀ p b t, g (xsetRaise p b t) = g t)
    (hr : ∀ c t, g (raiseSource c t) = g t) (p : Nat) (s : State) : g (checkStuck p s) = g s := by
  unfold checkStuck followSource
  lift_lets
  intro bad s1 s2
  have h1 : g s1 = g s := hx ..
  have h2 : g s2 = g s := by
    show g (if bad then xsetRaise p 0x8 s1 else s1) = g s
    split
    · exact (hs ..).trans h1
    · exact h1
  clear_value s2 s1
  split
  · split
    · exact h2
    · exact (hr ..).trans h2
  · exact (hx ..).trans h2

section
variable (p : Nat) (s : State)

theorem xsetRaise_base (b : BitVec 4) : (xsetRaise p b s).base = s.base :=
  base_stickyUp (s.onXset p fun x => { x with sticky := x.sticky ||| b }) ..
theorem xsetRaise_tim (b : BitVec 4) : (xsetRaise p b s).tim = s.tim :=
  tim_stickyUp (s.onXset p fun x => { x with sticky := x.sticky ||| b }) ..

theorem checkStuck_base : (checkStuck p s).base = s.base :=
  checkStuck_untouched (g := State.base) (fun _ _ => rfl) (fun p b t => xsetRaise_base p t b) (fun c t => raiseSource_base t c) p s
theorem checkStuck_tim : (checkStuck p s).tim = s.tim :=
  checkStuck_untouched (g := State.tim) (fun _ _ => rfl) (fun p b t => xsetRaise_tim p t b) (fun c t => raiseSource_tim t c) p s

end

/-! ## What the exit leaves -/

section
variable (s : State)

theorem exitReset_pins : (exitReset s).pins = (resetLeft s).pins := by
  rw [exitReset_eq, forN_keeps fun p t => pins_of_base (checkStuck_base p t), exitClocks_pins, pins_of_base (exitBegun_base s)]

theorem exitBegun_clkStatus : (exitBegun s).mgt.clkStatus = s.mgt.clkStatus :=
  (base_clkStatus (exitBegun_base s)).trans rfl

theorem exitReset_tim : (exitReset s).tim = (exitClocks s.coldReset s.mgt.clkLate (exitBegun s)).tim := by
  rw [exitReset_eq, forN_keeps (g := State.tim) checkStuck_tim]

/-- With both references good the exit leaves the phase keeper in LOCKED on source 3. -/
theorem exitReset_locked (h0 : s.mgt.clkStatus.getLsbD 0 = false) (h3 : s.mgt.clkStatus.getLsbD 3 = false) :
    (exitReset s).tim.st = .locked ∧ (exitReset s).tim.src = 3 := by
  rw [exitReset_tim, exitClocks_good]
  · exact exitBegun_tim s
  · rwa [exitBegun_clkStatus]
  · rwa [exitBegun_clkStatus]

theorem exitReset_unlocked (h : s.mgt.clkStatus.getLsbD 0 = true ∨ s.mgt.clkStatus.getLsbD 3 = true) :
    (exitReset s).tim.st = .unlocked := by
  rw [exitReset_tim]
  exact exitClocks_bad _ _ _ (by rwa [exitBegun_clkStatus])

end

/-! ## The journal at the exit -/

section
variable (s : State)

theorem journal_ite {c : Prop} [Decidable c] {t u : State} (ht : t.hif.journal = s.hif.journal) (hu : u.hif.journal = s.hif.journal) :
    (if c then t else u).hif.journal = s.hif.journal := by
  split
  · exact ht
  · exact hu

theorem msix_journal (h v : Nat) : (msix h v s).hif.journal = s.hif.journal := by
  unfold msix
  dsimp only
  exact journal_ite s rfl rfl

theorem signal_journal (v : Nat) : (signal v s).hif.journal = s.hif.journal := by
  unfold signal
  lift_lets
  intro s1 s2
  have h1 : s1.hif.journal = s.hif.journal := journal_ite s (msix_journal s 0 v) rfl
  have h2 : s2.hif.journal = s.hif.journal := journal_ite s ((msix_journal s1 1 v).trans h1) h1
  exact journal_ite s h2 h2

theorem flushFull_journal : (flushFull s).hif.journal = s.hif.journal := journal_ite s rfl rfl

theorem logRec_journal (vec code : Nat) (off bits : BitVec 32) : (logRec vec code off bits s).hif.journal = s.hif.journal := by
  unfold logRec
  dsimp only
  refine journal_ite s (flushFull_journal _) (journal_ite s rfl ?_)
  exact signal_journal _ 20

theorem stickyUp_journal {w : Nat} (vec off : Nat) (old b : BitVec w) : (stickyUp vec off old b s).hif.journal = s.hif.journal := by
  unfold stickyUp
  dsimp only
  refine journal_ite s rfl ?_
  rw [signal_journal, logRec_journal]
  rfl

theorem raiseSource_journal (code : Nat) : (raiseSource code s).hif.journal = s.hif.journal :=
  raiseSource_untouched (g := fun t => t.hif.journal) (fun _ _ => rfl) (fun _ => rfl) stickyUp_journal logRec_journal code s

theorem checkStuck_journal (p : Nat) : (checkStuck p s).hif.journal = s.hif.journal :=
  checkStuck_untouched (g := fun t => t.hif.journal) (fun _ _ => rfl)
    (fun p b t => stickyUp_journal (t.onXset p fun x => { x with sticky := x.sticky ||| b }) ..) (fun c t => raiseSource_journal t c) p s

theorem followMarks_journal : (followMarks s).hif.journal = s.hif.journal := by
  obtain ⟨m, hm⟩ := followMarks_marks s
  rw [hm]
  rfl

/-- The journal begins with the entry that has just been added. -/
theorem journalAdd_head (e : JEntry) (h : s.mgt.st ≠ .recovery) : ∃ e' rest, (journalAdd e s).hif.journal = e' :: rest ∧
    e'.kind = e.kind ∧ e'.detail = e.detail := by
  rw [journalAdd, if_neg h]
  exact ⟨_, _, rfl, rfl, rfl⟩

theorem only_resetEnds {s t : State} (h : onlyReports s t) : t.hif.resetEnds = s.hif.resetEnds :=
  show t.settings.hif.resetEnds = s.settings.hif.resetEnds by rw [h]

/-- With no command that the reset ended, the RESET entry is the last. -/
theorem exitReports_journal (cold : Bool) (h : s.hif.resetEnds = []) : (exitReports cold s).hif.journal =
    (journalAdd { kind := .reset, detail := if cold then 0 else 1 } s).hif.journal := by
  have he (e : JEntry) : (logRec 20 3 0 0 (journalAdd e s)).hif.resetEnds = [] := by
    rw [only_resetEnds (logRec_only _ _ _ _ _ (journalAdd_only e s (onlyReports_refl s))), h]
  unfold exitReports
  dsimp only
  rw [he, List.foldl_nil, State.onHif_hif]
  exact logRec_journal ..

theorem resetModes_st (cold : Bool) (h : cold = true ∨ s.mgt.st ≠ .recovery) : (resetModes cold s).mgt.st ≠ .recovery := by
  cases cold with
  | true => exact nofun
  | false => exact h.resolve_left nofun

theorem resetModes_resetEnds (cold : Bool) : (resetModes cold s).hif.resetEnds = s.hif.resetEnds := by cases cold <;> rfl

theorem reseedDraws_st : (reseedDraws s).mgt.st = s.mgt.st := by rw [reseedDraws, State.onSec_mgt, State.onMem_mgt]
theorem reseedDraws_hif : (reseedDraws s).hif = s.hif := by rw [reseedDraws, State.onSec_hif, State.onMem_hif]

/-- With all clocks good and no command ended by it, a reset's last entry is its RESET entry. -/
theorem exitReset_journal (hc : s.mgt.clkStatus = 0) (he : s.hif.resetEnds = []) (hr : s.coldReset = true ∨ s.mgt.st ≠ .recovery) :
    ∃ e rest, (exitReset s).hif.journal = e :: rest ∧ e.kind = .reset ∧ e.detail = if s.coldReset then 0 else 1 := by
  have hst : (reseedDraws (resetModes s.coldReset (resetLeft s))).mgt.st ≠ .recovery := by
    rw [reseedDraws_st]
    exact resetModes_st _ _ hr
  have hends : (reseedDraws (resetModes s.coldReset (resetLeft s))).hif.resetEnds = [] := by
    rw [reseedDraws_hif, resetModes_resetEnds]
    exact he
  rw [exitReset_eq, forN_keeps (g := fun t => t.hif.journal) fun p t => checkStuck_journal t p,
    exitClocks_none _ _ _ (by rw [exitBegun_clkStatus, hc]), exitBegun, followMarks_journal, State.onMgt_hif, exitReports_journal _ _ hends]
  exact journalAdd_head _ _ hst

end

/-! ## The role epochs at the exit (R570) -/

/-- What carries the epochs of loops, octets, pipes and drivers. -/
def State.roles (s : State) : Cle × Glk × Cmp × Vector Driver 128 := (s.cle, s.glk, s.cmp, s.ill.drivers)

theorem only_roles {s t : State} (h : onlyReports s t) : t.roles = s.roles := show t.settings.roles = s.settings.roles by rw [h]

section
variable (s : State)

theorem onHif_roles (f) : (s.onHif f).roles = s.roles := rfl
theorem onMem_roles (f) : (s.onMem f).roles = s.roles := rfl
theorem onSec_roles (f) : (s.onSec f).roles = s.roles := rfl

theorem stickyUp_roles {w : Nat} (vec off : Nat) (old b : BitVec w) : (stickyUp vec off old b s).roles = s.roles :=
  only_roles (stickyUp_only _ _ _ _ s (onlyReports_refl s))

theorem logRec_roles (vec code : Nat) (off bits : BitVec 32) : (logRec vec code off bits s).roles = s.roles :=
  only_roles (logRec_only _ _ _ _ s (onlyReports_refl s))

theorem raiseSource_roles (code : Nat) : (raiseSource code s).roles = s.roles :=
  raiseSource_untouched (g := State.roles) (fun _ _ => rfl) (fun _ => rfl) stickyUp_roles logRec_roles code s

theorem checkStuck_roles (p : Nat) : (checkStuck p s).roles = s.roles :=
  checkStuck_untouched (g := State.roles) (fun _ _ => rfl)
    (fun p b t => stickyUp_roles (t.onXset p fun x => { x with sticky := x.sticky ||| b }) ..) (fun c t => raiseSource_roles t c) p s

theorem followMarks_roles : (followMarks s).roles = s.roles := by
  obtain ⟨m, hm⟩ := followMarks_marks s
  rw [hm]
  rfl

theorem exitReports_roles (cold : Bool) : (exitReports cold s).roles = s.roles := by
  rw [exitReports, foldl_keeps fun t h => only_roles (complete_only h _ _ t (onlyReports_refl t))]
  rw [onHif_roles, logRec_roles, only_roles (journalAdd_only _ _ (onlyReports_refl _))]

theorem clkLate_roles (x : BitVec 16) : (s.onMgt fun m => { m with clkLate := x }).roles = s.roles := rfl
theorem reseedDraws_roles : (reseedDraws s).roles = s.roles := by
  rw [reseedDraws, onSec_roles, onMem_roles]

/-- With all clocks good the epochs of the exit are those that a warm reset has moved on. -/
theorem exitReset_roles (hc : s.mgt.clkStatus = 0) : (exitReset s).roles = (resetModes s.coldReset (resetLeft s)).roles := by
  rw [exitReset_eq, forN_keeps fun p t => checkStuck_roles t p, exitClocks_none _ _ _ (by rw [exitBegun_clkStatus, hc]), exitBegun,
    followMarks_roles, clkLate_roles, exitReports_roles, reseedDraws_roles]

end
end Sys2Proof.Machine
end

section
/-!
PROOFS. The reset pins. O42 is settled here.
-/
namespace Sys2Proof.Machine

/-! ## Role epochs after a warm reset (R570) -/

theorem nth_map_entry {α β : Type} [Inhabited α] [Inhabited β] {n : Nat} (v : Vector α n) (f : α → β) {i : Nat} (h : i < n) :
    nth (v.map f) i = f (nth v i) := by
  simp [nth, h]

section
variable {s t : State} (h : t.roles = (bumpEpochs s).roles)
include h

theorem loop_epoch_of_bumped {n : Nat} (hn : n < 64) : (t.loop n).epoch = (s.loop n).epoch + 1 := by
  rw [State.loop, show t.cle = (bumpEpochs s).cle from congrArg (·.1) h]
  exact congrArg Loop.epoch (nth_map_entry _ _ hn)
theorem octet_epoch_of_bumped {k : Nat} (hk : k < 16) : (t.octet k).epoch = (s.octet k).epoch + 1 := by
  rw [State.octet, show t.glk = (bumpEpochs s).glk from congrArg (·.2.1) h]
  exact congrArg Octet.epoch (nth_map_entry _ _ hk)
theorem pipe_epoch_of_bumped {i : Nat} (hi : i < 24) : (t.pipe i).epoch = (s.pipe i).epoch + 1 := by
  rw [State.pipe, show t.cmp = (bumpEpochs s).cmp from congrArg (·.2.2.1) h]
  exact congrArg Pipe.epoch (nth_map_entry _ _ hi)
theorem driver_epoch_of_bumped {d : Nat} (hd : d < 128) : (nth t.ill.drivers d).epoch = (nth s.ill.drivers d).epoch + 1 := by
  rw [show t.ill.drivers = (bumpEpochs s).ill.drivers from congrArg (·.2.2.2) h]
  exact congrArg Driver.epoch (nth_map_entry _ _ hd)

end

/-! ## The pins' release -/

theorem execPorstNRelease_last {s : State} (straps : BitVec 4) (hp : s.powered = true) (hr : s.porst = true) (hw : s.wrst = false)
    (hf : s.pwr.railReset = false) : execPorstNRelease straps s = .next (exitReset { s with porst := false, straps := straps }) := by
  rw [execPorstNRelease, if_neg (by rw [hr]; decide)]
  exact congrArg _ (if_pos (by simp [State.live, hp, hw, hf]))

theorem execWrstNRelease_last {s : State} (hp : s.powered = true) (hr : s.porst = false) (hw : s.wrst = true) (hf : s.pwr.railReset = false) :
    execWrstNRelease s = .next (exitReset { s with wrst := false }) := by
  rw [execWrstNRelease, if_neg (by rw [hw]; decide)]
  exact congrArg _ (if_pos (by simp [State.live, hp, hr, hf]))

theorem exitReset_live (s : State) : (exitReset s).live = s.live := (live_of_pins (exitReset_pins s)).trans rfl
theorem exitReset_phase (s : State) : (exitReset s).phase = 0 := (phase_of_pins (exitReset_pins s)).trans rfl
theorem exitReset_straps (s : State) : (exitReset s).straps = s.straps := (straps_of_pins (exitReset_pins s)).trans rfl

/-- A warm reset's exit moves the epochs on. -/
theorem exitReset_bumped {s : State} (hc : s.mgt.clkStatus = 0) (h : s.coldReset = false) :
    (exitReset s).roles = (bumpEpochs ((resetLeft s).onMem memExit)).roles := by
  rw [exitReset_roles s hc, h]
  rfl

end Sys2Proof.Machine

namespace Sys2Proof.Proofs
open Sys2Proof.Machine

/-- Settles O42: each pin's entry sets the device back, and the last one's release runs the stages of the exit. -/
theorem resetPinsHoldAndReleaseTheDevice : Obligations.ResetPinsHoldAndReleaseTheDevice := by
  refine ⟨fun s hp hr => execPorstNAssert_running hr hp, fun s hl => ⟨_, execWrstNAssert_live hl, ?_⟩,
    fun s straps hp hr hw hf => ⟨_, execPorstNRelease_last straps hp hr hw hf, ?_⟩,
    fun s hp hr hw hf hcold => ⟨_, execWrstNRelease_last hp hr hw hf, ?_⟩,
    fun s mv h => execUvloRising_unpowered mv h, fun s mv h => execUvloFalling_powered mv h⟩
  · refine ⟨wrstHeld_wrst _, wrstHeld_live _, wrstHeld_safe _, wrstHeld_st _, wrstHeld_phase _, ?_, fun k hk => ?_, ?_, ?_, ?_, fun h => ?_,
      fun v k hv _ hp hk => ?_, fun hb hc => ?_, ?_, ?_, ?_⟩
    · rw [wrstHeld_seq, warmLeft_seq]
    · rw [wrstHeld_latch, warmLeft_latch, BitVec.getLsbD_or, BitVec.getLsbD_or, hk, Bool.true_or, Bool.true_or]
    · rw [wrstHeld_cfgOwner, warmLeft_cfgOwner]
    · rw [wrstHeld_portOwner, warmLeft_portOwner]
    · rw [wrstHeld_cal, warmLeft_cal]
    · rw [wrstHeld_plane, warmLeft_plane s h]
    · rw [wrstHeld_plane, warmLeft_plane_wiped s hv hp hk]
    · rw [wrstHeld_general, warmLeft_general s hb hc]
    · rw [wrstHeld_reserve, warmLeft_reserve]
    · rw [wrstHeld_safeCnt, warmLeft_safeCnt]
    · rw [wrstHeld_sticky, warmLeft_sticky]
  · refine ⟨?_, exitReset_straps _, exitReset_phase _, fun h0 h3 => exitReset_locked _ h0 h3, fun h => exitReset_unlocked _ h, fun hc he hcold => ?_⟩
    · rw [exitReset_live]
      simp [State.live, hp, hw, hf]
    · obtain ⟨e, rest, hj, hk, hd⟩ := exitReset_journal { s with porst := false, straps := straps } hc he (.inl hcold)
      exact ⟨e, rest, hj, hk, hd.trans (if_pos hcold)⟩
  · refine ⟨?_, exitReset_phase _, (exitReset_frame _).trans (if_neg (by rw [hcold]; decide)), fun h0 h3 => exitReset_locked _ h0 h3, fun h => exitReset_unlocked _ h,
      fun hc he hst => ?_, fun hc => ?_⟩
    · rw [exitReset_live]
      simp [State.live, hp, hr, hf]
    · obtain ⟨e, rest, hj, hk, hd⟩ := exitReset_journal { s with wrst := false } hc he (.inr hst)
      exact ⟨e, rest, hj, hk, hd.trans (if_neg (by rw [hcold]; decide))⟩
    · have hb := exitReset_bumped (s := { s with wrst := false }) hc hcold
      exact ⟨fun n hn => loop_epoch_of_bumped hb hn, fun k hk => octet_epoch_of_bumped hb hk, fun i hi => pipe_epoch_of_bumped hb hi,
        fun d hd => driver_epoch_of_bumped hb hd⟩

end Sys2Proof.Proofs
end

section
/-!
PROOFS. What every command and every step keeps (R42, R44, R226, R396): the relations of Laws/Keeps*.lean, put together over the
commands. O5, O7 and O8 are settled here.
-/
namespace Sys2Proof.Machine

/-! ## The commands that keep less than Keeps asks -/

/-- The rows that move the frame count: the period boundary, the reset pins and the supplies (R42). -/
inductive MovesFrame : Instr → Prop
  | periodBoundary : MovesFrame .periodBoundary
  | porstNAssert : MovesFrame .porstNAssert
  | porstNRelease (straps) : MovesFrame (.porstNRelease straps)
  | wrstNAssert : MovesFrame .wrstNAssert
  | wrstNRelease : MovesFrame .wrstNRelease
  | uvloFalling (mv) : MovesFrame (.uvloFalling mv)
  | railSeqStep : MovesFrame .railSeqStep
  | pgoodFall (k) : MovesFrame (.pgoodFall k)

/-- The rows that release a latched blank source, or bring in an entry that may be the release (R231). -/
inductive MayRelease : Instr → Prop
  | xclSafeRelease (c) : MayRelease (.xclSafeRelease c)
  | cringDoorbell (h r v l) : MayRelease (.cringDoorbell h r v l)
  | rringDoorbell (h r v) : MayRelease (.rringDoorbell h r v)
  | ringCfgWrite (h o v) : MayRelease (.ringCfgWrite h o v)
  | i3cCommandWrite (e) : MayRelease (.i3cCommandWrite e)

/-- Every other row is in the relation Keeps. -/
theorem exec_keeps : ∀ i : Instr, ¬MovesFrame i → ¬MayRelease i → ∀ s, OutKeeps s (exec i s)
  | .sessionOpen cmd, _, _, s => execSessionOpen_keeps cmd s (.refl s)
  | .sessionClose cmd, _, _, s => execSessionClose_keeps cmd s (.refl s)
  | .heartbeat cmd, _, _, s => execHeartbeat_keeps cmd s (.refl s)
  | .claim cmd, _, _, s => execClaim_keeps cmd s (.refl s)
  | .release cmd, _, _, s => execRelease_keeps cmd s (.refl s)
  | .eventMaskSet cmd, _, _, s => execEventMaskSet_keeps cmd s (.refl s)
  | .cpReset cmd, _, _, s => execCpReset_keeps cmd s (.refl s)
  | .timingSet cmd, _, _, s => execTimingSet_keeps cmd s (.refl s)
  | .cameraSet cmd, _, _, s => execCameraSet_keeps cmd s (.refl s)
  | .viewBind cmd, _, _, s => execViewBind_keeps cmd s (.refl s)
  | .timingCommit cmd, _, _, s => execTimingCommit_keeps cmd s (.refl s)
  | .phaseSteer cmd, _, _, s => execPhaseSteer_keeps cmd s (.refl s)
  | .phaseMarkSet cmd, _, _, s => execPhaseMarkSet_keeps cmd s (.refl s)
  | .seqPortSet cmd, _, _, s => execSeqPortSet_keeps cmd s (.refl s)
  | .seqLoad cmd, _, _, s => execSeqLoad_keeps cmd s (.refl s)
  | .seqCommit cmd, _, _, s => execSeqCommit_keeps cmd s (.refl s)
  | .seqDriveSet cmd, _, _, s => execSeqDriveSet_keeps cmd s (.refl s)
  | .holdSet cmd, _, _, s => execHoldSet_keeps cmd s (.refl s)
  | .holdExit cmd, _, _, s => execHoldExit_keeps cmd s (.refl s)
  | .planeStoreSet cmd, _, _, s => execPlaneStoreSet_keeps cmd s (.refl s)
  | .illChainSet cmd, _, _, s => execIllChainSet_keeps cmd s (.refl s)
  | .illDeviceSet cmd, _, _, s => execIllDeviceSet_keeps cmd s (.refl s)
  | .illWeightSet cmd, _, _, s => execIllWeightSet_keeps cmd s (.refl s)
  | .illFade cmd, _, _, s => execIllFade_keeps cmd s (.refl s)
  | .illTcSet cmd, _, _, s => execIllTcSet_keeps cmd s (.refl s)
  | .illStringSet cmd, _, _, s => execIllStringSet_keeps cmd s (.refl s)
  | .illDiagSet cmd, _, _, s => execIllDiagSet_keeps cmd s (.refl s)
  | .loopSet cmd, _, _, s => execLoopSet_keeps cmd s (.refl s)
  | .loopCoefSet cmd, _, _, s => execLoopCoefSet_keeps cmd s (.refl s)
  | .loopRefSet cmd, _, _, s => execLoopRefSet_keeps cmd s (.refl s)
  | .loopGroupSet cmd, _, _, s => execLoopGroupSet_keeps cmd s (.refl s)
  | .loopArm cmd, _, _, s => execLoopArm_keeps cmd s (.refl s)
  | .loopPwmSet cmd, _, _, s => execLoopPwmSet_keeps cmd s (.refl s)
  | .xclRegionSet cmd, _, _, s => execXclRegionSet_keeps cmd s (.refl s)
  | .xclMaskLoad cmd, _, _, s => execXclMaskLoad_keeps cmd s (.refl s)
  | .xclHostBlank cmd, _, _, s => execXclHostBlank_keeps cmd s (.refl s)
  | .symListSet cmd, _, _, s => execSymListSet_keeps cmd s (.refl s)
  | .symGlyphLoad cmd, _, _, s => execSymGlyphLoad_keeps cmd s (.refl s)
  | .linkAllot cmd, _, _, s => execLinkAllot_keeps cmd s (.refl s)
  | .linkLaneSet cmd, _, _, s => execLinkLaneSet_keeps cmd s (.refl s)
  | .linkOctetReset cmd, _, _, s => execLinkOctetReset_keeps cmd s (.refl s)
  | .linkDiag cmd, _, _, s => execLinkDiag_keeps cmd s (.refl s)
  | .ahmPolicySet cmd, _, _, s => execAhmPolicySet_keeps cmd s (.refl s)
  | .ahmScanStart cmd, _, _, s => execAhmScanStart_keeps cmd s (.refl s)
  | .ahmScanAbort cmd, _, _, s => execAhmScanAbort_keeps cmd s (.refl s)
  | .ahmDefectRead cmd, _, _, s => execAhmDefectRead_keeps cmd s (.refl s)
  | .ahmPark cmd, _, _, s => execAhmPark_keeps cmd s (.refl s)
  | .ahmParkRelease cmd, _, _, s => execAhmParkRelease_keeps cmd s (.refl s)
  | .cmpViewSet cmd, _, _, s => execCmpViewSet_keeps cmd s (.refl s)
  | .cmpPipeBind cmd, _, _, s => execCmpPipeBind_keeps cmd s (.refl s)
  | .cmpLayerSet cmd, _, _, s => execCmpLayerSet_keeps cmd s (.refl s)
  | .cmpLutSet cmd, _, _, s => execCmpLutSet_keeps cmd s (.refl s)
  | .cmpWritebackSet cmd, _, _, s => execCmpWritebackSet_keeps cmd s (.refl s)
  | .cmpCommit cmd, _, _, s => execCmpCommit_keeps cmd s (.refl s)
  | .fabImageLoad cmd, _, _, s => execFabImageLoad_keeps cmd s (.refl s)
  | .fabChainSet cmd, _, _, s => execFabChainSet_keeps cmd s (.refl s)
  | .fabChainGo cmd, _, _, s => execFabChainGo_keeps cmd s (.refl s)
  | .fabParamSet cmd, _, _, s => execFabParamSet_keeps cmd s (.refl s)
  | .fabClusterReset cmd, _, _, s => execFabClusterReset_keeps cmd s (.refl s)
  | .bufAlloc cmd, _, _, s => execBufAlloc_keeps cmd s (.refl s)
  | .bufFree cmd, _, _, s => execBufFree_keeps cmd s (.refl s)
  | .bufSignal cmd, _, _, s => execBufSignal_keeps cmd s (.refl s)
  | .bufIngest cmd, _, _, s => execBufIngest_keeps cmd s (.refl s)
  | .memLayoutSet cmd, _, _, s => execMemLayoutSet_keeps cmd s (.refl s)
  | .memReserveSet cmd, _, _, s => execMemReserveSet_keeps cmd s (.refl s)
  | .memPolicySet cmd, _, _, s => execMemPolicySet_keeps cmd s (.refl s)
  | .memFence cmd, _, _, s => execMemFence_keeps cmd s (.refl s)
  | .memRankRetire cmd, _, _, s => execMemRankRetire_keeps cmd s (.refl s)
  | .memRetrain cmd, _, _, s => execMemRetrain_keeps cmd s (.refl s)
  | .updateBegin cmd, _, _, s => execUpdateBegin_keeps cmd s (.refl s)
  | .updateData cmd, _, _, s => execUpdateData_keeps cmd s (.refl s)
  | .updateCommit cmd, _, _, s => execUpdateCommit_keeps cmd s (.refl s)
  | .mgtFuseAdvance cmd, _, _, s => execMgtFuseAdvance_keeps cmd s (.refl s)
  | .mgtFuseRevoke cmd, _, _, s => execMgtFuseRevoke_keeps cmd s (.refl s)
  | .mgtBootcfgSet cmd, _, _, s => execMgtBootcfgSet_keeps cmd s (.refl s)
  | .mgtRead cmd, _, _, s => execMgtRead_keeps cmd s (.refl s)
  | .mgtFaultClear cmd, _, _, s => execMgtFaultClear_keeps cmd s (.refl s)
  | .mgtReinit cmd, _, _, s => execMgtReinit_keeps cmd s (.refl s)
  | .secChallenge cmd, _, _, s => execSecChallenge_keeps cmd s (.refl s)
  | .secLogin cmd, _, _, s => execSecLogin_keeps cmd s (.refl s)
  | .secUserSet cmd, _, _, s => execSecUserSet_keeps cmd s (.refl s)
  | .secPolicySet cmd, _, _, s => execSecPolicySet_keeps cmd s (.refl s)
  | .secKemGen cmd, _, _, s => execSecKemGen_keeps cmd s (.refl s)
  | .secKeyLoad cmd, _, _, s => execSecKeyLoad_keeps cmd s (.refl s)
  | .secKeyZero cmd, _, _, s => execSecKeyZero_keeps cmd s (.refl s)
  | .secQuote cmd, _, _, s => execSecQuote_keeps cmd s (.refl s)
  | .secMarkSet cmd, _, _, s => execSecMarkSet_keeps cmd s (.refl s)
  | .secSelftest cmd, _, _, s => execSecSelftest_keeps cmd s (.refl s)
  | .secZeroise cmd, _, _, s => execSecZeroise_keeps cmd s (.refl s)
  | .secProvision cmd, _, _, s => execSecProvision_keeps cmd s (.refl s)
  | .pwrItemSet cmd, _, _, s => execPwrItemSet_keeps cmd s (.refl s)
  | .thmSet cmd, _, _, s => execThmSet_keeps cmd s (.refl s)
  | .pwrStandbyEnter cmd, _, _, s => execPwrStandbyEnter_keeps cmd s (.refl s)
  | .pwrStandbyExit cmd, _, _, s => execPwrStandbyExit_keeps cmd s (.refl s)
  | .journalRead cmd, _, _, s => execJournalRead_keeps cmd s (.refl s)
  | .journalMark cmd, _, _, s => execJournalMark_keeps cmd s (.refl s)
  | .i3cBar0ReadSetup off count, _, _, s => execI3cBar0ReadSetup_keeps off count s (.refl s)
  | .i3cBar0Write off val, _, _, s => execI3cBar0Write_keeps off val s (.refl s)
  | .i3cPrivateRead, _, _, s => execI3cPrivateRead_keeps s (.refl s)
  | .registerWrite h off val, _, _, s => execRegisterWrite_keeps h off val s (.refl s)
  | .unmapped h off size write, _, _, s => execUnmapped_keeps h off size write s (.refl s)
  | .bar2Access h off acc, _, _, s => execBar2Access_keeps h off acc s (.refl s)
  | .freezeWrite r val, _, _, s => execFreezeWrite_keeps r val s (.refl s)
  | .calSetWrite r set word val, _, _, s => execCalSetWrite_keeps r set word val s (.refl s)
  | .calClassCtrlWrite k val, _, _, s => execCalClassCtrlWrite_keeps k val s (.refl s)
  | .flr h, _, _, s => execFlr_keeps h s (.refl s)
  | .perstN h, _, _, s => execPerstN_keeps h s (.refl s)
  | .dlDown h, _, _, s => execDlDown_keeps h s (.refl s)
  | .hifReady, _, _, s => execHifReady_keeps s (.refl s)
  | .journalEntryPersisted ok, _, _, s => execJournalEntryPersisted_keeps ok s (.refl s)
  | .msixCoalesceExpire h vec, _, _, s => execMsixCoalesceExpire_keeps h vec s (.refl s)
  | .leaseExpire h, _, _, s => execLeaseExpire_keeps h s (.refl s)
  | .cpWatchdog c, _, _, s => execCpWatchdog_keeps c s (.refl s)
  | .cpCorePowerOn c, _, _, s => execCpCorePowerOn_keeps c s (.refl s)
  | .cpCoreIdleOff c, _, _, s => execCpCoreIdleOff_keeps c s (.refl s)
  | .uvloRising mv, _, _, s => execUvloRising_keeps mv s (.refl s)
  | .vinHigh mv, _, _, s => execVinHigh_keeps mv s (.refl s)
  | .vinLow mv, _, _, s => execVinLow_keeps mv s (.refl s)
  | .vbatLow, _, _, s => execVbatLow_keeps s (.refl s)
  | .railSeqTimeout, _, _, s => execRailSeqTimeout_keeps s (.refl s)
  | .railSeqRetry, _, _, s => execRailSeqRetry_keeps s (.refl s)
  | .avsUpdate readback, _, _, s => execAvsUpdate_keeps readback s (.refl s)
  | .pmbusItemPoll k raw voutMode, _, _, s => execPmbusItemPoll_keeps k raw voutMode s (.refl s)
  | .pmbusAlert words, _, _, s => execPmbusAlert_keeps words s (.refl s)
  | .domainSwitchOn, _, _, s => execDomainSwitchOn_keeps s (.refl s)
  | .thermalSample readings, _, _, s => execThermalSample_keeps readings s (.refl s)
  | .shutdownRestart, _, _, s => execShutdownRestart_keeps s (.refl s)
  | .safeBlankNFall, _, _, s => execSafeBlankNFall_keeps s (.refl s)
  | .safeBlankNRise, _, _, s => execSafeBlankNRise_keeps s (.refl s)
  | .ilockOpen b, _, _, s => execIlockOpen_keeps b s (.refl s)
  | .ilockClose b, _, _, s => execIlockClose_keeps b s (.refl s)
  | .ilockClosed10ms, _, _, s => execIlockClosed10ms_keeps s (.refl s)
  | .ilockDisc, _, _, s => execIlockDisc_keeps s (.refl s)
  | .clockMonitorFault m, _, _, s => execClockMonitorFault_keeps m s (.refl s)
  | .clockMonitorGood m, _, _, s => execClockMonitorGood_keeps m s (.refl s)
  | .windowFreeze, _, _, s => execWindowFreeze_keeps s (.refl s)
  | .selectionPoint, _, _, s => execSelectionPoint_keeps s (.refl s)
  | .refLoss, _, _, s => execRefLoss_keeps s (.refl s)
  | .holdoverExpire, _, _, s => execHoldoverExpire_keeps s (.refl s)
  | .steerTimeout, _, _, s => execSteerTimeout_keeps s (.refl s)
  | .lockTimeout, _, _, s => execLockTimeout_keeps s (.refl s)
  | .refInEdge rising, _, _, s => execRefInEdge_keeps rising s (.refl s)
  | .camShutEdge c level, _, _, s => execCamShutEdge_keeps c level s (.refl s)
  | .camOpenEdgeMissing c, _, _, s => execCamOpenEdgeMissing_keeps c s (.refl s)
  | .phaseMarkEdge k active, _, _, s => execPhaseMarkEdge_keeps k active s (.refl s)
  | .slotStart p, _, _, s => execSlotStart_keeps p s (.refl s)
  | .slotSettleEnd p, _, _, s => execSlotSettleEnd_keeps p s (.refl s)
  | .bandResetQueue p b, _, _, s => execBandResetQueue_keeps p b s (.refl s)
  | .bandChangeover p b, _, _, s => execBandChangeover_keeps p b s (.refl s)
  | .planeRowFetch p, _, _, s => execPlaneRowFetch_keeps p s (.refl s)
  | .linkFrameInterval p, _, _, s => execLinkFrameInterval_keeps p s (.refl s)
  | .holdTimeout p, _, _, s => execHoldTimeout_keeps p s (.refl s)
  | .holdSubslot p, _, _, s => execHoldSubslot_keeps p s (.refl s)
  | .keepaliveBurst p, _, _, s => execKeepaliveBurst_keeps p s (.refl s)
  | .chainFrame c responses, _, _, s => execChainFrame_keeps c responses s (.refl s)
  | .startupWalkDone c fail, _, _, s => execStartupWalkDone_keeps c fail s (.refl s)
  | .discoverDone c delay ids, _, _, s => execDiscoverDone_keeps c delay ids s (.refl s)
  | .discoverTimeout c, _, _, s => execDiscoverTimeout_keeps c s (.refl s)
  | .walkStep fail, _, _, s => execWalkStep_keeps fail s (.refl s)
  | .diagPulse, _, _, s => execDiagPulse_keeps s (.refl s)
  | .stringMeasurement k mv stale, _, _, s => execStringMeasurement_keeps k mv stale s (.refl s)
  | .diagStarved, _, _, s => execDiagStarved_keeps s (.refl s)
  | .loopTrigger n, _, _, s => execLoopTrigger_keeps n s (.refl s)
  | .loopStep n sense, _, _, s => execLoopStep_keeps n sense s (.refl s)
  | .pwmPeriodStart n, _, _, s => execPwmPeriodStart_keeps n s (.refl s)
  | .xclVersionReady p agree, _, _, s => execXclVersionReady_keeps p agree s (.refl s)
  | .slicerBandOffer v, _, _, s => execSlicerBandOffer_keeps v s (.refl s)
  | .slicerFillDone k, _, _, s => execSlicerFillDone_keeps k s (.refl s)
  | .slicerDrainDone k, _, _, s => execSlicerDrainDone_keeps k s (.refl s)
  | .cmpFrameStart v fofs, _, _, s => execCmpFrameStart_keeps v fofs s (.refl s)
  | .cmpFrameDone v, _, _, s => execCmpFrameDone_keeps v s (.refl s)
  | .fabBandStart v, _, _, s => execFabBandStart_keeps v s (.refl s)
  | .fabBandDone v, _, _, s => execFabBandDone_keeps v s (.refl s)
  | .symbRenderStart v fofs, _, _, s => execSymbRenderStart_keeps v fofs s (.refl s)
  | .symbRenderDone v, _, _, s => execSymbRenderDone_keeps v s (.refl s)
  | .clusterLoadDone n, _, _, s => execClusterLoadDone_keeps n s (.refl s)
  | .clusterDrainDone n, _, _, s => execClusterDrainDone_keeps n s (.refl s)
  | .fabSramUe n, _, _, s => execFabSramUe_keeps n s (.refl s)
  | .memRequest q, _, _, s => execMemRequest_keeps q s (.refl s)
  | .requestPromote n, _, _, s => execRequestPromote_keeps n s (.refl s)
  | .pageIdleClose pc rank bank, _, _, s => execPageIdleClose_keeps pc rank bank s (.refl s)
  | .refresh pc rank bank, _, _, s => execRefresh_keeps pc rank bank s (.refl s)
  | .rankPowerDown r, _, _, s => execRankPowerDown_keeps r s (.refl s)
  | .selfRefreshEntry, _, _, s => execSelfRefreshEntry_keeps s (.refl s)
  | .selfRefreshExit r, _, _, s => execSelfRefreshExit_keeps r s (.refl s)
  | .scrubPass, _, _, s => execScrubPass_keeps s (.refl s)
  | .migrationStart lr, _, _, s => execMigrationStart_keeps lr s (.refl s)
  | .migrationRowCopied, _, _, s => execMigrationRowCopied_keeps s (.refl s)
  | .retrainTempTrigger pc, _, _, s => execRetrainTempTrigger_keeps pc s (.refl s)
  | .retrainGap pc, _, _, s => execRetrainGap_keeps pc s (.refl s)
  | .retrainDone pc found, _, _, s => execRetrainDone_keeps pc found s (.refl s)
  | .bootTrainingDone working, _, _, s => execBootTrainingDone_keeps working s (.refl s)
  | .ingestTransferDone host res, _, _, s => execIngestTransferDone_keeps host res s (.refl s)
  | .bcFrameReceived o bits, _, _, s => execBcFrameReceived_keeps o bits s (.refl s)
  | .bcLockLost o, _, _, s => execBcLockLost_keeps o s (.refl s)
  | .bcSilence o, _, _, s => execBcSilence_keeps o s (.refl s)
  | .ack p w1 w2, _, _, s => execAck_keeps p w1 w2 s (.refl s)
  | .ackMissing p, _, _, s => execAckMissing_keeps p s (.refl s)
  | .status p ws, _, _, s => execStatus_keeps p ws s (.refl s)
  | .lanemap p ws, _, _, s => execLanemap_keeps p ws s (.refl s)
  | .caps p ws, _, _, s => execCaps_keeps p ws s (.refl s)
  | .errcnt p ws, _, _, s => execErrcnt_keeps p ws s (.refl s)
  | .temp p w, _, _, s => execTemp_keeps p w s (.refl s)
  | .tempStale p, _, _, s => execTempStale_keeps p s (.refl s)
  | .defect p ws, _, _, s => execDefect_keeps p ws s (.refl s)
  | .scanData p ws, _, _, s => execScanData_keeps p ws s (.refl s)
  | .scanDone p w1 w2 w3, _, _, s => execScanDone_keeps p w1 w2 w3 s (.refl s)
  | .scanState p w, _, _, s => execScanState_keeps p w s (.refl s)
  | .scanTimeout p, _, _, s => execScanTimeout_keeps p s (.refl s)
  | .parkState p w, _, _, s => execParkState_keeps p w s (.refl s)
  | .ctrlTimeout p op, _, _, s => execCtrlTimeout_keeps p op s (.refl s)
  | .trainPass1End p, _, _, s => execTrainPass1End_keeps p s (.refl s)
  | .trainFail p, _, _, s => execTrainFail_keeps p s (.refl s)
  | .trainRestart p, _, _, s => execTrainRestart_keeps p s (.refl s)
  | .bcAbsent o, _, _, s => execBcAbsent_keeps o s (.refl s)
  | .electricalIdleEnd o, _, _, s => execElectricalIdleEnd_keeps o s (.refl s)
  | .defectMapSave p, _, _, s => execDefectMapSave_keeps p s (.refl s)
  | .mgtLockstepError sram, _, _, s => execMgtLockstepError_keeps sram s (.refl s)
  | .mgtWatchdog, _, _, s => execMgtWatchdog_keeps s (.refl s)
  | .mgtRun, _, _, s => execMgtRun_keeps s (.refl s)
  | .bootImageVerify, _, _, s => execBootImageVerify_keeps s (.refl s)
  | .bootAllotment, _, _, s => execBootAllotment_keeps s (.refl s)
  | .eventLogFlush, _, _, s => execEventLogFlush_keeps s (.refl s)
  | .flashEraseDone, _, _, s => execFlashEraseDone_keeps s (.refl s)
  | .fuseBurnDone, _, _, s => execFuseBurnDone_keeps s (.refl s)
  | .enclaveSelftestDone pass, _, _, s => execEnclaveSelftestDone_keeps pass s (.refl s)
  | .periodicSelftest pass, _, _, s => execPeriodicSelftest_keeps pass s (.refl s)
  | .drbgReseed, _, _, s => execDrbgReseed_keeps s (.refl s)
  | .entropyFailure, _, _, s => execEntropyFailure_keeps s (.refl s)
  | .nonceExpire h, _, _, s => execNonceExpire_keeps h s (.refl s)
  | .loginLockoutEnd h, _, _, s => execLoginLockoutEnd_keeps h s (.refl s)
  | .kemContextExpire ctx, _, _, s => execKemContextExpire_keeps ctx s (.refl s)
  | .tamperSample loop sense temp, _, _, s => execTamperSample_keeps loop sense temp s (.refl s)
  | .jtagInstruction ir, _, _, s => execJtagInstruction_keeps ir s (.refl s)
  | .calStep k, _, _, s => execCalStep_keeps k s (.refl s)
  | .offsetWindow r dq ones, _, _, s => execOffsetWindow_keeps r dq ones s (.refl s)
  | .edgeSweepDone r dq counts, _, _, s => execEdgeSweepDone_keeps r dq counts s (.refl s)
  | .darkWindow means, _, _, s => execDarkWindow_keeps means s (.refl s)
  | .linkReadyTimeout o, _, _, s => execLinkReadyTimeout_keeps o s (.refl s)
  | .standbyExitTimeout, _, _, s => execStandbyExitTimeout_keeps s (.refl s)
  | .enclaveServiceDone res, _, _, s => execEnclaveServiceDone_keeps res s (.refl s)
  | .flashWriteDone ok, _, _, s => execFlashWriteDone_keeps ok s (.refl s)
  | .updateVerifyDone, _, _, s => execUpdateVerifyDone_keeps s (.refl s)
  | .supplyGlitch, _, _, s => execSupplyGlitch_keeps s (.refl s)
  | .periodBoundary, h, _, _ => absurd .periodBoundary h
  | .porstNAssert, h, _, _ => absurd .porstNAssert h
  | .porstNRelease straps, h, _, _ => absurd (.porstNRelease straps) h
  | .wrstNAssert, h, _, _ => absurd .wrstNAssert h
  | .wrstNRelease, h, _, _ => absurd .wrstNRelease h
  | .uvloFalling mv, h, _, _ => absurd (.uvloFalling mv) h
  | .railSeqStep, h, _, _ => absurd .railSeqStep h
  | .pgoodFall k, h, _, _ => absurd (.pgoodFall k) h
  | .xclSafeRelease c, _, h, _ => absurd (.xclSafeRelease c) h
  | .cringDoorbell p r v l, _, h, _ => absurd (.cringDoorbell p r v l) h
  | .rringDoorbell p r v, _, h, _ => absurd (.rringDoorbell p r v) h
  | .ringCfgWrite p o v, _, h, _ => absurd (.ringCfgWrite p o v) h
  | .i3cCommandWrite e, _, h, _ => absurd (.i3cCommandWrite e) h

section
variable {i : Instr} {s t : State}

/-- A row that may release a latched source keeps all of the relation but the latch. -/
theorem MayRelease.ring (h : MayRelease i) (he : exec i s = .next t) : KeepsRing s t := by
  cases h with
  | xclSafeRelease c =>
    obtain ⟨h, hf⟩ := execXclSafeRelease_keepsInv c s (.refl s) he
    exact ⟨h, hf⟩
  | cringDoorbell h r v l => exact execCringDoorbell_ring h r v l s (Keeps.refl s).toRing he
  | rringDoorbell h r v => exact execRringDoorbell_ring h r v s (Keeps.refl s).toRing he
  | ringCfgWrite h o v => exact execRingCfgWrite_ring h o v s (Keeps.refl s).toRing he
  | i3cCommandWrite e => exact execI3cCommandWrite_ring e s (Keeps.refl s).toRing he

/-- A row that moves the frame count keeps the queue and the invariants. -/
theorem MovesFrame.keepsInv (h : MovesFrame i) (he : exec i s = .next t) : KeepsInv s t := by
  cases h with
  | periodBoundary => exact execPeriodBoundary_keepsInv s (.refl s) he
  | porstNAssert => exact execPorstNAssert_keepsInv s (.refl s) he
  | porstNRelease straps => exact execPorstNRelease_keepsInv straps s (.refl s) he
  | wrstNAssert => exact execWrstNAssert_keepsInv s (.refl s) he
  | wrstNRelease => exact execWrstNRelease_keepsInv s (.refl s) he
  | uvloFalling mv => exact execUvloFalling_keepsInv mv s (.refl s) he
  | railSeqStep => exact execRailSeqStep_keepsInv s (.refl s) he
  | pgoodFall k => exact execPgoodFall_keepsInv k s (.refl s) he

/-! ## Every command -/

/-- Every row but the period boundary, the reset pins and the supplies keeps all of the relation but the latch. -/
theorem exec_ring (hi : ¬MovesFrame i) (he : exec i s = .next t) : KeepsRing s t := by
  by_cases hr : MayRelease i
  · exact hr.ring he
  · exact ((exec_keeps i hi hr s).next t he).toRing

/-- Every command keeps the queue and the invariants. -/
theorem exec_keepsInv (he : exec i s = .next t) : KeepsInv s t := by
  by_cases hi : MovesFrame i
  · exact hi.keepsInv he
  · exact (exec_ring hi he).toKeepsInv

end

/-! ## Every step -/

/-- A step keeps the invariants, from a state that differs from the one before only in what waits to be stepped. -/
theorem step_keepsInv {s t : State} (h : step s = .next t) :
    ∃ p r, KeepsInv { s with pending := p, raised := r } t := by
  unfold step at h
  split at h
  next c rest _ => exact ⟨rest, s.raised, exec_keepsInv h⟩
  next =>
    unfold unattended at h
    split at h
    · exact ⟨s.pending, s.raised, exec_keepsInv h⟩
    · split at h
      next e es _ => exact ⟨s.pending, es, exec_keepsInv h⟩
      next =>
        cases h
        exact ⟨s.pending, s.raised, (idle_ring s).toKeepsInv⟩

theorem step_rateInRange {s t : State} (hr : rateInRange s.tim = true) (h : step s = .next t) : rateInRange t.tim = true := by
  obtain ⟨_, _, hk⟩ := step_keepsInv h
  exact hk.rate hr

/-! ## A phase sample (R44, R52, R53) -/

/-- The criteria of a sample move the phase keeper's state and source, the runs they count, and what they report. -/
theorem lockSample_only (err : Int) (s : State) : ∃ st src lock unlock cnt stk, onlyReports
    (s.onTim fun t => { t with st := st, src := src, lockRun := lock, unlockRun := unlock, unlockCnt := cnt, sticky := stk })
    (lockSample err s) := by
  unfold lockSample
  lift_lets
  intro m run run'
  split
  · split <;> exact ⟨_, _, _, _, _, _, onlyReports_refl _⟩
  · split
    · split
      · exact ⟨_, _, _, _, _, _, timRaise_only _ _ (onlyReports_refl _)⟩
      · exact ⟨_, _, _, _, _, _, onlyReports_refl _⟩
    · exact ⟨_, _, _, _, _, _, onlyReports_refl _⟩

section
variable (err : Int) (s : State)

theorem lockSample_rateOfs : (lockSample err s).tim.rateOfs = s.tim.rateOfs := by
  obtain ⟨_, _, _, _, _, _, h⟩ := lockSample_only err s
  rw [only_tim h, State.onTim_tim]

theorem lockSample_phaseErr : (lockSample err s).tim.phaseErr = s.tim.phaseErr := by
  obtain ⟨_, _, _, _, _, _, h⟩ := lockSample_only err s
  rw [only_tim h, State.onTim_tim]

theorem lockSample_phase : (lockSample err s).phase = s.phase := by
  obtain ⟨_, _, _, _, _, _, h⟩ := lockSample_only err s
  exact (show (lockSample err s).settings.phase = s.phase by rw [h]; rfl)

end

theorem clampI_eq_max_min {lo hi : Int} (h : lo ≤ hi) (x : Int) : clampI lo hi x = max lo (min hi x) := by
  unfold clampI
  split
  · omega
  · split <;> omega

theorem setRate_rateOfs (r : Int) (s : State) : (setRate r s).tim.rateOfs = max (-1000000) (min 1000000 r) :=
  clampI_eq_max_min (by decide) r

theorem takeSample_rateOfs (err hint : Int) (s : State) :
    (takeSample err hint s).tim.rateOfs = max (-1000000) (min 1000000 (loopRate err hint s)) :=
  (lockSample_rateOfs err _).trans (setRate_rateOfs (loopRate err hint s) s)

/-! ## The frame count over a reset (R42) -/

theorem execPeriodBoundary_live {s : State} (h : s.live = true) : execPeriodBoundary s = .next (periodBoundary s) := by
  rw [execPeriodBoundary, if_pos h]

theorem wrstHeld_frame (u : State) : (wrstHeld u).frame = u.frame := warmState_frame u
theorem warmLeft_frame (s : State) : (warmLeft s).frame = s.frame := (warmSteps_keeps _ s).frame

end Sys2Proof.Machine

namespace Sys2Proof.Proofs
open Sys2Proof.Machine

/-- Settles O7: the reset state computes. -/
theorem invariantsHoldAtReset : Obligations.InvariantsHoldAtReset := ⟨rfl, rfl, rfl⟩

/-- Settles O5: every command keeps the rates in range, and the criteria of a sample leave the rate that the sample has set. -/
theorem rateStaysWithinThePullRange : Obligations.RateStaysWithinThePullRange :=
  ⟨fun _ _ hr h => step_rateInRange hr h, takeSample_rateOfs⟩

/-- Settles O8: only a row of MovesFrame can move the count, and a reset sets it at its exit. -/
theorem frameNumberCountsBoundaries : Obligations.FrameNumberCountsBoundaries := by
  refine ⟨fun s hl => ⟨_, execPeriodBoundary_live hl, ?boundary⟩,
    fun straps s hr hp hw hf hc => ⟨_, execPorstNRelease_last straps hp hr hw hf, ?cold⟩,
    fun s hl => ⟨_, execWrstNAssert_live hl, ?entry⟩,
    fun s hw hp hr hf hc => ⟨_, execWrstNRelease_last hp hr hw hf, ?exit⟩,
    fun i s t he h1 h2 h3 h4 h5 h6 h7 h8 => (exec_ring (i := i) ?others he).frame⟩
  case boundary =>
    obtain ⟨-, hf, -⟩ := periodBoundary_keepsInv s
    exact hf
  case cold => exact (exitReset_frame _).trans (if_pos hc)
  case entry => rw [wrstHeld_frame, warmLeft_frame]
  case exit => exact (exitReset_frame _).trans (if_neg (by rw [hc]; decide))
  case others =>
    rintro (_ | _ | b | _ | _ | v | _ | k)
    exacts [h1 rfl, h2 rfl, h3 b rfl, h4 rfl, h5 rfl, h6 v rfl, h7 rfl, h8 k rfl]

end Sys2Proof.Proofs
end

section
/-!
PROOFS. The step of a device whose queue is empty (R41, R43, R44). O2 is settled here.
-/
namespace Sys2Proof.Machine

/-! ## Division by a rule that names no rounding -/

section
variable (n : Nat) {a : Int} {b : Nat}

/-- The quotient taken is one of the two neighbours of the exact one. -/
theorem openDiv_near (hb : 0 < b) : (openDiv n a b * b - a).natAbs < b := by
  have hdm := Int.mul_ediv_add_emod a b
  have h0 := Int.emod_nonneg a (b := b) (by omega)
  have hlt := Int.emod_lt_of_pos a (b := b) (by omega)
  unfold openDiv
  split
  next hexact =>
    rw [Int.mul_comm]
    omega
  next hopen =>
    rw [Int.add_mul, Int.mul_comm]
    split <;> omega

theorem openDiv_nonneg (ha : 0 ≤ a) : 0 ≤ openDiv n a b := by
  have hq : 0 ≤ a / (b : Int) := Int.ediv_nonneg ha (Int.natCast_nonneg b)
  unfold openDiv
  split
  · exact hq
  · split <;> omega

end

/-! ## The phase in one nanosecond (R43, R44) -/

section
variable {s : State}

theorem ncoNum_nonneg (h : -1000000 ≤ s.tim.rateOfs) : 0 ≤ ncoNum s :=
  Int.mul_nonneg (Int.mul_nonneg (Int.natCast_nonneg _) (by omega)) (by decide)

theorem advancePhase_phase (s : State) : (advancePhase s).phase =
    BitVec.ofNat 64 (s.phase.toNat + (openDiv s.free (ncoNum s) (ncoDen s)).toNat) := rfl

/-- The phase moves on by a neighbour of the exact advance. -/
theorem advancePhase_near (hd : 0 < s.rd) (hr : -1000000 ≤ s.tim.rateOfs) :
    ∃ d : Nat, (advancePhase s).phase = BitVec.ofNat 64 (s.phase.toNat + d) ∧
      (((d * ncoDen s : Nat) : Int) - ncoNum s).natAbs < ncoDen s := by
  have hden : 0 < ncoDen s := Nat.mul_pos hd (by decide)
  refine ⟨_, advancePhase_phase s, ?_⟩
  rw [Int.natCast_mul, Int.toNat_of_nonneg (openDiv_nonneg _ (ncoNum_nonneg hr))]
  exact openDiv_near _ hden

end

/-! ## A step with an empty queue (R41) -/

section
variable {s : State}

theorem step_unattended (h : s.pending = []) : step s = unattended s := by
  simp only [step, h]

theorem unattended_wrapped (h : s.wrapped = true) : unattended s = exec .periodBoundary s := if_pos h

theorem unattended_raised {e : Instr} {es : List Instr} (hw : s.wrapped = false) (hr : s.raised = e :: es) :
    unattended s = exec e { s with raised := es } := by
  simp only [unattended, hw, hr, Bool.false_eq_true, if_false]

theorem unattended_idle (hw : s.wrapped = false) (hr : s.raised = []) : unattended s = .next (idle s) := by
  simp only [unattended, hw, hr, Bool.false_eq_true, if_false]

/-- In a device that is unpowered or held in reset only time passes. -/
theorem idle_not_live (h : s.live = false) : idle s = { s with ns := s.ns + 1, hif := { s.hif with hwSet := [] } } :=
  if_neg (Bool.eq_false_iff.1 h)

end
end Sys2Proof.Machine

namespace Sys2Proof.Proofs
open Sys2Proof.Machine

/-- Settles O2: the boundary, the raised event and the idle nanosecond by cases of the empty queue; the advance is a division with an open
rounding. -/
theorem unattendedStepFollowsTheClock : Obligations.UnattendedStepFollowsTheClock := by
  intro s hq
  rw [step_unattended hq]
  refine ⟨unattended_wrapped, fun e es => unattended_raised, fun hw hr hl => ?_, unattended_idle, fun hd hr => ?_⟩
  · rw [unattended_idle hw hr, idle_not_live hl]
  · exact advancePhase_near hd hr

end Sys2Proof.Proofs
end

section
/-!
PROOFS. The commands of the phase keeper that fill the shadow mode or await a boundary, and the committed mode at its boundary (R81 to
R84, R443, R444). O18 and O19 are settled here.
-/
namespace Sys2Proof.Machine

/-! ## Commands whose effect at acceptance changes the phase keeper -/

/-- A row whose effect is an update of the phase keeper leaves that update, but for reports. -/
theorem only_effect_onTim {s u t : State} {d : Done} {f : Tim → Tim} (hu : onlyReports s u) (hd : d.st = u.onTim f)
    (ht : onlyReports d.st t) : onlyReports (s.onTim f) t :=
  onlyReports_trans (same_onTim hu f) (hd ▸ ht)

/-- A row without an effect at acceptance leaves only reports. -/
theorem completes_of_no_effect {sp : OpSpec} {row : Cmd → Instr} (hx : ∀ c s, exec (row c) s = .next (accept sp c s))
    (he : ∀ h s, (sp.effect h s).st = s) : Completes sp row fun _ s t => onlyReports s t :=
  completes_of_effect hx fun _ _ h u _ hu _ _ ht => onlyReports_trans hu (he h u ▸ ht)

/-! ## Commands at their boundary (R443, R444) -/

/-- A command of the next boundary that has no step of its own and is never late has its effect there; what goes with it only
reports. -/
theorem applyHeld_apply {sp : OpSpec} {h : Held} (s : State) (hf : boundaryOps.find? (fun x => x.op == h.opcode) = some sp)
    (hd : h.due = none) (hl : sp.late = false) (hs : hasStep h.opcode.toNat = false) :
    onlyReports (sp.apply h (journalApply h s)) (applyHeld h s) := by
  have h1 : h.opcode ≠ 0x0103 := fun e => by rw [e] at hs; exact absurd hs (by decide)
  have h6 : h.opcode ≠ 0x0600 := fun e => by rw [e] at hs; exact absurd hs (by decide)
  simp only [applyHeld, hf, hd, hl, Option.isNone_none, if_true, Bool.false_eq_true, if_false, h1, h6]
  exact applyEpoch_only ..

/-- One whose effect there is an update of the phase keeper leaves that update, but for reports. -/
theorem applyHeld_onTim {sp : OpSpec} {h : Held} (s : State) (f : Tim → Tim)
    (hf : boundaryOps.find? (fun x => x.op == h.opcode) = some sp) (hd : h.due = none) (hl : sp.late = false)
    (hs : hasStep h.opcode.toNat = false) (ha : ∀ u, sp.apply h u = u.onTim f) : onlyReports (s.onTim f) (applyHeld h s) :=
  onlyReports_trans (same_onTim (journalApply_only h s (onlyReports_refl s)) f)
    (ha (journalApply h s) ▸ applyHeld_apply s hf hd hl hs)

/-! ## The committed mode (R81 to R84) -/

/-- What a commit leaves for good: the mode in force, the mode that waits, and SETTLE with its count. -/
def Tim.committed (t : Tim) : TimMode × Option TimMode × Bool × BitVec 32 := (t.mode, t.commitMode, t.settle, t.settleCnt)

section
variable (s : State)

theorem setRate_committed (r : Int) : (setRate r s).tim.committed = s.tim.committed := rfl
theorem goPhase_committed (st : PhaseSt) (src : Nat) : (goPhase st src s).tim.committed = s.tim.committed := rfl
theorem enterSource_committed (c : Nat) (g : Bool) : (enterSource c g s).tim.committed = s.tim.committed := rfl

theorem commitSource_committed (keep change : Bool) (m : TimMode) : (commitSource keep change m s).tim.committed = s.tim.committed := by
  unfold commitSource
  split
  · rfl
  · rfl
  · split
    · rfl
    · rw [enterSource_committed]
      split <;> rfl

/-- The causes that a change of the rate ends on each port are no matter of the phase keeper. -/
theorem settlePorts_tim :
    (forN 4 (fun p s => if (s.port p).enable then settleCauses p s else s) s).tim = s.tim := by
  refine forN_keeps (g := State.tim) (fun p t => ?_) 4 s
  split
  · exact tim_of_still (still_settleCauses ..)
  · rfl

/-- What a waiting mode leaves when it applies. -/
theorem applyTiming_committed (h : Held) {m : TimMode} (hm : s.tim.commitMode = some m) : (applyTiming h s).tim.committed =
    (m, none, s.tim.settle || !(sameRate s.tim.mode m), if sameRate s.tim.mode m then s.tim.settleCnt else sat s.tim.settleCnt) := by
  unfold applyTiming
  lift_lets
  intro t m' change keep s1 s2 s3 s4
  have hm' : m' = m := by rw [show m' = s.tim.commitMode.getD s.tim.shadow from rfl, hm, Option.getD_some]
  have hch : change = !(sameRate s.tim.mode m) := by rw [← hm']
  have h1 : s1.tim.committed = (m, none, s.tim.settle, s.tim.settleCnt) := by rw [← hm']; rfl
  clear_value change s1
  have h2 : s2.tim.committed = if change then (m, none, true, sat s.tim.settleCnt) else (m, none, s.tim.settle, s.tim.settleCnt) := by
    show (if change then _ else s1).tim.committed = _
    split
    · obtain ⟨hmode, hwait, -, hcnt⟩ : _ ∧ _ ∧ _ ∧ _ := by simpa only [Tim.committed, Prod.mk.injEq] using h1
      rw [← hmode, ← hwait, ← hcnt]
      rfl
    · exact h1
  clear_value s2
  have h3 : s3.tim = s2.tim := by
    show (if change then _ else s2).tim = _
    split
    · exact settlePorts_tim s2
    · rfl
  clear_value s3
  have h4 : s4.tim.committed = s2.tim.committed := (commitSource_committed s3 keep change m').trans (by rw [h3])
  clear_value s4
  have h5 : (if change then s4 else complete h .done 0 (s4.onTim fun t => { t with commit := none })).tim.committed =
      s4.tim.committed := by
    split
    · rfl
    · rw [only_tim (complete_only _ _ _ _ (onlyReports_refl _))]
      rfl
  rw [h5, h4, h2, hch]
  cases sameRate s.tim.mode m with
  | true => simp
  | false => simp

end
end Sys2Proof.Machine

namespace Sys2Proof.Proofs
open Sys2Proof.Machine

/-- Settles O18: each effect is one update of the phase keeper. -/
theorem timingCommandsFillTheShadow : Obligations.TimingCommandsFillTheShadow := by
  refine ⟨completes_of_effect (fun _ _ => rfl) fun c s h u t hu hc _ ht => ?set,
    completes_of_effect (fun _ _ => rfl) fun c s h u t hu hc _ ht => ?camera,
    completes_of_effect (fun _ _ => rfl) fun c s h u t hu hc ho ht => ?commit⟩
  case set => subst hc; exact only_effect_onTim hu rfl ht
  case camera => subst hc; exact only_effect_onTim hu rfl ht
  case commit => exact ⟨h, hc, ho, only_effect_onTim hu rfl ht⟩

/-- Settles O19: the effects at the boundary, and the stages of the committed mode. -/
theorem timingBoundaryCommandsApply : Obligations.TimingBoundaryCommandsApply := by
  refine ⟨completes_of_no_effect (fun _ _ => rfl) fun _ _ => rfl, completes_of_no_effect (fun _ _ => rfl) fun _ _ => rfl,
    fun h s ho hd => ?bind, fun h s ho hd => ?mark, fun h s m hm => ?commit⟩
  case bind => exact applyHeld_onTim (sp := specViewBind) s _ (by rw [ho]; rfl) hd rfl (by rw [ho]; rfl) fun _ => rfl
  case mark => exact applyHeld_onTim (sp := specPhaseMarkSet) s _ (by rw [ho]; rfl) hd rfl (by rw [ho]; rfl) fun _ => rfl
  case commit =>
    obtain ⟨h1, h2, h3, h4⟩ : _ ∧ _ ∧ _ ∧ _ := by simpa only [Tim.committed, Prod.mk.injEq] using applyTiming_committed s h hm
    refine ⟨h1, h2, h3, h4.trans ?_⟩
    simp only [sameRate, beq_iff_eq]

end Sys2Proof.Proofs
end

section
/-!
PROOFS. PHASE_STEER (R44, R54, R62 to R64): its refusal while its source is not the active one, and its step or sample. O20 and O21 are
settled here.
-/
namespace Sys2Proof.Machine

/-! ## What the checks of R442 come to -/

section
variable {sp : OpSpec} {c : Cmd} {s : State}

/-- A command that no header check and no device state refuses is refused as its own checks say. -/
theorem refusal_of_header (hh : headerRefusal sp c s = none) (hg : groupBusy sp.op s = false) : refusal sp c s = sp.check c s := by
  rw [refusal, hh, hg]
  cases hc : sp.check c s <;> rfl

/-- A command that passes the checks of R442 passes its own. -/
theorem check_of_refusal (h : refusal sp c s = none) : sp.check c s = none := by
  cases hh : headerRefusal sp c s with
  | some r => rw [refusal, hh] at h; cases h
  | none =>
    cases hg : groupBusy sp.op s with
    | true => rw [refusal, hh, hg] at h; cases h
    | false => rwa [refusal_of_header hh hg] at h

end

theorem refuse_tim (op : BitVec 16) (c : Cmd) (r : Refuse) (s : State) : (refuse op c r s).tim = s.tim :=
  only_tim (refuse_only op c r s (onlyReports_refl s))

theorem atChecks_tim (c : Cmd) (s : State) : (atChecks c s).tim = s.tim := only_tim (atChecks_only c s)

/-- While the active source is not the host, PHASE_STEER's own checks begin with BUSY (R64). -/
theorem phaseSteer_check {s : State} (c : Cmd) (h : s.tim.src ≠ 2) : specPhaseSteer.check c s = some ⟨.busy, 0⟩ := by
  have hb : (s.tim.src != 2) = true := bne_iff_ne.2 h
  simp only [specPhaseSteer, hb]
  rfl

/-! ## The step of the tick count leaves the rate (R54) -/

section
variable (s : State)

/-- A freeze of the predictions moves, of the phase keeper, the cameras. -/
theorem forN_freezeCam_tim (n : Nat) : ∃ cams, (forN n freezeCam s).tim = { s.tim with cams := cams } := by
  induction n with
  | zero => exact ⟨_, rfl⟩
  | succ n ih =>
    obtain ⟨cams, h⟩ := ih
    rw [forN, freezeCam, State.onCam_def, State.onTim_tim, h]
    exact ⟨_, rfl⟩

theorem freezeAll_tim : ∃ cams frozen, (freezeAll s).tim = { s.tim with cams := cams, frozen := frozen } := by
  unfold freezeAll
  split
  · exact ⟨_, _, rfl⟩
  · obtain ⟨cams, h⟩ := forN_freezeCam_tim (s.onTim fun t => { t with frozen := true }) 4
    exact ⟨cams, true, h⟩

/-- A move of the phase moves, of the phase keeper, the cameras and the outputs. -/
theorem shiftPhase_tim (d : Int) : ∃ cams frozen marks,
    (shiftPhase d s).tim = { s.tim with cams := cams, frozen := frozen, marks := marks } := by
  unfold shiftPhase
  lift_lets
  intro n n' past s1 s2
  have h2 : ∃ cams frozen, s2.tim = { s1.tim with cams := cams, frozen := frozen } := by
    show ∃ cams frozen, (if past || decide ((freezeQ : Int) ≤ n') then freezeAll s1 else s1).tim = _
    split
    · exact freezeAll_tim s1
    · exact ⟨_, _, rfl⟩
  clear_value s2
  obtain ⟨cams, frozen, h⟩ := h2
  obtain ⟨marks, hm⟩ := followMarks_marks { s2 with phase := BitVec.ofNat 64 n'.toNat, wrapped := s2.wrapped || past }
  rw [hm, State.onTim_tim, h]
  exact ⟨_, _, _, rfl⟩

theorem stepPhase_tim (d : Int) : (stepPhase d s).tim.stepNext = false ∧ (stepPhase d s).tim.lockRun = 0 ∧
    (stepPhase d s).tim.rateOfs = s.tim.rateOfs := by
  obtain ⟨cams, frozen, marks, h⟩ := shiftPhase_tim (s.onTim fun t => { t with stepNext := false, lockRun := 0, sampleSeen := true }) d
  rw [stepPhase, h]
  exact ⟨rfl, rfl, rfl⟩

end

/-! ## PHASE_STEER's effect (R62) -/

section
variable (err hint : Int) (s : State)

theorem takeSample_phaseErr : (takeSample err hint s).tim.phaseErr = BitVec.ofInt 32 err := lockSample_phaseErr err _
theorem takeSample_phase : (takeSample err hint s).phase = s.phase := lockSample_phase err _
theorem takeSample_frame : (takeSample err hint s).frame = s.frame := (takeSample_keeps err hint s (.refl s)).frame

end

section
variable {s u : State} (h : onlyReports s u)
include h

theorem only_phase : u.phase = s.phase := show u.settings.phase = s.settings.phase by rw [h]
theorem only_frame : u.frame = s.frame := show u.settings.frame = s.settings.frame by rw [h]
/-- Whether a sample steps, and the rate that the loop asks for, lie in the settings. -/
theorem only_sampleSteps (err : Int) : sampleSteps err u = sampleSteps err s :=
  show sampleSteps err u.settings = sampleSteps err s.settings by rw [h]
theorem only_loopRate (err hint : Int) : loopRate err hint u = loopRate err hint s :=
  show loopRate err hint u.settings = loopRate err hint s.settings by rw [h]

end

theorem steer_steps {b : List Byte} {s : State} (h : sampleSteps (i32 b 4) s = true) :
    steer b s = stepPhase (-(nsToQ s (i32 b 4))) s := if_pos h
theorem steer_samples {b : List Byte} {s : State} (h : sampleSteps (i32 b 4) s = false) :
    steer b s = takeSample (i32 b 4) (if bitOf (u32 b 12) 0 then i32 b 8 else 0) s := if_neg (Bool.eq_false_iff.1 h)

/-- An accepted PHASE_STEER leaves the steered state, but for the start of its timeout and reports. -/
theorem only_phaseSteer {h : Held} {u t : State} (ht : onlyReports (specPhaseSteer.effect h u).st t) :
    onlyReports ((steer (Cmd.payload h.cmd) u).onTim fun x => { x with steerFrom := u.ns }) t := ht

end Sys2Proof.Machine

namespace Sys2Proof.Proofs
open Sys2Proof.Machine

/-- Settles O20: the BUSY of R64 is the first of the command's own checks, and no refusal moves the phase keeper. -/
theorem steeringNeedsTheHostSource : Obligations.SteeringNeedsTheHostSource := by
  intro c s hread hsrc
  have hbusy : specPhaseSteer.check c (atChecks c s) = some ⟨.busy, 0⟩ := phaseSteer_check c (by rwa [atChecks_tim])
  refine ⟨fun hh hg => ⟨hread, (refusal_of_header hh hg).trans hbusy⟩, accept specPhaseSteer c s, rfl, ?_⟩
  rw [accept_read specPhaseSteer c s hread]
  cases hr : refusal specPhaseSteer c (atChecks c s) with
  | some r => exact (refuse_tim ..).trans (atChecks_tim ..)
  | none => rw [check_of_refusal hr] at hbusy; cases hbusy

/-- Settles O21: the effect is the step, or the sample with its hint. -/
theorem steeringStepsOrTrimsThePhase : Obligations.SteeringStepsOrTrimsThePhase := by
  refine completes_of_effect (fun _ _ => rfl) fun c s h u t hu hc _ ht => ?_
  subst hc
  have ht := only_phaseSteer ht
  refine ⟨fun hs => ?steps, fun hs => ?samples⟩
  case steps =>
    rw [steer_steps ((only_sampleSteps hu _).trans hs)] at ht
    have hv := stepPhase_tim u (-(nsToQ u (i32 (Cmd.payload h.cmd) 4)))
    generalize stepPhase (-(nsToQ u (i32 (Cmd.payload h.cmd) 4))) u = v at ht hv
    rw [only_tim ht, ← only_tim hu]
    exact hv
  case samples =>
    rw [steer_samples ((only_sampleSteps hu _).trans hs)] at ht
    rw [only_tim ht, only_phase ht, only_frame ht]
    refine ⟨takeSample_phaseErr .., (takeSample_phase ..).trans (only_phase hu), (takeSample_frame ..).trans (only_frame hu), ?_⟩
    exact (takeSample_rateOfs ..).trans (by rw [only_loopRate hu])

end Sys2Proof.Proofs
end

section
/-!
PROOFS. The events of the phase keeper and the cameras: reference edges, a lost source, the time limits, camera edges, outputs, the freeze
and the unlock criterion (R46 to R93). O46 is settled here.
-/
namespace Sys2Proof.Machine

theorem timRaise_tim (b : BitVec 20) (s : State) : (timRaise b s).tim = { s.tim with sticky := s.tim.sticky ||| b } :=
  only_tim (timRaise_only b s (onlyReports_refl _))

/-- A sticky bit that is raised is set. -/
theorem timRaise_sticky {b : BitVec 20} {k : Nat} (h : b.getLsbD k = true) (s : State) :
    (timRaise b s).tim.sticky.getLsbD k = true := by
  rw [timRaise_tim, BitVec.getLsbD_or, h, Bool.or_true]

/-! ## Reference edges (R46, R48) -/

theorem execRefInEdge_selected {b : Bool} {s : State} (hl : s.live = true) (hr : railOn 0 s = true) (hb : b ≠ s.tim.mode.refFalling) :
    execRefInEdge b s = .next (sourceEdge 1 s.ns s.phase (edgeFrame s) true s) := by
  rw [execRefInEdge, if_pos (by rw [hl, hr, bne_iff_ne.2 hb]; rfl)]

theorem execRefInEdge_unsupplied {s : State} (b : Bool) (hr : railOn 0 s = false) : execRefInEdge b s = .next s := by
  rw [execRefInEdge, if_neg (by simp [hr])]

/-! ## A lost source (R56 to R58, R63) -/

/-- What the loss of its active source leaves of the phase keeper of s. -/
def LostSource (s : State) (x : Tim) : Prop :=
  x.holdoverCnt = sat s.tim.holdoverCnt ∧ x.sticky.getLsbD 1 = true ∧ x.rateOfs = max (-1000000) (min 1000000 (heldRate s.tim)) ∧
  ((∀ c ∈ s.tim.mode.srcList, (nth s.tim.srcs c.toNat).valid = true → c.toNat = s.tim.src.toNat) → x.st = .holdover ∧ x.src = 0) ∧
  ∀ c, ((s.tim.mode.srcList.map (·.toNat)).find? fun c => c != s.tim.src.toNat && (nth s.tim.srcs c).valid) = some c →
    x.st = .acquiring ∧ x.src = BitVec.ofNat 3 c

/-- A further sticky bit leaves it so. -/
theorem LostSource.raise {s t : State} (h : LostSource s t.tim) (b : BitVec 20) : LostSource s (timRaise b t).tim := by
  obtain ⟨hcnt, hbit, hrest⟩ := h
  rw [timRaise_tim]
  exact ⟨hcnt, by rw [BitVec.getLsbD_or, hbit, Bool.true_or], hrest⟩

/-- The device in HOLDOVER at the held rate, before another source is looked for. -/
def lostHeld (s : State) : State :=
  timRaise 0x2 (goPhase .holdover 0 ((setRate (heldRate s.tim) s).onTim fun t => { t with
    holdoverCnt := sat t.holdoverCnt, lossPeriods := 0, stepNext := false, graced := false, holdFrom := s.ns
    srcs := upd t.srcs s.tim.src.toNat fun x => { x with valid := false, goodPeriods := 0, badPeriods := 0 } }))

theorem loseSource_eq (s : State) : loseSource s = selectSource (lostHeld s) := rfl

section
variable (s : State)

theorem lostHeld_st : (lostHeld s).tim.st = .holdover := by rw [lostHeld, timRaise_tim]; rfl
theorem lostHeld_src : (lostHeld s).tim.src = 0 := by rw [lostHeld, timRaise_tim]; rfl
theorem lostHeld_holdoverCnt : (lostHeld s).tim.holdoverCnt = sat s.tim.holdoverCnt := by rw [lostHeld, timRaise_tim]; rfl
theorem lostHeld_mode : (lostHeld s).tim.mode = s.tim.mode := by rw [lostHeld, timRaise_tim]; rfl
theorem lostHeld_srcs : (lostHeld s).tim.srcs = upd s.tim.srcs s.tim.src.toNat fun x =>
    { x with valid := false, goodPeriods := 0, badPeriods := 0 } := by rw [lostHeld, timRaise_tim]; rfl
theorem lostHeld_rateOfs : (lostHeld s).tim.rateOfs = max (-1000000) (min 1000000 (heldRate s.tim)) := by
  rw [lostHeld, timRaise_tim]
  exact setRate_rateOfs (heldRate s.tim) s
theorem lostHeld_sticky : (lostHeld s).tim.sticky.getLsbD 1 = true := timRaise_sticky rfl _

/-- The lost source is not valid any more; every other is as it was. -/
theorem lostHeld_valid (c : Nat) :
    (nth (lostHeld s).tim.srcs c).valid = (c != s.tim.src.toNat && (nth s.tim.srcs c).valid) := by
  rw [lostHeld_srcs]
  by_cases hc : c = s.tim.src.toNat
  · rw [← hc, nth_upd_self _ _ _ (hc ▸ s.tim.src.isLt)]
    simp
  · rw [nth_upd_other _ _ _ _ (Ne.symm hc), bne_iff_ne.2 hc, Bool.true_and]

theorem pickSource_lostHeld : pickSource (lostHeld s) =
    (s.tim.mode.srcList.map (·.toNat)).find? fun c => c != s.tim.src.toNat && (nth s.tim.srcs c).valid := by
  rw [pickSource, lostHeld_mode]
  exact congrArg (List.find? · _) (funext (lostHeld_valid s))

end

section
variable {s : State}

theorem selectSource_none (h : pickSource s = none) : selectSource s = s := by
  unfold selectSource
  rw [h]
  exact ite_self s

/-- The source that HOLDOVER takes (R58). -/
theorem selectSource_some {c : Nat} (hs : s.tim.st = .holdover) (h : pickSource s = some c) :
    selectSource s = timRaise 0x10 ((enterSource c false s).onTim fun t => { t with refSwitchCnt := sat t.refSwitchCnt }) := by
  unfold selectSource
  rw [if_pos (.inl hs), h]
  exact if_pos hs

/-- The source that HOLDOVER takes moves neither the rate nor the counts and bits of the loss. -/
theorem selectSource_tim {c : Nat} (hs : s.tim.st = .holdover) (h : pickSource s = some c) :
    (selectSource s).tim.st = .acquiring ∧ (selectSource s).tim.src = BitVec.ofNat 3 c ∧
    (selectSource s).tim.holdoverCnt = s.tim.holdoverCnt ∧ (selectSource s).tim.rateOfs = s.tim.rateOfs ∧
    (selectSource s).tim.sticky = s.tim.sticky ||| 0x10 := by
  rw [selectSource_some hs h, timRaise_tim]
  exact ⟨rfl, rfl, rfl, rfl, rfl⟩

end

theorem loseSource_lost (s : State) : LostSource s (loseSource s).tim := by
  rw [loseSource_eq]
  cases hp : pickSource (lostHeld s) with
  | none =>
    rw [selectSource_none hp]
    rw [pickSource_lostHeld] at hp
    exact ⟨lostHeld_holdoverCnt s, lostHeld_sticky s, lostHeld_rateOfs s, fun _ => ⟨lostHeld_st s, lostHeld_src s⟩,
      fun c hc => by rw [hp] at hc; cases hc⟩
  | some c =>
    obtain ⟨hst, hsrc, hcnt, hrate, hstk⟩ := selectSource_tim (lostHeld_st s) hp
    rw [pickSource_lostHeld] at hp
    refine ⟨hcnt.trans (lostHeld_holdoverCnt s), ?_, hrate.trans (lostHeld_rateOfs s), fun hall => ?_, fun d hd => ?_⟩
    · rw [hstk, BitVec.getLsbD_or, lostHeld_sticky, Bool.true_or]
    · obtain ⟨b, hb, rfl⟩ := List.mem_map.1 (List.mem_of_find?_eq_some hp)
      have hok := List.find?_some hp
      simp only [Bool.and_eq_true, bne_iff_ne] at hok
      obtain ⟨hne, hv⟩ := hok
      exact absurd (hall b hb hv) hne
    · obtain rfl : c = d := Option.some.inj (hp.symm.trans hd)
      exact ⟨hst, hsrc⟩

section
variable {s : State} (hl : s.live = true)
include hl

theorem execRefLoss_lost (ha : sourceActive s = true) (he : isEdgeSrc s.tim.src.toNat = true)
    (hp : s.tim.mode.refLossLimit ≤ s.tim.lossPeriods) : execRefLoss s = .next (loseSource s) := by
  rw [execRefLoss, if_pos (by simp [hl, ha, he, hp])]

theorem execSteerTimeout_lost (ha : sourceActive s = true) (hs : s.tim.src = 2) (ho : steerOver s = true) :
    execSteerTimeout s = .next (timRaise 0x20 (loseSource s)) := by
  rw [execSteerTimeout, if_pos (by simp [hl, ha, hs, ho])]

/-! ## Time limits (R60, R87) -/

theorem execHoldoverExpire_over (hs : s.tim.st = .holdover) (ho : holdoverOver s = true) :
    execHoldoverExpire s = .next (timRaise 0x4 (goPhase .unlocked 0 s)) := by
  rw [execHoldoverExpire, if_pos (by simp [hl, hs, ho])]

theorem execLockTimeout_over (ho : settleOver s = true) :
    execLockTimeout s = .next (completeOpt s.tim.applied .lockTimeout 0 (timRaise 0x8 (s.onTim fun t =>
      { Tim.answered t with settleExpired := true, lockTimeoutCnt := sat t.lockTimeoutCnt }))) := by
  rw [execLockTimeout, if_pos (by simp [hl, ho])]

end

/-! ## A missing open edge (R71 to R73) -/

section
variable (c : Fin 4) (s : State)

theorem loseCam_cam : (loseCam c.val s).cam c.val =
    { s.cam c.val with mode := .lost, predValid := false, lostCnt := sat (s.cam c.val).lostCnt, goodPeriods := 0 } := by
  rw [loseCam, State.cam, timRaise_tim]
  exact State.onCam_self s c.val _ c.isLt

theorem loseCam_sticky : (loseCam c.val s).tim.sticky.getLsbD (8 + c.val) = true := by
  have hbit : ∀ c : Fin 4, (bit1 20 (8 + c.val)).getLsbD (8 + c.val) = true := by decide
  exact timRaise_sticky (hbit c) _

/-- Camera c with one open edge more that it has missed. -/
def missedOpen : State := s.onCam c.val fun x => { x with
  miss := x.miss + 1, missCnt := sat x.missCnt, badSeen := true, mode := if x.seen then .coasting else x.mode }

theorem missedOpen_cam : (missedOpen c s).cam c.val = { s.cam c.val with
    miss := (s.cam c.val).miss + 1, missCnt := sat (s.cam c.val).missCnt, badSeen := true
    mode := if (s.cam c.val).seen then .coasting else (s.cam c.val).mode } := State.onCam_self s c.val _ c.isLt

variable {c s}

theorem execCamOpenEdgeMissing_on (hl : s.live = true) (hm : (s.cam c.val).mode ≠ .off) : execCamOpenEdgeMissing c s =
    .next (if ((missedOpen c s).cam c.val).mode != .lost &&
        decide ((nth s.tim.mode.cams c.val).missLimit ≤ (s.cam c.val).miss + 1)
      then loseCam c.val (missedOpen c s) else missedOpen c s) := by
  rw [execCamOpenEdgeMissing, if_neg (by simp [hl, hm])]
  have hmiss : ((missedOpen c s).cam c.val).miss = (s.cam c.val).miss + 1 := by rw [missedOpen_cam]
  rw [← hmiss]
  rfl

/-- Whether it was seen or not, the miss is counted; below the limit a camera that was seen coasts. -/
theorem execCamOpenEdgeMissing_below (hl : s.live = true) (hm : (s.cam c.val).mode ≠ .off)
    (h : (s.cam c.val).miss + 1 < (nth s.tim.mode.cams c.val).missLimit) :
    execCamOpenEdgeMissing c s = .next (missedOpen c s) := by
  rw [execCamOpenEdgeMissing_on hl hm, decide_eq_false (by omega), Bool.and_false, if_neg Bool.false_ne_true]

/-- At the limit a camera that is LOST stays so, and any other is lost. -/
theorem execCamOpenEdgeMissing_limit (hl : s.live = true) (hm : (s.cam c.val).mode ≠ .off)
    (h : (nth s.tim.mode.cams c.val).missLimit ≤ (s.cam c.val).miss + 1) :
    execCamOpenEdgeMissing c s = .next (if ((missedOpen c s).cam c.val).mode = .lost then missedOpen c s
      else loseCam c.val (missedOpen c s)) := by
  rw [execCamOpenEdgeMissing_on hl hm, decide_eq_true h, Bool.and_true]
  by_cases hlost : ((missedOpen c s).cam c.val).mode = .lost
  · rw [if_pos hlost, if_neg (by simp [hlost])]
  · rw [if_neg hlost, if_pos (bne_iff_ne.2 hlost)]

end

/-! ## Camera edges and the glitch test (R65, R66) -/

section
variable {c : Fin 4} {s : State} (level : Bool)

theorem execCamShutEdge_unsupplied (hr : railOn 0 s = false) : execCamShutEdge c level s = .next s := by
  rw [execCamShutEdge, if_pos (by simp [hr])]

theorem settleEdge_none (hc : (s.cam c.val).cand = none) : settleEdge c.val s = s := by
  simp only [settleEdge, hc]

theorem settleEdge_young {e : CamEdge} (hc : (s.cam c.val).cand = some e) (hn : s.ns < e.ns + 1000) : settleEdge c.val s = s := by
  simp only [settleEdge, hc, if_pos hn]

section
variable (hl : s.live = true) (hr : railOn 0 s = true) (hm : (s.cam c.val).mode ≠ .off)
include hl hr hm

/-- With no edge before it an edge awaits the glitch test. -/
theorem execCamShutEdge_first (hc : (s.cam c.val).cand = none) :
    execCamShutEdge c level s = .next (s.onCam c.val fun x => { x with cand := some {
      ns := s.ns, phase := s.phase, frame := edgeFrame s, isOpen := level == (nth s.tim.mode.cams c.val).openHigh } }) := by
  rw [execCamShutEdge, if_neg (by simp [hl, hr, hm]), settleEdge_none hc]
  dsimp only
  rw [hc]

/-- A second edge within 1 µs drops both. -/
theorem execCamShutEdge_glitch {e : CamEdge} (hc : (s.cam c.val).cand = some e) (hn : s.ns < e.ns + 1000) :
    execCamShutEdge c level s = .next (glitch c.val s) := by
  rw [execCamShutEdge, if_neg (by simp [hl, hr, hm]), settleEdge_young hc hn]
  dsimp only
  rw [hc]

end
end

/-! ## Outputs and the freeze (R69, R91, R93) -/

section
variable {s : State}

theorem execPhaseMarkEdge_wanted {i : Fin 5} {a : Bool} (hl : s.live = true) (h : a = markWant i.val s) :
    execPhaseMarkEdge i a s = .next (s.onTim fun x => { x with marks := upd x.marks i.val fun m => { m with active := a } }) := by
  rw [execPhaseMarkEdge, if_pos (by simp [hl, h])]

theorem execPhaseMarkEdge_unwanted {i : Fin 5} {a : Bool} (h : a ≠ markWant i.val s) : execPhaseMarkEdge i a s = .next s := by
  rw [execPhaseMarkEdge, if_neg (by simp [h])]

theorem execWindowFreeze_first (hl : s.live = true) (h : s.tim.frozen = false) :
    execWindowFreeze s = .next (forN 4 freezeCam (s.onTim fun x => { x with frozen := true })) := by
  rw [execWindowFreeze, if_pos (by simp [hl, h])]

theorem execWindowFreeze_frozen (h : s.tim.frozen = true) : execWindowFreeze s = .next s := by
  rw [execWindowFreeze, if_neg (by simp [h])]

/-! ## The unlock criterion (R53) -/

theorem lockSample_unlocks {err : Int} (hs : s.tim.st = .locked) (he : s.tim.mode.unlockThrNs < err.natAbs)
    (hr : s.tim.mode.unlockCount ≤ s.tim.unlockRun + 1) : lockSample err s =
      timRaise 0x1 (goPhase .acquiring s.tim.src.toNat (s.onTim fun t => { t with unlockCnt := sat t.unlockCnt })) := by
  simp only [lockSample, hs, he, hr, if_true, reduceCtorEq, if_false]

theorem lockSample_unlocked {err : Int} (hs : s.tim.st = .locked) (he : s.tim.mode.unlockThrNs < err.natAbs)
    (hr : s.tim.mode.unlockCount ≤ s.tim.unlockRun + 1) : (lockSample err s).tim.st = .acquiring ∧
    (lockSample err s).tim.unlockCnt = sat s.tim.unlockCnt ∧ (lockSample err s).tim.sticky.getLsbD 0 = true := by
  rw [lockSample_unlocks hs he hr]
  refine ⟨?_, ?_, timRaise_sticky rfl _⟩
  · rw [timRaise_tim]; rfl
  · rw [timRaise_tim]; rfl

theorem takeSample_unlocked {err : Int} (hint : Int) (hs : s.tim.st = .locked) (he : s.tim.mode.unlockThrNs < err.natAbs)
    (hr : s.tim.mode.unlockCount ≤ s.tim.unlockRun + 1) : (takeSample err hint s).tim.st = .acquiring ∧
    (takeSample err hint s).tim.unlockCnt = sat s.tim.unlockCnt ∧ (takeSample err hint s).tim.sticky.getLsbD 0 = true := by
  unfold takeSample
  refine lockSample_unlocked ?_ ?_ ?_
  · exact hs
  · exact he
  · exact hr

end
end Sys2Proof.Machine

namespace Sys2Proof.Proofs
open Sys2Proof.Machine

/-- Settles O46: an equation of exec for each event under its conditions, and what a lost source and the unlock criterion leave. -/
theorem referenceAndCameraEvents : Obligations.ReferenceAndCameraEvents := by
  refine ⟨fun b s => execRefInEdge_selected, fun b c s hr => ⟨execRefInEdge_unsupplied b hr, execCamShutEdge_unsupplied b hr⟩,
    fun i s hl ha hi => ?loss, fun s hl hs ho => ⟨_, execHoldoverExpire_over hl hs ho, timRaise_only _ _ (onlyReports_refl _)⟩,
    fun s hl ho => ⟨_, execLockTimeout_over hl ho, completeOpt_only _ _ _ _ (timRaise_only _ _ (onlyReports_refl _))⟩,
    fun c s hl hm => ?missing, fun c level s hl hr hm => ⟨execCamShutEdge_first level hl hr hm,
      fun e hc hn => execCamShutEdge_glitch level hl hr hm hc hn⟩,
    fun i a s hl => ⟨execPhaseMarkEdge_wanted hl, execPhaseMarkEdge_unwanted⟩, fun s => execWindowFreeze_first,
    fun s => execWindowFreeze_frozen, fun err hint s => takeSample_unlocked hint⟩
  case loss =>
    rcases hi with ⟨rfl, he, hp⟩ | ⟨rfl, hs, ho⟩
    · exact ⟨_, execRefLoss_lost hl ha he hp, loseSource_lost s⟩
    · exact ⟨_, execSteerTimeout_lost hl ha hs ho, (loseSource_lost s).raise 0x20⟩
  case missing =>
    rcases Nat.lt_or_ge ((s.cam c.val).miss + 1) (nth s.tim.mode.cams c.val).missLimit with hlow | hlim
    · refine ⟨_, execCamOpenEdgeMissing_below hl hm hlow, ?_⟩
      rw [missedOpen_cam]
      exact ⟨rfl, rfl, fun _ => rfl, fun h => absurd h (by omega)⟩
    · refine ⟨_, execCamOpenEdgeMissing_limit hl hm hlim, ?_⟩
      split
      next hlost =>
        rw [missedOpen_cam] at hlost ⊢
        refine ⟨rfl, rfl, fun h => absurd h (by omega), fun _ => ⟨hlost, fun hseen => ?_⟩⟩
        exact absurd ((if_pos hseen).symm.trans hlost) nofun
      next =>
        rw [loseCam_cam, missedOpen_cam]
        exact ⟨rfl, rfl, fun h => absurd h (by omega), fun _ => ⟨rfl, fun _ => ⟨rfl, loseCam_sticky ..⟩⟩⟩

end Sys2Proof.Proofs
end

section
/-!
PROOFS. Two endings that the sequencer reports: a SEQ_COMMIT for a port whose commit still waits (R116), and a HOLD_SET that no HOLD_BREAK
slot has ended in time (R125). O47 and O48 are settled here.
-/
namespace Sys2Proof.Machine

/-! ## What reports leave of the sequencer and the management's state -/

section
variable {s t : State} (h : onlyReports s t)
include h

theorem only_seq : t.seq = s.seq := show t.settings.seq = s.settings.seq by rw [h]
theorem only_port (p : Nat) : t.port p = s.port p := by rw [State.port, only_seq h, State.port]
theorem only_mgtSt : t.mgt.st = s.mgt.st := show t.settings.mgt.st = s.settings.mgt.st by rw [h]

end

/-! ## SEQ_COMMIT while a commit waits (R116) -/

/-- A byte below 16 has its upper four bits 0. -/
theorem rsvBits_high_none {c : Cmd} {o : Nat} (h : u8 (Cmd.payload c) o < 16) : rsvBits c o 0xF0 = none := by
  have hz : ∀ n < 16, (n &&& 0xF0 != 0) = false := by decide
  rw [rsvBits, hz _ h]
  rfl

/-- Three reserved bytes that are 0. -/
theorem rsv_three_none {c : Cmd} {o : Nat} (h : ∀ i < 3, u8 (Cmd.payload c) (o + i) = 0) : rsv c o 3 = none := by
  have hz : zeros (Cmd.payload c) o 3 = true := by
    rw [zeros, List.all_eq_true]
    intro x hx
    obtain ⟨i, hi, rfl⟩ := List.mem_iff_getElem.1 hx
    rw [List.length_take, List.length_drop] at hi
    have hb := h i (by omega)
    rw [u8, List.getD_eq_getElem _ _ (by omega)] at hb
    rw [List.getElem_take, List.getElem_drop, beq_iff_eq]
    exact BitVec.eq_of_toNat_eq hb
  rw [rsv, hz]
  rfl

/-- SEQ_COMMIT's own checks begin with its reserved bits and with BUSY for a port whose commit waits. -/
theorem seqCommit_check {c : Cmd} {s : State} (hmask : u8 (Cmd.payload c) 0 < 16) (hrsv : ∀ i ∈ [1, 2, 3], u8 (Cmd.payload c) i = 0)
    (hport : ∃ p ∈ commitMask c, (s.port p).commitSeqs.isSome = true) : specSeqCommit.check c s = some ⟨.busy, 0⟩ := by
  have hlow : rsv c 1 3 = none := rsv_three_none fun i hi => hrsv (1 + i) (by interval_cases i <;> decide)
  have hany : ((commitMask c).any fun p => (s.port p).commitSeqs.isSome) = true := List.any_eq_true.2 hport
  simp only [specSeqCommit, rsvBits_high_none hmask, hlow, hany]
  rfl

/-! ## What a completion leaves of the journal and of the commands in hand (R448, R453) -/

/-- The journal, and the commands that await their completion. -/
def State.records (s : State) : List JEntry × List Held := (s.hif.journal, s.hif.awaiting)

section
variable (s : State)

theorem msix_records (h v : Nat) : (msix h v s).records = s.records := by
  unfold msix
  dsimp only
  split <;> rfl

theorem writeReply_records (r : Reply) : (writeReply r s).records = s.records := by
  unfold writeReply
  split
  · rfl
  · split
    · rfl
    · dsimp only
      split
      · exact msix_records ..
      · rfl

theorem writeReplies_records (rs : List Reply) : (writeReplies rs s).records = s.records := by
  induction rs generalizing s with
  | nil => rfl
  | cons r rs ih =>
    unfold writeReplies
    split
    · rw [ih, writeReply_records]
    · exact ih s

theorem replyUnlessQuiet_records (h : Held) (st : Status) (r : Reply) : (replyUnlessQuiet h st r s).records = s.records := by
  unfold replyUnlessQuiet
  split
  · rfl
  · exact writeReplies_records ..

/-- The commands in hand without one. -/
def State.without (h : Held) (s : State) : State := s.onHif fun x => { x with awaiting := x.awaiting.filter fun y => y.jseq != h.jseq }

/-- A completion takes the command off those in hand and enters its COMPLETE entry. -/
theorem complete_records (h : Held) (st : Status) (d : Word) : (complete h st d s).records =
    (journalAdd (heldEntry h .complete st d (s.without h)) (s.without h)).records :=
  replyUnlessQuiet_records ..

theorem journalAdd_awaiting (e : JEntry) : (journalAdd e s).hif.awaiting = s.hif.awaiting := by
  unfold journalAdd
  split <;> rfl

/-- No command awaits its completion any more under the JSEQ of one that has completed. -/
theorem complete_awaiting (h : Held) (st : Status) (d : Word) : ∀ x ∈ (complete h st d s).hif.awaiting, x.jseq ≠ h.jseq := by
  have ha : (complete h st d s).hif.awaiting = s.hif.awaiting.filter fun y => y.jseq != h.jseq :=
    (congrArg Prod.snd (complete_records s h st d)).trans (journalAdd_awaiting ..)
  intro x hx
  rw [ha, List.mem_filter] at hx
  exact bne_iff_ne.1 hx.2

/-- A journal that is kept begins with the entry that has just been added. -/
theorem journalAdd_newest (e : JEntry) (hr : s.mgt.st ≠ .recovery) : ∃ e' rest, (journalAdd e s).hif.journal = e' :: rest ∧
    e'.kind = e.kind ∧ e'.ref = e.ref ∧ e'.status = e.status := by
  rw [journalAdd, if_neg hr]
  exact ⟨_, _, rfl, rfl, rfl, rfl⟩

/-- Outside RECOVERY the newest entry is then the command's COMPLETE entry. -/
theorem complete_journal (h : Held) (st : Status) (d : Word) (hr : s.mgt.st ≠ .recovery) :
    ∃ e rest, (complete h st d s).hif.journal = e :: rest ∧ e.kind = .complete ∧ e.ref = h.jseq ∧ e.status = st := by
  rw [show (complete h st d s).hif.journal = _ from congrArg Prod.fst (complete_records s h st d)]
  exact journalAdd_newest (s.without h) (heldEntry h .complete st d (s.without h)) hr

end

/-! ## A HOLD_SET that times out (R125) -/

/-- The port once its HOLD_SET is given up: what was fetched for the held plane is discarded, and the request is gone. -/
def Port.holdGiven (q : Port) : Port :=
  let q := if q.hold.breakSeen then loadAnew (q.slot.toNat + 1) q else q
  { q with hold := { q.hold with req := none, cmd := none, breakSeen := false } }

theorem Port.holdGiven_hold (q : Port) : q.holdGiven.hold = { q.hold with req := none, cmd := none, breakSeen := false } := by
  unfold Port.holdGiven
  split <;> rfl

theorem Port.holdGiven_sticky (q : Port) : q.holdGiven.sticky = q.sticky := by
  unfold Port.holdGiven
  split <;> rfl

/-- A hold that two periods have not brought ends with its sticky bit and its command's completion. -/
theorem execHoldTimeout_due {p : Fin 4} {h : Held} {s : State} (hreq : (s.port p.val).hold.req.isSome = true)
    (hon : (s.port p.val).hold.on = false) (hcmd : (s.port p.val).hold.cmd = some h)
    (hdue : (s.port p.val).hold.reqTk + 2 * periodTk ≤ absTick s) : execHoldTimeout p s =
      .next (retarget (complete h .timeout 0 (seqRaise p.val 0x200 (s.onPort p.val Port.holdGiven)))) := by
  simp only [execHoldTimeout, hreq, hon, hcmd, hdue, decide_true, Bool.not_false, Bool.and_self, if_true]
  rfl

end Sys2Proof.Machine

namespace Sys2Proof.Proofs
open Sys2Proof.Machine

/-- Settles O47: the BUSY of R116 is the first of the command's own checks, and no refusal changes the sequencer. -/
theorem secondCommitIsRefusedBusy : Obligations.SecondCommitIsRefusedBusy := by
  intro c s hread hh hg hmask hrsv hport
  have hbusy : specSeqCommit.check c (atChecks c s) = some ⟨.busy, 0⟩ :=
    seqCommit_check hmask hrsv (by simpa only [commitMask, only_port (atChecks_only c s)] using hport)
  have href : refusedWith specSeqCommit c ⟨.busy, 0⟩ s := ⟨hread, (refusal_of_header hh hg).trans hbusy⟩
  refine ⟨href, accept specSeqCommit c s, rfl, ?_⟩
  rw [accept_refused _ _ _ _ href]
  exact only_seq (refuse_only _ _ _ _ (atChecks_only c s))

/-- Settles O48: the request is given up, its bit is set and its command completes, in that order. -/
theorem holdTimesOut : Obligations.HoldTimesOut := by
  intro p h s hreq hon hcmd hdue
  have hraise := seqRaise_only p.val 0x200 (s.onPort p.val Port.holdGiven) (onlyReports_refl _)
  have hport : ((complete h .timeout 0 (seqRaise p.val 0x200 (s.onPort p.val Port.holdGiven))).port p.val) =
      { (s.port p.val).holdGiven with sticky := (s.port p.val).sticky ||| 0x200 } := by
    rw [only_port (complete_only h .timeout 0 _ hraise), State.onPort_self _ _ _ p.isLt, State.onPort_self _ _ _ p.isLt,
      Port.holdGiven_sticky]
  refine ⟨_, execHoldTimeout_due hreq hon hcmd hdue, ?sticky, ?req, ?cmd, ?on, complete_awaiting _ h .timeout 0, fun hr => ?journal⟩
  case sticky => exact congrArg Port.sticky hport
  case req => exact (congrArg (fun q => q.hold.req) hport).trans (by rw [Port.holdGiven_hold])
  case cmd => exact (congrArg (fun q => q.hold.cmd) hport).trans (by rw [Port.holdGiven_hold])
  case on => exact (congrArg (fun q => q.hold.on) hport).trans (by rw [Port.holdGiven_hold, hon])
  case journal => exact complete_journal _ h .timeout 0 (by rwa [only_mgtSt hraise])

end Sys2Proof.Proofs
end

section
/-!
PROOFS. The commands that set a port of the sequencer, load its sequences and commit them (R111, R112, R115 to R117, R150). O22 is settled
here.
-/
namespace Sys2Proof.Machine

/-! ## States that differ in reports and in the target tables (R149, R150) -/

theorem onlyTables_of_only {s t : State} (h : onlyReports s t) : onlyTables s t := congrArg State.noTables h
theorem onlyTables_trans {a b c : State} (h : onlyTables a b) (k : onlyTables b c) : onlyTables a c := Eq.trans k h

section
variable (s : State)

/-- The tables built for the coming boundary, and nothing else, differ after a rebuild. -/
theorem retarget_tables : onlyTables s (retarget s) := by
  have hd (f : Fin 128 → Vector (BitVec 16) 64) : (Vector.ofFn fun k : Fin 128 => { s.ill.drivers[k] with target := f k }).map
      (fun d => { d with target := default }) = s.ill.drivers.map fun d => { d with target := default } := by
    ext1 k hk
    simp
  have hn (m : List Combo) (f : Fin 128 → Vector (BitVec 16) 64) : (s.settings.onIll fun i => { i with
      mapNext := m, drivers := Vector.ofFn fun k => { i.drivers[k] with target := f k } }).noTables = s.settings.noTables := by
    simp only [State.noTables, State.onIll, show s.settings.ill = s.ill from rfl, hd]
  exact hn _ _

theorem retargetWith_tables (h : Held) : onlyTables s (retargetWith h s) := by
  have hwait : onlyReports s (s.onHif fun x => { x with deferred := x.deferred ++ [h] }) := only_onHif (onlyReports_refl s) _ rfl
  have hback (u : State) : onlyReports u (u.onHif fun x => { x with deferred := s.hif.deferred }) :=
    only_onHif (onlyReports_refl u) _ rfl
  exact onlyTables_trans (onlyTables_of_only hwait) (onlyTables_trans (retarget_tables _) (onlyTables_of_only (hback _)))

end

/-! ## The same change of two states that differ only in reports -/

theorem same_onPort {a s : State} (h : onlyReports a s) (p : Nat) (f : Port → Port) : onlyReports (a.onPort p f) (s.onPort p f) :=
  same_onSeq h _

theorem same_foldl {α : Type} {f : State → α → State} (hf : ∀ x {a s : State}, onlyReports a s → onlyReports (f a x) (f s x))
    (l : List α) {a s : State} (h : onlyReports a s) : onlyReports (l.foldl f a) (l.foldl f s) := by
  induction l generalizing a s with
  | nil => exact h
  | cons x l ih => exact ih (hf x h)

/-! ## Commands that await a boundary -/

/-- A row whose effect at acceptance is the coming tables alone leaves only them and reports. -/
theorem completes_of_retarget {sp : OpSpec} {row : Cmd → Instr} (hx : ∀ c s, exec (row c) s = .next (accept sp c s))
    (he : ∀ h s, (sp.effect h s).st = retargetWith h s) : Completes sp row fun _ s t => onlyTables s t :=
  completes_of_effect hx fun _ _ h u _ hu _ _ ht => onlyTables_trans (onlyTables_of_only hu)
    (onlyTables_trans (retargetWith_tables u h) (onlyTables_of_only (he h u ▸ ht)))

/-- A command that may take effect later than its boundary only becomes due there. -/
theorem applyHeld_late {sp : OpSpec} {h : Held} (s : State) (hf : boundaryOps.find? (fun x => x.op == h.opcode) = some sp)
    (hd : h.due = none) (hl : sp.late = true) : applyHeld h s = sp.apply h s := by
  simp only [applyHeld, hf, hd, hl, Option.isNone_none, if_true]

/-- One whose effect there is the same on states that differ only in reports leaves that effect, but for reports. -/
theorem applyHeld_same {sp : OpSpec} {h : Held} (s : State) (hf : boundaryOps.find? (fun x => x.op == h.opcode) = some sp)
    (hd : h.due = none) (hl : sp.late = false) (hs : hasStep h.opcode.toNat = false)
    (ha : ∀ {a u : State}, onlyReports a u → onlyReports (sp.apply h a) (sp.apply h u)) :
    onlyReports (sp.apply h s) (applyHeld h s) :=
  onlyReports_trans (ha (journalApply_only h s (onlyReports_refl s))) (applyHeld_apply s hf hd hl hs)

theorem putPortSet_same (h : Held) {a s : State} (hs : onlyReports a s) : onlyReports (putPortSet h a) (putPortSet h s) :=
  same_onIll (same_onPort hs _ _) _

end Sys2Proof.Machine

namespace Sys2Proof.Proofs
open Sys2Proof.Machine

/-- Settles O22: each effect is an update of the command's ports, with the coming tables built anew. -/
theorem sequenceCommandsSetTheirPort : Obligations.SequenceCommandsSetTheirPort := by
  refine ⟨completes_of_retarget (fun _ _ => rfl) fun _ _ => rfl,
    completes_of_effect (fun _ _ => rfl) fun c s h u t hu hc _ ht => ?load,
    completes_of_effect (fun _ _ => rfl) fun c s h u t hu hc ho ht => ⟨h, hc, ho, ?commit⟩,
    completes_of_no_effect (fun _ _ => rfl) fun _ _ => rfl,
    fun h s ho hd => ?portBoundary, fun h s ho hd => ?commitBoundary, fun h s ho hd => ?driveBoundary⟩
  case load => subst hc; exact onlyReports_trans (same_onPort hu _ _) ht
  case commit =>
    subst hc
    exact onlyTables_trans (onlyTables_of_only (same_foldl (fun p _ _ k => same_onPort k p _) _ hu))
      (onlyTables_trans (retarget_tables _) (onlyTables_of_only ht))
  case portBoundary =>
    exact applyHeld_same (sp := specSeqPortSet) s (by rw [ho]; rfl) hd rfl (by rw [ho]; rfl) (putPortSet_same h)
  case commitBoundary => exact applyHeld_late (sp := specSeqCommit) s (by rw [ho]; rfl) hd rfl
  case driveBoundary =>
    exact applyHeld_same (sp := specSeqDriveSet) s (by rw [ho]; rfl) hd rfl (by rw [ho]; rfl) fun k => same_onPort k _ _

end Sys2Proof.Proofs
end

section
/-!
PROOFS. The commands that ask for a hold, end it, and lay out a plane store (R123, R129, R241). O23 is settled here.
-/
namespace Sys2Proof.Machine

/-! ## The same events and wake-ups of two states that differ only in reports -/

theorem same_raise {a s : State} (h : onlyReports a s) (i : Instr) : onlyReports (a.raise i) (s.raise i) := by
  have hs (t : State) : (t.raise i).settings = t.settings.raise i := by
    rw [State.raise, State.raise, show t.settings.raised = t.raised from rfl]
    split <;> rfl
  rw [onlyReports, hs, hs, h]

theorem same_forN {f : Nat → State → State} (hf : ∀ i {a s : State}, onlyReports a s → onlyReports (f i a) (f i s)) (n : Nat)
    {a s : State} (h : onlyReports a s) : onlyReports (forN n f a) (forN n f s) := by
  induction n with
  | zero => exact h
  | succ n ih => exact hf n ih

theorem wakeMemory_same {a s : State} (h : onlyReports a s) : onlyReports (wakeMemory a) (wakeMemory s) := by
  refine same_forN (fun i b t k => ?_) 4 h
  rw [only_mem k]
  split
  · exact same_raise k _
  · exact k

theorem only_ns {s t : State} (h : onlyReports s t) : t.ns = s.ns := show t.settings.ns = s.settings.ns by rw [h]

theorem resumeLink_same (p : Nat) {a s : State} (h : onlyReports a s) : onlyReports (resumeLink p a) (resumeLink p s) := by
  unfold resumeLink
  dsimp only
  rw [only_port h, only_ns h]
  split
  · exact h
  · exact same_onGlk h _

theorem askReload_same (p : Nat) {a s : State} (h : onlyReports a s) : onlyReports (askReload p a) (askReload p s) := by
  unfold askReload
  rw [only_ns h]
  exact wakeMemory_same (same_onPort (resumeLink_same p h) p _)

/-! ## HOLD_SET and PLANE_STORE_SET -/

/-- What HOLD_SET's effect makes of the state before the coming tables are built: the request is recorded, and another plane of a port
in hold asks for a reload. -/
def askHold (h : Held) (s : State) : State :=
  let p := h.cmd.tindex.toNat
  let r := parseHold (Cmd.payload h.cmd)
  let n := s.onPort p fun q => { q with hold := { q.hold with req := some r, cmd := some h, reqTk := absTick s, breakSeen := false } }
  if (s.port p).hold.on && (r.colour != (s.port p).hold.colour || r.bit != (s.port p).hold.bit) then askReload p n else n

theorem holdSet_effect (h : Held) (s : State) : (specHoldSet.effect h s).st = retarget (askHold h s) := rfl

theorem only_absTick {s t : State} (h : onlyReports s t) : absTick t = absTick s :=
  show absTick t.settings = absTick s.settings by rw [h]

theorem askHold_same (h : Held) {a s : State} (hs : onlyReports a s) : onlyReports (askHold h a) (askHold h s) := by
  unfold askHold
  dsimp only
  rw [only_port hs, only_absTick hs]
  split
  · exact askReload_same _ (same_onPort hs _ _)
  · exact same_onPort hs _ _

/-- PLANE_STORE_SET's store: the view's frames are given up, and the store is freed, or laid out anew where it fits. -/
def layStore (c : Cmd) (s : State) : State :=
  let b := Cmd.payload c
  let v := c.tindex.toNat
  let w := (emptyStore true v s).onFview v fun f => { f with frame := f.frame.filter fun g => g.offered == 0, recheck := true }
  let st := parseStore b (w.store v)
  if u8 b 2 = 0 then w.onStore v noStore
  else match firstFit (storeSize st) (planeSize w.mem) (storeExtents v w) with
    | some a => w.onStore v fun _ => { st with base := a }
    | none => w

theorem planeStoreSet_effect (h : Held) (s : State) : (specPlaneStoreSet.effect h s).st = layStore h.cmd s := by
  simp only [specPlaneStoreSet, layStore]
  split
  · rfl
  · generalize firstFit _ _ _ = place
    cases place with
    | some a => rfl
    | none => rfl

end Sys2Proof.Machine

namespace Sys2Proof.Proofs
open Sys2Proof.Machine

/-- Settles O23: the effects of the three commands, on a state that differs from the one before in reports only. -/
theorem holdAndPlaneStoreCommands : Obligations.HoldAndPlaneStoreCommands := by
  refine ⟨completes_of_effect (fun _ _ => rfl) fun c s h u t hu hc ho ht => ⟨h, hc, ho, ?holdSet⟩,
    completes_of_effect (fun _ _ => rfl) fun c s h u t hu hc ho ht => ⟨h, hc, ho, ?holdExit⟩,
    completes_of_effect (fun _ _ => rfl) fun c s h u t hu hc _ ht => ⟨u, hu, ?store⟩⟩
  case holdSet =>
    subst hc
    rw [holdSet_effect] at ht
    exact onlyTables_trans (onlyTables_of_only (askHold_same h hu)) (onlyTables_trans (retarget_tables _) (onlyTables_of_only ht))
  case holdExit => subst hc; exact onlyReports_trans (same_onFab (same_onPort hu _ _) _) ht
  case store =>
    subst hc
    rw [planeStoreSet_effect] at ht
    exact ht

end Sys2Proof.Proofs
end

section
/-!
PROOFS. What the operations inside a period leave of the sequencer: strobes, triggers, sticky bits and reloads (R102, R109, R121, R126).
-/
namespace Sys2Proof.Machine

/-! ## Operations that leave the sequencer as it is -/

theorem port_of_seq {s t : State} (h : t.seq = s.seq) (p : Nat) : t.port p = s.port p := congrArg (fun x : Seq => nth x.ports p) h

section
variable (s : State)

theorem strobeSet_seq (p : Nat) : (strobeSet p s).seq = s.seq := by
  unfold strobeSet strobe
  split
  · dsimp only
    split <;> rfl
  · rfl

/-- The strobe of a port's set and the note of its light leave the sequencer as it is. -/
theorem lit_seq (p : Nat) : (noteLit (strobeSet p s)).seq = s.seq := strobeSet_seq s p
theorem lit_port (p q : Nat) : (noteLit (strobeSet p s)).port q = s.port q := port_of_seq (lit_seq s p) q

theorem stickyUp_seq {w : Nat} (vec off : Nat) (old b : BitVec w) : (stickyUp vec off old b s).seq = s.seq :=
  only_seq (stickyUp_only _ _ _ _ s (onlyReports_refl s))

theorem timRaise_seq (b : BitVec 20) : (timRaise b s).seq = s.seq := stickyUp_seq (s.onTim _) ..
theorem slcRaise_seq (b : BitVec 15) : (slcRaise b s).seq = s.seq := stickyUp_seq (s.onSlc _) ..
theorem cleRaise_seq (b : BitVec 4) : (cleRaise b s).seq = s.seq := stickyUp_seq (s.onCle _) ..
theorem loopRaise_seq (n : Nat) (b : BitVec 3) : (loopRaise n b s).seq = s.seq := stickyUp_seq (s.onLoop n _) ..

theorem fireTrigger_seq (n : Nat) : (fireTrigger n s).seq = s.seq := by
  unfold fireTrigger
  split
  · rfl
  · split
    · exact (cleRaise_seq ..).trans (loopRaise_seq (s.onLoop n _) ..)
    · rfl

theorem slotTriggers_seq (p : Nat) (e : Vector (BitVec 6) 4) : (slotTriggers p e s).seq = s.seq := by
  rw [slotTriggers, forN_keeps (g := State.seq) fun n t => ?_]
  dsimp only
  split
  · rfl
  · split
    · exact fireTrigger_seq ..
    · rfl

theorem lightBack_seq (p : Nat) : (lightBack p s).seq = s.seq := rfl

theorem endSlot_seq (p : Nat) : (endSlot p s).seq = s.seq := by
  unfold endSlot
  dsimp only
  split
  · split
    · exact slotTriggers_seq ..
    · rfl
  · rfl

end

/-! ## The running slot (R102, R109) -/

/-- Which slot of a port runs, since which tick, with which entries, and whether they settle. -/
def Port.inSlot (q : Port) : BitVec 12 × Nat × Vector (BitVec 6) 4 × Bool := (q.slot, q.slotStart, q.entries, q.settling)

section
variable (s : State)

theorem onPort_inSlot {f : Port → Port} (hf : ∀ q, (f q).inSlot = q.inSlot) (p : Fin 4) :
    ((s.onPort p.val f).port p.val).inSlot = (s.port p.val).inSlot := by
  rw [State.onPort_self _ _ _ p.isLt, hf]

theorem seqRaise_inSlot (p : Fin 4) (b : BitVec 10) : ((seqRaise p.val b s).port p.val).inSlot = (s.port p.val).inSlot := by
  rw [only_port (seqRaise_only p.val b s (onlyReports_refl _))]
  exact onPort_inSlot s (f := fun x => { x with sticky := x.sticky ||| b }) (fun _ => rfl) p

theorem armHold_inSlot (p : Fin 4) (r : HoldReq) : ((armHold p.val r s).port p.val).inSlot = (s.port p.val).inSlot := by
  rw [armHold, onPort_inSlot s fun _ => ?_]
  rfl

/-- A slot that starts runs from its tick with its entries, whatever it is shown as. -/
theorem startSlot_inSlot {p : Fin 4} {k t : Nat} {x : Slot} (hx : (s.port p.val).slots[k]? = some x) :
    ((startSlot p.val k t s).port p.val).inSlot = (BitVec.ofNat 12 k, t, x.entry, x.glob) := by
  unfold startSlot
  lift_lets
  intro q cams
  split
  next hnone => exact absurd (hnone.symm.trans hx) nofun
  next y hy =>
    obtain rfl : x = y := Option.some.inj (hx.symm.trans hy)
    lift_lets
    intro r none' s1 s2 v s3 s4 s5
    have h1 : (s1.port p.val).inSlot = (BitVec.ofNat 12 k, t, x.entry, x.glob) := by
      rw [show s1 = s.onPort p.val _ from rfl, State.onPort_self _ _ _ p.isLt]
      rfl
    have h2 : (s2.port p.val).inSlot = (s1.port p.val).inSlot := by
      dsimp only [s2]
      split
      · exact seqRaise_inSlot ..
      · rfl
    have h3 : s3.seq = s2.seq := by
      dsimp only [s3]
      split
      · exact slcRaise_seq ..
      · rfl
    have h4 : s4.seq = s3.seq := foldl_keeps (g := State.seq) (fun t c => timRaise_seq (t.onCam c _) _) _ _
    have h5 : s5.seq = s4.seq := (lightBack_seq ..).trans (State.onIll_seq ..)
    have h : (s5.port p.val).inSlot = (BitVec.ofNat 12 k, t, x.entry, x.glob) := by
      rw [port_of_seq (h5.trans (h4.trans h3)), h2, h1]
    clear_value s5
    split
    · split
      · exact (armHold_inSlot ..).trans h
      · exact h
    · exact h

end
end Sys2Proof.Machine
end

section
/-!
PROOFS. What a plane reader fetches: a row whose words all read well comes whole into its buffer (R255, R256, R403 to R406).
-/
namespace Sys2Proof.Machine

/-! ## A run of bursts covers its bytes once -/

theorem memRead_bursts (m : List Host.Cell) (a n : Nat) : ((burstsOf a n).flatMap fun w => memRead m w.1 w.2) = memRead m a n := by
  induction n using Nat.strongRecOn generalizing a with
  | ind n ih =>
    by_cases h0 : n = 0
    · subst h0
      rw [burstsOf_zero]
      rfl
    · rw [burstsOf_step a n (by omega), List.flatMap_cons, ih _ (by omega), ← memRead_append]
      congr 1
      omega

/-! ## A plane reader's reads (R406, R410) -/

/-- What port p's plane reader reads at an address. -/
def readerRead (p : Fin 4) (a : Nat) (closes : Bool) : MemReq :=
  { port := Fin.ofNat 11 (5 + p.val), space := .plane, addr := a, closes := closes }

/-- Protection refuses no plane reader. -/
theorem protRefused_readerRead (p : Fin 4) (a : Nat) (c : Bool) (s : State) : protRefused (readerRead p a c) s = false := by
  have hport : 5 ≤ (readerRead p a c).port.val ∧ (readerRead p a c).port.val ≤ 8 := by
    show 5 ≤ (5 + p.val) % 11 ∧ (5 + p.val) % 11 ≤ 8
    omega
  simp only [protRefused, show (readerRead p a c).data = none from rfl, hport.1, hport.2, decide_true, Bool.and_self, Bool.or_true,
    Bool.true_or, Bool.not_true, Bool.and_false]

/-- One burst of a reader's run that ends at e. -/
def readerStep (p : Fin 4) (e : Nat) (g : Fetched) (w : Nat × Nat) : Fetched :=
  let t := serveBurst (readerRead p w.1 (w.1 + w.2 == e)) (meter (Fin.ofNat 11 (5 + p.val)).val g.st)
  { bytes := g.bytes ++ burstBytes (readerRead p w.1 (w.1 + w.2 == e)) w.2 t.2 t.1
    bad := if t.2 then g.bad ++ [w.1 / 32 * 32] else g.bad, st := t.1 }

theorem portRead_reader (p : Fin 4) (a n : Nat) (s : State) :
    portRead { port := Fin.ofNat 11 (5 + p.val), space := .plane, addr := a } n s =
      (burstsOf a n).foldl (readerStep p (a + n)) { st := s } := rfl

theorem readerStep_good (p : Fin 4) (e : Nat) (g : Fetched) (w : Nat × Nat) (hb : badWord .plane w.1 g.st = false) :
    (readerStep p e g w).bytes = g.bytes ++ memRead g.st.mem.plane w.1 w.2 ∧ (readerStep p e g w).bad = g.bad ∧
      Metered g.st (readerStep p e g w).st := by
  have hm := meter_metered (Fin.ofNat 11 (5 + p.val)).val g.st
  obtain ⟨hgood, hserve⟩ := serveBurst_good (readerRead p w.1 (w.1 + w.2 == e)) (meter (Fin.ofNat 11 (5 + p.val)).val g.st) rfl rfl
    (protRefused_readerRead ..) ((hm.bad _ _).trans hb)
  have hst := hm.trans hserve
  refine ⟨?bytes, ?bad, hst⟩
  case bytes =>
    simp only [readerStep, burstBytes, protRefused_readerRead, hgood, Bool.false_eq_true, if_false]
    exact congrArg (fun m => g.bytes ++ memRead m w.1 w.2) (hst.cells .plane)
  case bad => simp only [readerStep, hgood, Bool.false_eq_true, if_false]

theorem readerRun_good (p : Fin 4) (e : Nat) (ws : List (Nat × Nat)) (g : Fetched) (hb : ∀ w ∈ ws, badWord .plane w.1 g.st = false) :
    (ws.foldl (readerStep p e) g).bytes = g.bytes ++ (ws.flatMap fun w => memRead g.st.mem.plane w.1 w.2) ∧
      (ws.foldl (readerStep p e) g).bad = g.bad ∧ Metered g.st (ws.foldl (readerStep p e) g).st := by
  induction ws generalizing g with
  | nil => exact ⟨by simp, rfl, .refl _⟩
  | cons w ws ih =>
    obtain ⟨hbytes, hbad, hst⟩ := readerStep_good p e g w (hb w (List.mem_cons_self ..))
    obtain ⟨ihbytes, ihbad, ihst⟩ := ih (readerStep p e g w) fun x hx => (hst.bad _ _).trans (hb x (List.mem_cons_of_mem _ hx))
    refine ⟨?_, ihbad.trans hbad, hst.trans ihst⟩
    rw [List.foldl_cons, ihbytes, hbytes, show (readerStep p e g w).st.mem.plane = g.st.mem.plane from hst.cells .plane,
      List.flatMap_cons, List.append_assoc]

/-- A reader's run of words that all read well brings the bytes of the plane region. -/
theorem portRead_reader_good (p : Fin 4) (a n : Nat) (s : State) (hb : ∀ w ∈ burstsOf a n, badWord .plane w.1 s = false) :
    (portRead { port := Fin.ofNat 11 (5 + p.val), space := .plane, addr := a } n s).bytes = memRead s.mem.plane a n ∧
      (portRead { port := Fin.ofNat 11 (5 + p.val), space := .plane, addr := a } n s).bad = [] ∧
      Metered s (portRead { port := Fin.ofNat 11 (5 + p.val), space := .plane, addr := a } n s).st := by
  obtain ⟨hbytes, hbad, hst⟩ := readerRun_good p (a + n) (burstsOf a n) { st := s } hb
  rw [portRead_reader]
  exact ⟨hbytes.trans (memRead_bursts ..), hbad, hst⟩

/-! ## The next row of a plane (R255) -/

theorem Metered.port {s t : State} (h : Metered s t) (p : Nat) : t.port p = s.port p := by
  obtain ⟨_, _, _, _, _, rfl⟩ := h
  rfl

section
variable (s : State)

/-- A note of the plane that the reader starts on leaves its rows. -/
theorem noteStart_rows (p : Fin 4) (k : Nat) : ((noteStart p.val k s).port p.val).rows = (s.port p.val).rows := by
  rw [noteStart, State.onPort_self _ _ _ p.isLt]
  split <;> rfl

/-- A row whose words all read well comes whole into the reader's buffer. -/
theorem fetchRow_rows (p : Fin 4) (k : Nat)
    (hb : ∀ w ∈ burstsOf ((loadPlane p.val k s).base + 1024 * (s.port p.val).fetchRow) 1024, badWord .plane w.1 s = false) :
    ((fetchRow p.val k s).port p.val).rows = (s.port p.val).rows ++ [(k, (s.port p.val).fetchRow, BitVec.ofNat 8192
      (rowBits (memRead s.mem.plane ((loadPlane p.val k s).base + 1024 * (s.port p.val).fetchRow) 1024)))] := by
  unfold fetchRow
  lift_lets
  intro y a f t
  obtain ⟨hbytes, hbad, hst⟩ := portRead_reader_good p a 1024 (noteStart p.val k s) hb
  have hf : f.st.port p.val = (noteStart p.val k s).port p.val := hst.port _
  have ht : (t.port p.val).rows = (s.port p.val).rows ++ [(k, y, BitVec.ofNat 8192 (rowBits (memRead s.mem.plane a 1024)))] := by
    rw [show t = f.st.onPort p.val _ from rfl, State.onPort_self _ _ _ p.isLt, show f.bytes = _ from hbytes, hf, noteStart_rows]
    rfl
  have hnone : (f.bad.find? fun w => w < a + ceilDiv (s.arr p.val).width 256 * 32) = none := by rw [show f.bad = [] from hbad]; rfl
  clear_value t f
  rw [hnone]
  dsimp only
  rw [State.onPort_self _ _ _ p.isLt]
  split <;> exact ht

/-- The reader passes over nothing when its next slot reads a plane. -/
theorem skipTo_self (p lim : Nat) (h : (loadPlane p (s.port p).fetchSlot s).zero = false) : skipTo p lim s = s := by
  unfold skipTo
  cases lim + 1 - (s.port p).fetchSlot with
  | zero => rfl
  | succ n => simp [skipZero, h]

/-- A port that is not in hold fetches, within its limit, the next row of its next slot's plane. -/
theorem execPlaneRowFetch_fetches {p : Fin 4} {lim : Nat} (hl : s.live = true) (he : (s.port p.val).enable = true)
    (hs : s.pictureStops = false) (hm : memServes s = true) (hr : (s.port p.val).rows.length < 2048) (hb : bandHeight p.val s ≠ 0)
    (hlim : fetchLimit (s.port p.val) = some lim) (hk : (s.port p.val).fetchSlot ≤ lim)
    (hn : (s.port p.val).fetchSlot < (s.port p.val).slots.length) (hh : (s.port p.val).hold.on = false)
    (hz : (loadPlane p.val (s.port p.val).fetchSlot s).zero = false) :
    execPlaneRowFetch p s = .next (fetchRow p.val (s.port p.val).fetchSlot s) := by
  have hheld : (s.port p.val).held = false := by rw [Port.held, hh]; rfl
  have hroom : ¬ 2048 ≤ (s.port p.val).rows.length := by omega
  have hthis : ¬ (s.port p.val).slots.length ≤ (s.port p.val).fetchSlot := by omega
  simp [execPlaneRowFetch, hlim, hl, he, hs, hm, hroom, hb, hheld, skipTo_self s _ _ hz, hthis, hk]

end
end Sys2Proof.Machine
end

section
/-!
PROOFS. Sub-slots in hold, the selection point, band resets and changeovers (R118, R126, R127, R256, R259, R278). O49 is settled here.
-/
namespace Sys2Proof.Machine

/-! ## Slots and sub-slots (R102, R109, R126) -/

/-- A port whose hold does not begin here starts its next slot. -/
theorem execSlotStart_starts {p : Fin 4} {s : State} {x : Slot} (hl : s.live = true) (he : (s.port p.val).enable = true)
    (hstep : (s.port p.val).stepping = true) (hh : (s.port p.val).hold.on = false) (hs : s.pictureStops = false)
    (hb : holdBegins (s.port p.val) = false) (hx : (s.port p.val).slots[(s.port p.val).slot.toNat + 1]? = some x) :
    execSlotStart p s = .next (noteLit (strobeSet p.val (startSlot p.val ((s.port p.val).slot.toNat + 1)
      ((s.port p.val).slotStart + ((s.port p.val).slots.getD (s.port p.val).slot.toNat {}).dur.toNat) (endSlot p.val s)))) := by
  have hheld : (s.port p.val).held = false := by rw [Port.held, hh]; rfl
  have hlen : ¬ (s.port p.val).slots.length ≤ (s.port p.val).slot.toNat + 1 := by
    obtain ⟨hlt, -⟩ := List.getElem?_eq_some_iff.1 hx
    omega
  have hend : (endSlot p.val s).port p.val = s.port p.val := port_of_seq (endSlot_seq s p.val) _
  simp only [execSlotStart, hl, he, hstep, hheld, hs, hlen, hend, hb, Bool.not_true, Bool.or_self, decide_false, Bool.false_eq_true,
    if_false]

/-- The next sub-slot of a hold has the entries of its place in the period. -/
theorem beginSubslot_hold (p : Fin 4) (i : Nat) (s : State) : ((beginSubslot p.val i s).port p.val).hold.subslot = i ∧
    ((beginSubslot p.val i s).port p.val).entries = subslotEntry ((beginSubslot p.val i s).port p.val).hold i := by
  rw [beginSubslot, State.onPort_self _ _ _ p.isLt]
  exact ⟨rfl, rfl⟩

/-! ## The selection point (R118, R256) -/

/-- The same change of every port. -/
theorem port_forN (g : Port → Port) (s : State) {n p : Nat} (hp : p < n) (h4 : p < 4) :
    ((forN n (fun q t => t.onPort q g) s).port p) = g (s.port p) := by
  have hrest (m : Nat) (hm : m ≤ p) : (forN m (fun q t => t.onPort q g) s).port p = s.port p := by
    induction m with
    | zero => rfl
    | succ m ih => rw [forN, State.onPort_other _ _ _ _ (by omega), ih (by omega)]
  induction n with
  | zero => omega
  | succ n ih =>
    rw [forN]
    by_cases hn : n = p
    · subst hn
      rw [State.onPort_self _ _ _ h4, hrest n (le_refl n)]
    · rw [State.onPort_other _ _ _ _ hn, ih (by omega)]

/-- Frames are selected for the enabled ports that are not in hold. -/
theorem selectNext_selNext (s : State) {p : Nat} (hp : p < 4) (hnone : (s.port p).selNext = none) :
    ((selectNext s).port p).selNext.isSome = ((s.port p).enable && !(s.port p).hold.on) := by
  unfold selectNext
  lift_lets
  intro s1 s2 a sel
  have hport : s2.port p = s.port p := rfl
  clear_value sel s2
  rw [port_forN _ _ hp hp, hport]
  cases hc : (s.port p).enable && !(s.port p).hold.on with
  | true => rfl
  | false => simp [hnone]

theorem selMade_false {s : State} (h : ∀ p, p < 4 → (s.port p).selNext = none) : selMade s = false := by
  rw [selMade, List.any_eq_false]
  intro p hp
  simp [h p (List.mem_range.1 hp)]

/-! ## Band resets and changeovers (R100, R101, R258, R259, R278) -/

/-- What a port's bands wait for and show, and the underruns whose interval has not ended. -/
def Port.bands (q : Port) : Vector Nat 16 × Vector PlaneId 16 × List (Int × Nat) := (q.bandNext, q.shown, q.under)

/-- The same once band b has changed over to slot k. -/
def Port.bandsAfter (k b : Nat) (sent : Bool) (q : Port) : Vector Nat 16 × Vector PlaneId 16 × List (Int × Nat) :=
  (upd q.bandNext b fun _ => k + 1,
    upd q.shown b fun _ => if q.withheld.getLsbD b || !sent then nth q.shown b else nth q.loaded b,
    q.under.filter fun u => !(u.1 < (k : Int) && u.2 == b))

/-- A band goes on showing its plane when its reset is withheld or its rows are unsent. -/
theorem shown_ite (withheld sent : Bool) (old new : PlaneId) :
    (if withheld || !sent then old else new) = if withheld = false ∧ sent = true then new else old := by
  cases withheld with
  | true => rfl
  | false => cases sent <;> rfl

theorem skipBand_bands (p : Fin 4) (k row n : Nat) (s : State) : ((skipBand p.val k row n s).port p.val).bands = (s.port p.val).bands := by
  rw [skipBand, State.onPort_self _ _ _ p.isLt]
  lift_lets
  intro q
  split
  · split <;> rfl
  · rfl

section
variable {p : Fin 4} {b : Fin 16} {s : State}
variable (hl : s.live = true) (he : (s.port p.val).enable = true) (hstep : (s.port p.val).stepping = true) (hs : s.pictureStops = false)
variable (hh : (s.port p.val).hold.on = false) (hb : bandHeight p.val s ≠ 0)
variable (hk : nth (s.port p.val).bandNext b.val ≤ (s.port p.val).slot.toNat + 1)
include hl he hstep hs hh hb hk

/-- The reset of a band that is sent, and not withheld, joins those that wait for the link. -/
theorem execBandResetQueue_queues (hq : (s.arr p.val).scanQuiet = false)
    (hsent : bandSent p.val (nth (s.port p.val).bandNext b.val) b.val s = true) (hw : (s.port p.val).withheld.getLsbD b.val = false) :
    ∃ glob drive due, execBandResetQueue p b s = .next (queueReset p.val b.val glob drive due s) := by
  have hheld : (s.port p.val).held = false := by rw [Port.held, hh]; rfl
  have hlate : ¬ (s.port p.val).slot.toNat + 1 < nth (s.port p.val).bandNext b.val := by omega
  simp only [execBandResetQueue, hl, he, hs, hsent, hb, hq, hheld, hstep, hlate, hw, Bool.not_true, Bool.or_self, decide_false,
    Bool.false_eq_true, if_false]
  exact ⟨_, _, _, rfl⟩

/-- A changeover that is due changes its band over, whether the band is sent or its rows are passed over. -/
theorem execBandChangeover_bands : ∃ t, execBandChangeover p b s = .next t ∧ (t.port p.val).bands =
    (s.port p.val).bandsAfter (nth (s.port p.val).bandNext b.val) b.val
      (bandSent p.val (nth (s.port p.val).bandNext b.val) b.val s) := by
  have hheld : (s.port p.val).held = false := by rw [Port.held, hh]; rfl
  have hlate : ¬ (s.port p.val).slot.toNat + 1 < nth (s.port p.val).bandNext b.val := by omega
  refine ⟨_, rfl, ?_⟩
  simp only [hl, he, hs, hb, hheld, hstep, hlate, Bool.not_true, Bool.or_self, decide_false, Bool.false_eq_true, if_false, lit_port]
  split
  next hsent =>
    rw [State.onPort_self _ _ _ p.isLt, hsent]
    rfl
  next hsent =>
    rw [skipBand_bands, State.onPort_self _ _ _ p.isLt, State.onPort_self _ _ _ p.isLt, Bool.eq_false_iff.2 hsent]
    rfl

end
end Sys2Proof.Machine

namespace Sys2Proof.Proofs
open Sys2Proof.Machine

/-- Settles O49: what each event leaves of its port, of the link's queue and of the reader's rows. -/
theorem slotsStepAndBandsChangeOver : Obligations.SlotsStepAndBandsChangeOver := by
  refine ⟨fun p s x hl he hstep hh hs hb h12 hx => ?slot, fun p s hl hset => ?settle, fun p s hl hst hh hsub hs => ?subslot,
    fun s hl hshut hnone => ?select, fun p s lim hl he hs hm hr hb hlim hk hn hh hz hgood => ?fetch,
    fun p b s hl he hstep hs hh hb hq hk => ⟨fun hsent hw => ?reset, ?changeover⟩⟩
  case slot =>
    refine ⟨_, execSlotStart_starts hl he hstep hh hs hb hx, ?_⟩
    have hend := port_of_seq (endSlot_seq s p.val) p.val
    have hslot := startSlot_inSlot (endSlot p.val s) (p := p) (k := (s.port p.val).slot.toNat + 1)
      (t := (s.port p.val).slotStart + ((s.port p.val).slots.getD (s.port p.val).slot.toNat {}).dur.toNat) (by rw [hend]; exact hx)
    rw [lit_port]
    obtain ⟨hno, hat, hentry, hsettle⟩ : _ ∧ _ ∧ _ ∧ _ := by simpa only [Port.inSlot, Prod.mk.injEq] using hslot
    exact ⟨by rw [hno, BitVec.toNat_ofNat, Nat.mod_eq_of_lt h12], hentry, hsettle, hat⟩
  case settle => exact ⟨_, congrArg Host.Outcome.next (if_pos (by rw [hl, hset]; rfl)), lit_seq ..⟩
  case subslot =>
    have hgo : (s.live && (s.port p.val).st == .hold && (s.port p.val).hold.on && decide ((s.port p.val).hold.subslot < 1023) &&
        !s.pictureStops) = true := by
      rw [hl, hst, hh, hs, decide_eq_true hsub]
      rfl
    obtain ⟨hsubslot, hentries⟩ := beginSubslot_hold p ((s.port p.val).hold.subslot + 1) s
    refine ⟨_, congrArg Host.Outcome.next (if_pos hgo), ?_⟩
    rw [lit_port, hsubslot, hentries, subslotEntry, Nat.mod_eq_of_lt (by omega)]
    exact ⟨rfl, rfl⟩
  case select =>
    refine ⟨selectNext s, congrArg Host.Outcome.next (if_pos ?_), fun p hp => selectNext_selNext s hp (hnone p hp)⟩
    rw [hl, hshut, selMade_false hnone]
    rfl
  case fetch => exact ⟨_, execPlaneRowFetch_fetches s hl he hs hm hr hb hlim hk hn hh hz, fetchRow_rows s p _ hgood⟩
  case reset =>
    obtain ⟨glob, drive, due, hx⟩ := execBandResetQueue_queues hl he hstep hs hh hb hk hq hsent hw
    refine ⟨_, _, hx, rfl, ?_, BitVec.toNat_ofNat .., rfl⟩
    exact (BitVec.toNat_ofNat ..).trans (Nat.mod_eq_of_lt b.isLt)
  case changeover =>
    obtain ⟨t, hx, ht⟩ := execBandChangeover_bands hl he hstep hs hh hb hk
    obtain ⟨hnext, hshown, hunder⟩ : _ ∧ _ ∧ _ := by simpa only [Port.bands, Port.bandsAfter, Prod.mk.injEq] using ht
    refine ⟨t, hx, by rw [hnext, nth_upd_self _ _ _ b.isLt], ?_, fun u hu hub => ?_⟩
    · rw [hshown, nth_upd_self _ _ _ b.isLt, shown_ite]
    · rw [hunder, List.mem_filter] at hu
      simpa [hub] using hu.2

end Sys2Proof.Proofs
end

section
/-!
PROOFS. The commands of the illumination: the chain that one starts or stops, and the settings that the others give at their boundary
(R144, R148, R149, R152, R162 to R166). O24 is settled here.
-/
namespace Sys2Proof.Machine

/-! ## ILL_CHAIN_SET (R152) -/

theorem same_onChain {a s : State} (h : onlyReports a s) (c : Nat) (f : Chain → Chain) : onlyReports (a.onChain c f) (s.onChain c f) :=
  same_onIll h _

theorem upd_upd {α : Type} {n : Nat} (v : Vector α n) (i : Nat) (f g : α → α) : upd (upd v i f) i g = upd v i fun x => g (f x) := by
  unfold upd
  split
  · simp
  · rfl

theorem onChain_onChain (s : State) (c : Nat) (f g : Chain → Chain) : (s.onChain c f).onChain c g = s.onChain c fun x => g (f x) := by
  simp only [State.onChain, State.onIll, upd_upd]

/-- The reply to a chain's ILL_CHAIN_SET takes the command off the chain. -/
theorem chainReply_only (c : Nat) (st : Status) (s : State) :
    onlyReports (s.onChain c fun x => { x with cmd := none }) (chainReply c st s) := completeOpt_only _ _ _ _ (onlyReports_refl _)

/-- A chain that changes as a new ILL_CHAIN_SET answers the one before it. -/
theorem chainReply_onChain {s u : State} (h : onlyReports s u) (c : Nat) (st : Status) (f : Chain → Chain) :
    onlyReports (s.onChain c fun x => f { x with cmd := none }) ((chainReply c st u).onChain c f) := by
  have hf := same_onChain (chainReply_only c st u) c f
  rw [onChain_onChain] at hf
  exact onlyReports_trans (same_onChain h ..) hf

theorem illChainSet_effect (h : Held) (s : State) : (specIllChainSet.effect h s).st =
    (chainReply h.cmd.tindex.toNat .resetAborted s).onChain h.cmd.tindex.toNat
      (if bitOf (u8 (Cmd.payload h.cmd) 0) 0 then fun x => { x with
        st := .walk, n := 0, nExpect := u8 (Cmd.payload h.cmd) 1, en := false, frames := 0, enBad := 0, noCheck := true
        nopNext := false, stage := 0, walkSteps := 0, cmd := some h }
      else fun x => { x with st := .off, n := 0, nExpect := u8 (Cmd.payload h.cmd) 1, en := false }) := by
  simp only [specIllChainSet]
  split <;> rfl

/-! ## The commands that await a boundary (R443, R444) -/

/-- A change of PORT or GROUP alone begins a new role epoch. -/
theorem putDeviceSet_eq (h : Held) (s : State) : putDeviceSet h s = s.onIll fun i => { i with
    rebuild := true, drivers := upd i.drivers h.cmd.tindex.toNat fun d =>
      let b := Cmd.payload h.cmd
      let port : Option (BitVec 2) := if u8 b 0 = 0xFF then none else some (BitVec.ofNat 2 (u8 b 0))
      let group := BitVec.ofNat 2 (u8 b 1)
      { d with
        port := port, group := group, baseNom := Vector.ofFn fun k => BitVec.ofNat 16 (u16 b (4 + 2 * k.val))
        epoch := if d.port = port ∧ d.group = group then d.epoch else d.epoch + 1 } } := by
  simp only [putDeviceSet, Bool.and_eq_true, beq_iff_eq]

section
variable {s u : State} (h : onlyReports s u)
include h

theorem only_ill : u.ill = s.ill := show u.settings.ill = s.settings.ill by rw [h]
theorem only_rn : u.rn = s.rn := congrArg (·.mode.rateN) (only_tim h)
theorem only_rd : u.rd = s.rd := congrArg (·.mode.rateD) (only_tim h)

end

theorem fade_same (h : Held) {a u : State} (k : onlyReports a u) : onlyReports (specIllFade.apply h a) (specIllFade.apply h u) := by
  simp only [specIllFade, only_rn k, only_rd k]
  exact same_onIll k _

/-- A string with the settings of an ILL_STRING_SET, its checks started anew. -/
def setString (c : Cmd) (x : Str) : Str :=
  let b := Cmd.payload c
  { x with
    enable := bitOf (u8 b 0) 0, action := BitVec.ofNat 2 (field (u8 b 0) 1 2), confirm := field (u8 b 0) 3 4
    chain := BitVec.ofNat 2 (u8 b 1), channel := BitVec.ofNat 3 (field (u8 b 1) 2 3), device := BitVec.ofNat 5 (u8 b 2)
    vOpen := BitVec.ofNat 16 (u16 b 4), vShort := BitVec.ofNat 16 (u16 b 6), iMin := BitVec.ofNat 16 (u16 b 8)
    diagCur := BitVec.ofNat 16 (u16 b 10), st := if bitOf (u8 b 0) 0 then .ok else .unused
    lowduty := false, isStale := false, acting := false, openRun := 0, shortRun := 0, dutyRun := 0, measured := false
    litSeen := false, eligSeen := false, cur := none, diag := false, ready := none, pulseAt := none }

theorem illStringSet_apply (h : Held) (s : State) : specIllStringSet.apply h s =
    let w := s.onIll fun i => { i with strs := upd i.strs h.cmd.tindex.toNat (setString h.cmd) }
    if w.ill.strs.toList.any (fun x => x.acting && x.action == 3) then w else dropSource 5 w := rfl

theorem illStringSet_strs (h : Held) (s : State) :
    (specIllStringSet.apply h s).ill.strs = upd s.ill.strs h.cmd.tindex.toNat (setString h.cmd) := by
  rw [illStringSet_apply]
  dsimp only
  split <;> rfl

theorem applyHeld_strs {h : Held} {s : State} (ho : h.opcode = 0x0305) (hd : h.due = none) :
    (applyHeld h s).ill.strs = upd s.ill.strs h.cmd.tindex.toNat (setString h.cmd) := by
  rw [only_ill (applyHeld_apply (sp := specIllStringSet) s (by rw [ho]; rfl) hd rfl (by rw [ho]; rfl)), illStringSet_strs,
    only_ill (journalApply_only h s (onlyReports_refl s))]

end Sys2Proof.Machine

namespace Sys2Proof.Proofs
open Sys2Proof.Machine

/-- Settles O24: ILL_CHAIN_SET's effect on its chain, and an update of the illumination at the boundary for each of the others. -/
theorem illuminationCommands : Obligations.IlluminationCommands := by
  refine ⟨completes_of_effect (fun _ _ => rfl) fun c s h u t hu hc ho ht => ?chain,
    completes_of_retarget (fun _ _ => rfl) fun _ _ => rfl, completes_of_retarget (fun _ _ => rfl) fun _ _ => rfl,
    completes_of_no_effect (fun _ _ => rfl) fun _ _ => rfl, completes_of_no_effect (fun _ _ => rfl) fun _ _ => rfl,
    completes_of_no_effect (fun _ _ => rfl) fun _ _ => rfl, completes_of_no_effect (fun _ _ => rfl) fun _ _ => rfl,
    fun h s hd => ⟨fun ho => ?device, fun ho => ?weight, fun ho => ?fade, fun ho => ?tc, fun ho => ?string, fun ho => ?diag⟩⟩
  case chain =>
    subst hc
    rw [illChainSet_effect] at ht
    refine ⟨fun hb => ⟨h, rfl, ho, ?_⟩, fun hb => ?_⟩
    · rw [if_pos hb] at ht
      exact onlyReports_trans (chainReply_onChain hu ..) ht
    · rw [if_neg (Bool.eq_false_iff.1 hb)] at ht
      exact onlyReports_trans (chainReply_onChain hu ..) ht
  case device =>
    have ha := applyHeld_same (sp := specIllDeviceSet) s (by rw [ho]; rfl) hd rfl (by rw [ho]; rfl) fun k => same_onIll k _
    rwa [show specIllDeviceSet.apply h s = putDeviceSet h s from rfl, putDeviceSet_eq] at ha
  case weight => exact applyHeld_same (sp := specIllWeightSet) s (by rw [ho]; rfl) hd rfl (by rw [ho]; rfl) fun k => same_onIll k _
  case fade => exact applyHeld_same (sp := specIllFade) s (by rw [ho]; rfl) hd rfl (by rw [ho]; rfl) (fade_same h)
  case tc => exact applyHeld_same (sp := specIllTcSet) s (by rw [ho]; rfl) hd rfl (by rw [ho]; rfl) fun k => same_onIll k _
  case string =>
    refine ⟨setString h.cmd (nth s.ill.strs h.cmd.tindex.toNat), fun k hk => ?_, fun hn => ?_,
      rfl, rfl, rfl, rfl, rfl, rfl, rfl, rfl, rfl, rfl, rfl, rfl⟩
    · rw [applyHeld_strs ho hd, nth_upd_other _ _ _ _ hk.symm]
    · rw [applyHeld_strs ho hd, nth_upd_self _ _ _ hn]
  case diag => exact applyHeld_same (sp := specIllDiagSet) s (by rw [ho]; rfl) hd rfl (by rw [ho]; rfl) fun k => same_onIll k _

end Sys2Proof.Proofs
end

section
/-!
PROOFS. What the illumination holds after a sticky bit, a chain's reply or fault, and a pass over drivers or strings (R152, R534).
-/
namespace Sys2Proof.Machine

/-! ## A pass over entries of a vector -/

theorem nth_of_le {α : Type} [Inhabited α] {n k : Nat} (v : Vector α n) (h : n ≤ k) : nth v k = default := dif_neg (by omega)

/-- A pass that changes each entry that it names once. -/
theorem nth_foldl_upd {α : Type} [Inhabited α] {n : Nat} {l : List Nat} (hl : l.Nodup) (f : Nat → α → α) (v : Vector α n) {k : Nat}
    (hk : k < n) : nth (l.foldl (fun v j => upd v j (f j)) v) k = if k ∈ l then f k (nth v k) else nth v k := by
  induction l generalizing v with
  | nil => rfl
  | cons j l ih =>
    obtain ⟨hj, hl⟩ := List.nodup_cons.1 hl
    rw [List.foldl_cons, ih hl]
    by_cases hkj : k = j
    · subst hkj
      rw [if_neg hj, if_pos List.mem_cons_self, nth_upd_self _ _ _ hk]
    · rw [nth_upd_other _ _ _ _ (Ne.symm hkj)]
      simp only [List.mem_cons, hkj, false_or]

/-- What every change keeps of an entry, a pass keeps. -/
theorem map_foldl_upd {α β : Type} {n : Nat} (l : List Nat) {f : Nat → α → α} {g : α → β} (h : ∀ j x, g (f j x) = g x) (v : Vector α n) :
    (l.foldl (fun v j => upd v j (f j)) v).map g = v.map g := by
  induction l generalizing v with
  | nil => rfl
  | cons j l ih => rw [List.foldl_cons, ih, map_upd _ _ _ _ (h j)]

theorem nth_of_map_eq {α β : Type} [Inhabited α] {n : Nat} {v w : Vector α n} {g : α → β} (h : v.map g = w.map g) (k : Nat) :
    g (nth v k) = g (nth w k) := by
  by_cases hk : k < n
  · have hg := congrArg (fun x : Vector β n => x[k]) h
    simpa only [nth, hk, dif_pos, Vector.getElem_map] using hg
  · rw [nth_of_le _ (by omega), nth_of_le _ (by omega)]

section
variable (s : State)

theorem foldl_onDriver (l : List Nat) (f : Nat → Driver → Driver) : l.foldl (fun t k => t.onDriver k (f k)) s =
    s.onIll fun i => { i with drivers := l.foldl (fun v k => upd v k (f k)) i.drivers } := by
  induction l generalizing s with
  | nil => rfl
  | cons k l ih => exact (ih (s.onDriver k (f k))).trans rfl

theorem foldl_onDriver_keeps {β : Type} (l : List Nat) {f : Nat → Driver → Driver} {g : Driver → β} (hg : ∀ k d, g (f k d) = g d)
    (k : Nat) : g (nth (l.foldl (fun t k => t.onDriver k (f k)) s).ill.drivers k) = g (nth s.ill.drivers k) := by
  rw [foldl_onDriver]
  exact nth_of_map_eq (map_foldl_upd l hg _) k

/-- A pass over strings, which leaves the time as it is. -/
theorem foldl_onStr (l : List Nat) (f : Nat → Str → Str) : l.foldl (fun t k => t.onStr k (f t.ns)) s =
    s.onIll fun i => { i with strs := l.foldl (fun v k => upd v k (f s.ns)) i.strs } := by
  induction l generalizing s with
  | nil => rfl
  | cons k l ih => exact (ih (s.onStr k (f s.ns))).trans rfl

theorem chainDrivers_nodup (c : Nat) : (chainDrivers c s).Nodup :=
  List.nodup_range.map fun _ _ h => Nat.add_left_cancel h

theorem mem_chainDrivers {c k : Nat} : k ∈ chainDrivers c s ↔ ∃ d < (s.chain c).n, c * 32 + d = k := by
  simp only [chainDrivers, List.mem_map, List.mem_range]

end

/-! ## Sticky bits, replies and faults -/

section
variable (s : State)

theorem illRaise_ill (b : BitVec 4) : (illRaise b s).ill = { s.ill with sticky := s.ill.sticky ||| b } :=
  only_ill (illRaise_only b s (onlyReports_refl _))

theorem chainRaise_ill (c : Nat) (b : BitVec 9) :
    (chainRaise c b s).ill = { s.ill with chains := upd s.ill.chains c fun x => { x with sticky := x.sticky ||| b } } :=
  only_ill (chainRaise_only c b s (onlyReports_refl _))

theorem strOpenRaise_ill (b : BitVec 24) : (strOpenRaise b s).ill = { s.ill with strOpen := s.ill.strOpen ||| b } :=
  only_ill (strOpenRaise_only b s (onlyReports_refl _))

theorem strShortRaise_ill (b : BitVec 24) : (strShortRaise b s).ill = { s.ill with strShort := s.ill.strShort ||| b } :=
  only_ill (strShortRaise_only b s (onlyReports_refl _))

theorem chainReply_ill (c : Nat) (st : Status) :
    (chainReply c st s).ill = { s.ill with chains := upd s.ill.chains c fun x => { x with cmd := none } } :=
  only_ill (chainReply_only c st s)

/-- A chain in FAULT has ICH_EN low and no command, and CHAIN_FAULT and the bits of the cause are set (R152). -/
theorem chainFault_ill (c : Nat) (b : BitVec 9) : (chainFault c b s).ill = { s.ill with chains := upd s.ill.chains c fun x => { x with
    st := .fault, en := false, sticky := x.sticky ||| (b ||| 1), cmd := none } } := by
  rw [chainFault, chainReply_ill, chainRaise_ill]
  simp only [State.onChain_def, State.onIll_ill, upd_upd]

theorem chainFault_chain {c : Nat} (hc : c < 4) (b : BitVec 9) : (chainFault c b s).chain c = { s.chain c with
    st := .fault, en := false, sticky := (s.chain c).sticky ||| (b ||| 1), cmd := none } := by
  rw [State.chain, chainFault_ill, nth_upd_self _ _ _ hc, State.chain]

theorem chainFault_other {c d : Nat} (h : c ≠ d) (b : BitVec 9) : (chainFault c b s).chain d = s.chain d := by
  rw [State.chain, chainFault_ill, nth_upd_other _ _ _ _ h, State.chain]

end
end Sys2Proof.Machine
end

section
/-!
PROOFS. Frames of a chain: what a frame sends and how the write-out ends (R143, R153 to R156, R160).
-/
namespace Sys2Proof.Machine

/-! ## BASE_COMPUTE leaves the lines and the tables (R160, R162) -/

section
variable (s : State)

/-- The chains and the drivers. -/
def State.lines (s : State) : Vector Chain 4 × Vector Driver 128 := (s.ill.chains, s.ill.drivers)

theorem computeTc_lines (early : Bool) (i : Nat) : (computeTc early i s).lines = s.lines := by
  unfold computeTc
  dsimp only
  split
  · rfl
  · split
    · rw [State.lines, illRaise_ill]
      rfl
    · rfl

theorem computeTcs_lines (early : Bool) : (forN 6 (computeTc early) s).lines = s.lines :=
  forN_keeps (fun i t => computeTc_lines t early i) 6 s

/-- t goes on from s with the bases of chain c's drivers computed: the chain notes for which period, and no active table has changed. -/
def basesReady (c : Nat) (s t : State) : Prop :=
  (∃ f e, t.chain c = { s.chain c with baseFor := f, baseEarly := e }) ∧ ∀ k, (nth t.ill.drivers k).tab = (nth s.ill.drivers k).tab

theorem basesReady_refl (c : Nat) : basesReady c s s := ⟨⟨_, _, rfl⟩, fun _ => rfl⟩

/-- A driver whose bases for the coming period are computed, in the state u and as the boundary will find it, a. -/
def basedDriver (a u : State) (k : Nat) (d : Driver) : Driver :=
  { d with
    baseWant := Vector.ofFn fun ch => baseOf k ch.val a u, baseOk := 0, next := 0
    retry := d.retry.filter fun x => !(64 ≤ wAddr x.1 && wAddr x.1 < 72) }

theorem computeBases_eq (early : Bool) (c : Nat) : ∃ u : State, u.lines = s.lines ∧ computeBases early c s =
    (u.onIll fun i => { i with
      drivers := (chainDrivers c u).foldl (fun v k => upd v k (basedDriver (ahead u) u k)) i.drivers }).onChain c fun x => { x with
        baseFor := u.frame + 1, baseEarly := early } := by
  refine ⟨forN 6 (computeTc early) s, computeTcs_lines s early, ?_⟩
  unfold computeBases
  dsimp only
  generalize forN 6 (computeTc early) s = u
  exact congrArg (fun t : State => t.onChain c fun x => { x with baseFor := t.frame + 1, baseEarly := early })
    (foldl_onDriver u (chainDrivers c u) (basedDriver (ahead u) u))

theorem computeBases_ready (early : Bool) {c : Nat} (hc : c < 4) : basesReady c s (computeBases early c s) := by
  obtain ⟨u, hu, he⟩ := computeBases_eq s early c
  obtain ⟨hchains, hdrivers⟩ := Prod.mk.inj hu
  rw [he]
  refine ⟨⟨u.frame + 1, early, ?_⟩, fun k => ?_⟩
  · rw [State.onChain_self _ _ _ hc]
    simp only [State.chain, State.onIll_ill, hchains]
  · rw [← hdrivers]
    exact nth_of_map_eq (g := Driver.tab)
      (map_foldl_upd (chainDrivers c u) (f := basedDriver (ahead u) u) (fun _ _ => rfl) u.ill.drivers) k

end

/-! ## What a frame sends (R143, R154) -/

section
variable (s t : State) {c : Nat} (r : Nat)

/-- A driver after a frame: its word and its active table at the LOAD are noted. -/
def sentDriver (c r : Nat) (s : State) (k : Nat) (d : Driver) : Driver :=
  { d with
    sent := frameWord c r k s, sentTab := d.tab
    next := if !(s.chain c).nopNext && (againWord (nth s.ill.drivers k)).isNone && (listWord c r k s).isSome then d.next + 1
      else d.next }

theorem sendWords_eq (c : Nat) : sendWords c r s t = ((t.onIll fun i => { i with
    drivers := (chainDrivers c s).foldl (fun v k => upd v k (sentDriver c r s k)) i.drivers }).onChain c fun x => { x with
      frames := x.frames + 1, sentEn := x.en, noCheck := x.nopNext, nopNext := false }) :=
  congrArg (fun u : State => u.onChain c fun x => { x with
    frames := x.frames + 1, sentEn := x.en, noCheck := x.nopNext, nopNext := false })
    (foldl_onDriver t (chainDrivers c s) (sentDriver c r s))

theorem sendWords_chain (hc : c < 4) : (sendWords c r s t).chain c = { t.chain c with
    frames := (t.chain c).frames + 1, sentEn := (t.chain c).en, noCheck := (t.chain c).nopNext, nopNext := false } := by
  rw [sendWords_eq]
  exact State.onChain_self _ _ _ hc

theorem sendWords_retry (c k : Nat) : (nth (sendWords c r s t).ill.drivers k).retry = (nth t.ill.drivers k).retry := by
  rw [sendWords_eq]
  exact nth_of_map_eq (map_foldl_upd (chainDrivers c s) (f := sentDriver c r s) (g := Driver.retry) (fun _ _ => rfl) t.ill.drivers) k

theorem sendWords_sentTab {k : Nat} (hk : k ∈ chainDrivers c s) :
    (nth (sendWords c r s t).ill.drivers k).sentTab = (nth t.ill.drivers k).tab := by
  rw [sendWords_eq]
  show (nth ((chainDrivers c s).foldl (fun v k => upd v k (sentDriver c r s k)) t.ill.drivers) k).sentTab = _
  by_cases h : k < 128
  · rw [nth_foldl_upd (chainDrivers_nodup s c) _ _ h, if_pos hk]
    rfl
  · rw [nth_of_le _ (by omega), nth_of_le _ (by omega)]
    rfl

theorem sendWords_chainDrivers (hc : c < 4) : chainDrivers c (sendWords c r s t) = chainDrivers c t := by
  rw [chainDrivers, chainDrivers, sendWords_chain s t r hc]

theorem sendWords_blanked (c : Nat) : (sendWords c r s t).blanked = t.blanked := by
  rw [sendWords_eq]
  rfl

end

/-! ## CHAIN_FRAME whose responses need no check -/

section
variable {c : Fin 4} (rs : List (BitVec 40)) {s : State} (hf : framing c.val s = true) (hn : (s.chain c.val).noCheck = true)
include hf hn

/-- A frame in RUN sends its words, with the bases computed before when it is a reserved one that needs them. -/
theorem execChainFrame_run (hst : (s.chain c.val).st = .run) :
    ∃ r u, basesReady c.val s u ∧ exec (.chainFrame c rs) s = .next (sendWords c.val r u u) := by
  show ∃ r u, _ ∧ execChainFrame c rs s = _
  unfold execChainFrame
  rw [if_neg (by rw [hf]; decide)]
  lift_lets
  intro st r u nops t
  have hu : basesReady c.val s u := by
    dsimp only [u]
    split
    · exact computeBases_ready s false c.isLt
    · exact basesReady_refl s c.val
  refine ⟨r, u, hu, congrArg Host.Outcome.next ?_⟩
  obtain ⟨⟨f, e, hchain⟩, -⟩ := hu
  have ht : t = u := if_pos (by rw [hchain]; exact hn)
  have hsame : ((u.chain c.val).st != st) = false := by rw [hchain]; exact bne_self_eq_false _
  have hrun : (st == .discover) = false := by rw [show st = .run from hst]; rfl
  rw [ht, hsame, hrun]
  rfl

/-- In the write-out a frame of NOPs that leaves no word to be sent again ends the stage. -/
theorem execChainFrame_writeOut (hst : (s.chain c.val).st = .discover)
    (hk : ∀ k ∈ chainDrivers c.val s, wOp (frameWord c.val 0 k s) = 0 ∧ (nth s.ill.drivers k).retry = []) :
    exec (.chainFrame c rs) s = .next (endStage c.val (sendWords c.val 0 s s)) := by
  show execChainFrame c rs s = _
  unfold execChainFrame
  rw [if_neg (by rw [hf]; decide), hst]
  refine congrArg Host.Outcome.next ?_
  have hnops : ((chainDrivers c.val s).all fun k => wOp (frameWord c.val 0 k s) == 0) = true :=
    List.all_eq_true.2 fun k h => beq_iff_eq.2 (hk k h).1
  have hsent : ((chainDrivers c.val (sendWords c.val 0 s s)).all fun k =>
      (nth (sendWords c.val 0 s s).ill.drivers k).retry.isEmpty) = true := by
    rw [sendWords_chainDrivers s s 0 c.isLt]
    exact List.all_eq_true.2 fun k h => by rw [sendWords_retry, (hk k h).2]; rfl
  simp only [show (ChainSt.discover == ChainSt.run) = false from rfl, Bool.false_eq_true, if_false, Nat.zero_ne_one, decide_false,
    ne_eq, not_true_eq_false, Bool.false_and, Bool.or_self, hn, if_true, hst, bne_self_eq_false, hnops, hsent, beq_self_eq_true, Bool.and_self]

end

/-- The write-out ends: the chain enters RUN, with ICH_EN high outside the safe state, and its command is answered (R153, R169). -/
theorem endStage_last {c : Nat} (hc : c < 4) (s : State) (h : (s.chain c).stage = 4) : ((endStage c s).chain c).st = .run ∧
    ((endStage c s).chain c).en = !s.blanked ∧ ((endStage c s).chain c).cmd = none := by
  simp only [endStage, h, foldl_onDriver s _ fun _ d => { d with next := 8 }]
  rw [State.chain, chainReply_ill, nth_upd_self _ _ _ hc, ← State.chain, State.onChain_self _ _ _ hc]
  exact ⟨rfl, rfl, rfl⟩

end Sys2Proof.Machine
end

section
/-!
PROOFS. Walks of the pins and the discovery of a chain's devices (R152, R153, R170).
-/
namespace Sys2Proof.Machine

/-! ## Walks (R170) -/

/-- The walks made and the walks failed. -/
def State.walkCounts (s : State) : BitVec 32 × BitVec 32 := (s.ill.walkCnt, s.ill.walkFailCnt)

/-- The chain waits for its walk to end or has failed it. -/
def Chain.walkOrFault (x : Chain) : Prop := x.st = .walk ∨ x.st = .fault

section
variable (s : State)

/-- A failing sense ball is a matter of the strings alone. -/
theorem senseFault_ill (cs : List (Fin 24)) : ∃ v, (senseFault cs s).ill = { s.ill with strs := v } := by
  induction cs generalizing s with
  | nil => exact ⟨_, rfl⟩
  | cons c cs ih =>
    obtain ⟨v, h⟩ := ih (s.onStr c.val fun x => if x.enable then { x with st := .senseFault } else x)
    exact ⟨v, h⟩

theorem chainFault_walkCounts (c : Nat) (b : BitVec 9) : (chainFault c b s).walkCounts = s.walkCounts := by
  rw [State.walkCounts, chainFault_ill, State.walkCounts]

theorem walkFault_walkCounts (c : Nat) : (walkFault c s).walkCounts = s.walkCounts := by
  unfold walkFault
  split
  · rfl
  · exact chainFault_walkCounts ..

/-- A fault that a walk finds is counted. -/
theorem walkFound_walkCounts (f : WalkFail) : (walkFound (some f) s).walkCounts = (s.ill.walkCnt, sat s.ill.walkFailCnt) := by
  have hr : (illRaise 0x2 (s.onIll fun i => { i with walkFailCnt := sat i.walkFailCnt })).walkCounts =
      (s.ill.walkCnt, sat s.ill.walkFailCnt) := by
    rw [State.walkCounts, illRaise_ill]
    rfl
  cases f with
  | chainPin c => exact (walkFault_walkCounts ..).trans hr
  | slotBus => exact (forN_keeps (fun c t => walkFault_walkCounts t c) 4 _).trans hr
  | senseBall cs =>
    obtain ⟨v, h⟩ := senseFault_ill (illRaise 0x2 (s.onIll fun i => { i with walkFailCnt := sat i.walkFailCnt })) cs
    refine Eq.trans ?_ hr
    simp only [walkFound, State.walkCounts, h]

theorem walkEnds_walkCounts (c : Nat) (f : WalkFail) : (walkEnds c (some f) s).walkCounts = (s.ill.walkCnt, sat s.ill.walkFailCnt) := by
  unfold walkEnds
  dsimp only
  split
  · exact (chainFault_walkCounts ..).trans (walkFound_walkCounts ..)
  · exact walkFound_walkCounts ..

theorem walkFault_walkOrFault {c : Nat} (hc : c < 4) (d : Nat) (h : (s.chain c).walkOrFault) : ((walkFault d s).chain c).walkOrFault := by
  unfold walkFault
  split
  · exact h
  · by_cases hd : d = c
    · rw [hd, chainFault_chain s hc]
      exact .inr rfl
    · rwa [chainFault_other s hd]

theorem forN_walkFault_walkOrFault {c : Nat} (hc : c < 4) (n : Nat) (h : (s.chain c).walkOrFault) :
    ((forN n walkFault s).chain c).walkOrFault := by
  induction n with
  | zero => exact h
  | succ n ih => exact walkFault_walkOrFault _ hc n ih

theorem walkFound_walkOrFault {c : Nat} (hc : c < 4) (f : WalkFail) (h : (s.chain c).walkOrFault) :
    ((walkFound (some f) s).chain c).walkOrFault := by
  have hr : ((illRaise 0x2 (s.onIll fun i => { i with walkFailCnt := sat i.walkFailCnt })).chain c).walkOrFault := by
    rw [State.chain, illRaise_ill]
    exact h
  cases f with
  | chainPin d => exact walkFault_walkOrFault _ hc _ hr
  | slotBus => exact forN_walkFault_walkOrFault _ hc 4 hr
  | senseBall cs =>
    obtain ⟨v, hv⟩ := senseFault_ill (illRaise 0x2 (s.onIll fun i => { i with walkFailCnt := sat i.walkFailCnt })) cs
    rwa [walkFound, State.chain, hv]

/-- A start-up walk that fails leaves its chain in FAULT (R152). -/
theorem walkEnds_chain {c : Nat} (hc : c < 4) (f : WalkFail) (h : (s.chain c).st = .walk) : ((walkEnds c (some f) s).chain c).st = .fault := by
  have hw := walkFound_walkOrFault s hc f (.inl h)
  unfold walkEnds
  dsimp only
  split
  · rw [chainFault_chain _ hc]
  next hn =>
    cases hw with
    | inl hw => exact absurd (by rw [hw]; rfl) hn
    | inr hw => exact hw

/-- A step in a slot makes the coming frames NOPs, and changes nothing else of a chain. -/
theorem slotStep_chain {β : Type} {g : Chain → β} (hg : ∀ x, g { x with nopNext := true } = g x) (c : Nat) :
    g ((slotStep s).chain c) = g (s.chain c) := by
  refine nth_of_map_eq (v := (slotStep s).ill.chains) (w := s.ill.chains) ?_ c
  simp only [slotStep, State.onIll_ill, Vector.map_map]
  congr 1
  funext x
  dsimp only [Function.comp]
  split
  · exact hg x
  · rfl

/-- The steps of a chain's start-up walk that its end completes: the last one in its slot, or all of them back to back. -/
def walkedOut (c : Nat) (s : State) : State :=
  if slotWalk c s then slotStep s else s.onIll fun i => { i with walkCnt := satN i.walkCnt (3 - (s.chain c).walkSteps) }

theorem walkedOut_st (c d : Nat) : ((walkedOut c s).chain d).st = (s.chain d).st := by
  unfold walkedOut
  split
  · exact slotStep_chain s (fun _ => rfl) d
  · rfl

theorem walkedOut_walkCounts (c : Nat) : (walkedOut c s).walkCounts =
    (if slotWalk c s then sat s.ill.walkCnt else satN s.ill.walkCnt (3 - (s.chain c).walkSteps), s.ill.walkFailCnt) := by
  unfold walkedOut
  split <;> rfl

theorem execStartupWalkDone_ends {c : Fin 4} (fail : Option WalkFail) (hl : s.live = true) (hst : (s.chain c.val).st = .walk)
    (hslot : slotWalk c.val s = true → walkSlot s = true ∧ s.ill.pulseUsed = false ∧ (s.chain c.val).walkSteps = 2) :
    exec (.startupWalkDone c fail) s = .next (if fail.isNone then
      (walkedOut c.val s).onChain c.val fun x => { x with st := .discover } else walkEnds c.val fail (walkedOut c.val s)) := by
  have hgo : (!s.live || (s.chain c.val).st != .walk ||
      (slotWalk c.val s && !(walkSlot s && !s.ill.pulseUsed && (s.chain c.val).walkSteps == 2))) = false := by
    rw [hl, hst]
    cases hs : slotWalk c.val s with
    | false => rfl
    | true =>
      obtain ⟨hw, hp, h2⟩ := hslot hs
      rw [hw, hp, h2]
      rfl
  exact congrArg Host.Outcome.next (if_neg (Bool.eq_false_iff.1 hgo))

/-- A periodic step that is due and finds nothing moves on to the next pin group. -/
theorem execWalkStep_periodic (hw : walkSlot s = true) (hn : startupStep s = none) (ht : tableChange s = false)
    (hd : walkDue ((diagMark s).getD 0 + 7000) s = true) : exec (.walkStep none) s =
    .next ((slotStep s).onIll fun i => { i with walkGroup := (i.walkGroup + 1) % 3, walkAt := s.ns }) := by
  show execWalkStep none s = _
  unfold execWalkStep
  rw [if_neg (by rw [hw]; decide), hn]
  exact congrArg Host.Outcome.next (if_neg (by rw [ht, hd]; decide))

/-- A step of a start-up walk that finds nothing counts on its chain. -/
theorem execWalkStep_startup {c : Nat} (hw : walkSlot s = true) (hc : startupStep s = some c) (hp : s.ill.pulseUsed = false) :
    exec (.walkStep none) s = .next ((slotStep s).onChain c fun x => { x with walkSteps := x.walkSteps + 1 }) := by
  show execWalkStep none s = _
  unfold execWalkStep
  rw [if_neg (by rw [hw]; decide), hc]
  exact congrArg Host.Outcome.next (if_neg (by rw [hp]; decide))

theorem startupStep_lt {c : Nat} (h : startupStep s = some c) : c < 4 := List.mem_range.1 (List.mem_of_find?_eq_some h)

end

/-! ## Discovery (R153) -/

section
variable {c : Fin 4} {d : Nat} {ids : List (BitVec 16)} {s : State}

/-- Discovery fails when the delay or the IDs do not fit. -/
theorem execDiscoverDone_fails (hl : s.live = true) (hst : (s.chain c.val).st = .discover) (hstage : (s.chain c.val).stage = 0)
    (hbad : d % 40 ≠ 0 ∨ ids.length ≠ d / 40) : exec (.discoverDone c d ids) s = .next (chainFault c.val 0x2 s) := by
  have hgo : (!s.live || (s.chain c.val).st != .discover || (s.chain c.val).stage != 0) = false := by rw [hl, hst, hstage]; rfl
  refine congrArg Host.Outcome.next ((if_neg (Bool.eq_false_iff.1 hgo)).trans (if_pos ?_))
  simp only [Bool.or_eq_true, bne_iff_ne]
  cases hbad with
  | inl h => simp only [h, true_or, ne_eq, not_false_eq_true]
  | inr h => simp only [h, true_or, or_true, ne_eq, not_false_eq_true]

/-- Otherwise the write-out begins. -/
theorem execDiscoverDone_writes (hl : s.live = true) (hst : (s.chain c.val).st = .discover) (hstage : (s.chain c.val).stage = 0)
    (hd : d % 40 = 0) (h1 : 1 ≤ d / 40) (h32 : d / 40 ≤ 32) (hn : (s.chain c.val).nExpect = 0 ∨ d / 40 = (s.chain c.val).nExpect)
    (hlen : ids.length = d / 40) (hids : ids.all idOk = true) :
    exec (.discoverDone c d ids) s = .next (startWriteOut c.val ids (s.onChain c.val fun x => { x with n := d / 40 })) := by
  have hgo : (!s.live || (s.chain c.val).st != .discover || (s.chain c.val).stage != 0) = false := by rw [hl, hst, hstage]; rfl
  refine congrArg Host.Outcome.next ((if_neg (Bool.eq_false_iff.1 hgo)).trans (if_neg ?_))
  simp only [Bool.or_eq_true, Bool.and_eq_true, bne_iff_ne, beq_iff_eq, decide_eq_true_eq, hids, hd, hlen]
  simp only [ne_eq, not_true_eq_false, Bool.not_true, Bool.false_eq_true, or_false, false_or]
  omega

theorem execDiscoverTimeout_fails (hl : s.live = true) (hst : (s.chain c.val).st = .discover) :
    exec (.discoverTimeout c) s = .next (chainFault c.val 0x2 s) := by
  refine congrArg Host.Outcome.next (if_pos ?_)
  rw [hl, hst]
  rfl

theorem startStage_chain {c : Nat} (hc : c < 4) (n : Nat) (s : State) : (startStage c n s).chain c = { s.chain c with stage := n } := by
  rw [startStage, foldl_onDriver _ _ fun _ d => { d with next := 0 }]
  exact State.onChain_self _ _ _ hc

theorem startStage_id (c n : Nat) (s : State) (k : Nat) : (nth (startStage c n s).ill.drivers k).id = (nth s.ill.drivers k).id :=
  foldl_onDriver_keeps _ _ (f := fun _ d => { d with next := 0 }) (g := Driver.id) (fun _ _ => rfl) k

/-- A driver found, before its write-out: its ID is known, its registers are not. -/
def foundDriver (c : Nat) (ids : List (BitVec 16)) (k : Nat) (d : Driver) : Driver :=
  { d with id := ids.getD (k - c * 32) 0, tabKnown := false, retry := [], sent := 0 }

theorem startWriteOut_eq (c : Nat) (ids : List (BitVec 16)) (s : State) : startWriteOut c ids s =
    startStage c 1 (((retarget s).onIll fun i => { i with
      drivers := (chainDrivers c s).foldl (fun v k => upd v k (foundDriver c ids k)) i.drivers }).onChain c fun x => { x with noCheck := true }) := by
  exact congrArg (fun t : State => startStage c 1 (t.onChain c fun x => { x with noCheck := true }))
    (foldl_onDriver (retarget s) (chainDrivers c s) (foundDriver c ids))

theorem startWriteOut_chain {c : Nat} (hc : c < 4) (ids : List (BitVec 16)) (s : State) :
    (startWriteOut c ids s).chain c = { s.chain c with noCheck := true, stage := 1 } := by
  rw [startWriteOut_eq, startStage_chain hc, State.onChain_self _ _ _ hc]
  rfl

theorem startWriteOut_id {c i : Nat} (hc : c < 4) (hi : i < (s.chain c).n) (h32 : i < 32) :
    (nth (startWriteOut c ids s).ill.drivers (c * 32 + i)).id = ids.getD i 0 := by
  have hm : c * 32 + i ∈ chainDrivers c s := (mem_chainDrivers s).2 ⟨i, hi, rfl⟩
  rw [startWriteOut_eq, startStage_id]
  show (nth ((chainDrivers c s).foldl (fun v k => upd v k (foundDriver c ids k)) (retarget s).ill.drivers) (c * 32 + i)).id = _
  rw [nth_foldl_upd (chainDrivers_nodup s c) _ _ (by omega), if_pos hm, foundDriver, Nat.add_sub_cancel_left]

end
end Sys2Proof.Machine
end

section
/-!
PROOFS. Measurements of the strings, their actions and the diagnostic pulses (R165 to R168).
-/
namespace Sys2Proof.Machine

/-! ## A string's measurement (R165, R166) -/

/-- The strings, and their open and short bits. -/
def State.senses (s : State) : Vector Str 24 × BitVec 24 × BitVec 24 := (s.ill.strs, s.ill.strOpen, s.ill.strShort)

theorem bit1_getLsbD {w i : Nat} (h : i < w) : (bit1 w i).getLsbD i = true := by
  rw [bit1, BitVec.getLsbD_ofNat, Nat.testBit_two_pow_self]
  simpa using h

section
variable (s : State)

theorem raiseSource_senses (code : Nat) : (raiseSource code s).senses = s.senses := by
  have only {t u : State} (h : onlyReports t u) : u.senses = t.senses := by rw [State.senses, only_ill h, State.senses]
  exact raiseSource_untouched (g := State.senses) (fun _ _ => rfl) (fun _ => rfl)
    (fun t _ _ _ _ _ => only (stickyUp_only _ _ _ _ t (onlyReports_refl t)))
    (fun t _ _ _ _ => only (logRec_only _ _ _ _ t (onlyReports_refl t))) code s

/-- The action of a string is in force; that of the safe state leaves the strings else as they are (R166). -/
theorem takeAction_senses (i : Nat) : (takeAction i s).senses =
    (upd s.ill.strs i fun x => { x with acting := true }, s.ill.strOpen, s.ill.strShort) := by
  unfold takeAction followSource
  dsimp only
  split
  · split
    · split
      · rfl
      · exact raiseSource_senses ..
    · rfl
  · rfl

theorem takeAction_entry {i : Nat} (hi : i < 24) :
    nth (takeAction i s).ill.strs i = { nth s.ill.strs i with acting := true } := by
  rw [(Prod.mk.inj (takeAction_senses s i)).1, nth_upd_self _ _ _ hi]

theorem takeAction_bits (i : Nat) : (takeAction i s).ill.strOpen = s.ill.strOpen ∧ (takeAction i s).ill.strShort = s.ill.strShort :=
  Prod.mk.inj (Prod.mk.inj (takeAction_senses s i)).2

theorem onStr_entry {i : Nat} (hi : i < 24) (f : Str → Str) : nth (s.onStr i f).ill.strs i = f (nth s.ill.strs i) :=
  nth_upd_self _ _ _ hi

end

/-- A string that has been measured at mv, its sample classed. -/
def classed (mv : BitVec 16) (x : Str) : Str :=
  let y := { x with volt := mv, isStale := false, measured := true, ready := none }
  if x.vOpen ≤ mv then
    let y := { y with openRun := x.openRun + 1, shortRun := 0, faultCnt := sat x.faultCnt }
    if x.openRun + 1 = x.confirm then { y with st := .opened, acting := true } else y
  else if mv < x.vShort then
    let y := { y with shortRun := x.shortRun + 1, openRun := 0, faultCnt := sat x.faultCnt }
    if x.shortRun + 1 = x.confirm then { y with st := .shorted, acting := true } else y
  else if ofPulse x then { y with openRun := 0, shortRun := 0 }
  else { y with openRun := 0, shortRun := 0, lowduty := false, dutyRun := 0 }

/-- An open, and a short, is found by this sample. -/
def findsOpen (mv : BitVec 16) (x : Str) : Prop := x.vOpen ≤ mv ∧ x.openRun + 1 = x.confirm
def findsShort (mv : BitVec 16) (x : Str) : Prop := mv < x.vOpen ∧ mv < x.vShort ∧ x.shortRun + 1 = x.confirm

/-- The first good reading of an interval in which a string is eligible is classed, and an open or short that it finds sets the string's
bit (R165, R166). -/
theorem execStringMeasurement_classes {i : Fin 24} (mv : BitVec 16) {s : State} (hl : s.live = true)
    (he : (nth s.ill.strs i.val).enable = true) (hm : (nth s.ill.strs i.val).measured = false)
    (hel : eligible (nth s.ill.strs i.val) s = true) (hst : senseStale s = false) :
    ∃ t, exec (.stringMeasurement i mv false) s = .next t ∧ nth t.ill.strs i.val = classed mv (nth s.ill.strs i.val) ∧
      (findsOpen mv (nth s.ill.strs i.val) → t.ill.strOpen = s.ill.strOpen ||| bit1 24 i.val) ∧
      (findsShort mv (nth s.ill.strs i.val) → t.ill.strShort = s.ill.strShort ||| bit1 24 i.val) := by
  show ∃ t, execStringMeasurement i mv false s = _ ∧ _
  unfold execStringMeasurement
  dsimp only
  rw [if_neg (by rw [hl, he, hm, hel]; decide), if_neg (by rw [hst]; decide)]
  generalize hx : nth s.ill.strs i.val = x
  refine ⟨_, rfl, ?_⟩
  by_cases ho : x.vOpen ≤ mv
  · have hns : ¬findsShort mv x := fun h => absurd h.1 (BitVec.not_lt.2 ho)
    by_cases hc : x.openRun + 1 = x.confirm
    · simp only [classed, ho, hc, if_true]
      refine ⟨?_, fun _ => ?_, fun h => absurd h hns⟩
      · rw [takeAction_entry _ i.isLt, strOpenRaise_ill]
        simp only [onStr_entry _ i.isLt, hx, hc]
      · rw [(takeAction_bits ..).1, strOpenRaise_ill]
        rfl
    · simp only [classed, ho, hc, if_true, if_false]
      refine ⟨?_, fun h => absurd h.2 hc, fun h => absurd h hns⟩
      simp only [onStr_entry _ i.isLt, hx]
  · have hno : ¬findsOpen mv x := fun h => ho h.1
    by_cases hs : mv < x.vShort
    · by_cases hc : x.shortRun + 1 = x.confirm
      · simp only [classed, ho, hs, hc, if_true, if_false]
        refine ⟨?_, fun h => absurd h hno, fun _ => ?_⟩
        · rw [takeAction_entry _ i.isLt, strShortRaise_ill]
          simp only [onStr_entry _ i.isLt, hx, hc]
        · rw [(takeAction_bits ..).2, strShortRaise_ill]
          rfl
      · simp only [classed, ho, hs, hc, if_true, if_false]
        refine ⟨?_, fun h => absurd h hno, fun h => absurd h.2.2 hc⟩
        simp only [onStr_entry _ i.isLt, hx]
    · simp only [classed, ho, hs, if_false]
      refine ⟨?_, fun h => absurd h hno, fun h => absurd h.2.1 hs⟩
      split <;> simp only [onStr_entry _ i.isLt, hx]

/-! ## What classing a sample leaves of a string -/

section
variable (mv : BitVec 16) (x : Str)

theorem classed_reading : (classed mv x).volt = mv ∧ (classed mv x).measured = true := by
  unfold classed
  dsimp only
  split
  · split <;> exact ⟨rfl, rfl⟩
  · split
    · split <;> exact ⟨rfl, rfl⟩
    · split <;> exact ⟨rfl, rfl⟩

variable {mv x}

theorem classed_good (ho : mv < x.vOpen) (hs : x.vShort ≤ mv) :
    (classed mv x).openRun = 0 ∧ (classed mv x).shortRun = 0 ∧ (classed mv x).faultCnt = x.faultCnt := by
  unfold classed
  dsimp only
  rw [if_neg (BitVec.not_le.2 ho), if_neg (BitVec.not_lt.2 hs)]
  split <;> exact ⟨rfl, rfl, rfl⟩

theorem classed_open_counts (ho : x.vOpen ≤ mv) : (classed mv x).faultCnt = sat x.faultCnt := by
  unfold classed
  dsimp only
  rw [if_pos ho]
  split <;> rfl

theorem classed_findsOpen (h : findsOpen mv x) : (classed mv x).st = .opened ∧ (classed mv x).acting = true := by
  unfold classed
  dsimp only
  rw [if_pos h.1, if_pos h.2]
  exact ⟨rfl, rfl⟩

theorem classed_findsShort (h : findsShort mv x) : (classed mv x).st = .shorted ∧ (classed mv x).acting = true := by
  obtain ⟨ho, hs, hc⟩ := h
  unfold classed
  dsimp only
  rw [if_neg (BitVec.not_le.2 ho), if_pos hs, if_pos hc]
  exact ⟨rfl, rfl⟩

end

/-! ## Diagnostic pulses (R167) -/

section
variable (s : State)

theorem firing_nodup : (firing (pulsesDue s) s).Nodup := (List.nodup_range.filter _).filter _

theorem noteStr_pulseCnt (x : Str) : (noteStr s x).pulseCnt = x.pulseCnt := by
  unfold noteStr
  split
  · rfl
  · lift_lets
    intro c p ok y z
    show z.pulseCnt = x.pulseCnt
    dsimp only [z]
    split <;> rfl

theorem noteLit_pulseCnt (i : Nat) : (nth (noteLit s).ill.strs i).pulseCnt = (nth s.ill.strs i).pulseCnt := by
  refine nth_of_map_eq (v := (noteLit s).ill.strs) (w := s.ill.strs) (g := Str.pulseCnt) ?_ i
  simp only [noteLit, State.onIll_ill, Vector.map_map]
  congr 1
  funext x
  exact noteStr_pulseCnt s x

/-- A string that a pulse at this time drives. -/
def pulsedStr (ns : Nat) (x : Str) : Str :=
  { x with pulseCnt := sat x.pulseCnt, pulseAt := some ns, measured := false, ready := none }

/-- A pulse drives the strings that fire once the drivers hold its currents and the light has been noted. -/
theorem firePulse_eq (fire : List Nat) : ∃ u : State, (∀ i, (nth u.ill.strs i).pulseCnt = (nth s.ill.strs i).pulseCnt) ∧
    firePulse fire s = fire.foldl (fun t k => t.onStr k (pulsedStr t.ns)) u := by
  unfold firePulse
  lift_lets
  intro on1 on2
  refine ⟨on2, fun i => ?_, rfl⟩
  have h1 : on1.ill.strs = s.ill.strs := by rw [show on1 = s.onIll _ from rfl, State.onIll_ill]
  clear_value on1
  refine (noteLit_pulseCnt _ i).trans ?_
  rw [← h1]
  refine foldl_keeps (g := fun t => (nth t.ill.strs i).pulseCnt) (fun t j => ?_) fire on1
  rfl

/-- A pulse counts on each of the strings that fire, and on no other. -/
theorem firePulse_pulseCnt {fire : List Nat} (hf : fire.Nodup) {i : Nat} (hi : i < 24) : (nth (firePulse fire s).ill.strs i).pulseCnt =
    if i ∈ fire then sat (nth s.ill.strs i).pulseCnt else (nth s.ill.strs i).pulseCnt := by
  obtain ⟨u, hu, he⟩ := firePulse_eq s fire
  rw [he, foldl_onStr, State.onIll_ill, nth_foldl_upd hf _ _ hi, ← hu]
  split <;> rfl

/-- The pulse that is due in its microsecond is made on the strings that fire; with none the state stays. -/
theorem execDiagPulse_fires (hl : s.live = true) (h1 : markPast 1000 s = true) (h2 : markPast 2000 s = false)
    (hp : s.ill.pulseUsed = false) (hw : s.ill.walkUsed = false) (hb : s.blanked = false) (ht : tableChange s = false) :
    exec .diagPulse s = .next (if (firing (pulsesDue s) s).isEmpty then s else firePulse (firing (pulsesDue s) s) s) := by
  show execDiagPulse s = _
  unfold execDiagPulse
  simp only [hl, h1, h2, hp, hw, hb, ht, Bool.not_true, Bool.or_false, Bool.false_or]

end
end Sys2Proof.Machine
end

section
/-!
PROOFS. The events of the illumination: frames, walks, discovery, string measurements and pulses (R143, R152 to R154, R156, R163 to R168,
R170). O51 is settled here.
-/
namespace Sys2Proof.Machine

/-- Starvation counts and sets its bit (R168). -/
theorem diagStarved_goes {s : State} (hl : s.live = true) (hc : ∃ c, c < 4 ∧ chainRuns c s = true) :
    Goes .diagStarved s (s.onIll fun i => { i with starvedCnt := sat i.starvedCnt, sticky := i.sticky ||| 1 }) := by
  have hany : ((List.range 4).any fun c => chainRuns c s) = true := by
    obtain ⟨c, hc, hr⟩ := hc
    exact List.any_eq_true.2 ⟨c, List.mem_range.2 hc, hr⟩
  exact ⟨_, congrArg Host.Outcome.next (if_pos (by rw [hl, hany]; rfl)), illRaise_only _ _ (onlyReports_refl _)⟩

end Sys2Proof.Machine

namespace Sys2Proof.Proofs
open Sys2Proof.Machine

/-- Settles O51: an equation of exec for each event under its conditions, and what the state that it names holds. -/
theorem illuminationEventsFollowTheChains : Obligations.IlluminationEventsFollowTheChains := by
  refine ⟨fun c rs s hf hn => ⟨fun hst => ?frame, fun hst hstage hk => ?writeOut⟩, fun c s hl hst hslot fail => ?startup,
    fun c d ids s hl hst => ⟨fun h0 hd h1 h32 hn hlen hids => ?found, fun h0 hbad => ?bad, ?timeout⟩,
    fun s hw => ⟨fun hn ht hd => ?periodic, fun c hc hp => ?inSlot⟩, fun i mv s hl he hm hel hs => ?string,
    fun s hl h1 h2 hp hw hb ht => ?pulse, fun s hl hc => diagStarved_goes hl hc⟩
  case frame =>
    obtain ⟨r, u, ⟨⟨f, e, hu⟩, htab⟩, hx⟩ := execChainFrame_run rs hf hn hst
    refine ⟨_, hx, ?_⟩
    have hdrivers : chainDrivers c.val u = chainDrivers c.val s := by rw [chainDrivers, chainDrivers, hu]
    rw [sendWords_chain u u r c.isLt, hu]
    refine ⟨rfl, rfl, fun k hk => ?_, rfl, hst⟩
    rw [sendWords_sentTab u u r (by rwa [hdrivers]), htab]
  case writeOut =>
    obtain ⟨hrun, hen, hcmd⟩ := endStage_last c.isLt (sendWords c.val 0 s s) (by rw [sendWords_chain s s 0 c.isLt]; exact hstage)
    exact ⟨_, execChainFrame_writeOut rs hf hn hst hk, hrun, by rw [hen, sendWords_blanked], hcmd⟩
  case startup =>
    refine ⟨_, execStartupWalkDone_ends s fail hl hst hslot, ?_⟩
    obtain ⟨hcnt, hfail⟩ := Prod.mk.inj (walkedOut_walkCounts s c.val)
    cases fail with
    | none =>
      refine ⟨hcnt, ?_, hfail⟩
      exact congrArg Chain.st (State.onChain_self _ _ _ c.isLt)
    | some f =>
      obtain ⟨hcnt', hfail'⟩ := Prod.mk.inj (walkEnds_walkCounts (walkedOut c.val s) c.val f)
      exact ⟨hcnt'.trans hcnt, walkEnds_chain _ c.isLt f ((walkedOut_st s c.val c.val).trans hst), hfail'.trans (congrArg sat hfail)⟩
  case found =>
    refine ⟨_, execDiscoverDone_writes hl hst h0 hd h1 h32 hn hlen hids, ?_⟩
    have hself := State.onChain_self s c.val (fun x => { x with n := d / 40 }) c.isLt
    rw [startWriteOut_chain c.isLt, hself]
    refine ⟨hst, rfl, rfl, rfl, fun i hi => startWriteOut_id c.isLt ?_ (by omega)⟩
    rw [hself]
    exact hi
  case bad =>
    refine ⟨_, execDiscoverDone_fails hl hst h0 hbad, ?_⟩
    rw [chainFault_chain s c.isLt]
    exact ⟨rfl, by simp⟩
  case timeout =>
    refine ⟨_, execDiscoverTimeout_fails hl hst, ?_⟩
    rw [chainFault_chain s c.isLt]
    exact ⟨rfl, rfl, by simp⟩
  case periodic => exact ⟨_, execWalkStep_periodic s hw hn ht hd, rfl, rfl, rfl, rfl⟩
  case inSlot =>
    refine ⟨_, execWalkStep_startup s hw hc hp, rfl, rfl, ?_⟩
    rw [State.onChain_self _ _ _ (startupStep_lt s hc)]
    exact congrArg (· + 1) (slotStep_chain s (g := Chain.walkSteps) (fun _ => rfl) c)
  case string =>
    obtain ⟨t, hx, ht, hopen, hshort⟩ := execStringMeasurement_classes mv hl he hm hel hs
    have hbit : ∀ b : BitVec 24, (b ||| bit1 24 i.val).getLsbD i.val = true := fun b => by
      rw [BitVec.getLsbD_or, bit1_getLsbD i.isLt, Bool.or_true]
    refine ⟨t, hx, ?_⟩
    rw [ht]
    refine ⟨(classed_reading _ _).1, (classed_reading _ _).2, classed_good, fun ho => ⟨classed_open_counts ho, fun hc => ?_⟩,
      fun ho hs hc => ?_⟩
    · obtain ⟨hst, hact⟩ := classed_findsOpen ⟨ho, hc⟩
      exact ⟨hst, hact, by rw [hopen ⟨ho, hc⟩, hbit]⟩
    · obtain ⟨hst, hact⟩ := classed_findsShort ⟨ho, hs, hc⟩
      exact ⟨hst, hact, by rw [hshort ⟨ho, hs, hc⟩, hbit]⟩
  case pulse =>
    refine ⟨_, execDiagPulse_fires s hl h1 h2 hp hw hb ht, fun i hi => ?_⟩
    cases hfire : firing (pulsesDue s) s with
    | nil => rfl
    | cons j l => exact firePulse_pulseCnt s (hfire ▸ firing_nodup s) hi

end Sys2Proof.Proofs
end

section
/-!
PROOFS. What an accepted command's target is, what the loop engine's operations leave unchanged, and that they do the same on states that
differ only in reports (R189, R197, R200).
-/
namespace Sys2Proof.Machine

/-! ## The target of an accepted command (R442 step 5) -/

theorem firstOf_eq_none {l : List (Option Refuse)} (h : firstOf l = none) : ∀ x ∈ l, x = none := by
  induction l with
  | nil => nofun
  | cons a l ih =>
    cases a with
    | some r => exact absurd h nofun
    | none => exact List.forall_mem_cons.2 ⟨rfl, ih h⟩

theorem chk_eq_none {b : Bool} {r : Refuse} (h : chk b r = none) : b = false := by
  cases b
  · rfl
  · exact absurd h nofun

/-- An accepted command names an existing target of one of its classes. -/
theorem accepted_target {sp : OpSpec} {c : Cmd} {s : State} (h : accepted sp c s = true) :
    c.tclass ∈ sp.cls ∧ c.tindex.toNat < clsSize c.tclass := by
  simp only [accepted, Bool.and_eq_true, Option.isNone_iff_eq_none] at h
  have hhead : headerRefusal sp c (atChecks c s) = none := firstOf_eq_none h.2 _ List.mem_cons_self
  have htarget : chk (!(sp.cls.contains c.tclass) || clsSize c.tclass ≤ c.tindex.toNat) ⟨.badTarget, 0⟩ = none :=
    firstOf_eq_none hhead _ (by simp)
  simpa using chk_eq_none htarget

/-- One whose only class is LOOP names one of the 64 loops. -/
theorem accepted_loop {sp : OpSpec} {c : Cmd} {s : State} (hc : sp.cls = [clsLoop]) (h : accepted sp c s = true) : c.tindex.toNat < 64 := by
  obtain ⟨hmem, hlt⟩ := accepted_target h
  rw [hc, List.mem_singleton] at hmem
  rw [hmem] at hlt
  exact hlt

/-- A row completes when its effect on an accepted command's loop leaves what P asks of the settings. -/
theorem completes_of_loop_effect {sp : OpSpec} {row : Cmd → Instr} {P : Cmd → State → State → Prop} (hc : sp.cls = [clsLoop])
    (hx : ∀ c s, exec (row c) s = .next (accept sp c s))
    (hp : ∀ c s h u t, c.tindex.toNat < 64 → onlyReports s u → h.cmd = c → onlyReports (sp.effect h u).st t → P c s t) :
    Completes sp row P := fun c s h =>
  ⟨_, hx c s, hp c s _ _ _ (accepted_loop hc h) (atEffect_only sp c s) rfl (accept_effect sp c s h)⟩

/-! ## Entries of vectors -/

/-- Two changes that agree on the entry that they meet. -/
theorem upd_congr {α : Type} [Inhabited α] {n : Nat} (v : Vector α n) (i : Nat) {f g : α → α} (h : f (nth v i) = g (nth v i)) :
    upd v i f = upd v i g := by
  unfold upd
  split
  next hi =>
    rw [nth, dif_pos hi] at h
    rw [h]
  · rfl

/-- A change that g does not see on the entry that it meets. -/
theorem map_upd_at {α β : Type} [Inhabited α] {n : Nat} (v : Vector α n) (i : Nat) {f : α → α} {g : α → β}
    (h : g (f (nth v i)) = g (nth v i)) : (upd v i f).map g = v.map g := by
  classical
  rw [upd_congr v i (g := fun x => if g (f x) = g x then f x else x) (if_pos h).symm]
  refine map_upd _ _ _ _ fun x => ?_
  split
  · assumption
  · rfl

/-! ## The loops, their queue and their outputs after a source is raised or a group is computed (R189, R197) -/

section
variable {s t : State} (h : onlyReports s t)
include h

theorem only_tick : t.tick = s.tick := show t.settings.tick = s.settings.tick by rw [h]
theorem only_cle : t.cle = s.cle := show t.settings.cle = s.settings.cle by rw [h]
theorem only_loop (n : Nat) : t.loop n = s.loop n := by rw [State.loop, only_cle h, State.loop]

end

/-- The loops and the triggers that wait. -/
def State.loops (s : State) : Vector Loop 64 × List (Nat × Nat) := (s.cle.loops, s.cle.queue)

theorem loop_of_loops {s t : State} (h : t.loops = s.loops) (n : Nat) : t.loop n = s.loop n :=
  congrArg (fun x : Vector Loop 64 × List (Nat × Nat) => nth x.1 n) h

section
variable (s : State)

theorem stickyUp_cle {w : Nat} (vec off : Nat) (old b : BitVec w) : (stickyUp vec off old b s).cle = s.cle :=
  only_cle (stickyUp_only _ _ _ _ s (onlyReports_refl s))

theorem cleRaise_cle (b : BitVec 4) : (cleRaise b s).cle = { s.cle with sticky := s.cle.sticky ||| b } :=
  only_cle (cleRaise_only b s (onlyReports_refl _))

theorem raiseSource_cle (code : Nat) : (raiseSource code s).cle = s.cle :=
  raiseSource_untouched (g := State.cle) (fun _ _ => rfl) (fun _ => rfl) (fun t _ _ _ _ _ => stickyUp_cle t ..)
    (fun t _ _ _ _ => only_cle (logRec_only _ _ _ _ t (onlyReports_refl t))) code s

theorem followSource_cle (code : Nat) (on : Bool) : (followSource code on s).cle = s.cle := by
  unfold followSource
  split
  · split
    · rfl
    · exact raiseSource_cle ..
  · rfl

theorem followLoops_cle : (followLoops s).cle = s.cle := followSource_cle ..

theorem recompute_loops (g : Nat) : (recompute g s).loops = s.loops := rfl
theorem recomputeAll_loops : (recomputeAll s).loops = s.loops := forN_keeps (fun g t => recompute_loops t g) 16 s
theorem followLoops_loops : (followLoops s).loops = s.loops := by rw [State.loops, followLoops_cle, State.loops]
theorem pwmTake_loops (n : Nat) : (pwmTake n s).loops = s.loops := rfl

theorem pwmLose_loops : (pwmLose s).loops = s.loops := by
  rw [pwmLose, State.loops, cleRaise_cle]
  exact forN_keeps (g := State.loops) (fun n t => pwmTake_loops t n) 8 s

/-- What a change of the groups and of blank source 4 leaves of a loop. -/
theorem followGroups_loop (n : Nat) : (followLoops (recomputeAll s)).loop n = s.loop n :=
  loop_of_loops ((followLoops_loops _).trans (recomputeAll_loops s)) n

/-- A loop of an engine that has switched off keeps its role epoch alone (R175, R201). -/
theorem engineOff_loop {n : Nat} (hn : n < 64) : (engineOff s).loop n = { epoch := (s.loop n).epoch } := by
  have hl : (engineOff s).loops = (s.cle.loops.map fun l => { epoch := l.epoch }, []) :=
    (pwmLose_loops _).trans (followLoops_loops _)
  rw [State.loop, show (engineOff s).cle.loops = _ from congrArg Prod.fst hl, nth_map_entry _ _ hn]
  rfl

end

/-! ## The same changes of two states that differ only in reports -/

/-- A change that reports do not touch. -/
theorem same_of_settings {f : State → State} (hf : ∀ s, (f s).settings = f s.settings) {a s : State} (h : onlyReports a s) :
    onlyReports (f a) (f s) := by rw [onlyReports, hf, hf, h]

theorem same_ite {a b s t : State} {p : Prop} [Decidable p] (h : onlyReports a s) (k : onlyReports b t) :
    onlyReports (if p then a else b) (if p then s else t) := by
  split
  · exact h
  · exact k

theorem recompute_settings (g : Nat) (s : State) : (recompute g s).settings = recompute g s.settings := rfl
theorem pwmTake_settings (n : Nat) (s : State) : (pwmTake n s).settings = pwmTake n s.settings := rfl

section
variable {a s : State} (h : onlyReports a s)
include h

/-- What only reports on the one state and on the other leaves them alike. -/
theorem same_of_only {f : State → State} (hf : ∀ s, onlyReports s (f s)) : onlyReports (f a) (f s) :=
  onlyReports_trans (hf a).symm (onlyReports_trans h (hf s))

theorem stickyUp_same {w : Nat} (vec off : Nat) (old b : BitVec w) : onlyReports (stickyUp vec off old b a) (stickyUp vec off old b s) :=
  same_of_only h fun s => stickyUp_only _ _ _ _ s (onlyReports_refl s)

theorem xclRaise_same (b : BitVec 13) : onlyReports (xclRaise b a) (xclRaise b s) := by
  unfold xclRaise
  rw [only_xcl h]
  exact stickyUp_same (same_onXcl h _) ..

theorem cleRaise_same (b : BitVec 4) : onlyReports (cleRaise b a) (cleRaise b s) := by
  unfold cleRaise
  rw [only_cle h]
  exact stickyUp_same (same_onCle h _) ..

theorem strobe0_same : onlyReports (strobe0 a) (strobe0 s) := by
  unfold strobe0
  rw [only_xcl h]
  exact same_onIll h _

theorem enterSafe_same (code : Nat) : onlyReports (enterSafe code a) (enterSafe code s) := by
  unfold enterSafe
  rw [only_tick h, only_frame h]
  exact same_of_only (same_onIll (strobe0_same (same_onXcl h _)) _) fun s => logRec_only _ _ _ _ s (onlyReports_refl s)

theorem raiseSource_same (code : Nat) : onlyReports (raiseSource code a) (raiseSource code s) := by
  have hraised := xclRaise_same (same_onXcl h fun x => { x with
    active := x.active ||| bit1 12 code, latch := if isLevel code then x.latch else x.latch ||| bit1 12 code }) (bit1 13 code)
  unfold raiseSource
  dsimp only
  rw [only_xcl hraised, only_tick hraised, only_frame hraised, only_xcl h]
  exact same_ite (same_ite (same_onXcl hraised _) hraised) (enterSafe_same hraised code)

theorem followSource_same (code : Nat) (on : Bool) : onlyReports (followSource code on a) (followSource code on s) := by
  unfold followSource
  rw [only_xcl h]
  exact same_ite (same_ite h (raiseSource_same h code)) (same_onXcl h _)

theorem followLoops_same : onlyReports (followLoops a) (followLoops s) := by
  unfold followLoops
  rw [only_cle h]
  exact followSource_same h ..

theorem recompute_same (g : Nat) : onlyReports (recompute g a) (recompute g s) := same_of_settings (recompute_settings g) h
theorem recomputeAll_same : onlyReports (recomputeAll a) (recomputeAll s) := same_forN (fun g _ _ k => recompute_same k g) 16 h
theorem pwmTake_same (n : Nat) : onlyReports (pwmTake n a) (pwmTake n s) := same_of_settings (pwmTake_settings n) h
theorem pwmLose_same : onlyReports (pwmLose a) (pwmLose s) := cleRaise_same (same_forN (fun n _ _ k => pwmTake_same k n) 8 h) _

theorem engineOff_same : onlyReports (engineOff a) (engineOff s) :=
  pruneDoms_same (pwmLose_same (followLoops_same (same_onCle h _)))

end

end Sys2Proof.Machine
end

section
/-!
PROOFS. The commands of the closed-loop engine (R175, R177, R178, R189, R200). O25 is settled here.
-/
namespace Sys2Proof.Machine

/-! ## LOOP_SET (R175) -/

section
variable (d : LoopCfg) (s : State) (l : Loop)

theorem setLoop_cfg (run : Bool) : (setLoop run d s l).cfg = d := by
  unfold setLoop
  dsimp only
  split
  · rfl
  · split <;> rfl

theorem setLoop_stopped : (setLoop false d s l).st = .stop ∧ (setLoop false d s l).entered = 0 := ⟨rfl, rfl⟩

/-- A loop that runs goes on in its state; any other enters RAMP. -/
theorem setLoop_running : (setLoop true d s l).st = if l.st = .ramp ∨ l.st = .run then l.st else .ramp := by
  unfold setLoop
  simp only [Bool.not_true, Bool.false_eq_true, if_false, Bool.or_eq_true, beq_iff_eq]
  split <;> rfl

end

/-- The state with the descriptor of a LOOP_SET given to its loop. -/
def loopGiven (c : Cmd) (s : State) : State :=
  let run := bitOf (u8 (Cmd.payload c) 0) 1
  (if run then s else dropTrigger c.tindex.toNat s).onLoop c.tindex.toNat (setLoop run (parseLoop (Cmd.payload c)) s)

/-- The state with a loop taken back to FREE. -/
def loopFreed (n : Nat) (s : State) : State := (dropTrigger n s).onLoop n freeLoop

theorem loopGiven_loop {c : Cmd} (s : State) (hn : c.tindex.toNat < 64) : (loopGiven c s).loop c.tindex.toNat =
    setLoop (bitOf (u8 (Cmd.payload c) 0) 1) (parseLoop (Cmd.payload c)) s (s.loop c.tindex.toNat) := by
  unfold loopGiven
  dsimp only
  rw [State.onLoop_self _ _ _ hn]
  split <;> rfl

theorem loopFreed_loop {n : Nat} (s : State) (hn : n < 64) : (loopFreed n s).loop n = freeLoop (s.loop n) :=
  State.onLoop_self _ _ _ hn

theorem loopGiven_same (c : Cmd) {a s : State} (h : onlyReports a s) : onlyReports (loopGiven c a) (loopGiven c s) :=
  same_of_settings (fun t => by unfold loopGiven; dsimp only; split <;> rfl) h

theorem loopFreed_same (n : Nat) {a s : State} (h : onlyReports a s) : onlyReports (loopFreed n a) (loopFreed n s) :=
  same_onCle (same_onCle h _) _

/-- The engine after a loop is freed: its groups computed anew, or itself switched off with the last loop (R174). -/
def afterFree (s : State) : State := if engineOn s then followLoops (recomputeAll s) else engineOff s

theorem engineOn_same {a s : State} (h : onlyReports a s) : engineOn s = engineOn a := by rw [engineOn, only_cle h, engineOn]

theorem afterFree_same {a s : State} (h : onlyReports a s) : onlyReports (afterFree a) (afterFree s) := by
  unfold afterFree
  rw [engineOn_same h]
  exact same_ite (followLoops_same (recomputeAll_same h)) (engineOff_same h)

/-- A free loop stays free under its role epoch, whether the engine goes on or not. -/
theorem afterFree_loop {n : Nat} {s : State} (hn : n < 64) (hf : (s.loop n).st = .free) :
    ((afterFree s).loop n).st = .free ∧ ((afterFree s).loop n).epoch = (s.loop n).epoch := by
  unfold afterFree
  split
  · rw [followGroups_loop]
    exact ⟨hf, rfl⟩
  · rw [engineOff_loop _ hn]
    exact ⟨rfl, rfl⟩

/-- LOOP_SET gives the loop its descriptor, frees it, or leaves a free one as it is. -/
theorem loopSet_effect (h : Held) (s : State) : (specLoopSet.effect h s).st =
    if bitOf (u8 (Cmd.payload h.cmd) 0) 0 then followLoops (recomputeAll (loopGiven h.cmd s))
    else if (s.loop h.cmd.tindex.toNat).st = .free then s else afterFree (loopFreed h.cmd.tindex.toNat s) := by
  simp only [specLoopSet, beq_iff_eq]
  split
  · rfl
  · split <;> rfl

/-! ## LOOP_COEF_SET, LOOP_PWM_SET -/

/-- The loop's number format is that of its descriptor, so the set that is filled is known before the change. -/
theorem loopCoefSet_effect (h : Held) (s : State) : (specLoopCoefSet.effect h s).st =
    let k := parseCoef (s.loop h.cmd.tindex.toNat).cfg.x32 (Cmd.payload h.cmd)
    s.onLoop h.cmd.tindex.toNat fun l => { l with coefs := upd l.coefs (u8 (Cmd.payload h.cmd) 0) fun _ => some k } :=
  congrArg (fun v => s.onCle fun x => { x with loops := v }) (upd_congr _ _ rfl)

/-- The state with new settings that wait at a PWM output. -/
def pwmGiven (c : Cmd) (s : State) : State :=
  let b := Cmd.payload c
  s.onCle fun x => { x with pwms := upd x.pwms c.tindex.toNat fun w => { w with
    next := some (u32 b 0, BitVec.ofNat 16 (u16 b 4), bitOf (u8 b 6) 0, bitOf (u8 b 6) 1) } }

theorem loopPwmSet_effect (h : Held) (s : State) : (specLoopPwmSet.effect h s).st =
    let n := h.cmd.tindex.toNat
    if (nth s.cle.pwms n).enable then pwmGiven h.cmd s else pwmTake n (pwmApply n (pwmGiven h.cmd s)) := by
  simp only [specLoopPwmSet]
  cases (nth s.cle.pwms h.cmd.tindex.toNat).enable <;> rfl

theorem loopPwmSet_same (h : Held) {a s : State} (k : onlyReports a s) :
    onlyReports (specLoopPwmSet.effect h a).st (specLoopPwmSet.effect h s).st := by
  rw [loopPwmSet_effect, loopPwmSet_effect, only_cle k]
  exact same_ite (same_onCle k _) (pwmTake_same (same_onCle (same_onCle k _) _) _)

end Sys2Proof.Machine

namespace Sys2Proof.Proofs
open Sys2Proof.Machine

/-- Settles O25: each command's effect is the one named, and the groups and blank source 4 that follow leave the loops as they are. -/
theorem loopCommandsSetLoopsAndGroups : Obligations.LoopCommandsSetLoopsAndGroups := by
  refine ⟨completes_of_loop_effect rfl (fun _ _ => rfl) fun c s h u t hn hu hc ht => ⟨fun halloc => ?alloc, fun hfree => ?free⟩,
    completes_of_effect (fun _ _ => rfl) fun c s h u t hu hc _ ht => ?coef,
    completes_of_effect (fun _ _ => rfl) fun c s h u t hu hc _ ht => ?ref,
    completes_of_effect (fun _ _ => rfl) fun c s h u t hu hc _ ht => ?group,
    completes_of_loop_effect rfl (fun _ _ => rfl) fun c s h u t hn hu hc ht => ?arm,
    completes_of_effect (fun _ _ => rfl) fun c s h u t hu hc _ ht => ?pwm⟩ <;> subst hc
  case alloc =>
    rw [loopSet_effect, if_pos halloc] at ht
    have hs := onlyReports_trans (followLoops_same (recomputeAll_same (loopGiven_same h.cmd hu))) ht
    have hloop := (only_loop hs h.cmd.tindex.toNat).trans ((followGroups_loop ..).trans (loopGiven_loop s hn))
    refine ⟨hs, ?_, fun hrun => ?_, fun hrun => ?_⟩
    · rw [hloop, setLoop_cfg]
    · rw [hloop, hrun]
      exact setLoop_stopped ..
    · rw [hloop, hrun]
      exact setLoop_running ..
  case free =>
    rw [loopSet_effect, if_neg (Bool.eq_false_iff.1 hfree), only_loop hu] at ht
    dsimp only
    by_cases hst : (s.loop h.cmd.tindex.toNat).st = .free
    · rw [if_pos hst] at ht ⊢
      rw [if_pos hst]
      have hs := onlyReports_trans hu ht
      rw [only_loop hs]
      exact ⟨hs, hst, rfl⟩
    · rw [if_neg hst] at ht ⊢
      rw [if_neg hst]
      have hs := onlyReports_trans (afterFree_same (loopFreed_same _ hu)) ht
      have hfreed := loopFreed_loop s hn
      obtain ⟨hfr, hep⟩ := afterFree_loop (s := loopFreed h.cmd.tindex.toNat s) hn (by rw [hfreed]; rfl)
      rw [only_loop hs]
      exact ⟨hs, hfr, hep.trans (by rw [hfreed]; rfl)⟩
  case coef =>
    rw [loopCoefSet_effect, only_loop hu] at ht
    exact onlyReports_trans (same_onCle hu _) ht
  case ref => exact onlyReports_trans (same_onCle hu _) ht
  case group => exact onlyReports_trans (recompute_same (same_onCle hu _) _) ht
  case arm =>
    have harm : onlyReports (s.onLoop h.cmd.tindex.toNat (rampEntry s)) (u.onLoop h.cmd.tindex.toNat (rampEntry u)) :=
      same_of_settings (f := fun t => t.onLoop h.cmd.tindex.toNat (rampEntry t)) (fun _ => rfl) hu
    have hs := onlyReports_trans (followLoops_same (recomputeAll_same harm)) ht
    rw [(only_loop hs h.cmd.tindex.toNat).trans ((followGroups_loop ..).trans (State.onLoop_self _ _ _ hn))]
    exact ⟨hs, rfl, rfl, rfl⟩
  case pwm =>
    have hs := onlyReports_trans (loopPwmSet_same h hu) ht
    rw [loopPwmSet_effect] at hs
    exact hs

end Sys2Proof.Proofs
end

section
/-!
PROOFS. The events of the closed-loop engine: triggers that queue or overrun (R176, R178), steps that are skipped or taken (R184, R191), and
the periods of the PWM outputs (R200). O52 is settled here.
-/
namespace Sys2Proof.Machine

/-! ## Triggers (R176, R178) -/

section
variable (s : State)

theorem onLoop_onLoop (n : Nat) (f g : Loop → Loop) : (s.onLoop n f).onLoop n g = s.onLoop n fun l => g (f l) := by
  simp only [State.onLoop, State.onCle, upd_upd]

theorem trigMade_running (l : Loop) : (trigMade s l).running = l.running := by
  unfold trigMade
  split <;> rfl

/-- A loop that counts an overrun. -/
def Loop.overrun (l : Loop) : Loop := { l with overrunCnt := sat l.overrunCnt, sticky := l.sticky ||| 4 }

theorem trigMade_overrun (l : Loop) :
    (trigMade s l).overrun = { trigMade s l with overrunCnt := sat l.overrunCnt, sticky := l.sticky ||| 4 } := by
  unfold trigMade
  split <;> rfl

end

/-- A trigger that finds no earlier one of its loop waiting joins the queue. -/
theorem fireTrigger_queues {n : Nat} {s : State} (hc : s.cle.clockLost = false) (hr : (s.loop n).running = true)
    (hp : trigPending n s = false) : fireTrigger n s = s.onCle fun c => { c with queue := enqueue (s.ns, n) c.queue } := by
  simp only [fireTrigger, hc, hr, hp, Bool.not_true, Bool.or_self, Bool.false_eq_true, if_false]

/-- One that does overruns. -/
theorem fireTrigger_overruns {n : Nat} {s : State} (hc : s.cle.clockLost = false) (hr : (s.loop n).running = true)
    (hp : trigPending n s = true) : onlyReports ((s.onLoop n Loop.overrun).onCle fun x => { x with sticky := x.sticky ||| 4 })
      (fireTrigger n s) := by
  simp only [fireTrigger, hc, hr, hp, Bool.not_true, Bool.or_self, Bool.false_eq_true, if_false, if_true]
  refine cleRaise_only _ _ (same_onCle (loopRaise_only _ _ _ ?_) _)
  rw [onLoop_onLoop]
  exact onlyReports_refl _

theorem execLoopTrigger_due {n : Fin 64} {s : State} (hl : s.live = true) (hr : (s.loop n.val).running = true)
    (hd : trigDue (s.loop n.val) s = true) : execLoopTrigger n s = .next (fireTrigger n.val (s.onLoop n.val (trigMade s))) := by
  simp only [execLoopTrigger, hl, hr, hd, Bool.not_true, Bool.or_self, Bool.false_eq_true, if_false]

theorem trigMade_loop_running (n : Fin 64) {s : State} (hr : (s.loop n.val).running = true) :
    ((s.onLoop n.val (trigMade s)).loop n.val).running = true := by
  rw [State.onLoop_self _ _ _ n.isLt, trigMade_running, hr]

/-! ## One step leaves the counts of skips and the queue (R184) -/

/-- How often a loop has been sampled and skipped. -/
def Loop.counts (l : Loop) : BitVec 32 × BitVec 32 := (l.sampleCnt, l.skipCnt)

/-- The counts of every loop, and the triggers that wait. -/
def State.stepped (s : State) : Vector (BitVec 32 × BitVec 32) 64 × List (Nat × Nat) := (s.cle.loops.map Loop.counts, s.cle.queue)

theorem stepped_of_loops {s t : State} (h : t.loops = s.loops) : t.stepped = s.stepped :=
  congrArg (fun x : Vector Loop 64 × List (Nat × Nat) => (x.1.map Loop.counts, x.2)) h

theorem onLoop_stepped {s : State} (n : Nat) {f : Loop → Loop} (hf : (f (s.loop n)).counts = (s.loop n).counts) :
    (s.onLoop n f).stepped = s.stepped := by
  rw [State.stepped, State.onLoop_def, State.onCle_cle, map_upd_at _ _ hf, State.stepped]

section
variable (s : State)

theorem stickyUp_stepped {w : Nat} (vec off : Nat) (old b : BitVec w) : (stickyUp vec off old b s).stepped = s.stepped := by
  rw [State.stepped, stickyUp_cle, State.stepped]

theorem enterFault_stepped (n : Nat) (cause : BitVec 3) : (enterFault n cause s).stepped = s.stepped := by
  have hraise (t : State) : (loopRaise n cause t).stepped = t.stepped :=
    (stickyUp_stepped (t.onLoop n _) ..).trans (onLoop_stepped (f := fun x => { x with sticky := x.sticky ||| cause }) n rfl)
  rw [enterFault]
  exact (stickyUp_stepped (State.onCle _ _) ..).trans ((hraise _).trans (onLoop_stepped n rfl))

theorem enterOut_stepped (n j : Nat) : (enterOut n j s).stepped = s.stepped := by
  unfold enterOut
  dsimp only
  split
  · rw [stepped_of_loops (recompute_loops ..), onLoop_stepped n rfl]
  · rw [onLoop_stepped n rfl]

theorem enterOuts_stepped (n m : Nat) : (enterOuts n m s).1.stepped = s.stepped := by
  induction m with
  | zero => rfl
  | succ m ih => exact (enterOut_stepped ..).trans ih

theorem stepRef_counts (y : List Int) (j : Nat) (l : Loop) : (stepRef y j l).counts = l.counts := by
  unfold stepRef
  lift_lets
  intro tgt st mask q l1
  have h1 : l1.counts = l.counts := by
    unfold l1
    split
    · split <;> rfl
    · rfl
  clear_value l1
  intro l2
  have h2 : l2.counts = l1.counts := by
    unfold l2
    split
    · rfl
    · split <;> rfl
  clear_value l2
  split
  · exact h1
  · split <;> exact h2.trans h1

theorem stepRefs_counts (y : List Int) (l : Loop) : (stepRefs y l).counts = l.counts := by
  have h := (stepRef_counts y 1 (stepRef y 0 l)).trans (stepRef_counts y 0 l)
  unfold stepRefs
  dsimp only
  split <;> exact h

theorem supervise_counts (rho : List Int) (stale : List Bool) (l : Loop) : (supervise rho stale l).1.counts = l.counts := by
  unfold supervise
  split
  · rfl
  · refine List.foldlRecOn (motive := fun x : Loop × Bool => x.1.counts = l.counts) _ _ rfl fun x hx i _ => ?_
    dsimp only
    split <;> exact hx

/-- A step that is taken counts a sample of its loop, and neither a skip nor a trigger. -/
theorem runStep_stepped {n : Nat} (hn : n < 64) (sense : List SenseIn) :
    ((runStep n sense s).loop n).counts = (sat (s.loop n).sampleCnt, (s.loop n).skipCnt) ∧ (runStep n sense s).cle.queue = s.cle.queue := by
  unfold runStep
  lift_lets
  intro l rs ins anyFault sched s1
  have h1 : s1.stepped = s.stepped := by
    unfold s1
    split <;> rfl
  clear_value s1
  intro region y s2
  have h2 : s2.stepped = s.stepped := (onLoop_stepped n rfl).trans h1
  clear_value s2
  intro s3
  have h3 : s3.stepped = s.stepped := by
    unfold s3
    split
    · exact (enterFault_stepped ..).trans h2
    · exact h2
  clear_value s3
  intro s4
  have h4 : s4.stepped = s.stepped := (onLoop_stepped n (stepRefs_counts ..)).trans h3
  clear_value s4
  intro l xs rho sup s5
  have h5 : s5.stepped = s.stepped := (onLoop_stepped n (supervise_counts ..)).trans h4
  clear_value s5
  intro s6
  have h6 : s6.stepped = s.stepped := by
    unfold s6
    split
    · exact (enterFault_stepped ..).trans h5
    · exact h5
  clear_value s6
  intro x s7
  have hx : x.1.stepped = s.stepped := (enterOuts_stepped ..).trans h6
  have hcounts : (x.1.loop n).counts = (s.loop n).counts := nth_of_map_eq (congrArg Prod.fst hx) n
  obtain ⟨hsample, hskip⟩ := Prod.mk.inj hcounts
  rw [loop_of_loops (followLoops_loops _), followLoops_cle, State.onLoop_self _ _ _ hn]
  refine ⟨?_, congrArg Prod.snd hx⟩
  rw [← hsample, ← hskip]
  rfl

end

/-! ## Steps (R178, R191) -/

section
variable {n : Fin 64} {s : State} (xs : List SenseIn) (hl : s.live = true) (hc : s.cle.clockLost = false) (hr : (s.loop n.val).running = true)
  (hn : stepNext n.val s = true)
include hl hc hr hn

/-- The step at the head of the queue leaves it, and is skipped or taken. -/
theorem execLoopStep_next : execLoopStep n xs s = .next (let w := dropTrigger n.val s
    if destInactive n.val w then w.onLoop n.val fun l => { l with skipped := true, skipCnt := sat l.skipCnt } else runStep n.val xs w) := by
  have hrun : ((dropTrigger n.val s).loop n.val).running = true := hr
  simp only [execLoopStep, hl, hc, hn, hrun, Bool.not_true, Bool.or_self, Bool.false_eq_true, if_false]

end

theorem dropTrigger_pending (n : Nat) (s : State) : trigPending n (dropTrigger n s) = false := by
  simp [trigPending, dropTrigger]

/-! ## The periods of the PWM outputs (R200) -/

/-- What a PWM output takes on: its duty, or FAILSAFE for want of the engine or of a group. -/
def Pwm.taken (lost : Bool) (g : Option LwGroup) (w : Pwm) : Pwm :=
  if lost then { w with duty := w.failsafe, failsafeOn := true }
  else if !w.enable then { w with duty := 0, failsafeOn := false }
  else match g with
    | some x => { w with duty := x.value, failsafeOn := false }
    | none => { w with duty := w.failsafe, failsafeOn := true }

/-- An output with the settings that waited. -/
def Pwm.applied (w : Pwm) : Pwm := match w.next with
  | some (f, fs, en, hi) => { w with carrier := f, failsafe := fs, enable := en, activeHigh := hi, next := none }
  | none => w

/-- What is set of an output, and what waits to be. -/
def Pwm.given (w : Pwm) : Nat × BitVec 16 × Bool × Bool × Option (Nat × BitVec 16 × Bool × Bool) :=
  (w.carrier, w.failsafe, w.enable, w.activeHigh, w.next)

theorem Pwm.taken_given (lost : Bool) (g : Option LwGroup) (w : Pwm) : (w.taken lost g).given = w.given := by
  unfold Pwm.taken
  split
  · rfl
  · split
    · rfl
    · split <;> rfl

theorem Pwm.applied_next (w : Pwm) : w.applied.next = none := by
  unfold Pwm.applied
  split
  · rfl
  · assumption

theorem pwmTake_pwms (n : Nat) (s : State) : (pwmTake n s).cle.pwms = upd s.cle.pwms n (Pwm.taken (pwmFailsafe s)
    (s.cle.groups.toList.find? fun x => x.dest == 2 && x.index.toNat == n)) := rfl
theorem pwmApply_pwms (n : Nat) (s : State) : (pwmApply n s).cle.pwms = upd s.cle.pwms n Pwm.applied := rfl
theorem pwmApply_failsafe (n : Nat) (s : State) : pwmFailsafe (pwmApply n s) = pwmFailsafe s := rfl

/-- The output of a period that starts has taken its settings and its duty. -/
theorem pwmPeriodStart_pwm (n : Fin 8) (s : State) : ∃ g, nth (pwmTake n.val (pwmApply n.val s)).cle.pwms n.val =
    (nth s.cle.pwms n.val).applied.taken (pwmFailsafe s) g := by
  rw [pwmTake_pwms, pwmApply_failsafe, nth_upd_self _ _ _ n.isLt, pwmApply_pwms, nth_upd_self _ _ _ n.isLt]
  exact ⟨_, rfl⟩

end Sys2Proof.Machine

namespace Sys2Proof.Proofs
open Sys2Proof.Machine

/-- Settles O52: a due trigger queues or overruns, the step at the head is skipped or counted as a sample, and a PWM output takes its
settings and duty. -/
theorem loopEventsStepAndTrigger : Obligations.LoopEventsStepAndTrigger := by
  refine ⟨fun n s hl hc hr => ⟨fun hd hp => ?queues, fun hd hp => ?overruns, fun hd => ?rests⟩,
    fun n xs s hl hc hr hn => ⟨fun hi => ?skipped, fun hi => ?taken⟩, fun n s hl => ?period⟩
  case queues =>
    exact (execLoopTrigger_due hl hr hd).trans (congrArg _ (fireTrigger_queues hc (trigMade_loop_running n hr) hp))
  case overruns =>
    have hs := fireTrigger_overruns (s := s.onLoop n.val (trigMade s)) hc (trigMade_loop_running n hr) hp
    rw [onLoop_onLoop] at hs
    simp only [trigMade_overrun] at hs
    exact ⟨_, execLoopTrigger_due hl hr hd, hs⟩
  case rests => exact congrArg Host.Outcome.next (if_pos (by rw [hd]; simp))
  case skipped => exact (execLoopStep_next xs hl hc hr hn).trans (congrArg Host.Outcome.next (if_pos hi))
  case taken =>
    obtain ⟨hcounts, hqueue⟩ := runStep_stepped (dropTrigger n.val s) n.isLt xs
    obtain ⟨hsample, hskip⟩ := Prod.mk.inj hcounts
    refine ⟨_, (execLoopStep_next xs hl hc hr hn).trans (congrArg Host.Outcome.next (if_neg (Bool.eq_false_iff.1 hi))), hsample, ?_, hskip⟩
    rw [trigPending, hqueue]
    exact dropTrigger_pending n.val s
  case period =>
    obtain ⟨g, hg⟩ := pwmPeriodStart_pwm n s
    obtain ⟨hcarrier, hsafe, hen, hhigh, hnext⟩ : _ ∧ _ ∧ _ ∧ _ ∧ _ := by
      simpa only [Pwm.given, Prod.mk.injEq] using (nth s.cle.pwms n.val).applied.taken_given (pwmFailsafe s) g
    refine ⟨_, congrArg Host.Outcome.next (if_pos hl), ?_⟩
    rw [hg]
    refine ⟨hnext.trans (Pwm.applied_next _), fun hf => ?_, fun hf he => ?_, fun f fs en hi hw => ?_⟩
    · rw [hf]
      exact ⟨rfl, rfl⟩
    · rw [hen] at he
      simp only [Pwm.taken, hf, he, Bool.false_eq_true, Bool.not_false, if_false, if_true]
    · rw [hcarrier, hsafe, hen, hhigh, Pwm.applied, hw]
      exact ⟨rfl, rfl, rfl, rfl⟩

end Sys2Proof.Proofs
end

section
/-!
PROOFS. SAFE follows its sources over every step, and a latched blank source stays latched until it is released or the device goes cold
(R226, R231, R238, R528). O6 and O9 are settled here.
-/
namespace Sys2Proof.Machine

/-! ## The latch over resets and supplies (R238, R528) -/

/-- Every bit of XCL_SAFE_LATCH that is set in a is set in s. -/
def LatchStays (a s : State) : Prop := ∀ k, a.xcl.latch.getLsbD k = true → s.xcl.latch.getLsbD k = true

theorem LatchStays.refl (s : State) : LatchStays s s := fun _ => id
theorem LatchStays.trans {a b c : State} (h : LatchStays a b) (k : LatchStays b c) : LatchStays a c := fun i x => k i (h i x)

/-- The rows that take a device into a cold reset or take its supply away. -/
inductive GoesCold : Instr → Prop
  | porstNAssert : GoesCold .porstNAssert
  | uvloFalling (mv) : GoesCold (.uvloFalling mv)

section
variable (s : State)

/-- The exit of a reset, when the device is out of every reset. -/
theorem leaveReset_latch : LatchStays s (if s.live then exitReset s else s) := by
  split
  · exact exitReset_latch s
  · exact .refl s

/-- A rail fault's raised bit and its loss of memory contents leave every latched source. -/
theorem railFault_latch (f : Pwr → Pwr) (c : Prop) [Decidable c] :
    LatchStays s (if c then loseMemory (pwrRaise 0x20 (s.onPwr f)) else pwrRaise 0x20 (s.onPwr f)) := by
  have hr : Keeps s (pwrRaise 0x20 (s.onPwr f)) := pwrRaise_keeps _ _ (keeps_onPwr (.refl s) f)
  exact (keeps_ite (c := c) (loseMemory_keeps _ hr) hr).latch

theorem execPorstNRelease_latch (straps : BitVec 4) {t : State} (he : execPorstNRelease straps s = .next t) : LatchStays s t := by
  obtain rfl := Host.Outcome.next.inj he
  split
  · exact .refl s
  · exact leaveReset_latch { s with porst := false, straps := straps }

theorem execWrstNAssert_latch {t : State} (he : execWrstNAssert s = .next t) : LatchStays s t := by
  obtain rfl := Host.Outcome.next.inj he
  split
  · exact warmEnter_latch s
  · exact .refl s

theorem execWrstNRelease_latch {t : State} (he : execWrstNRelease s = .next t) : LatchStays s t := by
  obtain rfl := Host.Outcome.next.inj he
  split
  · exact .refl s
  · exact leaveReset_latch { s with wrst := false }

theorem execRailSeqStep_latch {t : State} (he : execRailSeqStep s = .next t) : LatchStays s t := by
  obtain rfl := Host.Outcome.next.inj he
  split
  · exact .refl s
  · lift_lets
    intro held done s1
    split
    · exact exitReset_latch s1
    · exact .refl s

theorem execPgoodFall_latch (i : Fin 4) {t : State} (he : execPgoodFall i s = .next t) : LatchStays s t := by
  obtain rfl := Host.Outcome.next.inj he
  split
  · exact .refl s
  · split
    · split
      · exact (loseMemory_keeps s (.refl s)).latch
      · exact .refl s
    · lift_lets
      intro s1 s2 s3
      have h2 : LatchStays s s2 := railFault_latch s _ (i.val = 3)
      have h3 : LatchStays s2 s3 := by
        dsimp only [s3]
        split
        · exact warmEnter_latch s2
        · exact .refl s2
      exact h2.trans h3

theorem execPeriodBoundary_latch {t : State} (he : execPeriodBoundary s = .next t) : LatchStays s t := by
  obtain rfl := Host.Outcome.next.inj he
  split
  · obtain ⟨-, -, hl⟩ := periodBoundary_keepsInv s
    exact hl
  · exact .refl s

end

/-- A row that moves the frame count and does not take the device cold leaves every latched source. -/
theorem MovesFrame.latch {i : Instr} {s t : State} (h : MovesFrame i) (hc : ¬GoesCold i) (he : exec i s = .next t) : LatchStays s t := by
  cases h with
  | periodBoundary => exact execPeriodBoundary_latch s he
  | porstNAssert => exact absurd .porstNAssert hc
  | porstNRelease straps => exact execPorstNRelease_latch s straps he
  | wrstNAssert => exact execWrstNAssert_latch s he
  | wrstNRelease => exact execWrstNRelease_latch s he
  | uvloFalling mv => exact absurd (.uvloFalling mv) hc
  | railSeqStep => exact execRailSeqStep_latch s he
  | pgoodFall k => exact execPgoodFall_latch s k he

/-- Every row that neither may be the release nor takes the device cold leaves every latched source. -/
theorem exec_latch {i : Instr} {s t : State} (hr : ¬MayRelease i) (hc : ¬GoesCold i) (he : exec i s = .next t) : LatchStays s t := by
  by_cases hi : MovesFrame i
  · exact hi.latch hc he
  · exact ((exec_keeps i hi hr s).next t he).latch

end Sys2Proof.Machine

namespace Sys2Proof.Proofs
open Sys2Proof.Machine

/-- Settles O6: every command keeps the agreement, also from the state whose queues the step has shortened. -/
theorem safeStateFollowsItsSources : Obligations.SafeStateFollowsItsSources := by
  intro s t hs h
  obtain ⟨_, _, hk⟩ := step_keepsInv h
  exact hk.safe hs

/-- Settles O9: the rows that the statement excepts are those of MayRelease and of GoesCold. -/
theorem latchedSourceStaysLatched : Obligations.LatchedSourceStaysLatched := by
  intro i s t he h1 h2 h3 h4 h5 h6 h7
  refine exec_latch ?release ?cold he
  case release =>
    rintro (c | ⟨h, r, v, l⟩ | ⟨h, r, v⟩ | ⟨h, o, v⟩ | e)
    exacts [h1 c rfl, h2 h r v l rfl, h3 h r v rfl, h4 h o v rfl, h5 e rfl]
  case cold =>
    rintro (_ | v)
    exacts [h6 rfl, h7 v rfl]

end Sys2Proof.Proofs
end

section
/-!
PROOFS. The safety inputs, and a version of an exclusion set that passes or fails its comparison (R213, R215, R222, R225 to R231). O53 is
settled here.
-/
namespace Sys2Proof.Machine

/-! ## Commands in hand, over events and buffers that are freed -/

section
variable (s : State)

theorem signal_records (v : Nat) : (signal v s).records = s.records := by
  unfold signal
  lift_lets
  intro s1 s2
  have h1 : s1.records = s.records := by
    dsimp only [s1]
    split
    · exact msix_records ..
    · rfl
  have h2 : s2.records = s1.records := by
    dsimp only [s2]
    split
    · exact msix_records ..
    · rfl
  clear_value s1 s2
  split
  · exact h2.trans h1
  · exact h2.trans h1

theorem flushFull_records : (flushFull s).records = s.records := by
  unfold flushFull
  split <;> rfl

theorem logRec_records (vec code : Nat) (off bits : BitVec 32) : (logRec vec code off bits s).records = s.records := by
  unfold logRec
  split
  · exact flushFull_records ..
  · dsimp only
    split
    · rfl
    · exact signal_records ..

theorem stickyUp_records {w : Nat} (vec off : Nat) (old b : BitVec w) : (stickyUp vec off old b s).records = s.records := by
  unfold stickyUp
  dsimp only
  split
  · rfl
  · exact (signal_records ..).trans (logRec_records ..)

theorem hifRaise_records (b : BitVec 11) : (hifRaise b s).records = s.records :=
  stickyUp_records (s.onHif fun x => { x with sticky := x.sticky ||| b }) ..

theorem sendEvent_records (host : HostId) (code : BitVec 16) (d : BitVec 32) (v : Nat) : (sendEvent host code d v s).records = s.records := by
  unfold sendEvent
  lift_lets
  intro ss r ring ok s1
  rw [signal_records]
  dsimp only [s1]
  split
  · exact writeReply_records ..
  · exact hifRaise_records ..

theorem dropBuf_records (b : Buffer) : (dropBuf b s).records = s.records := by
  unfold dropBuf
  split
  · dsimp only
    split <;> rfl
  · rfl

/-- A completion takes its own command off those in hand, and no other. -/
theorem complete_awaiting_filter (h : Held) (st : Status) (d : Word) :
    (complete h st d s).hif.awaiting = s.hif.awaiting.filter fun y => y.jseq != h.jseq :=
  (congrArg Prod.snd (complete_records s h st d)).trans (journalAdd_awaiting ..)

/-- What holds of every command in hand still does when free-pending buffers have been freed. -/
theorem sweepBuffers_awaiting {P : Held → Prop} (hp : ∀ x ∈ s.hif.awaiting, P x) : ∀ x ∈ (sweepBuffers s).hif.awaiting, P x := by
  unfold sweepBuffers
  refine List.foldlRecOn (motive := fun t : State => ∀ x ∈ t.hif.awaiting, P x) _ _ hp fun t ht b _ => ?_
  split
  · exact ht
  · split
    · exact ht
    next h _ _ =>
      intro x hx
      rw [complete_awaiting_filter, show (sendEvent b.owner 0x0001 b.handle 16 (dropBuf b t)).hif.awaiting = t.hif.awaiting from
        congrArg Prod.snd ((sendEvent_records ..).trans (dropBuf_records ..))] at hx
      exact ht x (List.mem_of_mem_filter hx)

end

/-! ## Sources raised and dropped (R225, R226, R231) -/

section
variable (code : Nat) (s : State)

theorem raiseSource_sets : (raiseSource code s).xcl.sets = s.xcl.sets := by
  obtain ⟨k, c, f, h⟩ := raiseSource_xcl code s
  rw [h]
  rfl

theorem followSource_sets (on : Bool) : (followSource code on s).xcl.sets = s.xcl.sets := by
  unfold followSource
  split
  · split
    · rfl
    · exact raiseSource_sets ..
  · rfl

theorem followSets_sets : (followSets s).xcl.sets = s.xcl.sets := by
  unfold followSets
  split <;> rfl

end

/-- A raised source's bit reads 1. -/
theorem getLsbD_or_bit1 {code : Nat} (x : BitVec 12) (h : code < 12) : (x ||| bit1 12 code).getLsbD code = true := by
  have hb : ∀ c < 12, (bit1 12 c).getLsbD c = true := by decide
  rw [BitVec.getLsbD_or, hb code h, Bool.or_true]

/-- The levels of the safety inputs. -/
def Xcl.inputs (x : Xcl) : Bool × Bool × Bool := (x.blankIn, x.ilockA, x.ilockB)

theorem raiseSource_inputs (code : Nat) (s : State) : (raiseSource code s).xcl.inputs = s.xcl.inputs := by
  obtain ⟨k, c, f, h⟩ := raiseSource_xcl code s
  rw [h]
  rfl

/-- Level source 0 is raised, in force, and latches nothing. -/
theorem followSource_ext (s : State) (h : safeAgrees s.xcl = true) : (followSource 0 true s).xcl.safe = true ∧
    (followSource 0 true s).xcl.active.getLsbD 0 = true ∧ (followSource 0 true s).xcl.latch = s.xcl.latch ∧
    (followSource 0 true s).xcl.inputs = s.xcl.inputs := by
  unfold followSource
  rw [if_pos rfl]
  split
  next ha =>
    refine ⟨?_, ha, rfl, rfl⟩
    rw [eq_of_beq h, safeNow, ha, Bool.or_true, Bool.true_or]
  next =>
    refine ⟨raiseSource_safe .., ?_, raiseSource_latch .., raiseSource_inputs ..⟩
    rw [raiseSource_active]
    exact getLsbD_or_bit1 _ (by decide)

/-- Without its level source 0 the safe state lasts while a latched source or source 7 demands it. -/
theorem dropExt_eq (x : Xcl) :
    ({ x with active := x.active &&& ~~~(bit1 12 0), safe := safeNow { x with active := x.active &&& ~~~(bit1 12 0) } } : Xcl) =
      { x with active := x.active &&& ~~~1, safe := x.latch != 0 || x.active.getLsbD 7 } := by
  simp [safeNow, bit1]

/-! ## The versions of a set (R213, R215, R222) -/

/-- The versions of a set that wait, the newest ready one, the last comparison, and those counted as skipped. -/
def XSet.versions (x : XSet) : List (XVersion × Option Held) × XVersion × Bool × BitVec 32 := (x.queue, x.ready, x.lastOk, x.skipCnt)

theorem prune_versions (x : XSet) : (prune x).versions = x.versions := by
  have hr : (prune x).ready = x.ready := by
    cases hm : x.maskCopies <;> simp [prune, XSet.ready, hm]
  rw [XSet.versions, hr]
  rfl

theorem xset_of_sets {s t : State} (h : t.xcl.sets = s.xcl.sets) (p : Nat) : t.xset p = s.xset p := congrArg (nth · p) h

section
variable (p : Fin 4) (s : State)

theorem onXset_versions {f : XSet → XSet} (hf : ∀ x, (f x).versions = x.versions) :
    ((s.onXset p.val f).xset p.val).versions = (s.xset p.val).versions := by
  rw [State.onXset_self _ _ _ p.isLt, hf]

theorem xsetRaise_xset (b : BitVec 4) : (xsetRaise p.val b s).xset p.val = { s.xset p.val with sticky := (s.xset p.val).sticky ||| b } := by
  rw [xset_of_sets (congrArg Xcl.sets (only_xcl (xsetRaise_only p.val b s (onlyReports_refl _)))), State.onXset_self _ _ _ p.isLt]

theorem takeAll_versions : ((takeAll p.val s).xset p.val).versions = (s.xset p.val).versions :=
  onXset_versions p s fun x => prune_versions { x with band := _, taken := _, newest := _ }

theorem askReload_sets : (askReload p.val s).xcl.sets = s.xcl.sets := congrArg Xcl.sets (xcl_of_still (still_askReload s p.val))

theorem checkStuck_versions : ((checkStuck p.val s).xset p.val).versions = (s.xset p.val).versions := by
  unfold checkStuck
  lift_lets
  intro bad s1 s2
  have h1 : (s1.xset p.val).versions = (s.xset p.val).versions := onXset_versions p s fun _ => rfl
  have h2 : (s2.xset p.val).versions = (s1.xset p.val).versions := by
    dsimp only [s2]
    split
    · rw [xsetRaise_xset]
      rfl
    · rfl
  rw [xset_of_sets (followSource_sets ..), h2, h1]

theorem completeOpt_sets (h : Option Held) (st : Status) (d : Word) : (completeOpt h st d s).xcl.sets = s.xcl.sets :=
  congrArg Xcl.sets (only_xcl (completeOpt_only h st d s (onlyReports_refl s)))

/-- The oldest version that waits, in a live device. -/
def State.waits (v : XVersion) (h : Option Held) (rest : List (XVersion × Option Held)) (s : State) : Prop :=
  s.live = true ∧ (s.xset p.val).queue = (v, h) :: rest

variable {p s} {v : XVersion} {h : Option Held} {rest : List (XVersion × Option Held)} (hw : s.waits p v h rest)
include hw

/-- Whether the version agrees or not, its mask load completes last. -/
theorem versionReady_completes (b : Bool) : ∃ st u, versionReady p b s = completeOpt h st 0 u := by
  obtain ⟨hl, hq⟩ := hw
  simp only [versionReady, hq, hl, Bool.not_true, Bool.false_eq_true, if_false]
  split
  · exact ⟨_, _, rfl⟩
  · exact ⟨_, _, rfl⟩

/-- A version that agrees is the newest ready one; the one before it is counted as skipped when no band took it. -/
theorem versionReady_agrees : ((versionReady p true s).xset p.val).versions =
    (rest, v, true, if (s.xset p.val).taken then (s.xset p.val).skipCnt else sat (s.xset p.val).skipCnt) := by
  obtain ⟨hl, hq⟩ := hw
  unfold versionReady
  simp (zeta := false) only [hq, hl, Bool.not_true, Bool.false_eq_true, if_false]
  lift_lets
  intro s1 s2 s3 s4 st s5 s6
  rw [xset_of_sets (completeOpt_sets ..), checkStuck_versions, xset_of_sets (followSets_sets ..)]
  have h2 : s2.xset p.val = { s.xset p.val with queue := rest, lastOk := true } := State.onXset_self s p.val _ p.isLt
  have h3 : (s3.xset p.val).queue = rest ∧ (s3.xset p.val).lastOk = true ∧ (s3.xset p.val).skipCnt =
      if (s.xset p.val).taken then (s.xset p.val).skipCnt else sat (s.xset p.val).skipCnt := by
    dsimp only [s3]
    rw [h2]
    split
    · rw [h2]
      exact ⟨rfl, rfl, rfl⟩
    · rw [xsetRaise_xset, State.onXset_self _ _ _ p.isLt, h2]
      exact ⟨rfl, rfl, rfl⟩
  have h4 : (s4.xset p.val).versions = ((s3.xset p.val).queue, v, (s3.xset p.val).lastOk, (s3.xset p.val).skipCnt) := by
    rw [show s4 = s3.onXset p.val _ from rfl, State.onXset_self _ _ _ p.isLt, prune_versions]
    rfl
  have h5 : (s5.xset p.val).versions = (s4.xset p.val).versions := by
    dsimp only [s5]
    split
    · rfl
    · exact takeAll_versions ..
  have h6 : (s6.xset p.val).versions = (s5.xset p.val).versions := by
    dsimp only [s6]
    split
    · rw [xset_of_sets (askReload_sets ..)]
    · rfl
  obtain ⟨hqueue, hok, hskip⟩ := h3
  rw [h6, h5, h4, hqueue, hok, hskip]

/-- A version that disagrees raises source 9; the versions that are ready stay. -/
theorem versionReady_disagrees : let t := versionReady p false s
    (t.xset p.val).queue = rest ∧ (t.xset p.val).lastOk = false ∧ (t.xset p.val).maskCopies = (s.xset p.val).maskCopies ∧
      t.xcl.safe = true ∧ t.xcl.active.getLsbD 9 = true := by
  obtain ⟨hl, hq⟩ := hw
  unfold versionReady
  simp (zeta := false) only [hq, hl, Bool.not_true, Bool.not_false, Bool.false_eq_true, if_true, if_false]
  lift_lets
  intro s1 s2 t
  have hx : t.xcl = (raiseSource 9 (xsetRaise p.val 0x2 s2)).xcl := only_xcl (completeOpt_only _ _ _ _ (onlyReports_refl _))
  have hset : t.xset p.val = { s.xset p.val with queue := rest, lastOk := false, sticky := (s.xset p.val).sticky ||| 0x2 } := by
    rw [xset_of_sets (congrArg Xcl.sets hx), xset_of_sets (raiseSource_sets ..), xsetRaise_xset,
      show s2.xset p.val = { s.xset p.val with queue := rest, lastOk := false } from State.onXset_self s p.val _ p.isLt]
  rw [hset, hx, raiseSource_safe, raiseSource_active]
  exact ⟨rfl, rfl, rfl, rfl, getLsbD_or_bit1 _ (by decide)⟩

end

/-! ## The events -/

/-- What XCL_VERSION_READY frees leaves the exclusion engine as it is. -/
theorem sweepBuffers_xcl (s : State) : (sweepBuffers s).xcl = s.xcl := xcl_of_still (still_sweepBuffers s)

/-- The mask load of a version that has become ready, or has failed, awaits its completion no more. -/
theorem execXclVersionReady_awaiting {p : Fin 4} {s t : State} {v : XVersion} {h : Held} {rest : List (XVersion × Option Held)}
    (hw : s.waits p v (some h) rest) (b : Bool) (he : execXclVersionReady p b s = .next t) : ∀ x ∈ t.hif.awaiting, x.jseq ≠ h.jseq := by
  obtain ⟨st, u, hu⟩ := versionReady_completes hw b
  obtain rfl := Host.Outcome.next.inj he
  rw [hu]
  exact sweepBuffers_awaiting _ (complete_awaiting u h st 0)

theorem execIlockOpen_live {b : Fin 2} {s : State} (hl : s.live = true) :
    execIlockOpen b s = .next (raiseSource (1 + b.val) (setIlock b false s)) := congrArg Host.Outcome.next (if_pos hl)

theorem setIlock_open (b : Fin 2) (s : State) :
    (if b.val = 0 then (setIlock b false s).xcl.ilockA else (setIlock b false s).xcl.ilockB) = false := by
  match b with
  | 0 => rfl
  | 1 => rfl

/-- An interlock that closes changes its level alone. -/
theorem setIlock_closed (b : Fin 2) (s : State) : setIlock b true s = s.onXcl fun x => { x with
    ilockA := x.ilockA || b.val == 0, ilockB := x.ilockB || b.val == 1 } := by
  match b with
  | 0 => simp [setIlock]
  | 1 => simp [setIlock]

end Sys2Proof.Machine

namespace Sys2Proof.Proofs
open Sys2Proof.Machine

/-- Settles O53: each input raises or drops its source, and the oldest version that waits becomes ready or raises source 9. -/
theorem blankInputsRaiseAndDropTheirSources : Obligations.BlankInputsRaiseAndDropTheirSources := by
  refine ⟨fun s hl hs => ?fall, fun s hl => ?rise, fun b s hl => ⟨_, execIlockOpen_live hl, raiseSource_safe .., ?active, ?latch, ?level⟩,
    fun b s => congrArg Host.Outcome.next (setIlock_closed b s), fun s hl ha hb => ?closed, fun s hl hd => ?differ,
    fun p v h rest s hl hq => ?versions⟩
  case fall =>
    obtain ⟨hsafe, hactive, hlatch, hinputs⟩ := followSource_ext (s.onXcl fun x => { x with blankIn := false }) hs
    exact ⟨_, congrArg Host.Outcome.next (if_pos hl), congrArg Prod.fst hinputs, hsafe, hactive, hlatch⟩
  case rise =>
    refine congrArg Host.Outcome.next ((if_pos hl).trans ?_)
    exact congrArg (fun x => { s with xcl := x }) (dropExt_eq { s.xcl with blankIn := true })
  case active =>
    rw [raiseSource_active]
    exact getLsbD_or_bit1 _ (by omega)
  case latch =>
    rw [raiseSource_latch, if_neg (by revert b; decide)]
    exact getLsbD_or_bit1 _ (by omega)
  case level =>
    obtain ⟨-, ha, hb⟩ : _ ∧ _ ∧ _ := by simpa only [Xcl.inputs, Prod.mk.injEq] using raiseSource_inputs (1 + b.val) (setIlock b false s)
    rw [ha, hb]
    exact setIlock_open b s
  case closed =>
    refine ⟨_, congrArg Host.Outcome.next (if_pos (by rw [hl, ha, hb]; rfl)), ?_, rfl⟩
    rw [dropSource_active, dropSource_active, BitVec.and_assoc]
    rfl
  case differ =>
    exact ⟨_, congrArg Host.Outcome.next (if_pos (by rw [hl]; exact bne_iff_ne.2 hd)), xclRaise_only _ _ (onlyReports_refl _)⟩
  case versions =>
    have hw : s.waits p v h rest := ⟨hl, hq⟩
    refine ⟨⟨_, rfl, ?agrees⟩, ⟨_, rfl, ?disagrees⟩, fun b c t hc he => ?completes⟩
    case agrees =>
      rw [xset_of_sets (congrArg Xcl.sets (sweepBuffers_xcl _))]
      simpa only [XSet.versions, Prod.mk.injEq] using versionReady_agrees hw
    case disagrees =>
      obtain ⟨hqueue, hok, hcopies, hsafe, hactive⟩ := versionReady_disagrees hw
      rw [xset_of_sets (congrArg Xcl.sets (sweepBuffers_xcl _)), sweepBuffers_xcl]
      exact ⟨hqueue, hok, hsafe, hactive, hcopies⟩
    case completes =>
      subst hc
      exact execXclVersionReady_awaiting hw b he

end Sys2Proof.Proofs
end

section
/-!
PROOFS. What a unit's runs of reads and writes leave of the memories' bytes, whatever protection, fences and errors they meet (R403 to R415).
-/
namespace Sys2Proof.Machine

/-! ## Reads (R406, R410) -/

/-- The bytes of the three memories, and the pseudo-channels that are fenced. -/
def State.contents (s : State) : List Host.Cell × List Host.Cell × List Host.Cell × BitVec 32 :=
  (s.mem.plane, s.mem.general, s.mem.reserve, s.mem.fenced)

section
variable {s t : State}

theorem contents_of_mem (h : t.mem = s.mem) : t.contents = s.contents := by rw [State.contents, h, State.contents]

theorem only_contents (h : onlyReports s t) : t.contents = s.contents := contents_of_mem (only_mem h)

theorem Metered.contents (h : Metered s t) : t.contents = s.contents := by
  obtain ⟨_, _, _, _, _, rfl⟩ := h
  rfl

end

section
variable (s : State)

theorem memRaise_contents (b : BitVec 10) : (memRaise b s).contents = s.contents := by
  rw [State.contents, memRaise_mem]
  rfl

theorem abortMigration_contents : (abortMigration s).contents = s.contents := by
  rw [abortMigration, only_contents (completeOpt_only _ _ _ _ (onlyReports_refl _)), contents_of_mem (migrationOver_mem _), memRaise_contents]
  rfl

theorem spareReaction_contents (lr r : Nat) : (spareReaction lr r s).contents = s.contents := by
  unfold spareReaction
  split
  · exact abortMigration_contents s
  · split
    · exact memRaise_contents s _
    · exact contents_of_mem (raise_mem _ s)

/-- An uncorrectable read counts and may move ranks, and leaves every byte. -/
theorem countUe_contents (n : Nat) (p : MemPlace) (r : Nat) : (countUe n p r s).contents = s.contents := by
  unfold countUe
  lift_lets
  intro first s1 s2 s3
  have h2 : s2.contents = s.contents := memRaise_contents s1 0x2
  have h3 : s3.contents = s2.contents := by
    dsimp only [s3]
    split <;> rfl
  rw [spareReaction_contents, h3, h2]

theorem correctedRead_contents (rank pc : Nat) : (correctedRead rank pc s).contents = s.contents := memRaise_contents ..

/-- A burst that reads leaves every byte. -/
theorem serveBurst_read {q : MemReq} (hd : q.data = none) : (serveBurst q s).1.contents = s.contents := by
  have hm := (served_metered q s).contents
  unfold serveBurst
  lift_lets
  intro p rank s1
  have h1 : s1.contents = s.contents := hm
  clear_value s1
  split
  · exact (memRaise_contents ..).trans h1
  · rw [hd]
    dsimp only
    split
    · exact (countUe_contents ..).trans h1
    · split
      · exact (correctedRead_contents ..).trans h1
      · exact h1

end

theorem burstBytes_length (q : MemReq) (n : Nat) (bad : Bool) (s : State) : (burstBytes q n bad s).length = n := by
  unfold burstBytes
  split
  · simp
  · split <;> simp

/-- One burst of a run of reads that ends at e. -/
def fetchStep (q : MemReq) (e : Nat) (g : Fetched) (w : Nat × Nat) : Fetched :=
  let r : MemReq := { q with addr := w.1, closes := w.1 + w.2 == e }
  let t := serveBurst r (meter q.port.val g.st)
  { bytes := g.bytes ++ burstBytes r w.2 t.2 t.1, bad := if t.2 then g.bad ++ [w.1 / 32 * 32] else g.bad, st := t.1 }

theorem portRead_steps (q : MemReq) (n : Nat) (s : State) :
    portRead q n s = (burstsOf q.addr n).foldl (fetchStep q (q.addr + n)) { st := s } := rfl

section
variable {q : MemReq} (hd : q.data = none)
include hd

theorem fetchStep_frame (e : Nat) (g : Fetched) (w : Nat × Nat) :
    (fetchStep q e g w).st.contents = g.st.contents ∧ (fetchStep q e g w).bytes.length = g.bytes.length + w.2 :=
  ⟨(serveBurst_read (q := { q with addr := w.1, closes := w.1 + w.2 == e }) _ hd).trans (meter_metered q.port.val g.st).contents,
    by rw [fetchStep, List.length_append, burstBytes_length]⟩

theorem fetchSteps_frame (e : Nat) (ws : List (Nat × Nat)) (g : Fetched) : (ws.foldl (fetchStep q e) g).st.contents = g.st.contents ∧
    (ws.foldl (fetchStep q e) g).bytes.length = g.bytes.length + (ws.map (·.2)).sum := by
  induction ws generalizing g with
  | nil => exact ⟨rfl, rfl⟩
  | cons w ws ih =>
    obtain ⟨hst, hlen⟩ := fetchStep_frame hd e g w
    obtain ⟨ihst, ihlen⟩ := ih (fetchStep q e g w)
    rw [List.foldl_cons, List.map_cons, List.sum_cons, ihst, ihlen, hst, hlen]
    exact ⟨rfl, Nat.add_assoc ..⟩

/-- A run that reads leaves every byte, and brings as many as it asks for. -/
theorem portRead_frame (n : Nat) (s : State) : (portRead q n s).st.contents = s.contents ∧ (portRead q n s).bytes.length = n := by
  rw [portRead_steps]
  obtain ⟨hst, hlen⟩ := fetchSteps_frame hd (q.addr + n) (burstsOf q.addr n) { st := s }
  rw [burstsOf_length_sum] at hlen
  exact ⟨hst, hlen.trans (Nat.zero_add n)⟩

end

theorem bufBytes_length (b : Buffer) (o n : Nat) (s : State) : (bufBytes b o n s).length = n := by
  unfold bufBytes
  split
  · simp
  · split <;> simp

/-- A read of a buffer leaves every byte, and brings as many as it asks for. -/
theorem bufFetch_frame {q : MemReq} (b : Buffer) (o n : Nat) (s : State) (hd : q.data = none) :
    (bufFetch q b o n s).st.contents = s.contents ∧ (bufFetch q b o n s).bytes.length = n := by
  unfold bufFetch
  split
  · exact ⟨rfl, bufBytes_length ..⟩
  next a _ => exact portRead_frame (q := { q with addr := a + o }) hd n s

/-! ## Writes to the reserve (R396, R422) -/

/-- t is s but, in the memories, for what stands in the reserve from lo on and below hi. -/
structure ReserveFrame (lo hi : Nat) (s t : State) : Prop where
  plane : t.mem.plane = s.mem.plane
  general : t.mem.general = s.mem.general
  wf : memWf s.mem.reserve = true → memWf t.mem.reserve = true
  other : memWf s.mem.reserve = true → ∀ k, k < lo ∨ hi ≤ k → memGet t.mem.reserve k = memGet s.mem.reserve k

theorem ReserveFrame.trans {lo hi : Nat} {s t u : State} (h : ReserveFrame lo hi s t) (k : ReserveFrame lo hi t u) : ReserveFrame lo hi s u :=
  ⟨k.plane.trans h.plane, k.general.trans h.general, fun w => k.wf (h.wf w), fun w i hi => (k.other (h.wf w) i hi).trans (h.other w i hi)⟩

theorem ReserveFrame.of_contents {lo hi : Nat} {s t : State} (h : t.contents = s.contents) : ReserveFrame lo hi s t := by
  obtain ⟨hp, hg, hr, -⟩ : _ ∧ _ ∧ _ ∧ _ := by simpa only [State.contents, Prod.mk.injEq] using h
  exact ⟨hp, hg, fun w => hr ▸ w, fun _ k _ => by rw [hr]⟩

/-- Every burst of a run lies in the run. -/
theorem mem_burstsOf {a n : Nat} {w : Nat × Nat} (h : w ∈ burstsOf a n) : a ≤ w.1 ∧ w.1 + w.2 ≤ a + n := by
  simp only [burstsOf, List.mem_map, List.mem_range] at h
  obtain ⟨i, hi, rfl⟩ := h
  split at hi <;> dsimp only <;> omega

theorem slice_length (b : List Byte) (o n : Nat) : (slice b o n).length = n := by
  simp only [slice, List.length_append, List.length_replicate, List.length_take]
  omega

/-- A burst that writes to the reserve stores its bytes there, or none where its pseudo-channel is fenced. -/
theorem serveBurst_reserve {q : MemReq} {d : List Byte} {lo hi : Nat} (s : State) (hq : q.space = .reserve) (hd : q.data = some d)
    (hlo : lo ≤ q.addr) (hhi : q.addr + d.length ≤ hi) : ReserveFrame lo hi s (serveBurst q s).1 := by
  have hm := served_metered q s
  have hopen : protRefused q s = false := by simp [protRefused, isProtectedAt, hq]
  simp only [serveBurst, hm.refused, hopen, hd, hq, Bool.false_eq_true, if_false]
  refine ReserveFrame.trans (.of_contents hm.contents) ?_
  generalize activate _ _ _ _ = u
  split
  · exact .of_contents rfl
  · have hmem (p : MemPlace) (m : Mem) : (cleanWord p d m).plane = m.plane ∧ (cleanWord p d m).general = m.general ∧
        (cleanWord p d m).reserve = m.reserve := by
      unfold cleanWord
      split <;> exact ⟨rfl, rfl, rfl⟩
    obtain ⟨hp, hg, hr⟩ := hmem (MemReq.place q s.mem) (storeAt .reserve q.addr d u.mem)
    refine ⟨hp, hg, fun w => ?_, fun w k hk => ?_⟩
    · rw [State.onMem_mem, hr]
      exact memWrite_wf _ _ _ w
    · rw [State.onMem_mem, hr]
      exact memGet_memWrite_other _ _ _ _ w (by omega)

/-- A run of writes to the reserve stays in its place, whatever is fenced. -/
theorem portWrite_reserve {q : MemReq} (d : List Byte) (s : State) (hq : q.space = .reserve) :
    ReserveFrame q.addr (q.addr + d.length) s (portWrite q d s) := by
  unfold portWrite
  refine List.foldlRecOn (motive := ReserveFrame q.addr (q.addr + d.length) s) _ _ (.of_contents rfl) fun t ht w hw => ?_
  obtain ⟨hlo, hhi⟩ := mem_burstsOf hw
  exact (ht.trans (.of_contents (meter_metered ..).contents)).trans
    (serveBurst_reserve _ hq rfl hlo (by rw [slice_length]; exact hhi))

end Sys2Proof.Machine
end

section
/-!
PROOFS. The commands of the exclusion engine and of the symbols (R202, R213, R225 to R227, R231, R234 to R236). O26 is settled here.
-/
namespace Sys2Proof.Machine

/-! ## Entry into the safe state (R227) -/

theorem lightOff_of_ill {s t : State} (h : t.ill = s.ill) : lightOff t = lightOff s := by rw [lightOff, h, lightOff]

section
variable (code : Nat) (s : State)

theorem enterSafe_xcl : (enterSafe code s).xcl = { s.xcl with
    safe := true, safeCnt := sat s.xcl.safeCnt, safeTick := BitVec.ofNat 24 s.tick, safeCode := BitVec.ofNat 4 code
    safeFrame := s.frame.truncate 32 } := only_xcl (logRec_only _ _ _ _ _ (onlyReports_refl _))

theorem enterSafe_lightOff : lightOff (enterSafe code s) = true := by
  rw [enterSafe, lightOff_of_ill (only_ill (logRec_only _ _ _ _ _ (onlyReports_refl _)))]
  simp [lightOff, strobe0]

/-- A source that finds the safe state not in force enters it: counted and recorded, with the lights out. -/
theorem raiseSource_enters (h : s.xcl.safe = false) : let t := raiseSource code s
    lightOff t = true ∧ t.xcl.safeCnt = sat s.xcl.safeCnt ∧ t.xcl.safeCode = BitVec.ofNat 4 code ∧
      t.xcl.safeTick = BitVec.ofNat 24 s.tick ∧ t.xcl.safeFrame = s.frame.truncate 32 := by
  unfold raiseSource
  lift_lets
  intro was s1 s2 t
  have hs : onlyReports (s1.onXcl fun x => { x with sticky := x.sticky ||| bit1 13 code }) s2 := xclRaise_only _ s1 (onlyReports_refl _)
  have ht : t = enterSafe code s2 := if_neg (by rw [show was = false from h]; decide)
  rw [ht, enterSafe_xcl, enterSafe_lightOff, only_xcl hs, only_tick hs, only_frame hs]
  exact ⟨rfl, rfl, rfl, rfl, rfl⟩

end

/-! ## XCL_MASK_LOAD (R202, R213) -/

theorem maskLoad_effect (h : Held) (s : State) : (specXclMaskLoad.effect h s).st =
    let p := h.cmd.tindex.toNat
    let f := maskRead h.cmd s
    let runs := planeRuns f.bytes (s.arr p).height
    if maxRuns < runs.length then f.st
    else createVersion p (fun v => { v with runs := runs }) (some h)
      (f.st.onCmp fun x => { x with named := BitVec.ofNat 32 (u32 (Cmd.payload h.cmd) 0) :: x.named }) := by
  simp only [specXclMaskLoad]
  split <;> rfl

theorem only_arr {s t : State} (h : onlyReports s t) (p : Nat) : t.arr p = s.arr p := show t.settings.arr p = s.settings.arr p by rw [h]

/-! ## SYM_GLYPH_LOAD (R236) -/

/-- A row completes when its effect, once the command is accepted, leaves what P asks of the settings. -/
theorem completes_of_accepted_effect {sp : OpSpec} {row : Cmd → Instr} {P : Cmd → State → State → Prop}
    (hx : ∀ c s, exec (row c) s = .next (accept sp c s))
    (hp : ∀ c s h u t, accepted sp c s = true → onlyReports s u → h.cmd = c → onlyReports (sp.effect h u).st t → P c s t) :
    Completes sp row P := fun c s ha =>
  ⟨_, hx c s, hp c s _ _ _ ha (atEffect_only sp c s) rfl (accept_effect sp c s ha)⟩

theorem checks_eq_none {l : List (Option Refuse)} (h : checks l = none) : ∀ x ∈ l, x = none := by
  refine firstOf_eq_none ?_
  cases hf : firstOf l with
  | none => rfl
  | some r =>
    simp only [checks, hf] at h
    split at h <;> cases h

/-- A field that passes the checks of a named buffer names a live one. -/
theorem findBuf_of_bufChecks {c : Cmd} {o : Nat} {s : State} (h : bufChecks c o s = none) :
    ∃ q, findBuf (BitVec.ofNat 32 (u32 (Cmd.payload c) o)) s = some q := by
  unfold bufChecks at h
  split at h
  · cases h
  next q hq => exact ⟨q, hq⟩

theorem only_findBuf {s t : State} (h : onlyReports s t) (k : BitVec 32) : findBuf k t = findBuf k s := by
  rw [findBuf, only_cmp h, findBuf]

/-- An accepted SYM_GLYPH_LOAD names a live buffer. -/
theorem symGlyphLoad_buf {c : Cmd} {s : State} (h : accepted specSymGlyphLoad c s = true) :
    ∃ q, findBuf (BitVec.ofNat 32 (u32 (Cmd.payload c) 4)) s = some q := by
  simp only [accepted, Bool.and_eq_true, Option.isNone_iff_eq_none] at h
  have hb : bufChecks c 4 (atChecks c s) = none := checks_eq_none (check_of_refusal h.2) _ (by simp)
  obtain ⟨q, hq⟩ := findBuf_of_bufChecks hb
  exact ⟨q, (only_findBuf (atChecks_only c s) _).symm.trans hq⟩

/-- The glyph store after the bytes of n glyphs, read from a buffer, are written to it from a on. -/
def glyphsWritten (q : Buffer) (n a : Nat) (s : State) : State :=
  let f := bufFetch { port := 9 } q 0 (n * glyphSize) s
  portWrite { port := 9, space := .reserve, addr := a } f.bytes f.st

theorem symGlyphLoad_effect {h : Held} {s : State} {q : Buffer} (hq : findBuf (BitVec.ofNat 32 (u32 (Cmd.payload h.cmd) 4)) s = some q) :
    (specSymGlyphLoad.effect h s).st =
      let b := Cmd.payload h.cmd
      let n := u8 b 1 + 1
      let m := BitVec.ofNat 256 ((2 ^ n - 1) * 2 ^ u8 b 0)
      (glyphsWritten q n (u8 b 0 * glyphSize) s).onXcl fun x => { x with
        glyphLoaded := x.glyphLoaded ||| m, glyphLost := x.glyphLost &&& ~~~m } := by
  simp only [specSymGlyphLoad, hq]
  rfl

section
variable (q : Buffer) (n a : Nat) (s : State)

/-- Outside the glyphs' place every byte of memory reads as before. -/
theorem glyphsWritten_frame : ReserveFrame a (a + n * glyphSize) s (glyphsWritten q n a s) := by
  obtain ⟨hst, hlen⟩ := bufFetch_frame (q := { port := 9 }) q 0 (n * glyphSize) s rfl
  have hw := portWrite_reserve (q := { port := 9, space := .reserve, addr := a }) (bufFetch { port := 9 } q 0 (n * glyphSize) s).bytes
    (bufFetch { port := 9 } q 0 (n * glyphSize) s).st rfl
  rw [hlen] at hw
  exact (ReserveFrame.of_contents hst).trans hw

/-- With no pseudo-channel fenced, the glyphs' place holds the bytes read. -/
theorem memGet_glyphsWritten (hwf : memWf s.mem.reserve = true) (hf : s.mem.fenced = 0) {k : Nat} (hk : k < n * glyphSize) :
    memGet (glyphsWritten q n a s).mem.reserve (a + k) = (bufFetch { port := 9 } q 0 (n * glyphSize) s).bytes.getD k 0 := by
  obtain ⟨hst, hlen⟩ := bufFetch_frame (q := { port := 9 }) q 0 (n * glyphSize) s rfl
  obtain ⟨-, -, hr, hfe⟩ : _ ∧ _ ∧ _ ∧ _ := by simpa only [State.contents, Prod.mk.injEq] using hst
  have hcells : (glyphsWritten q n a s).mem.reserve = memWrite (bufFetch { port := 9 } q 0 (n * glyphSize) s).st.mem.reserve a _ :=
    (portWrite_stores { port := 9, space := .reserve, addr := a } _ _ (hfe.trans hf) fun _ _ => rfl).cells.1
  rw [hcells, hr, memGet_memWrite _ _ _ _ hwf (by rwa [hlen])]

end
end Sys2Proof.Machine

namespace Sys2Proof.Proofs
open Sys2Proof.Machine

/-- Settles O26: each command's effect on a state that differs from the one before in reports only; the glyphs' bytes go to their place. -/
theorem exclusionAndSymbolCommands : Obligations.ExclusionAndSymbolCommands := by
  refine ⟨completes_of_effect (fun _ _ => rfl) fun c s h u t hu hc _ ht => ?region,
    completes_of_effect (fun _ _ => rfl) fun c s h u t hu hc ho ht => ⟨u, h, hu, hc, ho, fun hmany => ?refused, fun hfew => ?loaded⟩,
    completes_of_effect (fun _ _ => rfl) fun c s h u t hu hc _ ht => ?blank,
    completes_of_effect (fun _ _ => rfl) fun c s h u t hu hc _ ht => onlyReports_trans (same_onXcl hu _) ht,
    completes_of_effect (fun _ _ => rfl) fun c s h u t hu hc _ ht => ?symbols,
    completes_of_accepted_effect (fun _ _ => rfl) fun c s h u t ha hu hc ht => ?glyphs⟩
  case region =>
    subst hc
    exact onlyReports_trans (same_onXcl hu _) ht
  case refused =>
    subst hc
    rw [maskLoad_effect] at ht
    dsimp only at ht
    rwa [only_arr hu, if_pos hmany] at ht
  case loaded =>
    subst hc
    rw [maskLoad_effect] at ht
    dsimp only at ht
    rwa [only_arr hu, if_neg (Nat.not_lt.2 hfew)] at ht
  case blank =>
    have hs : onlyReports (raiseSource 11 s) t := onlyReports_trans (raiseSource_same hu 11) ht
    obtain ⟨k, code, f, hx⟩ := raiseSource_xcl 11 s
    rw [only_xcl hs, lightOff_of_ill (only_ill hs)]
    refine ⟨hs, raiseSource_safe .., raiseSource_latch .., raiseSource_active .., ?_, raiseSource_enters 11 s⟩
    rw [hx]
    rfl
  case symbols =>
    subst hc
    exact onlyReports_trans (same_onXcl hu _) ht
  case glyphs =>
    subst hc
    obtain ⟨q, hq⟩ := symGlyphLoad_buf ha
    rw [symGlyphLoad_effect ((only_findBuf hu _).trans hq)] at ht
    have hframe := glyphsWritten_frame q (u8 (Cmd.payload h.cmd) 1 + 1) (u8 (Cmd.payload h.cmd) 0 * glyphSize) u
    have hmem : t.mem = (glyphsWritten q (u8 (Cmd.payload h.cmd) 1 + 1) (u8 (Cmd.payload h.cmd) 0 * glyphSize) u).mem :=
      (only_mem ht).trans rfl
    refine ⟨u, q, hu, hq, ht, ?_⟩
    rw [hmem, ← only_mem hu]
    exact ⟨fun hwf k => ⟨fun hk hf => memGet_glyphsWritten q _ _ u hwf hf hk, hframe.other hwf k⟩, hframe.plane, hframe.general⟩

end Sys2Proof.Proofs
end

section
/-!
PROOFS. Slicers: what a band's writes through port 4 leave and do not look at, the end of a drain, and the band that an idle slicer takes (R242
to R246, R249, R392). O54 is settled here.
-/
namespace Sys2Proof.Machine

/-! ## The writes of port 4 (R400, R406) -/

/-- Protection refuses no write of the slicers. -/
theorem protRefused_slicerWrite {q : MemReq} {d : List Byte} (hp : q.port.val = 4) (hd : q.data = some d) (s : State) :
    protRefused q s = false := by
  simp [protRefused, hp, hd]

theorem meter_onSlc (n : Nat) (f : Slc → Slc) (s : State) : meter n (s.onSlc f) = (meter n s).onSlc f := rfl

theorem wakeRank_onSlc (r : Nat) (f : Slc → Slc) (s : State) : wakeRank r (s.onSlc f) = (wakeRank r s).onSlc f := rfl

theorem activate_onSlc (k : Bool) (p : MemPlace) (r : Nat) (f : Slc → Slc) (s : State) :
    activate k p r (s.onSlc f) = (activate k p r s).onSlc f := by
  unfold activate
  dsimp only [State.onSlc_mem]
  split <;> rfl

theorem serveBurst_slicerWrite {q : MemReq} {d : List Byte} (hp : q.port.val = 4) (hd : q.data = some d) (s : State) :
    (serveBurst q s).1 =
      let p := MemReq.place q s.mem
      let t := activate (MemReq.closesRow q p.column) p (readRank p s.mem) (wakeRank (readRank p s.mem) s)
      if t.mem.fenced.getLsbD p.pc then t else t.onMem fun m => cleanWord p d (storeAt q.space q.addr d m) := by
  simp only [serveBurst, protRefused_slicerWrite hp hd, hd, Bool.false_eq_true, if_false]

section
variable {q : MemReq} {d : List Byte} {f : Slc → Slc} {s : State} (hp : q.port.val = 4)
include hp

/-- A burst that the slicers write does not look at the slicers and stores. -/
theorem serveBurst_onSlc (hd : q.data = some d) : (serveBurst q (s.onSlc f)).1 = (serveBurst q s).1.onSlc f := by
  rw [serveBurst_slicerWrite hp hd, serveBurst_slicerWrite hp hd]
  dsimp only [State.onSlc_mem]
  rw [wakeRank_onSlc, activate_onSlc, apply_ite (State.onSlc · f)]
  rfl

/-- A burst that the slicers write changes memory only. -/
theorem outside_serveBurst (hd : q.data = some d) : (serveBurst q s).1.outside = s.outside := by
  obtain ⟨_, _, _, _, _, hm⟩ := served_metered q s
  rw [serveBurst_slicerWrite hp hd]
  dsimp only
  rw [hm]
  split <;> rfl

theorem portWrite_onSlc : portWrite q d (s.onSlc f) = (portWrite q d s).onSlc f := by
  refine List.foldl_hom (State.onSlc · f) fun t w => ?_
  rw [meter_onSlc]
  exact serveBurst_onSlc hp rfl

theorem outside_portWrite : (portWrite q d s).outside = s.outside := by
  refine foldl_keeps (g := State.outside) (fun t w => ?_) _ s
  exact outside_serveBurst hp rfl

end

/-! ## The 16 bursts of a band (R241, R244) -/

section
variable (q : Slicer) (s : State)

theorem onSlicer_store (i v : Nat) (f : Slicer → Slicer) : (s.onSlicer i f).store v = s.store v := rfl

/-- What the bursts write depends on the store, and not on what the slicers count meanwhile. -/
theorem writeBand_onSlicer (i : Nat) (f : Slicer → Slicer) : writeBand q (s.onSlicer i f) = (writeBand q s).onSlicer i f := by
  unfold writeBand
  rw [onSlicer_store]
  refine List.foldl_hom (State.onSlicer · i f) fun t k => ?_
  exact portWrite_onSlc rfl

theorem outside_writeBand : (writeBand q s).outside = s.outside := by
  unfold writeBand
  refine foldl_keeps (g := State.outside) (fun t k => ?_) _ s
  exact outside_portWrite rfl

theorem writeBand_slc : (writeBand q s).slc = s.slc :=
  show (writeBand q s).outside.slc = s.outside.slc by rw [outside_writeBand]
theorem writeBand_frame : (writeBand q s).frame = s.frame :=
  show (writeBand q s).outside.frame = s.outside.frame by rw [outside_writeBand]

theorem writeBand_store (v : Nat) : (writeBand q s).store v = s.store v := by
  rw [State.store, writeBand_slc, State.store]

/-! ## A band that has been written (R246) -/

theorem bandWritten_mem : (bandWritten q s).mem = s.mem := by
  unfold bandWritten
  dsimp only
  split <;> rfl

theorem bandWritten_slicers : (bandWritten q s).slc.slicers = s.slc.slicers := by
  unfold bandWritten
  dsimp only
  split <;> rfl

/-- With its last band a frame is complete: it is counted, and its buffer is the view's newest. -/
theorem bandWritten_last (hv : q.view.toNat < 5) (hl : ((s.store q.view.toNat).bufs.getD q.buf {}).left =
    [(colourSlot (s.store q.view.toNat).colours q.primary.toNat, q.band.toNat)]) :
    ((bandWritten q s).store q.view.toNat).frameCnt = sat (s.store q.view.toNat).frameCnt ∧
      ((bandWritten q s).store q.view.toNat).newest = some (q.buf, s.frame.truncate 28) := by
  simp only [bandWritten, hl, List.erase_cons_head, List.isEmpty_nil, Bool.not_true, Bool.false_eq_true, if_false]
  rw [State.onStore_self _ _ _ hv, State.onStore_self _ _ _ hv]
  exact ⟨rfl, rfl⟩

end

/-! ## The end of a drain (R243, R244) -/

/-- A slicer whose drain has ended counts its band, and its bursts unless the frame was dropped. -/
def Slicer.drained (q : Slicer) : Slicer :=
  { q with bandCnt := sat q.bandCnt, burstCnt := if q.dropped then q.burstCnt else satN q.burstCnt 16 }

/-- A slicer at rest, or off when it was to switch off after its band. -/
def Slicer.rested (q : Slicer) : Slicer := if q.offAfter then {} else { q with st := .idle, dropped := false, pixels := [] }

/-- What the end of slicer i's drain has done to the device before the slicer rests. -/
def drainedState (i : Nat) (s : State) : State :=
  let t := s.onSlicer i Slicer.drained
  if (s.slicer i).dropped then t else bandWritten (s.slicer i) (writeBand (s.slicer i) t)

section
variable {i : Fin 8} {s : State}

theorem execSlicerFillDone_fills (hl : s.live = true) (hf : (s.slicer i.val).st = .fill) :
    exec (.slicerFillDone i) s = .next (s.onSlicer i.val fun q => { q with st := .drain }) :=
  congrArg Host.Outcome.next (if_pos (by rw [hl, hf]; rfl))

theorem execSlicerDrainDone_drains (hl : s.live = true) (hd : (s.slicer i.val).st = .drain) :
    exec (.slicerDrainDone i) s = .next ((drainedState i.val s).onSlicer i.val Slicer.rested) :=
  congrArg Host.Outcome.next (if_neg (by rw [hl, hd]; decide))

theorem drainedState_dropped (h : (s.slicer i.val).dropped = true) : drainedState i.val s = s.onSlicer i.val Slicer.drained := if_pos h

theorem drainedState_written (h : (s.slicer i.val).dropped = false) : drainedState i.val s =
    bandWritten (s.slicer i.val) ((writeBand (s.slicer i.val) s).onSlicer i.val Slicer.drained) := by
  rw [← writeBand_onSlicer]
  exact if_neg (by rw [h]; decide)

theorem drainedState_slicer : (drainedState i.val s).slicer i.val = (s.slicer i.val).drained := by
  rw [← State.onSlicer_self s i.val Slicer.drained i.isLt]
  cases h : (s.slicer i.val).dropped with
  | true => rw [drainedState_dropped h]
  | false => rw [drainedState_written h, State.slicer, bandWritten_slicers, ← writeBand_onSlicer, writeBand_slc, ← State.slicer]

theorem drainedState_mem (h : (s.slicer i.val).dropped = false) : (drainedState i.val s).mem = (writeBand (s.slicer i.val) s).mem := by
  rw [drainedState_written h, bandWritten_mem, State.onSlicer_def, State.onSlc_mem]

/-- The drain of a frame's last band completes the frame. -/
theorem drainedState_last (h : (s.slicer i.val).dropped = false) (hv : (s.slicer i.val).view.toNat < 5) :
    let v := (s.slicer i.val).view.toNat
    let b := (s.slicer i.val).buf
    ((s.store v).bufs.getD b {}).left =
        [(colourSlot (s.store v).colours (s.slicer i.val).primary.toNat, (s.slicer i.val).band.toNat)] →
      ((drainedState i.val s).store v).frameCnt = sat (s.store v).frameCnt ∧
        ((drainedState i.val s).store v).newest = some (b, s.frame.truncate 28) := by
  have hlast := bandWritten_last (s.slicer i.val) ((writeBand (s.slicer i.val) s).onSlicer i.val Slicer.drained) hv
  rw [onSlicer_store, writeBand_store, State.onSlicer_def, State.onSlc_frame, writeBand_frame] at hlast
  rw [drainedState_written h]
  exact hlast

end

theorem rested_st (q : Slicer) : q.drained.rested.st = if q.offAfter then .off else .idle := by
  unfold Slicer.rested
  rw [show q.drained.offAfter = q.offAfter from rfl]
  split <;> rfl

theorem rested_powered {q : Slicer} (h : q.offAfter = false) : q.rested = { q with st := .idle, dropped := false, pixels := [] } :=
  if_neg (by rw [h]; decide)

/-! ## The band that an idle slicer takes (R242, R244, R249, R392) -/

theorem idleSlicer_lt {i : Nat} {s : State} (h : idleSlicer s = some i) : i < 8 := List.mem_range.1 (List.mem_of_find?_eq_some h)

section
variable (s : State)

/-- Freeing buffers leaves the slicers and the fabric. -/
theorem sweepBuffers_slc_fab : ((sweepBuffers s).slc, (sweepBuffers s).fab) = (s.slc, s.fab) := by
  refine foldl_keeps (g := fun t : State => (t.slc, t.fab)) (fun t b => ?_) _ s
  split
  · rfl
  next h _ =>
    split
    · rfl
    · have hr := complete_only (a := dropBuf b t) h .done 0 _ (sendEvent_only b.owner 0x0001 b.handle 16 _ (onlyReports_refl _))
      rw [only_slc hr, only_fab hr, dropBuf]
      split
      · split <;> rfl
      · rfl

theorem sweepBuffers_slc : (sweepBuffers s).slc = s.slc := congrArg Prod.fst (sweepBuffers_slc_fab s)
theorem sweepBuffers_fab : (sweepBuffers s).fab = s.fab := congrArg Prod.snd (sweepBuffers_slc_fab s)

theorem bandTaken_slc (v : Nat) (g : FabFrame) : (bandTaken v g s).slc = s.slc := by
  unfold bandTaken
  split
  · exact sweepBuffers_slc _
  · rfl

section
variable {v : Nat} (hv : v < 5) {g : FabFrame}
include hv

/-- While bands remain, the frame stays in the fabric with one more band taken. -/
theorem bandTaken_more (h : g.offered + 1 < bandsOf (s.store v).height * colourCount (s.store v).colours) :
    ((bandTaken v g s).fview v).frame = some { g with offered := g.offered + 1 } := by
  rw [bandTaken, if_neg (Nat.ne_of_lt h), State.onFview_self _ _ _ hv]

/-- With its last band the frame leaves the fabric and is counted. -/
theorem bandTaken_last (h : g.offered + 1 = bandsOf (s.store v).height * colourCount (s.store v).colours) :
    ((bandTaken v g s).fview v).frame = none ∧ ((bandTaken v g s).fview v).frameCnt = sat (s.fview v).frameCnt := by
  rw [bandTaken, if_pos h, State.fview, sweepBuffers_fab, ← State.fview, State.onFview_self _ _ _ hv]
  exact ⟨rfl, rfl⟩

end

/-- Slicer i with the next band of frame g of view v, for buffer k. -/
def bandFilled (v : Nat) (g : FabFrame) (i k : Nat) : State :=
  let n := colourCount (s.store v).colours
  fillSlicer i v (g.offered % n) (g.offered / n) k (fabBand (roleCtx v g s) (g.offered / n) (g.offered % n) s) s

theorem bandFilled_slicer {i : Nat} (hi : i < 8) (v : Nat) (g : FabFrame) (k : Nat) :
    let q := (bandFilled s v g i k).slicer i
    q.st = .fill ∧ q.view = BitVec.ofNat 3 v ∧ q.band = BitVec.ofNat 7 (g.offered / colourCount (s.store v).colours) := by
  rw [bandFilled, fillSlicer, State.onSlicer_self _ _ _ hi]
  exact ⟨rfl, rfl, rfl⟩

end

/-- A band of a frame that has its buffer goes to the idle slicer. -/
theorem execSlicerBandOffer_takes {v : Fin 5} {s : State} {g : FabFrame} {i k : Nat} (hr : fabRuns s = true)
    (hg : (s.fview v.val).frame = some g) (hi : idleSlicer s = some i) (hd : g.offered < g.done) (h0 : 0 < g.offered)
    (hk : slicingBuf v.val g.id s = some k) :
    exec (.slicerBandOffer v) s = .next (bandTaken v.val g (bandFilled s v.val g i k)) := by
  have hb : bandBuffer v.val g s = (s, some k) := by rw [bandBuffer, if_neg (Nat.ne_of_gt h0), hk]
  have hgo : (!(fabRuns s) || decide (g.done ≤ g.offered)) = false := by rw [hr, decide_eq_false (Nat.not_le.2 hd)]; rfl
  rw [show exec (.slicerBandOffer v) s = execSlicerBandOffer v s from rfl, execSlicerBandOffer]
  simp only [hg, hi, hgo, hb, Bool.false_eq_true, if_false, bandFilled]

end Sys2Proof.Machine

namespace Sys2Proof.Proofs
open Sys2Proof.Machine

/-- Settles O54: the end of a drain by whether the frame was dropped, and the band offered by whether it is the frame's last. -/
theorem slicersFillDrainAndWriteTheirPlanes : Obligations.SlicersFillDrainAndWriteTheirPlanes := by
  refine ⟨fun i s => execSlicerFillDone_fills, fun i s hl hd => ⟨_, execSlicerDrainDone_drains hl hd, ?drained⟩,
    fun v s g i hr hg hi ho h0 ⟨k, hk⟩ => ⟨_, execSlicerBandOffer_takes hr hg hi ho h0 hk, ?taken⟩⟩
  case drained =>
    rw [State.onSlicer_self _ _ _ i.isLt, drainedState_slicer]
    refine ⟨rested_st _, fun hpow => ?counts, fun hdrop => ?dropped, fun hkept => ⟨drainedState_mem hkept, drainedState_last hkept⟩⟩
    case counts =>
      rw [rested_powered (show (s.slicer i.val).drained.offAfter = false from hpow)]
      exact ⟨rfl, rfl⟩
    case dropped =>
      rw [drainedState_dropped hdrop]
      exact ⟨rfl, rfl⟩
  case taken =>
    obtain ⟨hst, hview, hband⟩ := bandFilled_slicer s (idleSlicer_lt hi) v.val g k
    rw [State.slicer, bandTaken_slc, ← State.slicer]
    exact ⟨hst, hview, hband, fun h => bandTaken_more _ v.isLt h, fun h => bandTaken_last _ v.isLt h⟩

end Sys2Proof.Proofs
end

section
/-!
PROOFS. The part of a state that the octets, the links and the array records hold, and what leaves it as it is: reports, strobes, raised
sources, reloads, health holds and their causes (R109, R225, R300, R305, R306).
-/
namespace Sys2Proof.Machine

/-! ## What the octets, the links and the array records hold -/

/-- An array record without what a health hold, its causes and the state of R300 move, and without its sticky bits. -/
def Arr.record (a : Arr) : Arr :=
  { a with
    st := .absent, hold := false, dark := false, holdCnt := 0, holdEnd := 0, bandCause := 0, causeAt := Vector.replicate 16 0
    portCause := 0, parkCnt := 0, sticky := 0 }

/-- A port's link without the mark that its framing resumes (R297). -/
def LinkPort.traffic (l : LinkPort) : LinkPort := { l with resume := false }

/-- What of a state the octets, the links and the array records hold, with the ports' enables and the time. -/
def State.linkSide (s : State) : State :=
  { ({} : State) with
    ns := s.ns
    seq := { ({} : Seq) with ports := s.seq.ports.map fun q => { ({} : Port) with enable := q.enable } }
    glk := { s.glk with ports := s.glk.ports.map LinkPort.traffic }
    ahm := { s.ahm with arrays := s.ahm.arrays.map Arr.record } }

section
variable {s t : State}

theorem only_linkSide (h : onlyReports s t) : t.linkSide = s.linkSide := show t.settings.linkSide = s.settings.linkSide by rw [h]
theorem only_glk (h : onlyReports s t) : t.glk = s.glk := show t.settings.glk = s.settings.glk by rw [h]
theorem only_ahm (h : onlyReports s t) : t.ahm = s.ahm := show t.settings.ahm = s.settings.ahm by rw [h]
theorem only_octet (h : onlyReports s t) (k : Nat) : t.octet k = s.octet k := by rw [State.octet, only_glk h, State.octet]

section
variable (h : t.linkSide = s.linkSide)
include h

theorem octets_of_linkSide : t.glk.octets = s.glk.octets := show t.linkSide.glk.octets = s.linkSide.glk.octets by rw [h]
theorem quads_of_linkSide : t.glk.quads = s.glk.quads := show t.linkSide.glk.quads = s.linkSide.glk.quads by rw [h]
theorem enables_of_linkSide : t.seq.ports.map Port.enable = s.seq.ports.map Port.enable := by
  have hp : t.linkSide.seq.ports.map Port.enable = s.linkSide.seq.ports.map Port.enable := by rw [h]
  simp only [State.linkSide, Vector.map_map] at hp
  exact hp
theorem octet_of_linkSide (k : Nat) : t.octet k = s.octet k := congrArg (nth · k) (octets_of_linkSide h)
theorem record_of_linkSide (p : Nat) : (t.arr p).record = (s.arr p).record :=
  nth_of_map_eq (congrArg (fun u : State => u.ahm.arrays) h) p
theorem traffic_of_linkSide (p : Nat) : (t.link p).traffic = (s.link p).traffic :=
  nth_of_map_eq (congrArg (fun u : State => u.glk.ports) h) p

end
end

/-! ## Updates that leave it as it is -/

section
variable (s : State)

@[simp] theorem linkSide_onXset (p f) : (s.onXset p f).linkSide = s.linkSide := rfl

theorem linkSide_onPort (p : Nat) {f : Port → Port} (hf : ∀ q, (f q).enable = q.enable) : (s.onPort p f).linkSide = s.linkSide := by
  simp only [State.linkSide, State.onPort, State.onSeq]
  rw [map_upd _ _ _ _ fun q => by rw [hf q]]

theorem linkSide_onArr (p : Nat) {f : Arr → Arr} (hf : ∀ a, (f a).record = a.record) : (s.onArr p f).linkSide = s.linkSide := by
  simp only [State.linkSide, State.onArr, State.onAhm]
  rw [map_upd _ _ _ _ hf]

theorem linkSide_onLink (p : Nat) {f : LinkPort → LinkPort} (hf : ∀ l, (f l).traffic = l.traffic) : (s.onLink p f).linkSide = s.linkSide := by
  simp only [State.linkSide, State.onLink, State.onGlk]
  rw [map_upd _ _ _ _ hf]

@[simp] theorem linkSide_raise (i : Instr) : (s.raise i).linkSide = s.linkSide := by
  unfold State.raise
  split <;> rfl

/-! ## Reports and sticky bits -/

@[simp] theorem linkSide_logRec (vec code : Nat) (off bits : BitVec 32) : (logRec vec code off bits s).linkSide = s.linkSide :=
  only_linkSide (logRec_only _ _ _ _ s (onlyReports_refl s))
@[simp] theorem linkSide_complete (h : Held) (st : Status) (d : Word) : (complete h st d s).linkSide = s.linkSide :=
  only_linkSide (complete_only _ _ _ s (onlyReports_refl s))
@[simp] theorem linkSide_stickyUp {w : Nat} (vec off : Nat) (old b : BitVec w) : (stickyUp vec off old b s).linkSide = s.linkSide :=
  only_linkSide (stickyUp_only _ _ _ _ s (onlyReports_refl s))
@[simp] theorem linkSide_xsetRaise (p : Nat) (b : BitVec 4) : (xsetRaise p b s).linkSide = s.linkSide := linkSide_stickyUp ..
@[simp] theorem linkSide_seqRaise (p : Nat) (b : BitVec 10) : (seqRaise p b s).linkSide = s.linkSide :=
  (linkSide_stickyUp ..).trans (linkSide_onPort _ _ fun _ => rfl)
@[simp] theorem linkSide_ahmRaise (p : Nat) (b : BitVec 15) : (ahmRaise p b s).linkSide = s.linkSide :=
  (linkSide_stickyUp ..).trans (linkSide_onArr _ _ fun _ => rfl)

/-! ## Light and the safe state -/

@[simp] theorem linkSide_strobe : (strobe s).linkSide = s.linkSide := by
  unfold strobe
  dsimp only
  split <;> rfl

theorem linkSide_raiseSource (code : Nat) : (raiseSource code s).linkSide = s.linkSide :=
  raiseSource_untouched (g := State.linkSide) (fun _ _ => rfl) (fun _ => rfl) linkSide_stickyUp linkSide_logRec code s

/-! ## Reloads, health holds and their causes -/

@[simp] theorem linkSide_wakeMemory : (wakeMemory s).linkSide = s.linkSide := by
  refine forN_keeps (fun i t => ?_) 4 s
  split
  · exact linkSide_raise ..
  · rfl

@[simp] theorem linkSide_askReload (p : Nat) : (askReload p s).linkSide = s.linkSide := by
  rw [askReload, linkSide_wakeMemory, linkSide_onPort]
  · unfold resumeLink
    dsimp only
    split
    · rfl
    · exact linkSide_onLink _ _ fun _ => rfl
  · exact fun _ => rfl

@[simp] theorem linkSide_updateHold (p : Nat) : (updateHold p s).linkSide = s.linkSide := by
  have hbegin : (strobe (s.onArr p fun a => { a with hold := true, dark := true, holdCnt := sat a.holdCnt })).linkSide = s.linkSide :=
    (linkSide_strobe _).trans (linkSide_onArr _ _ fun _ => rfl)
  unfold updateHold
  dsimp only
  split
  · split
    · exact (linkSide_askReload ..).trans hbegin
    · exact hbegin
  · split
    · exact linkSide_onArr _ _ fun _ => rfl
    · rfl

@[simp] theorem linkSide_causeBands (p at' : Nat) : (causeBands p at' s).linkSide = s.linkSide :=
  (linkSide_updateHold ..).trans (linkSide_onArr _ _ fun _ => rfl)
@[simp] theorem linkSide_causePort (p i : Nat) : (causePort p i s).linkSide = s.linkSide :=
  (linkSide_updateHold ..).trans (linkSide_onArr _ _ fun _ => rfl)

@[simp] theorem linkSide_endCausePort (p i : Nat) : (endCausePort p i s).linkSide = s.linkSide := by
  unfold endCausePort
  split
  · exact (linkSide_causeBands ..).trans (linkSide_onArr _ _ fun _ => rfl)
  · rfl

@[simp] theorem linkSide_enterPark (p : Nat) : (enterPark p s).linkSide = s.linkSide := by
  unfold enterPark
  split
  · exact (linkSide_causePort ..).trans ((linkSide_ahmRaise ..).trans (linkSide_onArr _ _ fun _ => rfl))
  · rfl

@[simp] theorem linkSide_ahmFollow (p : Nat) : (ahmFollow p s).linkSide = s.linkSide :=
  (linkSide_enterPark ..).trans (linkSide_onArr _ _ fun _ => rfl)

/-! ## The rows that a port sends -/

theorem linkSide_noteStart (p k : Nat) : (noteStart p k s).linkSide = s.linkSide :=
  linkSide_onPort _ _ fun q => by split <;> rfl

theorem linkSide_skipBand (p k row n : Nat) : (skipBand p k row n s).linkSide = s.linkSide :=
  by
  refine linkSide_onPort _ _ fun q => ?_
  dsimp only
  split
  · split <;> rfl
  · rfl

theorem linkSide_underrun (p k b y n : Nat) : (underrun p k b y n s).linkSide = s.linkSide := by
  rw [underrun, linkSide_strobe, linkSide_seqRaise, linkSide_onPort, linkSide_skipBand]
  exact fun _ => rfl

theorem linkSide_auditHit (p b v y tag n : Nat) : (auditHit p b v y tag n s).linkSide = s.linkSide := by
  rw [auditHit, linkSide_raiseSource, linkSide_xsetRaise, linkSide_onXset, linkSide_onPort]
  exact fun _ => rfl

/-- A row that leaves changes the plane reader and the audit, and no link. -/
theorem linkSide_sendRow (p k y : Nat) : (sendRow p k y s).2.linkSide = s.linkSide := by
  unfold sendRow
  lift_lets
  intro h b first s1 z s2 got w avail pad s3 q row1 row2 real words pkt n crc s4
  have h1 : s1.linkSide = s.linkSide := linkSide_noteStart ..
  have h2 : s2.linkSide = s1.linkSide := by
    dsimp only [s2]
    split
    · exact linkSide_onPort _ _ fun _ => rfl
    · rfl
  have h3 : s3.linkSide = s2.linkSide := by
    dsimp only [s3]
    split
    · exact linkSide_underrun ..
    · rfl
  have h4 : s4.linkSide = s3.linkSide := linkSide_onPort _ _ fun _ => rfl
  have hs : s4.linkSide = s.linkSide := h4.trans (h3.trans (h2.trans h1))
  clear_value s4
  dsimp only
  split
  · exact hs
  · exact (linkSide_auditHit ..).trans hs

end
end Sys2Proof.Machine
end

section
/-!
PROOFS. The frames of an interval and of a keep-alive burst (R265 to R274, R297). O50 is settled here.
-/
namespace Sys2Proof.Machine

/-! ## Entries of the link, array and octet records -/

section
variable (s : State)

theorem onLink_fcnt (p : Nat) {f : LinkPort → LinkPort} (hf : ∀ l, (f l).fcnt = l.fcnt) (q : Nat) :
    ((s.onLink p f).link q).fcnt = (s.link q).fcnt := nth_of_map_eq (map_upd _ _ _ LinkPort.fcnt hf) q

theorem foldl_onOctet (l : List Nat) (f : Nat → Octet → Octet) : l.foldl (fun t k => t.onOctet k (f k)) s =
    s.onGlk fun x => { x with octets := l.foldl (fun v k => upd v k (f k)) x.octets } := by
  induction l generalizing s with
  | nil => rfl
  | cons k l ih => exact (ih (s.onOctet k (f k))).trans rfl

theorem mem_octetsOf {p k : Nat} : k ∈ octetsOf p s ↔ k < 16 ∧ (s.octet k).allotted = true ∧ (s.octet k).port.toNat = p := by
  simp [octetsOf]

theorem octetsOf_nodup (p : Nat) : (octetsOf p s).Nodup := List.nodup_range.filter _

/-- An update of each of a port's octets. -/
theorem eachOctet_onOctet (p : Nat) (f : Nat → Octet → Octet) : eachOctet p (fun k t => t.onOctet k (f k)) s =
    s.onGlk fun x => { x with octets := (octetsOf p s).foldl (fun v k => upd v k (f k)) x.octets } := foldl_onOctet s _ f

theorem octet_eachOctet (p : Nat) (f : Nat → Octet → Octet) {k : Nat} (hk : k ∈ octetsOf p s) :
    (eachOctet p (fun k t => t.onOctet k (f k)) s).octet k = f k (s.octet k) := by
  rw [eachOctet_onOctet, State.octet, State.onGlk_glk, nth_foldl_upd (octetsOf_nodup s p) _ _ ((mem_octetsOf s).1 hk).1, if_pos hk, State.octet]

end

/-! ## Lanes -/

/-- Frames for each of a port's n octets, one on every lane. -/
def coversLanes (n : Nat) (fs : List LaneFrame) : Prop :=
  fs.length = 8 * n ∧ ∀ j, j < 8 * n → ∃ f ∈ fs, f.lane = BitVec.ofNat 7 j

/-- The octets of the port are aligned to the array's octets 0 on. -/
def servesAll (p : Nat) (s : State) : Prop :=
  ∀ a, a < (octetsOf p s).length → ∃ k ∈ octetsOf p s, (s.octet k).st.aligned = true ∧ (s.octet k).aoct.toNat = a

theorem length_paced (fs : List LaneFrame) : (paced fs).length = fs.length := List.length_map ..

theorem map_lane_paced (fs : List LaneFrame) : (paced fs).map (·.lane) = fs.map (·.lane) := by simp [paced]

/-- What does not speak of the fill holds of every paced frame when it holds of the frames. -/
theorem forall_mem_paced {fs : List LaneFrame} {P : LaneFrame → Prop} (hP : ∀ f n, P f → P { f with fill := n }) (h : ∀ f ∈ fs, P f) :
    ∀ f ∈ paced fs, P f := by
  intro f hf
  obtain ⟨g, hg, rfl⟩ := List.mem_map.1 hf
  exact hP g _ (h g hg)

theorem coversLanes_paced {n : Nat} {fs : List LaneFrame} (h : coversLanes n fs) : coversLanes n (paced fs) := by
  refine ⟨(length_paced fs).trans h.1, fun j hj => ?_⟩
  obtain ⟨f, hf, hl⟩ := h.2 j hj
  exact ⟨_, List.mem_map_of_mem hf, hl⟩

/-- Blocks of eight lanes, one for each of n octets. -/
theorem length_flatMap_eight {α β : Type} (l : List α) (f : α → Nat → β) :
    (l.flatMap fun a => (List.range 8).map (f a)).length = 8 * l.length := by
  induction l with
  | nil => rfl
  | cons a l ih => simp [ih]; omega

section
variable {p : Nat} {s : State}

theorem octetAt_isSome (h : servesAll p s) {a : Nat} (ha : a < (octetsOf p s).length) : ∃ k, octetAt p a s = some k := by
  obtain ⟨k, hk, hst, hidx⟩ := h a ha
  refine Option.isSome_iff_exists.1 (List.find?_isSome.2 ⟨k, hk, ?_⟩)
  simp [hst, hidx]

/-- With every octet of the array served, the port's lanes are eight for each of them. -/
theorem allLanes_eq (h : servesAll p s) : allLanes p s =
    (List.range (octetsOf p s).length).flatMap fun a => (List.range 8).map fun q => ((octetAt p a s).getD 0, a, q) := by
  refine List.flatMap_congr fun a ha => ?_
  obtain ⟨k, hk⟩ := octetAt_isSome h (List.mem_range.1 ha)
  simp only [hk, Option.getD_some]

theorem coversLanes_allLanes (h : servesAll p s) {f : Nat × Nat × Nat → LaneFrame} (hf : ∀ l, (f l).lane = BitVec.ofNat 7 (8 * l.2.1 + l.2.2)) :
    coversLanes (octetsOf p s).length ((allLanes p s).map f) := by
  rw [allLanes_eq h]
  refine ⟨by rw [List.length_map, length_flatMap_eight, List.length_range], fun j hj => ?_⟩
  refine ⟨f ((octetAt p (j / 8) s).getD 0, j / 8, j % 8),
    List.mem_map_of_mem (List.mem_flatMap.2 ⟨j / 8, List.mem_range.2 (by omega), ?_⟩), ?_⟩
  · exact List.mem_map_of_mem (List.mem_range.2 (Nat.mod_lt _ (by decide)))
  · rw [hf, Nat.div_add_mod]

end

/-! ## The frames of an interval (R271, R274, R291) -/

/-- The control packet that goes with an interval of TRAIN frames: in forward training, the oldest that waits (R291). -/
def trainPacket (p : Nat) (training : Bool) (s : State) : List (BitVec 64) :=
  if training then ((s.link p).ctrl.headD (0, [])).2 else []

/-- LANE of position q of octet k: in the first pass, the number of the device lane (R292). -/
def trainLane (p : Nat) (training : Bool) (k q : Nat) (s : State) : Nat :=
  if training && !(s.octet k).pass2 then 8 * (k - (octetsOf p s).headD 0) + q else 8 * (s.octet k).aoct.toNat + q

/-- The TRAIN frame of position q of octet k, or on lane 0 the STREAM frame of a waiting control packet. -/
def trainFrame (p : Nat) (training : Bool) (k q : Nat) (s : State) : LaneFrame :=
  if q = 0 && !(trainPacket p training s).isEmpty then
    laneFrame p k (trainLane p training k q s) 1 ((trainPacket p training s).flatMap wordUnits) s
  else laneFrame p k (trainLane p training k q s) 2 [] s

/-- The frames of an interval of TRAIN frames. -/
def trainFrames (p : Nat) (training : Bool) (s : State) : List LaneFrame :=
  (octetsOf p s).flatMap fun k => (List.range 8).map fun q => trainFrame p training k q s

/-- The frames of an interval of STREAM frames that carries the units given; an excluded lane has a TRAIN frame (R274). -/
def streamFrames (p : Nat) (us : List (BitVec 32)) (s : State) : List LaneFrame :=
  let ls := activeLanes p s
  (allLanes p s).map fun l => match ls.findIdx? (· == l) with
    | some j => laneFrame p l.1 (8 * l.2.1 + l.2.2) 1 (laneUnits us ls.length j) s
    | none => laneFrame p l.1 (8 * l.2.1 + l.2.2) 2 [] s

section
variable {p : Nat} {s : State}

theorem trainInterval_eq (training : Bool) : trainInterval p training s = framesSent p (trainFrames p training s)
    (s.onLink p fun l => { l with ctrl := if training then l.ctrl.drop 1 else l.ctrl }) := rfl

theorem streamInterval_eq : streamInterval p s =
    let n := 125 * (activeLanes p s).length
    let r := fillUnits p n n (s.link p).cur s
    framesSent p (streamFrames p (r.1.take n) s) (r.2.onLink p fun l => { l with cur := r.1.drop n }) := rfl

theorem trainFrame_lane (training : Bool) (k q : Nat) : (trainFrame p training k q s).lane = BitVec.ofNat 7 (trainLane p training k q s) := by
  unfold trainFrame
  split <;> rfl

theorem trainFrame_type (training : Bool) (k q : Nat) : (trainFrame p training k q s).fcnt = (s.link p).fcnt ∧
    ((trainFrame p training k q s).type = 1 ∨ (trainFrame p training k q s).type = 2) := by
  unfold trainFrame
  split
  · exact ⟨rfl, .inl rfl⟩
  · exact ⟨rfl, .inr rfl⟩

/-- The lanes of a port's TRAIN frames, octet by octet. -/
theorem trainFrames_lanes (training : Bool) : (trainFrames p training s).map (·.lane) =
    (octetsOf p s).flatMap fun k => (List.range 8).map fun q => BitVec.ofNat 7 (trainLane p training k q s) := by
  simp only [trainFrames, List.map_flatMap, List.map_map, Function.comp_def, trainFrame_lane]

theorem trainFrames_types (training : Bool) : ∀ f ∈ trainFrames p training s, f.fcnt = (s.link p).fcnt ∧ (f.type = 1 ∨ f.type = 2) := by
  intro f hf
  obtain ⟨k, -, hf⟩ := List.mem_flatMap.1 hf
  obtain ⟨q, -, rfl⟩ := List.mem_map.1 hf
  exact trainFrame_type training k q

theorem trainFrames_covers (h : servesAll p s) : coversLanes (octetsOf p s).length (trainFrames p false s) := by
  refine ⟨length_flatMap_eight _ _, fun j hj => ?_⟩
  obtain ⟨k, hk, -, hidx⟩ := h (j / 8) (by omega)
  refine ⟨trainFrame p false k (j % 8) s, List.mem_flatMap.2 ⟨k, hk, List.mem_map_of_mem (List.mem_range.2 (Nat.mod_lt _ (by decide)))⟩, ?_⟩
  rw [trainFrame_lane, show trainLane p false k (j % 8) s = 8 * (s.octet k).aoct.toNat + j % 8 from rfl, hidx, Nat.div_add_mod]

theorem streamFrames_types (us : List (BitVec 32)) : ∀ f ∈ streamFrames p us s, f.fcnt = (s.link p).fcnt ∧ (f.type = 1 ∨ f.type = 2) := by
  intro f hf
  obtain ⟨l, -, rfl⟩ := List.mem_map.1 hf
  split
  · exact ⟨rfl, .inl rfl⟩
  · exact ⟨rfl, .inr rfl⟩

theorem streamFrames_covers (us : List (BitVec 32)) (h : servesAll p s) : coversLanes (octetsOf p s).length (streamFrames p us s) :=
  coversLanes_allLanes h fun l => by split <;> rfl

end

/-! ## What an interval leaves (R273) -/

section
variable (s : State)

theorem fcnt_of_linkSide {s t : State} (h : t.linkSide = s.linkSide) (q : Nat) : (t.link q).fcnt = (s.link q).fcnt :=
  show (t.link q).traffic.fcnt = (s.link q).traffic.fcnt by rw [traffic_of_linkSide h]

theorem nextPacket_fcnt (p : Nat) (us : List (BitVec 32)) (q : Nat) : ((nextPacket p us s).2.link q).fcnt = (s.link q).fcnt := by
  unfold nextPacket
  split
  · refine onLink_fcnt s p ?_ q
    exact fun _ => rfl
  · split
    · refine onLink_fcnt s p ?_ q
      exact fun _ => rfl
    · split
      · exact fcnt_of_linkSide (linkSide_sendRow ..) q
      · rfl

/-- The packets of an interval leave the frame counts. -/
theorem fillUnits_fcnt (p n f : Nat) (us : List (BitVec 32)) (q : Nat) : ((fillUnits p n f us s).2.link q).fcnt = (s.link q).fcnt := by
  induction f generalizing us s with
  | zero => rfl
  | succ f ih =>
    unfold fillUnits
    split
    · rfl
    · exact (ih _ _).trans (nextPacket_fcnt s p us q)

theorem framesSent_link (p : Fin 4) (fs : List LaneFrame) : (framesSent p.val fs s).link p.val =
    { s.link p.val with lastFrames := paced fs, fcnt := (s.link p.val).fcnt + 1, resume := false, frameNs := s.ns } := by
  unfold framesSent
  dsimp only
  rw [State.onLink_self _ _ _ p.isLt, eachOctet_onOctet]
  rfl

end

/-- From s to t the port has sent the frames given under its frame count, which has moved on. -/
def SendsFrames (p : Nat) (fs : List LaneFrame) (s t : State) : Prop :=
  (t.link p).fcnt = (s.link p).fcnt + 1 ∧ (t.link p).lastFrames = paced fs ∧ (t.link p).resume = false

section
variable {p : Fin 4} {s : State}

theorem framesSent_sends {u : State} (fs : List LaneFrame) (h : (u.link p.val).fcnt = (s.link p.val).fcnt) :
    SendsFrames p.val fs s (framesSent p.val fs u) := by
  rw [SendsFrames, framesSent_link, h]
  exact ⟨rfl, rfl, rfl⟩

theorem trainInterval_sends (training : Bool) : SendsFrames p.val (trainFrames p.val training s) s (trainInterval p.val training s) := by
  rw [trainInterval_eq]
  refine framesSent_sends _ (onLink_fcnt s _ ?_ _)
  exact fun _ => rfl

theorem streamInterval_sends : ∃ us, SendsFrames p.val (streamFrames p.val us s) s (streamInterval p.val s) := by
  rw [streamInterval_eq]
  refine ⟨_, framesSent_sends _ ((onLink_fcnt _ _ ?_ _).trans (fillUnits_fcnt ..))⟩
  exact fun _ => rfl

/-- An interval outside forward training sends a frame on every lane of the port when its octets serve the array's octets. -/
def SendsInterval (p : Nat) (s t : State) : Prop :=
  ∃ fs, SendsFrames p fs s t ∧ (∀ f ∈ fs, f.fcnt = (s.link p).fcnt ∧ (f.type = 1 ∨ f.type = 2)) ∧
    (servesAll p s → coversLanes (octetsOf p s).length fs)

theorem streamInterval_interval : SendsInterval p.val s (streamInterval p.val s) := by
  obtain ⟨us, h⟩ := streamInterval_sends (p := p) (s := s)
  exact ⟨_, h, streamFrames_types us, streamFrames_covers us⟩

theorem execLinkFrameInterval_training (hl : s.live = true) (hf : allIn p.val .fwdTrain s = true) :
    exec (.linkFrameInterval p) s = .next (trainInterval p.val true s) := by
  show execLinkFrameInterval p s = _
  simp [execLinkFrameInterval, hl, hf]

/-- Outside forward training a port that waits for CAPS, or is READY and not idle between bursts, sends a frame on every lane. -/
theorem execLinkFrameInterval_interval (hl : s.live = true) (hf : allIn p.val .fwdTrain s = false)
    (h : allIn p.val .capsWait s = true ∨ (portReady p.val s = true ∧ (holdIdle p.val s = true → (s.link p.val).allot.kaBurst = false))) :
    ∃ t, exec (.linkFrameInterval p) s = .next t ∧ SendsInterval p.val s t := by
  show ∃ t, execLinkFrameInterval p s = _ ∧ _
  by_cases hc : allIn p.val .capsWait s = true
  · exact ⟨_, by simp [execLinkFrameInterval, hl, hf, hc], streamInterval_interval⟩
  · obtain ⟨hr, hka⟩ := h.resolve_left hc
    by_cases hi : holdIdle p.val s = true
    · exact ⟨_, by simp [execLinkFrameInterval, hl, hf, hc, hr, hi, hka hi],
        _, trainInterval_sends false, trainFrames_types false, trainFrames_covers⟩
    · exact ⟨_, by simp [execLinkFrameInterval, hl, hf, hc, hr, hi], streamInterval_interval⟩

/-! ## Keep-alive bursts (R297) -/

/-- The KEEPALIVE frames of a burst. -/
def burstFrames (p : Nat) (s : State) : List LaneFrame :=
  (allLanes p s).map fun l => { laneFrame p l.1 (8 * l.2.1 + l.2.2) 3 [] s with preamble := true }

/-- The state after a burst: its frames counted on the port's octets, and sent. -/
def burstSent (p : Nat) (s : State) : State :=
  let t := eachOctet p (fun k s => s.onOctet k fun o => { o with kaCnt := sat o.kaCnt }) s
  t.onLink p fun l => { l with lastFrames := paced (burstFrames p s), fcnt := l.fcnt + 1, frameNs := t.ns }

theorem execKeepaliveBurst_sends (hl : s.live = true) (hr : portReady p.val s = true) (hi : holdIdle p.val s = true)
    (hk : (s.link p.val).allot.kaBurst = true) : exec (.keepaliveBurst p) s = .next (burstSent p.val s) :=
  congrArg Host.Outcome.next (if_pos (by rw [hl, hr, hi, hk]; rfl))

theorem burstSent_link : (burstSent p.val s).link p.val =
    { s.link p.val with lastFrames := paced (burstFrames p.val s), fcnt := (s.link p.val).fcnt + 1, frameNs := s.ns } := by
  unfold burstSent
  dsimp only
  rw [State.onLink_self _ _ _ p.isLt, eachOctet_onOctet]
  rfl

theorem burstSent_octet {k : Nat} (hk : k ∈ octetsOf p.val s) : ((burstSent p.val s).octet k).kaCnt = sat (s.octet k).kaCnt :=
  congrArg Octet.kaCnt (octet_eachOctet s p.val _ hk)

theorem burstSent_seq : (burstSent p.val s).seq = s.seq := by
  unfold burstSent
  dsimp only
  rw [eachOctet_onOctet]
  rfl

theorem burstFrames_keepalive : ∀ f ∈ burstFrames p.val s, f.type = 3 ∧ f.units = [] ∧ f.preamble = true := by
  intro f hf
  obtain ⟨l, -, rfl⟩ := List.mem_map.1 hf
  exact ⟨rfl, rfl, rfl⟩

theorem burstFrames_covers (h : servesAll p.val s) : coversLanes (octetsOf p.val s).length (burstFrames p.val s) :=
  coversLanes_allLanes h fun _ => rfl

end
end Sys2Proof.Machine

namespace Sys2Proof.Proofs
open Sys2Proof.Machine

/-- Settles O50: an interval by whether the port is in forward training, and a burst. -/
theorem laneFramesAreSent : Obligations.LaneFramesAreSent := by
  refine ⟨fun p s hl h => ?interval, fun p s hl hr hi hk => ⟨_, execKeepaliveBurst_sends hl hr hi hk, ?burst⟩⟩
  case interval =>
    cases hf : allIn p.val .fwdTrain s with
    | true =>
      obtain ⟨hcnt, hlast, hres⟩ := trainInterval_sends (p := p) (s := s) true
      refine ⟨_, execLinkFrameInterval_training hl hf, hcnt, ?_, hres, fun _ => ?_, nofun⟩
      · rw [hlast]
        exact forall_mem_paced (fun _ _ h => h) (trainFrames_types true)
      · rw [hlast, map_lane_paced, trainFrames_lanes]
        refine List.flatMap_congr fun k _ => List.map_congr_left fun q _ => ?_
        rw [trainLane]
        cases (s.octet k).pass2 <;> rfl
    | false =>
      obtain ⟨t, ht, fs, ⟨hcnt, hlast, hres⟩, htypes, hcovers⟩ := execLinkFrameInterval_interval hl hf (h.resolve_left (by rw [hf]; nofun))
      refine ⟨t, ht, hcnt, ?_, hres, nofun, fun _ hall => ?_⟩
      · rw [hlast]
        exact forall_mem_paced (fun _ _ h => h) htypes
      · rw [hlast]
        exact coversLanes_paced (hcovers hall)
  case burst =>
    rw [burstSent_link]
    exact ⟨rfl, forall_mem_paced (fun _ _ h => h) burstFrames_keepalive, fun k => burstSent_octet, burstSent_seq,
      fun hall => coversLanes_paced (burstFrames_covers hall)⟩

end Sys2Proof.Proofs
end

section
/-!
PROOFS. Octets: which of them a port holds, a sticky bit that is set, and a pass over a port's octets (R291).
-/
namespace Sys2Proof.Machine

/-! ## Sticky bits of octets and arrays -/

theorem getLsbD_or_of_right {w i : Nat} {b : BitVec w} (x : BitVec w) (h : b.getLsbD i = true) : (x ||| b).getLsbD i = true := by
  rw [BitVec.getLsbD_or, h, Bool.or_true]

section
variable (s : State)

theorem onOctet_onOctet (k : Nat) (f g : Octet → Octet) : (s.onOctet k f).onOctet k g = s.onOctet k fun o => g (f o) := by
  simp only [State.onOctet, State.onGlk, upd_upd]
theorem onArr_onArr (p : Nat) (f g : Arr → Arr) : (s.onArr p f).onArr p g = s.onArr p fun a => g (f a) := by
  simp only [State.onArr, State.onAhm, upd_upd]

/-- A sticky bit of an octet changes that octet, reports aside. -/
theorem octRaise_reports (k : Nat) (b : BitVec 9) : onlyReports (s.onOctet k fun o => { o with sticky := o.sticky ||| b }) (octRaise k b s) :=
  octRaise_only k b s (onlyReports_refl _)
theorem ahmRaise_reports (p : Nat) (b : BitVec 15) : onlyReports (s.onArr p fun a => { a with sticky := a.sticky ||| b }) (ahmRaise p b s) :=
  ahmRaise_only p b s (onlyReports_refl _)

theorem octRaise_self {k : Nat} (hk : k < 16) (b : BitVec 9) : (octRaise k b s).octet k = { s.octet k with sticky := (s.octet k).sticky ||| b } :=
  (only_octet (octRaise_reports s k b) k).trans (State.onOctet_self _ _ _ hk)
theorem octRaise_other {j k : Nat} (h : j ≠ k) (b : BitVec 9) : (octRaise k b s).octet j = s.octet j :=
  (only_octet (octRaise_reports s k b) j).trans (State.onOctet_other _ _ _ _ h.symm)
theorem octRaise_ahm (k : Nat) (b : BitVec 9) : (octRaise k b s).ahm = s.ahm := (only_ahm (octRaise_reports s k b)).trans rfl

theorem ahmRaise_self (p : Fin 4) (b : BitVec 15) :
    (ahmRaise p.val b s).arr p.val = { s.arr p.val with sticky := (s.arr p.val).sticky ||| b } :=
  (only_arr (ahmRaise_reports s p.val b) _).trans (State.onArr_self _ _ _ p.isLt)
theorem ahmRaise_glk (p : Nat) (b : BitVec 15) : (ahmRaise p b s).glk = s.glk := (only_glk (ahmRaise_reports s p b)).trans rfl

end

/-! ## Which octets a port holds -/

/-- What says which port and which octet of its array an octet serves. -/
def Octet.place (o : Octet) : Bool × BitVec 2 × OctSt × BitVec 3 := (o.allotted, o.port, o.st, o.aoct)

/-- Every octet's place. -/
def State.places (s : State) : Vector (Bool × BitVec 2 × OctSt × BitVec 3) 16 := s.glk.octets.map Octet.place

/-- Every octet's port. -/
def State.holders (s : State) : Vector (Bool × BitVec 2) 16 := s.glk.octets.map fun o => (o.allotted, o.port)

section
variable {s t : State}

theorem octetsOf_of_holders (h : t.holders = s.holders) (p : Nat) : octetsOf p t = octetsOf p s := by
  refine List.filter_congr fun k _ => ?_
  have hk : ((t.octet k).allotted, (t.octet k).port) = ((s.octet k).allotted, (s.octet k).port) := nth_of_map_eq h k
  rw [(Prod.mk.inj hk).1, (Prod.mk.inj hk).2]

theorem place_of_places (h : t.places = s.places) (k : Nat) : (t.octet k).place = (s.octet k).place := nth_of_map_eq h k

theorem holders_of_places (h : t.places = s.places) : t.holders = s.holders := by
  have hm := congrArg (Vector.map fun x : Bool × BitVec 2 × OctSt × BitVec 3 => (x.1, x.2.1)) h
  simp only [State.places, Vector.map_map] at hm
  exact hm

theorem octetAt_of_places (h : t.places = s.places) (p a : Nat) : octetAt p a t = octetAt p a s := by
  unfold octetAt
  rw [octetsOf_of_holders (holders_of_places h)]
  congr 1
  funext k
  have hk := place_of_places h k
  rw [show (t.octet k).st = (s.octet k).st from congrArg (·.2.2.1) hk, show (t.octet k).aoct = (s.octet k).aoct from congrArg (·.2.2.2) hk]

theorem places_of_octets (h : t.glk.octets = s.glk.octets) : t.places = s.places := by rw [State.places, h, State.places]

theorem octetAt_mem {p a k : Nat} (h : octetAt p a s = some k) : k ∈ octetsOf p s := List.mem_of_find?_eq_some h
theorem octetAt_aoct {p a k : Nat} (h : octetAt p a s = some k) : (s.octet k).aoct.toNat = a := by
  have hp := List.find?_some h
  simp only [Bool.and_eq_true, beq_iff_eq] at hp
  exact hp.2

end

section
variable (s : State)

theorem places_onOctet (k : Nat) {f : Octet → Octet} (hf : ∀ o, (f o).place = o.place) : (s.onOctet k f).places = s.places :=
  map_upd _ _ _ _ hf
theorem places_octRaise (k : Nat) (b : BitVec 9) : (octRaise k b s).places = s.places :=
  (places_of_octets (congrArg Glk.octets (only_glk (octRaise_reports s k b)))).trans (places_onOctet s k fun _ => rfl)

end

/-! ## A pass over octets -/

section
variable {f : Nat → State → State} (ho : ∀ k t j, j ≠ k → (f k t).octet j = t.octet j)
include ho

theorem foldl_octet_other {l : List Nat} {j : Nat} (hj : j ∉ l) (s : State) : (l.foldl (fun t k => f k t) s).octet j = s.octet j := by
  induction l generalizing s with
  | nil => rfl
  | cons k l ih =>
    obtain ⟨hk, hl⟩ := List.ne_and_not_mem_of_not_mem_cons hj
    exact (ih hl (f k s)).trans (ho k s j hk)

/-- A pass whose turn for an octet leaves the others as they are: what the turn makes of each octet of a kept state holds at the end. -/
theorem foldl_octets {l : List Nat} (hl : l.Nodup) {I : State → Prop} {Q : Nat → Octet → Prop} {r : Nat → Octet}
    (hI : ∀ k t, I t → I (f k t)) (hQ : ∀ k ∈ l, ∀ t, I t → t.octet k = r k → Q k ((f k t).octet k)) (s : State) (hs : I s)
    (hr : ∀ k ∈ l, s.octet k = r k) : ∀ k ∈ l, Q k ((l.foldl (fun t k => f k t) s).octet k) := by
  induction l generalizing s with
  | nil => nofun
  | cons k l ih =>
    obtain ⟨hk, hl⟩ := List.nodup_cons.1 hl
    intro j hj
    rcases List.mem_cons.1 hj with rfl | hj
    · rw [List.foldl_cons, foldl_octet_other ho hk]
      exact hQ _ hj s hs (hr _ hj)
    · refine ih hl (fun i hi => hQ i (List.mem_cons_of_mem _ hi)) (f k s) (hI k s hs) (fun i hi => ?_) j hj
      rw [ho k s i fun e => hk (e ▸ hi)]
      exact hr i (List.mem_cons_of_mem _ hi)

/-- A pass over a port's octets that changes each by itself. -/
theorem octet_eachOctet_of {g : Nat → Octet → Octet} (hs : ∀ k t, k < 16 → (f k t).octet k = g k (t.octet k)) {p k : Nat} (s : State)
    (hk : k ∈ octetsOf p s) : (eachOctet p f s).octet k = g k (s.octet k) :=
  foldl_octets ho (octetsOf_nodup s p) (I := fun _ => True) (Q := fun k o => o = g k (s.octet k)) (r := s.octet) (fun _ _ _ => trivial)
    (fun j hj t _ ht => by rw [hs j t ((mem_octetsOf s).1 hj).1, ht]) s trivial (fun _ _ => rfl) k hk

end
end Sys2Proof.Machine
end

section
/-!
PROOFS. The bring-up of octets: back channels lost, octets that start, trainings that fail, lane maps and unanswered requests (R283, R289,
R291 to R295).
-/
namespace Sys2Proof.Machine

/-! ## Octets that start (R293, R295) -/

/-- An octet that runs 8 lanes. -/
def Octet.eight (o : Octet) : Octet := if o.stripe7 then { o with stripe7 := false, dead := 0 } else o

/-- An octet at the start of its bring-up. -/
def Octet.started (o : Octet) : Octet :=
  { o.eight with
    st := .bcLock, epoch := o.eight.epoch + 1, trainCnt := sat o.eight.trainCnt, lanes := o.eight.lanes.map freshLane
    bcLocked := false, bcGood := 0, bcBad := 0, bcLost := false, bcLastMsgs := [], bcPartial := [], bcSkip := false
    pass2 := false, failed := false, idleWait := false, restripe := none, restoreDue := false, cleanRun := 0 }

theorem Octet.started_epoch (o : Octet) : o.started.epoch = o.epoch + 1 := by unfold Octet.started Octet.eight; split <;> rfl
theorem Octet.started_bcLossCnt (o : Octet) : o.started.bcLossCnt = o.bcLossCnt := by unfold Octet.started Octet.eight; split <;> rfl
theorem Octet.started_sticky (o : Octet) : o.started.sticky = o.sticky := by unfold Octet.started Octet.eight; split <;> rfl

section
variable (s : State)

theorem toEight_self {k : Nat} (hk : k < 16) : (toEight k s).octet k = (s.octet k).eight := by
  unfold toEight Octet.eight
  split
  · exact State.onOctet_self _ _ _ hk
  · rfl

theorem toEight_other {j k : Nat} (h : j ≠ k) : (toEight k s).octet j = s.octet j := by
  unfold toEight
  split
  · exact State.onOctet_other _ _ _ _ h.symm
  · rfl

theorem toBcLock_self {k : Nat} (hk : k < 16) : (toBcLock k s).octet k = (s.octet k).started := by
  rw [toBcLock, State.onOctet_self _ _ _ hk, toEight_self s hk, Octet.started]

theorem toBcLock_other {j k : Nat} (h : j ≠ k) : (toBcLock k s).octet j = s.octet j :=
  (State.onOctet_other _ _ _ _ h.symm).trans (toEight_other s h)

/-- What waking an octet looks at beside the octet itself: the quads' clocks, and which ports are enabled. -/
def wakeConds (s : State) : Vector Quad 4 × Vector Bool 4 := (s.glk.quads, s.seq.ports.map Port.enable)

theorem wakeConds_of_linkSide {s t : State} (h : t.linkSide = s.linkSide) : wakeConds t = wakeConds s := by
  have hp := congrArg (Vector.map Port.enable) (congrArg (fun u : State => u.seq.ports) h)
  simp only [State.linkSide, Vector.map_map] at hp
  exact Prod.ext (quads_of_linkSide h) hp

theorem wakeConds_toBcLock (k : Nat) : wakeConds (toBcLock k s) = wakeConds s := by
  unfold toBcLock toEight
  split <;> rfl

theorem wakeConds_wakeOctet (k : Nat) : wakeConds (wakeOctet k s) = wakeConds s := by
  unfold wakeOctet
  split
  · exact (wakeConds_of_linkSide (linkSide_ahmFollow ..)).trans (wakeConds_toBcLock ..)
  · rfl

theorem enable_of_wakeConds {s t : State} (h : wakeConds t = wakeConds s) (p : Nat) : (t.port p).enable = (s.port p).enable :=
  nth_of_map_eq (congrArg Prod.snd h) p

theorem wakeOctet_self {k : Nat} (hk : k < 16) : (wakeOctet k s).octet k = if mayWake k s then (s.octet k).started else s.octet k := by
  unfold wakeOctet
  split
  · exact (octet_of_linkSide (linkSide_ahmFollow ..) k).trans (toBcLock_self s hk)
  · rfl

theorem wakeOctet_other {j k : Nat} (h : j ≠ k) : (wakeOctet k s).octet j = s.octet j := by
  unfold wakeOctet
  split
  · exact (octet_of_linkSide (linkSide_ahmFollow ..) j).trans (toBcLock_other s h)
  · rfl

end

section
variable {s : State}

/-- The end of its idle time wakes an octet that nothing else keeps idle. -/
theorem electricalIdleEnd_wakes {k : Fin 16} (ha : (s.octet k.val).allotted = true) (he : (s.port (s.octet k.val).port.toNat).enable = true)
    (hi : (s.octet k.val).st = .electricalIdle) (hf : (s.octet k.val).failed = false) (hq : (nth s.glk.quads (k.val / 4)).bad = false) :
    ((wakeOctet k.val (s.onOctet k.val fun x => { x with idleWait := false })).octet k.val) =
      ({ s.octet k.val with idleWait := false } : Octet).started := by
  have ho := State.onOctet_self s k.val (fun x => { x with idleWait := false }) k.isLt
  have hw : mayWake k.val (s.onOctet k.val fun x => { x with idleWait := false }) = true := by
    have he' : ((s.onOctet k.val fun x => { x with idleWait := false }).port (s.octet k.val).port.toNat).enable = true := he
    have hq' : (nth (s.onOctet k.val fun x => { x with idleWait := false }).glk.quads (k.val / 4)).bad = false := hq
    simp only [mayWake, ho, ha, he', hi, hf, hq']
    rfl
  rw [wakeOctet_self _ k.isLt, if_pos hw, ho]

/-! ## Restart after a failed training (R293) -/

/-- One octet's turn at a restart. -/
def restartOctet (k : Nat) (s : State) : State :=
  if (s.octet k).failed then wakeOctet k (s.onOctet k fun o => { o with failed := false }) else s

theorem restartOctet_other (k : Nat) (t : State) (j : Nat) (h : j ≠ k) : (restartOctet k t).octet j = t.octet j := by
  unfold restartOctet
  split
  · exact (wakeOctet_other _ h).trans (State.onOctet_other _ _ _ _ h.symm)
  · rfl

theorem wakeConds_restartOctet (k : Nat) (t : State) : wakeConds (restartOctet k t) = wakeConds t := by
  unfold restartOctet
  split
  · exact wakeConds_wakeOctet ..
  · rfl

/-- A restart leaves no octet of the port failed, and wakes those that failed and may start. -/
theorem restartOctet_self {k : Nat} (hk : k < 16) (t : State) : ((restartOctet k t).octet k).failed = false ∧
    ((t.octet k).failed = true → (t.octet k).allotted = true → (t.port (t.octet k).port.toNat).enable = true →
      (t.octet k).st = .electricalIdle → (t.octet k).idleWait = false → (nth t.glk.quads (k / 4)).bad = false →
      ((restartOctet k t).octet k).st = .bcLock) := by
  unfold restartOctet
  have ho := State.onOctet_self t k (fun o => { o with failed := false }) hk
  split
  · rw [wakeOctet_self _ hk]
    split
    · exact ⟨rfl, fun _ _ _ _ _ _ => rfl⟩
    next hw =>
      rw [ho]
      refine ⟨rfl, fun _ ha he hi hz hq => absurd ?_ hw⟩
      have he' : ((t.onOctet k fun o => { o with failed := false }).port (t.octet k).port.toNat).enable = true := he
      have hq' : (nth (t.onOctet k fun o => { o with failed := false }).glk.quads (k / 4)).bad = false := hq
      simp only [mayWake, ho, ha, he', hi, hz, hq']
      rfl
  next hf => exact ⟨by simpa using hf, fun h => absurd h hf⟩

theorem trainRestart_octets (p : Nat) : ∀ k ∈ octetsOf p s, ((eachOctet p restartOctet s).octet k).failed = false ∧
    ((s.octet k).failed = true → (s.port p).enable = true → (s.octet k).st = .electricalIdle → (s.octet k).idleWait = false →
      (nth s.glk.quads (k / 4)).bad = false → ((eachOctet p restartOctet s).octet k).st = .bcLock) := by
  refine foldl_octets restartOctet_other (octetsOf_nodup s p) (I := fun t => wakeConds t = wakeConds s) (r := s.octet)
    (Q := fun k o => o.failed = false ∧ ((s.octet k).failed = true → (s.port p).enable = true → (s.octet k).st = .electricalIdle →
      (s.octet k).idleWait = false → (nth s.glk.quads (k / 4)).bad = false → o.st = .bcLock))
    (fun k t h => (wakeConds_restartOctet k t).trans h) (fun k hk t ht ho => ?_) s rfl fun _ _ => rfl
  obtain ⟨hlt, hal, hport⟩ := (mem_octetsOf s).1 hk
  obtain ⟨hfailed, hwakes⟩ := restartOctet_self hlt t
  rw [ho] at hwakes
  refine ⟨hfailed, fun hf he hi hz hq => hwakes hf hal ?_ hi hz ?_⟩
  · rw [hport, enable_of_wakeConds ht, he]
  · rw [show t.glk.quads = s.glk.quads from congrArg Prod.fst ht, hq]

end

/-! ## Back channels lost (R289) -/

/-- An octet whose back channel is lost. -/
def Octet.bcGone (o : Octet) : Octet :=
  { o with bcLossCnt := sat o.bcLossCnt, bcLocked := false, bcGood := 0, bcBad := 0, bcLost := true, bcPartial := [], bcLastMsgs := [] }

/-- The loss of a locked back channel is counted, unlocks the octet and sets its bit. -/
theorem bcLoss_octet {k : Fin 16} {s : State} (ha : (s.octet k.val).allotted = true) (hst : (s.octet k.val).st.aligned = true)
    (hl : (s.octet k.val).bcLocked = true) : ((bcLoss k.val s).octet k.val).bcLossCnt = sat (s.octet k.val).bcLossCnt ∧
      ((bcLoss k.val s).octet k.val).bcLocked = false ∧ ((bcLoss k.val s).octet k.val).sticky.getLsbD 1 = true := by
  unfold bcLoss
  lift_lets
  intro o p s1 s2 all
  have h1 : s1.octet k.val = { (s.octet k.val).bcGone with sticky := (s.octet k.val).sticky ||| 0x2 } := by
    rw [show s1 = octRaise k.val 0x2 (s.onOctet k.val Octet.bcGone) from rfl, octRaise_self _ k.isLt, State.onOctet_self _ _ _ k.isLt]
    rfl
  have h2 : (s2.octet k.val).bcLossCnt = sat (s.octet k.val).bcLossCnt ∧ (s2.octet k.val).bcLocked = false ∧
      (s2.octet k.val).sticky = (s.octet k.val).sticky ||| 0x2 := by
    dsimp only [s2]
    split
    · rw [octet_of_linkSide (linkSide_ahmFollow ..), toBcLock_self _ k.isLt, Octet.started_bcLossCnt, Octet.started_sticky, h1]
      exact ⟨rfl, rfl, rfl⟩
    · rw [h1]
      exact ⟨rfl, rfl, rfl⟩
  clear_value all s2
  obtain ⟨hcnt, hlock, hstk⟩ := h2
  have hgone (u : State) (hu : u.octet k.val = s2.octet k.val) : (u.octet k.val).bcLossCnt = sat (s.octet k.val).bcLossCnt ∧
      (u.octet k.val).bcLocked = false ∧ (u.octet k.val).sticky.getLsbD 1 = true := by
    rw [hu, hstk]
    exact ⟨hcnt, hlock, getLsbD_or_of_right _ rfl⟩
  rw [if_pos (by rw [ha, hst, hl]; rfl)]
  split <;> exact hgone _ rfl

/-! ## Trainings that fail (R293) -/

/-- An octet after its training has failed: one beyond BC_LOCK that is not READY returns to ELECTRICAL_IDLE. -/
def Octet.untrained (o : Octet) : Octet :=
  if o.st.aligned && o.st != .ready then { o with
    st := .electricalIdle, bcLocked := false, bcGood := 0, bcBad := 0, bcLost := false, bcPartial := [], bcLastMsgs := []
    bcSkip := false, pass2 := false, failed := true, idleWait := false, lanes := o.lanes.map freshLane
    restripe := none, restoreDue := false, cleanRun := 0, sticky := o.sticky ||| 0x4 }
  else o

theorem Octet.untrained_ctrlToCnt (o : Octet) : o.untrained.ctrlToCnt = o.ctrlToCnt := by unfold Octet.untrained; split <;> rfl

theorem Octet.untrained_sticky {o : Octet} {i : Nat} (h : o.sticky.getLsbD i = true) : o.untrained.sticky.getLsbD i = true := by
  unfold Octet.untrained
  split
  · rw [BitVec.getLsbD_or, h, Bool.true_or]
  · exact h

/-- What a failed training makes of an octet in training. -/
theorem Octet.untrained_training {o : Octet} (ha : o.st.aligned = true) (hr : o.st ≠ .ready) :
    o.untrained.st = .electricalIdle ∧ o.untrained.failed = true ∧ o.untrained.sticky.getLsbD 2 = true := by
  rw [Octet.untrained, if_pos (by simp [ha, hr])]
  exact ⟨rfl, rfl, getLsbD_or_of_right _ rfl⟩

/-- One octet's turn at a failed training. -/
def failOctet (k : Nat) (s : State) : State :=
  if (s.octet k).st.aligned && (s.octet k).st != .ready then
    octRaise k 0x4 ((toIdle k false s).onOctet k fun o => { o with failed := true })
  else s

theorem failOctet_self {k : Nat} (t : State) (hk : k < 16) : (failOctet k t).octet k = (t.octet k).untrained := by
  unfold failOctet Octet.untrained
  split
  · rw [octRaise_self _ hk, State.onOctet_self _ _ _ hk, toIdle, State.onOctet_self _ _ _ hk]
  · rfl

theorem failOctet_other (k : Nat) (t : State) (j : Nat) (h : j ≠ k) : (failOctet k t).octet j = t.octet j := by
  unfold failOctet
  split
  · rw [octRaise_other _ h, State.onOctet_other _ _ _ _ h.symm, toIdle, State.onOctet_other _ _ _ _ h.symm]
  · rfl

theorem failOctet_ahm (k : Nat) (t : State) : (failOctet k t).ahm = t.ahm := by
  unfold failOctet
  split
  · exact octRaise_ahm ..
  · rfl

section
variable {p : Nat} {s : State}

theorem trainFail_eq : trainFail p s = ahmFollow p (eachOctet p failOctet (s.onLink p fun l =>
    { l with ctrl := [], asked := l.asked.filter fun o => o != 1 && o != 2 })) := rfl

theorem trainFail_octet {k : Nat} (hk : k ∈ octetsOf p s) : (trainFail p s).octet k = (s.octet k).untrained := by
  rw [trainFail_eq, octet_of_linkSide (linkSide_ahmFollow ..)]
  exact octet_eachOctet_of failOctet_other (fun k t => failOctet_self t) _ hk

/-- A failed training leaves the array record but for its state and its causes. -/
theorem trainFail_record (q : Nat) : ((trainFail p s).arr q).record = (s.arr q).record := by
  rw [trainFail_eq, record_of_linkSide (linkSide_ahmFollow ..), State.arr, eachOctet, foldl_keeps fun t k => failOctet_ahm k t]
  rfl

/-! ## Lane maps (R292) -/

theorem takeSwizzle_pass2 {ws : List (BitVec 32)} {k : Nat} (hk : k < 16) (t : State) : ((takeSwizzle p ws k t).octet k).pass2 = true := by
  unfold takeSwizzle
  lift_lets
  intro v key old t1
  have h1 : (t1.octet k).pass2 = true := congrArg Octet.pass2 (State.onOctet_self t k _ hk)
  clear_value t1 old
  split
  · split
    · exact h1
    · rw [octRaise_self _ hk]
      exact h1
  · exact h1

theorem takeSwizzle_other {ws : List (BitVec 32)} (k : Nat) (t : State) (j : Nat) (h : j ≠ k) : (takeSwizzle p ws k t).octet j = t.octet j := by
  unfold takeSwizzle
  lift_lets
  intro v key old t1
  have h1 : t1.octet j = t.octet j := State.onOctet_other _ _ _ _ h.symm
  clear_value t1 old
  split
  · split
    · exact h1
    · exact (octRaise_other _ h _).trans h1
  · exact h1

/-- With a good first map every octet of the port begins the second pass. -/
theorem swizzled_pass2 (ws : List (BitVec 32)) : ∀ k ∈ octetsOf p s, ((eachOctet p (takeSwizzle p ws) s).octet k).pass2 = true :=
  foldl_octets takeSwizzle_other (octetsOf_nodup s p) (I := fun _ => True) (Q := fun _ o => o.pass2 = true) (r := s.octet) (fun _ _ _ => trivial)
    (fun _ hk t _ _ => takeSwizzle_pass2 ((mem_octetsOf s).1 hk).1 t) s trivial fun _ _ => rfl

section
variable {ws : List (BitVec 32)} (ha : isAsked p 1 s = true) (hne : octetsOf p s ≠ [])
  (hl : ws.length = 2 * (octetsOf p s).length) (ht : ∀ k ∈ octetsOf p s, (s.octet k).st = .fwdTrain)
include ha hne hl ht

/-- A LANEMAP that has been asked for, by whether the second pass has begun and whether the map is good. -/
theorem lanemapMsg_asked : lanemapMsg p ws s =
      if (octetsOf p s).all fun k => (s.octet k).pass2 then
        if map2Ok p ws (answered p 1 s) then
          sendCtrl p 2 0 (eachOctet p (fun k s => s.onOctet k fun o => { o with st := .capsWait }) (answered p 1 s))
        else sendCtrl p 1 0 (answered p 1 s)
      else if map1Ok p ws (answered p 1 s) then sendCtrl p 1 0 (eachOctet p (takeSwizzle p ws) (answered p 1 s))
      else trainFail p (answered p 1 s) := by
  have hgo : (!(isAsked p 1 s) || (octetsOf p s).isEmpty || ws.length != 2 * (octetsOf p s).length ||
      !((octetsOf p s).all fun k => (s.octet k).st == .fwdTrain)) = false := by
    simpa [ha, hl, List.isEmpty_iff, hne] using ht
  unfold lanemapMsg
  simp only [hgo, Bool.false_eq_true, if_false]
  rfl

theorem map2_confirms (h2 : ∀ k ∈ octetsOf p s, (s.octet k).pass2 = true) (hm : map2Ok p ws (answered p 1 s) = true) :
    ∀ k ∈ octetsOf p s, ((lanemapMsg p ws s).octet k).st = .capsWait := by
  intro k hk
  rw [lanemapMsg_asked ha hne hl ht, if_pos (List.all_eq_true.2 h2), if_pos hm]
  exact congrArg Octet.st (octet_eachOctet (answered p 1 s) p _ hk)

theorem map2_asks_again (h2 : ∀ k ∈ octetsOf p s, (s.octet k).pass2 = true) (hm : map2Ok p ws (answered p 1 s) = false) :
    lanemapMsg p ws s = sendCtrl p 1 0 (answered p 1 s) := by
  rw [lanemapMsg_asked ha hne hl ht, if_pos (List.all_eq_true.2 h2), if_neg (by rw [hm]; nofun)]

theorem map1_swizzles (h1 : ∃ k ∈ octetsOf p s, (s.octet k).pass2 = false) (hm : map1Ok p ws (answered p 1 s) = true) :
    ∀ k ∈ octetsOf p s, ((lanemapMsg p ws s).octet k).pass2 = true := by
  rw [lanemapMsg_asked ha hne hl ht, if_neg (by simpa using h1), if_pos hm]
  exact swizzled_pass2 (s := answered p 1 s) ws

theorem map1_fails (h1 : ∃ k ∈ octetsOf p s, (s.octet k).pass2 = false) (hm : map1Ok p ws (answered p 1 s) = false) :
    ∀ k ∈ octetsOf p s, ((lanemapMsg p ws s).octet k).st = .electricalIdle ∧ ((lanemapMsg p ws s).octet k).failed = true := by
  intro k hk
  rw [lanemapMsg_asked ha hne hl ht, if_neg (by simpa using h1), if_neg (by rw [hm]; nofun), trainFail_octet (s := answered p 1 s) hk]
  have hst : ((answered p 1 s).octet k).st = .fwdTrain := ht k hk
  obtain ⟨hidle, hfailed, -⟩ := Octet.untrained_training (o := (answered p 1 s).octet k) (by rw [hst]; rfl) (by rw [hst]; nofun)
  exact ⟨hidle, hfailed⟩

end

/-! ## Unanswered requests (R283) -/

/-- An octet that counts a request without an answer. -/
def Octet.unanswered (o : Octet) : Octet := { o with ctrlToCnt := sat o.ctrlToCnt, sticky := o.sticky ||| 0x80 }

/-- One octet's turn at a request without an answer. -/
def missAnswer (k : Nat) (s : State) : State := octRaise k 0x80 (s.onOctet k fun o => { o with ctrlToCnt := sat o.ctrlToCnt })

theorem missAnswer_self (k : Nat) (t : State) (hk : k < 16) : (missAnswer k t).octet k = (t.octet k).unanswered := by
  rw [missAnswer, octRaise_self _ hk, State.onOctet_self _ _ _ hk, Octet.unanswered]
theorem missAnswer_other (k : Nat) (t : State) (j : Nat) (h : j ≠ k) : (missAnswer k t).octet j = t.octet j := by
  rw [missAnswer, octRaise_other _ h, State.onOctet_other _ _ _ _ h.symm]
theorem places_missAnswer (k : Nat) (t : State) : (missAnswer k t).places = t.places :=
  (places_octRaise ..).trans (places_onOctet t k fun _ => rfl)

/-- The state once an unanswered request has been counted on the port's octets. -/
def missCounted (p op : Nat) (s : State) : State := eachOctet p missAnswer (answered p op s)

theorem missCounted_octet {op k : Nat} (hk : k ∈ octetsOf p s) : (missCounted p op s).octet k = (s.octet k).unanswered :=
  octet_eachOctet_of missAnswer_other missAnswer_self (answered p op s) hk

theorem octetsOf_missCounted (op : Nat) : octetsOf p (missCounted p op s) = octetsOf p s :=
  octetsOf_of_holders (holders_of_places (foldl_keeps (g := State.places) (fun t k => places_missAnswer k t) _ (answered p op s))) p

end

theorem execCtrlTimeout_asked {p : Fin 4} {op : BitVec 8} {s : State} (h : isAsked p.val op.toNat s = true) : execCtrlTimeout p op s =
    let ks := octetsOf p.val s
    let s := missCounted p.val op.toNat s
    .next (if op = 1 ∧ ks.any (fun k => (s.octet k).st == .fwdTrain) then
        (if ks.all fun k => (s.octet k).pass2 then sendCtrl p.val 1 0 s else trainFail p.val s)
      else if op = 2 ∧ ks.any (fun k => (s.octet k).st == .capsWait) then trainFail p.val s
      else if op = 0x22 then
        match (s.arr p.val).parkWait with
        | [] => s
        | h :: t => complete h .timeout 0 (s.onArr p.val fun a => { a with parkWait := t })
      else s) := congrArg Host.Outcome.next (if_pos h)

/-- An unanswered request is counted on each octet of its port, whatever it ends. -/
theorem ctrlTimeout_counts {p : Fin 4} {op : BitVec 8} {s : State} (h : isAsked p.val op.toNat s = true) :
    ∃ t, exec (.ctrlTimeout p op) s = .next t ∧ ∀ k ∈ octetsOf p.val s, (t.octet k).ctrlToCnt = sat (s.octet k).ctrlToCnt ∧
      (t.octet k).sticky.getLsbD 7 = true := by
  refine ⟨_, execCtrlTimeout_asked h, fun k hk => ?_⟩
  have hu := missCounted_octet (op := op.toNat) hk
  have hbit : ((s.octet k).unanswered).sticky.getLsbD 7 = true := getLsbD_or_of_right _ rfl
  have hsame (t : State) (ht : t.octet k = (missCounted p.val op.toNat s).octet k) :
      (t.octet k).ctrlToCnt = sat (s.octet k).ctrlToCnt ∧ (t.octet k).sticky.getLsbD 7 = true := by
    rw [ht, hu]
    exact ⟨rfl, hbit⟩
  have hfail : ((trainFail p.val (missCounted p.val op.toNat s)).octet k).ctrlToCnt = sat (s.octet k).ctrlToCnt ∧
      ((trainFail p.val (missCounted p.val op.toNat s)).octet k).sticky.getLsbD 7 = true := by
    rw [trainFail_octet (by rw [octetsOf_missCounted]; exact hk), hu, Octet.untrained_ctrlToCnt]
    exact ⟨rfl, Octet.untrained_sticky hbit⟩
  split
  · split
    · exact hsame _ rfl
    · exact hfail
  · split
    · exact hfail
    · split
      · split
        · exact hsame _ rfl
        · exact hsame _ (only_octet (complete_only _ _ _ _ (onlyReports_refl _)) k)
      · exact hsame _ rfl

end Sys2Proof.Machine
end

section
/-!
PROOFS. ERRCNT and STATUS messages, which name the array's octets in turn (R285, R288, R299).
-/
namespace Sys2Proof.Machine

/-! ## A repetition in which one turn matters -/

theorem forN_inv {σ : Type} {f : Nat → σ → σ} {I : σ → Prop} {n : Nat} (hI : ∀ i t, i < n → I t → I (f i t)) {s : σ} (hs : I s) :
    I (forN n f s) := by
  induction n with
  | zero => exact hs
  | succ n ih => exact hI n _ (Nat.lt_succ_self n) (ih fun i t hi => hI i t (Nat.lt_succ_of_lt hi))

/-- What turn a brings about holds at the end when the turns before it keep its condition, and those after it what it brings about. -/
theorem forN_once {σ : Type} {f : Nat → σ → σ} {I J : σ → Prop} {a n : Nat} (ha : a < n) (hI : ∀ i t, i ≠ a → I t → I (f i t))
    (hIJ : ∀ t, I t → J (f a t)) (hJ : ∀ i t, i ≠ a → J t → J (f i t)) {s : σ} (hs : I s) : J (forN n f s) := by
  induction n with
  | zero => omega
  | succ n ih =>
    rw [forN]
    by_cases hn : n = a
    · subst hn
      exact hIJ _ (forN_inv (fun i t hi => hI i t (Nat.ne_of_lt hi)) hs)
    · exact hJ n _ hn (ih (by omega))

/-! ## Turns over the array's octets -/

section
variable {p : Nat} {g : Nat → Nat → State → State}

/-- A turn for array octet a: g runs for the port's octet that serves it. -/
def atServer (p : Nat) (g : Nat → Nat → State → State) (a : Nat) (s : State) : State :=
  match octetAt p a s with
  | none => s
  | some k => g a k s

theorem places_atServer (hp : ∀ a k t, (g a k t).places = t.places) (a : Nat) (t : State) : (atServer p g a t).places = t.places := by
  unfold atServer
  split
  · rfl
  · exact hp ..

/-- Turns that leave every place, and every octet but their own, as it is: the octet that serves array octet a is changed by turn a alone. -/
theorem forN_atServer (hp : ∀ a k t, (g a k t).places = t.places) (ho : ∀ a k t j, j ≠ k → (g a k t).octet j = t.octet j)
    {n a k : Nat} {s : State} (ha : a < n) (hk : octetAt p a s = some k) :
    ∃ t, t.octet k = s.octet k ∧ (forN n (atServer p g) s).octet k = (g a k t).octet k := by
  have hother (i : Nat) (t : State) (hi : i ≠ a) (ht : t.places = s.places) : (atServer p g i t).octet k = t.octet k := by
    unfold atServer
    split
    · rfl
    next j hj =>
      refine ho _ _ _ _ fun hjk => hi ?_
      rw [octetAt_of_places ht, ← hjk] at hj
      exact (octetAt_aoct hj).symm.trans (octetAt_aoct hk)
  have h := forN_once (f := atServer p g) (I := fun t => t.places = s.places ∧ t.octet k = s.octet k)
    (J := fun t => t.places = s.places ∧ ∃ u, u.octet k = s.octet k ∧ t.octet k = (g a k u).octet k) ha
    (fun i t hi ⟨ht, hkt⟩ => ⟨(places_atServer hp i t).trans ht, (hother i t hi ht).trans hkt⟩)
    (fun t ⟨ht, hkt⟩ => ⟨(places_atServer hp a t).trans ht, t, hkt, by rw [atServer, octetAt_of_places ht, hk]⟩)
    (fun i t hi ⟨ht, u, hu, hkt⟩ => ⟨(places_atServer hp i t).trans ht, u, hu, (hother i t hi ht).trans hkt⟩) ⟨rfl, rfl⟩
  exact h.2

end

theorem nth_ofFn {α : Type} [Inhabited α] {n i : Nat} (f : Fin n → α) (h : i < n) : nth (Vector.ofFn f) i = f ⟨i, h⟩ := by
  simp [nth, h]

theorem field_lt (x lo w : Nat) : field x lo w < 2 ^ w := Nat.mod_lt _ (Nat.two_pow_pos w)

/-! ## ERRCNT (R283, R285) -/

/-- An octet whose lanes count at least what the words of array octet a report. -/
def Octet.errCounted (ws : List (BitVec 32)) (a : Nat) (o : Octet) : Octet :=
  { o with lanes := Vector.ofFn fun i =>
      let l := nth o.lanes i.val
      let q := l.pos.toNat
      let c := field (ws.getD (4 * a + q / 2) 0).toNat (16 * (q % 2)) 16
      { l with crcCnt := if l.crcCnt.toNat < c then BitVec.ofNat 32 c else l.crcCnt } }

section
variable {p : Nat} {ws : List (BitVec 32)} {s : State}

theorem errcntMsg_counts (hl : ws.length = 4 * (octetsOf p s).length) : errcntMsg p ws s =
    forN (octetsOf p s).length (atServer p fun a k t => t.onOctet k (Octet.errCounted ws a)) (answered p 3 s) :=
  if_neg (by rw [hl]; simp)

/-- ERRCNT raises a lane's count to what the array reports for its position. -/
theorem errcntMsg_crcCnt (hl : ws.length = 4 * (octetsOf p s).length) {a k i : Nat} (ha : a < (octetsOf p s).length)
    (hk : octetAt p a s = some k) (hi : i < 8) : (nth ((errcntMsg p ws s).octet k).lanes i).crcCnt.toNat =
      max (nth (s.octet k).lanes i).crcCnt.toNat
        (field (ws.getD (4 * a + (nth (s.octet k).lanes i).pos.toNat / 2) 0).toNat (16 * ((nth (s.octet k).lanes i).pos.toNat % 2)) 16) := by
  have hk16 : k < 16 := ((mem_octetsOf s).1 (octetAt_mem hk)).1
  obtain ⟨t, ht, hf⟩ := forN_atServer (p := p) (g := fun a k t => t.onOctet k (Octet.errCounted ws a)) (s := answered p 3 s)
    (fun a k t => places_onOctet t k fun _ => rfl) (fun a k t j h => State.onOctet_other t k j _ h.symm) ha hk
  have ht' : t.octet k = s.octet k := ht
  rw [errcntMsg_counts hl, hf, State.onOctet_self _ _ _ hk16, ht', Octet.errCounted, nth_ofFn _ hi]
  dsimp only
  generalize hc : field (ws.getD (4 * a + (nth (s.octet k).lanes i).pos.toNat / 2) 0).toNat
    (16 * ((nth (s.octet k).lanes i).pos.toNat % 2)) 16 = c
  have hlt : c < 2 ^ 16 := hc ▸ field_lt ..
  split
  next h => rw [BitVec.toNat_ofNat, Nat.mod_eq_of_lt (by omega), Nat.max_eq_right (Nat.le_of_lt h)]
  next h => rw [Nat.max_eq_left (Nat.le_of_not_lt h)]

end

/-! ## Lanes found down (R310) -/

/-- A lane's position and whether the array reports it locked. -/
def Lane.seen (l : Lane) : BitVec 3 × Bool := (l.pos, l.locked)

/-- A change of an octet that keeps its place and what its lanes show. -/
def KeepsShown (f : Octet → Octet) : Prop := ∀ o, (f o).place = o.place ∧ (f o).lanes.map Lane.seen = o.lanes.map Lane.seen

/-- A lane that is found down changes its own octet, and neither its place nor what its lanes show. -/
theorem laneDown_untouched {β : Type} {g : State → β} {k : Nat} (hg : ∀ t u : State, u.glk.octets = t.glk.octets → g u = g t)
    (hf : ∀ t f, KeepsShown f → g (t.onOctet k f) = g t) (p q : Nat) (s : State) : g (laneDown p k q s) = g s := by
  have hcause (i : Nat) (t : State) : g (causePort p i t) = g t := hg _ _ (octets_of_linkSide (linkSide_causePort t p i))
  unfold laneDown
  lift_lets
  intro o s1 seven
  have h1 : g s1 = g s := hf s _ fun o => ⟨rfl, map_upd _ _ _ _ fun _ => rfl⟩
  clear_value s1 seven
  split
  · rfl
  · split
    · rw [hcause]
      split
      · refine (hg s1 _ ?_).trans h1
        rfl
      · refine (hf s1 _ ?_).trans h1
        exact fun _ => ⟨rfl, rfl⟩
    · exact h1

/-! ## STATUS (R285, R288) -/

/-- What one STATUS word makes of the lane at index i, with the runs of R288. -/
def Octet.laneReported (i : Nat) (locked bad : Bool) (nl cr : Nat) (o : Octet) : Octet :=
  { o with lanes := upd o.lanes i fun l => { l with
      locked := locked, crcCnt := if bad then sat l.crcCnt else l.crcCnt, notLockedRun := nl, crcRun := cr } }

section
variable (p k w q : Nat) (s : State)

/-- A lane takes what its word says, and may then be found down. -/
theorem statusLane_cases : ∃ nl cr, let t := s.onOctet k (Octet.laneReported (laneAt (s.octet k) q) (bitOf w q) (bitOf w (16 + q)) nl cr)
    statusLane p k w q s = t ∨ statusLane p k w q s = laneDown p k q t := by
  unfold statusLane
  lift_lets
  intro o i locked bad counts l nl cr t
  refine ⟨nl, cr, ?_⟩
  split
  · exact .inr rfl
  · exact .inl rfl

theorem places_statusLane : (statusLane p k w q s).places = s.places := by
  obtain ⟨nl, cr, h | h⟩ := statusLane_cases p k w q s <;> rw [h]
  · exact places_onOctet s k fun _ => rfl
  · rw [laneDown_untouched (fun _ _ => places_of_octets) fun t f hf => places_onOctet t k fun o => (hf o).1]
    exact places_onOctet s k fun _ => rfl

theorem statusLane_other {j : Nat} (hj : j ≠ k) : (statusLane p k w q s).octet j = s.octet j := by
  obtain ⟨nl, cr, h | h⟩ := statusLane_cases p k w q s <;> rw [h]
  · exact State.onOctet_other _ _ _ _ hj.symm
  · rw [laneDown_untouched (g := fun t => t.octet j) (fun _ _ ho => congrArg (nth · j) ho) fun t f _ => State.onOctet_other _ _ _ _ hj.symm]
    exact State.onOctet_other _ _ _ _ hj.symm

/-- The word's bit for a position is what its lane then shows. -/
theorem statusLane_seen (hk : k < 16) : ((statusLane p k w q s).octet k).lanes.map Lane.seen =
    (upd (s.octet k).lanes (laneAt (s.octet k) q) fun l => { l with locked := bitOf w q }).map Lane.seen := by
  have hreport (nl cr : Nat) : (((s.onOctet k (Octet.laneReported (laneAt (s.octet k) q) (bitOf w q) (bitOf w (16 + q)) nl cr)).octet k)).lanes.map
      Lane.seen = (upd (s.octet k).lanes (laneAt (s.octet k) q) fun l => { l with locked := bitOf w q }).map Lane.seen := by
    rw [State.onOctet_self _ _ _ hk, Octet.laneReported]
    ext1 i hi
    by_cases h : laneAt (s.octet k) q = i
    · subst h
      simp [upd, hi, Lane.seen]
    · unfold upd
      split <;> simp [h]
  obtain ⟨nl, cr, h | h⟩ := statusLane_cases p k w q s <;> rw [h]
  · exact hreport nl cr
  · rw [laneDown_untouched (g := fun t => (t.octet k).lanes.map Lane.seen) (fun t u ho => by rw [State.octet, ho, ← State.octet])
      fun t f hf => nth_of_map_eq (g := fun o : Octet => o.lanes.map Lane.seen) (map_upd _ _ _ _ fun o => (hf o).2) k]
    exact hreport nl cr

theorem countClean_other {j : Nat} (hj : j ≠ k) : (countClean k w s).octet j = s.octet j := State.onOctet_other _ _ _ _ hj.symm
theorem places_countClean : (countClean k w s).places = s.places := places_onOctet s k fun _ => rfl
theorem countClean_lanes (hk : k < 16) : ((countClean k w s).octet k).lanes = (s.octet k).lanes := by
  rw [countClean, State.onOctet_self _ _ _ hk]

/-- What a STATUS word does to the octet that it speaks of, when the octet has lanes to report. -/
def statusWord (w : Nat) : State := countClean k w (forN 8 (fun q s => statusLane p k w q s) s)

theorem places_statusWord : (statusWord p k s w).places = s.places :=
  (places_countClean ..).trans (forN_keeps (fun q t => places_statusLane p k w q t) 8 s)
theorem statusWord_other {j : Nat} (hj : j ≠ k) : (statusWord p k s w).octet j = s.octet j :=
  (countClean_other _ _ _ hj).trans (forN_keeps (g := fun t : State => t.octet j) (fun q t => statusLane_other p k w q t hj) 8 s)

end

/-- The octet's device lanes send the positions of their own numbers. -/
def Octet.straight (o : Octet) : Prop := ∀ i, i < 8 → (nth o.lanes i).pos.toNat = i

theorem laneAt_straight {o : Octet} (h : o.straight) (q : Nat) : laneAt o q = q := by
  unfold laneAt
  cases hf : (List.range 8).find? fun i => (nth o.lanes i).pos.toNat == q with
  | none => rfl
  | some i =>
    have hp := List.find?_some hf
    rw [beq_iff_eq, h i (List.mem_range.1 (List.mem_of_find?_eq_some hf))] at hp
    exact hp

section
variable {p k w : Nat} {s : State}

theorem statusLane_lane (hk : k < 16) (h : (s.octet k).straight) (q : Nat) {i : Nat} (hi : i < 8) :
    (nth ((statusLane p k w q s).octet k).lanes i).seen =
      ((nth (s.octet k).lanes i).pos, if q = i then bitOf w q else (nth (s.octet k).lanes i).locked) := by
  have hs := nth_of_map_eq (statusLane_seen p k w q s hk) i
  rw [laneAt_straight h] at hs
  rw [hs]
  split
  next hq => subst hq; rw [nth_upd_self _ _ _ hi]; rfl
  next hq => rw [nth_upd_other _ _ _ _ hq]; rfl

theorem straight_statusLane (hk : k < 16) (h : (s.octet k).straight) (q : Nat) : ((statusLane p k w q s).octet k).straight := by
  intro i hi
  rw [show (nth ((statusLane p k w q s).octet k).lanes i).pos = (nth (s.octet k).lanes i).pos from congrArg Prod.fst (statusLane_lane hk h q hi)]
  exact h i hi

/-- A STATUS word's low bits become the lanes' states, position by position. -/
theorem statusWord_locked (hk : k < 16) (h : (s.octet k).straight) {q : Nat} (hq : q < 8) :
    (nth ((statusWord p k s w).octet k).lanes q).locked = bitOf w q := by
  rw [statusWord, countClean_lanes _ _ _ hk]
  refine (forN_once (f := fun q s => statusLane p k w q s) (I := fun t => (t.octet k).straight)
    (J := fun t => (t.octet k).straight ∧ (nth (t.octet k).lanes q).locked = bitOf w q) hq (fun i t _ ht => straight_statusLane hk ht i)
    (fun t ht => ⟨straight_statusLane hk ht q, ?_⟩) (fun i t hi ht => ⟨straight_statusLane hk ht.1 i, ?_⟩) h).2
  · rw [show (nth ((statusLane p k w q t).octet k).lanes q).locked = _ from congrArg Prod.snd (statusLane_lane hk ht q hq), if_pos rfl]
  · rw [show (nth ((statusLane p k w i t).octet k).lanes q).locked = _ from congrArg Prod.snd (statusLane_lane hk ht.1 i hq), if_neg hi, ht.2]

end

/-- What a STATUS message's word for array octet a does: an octet before its second pass has no lanes to report (R285). -/
def statusOctet (p : Nat) (ws : List (BitVec 32)) (a k : Nat) (s : State) : State :=
  let o := s.octet k
  if o.st == .capsWait || o.st == .ready || (o.st == .fwdTrain && o.pass2) then statusWord p k s (ws.getD (a + 1) 0).toNat else s

section
variable {p : Nat} {ws : List (BitVec 32)} {s : State}

theorem places_statusOctet (a k : Nat) (t : State) : (statusOctet p ws a k t).places = t.places := by
  unfold statusOctet
  dsimp only
  split
  · exact places_statusWord ..
  · rfl

theorem statusOctet_other (a k : Nat) (t : State) (j : Nat) (hj : j ≠ k) : (statusOctet p ws a k t).octet j = t.octet j := by
  unfold statusOctet
  dsimp only
  split
  · exact statusWord_other _ _ _ _ hj
  · rfl

theorem statusOctet_ready {a k : Nat} {t : State} (h : (t.octet k).st = .ready) :
    statusOctet p ws a k t = statusWord p k t (ws.getD (a + 1) 0).toNat := if_pos (by rw [h]; rfl)

theorem statusMsg_short (h : ws.length ≠ (octetsOf p s).length + 1) : statusMsg p ws s = s := if_pos (by simp [h])

theorem statusMsg_reports (hl : ws.length = (octetsOf p s).length + 1) (hn : field (ws.headD 0).toNat 24 8 = (octetsOf p s).length) :
    statusMsg p ws s = forN (octetsOf p s).length (atServer p (statusOctet p ws)) s := if_neg (by rw [hl, hn]; simp)

/-- A STATUS message enters the states of a READY octet's lanes. -/
theorem statusMsg_locked (hl : ws.length = (octetsOf p s).length + 1) (hn : field (ws.headD 0).toNat 24 8 = (octetsOf p s).length)
    {a k q : Nat} (ha : a < (octetsOf p s).length) (hk : octetAt p a s = some k) (hr : (s.octet k).st = .ready) (hs : (s.octet k).straight)
    (hq : q < 8) : (nth ((statusMsg p ws s).octet k).lanes q).locked = bitOf (ws.getD (a + 1) 0).toNat q := by
  obtain ⟨t, ht, hf⟩ := forN_atServer (places_statusOctet (ws := ws)) statusOctet_other ha hk
  rw [statusMsg_reports hl hn, hf, statusOctet_ready (by rw [ht, hr])]
  exact statusWord_locked ((mem_octetsOf s).1 (octetAt_mem hk)).1 (by rw [ht]; exact hs) hq

end
end Sys2Proof.Machine
end

section
/-!
PROOFS. Acknowledgements: the classes of ACKs, and band resets without one (R286, R304, R306, R308).
-/
namespace Sys2Proof.Machine

/-! ## What a health hold leaves of its array, of the hosts and of the band resets that are sent -/

/-- An array record with another health hold (R305). -/
def Arr.withHold (a : Arr) (h d : Bool) (n : BitVec 32) (e : Nat) : Arr := { a with hold := h, dark := d, holdCnt := n, holdEnd := e }

section
variable (s : State)

theorem strobe_ahm : (strobe s).ahm = s.ahm := by
  unfold strobe
  dsimp only
  split <;> rfl
theorem strobe_hif : (strobe s).hif = s.hif := by
  unfold strobe
  dsimp only
  split <;> rfl

theorem raise_ahm_hif (i : Instr) : ((s.raise i).ahm, (s.raise i).hif) = (s.ahm, s.hif) := by
  unfold State.raise
  split <;> rfl

theorem resumeLink_ahm_hif (p : Nat) : ((resumeLink p s).ahm, (resumeLink p s).hif) = (s.ahm, s.hif) := by
  unfold resumeLink
  dsimp only
  split <;> rfl

theorem askReload_ahm_hif (p : Nat) : ((askReload p s).ahm, (askReload p s).hif) = (s.ahm, s.hif) := by
  unfold askReload wakeMemory
  rw [forN_keeps (g := fun t : State => (t.ahm, t.hif)) fun i t => ?wake]
  case wake =>
    split
    · exact raise_ahm_hif ..
    · rfl
  exact resumeLink_ahm_hif ..

theorem askReload_ahm (p : Nat) : (askReload p s).ahm = s.ahm := (Prod.mk.inj (askReload_ahm_hif s p)).1
theorem askReload_hif (p : Nat) : (askReload p s).hif = s.hif := (Prod.mk.inj (askReload_ahm_hif s p)).2

theorem updateHold_hif (p : Nat) : (updateHold p s).hif = s.hif := by
  unfold updateHold
  dsimp only
  split
  · split
    · rw [askReload_hif, strobe_hif]
      rfl
    · rw [strobe_hif]
      rfl
  · split <;> rfl

/-- The health hold of an array may begin or end, and nothing else of its record changes. -/
theorem updateHold_arr (p : Fin 4) : ∃ h d n e, (updateHold p.val s).arr p.val = (s.arr p.val).withHold h d n e := by
  have hbegin (u : State) (h : u.ahm = (s.onArr p.val fun a => { a with hold := true, dark := true, holdCnt := sat a.holdCnt }).ahm) :
      ∃ h d n e, u.arr p.val = (s.arr p.val).withHold h d n e := by
    refine ⟨true, true, sat (s.arr p.val).holdCnt, (s.arr p.val).holdEnd, ?_⟩
    rw [State.arr, h]
    exact State.onArr_self s _ _ p.isLt
  unfold updateHold
  dsimp only
  split
  · split
    · exact hbegin _ (by rw [askReload_ahm, strobe_ahm])
    · exact hbegin _ (strobe_ahm _)
  · split
    · exact ⟨false, (s.arr p.val).dark, (s.arr p.val).holdCnt, s.ns, State.onArr_self s _ _ p.isLt⟩
    · exact ⟨(s.arr p.val).hold, (s.arr p.val).dark, (s.arr p.val).holdCnt, (s.arr p.val).holdEnd, rfl⟩

/-- A cause of every band leaves the record but for the hold, the bands and the instants of their causes. -/
theorem causeBands_arr (p : Fin 4) (at' : Nat) : ∃ h d n e v, (causeBands p.val at' s).arr p.val =
    { (s.arr p.val).withHold h d n e with bandCause := 0xFFFF, causeAt := v } := by
  obtain ⟨h, d, n, e, ha⟩ := updateHold_arr (s.onArr p.val fun a => { a with bandCause := 0xFFFF, causeAt := a.causeAt.map (max at') }) p
  rw [State.onArr_self _ _ _ p.isLt] at ha
  exact ⟨h, d, n, e, _, ha⟩

theorem sent_of_linkSide {t : State} (h : t.linkSide = s.linkSide) (q : Nat) : (t.link q).sent = (s.link q).sent :=
  show (t.link q).traffic.sent = (s.link q).traffic.sent by rw [traffic_of_linkSide h]

end

/-! ## ACK messages (R304, R308) -/

/-- An array record that has counted one more REFUSED or MISSING band reset in the run of R308. -/
def Arr.ranOn (a : Arr) (due : Bool) : Arr := { a with run := if a.run = 255 then a.run else a.run + 1, retrainDue := due }

section
variable {p : Fin 4} {s : State}

theorem countRun_arr : ∃ due, (countRun p.val s).arr p.val = (s.arr p.val).ranOn due := ⟨_, State.onArr_self s _ _ p.isLt⟩

/-- A cause of every band that joins the run: what a REFUSED and a MISSING band reset have in common. -/
theorem countRun_causeBands_arr (at' : Nat) : let a := (countRun p.val (causeBands p.val at' s)).arr p.val
    a.bandCause = 0xFFFF ∧ a.run = (if (s.arr p.val).run = 255 then 255 else (s.arr p.val).run + 1) ∧ a.sticky = (s.arr p.val).sticky ∧
      a.mismatchCnt = (s.arr p.val).mismatchCnt ∧ a.ackMissCnt = (s.arr p.val).ackMissCnt := by
  obtain ⟨due, hrun⟩ := countRun_arr (p := p) (s := causeBands p.val at' s)
  obtain ⟨h, d, n, e, v, hcause⟩ := causeBands_arr s p at'
  rw [hcause] at hrun
  rw [hrun]
  refine ⟨rfl, ?_, rfl, rfl, rfl⟩
  show (if (s.arr p.val).run = 255 then (s.arr p.val).run else (s.arr p.val).run + 1) = _
  split
  next h => exact h
  · rfl

theorem countRun_causeBands_sent (at' : Nat) : ((countRun p.val (causeBands p.val at' s)).link p.val).sent = (s.link p.val).sent :=
  sent_of_linkSide s (linkSide_causeBands s p.val at') p.val

/-- The state when band reset e has been answered by an ACK whose word is x: it awaits no ACK any more, and a late one is counted. -/
def ackTaken (p : Nat) (e : SentReset) (x : Nat) (s : State) : State :=
  let s := s.onLink p fun l => { l with sent := l.sent.erase e }
  if bitOf x 17 then ahmRaise p 0x8 (s.onArr p fun a => { a with lateCnt := sat a.lateCnt }) else s

theorem ackTaken_sent (e : SentReset) (x : Nat) : ((ackTaken p.val e x s).link p.val).sent = (s.link p.val).sent.erase e := by
  have h (u : State) (hu : u.glk = (s.onLink p.val fun l => { l with sent := l.sent.erase e }).glk) :
      (u.link p.val).sent = (s.link p.val).sent.erase e := by
    rw [State.link, hu]
    exact congrArg LinkPort.sent (State.onLink_self s _ _ p.isLt)
  unfold ackTaken
  dsimp only
  split
  · exact h _ (ahmRaise_glk ..)
  · exact h _ rfl

theorem ackTaken_arr (e : SentReset) (x : Nat) : ∃ n b, (ackTaken p.val e x s).arr p.val = { s.arr p.val with lateCnt := n, sticky := b } := by
  unfold ackTaken
  dsimp only
  split
  · rw [ahmRaise_self, State.onArr_self _ _ _ p.isLt]
    exact ⟨_, _, rfl⟩
  · exact ⟨_, _, rfl⟩

/-- The class of the ACK w1, w2 for band reset e (R304). -/
def classOf (p : Nat) (w1 w2 : BitVec 32) (e : SentReset) (s : State) : AckClass :=
  ackClass ((s.arr p).st == .parked) (bitOf w1.toNat 19) (bitOf w1.toNat 18) (w2 == e.witness)

theorem ackMsg_stray {w1 w2 : BitVec 32}
    (h : ∀ e ∈ (s.link p.val).sent, e.rseq.toNat ≠ field w1.toNat 20 8 ∨ e.band.toNat ≠ field w1.toNat 28 4) :
    ackMsg p.val w1 w2 s = ahmRaise p.val 0x10 (s.onArr p.val fun a => { a with strayCnt := sat a.strayCnt }) := by
  have hnone : ((s.link p.val).sent.find? fun e => e.rseq.toNat == field w1.toNat 20 8 && e.band.toNat == field w1.toNat 28 4) = none := by
    rw [List.find?_eq_none]
    intro e he
    rcases h e he with hr | hb
    · simp [hr]
    · simp [hb]
  rw [ackMsg]
  simp only [hnone]

theorem ackMsg_answers {w1 w2 : BitVec 32} {e : SentReset}
    (h : ((s.link p.val).sent.find? fun e => e.rseq.toNat == field w1.toNat 20 8 && e.band.toNat == field w1.toNat 28 4) = some e) :
    ackMsg p.val w1 w2 s =
      let t := ackTaken p.val e w1.toNat s
      match classOf p.val w1 w2 e s with
      | .park => t
      | .disagree => updateHold p.val (ahmRaise p.val 0x2 (t.onArr p.val fun a => { a with
          disagreeCnt := sat a.disagreeCnt, latched := true, retrained := if a.latched then a.retrained else false }))
      | .refused => countRun p.val (causeBands p.val e.due (ahmRaise p.val 0x1 (t.onArr p.val fun a => { a with mismatchCnt := sat a.mismatchCnt })))
      | .confirmed => confirmBand p.val (field w1.toNat 28 4) e.due t := by
  obtain ⟨n, b, ht⟩ := ackTaken_arr (p := p) (s := s) e w1.toNat
  have hst : ((ackTaken p.val e w1.toNat s).arr p.val).st = (s.arr p.val).st := by rw [ht]
  unfold ackMsg classOf
  simp only [h, ← hst] <;> rfl

/-- An ACK that answers band reset e takes it off those that are sent, and its class says what else it does (R304). -/
theorem ackMsg_effect {w1 w2 : BitVec 32} {e : SentReset}
    (h : ((s.link p.val).sent.find? fun e => e.rseq.toNat == field w1.toNat 20 8 && e.band.toNat == field w1.toNat 28 4) = some e) :
    let c := classOf p.val w1 w2 e s
    let t := ackMsg p.val w1 w2 s
    (t.link p.val).sent = (s.link p.val).sent.erase e ∧
    (c = .confirmed → (t.arr p.val).ackCnt = sat (s.arr p.val).ackCnt ∧ (t.arr p.val).run = 0) ∧
    (c = .refused → (t.arr p.val).mismatchCnt = sat (s.arr p.val).mismatchCnt ∧ (t.arr p.val).bandCause = 0xFFFF ∧
      (t.arr p.val).sticky.getLsbD 0 = true) ∧
    (c = .disagree → (t.arr p.val).disagreeCnt = sat (s.arr p.val).disagreeCnt ∧ (t.arr p.val).latched = true ∧
      (t.arr p.val).sticky.getLsbD 1 = true) ∧
    (c = .park → (t.arr p.val).ackCnt = (s.arr p.val).ackCnt ∧ (t.arr p.val).run = (s.arr p.val).run) := by
  dsimp only
  rw [ackMsg_answers h]
  have hsent := ackTaken_sent (p := p) (s := s) e w1.toNat
  obtain ⟨n, b, harr⟩ := ackTaken_arr (p := p) (s := s) e w1.toNat
  generalize ackTaken p.val e w1.toNat s = t at hsent harr
  dsimp only
  cases classOf p.val w1 w2 e s with
  | park => exact ⟨hsent, nofun, nofun, nofun, fun _ => by rw [harr]; exact ⟨rfl, rfl⟩⟩
  | disagree =>
    dsimp only
    obtain ⟨h1, d, n1, e1, ha⟩ := updateHold_arr (ahmRaise p.val 0x2 (t.onArr p.val fun a => { a with
      disagreeCnt := sat a.disagreeCnt, latched := true, retrained := if a.latched then a.retrained else false })) p
    rw [ahmRaise_self, State.onArr_self _ _ _ p.isLt, harr] at ha
    refine ⟨?_, nofun, nofun, fun _ => ?_, nofun⟩
    · rw [sent_of_linkSide _ (linkSide_updateHold ..), State.link, ahmRaise_glk]
      exact hsent
    · rw [ha]
      exact ⟨rfl, rfl, getLsbD_or_of_right _ rfl⟩
  | refused =>
    dsimp only
    obtain ⟨hcause, -, hstk, hmis, -⟩ := countRun_causeBands_arr (p := p)
      (s := ahmRaise p.val 0x1 (t.onArr p.val fun a => { a with mismatchCnt := sat a.mismatchCnt })) e.due
    rw [ahmRaise_self, State.onArr_self _ _ _ p.isLt, harr] at hstk hmis
    refine ⟨?_, nofun, fun _ => ⟨hmis, hcause, by rw [hstk]; exact getLsbD_or_of_right _ rfl⟩, nofun, nofun⟩
    rw [countRun_causeBands_sent, State.link, ahmRaise_glk]
    exact hsent
  | confirmed =>
    dsimp only
    unfold confirmBand
    refine ⟨(sent_of_linkSide _ (linkSide_updateHold ..) _).trans hsent, fun _ => ?_, nofun, nofun, nofun⟩
    obtain ⟨h1, d, n1, e1, ha⟩ := updateHold_arr (t.onArr p.val fun a => { a with
      ackCnt := sat a.ackCnt, run := 0
      bandCause := if nth a.causeAt (field w1.toNat 28 4) < e.due then a.bandCause &&& ~~~(bit1 16 (field w1.toNat 28 4)) else a.bandCause }) p
    rw [ha, State.onArr_self _ _ _ p.isLt, harr]
    exact ⟨rfl, rfl⟩

/-! ## Band resets without an ACK (R304) -/

theorem ackMissing_none (h : ∀ e ∈ (s.link p.val).sent, s.ns < e.due + 10000) : exec (.ackMissing p) s = .next s := by
  have hnone : ((s.link p.val).sent.find? fun e => ((s.link p.val).sent.all fun f => e.due ≤ f.due) && decide (e.due + 10000 ≤ s.ns)) = none := by
    rw [List.find?_eq_none]
    intro e he
    have := h e he
    simp
    omega
  show execAckMissing p s = .next s
  unfold execAckMissing
  simp only [hnone]

theorem ackMissing_due (h : ∃ e ∈ (s.link p.val).sent, (∀ f ∈ (s.link p.val).sent, e.due ≤ f.due) ∧ e.due + 10000 ≤ s.ns) :
    ∃ t, exec (.ackMissing p) s = .next t ∧ (t.arr p.val).ackMissCnt = sat (s.arr p.val).ackMissCnt ∧
      (t.arr p.val).sticky.getLsbD 2 = true ∧ (t.arr p.val).bandCause = 0xFFFF ∧
      (t.arr p.val).run = (if (s.arr p.val).run = 255 then 255 else (s.arr p.val).run + 1) ∧
      (t.link p.val).sent.length + 1 = (s.link p.val).sent.length := by
  obtain ⟨e, he, hfirst, hdue⟩ := h
  obtain ⟨m, hm⟩ : ∃ m, ((s.link p.val).sent.find? fun e =>
      ((s.link p.val).sent.all fun f => e.due ≤ f.due) && decide (e.due + 10000 ≤ s.ns)) = some m :=
    Option.isSome_iff_exists.1 (List.find?_isSome.2 ⟨e, he, by simpa using ⟨hfirst, hdue⟩⟩)
  have hmem := List.mem_of_find?_eq_some hm
  have hx : exec (.ackMissing p) s = .next (countRun p.val (causeBands p.val s.ns (ahmRaise p.val 0x4
      ((s.onLink p.val fun l => { l with sent := l.sent.erase m }).onArr p.val fun a => { a with ackMissCnt := sat a.ackMissCnt })))) := by
    show execAckMissing p s = _
    unfold execAckMissing
    simp only [hm]
    rfl
  refine ⟨_, hx, ?_⟩
  obtain ⟨hcause, hrun, hstk, -, hmiss⟩ := countRun_causeBands_arr (p := p) (s := ahmRaise p.val 0x4
    ((s.onLink p.val fun l => { l with sent := l.sent.erase m }).onArr p.val fun a => { a with ackMissCnt := sat a.ackMissCnt })) s.ns
  rw [ahmRaise_self, State.onArr_self _ _ _ p.isLt] at hrun hstk hmiss
  refine ⟨hmiss, by rw [hstk]; exact getLsbD_or_of_right _ rfl, hcause, hrun, ?_⟩
  rw [countRun_causeBands_sent, State.link, ahmRaise_glk]
  show ((s.onLink p.val fun l => { l with sent := l.sent.erase m }).link p.val).sent.length + 1 = _
  rw [State.onLink_self _ _ _ p.isLt, List.length_erase_of_mem hmem]
  have := List.length_pos_of_mem hmem
  omega

end
end Sys2Proof.Machine
end

section
/-!
PROOFS. What the arrays report: defects, capability records, temperatures, scans and parking (R302, R303, R313 to R326).
-/
namespace Sys2Proof.Machine

/-! ## Defect maps (R313 to R316) -/

/-- A map with one more entry, unless it holds the entry or is full. -/
def enterDefect (m : List DefEntry) (e : DefEntry) : List DefEntry :=
  if m.contains e then m else if mapSize ≤ m.length then m else m ++ [e]

/-- A map with the entries that message words give. -/
def enterDefects (m : List DefEntry) (ws : List (BitVec 32)) : List DefEntry := ws.foldl (fun m w => enterDefect m (parseDefect w)) m

section
variable {m : List DefEntry} {ws : List (BitVec 32)} {e : DefEntry}

theorem mem_enterDefect_of_mem {d : DefEntry} (h : e ∈ m) : e ∈ enterDefect m d := by
  unfold enterDefect
  split
  · exact h
  · split
    · exact h
    · exact List.mem_append_left _ h

theorem mem_enterDefect_self (e : DefEntry) (h : m.length < mapSize) : e ∈ enterDefect m e := by
  unfold enterDefect
  split
  next hc => exact List.contains_iff_mem.1 hc
  · rw [if_neg (Nat.not_le.2 h)]
    exact List.mem_append_right _ List.mem_cons_self

theorem length_enterDefect_le (d : DefEntry) : (enterDefect m d).length ≤ m.length + 1 := by
  unfold enterDefect
  split
  · omega
  · split
    · omega
    · simp

theorem of_mem_enterDefect {d : DefEntry} (h : e ∈ enterDefect m d) : e ∈ m ∨ e = d := by
  unfold enterDefect at h
  split at h
  · exact .inl h
  · split at h
    · exact .inl h
    · simpa using h

theorem mem_enterDefects_of_mem (h : e ∈ m) : e ∈ enterDefects m ws := by
  induction ws generalizing m with
  | nil => exact h
  | cons w ws ih => exact ih (mem_enterDefect_of_mem h)

/-- While the map has room, every word's entry comes in. -/
theorem mem_enterDefects (h : m.length + ws.length ≤ mapSize) {w : BitVec 32} (hw : w ∈ ws) : parseDefect w ∈ enterDefects m ws := by
  induction ws generalizing m with
  | nil => exact absurd hw List.not_mem_nil
  | cons v ws ih =>
    rw [List.length_cons] at h
    rcases List.mem_cons.1 hw with rfl | hw
    · exact mem_enterDefects_of_mem (m := enterDefect m (parseDefect _)) (mem_enterDefect_self _ (by omega))
    · have hlen := length_enterDefect_le (m := m) (parseDefect v)
      exact ih (m := enterDefect m (parseDefect v)) (by omega) hw

theorem of_mem_enterDefects (h : e ∈ enterDefects m ws) : e ∈ m ∨ ∃ w ∈ ws, e = parseDefect w := by
  induction ws generalizing m with
  | nil => exact .inl h
  | cons v ws ih =>
    rcases ih h with hm | ⟨w, hw, he⟩
    · rcases of_mem_enterDefect hm with hm | he
      · exact .inl hm
      · exact .inr ⟨v, List.mem_cons_self, he⟩
    · exact .inr ⟨w, List.mem_cons_of_mem _ hw, he⟩

end

/-- An array record with another map, and with what an entry's coming in marks and counts. -/
def Arr.withMap (a : Arr) (m : List DefEntry) (lost dirty : Bool) (new out : BitVec 32) (b : BitVec 15) : Arr :=
  { a with map := m, mapLost := lost, mapDirty := dirty, defectNewCnt := new, defectLostCnt := out, sticky := b }

section
variable (s : State)

theorem addDefect_arr (p : Fin 4) (fresh : Bool) (e : DefEntry) : ∃ lost dirty new out b,
    (addDefect p.val fresh e s).arr p.val = (s.arr p.val).withMap (enterDefect (s.arr p.val).map e) lost dirty new out b := by
  unfold addDefect enterDefect
  lift_lets
  intro a t
  have ht : t.arr p.val = { a with map := a.map ++ [e], mapDirty := true } := State.onArr_self s _ _ p.isLt
  clear_value t
  split
  · exact ⟨a.mapLost, a.mapDirty, a.defectNewCnt, a.defectLostCnt, a.sticky, rfl⟩
  · split
    · rw [ahmRaise_self, State.onArr_self _ _ _ p.isLt]
      exact ⟨_, _, _, _, _, rfl⟩
    · split
      · rw [ahmRaise_self, State.onArr_self _ _ _ p.isLt, ht]
        exact ⟨_, _, _, _, _, rfl⟩
      · rw [ht]
        exact ⟨_, _, _, _, _, rfl⟩

/-- The entries that message words give come into the map in turn. -/
theorem foldl_addDefect_arr (p : Fin 4) (fresh : Bool) (ws : List (BitVec 32)) : ∃ lost dirty new out b,
    (ws.foldl (fun s w => addDefect p.val fresh (parseDefect w) s) s).arr p.val =
      (s.arr p.val).withMap (enterDefects (s.arr p.val).map ws) lost dirty new out b := by
  induction ws generalizing s with
  | nil =>
    let a := s.arr p.val
    exact ⟨a.mapLost, a.mapDirty, a.defectNewCnt, a.defectLostCnt, a.sticky, rfl⟩
  | cons w ws ih =>
    obtain ⟨l, d, n, o, b, h⟩ := ih (addDefect p.val fresh (parseDefect w) s)
    obtain ⟨l1, d1, n1, o1, b1, h1⟩ := addDefect_arr s p fresh (parseDefect w)
    rw [List.foldl_cons, h, h1]
    exact ⟨_, _, _, _, _, rfl⟩

theorem stickyUp_ahm {w : Nat} (vec off : Nat) (old b : BitVec w) : (stickyUp vec off old b s).ahm = s.ahm :=
  only_ahm (stickyUp_only _ _ _ _ s (onlyReports_refl s))
theorem logRec_ahm (vec code : Nat) (off bits : BitVec 32) : (logRec vec code off bits s).ahm = s.ahm :=
  only_ahm (logRec_only _ _ _ _ s (onlyReports_refl s))

theorem checkStuck_ahm (p : Nat) : (checkStuck p s).ahm = s.ahm :=
  checkStuck_untouched (g := State.ahm) (fun _ _ => rfl) (fun p _ t => stickyUp_ahm (t.onXset p _) ..)
    (raiseSource_untouched (g := State.ahm) (fun _ _ => rfl) (fun _ => rfl) stickyUp_ahm logRec_ahm) p s

theorem checkStuck_arr (p q : Nat) : (checkStuck p s).arr q = s.arr q := by rw [State.arr, checkStuck_ahm, State.arr]

/-- DEFECT enters its words' entries in the array's map (R315). -/
theorem defectMsg_map {p : Fin 4} {ws : List (BitVec 32)} (h : heard p.val s = true) :
    (((defectMsg p.val ws s).arr p.val).map = (ws.foldl (fun s w => addDefect p.val true (parseDefect w) s) s).ahm.arrays[p].map) ∧
      ((s.arr p.val).map.length + ws.length ≤ mapSize → ∀ w ∈ ws, parseDefect w ∈ ((defectMsg p.val ws s).arr p.val).map) := by
  rw [defectMsg, if_pos h, checkStuck_arr]
  refine ⟨?_, fun hroom w hw => ?_⟩
  · rw [State.arr, nth, dif_pos p.isLt]
    rfl
  · obtain ⟨l, d, n, o, b, hm⟩ := foldl_addDefect_arr s p true ws
    rw [hm]
    exact mem_enterDefects hroom hw

end

/-- A map that is saved for a serial in use is among those that are kept. -/
theorem mem_keepSaved {serials : List (BitVec 64)} {x : SavedMap} (h : x.serial ∈ serials) (old : List SavedMap) :
    x ∈ keepSaved serials x old := by
  unfold keepSaved
  dsimp only
  split
  · exact List.mem_cons_self
  · split
    next y hy =>
      have hne : x ≠ y := by
        rintro rfl
        have hu := List.find?_some hy
        rw [List.contains_iff_mem.2 h] at hu
        exact Bool.noConfusion hu
      exact (List.mem_erase_of_ne hne).2 List.mem_cons_self
    · simp

/-- A changed map of a known array is saved under the array's serial (R316). -/
theorem saveMap_saves {p : Fin 4} {s : State} (hd : (s.arr p.val).mapDirty = true) (hc : (s.arr p.val).capsValid = true) :
    ((saveMap p.val s).arr p.val).mapDirty = false ∧
      ∃ m ∈ (saveMap p.val s).ahm.saved, m.serial = serialOf p.val s ∧ m.entries = (s.arr p.val).map := by
  unfold saveMap
  dsimp only
  rw [if_pos (by rw [hd, hc]; rfl), State.onArr_self _ _ _ p.isLt]
  refine ⟨rfl, { serial := serialOf p.val s, entries := (s.arr p.val).map, lost := (s.arr p.val).mapLost }, mem_keepSaved ?_ _, rfl, rfl⟩
  exact List.mem_map_of_mem (List.mem_filter.2 ⟨List.mem_range.2 p.isLt, hc⟩)

/-! ## Capability records (R302, R303) -/

/-- What array records that agree share, read off either. -/
theorem eq_of_record {β : Type} {g : Arr → β} (hg : ∀ a, g a.record = g a) {a b : Arr} {c : β} (h : a.record = b.record) (hc : g b = c) :
    g a = c := by
  rw [← hg a, h, hg, hc]

theorem ite_lt_of_lt {c : Prop} [Decidable c] {a b n : Nat} (ha : a < n) (hb : b < n) : (if c then a else b) < n := by
  split
  · exact ha
  · exact hb

/-- The causes of R302 fit their register. -/
theorem capsFail_lt (p : Nat) (ws : List (BitVec 32)) (s : State) : capsFail p ws s < 256 := by
  unfold capsFail
  dsimp only
  iterate 10 refine ite_lt_of_lt (by decide) ?_
  decide

section
variable {p : Fin 4} {ws : List (BitVec 32)}

/-- The record that the words give, before the port comes up: a new one brings in its map, and a latched hold that retraining has
cleared ends (R303, R307). -/
def capsTaken (p : Nat) (ws : List (BitVec 32)) (s : State) : State :=
  let a := s.arr p
  let fresh := !a.capsValid || (ws.take 8 != a.caps.toList.take 8)
  let s := if fresh then saveMap p s else s
  let s := s.onArr p fun a => { a with capsValid := true, caps := Vector.ofFn fun i => ws.getD i.val 0 }
  let s := if fresh then newRecord p s else s
  if (s.arr p).latched && (s.arr p).retrained then
    causeBands p s.ns (s.onArr p fun a => { a with latched := false, retrained := false }) else s

/-- The state after a record that R302 refuses, before the training fails. -/
def capsRefused (p : Nat) (ws : List (BitVec 32)) (s : State) : State :=
  ahmRaise p 0x20 (s.onArr p fun a => { a with capsCause := BitVec.ofNat 8 (capsFail p ws s), capsRefuseCnt := sat a.capsRefuseCnt })

theorem octets_ahmRaise (s : State) (b : BitVec 15) (k : Nat) : (ahmRaise p.val b s).octet k = s.octet k := by
  rw [State.octet, ahmRaise_glk, State.octet]

/-- The record in force, and whether there is one. -/
def Arr.inForce (a : Arr) : Bool × Vector (BitVec 32) 16 := (a.capsValid, a.caps)

theorem newRecord_inForce (s : State) : ((newRecord p.val s).arr p.val).inForce = (s.arr p.val).inForce := by
  unfold newRecord
  dsimp only
  rw [checkStuck_arr, ahmRaise_self, State.onArr_self _ _ _ p.isLt]
  rfl

theorem capsTaken_inForce (s : State) : ((capsTaken p.val ws s).arr p.val).inForce = (true, Vector.ofFn fun i => ws.getD i.val 0) := by
  unfold capsTaken
  lift_lets
  intro a fresh s1 s2 s3
  have h2 : (s2.arr p.val).inForce = (true, Vector.ofFn fun i => ws.getD i.val 0) := congrArg Arr.inForce (State.onArr_self s1 _ _ p.isLt)
  have h3 : (s3.arr p.val).inForce = (s2.arr p.val).inForce := by
    dsimp only [s3]
    split
    · exact newRecord_inForce s2
    · rfl
  rw [← h2, ← h3]
  clear_value s3
  split
  · obtain ⟨h, d, n, e, v, hc⟩ := causeBands_arr (s3.onArr p.val fun a => { a with latched := false, retrained := false }) p s3.ns
    rw [hc, State.onArr_self _ _ _ p.isLt]
    rfl
  · rfl

theorem checkAllot_ahm (s : State) : (checkAllot s).ahm = s.ahm := by
  unfold checkAllot
  lift_lets
  intro u
  have hu : u.ahm = s.ahm := forN_keeps (g := State.ahm) (fun p t => by split <;> rfl) 4 s
  clear_value u
  split
  · exact hu
  · split
    · exact hu
    · exact (only_ahm (complete_only _ _ _ _ (onlyReports_refl _))).trans hu

/-- A port that comes up leaves its array record but for its state and its causes. -/
theorem portUp_record (p : Nat) (s : State) : ((portUp p s).arr p).record = (s.arr p).record := by
  unfold portUp
  lift_lets
  intro s1 done s2 s3
  have h3 : s3.ahm = s2.ahm := foldl_keeps (g := State.ahm) (fun t h => only_ahm (complete_only h .done 0 t (onlyReports_refl t))) _ _
  have h2 : s2.ahm = s.ahm := by
    dsimp only [s2, s1]
    rw [eachOctet_onOctet, eachOctet_onOctet]
    rfl
  clear_value s3
  rw [record_of_linkSide (linkSide_ahmFollow ..), State.arr, checkAllot_ahm, h3, h2, State.arr]

section
variable {s : State} (ha : isAsked p.val 2 s = true) (hl : ws.length = 16) (hne : octetsOf p.val s ≠ [])
  (hw : ∀ k ∈ octetsOf p.val s, (s.octet k).st = .capsWait)
include ha hl hne hw

/-- A record that has been asked for, by whether it passes R302. -/
theorem capsMsg_asked : capsMsg p.val ws s =
      if capsFail p.val ws (answered p.val 2 s) != 0 then trainFail p.val (capsRefused p.val ws (answered p.val 2 s))
      else portUp p.val (capsTaken p.val ws (answered p.val 2 s)) := by
  have hgo : (!(isAsked p.val 2 s) || ws.length != 16 || (octetsOf p.val s).isEmpty ||
      !((octetsOf p.val s).all fun k => (s.octet k).st == .capsWait)) = false := by
    simpa [ha, hl, List.isEmpty_iff, hne] using hw
  unfold capsMsg
  simp only [hgo, Bool.false_eq_true, if_false]
  rfl

/-- A refused record is counted with its cause, keeps the record in force and fails the training. -/
theorem capsMsg_refuses (hf : capsFail p.val ws (answered p.val 2 s) ≠ 0) :
    ((capsMsg p.val ws s).arr p.val).capsRefuseCnt = sat (s.arr p.val).capsRefuseCnt ∧
      ((capsMsg p.val ws s).arr p.val).capsValid = (s.arr p.val).capsValid ∧
      ((capsMsg p.val ws s).arr p.val).capsCause.toNat = capsFail p.val ws (answered p.val 2 s) ∧
      ∀ k ∈ octetsOf p.val s, ((capsMsg p.val ws s).octet k).st = .electricalIdle ∧ ((capsMsg p.val ws s).octet k).failed = true := by
  rw [capsMsg_asked ha hl hne hw, if_pos (by simpa using hf)]
  have harr : (capsRefused p.val ws (answered p.val 2 s)).arr p.val = { s.arr p.val with
      capsCause := BitVec.ofNat 8 (capsFail p.val ws (answered p.val 2 s)), capsRefuseCnt := sat (s.arr p.val).capsRefuseCnt
      sticky := (s.arr p.val).sticky ||| 0x20 } := by
    rw [capsRefused, ahmRaise_self, State.onArr_self _ _ _ p.isLt]
    rfl
  have hoct (k : Nat) : (capsRefused p.val ws (answered p.val 2 s)).octet k = s.octet k := octets_ahmRaise _ _ k
  have hks : octetsOf p.val (capsRefused p.val ws (answered p.val 2 s)) = octetsOf p.val s :=
    List.filter_congr fun k _ => by rw [hoct]
  have hrec := trainFail_record (p := p.val) (s := capsRefused p.val ws (answered p.val 2 s)) p.val
  rw [harr] at hrec
  have hcause : (BitVec.ofNat 8 (capsFail p.val ws (answered p.val 2 s))).toNat = capsFail p.val ws (answered p.val 2 s) :=
    (BitVec.toNat_ofNat ..).trans (Nat.mod_eq_of_lt (capsFail_lt ..))
  refine ⟨eq_of_record (g := Arr.capsRefuseCnt) (fun _ => rfl) hrec rfl, eq_of_record (g := Arr.capsValid) (fun _ => rfl) hrec rfl,
    eq_of_record (g := fun a => a.capsCause.toNat) (fun _ => rfl) hrec hcause, fun k hk => ?_⟩
  rw [trainFail_octet (by rw [hks]; exact hk), hoct]
  obtain ⟨hidle, hfailed, -⟩ := Octet.untrained_training (o := s.octet k) (by rw [hw k hk]; rfl) (by rw [hw k hk]; nofun)
  exact ⟨hidle, hfailed⟩

/-- A record that passes is the one in force. -/
theorem capsMsg_takes (hf : capsFail p.val ws (answered p.val 2 s) = 0) :
    ((capsMsg p.val ws s).arr p.val).capsValid = true ∧ ∀ i, i < 16 → nth ((capsMsg p.val ws s).arr p.val).caps i = ws.getD i 0 := by
  have hrec : ((capsMsg p.val ws s).arr p.val).inForce = (true, Vector.ofFn fun i => ws.getD i.val 0) := by
    rw [capsMsg_asked ha hl hne hw, if_neg (by simp [hf]), ← capsTaken_inForce (p := p) (answered p.val 2 s)]
    exact eq_of_record (g := Arr.inForce) (fun _ => rfl) (portUp_record p.val (capsTaken p.val ws (answered p.val 2 s))) rfl
  obtain ⟨hv, hc⟩ := Prod.mk.inj hrec
  exact ⟨hv, fun i hi => by rw [hc, nth_ofFn _ hi]⟩

end

/-! ## Temperatures (R322) -/

/-- TEMP enters the reading, and one at the array's limit sets its bit. -/
theorem tempMsg_enters {w : BitVec 32} {s : State} (h : heard p.val s = true) : ((tempMsg p.val w s).arr p.val).temp = w.truncate 16 ∧
    ((tempMsg p.val w s).arr p.val).tempStale = false ∧ ((s.arr p.val).capsValid = true →
      (BitVec.ofNat 16 (capsWord (s.arr p.val) 5)).toInt ≤ (w.truncate 16 : BitVec 16).toInt →
        ((tempMsg p.val w s).arr p.val).sticky.getLsbD 9 = true) := by
  rw [tempMsg, if_pos h]
  lift_lets
  intro t u
  have hu : u.arr p.val = { s.arr p.val with temp := t, tempStale := false } := State.onArr_self s _ _ p.isLt
  clear_value u
  split
  · rw [ahmRaise_self, hu]
    exact ⟨rfl, rfl, fun _ _ => getLsbD_or_of_right _ rfl⟩
  next hcool =>
    rw [hu] at hcool ⊢
    refine ⟨rfl, rfl, fun hc hhot => absurd ?_ hcool⟩
    rw [Bool.and_eq_true, decide_eq_true_eq]
    exact ⟨hc, hhot⟩

theorem execTempStale_present {s : State} (h : (s.arr p.val).st = .present) :
    exec (.tempStale p) s = .next (ahmRaise p.val 0x400 (s.onArr p.val fun a => { a with tempStale := true })) :=
  congrArg Host.Outcome.next (if_pos (by rw [h]; rfl))

/-! ## Scans (R317 to R321) -/

theorem ahmRaise_awaiting (s : State) (p : Nat) (b : BitVec 15) : (ahmRaise p b s).hif.awaiting = s.hif.awaiting :=
  congrArg Prod.snd (stickyUp_records (s.onArr p fun a => { a with sticky := a.sticky ||| b }) ..)

theorem enterPark_awaiting (s : State) (p : Nat) : (enterPark p s).hif.awaiting = s.hif.awaiting := by
  unfold enterPark
  split
  · rw [causePort, updateHold_hif]
    exact ahmRaise_awaiting (s.onArr p fun a => { a with st := .parked, parkCnt := sat a.parkCnt }) p 0x100
  · rfl

/-- The end of a running scan discards what it has received and leaves the map, and its command is no longer in hand. -/
theorem endScan_ends {h : Held} {s : State} (hr : (s.arr p.val).scanRun = some h) (st : Status) : let t := endScan p.val st s
    (t.arr p.val).scanRun = none ∧ (t.arr p.val).scanData = [] ∧ (t.arr p.val).map = (s.arr p.val).map ∧
      (t.arr p.val).scanCnt = (s.arr p.val).scanCnt ∧ ∀ x ∈ t.hif.awaiting, x.jseq ≠ h.jseq := by
  simp only [endScan, hr]
  have hrec := record_of_linkSide ((linkSide_enterPark _ p.val).trans ((linkSide_complete _ h st 0).trans
    (linkSide_endCausePort (s.onArr p.val fun a => { a with
      scanRun := none, scanData := [], st := if a.st == .scanning then .present else a.st }) p.val 2))) p.val
  rw [State.onArr_self _ _ _ p.isLt] at hrec
  rw [enterPark_awaiting]
  exact ⟨eq_of_record (g := Arr.scanRun) (fun _ => rfl) hrec rfl, eq_of_record (g := Arr.scanData) (fun _ => rfl) hrec rfl,
    eq_of_record (g := Arr.map) (fun _ => rfl) hrec rfl, eq_of_record (g := Arr.scanCnt) (fun _ => rfl) hrec rfl, complete_awaiting _ h st 0⟩

/-- A scan has completed with what the words of its end say (R319). -/
def scanComplete (p : Nat) (w1 w2 w3 : BitVec 32) (s : State) : Bool :=
  !(w3.getLsbD 0) && w1.toNat == (s.arr p).scanData.length && crc32c ((s.arr p).scanData.flatMap beBytes) == w2

/-- A map of the scanned entries replaces the array's. -/
def scanMapped (p : Nat) (s : State) : State :=
  checkStuck p ((s.arr p).scanData.foldl (fun s w => addDefect p false (parseDefect w) s)
    (s.onArr p fun a => { a with map := [], mapLost := false, mapDirty := true, scanCnt := sat a.scanCnt }))

section
variable {w1 w2 w3 : BitVec 32} {s : State}

theorem scanDoneMsg_running (hr : (s.arr p.val).scanRun.isSome = true) : scanDoneMsg p.val w1 w2 w3 s =
    let t := answered p.val 0x21 s
    if scanComplete p.val w1 w2 w3 s then endScan p.val .done (scanMapped p.val t) else endScan p.val .degraded t := by
  have hrun : ((answered p.val 0x21 s).arr p.val).scanRun.isNone = false := by
    rw [show (answered p.val 0x21 s).arr p.val = s.arr p.val from rfl]
    simpa using hr
  unfold scanDoneMsg
  simp only [hrun, Bool.false_eq_true, if_false]
  rfl

theorem scanMapped_arr : ∃ lost dirty new out b, (scanMapped p.val s).arr p.val =
    ({ s.arr p.val with scanCnt := sat (s.arr p.val).scanCnt } : Arr).withMap (enterDefects [] (s.arr p.val).scanData) lost dirty new out b := by
  unfold scanMapped
  obtain ⟨l, d, n, o, b, h⟩ := foldl_addDefect_arr
    (s.onArr p.val fun a => { a with map := [], mapLost := false, mapDirty := true, scanCnt := sat a.scanCnt }) p false (s.arr p.val).scanData
  rw [State.onArr_self _ _ _ p.isLt] at h
  exact ⟨l, d, n, o, b, (checkStuck_arr ..).trans h⟩

/-- What SCAN_DONE leaves of a running scan: nothing, and a new map when the scan has completed. -/
theorem scanDoneMsg_ends {h : Held} (hr : (s.arr p.val).scanRun = some h) :
    let t := scanDoneMsg p.val w1 w2 w3 s
    (t.arr p.val).scanRun = none ∧ (t.arr p.val).scanData = [] ∧ (∀ x ∈ t.hif.awaiting, x.jseq ≠ h.jseq) ∧
      (scanComplete p.val w1 w2 w3 s = true →
        (t.arr p.val).scanCnt = sat (s.arr p.val).scanCnt ∧ (t.arr p.val).map = enterDefects [] (s.arr p.val).scanData) ∧
      (scanComplete p.val w1 w2 w3 s = false → (t.arr p.val).map = (s.arr p.val).map) := by
  dsimp only
  rw [scanDoneMsg_running (by rw [hr]; rfl)]
  dsimp only
  split
  next hc =>
    obtain ⟨l, d, n, o, b, hm⟩ := scanMapped_arr (p := p) (s := answered p.val 0x21 s)
    obtain ⟨hnone, hdata, hmap, hcnt, hawait⟩ := endScan_ends (p := p) (s := scanMapped p.val (answered p.val 0x21 s)) (h := h)
      (by rw [hm]; exact hr) .done
    rw [hm] at hmap hcnt
    exact ⟨hnone, hdata, hawait, fun _ => ⟨hcnt, hmap⟩, fun hn => Bool.noConfusion (hc.symm.trans hn)⟩
  next hc =>
    obtain ⟨hnone, hdata, hmap, -, hawait⟩ := endScan_ends (p := p) (s := answered p.val 0x21 s) hr .degraded
    exact ⟨hnone, hdata, hawait, fun hy => absurd hy hc, fun _ => hmap⟩

theorem execScanTimeout_running (hr : (s.arr p.val).scanRun.isSome = true) :
    exec (.scanTimeout p) s = .next (endScan p.val .timeout (sendCtrl p.val 0x21 0 s)) := congrArg Host.Outcome.next (if_pos hr)

end

/-! ## Parking (R323 to R326) -/

/-- A PARK_STATE message as the answer to the oldest PARK request that waits. -/
def parkAnswered (p : Nat) (s : State) : State :=
  match isAsked p 0x22 s, (s.arr p).parkWait with
  | true, h :: t => complete h .done 0 ((answered p 0x22 s).onArr p fun a => { a with parkWait := t })
  | true, [] => answered p 0x22 s
  | false, _ => s

/-- What the message reports is entered. -/
def parkEntered (p : Nat) (w : BitVec 32) (s : State) : State :=
  if w.getLsbD 0 then enterPark p (s.onArr p fun a => { a with parkHeard := true })
  else ahmFollow p (endCausePort p 0 (s.onArr p fun a => { a with parkHeard := false, st := if a.st == .parked then .present else a.st }))

section
variable {w : BitVec 32} {s : State}

theorem parkStateMsg_heard (h : heard p.val s = true) : parkStateMsg p.val w s = parkEntered p.val w (parkAnswered p.val s) := if_pos h

theorem parkEntered_arr : ((parkEntered p.val w s).arr p.val).parkHeard = w.getLsbD 0 ∧
    ((parkEntered p.val w s).arr p.val).parkWait = (s.arr p.val).parkWait := by
  unfold parkEntered
  split
  next hw =>
    have hrec := record_of_linkSide (linkSide_enterPark (s.onArr p.val fun a => { a with parkHeard := true }) p.val) p.val
    rw [State.onArr_self _ _ _ p.isLt] at hrec
    exact ⟨eq_of_record (g := Arr.parkHeard) (fun _ => rfl) hrec hw.symm, eq_of_record (g := Arr.parkWait) (fun _ => rfl) hrec rfl⟩
  next hw =>
    have hrec := record_of_linkSide ((linkSide_ahmFollow _ p.val).trans (linkSide_endCausePort (s.onArr p.val fun a => { a with
      parkHeard := false, st := if a.st == .parked then .present else a.st }) p.val 0)) p.val
    rw [State.onArr_self _ _ _ p.isLt] at hrec
    exact ⟨eq_of_record (g := Arr.parkHeard) (fun _ => rfl) hrec (Bool.eq_false_iff.2 hw).symm,
      eq_of_record (g := Arr.parkWait) (fun _ => rfl) hrec rfl⟩

theorem parkAnswered_asked {h : Held} {hs : List Held} (ha : isAsked p.val 0x22 s = true) (hw : (s.arr p.val).parkWait = h :: hs) :
    ((parkAnswered p.val s).arr p.val).parkWait = hs := by
  unfold parkAnswered
  simp only [ha, hw]
  rw [only_arr (complete_only _ _ _ _ (onlyReports_refl _)), State.onArr_self _ _ _ p.isLt]

end
end
end Sys2Proof.Machine
end

section
/-!
PROOFS. Back-channel frames (R265, R270, R285, R287), and the link's events together. O55 is settled here.
-/
namespace Sys2Proof.Machine

/-! ## A frame that begins with SYNC (R270, R287) -/

/-- SYNC at the start of the line bits is the first. -/
theorem findSync_start {pol : Option Bool} {n : Nat} {bits : List Bool} (hn : 24 ≤ n) (hb : 24 ≤ bits.length)
    (hw : ofMsb (bits.take 24) = syncWord) (hp : pol ≠ some true) : findSync pol n bits = some (0, false) := by
  obtain ⟨m, hm⟩ : ∃ m, n - 23 = m + 1 := ⟨n - 24, by omega⟩
  rw [findSync, hm, List.range_succ_eq_map, List.findSome?_cons]
  simp [hw, hb, hp]

/-- A frame as the receiver must read it to be good. -/
def RxFrame.good (f : RxFrame) : Prop := f.stuffOk = true ∧ f.crcOk = true ∧ (f.type = 1 ∨ f.type = 2 ∨ f.type = 3 ∨ f.type = 4)

/-- The receiver's check of a frame (R287). -/
def RxFrame.passes (f : RxFrame) : Bool := f.stuffOk && f.crcOk && (f.type == 2 || f.type == 4 || f.type == 1 || f.type == 3)

/-- The frame that follows SYNC in the line bits. -/
def rxFrame (bits : List Bool) : RxFrame := readFrame ((bits.drop 24).map fun b => b != false)

/-- What octet k's receiver makes of a frame in true polarity. -/
def bcTaken (k : Nat) (f : RxFrame) (s : State) : State :=
  let o := s.octet k
  let s := s.onOctet k fun o => { o with bcBad := 0 }
  let s := if f.stuffOk then s else s.onOctet k fun o => { o with bcStuffCnt := sat o.bcStuffCnt }
  if !f.passes then
    octRaise k 0x20 (s.onOctet k fun o => { o with
      bcCrcCnt := sat o.bcCrcCnt, bcGood := if o.bcLocked then o.bcGood else 0, bcPartial := [], bcSkip := true })
  else if o.bcLocked then (if f.type = 4 then f.words.foldl (gotWord k) s else s)
  else
    let good := if o.bcGood == 0 || o.bcInv == false then o.bcGood + 1 else 1
    let s := s.onOctet k fun o => { o with bcGood := good, bcInv := false }
    if good = 3 then bcLockGot k (f.lane % 64) false s else s

section
variable {k : Fin 16} {bits : List Bool} {f : RxFrame} {s : State}

/-- Line bits that begin with SYNC bring the frame after it, unless the receiver has locked on the other polarity. -/
theorem execBcFrameReceived_synced (ha : (s.octet k.val).allotted = true) (hst : (s.octet k.val).st ≠ .electricalIdle) (hb : 24 ≤ bits.length)
    (hw : ofMsb (bits.take 24) = syncWord) (hp : (s.octet k.val).bcLocked = true → (s.octet k.val).bcInv = false) :
    exec (.bcFrameReceived k bits) s = .next (bcTaken k.val (rxFrame bits) s) := by
  have hgo : (!(s.octet k.val).allotted || (s.octet k.val).st == .electricalIdle) = false := by simp [ha, hst]
  have hsync (n : Nat) (hn : 24 ≤ n) :
      findSync (if (s.octet k.val).bcLocked then some (s.octet k.val).bcInv else none) n bits = some (0, false) := by
    refine findSync_start hn hb hw ?_
    split
    next h => rw [hp h]; nofun
    · nofun
  show Host.Outcome.next (bcFrame k.val bits s) = _
  unfold bcFrame
  simp only [hgo, Bool.false_eq_true, if_false]
  rw [hsync _ (by split <;> omega)]
  rfl

theorem bcTaken_badStuffing (hl : (s.octet k.val).bcLocked = false) (hf : f.stuffOk = false) :
    ((bcTaken k.val f s).octet k.val).bcStuffCnt = sat (s.octet k.val).bcStuffCnt ∧
      ((bcTaken k.val f s).octet k.val).bcCrcCnt = sat (s.octet k.val).bcCrcCnt ∧ ((bcTaken k.val f s).octet k.val).bcGood = 0 := by
  simp only [bcTaken, RxFrame.passes, hf, Bool.false_eq_true, if_false, Bool.false_and, Bool.not_false, if_true]
  rw [octRaise_self _ k.isLt, State.onOctet_self _ _ _ k.isLt, State.onOctet_self _ _ _ k.isLt, State.onOctet_self _ _ _ k.isLt]
  exact ⟨rfl, rfl, if_neg (by rw [hl]; nofun)⟩

theorem RxFrame.passes_of_good (h : f.good) : f.passes = true := by
  obtain ⟨hs, hc, ht⟩ := h
  unfold RxFrame.passes
  rcases ht with ht | ht | ht | ht <;> rw [hs, hc, ht] <;> rfl

/-- A receiver that seeks lock counts good frames, and has lock with the third. -/
theorem bcTaken_seeking (hl : (s.octet k.val).bcLocked = false) (hf : f.good)
    (hg : (s.octet k.val).bcGood = 0 ∨ (s.octet k.val).bcInv = false) : bcTaken k.val f s =
      let t := s.onOctet k.val fun o => { o with bcBad := 0, bcGood := (s.octet k.val).bcGood + 1, bcInv := false }
      if (s.octet k.val).bcGood + 1 = 3 then bcLockGot k.val (f.lane % 64) false t else t := by
  have hsame : ((s.octet k.val).bcGood == 0 || (s.octet k.val).bcInv == false) = true := by
    rcases hg with hg | hg <;> simp [hg]
  unfold bcTaken
  simp only [RxFrame.passes_of_good hf, hf.1, hl, hsame, Bool.not_true, Bool.false_eq_true, if_false, if_true, onOctet_onOctet]

/-- The lock of an octet that is READY is its receiver's alone. -/
theorem bcLockGot_ready (idx : Nat) (inv : Bool) (hr : (s.octet k.val).st = .ready) :
    ((bcLockGot k.val idx inv s).octet k.val).bcLocked = true := by
  unfold bcLockGot
  simp only [hr]
  exact congrArg Octet.bcLocked (State.onOctet_self s _ _ k.isLt)

theorem bcTaken_locks (hl : (s.octet k.val).bcLocked = false) (hg : (s.octet k.val).bcGood = 2) (hi : (s.octet k.val).bcInv = false)
    (hr : (s.octet k.val).st = .ready) (hf : f.good) : ((bcTaken k.val f s).octet k.val).bcLocked = true := by
  rw [bcTaken_seeking hl hf (.inr hi), hg]
  dsimp only
  rw [if_pos rfl]
  refine bcLockGot_ready _ _ ?_
  rw [State.onOctet_self _ _ _ k.isLt]
  exact hr

theorem bcTaken_message (hl : (s.octet k.val).bcLocked = true) (hf : f.good) (ht : f.type = 4) :
    bcTaken k.val f s = f.words.foldl (gotWord k.val) (s.onOctet k.val fun o => { o with bcBad := 0 }) := by
  unfold bcTaken
  simp only [RxFrame.passes_of_good hf, hf.1, hl, ht, Bool.not_true, Bool.false_eq_true, if_false, if_true]

end

/-! ## Commands that wait for READY -/

theorem execLinkReadyTimeout_running {s : State} {h : Held} (hr : s.glk.running = some h) : ∃ u, u.glk.running = none ∧ u.mgt = s.mgt ∧
    exec (.linkReadyTimeout none) s = .next (complete h .timeout 0 u) := by
  refine ⟨{ s with glk := { s.glk with running := none, ports := s.glk.ports.map fun l => { l with changed := false } } }, rfl, rfl, ?_⟩
  show execLinkReadyTimeout none s = _
  simp only [execLinkReadyTimeout, hr]

theorem execLinkReadyTimeout_octet {k : Fin 16} {s : State} {h : Held} {cs : List Held} (hc : (s.octet k.val).cmds = h :: cs) :
    exec (.linkReadyTimeout (some k)) s = .next (complete h .timeout 0 (s.onOctet k.val fun o => { o with cmds := cs })) := by
  show execLinkReadyTimeout (some k) s = _
  simp only [execLinkReadyTimeout, hc]

/-! ## Rows whose effect is one operation -/

section
variable {s : State}

theorem execBcAbsent_seeks {k : Fin 16} (h : seeksLock (s.octet k.val) = true) : exec (.bcAbsent k) s = .next (octRaise k.val 0x8 s) :=
  congrArg Host.Outcome.next (if_pos h)

theorem seeksLock_of {o : Octet} (h : o.st = .bcLock ∨ (o.allotted = true ∧ o.st.aligned = true ∧ o.bcLocked = false)) :
    seeksLock o = true := by
  rcases h with h | ⟨ha, hs, hl⟩
  · rw [seeksLock, h]; rfl
  · rw [seeksLock, ha, hs, hl]; simp

theorem execTrainPass1End_asks {p : Fin 4} (hne : octetsOf p.val s ≠ [])
    (h : ∀ k ∈ octetsOf p.val s, (s.octet k).st = .fwdTrain ∧ (s.octet k).pass2 = false) (ha : isAsked p.val 1 s = false) :
    exec (.trainPass1End p) s = .next (sendCtrl p.val 1 0 s) := by
  refine congrArg Host.Outcome.next (if_pos ?_)
  have hall : ((octetsOf p.val s).all fun k => (s.octet k).st == .fwdTrain && !(s.octet k).pass2) = true :=
    List.all_eq_true.2 fun k hk => by rw [(h k hk).1, (h k hk).2]; rfl
  rw [hall, ha, List.isEmpty_eq_false_iff.2 hne]
  rfl

theorem execTrainFail_fails {p : Fin 4} (h : ∃ k ∈ octetsOf p.val s, (s.octet k).st = .fwdTrain ∧ (s.octet k).pass2 = true) :
    exec (.trainFail p) s = .next (trainFail p.val s) := by
  obtain ⟨k, hk, hst, h2⟩ := h
  exact congrArg Host.Outcome.next (if_pos (List.any_eq_true.2 ⟨k, hk, by rw [hst, h2]; rfl⟩))

end
end Sys2Proof.Machine

namespace Sys2Proof.Proofs
open Sys2Proof.Machine

/-- Settles O55: each event or message by the operation that its conditions bring about, and what that leaves of its octets and its array. -/
theorem linkEventsAndArrayMessages : Obligations.LinkEventsAndArrayMessages := by
  refine ⟨?lost, fun k s h => ⟨_, execBcAbsent_seeks (seeksLock_of h), octRaise_reports ..⟩, ?idleEnd,
    fun p s _ => ⟨_, rfl, trainRestart_octets p.val⟩, fun p s => execTrainPass1End_asks, ?trainFail, ?lanemap, ?errcnt,
    fun p op s h => ctrlTimeout_counts h, ?timeout, ?ack, fun p s => ⟨ackMissing_due, ackMissing_none⟩,
    fun p ws s h => ⟨_, rfl, defectMsg_map s h⟩, ?status, fun p s hd hc => ⟨_, rfl, saveMap_saves hd hc⟩, ?caps,
    fun p w s h => ⟨_, rfl, tempMsg_enters h⟩, ?tempStale,
    fun p ws s h => congrArg Host.Outcome.next (if_pos h), ?scanDone, fun p w s => rfl, ?scanTimeout, ?park, ?frame⟩
  case lost =>
    intro k s ha hst hl i hi
    rcases List.mem_pair.1 hi with rfl | rfl
    · exact ⟨_, rfl, bcLoss_octet ha hst hl⟩
    · exact ⟨_, rfl, bcLoss_octet ha hst hl⟩
  case idleEnd =>
    intro k s ha he hi hf hq
    refine ⟨_, rfl, ?_⟩
    rw [electricalIdleEnd_wakes ha he hi hf hq]
    exact ⟨rfl, Octet.started_epoch _⟩
  case trainFail =>
    intro p s h
    refine ⟨_, execTrainFail_fails h, fun k hk ha hr => ?_⟩
    rw [trainFail_octet hk]
    exact Octet.untrained_training ha hr
  case lanemap =>
    intro p ws s ha hne hl ht
    exact ⟨fun h2 => ⟨fun hm => ⟨_, rfl, map2_confirms ha hne hl ht h2 hm⟩,
        fun hm => congrArg Host.Outcome.next (map2_asks_again ha hne hl ht h2 hm)⟩,
      fun h1 => ⟨fun hm => ⟨_, rfl, map1_swizzles ha hne hl ht h1 hm⟩, fun hm => ⟨_, rfl, map1_fails ha hne hl ht h1 hm⟩⟩⟩
  case errcnt => exact fun p ws s hl => ⟨_, rfl, fun a k i ha hk hi => errcntMsg_crcCnt hl ha hk hi⟩
  case timeout =>
    refine fun s => ⟨fun h hr => ?_, fun k h cs hc => ⟨_, execLinkReadyTimeout_octet hc, complete_only _ _ _ _ (onlyReports_refl _),
      complete_journal (s.onOctet k.val fun o => { o with cmds := cs }) h .timeout 0⟩⟩
    obtain ⟨u, hnone, hmgt, hx⟩ := execLinkReadyTimeout_running hr
    refine ⟨_, hx, ?_, fun hm => complete_journal u h .timeout 0 (by rwa [hmgt])⟩
    rw [only_glk (complete_only _ _ _ _ (onlyReports_refl _)), hnone]
  case ack =>
    refine fun p w1 w2 s => ⟨fun h => ⟨_, congrArg Host.Outcome.next (ackMsg_stray h), ?_⟩, fun e he => ⟨_, rfl, ackMsg_effect he⟩⟩
    have hr := ahmRaise_reports (s.onArr p.val fun a => { a with strayCnt := sat a.strayCnt }) p.val 0x10
    rwa [onArr_onArr] at hr
  case status =>
    exact fun p ws s => ⟨fun h => congrArg Host.Outcome.next (statusMsg_short h),
      fun hl hn a k q ha hk hr hs hq => ⟨_, rfl, statusMsg_locked hl hn ha hk hr hs hq⟩⟩
  case caps =>
    exact fun p ws s ha hl hne hw => ⟨fun hf => ⟨_, rfl, capsMsg_refuses ha hl hne hw hf⟩,
      fun hf => ⟨_, rfl, capsMsg_takes ha hl hne hw hf⟩⟩
  case tempStale =>
    intro p s h
    refine ⟨_, execTempStale_present h, ?_⟩
    have hr := ahmRaise_reports (s.onArr p.val fun a => { a with tempStale := true }) p.val 0x400
    rwa [onArr_onArr] at hr
  case scanDone =>
    intro p w1 w2 w3 s hrun
    obtain ⟨h, hr⟩ := Option.isSome_iff_exists.1 hrun
    obtain ⟨hnone, hdata, hawait, hdone, hkept⟩ := scanDoneMsg_ends (w1 := w1) (w2 := w2) (w3 := w3) hr
    refine ⟨_, rfl, hnone, hdata, fun h0 hlen hcrc => ?_, fun h1 => hkept (by rw [scanComplete, h1]; rfl), fun h' hr' => ?_⟩
    · obtain ⟨hcnt, hmap⟩ := hdone (by rw [scanComplete, h0, hlen, hcrc]; simp)
      rw [hmap]
      exact ⟨hcnt, fun e he => (of_mem_enterDefects he).resolve_left List.not_mem_nil,
        fun hroom w hw => mem_enterDefects (by simpa using hroom) hw⟩
    · rwa [Option.some.inj (hr'.symm.trans hr)]
  case scanTimeout =>
    intro p s hrun
    obtain ⟨h, hr⟩ := Option.isSome_iff_exists.1 hrun
    obtain ⟨hnone, -, hmap, -, hawait⟩ := endScan_ends (p := p) (s := sendCtrl p.val 0x21 0 s) hr .timeout
    refine ⟨_, execScanTimeout_running hrun, hnone, hmap, fun h' hr' => ?_⟩
    rwa [Option.some.inj (hr'.symm.trans hr)]
  case park =>
    refine fun p w s h => ⟨_, congrArg Host.Outcome.next (parkStateMsg_heard h), parkEntered_arr.1, fun c cs ha hw => ?_⟩
    exact parkEntered_arr.2.trans (parkAnswered_asked ha hw)
  case frame =>
    intro k bits s ha hst hb hw f good
    have hx (hp : (s.octet k.val).bcLocked = true → (s.octet k.val).bcInv = false) := execBcFrameReceived_synced ha hst hb hw hp
    refine ⟨fun hl hf => ⟨_, hx (fun h => absurd h (by rw [hl]; nofun)), bcTaken_badStuffing hl hf⟩, fun hl hg hf => ?_,
      fun hl hg hi hr hf => ⟨_, hx (fun _ => hi), bcTaken_locks hl hg hi hr hf⟩, fun hl hi hf ht => (hx fun _ => hi).trans ?_⟩
    · rw [hx (fun h => absurd h (by rw [hl]; nofun)), bcTaken_seeking (f := rxFrame bits) hl hf (.inl hg), hg]
      rfl
    · exact congrArg Host.Outcome.next (bcTaken_message hl hf ht)

end Sys2Proof.Proofs
end

section
/-!
PROOFS. The commands of array health (R308, R313, R318, R320, R326): the policy, scans, parking and the reading of a defect map. O28 is settled here.
-/
namespace Sys2Proof.Machine

/-! ## What they see of a state that differs in reports only -/

section
variable {a s : State} (h : onlyReports a s)
include h

theorem only_restripePending (p : Nat) : restripePending p s = restripePending p a :=
  show restripePending p s.settings = restripePending p a.settings by rw [h]

theorem same_onArr (p : Nat) (f : Arr → Arr) : onlyReports (a.onArr p f) (s.onArr p f) := same_onAhm h _

theorem same_sendCtrl (p op arg : Nat) : onlyReports (sendCtrl p op arg a) (sendCtrl p op arg s) := by
  rw [sendCtrl, sendCtrl, only_ns h]
  exact same_onGlk h _

theorem ahmPolicySet_apply_same (x : Held) : onlyReports (specAhmPolicySet.apply x a) (specAhmPolicySet.apply x s) := by
  simp only [specAhmPolicySet, only_restripePending h]
  exact same_onArr h _ _

theorem ahmPark_apply_same (x : Held) : onlyReports (specAhmPark.apply x a) (specAhmPark.apply x s) :=
  same_sendCtrl (same_onArr h _ _) _ _ _

/-- An accepted AHM_SCAN with START is the scan that its array awaits (R318). -/
theorem ahmScan_effect_same (x : Held) : onlyReports (specAhmScan.effect x a).st (specAhmScan.effect x s).st := by
  simp only [specAhmScan]
  split
  · exact same_onArr h _ _
  · exact h

end

/-! ## Acceptance -/

/-- Both rows of AHM_SCAN share its effect at acceptance. -/
theorem ahmScan_completes {row : Cmd → Instr} (hx : ∀ c s, exec (row c) s = .next (accept specAhmScan c s)) :
    Completes specAhmScan row fun c s t =>
      ∃ h : Held, h.cmd = c ∧ h.opcode = 0x0611 ∧
        onlyReports (if cfgBit c then s.onArr c.tindex.toNat fun a => { a with scanPending := some h } else s) t :=
  completes_of_effect hx fun _ _ h _ _ hu hc ho ht => ⟨h, hc, ho, hc ▸ onlyReports_trans (ahmScan_effect_same hu h) ht⟩

theorem check_of_accepted {sp : OpSpec} {c : Cmd} {s : State} (h : accepted sp c s = true) : sp.check c (atChecks c s) = none := by
  simp only [accepted, Bool.and_eq_true, Option.isNone_iff_eq_none] at h
  exact check_of_refusal h.2

/-- An accepted AHM_DEFECT_READ names a live buffer. -/
theorem ahmDefectRead_buf {c : Cmd} {s : State} (h : accepted specAhmDefectRead c s = true) :
    ∃ q, findBuf (BitVec.ofNat 32 (u32 (Cmd.payload c) 0)) s = some q := by
  have hb : bufChecks c 0 (atChecks c s) = none := checks_eq_none (check_of_accepted h) _ (by simp)
  obtain ⟨q, hq⟩ := findBuf_of_bufChecks hb
  exact ⟨q, (only_findBuf (atChecks_only c s) _).symm.trans hq⟩

/-- The bytes of a defect map as AHM_DEFECT_READ writes them: the count, then the entries' words in order. -/
def defectBytes (m : List DefEntry) : List Byte :=
  leBytes 4 m.length ++ (sortDefects m).flatMap fun e => leBytes 4 e.word

theorem ahmDefectRead_effect {h : Held} {s : State} {q : Buffer} (hq : findBuf (BitVec.ofNat 32 (u32 (Cmd.payload h.cmd) 0)) s = some q) :
    (specAhmDefectRead.effect h s).st = bufStore { port := 9 } q 0 (defectBytes (s.arr h.cmd.tindex.toNat).map) s := by
  simp only [specAhmDefectRead, hq]
  rfl

/-! ## The boundary -/

/-- At its boundary AHM_SCAN starts the scan or stops it, as START says (R318, R320). -/
theorem ahmScan_apply (h : Held) (s : State) : specAhmScan.apply h s = (if cfgBit h.cmd then startScan h else stopScan h) s := by
  simp only [specAhmScan]
  split <;> rfl

end Sys2Proof.Machine

namespace Sys2Proof.Proofs
open Sys2Proof.Machine

/-- Settles O28: the policy and parking wait for the boundary, a scan is awaited at acceptance, a read writes the map at once; each boundary
effect is the same on the state that the APPLY entry leaves. -/
theorem arrayHealthCommandsScanParkAndRead : Obligations.ArrayHealthCommandsScanParkAndRead := by
  refine ⟨completes_of_no_effect (fun _ _ => rfl) fun _ _ => rfl, ahmScan_completes (row := .ahmScanStart) fun _ _ => rfl,
    ahmScan_completes (row := .ahmScanAbort) fun _ _ => rfl,
    completes_of_accepted_effect (fun _ _ => rfl) fun c s h u t ha hu hc ht => ?read,
    completes_of_no_effect (fun _ _ => rfl) fun _ _ => rfl, completes_of_no_effect (fun _ _ => rfl) fun _ _ => rfl,
    fun h s hd => ⟨fun ho => ?policy, fun ho => ?scan, fun ho => ?park⟩⟩
  case read =>
    subst hc
    obtain ⟨q, hq⟩ := ahmDefectRead_buf ha
    rw [ahmDefectRead_effect ((only_findBuf hu _).trans hq), only_arr hu] at ht
    exact ⟨q, hq, u, hu, ht⟩
  case policy =>
    exact applyHeld_same (sp := specAhmPolicySet) s (by rw [ho]; rfl) hd rfl (by rw [ho]; rfl) fun k => ahmPolicySet_apply_same k h
  case scan =>
    have ha := applyHeld_apply (sp := specAhmScan) s (by rw [ho]; rfl) hd rfl (by rw [ho]; rfl)
    rw [ahmScan_apply] at ha
    exact ⟨journalApply h s, journalApply_only h s (onlyReports_refl s), ha⟩
  case park =>
    exact applyHeld_same (sp := specAhmPark) s (by rw [ho]; rfl) hd rfl (by rw [ho]; rfl) fun k => ahmPark_apply_same k h

end Sys2Proof.Proofs
end

section
/-!
PROOFS. The commands of composition (R328 to R350): the shadows of views and pipes, the binding of a pipe, and the commit. O29 is settled here.
-/
namespace Sys2Proof.Machine

/-! ## What they see of a state that differs in reports only -/

section
variable {a s : State} (h : onlyReports a s)
include h

theorem only_cview (v : Nat) : s.cview v = a.cview v := by rw [State.cview, only_cmp h, State.cview]
theorem only_pipe (i : Nat) : s.pipe i = a.pipe i := by rw [State.pipe, only_cmp h, State.pipe]
theorem only_pipeRead (i : Nat) : pipeRead i s = pipeRead i a := by rw [pipeRead, only_cmp h, pipeRead]
theorem only_pipesOf (v : Nat) : pipesOf v s = pipesOf v a := by simp only [pipesOf, only_pipe h]

theorem same_onCview (v : Nat) (f : CmpView → CmpView) : onlyReports (a.onCview v f) (s.onCview v f) := same_onCmp h _
theorem same_onPipe (i : Nat) (f : Pipe → Pipe) : onlyReports (a.onPipe i f) (s.onPipe i f) := same_onCmp h _

/-- CMP_LUT_SET writes the shadow of its pipe or of its view (R343, R346). -/
theorem cmpLutSet_effect_same (x : Held) : onlyReports (specCmpLutSet.effect x a).st (specCmpLutSet.effect x s).st := by
  simp only [specCmpLutSet]
  split
  · exact same_onPipe h _ _
  · exact same_onCview h _ _

/-- A binding that is taken (R330). -/
theorem takeBind_same (i : Nat) (v : Option (BitVec 3)) : onlyReports (takeBind i v a) (takeBind i v s) :=
  same_ite (pruneDoms_same (same_onPipe h i _)) (same_onPipe h i _)

end

/-! ## The effects at acceptance -/

theorem cmpLutSet_effect (h : Held) (s : State) : (specCmpLutSet.effect h s).st =
    let l := (List.range (lutCurves h.cmd * lutEntries h.cmd)).map fun i => BitVec.ofNat 19 (u32 (Cmd.payload h.cmd) (8 + 4 * i))
    if h.cmd.tclass = clsLayer then s.onPipe h.cmd.tindex.toNat fun p => { p with shadowLut := some l }
    else s.onCview h.cmd.tindex.toNat fun v => { v with shadow := { v.shadow with lut := some l } } := by
  simp only [specCmpLutSet]
  split <;> rfl

/-- A pipe as a binding that is taken leaves it: under a new role epoch when its view changes, and without its settings when it is unbound
(R330, R570). -/
def Pipe.bound (v : Option (BitVec 3)) (p : Pipe) : Pipe :=
  if v = p.view then { p with bindWait := none }
  else if v = none then { epoch := p.epoch + 1 }
  else { p with view := v, epoch := p.epoch + 1, bindWait := none }

theorem takeBind_eq (i : Nat) (v : Option (BitVec 3)) (s : State) :
    takeBind i v s = if v = none then pruneDoms (s.onPipe i (Pipe.bound v)) else s.onPipe i (Pipe.bound v) := by
  cases v with
  | none => rfl
  | some w => rfl

/-- CMP_PIPE_BIND waits while frames read the pipe that it takes from its view. -/
theorem cmpPipeBind_waits {h : Held} {s : State} (hr : pipeRead h.cmd.tindex.toNat s = true)
    (hv : (s.pipe h.cmd.tindex.toNat).view ≠ bindView h.cmd) :
    (specCmpPipeBind.effect h s).st = s.onPipe h.cmd.tindex.toNat fun p => { p with bindWait := some h } := by
  simp [specCmpPipeBind, hr, hv]

theorem cmpPipeBind_takes {h : Held} {s : State}
    (hf : pipeRead h.cmd.tindex.toNat s = false ∨ (s.pipe h.cmd.tindex.toNat).view = bindView h.cmd) :
    (specCmpPipeBind.effect h s).st = takeBind h.cmd.tindex.toNat (bindView h.cmd) s := by
  have hgo : (pipeRead h.cmd.tindex.toNat s && (s.pipe h.cmd.tindex.toNat).view != bindView h.cmd) = false := by
    rcases hf with hf | hf <;> simp [hf]
  simp only [specCmpPipeBind, hgo, Bool.false_eq_true, if_false]

/-- What CMP_COMMIT's effect adds to the waiting commits: the shadows and the bound pipes of this instant (R350). -/
theorem cmpCommit_effect_same (x : Held) {a s : State} (h : onlyReports a s) :
    onlyReports (specCmpCommit.effect x a).st (specCmpCommit.effect x s).st := by
  simp only [specCmpCommit, only_pipesOf h]
  exact same_onCmp h _

end Sys2Proof.Machine

namespace Sys2Proof.Proofs
open Sys2Proof.Machine

/-- Settles O29: each effect on a state that differs in reports only; a commit that its boundary reaches is due. -/
theorem compositionCommandsFillShadows : Obligations.CompositionCommandsFillShadows := by
  refine ⟨completes_of_effect (fun _ _ => rfl) fun c s h u t hu hc _ ht => ?view,
    completes_of_effect (fun _ _ => rfl) fun c s h u t hu hc _ ht => ⟨fun hr hv => ?bindWaits, fun hf => ?bindTakes⟩,
    completes_of_effect (fun _ _ => rfl) fun c s h u t hu hc _ ht => ?layer,
    completes_of_effect (fun _ _ => rfl) fun c s h u t hu hc _ ht => ?lut,
    completes_of_effect (fun _ _ => rfl) fun c s h u t hu hc _ ht => ?writeback,
    completes_of_effect (fun _ _ => rfl) fun c s h u t hu hc ho ht => ⟨h, hc, ho, ?commit⟩,
    fun h s ho hd => applyHeld_late (sp := specCmpCommit) s (by rw [ho]; rfl) hd rfl⟩
  all_goals subst hc
  case view | layer => exact onlyReports_trans (same_onCmp hu _) ht
  case writeback => exact onlyReports_trans (same_onCview hu _ _) ht
  case bindWaits =>
    rw [cmpPipeBind_waits (by rwa [only_pipeRead hu]) (by rwa [only_pipe hu])] at ht
    exact ⟨h, rfl, onlyReports_trans (same_onPipe hu _ _) ht⟩
  case bindTakes =>
    rw [cmpPipeBind_takes (by rwa [only_pipeRead hu, only_pipe hu])] at ht
    have hs := onlyReports_trans (takeBind_same hu _ _) ht
    rwa [takeBind_eq] at hs
  case lut =>
    have hs := onlyReports_trans (cmpLutSet_effect_same hu h) ht
    rwa [cmpLutSet_effect] at hs
  case commit => exact onlyReports_trans (cmpCommit_effect_same h hu) ht

end Sys2Proof.Proofs
end

section
/-!
PROOFS. The commands of buffers (R354 to R357): what an accepted one has named, and its effect on a state that differs in reports only. O31 is
settled here.
-/
namespace Sys2Proof.Machine

/-! ## The JSEQ of an accepted command (R453) -/

section
variable (s : State)

theorem msix_jseq (h v : Nat) : (msix h v s).hif.jseq = s.hif.jseq := by
  unfold msix
  dsimp only
  split <;> rfl

theorem signal_jseq (v : Nat) : (signal v s).hif.jseq = s.hif.jseq := by
  have hmsg (h : Nat) (t : State) : (if wantsVec (h + 1) v t then msix h v t else t).hif.jseq = t.hif.jseq := by
    split
    · exact msix_jseq ..
    · rfl
  unfold signal
  lift_lets
  intro s1 s2
  have h2 : s2.hif.jseq = s.hif.jseq := (hmsg 1 s1).trans (hmsg 0 s)
  split
  · exact h2
  · exact h2

theorem logRec_jseq (vec code : Nat) (off bits : BitVec 32) : (logRec vec code off bits s).hif.jseq = s.hif.jseq := by
  unfold logRec
  split
  · dsimp only [flushFull]
    split <;> rfl
  · dsimp only
    split
    · rfl
    · exact signal_jseq ..

theorem stickyUp_jseq {w : Nat} (vec off : Nat) (old b : BitVec w) : (stickyUp vec off old b s).hif.jseq = s.hif.jseq := by
  unfold stickyUp
  dsimp only
  split
  · rfl
  · exact (signal_jseq ..).trans (logRec_jseq ..)

theorem checkSeq_jseq (c : Cmd) : (checkSeq c s).hif.jseq = s.hif.jseq := by
  unfold checkSeq
  split
  · rfl
  · dsimp only [State.onHif]
    split
    · split
      · rfl
      · exact stickyUp_jseq ..
    · rfl

theorem countCore_jseq (c : Cmd) : (countCore c s).hif.jseq = s.hif.jseq := by
  unfold countCore
  split <;> rfl

/-- The checks take no JSEQ. -/
theorem atChecks_jseq (c : Cmd) : (atChecks c s).hif.jseq = s.hif.jseq := (checkSeq_jseq _ c).trans (countCore_jseq s c)

end

/-- A row completes when the effect of its accepted command, held under the next JSEQ, leaves what P asks of the settings. -/
theorem completes_of_held_effect {sp : OpSpec} {row : Cmd → Instr} {P : Cmd → State → State → Prop}
    (hx : ∀ c s, exec (row c) s = .next (accept sp c s))
    (hp : ∀ c s h u t, accepted sp c s = true → onlyReports s u → h.cmd = c → h.opcode = sp.op → h.jseq = s.hif.jseq + 1 →
      onlyReports (sp.effect h u).st t → P c s t) : Completes sp row P := fun c s ha =>
  ⟨_, hx c s, hp c s _ _ _ ha (atEffect_only sp c s) rfl rfl (congrArg (· + 1) (atChecks_jseq s c)) (accept_effect sp c s ha)⟩

/-! ## What an accepted command has named -/

section
variable {a s : State} (h : onlyReports a s)
include h

theorem only_cmdBuf (c : Cmd) : cmdBuf c s = cmdBuf c a := only_findBuf h _

theorem only_freeIndex : freeIndex s = freeIndex a := by rw [freeIndex, only_cmp h, freeIndex]
theorem only_nextGen (i : Nat) : nextGen i s = nextGen i a := by rw [nextGen, only_cmp h, nextGen]
theorem only_bar2Extents : bar2Extents s = bar2Extents a := by rw [bar2Extents, only_cmp h, bar2Extents]
theorem only_generalExtents : generalExtents s = generalExtents a := by
  simp only [generalExtents, State.fview, only_cmp h, only_fab h]

theorem only_allocBuf (c : Cmd) : allocBuf c s = allocBuf c a := by
  unfold allocBuf
  rw [only_freeIndex h, only_mem h, only_generalExtents h, only_bar2Extents h]
  simp only [only_nextGen h]

theorem only_ingesting (host : HostId) (b : Option (BitVec 32)) (j : BitVec 64) : ingesting host b j s = ingesting host b j a :=
  show ingesting host b j s.settings = ingesting host b j a.settings by rw [h]

theorem same_onBuf (k : BitVec 32) (f : Buffer → Buffer) : onlyReports (a.onBuf k f) (s.onBuf k f) := same_onCmp h _

end

/-- An accepted BUF_ALLOC has a place for its buffer (R354). -/
theorem bufAlloc_buf {c : Cmd} {s : State} (h : accepted specBufAlloc c s = true) : ∃ b, allocBuf c s = some b := by
  have hfit : chk (allocBuf c (atChecks c s)).isNone ⟨.budgetExceeded, 0⟩ = none := checks_eq_none (check_of_accepted h) _ (by simp)
  rw [only_allocBuf (atChecks_only c s)] at hfit
  exact Option.ne_none_iff_exists'.1 fun hn => by simp [hn, chk] at hfit

/-- An accepted BUF_FREE names a live buffer. -/
theorem bufFree_buf {c : Cmd} {s : State} (h : accepted specBufFree c s = true) : ∃ b, cmdBuf c s = some b := by
  have hlive : badAt c 0 (cmdBuf c (atChecks c s)).isNone = none := checks_eq_none (check_of_accepted h) _ (by simp)
  rw [only_cmdBuf (atChecks_only c s)] at hlive
  exact Option.ne_none_iff_exists'.1 fun hn => by simp [hn, badAt, chk] at hlive

/-! ## The effects at acceptance -/

/-- The buffer of a BUF_ALLOC is its sender's and has the size asked for. -/
theorem allocBuf_asked {c : Cmd} {s : State} {b : Buffer} (h : allocBuf c s = some b) :
    b.owner = c.host ∧ b.size = u64 (Cmd.payload c) 0 := by
  unfold allocBuf at h
  dsimp only at h
  split at h
  · split at h
    · cases h
    · cases h
      exact ⟨rfl, rfl⟩
  · cases h

theorem bufAlloc_effect {h : Held} {s : State} {b : Buffer} (hb : allocBuf h.cmd s = some b) :
    (specBufAlloc.effect h s).st = s.onCmp fun x => { x with bufs := b :: x.bufs } := by
  simp only [specBufAlloc, hb]

theorem bufFree_effect {h : Held} {s : State} {b : Buffer} (hb : cmdBuf h.cmd s = some b) : (specBufFree.effect h s).st =
    if referenced b.handle s then s.onBuf b.handle fun b => { b with freePending := some h, bar2 := none } else dropBuf b s := by
  simp only [specBufFree, hb]
  split <;> rfl

theorem dropBuf_bufs (b : Buffer) (s : State) : (dropBuf b s).cmp.bufs = s.cmp.bufs.filter fun x => x.handle != b.handle := by
  unfold dropBuf
  split
  · split <;> rfl
  · rfl

/-- A buffer that has left the device is found no more. -/
theorem findBuf_dropBuf (b : Buffer) (s : State) : findBuf b.handle (dropBuf b s) = none := by
  rw [findBuf, dropBuf_bufs, List.find?_eq_none]
  intro x hx
  simpa using (List.mem_filter.1 hx).2

theorem bufSignal_effect (h : Held) (s : State) : (specBufSignal.effect h s).st =
    let b := Cmd.payload h.cmd
    let d := BitVec.ofNat 32 (u32 b 0)
    if ingesting h.cmd.host (some d) h.jseq s then s.onCmp fun x => { x with named := d :: x.named }
    else s.onBuf d fun x => { x with fence := if bitOf (u8 b 4) 0 then BitVec.ofNat 32 (u32 b 8) else x.fence + 1, lost := false } := by
  simp only [specBufSignal]
  split <;> rfl

/-- BUF_SIGNAL sets its fence, or waits for the transfers accepted before it (R355). -/
theorem bufSignal_effect_same (x : Held) {a s : State} (h : onlyReports a s) :
    onlyReports (specBufSignal.effect x a).st (specBufSignal.effect x s).st := by
  rw [bufSignal_effect, bufSignal_effect]
  simp only [only_ingesting h]
  exact same_ite (same_onCmp h _) (same_onBuf h _ _)

theorem bufIngest_effect_same (x : Held) {a s : State} (h : onlyReports a s) :
    onlyReports (specBufIngest.effect x a).st (specBufIngest.effect x s).st := by
  have hi : s.hif.settings = a.hif.settings := congrArg State.hif h
  refine same_onCmp (same_onHif h _ ?_) _
  have hs (y : Hif) : Hif.settings { y with ingests := y.ingests ++ [x] } =
      { y.settings with ingests := y.settings.ingests ++ [x] } := rfl
  rw [hs, hs, hi]

end Sys2Proof.Machine

namespace Sys2Proof.Proofs
open Sys2Proof.Machine

/-- Settles O31: the buffer that each accepted command has named, and its effect on a state that differs in reports only. -/
theorem bufferCommandsAllocateFreeSignalAndIngest : Obligations.BufferCommandsAllocateFreeSignalAndIngest := by
  refine ⟨completes_of_accepted_effect (fun _ _ => rfl) fun c s h u t ha hu hc ht => ?alloc,
    completes_of_held_effect (fun _ _ => rfl) fun c s h u t ha hu hc ho _ ht => ?free,
    completes_of_held_effect (fun _ _ => rfl) fun c s h u t _ hu hc _ hj ht => ?signal,
    completes_of_effect (fun _ _ => rfl) fun c s h u t hu hc ho ht => ⟨h, hc, ho, ?ingest⟩⟩
  case alloc =>
    subst hc
    obtain ⟨b, hb⟩ := bufAlloc_buf ha
    obtain ⟨howner, hsize⟩ := allocBuf_asked hb
    rw [bufAlloc_effect ((only_allocBuf hu _).trans hb)] at ht
    exact ⟨b, hb, howner, hsize, onlyReports_trans (same_onCmp hu _) ht⟩
  case free =>
    subst hc
    obtain ⟨b, hb⟩ := bufFree_buf ha
    rw [bufFree_effect ((only_cmdBuf hu _).trans hb)] at ht
    refine ⟨b, u, hb, hu, fun hr => ?dropped, fun hr => ⟨h, rfl, ho, ?pending⟩⟩
    case dropped =>
      rw [if_neg (by rw [hr]; decide)] at ht
      exact ⟨ht, (only_findBuf ht _).trans (findBuf_dropBuf b _)⟩
    case pending =>
      rw [if_pos hr] at ht
      exact onlyReports_trans (same_onBuf hu _ _) ht
  case signal =>
    have hs := onlyReports_trans (bufSignal_effect_same h hu) ht
    rw [bufSignal_effect, hc, hj] at hs
    exact hs
  case ingest =>
    subst hc
    exact onlyReports_trans (bufIngest_effect_same h hu) ht

end Sys2Proof.Proofs
end

section
/-!
PROOFS. Sound memory, of which every word reads well: what the device's own reads and writes leave of it, and of what lies beside the general
region (R400, R406, R410).
-/
namespace Sys2Proof.Machine

/-! ## What a burst that writes can do -/

/-- A burst that writes is refused and counted, lost to a fence, or stored. -/
theorem serveBurst_write {q : MemReq} {d : List Byte} (hd : q.data = some d) (s : State) : ∃ u, Metered s u ∧
    ((serveBurst q s).1 = memRaise 0x80 (u.onMem fun m => { m with protViolCnt := sat m.protViolCnt }) ∨ (serveBurst q s).1 = u ∨
      (serveBurst q s).1 = u.onMem fun m => cleanWord (MemReq.place q s.mem) d (storeAt q.space q.addr d m)) := by
  refine ⟨_, served_metered q s, ?_⟩
  unfold serveBurst
  lift_lets
  intro p rank u
  split
  · exact .inl rfl
  · rw [hd]
    dsimp only
    split
    · exact .inr (.inl rfl)
    · exact .inr (.inr rfl)

theorem cleanWord_cells (p : MemPlace) (d : List Byte) (m : Mem) (x : MemSpace) : (cleanWord p d m).cells x = m.cells x := by
  unfold cleanWord
  split
  · rfl
  · cases x <;> rfl

theorem storeAt_cells_other (a : Nat) (d : List Byte) (m : Mem) {x : MemSpace} (hx : x ≠ .general) : (storeAt .general a d m).cells x = m.cells x :=
  match x with
  | .general => absurd rfl hx
  | .plane => rfl
  | .reserve => rfl

/-! ## Memory of which every word reads well (R410, R412, R422) -/

/-- No pseudo-channel is fenced, and a migration has left no word uncorrectable. -/
def State.sound (s : State) : Prop := s.mem.fenced = 0 ∧ s.mem.poison = []

section
variable {s t : State}

theorem sound_of_mem (h : t.mem = s.mem) (hs : s.sound) : t.sound := by rwa [State.sound, h]

theorem Metered.sound (h : Metered s t) (hs : s.sound) : t.sound := by
  obtain ⟨_, _, _, _, _, rfl⟩ := h
  exact hs

theorem Metered.fab (h : Metered s t) : t.fab = s.fab := by
  obtain ⟨_, _, _, _, _, rfl⟩ := h
  rfl

theorem memRaise_sound (b : BitVec 10) (hs : s.sound) : (memRaise b s).sound := by
  rw [State.sound, memRaise_mem]
  exact hs

theorem memRaise_fab (b : BitVec 10) (s : State) : (memRaise b s).fab = s.fab := (only_fab (memRaise_only b s (onlyReports_refl _))).trans rfl

theorem badWord_sound (x : MemSpace) (a : Nat) (hs : s.sound) : badWord x a s = false := by
  obtain ⟨hf, hp⟩ := hs
  simp [badWord, poisoned, hf, hp]

theorem storeAt_sound (x : MemSpace) (a : Nat) (p : MemPlace) (d : List Byte) (hs : s.sound) :
    (s.onMem fun m => cleanWord p d (storeAt x a d m)).sound := by
  obtain ⟨hf, hp⟩ := hs
  rw [State.sound, State.onMem_mem, cleanWord]
  split
  · cases x <;> exact ⟨hf, hp⟩
  · cases x <;> simp [storeAt, hf, hp]

/-- Writes leave sound memory sound. -/
theorem portWrite_sound (q : MemReq) (d : List Byte) (hs : s.sound) : (portWrite q d s).sound := by
  refine List.foldlRecOn (motive := State.sound) _ _ hs fun t ht w _ => ?_
  obtain ⟨u, hu, h⟩ := serveBurst_write (q := { q with
    addr := w.1, data := some (slice d (w.1 - q.addr) w.2), closes := w.1 + w.2 == q.addr + d.length }) rfl (meter q.port.val t)
  have hus : u.sound := ((meter_metered _ t).trans hu).sound ht
  rcases h with h | h | h <;> rw [h]
  · exact memRaise_sound _ hus
  · exact hus
  · exact storeAt_sound _ _ _ _ hus

section
variable {q : MemReq} (hd : q.data = none) (he : q.ecc = .clean)
include hd he

/-- In sound memory a read meets no error, also one that protection refuses. -/
theorem serveBurst_sound (hs : s.sound) : (serveBurst q s).2 = false ∧ (serveBurst q s).1.sound ∧ (serveBurst q s).1.fab = s.fab := by
  have hm := served_metered q s
  unfold serveBurst
  lift_lets
  intro p rank u
  have hu : u.sound := hm.sound hs
  have hfab : u.fab = s.fab := hm.fab
  clear_value u
  split
  · exact ⟨rfl, memRaise_sound _ hu, (memRaise_fab _ _).trans hfab⟩
  · rw [hd]
    simp only [badWord_sound _ _ hu, he]
    exact ⟨rfl, hu, hfab⟩

theorem fetchStep_sound (e : Nat) (g : Fetched) (w : Nat × Nat) (hs : g.st.sound) : (fetchStep q e g w).bad = g.bad ∧
    (fetchStep q e g w).st.sound ∧ (fetchStep q e g w).st.fab = g.st.fab := by
  have hm := meter_metered q.port.val g.st
  obtain ⟨hgood, hsound, hfab⟩ := serveBurst_sound (q := { q with addr := w.1, closes := w.1 + w.2 == e }) hd he (hm.sound hs)
  exact ⟨by simp only [fetchStep, hgood, Bool.false_eq_true, if_false], hsound, hfab.trans hm.fab⟩

/-- A run of reads in sound memory meets no uncorrectable word, and leaves the fabric as it is. -/
theorem portRead_sound (n : Nat) (hs : s.sound) : (portRead q n s).bad = [] ∧ (portRead q n s).st.fab = s.fab := by
  rw [portRead_steps]
  have hrun := List.foldlRecOn (motive := fun g : Fetched => g.bad = [] ∧ g.st.sound ∧ g.st.fab = s.fab) (burstsOf q.addr n)
    (fetchStep q (q.addr + n)) (b := { st := s }) ⟨rfl, hs, rfl⟩ fun g hg w _ => by
      obtain ⟨hbad, hsound, hfab⟩ := hg
      obtain ⟨kbad, ksound, kfab⟩ := fetchStep_sound hd he (q.addr + n) g w hsound
      exact ⟨kbad.trans hbad, ksound, kfab.trans hfab⟩
  exact ⟨hrun.1, hrun.2.2⟩

end

/-! ## What lies beside the general region -/

/-- The compositor, and the bytes of the plane region and of the reserve. -/
def State.beside (s : State) : Cmp × List Host.Cell × List Host.Cell := (s.cmp, s.mem.plane, s.mem.reserve)

theorem only_beside (h : onlyReports s t) : t.beside = s.beside := by rw [State.beside, only_cmp h, only_mem h, State.beside]

theorem Metered.beside (h : Metered s t) : t.beside = s.beside := by
  obtain ⟨_, _, _, _, _, rfl⟩ := h
  rfl

theorem memRaise_beside (b : BitVec 10) (s : State) : (memRaise b s).beside = s.beside := (only_beside (memRaise_only b s (onlyReports_refl _))).trans rfl

theorem storeAt_beside (a : Nat) (p : MemPlace) (d : List Byte) (s : State) :
    (s.onMem fun m => cleanWord p d (storeAt .general a d m)).beside = s.beside := by
  have hc (x : MemSpace) (hx : x ≠ .general) : (cleanWord p d (storeAt .general a d s.mem)).cells x = s.mem.cells x :=
    (cleanWord_cells ..).trans (storeAt_cells_other a d s.mem hx)
  rw [State.beside, State.onMem_mem, State.onMem_cmp, State.beside]
  exact congrArg₂ (fun x y => (s.cmp, x, y)) (hc .plane nofun) (hc .reserve nofun)

/-- Writes to the general region leave what lies beside it. -/
theorem portWrite_beside {q : MemReq} (hq : q.space = .general) (d : List Byte) (s : State) : (portWrite q d s).beside = s.beside := by
  refine List.foldlRecOn (motive := fun t : State => t.beside = s.beside) _ _ rfl fun t ht w _ => ?_
  obtain ⟨u, hu, h⟩ := serveBurst_write (q := { q with
    addr := w.1, data := some (slice d (w.1 - q.addr) w.2), closes := w.1 + w.2 == q.addr + d.length }) rfl (meter q.port.val t)
  refine Eq.trans ?_ (((meter_metered _ t).trans hu).beside.trans ht)
  rcases h with h | h | h <;> rw [h]
  · exact (memRaise_beside ..).trans rfl
  · rw [hq]
    exact storeAt_beside ..

theorem bufStore_beside {q : MemReq} (hq : q.space = .general) (b : Buffer) (o : Nat) (d : List Byte) (s : State) :
    (bufStore q b o d s).beside = s.beside := by
  unfold bufStore
  cases b.place with
  | none => rfl
  | some a => exact portWrite_beside (q := { q with addr := a + o }) hq d s

end
end Sys2Proof.Machine
end

section
/-!
PROOFS. The frames of a view in the compositor: their start, and what the end of a composition leaves (R331, R333, R348).
-/
namespace Sys2Proof.Machine

section
variable (s : State)

theorem onCview_onCview (v : Nat) (f g : CmpView → CmpView) : (s.onCview v f).onCview v g = s.onCview v fun x => g (f x) := by
  simp only [State.onCview, State.onCmp, upd_upd]
theorem onFview_onFview (v : Nat) (f g : FabView → FabView) : (s.onFview v f).onFview v g = s.onFview v fun x => g (f x) := by
  simp only [State.onFview, State.onFab, upd_upd]

theorem cviewRaise_reports (v : Nat) (b : BitVec 2) : onlyReports (s.onCview v fun x => { x with sticky := x.sticky ||| b }) (cviewRaise v b s) :=
  cviewRaise_only v b s (onlyReports_refl _)
theorem fviewRaise_reports (v : Nat) (b : BitVec 3) : onlyReports (s.onFview v fun x => { x with sticky := x.sticky ||| b }) (fviewRaise v b s) :=
  fviewRaise_only v b s (onlyReports_refl _)

end

/-! ## The start instant (R331, R333, R386) -/

section
variable {v : Fin 5} {f : BitVec 2} {s : State}
variable (hl : s.live = true) (hs : s.fab.stopped = false) (hp : s.pictureStops = false) (hc : (s.cview v.val).committed = true)
variable (hv : composes v.val (s.cview v.val).cfg s = true) (hf : f.toNat < framesOf v.val s)
include hl hs hp hc hv hf

theorem execCmpFrameStart_runs : exec (.cmpFrameStart v f) s = .next
    (if (s.cview v.val).composing.isSome then cviewRaise v.val 0x1 (s.onCview v.val fun x => { x with skipCnt := sat x.skipCnt })
      else if symbLate v.val (startPeriod v.val f.toNat 0 s) f.toNat s then
        fviewRaise v.val 0x4 (s.onFview v.val fun f => { f with symbLateCnt := sat f.symbLateCnt })
      else startFrame v.val (startPeriod v.val f.toNat 0 s) f.toNat s) := by
  show execCmpFrameStart v f s = _
  unfold execCmpFrameStart
  simp only [hl, hs, hp, hc, hv, Nat.not_le.2 hf, Bool.not_true, Bool.or_self, decide_false, Bool.false_eq_true, if_false]

theorem cmpFrameStart_skips (h : (s.cview v.val).composing.isSome = true) :
    Goes (.cmpFrameStart v f) s (s.onCview v.val fun x => { x with skipCnt := sat x.skipCnt, sticky := x.sticky ||| 1 }) := by
  refine ⟨_, execCmpFrameStart_runs hl hs hp hc hv hf, ?_⟩
  rw [if_pos h]
  have hr := cviewRaise_reports (s.onCview v.val fun x => { x with skipCnt := sat x.skipCnt }) v.val 0x1
  rwa [onCview_onCview] at hr

theorem cmpFrameStart_late (hn : (s.cview v.val).composing = none)
    (h : symbLate v.val (startPeriod v.val f.toNat 0 s) f.toNat s = true) :
    Goes (.cmpFrameStart v f) s (s.onFview v.val fun x => { x with symbLateCnt := sat x.symbLateCnt, sticky := x.sticky ||| 4 }) := by
  refine ⟨_, execCmpFrameStart_runs hl hs hp hc hv hf, ?_⟩
  rw [if_neg (by rw [hn]; nofun), if_pos h]
  have hr := fviewRaise_reports (s.onFview v.val fun x => { x with symbLateCnt := sat x.symbLateCnt }) v.val 0x4
  rwa [onFview_onFview] at hr

theorem cmpFrameStart_starts (hn : (s.cview v.val).composing = none)
    (h : symbLate v.val (startPeriod v.val f.toNat 0 s) f.toNat s = false) :
    exec (.cmpFrameStart v f) s = .next (startFrame v.val (startPeriod v.val f.toNat 0 s) f.toNat s) := by
  rw [execCmpFrameStart_runs hl hs hp hc hv hf, if_neg (by rw [hn]; nofun), if_neg (by rw [h]; nofun)]

end

/-- A frame that starts is composed under the state in force, with the enabled layers of its view's pipes. -/
theorem startFrame_composing (v : Fin 5) (p fofs : Nat) (s : State) : ∃ c, ((startFrame v.val p fofs s).cview v.val).composing = some c ∧
    c.fofs = BitVec.ofNat 2 fofs ∧ c.cfg = (s.cview v.val).cfg ∧ c.period = BitVec.ofNat 64 p ∧
    c.layers = ((pipesOf v.val s).map fun i => (i, (s.pipe i).layer)).filter fun l => l.2.enable := by
  unfold startFrame
  lift_lets
  intro ls prot bad s1 t cfg c
  refine ⟨c, congrArg CmpView.composing (State.onCview_self _ _ _ v.isLt), rfl, ?_, rfl, rfl⟩
  show (s1.cview v.val).cfg = (s.cview v.val).cfg
  have h1 : s1.cmp = s.cmp := by
    dsimp only [s1]
    split
    · exact (only_cmp (secRaise_only 0x40 s (onlyReports_refl _))).trans rfl
    · rfl
  rw [State.cview, h1, State.cview]

/-! ## The end of a composition (R333, R348, R377) -/

/-- What view v composes, how many of its frames have been composed, and the bytes of the plane region and of the reserve. -/
def State.composed (v : Nat) (s : State) : Option Composing × BitVec 32 × List Host.Cell × List Host.Cell :=
  ((s.cview v).composing, (s.cview v).frameCnt, s.mem.plane, s.mem.reserve)

section
variable (v : Nat) (s : State)

theorem composed_of_beside {s t : State} (h : t.beside = s.beside) : t.composed v = s.composed v := by
  obtain ⟨hcmp, hplane, hreserve⟩ : _ ∧ _ ∧ _ := by simpa only [State.beside, Prod.mk.injEq] using h
  rw [State.composed, State.cview, hcmp, hplane, hreserve, State.composed, State.cview]

theorem only_composed {s t : State} (h : onlyReports s t) : t.composed v = s.composed v := composed_of_beside v (only_beside h)

theorem onCview_composed (w : Nat) {f : CmpView → CmpView} (hf : ∀ x, ((f x).composing, (f x).frameCnt) = (x.composing, x.frameCnt)) :
    (s.onCview w f).composed v = s.composed v := by
  have hview : (((s.onCview w f).cview v).composing, ((s.onCview w f).cview v).frameCnt) = ((s.cview v).composing, (s.cview v).frameCnt) :=
    nth_of_map_eq (map_upd _ _ _ (fun x : CmpView => (x.composing, x.frameCnt)) hf) v
  exact congrArg (fun x : Option Composing × BitVec 32 => (x.1, x.2, s.mem.plane, s.mem.reserve)) hview

theorem storeRows_composed (w n : Nat) (c : Composing) : (storeRows w n c s).composed v = s.composed v := by
  unfold storeRows
  split
  · rfl
  · exact composed_of_beside v (portWrite_beside rfl _ s)

theorem bufStores_composed (q : MemReq) (b : Buffer) (o : Nat → Nat) (row : Nat → List Byte) (l : List Nat) (hq : q.space = .general) :
    (l.foldl (fun t y => bufStore q b (o y) (row y) t) s).composed v = s.composed v :=
  foldl_keeps (g := State.composed v) (fun t y => composed_of_beside v (bufStore_beside hq b (o y) (row y) t)) l s

theorem writeBack_composed (w : Nat) (c : Composing) : (writeBack w c s).composed v = s.composed v := by
  unfold writeBack
  split
  · rfl
  · lift_lets
    intro code row u
    have hu : u.composed v = s.composed v := bufStores_composed v s _ _ _ row _ rfl
    clear_value u
    refine (onCview_composed v u w fun x => ?_).trans hu
    rfl

theorem countTiles_composed (w : Nat) (c : Composing) : (countTiles w c s).composed v = s.composed v := by
  unfold countTiles
  refine foldl_keeps (g := State.composed v) (fun t l => ?_) _ s
  lift_lets
  intro n
  clear_value n
  refine (onCview_composed v _ w fun x => ?_).trans ?_
  · rfl
  · rfl

theorem fabDrop_composed (w : Nat) : (fabDrop w s).composed v = s.composed v := (only_composed v (fviewRaise_reports _ w 0x2)).trans rfl

theorem toFabric_composed (w : Nat) (c : Composing) : (toFabric w c s).composed v = s.composed v := by
  unfold toFabric
  split
  · rfl
  · split
    · split
      · rfl
      · exact fabDrop_composed ..
    · split
      · rfl
      · split
        · rfl
        · split <;> rfl

theorem dropBuf_composed (b : Buffer) : (dropBuf b s).composed v = s.composed v := by
  unfold dropBuf
  split
  · split <;> rfl
  · rfl

theorem sweepBuffers_composed : (sweepBuffers s).composed v = s.composed v := by
  refine foldl_keeps (g := State.composed v) (fun t b => ?_) _ s
  split
  · rfl
  next h _ =>
    split
    · rfl
    · exact (only_composed v (complete_only _ _ _ _ (sendEvent_only _ _ _ _ _ (onlyReports_refl _)))).trans (dropBuf_composed v t b)

theorem takeBind_composed (i : Nat) (b : Option (BitVec 3)) : (takeBind i b s).composed v = s.composed v := by
  rw [takeBind_eq]
  split <;> rfl

theorem settleBinds_composed : (settleBinds s).composed v = s.composed v := by
  refine forN_keeps (g := State.composed v) (fun i t => ?_) 24 s
  split
  · rfl
  · split
    · rfl
    · exact (only_composed v (complete_only _ _ _ _ (onlyReports_refl _))).trans (takeBind_composed ..)

end

/-- The frame that view v has composed as it leaves the compositor: its rows, its writeback and its tiles. -/
def composedOut (v : Nat) (c : Composing) (s : State) : State := countTiles v c (writeBack v c (storeRows v c.cfg.height c s))

theorem execCmpFrameDone_composing {v : Fin 5} {s : State} {c : Composing} (hl : s.live = true) (hc : (s.cview v.val).composing = some c) :
    exec (.cmpFrameDone v) s = .next (settleBinds (sweepBuffers (toFabric v.val c ((composedOut v.val c s).onCview v.val fun x =>
      { x with composing := none, frameCnt := sat x.frameCnt })))) := by
  show execCmpFrameDone v s = _
  simp only [execCmpFrameDone, hc, hl, Bool.not_true, Bool.false_eq_true, if_false]
  rfl

/-- The end of a composition counts the frame and frees the compositor, and stores in the general region only. -/
theorem cmpFrameDone_counts {v : Fin 5} {s : State} {c : Composing} (hl : s.live = true) (hc : (s.cview v.val).composing = some c) :
    ∃ t, exec (.cmpFrameDone v) s = .next t ∧
      t.composed v.val = (none, sat (s.cview v.val).frameCnt, s.mem.plane, s.mem.reserve) := by
  refine ⟨_, execCmpFrameDone_composing hl hc, ?_⟩
  have hout : (composedOut v.val c s).composed v.val = s.composed v.val :=
    (countTiles_composed ..).trans ((writeBack_composed ..).trans (storeRows_composed ..))
  obtain ⟨-, hcnt, hplane, hreserve⟩ : _ ∧ _ ∧ _ ∧ _ := by simpa only [State.composed, Prod.mk.injEq] using hout
  rw [settleBinds_composed, sweepBuffers_composed, toFabric_composed, State.composed, State.onCview_self _ _ _ v.isLt, hcnt]
  exact congrArg₂ (fun x y => (none, sat (s.cview v.val).frameCnt, x, y)) hplane hreserve

end Sys2Proof.Machine
end

section
/-!
PROOFS. The fabric's clusters: the end of a load, of a drain, and an uncorrectable SRAM error (R372, R374, R376).
-/
namespace Sys2Proof.Machine

/-! ## The end of a load (R370, R376) -/

/-- A cluster loaded with an image, in the state that its chain gives it. -/
def Cluster.loadEnd (st : ClSt) (m : Image) (c : Cluster) : Cluster :=
  { loadSram c.slot.toNat m c with st := st, loaded := true, cmds := [] }

section
variable {n : Fin 64} {s : State}

theorem clusterLoadDone_domainOff (hd : domainOn n.val s = false) : exec (.clusterLoadDone n) s = .next s := by
  show execClusterLoadDone n s = _
  simp only [execClusterLoadDone, hd, Bool.not_false, Bool.or_true, if_true]

variable (hl : s.live = true)
include hl

theorem execClusterLoadDone_loading (hg : (s.cluster n.val).loading = true) (hd : domainOn n.val s = true) :
    exec (.clusterLoadDone n) s = .next ((s.cluster n.val).cmds.foldl (fun t h => complete h .done 0 t) (s.onCluster n.val
      (Cluster.loadEnd (if !(s.cluster n.val).assigned then .drain else if inForce n.val s then .active else .standby) (clusterImage n.val s)))) := by
  show execClusterLoadDone n s = _
  simp only [execClusterLoadDone, hl, hg, hd, Bool.not_true, Bool.or_self, Bool.false_eq_true, if_false]
  rfl

/-- A load that ends fills the cluster and settles its place. -/
theorem clusterLoadDone_loads (hg : (s.cluster n.val).loading = true) (hd : domainOn n.val s = true) :
    Goes (.clusterLoadDone n) s (s.onCluster n.val fun c =>
      c.loadEnd (if c.assigned = false then .drain else if inForce n.val s then .active else .standby) (clusterImage n.val s)) := by
  refine ⟨_, execClusterLoadDone_loading hl hg hd,
    List.foldlRecOn (motive := onlyReports _) _ _ ?_ fun t ht h _ => complete_only h .done 0 t ht⟩
  have hc : s.onCluster n.val
        (Cluster.loadEnd (if !(s.cluster n.val).assigned then .drain else if inForce n.val s then .active else .standby) (clusterImage n.val s)) =
      s.onCluster n.val fun c =>
        c.loadEnd (if c.assigned = false then .drain else if inForce n.val s then .active else .standby) (clusterImage n.val s) :=
    congrArg (fun x => s.onFab fun f => { f with clusters := x }) (upd_congr _ _ (by simp only [State.cluster, Bool.not_eq_true']))
  rw [hc]
  exact onlyReports_refl _

end

/-! ## The end of a drain (R372) -/

/-- A cluster that is off keeps its epoch and its counters. -/
def Cluster.drained (c : Cluster) : Cluster := { epoch := c.epoch, bandCnt := c.bandCnt, ceCnt := c.ceCnt, ueCnt := c.ueCnt }

theorem freeSurfaces_clusters (v : Nat) (s : State) : (freeSurfaces v s).fab.clusters = s.fab.clusters := by
  unfold freeSurfaces
  lift_lets
  intro f
  split
  · rfl
  · split
    · exact wipeCanvas_untouched s (g := fun t => t.fab.clusters) (fun _ _ _ => rfl) (fun _ _ _ => rfl) v
    · rfl

theorem clusterDrainDone_drained {n : Fin 64} {s : State} (hl : s.live = true) (hd : (s.cluster n.val).st = .drain)
    (hc : (s.cluster n.val).cmds = []) (hb : clusterBusy n.val s = false) :
    ∃ t, exec (.clusterDrainDone n) s = .next t ∧ t.cluster n.val = (s.cluster n.val).drained := by
  let u := (s.onPwr fun p => { p with doms := p.doms &&& ~~~(bit1 144 n.val) }).onCluster n.val Cluster.drained
  refine ⟨freeSurfaces (s.cluster n.val).view.toNat u, ?_, ?_⟩
  · show execClusterDrainDone n s = _
    simp only [execClusterDrainDone, hl, hd, hc, hb, Bool.not_true, bne_self_eq_false, List.isEmpty_nil, Bool.or_self, Bool.false_eq_true, if_false]
    rfl
  · rw [State.cluster, freeSurfaces_clusters]
    exact State.onCluster_self _ _ _ n.isLt

/-! ## An uncorrectable SRAM error (R374, R376) -/

section
variable (v : Nat) (s : State)

theorem fabDrop_clusters : (fabDrop v s).fab.clusters = s.fab.clusters := by
  rw [fabDrop, only_fab (fviewRaise_reports _ v 0x2)]
  rfl

theorem abandonSlicing_fab (k : Nat) : (abandonSlicing v k s).fab = s.fab := by
  unfold abandonSlicing
  split <;> rfl

theorem abandonFrame_clusters : (abandonFrame v s).fab.clusters = s.fab.clusters := by
  unfold abandonFrame
  split
  · rfl
  · rw [sweepBuffers_fab]
    show (abandonSlicing _ _ _).fab.clusters = _
    rw [abandonSlicing_fab]

theorem dropFrame_clusters : (dropFrame v s).fab.clusters = s.fab.clusters := by
  unfold dropFrame
  split
  · rfl
  · rw [fabDrop_clusters, abandonFrame_clusters]
    rfl

/-- A cluster whose power is cycled loses what its memories held. -/
def Cluster.emptied (c : Cluster) : Cluster := { c with engines := Vector.replicate 8 {}, shared := [], loaded := false }

theorem cycleCluster_cluster {n : Nat} (hn : n < 64) : (cycleCluster n s).cluster n = (s.cluster n).emptied := by
  unfold cycleCluster
  lift_lets
  intro c v u
  have hu : u.fab.clusters = s.fab.clusters := by
    dsimp only [u]
    split
    · rfl
    · split
      · rfl
      · exact dropFrame_clusters v s
  refine (State.onCluster_self _ _ Cluster.emptied hn).trans ?_
  show (u.cluster n).emptied = _
  rw [State.cluster, hu, State.cluster]

end

theorem fabRaise_fab (b : BitVec 3) (s : State) : (fabRaise b s).fab = { s.fab with sticky := s.fab.sticky ||| b } :=
  (only_fab (fabRaise_only b s (onlyReports_refl _))).trans rfl

/-- The error is counted and leaves the cluster FAULTED and empty. -/
theorem fabSramUe_faults {n : Fin 64} {s : State} (hl : s.live = true) (hn : (s.cluster n.val).st ≠ .off) :
    ∃ t, exec (.fabSramUe n) s = .next t ∧ t.fab.sticky.getLsbD 0 = true ∧
      t.cluster n.val = { (s.cluster n.val).emptied with ueCnt := sat (s.cluster n.val).ueCnt, st := .faulted } := by
  let u := (cycleCluster n.val s).onCluster n.val fun c => { c with ueCnt := sat c.ueCnt, st := .faulted }
  refine ⟨fabRaise 0x1 u, ?_, ?_, ?_⟩
  · show execFabSramUe n s = _
    simp only [execFabSramUe, hl, beq_eq_false_iff_ne.2 hn, Bool.not_true, Bool.or_self, Bool.false_eq_true, if_false]
    rfl
  · rw [fabRaise_fab]
    exact getLsbD_or_of_right u.fab.sticky (by decide)
  · rw [State.cluster, fabRaise_fab]
    refine (State.onCluster_self (cycleCluster n.val s) _ _ n.isLt).trans ?_
    rw [cycleCluster_cluster _ n.isLt]
    rfl

end Sys2Proof.Machine
end

section
/-!
PROOFS. The bands and the symbol surfaces of the fabric (R377, R378, R385, R387).
-/
namespace Sys2Proof.Machine

/-! ## The start of a band (R377) -/

section
variable {v : Fin 5} {s : State} (hr : fabRuns s = true)
include hr

theorem fabBandStart_next {g : FabFrame} (hf : (s.fview v.val).frame = some g) (hg : stagesServed g.chain s = true)
    (hb : g.started < bandsOf (s.store v.val).height) : exec (.fabBandStart v) s = .next (enterBand v.val g s) := by
  show execFabBandStart v s = _
  simp only [execFabBandStart, hr, hf, hg, hb, Bool.not_true, decide_true, Bool.and_self, Bool.false_eq_true, if_false, if_true]

section
variable (hc : chainLive v.val s = true) {g : FabFrame} (hf : (s.fview v.val).frame = none) (hn : nextFrame v.val s = some g)
include hc hf hn

theorem fabBandStart_enters (hi : isReferenced v.val g.fofs.toNat s = true) (hg : stagesServed (s.fview v.val).chain s = true) :
    exec (.fabBandStart v) s = .next (enterFrame v.val g s) := by
  show execFabBandStart v s = _
  simp only [execFabBandStart, hr, hf, hc, hn, hi, hg, Bool.not_true, Bool.false_eq_true, if_false, if_true]

theorem fabBandStart_unreferenced (hi : isReferenced v.val g.fofs.toNat s = false) (hg : g.composed = true) :
    exec (.fabBandStart v) s = .next (s.onFview v.val fun f => { f with waiting := none, unrefCnt := sat f.unrefCnt }) := by
  show execFabBandStart v s = _
  simp only [execFabBandStart, hr, hf, hc, hn, hi, hg, Bool.not_true, Bool.not_false, Bool.false_eq_true, if_false, if_true]
  rw [countUnref, onFview_onFview]

end
end

/-! ### The canvas rows that a band needs -/

section
variable {v : Nat} {s : State} (hs : s.sound)
include hs

theorem storeRows_sound (n : Nat) (c : Composing) : (storeRows v n c s).sound := by
  unfold storeRows
  split
  · exact hs
  · exact portWrite_sound _ _ hs

/-- In sound memory the canvas reads well, and the frame stays. -/
theorem readCanvas_fab (g : FabFrame) (lo hi : Nat) : (readCanvas v g lo hi s).fab = s.fab := by
  unfold readCanvas
  cases (s.fview v).canvas[g.surface]? with
  | none => rfl
  | some a =>
    obtain ⟨hbad, hfab⟩ := portRead_sound (q := { port := 3, addr := a + lo * ((s.cview v).cfg.width * 8) }) rfl rfl
      ((hi - lo) * ((s.cview v).cfg.width * 8)) hs
    dsimp only
    rw [if_pos (by rw [hbad]; rfl)]
    exact hfab

/-- In sound memory a band enters the frame in the fabric. -/
theorem enterBand_frame (hv : v < 5) (g : FabFrame) : ((enterBand v g s).fview v).frame = some { g with started := g.started + 1 } := by
  unfold enterBand
  lift_lets
  intro warp n u before
  have hu : u.sound := by
    dsimp only [u]
    split
    · exact hs
    · split
      · exact storeRows_sound hs n _
      · exact hs
  clear_value u
  have hfab := readCanvas_fab (v := v) (s := u.onFview v fun f => { f with frame := some { g with started := g.started + 1 } })
    (sound_of_mem rfl hu) g before n
  rw [State.fview, hfab]
  exact congrArg FabView.frame (State.onFview_self u v _ hv)

end

/-! ## The end of a band (R378, R391) -/

/-- The frame counts of the views in the fabric. -/
def State.frameCnts (s : State) : Vector (BitVec 32) 5 := s.fab.views.map FabView.frameCnt

section
variable (s : State)

theorem onFview_frameCnts (v : Nat) {f : FabView → FabView} (hf : ∀ x, (f x).frameCnt = x.frameCnt) : (s.onFview v f).frameCnts = s.frameCnts :=
  map_upd _ _ _ _ hf

theorem slcRaise_fab (b : BitVec 15) : (slcRaise b s).fab = s.fab := (only_fab (slcRaise_only b s (onlyReports_refl _))).trans rfl

theorem slcRaise_frameCnts (b : BitVec 15) : (slcRaise b s).frameCnts = s.frameCnts := by
  rw [State.frameCnts, slcRaise_fab, State.frameCnts]

theorem countWait_frameCnts (v : Nat) (first : Bool) : (countWait v first s).frameCnts = s.frameCnts := by
  unfold countWait
  lift_lets
  intro noBuf u
  have hu : u.frameCnts = s.frameCnts := by
    dsimp only [u]
    split
    · exact onFview_frameCnts s v fun _ => rfl
    · rfl
  clear_value u
  split
  · exact (slcRaise_frameCnts _ _).trans hu
  · exact hu

theorem countBand_frameCnts (v band : Nat) (c : RoleChain) : (countBand v band c s).frameCnts = s.frameCnts := by
  unfold countBand
  refine foldl_keeps (g := State.frameCnts) (fun t x => ?_) _ s
  lift_lets
  intro ns
  cases ns <;> rfl

end

section
variable {v : Fin 5} {s : State} {g : FabFrame} (hf : (s.fview v.val).frame = some g)
include hf

/-- The last stage waits while its band has not been taken. -/
theorem fabBandDone_waits (h : g.offered < g.done) : exec (.fabBandDone v) s = .next s := by
  show execFabBandDone v s = _
  simp only [execFabBandDone, hf, h, decide_true, Bool.or_true, if_true]

/-- The counts that a finished band of frame g of view v moves on. -/
def bandCounted (v n : Nat) (g : FabFrame) (s : State) : State :=
  let s := countWait v (g.done == 0) s
  if (g.done + 1) % n = 0 then countBand v (g.done / n) g.chain s else s

omit hf in
theorem bandCounted_frameCnts (v n : Nat) (g : FabFrame) (s : State) : (bandCounted v n g s).frameCnts = s.frameCnts := by
  unfold bandCounted
  split
  · exact (countBand_frameCnts ..).trans (countWait_frameCnts ..)
  · exact countWait_frameCnts ..

theorem fabBandDone_counts (hr : fabRuns s = true) (hg : stagesServed g.chain s = true)
    (hb : g.done < g.started * colourCount (s.store v.val).colours) (ho : g.done ≤ g.offered) :
    ∃ t, exec (.fabBandDone v) s = .next t ∧ (t.fview v.val).frame = some { g with done := g.done + 1 } ∧
      (t.fview v.val).frameCnt = (s.fview v.val).frameCnt := by
  let u := bandCounted v.val (colourCount (s.store v.val).colours) g s
  refine ⟨u.onFview v.val fun f => { f with frame := some { g with done := g.done + 1 } }, ?_, ?_, ?_⟩
  · show execFabBandDone v s = _
    simp only [execFabBandDone, hf, hr, hg, Nat.not_le.2 hb, Nat.not_lt.2 ho, Bool.not_true, Bool.or_self, decide_false, Bool.false_eq_true,
      if_false]
    rfl
  · rw [State.onFview_self _ _ _ v.isLt]
  · rw [State.onFview_self _ _ _ v.isLt]
    exact nth_of_map_eq (g := FabView.frameCnt) (bandCounted_frameCnts ..) v.val

end

/-! ## Symbol surfaces (R386, R387) -/

section
variable {v : Fin 5} {f : BitVec 2} {s : State} {a : Nat} (hr : fabRuns s = true) (hs : symbServed v.val s = true)
  (hn : (s.fview v.val).symbRun = none) (hf : f.toNat < framesOf v.val s) (ha : (s.fview v.val).symbSurf[symbTarget v.val s]? = some a)
include hr hs hn hf ha

theorem execSymbRenderStart_runs : exec (.symbRenderStart v f) s = .next
    (let r := readGlyphs (nth s.xcl.symList v.val) s
    if r.2 then r.1
    else (portWrite { port := 3, addr := a }
        (symbolBytes (nth s.xcl.symList v.val) (s.cview v.val).cfg.width (s.cview v.val).cfg.height s) r.1).onFview v.val fun x => { x with
      symbRun := some (BitVec.ofNat 64 (startPeriod v.val f.toNat (16777216 / framesOf v.val s) s), f), symbTo := symbTarget v.val s
      symbDone := if symbTarget v.val s = x.symbIdx then none else x.symbDone }) := by
  show execSymbRenderStart v f s = _
  simp only [execSymbRenderStart, hr, hs, hn, ha, Nat.not_le.2 hf, Bool.not_true, Option.isSome_none, Bool.or_self, decide_false,
    Bool.false_eq_true, if_false]

/-- A glyph that reads badly ends the rendering; else it is taken on. -/
theorem symbRenderStart_taken :
    let r := readGlyphs (nth s.xcl.symList v.val) s
    (r.2 = true → exec (.symbRenderStart v f) s = .next r.1) ∧
    (r.2 = false → ∃ t b, exec (.symbRenderStart v f) s = .next t ∧ t = (portWrite { port := 3, addr := a } b r.1).onFview v.val fun x => { x with
      symbRun := some (BitVec.ofNat 64 (startPeriod v.val f.toNat (16777216 / framesOf v.val s) s), f), symbTo := symbTarget v.val s
      symbDone := if symbTarget v.val s = x.symbIdx then none else x.symbDone }) := by
  have hx := execSymbRenderStart_runs hr hs hn hf ha
  intro r
  constructor
  · intro h
    rw [hx]
    exact congrArg Host.Outcome.next (if_pos h)
  · intro h
    exact ⟨_, _, hx.trans (congrArg Host.Outcome.next (if_neg (by rw [h]; decide))), rfl⟩

end

/-- A rendering never draws into the surface that a frame composes from. -/
theorem symbTarget_free {v : Nat} {s : State} {c : Composing} {a : Nat} (hc : (s.cview v).composing = some c) (ha : c.symb = some a)
    (hd : (s.fview v).symbSurf[(s.fview v).symbIdx]? ≠ (s.fview v).symbSurf[1 - (s.fview v).symbIdx]?) :
    (s.fview v).symbSurf[symbTarget v s]? ≠ some a := by
  have ht : symbTarget v s = if (s.fview v).symbSurf[1 - (s.fview v).symbIdx]? = some a then (s.fview v).symbIdx else 1 - (s.fview v).symbIdx := by
    simp only [symbTarget, hc, Option.bind_some, ha]
  rw [ht]
  split
  next h => rwa [← h]
  next h => exact h

theorem symbRenderDone_completes {v : Fin 5} {s : State} {r : BitVec 64 × BitVec 2} (hr : fabRuns s = true)
    (hn : (s.fview v.val).symbRun = some r) : exec (.symbRenderDone v) s = .next (s.onFview v.val fun f => { f with
      symbRun := none, symbDone := some r, symbIdx := f.symbTo }) := by
  show execSymbRenderDone v s = _
  simp only [execSymbRenderDone, hr, hn, if_true]

end Sys2Proof.Machine

namespace Sys2Proof.Proofs
open Sys2Proof.Machine

/-- Settles O56: the equations of each event under its conditions; a band's canvas rows read well in sound memory. -/
theorem framesAreComposedAndProcessed : Obligations.FramesAreComposedAndProcessed := by
  unfold Obligations.FramesAreComposedAndProcessed
  refine ⟨fun v f s hl hs hp hc hv hf => ⟨cmpFrameStart_skips hl hs hp hc hv hf, cmpFrameStart_late hl hs hp hc hv hf, fun hn h => ?_⟩,
    fun v c s hl hc => ?_, fun n s hl hg => ⟨clusterLoadDone_loads hl hg, clusterLoadDone_domainOff⟩,
    fun n s hl hd hc hb => ?_, fun n s hl hn => ?_, fun v s hr hc => ⟨fun g hf hg hb => ⟨fabBandStart_next hr hf hg hb, fun hfence hpoison =>
        enterBand_frame ⟨hfence, hpoison⟩ v.isLt g⟩,
      fun g hf hn => ⟨fabBandStart_enters hr hc hf hn, fabBandStart_unreferenced hr hc hf hn⟩, fun g hf => fabBandDone_waits hf,
      fun g hf hg hb ho => fabBandDone_counts hf hr hg hb ho⟩,
    fun v f s a hr hs hn hf ha => symbRenderStart_taken hr hs hn hf ha, fun v s c a hc ha hd => symbTarget_free hc ha hd,
    fun v s r hr hn => symbRenderDone_completes hr hn⟩
  · obtain ⟨c, hcomp, hfofs, hcfg, hperiod, hlayers⟩ := startFrame_composing v (startPeriod v.val f.toNat 0 s) f.toNat s
    exact ⟨_, c, cmpFrameStart_starts hl hs hp hc hv hf hn h, hcomp, by rw [hfofs, BitVec.ofNat_toNat, BitVec.setWidth_eq], hcfg, hperiod, hlayers⟩
  · obtain ⟨t, ht, hout⟩ := cmpFrameDone_counts hl hc
    obtain ⟨hcomp, hcnt, hplane, hreserve⟩ : _ ∧ _ ∧ _ ∧ _ := by simpa only [State.composed, Prod.mk.injEq] using hout
    exact ⟨t, ht, hcomp, hcnt, hplane, hreserve⟩
  · obtain ⟨t, ht, hcl⟩ := clusterDrainDone_drained hl hd hc hb
    exact ⟨t, ht, by rw [hcl]; rfl, by rw [hcl]; rfl, by rw [hcl]; rfl⟩
  · obtain ⟨t, ht, hsticky, hcl⟩ := fabSramUe_faults hl hn
    exact ⟨t, ht, by rw [hcl], hsticky, by rw [hcl], by rw [hcl]; rfl, by rw [hcl]; rfl⟩

end Sys2Proof.Proofs
end

section
/-!
PROOFS. What every step keeps of the queue and of the memories (R396, R397, R437). O1, O3 and O4 are settled here.
-/
namespace Sys2Proof.Machine

theorem step_of_pending {c : Instr} {rest : List Instr} {s : State} (h : s.pending = c :: rest) :
    step s = exec c { s with pending := rest } := by
  rw [step, h]

theorem step_memoryWf {s t : State} (hm : Memory.wf s.mem = true) (h : step s = .next t) : Memory.wf t.mem = true := by
  obtain ⟨_, _, hk⟩ := step_keepsInv h
  exact hk.mem hm

end Sys2Proof.Machine

namespace Sys2Proof.Proofs
open Sys2Proof.Machine

/-- Settles O1: the step's own case of a command in the queue. -/
theorem stepRunsTheFrontCommand : Obligations.StepRunsTheFrontCommand := fun _ _ _ h => step_of_pending h

/-- Settles O3: the queue is what the relation of every command keeps. -/
theorem execKeepsTheQueue : Obligations.ExecKeepsTheQueue := fun _ _ _ h => (exec_keepsInv h).queue

/-- Settles O4: every command and the idle nanosecond keep the canonical form, also from the state whose queues the step has shortened. -/
theorem stepKeepsMemoryCanonical : Obligations.StepKeepsMemoryCanonical := fun _ _ hm h => step_memoryWf hm h

end Sys2Proof.Proofs
end

section
/-!
PROOFS. A command's entry and its bytes (R6, R438): each header field is read where it has been written. O10 is settled here.
-/
namespace Sys2Proof.Machine

/-! ## Fields of a byte string (R6) -/

@[simp] theorem leBytes_length (n x : Nat) : (leBytes n x).length = n := by
  induction n generalizing x with
  | zero => rfl
  | succ n ih => simp [leBytes, ih]

/-- The bytes of a number are those of its low part and then those of the rest. -/
theorem leBytes_add (m n x : Nat) : leBytes (m + n) x = leBytes m x ++ leBytes n (x / 256 ^ m) := by
  induction m generalizing x with
  | zero => simp [leBytes]
  | succ m ih =>
    rw [Nat.succ_add, leBytes, ih, leBytes, Nat.div_div_eq_div_mul, pow_succ', List.cons_append]

section
variable {b l : List Byte} {o n x : Nat}

theorem drop_leBytes_rest {m : Nat} (h : b.drop o = leBytes (m + n) x ++ l) :
    b.drop (o + m) = leBytes n (x / 256 ^ m) ++ l := by
  rw [← List.drop_drop, h, leBytes_add, List.append_assoc, List.drop_left' (leBytes_length ..)]

/-! The bytes of x stand at offset o: a field of 1, 2, 4 or 8 bytes there reads the low part of x. -/

theorem u8_of_drop (h : b.drop o = leBytes 1 x ++ l) : u8 b o = x % 256 := by
  have hb : b[o]? = some (BitVec.ofNat 8 x) := by
    have h0 := congrArg (·[0]?) h
    simpa [leBytes, List.getElem?_drop] using h0
  simp [u8, hb]

theorem u16_of_drop (h : b.drop o = leBytes 2 x ++ l) : u16 b o = x % 65536 := by
  have hlo : b.drop o = leBytes 1 x ++ (leBytes 1 (x / 256) ++ l) := by
    rw [h, show (2 : Nat) = 1 + 1 from rfl, leBytes_add, List.append_assoc]; rfl
  rw [u16, u8_of_drop hlo, u8_of_drop (drop_leBytes_rest (m := 1) (n := 1) h)]
  omega

theorem u32_of_drop (h : b.drop o = leBytes 4 x ++ l) : u32 b o = x % 4294967296 := by
  have hlo : b.drop o = leBytes 2 x ++ (leBytes 2 (x / 65536) ++ l) := by
    rw [h, show (4 : Nat) = 2 + 2 from rfl, leBytes_add, List.append_assoc]; rfl
  rw [u32, u16_of_drop hlo, u16_of_drop (drop_leBytes_rest (m := 2) (n := 2) h)]
  omega

theorem u64_of_drop (h : b.drop o = leBytes 8 x ++ l) : u64 b o = x % 18446744073709551616 := by
  have hlo : b.drop o = leBytes 4 x ++ (leBytes 4 (x / 4294967296) ++ l) := by
    rw [h, show (8 : Nat) = 4 + 4 from rfl, leBytes_add, List.append_assoc]; rfl
  rw [u64, u32_of_drop hlo, u32_of_drop (drop_leBytes_rest (m := 4) (n := 4) h)]
  omega

end

section
variable {b l : List Byte} {o : Nat}

/-! A register word whose bytes stand at offset o is read back. -/

theorem word16_of_drop {x : BitVec 16} (h : b.drop o = leBytes 2 x.toNat ++ l) : BitVec.ofNat 16 (u16 b o) = x := by
  rw [u16_of_drop h, show (65536 : Nat) = 2 ^ 16 from rfl, BitVec.toNat_mod_cancel, BitVec.ofNat_toNat, BitVec.setWidth_eq]

theorem word32_of_drop {x : BitVec 32} (h : b.drop o = leBytes 4 x.toNat ++ l) : BitVec.ofNat 32 (u32 b o) = x := by
  rw [u32_of_drop h, show (4294967296 : Nat) = 2 ^ 32 from rfl, BitVec.toNat_mod_cancel, BitVec.ofNat_toNat, BitVec.setWidth_eq]

theorem word64_of_drop {x : BitVec 64} (h : b.drop o = leBytes 8 x.toNat ++ l) : BitVec.ofNat 64 (u64 b o) = x := by
  rw [u64_of_drop h, show (18446744073709551616 : Nat) = 2 ^ 64 from rfl, BitVec.toNat_mod_cancel, BitVec.ofNat_toNat, BitVec.setWidth_eq]

end

/-! ## The entry of a command (R438) -/

theorem slice_self_prefix (l : List Byte) (n : Nat) : slice (slice l 0 n) 0 n = slice l 0 n := by simp [slice]

/-- The bytes of a command's entry parse back to it. -/
theorem parse_bytes (op : BitVec 16) (c : Cmd) : RawEntry.parse c.host c.ring { bytes := Cmd.bytes op c, ptr := c.ptr } =
    (op, { c with inl := slice c.inl 0 224 }) := by
  have hop : BitVec.ofNat 16 (u16 (Cmd.bytes op c) 0) = op := word16_of_drop rfl
  have hflags : BitVec.ofNat 8 (u8 (Cmd.bytes op c) 2) = c.flags := BitVec.ofNat_toNat ..|>.trans (BitVec.setWidth_eq _)
  have hversion : BitVec.ofNat 8 (u8 (Cmd.bytes op c) 3) = c.version := BitVec.ofNat_toNat ..|>.trans (BitVec.setWidth_eq _)
  have hseq : BitVec.ofNat 32 (u32 (Cmd.bytes op c) 4) = c.seq := word32_of_drop rfl
  have htclass : BitVec.ofNat 16 (u16 (Cmd.bytes op c) 8) = c.tclass := word16_of_drop rfl
  have htindex : BitVec.ofNat 16 (u16 (Cmd.bytes op c) 10) = c.tindex := word16_of_drop rfl
  have hepoch : BitVec.ofNat 16 (u16 (Cmd.bytes op c) 12) = c.epoch := word16_of_drop rfl
  have hplen : BitVec.ofNat 16 (u16 (Cmd.bytes op c) 14) = c.plen := word16_of_drop rfl
  have hcorr : BitVec.ofNat 64 (u64 (Cmd.bytes op c) 16) = c.corr := word64_of_drop rfl
  have happly : BitVec.ofNat 32 (u32 (Cmd.bytes op c) 24) = c.applyAt := word32_of_drop rfl
  have hcrc : BitVec.ofNat 32 (u32 (Cmd.bytes op c) 28) = c.crc := word32_of_drop rfl
  have hinl : slice (Cmd.bytes op c) 32 224 = slice c.inl 0 224 := slice_self_prefix c.inl 224
  simp only [RawEntry.parse, hop, hflags, hversion, hseq, htclass, htindex, hepoch, hplen, hcorr, happly, hcrc, hinl]

end Sys2Proof.Machine

namespace Sys2Proof.Proofs
open Sys2Proof.Machine

/-- Settles O10: the entry read back field by field. -/
theorem entryReadsBack : Obligations.EntryReadsBack := parse_bytes

end Sys2Proof.Proofs
end

section
/-!
PROOFS. What the device's sending leaves as it is (R448, R450, R451, R475): messages, replies, events and log records move no journal entry, no
session, no core and no command in hand, and take nothing out of the outbox.
-/
namespace Sys2Proof.Machine

/-- What the host interface holds beside what it sends: the journal, the sessions, the cores, and the commands in hand. -/
structure Books where
  jseq : BitVec 64
  journal : List JEntry
  sess : Vector Session 4
  cores : Vector CpCore 4
  deferred : List Held
  awaiting : List Held
  waiting : List Held

def State.books (s : State) : Books where
  jseq := s.hif.jseq
  journal := s.hif.journal
  sess := s.hif.sess
  cores := s.hif.cores
  deferred := s.hif.deferred
  awaiting := s.hif.awaiting
  waiting := s.hif.waiting

/-- From s to t the device has only sent: messages, replies, events and log records. -/
structure Sends (s t : State) : Prop where
  only : onlyReports s t
  books : t.books = s.books
  out : ∀ x ∈ s.hif.outbox, x ∈ t.hif.outbox

theorem Sends.refl (s : State) : Sends s s := ⟨onlyReports_refl s, rfl, fun _ => id⟩

section
variable {s t u : State} {c : Prop} [Decidable c]

theorem Sends.trans (h : Sends s t) (k : Sends t u) : Sends s u :=
  ⟨onlyReports_trans h.only k.only, k.books.trans h.books, fun x hx => k.out x (h.out x hx)⟩

theorem Sends.ite (h : Sends s t) (k : Sends s u) : Sends s (if c then t else u) := by
  split
  · exact h
  · exact k

theorem Sends.jseq (h : Sends s t) : t.hif.jseq = s.hif.jseq := congrArg Books.jseq h.books
theorem Sends.journal (h : Sends s t) : t.hif.journal = s.hif.journal := congrArg Books.journal h.books
theorem Sends.sess (h : Sends s t) : t.hif.sess = s.hif.sess := congrArg Books.sess h.books
theorem Sends.cores (h : Sends s t) : t.hif.cores = s.hif.cores := congrArg Books.cores h.books
theorem Sends.deferred (h : Sends s t) : t.hif.deferred = s.hif.deferred := congrArg Books.deferred h.books
theorem Sends.awaiting (h : Sends s t) : t.hif.awaiting = s.hif.awaiting := congrArg Books.awaiting h.books
theorem Sends.waiting (h : Sends s t) : t.hif.waiting = s.hif.waiting := congrArg Books.waiting h.books

end

/-! ## Messages, log records and sticky bits -/

section
variable (s : State)

theorem msix_sends (h v : Nat) : Sends s (msix h v s) := by
  refine ⟨msix_only h v s (onlyReports_refl s), ?_, ?_⟩
  all_goals
    unfold msix
    dsimp only
    split
  · rfl
  · rfl
  · exact fun _ => id
  · exact fun _ => List.mem_cons_of_mem _

theorem signal_sends (v : Nat) : Sends s (signal v s) := by
  unfold signal
  lift_lets
  intro s1 s2
  have h1 : Sends s s1 := .ite (msix_sends s 0 v) (.refl s)
  have h2 : Sends s s2 := .ite (h1.trans (msix_sends s1 1 v)) h1
  exact .ite (h2.trans ⟨only_onHif (onlyReports_refl _) _ rfl, rfl, fun _ => List.mem_cons_of_mem _⟩) h2

theorem printRec_sends (r : LogRec) : Sends s (printRec r s) := by
  refine ⟨printRec_only r s (onlyReports_refl s), rfl, fun x hx => ?_⟩
  show x ∈ if _ then _ else _
  split
  · exact hx
  · exact List.mem_cons_of_mem _ hx

theorem flushFull_sends : Sends s (flushFull s) :=
  .ite ⟨only_onMgt (onlyReports_refl s) _ rfl, rfl, fun _ => id⟩ (.refl s)

theorem logRec_sends (vec code : Nat) (off bits : BitVec 32) : Sends s (logRec vec code off bits s) := by
  have log (u : State) (f : Mgt → Mgt) (hf : onlyReports u (u.onMgt f)) : Sends u (u.onMgt f) := ⟨hf, rfl, fun _ => id⟩
  unfold logRec
  split
  · exact ((log s _ (only_onMgt (onlyReports_refl s) _ rfl)).trans (printRec_sends _ _)).trans (flushFull_sends _)
  · have hset : Sends s (s.onHif fun x => { x with hwSet := (0x10004, 0x40) :: x.hwSet }) :=
      ⟨only_onHif (onlyReports_refl s) _ rfl, rfl, fun _ => id⟩
    exact hset.trans (.ite (log _ _ (only_onMgt (onlyReports_refl _) _ rfl))
      ((log _ _ (only_onMgt (onlyReports_refl _) _ rfl)).trans (signal_sends _ 20)))

theorem stickyUp_sends {w : Nat} (vec off : Nat) (old b : BitVec w) : Sends s (stickyUp vec off old b s) := by
  have hset : Sends s (s.onHif fun x => { x with hwSet := (off, b.setWidth 32) :: x.hwSet }) :=
    ⟨only_onHif (onlyReports_refl s) _ rfl, rfl, fun _ => id⟩
  exact .ite hset (hset.trans ((logRec_sends ..).trans (signal_sends ..)))

theorem hifRaise_sends (b : BitVec 11) : Sends s (hifRaise b s) :=
  .trans ⟨only_onHif (onlyReports_refl s) (fun x => { x with sticky := x.sticky ||| b }) rfl, rfl, fun _ => id⟩ (stickyUp_sends ..)

/-! ## Replies and events -/

theorem writeReply_sends (r : Reply) : Sends s (writeReply r s) := by
  refine ⟨writeReply_only r s (onlyReports_refl s), ?_, ?_⟩
  all_goals
    unfold writeReply
    split
  · rfl
  · split
    · rfl
    · dsimp only
      split
      · exact (msix_sends ..).books
      · rfl
  · exact fun _ => List.mem_cons_of_mem _
  · split
    · exact fun _ => id
    · dsimp only
      split
      · exact fun x hx => (msix_sends ..).out x (List.mem_cons_of_mem _ hx)
      · exact fun _ => id

theorem replyQ_sends (f : List Reply → List Reply) : Sends s (s.onHif fun x => { x with replyQ := f x.replyQ }) :=
  ⟨only_onHif (onlyReports_refl s) _ rfl, rfl, fun _ => id⟩

theorem writeReplies_sends (rs : List Reply) : Sends s (writeReplies rs s) := by
  induction rs generalizing s with
  | nil => exact .refl s
  | cons r rs ih =>
    unfold writeReplies
    split
    · exact (writeReply_sends s r).trans (ih _)
    · exact (ih s).trans (replyQ_sends _ (r :: ·))

theorem flushReplies_sends : Sends s (flushReplies s) := (replyQ_sends s fun _ => []).trans (writeReplies_sends ..)

theorem queueReply_sends (r : Reply) : Sends s (queueReply r s) := (replyQ_sends s (· ++ [r])).trans (flushReplies_sends _)

theorem replyUnlessQuiet_sends (h : Held) (st : Status) (r : Reply) : Sends s (replyUnlessQuiet h st r s) :=
  .ite (.refl s) (queueReply_sends s r)

theorem sendEvent_sends (host : HostId) (code : BitVec 16) (detail : BitVec 32) (vec : Nat) :
    Sends s (sendEvent host code detail vec s) := by
  unfold sendEvent
  lift_lets
  intro ss r ring ok s1
  have hdrop : Sends s (s.onHif fun x => { x with evtDropCnt := sat x.evtDropCnt }) :=
    ⟨only_onHif (onlyReports_refl s) _ rfl, rfl, fun _ => id⟩
  have h1 : Sends s s1 := .ite (writeReply_sends s r) (hdrop.trans (hifRaise_sends ..))
  exact h1.trans (signal_sends ..)

theorem checkSeq_sends (c : Cmd) : Sends s (checkSeq c s) := by
  refine ⟨checkSeq_only c s (onlyReports_refl s), ?_, ?_⟩
  all_goals
    unfold checkSeq
    split
  · rfl
  · dsimp only [State.onHif]
    split
    · split
      · rfl
      · exact (hifRaise_sends ..).books
    · rfl
  · exact fun _ => id
  · dsimp only [State.onHif]
    split
    · split
      · exact fun _ => id
      · exact (hifRaise_sends ..).out
    · exact fun _ => id

end

end Sys2Proof.Machine
end

section
/-!
PROOFS. What acceptance enters in the journal and counts (R439, R442 to R448, R453): a refused command, one with a bad CRC, one that waits, and one
that runs. O11 to O14 are settled here.
-/
namespace Sys2Proof.Machine

/-! ## The books at the checks -/

section
variable (c : Cmd) (s : State)

theorem countCore_books : (countCore c s).books = { s.books with cores := (countCore c s).hif.cores } := by
  unfold countCore
  split <;> rfl

theorem atChecks_books : (atChecks c s).books = { s.books with
    cores := (countCore c s).hif.cores, sess := upd s.hif.sess c.host.toNat fun q => { q with leaseStart := s.ns } } := by
  have hb : (checkSeq c (countCore c s)).books = { s.books with cores := (countCore c s).hif.cores } :=
    (checkSeq_sends ..).books.trans (countCore_books c s)
  have hns : (checkSeq c (countCore c s)).ns = s.ns :=
    only_ns (checkSeq_only c _ (countCore_only c s (onlyReports_refl s)))
  have hsess : (checkSeq c (countCore c s)).hif.sess = s.hif.sess := congrArg Books.sess hb
  show ({ (checkSeq c (countCore c s)).books with
    sess := upd (checkSeq c (countCore c s)).hif.sess c.host.toNat fun q => { q with leaseStart := (checkSeq c (countCore c s)).ns } } : Books) = _
  rw [hb, hns, hsess]

theorem atChecks_journal : (atChecks c s).hif.journal = s.hif.journal := congrArg Books.journal (atChecks_books c s)
theorem atChecks_waiting : (atChecks c s).hif.waiting = s.hif.waiting := congrArg Books.waiting (atChecks_books c s)
theorem atChecks_sess : (atChecks c s).hif.sess = upd s.hif.sess c.host.toNat fun q => { q with leaseStart := s.ns } :=
  congrArg Books.sess (atChecks_books c s)

/-- The renewal of the lease leaves a session's counts. -/
theorem atChecks_sessField {β : Type} {g : Session → β} (hg : ∀ (q : Session) n, g { q with leaseStart := n } = g q) (i : Nat) :
    g (nth (atChecks c s).hif.sess i) = g (nth s.hif.sess i) := by
  rw [atChecks_sess]
  exact nth_of_map_eq (map_upd _ _ _ _ fun q => hg q s.ns) i

end

/-- No host's number lies beyond the sessions. -/
theorem host_lt (h : HostId) : h.toNat < 4 := h.isLt

/-! ## The newest entry of the journal (R453) -/

/-- The entry as the journal takes it at s. -/
def JEntry.stamped (e : JEntry) (s : State) : JEntry :=
  { e with jseq := s.hif.jseq + 1, frame := s.frame, tick := BitVec.ofNat 24 s.tick }

section
variable (e : JEntry) (s : State)

/-- Outside RECOVERY an entry is added in front of the others, under the next JSEQ. -/
theorem journalAdd_books (hr : s.mgt.st ≠ .recovery) : (journalAdd e s).books =
    { s.books with jseq := s.hif.jseq + 1, journal := (e.stamped s :: s.hif.journal).take journalSize } := by
  rw [journalAdd, if_neg hr]
  rfl

theorem journalAdd_sess : (journalAdd e s).hif.sess = s.hif.sess := by
  unfold journalAdd
  split <;> rfl

end

/-! ## A refusal (R442, R447) -/

section
variable (op : BitVec 16) (c : Cmd) (r : Refuse) (s : State)

/-- The state of a refused command before its reply. -/
def refuseCounted : State :=
  (journalAdd (heldEntry { opcode := op, cmd := c } .accept r.status r.detail s) s).onHif fun x => { x with
    sess := upd x.sess c.host.toNat fun q => { q with refuseCnt := sat q.refuseCnt } }

theorem refuse_sends : Sends (refuseCounted op c r s) (refuse op c r s) := queueReply_sends ..

theorem refuse_refuseCnt : (nth (refuse op c r s).hif.sess c.host.toNat).refuseCnt = sat (nth s.hif.sess c.host.toNat).refuseCnt := by
  rw [(refuse_sends op c r s).sess]
  show (nth (upd (journalAdd _ s).hif.sess _ _) _).refuseCnt = _
  rw [nth_upd_self _ _ _ (host_lt c.host), journalAdd_sess]

/-- Outside RECOVERY the refused command's ACCEPT entry is the newest. -/
theorem refuse_journal (hr : s.mgt.st ≠ .recovery) : (refuse op c r s).hif.jseq = s.hif.jseq + 1 ∧ ∃ rest, (refuse op c r s).hif.journal =
    (heldEntry { opcode := op, cmd := c } .accept r.status r.detail s).stamped s :: rest := by
  have hb := journalAdd_books (heldEntry { opcode := op, cmd := c } .accept r.status r.detail s) s hr
  rw [(refuse_sends op c r s).jseq, (refuse_sends op c r s).journal]
  exact ⟨congrArg Books.jseq hb, _, congrArg Books.journal hb⟩

/-! ## A bad CRC (R442 step 1) -/

theorem refuseCrc_sends : Sends (s.onHif fun x => { x with sess := upd x.sess c.host.toNat fun q => { q with badCrcCnt := sat q.badCrcCnt } })
    (refuseCrc op c s) := queueReply_sends ..

end

/-- An entry that is read at once, whatever its CRC. -/
theorem accept_now {sp : OpSpec} {c : Cmd} {s : State} (hd : deaf c s = false) (hs : ringStops c s = false) (hw : ringWaits c s = false) :
    accept sp c s = acceptNow sp c s := by
  simp only [accept, hd, hs, hw, Bool.or_self, Bool.false_eq_true, if_false]

theorem accept_badCrc {sp : OpSpec} {c : Cmd} {s : State} (hd : deaf c s = false) (hs : ringStops c s = false) (hw : ringWaits c s = false)
    (hc : Cmd.crcOk sp.op c = false) : accept sp c s = refuseCrc sp.op c (atChecks c s) := by
  rw [accept_now hd hs hw, acceptNow, hc]
  rfl

/-! ## A command that waits (R439, R445) -/

/-- A command ring without what reports change: why it waits, and its previous SEQ. -/
def CRing.settings (q : CRing) : CRing := { q with waitFence := false, waitReply := false, lastSeq := none }

/-- A change of one command ring that its settings do not see. -/
theorem hif_cring (x : Hif) (h r : Nat) {f : CRing → CRing} (hf : ∀ q, (f q).settings = q.settings) :
    Hif.settings { x with pcie := upd x.pcie h fun g => { g with crings := upd g.crings r f } } = x.settings := by
  have hg (g : PcieFn) : PcieFn.settings { g with crings := upd g.crings r f } = g.settings :=
    congrArg (fun v : Vector CRing 4 => ({ g.settings with crings := v } : PcieFn)) (map_upd g.crings r f CRing.settings hf)
  simp only [Hif.settings, map_upd _ _ _ _ hg]

theorem waitCmd_only (op : BitVec 16) (c : Cmd) (s : State) : onlyReports s (waitCmd op c s) := by
  have hw : onlyReports s (s.onHif fun x => { x with waiting := x.waiting ++ [{ opcode := op, cmd := c }] }) :=
    only_onHif (onlyReports_refl s) _ rfl
  exact only_ite hw (only_onHif hw _ (hif_cring _ _ _ fun _ => rfl))

theorem waitCmd_books (op : BitVec 16) (c : Cmd) (s : State) :
    (waitCmd op c s).books = { s.books with waiting := s.hif.waiting ++ [{ opcode := op, cmd := c }] } := by
  unfold waitCmd
  dsimp only
  split <;> rfl

/-! ## An accepted command's entry in the lists and counts (R443, R444, R448) -/

section
variable (sp : OpSpec) (c : Cmd) (s : State)

/-- The effect of a command that has passed the checks at s. -/
def effectAt : Done := sp.effect (heldOf sp c s) (journalAdd (heldEntry (heldOf sp c s) .accept .accepted 0 s) s)

/-- The effect's first status is a success: DONE or ACCEPTED. -/
def Done.good (d : Done) : Bool := d.status == .done || d.status == .accepted

theorem Done.good_iff (d : Done) : d.good = true ↔ d.status = .done ∨ d.status = .accepted := by simp [Done.good]

/-- An accepted command after its effect and before its reply: held, entered and counted. -/
def acceptCounted : State :=
  (journalFix (heldOf sp c s) (effectAt sp c s).status (effectAt sp c s).detail (holdCmd sp (heldOf sp c s) (effectAt sp c s))).onHif fun x =>
    { x with sess := upd x.sess c.host.toNat fun q =>
      if (effectAt sp c s).good then { q with cmdCnt := sat q.cmdCnt } else { q with refuseCnt := sat q.refuseCnt } }

theorem acceptOk_sends : Sends (acceptCounted sp c s) (acceptOk sp c s) := .ite (.refl _) (replyUnlessQuiet_sends ..)

theorem acceptCounted_only : onlyReports (effectAt sp c s).st (acceptCounted sp c s) := by
  refine only_onHif (only_onHif (only_onHif (onlyReports_refl _) _ rfl) _ rfl) _ (hif_sess _ _ _ fun q => ?_)
  split <;> rfl

theorem acceptCounted_sess : nth (acceptCounted sp c s).hif.sess c.host.toNat =
    let q := nth (effectAt sp c s).st.hif.sess c.host.toNat
    if (effectAt sp c s).good then { q with cmdCnt := sat q.cmdCnt } else { q with refuseCnt := sat q.refuseCnt } :=
  nth_upd_self _ _ _ (host_lt c.host)

theorem acceptCounted_deferred : (acceptCounted sp c s).hif.deferred =
    (effectAt sp c s).st.hif.deferred ++ if sp.boundary then [heldOf sp c s] else [] := by
  show (if sp.boundary then _ else _) = _
  split
  · rfl
  · exact (List.append_nil _).symm

theorem acceptCounted_awaiting : (acceptCounted sp c s).hif.awaiting = (effectAt sp c s).st.hif.awaiting ++
    if (effectAt sp c s).status = .accepted then [{ heldOf sp c s with sole := (effectAt sp c s).sole }] else [] := by
  show (if (effectAt sp c s).status = .accepted then _ else _) = _
  split
  · rfl
  · exact (List.append_nil _).symm

end

/-- Every row of a host command runs acceptance. -/
theorem exec_hostRow {i : Instr} {sp : OpSpec} {c : Cmd} (h : hostRow i = some (sp, c)) (s : State) :
    exec i s = .next (accept sp c s) := by
  cases i <;> cases h <;> rfl

end Sys2Proof.Machine

namespace Sys2Proof.Proofs
open Sys2Proof.Machine

/-- Settles O11: the refusal's entry, count and reply on the state that the checks leave. -/
theorem refusedCommandOnlyReports : Obligations.RefusedCommandOnlyReports := by
  intro i sp c r s hi href
  refine ⟨_, exec_hostRow hi s, ?_⟩
  rw [accept_refused sp c r s href]
  have hu := atChecks_only c s
  refine ⟨refuse_only _ _ _ _ hu, fun hr => ?entry, ?count⟩
  case entry =>
    obtain ⟨hjseq, rest, hj⟩ := refuse_journal sp.op c r (atChecks c s) (by rwa [only_mgtSt hu])
    rw [atChecks_jseq] at hjseq
    exact ⟨_, rest, hj, by rw [hjseq, ← atChecks_jseq s c]; rfl, hjseq, rfl, rfl, rfl, rfl, rfl, rfl, rfl⟩
  case count => rw [refuse_refuseCnt, atChecks_sessField (g := Session.refuseCnt) c s fun _ _ => rfl]

/-- Settles O12: BAD_CRC is counted and answered on the state that the checks leave, and no entry is made. -/
theorem badCrcIsCountedAndNotJournaled : Obligations.BadCrcIsCountedAndNotJournaled := by
  intro i sp c s hi hd hs hw hc
  refine ⟨_, exec_hostRow hi s, ?_⟩
  rw [accept_badCrc hd hs hw hc]
  have hk := refuseCrc_sends sp.op c (atChecks c s)
  refine ⟨refuseCrc_only _ _ _ (atChecks_only c s), hk.journal.trans (atChecks_journal c s), hk.jseq.trans (atChecks_jseq s c), ?_⟩
  rw [hk.sess, State.onHif_hif, nth_upd_self _ _ _ (host_lt c.host)]
  exact congrArg sat (atChecks_sessField (g := Session.badCrcCnt) c s (fun _ _ => rfl) _)

/-- Settles O13: the two ways by which an entry is not read at once. -/
theorem stoppedRingHoldsItsCommands : Obligations.StoppedRingHoldsItsCommands := by
  intro i sp c s hi
  rw [exec_hostRow hi s]
  refine ⟨fun hd => by rw [accept, if_pos hd], fun hd hw => ⟨_, rfl, ?_⟩⟩
  have hwait : accept sp c s = waitCmd sp.op c s := by
    rw [accept, if_neg (by rw [hd]; decide), if_pos (by simpa using hw)]
  have hb := waitCmd_books sp.op c s
  rw [hwait]
  exact ⟨waitCmd_only sp.op c s, congrArg Books.waiting hb, congrArg Books.journal hb⟩

/-- Settles O14: what acceptance holds and counts beside the effect; the first reply moves none of it. -/
theorem acceptedCommandIsCountedAndHeld : Obligations.AcceptedCommandIsCountedAndHeld := by
  intro i sp c s hi ha
  refine ⟨atEffect sp c s, _, exec_hostRow hi s, atEffect_only sp c s, ?_⟩
  rw [accept_accepted sp c s ha]
  have hk := acceptOk_sends sp c (atChecks c s)
  have hsess := acceptCounted_sess sp c (atChecks c s)
  dsimp only at hsess ⊢
  refine ⟨onlyReports_trans (acceptCounted_only ..) hk.only, hk.deferred.trans (acceptCounted_deferred ..),
    hk.awaiting.trans (acceptCounted_awaiting ..), ?_, ?_⟩
  all_goals
    rw [hk.sess, hsess]
    simp only [Done.good_iff, apply_ite Session.cmdCnt, apply_ite Session.refuseCnt]
    rfl

end Sys2Proof.Proofs
end

section
/-!
PROOFS. Sessions, owners, cores and the journal's commands (R432 to R436, R452, R453, R479). O15, O16 and O17 are settled here.
-/
namespace Sys2Proof.Machine

/-! ## The same change of the host interfaces of two states that differ only in reports -/

/-- A change of one entry, seen through S. -/
theorem map_upd_comm {α β : Type} {n : Nat} (v : Vector α n) (i : Nat) {f : α → α} {S : α → β} {g : β → β} (hf : ∀ x, S (f x) = g (S x)) :
    (upd v i f).map S = upd (v.map S) i g := by
  unfold upd
  split
  · ext j hj
    simp only [Vector.getElem_map, Vector.getElem_set]
    split
    · exact hf _
    · rfl
  · rfl

/-- Two changes of one entry that S does not tell apart. -/
theorem map_upd_congr {α β : Type} {n : Nat} (v : Vector α n) (i : Nat) {f g : α → α} {S : α → β} (hfg : ∀ x, S (f x) = S (g x)) :
    (upd v i f).map S = (upd v i g).map S := by
  unfold upd
  split
  · ext j hj
    simp only [Vector.getElem_map, Vector.getElem_set]
    split
    · exact hfg _
    · rfl
  · rfl

theorem onHif_only {s : State} {f g : Hif → Hif} (hfg : (g s.hif).settings = (f s.hif).settings) : onlyReports (s.onHif f) (s.onHif g) := by
  simp only [onlyReports, State.settings, State.onHif, hfg]

/-- Two changes of one session that differ only in what reports change. -/
theorem onSession_only (s : State) (i : Nat) {f g : Session → Session} (hfg : ∀ q, (g q).settings = (f q).settings) :
    onlyReports (s.onHif fun x => { x with sess := upd x.sess i f }) (s.onHif fun x => { x with sess := upd x.sess i g }) :=
  onHif_only (by simp only [Hif.settings, map_upd_congr _ _ hfg])

/-- Two changes of one core that differ only in what reports change. -/
theorem onCore_only (s : State) (i : Nat) {f g : CpCore → CpCore} (hfg : ∀ q, (g q).settings = (f q).settings) :
    onlyReports (s.onHif fun x => { x with cores := upd x.cores i f }) (s.onHif fun x => { x with cores := upd x.cores i g }) :=
  onHif_only (by simp only [Hif.settings, map_upd_congr _ _ hfg])

section
variable {a s : State} (h : onlyReports a s)
include h

theorem only_hif : s.hif.settings = a.hif.settings := congrArg State.hif h

theorem only_session (i : Nat) : (nth s.hif.sess i).settings = (nth a.hif.sess i).settings :=
  nth_of_map_eq (congrArg Hif.sess (only_hif h)) i

theorem only_isOpen (i : Nat) : (nth s.hif.sess i).isOpen = (nth a.hif.sess i).isOpen :=
  show (nth s.hif.sess i).settings.isOpen = (nth a.hif.sess i).settings.isOpen by rw [only_session h i]

theorem same_onHif_of {f : Hif → Hif} (hf : ∀ x, (f x).settings = f x.settings) : onlyReports (a.onHif f) (s.onHif f) :=
  same_onHif h f (by rw [hf s.hif, only_hif h, ← hf a.hif])

theorem same_session {i : Nat} {f : Session → Session} (hf : ∀ q, (f q).settings = (f q.settings).settings) :
    onlyReports (a.onHif fun x => { x with sess := upd x.sess i f }) (s.onHif fun x => { x with sess := upd x.sess i f }) := by
  let g (x : Hif) : Hif := { x with sess := upd x.sess i fun q => (f q).settings }
  refine same_onHif h _ (Eq.trans ?_ ((congrArg g (only_hif h)).trans ?_))
  all_goals simp only [g, Hif.settings, map_upd_comm (g := fun q => (f q).settings) _ _ hf]

theorem same_core {i : Nat} {f : CpCore → CpCore} (hf : ∀ q, (f q).settings = (f q.settings).settings) :
    onlyReports (a.onHif fun x => { x with cores := upd x.cores i f }) (s.onHif fun x => { x with cores := upd x.cores i f }) := by
  let g (x : Hif) : Hif := { x with cores := upd x.cores i fun q => (f q).settings }
  refine same_onHif h _ (Eq.trans ?_ ((congrArg g (only_hif h)).trans ?_))
  all_goals simp only [g, Hif.settings, map_upd_comm (g := fun q => (f q).settings) _ _ hf]

theorem same_setOwner (k : BitVec 16) (i : Nat) (o : HostId) : onlyReports (a.onHif (setOwner k i o)) (s.onHif (setOwner k i o)) := by
  refine same_onHif_of h fun x => ?_
  unfold setOwner
  split_ifs <;> rfl

end

/-! ## Sessions (R432, R433, R479) -/

/-- A host's role ends. -/
def Sec.noRole (i : Nat) (x : Sec) : Sec := { x with role := upd x.role i fun _ => 0, index := upd x.index i fun _ => 0 }

/-- A session of host i that ends, with the host's role. -/
def State.sessionEnded (i : Nat) (s : State) : State :=
  (s.onHif fun x => { x with sess := upd x.sess i fun q => { q with isOpen := false, lease := false } }).onSec (Sec.noRole i)

/-- The session that SESSION_OPEN opens with payload b. -/
def Session.opened (b : List Byte) (q : Session) : Session :=
  { q with
    isOpen := true, number := q.number + 1, lease := u16 b 0 != 0, leaseMs := BitVec.ofNat 16 (u16 b 0)
    evRing := BitVec.ofNat 2 (u8 b 2), noEvRing := bitOf (u8 b 2) 7, mask := BitVec.ofNat 16 (u16 b 4) }

/-- The state with a session opened for host i. -/
def State.sessionOpened (i : Nat) (b : List Byte) (s : State) : State :=
  s.onHif fun x => { x with sess := upd x.sess i (Session.opened b) }

section
variable {a s : State}

theorem endSession_only (s : State) (host : HostId) (cause : Nat) :
    onlyReports (if (nth s.hif.sess host.toNat).isOpen then s.sessionEnded host.toNat else s) (endSession host cause s) := by
  unfold endSession
  split
  · exact journalAdd_only _ _ (onlyReports_refl _)
  · exact onlyReports_refl s

theorem endSession_same (h : onlyReports a s) (host : HostId) (cause : Nat) :
    onlyReports (if (nth a.hif.sess host.toNat).isOpen then a.sessionEnded host.toNat else a) (endSession host cause s) := by
  refine onlyReports_trans ?_ (endSession_only s host cause)
  rw [only_isOpen h]
  exact same_ite (same_onSec (same_session h fun _ => rfl) _) h

/-- Opening a session overwrites what ending one leaves of it, its role aside. -/
theorem sessionOpened_sessionEnded (i : Nat) (b : List Byte) (s : State) :
    (s.sessionEnded i).sessionOpened i b = (s.sessionOpened i b).onSec (Sec.noRole i) := by
  simp only [State.sessionEnded, State.sessionOpened, State.onHif, State.onSec, upd_upd]
  rfl

theorem openSession_same (hk : onlyReports a s) (h : Held) :
    let n := a.sessionOpened h.cmd.host.toNat (Cmd.payload h.cmd)
    onlyReports (if (nth a.hif.sess h.cmd.host.toNat).isOpen then n.onSec (Sec.noRole h.cmd.host.toNat) else n) (openSession h s) := by
  intro n
  have hend := endSession_same hk h.cmd.host 1
  have hopen : onlyReports ((endSession h.cmd.host 1 s).sessionOpened h.cmd.host.toNat (Cmd.payload h.cmd)) (openSession h s) :=
    journalAdd_only _ _ (onSession_only _ _ fun _ => rfl)
  have hboth := onlyReports_trans (same_session (f := Session.opened (Cmd.payload h.cmd)) hend fun _ => rfl) hopen
  split at hboth
  next ho => rwa [if_pos ho, ← sessionOpened_sessionEnded]
  next ho => rwa [if_neg ho]

end

/-! ## Owners (R434 to R436) -/

theorem ownerOf_settings (k : BitVec 16) (i : Nat) (x : Hif) : ownerOf k i x.settings = ownerOf k i x := rfl

theorem only_ownerOf {a s : State} (h : onlyReports a s) (k : BitVec 16) (i : Nat) : ownerOf k i s.hif = ownerOf k i a.hif := by
  rw [← ownerOf_settings k i s.hif, only_hif h, ownerOf_settings]

/-- A resource of a claimable class has the owner that was set. -/
theorem ownerOf_setOwner {k : BitVec 16} {i : Nat} (hk : k ∈ claimable) (hi : i < clsSize k) (o : HostId) (x : Hif) :
    ownerOf k i (setOwner k i o x) = o := by
  simp only [claimable, List.mem_cons, List.not_mem_nil, or_false] at hk
  obtain rfl | rfl | rfl | rfl | rfl | rfl | rfl := hk
  case inl => rfl
  all_goals exact nth_upd_self _ _ _ hi

/-- CLAIM sets the owner; what tells the one before it only reports. -/
theorem claim_effect (h : Held) (s : State) :
    onlyReports (s.onHif (setOwner h.cmd.tclass h.cmd.tindex.toNat h.cmd.host)) (specClaim.effect h s).st := by
  simp only [specClaim]
  exact only_ite (sendEvent_only _ _ _ _ _ (hifRaise_only _ _ (onlyReports_refl _))) (onlyReports_refl _)

/-- A row completes as O16 asks when its effect sets the owner of its target. -/
theorem setsOwner_completes {sp : OpSpec} {row : Cmd → Instr} {o : Cmd → HostId} (hx : ∀ c s, exec (row c) s = .next (accept sp c s))
    (hcls : sp.cls = claimable)
    (he : ∀ h s, onlyReports (s.onHif (setOwner h.cmd.tclass h.cmd.tindex.toNat (o h.cmd))) (sp.effect h s).st) :
    Completes sp row fun c s t => onlyReports (s.onHif (setOwner c.tclass c.tindex.toNat (o c))) t ∧
      ownerOf c.tclass c.tindex.toNat t.hif = o c := by
  refine completes_of_accepted_effect hx fun c s h u t ha hu hc ht => ?_
  obtain ⟨hmem, hlt⟩ := accepted_target ha
  subst hc
  have hset := onlyReports_trans (onlyReports_trans (same_setOwner hu _ _ _) (he h u)) ht
  exact ⟨hset, (only_ownerOf hset _ _).trans (ownerOf_setOwner (hcls ▸ hmem) hlt _ _)⟩

/-! ## Cores (R452) -/

/-- The core that a reset leaves, its count aside. -/
def CpCore.restarted (q : CpCore) : CpCore := { q with st := if q.st = .off then .off else .idle, passed := true }

/-- The state with core k counted and reset. -/
def State.coreReset (k : Nat) (s : State) : State :=
  s.onHif fun x => { x with cores := upd x.cores k fun q => { q.restarted with resetCnt := sat q.resetCnt } }

theorem resetCore_only {a s : State} (h : onlyReports a s) (k : Nat) :
    onlyReports (a.onHif fun x => { x with cores := upd x.cores k CpCore.restarted }) (resetCore k s) :=
  onlyReports_trans (same_core h fun _ => rfl)
    (journalAdd_only _ _ (hifRaise_only 0x20 (s.coreReset k) (onCore_only s k fun _ => rfl)))

theorem journalAdd_cores (e : JEntry) (s : State) : (journalAdd e s).hif.cores = s.hif.cores := by
  unfold journalAdd
  split <;> rfl

theorem resetCore_cores (k : Nat) (s : State) : (resetCore k s).hif.cores = (s.coreReset k).hif.cores :=
  (journalAdd_cores _ _).trans (hifRaise_sends (s.coreReset k) 0x20).cores

/-- Counting a command on its core leaves what reports do not change of a core, and its resets. -/
theorem atChecks_coreField {β : Type} {g : CpCore → β} (hg : ∀ (q : CpCore) m n, g { q with cmdCnt := m, lastNs := n } = g q)
    (c : Cmd) (s : State) (i : Nat) : g (nth (atChecks c s).hif.cores i) = g (nth s.hif.cores i) := by
  rw [show (atChecks c s).hif.cores = (countCore c s).hif.cores from congrArg Books.cores (atChecks_books c s)]
  refine nth_of_map_eq ?_ i
  unfold countCore
  split
  · exact map_upd _ _ _ _ fun q => hg q _ _
  · rfl

/-- After acceptance the cores are those that the effect leaves. -/
theorem accept_cores {sp : OpSpec} {c : Cmd} {s : State} (ha : accepted sp c s = true) :
    (accept sp c s).hif.cores = (sp.effect (heldOf sp c (atChecks c s)) (atEffect sp c s)).st.hif.cores := by
  rw [accept_accepted sp c s ha]
  exact (acceptOk_sends sp c (atChecks c s)).cores

/-- The core that an accepted CP_RESET names, after it. -/
theorem cpReset_core {c : Cmd} {s : State} (ha : accepted specCpReset c s = true) :
    let k := u8 (Cmd.payload c) 0
    let q := nth (atEffect specCpReset c s).hif.cores k
    nth (accept specCpReset c s).hif.cores k = { q.restarted with resetCnt := sat q.resetCnt } := by
  have hk : u8 (Cmd.payload c) 0 < 4 := by
    have hb := chk_eq_none (checks_eq_none (check_of_accepted ha) _ List.mem_cons_self)
    rw [decide_eq_false_iff_not] at hb
    omega
  intro k q
  rw [accept_cores ha]
  exact (congrArg (nth · k) (resetCore_cores k _)).trans (nth_upd_self _ _ _ hk)

/-- The ACCEPT entry leaves the cores as the checks leave them. -/
theorem atEffect_coreField {β : Type} {g : CpCore → β} (hg : ∀ (q : CpCore) m n, g { q with cmdCnt := m, lastNs := n } = g q)
    (sp : OpSpec) (c : Cmd) (s : State) (i : Nat) : g (nth (atEffect sp c s).hif.cores i) = g (nth s.hif.cores i) := by
  rw [atEffect, journalAdd_cores, atChecks_coreField hg]

/-! ## The journal's commands (R453) -/

/-- Outside RECOVERY an entry that is added stands in the journal. -/
theorem journalAdd_mem (e : JEntry) (s : State) (hr : s.mgt.st ≠ .recovery) : e.stamped s ∈ (journalAdd e s).hif.journal := by
  rw [show (journalAdd e s).hif.journal = _ from congrArg Books.journal (journalAdd_books e s hr)]
  exact List.mem_cons_self

/-- What acceptance makes of the journal that the effect leaves: the command's own ACCEPT entry takes its outcome. -/
theorem accept_journal {sp : OpSpec} {c : Cmd} {s : State} (ha : accepted sp c s = true) : ∃ g : JEntry → JEntry,
    (∀ e, ¬(e.jseq = s.hif.jseq + 1 ∧ e.kind = .accept) → g e = e) ∧ (∀ e, (g e).jseq = e.jseq) ∧
    (accept sp c s).hif.journal = (sp.effect (heldOf sp c (atChecks c s)) (atEffect sp c s)).st.hif.journal.map g := by
  rw [accept_accepted sp c s ha, (acceptOk_sends sp c (atChecks c s)).journal]
  have hj : (heldOf sp c (atChecks c s)).jseq = s.hif.jseq + 1 := congrArg (· + 1) (atChecks_jseq s c)
  refine ⟨fun e => if e.jseq = (heldOf sp c (atChecks c s)).jseq ∧ e.kind = .accept then _ else e, fun e he => ?_, fun e => ?_, rfl⟩
  · exact if_neg (hj ▸ he)
  · dsimp only
    split <;> rfl

/-- Entries older than the command's own are as the effect leaves them. -/
theorem filter_map_older {l : List JEntry} {g : JEntry → JEntry} {n : BitVec 64} (hg : ∀ e, ¬(e.jseq = n ∧ e.kind = .accept) → g e = e)
    (hs : ∀ e, (g e).jseq = e.jseq) (m : Nat) :
    (l.map g).filter (fun e => m ≤ e.jseq.toNat && e.jseq.toNat < n.toNat) = l.filter fun e => m ≤ e.jseq.toNat && e.jseq.toNat < n.toNat := by
  induction l with
  | nil => rfl
  | cons e l ih =>
    simp only [List.map_cons, List.filter_cons, hs, ih]
    split
    next hin =>
      have hlt : e.jseq.toNat < n.toNat := by simpa using (Bool.and_eq_true_iff.1 hin).2
      rw [hg e fun ⟨heq, _⟩ => absurd hlt (heq ▸ Nat.lt_irrefl _)]
    next => rfl

/-- A copy to the host that does not fail goes out, and nothing else changes. -/
theorem copyOut_good {h : Held} (hw : Config.hostWriteFails h.jseq.toNat = false) (addr : Nat) (bs : List Byte) (detail : Word) (s : State) :
    (copyOut h addr bs detail s).st = s.onHif fun x => { x with outbox := .bytes h.cmd.host addr bs :: x.outbox } := by
  rw [copyOut, hw]
  rfl

theorem copyOut_only (h : Held) (addr : Nat) (bs : List Byte) (detail : Word) (s : State) : onlyReports s (copyOut h addr bs detail s).st := by
  unfold copyOut
  split
  · exact onlyReports_refl s
  · exact only_onHif (onlyReports_refl s) _ rfl

/-- What the effect put in the outbox is still there after acceptance. -/
theorem accept_outbox {sp : OpSpec} {c : Cmd} {s : State} (ha : accepted sp c s = true) :
    ∀ x ∈ (sp.effect (heldOf sp c (atChecks c s)) (atEffect sp c s)).st.hif.outbox, x ∈ (accept sp c s).hif.outbox := by
  rw [accept_accepted sp c s ha]
  exact (acceptOk_sends sp c (atChecks c s)).out

end Sys2Proof.Machine

namespace Sys2Proof.Proofs
open Sys2Proof.Machine

/-- Settles O15: each effect on the sender's session; what the checks renew of the lease is a report. -/
theorem sessionCommandsSetTheSession : Obligations.SessionCommandsSetTheSession := by
  refine ⟨completes_of_effect (fun _ _ => rfl) ?sessionOpen, completes_of_effect (fun _ _ => rfl) ?close, ?heartbeat,
    completes_of_effect (fun _ _ => rfl) ?mask⟩
  case sessionOpen =>
    rintro c s h u t hu rfl - ht
    exact onlyReports_trans (openSession_same hu h) ht
  case close =>
    rintro c s h u t hu rfl - ht
    exact onlyReports_trans (endSession_same hu _ _) ht
  case heartbeat =>
    refine fun c s ha => ⟨_, rfl, onlyReports_trans (atEffect_only _ c s) (accept_effect specHeartbeat c s ha), ?_⟩
    rw [accept_accepted _ c s ha, (acceptOk_sends ..).sess, acceptCounted_sess]
    have hlease : (nth (atEffect specHeartbeat c s).hif.sess c.host.toNat).leaseStart = s.ns := by
      rw [atEffect, journalAdd_sess, atChecks_sess, nth_upd_self _ _ _ (host_lt c.host)]
    dsimp only
    split <;> exact hlease
  case mask =>
    rintro c s h u t hu rfl - ht
    exact onlyReports_trans (same_session hu fun _ => rfl) ht

/-- Settles O16: the effect sets the owner of a target that acceptance has found to exist. -/
theorem ownershipCommandsSetTheOwner : Obligations.OwnershipCommandsSetTheOwner :=
  ⟨setsOwner_completes (fun _ _ => rfl) rfl claim_effect, setsOwner_completes (fun _ _ => rfl) rfl fun _ _ => onlyReports_refl _⟩

/-- Settles O17: a core's reset, the copy of older entries, and the MARK entry, each through what acceptance adds around the effect. -/
theorem processorAndJournalCommands : Obligations.ProcessorAndJournalCommands := by
  refine ⟨fun c s ha => ⟨_, rfl, onlyReports_trans (resetCore_only (atEffect_only _ c s) _) (accept_effect _ c s ha), ?count, ?st⟩,
    fun c s ha => ⟨_, rfl, onlyReports_trans (onlyReports_trans (atEffect_only _ c s) (copyOut_only ..)) (accept_effect _ c s ha), ?read⟩,
    fun c s ha => ⟨_, rfl, onlyReports_trans (journalAdd_only _ _ (atEffect_only _ c s)) (accept_effect _ c s ha), ?mark⟩⟩
  case count =>
    rw [cpReset_core ha]
    exact congrArg sat (atEffect_coreField (g := CpCore.resetCnt) (fun _ _ _ => rfl) _ c s _)
  case st =>
    rw [cpReset_core ha]
    show (if (nth (atEffect specCpReset c s).hif.cores _).st = .off then _ else _) = _
    rw [atEffect_coreField (g := CpCore.st) fun _ _ _ => rfl]
  case read =>
    intro hw
    have hj : (heldOf specJournalRead c (atChecks c s)).jseq = s.hif.jseq + 1 := congrArg (· + 1) (atChecks_jseq s c)
    have hst := copyOut_good (h := heldOf specJournalRead c (atChecks c s)) (by rwa [hj]) (u64 (Cmd.payload c) 16)
      ((journalCopy (heldOf specJournalRead c (atChecks c s)) (atEffect specJournalRead c s)).flatMap JEntry.bytes)
      (BitVec.ofNat 32 (journalCopy (heldOf specJournalRead c (atChecks c s)) (atEffect specJournalRead c s)).length)
      (atEffect specJournalRead c s)
    obtain ⟨g, hg, hs, hjournal⟩ := accept_journal ha
    have hcopied := hjournal.trans (congrArg (fun u : State => u.hif.journal.map g) hst)
    refine accept_outbox ha _ ((congrArg (fun u : State => _ ∈ u.hif.outbox) hst).mpr ?_)
    rw [hcopied, ← List.map_reverse, filter_map_older hg hs, ← hj]
    exact List.mem_cons_self
  case mark =>
    intro hr
    obtain ⟨g, hg, -, hjournal⟩ := accept_journal ha
    have hu : (atEffect specJournalMark c s).mgt.st ≠ .recovery := by rwa [only_mgtSt (atEffect_only _ c s)]
    have hc : (atChecks c s).mgt.st ≠ .recovery := by rwa [only_mgtSt (atChecks_only c s)]
    have hjseq : (atEffect specJournalMark c s).hif.jseq = s.hif.jseq + 1 :=
      (congrArg Books.jseq (journalAdd_books _ _ hc)).trans (congrArg (· + 1) (atChecks_jseq s c))
    rw [hjournal]
    refine ⟨_, List.mem_map_of_mem (journalAdd_mem _ _ hu), ?_⟩
    rw [hg _ fun ⟨_, hk⟩ => nomatch hk]
    exact ⟨rfl, by rw [JEntry.stamped, hjseq, BitVec.add_assoc]; rfl, rfl, rfl⟩

end Sys2Proof.Proofs
end

section
/-!
PROOFS. Raw entries, rings, interrupts (R438, R439, R442, R445, R446, R451, R456). O39 and O40 are settled here.
-/
namespace Sys2Proof.Machine

/-! ## Commands by opcode (R446) -/

/-- The opcode of a host command's row finds that row's command. -/
theorem find_hostRow {i : Instr} {sp : OpSpec} {c : Cmd} (h : hostRow i = some (sp, c)) : allOps.find? (fun x => x.op == sp.op) = some sp := by
  cases i <;> cases h <;> rfl

/-- A row for each command of the device, in the order of `allOps`. -/
def opRows : List (Cmd → Instr) :=
  [.sessionOpen, .sessionClose, .heartbeat, .claim, .release, .eventMaskSet, .cpReset, .journalRead, .journalMark,
   .timingSet, .cameraSet, .viewBind, .timingCommit, .phaseSteer, .phaseMarkSet, .seqPortSet, .seqLoad,
   .seqCommit, .seqDriveSet, .holdSet, .holdExit, .planeStoreSet,
   .illChainSet, .illDeviceSet, .illWeightSet, .illFade, .illTcSet, .illStringSet, .illDiagSet, .loopSet,
   .loopCoefSet, .loopRefSet, .loopGroupSet, .loopArm, .loopPwmSet, .xclRegionSet, .xclMaskLoad, .xclHostBlank,
   .xclSafeRelease, .symListSet, .symGlyphLoad,
   .linkAllot, .linkLaneSet, .linkOctetReset, .linkDiag, .ahmPolicySet, .ahmScanStart, .ahmDefectRead, .ahmPark,
   .cmpViewSet, .cmpPipeBind, .cmpLayerSet, .cmpLutSet, .cmpWritebackSet, .cmpCommit, .fabImageLoad, .fabChainSet,
   .fabChainGo, .fabParamSet, .fabClusterReset,
   .bufAlloc, .bufFree, .bufSignal, .memLayoutSet, .memReserveSet, .memPolicySet, .memFence, .memRankRetire,
   .memRetrain, .bufIngest,
   .updateBegin, .updateData, .updateCommit, .mgtFuseAdvance, .mgtBootcfgSet, .mgtRead, .mgtFaultClear, .mgtReinit,
   .secChallenge, .secLogin, .secUserSet, .secPolicySet, .secKemGen, .secKeyLoad, .secKeyZero, .secQuote,
   .secMarkSet, .secSelftest, .secZeroise, .secProvision, .pwrItemSet, .thmSet, .pwrStandbyEnter]

theorem hostRow_opRows (c : Cmd) : opRows.map (fun row => hostRow (row c)) = allOps.map fun sp => some (sp, c) := rfl

/-- Every command of the device has a row. -/
theorem exists_hostRow {sp : OpSpec} (h : sp ∈ allOps) (c : Cmd) : ∃ i, hostRow i = some (sp, c) := by
  have hmem : some (sp, c) ∈ opRows.map fun row => hostRow (row c) := by
    rw [hostRow_opRows]
    exact List.mem_map_of_mem (f := fun sp => some (sp, c)) h
  obtain ⟨row, -, hrow⟩ := List.mem_map.1 hmem
  exact ⟨row c, hrow⟩

/-- An entry of a known opcode is accepted as that command's row. -/
theorem deliver_hostRow {i : Instr} {sp : OpSpec} {c : Cmd} (h : hostRow i = some (sp, c)) (s : State) : deliver sp.op c s = accept sp c s := by
  simp only [deliver, accept, acceptOp, find_hostRow h]

/-- An entry that is read at once, with an opcode that no command has and version 1, is refused with BAD_OPCODE. -/
theorem deliver_unknown {op : BitVec 16} {c : Cmd} {s : State} (hop : ∀ i sp, hostRow i = some (sp, c) → sp.op ≠ op)
    (hr : isRead op c s = true) (hv : c.version = 1) : deliver op c s = refuse op c ⟨.badOpcode, 0⟩ (atChecks c s) := by
  have hfind : allOps.find? (fun sp => sp.op == op) = none := by
    rw [List.find?_eq_none]
    intro sp hsp
    obtain ⟨i, hi⟩ := exists_hostRow hsp c
    simpa using hop i sp hi
  simp only [isRead, Bool.and_eq_true, Bool.not_eq_true'] at hr
  obtain ⟨⟨⟨hdeaf, hstops⟩, hwaits⟩, hcrc⟩ := hr
  simp only [deliver, hdeaf, hstops, hwaits, Bool.or_self, Bool.false_eq_true, if_false, acceptOp, hfind, acceptUnknown, hcrc, if_true, hv,
    bne_self_eq_false]
  rfl

/-! ## Rings (R438, R445, R456) -/

/-- A refused ring access only reports, and sets HIF_STICKY.BAD_RING. -/
theorem badRing_set (s : State) : onlyReports s (hifRaise 0x4 s) ∧ (hifRaise 0x4 s).hif.sticky.getLsbD 2 = true := by
  refine ⟨hifRaise_only _ _ (onlyReports_refl s), ?_⟩
  rw [hifRaise_hifSticky, BitVec.getLsbD_or]
  simp

/-- A register of command ring r. -/
theorem ringCfgWrite_cring (h : Fin 2) (r : Fin 4) {reg : Nat} (hreg : reg < 0x40) (v : Word) {s : State} (hl : s.live = true) :
    exec (.ringCfgWrite h (BitVec.ofNat 17 (r.val * 0x40 + reg)) v) s = .next (cringWrite h.val r.val reg v s) := by
  have hr := r.isLt
  have hoff : (BitVec.ofNat 17 (r.val * 0x40 + reg)).toNat = r.val * 0x40 + reg := (BitVec.toNat_ofNat ..).trans (Nat.mod_eq_of_lt (by omega))
  have hcopy : copyOf 0 0x40 4 (r.val * 0x40 + reg) = some (r.val, reg) := copyOf_eq_some hr hreg (by omega)
  simp only [exec, execRingCfgWrite, hl, Bool.not_true, Bool.false_eq_true, if_false, hoff, hcopy]

/-- A word of the MSI-X table. -/
theorem ringCfgWrite_msix (h : Fin 2) (w : Fin 256) (v : Word) {s : State} (hl : s.live = true) :
    exec (.ringCfgWrite h (BitVec.ofNat 17 (0x10000 + 4 * w.val)) v) s = .next (msixWrite h.val w.val v s) := by
  have hw := w.isLt
  have hoff : (BitVec.ofNat 17 (0x10000 + 4 * w.val)).toNat = 0x10000 + 4 * w.val := (BitVec.toNat_ofNat ..).trans (Nat.mod_eq_of_lt (by omega))
  have hc : copyOf 0 0x40 4 (0x10000 + 4 * w.val) = none := copyOf_eq_none (.inr (by omega))
  have hr : copyOf 0x400 0x40 4 (0x10000 + 4 * w.val) = none := copyOf_eq_none (.inr (by omega))
  have hm : copyOf 0x10000 4 256 (0x10000 + 4 * w.val) = some (w.val, 0) := copyOf_eq_some hw (by omega) (by omega)
  simp only [exec, execRingCfgWrite, hl, Bool.not_true, Bool.false_eq_true, if_false, hoff, hc, hr, hm]

/-- A disabled ring takes a base. -/
theorem newBase_off {cfg : Word} (hc : ringOn cfg = false) (mask old v : Word) : newBase cfg mask old v = (v &&& mask, false) := by
  rw [newBase, hc]
  rfl

/-- An enabled ring keeps its base, and the write is bad. -/
theorem newBase_on {cfg : Word} (hc : ringOn cfg = true) (mask old v : Word) : newBase cfg mask old v = (old, true) := by
  rw [newBase, hc]
  rfl

/-- A disabled ring takes a CFG without enable, or with one for 16 to 4,096 entries. -/
theorem newCfg_off {cfg v : Word} (hc : ringOn cfg = false) (hv : v.getLsbD 4 = true → 4 ≤ v.toNat % 16 ∧ v.toNat % 16 ≤ 12) :
    newCfg 0x7F cfg v = (v &&& 0x7F, false) := by
  have hon : ringOn (v &&& 0x7F) = v.getLsbD 4 := by simp [ringOn]
  have hmask : (v &&& 0x7F).toNat = v.toNat % 128 := by
    rw [BitVec.toNat_and]
    exact Nat.and_two_pow_sub_one_eq_mod v.toNat 7
  have hsize : (v &&& 0x7F).toNat % 16 = v.toNat % 16 := by omega
  simp only [newCfg, hc, hon, hsize, Bool.false_eq_true, if_false]
  refine if_neg fun hbad => ?_
  simp only [Bool.and_eq_true, Bool.or_eq_true, decide_eq_true_eq] at hbad
  obtain ⟨hen, hrange⟩ := hbad
  have := hv hen
  omega

/-- A change of an entry that leaves it as it is. -/
theorem upd_self {α : Type} [Inhabited α] {n : Nat} (v : Vector α n) (i : Nat) {f : α → α} (h : f (nth v i) = nth v i) : upd v i f = v := by
  have hmap := map_upd_at v i (f := f) (g := id) h
  simpa using hmap

/-! ## Interrupts (R451) -/

/-- A message that vector v of function h holds, no longer held back, goes out when it is not masked. -/
def sendHeld (h v : Nat) (s : State) : State :=
  let f := nth s.hif.pcie h
  if f.pendingBits.getLsbD v && !((nth f.msixTable (4 * v + 3)).getLsbD 0) then
    msix h v (s.onHif fun x => { x with pcie := upd x.pcie h fun f => { f with pendingBits := f.pendingBits &&& ~~~(bit1 64 v) } })
  else s

/-- Vector v of function h is no longer held back. -/
def uncoalesce (h v : Nat) (s : State) : State :=
  s.onHif fun x => { x with pcie := upd x.pcie h fun f => { f with coalescing := f.coalescing &&& ~~~(bit1 64 v) } }

/-- What a function holds back is a report. -/
theorem onFn_only (s : State) (h : Nat) {f : PcieFn → PcieFn} (hf : ∀ g, (f g).settings = g.settings) :
    onlyReports s (s.onHif fun x => { x with pcie := upd x.pcie h f }) :=
  only_onHif (onlyReports_refl s) _ (by simp only [Hif.settings, map_upd _ _ _ _ hf])

theorem uncoalesce_fn (h : Fin 2) (v : Nat) (s : State) : nth (uncoalesce h.val v s).hif.pcie h.val =
    { nth s.hif.pcie h.val with coalescing := (nth s.hif.pcie h.val).coalescing &&& ~~~(bit1 64 v) } := nth_upd_self _ _ _ h.isLt

theorem uncoalesce_only (h v : Nat) (s : State) : onlyReports s (uncoalesce h v s) := onFn_only s h fun _ => rfl

theorem sendHeld_only (h v : Nat) (s : State) : onlyReports s (sendHeld h v s) :=
  only_ite (msix_only _ _ _ (onFn_only s h fun _ => rfl)) (onlyReports_refl s)

theorem msixWrite_only (h w : Nat) (v : Word) (s : State) :
    onlyReports (s.onHif fun x => { x with pcie := upd x.pcie h fun f => { f with msixTable := upd f.msixTable w fun _ =>
      v &&& (if w % 4 = 0 then 0xFFFFFFFC else if w % 4 = 3 then 1 else 0xFFFFFFFF) } }) (msixWrite h w v s) :=
  only_ite (msix_only _ _ _ (onFn_only _ h fun _ => rfl)) (onlyReports_refl _)

/-- A bit that is cleared. -/
theorem getLsbD_and_not_bit1 {w i : Nat} (x : BitVec w) (h : i < w) : (x &&& ~~~(bit1 w i)).getLsbD i = false := by
  rw [BitVec.getLsbD_and, BitVec.getLsbD_not, bit1_getLsbD h, Bool.not_true, Bool.and_false, Bool.and_false]

/-- A vector that is not held back and not masked holds no message any longer, and one that it held is sent. -/
theorem sendHeld_sent {h : Fin 2} {v : Fin 64} {s : State} (hc : (nth s.hif.pcie h.val).coalescing.getLsbD v.val = false)
    (hm : (nth (nth s.hif.pcie h.val).msixTable (4 * v.val + 3)).getLsbD 0 = false) :
    (nth (sendHeld h.val v.val s).hif.pcie h.val).pendingBits.getLsbD v.val = false ∧
    ((nth s.hif.pcie h.val).pendingBits.getLsbD v.val = true → .msix h v.val ∈ (sendHeld h.val v.val s).hif.outbox) := by
  have hmsix (u : State) (hcu : (nth u.hif.pcie h.val).coalescing.getLsbD v.val = false)
      (hmu : (nth (nth u.hif.pcie h.val).msixTable (4 * v.val + 3)).getLsbD 0 = false) : msix h.val v.val u = u.onHif fun x => { x with
        pcie := upd x.pcie h.val fun f => { f with coalescing := f.coalescing ||| bit1 64 v.val, sentNs := upd f.sentNs v.val fun _ => u.ns }
        outbox := .msix (Fin.ofNat 2 h.val) v.val :: x.outbox } := by
    rw [msix, hcu, hmu]
    rfl
  cases hp : (nth s.hif.pcie h.val).pendingBits.getLsbD v.val with
  | false =>
    rw [sendHeld, hp]
    exact ⟨hp, nofun⟩
  | true =>
    rw [sendHeld, hp, hm]
    simp only [Bool.not_false, Bool.and_self, if_true]
    rw [hmsix]
    · refine ⟨?_, fun _ => ?_⟩
      · simp only [State.onHif_hif, nth_upd_self _ _ _ h.isLt, getLsbD_and_not_bit1 _ v.isLt]
      · rw [Fin.ofNat_eq_cast]
        simp
    · simpa only [State.onHif_hif, nth_upd_self _ _ _ h.isLt] using hc
    · simpa only [State.onHif_hif, nth_upd_self _ _ _ h.isLt] using hm

/-- The end of a vector's 10 µs. -/
theorem msixCoalesceExpire_over {h : Fin 2} {v : Fin 64} {s : State} (hc : (nth s.hif.pcie h.val).coalescing.getLsbD v.val = true)
    (hn : nth (nth s.hif.pcie h.val).sentNs v.val + 10000 ≤ s.ns) :
    exec (.msixCoalesceExpire h v) s = .next (sendHeld h.val v.val (uncoalesce h.val v.val s)) := by
  simp only [exec, execMsixCoalesceExpire, hc, hn, decide_true, Bool.and_self, if_true, sendHeld, uncoalesce_fn]
  rfl

end Sys2Proof.Machine

namespace Sys2Proof.Proofs
open Sys2Proof.Machine

/-- Settles O39: a row's opcode finds its own command, and every command has a row. -/
theorem rawEntriesRunLikeTheirRows : Obligations.RawEntriesRunLikeTheirRows := by
  refine ⟨fun i sp c s hi => ?rows, fun h r tail es s hl hd => ?taken, fun h r tail es s hl hd => ?notTaken, fun e s hn => ?i3c,
    fun op c s hop hr hv hm => ?unknown⟩
  case rows => rw [exec_hostRow hi, deliver_hostRow hi]
  case taken =>
    simp only [exec, execCringDoorbell, hl, hd, Bool.not_true, Bool.false_eq_true, if_false]
    rfl
  case notTaken =>
    refine ⟨hifRaise 0x4 s, ?_, badRing_set s⟩
    simp only [exec, execCringDoorbell, hl, hd, Bool.not_true, Bool.not_false, Bool.false_eq_true, if_false, if_true]
  case i3c => simp only [exec, execI3cCommandWrite, if_neg (Nat.not_le.2 hn)]
  case unknown =>
    rw [deliver_unknown hop hr hv]
    obtain ⟨-, rest, hj⟩ := refuse_journal op c ⟨.badOpcode, 0⟩ (atChecks c s) (by rwa [only_mgtSt (atChecks_only c s)])
    exact ⟨refuse_only _ _ _ _ (atChecks_only c s), _, rest, hj, rfl, rfl, rfl, rfl⟩

/-- Settles O40: what each register of BAR4 takes, and what the end of a vector's 10 µs sends. -/
theorem ringRegistersAndInterrupts : Obligations.RingRegistersAndInterrupts := by
  refine ⟨fun h r v s hl hc => ⟨?base, fun hv => ?cfg⟩, fun h r v s hl hc => ⟨_, ringCfgWrite_cring h r (reg := 0) (by decide) v hl, ?enabled⟩,
    fun h w v s hl => ⟨_, ringCfgWrite_msix h w v hl, ?msix⟩, fun h r v s hl hd => ?reply, fun h vec s hc hn => ?coalesce⟩
  case base =>
    refine (ringCfgWrite_cring h r (reg := 0) (by decide) v hl).trans ?_
    simp only [cringWrite, if_true, newBase_off hc]
    rfl
  case cfg =>
    rw [ringCfgWrite_cring h r (by decide) v hl]
    simp only [cringWrite, cringCfg, newCfg_off hc hv, hc, Bool.false_and, Bool.false_eq_true, if_false]
    rfl
  case enabled =>
    have hkeep (x : Hif) : upd x.pcie h.val (fun g => { g with crings := upd g.crings r.val fun q => { q with
        baseLo := (nth (nth x.pcie h.val).crings r.val).baseLo } }) = x.pcie := by
      refine upd_self _ _ ?_
      rw [upd_self _ _ rfl]
    simp only [cringWrite, if_true, newBase_on hc, State.onHif, hkeep]
    exact badRing_set s
  case msix => exact msixWrite_only h.val w.val v s
  case reply =>
    simp only [exec, execRringDoorbell, hl, hd, Bool.not_true, Bool.false_eq_true, if_false]
    rfl
  case coalesce =>
    refine ⟨_, msixCoalesceExpire_over hc hn, onlyReports_trans (uncoalesce_only ..) (sendHeld_only ..), fun hm => ?_⟩
    have hsent := sendHeld_sent (h := h) (v := vec) (s := uncoalesce h.val vec.val s)
    rw [uncoalesce_fn] at hsent
    exact hsent (getLsbD_and_not_bit1 _ vec.isLt) hm

end Sys2Proof.Proofs
end

section
/-!
PROOFS. Sessions, cores, the journal and transfers (R355 to R357, R429, R432, R433, R436, R448, R452 to R454). O41 is settled here.
-/
namespace Sys2Proof.Machine

/-! ## Cores (R452) -/

theorem only_deaf {s t : State} (h : onlyReports s t) (c : Cmd) : deaf c t = deaf c s := show deaf c t.settings = deaf c s.settings by rw [h]

theorem abortCommand_only (op : BitVec 16) (c : Cmd) (s : State) : onlyReports s (abortCommand op c s) :=
  only_ite (onlyReports_refl s) (refuse_only _ _ _ _ (renewLease_only _ _ (checkSeq_only _ _ (onlyReports_refl s))))

theorem abortCommand_cores (op : BitVec 16) (c : Cmd) (s : State) : (abortCommand op c s).hif.cores = s.hif.cores := by
  unfold abortCommand
  split
  · rfl
  · rw [(refuse_sends ..).cores]
    exact (journalAdd_cores _ _).trans (checkSeq_sends s c).cores

/-- The command of a core that was reset, if it could be read, ends with INTERNAL_ERROR. -/
theorem abortCommand_journal {op : BitVec 16} {c : Cmd} {s : State} (hd : deaf c s = false) (hc : Cmd.crcOk op c = true)
    (hr : s.mgt.st ≠ .recovery) : ∃ e rest, (abortCommand op c s).hif.journal = e :: rest ∧ e.kind = .accept ∧ e.opcode = op ∧
      e.corr = c.corr ∧ e.status = .internalError := by
  have hu : (renewLease c.host (checkSeq c s)).mgt.st ≠ .recovery := by
    rwa [only_mgtSt (renewLease_only _ _ (checkSeq_only _ _ (onlyReports_refl s)))]
  obtain ⟨-, rest, hj⟩ := refuse_journal op c ⟨.internalError, 0⟩ _ hu
  rw [abortCommand, hd, hc]
  exact ⟨_, rest, hj, rfl, rfl, rfl, rfl⟩

/-- A core that is not off is reset by its watchdog, and the command on which it was busy ends. -/
theorem cpWatchdog_on {k : Fin 4} {s : State} (hk : (nth s.hif.cores k.val).st ≠ .off) (busy : Option (BitVec 16 × Cmd)) :
    exec (.cpWatchdog (k, busy)) s = .next (match busy with
      | none => resetCore k.val s
      | some q => abortCommand q.1 q.2 (resetCore k.val s)) := by
  have hk' : ((nth s.hif.cores k.val).st == .off) = false := beq_eq_false_iff_ne.2 hk
  cases busy <;> simp only [exec, execCpWatchdog, hk', Bool.false_eq_true, if_false]

theorem resetCore_core {k : Nat} (hk : k < 4) (s : State) :
    nth (resetCore k s).hif.cores k = { (nth s.hif.cores k).restarted with resetCnt := sat (nth s.hif.cores k).resetCnt } :=
  (congrArg (nth · k) (resetCore_cores k s)).trans (nth_upd_self _ _ _ hk)

/-- Reset, a core that is not off is idle. -/
theorem resetCore_idle {k : Nat} {s : State} (hk : (nth s.hif.cores k).st ≠ .off) :
    onlyReports (s.onHif fun x => { x with cores := upd x.cores k fun q => { q with st := .idle, passed := true } }) (resetCore k s) := by
  have hcores : upd s.hif.cores k CpCore.restarted = upd s.hif.cores k fun q => { q with st := .idle, passed := true } :=
    upd_congr _ _ (by rw [CpCore.restarted, if_neg hk])
  have hreset := resetCore_only (onlyReports_refl s) k
  simp only [State.onHif, hcores] at hreset
  exact hreset

/-- After its watchdog a core that was not off is reset, and its command's end only reports. -/
theorem cpWatchdog_core {k : Fin 4} {s : State} (hk : (nth s.hif.cores k.val).st ≠ .off) (busy : Option (BitVec 16 × Cmd)) :
    ∃ t, exec (.cpWatchdog (k, busy)) s = .next t ∧ onlyReports (resetCore k.val s) t ∧ t.hif.cores = (resetCore k.val s).hif.cores ∧
      ∀ op c, busy = some (op, c) → t = abortCommand op c (resetCore k.val s) := by
  cases busy with
  | none => exact ⟨_, cpWatchdog_on hk none, onlyReports_refl _, rfl, nofun⟩
  | some q =>
    refine ⟨_, cpWatchdog_on hk (some q), abortCommand_only .., abortCommand_cores .., fun op c h => ?_⟩
    cases h
    rfl

/-! ## Sticky bits of the host interface -/

theorem writeReply_hifSticky (r : Reply) (s : State) : (writeReply r s).hif.sticky = s.hif.sticky := by
  unfold writeReply
  split
  · rfl
  · split
    · rfl
    · dsimp only
      split
      · exact msix_hifSticky ..
      · rfl

theorem writeReplies_hifSticky (rs : List Reply) (s : State) : (writeReplies rs s).hif.sticky = s.hif.sticky := by
  induction rs generalizing s with
  | nil => rfl
  | cons r rs ih =>
    unfold writeReplies
    split
    · exact (ih _).trans (writeReply_hifSticky r s)
    · exact ih s

theorem flushReplies_hifSticky (s : State) : (flushReplies s).hif.sticky = s.hif.sticky := writeReplies_hifSticky ..

/-! ## A session that ends, and a function that goes down (R429, R433, R479) -/

/-- The number of function h's host. -/
theorem fnHost_toNat (h : Fin 3) : (BitVec.ofNat 2 (h.val + 1)).toNat = h.val + 1 := by
  have := h.isLt
  rw [BitVec.toNat_ofNat]
  omega

theorem journalAdd_pcie (e : JEntry) (s : State) : (journalAdd e s).hif.pcie = s.hif.pcie := by
  unfold journalAdd
  split <;> rfl

theorem journalAdd_sec (e : JEntry) (s : State) : (journalAdd e s).sec = s.sec := by
  unfold journalAdd
  split <;> rfl

section
variable (host : HostId) (cause : Nat) (s : State)

theorem endSession_pcie : (endSession host cause s).hif.pcie = s.hif.pcie := by
  unfold endSession
  split
  · exact journalAdd_pcie ..
  · rfl

theorem endSession_sec : (endSession host cause s).sec =
    if (nth s.hif.sess host.toNat).isOpen then s.sec.noRole host.toNat else s.sec := by
  unfold endSession
  split
  · exact journalAdd_sec ..
  · rfl

theorem endSession_sess : (endSession host cause s).hif.sess = if (nth s.hif.sess host.toNat).isOpen then
    upd s.hif.sess host.toNat fun q => { q with isOpen := false, lease := false } else s.hif.sess := by
  unfold endSession
  split
  · exact journalAdd_sess ..
  · rfl

theorem endSession_closed : (nth (endSession host cause s).hif.sess host.toNat).isOpen = false := by
  rw [endSession_sess]
  split
  · rw [nth_upd_self _ _ _ (host_lt host)]
  · simp_all

theorem endSession_otherSess {k : Nat} (hk : k ≠ host.toNat) : nth (endSession host cause s).hif.sess k = nth s.hif.sess k := by
  rw [endSession_sess]
  split
  · exact nth_upd_other _ _ _ _ hk.symm
  · rfl

theorem endSession_role : nth (endSession host cause s).sec.role host.toNat =
    if (nth s.hif.sess host.toNat).isOpen then 0 else nth s.sec.role host.toNat := by
  rw [endSession_sec]
  split
  · exact nth_upd_self _ _ _ (host_lt host)
  · rfl

end

/-- A function that goes down, its rings disabled, or all of it reset with `clear`. -/
def PcieFn.down (clear : Bool) (f : PcieFn) : PcieFn :=
  if clear then {}
  else { f with
    crings := f.crings.map fun r => { r with cfg := r.cfg &&& ~~~0x10, head := 0, tail := 0, waitFence := false, waitReply := false, lastSeq := none }
    rrings := f.rrings.map fun r => { r with cfg := r.cfg &&& ~~~0x10, tail := 0, phase := true, hostHead := 0 } }

theorem ringOn_disabled (cfg : Word) : ringOn (cfg &&& ~~~0x10) = false := by simp [ringOn]

theorem PcieFn.down_rings (clear : Bool) (f : PcieFn) {r : Nat} (hr : r < 4) :
    ringOn (nth (f.down clear).crings r).cfg = false ∧ ringOn (nth (f.down clear).rrings r).cfg = false := by
  cases clear with
  | true => exact (by decide : ∀ k < 4, ringOn (nth ({} : PcieFn).crings k).cfg = false ∧ ringOn (nth ({} : PcieFn).rrings k).cfg = false) r hr
  | false => constructor <;> simp [PcieFn.down, nth, hr, ringOn]

/-- What is left of the host interface before the session of a function that goes down ends. -/
def Hif.fnDown (h : Nat) (clear : Bool) (x : Hif) : Hif :=
  { x with
    pcie := upd x.pcie h (PcieFn.down clear), waiting := x.waiting.filter fun w => w.cmd.host != BitVec.ofNat 2 (h + 1)
    replyQ := x.replyQ.filter fun r => r.host != BitVec.ofNat 2 (h + 1), sess := upd x.sess (h + 1) fun q => { q with muted := x.jseq } }

theorem pcieDown_eq (h : Nat) (clear : Bool) (s : State) :
    pcieDown h clear s = endSession (BitVec.ofNat 2 (h + 1)) 3 (s.onHif (Hif.fnDown h clear)) := rfl

/-- A function of which FLR, PERST_N or a link that goes down makes t of s. -/
structure FnDown (h : Nat) (s t : State) : Prop where
  closed : (nth t.hif.sess (h + 1)).isOpen = false
  rings : ∀ r, r < 4 → ringOn (nth (nth t.hif.pcie h).crings r).cfg = false ∧ ringOn (nth (nth t.hif.pcie h).rrings r).cfg = false
  role : nth t.sec.role (h + 1) = if (nth s.hif.sess (h + 1)).isOpen then 0 else nth s.sec.role (h + 1)
  others : ∀ k, k ≠ h → (nth t.hif.pcie k).settings = (nth s.hif.pcie k).settings
  otherSess : ∀ k, k ≠ h + 1 → (nth t.hif.sess k).settings = (nth s.hif.sess k).settings

theorem pcieDown_down (h : Fin 2) (clear : Bool) (s : State) : FnDown h.val s (pcieDown h.val clear s) := by
  have hh := h.isLt
  have hhost : (BitVec.ofNat 2 (h.val + 1)).toNat = h.val + 1 := fnHost_toNat (h.castLE (by decide))
  have hopen : (nth (s.onHif (Hif.fnDown h.val clear)).hif.sess (h.val + 1)).isOpen = (nth s.hif.sess (h.val + 1)).isOpen := by
    rw [State.onHif_hif, Hif.fnDown, nth_upd_self _ _ _ (by omega)]
  rw [pcieDown_eq]
  refine ⟨?closed, fun r hr => ?rings, ?role, fun k hk => ?others, fun k hk => ?otherSess⟩
  case closed => simpa only [hhost] using endSession_closed (BitVec.ofNat 2 (h.val + 1)) 3 (s.onHif (Hif.fnDown h.val clear))
  case rings =>
    rw [endSession_pcie, State.onHif_hif, Hif.fnDown, nth_upd_self _ _ _ hh]
    exact PcieFn.down_rings clear _ hr
  case role =>
    have hrole := endSession_role (BitVec.ofNat 2 (h.val + 1)) 3 (s.onHif (Hif.fnDown h.val clear))
    rw [hhost, hopen] at hrole
    exact hrole
  case others =>
    rw [endSession_pcie, State.onHif_hif, Hif.fnDown, nth_upd_other _ _ _ _ hk.symm]
  case otherSess =>
    rw [endSession_otherSess _ _ _ (by rwa [hhost]), State.onHif_hif, Hif.fnDown, nth_upd_other _ _ _ _ hk.symm]

/-- FLR, PERST_N while its bank has power, and a link that goes down take the function down. -/
theorem fnEvent_down (h : Fin 2) {i : Instr} {s : State} (hi : i ∈ [Instr.flr h, .perstN h, .dlDown h]) (hp : i = .perstN h → railOn 0 s = true) :
    ∃ t, exec i s = .next t ∧ FnDown h.val s t := by
  simp only [List.mem_cons, List.not_mem_nil, or_false] at hi
  obtain rfl | rfl | rfl := hi
  · exact ⟨_, rfl, pcieDown_down h true s⟩
  · refine ⟨pcieDown h.val true (s.onPwr fun p => { p with doms := p.doms &&& ~~~(bit1 144 (132 + h.val)) }), ?_, ?_⟩
    · simp only [exec, execPerstN, hp rfl, Bool.not_true, Bool.false_eq_true, if_false]
    · obtain ⟨closed, rings, role, others, otherSess⟩ := pcieDown_down h true (s.onPwr fun p => { p with doms := p.doms &&& ~~~(bit1 144 (132 + h.val)) })
      exact ⟨closed, rings, role, others, otherSess⟩
  · exact ⟨_, rfl, pcieDown_down h false s⟩

/-- A lease whose time is over ends its session and the host's role, and is counted. -/
theorem leaseExpire_over (h : Fin 3) {s : State} (ho : (nth s.hif.sess (h.val + 1)).isOpen = true) (hle : (nth s.hif.sess (h.val + 1)).lease = true)
    (hn : (nth s.hif.sess (h.val + 1)).leaseStart + (nth s.hif.sess (h.val + 1)).leaseMs.toNat * 1000000 ≤ s.ns) :
    ∃ t, exec (.leaseExpire h) s = .next t ∧ onlyReports ((s.onHif fun x => { x with sess := upd x.sess (h.val + 1) fun q => { q with
      lapseCnt := sat q.lapseCnt, isOpen := false, lease := false } }).onSec (Sec.noRole (h.val + 1))) t := by
  let u := s.onHif fun x => { x with sess := upd x.sess (h.val + 1) fun q => { q with lapseCnt := sat q.lapseCnt } }
  have hexec : exec (.leaseExpire h) s = .next (endSession (BitVec.ofNat 2 (h.val + 1)) 2 (hifRaise (bit1 11 (6 + h.val)) u)) := by
    simp only [exec, execLeaseExpire, ho, hle, hn, decide_true, Bool.and_self, if_true]
    rfl
  have hopen : (nth u.hif.sess (h.val + 1)).isOpen = true := by
    rw [State.onHif_hif, nth_upd_self _ _ _ (Nat.succ_lt_succ h.isLt), ho]
  have hended := endSession_same (hifRaise_only (bit1 11 (6 + h.val)) u (onlyReports_refl _)) (BitVec.ofNat 2 (h.val + 1)) 2
  rw [fnHost_toNat, if_pos hopen] at hended
  refine ⟨_, hexec, ?_⟩
  simp only [u, State.sessionEnded, State.onHif, upd_upd] at hended
  exact hended

/-! ## A transfer's end (R355 to R357, R436) -/

/-- No buffer waits to be freed. -/
def State.noneFreed (s : State) : Prop := ∀ x ∈ s.cmp.bufs, x.freePending = none

/-- From s to t transfers, memory and the absence of freed buffers are kept. -/
structure SameTransfers (s t : State) : Prop where
  ingests : t.hif.ingests = s.hif.ingests
  mem : s.noneFreed → t.mem = s.mem
  none : s.noneFreed → t.noneFreed

section
variable {s t u : State}

theorem SameTransfers.refl (s : State) : SameTransfers s s := ⟨rfl, fun _ => rfl, id⟩

theorem SameTransfers.trans (h : SameTransfers s t) (k : SameTransfers t u) : SameTransfers s u :=
  ⟨k.ingests.trans h.ingests, fun hs => (k.mem (h.none hs)).trans (h.mem hs), fun hs => k.none (h.none hs)⟩

theorem SameTransfers.of_only (h : onlyReports s t) : SameTransfers s t :=
  ⟨show t.settings.hif.ingests = s.settings.hif.ingests by rw [h], fun _ => only_mem h, fun hs => by rwa [State.noneFreed, only_cmp h]⟩

theorem complete_transfers (h : Held) (st : Status) (d : Word) (s : State) : SameTransfers s (complete h st d s) :=
  .of_only (complete_only _ _ _ _ (onlyReports_refl s))

theorem dropBuf_ingests (b : Buffer) (s : State) : (dropBuf b s).hif.ingests = s.hif.ingests := by
  unfold dropBuf
  dsimp only [State.onCmp_hif]
  split
  · split <;> rfl
  · rfl

/-- A sweep finds nothing to free when no buffer waits to be freed. -/
theorem sweepBuffers_eq_self (h : s.noneFreed) : sweepBuffers s = s := by
  refine List.foldlRecOn (motive := fun t : State => t = s) _ _ rfl fun t ht b hb => ?_
  simp only [h b hb, ht]

theorem sweepBuffers_ingests (s : State) : (sweepBuffers s).hif.ingests = s.hif.ingests := by
  refine List.foldlRecOn (motive := fun t : State => t.hif.ingests = s.hif.ingests) _ _ rfl fun t ht b _ => ?_
  split
  · exact ht
  · split
    · exact ht
    · exact (SameTransfers.of_only (complete_only _ _ _ _ (sendEvent_only _ _ _ _ _ (onlyReports_refl _)))).ingests.trans
        ((dropBuf_ingests ..).trans ht)

theorem unname_transfers (b : BitVec 32) (s : State) : SameTransfers s (unname b s) := by
  refine ⟨sweepBuffers_ingests _, fun hs => ?_, fun hs => ?_⟩
  all_goals rw [show unname b s = s.onCmp _ from sweepBuffers_eq_self (s := s.onCmp fun c => { c with named := c.named.erase b }) hs]
  · rfl
  · exact hs

theorem signalBuf_transfers (b : BitVec 32) (f : BitVec 32 → BitVec 32) (s : State) : SameTransfers s (signalBuf b f s) := by
  refine ⟨rfl, fun _ => rfl, fun hs x hx => ?_⟩
  obtain ⟨y, hy, rfl⟩ := List.mem_map.1 hx
  split <;> exact hs y hy

theorem settleFences_transfers (s : State) : SameTransfers s (settleFences s) := by
  refine List.foldlRecOn (motive := SameTransfers s) _ _ (.refl s) fun t ht h _ => ?_
  split
  · split
    · exact ht
    · exact ht.trans (complete_transfers ..)
  · split
    · dsimp only
      split
      · exact ht
      · exact ((ht.trans (signalBuf_transfers ..)).trans (unname_transfers ..)).trans (complete_transfers ..)
    · exact ht

/-- The settings without the memory. -/
def State.noMem (s : State) : State := { s.settings with mem := {} }

theorem only_noMem (h : onlyReports s t) : t.noMem = s.noMem := congrArg (fun x : State => { x with mem := {} }) h

theorem Metered.noMem (h : Metered s t) : t.noMem = s.noMem := by
  obtain ⟨_, _, _, _, _, rfl⟩ := h
  rfl

/-- Writes by bursts change the memory alone. -/
theorem portWrite_noMem (q : MemReq) (d : List Byte) (s : State) : (portWrite q d s).noMem = s.noMem := by
  refine List.foldlRecOn (motive := fun t : State => t.noMem = s.noMem) _ _ rfl fun t ht w _ => ?_
  obtain ⟨u, hu, h⟩ := serveBurst_write (q := { q with
    addr := w.1, data := some (slice d (w.1 - q.addr) w.2), closes := w.1 + w.2 == q.addr + d.length }) rfl (meter q.port.val t)
  refine Eq.trans ?_ (((meter_metered _ t).trans hu).noMem.trans ht)
  rcases h with h | h | h <;> rw [h]
  · exact (only_noMem (memRaise_only _ _ (onlyReports_refl _))).trans rfl
  · rfl

theorem bufStore_noMem (q : MemReq) (b : Buffer) (o : Nat) (d : List Byte) (s : State) : (bufStore q b o d s).noMem = s.noMem := by
  unfold bufStore
  cases b.place with
  | none => rfl
  | some a => exact portWrite_noMem ..

end

/-- The oldest transfer of a host, with data, unprotected and without a signal: its bytes are stored, and what waits for it goes on. -/
theorem ingestTransferDone_plain {host : Fin 3} {s : State} {h : Held} {b : Buffer}
    (hf : (s.hif.ingests.find? fun h => h.cmd.host.toNat == host.val + 1) = some h) (hd : ingestDecrypt h.cmd = false)
    (hb : cmdBuf h.cmd s = some b) (hs : ingestSignal h.cmd = false) (bs : List Byte) :
    exec (.ingestTransferDone host (.data bs)) s = .next (settleFences (unname (BitVec.ofNat 32 (u32 (Cmd.payload h.cmd) 0)) (complete h .done 0
      (bufStore { port := 0 } b (ingestOfs h.cmd) (slice bs 0 (ingestLen h.cmd)) (s.onHif fun x => { x with ingests := x.ingests.erase h }))))) := by
  let u := s.onHif fun x => { x with ingests := x.ingests.erase h }
  have hdeposit : deposit h.cmd (slice bs 0 (ingestLen h.cmd)) u =
      bufStore { port := 0 } b (ingestOfs h.cmd) (slice bs 0 (ingestLen h.cmd)) u := by
    have hwrite : writeIngest h.cmd (slice bs 0 (ingestLen h.cmd)) u = bufStore { port := 0 } b (ingestOfs h.cmd) (slice bs 0 (ingestLen h.cmd)) u := by
      rw [writeIngest, show cmdBuf h.cmd u = some b from hb, hd]
    rw [deposit, hwrite, hs]
    split <;> rfl
  simp only [exec, execIngestTransferDone, hf, hd, Bool.false_and, Bool.false_eq_true, if_false]
  rw [hdeposit]

end Sys2Proof.Machine

namespace Sys2Proof.Proofs
open Sys2Proof.Machine

/-- Settles O41: each event by what its own operation leaves. -/
theorem sessionsCoresAndJournalEvents : Obligations.SessionsCoresAndJournalEvents := by
  refine ⟨fun k busy s hk => ?watchdog, fun k s hk hw => ?powerOn,
    fun k s hk hn => ?idleOff, fun s hl hr => ?ready, fun s hr => ?recovery, fun ok s hj => ?persisted, fun h s hr => ?noBank,
    fun h s i hi hp => ?down, fun h s ho hle hn => ?lease, fun host bs s h b hf hd hb hs => ?ingest⟩
  case watchdog =>
    obtain ⟨t, ht, honly, hcores, hbusy⟩ := cpWatchdog_core hk busy
    have hidle := resetCore_idle hk
    have hcore : nth t.hif.cores k.val =
        { (nth s.hif.cores k.val).restarted with resetCnt := sat (nth s.hif.cores k.val).resetCnt } := by
      rw [hcores, resetCore_core k.isLt]
    refine ⟨t, ht, onlyReports_trans hidle honly, by rw [hcore], by rw [hcore, CpCore.restarted, if_neg hk], fun op c hb hd hc hr => ?_⟩
    rw [hbusy op c hb]
    exact abortCommand_journal ((only_deaf hidle c).trans hd) hc (by rwa [only_mgtSt hidle])
  case powerOn =>
    simp only [exec, execCpCorePowerOn, hk, hw, decide_true, beq_self_eq_true, Bool.and_self, if_true]
  case idleOff =>
    simp only [exec, execCpCoreIdleOff, hn, decide_true, ne_eq, hk, not_false_eq_true, Bool.and_self, if_true]
  case ready =>
    have hr' : (s.mgt.st != .recovery) = true := bne_iff_ne.2 hr
    simp only [exec, execHifReady, hl, hr', Bool.and_self, if_true]
  case recovery => simp only [exec, execHifReady, hr, bne_self_eq_false, Bool.and_false, Bool.false_eq_true, if_false]
  case persisted =>
    cases ok with
    | true =>
      refine ⟨flushReplies (s.onHif fun x => { x with jhead := oldestOnWay s }), ?_, fun _ => flushReplies_only _ (onlyReports_refl _), nofun⟩
      simp only [exec, execJournalEntryPersisted, if_neg (Nat.not_le.2 hj), if_true]
    | false =>
      refine ⟨flushReplies (hifRaise 0x400 (s.onHif fun x => { x with isVolatile := true })), ?_, nofun, fun _ => ⟨?_, ?_⟩⟩
      · simp only [exec, execJournalEntryPersisted, if_neg (Nat.not_le.2 hj), Bool.false_eq_true, if_false]
      · exact flushReplies_only _ (hifRaise_only _ _ (onlyReports_refl _))
      · rw [flushReplies_hifSticky, hifRaise_hifSticky, BitVec.getLsbD_or]
        simp
  case noBank => simp only [exec, execPerstN, hr, Bool.not_false, if_true]
  case down =>
    obtain ⟨t, ht, hdown⟩ := fnEvent_down h hi hp
    exact ⟨t, ht, hdown.closed, hdown.rings, hdown.role, hdown.others, hdown.otherSess⟩
  case lease => exact leaseExpire_over h ho hle hn
  case ingest =>
    refine ⟨_, ingestTransferDone_plain hf hd hb hs bs, ?_⟩
    have hstore := bufStore_noMem { port := 0 } b (ingestOfs h.cmd) (slice bs 0 (ingestLen h.cmd))
      (s.onHif fun x => { x with ingests := x.ingests.erase h })
    have hrest := ((complete_transfers h .done 0 (bufStore { port := 0 } b (ingestOfs h.cmd) (slice bs 0 (ingestLen h.cmd))
      (s.onHif fun x => { x with ingests := x.ingests.erase h }))).trans (unname_transfers (BitVec.ofNat 32 (u32 (Cmd.payload h.cmd) 0)) _)).trans
      (settleFences_transfers _)
    refine ⟨hrest.ingests.trans (congrArg (fun x : State => x.hif.ingests) hstore), fun hfree => hrest.mem ?_⟩
    intro x hx
    have hcmp := congrArg (fun x : State => x.cmp.bufs) hstore
    exact hfree x (hcmp ▸ hx)

end Sys2Proof.Proofs
end

section
/-!
PROOFS. The memory commands (R394, R396, R399, R402, R405, R413, R421). O32 is settled here.
-/
namespace Sys2Proof.Machine

/-! ## The same change of two states that differ only in reports -/

/-- The management subsystem without its log, what of it the flash has, and the sticky bits. -/
def Mgt.settings (m : Mgt) : Mgt := { m with log := [], logSeq := 0, logUnflushed := 0, logLostCnt := 0, flashLog := [], flashCnt := 0, sticky := 0 }

section
variable {a s : State} (h : onlyReports a s)
include h

theorem only_mgt : s.mgt.settings = a.mgt.settings := congrArg State.mgt h

/-- A change of the management subsystem that neither looks at nor touches its log. -/
theorem same_onMgt {f : Mgt → Mgt} (hf : ∀ m, (f m).settings = f m.settings) : onlyReports (a.onMgt f) (s.onMgt f) := by
  have hm : (f s.mgt).settings = (f a.mgt).settings := by rw [hf, only_mgt h, ← hf]
  have hrest := congrArg (fun x : State => { x with mgt := (f a.mgt).settings }) h
  exact (congrArg (fun m : Mgt => { s.settings with mgt := m }) hm).trans hrest

theorem same_memRaise (b : BitVec 10) : onlyReports (memRaise b a) (memRaise b s) := by
  have ha := memRaise_only b a (onlyReports_refl _)
  have hs := memRaise_only b s (onlyReports_refl _)
  exact hs.trans ((same_onMem h _).trans ha.symm)

theorem same_startMigration (lr : Nat) (c : Option Held) : onlyReports (startMigration lr c a) (startMigration lr c s) := by
  unfold startMigration
  rw [only_mem h]
  refine same_memRaise ?_ _
  dsimp only [State.onMgt_ns]
  rw [only_ns h]
  exact same_onMem (same_onMgt h (by intro; rfl)) _

theorem same_startRetrain (pc : Nat) : onlyReports (startRetrain pc a) (startRetrain pc s) := by
  unfold startRetrain
  rw [only_mem h]
  exact same_ite h (same_onMem h _)

theorem same_reserve (x : Held) : onlyReports (specMemReserveSet.apply x a) (specMemReserveSet.apply x s) := by
  simp only [specMemReserveSet]
  rw [only_mem h]
  exact same_ite (same_onSeq (same_onMem h _) _) (same_onMem h _)

end

/-- MEM_RESERVE_SET calls for validation when the display's reservation shrinks. -/
theorem memReserveSet_apply (h : Held) (s : State) : specMemReserveSet.apply h s =
    let r := parseRes (Cmd.payload h.cmd)
    { s with mem := { s.mem with res := r }, seq := { s.seq with reval := s.seq.reval || decide (nth r 0 < nth s.mem.res 0) } } := by
  simp only [specMemReserveSet]
  split
  next hless => simp only [hless, Bool.or_true, State.onSeq, State.onMem]
  next hless => simp only [hless, Bool.or_false, State.onMem]

end Sys2Proof.Machine

namespace Sys2Proof.Proofs
open Sys2Proof.Machine

/-- Settles O32: each effect is the same change of states that differ only in reports. -/
theorem memoryCommandsSetLayoutPolicyAndRanks : Obligations.MemoryCommandsSetLayoutPolicyAndRanks := by
  refine ⟨completes_of_effect (fun _ _ => rfl) ?layout, completes_of_effect (fun _ _ => rfl) ?reserve, completes_of_effect (fun _ _ => rfl) ?policy,
    completes_of_effect (fun _ _ => rfl) ?fence, completes_of_effect (fun _ _ => rfl) ?retire, completes_of_effect (fun _ _ => rfl) ?retrain,
    fun h s ho hd => ?atBoundary⟩
  case layout =>
    rintro c s h u t hu rfl - ht
    exact onlyReports_trans (same_onMem hu _) ht
  case reserve =>
    rintro c s h u t hu rfl - ht
    exact onlyReports_trans hu ht
  case policy =>
    rintro c s h u t hu rfl - ht
    exact onlyReports_trans (same_onMem hu _) ht
  case fence =>
    rintro c s h u t hu rfl - ht
    refine onlyReports_trans (onlyReports_trans hu ?_) ht
    simp only [specMemFence]
    split <;> exact onlyReports_refl u
  case retire =>
    rintro c s h u t hu rfl ho ht
    exact ⟨h, rfl, ho, onlyReports_trans (same_startMigration hu _ _) ht⟩
  case retrain =>
    rintro c s h u t hu rfl ho ht
    refine ⟨fun hnone => ?_, fun hsome => ⟨h, rfl, ho, ?_⟩⟩
    · simp only [specMemRetrain, hnone] at ht
      exact onlyReports_trans hu ht
    · simp only [specMemRetrain, List.isEmpty_eq_false_iff.2 hsome, Bool.false_eq_true, if_false] at ht
      exact onlyReports_trans (same_foldl (fun i _ _ hk => same_startRetrain hk i) _ (same_onMem hu _)) ht
  case atBoundary =>
    have hfind : boundaryOps.find? (fun x => x.op == h.opcode) = some specMemReserveSet := by rw [ho]; rfl
    have happly := applyHeld_same s hfind hd rfl (by rw [ho]; rfl) fun hk => same_reserve hk h
    rwa [memReserveSet_apply] at happly

end Sys2Proof.Proofs
end

section
/-!
PROOFS. The management commands (R458, R460, R466, R468 to R471, R474, R475). O33 is settled here.
-/
namespace Sys2Proof.Machine

/-- A re-initialisation leaves the telemetry of every defined item stale. -/
theorem reinit_eq (s : State) : reinit s = { s with
    mgt := { s.mgt with update := none, st := if s.mgt.st = .halt then .halt else .reinit }
    pwr := { s.pwr with items := s.pwr.items.map fun i => { i with stale := i.stale || i.defined } } } := by
  have hitem (i : PwrItem) : (if i.defined then { i with stale := true } else i) = { i with stale := i.stale || i.defined } := by
    split
    next hd => simp only [show (i.stale || i.defined) = true by rw [hd, Bool.or_true]]
    next hd => simp only [show (i.stale || i.defined) = i.stale by rw [Bool.eq_false_iff.2 hd, Bool.or_false]]
  simp only [reinit, State.onMgt, State.onPwr, hitem]

section
variable {a s : State} (h : onlyReports a s)
include h

theorem only_updateSlot : updateSlot s.mgt = updateSlot a.mgt :=
  show updateSlot s.mgt.settings = updateSlot a.mgt.settings by rw [only_mgt h]

theorem only_runImage : runImage s.mgt = runImage a.mgt := show runImage s.mgt.settings = runImage a.mgt.settings by rw [only_mgt h]

theorem only_fuses : s.mgt.fuses = a.mgt.fuses := show s.mgt.settings.fuses = a.mgt.settings.fuses by rw [only_mgt h]

theorem only_revoked : s.mgt.revoked = a.mgt.revoked := show s.mgt.settings.revoked = a.mgt.settings.revoked by rw [only_mgt h]

theorem same_retireSlots : onlyReports (a.onMgt retireSlots) (s.onMgt retireSlots) := by
  refine same_onMgt h fun m => ?_
  simp only [retireSlots, apply_ite Mgt.settings]
  rfl

/-- UPDATE_BEGIN on its slot. -/
theorem same_updateBegin (x : Held) (n : Nat) :
    onlyReports (a.onMgt fun m => saveTable { m with
      slots := upd m.slots (updateSlot m) fun _ => { st := .incomplete }, update := some (updateSlot m, n, []), updateCmd := some x })
      ((setSlot (updateSlot s.mgt) (fun _ => { st := .incomplete }) s).onMgt fun m => { m with
        update := some (updateSlot s.mgt, n, []), updateCmd := some x }) :=
  same_onMgt h (f := fun m => saveTable { m with
    slots := upd m.slots (updateSlot m) fun _ => { st := .incomplete }, update := some (updateSlot m, n, []), updateCmd := some x }) (by intro; rfl)

theorem same_reinit : onlyReports (reinit a) (reinit s) := same_onPwr (same_onMgt h (by intro; rfl)) _

end

/-- A good copy to the host is in the outbox after acceptance, and acceptance changes nothing else than reports. -/
theorem accept_copyOut {sp : OpSpec} {c : Cmd} {s : State} (ha : accepted sp c s = true) {addr : Nat} {bs : List Byte} {d : Word}
    (he : sp.effect (heldOf sp c (atChecks c s)) (atEffect sp c s) = copyOut (heldOf sp c (atChecks c s)) addr bs d (atEffect sp c s)) :
    onlyReports s (accept sp c s) ∧
    (Config.hostWriteFails (s.hif.jseq + 1).toNat = false → .bytes c.host addr bs ∈ (accept sp c s).hif.outbox) := by
  have hj : (heldOf sp c (atChecks c s)).jseq = s.hif.jseq + 1 := congrArg (· + 1) (atChecks_jseq s c)
  have honly := accept_effect sp c s ha
  rw [he] at honly
  refine ⟨onlyReports_trans (onlyReports_trans (atEffect_only sp c s) (copyOut_only ..)) honly, fun hw => accept_outbox ha _ ?_⟩
  rw [he, copyOut_good (by rwa [hj])]
  exact List.mem_cons_self

end Sys2Proof.Machine

namespace Sys2Proof.Proofs
open Sys2Proof.Machine

/-- Settles O33: each effect is the same change of states that differ only in reports. -/
theorem managementCommandsUpdateReadAndReinitialise : Obligations.ManagementCommandsUpdateReadAndReinitialise := by
  refine ⟨completes_of_effect (fun _ _ => rfl) ?begin, completes_of_effect (fun _ _ => rfl) ?data, completes_of_effect (fun _ _ => rfl) ?commit,
    fun row hrow => completes_of_effect ?fuseRow ?fuse, completes_of_effect (fun _ _ => rfl) ?bootcfg,
    fun c s ha => ⟨_, rfl, ?read⟩, completes_of_effect (fun _ _ => rfl) ?clear, completes_of_effect (fun _ _ => rfl) ?reinit⟩
  case begin =>
    rintro c s h u t hu rfl ho ht
    exact ⟨h, rfl, ho, onlyReports_trans (same_updateBegin hu h _) ht⟩
  case data =>
    rintro c s h u t hu rfl ho ht
    exact ⟨h, rfl, ho, onlyReports_trans (same_onMgt hu (by intro; rfl)) ht⟩
  case commit =>
    rintro c s h u t hu rfl ho ht
    exact ⟨h, rfl, ho, onlyReports_trans (same_onMgt hu (by intro; rfl)) ht⟩
  case fuseRow =>
    simp only [List.mem_cons, List.not_mem_nil, or_false] at hrow
    obtain rfl | rfl := hrow <;> exact fun _ _ => rfl
  case fuse =>
    rintro c s h u t hu rfl ho ht
    simp only [specMgtFuse, only_runImage hu, only_fuses hu, only_revoked hu] at ht
    dsimp only
    split
    next h1 =>
      obtain ⟨ho1, hgoal⟩ := h1
      simp only [ho1, hgoal, beq_self_eq_true, decide_true, Bool.and_self, Bool.true_or, if_true] at ht
      exact onlyReports_trans (same_retireSlots hu) ht
    next h1 =>
      have hfst : (fuseOp h.cmd == 1 && decide (imgSvn (runImage s.mgt) ≤ s.mgt.fuses)) = false := by simpa using h1
      split
      next h2 =>
        obtain ⟨ho2, hrev⟩ := h2
        simp only [ho2, hrev, beq_self_eq_true, Bool.and_self, Bool.or_true, if_true] at ht
        exact onlyReports_trans hu ht
      next h2 =>
        have hsnd : (fuseOp h.cmd == 2 && s.mgt.revoked.getLsbD (fuseIdx h.cmd)) = false := by simpa using h2
        simp only [hfst, hsnd, Bool.or_self, Bool.false_eq_true, if_false] at ht
        exact ⟨h, rfl, ho, onlyReports_trans (same_onMgt hu (by intro; rfl)) ht⟩
  case bootcfg =>
    rintro c s h u t hu rfl ho ht
    exact onlyReports_trans (same_onMgt hu (by intro; rfl)) ht
  case read =>
    obtain ⟨honly, hout⟩ := accept_copyOut ha (bs := mgtReadBytes c (atEffect specMgtRead c s)) rfl
    exact ⟨_, atEffect_only specMgtRead c s, honly, hout⟩
  case clear =>
    rintro c s h u t hu rfl ho ht
    exact onlyReports_trans (same_onMgt hu (by intro; rfl)) ht
  case reinit =>
    rintro c s h u t hu rfl ho ht
    refine ⟨h, rfl, ho, onlyReports_trans ?_ ht⟩
    have hre := same_reinit (same_onMgt hu (f := fun m => { m with reinitCmd := some h }) (by intro; rfl))
    rwa [reinit_eq (s.onMgt _)] at hre

end Sys2Proof.Proofs
end

section
/-!
PROOFS. The enclave's commands, and what a zeroisation leaves (R477, R479 to R482, R485, R487, R489). O34 is settled here.
-/
namespace Sys2Proof.Machine

/-! ## The enclave without its DRBG, derived keys and sticky bits -/

/-- What of the enclave neither its DRBG, nor a derivation of keys, nor a sticky bit changes. -/
def Sec.kept (x : Sec) : Sec :=
  { x with sticky := 0, identity := [], storageKey := [], drbgState := [], drbgIdx := 0, drbgReq := 0, drbgNs := 0 }

/-- The enclave that a zeroisation leaves, its DRBG, derived keys and sticky bits aside. -/
def Sec.zeroised (x : Sec) : Sec :=
  { x.kept with
    services := [], keys := x.keys.map clearSlot, kem := Vector.replicate 4 none, nonce := Vector.replicate 4 none
    role := Vector.replicate 4 0, index := Vector.replicate 4 0
    st := if x.st = .selftest ∨ x.st = .error then x.st else .zeroised
    bbramValid := false, bbram := [], zeroPending := true, zeroCnt := sat x.zeroCnt
    users := Vector.replicate 16 none, markRequired := false, loopMask := 0xF }

theorem only_sec {s t : State} (h : onlyReports s t) : t.sec = s.sec := show t.settings.sec = s.settings.sec by rw [h]

theorem sec_of_outside {s t : State} (h : t.outside = s.outside) : t.sec = s.sec := show t.outside.sec = s.outside.sec by rw [h]

theorem secRaise_sec (b : BitVec 9) (s : State) : (secRaise b s).sec = { s.sec with sticky := s.sec.sticky ||| b } :=
  only_sec (secRaise_only b s (onlyReports_refl _))

section
variable (s : State)

theorem endServices_only : onlyReports (s.onSec fun x => { x with services := [] }) (endServices s) :=
  List.foldlRecOn (motive := onlyReports (s.onSec fun x => { x with services := [] })) _ _ (onlyReports_refl _)
    fun _ ht _ _ => complete_only _ _ _ _ ht

theorem endServices_sec : (endServices s).sec = { s.sec with services := [] } := only_sec (endServices_only s)

theorem fillProtected_sec : (fillProtected s).sec = s.sec := by
  rw [fillProtected, sec_of_outside (outside_wipePictures _)]
  exact wipeBuffers_untouched s (g := State.sec) (fun _ _ t => State.onMem_sec ..) _

theorem loseProtected_sec : (loseProtected s).sec = s.sec := by
  unfold loseProtected
  lift_lets
  intro bs s1 s2
  have h2 : s2.sec = s.sec :=
    foldl_keeps (g := State.sec) (fun t b => (only_sec (sendEvent_only _ _ _ _ _ (onlyReports_refl _))).trans (State.onMem_sec ..)) bs s1
  split
  · exact h2
  · exact ((only_sec (memRaise_only _ _ (onlyReports_refl _))).trans (State.onMem_sec ..)).trans h2

theorem seedDrbg_kept : (seedDrbg s).sec.kept = s.sec.kept := rfl

theorem drbgNext_kept : (drbgNext s).2.sec.kept = s.sec.kept := by
  unfold drbgNext
  dsimp only
  split <;> rfl

theorem zeroise_kept : (zeroise s).sec.kept = s.sec.zeroised := by
  unfold zeroise
  lift_lets
  intro s1 s2 s3
  have h1 : s1.sec = { s.sec with
      services := [], keys := s.sec.keys.map clearSlot, kem := Vector.replicate 4 none, nonce := Vector.replicate 4 none
      role := Vector.replicate 4 0, index := Vector.replicate 4 0 } := by
    simp only [s1, clearKeys, State.onSec_sec, endServices_sec]
  have h2 : s2.sec.kept = s.sec.zeroised := by
    simp only [s2, State.onSec_sec, h1]
    split <;> rfl
  have h3 : s3.sec.kept = s.sec.zeroised := by
    simp only [s3]
    split <;> exact h2
  rw [secRaise_sec, loseProtected_sec, fillProtected_sec]
  exact h3

theorem resume_kept : (resume s).sec.kept = { s.sec.kept with
    st := .selftest, bbramValid := true, bbram := (drbgNext s).1, zeroPending := false, tamperCause := 0 } := by
  rw [← drbgNext_kept s]
  rfl

end

/-! ## The same operation on two states that differ only in reports -/

section
variable {a s : State} (h : onlyReports a s)
include h

theorem same_seedDrbg : onlyReports (seedDrbg a) (seedDrbg s) := by
  unfold seedDrbg
  rw [only_ns h]
  exact same_onSec h _

theorem same_drbgNext : onlyReports (drbgNext a).2 (drbgNext s).2 := by
  have hnext := same_onSec h fun x => { x with drbgState := Config.drbgStep x.drbgState, drbgReq := x.drbgReq + 1 }
  simp only [drbgNext, State.onSec_sec, only_sec h]
  exact same_ite (same_seedDrbg hnext) hnext

theorem same_secRaise (b : BitVec 9) : onlyReports (secRaise b a) (secRaise b s) := by
  have ha := secRaise_only b a (onlyReports_refl _)
  have hs := secRaise_only b s (onlyReports_refl _)
  exact hs.trans ((same_onSec h _).trans ha.symm)

theorem only_nonceOf (i : Nat) : nonceOf i s = nonceOf i a := by simp only [nonceOf, only_ns h, only_sec h]

theorem only_number (i : Nat) : (nth s.hif.sess i).number = (nth a.hif.sess i).number :=
  show (nth s.hif.sess i).settings.number = (nth a.hif.sess i).settings.number by rw [only_session h i]

theorem only_enrolled (r i : Nat) : enrolled r i s = enrolled r i a := by rw [enrolled, enrolled, only_sec h]

theorem only_loginOk (c : Cmd) (n : List Byte) : loginOk c n s = loginOk c n a := by
  unfold loginOk
  dsimp only
  rw [only_number h, only_enrolled h, only_sec h]

/-- The term of `unwrapKey` is opened as a function, so that no check of this proof evaluates the 60 s of a context in unary. -/
theorem only_unwrapKey (c : Cmd) : unwrapKey c s = unwrapKey c a := by
  have hkem (i : Nat) : kemOf i s = kemOf i a := by rw [kemOf, kemOf, only_ns h, only_sec h]
  obtain ⟨f, hf⟩ : ∃ f, f = unwrapKey := ⟨_, rfl⟩
  rw [← hf]
  delta unwrapKey at hf
  rw [hf]
  beta_reduce
  extract_lets b
  rw [hkem]

end

/-! ## SEC_LOGIN (R479) -/

/-- Host i takes a role under an index. -/
def takeRole (i r x : Nat) (s : State) : State :=
  s.onSec fun y => { y with role := upd y.role i fun _ => BitVec.ofNat 2 r, index := upd y.index i fun _ => BitVec.ofNat 4 x }

/-- A login uses up the host's nonce. -/
def useNonce (i : Nat) (s : State) : State := s.onSec fun x => { x with nonce := upd x.nonce i fun _ => none }

/-- A login that fails; the third in a row locks the host out. -/
def loginFailed (i : Nat) (third : Prop) [Decidable third] (now : Nat) (s : State) : State :=
  secRaise 0x8 ((useNonce i s).onSec fun x => { x with
    authFailCnt := sat x.authFailCnt, failRun := upd x.failRun i fun n => if third then 0 else n + 1
    lockout := upd x.lockout i fun l => if third then now + 60000000000 else l })

/-- A login, by its outcome. -/
theorem secLogin_effect (h : Held) (s : State) : (specSecLogin.effect h s).st =
    let b := Cmd.payload h.cmd
    let i := h.cmd.host.toNat
    if u8 b 0 = 0 then takeRole i 0 0 s
    else if loginOk h.cmd ((nonceOf i s).getD []) s then
      (takeRole i (u8 b 0) (u8 b 1) (useNonce i s)).onSec fun x => { x with failRun := upd x.failRun i fun _ => 0 }
    else loginFailed i (nth s.sec.failRun i = 2) s.ns s := by
  simp only [specSecLogin]
  split
  · rfl
  · split
    · rfl
    · have hrun : (nth s.sec.failRun h.cmd.host.toNat + 1 = 3) = (nth s.sec.failRun h.cmd.host.toNat = 2) := by simp
      have hcount : upd s.sec.failRun h.cmd.host.toNat (fun _ => if nth s.sec.failRun h.cmd.host.toNat = 2 then 0
          else nth s.sec.failRun h.cmd.host.toNat + 1) =
          upd s.sec.failRun h.cmd.host.toNat fun n => if nth s.sec.failRun h.cmd.host.toNat = 2 then 0 else n + 1 := upd_congr _ _ rfl
      simp only [loginFailed, hrun, State.onSec, useNonce, hcount, lockoutNs]

end Sys2Proof.Machine

namespace Sys2Proof.Proofs
open Sys2Proof.Machine

/-- Settles O34: each effect is the same change of states that differ only in reports; a zeroisation ends as `zeroise_kept` says. -/
theorem enclaveCommandsLogInAndKeepKeys : Obligations.EnclaveCommandsLogInAndKeepKeys := by
  refine ⟨completes_of_effect (fun _ _ => rfl) ?challenge, completes_of_effect (fun _ _ => rfl) ?login, completes_of_effect (fun _ _ => rfl) ?user,
    completes_of_effect (fun _ _ => rfl) ?policy, completes_of_effect (fun _ _ => rfl) ?mark, completes_of_accepted_effect (fun _ _ => rfl) ?keyLoad,
    completes_of_effect (fun _ _ => rfl) ?keyZero, fun x hx => ?services, completes_of_accepted_effect (fun _ _ => rfl) ?zeroise⟩
  case challenge =>
    rintro c s h u t hu rfl ho ht
    refine onlyReports_trans ?_ ht
    simp only [specSecChallenge]
    rw [only_ns hu, show (drbgNext u).1 = (drbgNext s).1 by simp only [drbgNext, only_sec hu]]
    exact same_onSec (same_drbgNext hu) _
  case login =>
    rintro c s h u t hu rfl ho ht
    rw [secLogin_effect] at ht
    dsimp only at ht
    rw [only_sec hu, only_ns hu, only_nonceOf hu, only_loginOk hu] at ht
    refine ⟨fun h0 => ?_, fun h0 hok => ?_, fun h0 hbad => ?_⟩
    · rw [if_pos h0] at ht
      exact onlyReports_trans (same_onSec hu _) ht
    · rw [if_neg h0, if_pos hok] at ht
      exact onlyReports_trans (same_onSec (same_onSec (same_onSec hu _) _) _) ht
    · rw [if_neg h0, if_neg (Bool.eq_false_iff.1 hbad)] at ht
      exact onlyReports_trans (same_secRaise (same_onSec (same_onSec hu _) _) _) ht
  case user =>
    rintro c s h u t hu rfl ho ht
    exact onlyReports_trans (same_onSec hu _) ht
  case policy =>
    rintro c s h u t hu rfl ho ht
    exact onlyReports_trans (same_onSec hu _) ht
  case mark =>
    rintro c s h u t hu rfl ho ht
    exact onlyReports_trans (same_onSec hu _) ht
  case keyLoad =>
    rintro c s h u t ha hu rfl ht
    have hp : denied (unwrapKey h.cmd (atChecks h.cmd s)).isNone = none := checks_eq_none (check_of_accepted ha) _ (by simp)
    have hsome : (unwrapKey h.cmd (atChecks h.cmd s)).isNone = false := chk_eq_none hp
    obtain ⟨p, hp⟩ := Option.isSome_iff_exists.1 (Option.isNone_eq_false_iff.1 hsome)
    rw [only_unwrapKey (atChecks_only h.cmd s)] at hp
    refine ⟨p, hp, onlyReports_trans ?_ ht⟩
    have hpu : (unwrapKey h.cmd u).getD [] = p := by rw [only_unwrapKey hu, hp, Option.getD_some]
    simp only [specSecKeyLoad, hpu]
    exact same_onSec hu _
  case keyZero =>
    rintro c s h u t hu rfl ho ht
    exact onlyReports_trans (same_onSec hu _) ht
  case services =>
    have hservice (sp : OpSpec) (he : sp.effect = startService) (row : Cmd → Instr) (hx : ∀ c s, exec (row c) s = .next (accept sp c s)) :
        Completes sp row fun c s t => ∃ h : Held, h.cmd = c ∧ h.opcode = sp.op ∧
          onlyReports (s.onSec fun y => { y with services := y.services ++ [h] }) t :=
      completes_of_effect hx fun c s h u t hu hc ho ht => ⟨h, hc, ho, onlyReports_trans (same_onSec hu _) (by rwa [he] at ht)⟩
    simp only [List.mem_cons, List.not_mem_nil, or_false] at hx
    obtain rfl | rfl | rfl | rfl := hx
    all_goals exact hservice _ rfl _ fun _ _ => rfl
  case zeroise =>
    rintro c s h u t ha hu rfl ht
    have hd : denied (roleOf h.cmd (atChecks h.cmd s) != 2 || !((atChecks h.cmd s).sec.st == .operational ||
        ((atChecks h.cmd s).sec.st == .zeroised && cfgBit h.cmd))) = none := checks_eq_none (check_of_accepted ha) _ (by simp)
    have hst : s.sec.st ≠ .selftest ∧ s.sec.st ≠ .error := by
      have := chk_eq_none hd
      rw [only_sec (atChecks_only h.cmd s)] at this
      constructor <;> intro hs <;> simp [hs] at this
    have hzero : s.sec.zeroised.st = .zeroised := if_neg (not_or.2 hst)
    have hu' : (zeroise u).sec.kept = s.sec.zeroised := by rw [zeroise_kept, only_sec hu]
    cases hc : cfgBit h.cmd with
    | true =>
      have heffect : (specSecZeroise.effect h u).st = resume (zeroise u) := if_pos hc
      rw [heffect] at ht
      have hkept := resume_kept (zeroise u)
      rw [← only_sec ht, hu'] at hkept
      simp only [show bitOf (u8 (Cmd.payload h.cmd) 0) 0 = true from hc, if_true]
      exact ⟨⟨u, hu, ht⟩, congrArg Sec.st hkept, congrArg Sec.keys hkept, congrArg Sec.kem hkept, congrArg Sec.role hkept,
        congrArg Sec.users hkept, congrArg Sec.zeroCnt hkept⟩
    | false =>
      have heffect : (specSecZeroise.effect h u).st = zeroise u := if_neg (by rw [hc]; decide)
      rw [heffect] at ht
      rw [← only_sec ht] at hu'
      simp only [show bitOf (u8 (Cmd.payload h.cmd) 0) 0 = false from hc, Bool.false_eq_true, if_false]
      exact ⟨⟨u, hu, ht⟩, (congrArg Sec.st hu').trans hzero, congrArg Sec.keys hu', congrArg Sec.kem hu', congrArg Sec.role hu',
        congrArg Sec.users hu', congrArg Sec.zeroCnt hu'⟩

end Sys2Proof.Proofs
end

section
/-!
PROOFS. What does not look at the picture path stays as it is while frames, surfaces, links and arrays are stopped; the commands of power
and standby (R509, R511, R520, R526, R527). O35 is settled here.
-/
namespace Sys2Proof.Machine

/-! ## What does not look at the picture path -/

/-- g reads nothing of the hosts' interface, of the picture path (sequencer, light, loops, slicers, links, arrays, compositor, fabric, memory
and their domains), and of what reports and the queue change. -/
structure PictureBlind {β : Type} (g : State → β) : Prop where
  reports : ∀ {s t : State}, onlyReports s t → g t = g s
  raise : ∀ (s : State) (i : Instr), g (s.raise i) = g s
  hif : ∀ (s : State) (f : Hif → Hif), g (s.onHif f) = g s
  seq : ∀ (s : State) (f : Seq → Seq), g (s.onSeq f) = g s
  ill : ∀ (s : State) (f : Ill → Ill), g (s.onIll f) = g s
  cle : ∀ (s : State) (f : Cle → Cle), g (s.onCle f) = g s
  slc : ∀ (s : State) (f : Slc → Slc), g (s.onSlc f) = g s
  glk : ∀ (s : State) (f : Glk → Glk), g (s.onGlk f) = g s
  ahm : ∀ (s : State) (f : Ahm → Ahm), g (s.onAhm f) = g s
  cmp : ∀ (s : State) (f : Cmp → Cmp), g (s.onCmp f) = g s
  fab : ∀ (s : State) (f : Fab → Fab), g (s.onFab f) = g s
  mem : ∀ (s : State) (f : Mem → Mem), g (s.onMem f) = g s
  doms : ∀ (s : State) (f : Pwr → BitVec 144), g (s.onPwr fun p => { p with doms := f p }) = g s

namespace PictureBlind
variable {β : Type} {g : State → β} (hg : PictureBlind g) (s : State)
include hg

/-! ### Parts of the blocks -/

theorem port (p : Nat) (f) : g (s.onPort p f) = g s := hg.seq ..
theorem octet (k : Nat) (f) : g (s.onOctet k f) = g s := hg.glk ..
theorem link (p : Nat) (f) : g (s.onLink p f) = g s := hg.glk ..
theorem arr (p : Nat) (f) : g (s.onArr p f) = g s := hg.ahm ..
theorem store (v : Nat) (f) : g (s.onStore v f) = g s := hg.slc ..
theorem cview (v : Nat) (f) : g (s.onCview v f) = g s := hg.cmp ..
theorem pipe (i : Nat) (f) : g (s.onPipe i f) = g s := hg.cmp ..
theorem fview (v : Nat) (f) : g (s.onFview v f) = g s := hg.fab ..
theorem cluster (n : Nat) (f) : g (s.onCluster n f) = g s := hg.fab ..

/-! ### Reports -/

theorem sticky {w : Nat} (vec off : Nat) (old b : BitVec w) : g (stickyUp vec off old b s) = g s :=
  hg.reports (stickyUp_only _ _ _ _ s (onlyReports_refl s))
theorem complete (h : Held) (st : Status) (d : Word) : g (complete h st d s) = g s :=
  hg.reports (complete_only _ _ _ s (onlyReports_refl s))
theorem completeOpt (h : Option Held) (st : Status) (d : Word) : g (completeOpt h st d s) = g s :=
  hg.reports (completeOpt_only _ _ _ s (onlyReports_refl s))
theorem sendEvent (host : HostId) (code : BitVec 16) (d : BitVec 32) (v : Nat) : g (sendEvent host code d v s) = g s :=
  hg.reports (sendEvent_only _ _ _ _ s (onlyReports_refl s))

/-! ### Light and domains -/

theorem pruneDoms : g (pruneDoms s) = g s := hg.doms ..

theorem strobe : g (strobe s) = g s := by
  unfold Machine.strobe
  dsimp only
  split
  · rfl
  · exact hg.ill ..

theorem retarget : g (retarget s) = g s := by
  unfold Machine.retarget
  exact hg.ill ..

/-! ### Slicing, compositor and fabric -/

theorem dropSlicing (count : Bool) (v i : Nat) : g (dropSlicing count v i s) = g s := by
  unfold Machine.dropSlicing
  dsimp only
  split
  · split
    · exact (hg.sticky ..).trans ((hg.slc ..).trans ((hg.slc ..).trans (hg.store ..)))
    · exact (hg.slc ..).trans (hg.store ..)
  · rfl

theorem emptyStore (count : Bool) (v : Nat) : g (emptyStore count v s) = g s :=
  (hg.store ..).trans (foldl_keeps (fun t i => hg.dropSlicing t count v i) _ s)

theorem fabDrop (v : Nat) : g (fabDrop v s) = g s := (hg.sticky ..).trans ((hg.fview ..).trans (hg.fview ..))

theorem dropBuf (b : Buffer) : g (dropBuf b s) = g s := by
  unfold Machine.dropBuf
  refine (hg.cmp ..).trans ?_
  split
  · split
    · exact hg.mem ..
    · rfl
  · rfl

theorem sweepBuffers : g (sweepBuffers s) = g s := by
  refine foldl_keeps (fun t b => ?_) _ s
  split
  · rfl
  · split
    · rfl
    · exact (hg.complete ..).trans ((hg.sendEvent ..).trans (hg.dropBuf ..))

theorem abandonSlicing (v n : Nat) : g (abandonSlicing v n s) = g s := by
  unfold Machine.abandonSlicing
  split
  · rfl
  · exact (hg.slc ..).trans (hg.store ..)

theorem abandonFrame (v : Nat) : g (abandonFrame v s) = g s := by
  unfold Machine.abandonFrame
  split
  · rfl
  · exact (hg.sweepBuffers ..).trans ((hg.fview ..).trans (hg.abandonSlicing ..))

theorem dropFrame (v : Nat) : g (dropFrame v s) = g s := by
  unfold Machine.dropFrame
  split
  · rfl
  · exact (hg.fabDrop ..).trans ((hg.abandonFrame ..).trans (hg.cview ..))

theorem dropWaiting (v : Nat) : g (dropWaiting v s) = g s := by
  unfold Machine.dropWaiting
  split
  · exact (hg.fabDrop ..).trans (hg.fview ..)
  · rfl

theorem dropAllFrames : g (dropAllFrames s) = g s := by
  refine forN_keeps (fun v t => ?_) 5 s
  refine (hg.dropWaiting ..).trans ((hg.dropFrame ..).trans ((hg.emptyStore ..).trans ?_))
  split
  · exact (hg.fabDrop ..).trans (hg.cview ..)
  · rfl

theorem cycleCluster (n : Nat) : g (cycleCluster n s) = g s := by
  refine (hg.cluster ..).trans ((hg.doms ..).trans ?_)
  split
  · rfl
  · split
    · exact hg.fview ..
    · exact hg.dropFrame ..

theorem clustersOff : g (clustersOff s) = g s := by
  refine forN_keeps (fun n t => ?_) 64 s
  split
  · rfl
  · exact hg.cycleCluster ..
  · exact (hg.cluster ..).trans (hg.cycleCluster ..)

theorem pipesOff : g (pipesOff s) = g s := forN_keeps (fun i t => hg.pipe t i _) 24 s

theorem takeBind (i : Nat) (v : Option (BitVec 3)) : g (takeBind i v s) = g s := by
  unfold Machine.takeBind
  dsimp only
  split
  · exact (hg.pruneDoms ..).trans (hg.pipe ..)
  · exact hg.pipe ..

theorem settleBinds : g (settleBinds s) = g s := by
  refine forN_keeps (fun i t => ?_) 24 s
  split
  · rfl
  · split
    · rfl
    · exact (hg.complete ..).trans (hg.takeBind ..)

theorem enterSelfRefresh : g (enterSelfRefresh s) = g s := by
  unfold Machine.enterSelfRefresh
  split
  · exact hg.mem ..
  · rfl

/-! ### Links and arrays -/

theorem wakeMemory : g (wakeMemory s) = g s := by
  refine forN_keeps (fun i t => ?_) 4 s
  split
  · exact hg.raise ..
  · rfl

theorem resumeLink (p : Nat) : g (resumeLink p s) = g s := by
  unfold Machine.resumeLink
  dsimp only
  split
  · rfl
  · exact hg.link ..

theorem askReload (p : Nat) : g (askReload p s) = g s := (hg.wakeMemory ..).trans ((hg.port ..).trans (hg.resumeLink ..))

theorem updateHold (p : Nat) : g (updateHold p s) = g s := by
  unfold Machine.updateHold
  dsimp only
  split
  · split
    · exact (hg.askReload ..).trans ((hg.strobe ..).trans (hg.arr ..))
    · exact (hg.strobe ..).trans (hg.arr ..)
  · split
    · exact hg.arr ..
    · rfl

theorem endCausePort (p i : Nat) : g (endCausePort p i s) = g s := by
  unfold Machine.endCausePort
  split
  · exact (hg.updateHold ..).trans ((hg.arr ..).trans (hg.arr ..))
  · rfl

theorem abortScan (p : Nat) (next : ArrSt) : g (abortScan p next s) = g s := by
  unfold Machine.abortScan
  split
  · rfl
  · exact (hg.complete ..).trans ((hg.endCausePort ..).trans ((hg.sticky ..).trans ((hg.arr ..).trans (hg.arr ..))))

theorem leaveReady (p : Nat) : g (leaveReady p s) = g s := (hg.arr ..).trans ((hg.abortScan ..).trans (hg.link ..))

theorem toIdle (k : Nat) (wait : Bool) : g (toIdle k wait s) = g s := hg.octet ..

theorem sendCtrl (p op arg : Nat) : g (sendCtrl p op arg s) = g s := hg.link ..

theorem parkPort (p : Nat) : g (parkPort p s) = g s := by
  have hscan : g (if (s.arr p).scanRun.isSome then Machine.abortScan p .present (Machine.sendCtrl p 0x21 0 s) else s) = g s := by
    split
    · exact (hg.abortScan ..).trans (hg.sendCtrl ..)
    · rfl
  unfold Machine.parkPort
  dsimp only
  rw [apply_ite g, hg.sendCtrl, hg.arr, ite_self, hscan]

theorem darkPort (p : Nat) : g (darkPort p s) = g s := by
  unfold Machine.darkPort
  dsimp only
  split
  · rfl
  · exact (hg.completeOpt ..).trans (hg.port ..)

theorem stopPicture : g (stopPicture s) = g s :=
  calc g (Machine.stopPicture s)
    _ = g (Machine.dropAllFrames (forN 4 Machine.darkPort s)) :=
      (hg.pruneDoms ..).trans <| (hg.strobe ..).trans <| (hg.retarget ..).trans <| (hg.settleBinds ..).trans <|
        (hg.sweepBuffers ..).trans <| (hg.clustersOff ..).trans <| (hg.pipesOff ..).trans <| hg.slc ..
    _ = g (forN 4 Machine.darkPort s) := hg.dropAllFrames ..
    _ = g s := forN_keeps (fun p t => hg.darkPort t p) 4 s

theorem recompute (n : Nat) : g (recompute n s) = g s := by
  unfold Machine.recompute
  exact hg.cle ..

theorem recomputeAll : g (recomputeAll s) = g s := forN_keeps (fun n t => hg.recompute t n) 16 s

end PictureBlind

/-- The state without what a picture-blind reading passes over. -/
def State.unpictured (s : State) : State :=
  { s with
    raised := [], hif := {}, seq := {}, ill := {}, cle := {}, slc := {}, glk := {}, ahm := {}, cmp := {}, fab := {}, mem := {}
    pwr := { s.pwr with doms := 0 }
    mgt := { s.mgt with log := [], logSeq := 0, logUnflushed := 0, logLostCnt := 0, flashLog := [], flashCnt := 0, sticky := 0 } }

theorem only_unpictured {s t : State} (h : onlyReports s t) : t.unpictured = s.unpictured :=
  show t.settings.unpictured = s.settings.unpictured by rw [h]

/-- What can be read from the rest of the state is blind to the picture path. -/
theorem PictureBlind.of_unpictured {β : Type} {g : State → β} (h : ∀ s : State, g s.unpictured = g s) : PictureBlind g where
  reports ho := by rw [← h, only_unpictured ho, h]
  raise s i := by
    rw [← h, ← h s]
    unfold State.raise
    split <;> rfl
  hif s f := (h (s.onHif f)).symm.trans (h s)
  seq s f := (h (s.onSeq f)).symm.trans (h s)
  ill s f := (h (s.onIll f)).symm.trans (h s)
  cle s f := (h (s.onCle f)).symm.trans (h s)
  slc s f := (h (s.onSlc f)).symm.trans (h s)
  glk s f := (h (s.onGlk f)).symm.trans (h s)
  ahm s f := (h (s.onAhm f)).symm.trans (h s)
  cmp s f := (h (s.onCmp f)).symm.trans (h s)
  fab s f := (h (s.onFab f)).symm.trans (h s)
  mem s f := (h (s.onMem f)).symm.trans (h s)
  doms s f := (h (s.onPwr fun p => { p with doms := f p })).symm.trans (h s)

/-! ## Standby (R526, R527) -/

/-- The supplies, rails and items, but for the domains. -/
def State.rails (s : State) : Pwr := { s.pwr with doms := 0 }

theorem rails_blind : PictureBlind State.rails := .of_unpictured fun _ => rfl

section
variable (s : State)

theorem raiseSource_rails (code : Nat) : (raiseSource code s).rails = s.rails :=
  raiseSource_untouched (g := State.rails) (fun _ _ => rfl) (fun _ => rfl) (fun t _ _ _ _ _ => rails_blind.sticky t _ _ _ _)
    (fun t _ _ _ _ => rails_blind.reports (logRec_only _ _ _ _ t (onlyReports_refl t))) code s

theorem followLoops_rails : (followLoops s).rails = s.rails := by
  unfold followLoops followSource
  split
  · split
    · rfl
    · exact raiseSource_rails ..
  · rfl

theorem engineOff_rails : (engineOff s).rails = s.rails :=
  (rails_blind.pruneDoms ..).trans <| (rails_blind.sticky ..).trans <| (rails_blind.cle ..).trans <|
    (forN_keeps (fun _ t => rails_blind.cle t _) 8 _).trans <| (followLoops_rails ..).trans (rails_blind.cle ..)

theorem endServices_rails : (endServices s).rails = s.rails :=
  (rails_blind.reports (endServices_only s)).trans rfl

theorem endSession_rails (host : HostId) (cause : Nat) : (endSession host cause s).rails = s.rails := by
  unfold endSession
  split
  · exact (rails_blind.reports (journalAdd_only _ _ (onlyReports_refl _))).trans rfl
  · rfl

theorem pcieDown_rails (h : Nat) (clear : Bool) : (pcieDown h clear s).rails = s.rails := endSession_rails ..

/-- Standby lowers the set point, keeps the one it leaves, and takes VLINK's PGOOD away. -/
def Pwr.atStandby (p : Pwr) : Pwr := { p with standby := true, vcoreSaved := p.vcoreSet, vcoreSet := 700, pgood := p.pgood &&& ~~~4 }

theorem lowered_rails : (s.onPwr Pwr.atStandby).rails = s.rails.atStandby := rfl

theorem standbyEnter_rails : (standbyEnter s).rails = s.rails.atStandby := by
  unfold standbyEnter
  lift_lets
  intro s1 s2 s3 s4 s5 s6
  have h1 : s1.rails = s.rails := by
    refine forN_keeps (fun h t => ?_) 2 s
    split
    · rfl
    · exact (rails_blind.doms ..).trans (pcieDown_rails ..)
  have h2 : s2.rails = s1.rails := (engineOff_rails _).trans (endServices_rails s1)
  have h3 : s3.rails = s2.rails :=
    (forN_keeps (fun k t => (rails_blind.octet ..).trans (rails_blind.toIdle ..)) 16 _).trans
      (forN_keeps (fun p t => rails_blind.leaveReady t p) 4 s2)
  have h5 : s5.rails = s.rails :=
    (rails_blind.dropAllFrames _).trans ((rails_blind.hif _ _).trans (h3.trans (h2.trans h1)))
  calc (pruneDoms (enterSelfRefresh (settleBinds (sweepBuffers s6)))).rails
    _ = s6.rails := (rails_blind.pruneDoms _).trans <| (rails_blind.enterSelfRefresh _).trans <|
        (rails_blind.settleBinds _).trans <| rails_blind.sweepBuffers _
    _ = (clustersOff (pipesOff (s5.onSlc fun x => { x with slicers := Vector.replicate 8 {} }))).rails.atStandby := lowered_rails _
    _ = s.rails.atStandby := by
      rw [rails_blind.clustersOff, rails_blind.pipesOff, rails_blind.slc, h5]

end

theorem only_pwr {s t : State} (h : onlyReports s t) : t.pwr = s.pwr := show t.settings.pwr = s.settings.pwr by rw [h]

theorem standby_of_rails {t : State} {p : Pwr} (h : t.rails = p) : t.pwr.standby = p.standby ∧ t.pwr.vcoreSet = p.vcoreSet := by
  subst h
  exact ⟨rfl, rfl⟩

/-- A standby command's work on the device. -/
def standbyWork (on : Bool) (s : State) : State := if on then (if s.pwr.standby then s else standbyEnter s) else standbyExit s

theorem standbyWork_pwr (on : Bool) (s : State) : (standbyWork on s).pwr.standby = on ∧ (standbyWork on s).pwr.vcoreSet =
    if on = s.pwr.standby then s.pwr.vcoreSet else if on then 700 else s.pwr.vcoreSaved := by
  cases on <;> cases hs : s.pwr.standby
  case true.true => simp [standbyWork, hs]
  case true.false =>
    obtain ⟨hby, hset⟩ := standby_of_rails (standbyEnter_rails s)
    simp [standbyWork, hs, hby, hset, Pwr.atStandby]
  case false.true | false.false => simp [standbyWork, standbyExit, hs]

theorem standbyExit_sec {s : State} (h : s.pwr.standby = true) :
    (standbyExit s).sec.st = if s.sec.st = .error then .error else .selftest := by
  unfold standbyExit
  extract_lets s1
  rw [if_pos (show s1.pwr.standby = true from h)]
  change _ = if s1.sec.st = .error then SecSt.error else .selftest
  dsimp only
  split
  · assumption
  · rfl

end Sys2Proof.Machine

namespace Sys2Proof.Proofs
open Sys2Proof.Machine

/-- Settles O35: an item and the thermal settings are the payload's; the parts of standby that touch neither set point nor enclave are
blind to both. -/
theorem powerCommandsSetItemsLimitsAndStandby : Obligations.PowerCommandsSetItemsLimitsAndStandby := by
  unfold Obligations.PowerCommandsSetItemsLimitsAndStandby
  refine ⟨completes_of_effect (fun _ _ => rfl) ?item, completes_of_effect (fun _ _ => rfl) ?light, fun row hrow => ?standby⟩
  case item =>
    rintro c s h u t hu rfl - ht
    exact onlyReports_trans (same_onPwr hu _) ht
  case light =>
    rintro c s h u t hu rfl - ht
    exact onlyReports_trans (same_onPwr (same_onThm hu _) _) ht
  case standby =>
    have hx : ∀ c s, exec (row c) s = .next (accept specPwrStandby c s) := by
      rcases List.mem_cons.mp hrow with rfl | hrow
      · exact fun _ _ => rfl
      · obtain rfl := List.mem_singleton.mp hrow
        exact fun _ _ => rfl
    refine completes_of_effect hx ?_
    rintro c s h u t hu rfl ho ht
    have hset := standbyWork_pwr (standbyOn h.cmd) u
    have hw : onlyReports ((standbyWork (standbyOn h.cmd) u).onPwr fun p => { p with standbyCmd := some h }) t := ht
    have hp : t.pwr = { (standbyWork (standbyOn h.cmd) u).pwr with standbyCmd := some h } := only_pwr hw
    rw [only_pwr hu] at hset
    refine ⟨h, rfl, ho, ⟨u, hu, ht⟩, ?_, ?_, fun hoff hby => ?_⟩
    · rw [hp]
      exact hset.1
    · rw [hp]
      exact hset.2
    · have hsec : t.sec = (standbyWork (standbyOn h.cmd) u).sec := (only_sec hw).trans (State.onPwr_sec _ _)
      rw [hsec, standbyWork, if_neg (by rw [standbyOn, hoff]; decide), standbyExit_sec (by rw [only_pwr hu, hby]), only_sec hu]

end Sys2Proof.Proofs
end

section
/-!
PROOFS. The thermal sample (R515 to R524): what each of its steps makes of the readings, the flags and the limit. O44 is settled here.
-/
namespace Sys2Proof.Machine

/-! ## The thermal state without its counts -/

/-- The thermal state without its counts, sticky bits and recorded pair. -/
def Thm.core (t : Thm) : Thm :=
  { t with
    gradA := 0, gradB := 0, sticky := 0, warnCnt := 0, throttleCnt := 0, shutdownCnt := 0, gradientCnt := 0, sensorFaultCnt := 0 }

/-- What the thresholds and times of a sample depend on. -/
def State.setting (s : State) : Bool × Nat × BitVec 16 := (s.gradeX, s.ns, s.mgt.clkStatus)

theorem thm_blind : PictureBlind State.thm := .of_unpictured fun _ => rfl
theorem core_blind : PictureBlind fun s => s.thm.core := .of_unpictured fun _ => rfl
theorem setting_blind : PictureBlind State.setting := .of_unpictured fun _ => rfl
theorem xcl_blind : PictureBlind State.xcl := .of_unpictured fun _ => rfl

section
variable (s : State)

theorem only_thm {s t : State} (h : onlyReports s t) : t.thm = s.thm := thm_blind.reports h

theorem thmRaise_thm (b : BitVec 6) : (thmRaise b s).thm = { s.thm with sticky := s.thm.sticky ||| b } :=
  only_thm (thmRaise_only b s (onlyReports_refl _))
theorem thmRaise_core (b : BitVec 6) : (thmRaise b s).thm.core = s.thm.core := by
  rw [thmRaise_thm]
  rfl
theorem thmRaise_setting (b : BitVec 6) : (thmRaise b s).setting = s.setting :=
  (setting_blind.reports (thmRaise_only b s (onlyReports_refl _))).trans rfl

end

/-! ## Readings (R515, R518) -/

/-- Sensor n after its reading. -/
def Thm.reading (r : List (Option Int)) (n : Nat) (t : Thm) : Thm :=
  { t with
    sensFault := upd t.sensFault n fun _ => badReading ((r[n]?).getD none)
    temp := match badReading ((r[n]?).getD none), (r[n]?).getD none with | false, some v => upd t.temp n fun _ => v | _, _ => t.temp }

/-- Sensor n has been read. -/
def Thm.hasRead (r : List (Option Int)) (n : Nat) (t : Thm) : Prop :=
  nth t.sensFault n = badReading ((r[n]?).getD none) ∧
  ∀ v, (r[n]?).getD none = some v → badReading (some v) = false → nth t.temp n = v

section
variable (r : List (Option Int)) (n : Nat)

theorem reading_hasRead (t : Thm) (h : n < 52) : (t.reading r n).hasRead r n := by
  refine ⟨nth_upd_self _ _ _ h, fun v hv hb => ?_⟩
  simp only [Thm.reading, hv, hb]
  exact nth_upd_self _ _ _ h

theorem reading_other {t : Thm} {m : Nat} (hm : n ≠ m) (h : t.hasRead r m) : (t.reading r n).hasRead r m := by
  refine ⟨(nth_upd_other _ _ _ _ hm).trans h.1, fun v hv hb => ?_⟩
  have ht : nth (t.reading r n).temp m = nth t.temp m := by
    simp only [Thm.reading]
    split
    · exact nth_upd_other _ _ _ _ hm
    · rfl
  exact ht.trans (h.2 v hv hb)

theorem readings_hasRead (t : Thm) : ∀ k ≤ 52, ∀ m < k, (forN k (Thm.reading r) t).hasRead r m := by
  intro k
  induction k with
  | zero => exact fun _ m hm => absurd hm (Nat.not_lt_zero m)
  | succ k ih =>
    intro hk m hm
    by_cases h : k = m
    · subst h
      exact reading_hasRead r k _ (by omega)
    · exact reading_other r k h (ih (by omega) m (by omega))

theorem readings_coolFrom (t : Thm) (k : Nat) : (forN k (Thm.reading r) t).coolFrom = t.coolFrom ∧
    (forN k (Thm.reading r) t).shutdown = t.shutdown := by
  induction k with
  | zero => exact ⟨rfl, rfl⟩
  | succ k ih => exact ih

theorem readSensor_setting (s : State) : (readSensor r n s).setting = s.setting := by
  unfold readSensor
  dsimp only
  split
  · rfl
  · split
    · exact thmRaise_setting ..
    · rfl

theorem readSensor_core {s : State} (h : s.mgt.clkStatus.getLsbD 2 = false) : (readSensor r n s).thm.core = s.thm.core.reading r n := by
  unfold readSensor
  rw [h, Bool.and_false, if_neg Bool.false_ne_true]
  extract_lets x bad s1
  have h1 : s1.thm.core = s.thm.core := by
    simp only [s1]
    split
    · exact thmRaise_core ..
    · rfl
  rw [← h1]
  rfl

/-- With the sense clock good every sensor is read. -/
theorem readSensors_core {s : State} (h : s.mgt.clkStatus.getLsbD 2 = false) (k : Nat) :
    (forN k (readSensor r) s).thm.core = forN k (Thm.reading r) s.thm.core := by
  induction k with
  | zero => rfl
  | succ k ih =>
    have hk : (forN k (readSensor r) s).setting = s.setting := forN_keeps (fun n t => readSensor_setting r n t) k s
    have hc : (forN k (readSensor r) s).mgt.clkStatus = s.mgt.clkStatus := congrArg (·.2.2) hk
    rw [forN, readSensor_core r k (by rw [hc, h]), ih]
    rfl

end

/-! ## The hottest reading -/

/-- The running choice of the larger value ends at a largest. -/
theorem foldl_largest (f : Nat → Int) (l : List Nat) (a : Nat) :
    l.foldl (fun a b => if f a < f b then b else a) a ∈ a :: l ∧
    ∀ x ∈ a :: l, f x ≤ f (l.foldl (fun a b => if f a < f b then b else a) a) := by
  induction l generalizing a with
  | nil => simp
  | cons b l ih =>
    rw [List.foldl_cons]
    obtain ⟨hm, hle⟩ := ih (if f a < f b then b else a)
    have hmax : f a ≤ f (if f a < f b then b else a) ∧ f b ≤ f (if f a < f b then b else a) := by split <;> omega
    have hb := hle _ List.mem_cons_self
    refine ⟨?mem, fun x hx => ?le⟩
    case mem =>
      rcases List.mem_cons.mp hm with h | h
      · rw [h]
        split <;> simp
      · exact List.mem_cons_of_mem _ (List.mem_cons_of_mem _ h)
    case le =>
      rcases List.mem_cons.mp hx with rfl | hx
      · exact hmax.1.trans hb
      · rcases List.mem_cons.mp hx with rfl | hx
        · exact hmax.2.trans hb
        · exact hle x (List.mem_cons_of_mem _ hx)

/-- The hottest reading is the largest of the main die's sensors that are not in fault, if there is one. -/
def Thm.hottest (t : Thm) : Prop :=
  (∀ n, n < 48 → nth t.sensFault n = false → nth t.temp n ≤ t.hotTemp) ∧
  ((∃ n, n < 48 ∧ nth t.sensFault n = false) → ∃ n, n < 48 ∧ nth t.sensFault n = false ∧ nth t.temp n = t.hotTemp)

theorem mem_goodSensors {t : Thm} {n : Nat} :
    n ∈ (List.range 48).filter (fun n => !(nth t.sensFault n)) ↔ n < 48 ∧ nth t.sensFault n = false := by simp

theorem takeHottest_thm (s : State) : ∃ h k, takeHottest s = (s.onThm fun t => { t with hotTemp := h, hotSensor := k }) ∧
    (takeHottest s).thm.hottest := by
  unfold takeHottest
  extract_lets good
  have hgood (n : Nat) : n ∈ good ↔ n < 48 ∧ nth s.thm.sensFault n = false := mem_goodSensors
  clear_value good
  cases good with
  | nil =>
    have hnone (n : Nat) (h : n < 48) (hf : nth s.thm.sensFault n = false) : False := List.not_mem_nil ((hgood n).mpr ⟨h, hf⟩)
    exact ⟨s.thm.hotTemp, s.thm.hotSensor, rfl, fun n h hf => (hnone n h hf).elim, fun ⟨n, h, hf⟩ => (hnone n h hf).elim⟩
  | cons n ns =>
    obtain ⟨hm, hle⟩ := foldl_largest (fun a => nth s.thm.temp a) ns n
    obtain ⟨hlt, hf⟩ := (hgood _).mp hm
    exact ⟨_, _, rfl, fun m h hg => hle m ((hgood m).mpr ⟨h, hg⟩), fun _ => ⟨_, hlt, hf, rfl⟩⟩

theorem checkGradient_core (s : State) : (checkGradient s).thm.core = s.thm.core := by
  unfold checkGradient
  dsimp only
  split
  · rfl
  · exact thmRaise_core ..

theorem checkGradient_setting (s : State) : (checkGradient s).setting = s.setting := by
  unfold checkGradient
  dsimp only
  split
  · rfl
  · exact thmRaise_setting ..

/-! ## Warning, throttle and the limit (R516, R519, R520) -/

/-- A flag with its threshold and its hysteresis of 3 °C. -/
def hysteresis (at' h : Int) (on : Bool) : Bool := if at' ≤ h then true else if h < at' - 300 then false else on

section
variable {a h : Int} {on : Bool}

theorem hysteresis_rise (hc : (!on && decide (a ≤ h)) = true) : hysteresis a h on = true := by
  simp only [Bool.and_eq_true, decide_eq_true_eq] at hc
  exact if_pos hc.2

theorem hysteresis_fall (hc : (on && decide (h < a - 300)) = true) : hysteresis a h on = false := by
  simp only [Bool.and_eq_true, decide_eq_true_eq] at hc
  rw [hysteresis, if_neg (by omega), if_pos hc.2]

theorem hysteresis_stay (hr : ¬(!on && decide (a ≤ h)) = true) (hf : ¬(on && decide (h < a - 300)) = true) :
    hysteresis a h on = on := by
  unfold hysteresis
  cases on
  · simp only [Bool.not_false, Bool.true_and, decide_eq_true_eq] at hr
    rw [if_neg hr, ite_self]
  · simp only [Bool.true_and, decide_eq_true_eq] at hf
    rw [if_neg hf, ite_self]

end

theorem thresholds_of_setting {s t : State} (h : t.setting = s.setting) :
    thmWarn t = thmWarn s ∧ thmThrottle t = thmThrottle s ∧ thmShutdown t = thmShutdown s ∧ t.ns = s.ns := by
  have hg : t.gradeX = s.gradeX := congrArg (·.1) h
  refine ⟨?_, ?_, ?_, congrArg (·.2.1) h⟩
  · rw [thmWarn, thmWarn, hg]
  · rw [thmThrottle, thmThrottle, hg]
  · rw [thmShutdown, thmShutdown, hg]

theorem followWarn_thermal (s : State) : (followWarn s).setting = s.setting ∧ (followWarn s).thm.core = { s.thm.core with
    warn := hysteresis (thmWarn s) s.thm.hotTemp s.thm.warn, throttle := hysteresis (thmThrottle s) s.thm.hotTemp s.thm.throttle } := by
  unfold followWarn
  extract_lets h s1
  have h1 : s1.setting = s.setting ∧ s1.thm.core = { s.thm.core with warn := hysteresis (thmWarn s) s.thm.hotTemp s.thm.warn } := by
    simp only [s1]
    split
    next hr => rw [hysteresis_rise hr, thmRaise_setting, thmRaise_core]; exact ⟨rfl, rfl⟩
    next hr =>
      split
      next hf => rw [hysteresis_fall hf]; exact ⟨rfl, rfl⟩
      next hf => rw [hysteresis_stay hr hf]; exact ⟨rfl, rfl⟩
  clear_value s1
  obtain ⟨hset, hcore⟩ := h1
  have ht : s1.thm.throttle = s.thm.throttle := show s1.thm.core.throttle = s.thm.core.throttle by rw [hcore]
  rw [← hset, ← (thresholds_of_setting hset).2.1, ← ht]
  have hthr (b : Bool) : { s1.thm.core with throttle := b } =
      { s.thm.core with warn := hysteresis (thmWarn s) s.thm.hotTemp s.thm.warn, throttle := b } := by rw [hcore]
  split
  next hr => rw [hysteresis_rise hr, thmRaise_setting, thmRaise_core, ← hthr]; exact ⟨rfl, rfl⟩
  next hr =>
    split
    next hf => rw [hysteresis_fall hf, ← hthr]; exact ⟨rfl, rfl⟩
    next hf => rw [hysteresis_stay hr hf, ← hthr]; exact ⟨rfl, rfl⟩

theorem followThrottle_thermal (s : State) : (followThrottle s).setting = s.setting ∧
    (followThrottle s).thm.core = { s.thm.core with phi := phiOf s, limit := limitOf s } :=
  ⟨(setting_blind.recomputeAll _).trans rfl, (core_blind.recomputeAll _).trans rfl⟩

/-! ## Shutdown (R522, R524) -/

section
variable (s : State)

theorem raiseSource_thm (code : Nat) : (raiseSource code s).thm = s.thm :=
  raiseSource_untouched (g := State.thm) (fun _ _ => rfl) (fun _ => rfl) (fun t _ _ _ _ _ => thm_blind.sticky t _ _ _ _)
    (fun t _ _ _ _ => thm_blind.reports (logRec_only _ _ _ _ t (onlyReports_refl t))) code s

theorem raiseSource_setting (code : Nat) : (raiseSource code s).setting = s.setting :=
  raiseSource_untouched (g := State.setting) (fun _ _ => rfl) (fun _ => rfl) (fun t _ _ _ _ _ => setting_blind.sticky t _ _ _ _)
    (fun t _ _ _ _ => setting_blind.reports (logRec_only _ _ _ _ t (onlyReports_refl t))) code s

/-- The picture path, memory and arrays stop. -/
theorem stop_blind {β : Type} {g : State → β} (hg : PictureBlind g) :
    g (if s.pwr.standby then s else enterSelfRefresh (stopPicture (forN 4 parkPort s))) = g s := by
  split
  · rfl
  · exact (hg.enterSelfRefresh _).trans <| (hg.stopPicture _).trans <| forN_keeps (fun p t => hg.parkPort t p) 4 s

theorem shutDown_thermal (count : Bool) : (shutDown count s).setting = s.setting ∧
    (shutDown count s).thm.core = { s.thm.core with shutdown := true, restartDue := false } ∧
    (shutDown count s).xcl.safe = true ∧ (shutDown count s).xcl.active.getLsbD 7 = true := by
  unfold shutDown
  extract_lets s1 s2 s3
  have hraise : s1.setting = s.setting ∧ s1.thm.core = { s.thm.core with shutdown := true, restartDue := false } ∧
      s1.xcl.safe = true ∧ s1.xcl.active.getLsbD 7 = true := by
    refine ⟨(raiseSource_setting ..).trans rfl, ?_, raiseSource_safe .., ?_⟩
    · simp only [s1, raiseSource_thm]
      rfl
    · simp only [s1, raiseSource_active]
      simp [bit1]
  have hstop : s2.setting = s1.setting ∧ s2.thm.core = s1.thm.core ∧ s2.xcl = s1.xcl :=
    ⟨stop_blind s1 setting_blind, stop_blind s1 core_blind, stop_blind s1 xcl_blind⟩
  have hcount : (if count then s3.onThm fun t => { t with shutdownCnt := sat t.shutdownCnt } else s3).setting = s2.setting ∧
      (if count then s3.onThm fun t => { t with shutdownCnt := sat t.shutdownCnt } else s3).thm.core = s2.thm.core ∧
      (if count then s3.onThm fun t => { t with shutdownCnt := sat t.shutdownCnt } else s3).xcl = s2.xcl := by
    cases count <;> exact ⟨rfl, rfl, rfl⟩
  obtain ⟨hset, hcore, hxcl⟩ := hcount
  rw [thmRaise_setting, thmRaise_core, only_xcl (thmRaise_only _ _ (onlyReports_refl _)), State.onThm_xcl, hset, hcore, hxcl,
    hstop.1, hstop.2.1, hstop.2.2]
  exact hraise

theorem followPeak_thermal : (followPeak s).setting = s.setting ∧ (followPeak s).thm = s.thm ∧ (followPeak s).xcl = s.xcl := by
  unfold followPeak
  split <;> exact ⟨rfl, rfl, rfl⟩

theorem followShutdown_thermal : (followShutdown s).setting = s.setting ∧
    (∃ b n d, (followShutdown s).thm.core = { s.thm.core with shutdown := b, noRestart := n, restartDue := d, again := false } ∧
      (thmShutdown s ≤ s.thm.hotTemp → b = true) ∧ (s.thm.shutdown = true → b = true) ∧
      (s.thm.shutdown = false → b = true → (followShutdown s).xcl.safe = true ∧ (followShutdown s).xcl.active.getLsbD 7 = true)) := by
  unfold followShutdown
  extract_lets many again s1 call
  split
  next hc =>
    obtain ⟨hset, hcore, hsafe, hact⟩ := shutDown_thermal s1 (!again)
    exact ⟨hset.trans rfl, true, s1.thm.noRestart, false, hcore.trans rfl, fun _ => rfl, fun _ => rfl, fun _ _ => ⟨hsafe, hact⟩⟩
  next hc =>
    obtain ⟨hset, hthm, -⟩ := followPeak_thermal s1
    refine ⟨hset.trans rfl, s.thm.shutdown, s1.thm.noRestart, s.thm.restartDue, (congrArg Thm.core hthm).trans rfl, fun hhot => ?_,
      id, fun hoff hon => absurd (hoff.symm.trans hon) Bool.false_ne_true⟩
    have hcall : call = true := by
      have : decide (thmShutdown s1 ≤ s1.thm.hotTemp) = true := decide_eq_true hhot
      simp only [call, this, Bool.true_or]
    have hon : s1.thm.shutdown = true := by simpa [hcall] using hc
    exact hon

/-- What a sample of the first m sensors leaves of the readings, and the times and thresholds that it keeps. -/
structure Sampled (m : Nat) (r : List (Option Int)) (s t : State) : Prop where
  setting : t.setting = s.setting
  hasRead : ∀ n, n < m → t.thm.hasRead r n
  hottest : t.thm.hottest
  coolFrom : t.thm.coolFrom = s.thm.coolFrom
  shutdown : t.thm.shutdown = s.thm.shutdown

theorem sampled_of_core {m : Nat} {r : List (Option Int)} {s t u : State} (h : Sampled m r s t) (hset : u.setting = t.setting)
    (hcore : u.thm.core = t.thm.core) : Sampled m r s u where
  setting := hset.trans h.setting
  hasRead n hn := show u.thm.core.hasRead r n by
    rw [hcore]
    exact h.hasRead n hn
  hottest := show u.thm.core.hottest by
    rw [hcore]
    exact h.hottest
  coolFrom := show u.thm.core.coolFrom = s.thm.coolFrom by
    rw [hcore]
    exact h.coolFrom
  shutdown := show u.thm.core.shutdown = s.thm.shutdown by
    rw [hcore]
    exact h.shutdown

/-- What a reading of the sensors leaves, as the hottest is then taken. -/
theorem takeReadings_sampled {m : Nat} (hm : m ≤ 52) {r : List (Option Int)} (h : s.mgt.clkStatus.getLsbD 2 = false) :
    Sampled m r s (checkGradient (takeHottest (forN m (readSensor r) s))) := by
  have hset : (forN m (readSensor r) s).setting = s.setting := forN_keeps (fun n t => readSensor_setting r n t) m s
  have hcore := readSensors_core r h m
  obtain ⟨hcool, hdown⟩ := readings_coolFrom r s.thm.core m
  generalize forN m (readSensor r) s = u at hset hcore ⊢
  obtain ⟨hot, k, hs, hhot⟩ := takeHottest_thm u
  refine sampled_of_core ?_ (checkGradient_setting _) (checkGradient_core _)
  rw [hs] at hhot ⊢
  refine ⟨hset, fun n hn => ?read, hhot, ?cool, ?shutdown⟩
  case read =>
    show u.thm.core.hasRead r n
    rw [hcore]
    exact readings_hasRead r _ m hm n hn
  case cool =>
    show u.thm.core.coolFrom = _
    rw [hcore]
    exact hcool
  case shutdown =>
    show u.thm.core.shutdown = _
    rw [hcore]
    exact hdown

/-- What the rest of a sample makes of the flags, once the readings are taken. -/
theorem sampleFlags (s : State) : ∃ b n d l f, (followCool (followShutdown (followThrottle (followWarn s)))).thm.core =
      { s.thm.core with
        warn := hysteresis (thmWarn s) s.thm.hotTemp s.thm.warn, throttle := hysteresis (thmThrottle s) s.thm.hotTemp s.thm.throttle
        shutdown := b, noRestart := n, restartDue := d, again := false, phi := f, limit := l
        coolFrom := if b = true ∧ s.thm.hotTemp < thmShutdown s - 1500 then some (s.thm.coolFrom.getD s.ns) else none } ∧
    (hysteresis (thmThrottle s) s.thm.hotTemp s.thm.throttle = false → l = 65535) ∧
    (thmShutdown s ≤ s.thm.hotTemp → b = true) ∧ (s.thm.shutdown = true → b = true) ∧
    (s.thm.shutdown = false → b = true →
      (followCool (followShutdown (followThrottle (followWarn s)))).xcl.safe = true ∧
      (followCool (followShutdown (followThrottle (followWarn s)))).xcl.active.getLsbD 7 = true) := by
  obtain ⟨hset1, hcore1⟩ := followWarn_thermal s
  generalize followWarn s = s1 at *
  obtain ⟨hset2, hcore2⟩ := followThrottle_thermal s1
  generalize followThrottle s1 = s2 at *
  obtain ⟨hset3, b, n, d, hcore3, hhot, hstay, hblank⟩ := followShutdown_thermal s2
  generalize followShutdown s2 = s3 at *
  have hset := hset3.trans (hset2.trans hset1)
  obtain ⟨-, -, hthr2, -⟩ := thresholds_of_setting (hset2.trans hset1)
  obtain ⟨-, -, hthr, hns⟩ := thresholds_of_setting hset
  have hcore : s3.thm.core = { s.thm.core with
      warn := hysteresis (thmWarn s) s.thm.hotTemp s.thm.warn, throttle := hysteresis (thmThrottle s) s.thm.hotTemp s.thm.throttle
      shutdown := b, noRestart := n, restartDue := d, again := false, phi := phiOf s1, limit := limitOf s1 } := by
    rw [hcore3, hcore2, hcore1]
  have hhot2 : s2.thm.hotTemp = s.thm.hotTemp := show s2.thm.core.hotTemp = s.thm.core.hotTemp by rw [hcore2, hcore1]
  have hdown2 : s2.thm.shutdown = s.thm.shutdown := show s2.thm.core.shutdown = s.thm.core.shutdown by rw [hcore2, hcore1]
  have hhot3 : s3.thm.hotTemp = s.thm.hotTemp := show s3.thm.core.hotTemp = s.thm.core.hotTemp by rw [hcore]
  have hcool3 : s3.thm.coolFrom = s.thm.coolFrom := show s3.thm.core.coolFrom = s.thm.core.coolFrom by rw [hcore]
  have hdown3 : s3.thm.shutdown = b := show s3.thm.core.shutdown = b by rw [hcore]
  have hthr1 : s1.thm.throttle = hysteresis (thmThrottle s) s.thm.hotTemp s.thm.throttle :=
    show s1.thm.core.throttle = _ by rw [hcore1]
  rw [hthr2, hhot2] at hhot
  rw [hdown2] at hstay hblank
  refine ⟨b, n, d, limitOf s1, phiOf s1, ?core, fun hoff => ?limit, hhot, hstay, hblank⟩
  case core =>
    have hc : (followCool s3).thm.core = { s3.thm.core with
        coolFrom := if s3.thm.shutdown && decide (s3.thm.hotTemp < thmShutdown s3 - 1500) then some (s3.thm.coolFrom.getD s3.ns) else none } :=
      rfl
    rw [hc, hcore, hdown3, hhot3, hcool3, hthr, hns]
    simp only [Bool.and_eq_true, decide_eq_true_eq]
  case limit => rw [limitOf, hthr1, hoff, if_neg Bool.false_ne_true]

end

/-! ## The sample and the restart -/

/-- A sample's last step: how often the sensors are read from now on. -/
def samplePace (s : State) : State :=
  s.onThm fun t => { t with
    fast := decide ((s.thm.hotTemp - thmWarn s).natAbs ≤ 500) || decide ((s.thm.hotTemp - thmThrottle s).natAbs ≤ 500) ||
      decide ((s.thm.hotTemp - thmShutdown s).natAbs ≤ 500) }

theorem execThermalSample_live {s : State} (rs : List (Option Int)) (hl : s.live = true) : exec (.thermalSample rs) s =
    .next (samplePace (followCool (followShutdown (followThrottle (followWarn
      (checkGradient (takeHottest (forN 52 (readSensor rs) s)))))))) := by
  show execThermalSample rs s = _
  unfold execThermalSample
  rw [if_neg (by rw [hl]; decide)]
  rfl

theorem hysteresis_high {a h : Int} {on : Bool} (hc : a ≤ h) : hysteresis a h on = true := if_pos hc

theorem hysteresis_low {a h : Int} {on : Bool} (hc : h < a - 300) : hysteresis a h on = false := by
  rw [hysteresis, if_neg (by omega), if_pos hc]

theorem execShutdownRestart_cooled {s : State} (hl : s.live = true) (hdown : s.thm.shutdown = true) (hno : s.thm.noRestart = false)
    {n : Nat} (hn : s.thm.coolFrom = some n) (hover : n + 10000000000 ≤ s.ns) : exec .shutdownRestart s = .next (thmRaise 0x20
      (dropSource 7 (s.onThm fun t => { t with shutdown := false, coolFrom := none, restartDue := !s.pwr.standby }))) := by
  show execShutdownRestart s = _
  unfold execShutdownRestart
  have hc : (match s.thm.coolFrom with | some n => decide (n + 10000000000 ≤ s.ns) | none => false) = true := by
    rw [hn]
    exact decide_eq_true hover
  rw [if_pos]
  rw [hl, hdown, hno]
  exact hc

/-- A level source that becomes inactive leaves the safe state to the latch and to the other level source. -/
theorem dropSource_thermal (s : State) : (dropSource 7 s).xcl =
    { s.xcl with active := s.xcl.active &&& ~~~0x80, safe := s.xcl.latch != 0 || s.xcl.active.getLsbD 0 } := by
  have h0 : (s.xcl.active &&& ~~~(bit1 12 7)).getLsbD 0 = s.xcl.active.getLsbD 0 := by simp [bit1]
  have h7 : (s.xcl.active &&& ~~~(bit1 12 7)).getLsbD 7 = false := by simp [bit1]
  have hsafe : safeNow { s.xcl with active := s.xcl.active &&& ~~~(bit1 12 7) } = (s.xcl.latch != 0 || s.xcl.active.getLsbD 0) := by
    simp only [safeNow, h0, h7, Bool.or_false]
  show { s.xcl with active := s.xcl.active &&& ~~~(bit1 12 7), safe := safeNow { s.xcl with active := s.xcl.active &&& ~~~(bit1 12 7) } } = _
  rw [hsafe]
  rfl

end Sys2Proof.Machine

namespace Sys2Proof.Proofs
open Sys2Proof.Machine

/-- Settles O44: the readings by induction on the sensors, the hottest as the largest of a list, and each flag by the step that follows
it, which the later steps leave as it is. -/
theorem thermalSampleFollowsTheHottestReading : Obligations.ThermalSampleFollowsTheHottestReading := by
  unfold Obligations.ThermalSampleFollowsTheHottestReading
  refine ⟨fun rs s hl hclk => ⟨_, execThermalSample_live rs hl, ?sample⟩, ?restart⟩
  case sample =>
    have hread := takeReadings_sampled s (Nat.le_refl 52) (r := rs) hclk
    generalize checkGradient (takeHottest (forN 52 (readSensor rs) s)) = u at hread ⊢
    obtain ⟨b, n, d, l, f, hcore, hlimit, hhot, hstay, hblank⟩ := sampleFlags u
    obtain ⟨hwarn, hthr, hdown, hns⟩ := thresholds_of_setting hread.setting
    generalize followCool (followShutdown (followThrottle (followWarn u))) = v at hcore hblank ⊢
    have hv : (samplePace v).thm.core = { v.thm.core with fast := (samplePace v).thm.fast } := rfl
    rw [hcore, hread.coolFrom, hwarn, hthr, hdown, hns] at hv
    rw [hdown] at hhot
    rw [hthr] at hlimit
    rw [hread.shutdown] at hstay hblank
    rw [show v.xcl = (samplePace v).xcl from rfl] at hblank
    generalize samplePace v = t at hv hblank ⊢
    generalize t.thm.fast = x at hv
    have hfault : t.thm.sensFault = u.thm.sensFault := show t.thm.core.sensFault = u.thm.core.sensFault by rw [hv]
    have htemp : t.thm.temp = u.thm.temp := show t.thm.core.temp = u.thm.core.temp by rw [hv]
    have hhotT : t.thm.hotTemp = u.thm.hotTemp := show t.thm.core.hotTemp = u.thm.core.hotTemp by rw [hv]
    have hwarnT : t.thm.warn = hysteresis (thmWarn s) u.thm.hotTemp u.thm.warn := show t.thm.core.warn = _ by rw [hv]
    have hthrT : t.thm.throttle = hysteresis (thmThrottle s) u.thm.hotTemp u.thm.throttle := show t.thm.core.throttle = _ by rw [hv]
    have hdownT : t.thm.shutdown = b := show t.thm.core.shutdown = b by rw [hv]
    have hlimitT : t.thm.limit = l := show t.thm.core.limit = l by rw [hv]
    have hcoolT : t.thm.coolFrom = if b = true ∧ u.thm.hotTemp < thmShutdown s - 1500 then some (s.thm.coolFrom.getD s.ns) else none :=
      show t.thm.core.coolFrom = _ by rw [hv]
    rw [hfault, htemp, hhotT, hwarnT, hthrT, hdownT, hlimitT, hcoolT]
    exact ⟨hread.hasRead, hysteresis_high, hysteresis_low, hysteresis_high, hysteresis_low, hhot, hstay, hblank, hlimit,
      hread.hottest.1, hread.hottest.2, rfl⟩
  case restart =>
    rintro s hl hdown hno ⟨n, hn, hover⟩
    refine ⟨_, execShutdownRestart_cooled hl hdown hno hn hover, ?_⟩
    rw [thmRaise_thm, only_xcl (thmRaise_only _ _ (onlyReports_refl _)), State.onThm_xcl, dropSource_thermal]
    exact ⟨rfl, rfl, rfl, rfl⟩

end Sys2Proof.Proofs
end

section
/-!
PROOFS. The input supplies, the rails, the set point, the polled items and the domains (R504 to R513, R527, R29, R30). O43 is settled here.
-/
namespace Sys2Proof.Machine

/-! ## A sticky bit of the supplies -/

/-- An event whose answer sets a sticky bit of the supplies last. -/
theorem goes_pwrRaise {i : Instr} {s u : State} (b : BitVec 8) (he : exec i s = .next (pwrRaise b u)) :
    Goes i s (u.onPwr fun p => { p with sticky := p.sticky ||| b }) := ⟨_, he, pwrRaise_only b u (onlyReports_refl _)⟩

theorem pwrRaise_pwr (b : BitVec 8) (s : State) : (pwrRaise b s).pwr = { s.pwr with sticky := s.pwr.sticky ||| b } :=
  only_pwr (pwrRaise_only b s (onlyReports_refl _))

theorem pwrRaise_rails (b : BitVec 8) (s : State) : (pwrRaise b s).rails = { s.rails with sticky := s.pwr.sticky ||| b } := by
  unfold State.rails
  rw [pwrRaise_pwr]

/-! ## The input supply (R504 to R506) -/

theorem persistAll_only (s : State) : ∃ n, onlyReports (s.onHif fun x => { x with jhead := n }) (persistAll s) ∧
    (s.hif.isVolatile = false → n = s.hif.jseq) := by
  unfold persistAll
  split
  next h => exact ⟨s.hif.jhead, onlyReports_refl s, fun hv => absurd h (by rw [hv]; decide)⟩
  next h => exact ⟨s.hif.jseq, flushReplies_only _ (onlyReports_refl _), fun _ => rfl⟩

theorem execVinLow_powered {s : State} (mv : BitVec 16) (h : s.powered = true) : ∃ t, exec (.vinLow mv) s = .next t ∧
    (s.hif.isVolatile = false → t.hif.jhead = s.hif.jseq) ∧
    t.pwr = { s.pwr with vin := mv, vinLowCnt := sat s.pwr.vinLowCnt, sticky := s.pwr.sticky ||| 1 } := by
  obtain ⟨u, hu⟩ : ∃ u, u = pwrRaise 0x1 (s.onPwr fun p => { p with vin := mv, vinLowCnt := sat p.vinLowCnt }) := ⟨_, rfl⟩
  have hex : exec (.vinLow mv) s = .next (if (persistAll u).mgt.st == .run then flushLog (persistAll u) else persistAll u) := by
    show execVinLow mv s = _
    unfold execVinLow
    rw [if_pos h, ← hu]
  have hpwr : u.pwr = { s.pwr with vin := mv, vinLowCnt := sat s.pwr.vinLowCnt, sticky := s.pwr.sticky ||| 1 } := by
    rw [hu, pwrRaise_pwr]
    rfl
  have hvol : u.hif.isVolatile = s.hif.isVolatile := by
    rw [hu]
    exact show (pwrRaise 0x1 _).settings.hif.isVolatile = _ by
      rw [pwrRaise_only 0x1 _ (onlyReports_refl _)]
      rfl
  have hseq : u.hif.jseq = s.hif.jseq := by
    rw [hu]
    exact stickyUp_jseq ..
  obtain ⟨n, honly, hn⟩ := persistAll_only u
  generalize persistAll u = v at hex honly
  refine ⟨_, hex, fun hv => ?_, ?_⟩
  · have hj : v.hif.jhead = n := show v.settings.hif.jhead = n by
      rw [honly]
      rfl
    rw [apply_ite State.hif, show (flushLog v).hif = v.hif from rfl, ite_self, hj, hn (hvol.trans hv), hseq]
  · rw [apply_ite State.pwr, show (flushLog v).pwr = v.pwr from rfl, ite_self, only_pwr honly, State.onHif_pwr, hpwr]

/-! ## The rails (R507, R508) -/

theorem execRailSeqStep_running {s : State} (h : sequencing s = true) (hr : s.pwr.railReset = false) : exec .railSeqStep s =
    .next (s.onPwr fun p => { p with
      pgood := p.pgood ||| stepPgood p.step, step := p.step + 1, seqDone := decide (9 ≤ p.step), railReset := false }) := by
  show execRailSeqStep s = _
  unfold execRailSeqStep
  rw [h, hr]
  rfl

theorem pruneDoms_sticky (b : BitVec 8) (s : State) : (pruneDoms s).onPwr (fun p => { p with sticky := p.sticky ||| b }) =
    pruneDoms (s.onPwr fun p => { p with sticky := p.sticky ||| b }) := by
  have w (d : Nat) : wantsDomain d (s.onPwr fun p => { p with sticky := p.sticky ||| b }) = wantsDomain d s := rfl
  unfold pruneDoms
  simp only [w]
  generalize List.range 144 = l
  rfl

theorem execRailSeqTimeout_running {s : State} (h : sequencing s = true) : Goes .railSeqTimeout s (pruneDoms (s.onPwr fun p => { p with
    pgood := 0, step := 0, retryWait := true, failNs := s.ns, seqFails := p.seqFails + 1, seqFailCnt := sat p.seqFailCnt
    sticky := p.sticky ||| 8 })) := by
  have hg := goes_pwrRaise (i := .railSeqTimeout) (s := s) (u := pruneDoms (s.onPwr fun p => { p with
    pgood := 0, step := 0, retryWait := true, failNs := s.ns, seqFails := p.seqFails + 1, seqFailCnt := sat p.seqFailCnt })) 0x8
  rw [pruneDoms_sticky] at hg
  refine hg ?_
  show execRailSeqTimeout s = _
  unfold execRailSeqTimeout
  rw [h]
  rfl

theorem execRailSeqRetry_due {s : State} (hp : s.powered = true) (hn : s.porst = false) (hw : s.pwr.retryWait = true)
    (hf : s.pwr.seqFails < 3) (hd : s.pwr.failNs + 1000000000 ≤ s.ns) :
    exec .railSeqRetry s = .next (s.onPwr fun p => { p with retryWait := false }) := by
  show execRailSeqRetry s = _
  unfold execRailSeqRetry
  rw [if_pos]
  rw [hp, hn, hw, decide_eq_true hf, decide_eq_true hd]
  rfl

/-! ## A rail fault (R510) -/

section
variable (s : State)

theorem loseMemory_rails : (loseMemory s).rails = s.rails := by
  unfold loseMemory
  extract_lets s1 s2 s3 s4
  have h1 : s1.rails = s.rails := foldl_keeps (fun t b => (rails_blind.sendEvent ..).trans (rails_blind.mem ..)) _ s
  have h2 : s2.rails = s1.rails := by
    simp only [s2]
    split
    · rfl
    · exact rails_blind.sticky ..
  have h4 : s4.rails = s3.rails := by
    simp only [s4]
    split <;> rfl
  exact h4.trans (h2.trans h1)

theorem enterReset_rails : (enterReset s).rails = s.rails := by
  unfold enterReset
  extract_lets s1 s2 s3 s4
  have h1 : s1.rails = s.rails := by
    simp only [s1]
    split
    · exact (rails_blind.ill ..).trans (raiseSource_rails ..)
    · exact raiseSource_rails ..
  have h2 : s2.rails = s1.rails := (endSession_rails ..).trans ((endSession_rails ..).trans (endSession_rails ..))
  have h3 : s3.rails = s2.rails := by
    refine forN_keeps (fun p t => ?_) 4 s2
    split
    · exact rails_blind.sticky ..
    · rfl
  clear_value s3 s2 s1
  exact h3.trans (h2.trans h1)

/-- What a rail fault's record is made of. -/
def Pwr.faultRecord (p : Pwr) : BitVec 32 × BitVec 8 := (p.railFaultCnt, p.sticky)

theorem faultRecord_of_rails {s t : State} (h : t.rails = s.rails) : t.pwr.faultRecord = s.pwr.faultRecord :=
  show t.rails.faultRecord = s.rails.faultRecord by rw [h]

theorem outside_rails : s.outside.rails = s.rails := rfl

theorem wipePictures_rails : (wipePictures s).rails = s.rails := by rw [← outside_rails, outside_wipePictures, outside_rails]

theorem warmEnter_faultRecord : (warmEnter s).pwr.faultRecord = s.pwr.faultRecord := by
  have hw (u : State) : (warmState u).pwr.faultRecord = u.pwr.faultRecord := rfl
  rw [warmEnter, hw]
  refine faultRecord_of_rails ?_
  rw [wipePictures_rails, wipeBuffers_untouched _ (g := State.rails) (fun _ _ _ => rfl), enterReset_rails]

/-- The device after a rail fault's answer, with its rails down and its calibration set back. -/
def railsDown : State :=
  pruneDoms { s with
    cal := {}
    pwr := { s.pwr with railReset := true, seqDone := false, step := 0, pgood := 0, retryWait := false } }

theorem railsDown_held : (railsDown s).live = false := by simp [railsDown, State.live, pruneDoms, State.onPwr]

end

theorem execPgoodFall_sequenced {s : State} (i : Fin 4) (hp : s.powered = true) (hn : s.porst = false) (hc : s.coldReset = false)
    (hd : s.pwr.seqDone = true) (hg : s.pwr.pgood.getLsbD i.val = true) : ∃ u, exec (.pgoodFall i) s = .next (railsDown u) ∧
      u.pwr.faultRecord = (sat s.pwr.railFaultCnt, s.pwr.sticky ||| 0x20) := by
  obtain ⟨u, hu⟩ : ∃ u, u = pwrRaise 0x20 (s.onPwr fun p => { p with railFaultCnt := sat p.railFaultCnt }) := ⟨_, rfl⟩
  obtain ⟨v, hv⟩ : ∃ v, v = if i.val = 3 then loseMemory u else u := ⟨_, rfl⟩
  have hfault : u.pwr.faultRecord = (sat s.pwr.railFaultCnt, s.pwr.sticky ||| 0x20) := by
    rw [hu, pwrRaise_pwr]
    rfl
  have hmem : v.pwr.faultRecord = u.pwr.faultRecord := by
    rw [hv]
    split
    · exact faultRecord_of_rails (loseMemory_rails u)
    · rfl
  refine ⟨if v.live then warmEnter v else v, ?_, ?_⟩
  · show execPgoodFall i s = _
    unfold execPgoodFall
    rw [hp, hn, hc, hg, hd, if_neg (by simp), if_neg (by simp), ← hu]
    dsimp only
    rw [← hv]
    rfl
  · rw [← hfault, ← hmem]
    split
    · exact warmEnter_faultRecord v
    · rfl

/-! ## The set point (R509) -/

theorem execAvsUpdate_good {s : State} {rb : Nat} (hl : s.live = true) (hr : s.mgt.st = .run) (hd : s.pwr.seqDone = true)
    (hb : s.pwr.standby = false) (hlo : rb ≤ s.pwr.vcoreSet.toNat + 25) (hhi : s.pwr.vcoreSet.toNat ≤ rb + 25) :
    exec (.avsUpdate rb) s = .next (s.onPwr fun p => { p with avsRun := 0, vcoreSet := BitVec.ofNat 10 (
      if s.pwr.vcoreSet.toNat < avsTarget s then min (avsTarget s) (s.pwr.vcoreSet.toNat + 5)
      else max (avsTarget s) (s.pwr.vcoreSet.toNat - 5)) }) := by
  have hoff : (decide (s.pwr.vcoreSet.toNat + 25 < rb) || decide (rb + 25 < s.pwr.vcoreSet.toNat)) = false := by
    simp only [Bool.or_eq_false_iff, decide_eq_false_iff_not]
    omega
  show execAvsUpdate rb s = _
  unfold execAvsUpdate
  rw [hl, hr, hd, hb, if_neg (by decide)]
  dsimp only
  rw [hoff]
  rfl

theorem execAvsUpdate_tenth {s : State} {rb : Nat} (hl : s.live = true) (hr : s.mgt.st = .run) (hd : s.pwr.seqDone = true)
    (hb : s.pwr.standby = false) (hlo : rb + 25 < s.pwr.vcoreSet.toNat) (hrun : 9 ≤ s.pwr.avsRun) :
    exec (.avsUpdate rb) s = .next (pwrRaise 0x10 (s.onPwr fun p => { p with avsRun := 10 })) := by
  have hoff : (decide (s.pwr.vcoreSet.toNat + 25 < rb) || decide (rb + 25 < s.pwr.vcoreSet.toNat)) = true := by
    rw [decide_eq_true hlo, Bool.or_true]
  have hten : min 10 (s.pwr.avsRun + 1) = 10 := by omega
  show execAvsUpdate rb s = _
  unfold execAvsUpdate
  rw [hl, hr, hd, hb, if_neg (by decide)]
  dsimp only
  rw [hoff, if_pos rfl, hten, if_pos rfl]

/-- The set point's next value lies within 5 mV of the one in force, towards the target. -/
theorem stepToward_eq {v t : Nat} (hv : v < 1024) (ht : t < 1024) :
    ((BitVec.ofNat 10 (if v < t then min t (v + 5) else max t (v - 5))).toNat : Int) = max (v - 5 : Int) (min (v + 5) t) := by
  rw [BitVec.toNat_ofNat]
  split <;> omega

/-! ## Items (R511) -/

section
variable {s : State} (i : Fin 32) (vm : BitVec 8) (hl : s.live = true) (hr : s.mgt.st = .run) (hd : (nth s.pwr.items i.val).defined = true)
include hl hr hd

theorem execPmbusItemPoll_answer (r : BitVec 16) : exec (.pmbusItemPoll i (some r) vm) s = .next { s with
    free := s.free + 1, pwr := { s.pwr with items := upd s.pwr.items i.val fun y => { y with
      value := itemWord (itemReading s.free y r vm), fault := false, stale := false, failRun := 0 } } } := by
  show execPmbusItemPoll i (some r) vm s = _
  unfold execPmbusItemPoll
  dsimp only
  rw [hl, hr, hd]
  rfl

theorem execPmbusItemPoll_silent (hf : (nth s.pwr.items i.val).failRun < 2) : exec (.pmbusItemPoll i none vm) s =
    .next (s.onPwr fun p => { p with items := upd p.items i.val fun y => { y with failRun := y.failRun + 1 } }) := by
  show execPmbusItemPoll i none vm s = _
  unfold execPmbusItemPoll
  dsimp only
  have hbad : decide (2 ≤ (nth s.pwr.items i.val).failRun) = false := decide_eq_false (by omega)
  rw [hl, hr, hd, if_neg (by decide), hbad, if_neg (by decide), State.onPwr]
  rw [upd_congr s.pwr.items i.val (g := fun y => { y with failRun := y.failRun + 1 }) (by
    rw [Bool.or_false, show min 3 ((nth s.pwr.items i.val).failRun + 1) = (nth s.pwr.items i.val).failRun + 1 by omega])]
  rfl

theorem execPmbusItemPoll_third (hf : 2 ≤ (nth s.pwr.items i.val).failRun) : exec (.pmbusItemPoll i none vm) s =
    .next (pwrRaise 0x40 (s.onPwr fun p => { p with items := upd p.items i.val fun y => { y with failRun := 3, fault := true } })) := by
  show execPmbusItemPoll i none vm s = _
  unfold execPmbusItemPoll
  dsimp only
  rw [hl, hr, hd, if_neg (by decide), decide_eq_true hf, if_pos rfl, State.onPwr]
  rw [upd_congr s.pwr.items i.val (g := fun y => { y with failRun := 3, fault := true }) (by
    rw [Bool.or_true, show min 3 ((nth s.pwr.items i.val).failRun + 1) = 3 by omega])]
  rfl

end

/-! ## Domains (R29, R30, R512, R513) -/

/-- Exactly the listed domains are on. -/
theorem getLsbD_foldl_bit1 (l : List Nat) (b : BitVec 144) {d : Nat} (hd : d < 144) :
    (l.foldl (fun b d => b ||| bit1 144 d) b).getLsbD d = (b.getLsbD d || decide (d ∈ l)) := by
  induction l generalizing b with
  | nil => simp
  | cons x l ih =>
    have hx : (bit1 144 x).getLsbD d = decide (d = x) := by
      rw [bit1, BitVec.getLsbD_ofNat, Nat.testBit_two_pow, decide_eq_true hd, Bool.true_and]
      exact decide_eq_decide.mpr eq_comm
    rw [List.foldl_cons, ih, BitVec.getLsbD_or, hx, Bool.or_assoc, ← Bool.decide_or]
    simp only [List.mem_cons]

/-- The domain that finishes switching on is one that is called for and off, if there is one. -/
def switched (ds : List Nat) (s : State) : List Nat :=
  match ds with | [] => [] | [d] => [d] | ds => [ds.getD (Config.domainChoice s.free % ds.length) 0]

theorem switched_mem {ds : List Nat} (s : State) : (∀ d ∈ switched ds s, d ∈ ds) ∧ (ds ≠ [] → switched ds s ≠ []) := by
  match ds with
  | [] => exact ⟨fun d hd => hd, fun h => h⟩
  | [d] => exact ⟨fun d hd => hd, fun h => h⟩
  | a :: b :: ds =>
    have hlt : Config.domainChoice s.free % (a :: b :: ds).length < (a :: b :: ds).length := Nat.mod_lt _ (by simp)
    refine ⟨fun d hd => ?_, fun _ => List.cons_ne_nil _ _⟩
    obtain rfl := List.mem_singleton.mp hd
    rw [List.getD_eq_getElem _ _ hlt]
    exact List.getElem_mem _

/-- The domains that are called for and off. -/
def dueDomains (s : State) : List Nat := (List.range 141).filter fun d => wantsDomain d s && !(domainOn d s)

theorem mem_dueDomains {d : Nat} {s : State} : d ∈ dueDomains s ↔ d < 141 ∧ wantsDomain d s = true ∧ domainOn d s = false := by
  simp [dueDomains]

theorem execDomainSwitchOn_live {s : State} (hl : s.live = true) : ∃ t, exec .domainSwitchOn s = .next t ∧
    t.pwr = { s.pwr with doms := t.pwr.doms } ∧
    ∀ d, d < 144 → (t.pwr.doms.getLsbD d = true ↔ domainOn d s = true ∨ d ∈ switched (dueDomains s) s) := by
  refine ⟨(s.onPwr fun p => { p with
    doms := ((List.range 144).filter (fun d => domainOn d s) ++ switched (dueDomains s) s).foldl (fun b d => b ||| bit1 144 d) 0 }).useFree, ?_, rfl, fun d hd => ?_⟩
  · show execDomainSwitchOn s = _
    unfold execDomainSwitchOn
    rw [hl]
    rfl
  · show BitVec.getLsbD (List.foldl (fun b d => b ||| bit1 144 d) 0 _) d = true ↔ _
    rw [getLsbD_foldl_bit1 _ _ hd]
    simp [hd]

end Sys2Proof.Machine

namespace Sys2Proof.Proofs
open Sys2Proof.Machine

/-- Settles O43: each event's answer as its row gives it; a rail fault's record is none of what the warm reset's entry moves. -/
theorem suppliesRailsAndDomains : Obligations.SuppliesRailsAndDomains := by
  unfold Obligations.SuppliesRailsAndDomains
  refine ⟨fun mv s hp => ⟨?high, execVinLow_powered mv hp, ?vbat⟩, fun s hp => ?unpowered, fun s hq hr => ⟨execRailSeqStep_running hq hr,
    execRailSeqTimeout_running hq⟩, fun s => execRailSeqRetry_due, fun i s hp hn hc hd hg => ?fault, fun rb s hl hr hd hb => ⟨fun hlo hhi => ?good,
    fun hlo hrun => ?tenth⟩, fun i vm s hl hr hd => ⟨execPmbusItemPoll_answer i vm hl hr hd, execPmbusItemPoll_silent i vm hl hr hd,
    fun hf => ?third⟩, fun ws s hp => ?alert, fun s hl => ?domain, fun h s hs hoff hm hd => ?exit⟩
  case high =>
    refine goes_pwrRaise 0x2 (u := s.onPwr fun p => { p with vin := mv, vinHighCnt := sat p.vinHighCnt }) ?_
    show execVinHigh mv s = _
    rw [execVinHigh, if_pos hp]
  case vbat =>
    refine goes_pwrRaise 0x4 (u := s.onPwr fun p => { p with vbatGood := false }) ?_
    show execVbatLow s = _
    unfold execVbatLow
    rw [hp]
    rfl
  case unpowered => exact congrArg Host.Outcome.next (if_neg (by rw [hp]; decide))
  case fault =>
    obtain ⟨u, he, hrec⟩ := execPgoodFall_sequenced i hp hn hc hd hg
    exact ⟨_, he, railsDown_held u, rfl, rfl, rfl, rfl, congrArg (·.1) hrec, congrArg (·.2) hrec, rfl⟩
  case good =>
    exact ⟨_, execAvsUpdate_good hl hr hd hb hlo hhi, rfl, stepToward_eq s.pwr.vcoreSet.isLt⟩
  case tenth => exact goes_pwrRaise 0x10 (execAvsUpdate_tenth hl hr hd hb hlo hrun)
  case third => exact goes_pwrRaise 0x40 (execPmbusItemPoll_third i vm hl hr hd hf)
  case alert =>
    refine goes_pwrRaise 0x80 (u := s.onPwr fun p => { p with statusWords := if s.mgt.st = .run then ws else p.statusWords }) ?_
    show execPmbusAlert ws s = _
    unfold execPmbusAlert
    rw [if_pos hp]
    by_cases hr : s.mgt.st = .run
    · simp only [hr, beq_self_eq_true, if_true]
    · simp only [hr, beq_iff_eq, if_false]
      rfl
  case domain =>
    obtain ⟨t, he, hpwr, hon⟩ := execDomainSwitchOn_live hl
    obtain ⟨hmem, hne⟩ := switched_mem (ds := dueDomains s) s
    refine ⟨t, he, hpwr, fun d hd h => (hon d (by omega)).mpr (.inl h), fun d hd h => ?_, fun ⟨d, hd⟩ => ?_⟩
    · exact ((hon d (by omega)).mp h).imp id fun hs => (mem_dueDomains.mp (hmem d hs)).2.1
    · obtain ⟨x, hx⟩ := List.exists_mem_of_ne_nil _ (hne (List.ne_nil_of_mem (mem_dueDomains.mpr hd)))
      obtain ⟨hlt, hw, hoff⟩ := mem_dueDomains.mp (hmem x hx)
      exact ⟨x, hlt, hw, hoff, (hon x (by omega)).mpr (.inr hx)⟩
  case exit =>
    refine ⟨complete h .timeout 0 (s.onPwr fun p => { p with standbyCmd := none }), ?_, complete_only _ _ _ _ (onlyReports_refl _)⟩
    have hwait : (s.mem.st == .ready && s.sec.st != .selftest) = false := by
      cases hst : s.mem.st == .ready
      · rfl
      · rw [hm (eq_of_beq hst)]
        rfl
    have hover : decide (s.ns < s.pwr.exitNs + 1000000000) = false := decide_eq_false (by omega)
    show execStandbyExitTimeout s = _
    unfold execStandbyExitTimeout
    rw [hs]
    dsimp only
    rw [hoff, hwait, hover, if_neg (by decide)]

end Sys2Proof.Proofs
end

section
/-!
PROOFS. The service of a write request, and the events that close banks, save power, scrub, spare ranks and train (R397, R403, R407, R412
to R422). O57 is settled here.
-/
namespace Sys2Proof.Machine

/-! ## A write request that nothing precedes (R403, R406, R422) -/

section
variable {q : MemReq} {d : List Byte} {s t : State}

theorem Metered.place (h : Metered s t) (q : MemReq) : MemReq.place q t.mem = MemReq.place q s.mem := by
  obtain ⟨_, _, _, _, _, rfl⟩ := h
  rfl

theorem Metered.waiting (h : Metered s t) : t.mem.waiting = s.mem.waiting := by
  obtain ⟨_, _, _, _, _, rfl⟩ := h
  rfl

theorem storeAt_cells (x y : MemSpace) (a : Nat) (d : List Byte) (m : Mem) :
    (storeAt x a d m).cells y = if y = x then memWrite (m.cells x) a d else m.cells y := by
  cases x <;> cases y <;> rfl

theorem cleanWord_waiting (p : MemPlace) (d : List Byte) (m : Mem) : (cleanWord p d m).waiting = m.waiting := by
  unfold cleanWord
  split <;> rfl

theorem storeAt_waiting (x : MemSpace) (a : Nat) (d : List Byte) (m : Mem) : (storeAt x a d m).waiting = m.waiting := by cases x <;> rfl

/-- A burst that writes is no uncorrectable read. -/
theorem serveBurst_write_ok (hd : q.data = some d) (s : State) : (serveBurst q s).2 = false := by
  unfold serveBurst
  extract_lets p rank u
  split
  · rfl
  · rw [hd]

/-- A burst that neither protection nor a fence refuses stores its bytes in its region; any other stores nothing. -/
theorem serveBurst_write_cells (hd : q.data = some d) (s : State) (x : MemSpace) : (serveBurst q s).1.mem.cells x =
    if protRefused q s = true ∨ s.mem.fenced.getLsbD (MemReq.place q s.mem).pc = true ∨ x ≠ q.space then s.mem.cells x
    else memWrite (s.mem.cells q.space) q.addr d := by
  have hm := served_metered q s
  unfold serveBurst
  extract_lets p rank u
  have hu : Metered s u := hm
  rw [hu.refused]
  split
  next hp => rw [memRaise_mem, if_pos (.inl hp)]; exact hu.cells x
  next hp =>
    rw [hd]
    dsimp only
    rw [hu.fenced]
    split
    next hf => rw [if_pos (.inr (.inl hf))]; exact hu.cells x
    next hf =>
      rw [State.onMem_mem, cleanWord_cells, storeAt_cells, hu.cells, hu.cells]
      by_cases hx : x = q.space
      · rw [if_pos hx, if_neg (by simp only [hp, Bool.false_eq_true, false_or, not_or, not_not]; exact ⟨hf, hx⟩)]
      · rw [if_neg hx, if_pos (.inr (.inr hx))]

theorem serveBurst_write_waiting (hd : q.data = some d) (s : State) : (serveBurst q s).1.mem.waiting = s.mem.waiting := by
  obtain ⟨u, hu, h | h | h⟩ := serveBurst_write hd s
  · rw [h, memRaise_mem]
    exact hu.waiting
  · rw [h]
    exact hu.waiting
  · rw [h, State.onMem_mem, cleanWord_waiting, storeAt_waiting]
    exact hu.waiting

/-! ### The request among those that wait -/

/-- A request that waits alone is served when its pseudo-channel may serve it. -/
theorem firstServed_alone {w : MemWait} (pc : Nat) (hw : s.mem.waiting = [w]) :
    firstServed pc s = if mayServe pc 0 s then some 0 else none := by
  unfold firstServed
  rw [hw, show List.range [w].length = [0] from rfl, List.filter_cons, List.filter_nil]
  cases mayServe pc 0 s <;> rfl

theorem mayServe_alone {w : MemWait} (pc : Nat) (hw : s.mem.waiting = [w]) : mayServe pc 0 s =
    ((MemReq.place w.req s.mem).pc == pc && decide (w.readyNs ≤ s.ns) && decide ((nth s.mem.pcs pc).gapUntil ≤ s.ns) && w.got.isNone) := by
  unfold mayServe
  rw [hw]
  simp

theorem joinWait_waiting (hw : s.mem.waiting = []) : (joinWait q s).mem.waiting =
    [{ req := q, atNs := s.ns, readyNs := s.ns + q.waitNs, reserved := hasTokens q.port.val s }] := by
  show s.mem.waiting ++ _ = _
  rw [hw, List.nil_append]

/-- Issued and taken off the list again, a request alone has only been metered. -/
theorem joinWait_taken (hw : s.mem.waiting = []) : Metered s ((joinWait q s).onMem (servedAt 0 none)) := by
  have h : (joinWait q s).onMem (servedAt 0 none) = (meter q.port.val s).onMem fun m => { m with waiting := s.mem.waiting } := by
    unfold joinWait
    rw [State.onMem, State.onMem_mem, servedAt]
    simp only [show (meter q.port.val s).mem.waiting = s.mem.waiting from rfl, hw, List.nil_append, List.eraseIdx_cons_zero]
    rfl
  rw [h]
  exact ⟨_, _, _, _, _, rfl⟩

theorem place_waiting (q : MemReq) (m : Mem) (l : List MemWait) : MemReq.place q { m with waiting := l } = MemReq.place q m := rfl

theorem joinWait_place (q : MemReq) (s : State) : MemReq.place q (joinWait q s).mem = MemReq.place q s.mem :=
  (place_waiting q (meter q.port.val s).mem _).trans ((meter_metered q.port.val s).place q)

theorem execMemRequest_serves (hs : memServes s = true) (hr : MemReq.inRegion q s.mem = true) :
    exec (.memRequest q) s = .next (servePc (MemReq.place q s.mem).pc (joinWait q s)) := by
  show execMemRequest q s = _
  rw [execMemRequest, hs, hr, if_neg (by decide)]

theorem whole_data (hd : q.data = some d) : (MemReq.whole q).data = some (slice d 0 32) := by
  simp only [MemReq.whole, hd, Option.map_some]

theorem servedData_write (hd : q.data = some d) (s : State) : servedData q s = none := by
  rw [servedData, hd, Option.isNone_some, if_neg Bool.false_ne_true]

/-- A write whose bank is ready is served at once. -/
theorem execMemRequest_write (hs : memServes s = true) (hr : MemReq.inRegion q s.mem = true) (hw : s.mem.waiting = []) (hn : q.waitNs = 0)
    (hd : q.data = some d) (hg : (nth s.mem.pcs (MemReq.place q s.mem).pc).gapUntil ≤ s.ns) :
    ∃ u, Metered s u ∧ exec (.memRequest q) s = .next (serveBurst (MemReq.whole q) u).1 := by
  refine ⟨_, joinWait_taken (q := q) hw, ?_⟩
  have hj := joinWait_waiting (q := q) hw
  have hmay : mayServe (MemReq.place q s.mem).pc 0 (joinWait q s) = true := by
    rw [mayServe_alone _ hj]
    have hpcs : (joinWait q s).mem.pcs = s.mem.pcs := rfl
    have hns : (joinWait q s).ns = s.ns := rfl
    rw [hpcs, hns, joinWait_place, hn, Nat.add_zero, decide_eq_true hg, decide_eq_true (Nat.le_refl _), beq_self_eq_true]
    rfl
  have hbad (u : State) : (serveBurst (MemReq.whole q) u).2 = false := serveBurst_write_ok (whole_data hd) u
  rw [execMemRequest_serves hs hr, servePc, firstServed_alone _ hj, if_pos hmay]
  dsimp only
  rw [hj]
  dsimp only [List.getElem?_cons_zero, Option.getD_some]
  rw [servedData_write hd, serveOne, serveRequest]
  simp only [hbad, Bool.false_and, Bool.false_eq_true, if_false]

/-- A request whose bank is not ready waits. -/
theorem execMemRequest_early (hs : memServes s = true) (hr : MemReq.inRegion q s.mem = true) (hw : s.mem.waiting = [])
    (hn : 0 < q.waitNs) : exec (.memRequest q) s = .next (joinWait q s) := by
  have hj := joinWait_waiting (q := q) hw
  have hmay : mayServe (MemReq.place q s.mem).pc 0 (joinWait q s) = false := by
    have : decide (s.ns + q.waitNs ≤ (joinWait q s).ns) = false := decide_eq_false (by
      rw [show (joinWait q s).ns = s.ns from rfl]
      omega)
    rw [mayServe_alone _ hj, this, Bool.and_false, Bool.false_and, Bool.false_and]
  rw [execMemRequest_serves hs hr, servePc, firstServed_alone _ hj, hmay, if_neg Bool.false_ne_true]

/-- A stored burst reads back, and every other byte as before. -/
theorem memGet_memWrite_whole {m : List Host.Cell} (h : memWf m = true) (b a : Nat) (d : List Byte) : memGet (memWrite m b (slice d 0 32)) a =
    if b ≤ a ∧ a < b + 32 then (slice d 0 32).getD (a - b) 0 else memGet m a := by
  have hlen := slice_length d 0 32
  split
  next hin =>
    have ha : a = b + (a - b) := by omega
    rw [ha, memGet_memWrite _ _ _ _ h (by rw [hlen]; omega), Nat.add_sub_cancel_left]
  next hout => exact memGet_memWrite_other _ _ _ _ h (by rw [hlen]; omega)

theorem cells_wf {m : Mem} (h : Memory.wf m = true) (x : MemSpace) : memWf (m.cells x) = true := by
  simp only [Memory.wf, Bool.and_eq_true] at h
  obtain ⟨⟨hp, hg⟩, hr⟩ := h
  cases x
  · exact hp
  · exact hg
  · exact hr

end

/-! ## Banks, power and scrub (R407, R411, R416 to R418) -/

section
variable {s : State}

theorem execRequestPromote_serving (n : Fin 11) (hs : memServes s = true) : exec (.requestPromote n) s = .next (s.onMem fun m => { m with
    waiting := m.waiting.map fun w => if w.overdue n.val s then { w with promoted := true } else w
    ports := upd m.ports n.val fun p => { p with promoteCnt := satN p.promoteCnt (m.waiting.filter fun w => w.overdue n.val s).length } }) := by
  show execRequestPromote n s = _
  rw [execRequestPromote, hs, if_neg (by decide)]

theorem execPageIdleClose_idle {pc : Fin 32} {r : Fin 4} {b : Fin 16} (hs : memServes s = true) {o : OpenRow} (ho : o ∈ s.mem.openRows)
    (hpc : o.pc = pc.val) (hr : o.rank = r.val) (hb : o.bank = b.val) (hi : o.atNs + s.mem.pageIdleNs ≤ s.ns) :
    exec (.pageIdleClose pc r b) s = .next (closeBank pc.val r.val b.val s) := by
  have hany : (s.mem.openRows.any fun o =>
      o.pc == pc.val && o.rank == r.val && o.bank == b.val && decide (o.atNs + s.mem.pageIdleNs ≤ s.ns)) = true :=
    List.any_eq_true.mpr ⟨o, ho, by rw [hpc, hr, hb, decide_eq_true hi]; simp⟩
  show execPageIdleClose pc r b s = _
  rw [execPageIdleClose, hs, hany, if_pos (by decide)]

theorem execRefresh_awake {pc : Fin 32} {r : Fin 4} {b : Fin 16} (hs : memServes s = true) (hp : (nth s.mem.ranks r.val).power ≠ 2) :
    exec (.refresh pc r b) s = .next (closeBank pc.val r.val b.val s) := by
  show execRefresh pc r b s = _
  rw [execRefresh, hs, bne_iff_ne.mpr hp, if_pos (by decide)]

theorem execRankPowerDown_idle {r : Fin 4} (hs : memServes s = true) (hr : rankInService r.val s.mem = true)
    (hp : (nth s.mem.ranks r.val).power = 0) (hi : (nth s.mem.ranks r.val).lastNs + s.mem.idleNs ≤ s.ns) : exec (.rankPowerDown r) s =
    .next (s.onMem fun m => { m with ranks := upd m.ranks r.val fun x => { x with power := 1 } }) := by
  show execRankPowerDown r s = _
  rw [execRankPowerDown, hs, hr, hp, rankIdle, decide_eq_true hi, if_pos (by decide)]

/-- Each rank that returns to self-refresh does so for itself, and no contents move. -/
theorem returnRanks_ranks (s : State) : (returnRanks s).mem.plane = s.mem.plane ∧ (returnRanks s).mem.general = s.mem.general ∧
    ∀ r, r < 4 → (nth (returnRanks s).mem.ranks r).power = if rankReturns r s then 2 else (nth s.mem.ranks r).power := by
  unfold returnRanks
  extract_lets keep
  have hfold (n : Nat) (hn : n ≤ 4) : ∀ t, t = forN n (fun r t => if rankReturns r s then t.onMem fun m => { m with
        openRows := m.openRows.filter (·.rank != r), ranks := upd m.ranks r fun x => { x with power := 2, segs := keep } } else t) s →
      t.mem.plane = s.mem.plane ∧ t.mem.general = s.mem.general ∧
      ∀ r, r < 4 → (nth t.mem.ranks r).power = if r < n ∧ rankReturns r s = true then 2 else (nth s.mem.ranks r).power := by
    induction n with
    | zero =>
      rintro t rfl
      exact ⟨rfl, rfl, fun r _ => by simp⟩
    | succ n ih =>
      rintro t rfl
      obtain ⟨hp, hg, hr⟩ := ih (by omega) _ rfl
      rw [forN]
      split
      next hret =>
        refine ⟨hp, hg, fun r hr4 => ?_⟩
        by_cases h : n = r
        · subst h
          rw [State.onMem_mem, nth_upd_self _ _ _ hr4, if_pos ⟨Nat.lt_succ_self _, hret⟩]
        · rw [State.onMem_mem, nth_upd_other _ _ _ _ h, hr r hr4]
          simp only [show r < n + 1 ↔ r < n by omega]
      next hret =>
        refine ⟨hp, hg, fun r hr4 => ?_⟩
        rw [hr r hr4]
        by_cases h : n = r
        · subst h
          rw [if_neg (fun hc => hret hc.2), if_neg (fun hc => hret hc.2)]
        · simp only [show r < n + 1 ↔ r < n by omega]
  obtain ⟨hp, hg, hr⟩ := hfold 4 (Nat.le_refl _) _ rfl
  refine ⟨hp, hg, fun r h4 => ?_⟩
  rw [hr r h4]
  simp only [h4, true_and]

theorem execSelfRefreshEntry_within (hs : memServes s = true) (hr : s.mem.selfRefresh = true) :
    exec .selfRefreshEntry s = .next (returnRanks s) := by
  show execSelfRefreshEntry s = _
  rw [execSelfRefreshEntry, hr, hs, if_pos rfl, if_pos rfl]

theorem execSelfRefreshEntry_begins (hs : memServes s = true) (hw : wantsSelfRefresh s = true) (hm : s.mem.migRun = false)
    (hr : s.mem.selfRefresh = false) : ∃ t, exec .selfRefreshEntry s = .next t ∧ t.mem.selfRefresh = true ∧ t.mem.openRows = [] ∧
    ∀ r, r < 4 → (nth t.mem.ranks r).power =
      if rankInService r (dropSegments (if s.thm.shutdown then 0xFF else keptSegments s) s.mem) then 2 else (nth s.mem.ranks r).power := by
  have he : exec .selfRefreshEntry s = .next (enterSelfRefresh s) := by
    show execSelfRefreshEntry s = _
    rw [execSelfRefreshEntry, hr, if_neg Bool.false_ne_true]
  rw [enterSelfRefresh, hs, hw, hm, if_pos (by decide)] at he
  refine ⟨_, he, rfl, rfl, fun r h4 => ?_⟩
  generalize (if s.thm.shutdown = true then 0xFF else keptSegments s) = keep
  dsimp only [State.onMem_mem]
  rw [nth_ofFn _ h4]
  dsimp only
  split
  · rfl
  · simp only [nth, h4, dite_true]
    rfl

theorem execSelfRefreshExit_asleep {r : Fin 4} (hs : memServes s = true) (hr : rankInService r.val s.mem = true)
    (hp : (nth s.mem.ranks r.val).power = 2) : ∃ t, exec (.selfRefreshExit r) s = .next t ∧ (nth t.mem.ranks r.val).power ≠ 2 ∧
    t.mem.selfRefresh = (s.mem.selfRefresh && wantsSelfRefresh s) ∧ t.mem.general = s.mem.general := by
  refine ⟨(wakeRank r.val s).onMem fun m => { m with selfRefresh := m.selfRefresh && !(!(wantsSelfRefresh s)) }, ?_, ?_, ?_, rfl⟩
  · show execSelfRefreshExit r s = _
    rw [execSelfRefreshExit, hs, hr, hp, if_pos (by simp)]
  · show (nth (upd s.mem.ranks r.val _) r.val).power ≠ 2
    rw [nth_upd_self _ _ _ r.isLt]
    change (0 : BitVec 2) ≠ 2
    decide
  · rw [Bool.not_not]
    rfl

theorem execScrubPass_over (hs : memServes s = true) (ha : ∀ r, r < 4 → rankInService r s.mem = true → (nth s.mem.ranks r).power ≠ 2)
    (hi : s.mem.scrubNs + s.mem.scrubH * 3600000000000 ≤ s.ns) :
    exec .scrubPass s = .next (s.onMem fun m => { m with scrubPassCnt := sat m.scrubPassCnt, scrubNs := s.ns }) := by
  have hany : ((List.range 4).any fun r => rankInService r s.mem && (nth s.mem.ranks r).power == 2) = false := by
    rw [List.any_eq_false]
    intro r hr hc
    simp only [Bool.and_eq_true, beq_iff_eq] at hc
    exact ha r (List.mem_range.mp hr) hc.1 hc.2
  show execScrubPass s = _
  rw [execScrubPass, hs, hany, decide_eq_true hi, if_pos (by decide)]

end

/-! ## Rank sparing (R412, R413) -/

section
variable {s : State}

theorem execMigrationStart_spare {lr : Fin 4} (hs : memServes s = true) (hm : s.mem.migRun = false) (hv : s.mem.spareValid = true)
    (hl : lr.val < ranksIn s.mem) : exec (.migrationStart lr) s = .next (startMigration lr.val none s) := by
  show execMigrationStart lr s = _
  rw [execMigrationStart, hs, decide_eq_false (Nat.not_le.mpr hl), if_neg (by decide), hm, hv, if_neg (by decide)]

theorem startMigration_mem (lr : Nat) (cmd : Option Held) (s : State) :
    (startMigration lr cmd s).mem.migRun = true ∧ (startMigration lr cmd s).mem.migRow = 0 ∧
    (startMigration lr cmd s).mem.migSrc = nth s.mem.rankMap lr ∧ (startMigration lr cmd s).mem.migDst = s.mem.spareRank ∧
    (startMigration lr cmd s).mem.sticky.getLsbD 3 = true := by
  rw [startMigration, memRaise_mem]
  refine ⟨rfl, rfl, rfl, rfl, ?_⟩
  rw [BitVec.getLsbD_or, show BitVec.getLsbD (8 : BitVec 10) 3 = true by decide, Bool.or_true]

theorem execMigrationStart_noSpare {lr : Fin 4} (hs : memServes s = true) (hn : s.mem.migRun = true ∨ s.mem.spareValid = false)
    (hl : lr.val < ranksIn s.mem) : exec (.migrationStart lr) s = .next (memRaise 0x40 s) := by
  have hc : (s.mem.migRun || !s.mem.spareValid) = true := by
    rcases hn with h | h <;> rw [h]
    · rfl
    · exact Bool.or_true _
  show execMigrationStart lr s = _
  rw [execMigrationStart, hs, decide_eq_false (Nat.not_le.mpr hl), if_neg (by decide), hc, if_pos rfl]

theorem execMigrationRowCopied_row (hs : memServes s = true) (hm : s.mem.migRun = true) (hd : s.mem.migNs + rowCopyNs s.mem ≤ s.ns)
    (hr : s.mem.migRow + 1 < 16384) :
    exec .migrationRowCopied s = .next (s.onMem fun m => { m with migRow := m.migRow + 1, migNs := s.ns }) := by
  show execMigrationRowCopied s = _
  unfold execMigrationRowCopied
  dsimp only
  rw [hs, hm, decide_eq_false (Nat.not_lt.mpr hd), if_neg (by decide), if_pos hr]

theorem execMigrationRowCopied_last (hs : memServes s = true) (hm : s.mem.migRun = true) (hd : s.mem.migNs + rowCopyNs s.mem ≤ s.ns)
    (hr : 16384 ≤ s.mem.migRow + 1) : ∃ t, exec .migrationRowCopied s = .next t ∧ t.mem.migRun = false ∧ t.mem.migCnt = sat s.mem.migCnt ∧
      t.mem.rankMap = s.mem.rankMap.map (fun r => if r = s.mem.migSrc then s.mem.migDst else r) ∧
      t.mem.failed = s.mem.failed ||| bit1 4 s.mem.migSrc.toNat ∧ t.mem.sticky.getLsbD 4 = true := by
  obtain ⟨u, hu⟩ : ∃ u, u = (s.onMgt fun g => { g with fault := { g.fault with rank := upd g.fault.rank s.mem.migSrc.toNat fun _ => 2 } }).onMem
    fun m => { m with
      migRow := 16384, migRun := false, migCmd := none, spareValid := false, failed := m.failed ||| bit1 4 s.mem.migSrc.toNat
      rankMap := m.rankMap.map (fun r => if r = s.mem.migSrc then m.migDst else r), migCnt := sat m.migCnt } := ⟨_, rfl⟩
  refine ⟨completeOpt s.mem.migCmd .done 0 (migrationOver (memRaise 0x10 u)), ?_, ?_⟩
  · rw [hu]
    show execMigrationRowCopied s = _
    unfold execMigrationRowCopied
    dsimp only
    rw [hs, hm, decide_eq_false (Nat.not_lt.mpr hd), if_neg (by decide), if_neg (Nat.not_lt.mpr hr)]
  · rw [only_mem (completeOpt_only _ _ _ _ (onlyReports_refl _)), migrationOver_mem, memRaise_mem, hu]
    refine ⟨rfl, rfl, rfl, rfl, ?_⟩
    rw [BitVec.getLsbD_or, show BitVec.getLsbD (16 : BitVec 10) 4 = true by decide, Bool.or_true]

end

/-! ## Training (R420 to R422) -/

section
variable {s : State}

theorem execRetrainTempTrigger_beyond {pc : Fin 32} {temp : Int} (hs : memServes s = true) (hf : s.mem.fenced.getLsbD pc.val = false)
    (hr : (nth s.mem.pcs pc.val).retrain = false) (hb : beyondSets pc.val temp s = true) : exec (.retrainTempTrigger (pc, temp)) s =
    .next (s.onMem fun m => { m with pcs := upd m.pcs pc.val fun x => { x with retrain := true, gaps := 0 } }) := by
  show execRetrainTempTrigger (pc, temp) s = _
  rw [execRetrainTempTrigger, hs, hb, if_pos (by decide), startRetrain, hf, hr, if_neg (by decide)]

section
variable {pc : Fin 32} (hs : memServes s = true) (hr : (nth s.mem.pcs pc.val).retrain = true) (hm : s.mgt.st = .run)
include hs hr hm

theorem execRetrainGap_full (hg : (nth s.mem.pcs pc.val).gaps < 561) (hd : (nth s.mem.pcs pc.val).gapNs + 100000 ≤ s.ns)
    (hfull : gapsFull s = true) : exec (.retrainGap pc) s = .next s := by
  show execRetrainGap pc s = _
  unfold execRetrainGap
  dsimp only
  rw [hs, hr, decide_eq_true hg, decide_eq_true hd, hm, hfull, if_neg (by decide)]

theorem execRetrainGap_test (hg : (nth s.mem.pcs pc.val).gaps < 561) (hd : (nth s.mem.pcs pc.val).gapNs + 100000 ≤ s.ns)
    (hfull : gapsFull s = false) : exec (.retrainGap pc) s = .next (s.onMem fun m => { m with
      pcs := upd m.pcs pc.val fun x => { x with gaps := x.gaps + 1, gapNs := s.ns, gapUntil := s.ns + Config.gapLength s.free % 2001 }
      gens := upd m.gens (pc.val / 2) (testDq s.free pc.val) }).useFree := by
  show execRetrainGap pc s = _
  unfold execRetrainGap
  dsimp only
  rw [hs, hr, decide_eq_true hg, decide_eq_true hd, hm, hfull, if_pos (by decide)]

theorem execRetrainDone_tested (hg : 561 ≤ (nth s.mem.pcs pc.val).gaps) (f : Option (List Int)) : exec (.retrainDone pc f) s = .next
    (match f with
      | none => retrainEnd pc.val false s
      | some vs => retrainEnd pc.val true (storeResult pc.val (foundSetting (s.region pc.val) vs) s)) := by
  show execRetrainDone pc f s = _
  unfold execRetrainDone
  rw [hs, hr, decide_eq_false (Nat.not_lt.mpr hg), hm, if_neg (by decide)] <;> rfl

end

/-- What the end of a retraining command leaves of memory and calibration. -/
def State.retrained (s : State) : Mem × Cal := ({ s.mem with retrainCmd := none, retrainFenced := false }, s.cal)

theorem endRetrain_retrained (s : State) : (endRetrain s).retrained = s.retrained := by
  have honly {u v : State} (h : onlyReports u v) : v.retrained = u.retrained := show v.settings.retrained = u.settings.retrained by rw [h]
  unfold endRetrain
  split
  · rfl
  · split
    · rfl
    · exact (honly (complete_only _ _ _ _ (onlyReports_refl _))).trans rfl

/-- A pseudo-channel is fenced for good; training state, counts and calibration stay. -/
theorem fencePc_fenced (pc : Nat) (s : State) : (fencePc pc s).mem.pcs = s.mem.pcs ∧ (fencePc pc s).mem.retrainCnt = s.mem.retrainCnt ∧
    (fencePc pc s).mem.fenced = s.mem.fenced ||| bit1 32 pc := by
  obtain ⟨u, hu⟩ : ∃ u, u = memRaise 0x4 (s.onMem fun m => { m with fenced := m.fenced ||| bit1 32 pc, fenceEvtCnt := sat m.fenceEvtCnt }) :=
    ⟨_, rfl⟩
  have hmem : u.mem.pcs = s.mem.pcs ∧ u.mem.retrainCnt = s.mem.retrainCnt ∧ u.mem.fenced = s.mem.fenced ||| bit1 32 pc := by
    rw [hu, memRaise_mem]
    exact ⟨rfl, rfl, rfl⟩
  rw [fencePc, ← hu]
  split
  · rw [memRaise_mem]
    exact hmem
  · exact hmem

/-- The retraining of a pseudo-channel has ended. -/
theorem retrainEnd_mem {pc : Nat} (hpc : pc < 32) (found : Bool) (s : State) : (nth (retrainEnd pc found s).mem.pcs pc).retrain = false ∧
    (retrainEnd pc found s).mem.retrainCnt = sat s.mem.retrainCnt ∧
    (retrainEnd pc found s).mem.fenced = if found then s.mem.fenced else s.mem.fenced ||| bit1 32 pc := by
  unfold retrainEnd
  extract_lets named s1
  have hpcs : (nth s1.mem.pcs pc).retrain = false := by
    show (nth (upd s.mem.pcs pc _) pc).retrain = false
    rw [nth_upd_self _ _ _ hpc]
  have hend := endRetrain_retrained (if found then s1 else fencePc pc s1)
  generalize endRetrain (if found then s1 else fencePc pc s1) = t at hend
  have hmem : t.mem.pcs = (if found then s1 else fencePc pc s1).mem.pcs ∧
      t.mem.retrainCnt = (if found then s1 else fencePc pc s1).mem.retrainCnt ∧
      t.mem.fenced = (if found then s1 else fencePc pc s1).mem.fenced :=
    ⟨congrArg (fun x => x.1.pcs) hend, congrArg (fun x => x.1.retrainCnt) hend, congrArg (fun x => x.1.fenced) hend⟩
  obtain ⟨hp, hc, hf⟩ := hmem
  rw [hp, hc, hf]
  cases found
  · obtain ⟨hp', hc', hf'⟩ := fencePc_fenced pc s1
    simp only [Bool.false_eq_true, if_false]
    rw [hp', hc', hf']
    exact ⟨hpcs, rfl, rfl⟩
  · exact ⟨hpcs, rfl, rfl⟩

theorem retrainEnd_cal (pc : Nat) (s : State) : (retrainEnd pc true s).cal = s.cal :=
  congrArg (·.2) (endRetrain_retrained _)

theorem takeTheta_mem (r : Nat) (s : State) : (takeTheta r s).mem = s.mem := by
  unfold takeTheta
  split
  · exact (only_mem (calRaise_only _ _ (onlyReports_refl _))).trans rfl
  · rfl

theorem storeResult_mem (r : Nat) (vals : List (Nat × Int)) (s : State) : (storeResult r vals s).mem = s.mem := by
  unfold storeResult
  dsimp only
  split
  · exact takeTheta_mem ..
  · exact takeTheta_mem ..

/-- A value held within w of v. -/
theorem clampI_near (v x : Int) (w : Nat) : (clampI (v - w) (v + w) x - v).natAbs ≤ w := by
  unfold clampI
  omega

/-- Each quantity of the setting found lies near the one in force. -/
theorem foundSetting_near {x : CalRegion} {vs : List Int} {p : Nat × Int} (hp : p ∈ foundSetting x vs) : ∃ q, (calQtys 0)[p.1]? = some q ∧
    (p.2 - q.get x.cur).natAbs ≤ if p.1 < 64 then 16 else if p.1 < 96 then 32 else 8 := by
  obtain ⟨⟨q, i⟩, hq, rfl⟩ := List.mem_map.mp hp
  refine ⟨q, List.mem_zipIdx_iff_getElem?.mp hq, ?_⟩
  have hnear (w : Nat) : (clampI (q.get x.cur - w) (q.get x.cur + w) (vs.getD i 0) - q.get x.cur).natAbs ≤ w := clampI_near _ _ w
  dsimp only
  split
  · exact hnear 16
  · split
    · exact hnear 32
    · exact hnear 8

/-! ### Boot training -/

theorem bootSet_mem (n pc : Nat) (s : State) : (bootSet n pc s).mem = s.mem := storeResult_mem ..

theorem or_fresh (a b : BitVec 32) : a ||| (b &&& ~~~a) = a ||| b := by
  ext i
  simp only [BitVec.getElem_or, BitVec.getElem_and, BitVec.getElem_not]
  cases a[i] <;> simp

theorem bootTrained_mem (w : BitVec 32) (s : State) : (bootTrained w s).mem.fenced = s.mem.fenced ||| ~~~w ∧
    (bootTrained w s).mem.st = if 8 < (bitsOf 32 (s.mem.fenced ||| ~~~w).toNat).length then .failed else .ready := by
  unfold bootTrained
  extract_lets new bad s1 s2 s3
  have hbad : bad = s.mem.fenced ||| ~~~w := or_fresh _ _
  have h2 : s2.mem.fenced = bad := by
    simp only [s2]
    split
    · rfl
    · rw [memRaise_mem]
      rfl
  rw [← hbad]
  split
  · rw [memRaise_mem]
    exact ⟨h2, rfl⟩
  · have h3 : (if s3.mgt.allotNow.isSome then s3.raise .bootAllotment else s3).mem = s3.mem := by
      split
      · exact raise_mem ..
      · rfl
    rw [h3]
    exact ⟨h2, rfl⟩

theorem execBootTrainingDone_training (w : BitVec 32) (hl : s.live = true) (ht : s.mem.st = .training) : exec (.bootTrainingDone w) s =
    .next (bootTrained w ((bitsOf 32 w.toNat).foldl (fun t pc => bootSet s.free pc t) s.useFree)) := by
  show execBootTrainingDone w s = _
  rw [execBootTrainingDone, hl, ht, if_neg (by decide)]

end

end Sys2Proof.Machine

namespace Sys2Proof.Proofs
open Sys2Proof.Machine

/-- Settles O57: a request alone is served or waits by its bank's time; each other event by its own branch, with what it leaves of the
memory. -/
theorem memoryEventsServeAndMaintain : Obligations.MemoryEventsServeAndMaintain := by
  unfold Obligations.MemoryEventsServeAndMaintain
  refine ⟨fun q s d hs hr hw hn hd hg hwf => ?write, fun q s hs hr hw hn => ?early, fun n s hs => execRequestPromote_serving n hs,
    fun pc r b s i hs hi => ?close, fun r s hs hr hp hi => execRankPowerDown_idle hs hr hp hi, fun s hs hr => ?within,
    fun s hs hw hm hr => execSelfRefreshEntry_begins hs hw hm hr, fun r s hs hr hp => execSelfRefreshExit_asleep hs hr hp,
    fun s hs ha hi => execScrubPass_over hs ha hi, fun lr s hs hm hv hl => ⟨_, execMigrationStart_spare hs hm hv hl, startMigration_mem ..⟩,
    fun lr s hs hn hl => ⟨_, execMigrationStart_noSpare hs hn hl, memRaise_only _ _ (onlyReports_refl _)⟩,
    fun s hs hm hd => ⟨execMigrationRowCopied_row hs hm hd, execMigrationRowCopied_last hs hm hd⟩,
    fun pc temp s hs hf hr hb => execRetrainTempTrigger_beyond hs hf hr hb,
    fun pc s hs hr hm => ⟨fun hg hd => ⟨execRetrainGap_full hs hr hm hg hd, fun hfull => ?gap⟩, fun hg f => ?done⟩, fun w s hl ht => ?boot⟩
  case write =>
    obtain ⟨u, hu, he⟩ := execMemRequest_write hs hr hw hn hd hg
    have hcells := serveBurst_write_cells (whole_data hd) u
    have hwait := serveBurst_write_waiting (whole_data hd) u
    rw [hu.waiting, hw] at hwait
    have hspace : (MemReq.whole q).space = q.space := rfl
    rw [hu.refused, hu.fenced, hu.place, hu.cells, hspace] at hcells
    refine ⟨_, he, hwait, ?_⟩
    intro cells
    have hc (x : MemSpace) (m : Mem) : cells x m = m.cells x := by cases x <;> rfl
    refine ⟨fun hp hf a => ?_, fun hrefused => ?_, fun x hx => ?_⟩
    · rw [hc, hc, hcells, if_neg (by simp [hp, hf])]
      exact memGet_memWrite_whole (cells_wf hwf q.space) _ a d
    · rw [hc, hc, hcells, if_pos (hrefused.imp id Or.inl), hu.cells]
    · rw [hc, hc, hcells, if_pos (.inr (.inr hx)), hu.cells]
  case early => exact ⟨_, execMemRequest_early hs hr hw hn, rfl, rfl, rfl, by rw [joinWait_waiting hw]; rfl⟩
  case close =>
    rcases hi with ⟨rfl, o, ho, hpc, hrank, hb, hidle⟩ | ⟨rfl, hp⟩
    · exact execPageIdleClose_idle hs ho hpc hrank hb hidle
    · exact execRefresh_awake hs hp
  case within => exact ⟨_, execSelfRefreshEntry_within hs hr, returnRanks_ranks s⟩
  case gap =>
    have hx := nth_upd_self s.mem.pcs pc.val (fun x => { x with
      gaps := x.gaps + 1, gapNs := s.ns, gapUntil := s.ns + Config.gapLength s.free % 2001 }) pc.isLt
    have hlen : Config.gapLength s.free % 2001 ≤ 2000 := Nat.le_of_lt_succ (Nat.mod_lt _ (by decide))
    refine ⟨_, execRetrainGap_test hs hr hm hg hd hfull, congrArg (·.gaps) hx, congrArg (·.gapNs) hx,
      (Nat.le_add_right _ _).trans_eq (congrArg (·.gapUntil) hx).symm, (congrArg (·.gapUntil) hx).trans_le (Nat.add_le_add_left hlen _),
      fun k hk => nth_upd_other _ _ _ _ (Ne.symm hk), rfl, rfl, rfl, rfl⟩
  case done =>
    refine ⟨_, execRetrainDone_tested hs hr hm hg f, ?_⟩
    cases f with
    | none =>
      obtain ⟨hret, hcnt, hfence⟩ := retrainEnd_mem pc.isLt false s
      refine ⟨hret, hcnt, fun _ => ?_, nofun⟩
      dsimp only
      rw [hfence, if_neg Bool.false_ne_true, BitVec.getLsbD_or, bit1_getLsbD pc.isLt, Bool.or_true]
    | some vs =>
      obtain ⟨hret, hcnt, hfence⟩ := retrainEnd_mem pc.isLt true (storeResult pc.val (foundSetting (s.region pc.val) vs) s)
      rw [storeResult_mem] at hcnt hfence
      refine ⟨hret, hcnt, nofun, ?_⟩
      intro _ h
      cases h
      exact ⟨retrainEnd_cal .., hfence, fun x hx => foundSetting_near hx⟩
  case boot =>
    have hmem : ((bitsOf 32 w.toNat).foldl (fun t pc => bootSet s.free pc t) s.useFree).mem = s.mem :=
      foldl_keeps (g := State.mem) (fun t pc => bootSet_mem s.free pc t) _ s.useFree
    obtain ⟨hf, hst⟩ := bootTrained_mem w ((bitsOf 32 w.toNat).foldl (fun t pc => bootSet s.free pc t) s.useFree)
    rw [hmem] at hf hst
    exact ⟨_, execBootTrainingDone_training w hl ht, hf, hst⟩

end Sys2Proof.Proofs
end

section
/-!
PROOFS. Calibration: steps, results, dark windows and the windows of BAR0 (R492 to R503). O59 is settled here.
-/
namespace Sys2Proof.Machine

/-! ## One region (R493, R494, R499) -/

section
variable {s t : State}

theorem region_onRegion_same {r : Nat} (hr : r < 92) (f : CalRegion → CalRegion) (s : State) : (s.onRegion r f).region r = f (s.region r) :=
  nth_upd_self _ _ _ hr

theorem region_onRegion_other {r j : Nat} (h : r ≠ j) (f : CalRegion → CalRegion) (s : State) : (s.onRegion r f).region j = s.region j :=
  nth_upd_other _ _ _ _ h

theorem calRaise_cal (b : BitVec 3) (s : State) : (calRaise b s).cal = { s.cal with sticky := s.cal.sticky ||| b } :=
  show (calRaise b s).settings.cal = _ by
    rw [calRaise_only b s (onlyReports_refl _)]
    rfl

theorem calRaise_region (b : BitVec 3) (s : State) (r : Nat) : (calRaise b s).region r = s.region r := by
  rw [State.region, calRaise_cal, State.region]

theorem calRaise_thm (b : BitVec 3) (s : State) : (calRaise b s).thm = s.thm :=
  (only_thm (calRaise_only b s (onlyReports_refl _))).trans rfl

theorem calRaise_mem (b : BitVec 3) (s : State) : (calRaise b s).mem = s.mem :=
  (only_mem (calRaise_only b s (onlyReports_refl _))).trans rfl

/-- θ of a region follows its own reading and sensor alone. -/
theorem takeTheta_region {r : Nat} (hr : r < 92) (s : State) : (takeTheta r s).region r =
    if nth s.thm.sensFault (calSensor r) then s.region r else { s.region r with theta := nth s.thm.temp (calSensor r) } := by
  unfold takeTheta
  split
  · exact calRaise_region ..
  · exact region_onRegion_same hr ..

theorem takeTheta_congr {r : Nat} (hr : r < 92) (ht : t.thm = s.thm) (h : t.region r = s.region r) :
    (takeTheta r t).region r = (takeTheta r s).region r := by
  rw [takeTheta_region hr, takeTheta_region hr, ht, h]

theorem takeTheta_other {r j : Nat} (h : r ≠ j) (s : State) : (takeTheta r s).region j = s.region j := by
  unfold takeTheta
  split
  · exact calRaise_region ..
  · exact region_onRegion_other h ..

/-- What a region's θ leaves as it is. -/
def State.calFrame (s : State) : Thm × Mem × Vector CalClass 5 × BitVec 32 × BitVec 32 × Option Nat :=
  (s.thm, s.mem, s.cal.classes, s.cal.updateCnt, s.cal.darkCnt, s.cal.lastDark)

theorem onRegion_calFrame (r : Nat) (f : CalRegion → CalRegion) (s : State) : (s.onRegion r f).calFrame = s.calFrame := rfl
theorem useFree_calFrame (s : State) : s.useFree.calFrame = s.calFrame := rfl

theorem calRaise_calFrame (b : BitVec 3) (s : State) : (calRaise b s).calFrame = s.calFrame := by
  rw [State.calFrame, calRaise_thm, calRaise_mem, calRaise_cal, State.calFrame]

theorem takeTheta_calFrame (r : Nat) (s : State) : (takeTheta r s).calFrame = s.calFrame := by
  unfold takeTheta
  split
  · exact calRaise_calFrame ..
  · rfl

end

/-! ## Steps (R494, R495) -/

section
variable (r : Nat) (s : State)

theorem calStepRegion_calFrame : (calStepRegion r s).calFrame = s.calFrame := by
  unfold calStepRegion
  extract_lets s1 n s2
  have h2 : s2.calFrame = s.calFrame :=
    (useFree_calFrame _).trans <| (onRegion_calFrame ..).trans <| (onRegion_calFrame ..).trans <| takeTheta_calFrame r s
  split
  · exact h2
  · exact (calRaise_calFrame ..).trans h2

theorem calStepRegion_other {j : Nat} (h : r ≠ j) : (calStepRegion r s).region j = s.region j := by
  unfold calStepRegion
  extract_lets s1 n s2
  have h2 : s2.region j = s.region j := by
    rw [show s2.region j = (s1.onRegion r (stepRegion r (Config.roundUp s1.free))).region j from rfl, region_onRegion_other h,
      show s1.region j = ((takeTheta r s).onRegion r fun x => { x with old := none }).region j from rfl, region_onRegion_other h,
      takeTheta_other h]
  split
  · exact h2
  · exact (calRaise_region ..).trans h2

theorem calStepRegion_same (hr : r < 92) : ∃ up, (calStepRegion r s).region r = stepRegion r up { (takeTheta r s).region r with old := none } := by
  refine ⟨Config.roundUp ((takeTheta r s).onRegion r fun x => { x with old := none }).free, ?_⟩
  unfold calStepRegion
  extract_lets s1 n s2
  have h2 : s2.region r = stepRegion r (Config.roundUp s1.free) { (takeTheta r s).region r with old := none } := by
    rw [show s2.region r = (s1.onRegion r (stepRegion r (Config.roundUp s1.free))).region r from rfl, region_onRegion_same hr,
      show s1.region r = ((takeTheta r s).onRegion r fun x => { x with old := none }).region r from rfl, region_onRegion_same hr]
  split
  · exact h2
  · exact (calRaise_region ..).trans h2

end

/-- Regions stepped one after the other each take their own step. -/
theorem calSteps_regions (l : List Nat) (hn : l.Nodup) (hl : ∀ r ∈ l, r < 92) (s : State) :
    (l.foldl (fun s r => calStepRegion r s) s).calFrame = s.calFrame ∧
    (∀ r, r ∉ l → (l.foldl (fun s r => calStepRegion r s) s).region r = s.region r) ∧
    ∀ r ∈ l, ∃ up, (l.foldl (fun s r => calStepRegion r s) s).region r = stepRegion r up { (takeTheta r s).region r with old := none } := by
  induction l generalizing s with
  | nil => exact ⟨rfl, fun _ _ => rfl, fun r hr => absurd hr List.not_mem_nil⟩
  | cons x l ih =>
    obtain ⟨hx, hn⟩ := List.nodup_cons.mp hn
    obtain ⟨hframe, hout, hin⟩ := ih hn (fun r hr => hl r (List.mem_cons_of_mem _ hr)) (calStepRegion x s)
    have hthm : (calStepRegion x s).thm = s.thm := congrArg (·.1) (calStepRegion_calFrame x s)
    rw [List.foldl_cons]
    refine ⟨hframe.trans (calStepRegion_calFrame x s), fun r hr => ?_, fun r hr => ?_⟩
    · rw [List.mem_cons, not_or] at hr
      rw [hout r hr.2, calStepRegion_other x s (Ne.symm hr.1)]
    · by_cases h : r = x
      · subst h
        rw [hout r hx]
        exact calStepRegion_same r s (hl r List.mem_cons_self)
      · obtain ⟨up, hup⟩ := hin r ((List.mem_cons.mp hr).resolve_left h)
        refine ⟨up, ?_⟩
        rw [hup, takeTheta_congr (hl r hr) hthm (calStepRegion_other x s (Ne.symm h))]

theorem mem_calRegions {k r : Nat} (h : r ∈ calRegions k) : r < 92 := List.mem_range.mp (List.mem_filter.mp h).1

theorem execCalStep_due {k : Fin 5} {s : State} (hl : s.live = true)
    (hd : nth s.cal.stepNs k.val + 1000 * (nth s.cal.classes k.val).stepUs ≤ s.ns) : exec (.calStep k) s =
    .next ((calRegions k.val).foldl (fun s r => calStepRegion r s) (s.onCal fun c => { c with stepNs := upd c.stepNs k.val fun _ => s.ns })) := by
  show execCalStep k s = _
  rw [execCalStep, hl, decide_eq_true hd, if_pos (by decide)]

/-! ## Results (R496 to R500) -/

section
variable (r : Nat) (vals : List (Nat × Int)) (s : State)

/-- What a result does to a region that is not frozen, and that it leaves the thresholds. -/
theorem storeResult_frozen (hf : ((takeTheta r s).region r).freeze = true) : storeResult r vals s = takeTheta r s := by
  unfold storeResult
  dsimp only
  rw [if_pos hf]

theorem storeResult_thawed (hf : ((takeTheta r s).region r).freeze = false) : storeResult r vals s =
    ((takeTheta r s).onRegion r (storeInRegion r vals)).onCal fun c => { c with updateCnt := sat c.updateCnt } := by
  unfold storeResult
  dsimp only
  rw [if_neg (by rw [hf]; decide)]

theorem storeResult_dark : (storeResult r vals s).cal.darkCnt = s.cal.darkCnt ∧ (storeResult r vals s).cal.lastDark = s.cal.lastDark := by
  have ht := takeTheta_calFrame r s
  have hd : (takeTheta r s).cal.darkCnt = s.cal.darkCnt ∧ (takeTheta r s).cal.lastDark = s.cal.lastDark :=
    ⟨congrArg (·.2.2.2.2.1) ht, congrArg (·.2.2.2.2.2) ht⟩
  unfold storeResult
  dsimp only
  split
  · exact hd
  · exact hd

theorem takeTheta_freeze {r : Nat} (hr : r < 92) (s : State) : ((takeTheta r s).region r).freeze = (s.region r).freeze := by
  rw [takeTheta_region hr]
  split <;> rfl

theorem takeTheta_thr {r : Nat} (hr : r < 92) (s : State) : ((takeTheta r s).region r).thr = (s.region r).thr := by
  rw [takeTheta_region hr]
  split <;> rfl

/-- A result of a region that is not frozen is entered, and its thresholds stay. -/
theorem storeResult_entered {r : Nat} (hr : r < 92) (vals : List (Nat × Int)) {s : State} (hf : (s.region r).freeze = false) :
    (storeResult r vals s).cal.updateCnt = sat s.cal.updateCnt ∧ ((storeResult r vals s).region r).thr = (s.region r).thr := by
  rw [storeResult_thawed r vals s (by rw [takeTheta_freeze hr, hf])]
  constructor
  · exact congrArg (fun f => sat f.2.2.2.1) (takeTheta_calFrame r s)
  · rw [show ∀ u : State, (u.onCal fun c => { c with updateCnt := sat c.updateCnt }).region r = u.region r from fun _ => rfl,
      region_onRegion_same hr]
    exact takeTheta_thr hr s

end

theorem measuring_thawed {r : Nat} {s : State} (h : measuring r s = true) : (s.region r).freeze = false := by
  simp only [measuring, Bool.and_eq_true, Bool.not_eq_true'] at h
  exact h.1.2

/-- A window of an offset sampler: the threshold moves, and after four windows without a move it is a result. -/
theorem execOffsetWindow_measuring {r : Fin 92} {dq : Fin 32} {ones : Nat} {s : State} (h : measuring r.val s = true) {i : Nat} (hi : i < 32)
    (hdq : i = if r.val < 32 then dq.val else 0) {v v' : Int} (hv : v = nth (s.region r.val).thr i)
    (hv' : v' = moveThr r.val (nth s.cal.classes (calClassOf r.val)).deadband ones v) : ∃ t, exec (.offsetWindow r dq ones) s = .next t ∧
      nth (t.region r.val).thr i = v' ∧
      t.cal.updateCnt = if v' = v ∧ nth (s.region r.val).quiet i = 3 then sat s.cal.updateCnt else s.cal.updateCnt := by
  obtain ⟨n, hn⟩ : ∃ n, n = if v' = v then nth (s.region r.val).quiet i + 1 else 0 := ⟨_, rfl⟩
  obtain ⟨u, hu⟩ : ∃ u, u = s.onRegion r.val fun x => { x with
    thr := upd x.thr i fun _ => v', quiet := upd x.quiet i fun _ => if n = 4 then 0 else n } := ⟨_, rfl⟩
  have hex : exec (.offsetWindow r dq ones) s = .next (if n = 4 then storeResult r.val [(if r.val < 32 then 64 + i else 0, v')] u else u) := by
    show execOffsetWindow r dq ones s = _
    unfold execOffsetWindow
    rw [h, if_neg (by decide)]
    dsimp only
    rw [← hdq, ← hv, ← hv', ← hn, ← hu]
  have hreg : u.region r.val = { s.region r.val with
      thr := upd (s.region r.val).thr i fun _ => v', quiet := upd (s.region r.val).quiet i fun _ => if n = 4 then 0 else n } := by
    rw [hu, region_onRegion_same r.isLt]
  have hthr : nth (u.region r.val).thr i = v' := by
    rw [hreg]
    exact nth_upd_self _ _ _ hi
  have hcnt : u.cal.updateCnt = s.cal.updateCnt := by rw [hu]; rfl
  have hfreeze : (u.region r.val).freeze = false := by
    rw [hreg]
    exact measuring_thawed h
  have hfour : n = 4 ↔ v' = v ∧ nth (s.region r.val).quiet i = 3 := by
    rw [hn]
    split
    next hc => exact ⟨fun h => ⟨hc, Nat.succ.inj h⟩, fun h => congrArg (· + 1) h.2⟩
    next hc => exact ⟨fun h => absurd h (by decide), fun h => absurd h.1 hc⟩
  refine ⟨_, hex, ?_⟩
  by_cases h4 : n = 4
  · obtain ⟨hup, ht⟩ := storeResult_entered r.isLt [(if r.val < 32 then 64 + i else 0, v')] hfreeze
    rw [if_pos h4, if_pos (hfour.mp h4), ht, hup, hthr, hcnt]
    exact ⟨rfl, rfl⟩
  · rw [if_neg h4, if_neg (mt hfour.mpr h4), hthr, hcnt]
    exact ⟨rfl, rfl⟩

theorem execEdgeSweepDone_measuring {r : Fin 92} (dq : Fin 32) (cs : List Nat) {s : State} (h : measuring r.val s = true) :
    exec (.edgeSweepDone r dq cs) s =
      .next (storeResult r.val [(if r.val < 32 then dq.val else 1, ((centroidBin cs + 32) % 64 : Nat))] s) := by
  show execEdgeSweepDone r dq cs s = _
  rw [execEdgeSweepDone, h, if_neg (by decide)]

theorem execDarkWindow_past (ms : List Int) {s : State} (hl : s.live = true) (hd : darkPast 10000 s = true) : ∃ t,
    exec (.darkWindow ms) s = .next t ∧ t.cal.darkCnt = sat s.cal.darkCnt ∧ t.cal.lastDark = some s.ns := by
  obtain ⟨u, hu⟩ : ∃ u, u = s.onCal fun c => { c with lastDark := some s.ns, darkCnt := sat c.darkCnt } := ⟨_, rfl⟩
  have hex : exec (.darkWindow ms) s =
      .next ((List.range 44).foldl (fun s i => storeResult (48 + i) [(0, ms.getD i 0)] s) u) := by
    show execDarkWindow ms s = _
    rw [execDarkWindow, hl, hd, if_neg (by decide), hu]
  have hcnt := foldl_keeps (g := fun t => t.cal.darkCnt) (fun t i => (storeResult_dark (48 + i) [(0, ms.getD i 0)] t).1) (List.range 44) u
  have hlast := foldl_keeps (g := fun t => t.cal.lastDark) (fun t i => (storeResult_dark (48 + i) [(0, ms.getD i 0)] t).2) (List.range 44) u
  refine ⟨_, hex, hcnt.trans ?_, hlast.trans ?_⟩ <;> rw [hu] <;> rfl

/-! ## The windows of BAR0 (R40, R501, R503) -/

theorem startRetrain_region (pc r : Nat) (s : State) : (startRetrain pc s).region r = s.region r := by
  unfold startRetrain
  split <;> rfl

theorem freezeWrite_region {r : Nat} (hr : r < 92) (v : BitVec 32) (s : State) : ((freezeWrite r v s).region r).freeze = v.getLsbD 0 ∧
    ((freezeWrite r v s).region r).sets = (s.region r).sets := by
  obtain ⟨u, hu⟩ : ∃ u, u = s.onRegion r fun x => { x with
    freeze := v.getLsbD 0, written := x.freeze && v.getLsbD 0 && x.written } := ⟨_, rfl⟩
  have hreg : (freezeWrite r v s).region r = u.region r := by
    unfold freezeWrite
    rw [hu]
    dsimp only
    split
    · exact startRetrain_region ..
    · rfl
  rw [hreg, hu, region_onRegion_same hr]
  exact ⟨rfl, rfl⟩

end Sys2Proof.Machine

namespace Sys2Proof.Proofs
open Sys2Proof.Machine

/-- Settles O59: each region takes its own step, whatever the others of its class do; a result is entered unless its region is frozen. -/
theorem calibrationEventsStoreResults : Obligations.CalibrationEventsStoreResults := by
  unfold Obligations.CalibrationEventsStoreResults
  refine ⟨fun k s hl hd => ?step, fun r dq ones s h => ?window, fun r dq cs s h => ⟨execEdgeSweepDone_measuring dq cs h, _,
    execEdgeSweepDone_measuring dq cs h, (storeResult_entered r.isLt _ (measuring_thawed h)).1⟩, fun ms s hl hd => execDarkWindow_past ms hl hd,
    fun r v s hl => ⟨_, ?freeze, freezeWrite_region r.isLt v s⟩, fun r k w v s hl => ⟨fun hf => ?word, fun hf => ?ignored⟩,
    fun k v s hl => ?control⟩
  case step =>
    obtain ⟨hframe, hout, hin⟩ := calSteps_regions (calRegions k.val) (List.nodup_range.filter _) (fun r => mem_calRegions)
      (s.onCal fun c => { c with stepNs := upd c.stepNs k.val fun _ => s.ns })
    refine ⟨_, execCalStep_due hl hd, congrArg (·.2.2.1) hframe, congrArg (·.2.1) hframe, fun r hr hn => (hout r hn).symm, fun r hr => ?_⟩
    obtain ⟨up, hup⟩ := hin r hr
    exact ⟨up, hup.trans (congrArg (fun x : CalRegion => stepRegion r up { x with old := none }) (takeTheta_congr (mem_calRegions hr) rfl rfl))⟩
  case window =>
    intro i v v'
    exact execOffsetWindow_measuring h (by show (if r.val < 32 then dq.val else 0) < 32; split <;> omega) rfl rfl rfl
  case freeze =>
    show execFreezeWrite r v s = _
    rw [execFreezeWrite, hl, if_pos rfl]
  case word =>
    show execCalSetWrite r k w v s = _
    rw [execCalSetWrite, hl, if_pos rfl, calSetWrite, if_pos hf]
  case ignored =>
    refine ⟨calRaise 0x4 s, ?_, calRaise_only _ _ (onlyReports_refl _)⟩
    show execCalSetWrite r k w v s = _
    rw [execCalSetWrite, hl, if_pos rfl, calSetWrite, hf, if_neg Bool.false_ne_true]
  case control =>
    show execCalClassCtrlWrite k v s = _
    rw [execCalClassCtrlWrite, hl, if_pos rfl, calClassWrite]

end Sys2Proof.Proofs
end

section
/-!
PROOFS. The fabric's commands: images, chains, parameters and the reset of a cluster (R364 to R376, R388). O30 is settled here.
-/
namespace Sys2Proof.Machine

/-! ## Images (R365, R366) -/

/-- An accepted FAB_IMAGE_LOAD names a live buffer. -/
theorem fabImageLoad_buf {c : Cmd} {s : State} (h : accepted specFabImageLoad c s = true) : ∃ q, cmdBuf c s = some q := by
  have hb : bufChecks c 0 (atChecks c s) = none := checks_eq_none (check_of_accepted h) _ (by simp)
  obtain ⟨q, hq⟩ := findBuf_of_bufChecks hb
  exact ⟨q, (only_findBuf (atChecks_only c s) _).symm.trans hq⟩

/-- The image slot that the bytes of an image fill. -/
def imageSlot (b : List Byte) : Image :=
  { valid := true, role := BitVec.ofNat 3 (u8 b 6), io := BitVec.ofNat 8 (u8 b 7), cost := BitVec.ofNat 16 (u16 b 8)
    paramSize := u16 b 10, rev := BitVec.ofNat 32 (u32 b 24), size := BitVec.ofNat 32 b.length
    code := slice b 64 (u32 b 12), data := slice b (64 + u32 b 12) (u32 b 16)
    shared := slice b (64 + u32 b 12 + u32 b 16) (u32 b 20) }

/-- FAB_IMAGE_LOAD leaves what the reading of its buffer leaves, and fills the slot when the image is right. -/
theorem fabImageLoad_effect {h : Held} {q : Buffer} {u : State} (hq : cmdBuf h.cmd u = some q) : (specFabImageLoad.effect h u).st =
    match (bufImage q u).1 with
    | none => (bufImage q u).2
    | some b => (bufImage q u).2.onFab fun f => { f with images := upd f.images h.cmd.tindex.toNat fun _ => imageSlot b } := by
  simp only [specFabImageLoad, hq, Option.map_some]
  obtain ⟨r, t⟩ := bufImage q u
  cases r <;> rfl

/-! ## Chains (R367 to R374) -/

/-- The view with the surfaces that a chain still lacks, where they fit. -/
def withSurfaces (v : Nat) (ch : RoleChain) (s : State) : State :=
  match takeSurfaces v [ch] s with
  | some x => s.onFview v fun f => { f with canvas := x.1, symbSurf := x.2, surfSize := surfaceSize v s }
  | none => s

/-- Cluster n at the naming of a chain, with the role of the image that its new place runs. -/
def newPlace (v : Nat) (ch old : RoleChain) (s : State) (n : Nat) : Cluster → Cluster :=
  nameCluster v (imageOf ((placeOf ch n).getD (0, 0)).2 s).role (placeOf ch n) (placeOf old n)

/-- The clusters that change place take their new one. -/
def clustersNamed (v : Nat) (ch old : RoleChain) (s : State) : State := forN 64 (fun n t => t.onCluster n (newPlace v ch old s n)) s

/-- The chain that awaits its switch. -/
def chainNext (h : Held) (f : FabView) : FabView :=
  { f with
    next := some (parseChain (Cmd.payload h.cmd)), nextStart := bitOf (u8 (Cmd.payload h.cmd) 0) 0, nextGo := false, goCmd := none
    nextCmd := some h, nextParams := Vector.replicate 8 none }

/-- What FAB_CHAIN_SET leaves. -/
def chainSet (h : Held) (s : State) : State :=
  (clustersNamed h.cmd.tindex.toNat (parseChain (Cmd.payload h.cmd)) (s.fview h.cmd.tindex.toNat).chain
    (withSurfaces h.cmd.tindex.toNat (parseChain (Cmd.payload h.cmd)) s)).onFview h.cmd.tindex.toNat (chainNext h)

theorem fabChainSet_effect (h : Held) (s : State) : (specFabChainSet.effect h s).st = chainSet h s := by
  unfold chainSet clustersNamed withSurfaces
  rfl

section
variable {a s : State} (h : onlyReports a s)
include h

theorem only_fview (v : Nat) : s.fview v = a.fview v := by rw [State.fview, State.fview, only_fab h]
theorem only_cluster (n : Nat) : s.cluster n = a.cluster n := by rw [State.cluster, State.cluster, only_fab h]
theorem only_inForce (n : Nat) : inForce n s = inForce n a := by simp only [inForce, only_cluster h, only_fview h]
theorem only_epochStands (n : Nat) (x : Held) (r : Bool) : epochStands n x r s = epochStands n x r a := by
  simp only [epochStands, only_cluster h]
theorem only_imageOf (i : BitVec 8) : imageOf i s = imageOf i a := by rw [imageOf, imageOf, only_fab h]

theorem only_takeSurfaces (v : Nat) (cs : List RoleChain) : takeSurfaces v cs s = takeSurfaces v cs a := by
  have hset (u : State) : takeSurfaces v cs u.settings = takeSurfaces v cs u := rfl
  calc takeSurfaces v cs s
    _ = takeSurfaces v cs s.settings := (hset s).symm
    _ = takeSurfaces v cs a.settings := congrArg _ h
    _ = takeSurfaces v cs a := hset a

theorem only_surfaceSize (v : Nat) : surfaceSize v s = surfaceSize v a := by
  rw [surfaceSize, surfaceSize, State.cview, State.cview, only_cmp h]

theorem same_onFview (v : Nat) (f) : onlyReports (a.onFview v f) (s.onFview v f) := same_onFab h _
theorem same_onCluster (n : Nat) (f) : onlyReports (a.onCluster n f) (s.onCluster n f) := same_onFab h _

theorem same_withSurfaces (v : Nat) (ch : RoleChain) : onlyReports (withSurfaces v ch a) (withSurfaces v ch s) := by
  unfold withSurfaces
  rw [only_takeSurfaces h, only_surfaceSize h]
  split
  · exact same_onFview h _ _
  · exact h

theorem same_clustersNamed (v : Nat) (ch old : RoleChain) : onlyReports (clustersNamed v ch old a) (clustersNamed v ch old s) := by
  have hplace : newPlace v ch old s = newPlace v ch old a := by
    funext n
    rw [newPlace, newPlace, only_imageOf h]
  unfold clustersNamed
  rw [hplace]
  exact same_forN (f := fun n t => t.onCluster n (newPlace v ch old a n)) (fun n _ _ hk => same_onCluster hk n _) 64 h

theorem same_chainSet (x : Held) : onlyReports (chainSet x a) (chainSet x s) := by
  unfold chainSet
  rw [only_fview h]
  exact same_onFview (same_clustersNamed (same_withSurfaces h _ _) _ _ _) _ _

end

/-! ## Clusters (R376, R388) -/

/-- One whose only class is CLUSTER names one of the 64 clusters. -/
theorem accepted_cluster {sp : OpSpec} {c : Cmd} {s : State} (hc : sp.cls = [clsCluster]) (h : accepted sp c s = true) :
    c.tindex.toNat < 64 := by
  obtain ⟨hmem, hlt⟩ := accepted_target h
  rw [hc, List.mem_singleton] at hmem
  rw [hmem] at hlt
  exact hlt

/-- What FAB_CLUSTER_RESET leaves. -/
def clusterReset (n : Nat) (h : Held) (u : State) : State :=
  let v := (u.cluster n).view.toNat
  let w := if clusterBusy n u then (if (u.cluster n).symb then u.onFview v fun f => { f with symbRun := none } else dropFrame v u) else u
  (w.onPwr fun p => { p with doms := p.doms &&& ~~~(bit1 144 n) }).onCluster n fun x => { x with
    st := .load, engines := Vector.replicate 8 {}, shared := [], loaded := false, cmds := x.cmds ++ [h] }

theorem onCluster_onCluster (n : Nat) (f g : Cluster → Cluster) (s : State) :
    (s.onCluster n f).onCluster n g = s.onCluster n fun x => g (f x) :=
  congrArg (fun v => s.onFab fun c => { c with clusters := v }) (upd_upd s.fab.clusters n f g)

theorem fabClusterReset_effect (h : Held) (u : State) :
    (specFabClusterReset.effect h u).st = clusterReset h.cmd.tindex.toNat h u := by
  show (cycleCluster h.cmd.tindex.toNat u).onCluster _ _ = _
  unfold cycleCluster clusterReset
  dsimp only
  rw [onCluster_onCluster]
  cases clusterBusy h.cmd.tindex.toNat u <;> rfl

theorem clusterReset_st {n : Nat} (hn : n < 64) (h : Held) (u : State) : ((clusterReset n h u).cluster n).st = .load := by
  unfold clusterReset
  extract_lets v w
  rw [show ∀ (t : State) (f : Cluster → Cluster), (t.onCluster n f).cluster n = nth (upd t.fab.clusters n f) n from fun _ _ => rfl,
    nth_upd_self _ _ _ hn]

/-- A stage's parameters at their boundary, for a cluster that still plays its part in the chain in force. -/
theorem fabParamSet_apply {h : Held} {u : State} (hsymb : (u.cluster h.cmd.tindex.toNat).symb = false)
    (hoff : (u.cluster h.cmd.tindex.toNat).st ≠ .off) (hforce : inForce h.cmd.tindex.toNat u = true)
    (hepoch : epochStands h.cmd.tindex.toNat h true u = true) (hv : (u.cluster h.cmd.tindex.toNat).view.toNat < 5) :
    nth ((specFabParamSet.apply h u).fview (u.cluster h.cmd.tindex.toNat).view.toNat).params (u.cluster h.cmd.tindex.toNat).stage.toNat =
      some (parseParams h.cmd) := by
  obtain ⟨w, hw⟩ : ∃ w, w = u.onFview (u.cluster h.cmd.tindex.toNat).view.toNat fun f => { f with
    params := upd f.params (u.cluster h.cmd.tindex.toNat).stage.toNat fun _ => some (parseParams h.cmd) } := ⟨_, rfl⟩
  have hfview (t : State) (f : FabView → FabView) : (t.onFview (u.cluster h.cmd.tindex.toNat).view.toNat f).fview
      (u.cluster h.cmd.tindex.toNat).view.toNat = f (t.fview (u.cluster h.cmd.tindex.toNat).view.toNat) := nth_upd_self _ _ _ hv
  have hparams : nth (w.fview (u.cluster h.cmd.tindex.toNat).view.toNat).params (u.cluster h.cmd.tindex.toNat).stage.toNat =
      some (parseParams h.cmd) := by
    rw [hw, hfview]
    exact nth_upd_self _ _ _ (BitVec.isLt _)
  have hst : ((u.cluster h.cmd.tindex.toNat).symb || (u.cluster h.cmd.tindex.toNat).st == .off) = false := by
    rw [hsymb, Bool.false_or, beq_eq_false_iff_ne.mpr hoff]
  simp only [specFabParamSet, hst, hforce, hepoch, Bool.false_eq_true, if_false, Bool.and_self, if_true, ← hw]
  split
  · rw [hfview]
    exact hparams
  · exact hparams

end Sys2Proof.Machine

namespace Sys2Proof.Proofs
open Sys2Proof.Machine

/-- Settles O30: each effect in the state of its checks is the effect in the state before, reports aside. -/
theorem fabricCommandsSetImagesChainsAndParameters : Obligations.FabricCommandsSetImagesChainsAndParameters := by
  unfold Obligations.FabricCommandsSetImagesChainsAndParameters
  refine ⟨completes_of_accepted_effect (fun _ _ => rfl) ?image, completes_of_effect (fun _ _ => rfl) ?chain,
    completes_of_effect (fun _ _ => rfl) ?go, completes_of_effect (fun _ _ => rfl) ?params, completes_of_accepted_effect (fun _ _ => rfl) ?reset,
    fun h s ho hd => ?goes, fun h s ho hd hsymb hepoch hoff hforce => ?stage⟩
  case image =>
    rintro c s h u t ha hu rfl ht
    obtain ⟨q, hq⟩ := fabImageLoad_buf ha
    have hqu : cmdBuf h.cmd u = some q := (only_cmdBuf hu h.cmd).trans hq
    rw [fabImageLoad_effect hqu] at ht
    refine ⟨u, q, hu, hq, fun hnone => ?_, fun b hb => ?_⟩
    · rwa [hnone] at ht
    · rwa [hb] at ht
  case chain =>
    rintro c s h u t hu rfl ho ht
    rw [fabChainSet_effect] at ht
    have hset := onlyReports_trans (same_chainSet hu h) ht
    unfold chainSet clustersNamed withSurfaces at hset
    exact ⟨h, rfl, ho, hset⟩
  case go =>
    rintro c s h u t hu rfl ho ht
    exact ⟨h, rfl, ho, onlyReports_trans (same_onFview hu _ _) ht⟩
  case params => exact fun c s h u t hu _ _ ht => onlyReports_trans hu ht
  case reset =>
    rintro c s h u t ha hu rfl ht
    rw [fabClusterReset_effect] at ht
    refine ⟨h, rfl, ⟨u, hu, ht⟩, ?_⟩
    rw [State.cluster, only_fab ht]
    exact clusterReset_st (accepted_cluster rfl ha) h u
  case goes =>
    exact applyHeld_same s (sp := specFabChainGo) (by rw [ho]; rfl) hd rfl (by rw [ho]; rfl) fun hk => same_onFview hk _ _
  case stage =>
    intro x hv
    have happly := applyHeld_apply (sp := specFabParamSet) s (by rw [ho]; rfl) hd rfl (by rw [ho]; rfl)
    have hj := journalApply_only h s (onlyReports_refl s)
    have hc : (journalApply h s).cluster h.cmd.tindex.toNat = x := only_cluster hj _
    have hforceJ : inForce h.cmd.tindex.toNat (journalApply h s) = true := (only_inForce hj _).trans hforce
    have hepochJ : epochStands h.cmd.tindex.toNat h true (journalApply h s) = true := (only_epochStands hj ..).trans hepoch
    have := fabParamSet_apply (u := journalApply h s) (by rw [hc]; exact hsymb) (by rw [hc]; exact hoff) hforceJ hepochJ (by rw [hc]; exact hv)
    rw [hc] at this
    rw [State.fview, only_fab happly]
    exact this

end Sys2Proof.Proofs
end

section
/-!
PROOFS. Boot, restart, re-initialisation, updates, fuses and the records of the management subsystem (R458 to R475): what each event leaves
of the subsystem.
-/
namespace Sys2Proof.Machine

/-! ## A session's end, for what is blind to the enclave too -/

namespace PictureBlind
variable {β : Type} {g : State → β} (hg : PictureBlind g) (hsec : ∀ (s : State) (f : Sec → Sec), g (s.onSec f) = g s) (s : State)
include hg hsec

theorem endSession (host : HostId) (cause : Nat) : g (endSession host cause s) = g s := by
  unfold Machine.endSession
  split
  · exact (hg.reports (journalAdd_only _ _ (onlyReports_refl _))).trans ((hsec ..).trans (hg.hif ..))
  · rfl

theorem pcieDown (h : Nat) (clear : Bool) : g (pcieDown h clear s) = g s := (hg.endSession hsec ..).trans (hg.hif ..)

end PictureBlind

theorem mgtSettings_blind : PictureBlind fun s => s.mgt.settings := .of_unpictured fun _ => rfl

section
variable (s : State)

theorem mgtRaise_settings (b : BitVec 7) : (mgtRaise b s).mgt.settings = s.mgt.settings :=
  (mgtSettings_blind.sticky ..).trans rfl

theorem mgtRaise_xcl (b : BitVec 7) : (mgtRaise b s).xcl = s.xcl := (xcl_blind.sticky ..).trans rfl

theorem logRec_settings (vec code : Nat) (off bits : BitVec 32) : (logRec vec code off bits s).mgt.settings = s.mgt.settings :=
  only_mgt (logRec_only _ _ _ _ s (onlyReports_refl _))

theorem raiseSource_settings (code : Nat) : (raiseSource code s).mgt.settings = s.mgt.settings :=
  raiseSource_untouched (g := fun s => s.mgt.settings) (fun _ _ => rfl) (fun _ => rfl) (fun t _ _ _ _ _ => mgtSettings_blind.sticky t _ _ _ _)
    (fun t _ _ _ _ => logRec_settings t ..) code s

end

section
variable {m n : Mgt} (h : m.settings = n)
include h

theorem st_of_settings : m.st = n.st := h ▸ rfl
theorem warm_of_settings : m.warm = n.warm := h ▸ rfl
theorem runSlot_of_settings : m.runSlot = n.runSlot := h ▸ rfl
theorem lockstepCnt_of_settings : m.lockstepCnt = n.lockstepCnt := h ▸ rfl
theorem wdogCnt_of_settings : m.wdogCnt = n.wdogCnt := h ▸ rfl
theorem slots_of_settings : m.slots = n.slots := h ▸ rfl
theorem update_of_settings : m.update = n.update := h ▸ rfl
theorem updateCmd_of_settings : m.updateCmd = n.updateCmd := h ▸ rfl
theorem reinitCmd_of_settings : m.reinitCmd = n.reinitCmd := h ▸ rfl

end

/-! ## RUN and RECOVERY (R458, R464, R465) -/

/-- A command whose update is over has been answered. -/
def Mgt.answered (m : Mgt) : Mgt := { m with updateCmd := if m.update.isNone then none else m.updateCmd }

/-- Stage-1 runs. -/
def Mgt.atRun (m : Mgt) : Mgt := { Mgt.answered { m with st := .run } with reinitCmd := none }

/-- The image of slot i is the one that runs. -/
def Mgt.loaded (i : Nat) (m : Mgt) : Mgt :=
  { m with runSlot := i == 1, sram := (nth m.slots i).bytes, fault := { m.fault with bootSlot := BitVec.ofNat 1 i } }

section
variable (s : State)

theorem endUpdateCmd_settings : (endUpdateCmd s).mgt.settings = s.mgt.settings.answered := by
  unfold endUpdateCmd
  split
  next h hu hc =>
    rw [only_mgt (complete_only _ _ _ _ (onlyReports_refl _))]
    simp only [Mgt.answered, Mgt.settings, State.onMgt, hu, Option.isNone_none, if_true]
  next hnot =>
    cases hu : s.mgt.update with
    | some u => simp only [Mgt.answered, Mgt.settings, hu, Option.isNone_some, Bool.false_eq_true, if_false]
    | none =>
      have hc : s.mgt.updateCmd = none := by
        cases hc : s.mgt.updateCmd with
        | none => rfl
        | some h => exact (hnot h hu hc).elim
      simp only [Mgt.answered, Mgt.settings, hu, hc, Option.isNone_none, if_true]

theorem enterRecovery_settings : (enterRecovery s).mgt.settings = Mgt.answered { s.mgt.settings with st := .recovery } := by
  unfold enterRecovery
  refine (mgtSettings_blind.hif ..).trans <| (mgtSettings_blind.pcieDown (fun _ _ => rfl) ..).trans <|
    (mgtSettings_blind.pcieDown (fun _ _ => rfl) ..).trans ?_
  rw [endUpdateCmd_settings]
  rfl

theorem offRails_mgt : (offRails s).mgt = s.mgt := by
  unfold offRails
  split <;> rfl

theorem offRails_xcl : (offRails s).xcl = s.xcl := by
  unfold offRails
  split <;> rfl

theorem endUpdateCmd_xcl : (endUpdateCmd s).xcl = s.xcl := by
  unfold endUpdateCmd
  split
  · exact xcl_blind.complete ..
  · rfl

theorem enterRun_settings : (enterRun s).mgt.settings = s.mgt.settings.atRun := by
  have hran : (endUpdateCmd (flushFull (offRails (dropSource 10 (s.onMgt fun m => { m with st := .run }))))).mgt.settings =
      Mgt.answered { s.mgt.settings with st := .run } := by
    rw [endUpdateCmd_settings, only_mgt (flushFull_only _ (onlyReports_refl _)), offRails_mgt]
    rfl
  unfold enterRun
  rw [only_mgt (completeOpt_only _ _ _ _ (onlyReports_refl _)), Mgt.atRun, ← hran]
  rfl

theorem enterRun_active : (enterRun s).xcl.active = s.xcl.active &&& ~~~(bit1 12 10) := by
  unfold enterRun
  rw [xcl_blind.completeOpt, State.onMgt_xcl, endUpdateCmd_xcl, only_xcl (flushFull_only _ (onlyReports_refl _)), offRails_xcl,
    dropSource_active, State.onMgt_xcl]

theorem runSlotNow_settings (i : Nat) : (runSlotNow i s).mgt.settings = (s.mgt.settings.loaded i).atRun := by
  unfold runSlotNow
  rw [logRec_settings, enterRun_settings]
  rfl

/-- A slot that fails leaves the subsystem's state and its way of restart. -/
theorem failSlot_st (i : Nat) : (failSlot i s).mgt.settings.st = s.mgt.settings.st ∧ (failSlot i s).mgt.settings.warm = s.mgt.settings.warm := by
  unfold failSlot
  rw [mgtRaise_settings]
  exact ⟨rfl, rfl⟩

end

/-! ## Boot (R464, R466) -/

theorem execBoot_rom {s : State} (hl : s.live = true) (hs : s.mgt.st = .rom) : execBootImageVerify s = .next (
    if s.mgt.warm then
      if restartOk { s.mgt with warm := false } then runSlotNow (runIdx s.mgt) (s.onMgt fun m => { m with warm := false })
      else enterRecovery (failSlot (runIdx s.mgt) (s.onMgt fun m => { m with warm := false }))
    else coldBoot s) := by
  unfold execBootImageVerify
  rw [hl, hs]
  rfl

theorem tryBoot_good {i : Nat} {is : List Nat} {s : State} (h : imageOk (nth s.mgt.slots i).bytes s.mgt = true) :
    tryBoot (i :: is) s = runSlotNow i s := if_pos h

/-- The ROM's check of a restart looks at nothing that the restart clears. -/
theorem restartOk_warm (m : Mgt) : restartOk { m with warm := false } = restartOk m := by
  unfold restartOk copyGood imageOk runImage runIdx
  rfl

theorem b2n_eq_one (b : Bool) : (b2n b == 1) = b := by cases b <;> rfl

theorem bootImageVerify_cold {s : State} (hl : s.live = true) (hs : s.mgt.st = .rom) (hw : s.mgt.warm = false) :
    ∃ t, exec .bootImageVerify s = .next t ∧ (s.straps.getLsbD 2 = true → t.mgt.st = .recovery) ∧
    (∀ i is, s.straps.getLsbD 2 = false → bootOrder (loadTable s.mgt) = i :: is →
      imageOk (nth (loadTable s.mgt).slots i).bytes (loadTable s.mgt) = true → t.mgt.st = .run ∧ t.mgt.runSlot = (i == 1)) := by
  refine ⟨coldBoot s, ?_, fun hstrap => ?strap, fun i is hstrap ho hok => ?slot⟩
  · show execBootImageVerify s = _
    rw [execBoot_rom hl hs, hw]
    rfl
  case strap =>
    have ht : coldBoot s = enterRecovery (s.onMgt loadTable) := if_pos hstrap
    rw [ht]
    exact (st_of_settings (enterRecovery_settings _)).trans rfl
  case slot =>
    have ht : coldBoot s = tryBoot (bootOrder (loadTable s.mgt)) (s.onMgt loadTable) :=
      if_neg (ne_true_of_eq_false hstrap)
    rw [ht, ho, tryBoot_good (s := s.onMgt loadTable) hok]
    have hrun := runSlotNow_settings (s.onMgt loadTable) i
    exact ⟨st_of_settings hrun, runSlot_of_settings hrun⟩

theorem bootImageVerify_warm {s : State} (hl : s.live = true) (hs : s.mgt.st = .rom) (hw : s.mgt.warm = true) :
    ∃ t, exec .bootImageVerify s = .next t ∧ t.mgt.warm = false ∧
    (restartOk s.mgt = true → t.mgt.st = .run ∧ t.mgt.runSlot = s.mgt.runSlot) ∧ (restartOk s.mgt = false → t.mgt.st = .recovery) := by
  have hex : exec .bootImageVerify s = _ := execBoot_rom hl hs
  rw [hw, if_pos rfl, restartOk_warm] at hex
  refine ⟨_, hex, ?_⟩
  cases restartOk s.mgt with
  | true =>
    have hrun := runSlotNow_settings (s.onMgt fun m => { m with warm := false }) (runIdx s.mgt)
    exact ⟨warm_of_settings hrun, fun _ => ⟨st_of_settings hrun, (runSlot_of_settings hrun).trans (b2n_eq_one _)⟩, nofun⟩
  | false =>
    have hrec := enterRecovery_settings (failSlot (runIdx s.mgt) (s.onMgt fun m => { m with warm := false }))
    exact ⟨(warm_of_settings hrec).trans (failSlot_st ..).2, nofun, fun _ => (st_of_settings hrec).trans rfl⟩

/-! ## Errors, re-initialisation and restart (R458 to R460) -/

theorem mgtLockstepError_running (sram : Bool) {s : State} (hl : s.live = true) (hs : s.mgt.st ≠ .halt) :
    ∃ t, exec (.mgtLockstepError sram) s = .next t ∧
    t.mgt.lockstepCnt = sat s.mgt.lockstepCnt ∧ t.xcl.safe = true ∧ t.xcl.latch.getLsbD 10 = true ∧
    t.mgt.st = if 2 ≤ (s.mgt.mismatches.filter fun x => s.ns ≤ x + 60000000000).length then .halt else .reinit := by
  refine ⟨_, rfl, ?_⟩
  unfold lockstepError
  rw [if_neg (by rw [hl, beq_eq_false_iff_ne.2 hs]; decide)]
  obtain ⟨old, hold⟩ : ∃ old, old = s.mgt.mismatches.filter fun t => s.ns ≤ t + 60000000000 := ⟨_, rfl⟩
  rw [← hold]
  lift_lets
  intro ts s1 s2
  have hlen : ts.length = old.length + 1 := List.length_append
  have hcnt : s1.mgt.lockstepCnt = sat s.mgt.lockstepCnt := (lockstepCnt_of_settings (mgtRaise_settings ..)).trans rfl
  have hst1 : s1.mgt.st = s.mgt.st := (st_of_settings (mgtRaise_settings ..)).trans rfl
  have hset : s2.mgt.settings = { s1.mgt.settings with st := .reinit, update := none } := by
    have hne : (logRec 20 7 0 0 s1).mgt.st ≠ .halt := by
      rw [st_of_settings (logRec_settings ..), Mgt.settings, hst1]
      exact hs
    simp only [s2]
    rw [raiseSource_settings, reinit_eq, ← logRec_settings s1 20 7 0 0]
    simp only [Mgt.settings, if_neg hne]
  have hsafe : s2.xcl.safe = true := raiseSource_safe ..
  have hlatch : s2.xcl.latch.getLsbD 10 = true := by
    rw [show s2.xcl.latch = _ from raiseSource_latch .., show isLevel 10 = false from rfl, if_neg Bool.false_ne_true]
    exact getLsbD_or_bit1 _ (by decide)
  clear_value s1 s2 ts
  split
  next h3 =>
    have hxcl : (mgtRaise 0x8 (s2.onMgt fun m => { m with st := .halt })).xcl = s2.xcl :=
      mgtRaise_xcl ..
    have hm := mgtRaise_settings (s2.onMgt fun m => { m with st := .halt }) 0x8
    rw [hxcl, if_pos (by omega)]
    exact ⟨(lockstepCnt_of_settings hm).trans ((lockstepCnt_of_settings hset).trans hcnt), hsafe, hlatch, st_of_settings hm⟩
  next h3 =>
    rw [if_neg (by omega)]
    exact ⟨(lockstepCnt_of_settings hset).trans hcnt, hsafe, hlatch, st_of_settings hset⟩

theorem mgtWatchdog_running {s : State} (hl : s.live = true) (hs : s.mgt.st ≠ .halt) :
    ∃ t, exec .mgtWatchdog s = .next t ∧ t.mgt.wdogCnt = sat s.mgt.wdogCnt ∧ t.mgt.st = .reinit ∧ t.mgt.update = none := by
  refine ⟨reinit (mgtRaise 4 (s.onMgt fun m => { m with wdogCnt := sat m.wdogCnt })), ?_, ?_⟩
  · show execMgtWatchdog s = _
    rw [execMgtWatchdog, if_neg (by rw [hl, beq_eq_false_iff_ne.2 hs]; decide)]
  have hm := mgtRaise_settings (s.onMgt fun m => { m with wdogCnt := sat m.wdogCnt }) 4
  generalize mgtRaise 4 (s.onMgt fun m => { m with wdogCnt := sat m.wdogCnt }) = u at hm
  have hst : u.mgt.st = s.mgt.st := (st_of_settings hm).trans rfl
  rw [reinit_eq]
  exact ⟨(wdogCnt_of_settings hm).trans rfl, if_neg (by rwa [hst]), rfl⟩

theorem bootImageVerify_reinit {s : State} (hl : s.live = true) (hs : s.mgt.st = .reinit) (hsram : s.mgt.sram ≠ [])
    (hok : restartOk s.mgt = true) : exec .bootImageVerify s = .next (s.onMgt fun m => { m with sram := runImage m }) := by
  have hne : s.mgt.sram.isEmpty = false := List.isEmpty_eq_false_iff.mpr hsram
  show execBootImageVerify s = _
  unfold execBootImageVerify
  rw [hl, hs]
  simp only [Bool.not_true, Bool.false_eq_true, if_false, hne, hok, if_true]

theorem mgtRun_good {s : State} (hs : s.mgt.st = .reinit) (hsram : s.mgt.sram ≠ []) (hgood : copyGood s.mgt = true) :
    ∃ t, exec .mgtRun s = .next t ∧ t.mgt.st = .run ∧ t.mgt.reinitCmd = none ∧ t.xcl.active.getLsbD 10 = false := by
  refine ⟨enterRun s, ?_, (st_of_settings (enterRun_settings s)).trans rfl, (reinitCmd_of_settings (enterRun_settings s)).trans rfl, ?_⟩
  · show execMgtRun s = _
    rw [execMgtRun, hs, List.isEmpty_eq_false_iff.mpr hsram, hgood]
    rfl
  · rw [enterRun_active, BitVec.getLsbD_and, show (~~~(bit1 12 10)).getLsbD 10 = false by decide, Bool.and_false]

theorem mgtRun_bad {s : State} (hbad : copyGood s.mgt = false) : exec .mgtRun s = .next s := by
  show execMgtRun s = _
  rw [execMgtRun, hbad, Bool.and_false, if_neg Bool.false_ne_true]

/-! ## Updates (R464, R469, R470) -/

section
variable {s : State} {h : Held} {u : Nat × Nat × List Byte}

theorem flashEraseDone_begun (hu : updating 0x0A01 s = some (h, u)) :
    ∃ t, exec .flashEraseDone s = .next t ∧ onlyReports (s.onMgt fun m => { m with updateCmd := none }) t := by
  refine ⟨complete h .done 0 (s.onMgt fun m => { m with updateCmd := none }), ?_, complete_only _ _ _ _ (onlyReports_refl _)⟩
  show execFlashEraseDone s = _
  rw [execFlashEraseDone, hu]

theorem flashWriteDone_good (hu : updating 0x0A02 s = some (h, u)) :
    ∃ t, exec (.flashWriteDone true) s = .next t ∧ onlyReports (s.onMgt fun m => { m with
      slots := upd m.slots u.1 (fun x => { x with bytes := u.2.2 ++ slice (Cmd.payload h.cmd) 8 (Cmd.len h.cmd - 8) })
      update := some (u.1, u.2.1, u.2.2 ++ slice (Cmd.payload h.cmd) 8 (Cmd.len h.cmd - 8)), updateCmd := none }) t := by
  refine ⟨_, ?_, complete_only h .done 0 _ (onlyReports_refl _)⟩
  show execFlashWriteDone true s = _
  rw [execFlashWriteDone, hu]
  rfl

theorem flashWriteDone_bad (hu : updating 0x0A02 s = some (h, u)) :
    ∃ t, exec (.flashWriteDone false) s = .next t ∧ onlyReports (s.onMgt fun m => { m with update := none, updateCmd := none }) t := by
  refine ⟨_, ?_, complete_only h .dataError 0 _ (onlyReports_refl _)⟩
  show execFlashWriteDone false s = _
  rw [execFlashWriteDone, hu]
  rfl

/-- The update is over and answered, and the state of its slot, if there is one, is the one given. -/
def updateEnded (i : Nat) (st : SlotSt) (m : Mgt) : Prop :=
  m.update = none ∧ m.updateCmd = none ∧ (i < 2 → (nth m.slots i).st = st)

theorem updateEnded_of_settings {i : Nat} {st : SlotSt} {m n : Mgt} (hm : m.settings = n) (hn : updateEnded i st n) : updateEnded i st m := by
  obtain ⟨hupdate, hcmd, hslot⟩ := hn
  exact ⟨(update_of_settings hm).trans hupdate, (updateCmd_of_settings hm).trans hcmd, by rwa [slots_of_settings hm]⟩

/-- A slot's new state in a subsystem whose update is over. -/
theorem setSlot_updateEnded {i : Nat} {st : SlotSt} {f : FlashSlot → FlashSlot} {v : State} (hf : ∀ x, (f x).st = st)
    (hupdate : v.mgt.update = none) (hcmd : v.mgt.updateCmd = none) : updateEnded i st (setSlot i f v).mgt := by
  refine ⟨hupdate, hcmd, fun hi => ?_⟩
  rw [show (setSlot i f v).mgt.slots = upd v.mgt.slots i f from rfl, nth_upd_self _ _ _ hi, hf]

/-- The slot's image runs, and its update stays ended. -/
theorem atRun_updateEnded {i j : Nat} {st : SlotSt} {m : Mgt} (h : updateEnded i st m) : updateEnded i st (m.loaded j).atRun := by
  obtain ⟨hupdate, hcmd, hslot⟩ := h
  refine ⟨hupdate, ?_, hslot⟩
  show (if m.update.isNone then none else m.updateCmd) = none
  rw [hupdate]
  rfl

theorem only_updateEnded {a b : State} (ho : onlyReports a b) {i : Nat} {st : SlotSt} (hk : updateEnded i st a.mgt) : updateEnded i st b.mgt :=
  updateEnded_of_settings (only_mgt ho) hk

theorem updateVerifyDone_ended (hu : updating 0x0A03 s = some (h, u)) :
    ∃ t, exec .updateVerifyDone s = .next t ∧
    updateEnded u.1 (if imageOk (nth s.mgt.slots u.1).bytes s.mgt then .valid else .invalid) t.mgt := by
  refine ⟨_, rfl, ?_⟩
  simp only [hu]
  generalize imageOk (nth s.mgt.slots u.1).bytes s.mgt = good
  generalize (nth s.mgt.slots u.1).bytes = b
  generalize (s.mgt.st == .recovery) = fromRecovery
  have hlog := logRec_settings (s.onMgt fun m => { m with update := none, updateCmd := none }) 20 5 0 0
  generalize logRec 20 5 0 0 (s.onMgt fun m => { m with update := none, updateCmd := none }) = v at hlog
  have hupdate : v.mgt.update = none := (update_of_settings hlog).trans rfl
  have hcmd : v.mgt.updateCmd = none := (updateCmd_of_settings hlog).trans rfl
  cases good with
  | true =>
    simp only [if_true]
    generalize (fromRecovery || bitOf (u8 (Cmd.payload h.cmd) 0) 0) = pref
    obtain ⟨w, hw⟩ : ∃ w, w = setSlot u.1 (fun x => { x with st := .valid, svn := imgSvn b }) (v.onMgt fun m => { m with
      preferB := if pref then u.1 == 1 else m.preferB }) := ⟨_, rfl⟩
    have hended : updateEnded u.1 .valid w.mgt := by
      rw [hw]
      exact setSlot_updateEnded (by intro; rfl) hupdate hcmd
    rw [← hw]
    have hdone := only_updateEnded (complete_only h .done 0 w (onlyReports_refl w)) hended
    cases fromRecovery with
    | true => exact updateEnded_of_settings (runSlotNow_settings ..) (atRun_updateEnded hdone)
    | false => exact hdone
  | false =>
    simp only [Bool.false_eq_true, if_false]
    obtain ⟨w, hw⟩ : ∃ w, w = setSlot u.1 (fun x => { x with st := .invalid }) v := ⟨_, rfl⟩
    have hended : updateEnded u.1 .invalid w.mgt := by
      rw [hw]
      exact setSlot_updateEnded (by intro; rfl) hupdate hcmd
    rw [← hw]
    exact only_updateEnded (complete_only h .securityDenied 0 _ (onlyReports_refl _)) (updateEnded_of_settings (mgtRaise_settings ..) hended)

end

/-! ## Fuses and records (R468, R471, R475) -/

theorem retireSlots_fuses (m : Mgt) : (retireSlots m).fuses = m.fuses ∧ (retireSlots m).revoked = m.revoked := by
  unfold retireSlots
  split <;> exact ⟨rfl, rfl⟩

theorem fuseBurnDone_burned {s : State} {g : Nat} {h : Held} (hg : s.mgt.fuseGoal = some (g, h)) :
    ∃ t, exec .fuseBurnDone s = .next t ∧ t.mgt.fuses = (if fuseOp h.cmd = 1 then s.mgt.fuses + 1 else s.mgt.fuses) ∧
    t.mgt.revoked = (if fuseOp h.cmd = 1 then s.mgt.revoked else s.mgt.revoked ||| bit1 8 (fuseIdx h.cmd)) := by
  refine ⟨_, rfl, ?_⟩
  simp only [hg]
  have hlog : onlyReports s (logRec 20 8 0 0 s) := logRec_only _ _ _ _ s (onlyReports_refl s)
  generalize logRec 20 8 0 0 s = v at hlog
  have hfuses := only_fuses hlog
  have hrevoked := only_revoked hlog
  by_cases hop : fuseOp h.cmd = 1
  · simp only [hop, beq_self_eq_true, if_true]
    split
    · have hdone := complete_only { h with sole := true } .done 0 ((v.onMgt fun m => { m with fuses := m.fuses + 1 }).onMgt fun m =>
        retireSlots { m with fuseGoal := none }) (onlyReports_refl _)
      rw [only_fuses hdone, only_revoked hdone, State.onMgt_mgt, (retireSlots_fuses _).1, (retireSlots_fuses _).2]
      exact ⟨congrArg (· + 1) hfuses, hrevoked⟩
    · exact ⟨congrArg (· + 1) hfuses, hrevoked⟩
  · have hdone := complete_only { h with sole := true } .done 0 (v.onMgt fun m => { m with
      fuseGoal := none, revoked := m.revoked ||| bit1 8 (fuseIdx h.cmd) }) (onlyReports_refl _)
    simp only [beq_eq_false_iff_ne.2 hop, Bool.false_eq_true, if_false, hop]
    exact ⟨(only_fuses hdone).trans hfuses, (only_revoked hdone).trans (congrArg (· ||| bit1 8 (fuseIdx h.cmd)) hrevoked)⟩

/-- The boot configuration's allotment, as the command it is taken for. -/
def bootAllotCmd (b : List Byte) : Cmd := { host := 0, tclass := clsLink, plen := 32, inl := b }

theorem bootAllotment_due {s : State} {b : List Byte} (hb : s.mgt.allotNow = some b) (hm : s.mgt.allotMade = false) (hr : s.mem.st = .ready)
    (hp : s.glk.pending = none) : ∃ t h, exec .bootAllotment s = .next t ∧ t.mgt.allotMade = true ∧ t.glk.pending = some h ∧
    h.opcode = 0x0600 ∧ h.cmd.inl = b ∧ h ∈ t.hif.deferred := by
  have hex : exec .bootAllotment s = .next (holdCmd specLinkAllot (heldOf specLinkAllot (bootAllotCmd b) s)
      (specLinkAllot.effect (heldOf specLinkAllot (bootAllotCmd b) s)
        (journalAdd (heldEntry (heldOf specLinkAllot (bootAllotCmd b) s) .accept .accepted 0 s) (s.onMgt fun m => { m with allotMade := true })))) := by
    show execBootAllotment s = _
    unfold execBootAllotment
    rw [hb]
    dsimp only
    rw [hm, hr, hp, if_neg (by decide)]
    rfl
  have hmade (e : JEntry) : (journalAdd e (s.onMgt fun m => { m with allotMade := true })).mgt.allotMade = true :=
    show (journalAdd e (s.onMgt fun m => { m with allotMade := true })).mgt.settings.allotMade = true by
      rw [only_mgt (journalAdd_only e _ (onlyReports_refl _))]
      rfl
  exact ⟨_, _, hex, hmade _, rfl, rfl, rfl, List.mem_append_right _ List.mem_cons_self⟩

theorem eventLogFlush_running {s : State} (hs : s.mgt.st = .run) : exec .eventLogFlush s = .next (flushLog s) := by
  show execEventLogFlush s = _
  rw [execEventLogFlush, hs]
  rfl

end Sys2Proof.Machine
end

section
/-!
PROOFS. The enclave's tests, limits, services and tampers (R477 to R489, R565). O58 is settled here.
-/
namespace Sys2Proof.Machine

section
variable {x y : Sec} (h : x.kept = y)
include h

theorem st_of_kept : x.st = y.st := h ▸ rfl
theorem keys_of_kept : x.keys = y.keys := h ▸ rfl
theorem services_of_kept : x.services = y.services := h ▸ rfl
theorem tamperCause_of_kept : x.tamperCause = y.tamperCause := h ▸ rfl
theorem bbramValid_of_kept : x.bbramValid = y.bbramValid := h ▸ rfl

end

/-! ## ERROR (R477) -/

/-- The state ERROR, entered with a cause. -/
def Sec.failed (cause : BitVec 2) (x : Sec) : Sec := if x.st = .error then x else { x with services := [], st := .error, errorCause := cause }

theorem secError_sec (cause : BitVec 2) (bit : BitVec 9) (s : State) :
    (secError cause bit s).sec = { s.sec.failed cause with sticky := s.sec.sticky ||| bit } := by
  unfold secError Sec.failed
  split
  · exact secRaise_sec ..
  · rw [secRaise_sec, State.onSec_sec, endServices_sec]

theorem failed_st (cause : BitVec 2) (x : Sec) : (x.failed cause).st = .error := by
  unfold Sec.failed
  split
  · assumption
  · rfl

theorem failed_cause {cause : BitVec 2} {x : Sec} (h : x.st ≠ .error) : (x.failed cause).errorCause = cause := by
  rw [Sec.failed, if_neg h]

theorem failed_keys (cause : BitVec 2) (x : Sec) : (x.failed cause).keys = x.keys := by
  unfold Sec.failed
  split <;> rfl

theorem secError_st (cause : BitVec 2) (bit : BitVec 9) (s : State) : (secError cause bit s).sec.st = .error := by
  rw [secError_sec]
  exact failed_st ..

theorem secError_cause {cause : BitVec 2} (bit : BitVec 9) {s : State} (h : s.sec.st ≠ .error) :
    (secError cause bit s).sec.errorCause = cause := by
  rw [secError_sec]
  exact failed_cause h

theorem secAwake_not_error {s : State} (h : secAwake s = true) : s.sec.st ≠ .error := by
  intro he
  rw [secAwake, he] at h
  exact Bool.false_ne_true h

/-! ## Tests and the entropy source (R477, R481, R487) -/

theorem enclaveSelftestDone_passed {s : State} (hl : s.live = true) (hs : s.sec.st = .selftest) (hi : enclaveIntact s.mgt.sram = true) :
    exec (.enclaveSelftestDone true) s = .next ((seedDrbg s).onSec fun x => { deriveKeys x with
      st := if x.zeroPending then .zeroised else if x.officers = [] then .provision else .operational }) := by
  show execEnclaveSelftestDone true s = _
  unfold execEnclaveSelftestDone
  rw [hl, hs, hi]
  simp only [List.isEmpty_iff]
  rfl

theorem enclaveSelftestDone_failed {pass : Bool} {s : State} (hl : s.live = true) (hs : s.sec.st = .selftest)
    (hf : (pass && enclaveIntact s.mgt.sram) = false) : ∃ t, exec (.enclaveSelftestDone pass) s = .next t ∧ t.sec.st = .error ∧
      t.sec.errorCause = 1 ∧ t.sec.keys = s.sec.keys := by
  refine ⟨secError 1 0x2 s, ?_, secError_st .., secError_cause _ (by rw [hs]; decide), ?_⟩
  · show execEnclaveSelftestDone pass s = _
    unfold execEnclaveSelftestDone
    rw [hl, hs, hf]
    rfl
  · rw [secError_sec]
    exact failed_keys ..

theorem periodicSelftest_failed {s : State} (hl : s.live = true) (ha : secAwake s = true) :
    ∃ t, exec (.periodicSelftest false) s = .next t ∧ t.sec.st = .error ∧ t.sec.errorCause = 1 := by
  refine ⟨secError 1 0x2 s, ?_, secError_st .., secError_cause _ (secAwake_not_error ha)⟩
  show execPeriodicSelftest false s = _
  rw [execPeriodicSelftest, hl, ha]
  rfl

theorem drbgReseed_due {s : State} (hl : s.live = true) (ha : secAwake s = true)
    (hd : 1048576 ≤ s.sec.drbgReq ∨ s.sec.drbgNs + 86400000000000 ≤ s.ns) : exec .drbgReseed s = .next (seedDrbg s) := by
  show execDrbgReseed s = _
  rw [execDrbgReseed, hl, ha, ← Bool.decide_or, decide_eq_true hd, if_pos (by decide)]

theorem entropyFailure_live {s : State} (hl : s.live = true) : ∃ t, exec .entropyFailure s = .next t ∧ t.sec.st = .error ∧
    t.sec.sticky.getLsbD 8 = true ∧ (s.sec.st ≠ .error → t.sec.errorCause = 3) := by
  refine ⟨secError 3 0x100 s, ?_, secError_st .., ?_, secError_cause _⟩
  · show execEntropyFailure s = _
    rw [execEntropyFailure, hl, if_pos rfl]
  · rw [secError_sec, BitVec.getLsbD_or, show (0x100 : BitVec 9).getLsbD 8 = true by decide, Bool.or_true]

/-! ## Times that are over (R479, R480) -/

theorem nonceExpire_over {h : Fin 3} {s : State} (ho : nth s.sec.nonceNs (h.val + 1) + 10000000000 ≤ s.ns) :
    exec (.nonceExpire h) s = .next (s.onSec fun x => { x with nonce := upd x.nonce (h.val + 1) fun _ => none }) := by
  have hnone : (nonceOf (h.val + 1) s).isNone = true := by
    rw [nonceOf, if_neg (Nat.not_lt.mpr ho)]
    decide
  show execNonceExpire h s = _
  rw [execNonceExpire, if_pos hnone]

theorem loginLockoutEnd_over {h : Fin 3} {s : State} (ho : nth s.sec.lockout (h.val + 1) ≤ s.ns) :
    exec (.loginLockoutEnd h) s = .next (s.onSec fun x => { x with lockout := upd x.lockout (h.val + 1) fun _ => 0 }) := by
  show execLoginLockoutEnd h s = _
  rw [execLoginLockoutEnd, lockedOut, decide_eq_false (Nat.not_lt.mpr ho), if_neg Bool.false_ne_true]

theorem kemContextExpire_over {k : Fin 4} {s : State} (ho : nth s.sec.kemNs k.val + 60000000000 ≤ s.ns) :
    exec (.kemContextExpire k) s = .next (s.onSec fun x => { x with kem := upd x.kem k.val fun _ => none }) := by
  have hnone : (kemOf k.val s).isNone = true := by
    rw [kemOf, if_neg (Nat.not_lt.mpr ho)]
    decide
  show execKemContextExpire k s = _
  rw [execKemContextExpire, if_pos hnone]

/-! ## The services (R482, R486, R487) -/

theorem complete_services (h : Held) (st : Status) (d : Word) (s : State) : (complete h st d s).sec.services = s.sec.services := by
  rw [only_sec (complete_only h st d s (onlyReports_refl s))]

theorem drbgNext_services (s : State) : (drbgNext s).2.sec.services = s.sec.services := (services_of_kept (drbgNext_kept s)).trans rfl

/-- A finished service starts and ends no other. -/
theorem finishService_services (h : Held) (s : State) : (finishService h s).sec.services = s.sec.services := by
  unfold finishService
  extract_lets
  split
  next =>
    rw [complete_services, drbgNext_services]
    exact drbgNext_services s
  next =>
    split
    next =>
      rw [complete_services, drbgNext_services]
      rfl
    next =>
      split
      next =>
        rw [complete_services]
        exact drbgNext_services s
      next => exact complete_services ..

theorem enclaveServiceDone_oldest {res : ServiceResult} {s : State} {h : Held} {hs : List Held} (hq : s.sec.services = h :: hs) :
    ∃ t, exec (.enclaveServiceDone res) s = .next t ∧
    (res ≠ .testFail → t.sec.services = hs) ∧ (res = .testFail → t.sec.st = .error) ∧
    (res = .hostError → onlyReports (s.onSec fun x => { x with services := hs }) t) := by
  have hex : exec (.enclaveServiceDone res) s = .next (match res with
      | .ok => finishService h (s.onSec fun x => { x with services := hs })
      | .hostError => complete h .hostError 0 (s.onSec fun x => { x with services := hs })
      | .testFail => secError 1 0x2 (complete h .securityDenied 0 (s.onSec fun x => { x with services := hs }))) := by
    show execEnclaveServiceDone res s = _
    unfold execEnclaveServiceDone
    rw [hq] <;> rfl
  refine ⟨_, hex, ?_⟩
  cases res with
  | ok => exact ⟨fun _ => finishService_services .., nofun, nofun⟩
  | hostError => exact ⟨fun _ => complete_services .., nofun, fun _ => complete_only _ _ _ _ (onlyReports_refl _)⟩
  | testFail => exact ⟨fun h => absurd rfl h, fun _ => secError_st .., nofun⟩

/-! ## Tampers (R488, R489, R565) -/

/-- The enclave that a tamper of a cause finds when it zeroises. -/
def Sec.tampered (cause : Nat) (x : Sec) : Sec :=
  { x with tamperCause := x.tamperCause ||| bit1 8 cause, tamperFuse := x.tamperFuse || cause != 7 }

theorem tampered_zeroised_cause {cause : Nat} (hc : cause < 8) (x : Sec) : (x.tampered cause).zeroised.tamperCause.getLsbD cause = true := by
  show (x.tamperCause ||| bit1 8 cause).getLsbD cause = true
  rw [BitVec.getLsbD_or, bit1_getLsbD hc, Bool.or_true]

theorem tamper_powered {cause : Nat} {s : State} (hp : s.powered = true) : ∃ z, z = zeroise (s.onSec (Sec.tampered cause)) ∧
    tamper cause s = logRec 21 6 0 0 (z.onMgt fun m => { m with fault := { m.fault with tamper := z.sec.tamperCause.setWidth 32 } }) :=
  ⟨_, rfl, if_pos hp⟩

theorem tamper_kept (cause : Nat) {s : State} (hp : s.powered = true) : (tamper cause s).sec.kept = (s.sec.tampered cause).zeroised := by
  obtain ⟨z, hz, ht⟩ := tamper_powered (cause := cause) hp
  rw [ht, only_sec (logRec_only _ _ _ _ _ (onlyReports_refl _)), State.onMgt_sec, hz, zeroise_kept, State.onSec_sec]

/-- SELFTEST and ERROR outlast a tamper; any other state gives way to ZEROISED. -/
theorem tamper_st (cause : Nat) {s : State} (hp : s.powered = true) :
    (tamper cause s).sec.st = if s.sec.st = .selftest ∨ s.sec.st = .error then s.sec.st else .zeroised :=
  (st_of_kept (tamper_kept cause hp)).trans rfl

theorem tamper_cause {cause : Nat} (hc : cause < 8) {s : State} (hp : s.powered = true) :
    (tamper cause s).sec.tamperCause.getLsbD cause = true := by
  rw [tamperCause_of_kept (tamper_kept cause hp)]
  exact tampered_zeroised_cause hc _

/-- Everything of a sample inside the temperature's limits. -/
theorem execTamperSample_within {l : Fin 4} {sense : Bool} {temp : Int} {s : State} (hp : s.powered = true) (hlow : -4500 ≤ temp)
    (hhigh : temp ≤ 13000) : execTamperSample l sense temp s = .next (
      if (sense != (nth s.sec.lfsr l.val).getLsbD 15) && decide (1 ≤ nth s.sec.loopBad l.val) && s.sec.loopMask.getLsbD l.val &&
          !(s.sec.tamperCause.getLsbD l.val) then
        tamper l.val (s.onSec fun x => { x with
          loopBad := upd x.loopBad l.val fun _ =>
            if sense != (nth s.sec.lfsr l.val).getLsbD 15 then min 2 (nth s.sec.loopBad l.val + 1) else 0
          lfsr := upd x.lfsr l.val lfsrNext })
      else s.onSec fun x => { x with
        loopBad := upd x.loopBad l.val fun _ =>
          if sense != (nth s.sec.lfsr l.val).getLsbD 15 then min 2 (nth s.sec.loopBad l.val + 1) else 0
        lfsr := upd x.lfsr l.val lfsrNext }) := by
  have htemp : (decide (temp < -4500) || decide (13000 < temp)) = false := by
    rw [decide_eq_false (by omega), decide_eq_false (by omega)]
    rfl
  unfold execTamperSample
  rw [hp, Bool.not_true, Bool.false_and, if_neg Bool.false_ne_true]
  dsimp only
  rw [htemp, Bool.false_and, if_neg Bool.false_ne_true]

theorem tamperSample_good {l : Fin 4} {sense : Bool} {temp : Int} {s : State} (hp : s.powered = true) (hlow : -4500 ≤ temp)
    (hhigh : temp ≤ 13000) (hs : sense = (nth s.sec.lfsr l.val).getLsbD 15) : exec (.tamperSample l sense temp) s = .next (s.onSec fun x =>
      { x with loopBad := upd x.loopBad l.val (fun _ => 0), lfsr := upd x.lfsr l.val lfsrNext }) := by
  show execTamperSample l sense temp s = _
  rw [execTamperSample_within hp hlow hhigh, hs, bne_self_eq_false, Bool.false_and, Bool.false_and, Bool.false_and]
  rfl

theorem tamperSample_second {l : Fin 4} {sense : Bool} {temp : Int} {s : State} (hp : s.powered = true) (hlow : -4500 ≤ temp)
    (hhigh : temp ≤ 13000) (hs : sense ≠ (nth s.sec.lfsr l.val).getLsbD 15) (hbad : 1 ≤ nth s.sec.loopBad l.val)
    (hmask : s.sec.loopMask.getLsbD l.val = true) (hnew : s.sec.tamperCause.getLsbD l.val = false) :
    ∃ t, exec (.tamperSample l sense temp) s = .next t ∧
    t.sec.st = (if s.sec.st = .selftest ∨ s.sec.st = .error then s.sec.st else .zeroised) ∧ t.sec.tamperCause.getLsbD l.val = true := by
  obtain ⟨u, hu⟩ : ∃ u, u = s.onSec fun x => { x with
    loopBad := upd x.loopBad l.val fun _ => if sense != (nth s.sec.lfsr l.val).getLsbD 15 then min 2 (nth s.sec.loopBad l.val + 1) else 0
    lfsr := upd x.lfsr l.val lfsrNext } := ⟨_, rfl⟩
  have hpu : u.powered = true := hu ▸ hp
  have hst : u.sec.st = s.sec.st := hu ▸ rfl
  refine ⟨tamper l.val u, ?_, hst ▸ tamper_st _ hpu, tamper_cause (by omega) hpu⟩
  show execTamperSample l sense temp s = _
  rw [execTamperSample_within hp hlow hhigh, ← hu, bne_iff_ne.mpr hs, decide_eq_true hbad, hmask, hnew, if_pos (by decide)]

theorem supplyGlitch_powered {s : State} (hp : s.powered = true) : ∃ t, exec .supplyGlitch s = .next t ∧
    t.sec.st = (if s.sec.st = .selftest ∨ s.sec.st = .error then s.sec.st else .zeroised) ∧ t.sec.tamperCause.getLsbD 6 = true ∧
    t.sec.bbramValid = false ∧ t.sec.keys = s.sec.keys.map clearSlot := by
  have hkept := tamper_kept 6 hp
  refine ⟨tamper 6 s, ?_, tamper_st 6 hp, tamper_cause (by decide) hp, (bbramValid_of_kept hkept).trans rfl, (keys_of_kept hkept).trans rfl⟩
  show execSupplyGlitch s = _
  rw [execSupplyGlitch, if_pos hp]

theorem tapIr_blind : PictureBlind State.tapIr := .of_unpictured fun _ => rfl

theorem tapIr_of_outside {s t : State} (h : t.outside = s.outside) : t.tapIr = s.tapIr := show t.outside.tapIr = s.outside.tapIr by rw [h]

/-- A zeroisation leaves the instruction of the TAP. -/
theorem zeroise_tapIr (s : State) : (zeroise s).tapIr = s.tapIr := by
  have hraise (u : State) : (secRaise 0x81 u).tapIr = u.tapIr := (tapIr_blind.sticky ..).trans rfl
  have hfill (u : State) : (fillProtected u).tapIr = u.tapIr := by
    rw [fillProtected, tapIr_of_outside (outside_wipePictures _)]
    exact wipeBuffers_untouched u (g := State.tapIr) (fun _ _ t => tapIr_blind.mem t _) _
  have hlose (u : State) : (loseProtected u).tapIr = u.tapIr := by
    unfold loseProtected
    extract_lets bs u1 u2
    have h2 : u2.tapIr = u.tapIr :=
      foldl_keeps (g := State.tapIr) (fun t b => (tapIr_blind.sendEvent ..).trans (tapIr_blind.mem t _)) bs u1
    split
    · exact h2
    · exact ((tapIr_blind.sticky ..).trans (tapIr_blind.mem ..)).trans h2
  unfold zeroise
  extract_lets s1 s2 s3
  have h1 : s1.tapIr = s.tapIr := (tapIr_blind.reports (endServices_only s)).trans rfl
  have h3 : s3.tapIr = s.tapIr := by
    simp only [s3]
    split <;> exact h1
  rw [hraise, hlose, hfill, h3]

theorem tamper_tapIr (cause : Nat) {s : State} (hp : s.powered = true) : (tamper cause s).tapIr = s.tapIr := by
  obtain ⟨z, hz, ht⟩ := tamper_powered (cause := cause) hp
  rw [ht, tapIr_blind.reports (logRec_only _ _ _ _ _ (onlyReports_refl _))]
  exact (hz ▸ zeroise_tapIr _ : z.tapIr = _)

/-- No light output is on once every chain is off. -/
theorem lightOff_chainsOff (s : State) :
    lightOff (s.onIll fun i => { i with code := 0, chains := i.chains.map fun c => { c with en := false } }) = true := by
  rw [lightOff, Bool.and_eq_true]
  refine ⟨rfl, List.all_eq_true.mpr fun c hc => ?_⟩
  simp only [State.onIll, Vector.toList_map, List.mem_map] at hc
  obtain ⟨d, -, rfl⟩ := hc
  rfl

theorem jtagInstruction_on {ir : BitVec 8} {s : State} (hp : s.powered = true) (hr : railOn 1 s = true) :
    ∃ t, exec (.jtagInstruction ir) s = .next t ∧ t.tapIr = ir ∧ t.xcl.tapHold = tapTest ir ∧
    (tapTest ir = true → lightOff t = true ∧ t.sec.st = if s.sec.st = .selftest ∨ s.sec.st = .error then s.sec.st else .zeroised) ∧
    (tapTest ir = false → t.sec = s.sec) := by
  refine ⟨_, rfl, ?_⟩
  rw [hr, Bool.not_true, if_neg Bool.false_ne_true]
  cases tapTest ir with
  | true =>
    obtain ⟨u, hu⟩ : ∃ u : State, u = { s with tapIr := ir } := ⟨_, rfl⟩
    have hpu : u.powered = true := hu ▸ hp
    have hir : (tamper 7 u).tapIr = ir := (tamper_tapIr 7 hpu).trans (hu ▸ rfl)
    have hst := tamper_st 7 hpu
    rw [show u.sec = s.sec from hu ▸ rfl] at hst
    dsimp only
    rw [← hu]
    exact ⟨hir, rfl, fun _ => ⟨lightOff_chainsOff _, hst⟩, nofun⟩
  | false => exact ⟨rfl, rfl, nofun, fun _ => rfl⟩

end Sys2Proof.Machine

namespace Sys2Proof.Proofs
open Sys2Proof.Machine

/-- Settles O58: each event by what it leaves of the management subsystem or of the enclave. -/
theorem managementAndEnclaveEvents : Obligations.ManagementAndEnclaveEvents := by
  refine ⟨fun s => bootImageVerify_cold, fun s => bootImageVerify_warm, fun sram s => mgtLockstepError_running sram, fun s => mgtWatchdog_running,
    fun s => bootImageVerify_reinit, fun s hs => ⟨mgtRun_good hs, mgtRun_bad⟩, fun s h u => flashEraseDone_begun,
    fun s h u hu => ⟨flashWriteDone_good hu, flashWriteDone_bad hu⟩, ?verified,
    fun s g h => fuseBurnDone_burned, fun s b => bootAllotment_due, fun s hs => ⟨_, eventLogFlush_running hs, rfl, rfl, rfl⟩,
    fun s hl hs => ⟨enclaveSelftestDone_passed hl hs, fun pass => enclaveSelftestDone_failed hl hs⟩,
    fun s hl ha => ⟨periodicSelftest_failed hl ha, drbgReseed_due hl ha⟩, fun s => entropyFailure_live,
    fun h k s => ⟨nonceExpire_over, loginLockoutEnd_over, kemContextExpire_over⟩, fun res s h hs => enclaveServiceDone_oldest,
    fun l sense temp s hp hlow hhigh => ⟨tamperSample_good hp hlow hhigh, tamperSample_second hp hlow hhigh⟩,
    fun s => supplyGlitch_powered, fun ir s => jtagInstruction_on⟩
  case verified =>
    intro s h u hu hi
    obtain ⟨t, hx, hupdate, hcmd, hslot⟩ := updateVerifyDone_ended hu
    exact ⟨t, hx, hupdate, hcmd, hslot hi⟩

end Sys2Proof.Proofs
end

section
/-!
PROOFS. Each named form completes (R442 to R444): a host command by the effect that its acceptance makes, an event by what is settled of it
above. O60 is settled here.
-/
namespace Sys2Proof.Machine

/-- A host command that passes its checks makes its effect in a state that differs from the one before only in reports. -/
theorem accepted_makes_effect {sp : OpSpec} {i : Cmd → Instr} (hexec : ∀ c s, exec (i c) s = .next (accept sp c s)) (c : Cmd) (s : State)
    (ha : accepted sp c s = true) : ∃ u t, exec (i c) s = .next t ∧ onlyReports s u ∧
      onlyReports (sp.effect (heldOf sp c (atChecks c s)) u).st t :=
  ⟨atEffect sp c s, accept sp c s, hexec c s, atEffect_only sp c s, accept_effect sp c s ha⟩

theorem enclaveSelftestDone_leaves {s : State} (hl : s.live = true) (hs : s.sec.st = .selftest) (hi : enclaveIntact s.mgt.sram = true) :
    ∃ t, exec (.enclaveSelftestDone true) s = .next t ∧ t.sec.st ≠ .selftest := by
  refine ⟨_, enclaveSelftestDone_passed hl hs hi, ?_⟩
  rw [State.onSec_sec]
  dsimp only
  split
  · decide
  · split <;> decide

/-- The first octet that serves is one of the port's. -/
theorem octetAt_zero {p k : Nat} {s : State} (h : octetAt p 0 s = some k) : 0 < (octetsOf p s).length :=
  List.length_pos_of_mem (octetAt_mem h)

/-- An ERRCNT message leaves each lane's count at least at what it carries. -/
theorem errcnt_first {p : Fin 4} {ws : List (BitVec 32)} {s : State} (hl : ws.length = 4 * (octetsOf p.val s).length) :
    ∃ t, exec (.errcnt p ws) s = .next t ∧ ∀ k, octetAt p.val 0 s = some k → (nth (s.octet k).lanes 0).pos = 0 →
      field (ws.getD 0 0).toNat 0 16 ≤ (nth (t.octet k).lanes 0).crcCnt.toNat := by
  refine ⟨_, rfl, fun k hk hpos => ?_⟩
  have hcnt := errcntMsg_crcCnt (p := p.val) (i := 0) hl (octetAt_zero hk) hk (by decide)
  rw [hpos] at hcnt
  exact (le_max_right ..).trans_eq hcnt.symm

/-- An ACK that answers a band reset takes it off those sent. -/
theorem ack_answers {p : Fin 4} {w1 w2 : BitVec 32} {s : State}
    (h : ∃ e ∈ (s.link p.val).sent, e.rseq.toNat = field w1.toNat 20 8 ∧ e.band.toNat = field w1.toNat 28 4) :
    ∃ t, exec (.ack p w1 w2) s = .next t ∧ (t.link p.val).sent.length + 1 = (s.link p.val).sent.length := by
  obtain ⟨e, he, hr, hb⟩ := h
  have hsome : ((s.link p.val).sent.find? fun e => e.rseq.toNat == field w1.toNat 20 8 && e.band.toNat == field w1.toNat 28 4).isSome = true :=
    List.find?_isSome.mpr ⟨e, he, by rw [hr, hb, beq_self_eq_true, beq_self_eq_true]; rfl⟩
  obtain ⟨f, hf⟩ := Option.isSome_iff_exists.1 hsome
  have hmem := List.mem_of_find?_eq_some hf
  refine ⟨_, rfl, ?_⟩
  rw [(ackMsg_effect hf).1, List.length_erase_of_mem hmem]
  exact Nat.sub_add_cancel (List.length_pos_of_mem hmem)

end Sys2Proof.Machine

namespace Sys2Proof.Proofs
open Sys2Proof.Machine

/-- Settles O60: the rows of host commands by `accepted_makes_effect`, the events by O36, O44, O50, O55 and O58. -/
theorem namedFormsComplete : Obligations.NamedFormsComplete := by
  obtain ⟨hbootCold, -, hlockstep, hwatchdog, -, hrun, herase, hwrite, -, hfuse, hallot, hflush, -, htests, hentropy, htimes, hservice, htamper,
    hglitch, hjtag⟩ := managementAndEnclaveEvents
  obtain ⟨hlost, habsent, hidleEnd, hrestart, hpass1, htrainFail, hlanemap, -, hctrl, hready, -, hmissing, hdefect, hstatus, hsave, hcaps, htemp,
    hstale, hscanData, hscanDone, hscanState, hscanTimeout, hpark, hframe⟩ := linkEventsAndArrayMessages
  refine ⟨?rows, ?cold, ?lockstep, ?watchdog, ?run, ?allot, ?flush, ?erase, ?write, ?verify, ?fuse, fun s => enclaveSelftestDone_leaves,
    ?periodic, ?reseed, ?entropy, ?nonce, ?lockout, ?kem, ?service, ?sample, ?glitch, ?jtag,
    fun h off v s hl => ⟨exec_registerWrite hl h off v, exec_i3cBar0Write hl off v⟩, ?memSticky, ?thermal, ?thermalRestart, ?interval, ?burst,
    ?lost, ?absent, ?idleEnd, ?restart, fun p s => hpass1 p s, ?trainFail, ?lanemap, fun p ws s => errcnt_first, ?ctrl, ?readyLink, ?readyOctet,
    fun p w1 w2 s => ack_answers, ?missing, ?defect, ?status, ?save, ?caps, ?temp, ?stale, ?scanData, ?scanDone, ?scanState, ?scanTimeout, ?park,
    ?frame⟩
  case rows =>
    iterate 78 refine List.forall_mem_cons.mpr ⟨accepted_makes_effect fun _ _ => rfl, ?_⟩
    exact List.forall_mem_nil _
  case cold =>
    intro s hl hs hw hstrap i is ho hok
    obtain ⟨t, hx, -, hslot⟩ := hbootCold s hl hs hw
    exact ⟨t, hx, (hslot i is hstrap ho hok).1⟩
  case lockstep =>
    intro sram s hl hs
    obtain ⟨t, hx, hcnt, -⟩ := hlockstep sram s hl hs
    exact ⟨t, hx, hcnt⟩
  case watchdog =>
    intro s hl hs
    obtain ⟨t, hx, -, hst, -⟩ := hwatchdog s hl hs
    exact ⟨t, hx, hst⟩
  case run =>
    intro s hs hsram hgood
    obtain ⟨t, hx, hst, -⟩ := (hrun s hs).1 hsram hgood
    exact ⟨t, hx, hst⟩
  case allot =>
    intro s b hb hm hr hp
    obtain ⟨t, h, hx, hmade, hpending, -⟩ := hallot s b hb hm hr hp
    exact ⟨t, hx, hmade, by rw [hpending]; rfl⟩
  case flush =>
    intro s hs
    obtain ⟨t, hx, hzero, -⟩ := hflush s hs
    exact ⟨t, hx, hzero⟩
  case erase =>
    intro s h u hu
    obtain ⟨t, hx, honly⟩ := herase s h u hu
    exact ⟨t, hx, (updateCmd_of_settings (only_mgt honly)).trans rfl⟩
  case write =>
    intro ok s h u hu
    obtain ⟨⟨t, hx, honly⟩, t', hx', honly'⟩ := hwrite s h u hu
    cases ok with
    | true => exact ⟨t, hx, (updateCmd_of_settings (only_mgt honly)).trans rfl⟩
    | false => exact ⟨t', hx', (updateCmd_of_settings (only_mgt honly')).trans rfl⟩
  case verify =>
    intro s h u hu
    obtain ⟨t, hx, hupdate, -⟩ := updateVerifyDone_ended hu
    exact ⟨t, hx, hupdate⟩
  case fuse =>
    intro s g h hg
    obtain ⟨t, hx, hfuses, -⟩ := hfuse s g h hg
    exact ⟨t, hx, fun hop => by rw [hfuses, if_pos hop]⟩
  case periodic =>
    intro s hl ha
    obtain ⟨t, hx, hst, -⟩ := (htests s hl ha).1
    exact ⟨t, hx, hst⟩
  case reseed => exact fun s hl ha hd => ⟨_, (htests s hl ha).2 (.inl hd), rfl⟩
  case entropy =>
    intro s hl
    obtain ⟨t, hx, hst, -⟩ := hentropy s hl
    exact ⟨t, hx, hst⟩
  case nonce => exact fun h s ho => ⟨_, (htimes h 0 s).1 ho, nth_upd_self _ _ _ (by omega)⟩
  case lockout => exact fun h s ho => ⟨_, (htimes h 0 s).2.1 ho, nth_upd_self _ _ _ (by omega)⟩
  case kem => exact fun k s ho => ⟨_, (htimes 0 k s).2.2 ho, nth_upd_self _ _ _ k.isLt⟩
  case service =>
    intro s h hs hq
    obtain ⟨t, hx, hrest, -⟩ := hservice .ok s h hs hq
    exact ⟨t, hx, hrest nofun⟩
  case sample => exact fun l temp s hp hlow hhigh => ⟨_, (htamper l _ temp s hp hlow hhigh).1 rfl, nth_upd_self _ _ _ l.isLt⟩
  case glitch =>
    intro s hp
    obtain ⟨t, hx, -, hcause, hbbram, -⟩ := hglitch s hp
    exact ⟨t, hx, hcause, hbbram⟩
  case jtag =>
    intro ir s hp hr
    obtain ⟨t, hx, hir, -⟩ := hjtag ir s hp hr
    exact ⟨t, hx, hir⟩
  case memSticky => exact fun h v s hl hd i hi => ⟨_, exec_write_single (a := 0xC0004) hl hd hi rfl rfl, rfl⟩
  case thermal =>
    intro rs s hl hclk
    obtain ⟨t, hx, hread, -⟩ := thermalSampleFollowsTheHottestReading.1 rs s hl hclk
    exact ⟨t, hx, fun n hn => (hread n hn).1⟩
  case thermalRestart =>
    intro s hl hdown hno hcool
    obtain ⟨t, hx, hended, -, -, hsticky⟩ := thermalSampleFollowsTheHottestReading.2 s hl hdown hno hcool
    exact ⟨t, hx, hended, by rw [hsticky]; exact getLsbD_or_of_right _ (by decide)⟩
  case interval =>
    intro p s hl h
    obtain ⟨t, hx, hcnt, -⟩ := laneFramesAreSent.1 p s hl
      (h.imp_right (Or.imp_right fun ⟨hr, hi⟩ => ⟨hr, fun hi' => absurd hi' (by rw [hi]; nofun)⟩))
    exact ⟨t, hx, hcnt⟩
  case burst =>
    intro p s hl hr hi hk
    obtain ⟨t, hx, hcnt, -⟩ := laneFramesAreSent.2 p s hl hr hi hk
    exact ⟨t, hx, hcnt⟩
  case lost =>
    intro k s ha hst hl i hi
    obtain ⟨t, hx, -, hgone, -⟩ := hlost k s ha hst hl i hi
    exact ⟨t, hx, hgone⟩
  case absent =>
    intro k s hst
    obtain ⟨t, hx, honly⟩ := habsent k s (.inl hst)
    refine ⟨t, hx, ?_⟩
    rw [only_octet honly, State.onOctet_self _ _ _ k.isLt]
    exact getLsbD_or_of_right _ (by decide)
  case idleEnd =>
    intro k s ha he hst hf hq
    obtain ⟨t, hx, hlock, -⟩ := hidleEnd k s ha he hst hf hq
    exact ⟨t, hx, hlock⟩
  case restart =>
    intro p s hf
    obtain ⟨t, hx, hwoken⟩ := hrestart p s hf
    exact ⟨t, hx, fun k hk => (hwoken k hk).1⟩
  case trainFail =>
    intro p s hne h
    obtain ⟨k, hk⟩ := List.exists_mem_of_ne_nil _ hne
    obtain ⟨t, hx, hfailed⟩ := htrainFail p s ⟨k, hk, h k hk⟩
    refine ⟨t, hx, fun k hk => ?_⟩
    obtain ⟨hst, hfail, -⟩ := hfailed k hk (by rw [(h k hk).1]; rfl) (by rw [(h k hk).1]; nofun)
    exact ⟨hst, hfail⟩
  case lanemap =>
    intro p ws s ha hne hl h hm
    exact ((hlanemap p ws s ha hne hl fun k hk => (h k hk).1).1 fun k hk => (h k hk).2).1 hm
  case ctrl =>
    intro p op s ha
    obtain ⟨t, hx, hcounted⟩ := hctrl p op s ha
    exact ⟨t, hx, fun k hk => (hcounted k hk).1⟩
  case readyLink =>
    intro s h hr
    obtain ⟨t, hx, hnone, -⟩ := (hready s).1 h hr
    exact ⟨t, hx, hnone⟩
  case readyOctet =>
    intro k s h cs hc
    obtain ⟨t, hx, honly, -⟩ := (hready s).2 k h cs hc
    refine ⟨t, hx, ?_⟩
    rw [only_octet honly, State.onOctet_self _ _ _ k.isLt]
  case missing =>
    intro p s h
    obtain ⟨t, hx, hcnt, -⟩ := (hmissing p s).1 h
    exact ⟨t, hx, hcnt⟩
  case defect =>
    intro p ws s hh hroom
    obtain ⟨t, hx, -, hmap⟩ := hdefect p ws s hh
    exact ⟨t, hx, hmap hroom⟩
  case status =>
    intro p ws s k hl hn hk hr hs
    exact (hstatus p ws s).2 hl hn 0 k 0 (octetAt_zero hk) hk hr hs (by decide)
  case save =>
    intro p s hd hc
    obtain ⟨t, hx, hclean, -⟩ := hsave p s hd hc
    exact ⟨t, hx, hclean⟩
  case caps =>
    intro p ws s ha hl hne h hf
    obtain ⟨t, hx, hvalid, -⟩ := (hcaps p ws s ha hl hne h).2 hf
    exact ⟨t, hx, hvalid⟩
  case temp =>
    intro p w s hh
    obtain ⟨t, hx, htmp, -⟩ := htemp p w s hh
    exact ⟨t, hx, htmp⟩
  case stale =>
    intro p s hst
    obtain ⟨t, hx, honly⟩ := hstale p s hst
    refine ⟨t, hx, ?_⟩
    rw [only_arr honly, State.onArr_self _ _ _ p.isLt]
  case scanData =>
    intro p ws s hr
    refine ⟨_, hscanData p ws s hr, ?_⟩
    rw [State.onArr_self _ _ _ p.isLt]
  case scanDone =>
    intro p w1 w2 w3 s hr
    obtain ⟨t, hx, hnone, -⟩ := hscanDone p w1 w2 w3 s hr
    exact ⟨t, hx, hnone⟩
  case scanState => exact fun p w s => ⟨_, hscanState p w s, congrArg LinkPort.asked (State.onLink_self s _ _ p.isLt)⟩
  case scanTimeout =>
    intro p s hr
    obtain ⟨t, hx, hnone, -⟩ := hscanTimeout p s hr
    exact ⟨t, hx, hnone⟩
  case park =>
    intro p w s hh
    obtain ⟨t, hx, hheard, -⟩ := hpark p w s hh
    exact ⟨t, hx, hheard⟩
  case frame =>
    intro k bits s ha hst hb hw hl hf
    obtain ⟨t, hx, hcnt, -⟩ := (hframe k bits s ha hst hb hw).1 hl hf
    exact ⟨t, hx, hcnt⟩

end Sys2Proof.Proofs
end
